-- ==== Sys2Proof/Word.lean ====
section
/-!
DEFINITION. The word and byte types and their plainest conversions.
-/
namespace Sys2Proof

/-- A BAR0 register word (R8) and a word of a core's memory: 32 bits. -/
abbrev Word := BitVec 32

/-- One byte of a memory. -/
abbrev Byte := BitVec 8

/-- A word from a natural number, modulo 2³². -/
abbrev Word.of (n : Nat) : Word := BitVec.ofNat 32 n

/-- The `w` low bits of a two's complement number, as a natural number. -/
def toBits (w : Nat) (x : Int) : Nat := (x % (2 ^ w : Nat)).toNat

/-- A natural number below `2 ^ w` read as a `w`-bit two's complement number. -/
def ofBits (w : Nat) (n : Nat) : Int :=
  let m := n % 2 ^ w
  if m < 2 ^ (w - 1) then (m : Int) else (m : Int) - (2 ^ w : Nat)

/-- Clamp to a closed range. -/
def clampNat (lo hi x : Nat) : Nat := max lo (min hi x)

/-- Clamp an integer to a closed range. -/
def clampInt (lo hi x : Int) : Int := max lo (min hi x)

/-- Saturate to the signed range of `w` bits. -/
def satInt (w : Nat) (x : Int) : Int := clampInt (-(2 ^ (w - 1) : Nat)) ((2 ^ (w - 1) : Nat) - 1) x

/-- Saturate to the unsigned range of `w` bits. -/
def satNat (w : Nat) (x : Nat) : Nat := min x (2 ^ w - 1)

end Sys2Proof
end

