-- ==== Sys2Proof/Syntax.lean ====
section
/-!
DEFINITION. The commands the block takes, whole: one constructor of `Instr` per row of the table of operations, with
the operands the environment supplies (written words, measured values, host-memory contents).
-/
namespace Sys2Proof

/-- A command descriptor of ring 0 (R294) with its parameter block, as the device reads them from host memory.
`word8` is PARAM_ADDR, or INLINE2 when `paramLen` is 0; `params` is the parameter block as words; `reserved` says that
a reserved bit of FLAGS or of the last word is set; `fetchOk` says that the parameter block read succeeded. -/
structure CmdHdr where
  tag : BitVec 16
  next : Bool
  target : BitVec 64
  paramLen : Nat
  word8 : BitVec 64
  inline : BitVec 32
  params : List Word
  reserved : Bool
  fetchOk : Bool
  deriving DecidableEq, Repr

/-- A ring descriptor posted by the host, as the device reads it: its 32 bytes as eight words (R288, R294, R297). -/
structure Desc where
  w0 : Word := 0
  w1 : Word := 0
  w2 : Word := 0
  w3 : Word := 0
  w4 : Word := 0
  w5 : Word := 0
  w6 : Word := 0
  w7 : Word := 0
  deriving DecidableEq, Repr

/-! Fields of a buffer descriptor (R297), and OWN, which every kind has. -/

/-- BUF_ADDR. -/
def Desc.addr (d : Desc) : Nat := d.w0.toNat + d.w1.toNat * 2 ^ 32

/-- BUF_LEN. -/
def Desc.len (d : Desc) : Nat := d.w2.toNat

/-- OWN. -/
def Desc.own (d : Desc) : Bool := d.w7.getLsbD 31

/-- Bytes 0–27 of a record descriptor are 0 (R292). -/
def Desc.zero (d : Desc) : Bool := (d.w0 ||| d.w1 ||| d.w2 ||| d.w3 ||| d.w4 ||| d.w5 ||| d.w6) == 0

/-! Fields of a command descriptor (R294). -/

/-- OPCODE. -/
def Desc.opcode (d : Desc) : Nat := d.w0.toNat % 256

/-- The command a ring-0 descriptor spells, with the parameter block it names and whether that could be read. -/
def Desc.cmd (d : Desc) (params : List Word) (fetchOk : Bool) : CmdHdr :=
  { tag := BitVec.ofNat 16 (d.w0.toNat / 2 ^ 16), next := d.w0.getLsbD 8,
    target := BitVec.ofNat 64 (d.w4.toNat + d.w5.toNat * 2 ^ 32), paramLen := d.w1.toNat,
    word8 := BitVec.ofNat 64 (d.w2.toNat + d.w3.toNat * 2 ^ 32), inline := d.w6, params := params,
    reserved := d.w0.toNat / 2 ^ 9 % 2 ^ 7 != 0 || d.w7.toNat % 2 ^ 31 != 0, fetchOk := fetchOk }

/-- The descriptor spells opcode `op` with the fields of `h`. -/
def Desc.spells (d : Desc) (op : Nat) (h : CmdHdr) : Bool := d.opcode == op && d.cmd h.params h.fetchOk == h

/-- Bits of scratchpad words that upsets have flipped since the command before: byte address in the core's scratchpad, and the
stored bits flipped: 32 data bits, then 7 check bits (R256). DESIGN CHOICE, log entry 7. -/
abbrev Upsets := List (Fin 0x40000 × BitVec 39)

/-- Bits of DRAM words that upsets have flipped since the command before: byte address in usable DRAM, and the stored bits
flipped: 64 data bits, then 8 check bits (R265). DESIGN CHOICE, log entry 7. -/
abbrev DramUpsets := List (Nat × BitVec 72)

/-- A word a march engine reads: core and array, the background of the eight in turn, element M0–M5, the word of the array
(row × 8 + word of the row), and the 78 stored bits read (R258). DESIGN CHOICE, log entry 7. -/
structure MarchRead where
  core : Fin 16
  array : Fin 4
  background : Fin 8
  element : Fin 6
  word : Fin 8192
  bits : BitVec 78
  deriving DecidableEq, Repr

/-- What a DRAM request asks for: a read of a number of bytes, or a write of bytes (R268). -/
inductive DramOp where
  | read (n : Nat)
  | write (data : List Byte)
  deriving DecidableEq, Repr

/-- What reaches the converter for a sequencer entry (R335–R343): the voltages in pV of the pins AIN0–AIN15 at the main, lead
and zero conversions (a pin not listed is at 0), the front end's residual offset in pV, the measured excitation current in pA,
whether the excitation pin was at compliance at any time, the value of an internal channel in the unit of R344, and the
conversion instant in device time. DESIGN CHOICE, log entry 7. -/
structure AuxMeas where
  main : List Int
  lead : List Int
  zero : List Int
  offset : Int
  current : Nat
  atCompliance : Bool
  channel : Int
  instant : Nat
  deriving DecidableEq, Repr

/-- What the monitors find in a diagnostic turn (R65): pumps open or short, the booster tap's energy of part A in 0.25 nJ, the
dump detector outside ±1 dB of booster energy, the dump detector's energy of part B in 0.25 nJ, leakage on a port tap, and the
laser current out of range. DESIGN CHOICE, log entry 7. -/
structure DiagFind where
  open0 : Bool
  short0 : Bool
  open1 : Bool
  short1 : Bool
  tapA : Nat
  dumpBad : Bool
  dumpB : Nat
  leak : Bool
  laserBad : Bool
  deriving DecidableEq, Repr

/-- What a port's receiver delivers of a turn (R96–R98, R110): the raw codes of its four channels over the port occupancy, one to
a tick, the first at the last whole tick at most D/2 before the launch instant (a code not listed is 0), and the LO
photocurrents in 0.1 µA. DESIGN CHOICE, log entry 7. -/
structure RxIn where
  xi : List (BitVec 12)
  xq : List (BitVec 12)
  yi : List (BitVec 12)
  yq : List (BitVec 12)
  loX : BitVec 15
  loY : BitVec 15
  deriving DecidableEq, Repr

/-- What happens as one frame is handed on: units whose capture interval could not be written in time (R216), units whose
shadow decision differs (R390), and the belt-frame engine's queue full (R203). DESIGN CHOICE, log entry 7. -/
structure FrameMarks where
  capDrop : BitVec 16 := 0
  differs : BitVec 16 := 0
  beltFull : Bool := false
  deriving DecidableEq, Repr

/-- The fields of a heartbeat of the partner (R363). DESIGN CHOICE, log entry 7. -/
structure Heartbeat where
  time : BitVec 64
  round : BitVec 48
  state : BitVec 3
  armed : Bool
  tko : Bool
  chan : BitVec 8
  faults : BitVec 12
  breaks : BitVec 12
  dout : BitVec 4
  alarm : BitVec 8
  ack : BitVec 32
  pimgSeq : BitVec 32
  deriving DecidableEq, Repr

/-- An identity frame of the partner (R362): part code, stepping, laser channel, role, its loops as port, partner port and
bins; and whether the device's own identity is acknowledged (R361). DESIGN CHOICE, log entry 7. -/
structure Identity where
  part : BitVec 16
  stepping : BitVec 4
  chan : BitVec 6
  roleB : Bool
  loops : List (Nat × Nat × Nat)
  acked : Bool
  deriving DecidableEq, Repr


/-- The commands of the block: one constructor per row of the table of operations. -/
inductive Instr where
  /-- POWER_ON (R411): VAUX rises above 3.00 V after being below 2.90 V: device time restarts at 0, the VAUX domain restores its counts and scans the recorder, and the device is held in reset until both supplies are valid. -/
  | powerOn
  /-- VAUX_LOSS (R411): VAUX falls below 2.90 V: the VAUX domain stops and the device is reset. -/
  | vauxLoss
  /-- RESET_RELEASE (R411): Reset is released once VIN and VAUX are valid (and the cause's hold condition has ended): the device enters BOOT at step 0x0. -/
  | resetRelease
  /-- VIN_WARNING (R414): VIN falls through the warning threshold: EV56 is raised, a PWR_WARN record is queued at the head, pumps and cooler are shed, and any fuse burn in progress is abandoned. VIN in mV, and the columns of a fuse burn in progress that are done. -/
  | vinWarning (vin : BitVec 16) (burnt : Nat)
  /-- VIN_WARNING_CLEAR (R414): VIN rises through the warning-clear threshold for 1 ms: SHED returns to 0 and the cooler resumes at once; the pumps resume at the next round start. -/
  | vinWarningClear
  /-- VIN_UV (R412): VIN falls through the reset threshold: the device is reset with cause VIN_UV. -/
  | vinUv
  /-- VIN_OV (R412): VIN rises above the over-voltage threshold: the device is reset with cause VIN_OV. -/
  | vinOv
  /-- RAIL_FAULT (R416): A rail supervisor trips: the whole device is reset with cause RAIL. Codes of R416 and R419. -/
  | railFault (rail : Fin 256) (die : Fin 8) (ov : Bool)
  /-- THERMAL_SHUTDOWN (R420): A die reaches its shutdown temperature: the device is reset with cause THERMAL, and emission stops at once. -/
  | thermalShutdown (die : Fin 8)
  /-- PERST_N (R417): PERST_N goes low: fundamental reset of the whole device with cause PERST. -/
  | perstN
  /-- HOT_RESET (R281): PCI Express hot reset: only the function, the HIF and DBL registers and the rings are reset. -/
  | hotReset
  /-- FUNCTION_LEVEL_RESET (R281): Function level reset: only the function, the HIF and DBL registers and the rings are reset. -/
  | functionLevelReset
  /-- D3HOT_ENTRY (R283): The function enters D3hot: the device stops all requests on the link, and discards and counts the blocks that fall due. -/
  | d3hotEntry
  /-- D0_RETURN (R283): The function returns to D0: head shadows are written within 1 µs, and pending MSI-X vectors are sent. -/
  | d0Return
  /-- PCIE_LINK_CHANGE (R424): The PCI Express link trains or goes down: HIF_LINK is updated. -/
  | pcieLinkChange (width speed : Fin 16)
  /-- BOOT_FUSE_LOAD (R423): BOOT step 0x0 completes: PLLs lock, fuses and repairs load, scratchpads are zero-filled, and the RESET record is queued. -/
  | bootFuseLoad (ok : Bool)
  /-- BOOT_MARCH (R260): The boot march of step 0x1 completes, when enabled, with soft repair under R261. The words the march engines read. -/
  | bootMarch (reads : List MarchRead)
  /-- IMAGE_LOAD (R429): Step 0x2 completes: the newest valid image slot is verified and applied, or IMAGE_NONE is set and the device enters SETUP. `flash`: size in MiB (0 when SFDP gives none) and page size of the flash that answered. -/
  | imageLoad (flash : Option (BitVec 16 × Nat))
  /-- COOLER_SETTLE (R42): Cooler settle completes after |TEMP_ERR| < 0.01 K has held for 1 s, or fails and the device enters SAFE. -/
  | coolerSettle (ok : Bool)
  /-- LASER_LOCK (R38): The lock is declared after |FREQ_ERR| ≤ 5 MHz has held for 10 ms: LOCKED becomes 1, in BOOT or after a relock. The readings of SRC_LASER_STATUS. -/
  | laserLock (freqErr : BitVec 16) (current : BitVec 12)
  /-- LASER_UNLOCK (R38): |FREQ_ERR| exceeds 20 MHz: LOCKED becomes 0, and the LASER_UNLOCK cause or the TEC cause follows. The readings of SRC_LASER_STATUS. -/
  | laserUnlock (freqErr : BitVec 16) (current : BitVec 12)
  /-- DRAM_TRAINING (R267): Step 0x5 completes: DRAM training and fill finish with INIT_DONE, or training fails with DRAM_FAILED. Channels that failed training. -/
  | dramTraining (failed : BitVec 4)
  /-- BOOT_CALIBRATION (R435): Step 0x6 completes: the start-up calibration set applies, the device enters SETUP, and it auto-starts if the image asks. `values`: measured values of result registers; `devMissing`: device items 8–11 missing; `sat`, `devSat`: coefficients saturated. -/
  | bootCalibration (values : List (Nat × Word)) (devMissing : BitVec 4) (sat : BitVec 12) (devSat : Bool)
  /-- START (R28): GLB_CTRL.START written in SETUP: the configuration is committed and the device starts, or it stays in SETUP with COMMIT_FAIL set. -/
  | start
  /-- STOP (R28): GLB_CTRL.STOP written in RUNNING or DEGRADED: no further round starts, and the device goes to SETUP once the last frame is written. -/
  | stop
  /-- STOP_COMPLETE (R28): The last frame of the last launched turn is written after a stop: the device state changes to SETUP. -/
  | stopComplete
  /-- ENTER_SAFE (R394): GLB_CTRL.ENTER_SAFE written: the device enters SAFE at once, with SAF_SAFE_CAUSE 0xFE. -/
  | enterSafe
  /-- SOFT_RESET (R34): GLB_CTRL.SOFT_RESET written with RESET_KEY 0xD5: the whole device is reset except the VAUX domain. -/
  | softReset
  /-- BOOT_RESUME (R425): GLB_BOOT_CTRL.RESUME written with key 0x6B while IMAGE_NONE = 1: steps 0x3–0x6 run. The word written to GLB_BOOT_CTRL. -/
  | bootResume (w : Word)
  /-- QSPI_READ (R431): QSPI READ operation started through GLB_QSPI_CMD. The word written to GLB_QSPI_CMD. -/
  | qspiRead (w : Word)
  /-- QSPI_PROGRAM (R431): QSPI PROGRAM operation started, or refused if it touches the booted slot. The word written to GLB_QSPI_CMD. -/
  | qspiProgram (w : Word)
  /-- QSPI_ERASE_4K (R431): QSPI ERASE_4K operation started, or refused. The word written to GLB_QSPI_CMD. -/
  | qspiErase4k (w : Word)
  /-- QSPI_ERASE_64K (R431): QSPI ERASE_64K operation started, or refused. The word written to GLB_QSPI_CMD. -/
  | qspiErase64k (w : Word)
  /-- QSPI_READ_ID (R431): QSPI READ_ID operation started. The word written to GLB_QSPI_CMD. -/
  | qspiReadId (w : Word)
  /-- QSPI_COMPLETE (R431): A flash operation completes: DONE and ERR are set, and EV63 is raised. The identification bytes of READ_ID, or what an operation that timed out left. -/
  | qspiComplete (timeout : Bool) (data : List Byte)
  /-- LASER_CH_WRITE (R39): A write of SRC_LASER_CFG.CH in SETUP starts a relock at once. The word written to SRC_LASER_CFG. -/
  | laserChWrite (w : Word)
  /-- TRIM_WRITE (R184): A write of TMB_TRIM in SETUP sets a new trim target. The word written to TMB_TRIM. -/
  | trimWrite (w : Word)
  /-- TRIM_STEP (R184): TMB_TRIM_USED moves one 0.01 ppb step towards its target. -/
  | trimStep
  /-- FSP_WRITE (R272): A write of DMC_CFG.FSP in BOOT or SETUP requests a set-point change. The word written to DMC_CFG. -/
  | fspWrite (w : Word)
  /-- BRL_REF_DATA_ACCESS (R168): An access to BRL_REF_DATA reads or writes one reference entry and advances BRL_REF_ADDR.CELL. The word of a write. -/
  | brlRefDataAccess (write : Option Word)
  /-- START_NOW (R248): ACRk_CTRL.START_NOW written in SETUP: the core starts at ENTRY. `w`: the word written to ACRk_CTRL. -/
  | startNow (k : Fin 16) (w : Word)
  /-- STOP_NOW (R248): ACRk_CTRL.STOP_NOW written in SETUP: the core stops with cause HOST. `w`: the word written to ACRk_CTRL. -/
  | stopNow (k : Fin 16) (w : Word)
  /-- MARCH_START (R260): ACR_MARCH_CTRL.START written: a march runs on the selected stopped cores. `w`: the word written. -/
  | marchStart (w : Word)
  /-- MARCH_COMPLETE (R261): A march run ends: failing columns are soft-repaired, SPM status is set, and EV41 is raised. The words the march engines read. -/
  | marchComplete (reads : List MarchRead)
  /-- FUSE_BURN (R263): ACR_FUSE_CTRL.BURN written with key 0xA7 in SETUP: burning of the core's soft assignments starts. `w`: the word written. -/
  | fuseBurn (w : Word)
  /-- FUSE_BURN_COMPLETE (R263): A fuse burn completes: ACR_FUSE_STATUS is written and EV41 is raised. -/
  | fuseBurnComplete
  /-- SAF_ACK (R380): SAF_ACK written with key 0x5A: latched alarms of the selected channels end if no cause is present. `w`: the word written. -/
  | safAck (w : Word)
  /-- SAF_PIN_TEST (R383): SAF_PIN_TEST written with key 0x3C: the selected pins are released for 10 ms, EV53 is raised, and a DEGRADED record is queued. `w`: the word written. -/
  | safPinTest (w : Word)
  /-- PIN_TEST_END (R383): The 10 ms of a pin test expire and the pins return to their normal drive. -/
  | pinTestEnd
  /-- DOORBELL (R289): A write to DBL_RINGr sets a new tail, or is ignored with DOORBELL_RANGE. Every descriptor from the head to the new tail, as host memory holds it. -/
  | doorbell (r : Fin 32) (tail : BitVec 16) (descs : List Desc)
  /-- RING_CTRL_WRITE (R293): A write of HIF_RINGr_CTRL enables a ring and zeroes head, tail and SEQ, or disables it. The word written. -/
  | ringCtrlWrite (r : Fin 32) (w : Word)
  /-- LO_WORD_READ (R11): A read of the LO word of a LO/HI pair copies the high word into the pair's latch. The BAR0 offset of the low word. -/
  | loWordRead (off : Nat)
  /-- BAR0_BAD_ACCESS (R9): A BAR0 access that is not aligned 32-bit has no register effect, and raises EV47. -/
  | bar0BadAccess (write : Bool)
  /-- HOST_MEM_ACCESS (R227): A host access to a core's program memory or scratchpad acts while the core is stopped or faulted; otherwise it is rejected and counted. BAR0 offset, the word of a write, and upsets of the core's scratchpad. -/
  | hostMemAccess (off : Nat) (write : Option Word) (ups : Upsets)
  /-- BAR2_READ (R276): A host read of the BAR2 DRAM window returns corrected data, or all ones, or raises EV47. The access, and upsets of the DRAM. -/
  | bar2Read (off size : Nat) (write : Bool) (ups : DramUpsets)
  /-- REGISTER_WRITE (R6): A write to a register with no row of its own acts by field type; an RWL write refused while running is counted. `off`: the BAR0 offset; `w`: the word written. -/
  | registerWrite (off : Nat) (w : Word)
  /-- NOP (R306): NOP command: completes OK at its target round as a marker. `h`: the descriptor and its parameter block. -/
  | nop (h : CmdHdr)
  /-- CANCEL (R305): CANCEL command: cancels the oldest in-progress command with the given TAG. `h`: the descriptor and its parameter block. -/
  | cancel (h : CmdHdr)
  /-- EVR_MARK (R401): EVR_MARK command: queues a HOST_MARK record. `h`: the descriptor and its parameter block. -/
  | evrMark (h : CmdHdr)
  /-- STOP_COMMAND (R304): STOP command: no round starts from its target onwards. `h`: the descriptor and its parameter block. -/
  | stopCommand (h : CmdHdr)
  /-- LCH_WRITE (R90): LCH_WRITE command: edits the scheduler shadow configuration. `h`: the descriptor and its parameter block. -/
  | lchWrite (h : CmdHdr)
  /-- LCH_COMMIT (R90): LCH_COMMIT command: checks the shadow and makes it pending for its target round. `h`: the descriptor and its parameter block. -/
  | lchCommit (h : CmdHdr)
  /-- LCH_SHADOW_RESET (R306): LCH_SHADOW_RESET command: copies the active configuration to the shadow. `h`: the descriptor and its parameter block. -/
  | lchShadowReset (h : CmdHdr)
  /-- ZONE_SET (R104): ZONE_SET command: changes zone codes, boundaries or the group index of one port at its target round. `h`: the descriptor and its parameter block. -/
  | zoneSet (h : CmdHdr)
  /-- PE_SET (R306): PE_SET command: changes phase-engine settings at its target round. `h`: the descriptor and its parameter block. -/
  | peSet (h : CmdHdr)
  /-- PORT_RESTORE (R69): PORT_RESTORE command: ends automatic power reduction on a port that is clear, or completes NOT_CLEAR. `h`: the descriptor and its parameter block. -/
  | portRestore (h : CmdHdr)
  /-- LF_REBASE (R126): LF_REBASE command: clears the accumulators and continuity breaks of the named ports. `h`: the descriptor and its parameter block. -/
  | lfRebase (h : CmdHdr)
  /-- FLT_SET (R152): FLT_SET command: changes filter-chain settings, zeroing the state where R152 says so. `h`: the descriptor and its parameter block. -/
  | fltSet (h : CmdHdr)
  /-- BRL_SET (R163): BRL_SET command: changes Brillouin settings at its target round. `h`: the descriptor and its parameter block. -/
  | brlSet (h : CmdHdr)
  /-- REF_LOAD (R168): REF_LOAD command: writes Brillouin reference entries of one port. `h`: the descriptor and its parameter block. -/
  | refLoad (h : CmdHdr)
  /-- REF_LEARN (R169): REF_LEARN command: restarts the port's period and learns references at its close. `h`: the descriptor and its parameter block. -/
  | refLearn (h : CmdHdr)
  /-- BLT_SET (R202): BLT_SET command: changes timing-input, belt or route settings, closing the map period where R202 says so. `h`: the descriptor and its parameter block. -/
  | bltSet (h : CmdHdr)
  /-- TRIM (R184): TRIM command: sets a new trim target at its target round. `h`: the descriptor and its parameter block. -/
  | trim (h : CmdHdr)
  /-- TRG_SET (R209): TRG_SET command: changes trigger, output or tile-summary settings, with the state changes of R209. `h`: the descriptor and its parameter block. -/
  | trgSet (h : CmdHdr)
  /-- TRG_ARM (R209): TRG_ARM command: arms the stopped units in its mask. `h`: the descriptor and its parameter block. -/
  | trgArm (h : CmdHdr)
  /-- TRG_DISARM (R209): TRG_DISARM command: stops the units in its mask, after any capture completes. `h`: the descriptor and its parameter block. -/
  | trgDisarm (h : CmdHdr)
  /-- DOUT_SET (R224): DOUT_SET command: puts a command drive in force on the outputs in its mask. `h`: the descriptor and its parameter block. -/
  | doutSet (h : CmdHdr)
  /-- DOUT_CLEAR (R224): DOUT_CLEAR command: ends the command drive and the latch of the outputs in its mask. `h`: the descriptor and its parameter block. -/
  | doutClear (h : CmdHdr)
  /-- AC_START (R248): AC_START command: starts a stopped or faulted core, or completes BUSY or SPM_FAIL. `h`: the descriptor and its parameter block. -/
  | acStart (h : CmdHdr)
  /-- AC_STOP (R248): AC_STOP command: stops a running core with cause HOST. `h`: the descriptor and its parameter block. -/
  | acStop (h : CmdHdr)
  /-- AC_CONFIG (R248): AC_CONFIG command: changes the configuration of a stopped core, or completes BUSY or CONFLICT. `h`: the descriptor and its parameter block. -/
  | acConfig (h : CmdHdr)
  /-- DMC_SET (R272): DMC_SET command: changes DRAM controller settings, including a set-point request. `h`: the descriptor and its parameter block. -/
  | dmcSet (h : CmdHdr)
  /-- AUX_SET (R355): AUX_SET command: changes auxiliary settings at its target round or pass. `h`: the descriptor and its parameter block. -/
  | auxSet (h : CmdHdr)
  /-- CMP_SET (R306): CMP_SET command: changes compression and product settings at its target round. `h`: the descriptor and its parameter block. -/
  | cmpSet (h : CmdHdr)
  /-- CAL_RUN (R437): CAL_RUN command: starts a calibration run at its target round start. `h`: the descriptor and its parameter block. -/
  | calRun (h : CmdHdr)
  /-- CAL_PIN (R441): CAL_PIN command: pins or releases the coefficient set in force. `h`: the descriptor and its parameter block. -/
  | calPin (h : CmdHdr)
  /-- CAL_RESTORE (R441): CAL_RESTORE command: brings the previous set or the start-up set into force. `h`: the descriptor and its parameter block. -/
  | calRestore (h : CmdHdr)
  /-- PAIR_SET (R369): PAIR_SET command: changes pair settings and rechecks the takeover configuration. `h`: the descriptor and its parameter block. -/
  | pairSet (h : CmdHdr)
  /-- FAILBACK (R375): FAILBACK command: returns from takeover to the home configuration, or completes NOT_CLEAR or COMMIT_FAIL. `h`: the descriptor and its parameter block. -/
  | failback (h : CmdHdr)
  /-- ROUND_START (R22): A round start falls, time-locked, at the predicted belt tick or at MAX_PERIOD; every pending change, command, commit, calibration set and period close is applied at it. `refs`: the references the partner holds, per port, from cell 0 (R366). -/
  | roundStart (refs : List (Fin 12 × List Word))
  /-- TURN_DUE (R87): A turn's leading edge falls due: it is launched, begins a slide, or is skipped, after the bank estimate is compared with its energy. -/
  | turnDue
  /-- SLID_TURN_LAUNCH (R87): A sliding turn is launched once the bank estimate covers its energy. -/
  | slidTurnLaunch
  /-- SLIDE_LIMIT_EXPIRY (R87): The slide limit runs out and the turn is skipped. -/
  | slideLimitExpiry
  /-- DIAG_TURN (R63): A dump diagnostic turn launches part A and any replica part B. -/
  | diagTurn
  /-- DIAG_TURN_RESULTS (R65): Diagnostic turn results complete 4 µs after part B and are recorded in SRC_DIAG_STATUS. What the monitors find. -/
  | diagTurnResults (f : DiagFind)
  /-- TAP_CHECK (R59): The tap monitors check a turn's energy, route and leakage 1 µs after its probe ends. Booster tap energy in 0.25 nJ, the selected port's tap below its share by more than 3 dB, and leakage. -/
  | tapCheck (energy : Nat) (routeLow leak : Bool)
  /-- OVERPOWER_TRIP (R48): The booster tap sees a peak above +28.0 dBm: the switch is parked at the dump, both pumps go off, and OVERPOWER is set. -/
  | overpowerTrip
  /-- PUMP_GATE_OPEN (R56): An economy pump gate opens ECO_LEAD before a probe. -/
  | pumpGateOpen
  /-- PUMP_GATE_CLOSE (R56): An economy pump gate closes ECO_LEAD after a probe. -/
  | pumpGateClose
  /-- PUMP_OPEN_SHORT (R55): A pump is found open or short: its regulator is shut off, and refill drops from the next round. -/
  | pumpOpenShort (p : Fin 2) (short : Bool)
  /-- PUMP_LIMIT (R54): A pump holds 1.2 A for 1 s: PUMP_LIMIT is set and EV12 is raised. -/
  | pumpLimit (p : Fin 2)
  /-- TEC_LIMIT (R41): A cooler condition holds: LIMIT is set and EV15 is raised. The readings of SRC_TEC_STATUS. -/
  | tecLimit (current : BitVec 12) (tempErr : BitVec 16)
  /-- TEC_LIMIT_CLEAR (R41): Neither cooler condition has held for 1 s and LIMIT clears. The readings of SRC_TEC_STATUS. -/
  | tecLimitClear (current : BitVec 12) (tempErr : BitVec 16)
  /-- LOSHIFT_SETTLED (R47): The LO-shift synthesiser settles and SETTLED becomes 1. -/
  | loshiftSettled
  /-- ZONE_STEP (R102): The TIA code changes at a zone boundary's sample instant within a listen window. -/
  | zoneStep (n : Fin 12) (k : Fin 8)
  /-- ADC_LINK_ERROR (R110): A CRC error on a converter die link raises PORT_FAULT on every port of that die. Converter die A or B. -/
  | adcLinkError (die : Fin 2)
  /-- FRAME_COMPLETE (R124): A Rayleigh frame is complete and is handed to the filter chain, the trigger engine, the belt frame, the cores and the product framing, with its checks made. The raw codes of its occupancy, and what happens as each frame this writes is handed on. -/
  | frameComplete (n : Fin 12) (rx : RxIn) (marks : List FrameMarks)
  /-- MISSING_RUN_TIMEOUT (R117): A missing-frame run reaches FILL_MAX + 1, or a further missing frame's time comes, and GAP frames are written. What happens as each frame this writes is handed on. -/
  | missingRunTimeout (n : Fin 12) (marks : List FrameMarks)
  /-- CAPTURE_READOUT (R217): A capture record is copied to its ring, then the unit rearms or stops. -/
  | captureReadout (u : Fin 16)
  /-- DOUT_HOLD_EXPIRY (R224): An output's hold after a firing expires. -/
  | doutHoldExpiry (k : Fin 4)
  /-- BRL_TURN_COMPLETE (R158): A Brillouin turn's spectra are accumulated into the stacks, or it is dropped; its route is checked. The raw codes of its occupancy, and whether the engine's input queue is full. -/
  | brlTurnComplete (n : Fin 12) (rx : RxIn) (full : Bool)
  /-- BRL_FIT_COMPLETE (R164): A port's period fit completes: the product goes to ring 15 and EV32 is raised. Units whose shadow decision differs (R390). -/
  | brlFitComplete (n : Fin 12) (differs : BitVec 16)
  /-- BELT_MAP_SCORE_DONE (R200): Scoring of a closed map completes: the map product is written and EV33 is raised. -/
  | beltMapScoreDone (k : Fin 8)
  /-- TIN_EDGE (R176): A timing-input edge is counted and possibly stamped, updating pair units, index and position. An edge at the present tick and `pip`; `short`: it ends a pulse shorter than 10 ns, and whether counting caught it; `differs`: units whose shadow decision differs. -/
  | tinEdge (j : Fin 8) (rising : Bool) (pip : Fin 256) (short : Option Bool) (differs : BitVec 16)
  /-- PAIR_HOLD_EXPIRY (R181): A held stop finds no start within W/2 and is dropped. -/
  | pairHoldExpiry (p : Fin 4)
  /-- PAIR_ORPHAN (R181): A start remains unpaired for W and is orphaned. -/
  | pairOrphan (p : Fin 4)
  /-- GATE_PIN_EDGE (R179): An edge on GATE opens or closes gates in GATE-pin mode. The level after the edge; `differs`: units whose shadow decision differs. -/
  | gatePinEdge (high : Bool) (differs : BitVec 16)
  /-- TIN_GATE_CLOSE (R180): A regression gate closes, the fit is made, and slip is computed. `differs`: units whose shadow decision differs. -/
  | tinGateClose (j : Fin 8) (differs : BitVec 16)
  /-- PPS_EDGE (R186): An active PPS edge is stamped and drives the discipline states. The active edge at the present tick and `pip`. -/
  | ppsEdge (pip : Fin 256)
  /-- PPS_TIMEOUT (R186): No PPS edge arrives within 1.1 s: the discipline goes to HOLDOVER and EV59 is raised. -/
  | ppsTimeout
  /-- BLANK_INPUT_CHANGE (R351): A blanking input becomes active or inactive after its qualification time. -/
  | blankInputChange (j : Fin 2) (active : Bool)
  /-- AUX_PASS_START (R345): A sequencer pass starts, or it is missed under R347. -/
  | auxPassStart
  /-- AUX_CONVERSION_COMPLETE (R343): An entry's conversions complete and its value is formed, with its excitation checks. What the converter measures for the entry under way; `differs`: units whose shadow decision differs. -/
  | auxConversionComplete (m : AuxMeas) (differs : BitVec 16)
  /-- HK_CONVERSION (R348): A housekeeping conversion falls due and updates AUX_HKc, with the thermal warning. The value of the channel due, in the unit of R344. -/
  | hkConversion (value : BitVec 32) (late : Bool)
  /-- REF_SETTLED (R342): A reference has met its condition for its settling time. The reference by its REF code. -/
  | refSettled (r : Fin 3)
  /-- KAT_START (R388): A port's known-answer test begins in its longest free interval. -/
  | katStart (n : Fin 12)
  /-- KAT_RESULT (R389): The known-answer test comparison completes; a failure raises PORT_FAULT and reports PORT_KAT. -/
  | katResult (n : Fin 12) (crc : Word)
  /-- CAL_SLICE (R434): A calibration slice of 4 µs measures port items. The port whose slice is complete. -/
  | calSlice (n : Fin 12)
  /-- CAL_RUN_COMPLETE (R438): A calibration run is complete: results are held, PENDING is set, and EV37 is raised. Measured result registers, device items missing, and coefficients saturated. -/
  | calRunComplete (values : List (Nat × Word)) (devMissing : BitVec 4) (sat : BitVec 12) (devSat : Bool)
  /-- CAL_TIMEOUT (R438): TIMEOUT_S passes and the run completes with the remaining items missing. Measured result registers, device items missing, and coefficients saturated. -/
  | calTimeout (values : List (Nat × Word)) (devMissing : BitVec 4) (sat : BitVec 12) (devSat : Bool)
  /-- LOCKSTEP_MISMATCH (R387): The scorekeeper processors disagree and the device enters SAFE. -/
  | lockstepMismatch
  /-- CLOCK_FAULT (R387): The clock monitor finds a clock outside ±2 % of nominal. -/
  | clockFault
  /-- SAFETY_SWEEP (R387): A background sweep checks configuration CRCs, port memories, the time base and the scorekeeper self-test. What the sweep finds. -/
  | safetySweep (selfTestOk configBad : Bool) (portMem : BitVec 12) (timeBad : Bool)
  /-- SCOREKEEPER_TOGGLE_LOSS (R379): The 100 kHz toggle stops and the drive stage releases both pins. -/
  | scorekeeperToggleLoss
  /-- PIN_READBACK (R451): A HEALTHY pin readback mismatch has held for 10 µs. -/
  | pinReadback (c : Fin 2)
  /-- PIN_REDRIVE (R382): A pin returns to driven 1 ms after its release conditions end. -/
  | pinRedrive (c : Fin 2)
  /-- ALARM_HOLD_EXPIRY (R380): An unlatched alarm's HOLD_MS expires. -/
  | alarmHoldExpiry (c : Fin 2)
  /-- EVR_RECORD_WRITE (R404): The queued record at the head is written to MRAM and verified, and EV62 is raised. Bytes 8–255 of the slot as read back, where verification fails. -/
  | evrRecordWrite (fail : Option (List Byte))
  /-- EVR_OP_SAVE (R407): OP_SECONDS is saved to the recorder every 60 s. -/
  | evrOpSave
  /-- DRAM_REQUEST (R268): A client DRAM request is served in priority order, with ECC checking. The request that arrives, of a client at a usable address, if one does, and upsets of the DRAM. -/
  | dramRequest (req : Option (Fin 7 × Nat × DramOp)) (ups : DramUpsets)
  /-- BAR2_PROMOTION (R268): A BAR2 read that has waited 50 µs is promoted above every client. -/
  | bar2Promotion
  /-- DRAM_REFRESH (R270): A per-bank refresh command falls due, or is postponed. The channel and its pair of banks, and the commands issued now: none where it is postponed. -/
  | dramRefresh (ch : Fin 4) (pair : Fin 8) (issued : Fin 10)
  /-- DRAM_RETRAIN (R271): Periodic retraining of a channel falls due, every 100 ms or on a 5 K change. The channel, and its die's temperature in 0.01 K. -/
  | dramRetrain (ch : Fin 4) (temp : Int)
  /-- FSP_CHANGE (R272): A deferred or requested set-point change is made. -/
  | fspChange
  /-- SELF_REFRESH_ENTRY (R273): The idle time expires and all channels enter self-refresh. -/
  | selfRefreshEntry
  /-- SELF_REFRESH_EXIT (R273): A request ends self-refresh residency. `waited`: requests that waited for entry. -/
  | selfRefreshExit (waited : Nat)
  /-- SCRUB_READ (R274): The scrubber reads a block and rewrites it if corrected. Upsets of the DRAM; `late`: the pass did not complete within SCRUB_H. -/
  | scrubRead (a : Nat) (ups : DramUpsets) (late : Bool)
  /-- BLOCK_WRITE (R298): A product block is written into posted descriptors, or is discarded whole. -/
  | blockWrite (r : Fin 32)
  /-- EVENT_HOLDOFF_EXPIRY (R313): A source's record hold-off ends and merged raises are written as one record. -/
  | eventHoldoffExpiry (q : Fin 64)
  /-- MSIX_HOLDOFF_EXPIRY (R314): A pending vector's HOLDOFF_US passes and its message is sent. -/
  | msixHoldoffExpiry (v : Fin 32)
  /-- MSIX_UNMASK (R314): A masked pending vector is unmasked and sends. -/
  | msixUnmask (v : Fin 32)
  /-- HOST_DMA_ERROR (R292): A device request for a ring completes with an error or times out, and the ring is disabled. -/
  | hostDmaError (r : Fin 32)
  /-- COMPRESS_COMPLETE (R331): A DEFLATE engine finishes a block's payload. -/
  | compressComplete (e : Fin 4)
  /-- FEED_SLOT_READY (R244): A staged frame is fully written into a scratchpad slot and becomes ready. -/
  | feedSlotReady (k : Fin 16)
  /-- CORE_OUT_BLOCK (R245): The DMA reads a queued output block and writes it as a core-output block. Upsets of the scratchpad. -/
  | coreOutBlock (k : Fin 16) (ups : Upsets)
  /-- CORE_DMA_COMPLETE (R246): A DRAM transfer of a core completes. Upsets of the scratchpad and of the DRAM; `late`: it waited over 100 µs. -/
  | coreDmaComplete (k : Fin 16) (ups : Upsets) (dups : DramUpsets) (late : Bool)
  /-- CORE_DMA_ABANDON (R248): A DRAM transfer still queued 100 µs after a stop is abandoned with DFAIL. -/
  | coreDmaAbandon (k : Fin 16)
  /-- CORE_STOP_COMPLETE (R248): A stopping core finishes its outputs and releases its slots, and its state changes. -/
  | coreStopComplete (k : Fin 16)
  /-- CORE_WATCHDOG (R250): The watchdog count reaches WDOG_US and the core takes a WATCHDOG fault. -/
  | coreWatchdog (k : Fin 16)
  /-- AC_DMA_STARVE (R255): STARVE_LIMIT consecutive waiting cycles raise EV43. `run`: the consecutive waiting cycles. -/
  | acDmaStarve (k : Fin 16) (run : Nat)
  /-- NOP_INSTRUCTION (R236): Core instruction NOP. Core `k` executes the word its program counter names; `parity`: a parity error on the fetch. -/
  | nopInstruction (k : Fin 16) (parity : Bool)
  /-- ADD (R236): Core instruction ADD. Core `k` executes the word its program counter names; `parity`: a parity error on the fetch. -/
  | add (k : Fin 16) (parity : Bool)
  /-- SUB (R236): Core instruction SUB. Core `k` executes the word its program counter names; `parity`: a parity error on the fetch. -/
  | sub (k : Fin 16) (parity : Bool)
  /-- ADDS (R231): Core instruction saturating add. Core `k` executes the word its program counter names; `parity`: a parity error on the fetch. -/
  | adds (k : Fin 16) (parity : Bool)
  /-- SUBS (R231): Core instruction saturating subtract. Core `k` executes the word its program counter names; `parity`: a parity error on the fetch. -/
  | subs (k : Fin 16) (parity : Bool)
  /-- AND (R236): Core instruction bitwise and. Core `k` executes the word its program counter names; `parity`: a parity error on the fetch. -/
  | and (k : Fin 16) (parity : Bool)
  /-- OR (R236): Core instruction bitwise or. Core `k` executes the word its program counter names; `parity`: a parity error on the fetch. -/
  | or (k : Fin 16) (parity : Bool)
  /-- XOR (R236): Core instruction bitwise exclusive or. Core `k` executes the word its program counter names; `parity`: a parity error on the fetch. -/
  | xor (k : Fin 16) (parity : Bool)
  /-- SLL (R236): Core instruction logical left shift. Core `k` executes the word its program counter names; `parity`: a parity error on the fetch. -/
  | sll (k : Fin 16) (parity : Bool)
  /-- SRL (R236): Core instruction logical right shift. Core `k` executes the word its program counter names; `parity`: a parity error on the fetch. -/
  | srl (k : Fin 16) (parity : Bool)
  /-- SRA (R236): Core instruction arithmetic right shift. Core `k` executes the word its program counter names; `parity`: a parity error on the fetch. -/
  | sra (k : Fin 16) (parity : Bool)
  /-- MUL (R231): Core instruction multiply, low 32 bits. Core `k` executes the word its program counter names; `parity`: a parity error on the fetch. -/
  | mul (k : Fin 16) (parity : Bool)
  /-- MIN (R236): Core instruction signed minimum. Core `k` executes the word its program counter names; `parity`: a parity error on the fetch. -/
  | min (k : Fin 16) (parity : Bool)
  /-- MAX (R236): Core instruction signed maximum. Core `k` executes the word its program counter names; `parity`: a parity error on the fetch. -/
  | max (k : Fin 16) (parity : Bool)
  /-- ABS (R231): Core instruction saturating absolute value. Core `k` executes the word its program counter names; `parity`: a parity error on the fetch. -/
  | abs (k : Fin 16) (parity : Bool)
  /-- EXP (R233): Core instruction redundant sign bits of a register. Core `k` executes the word its program counter names; `parity`: a parity error on the fetch. -/
  | exp (k : Fin 16) (parity : Bool)
  /-- ADDI (R236): Core instruction add immediate. Core `k` executes the word its program counter names; `parity`: a parity error on the fetch. -/
  | addi (k : Fin 16) (parity : Bool)
  /-- ORI (R236): Core instruction or immediate. Core `k` executes the word its program counter names; `parity`: a parity error on the fetch. -/
  | ori (k : Fin 16) (parity : Bool)
  /-- LUI (R236): Core instruction load upper immediate. Core `k` executes the word its program counter names; `parity`: a parity error on the fetch. -/
  | lui (k : Fin 16) (parity : Bool)
  /-- SHI (R236): Core instruction shift or rotate by immediate. Core `k` executes the word its program counter names; `parity`: a parity error on the fetch. -/
  | shi (k : Fin 16) (parity : Bool)
  /-- BCC (R237): Core instruction conditional branch. Core `k` executes the word its program counter names; `parity`: a parity error on the fetch. -/
  | bcc (k : Fin 16) (parity : Bool)
  /-- JAL (R236): Core instruction jump and link. Core `k` executes the word its program counter names; `parity`: a parity error on the fetch. -/
  | jal (k : Fin 16) (parity : Bool)
  /-- JR (R236): Core instruction jump to register. Core `k` executes the word its program counter names; `parity`: a parity error on the fetch. -/
  | jr (k : Fin 16) (parity : Bool)
  /-- REPI (R238): Core instruction repeat with an immediate count. Core `k` executes the word its program counter names; `parity`: a parity error on the fetch. -/
  | repi (k : Fin 16) (parity : Bool)
  /-- REPR (R238): Core instruction repeat with a count from a register. Core `k` executes the word its program counter names; `parity`: a parity error on the fetch. -/
  | repr (k : Fin 16) (parity : Bool)
  /-- WAITF (R244): Core instruction take the oldest ready feed slot, or wait for one. Core `k` executes the word its program counter names; `parity`: a parity error on the fetch. -/
  | waitf (k : Fin 16) (parity : Bool)
  /-- RELF (R244): Core instruction release the oldest held slot. Core `k` executes the word its program counter names; `parity`: a parity error on the fetch. -/
  | relf (k : Fin 16) (parity : Bool)
  /-- OUT (R245): Core instruction queue an output block. Core `k` executes the word its program counter names; `parity`: a parity error on the fetch. -/
  | out (k : Fin 16) (parity : Bool)
  /-- WAITO (R236): Core instruction wait until no output is queued. Core `k` executes the word its program counter names; `parity`: a parity error on the fetch. -/
  | waito (k : Fin 16) (parity : Bool)
  /-- DMAR (R246): Core instruction queue a DRAM-to-scratchpad transfer. Core `k` executes the word its program counter names; `parity`: a parity error on the fetch. -/
  | dmar (k : Fin 16) (parity : Bool)
  /-- DMAW (R246): Core instruction queue a scratchpad-to-DRAM transfer. Core `k` executes the word its program counter names; `parity`: a parity error on the fetch. -/
  | dmaw (k : Fin 16) (parity : Bool)
  /-- WAITD (R246): Core instruction wait until no DRAM transfer remains. Core `k` executes the word its program counter names; `parity`: a parity error on the fetch. -/
  | waitd (k : Fin 16) (parity : Bool)
  /-- LDB (R234): Core instruction load byte. Core `k` executes the word its program counter names; `parity`: a parity error on the fetch; `ecc`: what the check of its scratchpad read finds. -/
  | ldb (k : Fin 16) (parity : Bool) (ups : Upsets)
  /-- LDH (R234): Core instruction load halfword. Core `k` executes the word its program counter names; `parity`: a parity error on the fetch; `ecc`: what the check of its scratchpad read finds. -/
  | ldh (k : Fin 16) (parity : Bool) (ups : Upsets)
  /-- LDW (R234): Core instruction load word. Core `k` executes the word its program counter names; `parity`: a parity error on the fetch; `ecc`: what the check of its scratchpad read finds. -/
  | ldw (k : Fin 16) (parity : Bool) (ups : Upsets)
  /-- LDD (R234): Core instruction load double word into a pair. Core `k` executes the word its program counter names; `parity`: a parity error on the fetch; `ecc`: what the check of its scratchpad read finds. -/
  | ldd (k : Fin 16) (parity : Bool) (ups : Upsets)
  /-- STB (R251): Core instruction store byte with merge. Core `k` executes the word its program counter names; `parity`: a parity error on the fetch; `ecc`: what the check of its scratchpad read finds. -/
  | stb (k : Fin 16) (parity : Bool) (ups : Upsets)
  /-- STH (R251): Core instruction store halfword with merge. Core `k` executes the word its program counter names; `parity`: a parity error on the fetch; `ecc`: what the check of its scratchpad read finds. -/
  | sth (k : Fin 16) (parity : Bool) (ups : Upsets)
  /-- STW (R241): Core instruction store word. Core `k` executes the word its program counter names; `parity`: a parity error on the fetch. -/
  | stw (k : Fin 16) (parity : Bool)
  /-- STD (R241): Core instruction store double word. Core `k` executes the word its program counter names; `parity`: a parity error on the fetch. -/
  | std (k : Fin 16) (parity : Bool)
  /-- MOVP (R236): Core instruction set a pointer from a register. Core `k` executes the word its program counter names; `parity`: a parity error on the fetch. -/
  | movp (k : Fin 16) (parity : Bool)
  /-- MVP (R236): Core instruction read a pointer into a register. Core `k` executes the word its program counter names; `parity`: a parity error on the fetch. -/
  | mvp (k : Fin 16) (parity : Bool)
  /-- ADDP (R234): Core instruction add to a pointer, circularly. Core `k` executes the word its program counter names; `parity`: a parity error on the fetch. -/
  | addp (k : Fin 16) (parity : Bool)
  /-- MTS (R229): Core instruction write a special register. Core `k` executes the word its program counter names; `parity`: a parity error on the fetch. -/
  | mts (k : Fin 16) (parity : Bool)
  /-- MFS (R229): Core instruction read a special register. Core `k` executes the word its program counter names; `parity`: a parity error on the fetch. -/
  | mfs (k : Fin 16) (parity : Bool)
  /-- SIG (R236): Core instruction set ACRk_SIG and raise EV42. Core `k` executes the word its program counter names; `parity`: a parity error on the fetch. -/
  | sig (k : Fin 16) (parity : Bool)
  /-- HALT (R248): Core instruction stop the core with cause HALT. Core `k` executes the word its program counter names; `parity`: a parity error on the fetch. -/
  | halt (k : Fin 16) (parity : Bool)
  /-- CLRA (R236): Core instruction clear accumulators. Core `k` executes the word its program counter names; `parity`: a parity error on the fetch. -/
  | clra (k : Fin 16) (parity : Bool)
  /-- MTA (R236): Core instruction move a register to an accumulator. Core `k` executes the word its program counter names; `parity`: a parity error on the fetch. -/
  | mta (k : Fin 16) (parity : Bool)
  /-- ADDA (R231): Core instruction saturating accumulator add. Core `k` executes the word its program counter names; `parity`: a parity error on the fetch. -/
  | adda (k : Fin 16) (parity : Bool)
  /-- MAC32 (R231): Core instruction 32 × 32 multiply-accumulate. Core `k` executes the word its program counter names; `parity`: a parity error on the fetch. -/
  | mac32 (k : Fin 16) (parity : Bool)
  /-- MAC32M (R231): Core instruction memory 32 × 32 multiply-accumulate. Core `k` executes the word its program counter names; `parity`: a parity error on the fetch; `ecc`: what the check of its scratchpad read finds. -/
  | mac32m (k : Fin 16) (parity : Bool) (ups : Upsets)
  /-- SQ32M (R231): Core instruction memory square-accumulate of a word. Core `k` executes the word its program counter names; `parity`: a parity error on the fetch; `ecc`: what the check of its scratchpad read finds. -/
  | sq32m (k : Fin 16) (parity : Bool) (ups : Upsets)
  /-- VMAC (R231): Core instruction four-lane multiply-accumulate. Core `k` executes the word its program counter names; `parity`: a parity error on the fetch. -/
  | vmac (k : Fin 16) (parity : Bool)
  /-- DOT4 (R231): Core instruction four-lane dot product. Core `k` executes the word its program counter names; `parity`: a parity error on the fetch. -/
  | dot4 (k : Fin 16) (parity : Bool)
  /-- DOT4M (R231): Core instruction memory four-lane dot product. Core `k` executes the word its program counter names; `parity`: a parity error on the fetch; `ecc`: what the check of its scratchpad read finds. -/
  | dot4m (k : Fin 16) (parity : Bool) (ups : Upsets)
  /-- SQ4M (R231): Core instruction memory four-lane sum of squares. Core `k` executes the word its program counter names; `parity`: a parity error on the fetch; `ecc`: what the check of its scratchpad read finds. -/
  | sq4m (k : Fin 16) (parity : Bool) (ups : Upsets)
  /-- VMACM (R231): Core instruction memory four-lane multiply-accumulate. Core `k` executes the word its program counter names; `parity`: a parity error on the fetch; `ecc`: what the check of its scratchpad read finds. -/
  | vmacm (k : Fin 16) (parity : Bool) (ups : Upsets)
  /-- MVA (R232): Core instruction move an accumulator out to int32. Core `k` executes the word its program counter names; `parity`: a parity error on the fetch. -/
  | mva (k : Fin 16) (parity : Bool)
  /-- MVAH (R232): Core instruction move an accumulator out to int16. Core `k` executes the word its program counter names; `parity`: a parity error on the fetch. -/
  | mvah (k : Fin 16) (parity : Bool)
  /-- VMVA (R232): Core instruction move four accumulators out to int16 lanes. Core `k` executes the word its program counter names; `parity`: a parity error on the fetch. -/
  | vmva (k : Fin 16) (parity : Bool)
  /-- EXPA (R233): Core instruction redundant sign bits of an accumulator. Core `k` executes the word its program counter names; `parity`: a parity error on the fetch. -/
  | expa (k : Fin 16) (parity : Bool)
  /-- HEARTBEAT (R363): A valid heartbeat is received and updates the partner's health and the mirror acknowledgement. `l`: the lane; `seq`: the frame's number within its type. -/
  | heartbeat (l : Fin 4) (seq : BitVec 24) (h : Heartbeat)
  /-- IDENTITY (R362): An identity frame is received and the link enters UP with a mirror resync. `l`: the lane; `seq`: the frame's number within its type. -/
  | identity (l : Fin 4) (seq : BitVec 24) (x : Identity)
  /-- FAULT_MESSAGE (R368): A fault message is received and may declare partner loss. `l`: the lane; `seq`: the frame's number within its type; the entry to SAFE, or a PORT_FAULT cause with its port. -/
  | faultMessage (l : Fin 4) (seq : BitVec 24) (safe : Bool) (cause : Fin 256) (port : Fin 16)
  /-- MIRROR_DATA (R365): A mirror-data frame is received and stored in the partner image or reference area. `l`: the lane; `seq`: the frame's number within its type; its destination and data. -/
  | mirrorData (l : Fin 4) (seq : BitVec 24) (dest : BitVec 32) (data : List (BitVec 8))
  /-- LANE_ALIGN (R361): A lane finds three commas and is aligned. `gaps`: destuffed bits from comma to comma, latest first. -/
  | laneAlign (l : Fin 4) (gaps : List Nat)
  /-- LANE_LOSS (R361): A lane misses four commas or sees too many errors, and is lost. `commas`: whether each comma due was found, latest first. -/
  | laneLoss (l : Fin 4) (commas : List Bool)
  /-- PARTNER_CLOCK_CHANGE (R361): The partner's forwarded clock appears or is lost, moving the link state. -/
  | partnerClockChange (present : Bool)
  /-- LASER_CURRENT_FAULT (R59): The 10 µs laser-current monitor finds the current outside ±5 % of its locked value or the driver at compliance, sets LASER_CURRENT and raises EV12. -/
  | laserCurrentFault (current : BitVec 12)
  /-- AER_ERROR (R316): The PCI Express endpoint detects a correctable, non-fatal or fatal AER error and raises EV47 with its AER code. Correctable, non-fatal or fatal. -/
  | aerError (kind : Fin 3)
  /-- BAD_OPCODE_COMMAND (R309): A ring-0 command descriptor whose opcode is not listed in R306 is processed and completes BAD_OPCODE, raising EV46. `op`: the opcode; `h`: the descriptor. -/
  | badOpcodeCommand (op : BitVec 8) (h : CmdHdr)
  /-- RESERVED_OPCODE (R236): A core executes the reserved opcode 0x2F or 0x3F and takes an ILLEGAL fault. Core `k` executes the word its program counter names; `parity`: a parity error on the fetch. -/
  | reservedOpcode (k : Fin 16) (parity : Bool)
  /-- LINK_FRAME_DISCARDED (R359): A Fuvon lane receives a frame that fails its CRC or has a stuff error; the frame is discarded and the lane's CRC or stuff-error counter advances. `frame`: the frame's number on the lane since alignment; `before`: the 58 bits of the scrambled stream before its comma, latest first; `bits`: what is received from its comma to the next. -/
  | linkFrameDiscarded (l : Fin 4) (frame : Nat) (before bits : List Bool)
  /-- DIAG_WINDOW_EXPIRY (R393): A lasting diagnostic with reaction LOG stops being lasting when its event history no longer holds N events within W ms. -/
  | diagWindowExpiry (d : Fin 27)
  /-- REFERENCE_UNSETTLED (R342): A reference stops meeting its condition, for example REFP − REFN leaving its range, and its settled status in AUX_STATUS clears. The reference by its REF code. -/
  | referenceUnsettled (r : Fin 3)
  /-- SPEED_VALID_EXPIRY (R190): A belt's speed becomes invalid when its latest valid ENC_IN result is older than 2 × GATE_MS + 1 ms, and BLT_BELTk_SPEED reads 0. -/
  | speedValidExpiry (k : Fin 8)
  /-- CURRENT_LIMIT (R450): An open-drain output on DOUT or HEALTHY reaches its 350 mA current limit and turns off. DOUT0–DOUT3, then HEALTHY_A and HEALTHY_B. -/
  | currentLimit (o : Fin 6)
  /-- CURRENT_LIMIT_RETRY (R450): Every 10 ms after a current-limit turn-off the output retries turning on. -/
  | currentLimitRetry (o : Fin 6)
  /-- CMP_BYPASS (R332): A block waits MAX_WAIT_US for an engine and is emitted stored. -/
  | cmpBypass
  /-- HEALTH_BLOCK (R330): Every PERIOD_MS a health block reads the listed registers. -/
  | healthBlock
  /-- PAIR_BLOCK_TIMEOUT (R319): A pair-interval block closes 1 ms after its first interval. -/
  | pairBlockTimeout
  /-- HEARTBEAT_SEND (R363): Every 50 µs the device sends a heartbeat frame. -/
  | heartbeatSend
  /-- MISSED_HEARTBEAT (R363): 50 µs pass without a valid heartbeat; at four missed, partner loss is declared. -/
  | missedHeartbeat
  /-- MIRROR_RETRANSMIT (R365): An unacknowledged mirror frame waits 100 µs and is sent again. -/
  | mirrorRetransmit
  /-- MIRROR_LAG (R365): A mirror item waits LAG_US and EV51 is raised. -/
  | mirrorLag
  /-- ARM_WAIT_EXPIRY (R368): ARM_WAIT_MS after START without arming, partner loss is declared with cause 0x5. -/
  | armWaitExpiry
  /-- TAKEOVER_ROUND_START (R370): 20 µs after a declaration the takeover configuration becomes active and EV50 is raised. -/
  | takeoverRoundStart
  /-- LASER_LOCK_TIMEOUT (R423): The laser-lock step of BOOT, or of a resume, does not declare lock within its 2 s maximum, so the step fails and the device enters SAFE with BOOT_FAIL. -/
  | laserLockTimeout
  /-- BOOT_CAL_TIMEOUT (R438): The start-up calibration run is not complete within 600 ms, so BOOT step 0x6 fails and the device enters SAFE. -/
  | bootCalTimeout
  /-- DEFERRED_TAKEOVER_LAUNCH (R371): A takeover turn deferred behind home-configuration occupancies is launched at the first instant its port and source occupancies keep the spacing of R80, and carries SLID. -/
  | deferredTakeoverLaunch
  deriving DecidableEq, Repr

end Sys2Proof
end

