-- ==== Sys2Proof/Config.lean ====
section
/-!
DEFINITION. The free values: constants without a body for every value the specification leaves open.  No proof can see
what they are, so a statement that holds holds whatever they are.
-/
namespace Sys2Proof

/-- The hash of three bytes through which a DEFLATE engine finds matches: left open (R331). DESIGN CHOICE, log entry 15;
UNVERIFIED, log entry 16. -/
opaque Config.hash3 : Byte → Byte → Byte → Nat

/-- Code lengths from a limit and symbol counts: how they are built is left open (R331). DESIGN CHOICE, log entry 15; UNVERIFIED,
log entry 16. -/
opaque Config.codeLengths : Nat → List Nat → List Nat

/-- The code-length symbols, with their repeat counts, that list code lengths in a block header: left open (R331). DESIGN CHOICE,
log entry 15; UNVERIFIED, log entry 16. -/
opaque Config.lengthRuns : List Nat → List (Nat × Nat)

/-- The CRC-32C that the ROM expects of the results of a known-answer pattern: the ROM's contents are left open (R388). DESIGN
CHOICE, log entry 15; UNVERIFIED, log entry 130. -/
opaque Config.katCrc : Nat → BitVec 32

/-- The payload bytes of an identity frame and of a fault message, by frame type, from their fields: their layout is left open
(R362). DESIGN CHOICE, log entry 15; UNVERIFIED, log entry 129. -/
opaque Config.linkBytes : Nat → List Nat → List Byte

/-- A value the specification leaves open, one for each draw of `State.freeCtr`. UNVERIFIED, log entry 3; DESIGN CHOICE, log
entry 15. -/
opaque Config.free : Nat → Nat

/-- The noise floor of R131 in 2⁻¹⁶ compensated units squared, from the noise reference of a code, the chirp length in ticks
and the tones: how it is scaled is left open. DESIGN CHOICE, log entry 15; UNVERIFIED, log entry 17. -/
opaque Config.noiseFloor : Nat → Nat → Nat → Nat

/-- What the value word of an unused entry of the partner image reads as: left open (R367). DESIGN CHOICE, log entry 15;
UNVERIFIED, log entry 18. -/
opaque Config.unusedImage : Nat → BitVec 32

/-- What the skew and hybrid corrections of stage 1 change in a sample, from the channel, its skew, phase error and imbalance, and
the raw codes of its polarisation about it: the formula is left open (R111). DESIGN CHOICE, log entry 15; UNVERIFIED, log entry
115. -/
opaque Config.trim : List Int → Int

/-- Half the taps of the tone-separation filter, from its centre on: left open within the characteristics of R112. DESIGN
CHOICE, log entry 15; UNVERIFIED, log entry 115. -/
opaque Config.sepTaps : List Int

/-- The calibrated value of the internal reference beyond 2.49875 V in nV, before its range is taken: the specification gives
2.500 V ± 0.05 % (R342). DESIGN CHOICE, log entry 15; UNVERIFIED, log entry 112. -/
opaque Config.intRef : Nat

/-- The syndrome of an error pattern of a DRAM word: the SECDED (72,64) code is not given (R265, R275). DESIGN CHOICE, log entry
15; UNVERIFIED, log entry 126. -/
opaque Config.syndrome : BitVec 72 → BitVec 8

end Sys2Proof
end

