-- ==== Sys2Proof/Machine/RegMap.lean ====
section
/-!
DEFINITION. The register map: for every register of the address map (19_address_map.md, R444) one row of its
offsets, instances, field types (R6) and reset value, and for every field named in chapters 00 to 18 its place.
The rows follow the register tables of the chapters; an index letter of a register's name is a Nat argument here,
reduced modulo the number of instances, so that an offset never leaves its array.
-/
namespace Sys2Proof.Machine

/-- A field of a register: the register's BAR0 offset, the field's lowest bit and its width. -/
structure Fld where
  off : Nat
  lo  : Nat
  width : Nat
  deriving DecidableEq, Repr

/-- One row of the register index: `base + s1·i + s2·j` for `i < n1`, `j < n2`, the reset value, and the bits of each
type code of R6.  `perPort` says that the first index is a port, for R2. -/
structure RegRow where
  base : Nat
  s1 : Nat
  n1 : Nat
  s2 : Nat
  n2 : Nat
  reset : Nat
  rw : Nat
  rwl : Nat
  w1c : Nat
  wo : Nat
  ro : Nat
  perPort : Bool
  deriving DecidableEq, Repr

/-- Registers of the GLB block (00_scope.md, 01_architecture.md, 17_power_clocks_reset_and_start_up.md, 18_calibration.md). -/
def rowsGLB0 : List RegRow :=
  [ ⟨0x0, 0x1, 1, 0x1, 1, 0x48120C81, 0x0, 0x0, 0x0, 0x0, 0xFFFFFFFF, false⟩  -- GLB_DEVICE_ID
  , ⟨0x10, 0x1, 1, 0x1, 1, 0x0, 0x0, 0x0, 0x0, 0xFF0F, 0x0, false⟩  -- GLB_CTRL
  , ⟨0x14, 0x1, 1, 0x1, 1, 0x0, 0x0, 0x0, 0x0, 0x0, 0x7F1FFF, false⟩  -- GLB_STATE
  , ⟨0x20, 0x1, 1, 0x1, 1, 0x1, 0x0, 0x0, 0x0, 0x0, 0x1FF7FF, false⟩  -- GLB_RESET_CAUSE
  , ⟨0x24, 0x1, 1, 0x1, 1, 0x0, 0x0, 0x0, 0x0, 0xFF01, 0x0, false⟩  -- GLB_BOOT_CTRL
  , ⟨0x28, 0x1, 1, 0x1, 1, 0x0, 0x0, 0x0, 0x0, 0x0, 0xC0FFFFFF, false⟩  -- GLB_BOOT_STATUS
  , ⟨0x30, 0x1, 1, 0x1, 1, 0x0, 0x0, 0x0, 0x0, 0x0, 0xF800FFFF, false⟩  -- GLB_IMAGE_STATUS
  , ⟨0x34, 0x1, 1, 0x1, 1, 0xFFFFFFFF, 0x0, 0x0, 0x0, 0x0, 0xFFFFFFFF, false⟩  -- GLB_IMAGE_SEQ0
  , ⟨0x38, 0x1, 1, 0x1, 1, 0xFFFFFFFF, 0x0, 0x0, 0x0, 0x0, 0xFFFFFFFF, false⟩  -- GLB_IMAGE_SEQ1
  , ⟨0x40, 0x1, 1, 0x1, 1, 0x0, 0xF0001FF, 0x0, 0x0, 0x80000000, 0x0, false⟩  -- GLB_QSPI_CMD
  , ⟨0x44, 0x1, 1, 0x1, 1, 0x0, 0xFFFFFFFF, 0x0, 0x0, 0x0, 0x0, false⟩  -- GLB_QSPI_ADDR
  , ⟨0x48, 0x1, 1, 0x1, 1, 0x0, 0x0, 0x0, 0x40000000, 0x0, 0x8F00FFFF, false⟩  -- GLB_QSPI_STATUS
  , ⟨0x100, 0x4, 64, 0x1, 1, 0x0, 0xFFFFFFFF, 0x0, 0x0, 0x0, 0x0, false⟩  -- GLB_QSPI_BUFi
  , ⟨0x200, 0x1, 1, 0x1, 1, 0x8000003C, 0x0, 0x8000FFFF, 0x0, 0x0, 0x0, false⟩  -- GLB_CAL_CFG
  , ⟨0x204, 0x1, 1, 0x1, 1, 0x44444444, 0x0, 0xFFFFFFFF, 0x0, 0x0, 0x0, false⟩  -- GLB_CAL_DELTA
  , ⟨0x208, 0x1, 1, 0x1, 1, 0x0, 0x0, 0x0, 0x0, 0x0, 0xFFF00FFF, false⟩  -- GLB_CAL_STATUS
  , ⟨0x20C, 0x1, 1, 0x1, 1, 0x0, 0x0, 0x0, 0x0, 0x0, 0x80000F00, false⟩  -- GLB_CAL_MISSING
  , ⟨0x210, 0x1, 1, 0x1, 1, 0x0, 0x0, 0x0, 0x0, 0x0, 0xFFFFFFFF, false⟩  -- GLB_CAL_RUN_NUM
  , ⟨0x214, 0x1, 1, 0x1, 1, 0x0, 0x0, 0x0, 0x0, 0x0, 0xFFFFFFFF, false⟩  -- GLB_CAL_ABORT_COUNT
  , ⟨0x218, 0x1, 1, 0x1, 1, 0x0, 0x0, 0x0, 0x0, 0x0, 0xFFFFFFFF, false⟩  -- GLB_CAL_APPLY_ROUND_LO
  , ⟨0x21C, 0x1, 1, 0x1, 1, 0x0, 0x0, 0x0, 0x0, 0x0, 0xFFFF, false⟩  -- GLB_CAL_APPLY_ROUND_HI
  , ⟨0x220, 0x4, 8, 0x1, 1, 0x0, 0x0, 0x0, 0x0, 0x0, 0xFFFF, false⟩  -- GLB_CAL_REF_TEMPd
  , ⟨0x240, 0x1, 1, 0x1, 1, 0x0, 0x0, 0x0, 0x0, 0x0, 0xFFFF, false⟩  -- GLB_CAL_LASER
  , ⟨0x244, 0x1, 1, 0x1, 1, 0x0, 0x0, 0x0, 0x0, 0x0, 0xFFFFFFFF, false⟩  -- GLB_CAL_LOSHIFT
  ]

/-- Registers of the GLB block (00_scope.md, 01_architecture.md, 17_power_clocks_reset_and_start_up.md, 18_calibration.md). -/
def rowsGLB1 : List RegRow :=
  [ ⟨0x248, 0x1, 1, 0x1, 1, 0x0, 0x0, 0x0, 0x0, 0x0, 0xFFFF, false⟩  -- GLB_CAL_TIN
  , ⟨0x24C, 0x1, 1, 0x1, 1, 0x0, 0x0, 0x0, 0x0, 0x0, 0xFFFF, false⟩  -- GLB_CAL_EXC
  ]

/-- Registers of the GLB block. -/
def rowsGLB : List RegRow := rowsGLB0 ++ rowsGLB1

/-- Registers of the TMB block (08_belt_timing_and_belt_frame.md). -/
def rowsTMB : List RegRow :=
  [ ⟨0x10000, 0x1, 1, 0x1, 1, 0x0, 0x0, 0x0, 0x0, 0x0, 0xFFFFFFFF, false⟩  -- TMB_TIME_LO
  , ⟨0x10004, 0x1, 1, 0x1, 1, 0x0, 0x0, 0x0, 0x0, 0x0, 0xFFFFFFFF, false⟩  -- TMB_TIME_HI
  , ⟨0x10008, 0x1, 1, 0x1, 1, 0x0, 0x0, 0xFFFFFF, 0x0, 0x0, 0x0, false⟩  -- TMB_TRIM
  , ⟨0x1000C, 0x1, 1, 0x1, 1, 0x0, 0x0, 0x0, 0x0, 0x0, 0xFFFFFF, false⟩  -- TMB_TRIM_USED
  , ⟨0x10010, 0x1, 1, 0x1, 1, 0x7000064, 0x0, 0xCF00FFFF, 0x0, 0x0, 0x0, false⟩  -- TMB_PPS_CFG
  , ⟨0x10014, 0x1, 1, 0x1, 1, 0x0, 0x0, 0x0, 0x10000000, 0x0, 0xE0FFFFFF, false⟩  -- TMB_PPS_STATUS
  , ⟨0x10018, 0x1, 1, 0x1, 1, 0x0, 0x0, 0x0, 0x0, 0x0, 0xFFFFFFFF, false⟩  -- TMB_PPS_LAST_LO
  , ⟨0x1001C, 0x1, 1, 0x1, 1, 0x0, 0x0, 0x0, 0x0, 0x0, 0xFFFFFFFF, false⟩  -- TMB_PPS_LAST_HI
  , ⟨0x10020, 0x1, 1, 0x1, 1, 0x0, 0x0, 0x0, 0x0, 0x0, 0xFF, false⟩  -- TMB_PPS_LAST_PIP
  , ⟨0x10024, 0x1, 1, 0x1, 1, 0x0, 0x0, 0x0, 0x0, 0x0, 0xFFFFFFFF, false⟩  -- TMB_GRID_LO
  , ⟨0x10028, 0x1, 1, 0x1, 1, 0x0, 0x0, 0x0, 0x0, 0x0, 0xFFFFFFFF, false⟩  -- TMB_GRID_HI
  , ⟨0x1002C, 0x1, 1, 0x1, 1, 0x0, 0x0, 0x0, 0x0, 0x0, 0xFFFFFFFF, false⟩  -- TMB_SEC_COUNT
  , ⟨0x10030, 0x1, 1, 0x1, 1, 0x0, 0x0, 0x0, 0x0, 0x0, 0xFFFFFFFF, false⟩  -- TMB_GRID_MOVE_COUNT
  ]

/-- Registers of the PWR block (17_power_clocks_reset_and_start_up.md). -/
def rowsPWR : List RegRow :=
  [ ⟨0x20000, 0x1, 1, 0x1, 1, 0xC0000005, 0x0, 0xC000000F, 0x0, 0x0, 0x0, false⟩  -- PWR_CFG
  , ⟨0x20004, 0x1, 1, 0x1, 1, 0x0, 0x0, 0x0, 0x18000000, 0x0, 0xE700FFFF, false⟩  -- PWR_STATUS
  , ⟨0x20008, 0x1, 1, 0x1, 1, 0x0, 0x0, 0x0, 0x0, 0x0, 0xFFFFFFFF, false⟩  -- PWR_WARN_COUNT
  , ⟨0x2000C, 0x1, 1, 0x1, 1, 0x0, 0x0, 0x0, 0x0, 0x0, 0xFFFFFFFF, false⟩  -- PWR_THERM_COUNT
  ]

/-- Registers of the SRC block (02_source_and_booster.md). -/
def rowsSRC : List RegRow :=
  [ ⟨0x30000, 0x1, 1, 0x1, 1, 0x18, 0x0, 0x3F, 0x0, 0x0, 0x0, false⟩  -- SRC_LASER_CFG
  , ⟨0x30004, 0x1, 1, 0x1, 1, 0x0, 0x0, 0x0, 0x40000000, 0x0, 0x8FFFFFFF, false⟩  -- SRC_LASER_STATUS
  , ⟨0x30008, 0x1, 1, 0x1, 1, 0x0, 0x0, 0x0, 0x40000000, 0x0, 0x8FFFFFFF, false⟩  -- SRC_TEC_STATUS
  , ⟨0x30010, 0x1, 1, 0x1, 1, 0x2A30, 0x0, 0x3FFF, 0x0, 0x0, 0x80000000, false⟩  -- SRC_LOSHIFT
  , ⟨0x30020, 0x1, 1, 0x1, 1, 0x14, 0x0, 0xC00003FF, 0x0, 0x0, 0x0, false⟩  -- SRC_PUMP_CFG
  , ⟨0x30024, 0x1, 1, 0x1, 1, 0x0, 0x0, 0x0, 0x0, 0x0, 0xF8000FFF, false⟩  -- SRC_PUMP0_STATUS
  , ⟨0x30028, 0x1, 1, 0x1, 1, 0x0, 0x0, 0x0, 0x0, 0x0, 0xF8000FFF, false⟩  -- SRC_PUMP1_STATUS
  , ⟨0x30030, 0x1, 1, 0x1, 1, 0x12C0000, 0x0, 0x0, 0x0, 0x0, 0xFFFFFFFF, false⟩  -- SRC_BANK_EST
  , ⟨0x30034, 0x1, 1, 0x1, 1, 0xF0000000, 0x0, 0x0, 0x0, 0x0, 0xFC03FFFF, false⟩  -- SRC_TAP_LAST
  , ⟨0x30040, 0x1, 1, 0x1, 1, 0x0, 0x0, 0x0, 0x3FFF, 0x0, 0x0, false⟩  -- SRC_FAULT_CAUSE
  , ⟨0x30044, 0x1, 1, 0x1, 1, 0x0, 0x0, 0x0, 0x0, 0x0, 0xFFF, false⟩  -- SRC_APR_PORTS
  , ⟨0x30048, 0x1, 1, 0x1, 1, 0x3E00, 0x0, 0x0, 0x0, 0x0, 0xFFFF3F3F, false⟩  -- SRC_DIAG_STATUS
  , ⟨0x30050, 0x1, 1, 0x1, 1, 0x0, 0x0, 0x0, 0x0, 0x0, 0xFFFFFFFF, false⟩  -- SRC_DIAG_COUNT
  , ⟨0x30054, 0x1, 1, 0x1, 1, 0x0, 0x0, 0x0, 0x0, 0x0, 0xFFFFFFFF, false⟩  -- SRC_ENERGY_FAIL_COUNT
  ]

/-- Registers of the LCH block (03_probe_plans_and_launch.md). -/
def rowsLCH : List RegRow :=
  [ ⟨0x40000, 0x1, 1, 0x1, 1, 0x61A80, 0x0, 0xF83FFFFF, 0x0, 0x0, 0x0, false⟩  -- LCH_ROUND_CFG
  , ⟨0x40004, 0x1, 1, 0x1, 1, 0x3D0900, 0x0, 0x3FFFFF, 0x0, 0x0, 0x0, false⟩  -- LCH_ROUND_MAX
  , ⟨0x40008, 0x1, 1, 0x1, 1, 0x400, 0x0, 0xFFFFFF, 0x0, 0x0, 0x0, false⟩  -- LCH_BELT_STEP
  , ⟨0x4000C, 0x1, 1, 0x1, 1, 0x400, 0x0, 0xFFF0FF7F, 0x0, 0x0, 0x0, false⟩  -- LCH_TABLE_CFG
  , ⟨0x40010, 0x1, 1, 0x1, 1, 0x320, 0x0, 0xFFF, 0x0, 0x0, 0x0, false⟩  -- LCH_SLACK
  , ⟨0x40020, 0x1, 1, 0x1, 1, 0x0, 0x0, 0x0, 0x0, 0x0, 0xFFFFFFFF, false⟩  -- LCH_COMMIT_STATUS
  , ⟨0x40024, 0x1, 1, 0x1, 1, 0x0, 0x0, 0x0, 0x0, 0x0, 0x8000FFFF, false⟩  -- LCH_PENDING
  , ⟨0x40028, 0x1, 1, 0x1, 1, 0x0, 0x0, 0x0, 0x0, 0x0, 0xFFFFFFFF, false⟩  -- LCH_ACTIVE_ROUND_LO
  , ⟨0x4002C, 0x1, 1, 0x1, 1, 0x0, 0x0, 0x0, 0x0, 0x0, 0xFFFF, false⟩  -- LCH_ACTIVE_ROUND_HI
  , ⟨0x40030, 0x1, 1, 0x1, 1, 0x0, 0x0, 0x0, 0x0, 0x0, 0xFFFFFFFF, false⟩  -- LCH_ROUND_NUM_LO
  , ⟨0x40034, 0x1, 1, 0x1, 1, 0x0, 0x0, 0x0, 0x0, 0x0, 0xFFFF, false⟩  -- LCH_ROUND_NUM_HI
  , ⟨0x40038, 0x1, 1, 0x1, 1, 0x0, 0x0, 0x0, 0x0, 0x0, 0xFFFF, false⟩  -- LCH_CHECK_MARGIN
  , ⟨0x40040, 0x1, 1, 0x1, 1, 0x0, 0x0, 0x0, 0x0, 0x0, 0xFFFFFFFF, false⟩  -- LCH_SLIDE_COUNT
  , ⟨0x40044, 0x1, 1, 0x1, 1, 0x0, 0x0, 0x0, 0x0, 0x0, 0xFFFFFFFF, false⟩  -- LCH_SKIP_COUNT
  , ⟨0x40048, 0x1, 1, 0x1, 1, 0x0, 0x0, 0x0, 0x0, 0x0, 0xFFFFFFFF, false⟩  -- LCH_BELT_LAG_COUNT
  , ⟨0x4004C, 0x1, 1, 0x1, 1, 0x0, 0x0, 0x0, 0x0, 0x0, 0xFFFFFFFF, false⟩  -- LCH_BELT_STALL_COUNT
  , ⟨0x40050, 0x1, 1, 0x1, 1, 0x0, 0x0, 0x0, 0x0, 0x0, 0xFFFFFFFF, false⟩  -- LCH_DIAG_MISS_COUNT
  , ⟨0x40060, 0x4, 12, 0x1, 1, 0x0, 0x0, 0x0, 0x0, 0x0, 0xFFFFFFFF, true⟩  -- LCH_PORTn_SKIP_COUNT
  , ⟨0x40100, 0x20, 8, 0x1, 1, 0x0, 0x0, 0x8F001FFF, 0x0, 0x0, 0x0, false⟩  -- LCH_PLANp_PROBE
  , ⟨0x40104, 0x20, 8, 0x1, 1, 0x0, 0x0, 0x3FF03FF, 0x0, 0x0, 0x0, false⟩  -- LCH_PLANp_POWER
  , ⟨0x40108, 0x20, 8, 0x1, 1, 0x0, 0x0, 0xFFFF07FF, 0x0, 0x0, 0x0, false⟩  -- LCH_PLANp_SPAN
  , ⟨0x4010C, 0x20, 8, 0x1, 1, 0x0, 0x0, 0x7F007F, 0x0, 0x0, 0x0, false⟩  -- LCH_PLANp_PROC
  , ⟨0x40110, 0x20, 8, 0x1, 1, 0x0, 0x0, 0xFFFF, 0x0, 0x0, 0x0, false⟩  -- LCH_PLANp_BRL
  , ⟨0x40400, 0x4, 64, 0x1, 1, 0x0, 0x0, 0xFFBFFFFF, 0x0, 0x0, 0x0, false⟩  -- LCH_TURNi
  ]

/-- Registers of the PRT block (04_receivers_and_converters.md, 05_rayleigh_phase_engine.md, 18_calibration.md). -/
def rowsPRT0 : List RegRow :=
  [ ⟨0x80000, 0x4000, 12, 0x1, 1, 0x7010400, 0x0, 0xFF0FFF00, 0x0, 0x0, 0x0, true⟩  -- PRTn_RX_CFG
  , ⟨0x80004, 0x4000, 12, 0x1, 1, 0x400200, 0x0, 0xFFFF03FF, 0x0, 0x0, 0x0, true⟩  -- PRTn_RX_FLOOR
  , ⟨0x80014, 0x4000, 12, 0x4, 7, 0x0, 0x0, 0xFFFF, 0x0, 0x0, 0x0, true⟩  -- PRTn_ZONE_BOUNDk
  , ⟨0x80030, 0x4000, 12, 0x1, 1, 0x0, 0x0, 0xFFFFFF, 0x0, 0x0, 0x0, true⟩  -- PRTn_ZONE_GAIN_R
  , ⟨0x80034, 0x4000, 12, 0x1, 1, 0x0, 0x0, 0xFFFFFF, 0x0, 0x0, 0x0, true⟩  -- PRTn_ZONE_GAIN_B
  , ⟨0x80040, 0x4000, 12, 0x1, 1, 0x395A, 0x0, 0xFFFF, 0x0, 0x0, 0x0, true⟩  -- PRTn_GROUP_INDEX
  , ⟨0x80050, 0x4000, 12, 0x1, 1, 0x0, 0x0, 0x0, 0x20000000, 0x0, 0xD0000000, true⟩  -- PRTn_RX_STATUS
  , ⟨0x80054, 0x4000, 12, 0x1, 1, 0x0, 0x0, 0x0, 0xF, 0x0, 0x0, true⟩  -- PRTn_RX_FAULT
  , ⟨0x80058, 0x4000, 12, 0x1, 1, 0x0, 0x0, 0x0, 0x0, 0x0, 0xFFFF7FFF, true⟩  -- PRTn_LO_MON
  , ⟨0x80060, 0x4000, 12, 0x1, 1, 0x0, 0x0, 0x0, 0x0, 0x0, 0xFFF0FFF, true⟩  -- PRTn_PEAK_X
  , ⟨0x80064, 0x4000, 12, 0x1, 1, 0x0, 0x0, 0x0, 0x0, 0x0, 0xFFF0FFF, true⟩  -- PRTn_PEAK_Y
  , ⟨0x80070, 0x4000, 12, 0x1, 1, 0x0, 0x0, 0x0, 0x0, 0x0, 0xFFFFFFFF, true⟩  -- PRTn_CLIP_COUNT
  , ⟨0x80074, 0x4000, 12, 0x1, 1, 0x0, 0x0, 0x0, 0x0, 0x0, 0xFFFFFFFF, true⟩  -- PRTn_RANGE_COUNT
  , ⟨0x80078, 0x4000, 12, 0x1, 1, 0x0, 0x0, 0x0, 0x0, 0x0, 0xFFFFFFFF, true⟩  -- PRTn_AR_STALE_COUNT
  , ⟨0x80100, 0x4000, 12, 0x1, 1, 0x8403060D, 0x0, 0x8F0F0F0F, 0x0, 0x0, 0x0, true⟩  -- PRTn_PE_CFG
  , ⟨0x80104, 0x4000, 12, 0x1, 1, 0x1E78, 0x0, 0xFFFF, 0x0, 0x0, 0x0, true⟩  -- PRTn_PE_CONV
  , ⟨0x80108, 0x4000, 12, 0x1, 1, 0x0, 0x0, 0x0, 0x0, 0x0, 0xFFFFFFFF, true⟩  -- PRTn_STRAIN_PER_RAD
  , ⟨0x80110, 0x4000, 12, 0x1, 1, 0x80000400, 0x0, 0xE000FFFF, 0x0, 0x0, 0x0, true⟩  -- PRTn_LF_CFG
  , ⟨0x80114, 0x4000, 12, 0x1, 1, 0x320, 0x0, 0xFFFF, 0x0, 0x0, 0x0, true⟩  -- PRTn_LF_COEF
  , ⟨0x80118, 0x4000, 12, 0x1, 1, 0x40, 0x0, 0xFFFFFFFF, 0x0, 0x0, 0x0, true⟩  -- PRTn_LF_REF
  , ⟨0x80120, 0x4000, 12, 0x1, 1, 0x801E0000, 0x0, 0x80FF0000, 0x0, 0x0, 0x0, true⟩  -- PRTn_INTEG_CFG
  , ⟨0x80124, 0x4000, 12, 0x1, 1, 0xFFFFFFFF, 0x0, 0xFFFFFFFF, 0x0, 0x0, 0x0, true⟩  -- PRTn_INTEG_END
  , ⟨0x80128, 0x4000, 12, 0x1, 1, 0xFFFF, 0x0, 0x0, 0x0, 0x0, 0xF000FFFF, true⟩  -- PRTn_INTEG_STATUS
  , ⟨0x80140, 0x4000, 12, 0x1, 1, 0x0, 0x0, 0x0, 0x0, 0x0, 0xFFFFFFFF, true⟩  -- PRTn_FADE_COUNT
  ]

/-- Registers of the PRT block (04_receivers_and_converters.md, 05_rayleigh_phase_engine.md, 18_calibration.md). -/
def rowsPRT1 : List RegRow :=
  [ ⟨0x80144, 0x4000, 12, 0x1, 1, 0x0, 0x0, 0x0, 0x0, 0x0, 0xFFFFFFFF, true⟩  -- PRTn_FILL_COUNT
  , ⟨0x80148, 0x4000, 12, 0x1, 1, 0x0, 0x0, 0x0, 0x0, 0x0, 0xFFFFFFFF, true⟩  -- PRTn_GAP_FRAME_COUNT
  , ⟨0x8014C, 0x4000, 12, 0x1, 1, 0x0, 0x0, 0x0, 0x0, 0x0, 0xFFFFFFFF, true⟩  -- PRTn_BREAK_COUNT
  , ⟨0x80150, 0x4000, 12, 0x1, 1, 0x0, 0x0, 0x0, 0x0, 0x0, 0xFFFFFFFF, true⟩  -- PRTn_LEVEL_RESTART_COUNT
  , ⟨0x80154, 0x4000, 12, 0x1, 1, 0x0, 0x0, 0x0, 0x0, 0x0, 0xFFFFFFFF, true⟩  -- PRTn_ROUTE_FAIL_COUNT
  , ⟨0x80200, 0x4000, 12, 0x1, 1, 0x0, 0x0, 0x0, 0x0, 0x0, 0xE0FFFFFF, true⟩  -- PRTn_CAL_STATUS
  , ⟨0x80204, 0x4000, 12, 0x1, 1, 0x0, 0x0, 0x0, 0x0, 0x0, 0xFFFFFFFF, true⟩  -- PRTn_CAL_HYB
  , ⟨0x80208, 0x4000, 12, 0x1, 1, 0x0, 0x0, 0x0, 0x0, 0x0, 0xFFFFFFFF, true⟩  -- PRTn_CAL_AMP
  , ⟨0x8020C, 0x4000, 12, 0x1, 1, 0x0, 0x0, 0x0, 0x0, 0x0, 0x3FFFFFFF, true⟩  -- PRTn_CAL_SKEW
  , ⟨0x80210, 0x4000, 12, 0x1, 1, 0x0, 0x0, 0x0, 0x0, 0x0, 0xFFFFFFFF, true⟩  -- PRTn_CAL_OFS
  , ⟨0x80214, 0x4000, 12, 0x1, 1, 0x0, 0x0, 0x0, 0x0, 0x0, 0xFFFFFFFF, true⟩  -- PRTn_CAL_GAIN
  , ⟨0x80218, 0x4000, 12, 0x1, 1, 0x0, 0x0, 0x0, 0x0, 0x0, 0x7C0FFFF, true⟩  -- PRTn_CAL_TIA
  , ⟨0x80220, 0x4000, 12, 0x4, 4, 0x0, 0x0, 0x0, 0x0, 0x0, 0xFFFFFFFF, true⟩  -- PRTn_CAL_NOISEj
  , ⟨0x80230, 0x4000, 12, 0x1, 1, 0x0, 0x0, 0x0, 0x0, 0x0, 0x7FFF7FFF, true⟩  -- PRTn_CAL_LO_R
  , ⟨0x80234, 0x4000, 12, 0x1, 1, 0x0, 0x0, 0x0, 0x0, 0x0, 0x7FFF7FFF, true⟩  -- PRTn_CAL_LO_B
  , ⟨0x80238, 0x4000, 12, 0x1, 1, 0x0, 0x0, 0x0, 0x0, 0x0, 0xFFFF, true⟩  -- PRTn_CAL_ROUTE
  ]

/-- Registers of the PRT block. -/
def rowsPRT : List RegRow := rowsPRT0 ++ rowsPRT1

/-- Registers of the BRL block (07_brillouin_temperature.md). -/
def rowsBRL : List RegRow :=
  [ ⟨0xC0000, 0x1, 1, 0x1, 1, 0xC001E, 0x0, 0x801F03FF, 0x0, 0x0, 0x0, false⟩  -- BRL_CFG
  , ⟨0xC0004, 0x1, 1, 0x1, 1, 0x0, 0x0, 0x1FFF, 0x0, 0x0, 0x0, false⟩  -- BRL_REGION
  , ⟨0xC0008, 0x1, 1, 0x1, 1, 0x960A1E00, 0x0, 0xFFFFFF00, 0x0, 0x0, 0x0, false⟩  -- BRL_FIT_CFG
  , ⟨0xC000C, 0x1, 1, 0x1, 1, 0x100, 0x0, 0xFFFF, 0x0, 0x0, 0x0, false⟩  -- BRL_MIN_TURNS
  , ⟨0xC0010, 0x1, 1, 0x1, 1, 0xF000000, 0x0, 0x0, 0x0, 0x0, 0xEF000000, false⟩  -- BRL_STATUS
  , ⟨0xC0014, 0x1, 1, 0x1, 1, 0x0, 0x0, 0x0, 0x0, 0x0, 0xFFFFFFFF, false⟩  -- BRL_CELL_RATE
  , ⟨0xC0018, 0x1, 1, 0x1, 1, 0x0, 0x0, 0x0, 0x0, 0x0, 0xFFFFFFFF, false⟩  -- BRL_LEARN_RESULT
  , ⟨0xC0020, 0x1, 1, 0x1, 1, 0x0, 0x0, 0x0, 0x0, 0x0, 0xFFFFFFFF, false⟩  -- BRL_DROP_FAILED_COUNT
  , ⟨0xC0024, 0x1, 1, 0x1, 1, 0x0, 0x0, 0x0, 0x0, 0x0, 0xFFFFFFFF, false⟩  -- BRL_DROP_SKIP_COUNT
  , ⟨0xC0028, 0x1, 1, 0x1, 1, 0x0, 0x0, 0x0, 0x0, 0x0, 0xFFFFFFFF, false⟩  -- BRL_DROP_LOSHIFT_COUNT
  , ⟨0xC002C, 0x1, 1, 0x1, 1, 0x0, 0x0, 0x0, 0x0, 0x0, 0xFFFFFFFF, false⟩  -- BRL_DROP_APR_COUNT
  , ⟨0xC0030, 0x1, 1, 0x1, 1, 0x0, 0x0, 0x0, 0x0, 0x0, 0xFFFFFFFF, false⟩  -- BRL_DROP_GEOM_COUNT
  , ⟨0xC0034, 0x1, 1, 0x1, 1, 0x0, 0x0, 0x0, 0x0, 0x0, 0xFFFFFFFF, false⟩  -- BRL_DROP_OVERRUN_COUNT
  , ⟨0xC0038, 0x1, 1, 0x1, 1, 0x0, 0x0, 0x0, 0x0, 0x0, 0xFFFFFFFF, false⟩  -- BRL_POINT_SAT_COUNT
  , ⟨0xC0040, 0x1, 1, 0x1, 1, 0x0, 0xF0007FFF, 0x0, 0x0, 0x0, 0x0, false⟩  -- BRL_REF_ADDR
  , ⟨0xC0044, 0x1, 1, 0x1, 1, 0x0, 0x0, 0x80FFFFFF, 0x0, 0x0, 0x0, false⟩  -- BRL_REF_DATA
  , ⟨0xC0100, 0x20, 12, 0x1, 1, 0x0, 0x0, 0x0, 0x0, 0x0, 0xC000FFFF, true⟩  -- BRL_PORTn_STATUS
  , ⟨0xC0104, 0x20, 12, 0x1, 1, 0x0, 0x0, 0x0, 0x0, 0x0, 0xFFFFFFFF, true⟩  -- BRL_PORTn_LAST_TURNS
  , ⟨0xC0108, 0x20, 12, 0x1, 1, 0x0, 0x0, 0x0, 0x0, 0x0, 0xFFFFFFFF, true⟩  -- BRL_PORTn_PERIOD_COUNT
  , ⟨0xC010C, 0x20, 12, 0x1, 1, 0x0, 0x0, 0x0, 0x0, 0x0, 0xFFFFFFFF, true⟩  -- BRL_PORTn_ROUTE_FAIL_COUNT
  , ⟨0xC0110, 0x20, 12, 0x1, 1, 0x0, 0x0, 0x0, 0x0, 0x0, 0xFFFFFFFF, true⟩  -- BRL_PORTn_RESTART_COUNT
  , ⟨0xC0114, 0x20, 12, 0x1, 1, 0x0, 0x0, 0xFFFF, 0x0, 0x0, 0x0, true⟩  -- BRL_PORTn_LOOP
  , ⟨0xC1000, 0x100, 12, 0x8, 16, 0x0, 0x0, 0xFFFF, 0x0, 0x0, 0x0, true⟩  -- BRL_PORTn_SECTk_START
  , ⟨0xC1004, 0x100, 12, 0x8, 16, 0x7D0042E, 0x0, 0xFFFFFFFF, 0x0, 0x0, 0x0, true⟩  -- BRL_PORTn_SECTk_COEF
  ]

/-- Registers of the BLT block (08_belt_timing_and_belt_frame.md). -/
def rowsBLT0 : List RegRow :=
  [ ⟨0xD0000, 0x40, 8, 0x1, 1, 0x2000082, 0x0, 0xEFFF03FF, 0x0, 0x0, 0x0, false⟩  -- BLT_TINi_CFG
  , ⟨0xD0004, 0x40, 8, 0x1, 1, 0xC0080064, 0x0, 0xC0FF3FFF, 0x0, 0x0, 0x0, false⟩  -- BLT_TINi_GATE
  , ⟨0xD0008, 0x40, 8, 0x1, 1, 0x0, 0x0, 0x0, 0x0, 0x0, 0xFFFFFFFF, false⟩  -- BLT_TINi_FREQ_LO
  , ⟨0xD000C, 0x40, 8, 0x1, 1, 0x0, 0x0, 0x0, 0x0, 0x0, 0xFFFFFFFF, false⟩  -- BLT_TINi_FREQ_HI
  , ⟨0xD0010, 0x40, 8, 0x1, 1, 0x0, 0x0, 0x0, 0x30000000, 0x0, 0xC000FFFF, false⟩  -- BLT_TINi_STATUS
  , ⟨0xD0014, 0x40, 8, 0x1, 1, 0x0, 0x0, 0x0, 0x0, 0x0, 0xFFFFFFFF, false⟩  -- BLT_TINi_COUNT_LO
  , ⟨0xD0018, 0x40, 8, 0x1, 1, 0x0, 0x0, 0x0, 0x0, 0x0, 0xFFFFFFFF, false⟩  -- BLT_TINi_COUNT_HI
  , ⟨0xD001C, 0x40, 8, 0x1, 1, 0x0, 0x0, 0x0, 0x0, 0x0, 0xFFFFFFFF, false⟩  -- BLT_TINi_LAST_LO
  , ⟨0xD0020, 0x40, 8, 0x1, 1, 0x0, 0x0, 0x0, 0x0, 0x0, 0xFFFFFFFF, false⟩  -- BLT_TINi_LAST_HI
  , ⟨0xD0024, 0x40, 8, 0x1, 1, 0x0, 0x0, 0x0, 0x0, 0x0, 0xFF, false⟩  -- BLT_TINi_LAST_PIP
  , ⟨0xD0028, 0x40, 8, 0x1, 1, 0x0, 0x0, 0x0, 0x0, 0x0, 0xFFFFFFFF, false⟩  -- BLT_TINi_NUSED
  , ⟨0xD002C, 0x40, 8, 0x1, 1, 0x0, 0x0, 0x0, 0x0, 0x0, 0xFFFFFFFF, false⟩  -- BLT_TINi_LOST_COUNT
  , ⟨0xD0200, 0x20, 4, 0x1, 1, 0x1061A80, 0x0, 0xF7FFFFFF, 0x0, 0x0, 0x0, false⟩  -- BLT_PAIRp_CFG
  , ⟨0xD0204, 0x20, 4, 0x1, 1, 0x0, 0x0, 0x0, 0x0, 0x0, 0xFFFFFFFF, false⟩  -- BLT_PAIRp_LAST_LO
  , ⟨0xD0208, 0x20, 4, 0x1, 1, 0x0, 0x0, 0x0, 0x0, 0x0, 0xFFFFFFFF, false⟩  -- BLT_PAIRp_LAST_HI
  , ⟨0xD020C, 0x20, 4, 0x1, 1, 0x0, 0x0, 0x0, 0x0, 0x0, 0xE0000000, false⟩  -- BLT_PAIRp_STATUS
  , ⟨0xD0210, 0x20, 4, 0x1, 1, 0x0, 0x0, 0x0, 0x0, 0x0, 0xFFFFFFFF, false⟩  -- BLT_PAIRp_PAIRED_COUNT
  , ⟨0xD0214, 0x20, 4, 0x1, 1, 0x0, 0x0, 0x0, 0x0, 0x0, 0xFFFFFFFF, false⟩  -- BLT_PAIRp_DROP_COUNT
  , ⟨0xD0218, 0x20, 4, 0x1, 1, 0x0, 0x0, 0x0, 0x0, 0x0, 0xFFFFFFFF, false⟩  -- BLT_PAIRp_ORPHAN_COUNT
  , ⟨0xD0300, 0x1, 1, 0x1, 1, 0x0, 0x0, 0x1, 0x0, 0x0, 0x0, false⟩  -- BLT_GATE_CFG
  , ⟨0xD0400, 0x40, 8, 0x1, 1, 0x0, 0x0, 0xFFFF7000, 0x0, 0x0, 0x0, false⟩  -- BLT_BELTk_CFG
  , ⟨0xD0404, 0x40, 8, 0x1, 1, 0x100000, 0x0, 0xFFFFFFFF, 0x0, 0x0, 0x0, false⟩  -- BLT_BELTk_LEN
  , ⟨0xD0408, 0x40, 8, 0x1, 1, 0x3D0900, 0x0, 0xFFFFFFFF, 0x0, 0x0, 0x0, false⟩  -- BLT_BELTk_CPM
  , ⟨0xD040C, 0x40, 8, 0x1, 1, 0xFFFF0110, 0x0, 0xFFFFFFFF, 0x0, 0x0, 0x0, false⟩  -- BLT_BELTk_MAP
  ]

/-- Registers of the BLT block (08_belt_timing_and_belt_frame.md). -/
def rowsBLT1 : List RegRow :=
  [ ⟨0xD0410, 0x40, 8, 0x1, 1, 0x3000, 0x0, 0xFFFFFF00, 0x0, 0x0, 0x0, false⟩  -- BLT_BELTk_EVT
  , ⟨0xD0414, 0x40, 8, 0x1, 1, 0x640300, 0x0, 0xFFFFFF00, 0x0, 0x0, 0x0, false⟩  -- BLT_BELTk_SLIP_CFG
  , ⟨0xD0418, 0x40, 8, 0x1, 1, 0x3D0900, 0x0, 0xFFFFFFFF, 0x0, 0x0, 0x0, false⟩  -- BLT_BELTk_DRIVE_CPM
  , ⟨0xD041C, 0x40, 8, 0x1, 1, 0x3D0900, 0x0, 0xFFFFFFFF, 0x0, 0x0, 0x0, false⟩  -- BLT_BELTk_TAIL_CPM
  , ⟨0xD0420, 0x40, 8, 0x1, 1, 0x0, 0x0, 0x0, 0x0, 0x0, 0xFFFFFFFF, false⟩  -- BLT_BELTk_POS_LO
  , ⟨0xD0424, 0x40, 8, 0x1, 1, 0x0, 0x0, 0x0, 0x0, 0x0, 0xFFFFFFFF, false⟩  -- BLT_BELTk_POS_HI
  , ⟨0xD0428, 0x40, 8, 0x1, 1, 0x0, 0x0, 0x0, 0x0, 0x0, 0xFFFFFFFF, false⟩  -- BLT_BELTk_SPEED
  , ⟨0xD042C, 0x40, 8, 0x1, 1, 0x0, 0x0, 0x0, 0x20000000, 0x0, 0xDE00FFFF, false⟩  -- BLT_BELTk_STATUS
  , ⟨0xD0430, 0x40, 8, 0x1, 1, 0x0, 0x0, 0x0, 0x0, 0x0, 0xFFFFFFFF, false⟩  -- BLT_BELTk_LEN_MEAS
  , ⟨0xD0434, 0x40, 8, 0x1, 1, 0x0, 0x0, 0x0, 0x0, 0x0, 0xFFFFFFFF, false⟩  -- BLT_BELTk_EVENT
  , ⟨0xD0438, 0x40, 8, 0x1, 1, 0x0, 0x0, 0x0, 0x0, 0x0, 0xFFFFFFFF, false⟩  -- BLT_BELTk_MAP_COUNT
  , ⟨0xD043C, 0x40, 8, 0x1, 1, 0x0, 0x0, 0x0, 0x0, 0x0, 0xFFFFFFFF, false⟩  -- BLT_BELTk_SLIP_EVENT_COUNT
  , ⟨0xD0800, 0x1, 1, 0x1, 1, 0x0, 0x0, 0x800000FF, 0x0, 0x0, 0x0, false⟩  -- BLT_CFG
  , ⟨0xD0804, 0x1, 1, 0x1, 1, 0x0, 0x0, 0x1FFF, 0x0, 0x0, 0x0, false⟩  -- BLT_REGION
  , ⟨0xD0808, 0x1, 1, 0x1, 1, 0x0, 0x0, 0x0, 0x0, 0x0, 0x800001FF, false⟩  -- BLT_STATUS
  , ⟨0xD080C, 0x1, 1, 0x1, 1, 0x0, 0x0, 0x0, 0x0, 0x0, 0xFFFFFFFF, false⟩  -- BLT_BIN_RATE
  , ⟨0xD0810, 0x1, 1, 0x1, 1, 0x0, 0x0, 0x0, 0x0, 0x0, 0xFFFFFFFF, false⟩  -- BLT_EXCLUDED_COUNT
  , ⟨0xD0814, 0x1, 1, 0x1, 1, 0x0, 0x0, 0x0, 0x0, 0x0, 0xFFFFFFFF, false⟩  -- BLT_DROP_OVERRUN_COUNT
  , ⟨0xD0818, 0x1, 1, 0x1, 1, 0x0, 0x0, 0x0, 0x0, 0x0, 0xFFFFFFFF, false⟩  -- BLT_DROP_FAILED_COUNT
  , ⟨0xD1000, 0x10, 256, 0x1, 1, 0x10000, 0x0, 0xFF81FFFF, 0x0, 0x0, 0x0, false⟩  -- BLT_ROUTEr_A
  , ⟨0xD1004, 0x10, 256, 0x1, 1, 0x0, 0x0, 0xFFFFFFFF, 0x0, 0x0, 0x0, false⟩  -- BLT_ROUTEr_B
  , ⟨0xD1008, 0x10, 256, 0x1, 1, 0x0, 0x0, 0xFFFFFFFF, 0x0, 0x0, 0x0, false⟩  -- BLT_ROUTEr_C
  ]

/-- Registers of the BLT block. -/
def rowsBLT : List RegRow := rowsBLT0 ++ rowsBLT1

/-- Registers of the TRG block (09_trigger_and_capture.md). -/
def rowsTRG0 : List RegRow :=
  [ ⟨0xE0000, 0x40, 16, 0x1, 1, 0x0, 0x0, 0xFFE00000, 0x0, 0x0, 0x0, false⟩  -- TRGu_CFG
  , ⟨0xE0004, 0x40, 16, 0x1, 1, 0x0, 0x0, 0xE0F0FFFF, 0x0, 0x0, 0x0, false⟩  -- TRGu_SRC
  , ⟨0xE0008, 0x40, 16, 0x1, 1, 0x1, 0x0, 0xFFFFFFFF, 0x0, 0x0, 0x0, false⟩  -- TRGu_SRC_RANGE
  , ⟨0xE000C, 0x40, 16, 0x1, 1, 0x7FFFFFFF, 0x0, 0xFFFFFFFF, 0x0, 0x0, 0x0, false⟩  -- TRGu_LEVEL
  , ⟨0xE0010, 0x40, 16, 0x1, 1, 0x0, 0x0, 0xFFFFFFFF, 0x0, 0x0, 0x0, false⟩  -- TRGu_HYST
  , ⟨0xE0014, 0x40, 16, 0x1, 1, 0x0, 0x0, 0xFFFFFFFF, 0x0, 0x0, 0x0, false⟩  -- TRGu_CAP_WIN
  , ⟨0xE0018, 0x40, 16, 0x1, 1, 0x1000040, 0x0, 0xFFFFFFFF, 0x0, 0x0, 0x0, false⟩  -- TRGu_CAP_LEN
  , ⟨0xE001C, 0x40, 16, 0x1, 1, 0x4, 0x0, 0xFF1E, 0x0, 0x0, 0x0, false⟩  -- TRGu_CAP_FMT
  , ⟨0xE0020, 0x40, 16, 0x1, 1, 0x80000000, 0x0, 0x80000FFF, 0x0, 0x0, 0x0, false⟩  -- TRGu_MEAS
  , ⟨0xE0024, 0x40, 16, 0x1, 1, 0x0, 0x0, 0x0, 0x0, 0x0, 0xFC000000, false⟩  -- TRGu_STATUS
  , ⟨0xE0028, 0x40, 16, 0x1, 1, 0x0, 0x0, 0x0, 0x0, 0x0, 0xFFFFFFFF, false⟩  -- TRGu_CAP_PLAN
  , ⟨0xE002C, 0x40, 16, 0x1, 1, 0x0, 0x0, 0x0, 0x0, 0x0, 0xFFFFFFFF, false⟩  -- TRGu_CAP_CAPACITY
  , ⟨0xE0030, 0x40, 16, 0x1, 1, 0x0, 0x0, 0x0, 0x0, 0x0, 0xFFFFFFFF, false⟩  -- TRGu_LAST_VALUE
  , ⟨0xE0034, 0x40, 16, 0x1, 1, 0x0, 0x0, 0x0, 0x0, 0x0, 0xFFFFFFFF, false⟩  -- TRGu_FIRE_COUNT
  , ⟨0xE0038, 0x40, 16, 0x1, 1, 0x0, 0x0, 0x0, 0x0, 0x0, 0xFFFFFFFF, false⟩  -- TRGu_MISSED_COUNT
  , ⟨0xE003C, 0x40, 16, 0x1, 1, 0x0, 0x0, 0x0, 0x0, 0x0, 0xFFFFFFFF, false⟩  -- TRGu_INHIBIT_COUNT
  , ⟨0xE0400, 0x20, 4, 0x1, 1, 0x0, 0x0, 0x1FFF, 0x0, 0x0, 0x0, false⟩  -- TRG_CREGr_BASE
  , ⟨0xE0404, 0x20, 4, 0x1, 1, 0x1, 0x0, 0x7FF, 0x0, 0x0, 0x0, false⟩  -- TRG_CREGr_SIZE
  , ⟨0xE0408, 0x20, 4, 0x1, 1, 0x0, 0x0, 0x0, 0x0, 0x0, 0xFFFFFFFF, false⟩  -- TRG_CREGr_DROP_COUNT
  , ⟨0xE040C, 0x20, 4, 0x1, 1, 0x0, 0x0, 0x0, 0x0, 0x0, 0xFFFFFFFF, false⟩  -- TRG_CREGr_LOST_COUNT
  , ⟨0xE0410, 0x20, 4, 0x1, 1, 0x0, 0x0, 0x0, 0x0, 0x0, 0xFFFFFFFF, false⟩  -- TRG_CREGr_ABORT_COUNT
  , ⟨0xE0500, 0x10, 4, 0x1, 1, 0x40000000, 0x0, 0xF000FFFF, 0x0, 0x0, 0x0, false⟩  -- TRG_DOUTk_CFG
  , ⟨0xE0504, 0x10, 4, 0x1, 1, 0x3E8, 0x0, 0xFFFF, 0x0, 0x0, 0x0, false⟩  -- TRG_DOUTk_HOLD
  , ⟨0xE0508, 0x10, 4, 0x1, 1, 0x0, 0x0, 0x0, 0x8000000, 0x0, 0xF0000000, false⟩  -- TRG_DOUTk_STATUS
  ]

/-- Registers of the TRG block (09_trigger_and_capture.md). -/
def rowsTRG1 : List RegRow :=
  [ ⟨0xE0600, 0x4, 12, 0x1, 1, 0x6, 0x0, 0xC000000F, 0x0, 0x0, 0x0, true⟩  -- TRG_TSn_CFG
  , ⟨0xE0700, 0x1, 1, 0x1, 1, 0x0, 0x0, 0x0, 0x0, 0x0, 0x80000000, false⟩  -- TRG_STATUS
  ]

/-- Registers of the TRG block. -/
def rowsTRG : List RegRow := rowsTRG0 ++ rowsTRG1

/-- Registers of the FLT block (06_temporal_filter_chain.md). -/
def rowsFLT : List RegRow :=
  [ ⟨0x100000, 0x40, 12, 0x1, 1, 0x800000D, 0x0, 0xFE1F071F, 0x0, 0x0, 0x0, true⟩  -- FLT_PORTn_CFG
  , ⟨0x100004, 0x40, 12, 0x1, 1, 0x4000, 0x0, 0xFFFFFFFF, 0x0, 0x0, 0x0, true⟩  -- FLT_PORTn_WINDOW
  , ⟨0x100008, 0x40, 12, 0x1, 1, 0x0, 0x0, 0x7F, 0x0, 0x0, 0x7F0000, true⟩  -- FLT_PORTn_ALIGN
  , ⟨0x10000C, 0x40, 12, 0x1, 1, 0x0, 0x0, 0x0, 0x0, 0x0, 0xFFFFFF, true⟩  -- FLT_PORTn_GD
  , ⟨0x100010, 0x40, 12, 0x1, 1, 0x0, 0x0, 0x0, 0x0, 0x0, 0xFFFFFFFF, true⟩  -- FLT_PORTn_SETTLE
  , ⟨0x100014, 0x40, 12, 0x1, 1, 0x0, 0x0, 0x0, 0x2000000, 0x0, 0xFC000000, true⟩  -- FLT_PORTn_STATUS
  , ⟨0x100018, 0x40, 12, 0x1, 1, 0x0, 0x0, 0x0, 0x0, 0x0, 0xFFFFFFFF, true⟩  -- FLT_PORTn_SAT_COUNT
  , ⟨0x10001C, 0x40, 12, 0x1, 1, 0x0, 0x0, 0x0, 0x0, 0x0, 0xFFFFFFFF, true⟩  -- FLT_PORTn_OUT_SAT_COUNT
  , ⟨0x100020, 0x40, 12, 0x1, 1, 0x0, 0x0, 0x0, 0x0, 0x0, 0xFFFFFFFF, true⟩  -- FLT_PORTn_RESTART_COUNT
  , ⟨0x101000, 0x100, 8, 0x1, 1, 0x0, 0x0, 0xFFFF0007, 0x0, 0x0, 0x0, false⟩  -- FLT_USERu_CTRL
  , ⟨0x101004, 0x100, 8, 0x1, 1, 0x80000000, 0x0, 0x0, 0x0, 0x0, 0xFF00FFFF, false⟩  -- FLT_USERu_STATUS
  , ⟨0x101020, 0x100, 8, 0x20, 6, 0x400000, 0x0, 0xFFFFFF, 0x0, 0x0, 0x0, false⟩  -- FLT_USERu_SECs_B0
  , ⟨0x101024, 0x100, 8, 0x20, 6, 0x0, 0x0, 0xFFFFFF, 0x0, 0x0, 0x0, false⟩  -- FLT_USERu_SECs_B1
  , ⟨0x101028, 0x100, 8, 0x20, 6, 0x0, 0x0, 0xFFFFFF, 0x0, 0x0, 0x0, false⟩  -- FLT_USERu_SECs_B2
  , ⟨0x10102C, 0x100, 8, 0x20, 6, 0x0, 0x0, 0xFFFFFF, 0x0, 0x0, 0x0, false⟩  -- FLT_USERu_SECs_A1
  , ⟨0x101030, 0x100, 8, 0x20, 6, 0x0, 0x0, 0xFFFFFF, 0x0, 0x0, 0x0, false⟩  -- FLT_USERu_SECs_A2
  , ⟨0x101034, 0x100, 8, 0x20, 6, 0x0, 0x0, 0xF, 0x0, 0x0, 0x0, false⟩  -- FLT_USERu_SECs_SHIFT
  , ⟨0x102020, 0x100, 24, 0x20, 6, 0x400000, 0x0, 0x0, 0x0, 0x0, 0xFFFFFF, false⟩  -- FLT_PRESETp_SECs_B0
  , ⟨0x102024, 0x100, 24, 0x20, 6, 0x0, 0x0, 0x0, 0x0, 0x0, 0xFFFFFF, false⟩  -- FLT_PRESETp_SECs_B1
  , ⟨0x102028, 0x100, 24, 0x20, 6, 0x0, 0x0, 0x0, 0x0, 0x0, 0xFFFFFF, false⟩  -- FLT_PRESETp_SECs_B2
  , ⟨0x10202C, 0x100, 24, 0x20, 6, 0x0, 0x0, 0x0, 0x0, 0x0, 0xFFFFFF, false⟩  -- FLT_PRESETp_SECs_A1
  , ⟨0x102030, 0x100, 24, 0x20, 6, 0x0, 0x0, 0x0, 0x0, 0x0, 0xFFFFFF, false⟩  -- FLT_PRESETp_SECs_A2
  , ⟨0x102034, 0x100, 24, 0x20, 6, 0x0, 0x0, 0x0, 0x0, 0x0, 0xF, false⟩  -- FLT_PRESETp_SECs_SHIFT
  ]

/-- Registers of the ACR block (10_analysis_cores.md, 11_scratchpads_and_dram.md). -/
def rowsACR0 : List RegRow :=
  [ ⟨0x140000, 0x100, 16, 0x1, 1, 0x0, 0x0, 0x80000000, 0x0, 0x6, 0x0, false⟩  -- ACRk_CTRL
  , ⟨0x140004, 0x100, 16, 0x1, 1, 0x0, 0x0, 0x7FF, 0x0, 0x0, 0x0, false⟩  -- ACRk_ENTRY
  , ⟨0x140008, 0x100, 16, 0x1, 1, 0x0, 0x0, 0xFFFF, 0x0, 0x0, 0x0, false⟩  -- ACRk_WDOG
  , ⟨0x14000C, 0x100, 16, 0x1, 1, 0x0, 0x0, 0xEFFFFFFF, 0x0, 0x0, 0x0, false⟩  -- ACRk_FEED_CFG
  , ⟨0x140010, 0x100, 16, 0x1, 1, 0x4000000, 0x0, 0xFF03FFC0, 0x0, 0x0, 0x0, false⟩  -- ACRk_FEED_BUF
  , ⟨0x140014, 0x100, 16, 0x1, 1, 0x0, 0x0, 0x80000007, 0x0, 0x0, 0x0, false⟩  -- ACRk_OUT_CFG
  , ⟨0x140018, 0x100, 16, 0x1, 1, 0x0, 0x0, 0xFFFF1FFF, 0x0, 0x0, 0x0, false⟩  -- ACRk_DRAM
  , ⟨0x140020, 0x100, 16, 0x1, 1, 0x0, 0x0, 0x0, 0x0, 0x0, 0xFE7F07FF, false⟩  -- ACRk_STATUS
  , ⟨0x140024, 0x100, 16, 0x1, 1, 0x0, 0x0, 0x0, 0x0, 0x0, 0xF00007FF, false⟩  -- ACRk_FAULT
  , ⟨0x140028, 0x100, 16, 0x1, 1, 0x0, 0x0, 0x0, 0x0, 0x0, 0xFFFFFFFF, false⟩  -- ACRk_FAULT_INSN
  , ⟨0x14002C, 0x100, 16, 0x1, 1, 0x0, 0x0, 0x0, 0x0, 0x0, 0xFF, false⟩  -- ACRk_SIG
  , ⟨0x140030, 0x100, 16, 0x1, 1, 0x0, 0x0, 0x0, 0x0, 0x0, 0xFF007FFF, false⟩  -- ACRk_SLOT_INFO
  , ⟨0x140034, 0x100, 16, 0x1, 1, 0x0, 0x3F, 0x0, 0x0, 0x0, 0x0, false⟩  -- ACRk_DIAG_SEL
  , ⟨0x140038, 0x100, 16, 0x1, 1, 0x0, 0x0, 0x0, 0x0, 0x0, 0xFFFFFFFF, false⟩  -- ACRk_DIAG_DATA
  , ⟨0x140040, 0x100, 16, 0x1, 1, 0x0, 0x0, 0x0, 0x0, 0x0, 0xFFFFFFFF, false⟩  -- ACRk_FEED_COUNT
  , ⟨0x140044, 0x100, 16, 0x1, 1, 0x0, 0x0, 0x0, 0x0, 0x0, 0xFFFFFFFF, false⟩  -- ACRk_FEED_DROP_COUNT
  , ⟨0x140048, 0x100, 16, 0x1, 1, 0x0, 0x0, 0x0, 0x0, 0x0, 0xFFFFFFFF, false⟩  -- ACRk_OUT_COUNT
  , ⟨0x14004C, 0x100, 16, 0x1, 1, 0x0, 0x0, 0x0, 0x0, 0x0, 0xFFFFFFFF, false⟩  -- ACRk_OUT_LOST_COUNT
  , ⟨0x140050, 0x100, 16, 0x1, 1, 0x0, 0x0, 0x0, 0x0, 0x0, 0xFFFFFFFF, false⟩  -- ACRk_SIG_COUNT
  , ⟨0x140054, 0x100, 16, 0x1, 1, 0x0, 0x0, 0x0, 0x0, 0x0, 0xFFFFFFFF, false⟩  -- ACRk_FAULT_COUNT
  , ⟨0x140058, 0x100, 16, 0x1, 1, 0x0, 0x0, 0x0, 0x0, 0x0, 0xFFFFFFFF, false⟩  -- ACRk_HOST_REJECT_COUNT
  , ⟨0x14005C, 0x100, 16, 0x1, 1, 0x0, 0x0, 0x0, 0x0, 0x0, 0xFFFFFFFF, false⟩  -- ACRk_BUSY_CYCLES_LO
  , ⟨0x140060, 0x100, 16, 0x1, 1, 0x0, 0x0, 0x0, 0x0, 0x0, 0xFFFFFFFF, false⟩  -- ACRk_BUSY_CYCLES_HI
  , ⟨0x140064, 0x100, 16, 0x1, 1, 0x0, 0x0, 0x0, 0x0, 0x0, 0xFFFFFFFF, false⟩  -- ACRk_STALL_CYCLES_LO
  ]

/-- Registers of the ACR block (10_analysis_cores.md, 11_scratchpads_and_dram.md). -/
def rowsACR1 : List RegRow :=
  [ ⟨0x140068, 0x100, 16, 0x1, 1, 0x0, 0x0, 0x0, 0x0, 0x0, 0xFFFFFFFF, false⟩  -- ACRk_STALL_CYCLES_HI
  , ⟨0x140080, 0x100, 16, 0x1, 1, 0x101000, 0x0, 0x80FFFFFF, 0x0, 0x0, 0x0, false⟩  -- ACRk_SPM_CFG
  , ⟨0x140084, 0x100, 16, 0x1, 1, 0x0, 0x0, 0x0, 0x0, 0x0, 0xFFFFFF00, false⟩  -- ACRk_SPM_STATUS
  , ⟨0x140088, 0x100, 16, 0x1, 1, 0x0, 0x0, 0x0, 0x0, 0x0, 0xFFFFFFFF, false⟩  -- ACRk_SPM_CE_COUNT
  , ⟨0x14008C, 0x100, 16, 0x1, 1, 0x0, 0x0, 0x0, 0x0, 0x0, 0xFFFFFFFF, false⟩  -- ACRk_SPM_UE_COUNT
  , ⟨0x140090, 0x100, 16, 0x1, 1, 0x0, 0x0, 0x0, 0x0, 0x0, 0xF003FFFF, false⟩  -- ACRk_SPM_ECC_ADDR
  , ⟨0x140094, 0x100, 16, 0x1, 1, 0x0, 0x0, 0x0, 0x0, 0x0, 0xFFFFFFFF, false⟩  -- ACRk_STARVE_COUNT
  , ⟨0x140098, 0x100, 16, 0x1, 1, 0x0, 0x0, 0x0, 0x0, 0x0, 0xFFFFFFFF, false⟩  -- ACRk_STARVE_MAX
  , ⟨0x1400A0, 0x100, 16, 0x4, 4, 0x0, 0x0, 0x0, 0x0, 0x0, 0xC3FFC3FF, false⟩  -- ACRk_SPM_REPAIRa
  , ⟨0x141000, 0x1, 1, 0x1, 1, 0x0, 0x0, 0x0, 0x0, 0x0, 0xFFFFFFFF, false⟩  -- ACR_SUMMARY
  , ⟨0x141010, 0x1, 1, 0x1, 1, 0xFFFF, 0x4000FFFF, 0x0, 0x0, 0x80000000, 0x0, false⟩  -- ACR_MARCH_CTRL
  , ⟨0x141014, 0x1, 1, 0x1, 1, 0x0, 0x0, 0x0, 0x0, 0x0, 0x8000FFFF, false⟩  -- ACR_MARCH_STATUS
  , ⟨0x141018, 0x1, 1, 0x1, 1, 0x0, 0x80000000, 0x0, 0x0, 0x0, 0x0, false⟩  -- ACR_MARCH_BOOT
  , ⟨0x141020, 0x1, 1, 0x1, 1, 0x0, 0x0, 0x0, 0x0, 0xFFF01, 0x0, false⟩  -- ACR_FUSE_CTRL
  , ⟨0x141024, 0x1, 1, 0x1, 1, 0x0, 0x0, 0x0, 0x0, 0x0, 0xC000000F, false⟩  -- ACR_FUSE_STATUS
  ]

/-- Registers of the ACR block. -/
def rowsACR : List RegRow := rowsACR0 ++ rowsACR1

/-- Registers of the DMC block (11_scratchpads_and_dram.md). -/
def rowsDMC : List RegRow :=
  [ ⟨0x180000, 0x1, 1, 0x1, 1, 0x80180064, 0x0, 0xC0FFFFFF, 0x0, 0x0, 0x0, false⟩  -- DMC_CFG
  , ⟨0x180004, 0x1, 1, 0x1, 1, 0x0, 0x0, 0x0, 0x0, 0x0, 0xFE0F0000, false⟩  -- DMC_STATUS
  , ⟨0x180008, 0x1, 1, 0x1, 1, 0x0, 0x1FFF, 0x0, 0x0, 0x0, 0x0, false⟩  -- DMC_BAR2_BASE
  , ⟨0x18000C, 0x1, 1, 0x1, 1, 0x3E80010, 0x0, 0xFFFFFFFF, 0x0, 0x0, 0x0, false⟩  -- DMC_ECC_CFG
  , ⟨0x180010, 0x1, 1, 0x1, 1, 0x0, 0x0, 0x0, 0x0, 0x0, 0xFFFFFFFF, false⟩  -- DMC_ECC_CE_COUNT
  , ⟨0x180014, 0x1, 1, 0x1, 1, 0x0, 0x0, 0x0, 0x0, 0x0, 0xFFFFFFFF, false⟩  -- DMC_ECC_CE_ADDR_LO
  , ⟨0x180018, 0x1, 1, 0x1, 1, 0x0, 0x0, 0x0, 0x0, 0x0, 0xFFFFFFFF, false⟩  -- DMC_ECC_CE_ADDR_HI
  , ⟨0x180020, 0x1, 1, 0x1, 1, 0x0, 0x0, 0x0, 0x0, 0x0, 0xFC0000FF, false⟩  -- DMC_FREEZE_INFO
  , ⟨0x180024, 0x1, 1, 0x1, 1, 0x0, 0x0, 0x0, 0x0, 0x0, 0xFFFFFFFF, false⟩  -- DMC_FREEZE_ADDR_LO
  , ⟨0x180028, 0x1, 1, 0x1, 1, 0x0, 0x0, 0x0, 0x0, 0x0, 0xFFFFFFFF, false⟩  -- DMC_FREEZE_ADDR_HI
  , ⟨0x180040, 0x1, 1, 0x1, 1, 0x0, 0x0, 0x0, 0x0, 0x0, 0xFFFFFFFF, false⟩  -- DMC_RAW_WAIT_COUNT
  , ⟨0x180044, 0x1, 1, 0x1, 1, 0x0, 0x0, 0x0, 0x0, 0x0, 0xFFFFFFFF, false⟩  -- DMC_FSP_DEFER_COUNT
  , ⟨0x180048, 0x1, 1, 0x1, 1, 0x0, 0x0, 0x0, 0x0, 0x0, 0xFFFFFFFF, false⟩  -- DMC_SR_ENTRY_COUNT
  , ⟨0x18004C, 0x1, 1, 0x1, 1, 0x0, 0x0, 0x0, 0x0, 0x0, 0xFFFFFFFF, false⟩  -- DMC_SR_WAKE_WAIT_COUNT
  , ⟨0x180050, 0x1, 1, 0x1, 1, 0x0, 0x0, 0x0, 0x0, 0x0, 0xFFFFFFFF, false⟩  -- DMC_REFRESH_POSTPONE_COUNT
  , ⟨0x180054, 0x1, 1, 0x1, 1, 0x0, 0x0, 0x0, 0x0, 0x0, 0xFFFFFFFF, false⟩  -- DMC_BAR2_VOID_COUNT
  , ⟨0x180100, 0x4, 7, 0x1, 1, 0x0, 0x0, 0x0, 0x0, 0x0, 0xFFFFFFFF, false⟩  -- DMC_CLIENTc_OVERRUN_COUNT
  , ⟨0x180200, 0x4, 22, 0x1, 1, 0x0, 0x0, 0x0, 0x0, 0x0, 0xFFFFFF80, false⟩  -- DMC_REGIONi
  , ⟨0x180280, 0x1, 1, 0x1, 1, 0x0, 0x0, 0x0, 0x0, 0x0, 0x80001F1F, false⟩  -- DMC_CONFLICT
  ]

/-- Registers of the HIF block (12_host_interface_and_events.md). -/
def rowsHIF : List RegRow :=
  [ ⟨0x190000, 0x1, 1, 0x1, 1, 0x0, 0x0, 0x0, 0x0, 0x0, 0xFF, false⟩  -- HIF_LINK
  , ⟨0x190010, 0x1, 1, 0x1, 1, 0x0, 0xFFFFFFC1, 0x0, 0x0, 0x0, 0x0, false⟩  -- HIF_SHADOW_BASE_LO
  , ⟨0x190014, 0x1, 1, 0x1, 1, 0x0, 0xFFFFFFFF, 0x0, 0x0, 0x0, 0x0, false⟩  -- HIF_SHADOW_BASE_HI
  , ⟨0x190020, 0x1, 1, 0x1, 1, 0x0, 0x0, 0x0, 0x0, 0x0, 0xFFFFFFFF, false⟩  -- HIF_RWL_IGNORED_COUNT
  , ⟨0x190024, 0x1, 1, 0x1, 1, 0x0, 0x0, 0x0, 0x0, 0x0, 0x7FFFFF, false⟩  -- HIF_RWL_ADDR
  , ⟨0x190030, 0x1, 1, 0x1, 1, 0x0, 0x0, 0x0, 0x0, 0x0, 0x81FFFFFF, false⟩  -- HIF_CMD_STATUS
  , ⟨0x190034, 0x1, 1, 0x1, 1, 0x0, 0x0, 0x0, 0x0, 0x0, 0xFFFFFFFF, false⟩  -- HIF_CMD_ERR_COUNT
  , ⟨0x190100, 0x20, 32, 0x1, 1, 0x0, 0xFFFFFFC0, 0x0, 0x0, 0x0, 0x0, false⟩  -- HIF_RINGr_BASE_LO
  , ⟨0x190104, 0x20, 32, 0x1, 1, 0x0, 0xFFFFFFFF, 0x0, 0x0, 0x0, 0x0, false⟩  -- HIF_RINGr_BASE_HI
  , ⟨0x190108, 0x20, 32, 0x1, 1, 0x0, 0xDF00000F, 0x0, 0x0, 0x0, 0x0, false⟩  -- HIF_RINGr_CTRL
  , ⟨0x19010C, 0x20, 32, 0x1, 1, 0x0, 0x0, 0x0, 0x0, 0x0, 0xFFFFFFFF, false⟩  -- HIF_RINGr_INDEX
  , ⟨0x190110, 0x20, 32, 0x1, 1, 0x0, 0x0, 0x0, 0x0, 0x0, 0x8000000F, false⟩  -- HIF_RINGr_STATUS
  , ⟨0x190114, 0x20, 32, 0x1, 1, 0x0, 0x0, 0x0, 0x0, 0x0, 0xFFFFFFFF, false⟩  -- HIF_RINGr_DISCARD_COUNT
  , ⟨0x190118, 0x20, 32, 0x1, 1, 0x0, 0x0, 0x0, 0x0, 0x0, 0xFFFFFFFF, false⟩  -- HIF_RINGr_BLOCK_COUNT
  , ⟨0x190800, 0x4, 64, 0x1, 1, 0x0, 0xFF00FFFF, 0x0, 0x0, 0x0, 0x0, false⟩  -- HIF_EVq_ROUTE
  , ⟨0x190900, 0x4, 64, 0x1, 1, 0x0, 0x0, 0x0, 0x0, 0x0, 0xFFFFFFFF, false⟩  -- HIF_EVq_COUNT
  , ⟨0x190A00, 0x1, 1, 0x1, 1, 0x0, 0x0, 0x0, 0xFFFFFFFF, 0x0, 0x0, false⟩  -- HIF_EV_PEND_LO
  , ⟨0x190A04, 0x1, 1, 0x1, 1, 0x0, 0x0, 0x0, 0xFFFFFFFF, 0x0, 0x0, false⟩  -- HIF_EV_PEND_HI
  , ⟨0x190C00, 0x4, 32, 0x1, 1, 0x0, 0xFFFF, 0x0, 0x0, 0x0, 0x0, false⟩  -- HIF_VECv_MOD
  ]

/-- Registers of the DBL block (12_host_interface_and_events.md). -/
def rowsDBL : List RegRow :=
  [ ⟨0x1A0000, 0x4, 32, 0x1, 1, 0x0, 0x0, 0x0, 0x0, 0xFFFF, 0x0, false⟩  -- DBL_RINGr
  ]

/-- Registers of the CMP block (13_product_formats_and_compression.md). -/
def rowsCMP : List RegRow :=
  [ ⟨0x1B0000, 0x1, 1, 0x1, 1, 0x64, 0x0, 0x8000FFFF, 0x0, 0x0, 0x0, false⟩  -- CMP_CFG
  , ⟨0x1B0004, 0x1, 1, 0x1, 1, 0x0, 0x0, 0xFFFFFFF8, 0x0, 0x0, 0x0, false⟩  -- CMP_RING_EN
  , ⟨0x1B0008, 0x1, 1, 0x1, 1, 0x0, 0x0, 0xFF, 0x0, 0x0, 0x0, false⟩  -- CMP_MAP_CFG
  , ⟨0x1B000C, 0x1, 1, 0x1, 1, 0x3E8, 0x0, 0x8000FFFF, 0x0, 0x0, 0x0, false⟩  -- CMP_HEALTH_CFG
  , ⟨0x1B0040, 0x4, 12, 0x1, 1, 0xC0000000, 0x0, 0xC0000000, 0x0, 0x0, 0x0, true⟩  -- CMP_PORTn_CFG
  , ⟨0x1B0100, 0x4, 64, 0x1, 1, 0xFFFFFFFF, 0x0, 0xFFFFFFFF, 0x0, 0x0, 0x0, false⟩  -- CMP_HEALTH_LISTi
  , ⟨0x1B0200, 0x1, 1, 0x1, 1, 0x0, 0x0, 0x0, 0x0, 0x0, 0xFFFFFFFF, false⟩  -- CMP_PLAN_RATE
  , ⟨0x1B0204, 0x1, 1, 0x1, 1, 0x0, 0x0, 0x0, 0x0, 0x0, 0xFFFFFFFF, false⟩  -- CMP_IN_BYTES_LO
  , ⟨0x1B0208, 0x1, 1, 0x1, 1, 0x0, 0x0, 0x0, 0x0, 0x0, 0xFFFFFFFF, false⟩  -- CMP_IN_BYTES_HI
  , ⟨0x1B020C, 0x1, 1, 0x1, 1, 0x0, 0x0, 0x0, 0x0, 0x0, 0xFFFFFFFF, false⟩  -- CMP_OUT_BYTES_LO
  , ⟨0x1B0210, 0x1, 1, 0x1, 1, 0x0, 0x0, 0x0, 0x0, 0x0, 0xFFFFFFFF, false⟩  -- CMP_OUT_BYTES_HI
  , ⟨0x1B0214, 0x1, 1, 0x1, 1, 0x0, 0x0, 0x0, 0x0, 0x0, 0xFFFFFFFF, false⟩  -- CMP_STORED_COUNT
  , ⟨0x1B0218, 0x1, 1, 0x1, 1, 0x0, 0x0, 0x0, 0x0, 0x0, 0xFFFFFFFF, false⟩  -- CMP_BYPASS_COUNT
  , ⟨0x1B021C, 0x1, 1, 0x1, 1, 0x0, 0x0, 0x0, 0x0, 0x0, 0xFFFFFFFF, false⟩  -- CMP_LINK_DROP_COUNT
  , ⟨0x1B0220, 0x1, 1, 0x1, 1, 0x0, 0x0, 0x0, 0x0, 0x0, 0xF, false⟩  -- CMP_ENGINE_BUSY
  ]

/-- Registers of the AUX block (14_auxiliary_inputs.md). -/
def rowsAUX : List RegRow :=
  [ ⟨0x1C0000, 0x1, 1, 0x1, 1, 0x0, 0x0, 0xEC0F0000, 0x0, 0x0, 0x0, false⟩  -- AUX_SEQ_CFG
  , ⟨0x1C0004, 0x1, 1, 0x1, 1, 0x102710, 0x0, 0xFFFFFFFF, 0x0, 0x0, 0x0, false⟩  -- AUX_SEQ_PERIOD
  , ⟨0x1C0008, 0x1, 1, 0x1, 1, 0x0, 0x0, 0xFFFF, 0x0, 0x0, 0x0, false⟩  -- AUX_BIAS
  , ⟨0x1C000C, 0x1, 1, 0x1, 1, 0x800A09C4, 0x0, 0x80FFFFFF, 0x0, 0x0, 0x0, false⟩  -- AUX_REF_CFG
  , ⟨0x1C0010, 0x1, 1, 0x1, 1, 0x400A0000, 0x0, 0xE0FF0FFF, 0x0, 0x0, 0x0, false⟩  -- AUX_BLANK0_CFG
  , ⟨0x1C0014, 0x1, 1, 0x1, 1, 0x400A0000, 0x0, 0xE0FF0FFF, 0x0, 0x0, 0x0, false⟩  -- AUX_BLANK1_CFG
  , ⟨0x1C0020, 0x1, 1, 0x1, 1, 0x0, 0x0, 0x0, 0x0, 0x0, 0xFC0F0000, false⟩  -- AUX_STATUS
  , ⟨0x1C0024, 0x1, 1, 0x1, 1, 0x0, 0x0, 0x0, 0x0, 0x0, 0xFFFFFFFF, false⟩  -- AUX_PASS_TIME
  , ⟨0x1C0028, 0x1, 1, 0x1, 1, 0x0, 0x0, 0x0, 0x0, 0x0, 0xFFFFFFFF, false⟩  -- AUX_PASS_NUM
  , ⟨0x1C0030, 0x1, 1, 0x1, 1, 0x0, 0x0, 0x0, 0x0, 0x0, 0xFFFFFFFF, false⟩  -- AUX_PASS_OVERRUN_COUNT
  , ⟨0x1C0034, 0x1, 1, 0x1, 1, 0x0, 0x0, 0x0, 0x0, 0x0, 0xFFFFFFFF, false⟩  -- AUX_BLANK_PAUSE_COUNT
  , ⟨0x1C0038, 0x1, 1, 0x1, 1, 0x0, 0x0, 0x0, 0x0, 0x0, 0xFFFFFFFF, false⟩  -- AUX_EXC_FAULT_COUNT
  , ⟨0x1C003C, 0x1, 1, 0x1, 1, 0x0, 0x0, 0x0, 0x0, 0x0, 0xFFFFFFFF, false⟩  -- AUX_HK_LATE_COUNT
  , ⟨0x1C0100, 0x20, 16, 0x1, 1, 0x0, 0x0, 0xFFFFFFC0, 0x0, 0x0, 0x0, false⟩  -- AUX_ENTe_SEL
  , ⟨0x1C0104, 0x20, 16, 0x1, 1, 0x40010, 0x0, 0xFF0F0730, 0x0, 0x0, 0x0, false⟩  -- AUX_ENTe_TIME
  , ⟨0x1C0108, 0x20, 16, 0x1, 1, 0x80000000, 0x0, 0x0, 0x0, 0x0, 0xFFFFFFFF, false⟩  -- AUX_ENTe_VALUE
  , ⟨0x1C010C, 0x20, 16, 0x1, 1, 0x0, 0x0, 0x0, 0x0, 0x0, 0xFFFFFFFF, false⟩  -- AUX_ENTe_LEAD
  , ⟨0x1C0110, 0x20, 16, 0x1, 1, 0x0, 0x0, 0x0, 0x0, 0x0, 0xF000007F, false⟩  -- AUX_ENTe_STATUS
  , ⟨0x1C0400, 0x4, 24, 0x1, 1, 0x80000000, 0x0, 0x0, 0x0, 0x0, 0xFFFFFFFF, false⟩  -- AUX_HKc
  ]

/-- Registers of the MLK block (15_redundant_pair_and_fuvon_link.md). -/
def rowsMLK0 : List RegRow :=
  [ ⟨0x1D0000, 0x1, 1, 0x1, 1, 0x80007D0, 0x0, 0xF800FFFF, 0x0, 0x0, 0x0, false⟩  -- MLK_CFG
  , ⟨0x1D0004, 0x1, 1, 0x1, 1, 0x0, 0x0, 0xFFFFF, 0x0, 0x0, 0x0, false⟩  -- MLK_EQ_TX
  , ⟨0x1D0008, 0x1, 1, 0x1, 1, 0x0, 0x0, 0xFFFFF, 0x0, 0x0, 0x0, false⟩  -- MLK_EQ_RX
  , ⟨0x1D000C, 0x1, 1, 0x1, 1, 0x0, 0x0, 0x0, 0x800000, 0x0, 0xFF000000, false⟩  -- MLK_LINK_STATUS
  , ⟨0x1D0010, 0x1, 1, 0x1, 1, 0x0, 0x0, 0x0, 0x800000, 0x0, 0xFF0F0000, false⟩  -- MLK_PAIR_STATUS
  , ⟨0x1D0014, 0x1, 1, 0x1, 1, 0x0, 0x0, 0x0, 0x0, 0x0, 0xFFFFBFF0, false⟩  -- MLK_PARTNER_INFO
  , ⟨0x1D0018, 0x1, 1, 0x1, 1, 0x0, 0x0, 0x0, 0x0, 0x0, 0xFFFFFFFF, false⟩  -- MLK_PARTNER_HEALTH
  , ⟨0x1D001C, 0x1, 1, 0x1, 1, 0x3E8, 0x0, 0xFFFF, 0x0, 0x0, 0x0, false⟩  -- MLK_MIRROR_CFG
  , ⟨0x1D0020, 0x1, 1, 0x1, 1, 0x0, 0x0, 0xF, 0x0, 0x0, 0x0, false⟩  -- MLK_ALARM_CFG
  , ⟨0x1D0024, 0x1, 1, 0x1, 1, 0x0, 0x0, 0x0, 0x0, 0x0, 0xFFFFFFFF, false⟩  -- MLK_TKO_CHECK
  , ⟨0x1D0028, 0x1, 1, 0x1, 1, 0x0, 0x0, 0x0, 0x0, 0x0, 0xFFFFFFFF, false⟩  -- MLK_TKO_ROUND_LO
  , ⟨0x1D002C, 0x1, 1, 0x1, 1, 0x0, 0x0, 0x0, 0x0, 0x0, 0xFFFF, false⟩  -- MLK_TKO_ROUND_HI
  , ⟨0x1D0040, 0x4, 4, 0x1, 1, 0x0, 0x0, 0x0, 0x0, 0x0, 0xFFFFFFFF, false⟩  -- MLK_LANEl_CRC_COUNT
  , ⟨0x1D0050, 0x4, 4, 0x1, 1, 0x0, 0x0, 0x0, 0x0, 0x0, 0xFFFFFFFF, false⟩  -- MLK_LANEl_COMMA_LOSS_COUNT
  , ⟨0x1D0060, 0x4, 4, 0x1, 1, 0x0, 0x0, 0x0, 0x0, 0x0, 0xFFFFFFFF, false⟩  -- MLK_LANEl_STUFF_ERR_COUNT
  , ⟨0x1D0070, 0x1, 1, 0x1, 1, 0x0, 0x0, 0x0, 0x0, 0x0, 0xFFFFFFFF, false⟩  -- MLK_HB_MISS_COUNT
  , ⟨0x1D0074, 0x1, 1, 0x1, 1, 0x0, 0x0, 0x0, 0x0, 0x0, 0xFFFFFFFF, false⟩  -- MLK_TKO_COUNT
  , ⟨0x1D0078, 0x1, 1, 0x1, 1, 0x0, 0x0, 0x0, 0x0, 0x0, 0xFFFFFFFF, false⟩  -- MLK_FAULT_TX_COUNT
  , ⟨0x1D007C, 0x1, 1, 0x1, 1, 0x0, 0x0, 0x0, 0x0, 0x0, 0xFFFFFFFF, false⟩  -- MLK_FAULT_RX_COUNT
  , ⟨0x1D0080, 0x1, 1, 0x1, 1, 0x0, 0x0, 0x0, 0x0, 0x0, 0xFFFFFFFF, false⟩  -- MLK_RETX_COUNT
  , ⟨0x1D0084, 0x1, 1, 0x1, 1, 0x0, 0x0, 0x0, 0x0, 0x0, 0xFFFFFFFF, false⟩  -- MLK_LINK_DOWN_COUNT
  , ⟨0x1D0088, 0x1, 1, 0x1, 1, 0x0, 0x0, 0x0, 0x0, 0x0, 0xFFFFFFFF, false⟩  -- MLK_TKO_DEFER_COUNT
  , ⟨0x1D008C, 0x1, 1, 0x1, 1, 0x0, 0x0, 0x0, 0x0, 0x0, 0xFFFFFFFF, false⟩  -- MLK_PIMG_SEQ
  , ⟨0x1D0100, 0x10, 12, 0x1, 1, 0x0, 0x0, 0x8F00FFFF, 0x0, 0x0, 0x0, true⟩  -- MLK_LOOPn_CFG
  ]

/-- Registers of the MLK block (15_redundant_pair_and_fuvon_link.md). -/
def rowsMLK1 : List RegRow :=
  [ ⟨0x1D0104, 0x10, 12, 0x1, 1, 0xFFFFFFFF, 0x0, 0xFFFFFFFF, 0x0, 0x0, 0x0, true⟩  -- MLK_LOOPn_END
  , ⟨0x1D0108, 0x10, 12, 0x1, 1, 0x0, 0x0, 0x0, 0x0, 0x0, 0xFFFF, true⟩  -- MLK_LOOPn_STATUS
  , ⟨0x1D1000, 0x1, 1, 0x1, 1, 0x61A80, 0x0, 0xF83FFFFF, 0x0, 0x0, 0x0, false⟩  -- MLK_TKO_ROUND_CFG
  , ⟨0x1D1004, 0x1, 1, 0x1, 1, 0x3D0900, 0x0, 0x3FFFFF, 0x0, 0x0, 0x0, false⟩  -- MLK_TKO_ROUND_MAX
  , ⟨0x1D1008, 0x1, 1, 0x1, 1, 0x400, 0x0, 0xFFFFFF, 0x0, 0x0, 0x0, false⟩  -- MLK_TKO_BELT_STEP
  , ⟨0x1D100C, 0x1, 1, 0x1, 1, 0x400, 0x0, 0xFFF0FF7F, 0x0, 0x0, 0x0, false⟩  -- MLK_TKO_TABLE_CFG
  , ⟨0x1D1010, 0x1, 1, 0x1, 1, 0x320, 0x0, 0xFFF, 0x0, 0x0, 0x0, false⟩  -- MLK_TKO_SLACK
  , ⟨0x1D1100, 0x20, 8, 0x1, 1, 0x0, 0x0, 0x8F001FFF, 0x0, 0x0, 0x0, false⟩  -- MLK_TKO_PLANp_PROBE
  , ⟨0x1D1104, 0x20, 8, 0x1, 1, 0x0, 0x0, 0x3FF03FF, 0x0, 0x0, 0x0, false⟩  -- MLK_TKO_PLANp_POWER
  , ⟨0x1D1108, 0x20, 8, 0x1, 1, 0x0, 0x0, 0xFFFF07FF, 0x0, 0x0, 0x0, false⟩  -- MLK_TKO_PLANp_SPAN
  , ⟨0x1D110C, 0x20, 8, 0x1, 1, 0x0, 0x0, 0x7F007F, 0x0, 0x0, 0x0, false⟩  -- MLK_TKO_PLANp_PROC
  , ⟨0x1D1110, 0x20, 8, 0x1, 1, 0x0, 0x0, 0xFFFF, 0x0, 0x0, 0x0, false⟩  -- MLK_TKO_PLANp_BRL
  , ⟨0x1D1400, 0x4, 64, 0x1, 1, 0x0, 0x0, 0xFFBFFFFF, 0x0, 0x0, 0x0, false⟩  -- MLK_TKO_TURNi
  ]

/-- Registers of the MLK block. -/
def rowsMLK : List RegRow := rowsMLK0 ++ rowsMLK1

/-- Registers of the SAF block (16_safety_and_event_recorder.md). -/
def rowsSAF : List RegRow :=
  [ ⟨0x1E0000, 0x1, 1, 0x1, 1, 0x0, 0x0, 0xF, 0x0, 0x0, 0x0, false⟩  -- SAF_CFG
  , ⟨0x1E0010, 0x8, 2, 0x1, 1, 0x60000000, 0x0, 0xEFFFFFFF, 0x0, 0x0, 0x0, false⟩  -- SAF_CHANc_CFG
  , ⟨0x1E0014, 0x8, 2, 0x1, 1, 0x3E8, 0x0, 0xC000FFFF, 0x0, 0x0, 0x0, false⟩  -- SAF_CHANc_HOLD
  , ⟨0x1E0020, 0x1, 1, 0x1, 1, 0x0, 0x0, 0xFFFFFFFF, 0x0, 0x0, 0x0, false⟩  -- SAF_CFG_CRC
  , ⟨0x1E0024, 0x1, 1, 0x1, 1, 0x0, 0x0, 0x0, 0x0, 0x0, 0xFFFFFFFF, false⟩  -- SAF_CFG_CRC_CALC
  , ⟨0x1E0030, 0x1, 1, 0x1, 1, 0x0, 0x0, 0x0, 0x0, 0x0, 0xFF800FFF, false⟩  -- SAF_STATUS
  , ⟨0x1E0034, 0x1, 1, 0x1, 1, 0x0, 0x0, 0x0, 0x0, 0xFF03, 0x0, false⟩  -- SAF_ACK
  , ⟨0x1E0038, 0x1, 1, 0x1, 1, 0x0, 0x0, 0x0, 0x0, 0xFF03, 0x0, false⟩  -- SAF_PIN_TEST
  , ⟨0x1E003C, 0x1, 1, 0x1, 1, 0x0, 0x0, 0x0, 0x0, 0x0, 0x800000FF, false⟩  -- SAF_SAFE_CAUSE
  , ⟨0x1E0040, 0x1, 1, 0x1, 1, 0x0, 0x0, 0x0, 0xFFF, 0x0, 0x0, false⟩  -- SAF_KAT_FAIL
  , ⟨0x1E0044, 0x1, 1, 0x1, 1, 0x0, 0x0, 0x0, 0x0, 0x0, 0xFFFFFFFF, false⟩  -- SAF_KAT_COUNT
  , ⟨0x1E0048, 0x1, 1, 0x1, 1, 0x0, 0x0, 0x0, 0x0, 0x0, 0xFFFFFFFF, false⟩  -- SAF_SHADOW_COUNT
  , ⟨0x1E0100, 0x10, 32, 0x1, 1, 0x0, 0x0, 0xF00FFFF, 0x0, 0x0, 0x0, false⟩  -- SAF_DIAGd_CFG
  , ⟨0x1E0104, 0x10, 32, 0x1, 1, 0x0, 0x0, 0x0, 0x0, 0x0, 0x8F300FFF, false⟩  -- SAF_DIAGd_STATUS
  , ⟨0x1E0108, 0x10, 32, 0x1, 1, 0x0, 0x0, 0x0, 0x0, 0x0, 0xFFFFFFFF, false⟩  -- SAF_DIAGd_COUNT
  , ⟨0x1E010C, 0x10, 32, 0x1, 1, 0x0, 0x0, 0x0, 0x0, 0x0, 0xFFFFFFFF, false⟩  -- SAF_DIAGd_LAST
  ]

/-- Registers of the EVR block (16_safety_and_event_recorder.md). -/
def rowsEVR : List RegRow :=
  [ ⟨0x1F0000, 0x1, 1, 0x1, 1, 0xF0000001, 0x0, 0xF00000FF, 0x0, 0x0, 0x0, false⟩  -- EVR_CFG
  , ⟨0x1F0004, 0x1, 1, 0x1, 1, 0x0, 0x0, 0x0, 0x0, 0x0, 0xC01F0000, false⟩  -- EVR_STATUS
  , ⟨0x1F0008, 0x1, 1, 0x1, 1, 0x0, 0x0, 0x0, 0x0, 0x0, 0xFFFFFFFF, false⟩  -- EVR_HEAD_LO
  , ⟨0x1F000C, 0x1, 1, 0x1, 1, 0x0, 0x0, 0x0, 0x0, 0x0, 0xFFFFFFFF, false⟩  -- EVR_HEAD_HI
  , ⟨0x1F0010, 0x1, 1, 0x1, 1, 0x0, 0x0, 0x0, 0x0, 0x0, 0xFFFFFFFF, false⟩  -- EVR_OP_SECONDS
  , ⟨0x1F0014, 0x1, 1, 0x1, 1, 0x0, 0x0, 0x0, 0x0, 0x0, 0xFFFFFFFF, false⟩  -- EVR_POWER_CYCLES
  , ⟨0x1F0018, 0x1, 1, 0x1, 1, 0x0, 0x0, 0x0, 0x0, 0x0, 0xFFFFFFFF, false⟩  -- EVR_LIST_SEQ
  , ⟨0x1F001C, 0x1, 1, 0x1, 1, 0x0, 0x0, 0x0, 0x0, 0x0, 0xFFFFFFFF, false⟩  -- EVR_LOST_COUNT
  , ⟨0x1F0020, 0x1, 1, 0x1, 1, 0x0, 0x0, 0x0, 0x0, 0x0, 0xFFFFFFFF, false⟩  -- EVR_WRITE_COUNT
  , ⟨0x1F0100, 0x4, 48, 0x1, 1, 0xFFFFFFFF, 0x0, 0xFFFFFFFF, 0x0, 0x0, 0x0, false⟩  -- EVR_SNAPi
  ]

/-- The rows of the block an offset lies in (R444). -/
def rowsAt (off : Nat) : List RegRow :=
  if off < 0x10000 then rowsGLB
  else if off < 0x20000 then rowsTMB
  else if off < 0x30000 then rowsPWR
  else if off < 0x40000 then rowsSRC
  else if off < 0x80000 then rowsLCH
  else if off < 0xB0000 then rowsPRT
  else if off < 0xD0000 then (if off < 0xC0000 then [] else rowsBRL)
  else if off < 0xE0000 then rowsBLT
  else if off < 0x100000 then rowsTRG
  else if off < 0x140000 then rowsFLT
  else if off < 0x180000 then rowsACR
  else if off < 0x190000 then rowsDMC
  else if off < 0x1A0000 then rowsHIF
  else if off < 0x1B0000 then rowsDBL
  else if off < 0x1C0000 then rowsCMP
  else if off < 0x1D0000 then rowsAUX
  else if off < 0x1E0000 then rowsMLK
  else if off < 0x1F0000 then rowsSAF
  else if off < 0x200000 then rowsEVR
  else []

/-- The offset is one of the row's registers. -/
def RegRow.has (r : RegRow) (off : Nat) : Bool :=
  if off < r.base then false else
    let d := off - r.base
    let i := d / r.s1
    let e := d % r.s1
    decide (i < r.n1) && (if r.n2 = 1 then e == 0 else decide (e / r.s2 < r.n2) && e % r.s2 == 0)

/-- The first index of an offset of the row. -/
def RegRow.index (r : RegRow) (off : Nat) : Nat := (off - r.base) / r.s1

/-- The row an offset belongs to; none for an offset that holds no register (R10). -/
def rowOf (off : Nat) : Option RegRow := (rowsAt off).find? (fun r => r.has off)

/-! Places of the fields, register by register. -/

/-- Offset of GLB_DEVICE_ID (00_scope.md). -/
def GLB_DEVICE_ID.reg : Nat := 0x0
/-- GLB_DEVICE_ID.PART_CODE [31:16] RO. -/
abbrev GLB_DEVICE_ID.PART_CODE : Fld := ⟨GLB_DEVICE_ID.reg, 16, 16⟩
/-- GLB_DEVICE_ID.PORT_COUNT [15:8] RO. -/
abbrev GLB_DEVICE_ID.PORT_COUNT : Fld := ⟨GLB_DEVICE_ID.reg, 8, 8⟩
/-- GLB_DEVICE_ID.DRAM_GIB [7:4] RO. -/
abbrev GLB_DEVICE_ID.DRAM_GIB : Fld := ⟨GLB_DEVICE_ID.reg, 4, 4⟩
/-- GLB_DEVICE_ID.STEPPING [3:0] RO. -/
abbrev GLB_DEVICE_ID.STEPPING : Fld := ⟨GLB_DEVICE_ID.reg, 0, 4⟩
/-- Offset of GLB_CTRL (01_architecture.md). -/
def GLB_CTRL.reg : Nat := 0x10
/-- GLB_CTRL.RESET_KEY [15:8] WO. -/
abbrev GLB_CTRL.RESET_KEY : Fld := ⟨GLB_CTRL.reg, 8, 8⟩
/-- GLB_CTRL.SOFT_RESET [3:3] WO. -/
abbrev GLB_CTRL.SOFT_RESET : Fld := ⟨GLB_CTRL.reg, 3, 1⟩
/-- GLB_CTRL.ENTER_SAFE [2:2] WO. -/
abbrev GLB_CTRL.ENTER_SAFE : Fld := ⟨GLB_CTRL.reg, 2, 1⟩
/-- GLB_CTRL.STOP [1:1] WO. -/
abbrev GLB_CTRL.STOP : Fld := ⟨GLB_CTRL.reg, 1, 1⟩
/-- GLB_CTRL.START [0:0] WO. -/
abbrev GLB_CTRL.START : Fld := ⟨GLB_CTRL.reg, 0, 1⟩
/-- Offset of GLB_STATE (01_architecture.md). -/
def GLB_STATE.reg : Nat := 0x14
/-- GLB_STATE.DRAM_FAILED [22:22] RO. -/
abbrev GLB_STATE.DRAM_FAILED : Fld := ⟨GLB_STATE.reg, 22, 1⟩
/-- GLB_STATE.IMAGE_NONE [21:21] RO. -/
abbrev GLB_STATE.IMAGE_NONE : Fld := ⟨GLB_STATE.reg, 21, 1⟩
/-- GLB_STATE.BOOT_FAIL [20:20] RO. -/
abbrev GLB_STATE.BOOT_FAIL : Fld := ⟨GLB_STATE.reg, 20, 1⟩
/-- GLB_STATE.BOOT_STEP [19:16] RO. -/
abbrev GLB_STATE.BOOT_STEP : Fld := ⟨GLB_STATE.reg, 16, 4⟩
/-- GLB_STATE.DEG_CAUSE_CORE [12:12] RO. -/
abbrev GLB_STATE.DEG_CAUSE_CORE : Fld := ⟨GLB_STATE.reg, 12, 1⟩
/-- GLB_STATE.DEG_CAUSE_PARTNER [11:11] RO. -/
abbrev GLB_STATE.DEG_CAUSE_PARTNER : Fld := ⟨GLB_STATE.reg, 11, 1⟩
/-- GLB_STATE.DEG_CAUSE_TEC [10:10] RO. -/
abbrev GLB_STATE.DEG_CAUSE_TEC : Fld := ⟨GLB_STATE.reg, 10, 1⟩
/-- GLB_STATE.DEG_CAUSE_DRAM [9:9] RO. -/
abbrev GLB_STATE.DEG_CAUSE_DRAM : Fld := ⟨GLB_STATE.reg, 9, 1⟩
/-- GLB_STATE.DEG_CAUSE_PORT [8:8] RO. -/
abbrev GLB_STATE.DEG_CAUSE_PORT : Fld := ⟨GLB_STATE.reg, 8, 1⟩
/-- GLB_STATE.STOP_PENDING [7:7] RO. -/
abbrev GLB_STATE.STOP_PENDING : Fld := ⟨GLB_STATE.reg, 7, 1⟩
/-- GLB_STATE.COMMIT_FAIL [6:6] RO. -/
abbrev GLB_STATE.COMMIT_FAIL : Fld := ⟨GLB_STATE.reg, 6, 1⟩
/-- GLB_STATE.PREV_STATE [5:3] RO. -/
abbrev GLB_STATE.PREV_STATE : Fld := ⟨GLB_STATE.reg, 3, 3⟩
/-- GLB_STATE.STATE [2:0] RO. -/
abbrev GLB_STATE.STATE : Fld := ⟨GLB_STATE.reg, 0, 3⟩
/-- Offset of GLB_RESET_CAUSE (17_power_clocks_reset_and_start_up.md). -/
def GLB_RESET_CAUSE.reg : Nat := 0x20
/-- GLB_RESET_CAUSE.OV [20:20] RO. -/
abbrev GLB_RESET_CAUSE.OV : Fld := ⟨GLB_RESET_CAUSE.reg, 20, 1⟩
/-- GLB_RESET_CAUSE.RAIL [19:12] RO. -/
abbrev GLB_RESET_CAUSE.RAIL : Fld := ⟨GLB_RESET_CAUSE.reg, 12, 8⟩
/-- GLB_RESET_CAUSE.DIE [10:8] RO. -/
abbrev GLB_RESET_CAUSE.DIE : Fld := ⟨GLB_RESET_CAUSE.reg, 8, 3⟩
/-- GLB_RESET_CAUSE.PREV_CAUSE [7:4] RO. -/
abbrev GLB_RESET_CAUSE.PREV_CAUSE : Fld := ⟨GLB_RESET_CAUSE.reg, 4, 4⟩
/-- GLB_RESET_CAUSE.CAUSE [3:0] RO. -/
abbrev GLB_RESET_CAUSE.CAUSE : Fld := ⟨GLB_RESET_CAUSE.reg, 0, 4⟩
/-- Offset of GLB_BOOT_CTRL (17_power_clocks_reset_and_start_up.md). -/
def GLB_BOOT_CTRL.reg : Nat := 0x24
/-- GLB_BOOT_CTRL.KEY [15:8] WO. -/
abbrev GLB_BOOT_CTRL.KEY : Fld := ⟨GLB_BOOT_CTRL.reg, 8, 8⟩
/-- GLB_BOOT_CTRL.RESUME [0:0] WO. -/
abbrev GLB_BOOT_CTRL.RESUME : Fld := ⟨GLB_BOOT_CTRL.reg, 0, 1⟩
/-- Offset of GLB_BOOT_STATUS (17_power_clocks_reset_and_start_up.md). -/
def GLB_BOOT_STATUS.reg : Nat := 0x28
/-- GLB_BOOT_STATUS.RESUMING [31:31] RO. -/
abbrev GLB_BOOT_STATUS.RESUMING : Fld := ⟨GLB_BOOT_STATUS.reg, 31, 1⟩
/-- GLB_BOOT_STATUS.AUTO_STARTED [30:30] RO. -/
abbrev GLB_BOOT_STATUS.AUTO_STARTED : Fld := ⟨GLB_BOOT_STATUS.reg, 30, 1⟩
/-- GLB_BOOT_STATUS.BOOT_MS [23:0] RO. -/
abbrev GLB_BOOT_STATUS.BOOT_MS : Fld := ⟨GLB_BOOT_STATUS.reg, 0, 24⟩
/-- Offset of GLB_IMAGE_STATUS (17_power_clocks_reset_and_start_up.md). -/
def GLB_IMAGE_STATUS.reg : Nat := 0x30
/-- GLB_IMAGE_STATUS.VALID0 [31:31] RO. -/
abbrev GLB_IMAGE_STATUS.VALID0 : Fld := ⟨GLB_IMAGE_STATUS.reg, 31, 1⟩
/-- GLB_IMAGE_STATUS.VALID1 [30:30] RO. -/
abbrev GLB_IMAGE_STATUS.VALID1 : Fld := ⟨GLB_IMAGE_STATUS.reg, 30, 1⟩
/-- GLB_IMAGE_STATUS.SLOT [29:29] RO. -/
abbrev GLB_IMAGE_STATUS.SLOT : Fld := ⟨GLB_IMAGE_STATUS.reg, 29, 1⟩
/-- GLB_IMAGE_STATUS.FALLBACK [28:28] RO. -/
abbrev GLB_IMAGE_STATUS.FALLBACK : Fld := ⟨GLB_IMAGE_STATUS.reg, 28, 1⟩
/-- GLB_IMAGE_STATUS.AUTO_START [27:27] RO. -/
abbrev GLB_IMAGE_STATUS.AUTO_START : Fld := ⟨GLB_IMAGE_STATUS.reg, 27, 1⟩
/-- GLB_IMAGE_STATUS.BAD_WRITES [15:0] RO. -/
abbrev GLB_IMAGE_STATUS.BAD_WRITES : Fld := ⟨GLB_IMAGE_STATUS.reg, 0, 16⟩
/-- Offset of GLB_IMAGE_SEQ0 (17_power_clocks_reset_and_start_up.md). -/
def GLB_IMAGE_SEQ0.reg : Nat := 0x34
/-- GLB_IMAGE_SEQ0.SEQ [31:0] RO. -/
abbrev GLB_IMAGE_SEQ0.SEQ : Fld := ⟨GLB_IMAGE_SEQ0.reg, 0, 32⟩
/-- Offset of GLB_IMAGE_SEQ1 (17_power_clocks_reset_and_start_up.md). -/
def GLB_IMAGE_SEQ1.reg : Nat := 0x38
/-- GLB_IMAGE_SEQ1.SEQ [31:0] RO. -/
abbrev GLB_IMAGE_SEQ1.SEQ : Fld := ⟨GLB_IMAGE_SEQ1.reg, 0, 32⟩
/-- Offset of GLB_QSPI_CMD (17_power_clocks_reset_and_start_up.md). -/
def GLB_QSPI_CMD.reg : Nat := 0x40
/-- GLB_QSPI_CMD.START [31:31] WO. -/
abbrev GLB_QSPI_CMD.START : Fld := ⟨GLB_QSPI_CMD.reg, 31, 1⟩
/-- GLB_QSPI_CMD.OP [27:24] RW. -/
abbrev GLB_QSPI_CMD.OP : Fld := ⟨GLB_QSPI_CMD.reg, 24, 4⟩
/-- GLB_QSPI_CMD.LEN [8:0] RW. -/
abbrev GLB_QSPI_CMD.LEN : Fld := ⟨GLB_QSPI_CMD.reg, 0, 9⟩
/-- Offset of GLB_QSPI_ADDR (17_power_clocks_reset_and_start_up.md). -/
def GLB_QSPI_ADDR.reg : Nat := 0x44
/-- GLB_QSPI_ADDR.ADDR [31:0] RW. -/
abbrev GLB_QSPI_ADDR.ADDR : Fld := ⟨GLB_QSPI_ADDR.reg, 0, 32⟩
/-- Offset of GLB_QSPI_STATUS (17_power_clocks_reset_and_start_up.md). -/
def GLB_QSPI_STATUS.reg : Nat := 0x48
/-- GLB_QSPI_STATUS.BUSY [31:31] RO. -/
abbrev GLB_QSPI_STATUS.BUSY : Fld := ⟨GLB_QSPI_STATUS.reg, 31, 1⟩
/-- GLB_QSPI_STATUS.DONE [30:30] W1C. -/
abbrev GLB_QSPI_STATUS.DONE : Fld := ⟨GLB_QSPI_STATUS.reg, 30, 1⟩
/-- GLB_QSPI_STATUS.ERR [27:24] RO. -/
abbrev GLB_QSPI_STATUS.ERR : Fld := ⟨GLB_QSPI_STATUS.reg, 24, 4⟩
/-- GLB_QSPI_STATUS.SIZE_MIB [15:0] RO. -/
abbrev GLB_QSPI_STATUS.SIZE_MIB : Fld := ⟨GLB_QSPI_STATUS.reg, 0, 16⟩
/-- Offset of GLB_QSPI_BUFi (17_power_clocks_reset_and_start_up.md). -/
def GLB_QSPI_BUF.reg (i : Nat) : Nat := 0x100 + 0x4 * (i % 64)
/-- GLB_QSPI_BUFi.DATA [31:0] RW. -/
abbrev GLB_QSPI_BUF.DATA (i : Nat) : Fld := ⟨(GLB_QSPI_BUF.reg i), 0, 32⟩
/-- Offset of GLB_CAL_CFG (18_calibration.md). -/
def GLB_CAL_CFG.reg : Nat := 0x200
/-- GLB_CAL_CFG.TEMP_EN [31:31] RWL. -/
abbrev GLB_CAL_CFG.TEMP_EN : Fld := ⟨GLB_CAL_CFG.reg, 31, 1⟩
/-- GLB_CAL_CFG.TIMEOUT_S [15:0] RWL. -/
abbrev GLB_CAL_CFG.TIMEOUT_S : Fld := ⟨GLB_CAL_CFG.reg, 0, 16⟩
/-- Offset of GLB_CAL_DELTA (18_calibration.md). -/
def GLB_CAL_DELTA.reg : Nat := 0x204
/-- GLB_CAL_DELTA.DELTA [31:0] RWL. -/
abbrev GLB_CAL_DELTA.DELTA : Fld := ⟨GLB_CAL_DELTA.reg, 0, 32⟩
/-- Offset of GLB_CAL_STATUS (18_calibration.md). -/
def GLB_CAL_STATUS.reg : Nat := 0x208
/-- GLB_CAL_STATUS.BUSY [31:31] RO. -/
abbrev GLB_CAL_STATUS.BUSY : Fld := ⟨GLB_CAL_STATUS.reg, 31, 1⟩
/-- GLB_CAL_STATUS.PINNED [30:30] RO. -/
abbrev GLB_CAL_STATUS.PINNED : Fld := ⟨GLB_CAL_STATUS.reg, 30, 1⟩
/-- GLB_CAL_STATUS.PENDING [29:29] RO. -/
abbrev GLB_CAL_STATUS.PENDING : Fld := ⟨GLB_CAL_STATUS.reg, 29, 1⟩
/-- GLB_CAL_STATUS.CAUSE [28:26] RO. -/
abbrev GLB_CAL_STATUS.CAUSE : Fld := ⟨GLB_CAL_STATUS.reg, 26, 3⟩
/-- GLB_CAL_STATUS.DIE [25:23] RO. -/
abbrev GLB_CAL_STATUS.DIE : Fld := ⟨GLB_CAL_STATUS.reg, 23, 3⟩
/-- GLB_CAL_STATUS.SET [22:20] RO. -/
abbrev GLB_CAL_STATUS.SET : Fld := ⟨GLB_CAL_STATUS.reg, 20, 3⟩
/-- GLB_CAL_STATUS.PORTS_DONE [11:0] RO. -/
abbrev GLB_CAL_STATUS.PORTS_DONE : Fld := ⟨GLB_CAL_STATUS.reg, 0, 12⟩
/-- Offset of GLB_CAL_MISSING (18_calibration.md). -/
def GLB_CAL_MISSING.reg : Nat := 0x20C
/-- GLB_CAL_MISSING.SAT [31:31] RO. -/
abbrev GLB_CAL_MISSING.SAT : Fld := ⟨GLB_CAL_MISSING.reg, 31, 1⟩
/-- GLB_CAL_MISSING.DEV_ITEMS [11:8] RO. -/
abbrev GLB_CAL_MISSING.DEV_ITEMS : Fld := ⟨GLB_CAL_MISSING.reg, 8, 4⟩
/-- Offset of GLB_CAL_RUN_NUM (18_calibration.md). -/
def GLB_CAL_RUN_NUM.reg : Nat := 0x210
/-- GLB_CAL_RUN_NUM.VALUE [31:0] RO. -/
abbrev GLB_CAL_RUN_NUM.VALUE : Fld := ⟨GLB_CAL_RUN_NUM.reg, 0, 32⟩
/-- Offset of GLB_CAL_ABORT_COUNT (18_calibration.md). -/
def GLB_CAL_ABORT_COUNT.reg : Nat := 0x214
/-- GLB_CAL_ABORT_COUNT.VALUE [31:0] RO. -/
abbrev GLB_CAL_ABORT_COUNT.VALUE : Fld := ⟨GLB_CAL_ABORT_COUNT.reg, 0, 32⟩
/-- Offset of GLB_CAL_APPLY_ROUND_LO (18_calibration.md). -/
def GLB_CAL_APPLY_ROUND_LO.reg : Nat := 0x218
/-- GLB_CAL_APPLY_ROUND_LO.ROUND [31:0] RO. -/
abbrev GLB_CAL_APPLY_ROUND_LO.ROUND : Fld := ⟨GLB_CAL_APPLY_ROUND_LO.reg, 0, 32⟩
/-- Offset of GLB_CAL_APPLY_ROUND_HI (18_calibration.md). -/
def GLB_CAL_APPLY_ROUND_HI.reg : Nat := 0x21C
/-- GLB_CAL_APPLY_ROUND_HI.ROUND [15:0] RO. -/
abbrev GLB_CAL_APPLY_ROUND_HI.ROUND : Fld := ⟨GLB_CAL_APPLY_ROUND_HI.reg, 0, 16⟩
/-- Offset of GLB_CAL_REF_TEMPd (18_calibration.md). -/
def GLB_CAL_REF_TEMP.reg (d : Nat) : Nat := 0x220 + 0x4 * (d % 8)
/-- GLB_CAL_REF_TEMPd.TEMP [15:0] RO. -/
abbrev GLB_CAL_REF_TEMP.TEMP (d : Nat) : Fld := ⟨(GLB_CAL_REF_TEMP.reg d), 0, 16⟩
/-- Offset of GLB_CAL_LASER (18_calibration.md). -/
def GLB_CAL_LASER.reg : Nat := 0x240
/-- GLB_CAL_LASER.OFS_KHZ [15:0] RO. -/
abbrev GLB_CAL_LASER.OFS_KHZ : Fld := ⟨GLB_CAL_LASER.reg, 0, 16⟩
/-- Offset of GLB_CAL_LOSHIFT (18_calibration.md). -/
def GLB_CAL_LOSHIFT.reg : Nat := 0x244
/-- GLB_CAL_LOSHIFT.CARRIER_SUPP [31:16] RO. -/
abbrev GLB_CAL_LOSHIFT.CARRIER_SUPP : Fld := ⟨GLB_CAL_LOSHIFT.reg, 16, 16⟩
/-- GLB_CAL_LOSHIFT.SIDEBAND_SUPP [15:0] RO. -/
abbrev GLB_CAL_LOSHIFT.SIDEBAND_SUPP : Fld := ⟨GLB_CAL_LOSHIFT.reg, 0, 16⟩
/-- Offset of GLB_CAL_TIN (18_calibration.md). -/
def GLB_CAL_TIN.reg : Nat := 0x248
/-- GLB_CAL_TIN.CHANGE_PPM [15:0] RO. -/
abbrev GLB_CAL_TIN.CHANGE_PPM : Fld := ⟨GLB_CAL_TIN.reg, 0, 16⟩
/-- Offset of GLB_CAL_EXC (18_calibration.md). -/
def GLB_CAL_EXC.reg : Nat := 0x24C
/-- GLB_CAL_EXC.DEV [15:0] RO. -/
abbrev GLB_CAL_EXC.DEV : Fld := ⟨GLB_CAL_EXC.reg, 0, 16⟩
/-- Offset of TMB_TIME_LO (08_belt_timing_and_belt_frame.md). -/
def TMB_TIME_LO.reg : Nat := 0x10000
/-- TMB_TIME_LO.TICKS [31:0] RO. -/
abbrev TMB_TIME_LO.TICKS : Fld := ⟨TMB_TIME_LO.reg, 0, 32⟩
/-- Offset of TMB_TIME_HI (08_belt_timing_and_belt_frame.md). -/
def TMB_TIME_HI.reg : Nat := 0x10004
/-- TMB_TIME_HI.TICKS [31:0] RO. -/
abbrev TMB_TIME_HI.TICKS : Fld := ⟨TMB_TIME_HI.reg, 0, 32⟩
/-- Offset of TMB_TRIM (08_belt_timing_and_belt_frame.md). -/
def TMB_TRIM.reg : Nat := 0x10008
/-- TMB_TRIM.TRIM [23:0] RWL. -/
abbrev TMB_TRIM.TRIM : Fld := ⟨TMB_TRIM.reg, 0, 24⟩
/-- Offset of TMB_TRIM_USED (08_belt_timing_and_belt_frame.md). -/
def TMB_TRIM_USED.reg : Nat := 0x1000C
/-- TMB_TRIM_USED.USED [23:0] RO. -/
abbrev TMB_TRIM_USED.USED : Fld := ⟨TMB_TRIM_USED.reg, 0, 24⟩
/-- Offset of TMB_PPS_CFG (08_belt_timing_and_belt_frame.md). -/
def TMB_PPS_CFG.reg : Nat := 0x10010
/-- TMB_PPS_CFG.EN [31:31] RWL. -/
abbrev TMB_PPS_CFG.EN : Fld := ⟨TMB_PPS_CFG.reg, 31, 1⟩
/-- TMB_PPS_CFG.POL [30:30] RWL. -/
abbrev TMB_PPS_CFG.POL : Fld := ⟨TMB_PPS_CFG.reg, 30, 1⟩
/-- TMB_PPS_CFG.TC_LOG2 [27:24] RWL. -/
abbrev TMB_PPS_CFG.TC_LOG2 : Fld := ⟨TMB_PPS_CFG.reg, 24, 4⟩
/-- TMB_PPS_CFG.LOCK_NS [15:0] RWL. -/
abbrev TMB_PPS_CFG.LOCK_NS : Fld := ⟨TMB_PPS_CFG.reg, 0, 16⟩
/-- Offset of TMB_PPS_STATUS (08_belt_timing_and_belt_frame.md). -/
def TMB_PPS_STATUS.reg : Nat := 0x10014
/-- TMB_PPS_STATUS.STATE [31:30] RO. -/
abbrev TMB_PPS_STATUS.STATE : Fld := ⟨TMB_PPS_STATUS.reg, 30, 2⟩
/-- TMB_PPS_STATUS.LOCKED [29:29] RO. -/
abbrev TMB_PPS_STATUS.LOCKED : Fld := ⟨TMB_PPS_STATUS.reg, 29, 1⟩
/-- TMB_PPS_STATUS.LOST_SEEN [28:28] W1C. -/
abbrev TMB_PPS_STATUS.LOST_SEEN : Fld := ⟨TMB_PPS_STATUS.reg, 28, 1⟩
/-- TMB_PPS_STATUS.PHASE_ERR [23:0] RO. -/
abbrev TMB_PPS_STATUS.PHASE_ERR : Fld := ⟨TMB_PPS_STATUS.reg, 0, 24⟩
/-- Offset of TMB_PPS_LAST_LO (08_belt_timing_and_belt_frame.md). -/
def TMB_PPS_LAST_LO.reg : Nat := 0x10018
/-- TMB_PPS_LAST_LO.TICK [31:0] RO. -/
abbrev TMB_PPS_LAST_LO.TICK : Fld := ⟨TMB_PPS_LAST_LO.reg, 0, 32⟩
/-- Offset of TMB_PPS_LAST_HI (08_belt_timing_and_belt_frame.md). -/
def TMB_PPS_LAST_HI.reg : Nat := 0x1001C
/-- TMB_PPS_LAST_HI.TICK [31:0] RO. -/
abbrev TMB_PPS_LAST_HI.TICK : Fld := ⟨TMB_PPS_LAST_HI.reg, 0, 32⟩
/-- Offset of TMB_PPS_LAST_PIP (08_belt_timing_and_belt_frame.md). -/
def TMB_PPS_LAST_PIP.reg : Nat := 0x10020
/-- TMB_PPS_LAST_PIP.PIP [7:0] RO. -/
abbrev TMB_PPS_LAST_PIP.PIP : Fld := ⟨TMB_PPS_LAST_PIP.reg, 0, 8⟩
/-- Offset of TMB_GRID_LO (08_belt_timing_and_belt_frame.md). -/
def TMB_GRID_LO.reg : Nat := 0x10024
/-- TMB_GRID_LO.G0 [31:0] RO. -/
abbrev TMB_GRID_LO.G0 : Fld := ⟨TMB_GRID_LO.reg, 0, 32⟩
/-- Offset of TMB_GRID_HI (08_belt_timing_and_belt_frame.md). -/
def TMB_GRID_HI.reg : Nat := 0x10028
/-- TMB_GRID_HI.G0 [31:0] RO. -/
abbrev TMB_GRID_HI.G0 : Fld := ⟨TMB_GRID_HI.reg, 0, 32⟩
/-- Offset of TMB_SEC_COUNT (08_belt_timing_and_belt_frame.md). -/
def TMB_SEC_COUNT.reg : Nat := 0x1002C
/-- TMB_SEC_COUNT.K [31:0] RO. -/
abbrev TMB_SEC_COUNT.K : Fld := ⟨TMB_SEC_COUNT.reg, 0, 32⟩
/-- Offset of TMB_GRID_MOVE_COUNT (08_belt_timing_and_belt_frame.md). -/
def TMB_GRID_MOVE_COUNT.reg : Nat := 0x10030
/-- TMB_GRID_MOVE_COUNT.COUNT [31:0] RO. -/
abbrev TMB_GRID_MOVE_COUNT.COUNT : Fld := ⟨TMB_GRID_MOVE_COUNT.reg, 0, 32⟩
/-- Offset of PWR_CFG (17_power_clocks_reset_and_start_up.md). -/
def PWR_CFG.reg : Nat := 0x20000
/-- PWR_CFG.SHED_PUMPS [31:31] RWL. -/
abbrev PWR_CFG.SHED_PUMPS : Fld := ⟨PWR_CFG.reg, 31, 1⟩
/-- PWR_CFG.SHED_TEC [30:30] RWL. -/
abbrev PWR_CFG.SHED_TEC : Fld := ⟨PWR_CFG.reg, 30, 1⟩
/-- PWR_CFG.WARN_MARGIN [3:0] RWL. -/
abbrev PWR_CFG.WARN_MARGIN : Fld := ⟨PWR_CFG.reg, 0, 4⟩
/-- Offset of PWR_STATUS (17_power_clocks_reset_and_start_up.md). -/
def PWR_STATUS.reg : Nat := 0x20004
/-- PWR_STATUS.VIN_WARN [31:31] RO. -/
abbrev PWR_STATUS.VIN_WARN : Fld := ⟨PWR_STATUS.reg, 31, 1⟩
/-- PWR_STATUS.SHED [30:30] RO. -/
abbrev PWR_STATUS.SHED : Fld := ⟨PWR_STATUS.reg, 30, 1⟩
/-- PWR_STATUS.THERM_WARN [29:29] RO. -/
abbrev PWR_STATUS.THERM_WARN : Fld := ⟨PWR_STATUS.reg, 29, 1⟩
/-- PWR_STATUS.WARN_SEEN [28:28] W1C. -/
abbrev PWR_STATUS.WARN_SEEN : Fld := ⟨PWR_STATUS.reg, 28, 1⟩
/-- PWR_STATUS.THERM_SEEN [27:27] W1C. -/
abbrev PWR_STATUS.THERM_SEEN : Fld := ⟨PWR_STATUS.reg, 27, 1⟩
/-- PWR_STATUS.HOT_DIE [26:24] RO. -/
abbrev PWR_STATUS.HOT_DIE : Fld := ⟨PWR_STATUS.reg, 24, 3⟩
/-- PWR_STATUS.VIN_MV [15:0] RO. -/
abbrev PWR_STATUS.VIN_MV : Fld := ⟨PWR_STATUS.reg, 0, 16⟩
/-- Offset of PWR_WARN_COUNT (17_power_clocks_reset_and_start_up.md). -/
def PWR_WARN_COUNT.reg : Nat := 0x20008
/-- PWR_WARN_COUNT.COUNT [31:0] RO. -/
abbrev PWR_WARN_COUNT.COUNT : Fld := ⟨PWR_WARN_COUNT.reg, 0, 32⟩
/-- Offset of PWR_THERM_COUNT (17_power_clocks_reset_and_start_up.md). -/
def PWR_THERM_COUNT.reg : Nat := 0x2000C
/-- PWR_THERM_COUNT.COUNT [31:0] RO. -/
abbrev PWR_THERM_COUNT.COUNT : Fld := ⟨PWR_THERM_COUNT.reg, 0, 32⟩
/-- Offset of SRC_LASER_CFG (02_source_and_booster.md). -/
def SRC_LASER_CFG.reg : Nat := 0x30000
/-- SRC_LASER_CFG.CH [5:0] RWL. -/
abbrev SRC_LASER_CFG.CH : Fld := ⟨SRC_LASER_CFG.reg, 0, 6⟩
/-- Offset of SRC_LASER_STATUS (02_source_and_booster.md). -/
def SRC_LASER_STATUS.reg : Nat := 0x30004
/-- SRC_LASER_STATUS.LOCKED [31:31] RO. -/
abbrev SRC_LASER_STATUS.LOCKED : Fld := ⟨SRC_LASER_STATUS.reg, 31, 1⟩
/-- SRC_LASER_STATUS.UNLOCK_SEEN [30:30] W1C. -/
abbrev SRC_LASER_STATUS.UNLOCK_SEEN : Fld := ⟨SRC_LASER_STATUS.reg, 30, 1⟩
/-- SRC_LASER_STATUS.CURRENT [27:16] RO. -/
abbrev SRC_LASER_STATUS.CURRENT : Fld := ⟨SRC_LASER_STATUS.reg, 16, 12⟩
/-- SRC_LASER_STATUS.FREQ_ERR [15:0] RO. -/
abbrev SRC_LASER_STATUS.FREQ_ERR : Fld := ⟨SRC_LASER_STATUS.reg, 0, 16⟩
/-- Offset of SRC_TEC_STATUS (02_source_and_booster.md). -/
def SRC_TEC_STATUS.reg : Nat := 0x30008
/-- SRC_TEC_STATUS.LIMIT [31:31] RO. -/
abbrev SRC_TEC_STATUS.LIMIT : Fld := ⟨SRC_TEC_STATUS.reg, 31, 1⟩
/-- SRC_TEC_STATUS.LIMIT_SEEN [30:30] W1C. -/
abbrev SRC_TEC_STATUS.LIMIT_SEEN : Fld := ⟨SRC_TEC_STATUS.reg, 30, 1⟩
/-- SRC_TEC_STATUS.CURRENT [27:16] RO. -/
abbrev SRC_TEC_STATUS.CURRENT : Fld := ⟨SRC_TEC_STATUS.reg, 16, 12⟩
/-- SRC_TEC_STATUS.TEMP_ERR [15:0] RO. -/
abbrev SRC_TEC_STATUS.TEMP_ERR : Fld := ⟨SRC_TEC_STATUS.reg, 0, 16⟩
/-- Offset of SRC_LOSHIFT (02_source_and_booster.md). -/
def SRC_LOSHIFT.reg : Nat := 0x30010
/-- SRC_LOSHIFT.SETTLED [31:31] RO. -/
abbrev SRC_LOSHIFT.SETTLED : Fld := ⟨SRC_LOSHIFT.reg, 31, 1⟩
/-- SRC_LOSHIFT.FREQ_MHZ [13:0] RWL. -/
abbrev SRC_LOSHIFT.FREQ_MHZ : Fld := ⟨SRC_LOSHIFT.reg, 0, 14⟩
/-- Offset of SRC_PUMP_CFG (02_source_and_booster.md). -/
def SRC_PUMP_CFG.reg : Nat := 0x30020
/-- SRC_PUMP_CFG.ECO_EN [31:31] RWL. -/
abbrev SRC_PUMP_CFG.ECO_EN : Fld := ⟨SRC_PUMP_CFG.reg, 31, 1⟩
/-- SRC_PUMP_CFG.DIAG_FORCE [30:30] RWL. -/
abbrev SRC_PUMP_CFG.DIAG_FORCE : Fld := ⟨SRC_PUMP_CFG.reg, 30, 1⟩
/-- SRC_PUMP_CFG.ECO_LEAD [9:0] RWL. -/
abbrev SRC_PUMP_CFG.ECO_LEAD : Fld := ⟨SRC_PUMP_CFG.reg, 0, 10⟩
/-- Offset of SRC_PUMP0_STATUS (02_source_and_booster.md). -/
def SRC_PUMP0_STATUS.reg : Nat := 0x30024
/-- SRC_PUMP0_STATUS.OPEN [31:31] RO. -/
abbrev SRC_PUMP0_STATUS.OPEN : Fld := ⟨SRC_PUMP0_STATUS.reg, 31, 1⟩
/-- SRC_PUMP0_STATUS.SHORT [30:30] RO. -/
abbrev SRC_PUMP0_STATUS.SHORT : Fld := ⟨SRC_PUMP0_STATUS.reg, 30, 1⟩
/-- SRC_PUMP0_STATUS.LIMIT [29:29] RO. -/
abbrev SRC_PUMP0_STATUS.LIMIT : Fld := ⟨SRC_PUMP0_STATUS.reg, 29, 1⟩
/-- SRC_PUMP0_STATUS.OFF [28:28] RO. -/
abbrev SRC_PUMP0_STATUS.OFF : Fld := ⟨SRC_PUMP0_STATUS.reg, 28, 1⟩
/-- SRC_PUMP0_STATUS.PROVEN [27:27] RO. -/
abbrev SRC_PUMP0_STATUS.PROVEN : Fld := ⟨SRC_PUMP0_STATUS.reg, 27, 1⟩
/-- SRC_PUMP0_STATUS.CURRENT [11:0] RO. -/
abbrev SRC_PUMP0_STATUS.CURRENT : Fld := ⟨SRC_PUMP0_STATUS.reg, 0, 12⟩
/-- Offset of SRC_PUMP1_STATUS (02_source_and_booster.md). -/
def SRC_PUMP1_STATUS.reg : Nat := 0x30028
/-- SRC_PUMP1_STATUS.OPEN [31:31] RO. -/
abbrev SRC_PUMP1_STATUS.OPEN : Fld := ⟨SRC_PUMP1_STATUS.reg, 31, 1⟩
/-- SRC_PUMP1_STATUS.SHORT [30:30] RO. -/
abbrev SRC_PUMP1_STATUS.SHORT : Fld := ⟨SRC_PUMP1_STATUS.reg, 30, 1⟩
/-- SRC_PUMP1_STATUS.LIMIT [29:29] RO. -/
abbrev SRC_PUMP1_STATUS.LIMIT : Fld := ⟨SRC_PUMP1_STATUS.reg, 29, 1⟩
/-- SRC_PUMP1_STATUS.OFF [28:28] RO. -/
abbrev SRC_PUMP1_STATUS.OFF : Fld := ⟨SRC_PUMP1_STATUS.reg, 28, 1⟩
/-- SRC_PUMP1_STATUS.PROVEN [27:27] RO. -/
abbrev SRC_PUMP1_STATUS.PROVEN : Fld := ⟨SRC_PUMP1_STATUS.reg, 27, 1⟩
/-- SRC_PUMP1_STATUS.CURRENT [11:0] RO. -/
abbrev SRC_PUMP1_STATUS.CURRENT : Fld := ⟨SRC_PUMP1_STATUS.reg, 0, 12⟩
/-- Offset of SRC_BANK_EST (02_source_and_booster.md). -/
def SRC_BANK_EST.reg : Nat := 0x30030
/-- SRC_BANK_EST.REFILL_MW [31:16] RO. -/
abbrev SRC_BANK_EST.REFILL_MW : Fld := ⟨SRC_BANK_EST.reg, 16, 16⟩
/-- SRC_BANK_EST.EST_NJ [15:0] RO. -/
abbrev SRC_BANK_EST.EST_NJ : Fld := ⟨SRC_BANK_EST.reg, 0, 16⟩
/-- Offset of SRC_TAP_LAST (02_source_and_booster.md). -/
def SRC_TAP_LAST.reg : Nat := 0x30034
/-- SRC_TAP_LAST.PORT [31:28] RO. -/
abbrev SRC_TAP_LAST.PORT : Fld := ⟨SRC_TAP_LAST.reg, 28, 4⟩
/-- SRC_TAP_LAST.SHORT [27:27] RO. -/
abbrev SRC_TAP_LAST.SHORT : Fld := ⟨SRC_TAP_LAST.reg, 27, 1⟩
/-- SRC_TAP_LAST.FAIL [26:26] RO. -/
abbrev SRC_TAP_LAST.FAIL : Fld := ⟨SRC_TAP_LAST.reg, 26, 1⟩
/-- SRC_TAP_LAST.ENERGY [17:0] RO. -/
abbrev SRC_TAP_LAST.ENERGY : Fld := ⟨SRC_TAP_LAST.reg, 0, 18⟩
/-- Offset of SRC_FAULT_CAUSE (02_source_and_booster.md). -/
def SRC_FAULT_CAUSE.reg : Nat := 0x30040
/-- SRC_FAULT_CAUSE.SWITCH_ROUTE [13:13] W1C. -/
abbrev SRC_FAULT_CAUSE.SWITCH_ROUTE : Fld := ⟨SRC_FAULT_CAUSE.reg, 13, 1⟩
/-- SRC_FAULT_CAUSE.PUMP_LIMIT [12:12] W1C. -/
abbrev SRC_FAULT_CAUSE.PUMP_LIMIT : Fld := ⟨SRC_FAULT_CAUSE.reg, 12, 1⟩
/-- SRC_FAULT_CAUSE.TEC_CURRENT [11:11] W1C. -/
abbrev SRC_FAULT_CAUSE.TEC_CURRENT : Fld := ⟨SRC_FAULT_CAUSE.reg, 11, 1⟩
/-- SRC_FAULT_CAUSE.DUMP_PATH [10:10] W1C. -/
abbrev SRC_FAULT_CAUSE.DUMP_PATH : Fld := ⟨SRC_FAULT_CAUSE.reg, 10, 1⟩
/-- SRC_FAULT_CAUSE.SWITCH_LEAK [9:9] W1C. -/
abbrev SRC_FAULT_CAUSE.SWITCH_LEAK : Fld := ⟨SRC_FAULT_CAUSE.reg, 9, 1⟩
/-- SRC_FAULT_CAUSE.OVERPOWER [8:8] W1C. -/
abbrev SRC_FAULT_CAUSE.OVERPOWER : Fld := ⟨SRC_FAULT_CAUSE.reg, 8, 1⟩
/-- SRC_FAULT_CAUSE.ENERGY_HIGH [7:7] W1C. -/
abbrev SRC_FAULT_CAUSE.ENERGY_HIGH : Fld := ⟨SRC_FAULT_CAUSE.reg, 7, 1⟩
/-- SRC_FAULT_CAUSE.ENERGY_LOW [6:6] W1C. -/
abbrev SRC_FAULT_CAUSE.ENERGY_LOW : Fld := ⟨SRC_FAULT_CAUSE.reg, 6, 1⟩
/-- SRC_FAULT_CAUSE.LASER_UNLOCK [5:5] W1C. -/
abbrev SRC_FAULT_CAUSE.LASER_UNLOCK : Fld := ⟨SRC_FAULT_CAUSE.reg, 5, 1⟩
/-- SRC_FAULT_CAUSE.LASER_CURRENT [4:4] W1C. -/
abbrev SRC_FAULT_CAUSE.LASER_CURRENT : Fld := ⟨SRC_FAULT_CAUSE.reg, 4, 1⟩
/-- SRC_FAULT_CAUSE.PUMP1_SHORT [3:3] W1C. -/
abbrev SRC_FAULT_CAUSE.PUMP1_SHORT : Fld := ⟨SRC_FAULT_CAUSE.reg, 3, 1⟩
/-- SRC_FAULT_CAUSE.PUMP1_OPEN [2:2] W1C. -/
abbrev SRC_FAULT_CAUSE.PUMP1_OPEN : Fld := ⟨SRC_FAULT_CAUSE.reg, 2, 1⟩
/-- SRC_FAULT_CAUSE.PUMP0_SHORT [1:1] W1C. -/
abbrev SRC_FAULT_CAUSE.PUMP0_SHORT : Fld := ⟨SRC_FAULT_CAUSE.reg, 1, 1⟩
/-- SRC_FAULT_CAUSE.PUMP0_OPEN [0:0] W1C. -/
abbrev SRC_FAULT_CAUSE.PUMP0_OPEN : Fld := ⟨SRC_FAULT_CAUSE.reg, 0, 1⟩
/-- Offset of SRC_APR_PORTS (02_source_and_booster.md). -/
def SRC_APR_PORTS.reg : Nat := 0x30044
/-- SRC_APR_PORTS.APR [11:0] RO. -/
abbrev SRC_APR_PORTS.APR : Fld := ⟨SRC_APR_PORTS.reg, 0, 12⟩
/-- Offset of SRC_DIAG_STATUS (02_source_and_booster.md). -/
def SRC_DIAG_STATUS.reg : Nat := 0x30048
/-- SRC_DIAG_STATUS.ROUND_LOW [31:16] RO. -/
abbrev SRC_DIAG_STATUS.ROUND_LOW : Fld := ⟨SRC_DIAG_STATUS.reg, 16, 16⟩
/-- SRC_DIAG_STATUS.REPLICA [13:9] RO. -/
abbrev SRC_DIAG_STATUS.REPLICA : Fld := ⟨SRC_DIAG_STATUS.reg, 9, 5⟩
/-- SRC_DIAG_STATUS.ACTIVE [8:8] RO. -/
abbrev SRC_DIAG_STATUS.ACTIVE : Fld := ⟨SRC_DIAG_STATUS.reg, 8, 1⟩
/-- SRC_DIAG_STATUS.LASER_OK [5:5] RO. -/
abbrev SRC_DIAG_STATUS.LASER_OK : Fld := ⟨SRC_DIAG_STATUS.reg, 5, 1⟩
/-- SRC_DIAG_STATUS.LEAK_OK [4:4] RO. -/
abbrev SRC_DIAG_STATUS.LEAK_OK : Fld := ⟨SRC_DIAG_STATUS.reg, 4, 1⟩
/-- SRC_DIAG_STATUS.REPLICA_OK [3:3] RO. -/
abbrev SRC_DIAG_STATUS.REPLICA_OK : Fld := ⟨SRC_DIAG_STATUS.reg, 3, 1⟩
/-- SRC_DIAG_STATUS.ENERGY_OK [2:2] RO. -/
abbrev SRC_DIAG_STATUS.ENERGY_OK : Fld := ⟨SRC_DIAG_STATUS.reg, 2, 1⟩
/-- SRC_DIAG_STATUS.PUMP1_OK [1:1] RO. -/
abbrev SRC_DIAG_STATUS.PUMP1_OK : Fld := ⟨SRC_DIAG_STATUS.reg, 1, 1⟩
/-- SRC_DIAG_STATUS.PUMP0_OK [0:0] RO. -/
abbrev SRC_DIAG_STATUS.PUMP0_OK : Fld := ⟨SRC_DIAG_STATUS.reg, 0, 1⟩
/-- Offset of SRC_DIAG_COUNT (02_source_and_booster.md). -/
def SRC_DIAG_COUNT.reg : Nat := 0x30050
/-- SRC_DIAG_COUNT.COUNT [31:0] RO. -/
abbrev SRC_DIAG_COUNT.COUNT : Fld := ⟨SRC_DIAG_COUNT.reg, 0, 32⟩
/-- Offset of SRC_ENERGY_FAIL_COUNT (02_source_and_booster.md). -/
def SRC_ENERGY_FAIL_COUNT.reg : Nat := 0x30054
/-- SRC_ENERGY_FAIL_COUNT.COUNT [31:0] RO. -/
abbrev SRC_ENERGY_FAIL_COUNT.COUNT : Fld := ⟨SRC_ENERGY_FAIL_COUNT.reg, 0, 32⟩
/-- Offset of LCH_ROUND_CFG (03_probe_plans_and_launch.md). -/
def LCH_ROUND_CFG.reg : Nat := 0x40000
/-- LCH_ROUND_CFG.MODE [31:31] RWL. -/
abbrev LCH_ROUND_CFG.MODE : Fld := ⟨LCH_ROUND_CFG.reg, 31, 1⟩
/-- LCH_ROUND_CFG.PPS_ALIGN [30:30] RWL. -/
abbrev LCH_ROUND_CFG.PPS_ALIGN : Fld := ⟨LCH_ROUND_CFG.reg, 30, 1⟩
/-- LCH_ROUND_CFG.BELT [29:27] RWL. -/
abbrev LCH_ROUND_CFG.BELT : Fld := ⟨LCH_ROUND_CFG.reg, 27, 3⟩
/-- LCH_ROUND_CFG.PERIOD [21:0] RWL. -/
abbrev LCH_ROUND_CFG.PERIOD : Fld := ⟨LCH_ROUND_CFG.reg, 0, 22⟩
/-- Offset of LCH_ROUND_MAX (03_probe_plans_and_launch.md). -/
def LCH_ROUND_MAX.reg : Nat := 0x40004
/-- LCH_ROUND_MAX.MAX_PERIOD [21:0] RWL. -/
abbrev LCH_ROUND_MAX.MAX_PERIOD : Fld := ⟨LCH_ROUND_MAX.reg, 0, 22⟩
/-- Offset of LCH_BELT_STEP (03_probe_plans_and_launch.md). -/
def LCH_BELT_STEP.reg : Nat := 0x40008
/-- LCH_BELT_STEP.STEP [23:0] RWL. -/
abbrev LCH_BELT_STEP.STEP : Fld := ⟨LCH_BELT_STEP.reg, 0, 24⟩
/-- Offset of LCH_TABLE_CFG (03_probe_plans_and_launch.md). -/
def LCH_TABLE_CFG.reg : Nat := 0x4000C
/-- LCH_TABLE_CFG.BRL_ROUND_EVERY [31:20] RWL. -/
abbrev LCH_TABLE_CFG.BRL_ROUND_EVERY : Fld := ⟨LCH_TABLE_CFG.reg, 20, 12⟩
/-- LCH_TABLE_CFG.CAL_GAP [15:8] RWL. -/
abbrev LCH_TABLE_CFG.CAL_GAP : Fld := ⟨LCH_TABLE_CFG.reg, 8, 8⟩
/-- LCH_TABLE_CFG.TURN_COUNT [6:0] RWL. -/
abbrev LCH_TABLE_CFG.TURN_COUNT : Fld := ⟨LCH_TABLE_CFG.reg, 0, 7⟩
/-- Offset of LCH_SLACK (03_probe_plans_and_launch.md). -/
def LCH_SLACK.reg : Nat := 0x40010
/-- LCH_SLACK.SLACK [11:0] RWL. -/
abbrev LCH_SLACK.SLACK : Fld := ⟨LCH_SLACK.reg, 0, 12⟩
/-- Offset of LCH_COMMIT_STATUS (03_probe_plans_and_launch.md). -/
def LCH_COMMIT_STATUS.reg : Nat := 0x40020
/-- LCH_COMMIT_STATUS.REASON [31:24] RO. -/
abbrev LCH_COMMIT_STATUS.REASON : Fld := ⟨LCH_COMMIT_STATUS.reg, 24, 8⟩
/-- LCH_COMMIT_STATUS.TRANSITION [23:23] RO. -/
abbrev LCH_COMMIT_STATUS.TRANSITION : Fld := ⟨LCH_COMMIT_STATUS.reg, 23, 1⟩
/-- LCH_COMMIT_STATUS.PLAN [22:20] RO. -/
abbrev LCH_COMMIT_STATUS.PLAN : Fld := ⟨LCH_COMMIT_STATUS.reg, 20, 3⟩
/-- LCH_COMMIT_STATUS.ENTRY_A [19:14] RO. -/
abbrev LCH_COMMIT_STATUS.ENTRY_A : Fld := ⟨LCH_COMMIT_STATUS.reg, 14, 6⟩
/-- LCH_COMMIT_STATUS.ENTRY_B [13:8] RO. -/
abbrev LCH_COMMIT_STATUS.ENTRY_B : Fld := ⟨LCH_COMMIT_STATUS.reg, 8, 6⟩
/-- LCH_COMMIT_STATUS.PORT [7:4] RO. -/
abbrev LCH_COMMIT_STATUS.PORT : Fld := ⟨LCH_COMMIT_STATUS.reg, 4, 4⟩
/-- LCH_COMMIT_STATUS.CONFLICT_SRC [3:0] RO. -/
abbrev LCH_COMMIT_STATUS.CONFLICT_SRC : Fld := ⟨LCH_COMMIT_STATUS.reg, 0, 4⟩
/-- Offset of LCH_PENDING (03_probe_plans_and_launch.md). -/
def LCH_PENDING.reg : Nat := 0x40024
/-- LCH_PENDING.PENDING [31:31] RO. -/
abbrev LCH_PENDING.PENDING : Fld := ⟨LCH_PENDING.reg, 31, 1⟩
/-- LCH_PENDING.TARGET_LOW [15:0] RO. -/
abbrev LCH_PENDING.TARGET_LOW : Fld := ⟨LCH_PENDING.reg, 0, 16⟩
/-- Offset of LCH_ACTIVE_ROUND_LO (03_probe_plans_and_launch.md). -/
def LCH_ACTIVE_ROUND_LO.reg : Nat := 0x40028
/-- LCH_ACTIVE_ROUND_LO.ROUND [31:0] RO. -/
abbrev LCH_ACTIVE_ROUND_LO.ROUND : Fld := ⟨LCH_ACTIVE_ROUND_LO.reg, 0, 32⟩
/-- Offset of LCH_ACTIVE_ROUND_HI (03_probe_plans_and_launch.md). -/
def LCH_ACTIVE_ROUND_HI.reg : Nat := 0x4002C
/-- LCH_ACTIVE_ROUND_HI.ROUND [15:0] RO. -/
abbrev LCH_ACTIVE_ROUND_HI.ROUND : Fld := ⟨LCH_ACTIVE_ROUND_HI.reg, 0, 16⟩
/-- Offset of LCH_ROUND_NUM_LO (03_probe_plans_and_launch.md). -/
def LCH_ROUND_NUM_LO.reg : Nat := 0x40030
/-- LCH_ROUND_NUM_LO.ROUND [31:0] RO. -/
abbrev LCH_ROUND_NUM_LO.ROUND : Fld := ⟨LCH_ROUND_NUM_LO.reg, 0, 32⟩
/-- Offset of LCH_ROUND_NUM_HI (03_probe_plans_and_launch.md). -/
def LCH_ROUND_NUM_HI.reg : Nat := 0x40034
/-- LCH_ROUND_NUM_HI.ROUND [15:0] RO. -/
abbrev LCH_ROUND_NUM_HI.ROUND : Fld := ⟨LCH_ROUND_NUM_HI.reg, 0, 16⟩
/-- Offset of LCH_CHECK_MARGIN (03_probe_plans_and_launch.md). -/
def LCH_CHECK_MARGIN.reg : Nat := 0x40038
/-- LCH_CHECK_MARGIN.MIN_MARGIN [15:0] RO. -/
abbrev LCH_CHECK_MARGIN.MIN_MARGIN : Fld := ⟨LCH_CHECK_MARGIN.reg, 0, 16⟩
/-- Offset of LCH_SLIDE_COUNT (03_probe_plans_and_launch.md). -/
def LCH_SLIDE_COUNT.reg : Nat := 0x40040
/-- LCH_SLIDE_COUNT.COUNT [31:0] RO. -/
abbrev LCH_SLIDE_COUNT.COUNT : Fld := ⟨LCH_SLIDE_COUNT.reg, 0, 32⟩
/-- Offset of LCH_SKIP_COUNT (03_probe_plans_and_launch.md). -/
def LCH_SKIP_COUNT.reg : Nat := 0x40044
/-- LCH_SKIP_COUNT.COUNT [31:0] RO. -/
abbrev LCH_SKIP_COUNT.COUNT : Fld := ⟨LCH_SKIP_COUNT.reg, 0, 32⟩
/-- Offset of LCH_BELT_LAG_COUNT (03_probe_plans_and_launch.md). -/
def LCH_BELT_LAG_COUNT.reg : Nat := 0x40048
/-- LCH_BELT_LAG_COUNT.COUNT [31:0] RO. -/
abbrev LCH_BELT_LAG_COUNT.COUNT : Fld := ⟨LCH_BELT_LAG_COUNT.reg, 0, 32⟩
/-- Offset of LCH_BELT_STALL_COUNT (03_probe_plans_and_launch.md). -/
def LCH_BELT_STALL_COUNT.reg : Nat := 0x4004C
/-- LCH_BELT_STALL_COUNT.COUNT [31:0] RO. -/
abbrev LCH_BELT_STALL_COUNT.COUNT : Fld := ⟨LCH_BELT_STALL_COUNT.reg, 0, 32⟩
/-- Offset of LCH_DIAG_MISS_COUNT (03_probe_plans_and_launch.md). -/
def LCH_DIAG_MISS_COUNT.reg : Nat := 0x40050
/-- LCH_DIAG_MISS_COUNT.COUNT [31:0] RO. -/
abbrev LCH_DIAG_MISS_COUNT.COUNT : Fld := ⟨LCH_DIAG_MISS_COUNT.reg, 0, 32⟩
/-- Offset of LCH_PORTn_SKIP_COUNT (03_probe_plans_and_launch.md). -/
def LCH_PORT_SKIP_COUNT.reg (n : Nat) : Nat := 0x40060 + 0x4 * (n % 12)
/-- LCH_PORTn_SKIP_COUNT.COUNT [31:0] RO. -/
abbrev LCH_PORT_SKIP_COUNT.COUNT (n : Nat) : Fld := ⟨(LCH_PORT_SKIP_COUNT.reg n), 0, 32⟩
/-- Offset of LCH_PLANp_PROBE (03_probe_plans_and_launch.md). -/
def LCH_PLAN_PROBE.reg (p : Nat) : Nat := 0x40100 + 0x20 * (p % 8)
/-- LCH_PLANp_PROBE.KIND [31:31] RWL. -/
abbrev LCH_PLAN_PROBE.KIND (p : Nat) : Fld := ⟨(LCH_PLAN_PROBE.reg p), 31, 1⟩
/-- LCH_PLANp_PROBE.TONES [27:24] RWL. -/
abbrev LCH_PLAN_PROBE.TONES (p : Nat) : Fld := ⟨(LCH_PLAN_PROBE.reg p), 24, 4⟩
/-- LCH_PLANp_PROBE.CHIRP_TICKS [12:0] RWL. -/
abbrev LCH_PLAN_PROBE.CHIRP_TICKS (p : Nat) : Fld := ⟨(LCH_PLAN_PROBE.reg p), 0, 13⟩
/-- Offset of LCH_PLANp_POWER (03_probe_plans_and_launch.md). -/
def LCH_PLAN_POWER.reg (p : Nat) : Nat := 0x40104 + 0x20 * (p % 8)
/-- LCH_PLANp_POWER.BRL_PEAK_MW [25:16] RWL. -/
abbrev LCH_PLAN_POWER.BRL_PEAK_MW (p : Nat) : Fld := ⟨(LCH_PLAN_POWER.reg p), 16, 10⟩
/-- LCH_PLANp_POWER.PEAK_MW [9:0] RWL. -/
abbrev LCH_PLAN_POWER.PEAK_MW (p : Nat) : Fld := ⟨(LCH_PLAN_POWER.reg p), 0, 10⟩
/-- Offset of LCH_PLANp_SPAN (03_probe_plans_and_launch.md). -/
def LCH_PLAN_SPAN.reg (p : Nat) : Nat := 0x40108 + 0x20 * (p % 8)
/-- LCH_PLANp_SPAN.BIN_COUNT [31:16] RWL. -/
abbrev LCH_PLAN_SPAN.BIN_COUNT (p : Nat) : Fld := ⟨(LCH_PLAN_SPAN.reg p), 16, 16⟩
/-- LCH_PLANp_SPAN.LEAD_BINS [10:0] RWL. -/
abbrev LCH_PLAN_SPAN.LEAD_BINS (p : Nat) : Fld := ⟨(LCH_PLAN_SPAN.reg p), 0, 11⟩
/-- Offset of LCH_PLANp_PROC (03_probe_plans_and_launch.md). -/
def LCH_PLAN_PROC.reg (p : Nat) : Nat := 0x4010C + 0x20 * (p % 8)
/-- LCH_PLANp_PROC.BRL_SHARE [22:16] RWL. -/
abbrev LCH_PLAN_PROC.BRL_SHARE (p : Nat) : Fld := ⟨(LCH_PLAN_PROC.reg p), 16, 7⟩
/-- LCH_PLANp_PROC.GAUGE [6:0] RWL. -/
abbrev LCH_PLAN_PROC.GAUGE (p : Nat) : Fld := ⟨(LCH_PLAN_PROC.reg p), 0, 7⟩
/-- Offset of LCH_PLANp_BRL (03_probe_plans_and_launch.md). -/
def LCH_PLAN_BRL.reg (p : Nat) : Nat := 0x40110 + 0x20 * (p % 8)
/-- LCH_PLANp_BRL.BRL_WIDTH [15:0] RWL. -/
abbrev LCH_PLAN_BRL.BRL_WIDTH (p : Nat) : Fld := ⟨(LCH_PLAN_BRL.reg p), 0, 16⟩
/-- Offset of LCH_TURNi (03_probe_plans_and_launch.md). -/
def LCH_TURN.reg (i : Nat) : Nat := 0x40400 + 0x4 * (i % 64)
/-- LCH_TURNi.PORT [31:28] RWL. -/
abbrev LCH_TURN.PORT (i : Nat) : Fld := ⟨(LCH_TURN.reg i), 28, 4⟩
/-- LCH_TURNi.PLAN [27:25] RWL. -/
abbrev LCH_TURN.PLAN (i : Nat) : Fld := ⟨(LCH_TURN.reg i), 25, 3⟩
/-- LCH_TURNi.KIND [24:23] RWL. -/
abbrev LCH_TURN.KIND (i : Nat) : Fld := ⟨(LCH_TURN.reg i), 23, 2⟩
/-- LCH_TURNi.OFFSET [21:0] RWL. -/
abbrev LCH_TURN.OFFSET (i : Nat) : Fld := ⟨(LCH_TURN.reg i), 0, 22⟩
/-- Offset of PRTn_RX_CFG (04_receivers_and_converters.md). -/
def PRT_RX_CFG.reg (n : Nat) : Nat := 0x80000 + 0x4000 * (n % 12)
/-- PRTn_RX_CFG.AR_EN_R [31:31] RWL. -/
abbrev PRT_RX_CFG.AR_EN_R (n : Nat) : Fld := ⟨(PRT_RX_CFG.reg n), 31, 1⟩
/-- PRTn_RX_CFG.AR_EN_B [30:30] RWL. -/
abbrev PRT_RX_CFG.AR_EN_B (n : Nat) : Fld := ⟨(PRT_RX_CFG.reg n), 30, 1⟩
/-- PRTn_RX_CFG.GAIN_MIN [29:27] RWL. -/
abbrev PRT_RX_CFG.GAIN_MIN (n : Nat) : Fld := ⟨(PRT_RX_CFG.reg n), 27, 3⟩
/-- PRTn_RX_CFG.GAIN_MAX [26:24] RWL. -/
abbrev PRT_RX_CFG.GAIN_MAX (n : Nat) : Fld := ⟨(PRT_RX_CFG.reg n), 24, 3⟩
/-- PRTn_RX_CFG.ZONE_COUNT [19:16] RWL. -/
abbrev PRT_RX_CFG.ZONE_COUNT (n : Nat) : Fld := ⟨(PRT_RX_CFG.reg n), 16, 4⟩
/-- PRTn_RX_CFG.CLIP_TURNS [15:8] RWL. -/
abbrev PRT_RX_CFG.CLIP_TURNS (n : Nat) : Fld := ⟨(PRT_RX_CFG.reg n), 8, 8⟩
/-- Offset of PRTn_RX_FLOOR (04_receivers_and_converters.md). -/
def PRT_RX_FLOOR.reg (n : Nat) : Nat := 0x80004 + 0x4000 * (n % 12)
/-- PRTn_RX_FLOOR.FLOOR_TURNS [31:16] RWL. -/
abbrev PRT_RX_FLOOR.FLOOR_TURNS (n : Nat) : Fld := ⟨(PRT_RX_FLOOR.reg n), 16, 16⟩
/-- PRTn_RX_FLOOR.FLOOR [9:0] RWL. -/
abbrev PRT_RX_FLOOR.FLOOR (n : Nat) : Fld := ⟨(PRT_RX_FLOOR.reg n), 0, 10⟩
/-- Offset of PRTn_ZONE_BOUNDk (04_receivers_and_converters.md). -/
def PRT_ZONE_BOUND.reg (n k : Nat) : Nat := 0x80014 + 0x4000 * (n % 12) + 0x4 * ((k - 1) % 7)
/-- PRTn_ZONE_BOUNDk.BOUND [15:0] RWL. -/
abbrev PRT_ZONE_BOUND.BOUND (n k : Nat) : Fld := ⟨(PRT_ZONE_BOUND.reg n k), 0, 16⟩
/-- Offset of PRTn_ZONE_GAIN_R (04_receivers_and_converters.md). -/
def PRT_ZONE_GAIN_R.reg (n : Nat) : Nat := 0x80030 + 0x4000 * (n % 12)
/-- PRTn_ZONE_GAIN_R.GAIN_Zk [23:0] RWL. -/
abbrev PRT_ZONE_GAIN_R.GAIN_Zk (n : Nat) : Fld := ⟨(PRT_ZONE_GAIN_R.reg n), 0, 24⟩
/-- Offset of PRTn_ZONE_GAIN_B (04_receivers_and_converters.md). -/
def PRT_ZONE_GAIN_B.reg (n : Nat) : Nat := 0x80034 + 0x4000 * (n % 12)
/-- PRTn_ZONE_GAIN_B.GAIN_Zk [23:0] RWL. -/
abbrev PRT_ZONE_GAIN_B.GAIN_Zk (n : Nat) : Fld := ⟨(PRT_ZONE_GAIN_B.reg n), 0, 24⟩
/-- Offset of PRTn_GROUP_INDEX (04_receivers_and_converters.md). -/
def PRT_GROUP_INDEX.reg (n : Nat) : Nat := 0x80040 + 0x4000 * (n % 12)
/-- PRTn_GROUP_INDEX.GI [15:0] RWL. -/
abbrev PRT_GROUP_INDEX.GI (n : Nat) : Fld := ⟨(PRT_GROUP_INDEX.reg n), 0, 16⟩
/-- Offset of PRTn_RX_STATUS (04_receivers_and_converters.md). -/
def PRT_RX_STATUS.reg (n : Nat) : Nat := 0x80050 + 0x4000 * (n % 12)
/-- PRTn_RX_STATUS.LO_R_OK [31:31] RO. -/
abbrev PRT_RX_STATUS.LO_R_OK (n : Nat) : Fld := ⟨(PRT_RX_STATUS.reg n), 31, 1⟩
/-- PRTn_RX_STATUS.LO_B_OK [30:30] RO. -/
abbrev PRT_RX_STATUS.LO_B_OK (n : Nat) : Fld := ⟨(PRT_RX_STATUS.reg n), 30, 1⟩
/-- PRTn_RX_STATUS.CLIP_SEEN [29:29] W1C. -/
abbrev PRT_RX_STATUS.CLIP_SEEN (n : Nat) : Fld := ⟨(PRT_RX_STATUS.reg n), 29, 1⟩
/-- PRTn_RX_STATUS.RANGING_FROZEN [28:28] RO. -/
abbrev PRT_RX_STATUS.RANGING_FROZEN (n : Nat) : Fld := ⟨(PRT_RX_STATUS.reg n), 28, 1⟩
/-- Offset of PRTn_RX_FAULT (04_receivers_and_converters.md). -/
def PRT_RX_FAULT.reg (n : Nat) : Nat := 0x80054 + 0x4000 * (n % 12)
/-- PRTn_RX_FAULT.ADC_LINK [3:3] W1C. -/
abbrev PRT_RX_FAULT.ADC_LINK (n : Nat) : Fld := ⟨(PRT_RX_FAULT.reg n), 3, 1⟩
/-- PRTn_RX_FAULT.ADC_STUCK [2:2] W1C. -/
abbrev PRT_RX_FAULT.ADC_STUCK (n : Nat) : Fld := ⟨(PRT_RX_FAULT.reg n), 2, 1⟩
/-- PRTn_RX_FAULT.LO_LOW_B [1:1] W1C. -/
abbrev PRT_RX_FAULT.LO_LOW_B (n : Nat) : Fld := ⟨(PRT_RX_FAULT.reg n), 1, 1⟩
/-- PRTn_RX_FAULT.LO_LOW_R [0:0] W1C. -/
abbrev PRT_RX_FAULT.LO_LOW_R (n : Nat) : Fld := ⟨(PRT_RX_FAULT.reg n), 0, 1⟩
/-- Offset of PRTn_LO_MON (04_receivers_and_converters.md). -/
def PRT_LO_MON.reg (n : Nat) : Nat := 0x80058 + 0x4000 * (n % 12)
/-- PRTn_LO_MON.SEL [31:31] RO. -/
abbrev PRT_LO_MON.SEL (n : Nat) : Fld := ⟨(PRT_LO_MON.reg n), 31, 1⟩
/-- PRTn_LO_MON.LO_Y [30:16] RO. -/
abbrev PRT_LO_MON.LO_Y (n : Nat) : Fld := ⟨(PRT_LO_MON.reg n), 16, 15⟩
/-- PRTn_LO_MON.LO_X [14:0] RO. -/
abbrev PRT_LO_MON.LO_X (n : Nat) : Fld := ⟨(PRT_LO_MON.reg n), 0, 15⟩
/-- Offset of PRTn_PEAK_X (04_receivers_and_converters.md). -/
def PRT_PEAK_X.reg (n : Nat) : Nat := 0x80060 + 0x4000 * (n % 12)
/-- PRTn_PEAK_X.PEAK_Q [27:16] RO. -/
abbrev PRT_PEAK_X.PEAK_Q (n : Nat) : Fld := ⟨(PRT_PEAK_X.reg n), 16, 12⟩
/-- PRTn_PEAK_X.PEAK_I [11:0] RO. -/
abbrev PRT_PEAK_X.PEAK_I (n : Nat) : Fld := ⟨(PRT_PEAK_X.reg n), 0, 12⟩
/-- Offset of PRTn_PEAK_Y (04_receivers_and_converters.md). -/
def PRT_PEAK_Y.reg (n : Nat) : Nat := 0x80064 + 0x4000 * (n % 12)
/-- PRTn_PEAK_Y.PEAK_Q [27:16] RO. -/
abbrev PRT_PEAK_Y.PEAK_Q (n : Nat) : Fld := ⟨(PRT_PEAK_Y.reg n), 16, 12⟩
/-- PRTn_PEAK_Y.PEAK_I [11:0] RO. -/
abbrev PRT_PEAK_Y.PEAK_I (n : Nat) : Fld := ⟨(PRT_PEAK_Y.reg n), 0, 12⟩
/-- Offset of PRTn_CLIP_COUNT (04_receivers_and_converters.md). -/
def PRT_CLIP_COUNT.reg (n : Nat) : Nat := 0x80070 + 0x4000 * (n % 12)
/-- PRTn_CLIP_COUNT.COUNT [31:0] RO. -/
abbrev PRT_CLIP_COUNT.COUNT (n : Nat) : Fld := ⟨(PRT_CLIP_COUNT.reg n), 0, 32⟩
/-- Offset of PRTn_RANGE_COUNT (04_receivers_and_converters.md). -/
def PRT_RANGE_COUNT.reg (n : Nat) : Nat := 0x80074 + 0x4000 * (n % 12)
/-- PRTn_RANGE_COUNT.COUNT [31:0] RO. -/
abbrev PRT_RANGE_COUNT.COUNT (n : Nat) : Fld := ⟨(PRT_RANGE_COUNT.reg n), 0, 32⟩
/-- Offset of PRTn_AR_STALE_COUNT (04_receivers_and_converters.md). -/
def PRT_AR_STALE_COUNT.reg (n : Nat) : Nat := 0x80078 + 0x4000 * (n % 12)
/-- PRTn_AR_STALE_COUNT.COUNT [31:0] RO. -/
abbrev PRT_AR_STALE_COUNT.COUNT (n : Nat) : Fld := ⟨(PRT_AR_STALE_COUNT.reg n), 0, 32⟩
/-- Offset of PRTn_PE_CFG (05_rayleigh_phase_engine.md). -/
def PRT_PE_CFG.reg (n : Nat) : Nat := 0x80100 + 0x4000 * (n % 12)
/-- PRTn_PE_CFG.QUAL_OUT [31:31] RWL. -/
abbrev PRT_PE_CFG.QUAL_OUT (n : Nat) : Fld := ⟨(PRT_PE_CFG.reg n), 31, 1⟩
/-- PRTn_PE_CFG.FILL_MAX [27:24] RWL. -/
abbrev PRT_PE_CFG.FILL_MAX (n : Nat) : Fld := ⟨(PRT_PE_CFG.reg n), 24, 4⟩
/-- PRTn_PE_CFG.FADE_SHIFT [19:16] RWL. -/
abbrev PRT_PE_CFG.FADE_SHIFT (n : Nat) : Fld := ⟨(PRT_PE_CFG.reg n), 16, 4⟩
/-- PRTn_PE_CFG.ALIGN_SHIFT [11:8] RWL. -/
abbrev PRT_PE_CFG.ALIGN_SHIFT (n : Nat) : Fld := ⟨(PRT_PE_CFG.reg n), 8, 4⟩
/-- PRTn_PE_CFG.SCALE_K [3:0] RWL. -/
abbrev PRT_PE_CFG.SCALE_K (n : Nat) : Fld := ⟨(PRT_PE_CFG.reg n), 0, 4⟩
/-- Offset of PRTn_PE_CONV (05_rayleigh_phase_engine.md). -/
def PRT_PE_CONV.reg (n : Nat) : Nat := 0x80104 + 0x4000 * (n % 12)
/-- PRTn_PE_CONV.XI [15:0] RWL. -/
abbrev PRT_PE_CONV.XI (n : Nat) : Fld := ⟨(PRT_PE_CONV.reg n), 0, 16⟩
/-- Offset of PRTn_STRAIN_PER_RAD (05_rayleigh_phase_engine.md). -/
def PRT_STRAIN_PER_RAD.reg (n : Nat) : Nat := 0x80108 + 0x4000 * (n % 12)
/-- PRTn_STRAIN_PER_RAD.FE_PER_RAD [31:0] RO. -/
abbrev PRT_STRAIN_PER_RAD.FE_PER_RAD (n : Nat) : Fld := ⟨(PRT_STRAIN_PER_RAD.reg n), 0, 32⟩
/-- Offset of PRTn_LF_CFG (05_rayleigh_phase_engine.md). -/
def PRT_LF_CFG.reg (n : Nat) : Nat := 0x80110 + 0x4000 * (n % 12)
/-- PRTn_LF_CFG.LF_EN [31:31] RWL. -/
abbrev PRT_LF_CFG.LF_EN (n : Nat) : Fld := ⟨(PRT_LF_CFG.reg n), 31, 1⟩
/-- PRTn_LF_CFG.FORMAT [30:30] RWL. -/
abbrev PRT_LF_CFG.FORMAT (n : Nat) : Fld := ⟨(PRT_LF_CFG.reg n), 30, 1⟩
/-- PRTn_LF_CFG.REF_EN [29:29] RWL. -/
abbrev PRT_LF_CFG.REF_EN (n : Nat) : Fld := ⟨(PRT_LF_CFG.reg n), 29, 1⟩
/-- PRTn_LF_CFG.DECIM [15:0] RWL. -/
abbrev PRT_LF_CFG.DECIM (n : Nat) : Fld := ⟨(PRT_LF_CFG.reg n), 0, 16⟩
/-- Offset of PRTn_LF_COEF (05_rayleigh_phase_engine.md). -/
def PRT_LF_COEF.reg (n : Nat) : Nat := 0x80114 + 0x4000 * (n % 12)
/-- PRTn_LF_COEF.COEF [15:0] RWL. -/
abbrev PRT_LF_COEF.COEF (n : Nat) : Fld := ⟨(PRT_LF_COEF.reg n), 0, 16⟩
/-- Offset of PRTn_LF_REF (05_rayleigh_phase_engine.md). -/
def PRT_LF_REF.reg (n : Nat) : Nat := 0x80118 + 0x4000 * (n % 12)
/-- PRTn_LF_REF.REF_FIRST [31:16] RWL. -/
abbrev PRT_LF_REF.REF_FIRST (n : Nat) : Fld := ⟨(PRT_LF_REF.reg n), 16, 16⟩
/-- PRTn_LF_REF.REF_COUNT [15:0] RWL. -/
abbrev PRT_LF_REF.REF_COUNT (n : Nat) : Fld := ⟨(PRT_LF_REF.reg n), 0, 16⟩
/-- Offset of PRTn_INTEG_CFG (05_rayleigh_phase_engine.md). -/
def PRT_INTEG_CFG.reg (n : Nat) : Nat := 0x80120 + 0x4000 * (n % 12)
/-- PRTn_INTEG_CFG.EN [31:31] RWL. -/
abbrev PRT_INTEG_CFG.EN (n : Nat) : Fld := ⟨(PRT_INTEG_CFG.reg n), 31, 1⟩
/-- PRTn_INTEG_CFG.MARGIN [23:16] RWL. -/
abbrev PRT_INTEG_CFG.MARGIN (n : Nat) : Fld := ⟨(PRT_INTEG_CFG.reg n), 16, 8⟩
/-- Offset of PRTn_INTEG_END (05_rayleigh_phase_engine.md). -/
def PRT_INTEG_END.reg (n : Nat) : Nat := 0x80124 + 0x4000 * (n % 12)
/-- PRTn_INTEG_END.APR_END_BIN [31:16] RWL. -/
abbrev PRT_INTEG_END.APR_END_BIN (n : Nat) : Fld := ⟨(PRT_INTEG_END.reg n), 16, 16⟩
/-- PRTn_INTEG_END.END_BIN [15:0] RWL. -/
abbrev PRT_INTEG_END.END_BIN (n : Nat) : Fld := ⟨(PRT_INTEG_END.reg n), 0, 16⟩
/-- Offset of PRTn_INTEG_STATUS (05_rayleigh_phase_engine.md). -/
def PRT_INTEG_STATUS.reg (n : Nat) : Nat := 0x80128 + 0x4000 * (n % 12)
/-- PRTn_INTEG_STATUS.DECLARED [31:31] RO. -/
abbrev PRT_INTEG_STATUS.DECLARED (n : Nat) : Fld := ⟨(PRT_INTEG_STATUS.reg n), 31, 1⟩
/-- PRTn_INTEG_STATUS.CLEAR [30:30] RO. -/
abbrev PRT_INTEG_STATUS.CLEAR (n : Nat) : Fld := ⟨(PRT_INTEG_STATUS.reg n), 30, 1⟩
/-- PRTn_INTEG_STATUS.ROUTE_REF [29:29] RO. -/
abbrev PRT_INTEG_STATUS.ROUTE_REF (n : Nat) : Fld := ⟨(PRT_INTEG_STATUS.reg n), 29, 1⟩
/-- PRTn_INTEG_STATUS.LF_REF_BAD [28:28] RO. -/
abbrev PRT_INTEG_STATUS.LF_REF_BAD (n : Nat) : Fld := ⟨(PRT_INTEG_STATUS.reg n), 28, 1⟩
/-- PRTn_INTEG_STATUS.BREAK_BIN [15:0] RO. -/
abbrev PRT_INTEG_STATUS.BREAK_BIN (n : Nat) : Fld := ⟨(PRT_INTEG_STATUS.reg n), 0, 16⟩
/-- Offset of PRTn_FADE_COUNT (05_rayleigh_phase_engine.md). -/
def PRT_FADE_COUNT.reg (n : Nat) : Nat := 0x80140 + 0x4000 * (n % 12)
/-- PRTn_FADE_COUNT.COUNT [31:0] RO. -/
abbrev PRT_FADE_COUNT.COUNT (n : Nat) : Fld := ⟨(PRT_FADE_COUNT.reg n), 0, 32⟩
/-- Offset of PRTn_FILL_COUNT (05_rayleigh_phase_engine.md). -/
def PRT_FILL_COUNT.reg (n : Nat) : Nat := 0x80144 + 0x4000 * (n % 12)
/-- PRTn_FILL_COUNT.COUNT [31:0] RO. -/
abbrev PRT_FILL_COUNT.COUNT (n : Nat) : Fld := ⟨(PRT_FILL_COUNT.reg n), 0, 32⟩
/-- Offset of PRTn_GAP_FRAME_COUNT (05_rayleigh_phase_engine.md). -/
def PRT_GAP_FRAME_COUNT.reg (n : Nat) : Nat := 0x80148 + 0x4000 * (n % 12)
/-- PRTn_GAP_FRAME_COUNT.COUNT [31:0] RO. -/
abbrev PRT_GAP_FRAME_COUNT.COUNT (n : Nat) : Fld := ⟨(PRT_GAP_FRAME_COUNT.reg n), 0, 32⟩
/-- Offset of PRTn_BREAK_COUNT (05_rayleigh_phase_engine.md). -/
def PRT_BREAK_COUNT.reg (n : Nat) : Nat := 0x8014C + 0x4000 * (n % 12)
/-- PRTn_BREAK_COUNT.COUNT [31:0] RO. -/
abbrev PRT_BREAK_COUNT.COUNT (n : Nat) : Fld := ⟨(PRT_BREAK_COUNT.reg n), 0, 32⟩
/-- Offset of PRTn_LEVEL_RESTART_COUNT (05_rayleigh_phase_engine.md). -/
def PRT_LEVEL_RESTART_COUNT.reg (n : Nat) : Nat := 0x80150 + 0x4000 * (n % 12)
/-- PRTn_LEVEL_RESTART_COUNT.COUNT [31:0] RO. -/
abbrev PRT_LEVEL_RESTART_COUNT.COUNT (n : Nat) : Fld := ⟨(PRT_LEVEL_RESTART_COUNT.reg n), 0, 32⟩
/-- Offset of PRTn_ROUTE_FAIL_COUNT (05_rayleigh_phase_engine.md). -/
def PRT_ROUTE_FAIL_COUNT.reg (n : Nat) : Nat := 0x80154 + 0x4000 * (n % 12)
/-- PRTn_ROUTE_FAIL_COUNT.COUNT [31:0] RO. -/
abbrev PRT_ROUTE_FAIL_COUNT.COUNT (n : Nat) : Fld := ⟨(PRT_ROUTE_FAIL_COUNT.reg n), 0, 32⟩
/-- Offset of PRTn_CAL_STATUS (18_calibration.md). -/
def PRT_CAL_STATUS.reg (n : Nat) : Nat := 0x80200 + 0x4000 * (n % 12)
/-- PRTn_CAL_STATUS.DONE [31:31] RO. -/
abbrev PRT_CAL_STATUS.DONE (n : Nat) : Fld := ⟨(PRT_CAL_STATUS.reg n), 31, 1⟩
/-- PRTn_CAL_STATUS.NO_FRAMES [30:30] RO. -/
abbrev PRT_CAL_STATUS.NO_FRAMES (n : Nat) : Fld := ⟨(PRT_CAL_STATUS.reg n), 30, 1⟩
/-- PRTn_CAL_STATUS.SAT [29:29] RO. -/
abbrev PRT_CAL_STATUS.SAT (n : Nat) : Fld := ⟨(PRT_CAL_STATUS.reg n), 29, 1⟩
/-- PRTn_CAL_STATUS.MISSING [23:16] RO. -/
abbrev PRT_CAL_STATUS.MISSING (n : Nat) : Fld := ⟨(PRT_CAL_STATUS.reg n), 16, 8⟩
/-- PRTn_CAL_STATUS.FRAMES [15:0] RO. -/
abbrev PRT_CAL_STATUS.FRAMES (n : Nat) : Fld := ⟨(PRT_CAL_STATUS.reg n), 0, 16⟩
/-- Offset of PRTn_CAL_HYB (18_calibration.md). -/
def PRT_CAL_HYB.reg (n : Nat) : Nat := 0x80204 + 0x4000 * (n % 12)
/-- PRTn_CAL_HYB.PHASE_Y [31:16] RO. -/
abbrev PRT_CAL_HYB.PHASE_Y (n : Nat) : Fld := ⟨(PRT_CAL_HYB.reg n), 16, 16⟩
/-- PRTn_CAL_HYB.PHASE_X [15:0] RO. -/
abbrev PRT_CAL_HYB.PHASE_X (n : Nat) : Fld := ⟨(PRT_CAL_HYB.reg n), 0, 16⟩
/-- Offset of PRTn_CAL_AMP (18_calibration.md). -/
def PRT_CAL_AMP.reg (n : Nat) : Nat := 0x80208 + 0x4000 * (n % 12)
/-- PRTn_CAL_AMP.AMP_Y [31:16] RO. -/
abbrev PRT_CAL_AMP.AMP_Y (n : Nat) : Fld := ⟨(PRT_CAL_AMP.reg n), 16, 16⟩
/-- PRTn_CAL_AMP.AMP_X [15:0] RO. -/
abbrev PRT_CAL_AMP.AMP_X (n : Nat) : Fld := ⟨(PRT_CAL_AMP.reg n), 0, 16⟩
/-- Offset of PRTn_CAL_SKEW (18_calibration.md). -/
def PRT_CAL_SKEW.reg (n : Nat) : Nat := 0x8020C + 0x4000 * (n % 12)
/-- PRTn_CAL_SKEW.YQ [29:20] RO. -/
abbrev PRT_CAL_SKEW.YQ (n : Nat) : Fld := ⟨(PRT_CAL_SKEW.reg n), 20, 10⟩
/-- PRTn_CAL_SKEW.YI [19:10] RO. -/
abbrev PRT_CAL_SKEW.YI (n : Nat) : Fld := ⟨(PRT_CAL_SKEW.reg n), 10, 10⟩
/-- PRTn_CAL_SKEW.XQ [9:0] RO. -/
abbrev PRT_CAL_SKEW.XQ (n : Nat) : Fld := ⟨(PRT_CAL_SKEW.reg n), 0, 10⟩
/-- Offset of PRTn_CAL_OFS (18_calibration.md). -/
def PRT_CAL_OFS.reg (n : Nat) : Nat := 0x80210 + 0x4000 * (n % 12)
/-- PRTn_CAL_OFS.YQ [31:24] RO. -/
abbrev PRT_CAL_OFS.YQ (n : Nat) : Fld := ⟨(PRT_CAL_OFS.reg n), 24, 8⟩
/-- PRTn_CAL_OFS.YI [23:16] RO. -/
abbrev PRT_CAL_OFS.YI (n : Nat) : Fld := ⟨(PRT_CAL_OFS.reg n), 16, 8⟩
/-- PRTn_CAL_OFS.XQ [15:8] RO. -/
abbrev PRT_CAL_OFS.XQ (n : Nat) : Fld := ⟨(PRT_CAL_OFS.reg n), 8, 8⟩
/-- PRTn_CAL_OFS.XI [7:0] RO. -/
abbrev PRT_CAL_OFS.XI (n : Nat) : Fld := ⟨(PRT_CAL_OFS.reg n), 0, 8⟩
/-- Offset of PRTn_CAL_GAIN (18_calibration.md). -/
def PRT_CAL_GAIN.reg (n : Nat) : Nat := 0x80214 + 0x4000 * (n % 12)
/-- PRTn_CAL_GAIN.YQ [31:24] RO. -/
abbrev PRT_CAL_GAIN.YQ (n : Nat) : Fld := ⟨(PRT_CAL_GAIN.reg n), 24, 8⟩
/-- PRTn_CAL_GAIN.YI [23:16] RO. -/
abbrev PRT_CAL_GAIN.YI (n : Nat) : Fld := ⟨(PRT_CAL_GAIN.reg n), 16, 8⟩
/-- PRTn_CAL_GAIN.XQ [15:8] RO. -/
abbrev PRT_CAL_GAIN.XQ (n : Nat) : Fld := ⟨(PRT_CAL_GAIN.reg n), 8, 8⟩
/-- PRTn_CAL_GAIN.XI [7:0] RO. -/
abbrev PRT_CAL_GAIN.XI (n : Nat) : Fld := ⟨(PRT_CAL_GAIN.reg n), 0, 8⟩
/-- Offset of PRTn_CAL_TIA (18_calibration.md). -/
def PRT_CAL_TIA.reg (n : Nat) : Nat := 0x80218 + 0x4000 * (n % 12)
/-- PRTn_CAL_TIA.CODE [26:24] RO. -/
abbrev PRT_CAL_TIA.CODE (n : Nat) : Fld := ⟨(PRT_CAL_TIA.reg n), 24, 3⟩
/-- PRTn_CAL_TIA.CH [23:22] RO. -/
abbrev PRT_CAL_TIA.CH (n : Nat) : Fld := ⟨(PRT_CAL_TIA.reg n), 22, 2⟩
/-- PRTn_CAL_TIA.RATIO_PPM [15:0] RO. -/
abbrev PRT_CAL_TIA.RATIO_PPM (n : Nat) : Fld := ⟨(PRT_CAL_TIA.reg n), 0, 16⟩
/-- Offset of PRTn_CAL_NOISEj (18_calibration.md). -/
def PRT_CAL_NOISE.reg (n j : Nat) : Nat := 0x80220 + 0x4000 * (n % 12) + 0x4 * (j % 4)
/-- PRTn_CAL_NOISEj.CODE_ODD [31:16] RO. -/
abbrev PRT_CAL_NOISE.CODE_ODD (n j : Nat) : Fld := ⟨(PRT_CAL_NOISE.reg n j), 16, 16⟩
/-- PRTn_CAL_NOISEj.CODE_EVEN [15:0] RO. -/
abbrev PRT_CAL_NOISE.CODE_EVEN (n j : Nat) : Fld := ⟨(PRT_CAL_NOISE.reg n j), 0, 16⟩
/-- Offset of PRTn_CAL_LO_R (18_calibration.md). -/
def PRT_CAL_LO_R.reg (n : Nat) : Nat := 0x80230 + 0x4000 * (n % 12)
/-- PRTn_CAL_LO_R.Y [30:16] RO. -/
abbrev PRT_CAL_LO_R.Y (n : Nat) : Fld := ⟨(PRT_CAL_LO_R.reg n), 16, 15⟩
/-- PRTn_CAL_LO_R.X [14:0] RO. -/
abbrev PRT_CAL_LO_R.X (n : Nat) : Fld := ⟨(PRT_CAL_LO_R.reg n), 0, 15⟩
/-- Offset of PRTn_CAL_LO_B (18_calibration.md). -/
def PRT_CAL_LO_B.reg (n : Nat) : Nat := 0x80234 + 0x4000 * (n % 12)
/-- PRTn_CAL_LO_B.Y [30:16] RO. -/
abbrev PRT_CAL_LO_B.Y (n : Nat) : Fld := ⟨(PRT_CAL_LO_B.reg n), 16, 15⟩
/-- PRTn_CAL_LO_B.X [14:0] RO. -/
abbrev PRT_CAL_LO_B.X (n : Nat) : Fld := ⟨(PRT_CAL_LO_B.reg n), 0, 15⟩
/-- Offset of PRTn_CAL_ROUTE (18_calibration.md). -/
def PRT_CAL_ROUTE.reg (n : Nat) : Nat := 0x80238 + 0x4000 * (n % 12)
/-- PRTn_CAL_ROUTE.SHARE [15:0] RO. -/
abbrev PRT_CAL_ROUTE.SHARE (n : Nat) : Fld := ⟨(PRT_CAL_ROUTE.reg n), 0, 16⟩
/-- Offset of BRL_CFG (07_brillouin_temperature.md). -/
def BRL_CFG.reg : Nat := 0xC0000
/-- BRL_CFG.EN [31:31] RWL. -/
abbrev BRL_CFG.EN : Fld := ⟨BRL_CFG.reg, 31, 1⟩
/-- BRL_CFG.SPEC_SHIFT [20:16] RWL. -/
abbrev BRL_CFG.SPEC_SHIFT : Fld := ⟨BRL_CFG.reg, 16, 5⟩
/-- BRL_CFG.PERIOD_S [9:0] RWL. -/
abbrev BRL_CFG.PERIOD_S : Fld := ⟨BRL_CFG.reg, 0, 10⟩
/-- Offset of BRL_REGION (07_brillouin_temperature.md). -/
def BRL_REGION.reg : Nat := 0xC0004
/-- BRL_REGION.BASE_MIB [12:0] RWL. -/
abbrev BRL_REGION.BASE_MIB : Fld := ⟨BRL_REGION.reg, 0, 13⟩
/-- Offset of BRL_FIT_CFG (07_brillouin_temperature.md). -/
def BRL_FIT_CFG.reg : Nat := 0xC0008
/-- BRL_FIT_CFG.WIDTH_MAX [31:24] RWL. -/
abbrev BRL_FIT_CFG.WIDTH_MAX : Fld := ⟨BRL_FIT_CFG.reg, 24, 8⟩
/-- BRL_FIT_CFG.WIDTH_MIN [23:16] RWL. -/
abbrev BRL_FIT_CFG.WIDTH_MIN : Fld := ⟨BRL_FIT_CFG.reg, 16, 8⟩
/-- BRL_FIT_CFG.SNR_MIN [15:8] RWL. -/
abbrev BRL_FIT_CFG.SNR_MIN : Fld := ⟨BRL_FIT_CFG.reg, 8, 8⟩
/-- Offset of BRL_MIN_TURNS (07_brillouin_temperature.md). -/
def BRL_MIN_TURNS.reg : Nat := 0xC000C
/-- BRL_MIN_TURNS.MIN_TURNS [15:0] RWL. -/
abbrev BRL_MIN_TURNS.MIN_TURNS : Fld := ⟨BRL_MIN_TURNS.reg, 0, 16⟩
/-- Offset of BRL_STATUS (07_brillouin_temperature.md). -/
def BRL_STATUS.reg : Nat := 0xC0010
/-- BRL_STATUS.FAILED [31:31] RO. -/
abbrev BRL_STATUS.FAILED : Fld := ⟨BRL_STATUS.reg, 31, 1⟩
/-- BRL_STATUS.LEARN_PENDING [30:30] RO. -/
abbrev BRL_STATUS.LEARN_PENDING : Fld := ⟨BRL_STATUS.reg, 30, 1⟩
/-- BRL_STATUS.FIT_BUSY [29:29] RO. -/
abbrev BRL_STATUS.FIT_BUSY : Fld := ⟨BRL_STATUS.reg, 29, 1⟩
/-- BRL_STATUS.LAST_PORT [27:24] RO. -/
abbrev BRL_STATUS.LAST_PORT : Fld := ⟨BRL_STATUS.reg, 24, 4⟩
/-- Offset of BRL_CELL_RATE (07_brillouin_temperature.md). -/
def BRL_CELL_RATE.reg : Nat := 0xC0014
/-- BRL_CELL_RATE.KCELLS [31:0] RO. -/
abbrev BRL_CELL_RATE.KCELLS : Fld := ⟨BRL_CELL_RATE.reg, 0, 32⟩
/-- Offset of BRL_LEARN_RESULT (07_brillouin_temperature.md). -/
def BRL_LEARN_RESULT.reg : Nat := 0xC0018
/-- BRL_LEARN_RESULT.LEARNED [31:16] RO. -/
abbrev BRL_LEARN_RESULT.LEARNED : Fld := ⟨BRL_LEARN_RESULT.reg, 16, 16⟩
/-- BRL_LEARN_RESULT.REJECTED [15:0] RO. -/
abbrev BRL_LEARN_RESULT.REJECTED : Fld := ⟨BRL_LEARN_RESULT.reg, 0, 16⟩
/-- Offset of BRL_DROP_FAILED_COUNT (07_brillouin_temperature.md). -/
def BRL_DROP_FAILED_COUNT.reg : Nat := 0xC0020
/-- BRL_DROP_FAILED_COUNT.COUNT [31:0] RO. -/
abbrev BRL_DROP_FAILED_COUNT.COUNT : Fld := ⟨BRL_DROP_FAILED_COUNT.reg, 0, 32⟩
/-- Offset of BRL_DROP_SKIP_COUNT (07_brillouin_temperature.md). -/
def BRL_DROP_SKIP_COUNT.reg : Nat := 0xC0024
/-- BRL_DROP_SKIP_COUNT.COUNT [31:0] RO. -/
abbrev BRL_DROP_SKIP_COUNT.COUNT : Fld := ⟨BRL_DROP_SKIP_COUNT.reg, 0, 32⟩
/-- Offset of BRL_DROP_LOSHIFT_COUNT (07_brillouin_temperature.md). -/
def BRL_DROP_LOSHIFT_COUNT.reg : Nat := 0xC0028
/-- BRL_DROP_LOSHIFT_COUNT.COUNT [31:0] RO. -/
abbrev BRL_DROP_LOSHIFT_COUNT.COUNT : Fld := ⟨BRL_DROP_LOSHIFT_COUNT.reg, 0, 32⟩
/-- Offset of BRL_DROP_APR_COUNT (07_brillouin_temperature.md). -/
def BRL_DROP_APR_COUNT.reg : Nat := 0xC002C
/-- BRL_DROP_APR_COUNT.COUNT [31:0] RO. -/
abbrev BRL_DROP_APR_COUNT.COUNT : Fld := ⟨BRL_DROP_APR_COUNT.reg, 0, 32⟩
/-- Offset of BRL_DROP_GEOM_COUNT (07_brillouin_temperature.md). -/
def BRL_DROP_GEOM_COUNT.reg : Nat := 0xC0030
/-- BRL_DROP_GEOM_COUNT.COUNT [31:0] RO. -/
abbrev BRL_DROP_GEOM_COUNT.COUNT : Fld := ⟨BRL_DROP_GEOM_COUNT.reg, 0, 32⟩
/-- Offset of BRL_DROP_OVERRUN_COUNT (07_brillouin_temperature.md). -/
def BRL_DROP_OVERRUN_COUNT.reg : Nat := 0xC0034
/-- BRL_DROP_OVERRUN_COUNT.COUNT [31:0] RO. -/
abbrev BRL_DROP_OVERRUN_COUNT.COUNT : Fld := ⟨BRL_DROP_OVERRUN_COUNT.reg, 0, 32⟩
/-- Offset of BRL_POINT_SAT_COUNT (07_brillouin_temperature.md). -/
def BRL_POINT_SAT_COUNT.reg : Nat := 0xC0038
/-- BRL_POINT_SAT_COUNT.COUNT [31:0] RO. -/
abbrev BRL_POINT_SAT_COUNT.COUNT : Fld := ⟨BRL_POINT_SAT_COUNT.reg, 0, 32⟩
/-- Offset of BRL_REF_ADDR (07_brillouin_temperature.md). -/
def BRL_REF_ADDR.reg : Nat := 0xC0040
/-- BRL_REF_ADDR.PORT [31:28] RW. -/
abbrev BRL_REF_ADDR.PORT : Fld := ⟨BRL_REF_ADDR.reg, 28, 4⟩
/-- BRL_REF_ADDR.CELL [14:0] RW. -/
abbrev BRL_REF_ADDR.CELL : Fld := ⟨BRL_REF_ADDR.reg, 0, 15⟩
/-- Offset of BRL_REF_DATA (07_brillouin_temperature.md). -/
def BRL_REF_DATA.reg : Nat := 0xC0044
/-- BRL_REF_DATA.VALID [31:31] RWL. -/
abbrev BRL_REF_DATA.VALID : Fld := ⟨BRL_REF_DATA.reg, 31, 1⟩
/-- BRL_REF_DATA.NUB0_KHZ [23:0] RWL. -/
abbrev BRL_REF_DATA.NUB0_KHZ : Fld := ⟨BRL_REF_DATA.reg, 0, 24⟩
/-- Offset of BRL_PORTn_STATUS (07_brillouin_temperature.md). -/
def BRL_PORT_STATUS.reg (n : Nat) : Nat := 0xC0100 + 0x20 * (n % 12)
/-- BRL_PORTn_STATUS.REF_LOADED [31:31] RO. -/
abbrev BRL_PORT_STATUS.REF_LOADED (n : Nat) : Fld := ⟨(BRL_PORT_STATUS.reg n), 31, 1⟩
/-- BRL_PORTn_STATUS.LOOP_ACTIVE [30:30] RO. -/
abbrev BRL_PORT_STATUS.LOOP_ACTIVE (n : Nat) : Fld := ⟨(BRL_PORT_STATUS.reg n), 30, 1⟩
/-- BRL_PORTn_STATUS.CELLS [15:0] RO. -/
abbrev BRL_PORT_STATUS.CELLS (n : Nat) : Fld := ⟨(BRL_PORT_STATUS.reg n), 0, 16⟩
/-- Offset of BRL_PORTn_LAST_TURNS (07_brillouin_temperature.md). -/
def BRL_PORT_LAST_TURNS.reg (n : Nat) : Nat := 0xC0104 + 0x20 * (n % 12)
/-- BRL_PORTn_LAST_TURNS.COUNT [31:0] RO. -/
abbrev BRL_PORT_LAST_TURNS.COUNT (n : Nat) : Fld := ⟨(BRL_PORT_LAST_TURNS.reg n), 0, 32⟩
/-- Offset of BRL_PORTn_PERIOD_COUNT (07_brillouin_temperature.md). -/
def BRL_PORT_PERIOD_COUNT.reg (n : Nat) : Nat := 0xC0108 + 0x20 * (n % 12)
/-- BRL_PORTn_PERIOD_COUNT.COUNT [31:0] RO. -/
abbrev BRL_PORT_PERIOD_COUNT.COUNT (n : Nat) : Fld := ⟨(BRL_PORT_PERIOD_COUNT.reg n), 0, 32⟩
/-- Offset of BRL_PORTn_ROUTE_FAIL_COUNT (07_brillouin_temperature.md). -/
def BRL_PORT_ROUTE_FAIL_COUNT.reg (n : Nat) : Nat := 0xC010C + 0x20 * (n % 12)
/-- BRL_PORTn_ROUTE_FAIL_COUNT.COUNT [31:0] RO. -/
abbrev BRL_PORT_ROUTE_FAIL_COUNT.COUNT (n : Nat) : Fld := ⟨(BRL_PORT_ROUTE_FAIL_COUNT.reg n), 0, 32⟩
/-- Offset of BRL_PORTn_RESTART_COUNT (07_brillouin_temperature.md). -/
def BRL_PORT_RESTART_COUNT.reg (n : Nat) : Nat := 0xC0110 + 0x20 * (n % 12)
/-- BRL_PORTn_RESTART_COUNT.COUNT [31:0] RO. -/
abbrev BRL_PORT_RESTART_COUNT.COUNT (n : Nat) : Fld := ⟨(BRL_PORT_RESTART_COUNT.reg n), 0, 32⟩
/-- Offset of BRL_PORTn_LOOP (07_brillouin_temperature.md). -/
def BRL_PORT_LOOP.reg (n : Nat) : Nat := 0xC0114 + 0x20 * (n % 12)
/-- BRL_PORTn_LOOP.LOOP_CELLS [15:0] RWL. -/
abbrev BRL_PORT_LOOP.LOOP_CELLS (n : Nat) : Fld := ⟨(BRL_PORT_LOOP.reg n), 0, 16⟩
/-- Offset of BRL_PORTn_SECTk_START (07_brillouin_temperature.md). -/
def BRL_PORT_SECT_START.reg (n k : Nat) : Nat := 0xC1000 + 0x100 * (n % 12) + 0x8 * (k % 16)
/-- BRL_PORTn_SECTk_START.START_CELL [15:0] RWL. -/
abbrev BRL_PORT_SECT_START.START_CELL (n k : Nat) : Fld := ⟨(BRL_PORT_SECT_START.reg n k), 0, 16⟩
/-- Offset of BRL_PORTn_SECTk_COEF (07_brillouin_temperature.md). -/
def BRL_PORT_SECT_COEF.reg (n k : Nat) : Nat := 0xC1004 + 0x100 * (n % 12) + 0x8 * (k % 16)
/-- BRL_PORTn_SECTk_COEF.T_REF [31:16] RWL. -/
abbrev BRL_PORT_SECT_COEF.T_REF (n k : Nat) : Fld := ⟨(BRL_PORT_SECT_COEF.reg n k), 16, 16⟩
/-- BRL_PORTn_SECTk_COEF.COEF [15:0] RWL. -/
abbrev BRL_PORT_SECT_COEF.COEF (n k : Nat) : Fld := ⟨(BRL_PORT_SECT_COEF.reg n k), 0, 16⟩
/-- Offset of BLT_TINi_CFG (08_belt_timing_and_belt_frame.md). -/
def BLT_TIN_CFG.reg (i : Nat) : Nat := 0xD0000 + 0x40 * (i % 8)
/-- BLT_TINi_CFG.EN [31:31] RWL. -/
abbrev BLT_TIN_CFG.EN (i : Nat) : Fld := ⟨(BLT_TIN_CFG.reg i), 31, 1⟩
/-- BLT_TINi_CFG.SLOPE [30:29] RWL. -/
abbrev BLT_TIN_CFG.SLOPE (i : Nat) : Fld := ⟨(BLT_TIN_CFG.reg i), 29, 2⟩
/-- BLT_TINi_CFG.HYST [27:24] RWL. -/
abbrev BLT_TIN_CFG.HYST (i : Nat) : Fld := ⟨(BLT_TIN_CFG.reg i), 24, 4⟩
/-- BLT_TINi_CFG.PRESCALE [23:16] RWL. -/
abbrev BLT_TIN_CFG.PRESCALE (i : Nat) : Fld := ⟨(BLT_TIN_CFG.reg i), 16, 8⟩
/-- BLT_TINi_CFG.THRESH [9:0] RWL. -/
abbrev BLT_TIN_CFG.THRESH (i : Nat) : Fld := ⟨(BLT_TIN_CFG.reg i), 0, 10⟩
/-- Offset of BLT_TINi_GATE (08_belt_timing_and_belt_frame.md). -/
def BLT_TIN_GATE.reg (i : Nat) : Nat := 0xD0004 + 0x40 * (i % 8)
/-- BLT_TINi_GATE.MODE [31:30] RWL. -/
abbrev BLT_TIN_GATE.MODE (i : Nat) : Fld := ⟨(BLT_TIN_GATE.reg i), 30, 2⟩
/-- BLT_TINi_GATE.MIN_STAMPS [23:16] RWL. -/
abbrev BLT_TIN_GATE.MIN_STAMPS (i : Nat) : Fld := ⟨(BLT_TIN_GATE.reg i), 16, 8⟩
/-- BLT_TINi_GATE.GATE_MS [13:0] RWL. -/
abbrev BLT_TIN_GATE.GATE_MS (i : Nat) : Fld := ⟨(BLT_TIN_GATE.reg i), 0, 14⟩
/-- Offset of BLT_TINi_FREQ_LO (08_belt_timing_and_belt_frame.md). -/
def BLT_TIN_FREQ_LO.reg (i : Nat) : Nat := 0xD0008 + 0x40 * (i % 8)
/-- BLT_TINi_FREQ_LO.VALUE [31:0] RO. -/
abbrev BLT_TIN_FREQ_LO.VALUE (i : Nat) : Fld := ⟨(BLT_TIN_FREQ_LO.reg i), 0, 32⟩
/-- Offset of BLT_TINi_FREQ_HI (08_belt_timing_and_belt_frame.md). -/
def BLT_TIN_FREQ_HI.reg (i : Nat) : Nat := 0xD000C + 0x40 * (i % 8)
/-- BLT_TINi_FREQ_HI.VALUE [31:0] RO. -/
abbrev BLT_TIN_FREQ_HI.VALUE (i : Nat) : Fld := ⟨(BLT_TIN_FREQ_HI.reg i), 0, 32⟩
/-- Offset of BLT_TINi_STATUS (08_belt_timing_and_belt_frame.md). -/
def BLT_TIN_STATUS.reg (i : Nat) : Nat := 0xD0010 + 0x40 * (i % 8)
/-- BLT_TINi_STATUS.VALID [31:31] RO. -/
abbrev BLT_TIN_STATUS.VALID (i : Nat) : Fld := ⟨(BLT_TIN_STATUS.reg i), 31, 1⟩
/-- BLT_TINi_STATUS.SHORT_GATE [30:30] RO. -/
abbrev BLT_TIN_STATUS.SHORT_GATE (i : Nat) : Fld := ⟨(BLT_TIN_STATUS.reg i), 30, 1⟩
/-- BLT_TINi_STATUS.OVR_PULSE [29:29] W1C. -/
abbrev BLT_TIN_STATUS.OVR_PULSE (i : Nat) : Fld := ⟨(BLT_TIN_STATUS.reg i), 29, 1⟩
/-- BLT_TINi_STATUS.OVR_STAMP [28:28] W1C. -/
abbrev BLT_TIN_STATUS.OVR_STAMP (i : Nat) : Fld := ⟨(BLT_TIN_STATUS.reg i), 28, 1⟩
/-- BLT_TINi_STATUS.RESID_PIPS [15:0] RO. -/
abbrev BLT_TIN_STATUS.RESID_PIPS (i : Nat) : Fld := ⟨(BLT_TIN_STATUS.reg i), 0, 16⟩
/-- Offset of BLT_TINi_COUNT_LO (08_belt_timing_and_belt_frame.md). -/
def BLT_TIN_COUNT_LO.reg (i : Nat) : Nat := 0xD0014 + 0x40 * (i % 8)
/-- BLT_TINi_COUNT_LO.VALUE [31:0] RO. -/
abbrev BLT_TIN_COUNT_LO.VALUE (i : Nat) : Fld := ⟨(BLT_TIN_COUNT_LO.reg i), 0, 32⟩
/-- Offset of BLT_TINi_COUNT_HI (08_belt_timing_and_belt_frame.md). -/
def BLT_TIN_COUNT_HI.reg (i : Nat) : Nat := 0xD0018 + 0x40 * (i % 8)
/-- BLT_TINi_COUNT_HI.VALUE [31:0] RO. -/
abbrev BLT_TIN_COUNT_HI.VALUE (i : Nat) : Fld := ⟨(BLT_TIN_COUNT_HI.reg i), 0, 32⟩
/-- Offset of BLT_TINi_LAST_LO (08_belt_timing_and_belt_frame.md). -/
def BLT_TIN_LAST_LO.reg (i : Nat) : Nat := 0xD001C + 0x40 * (i % 8)
/-- BLT_TINi_LAST_LO.VALUE [31:0] RO. -/
abbrev BLT_TIN_LAST_LO.VALUE (i : Nat) : Fld := ⟨(BLT_TIN_LAST_LO.reg i), 0, 32⟩
/-- Offset of BLT_TINi_LAST_HI (08_belt_timing_and_belt_frame.md). -/
def BLT_TIN_LAST_HI.reg (i : Nat) : Nat := 0xD0020 + 0x40 * (i % 8)
/-- BLT_TINi_LAST_HI.VALUE [31:0] RO. -/
abbrev BLT_TIN_LAST_HI.VALUE (i : Nat) : Fld := ⟨(BLT_TIN_LAST_HI.reg i), 0, 32⟩
/-- Offset of BLT_TINi_LAST_PIP (08_belt_timing_and_belt_frame.md). -/
def BLT_TIN_LAST_PIP.reg (i : Nat) : Nat := 0xD0024 + 0x40 * (i % 8)
/-- BLT_TINi_LAST_PIP.PIP [7:0] RO. -/
abbrev BLT_TIN_LAST_PIP.PIP (i : Nat) : Fld := ⟨(BLT_TIN_LAST_PIP.reg i), 0, 8⟩
/-- Offset of BLT_TINi_NUSED (08_belt_timing_and_belt_frame.md). -/
def BLT_TIN_NUSED.reg (i : Nat) : Nat := 0xD0028 + 0x40 * (i % 8)
/-- BLT_TINi_NUSED.VALUE [31:0] RO. -/
abbrev BLT_TIN_NUSED.VALUE (i : Nat) : Fld := ⟨(BLT_TIN_NUSED.reg i), 0, 32⟩
/-- Offset of BLT_TINi_LOST_COUNT (08_belt_timing_and_belt_frame.md). -/
def BLT_TIN_LOST_COUNT.reg (i : Nat) : Nat := 0xD002C + 0x40 * (i % 8)
/-- BLT_TINi_LOST_COUNT.VALUE [31:0] RO. -/
abbrev BLT_TIN_LOST_COUNT.VALUE (i : Nat) : Fld := ⟨(BLT_TIN_LOST_COUNT.reg i), 0, 32⟩
/-- Offset of BLT_PAIRp_CFG (08_belt_timing_and_belt_frame.md). -/
def BLT_PAIR_CFG.reg (p : Nat) : Nat := 0xD0200 + 0x20 * (p % 4)
/-- BLT_PAIRp_CFG.EN [31:31] RWL. -/
abbrev BLT_PAIR_CFG.EN (p : Nat) : Fld := ⟨(BLT_PAIR_CFG.reg p), 31, 1⟩
/-- BLT_PAIRp_CFG.START_IN [30:28] RWL. -/
abbrev BLT_PAIR_CFG.START_IN (p : Nat) : Fld := ⟨(BLT_PAIR_CFG.reg p), 28, 3⟩
/-- BLT_PAIRp_CFG.STOP_IN [26:24] RWL. -/
abbrev BLT_PAIR_CFG.STOP_IN (p : Nat) : Fld := ⟨(BLT_PAIR_CFG.reg p), 24, 3⟩
/-- BLT_PAIRp_CFG.WINDOW [23:0] RWL. -/
abbrev BLT_PAIR_CFG.WINDOW (p : Nat) : Fld := ⟨(BLT_PAIR_CFG.reg p), 0, 24⟩
/-- Offset of BLT_PAIRp_LAST_LO (08_belt_timing_and_belt_frame.md). -/
def BLT_PAIR_LAST_LO.reg (p : Nat) : Nat := 0xD0204 + 0x20 * (p % 4)
/-- BLT_PAIRp_LAST_LO.VALUE [31:0] RO. -/
abbrev BLT_PAIR_LAST_LO.VALUE (p : Nat) : Fld := ⟨(BLT_PAIR_LAST_LO.reg p), 0, 32⟩
/-- Offset of BLT_PAIRp_LAST_HI (08_belt_timing_and_belt_frame.md). -/
def BLT_PAIR_LAST_HI.reg (p : Nat) : Nat := 0xD0208 + 0x20 * (p % 4)
/-- BLT_PAIRp_LAST_HI.VALUE [31:0] RO. -/
abbrev BLT_PAIR_LAST_HI.VALUE (p : Nat) : Fld := ⟨(BLT_PAIR_LAST_HI.reg p), 0, 32⟩
/-- Offset of BLT_PAIRp_STATUS (08_belt_timing_and_belt_frame.md). -/
def BLT_PAIR_STATUS.reg (p : Nat) : Nat := 0xD020C + 0x20 * (p % 4)
/-- BLT_PAIRp_STATUS.COINCIDENT [31:31] RO. -/
abbrev BLT_PAIR_STATUS.COINCIDENT (p : Nat) : Fld := ⟨(BLT_PAIR_STATUS.reg p), 31, 1⟩
/-- BLT_PAIRp_STATUS.NEG [30:30] RO. -/
abbrev BLT_PAIR_STATUS.NEG (p : Nat) : Fld := ⟨(BLT_PAIR_STATUS.reg p), 30, 1⟩
/-- BLT_PAIRp_STATUS.SAME_INPUT [29:29] RO. -/
abbrev BLT_PAIR_STATUS.SAME_INPUT (p : Nat) : Fld := ⟨(BLT_PAIR_STATUS.reg p), 29, 1⟩
/-- Offset of BLT_PAIRp_PAIRED_COUNT (08_belt_timing_and_belt_frame.md). -/
def BLT_PAIR_PAIRED_COUNT.reg (p : Nat) : Nat := 0xD0210 + 0x20 * (p % 4)
/-- BLT_PAIRp_PAIRED_COUNT.VALUE [31:0] RO. -/
abbrev BLT_PAIR_PAIRED_COUNT.VALUE (p : Nat) : Fld := ⟨(BLT_PAIR_PAIRED_COUNT.reg p), 0, 32⟩
/-- Offset of BLT_PAIRp_DROP_COUNT (08_belt_timing_and_belt_frame.md). -/
def BLT_PAIR_DROP_COUNT.reg (p : Nat) : Nat := 0xD0214 + 0x20 * (p % 4)
/-- BLT_PAIRp_DROP_COUNT.VALUE [31:0] RO. -/
abbrev BLT_PAIR_DROP_COUNT.VALUE (p : Nat) : Fld := ⟨(BLT_PAIR_DROP_COUNT.reg p), 0, 32⟩
/-- Offset of BLT_PAIRp_ORPHAN_COUNT (08_belt_timing_and_belt_frame.md). -/
def BLT_PAIR_ORPHAN_COUNT.reg (p : Nat) : Nat := 0xD0218 + 0x20 * (p % 4)
/-- BLT_PAIRp_ORPHAN_COUNT.VALUE [31:0] RO. -/
abbrev BLT_PAIR_ORPHAN_COUNT.VALUE (p : Nat) : Fld := ⟨(BLT_PAIR_ORPHAN_COUNT.reg p), 0, 32⟩
/-- Offset of BLT_GATE_CFG (08_belt_timing_and_belt_frame.md). -/
def BLT_GATE_CFG.reg : Nat := 0xD0300
/-- BLT_GATE_CFG.POL [0:0] RWL. -/
abbrev BLT_GATE_CFG.POL : Fld := ⟨BLT_GATE_CFG.reg, 0, 1⟩
/-- Offset of BLT_BELTk_CFG (08_belt_timing_and_belt_frame.md). -/
def BLT_BELT_CFG.reg (k : Nat) : Nat := 0xD0400 + 0x40 * (k % 8)
/-- BLT_BELTk_CFG.EN [31:31] RWL. -/
abbrev BLT_BELT_CFG.EN (k : Nat) : Fld := ⟨(BLT_BELT_CFG.reg k), 31, 1⟩
/-- BLT_BELTk_CFG.ENC_IN [30:28] RWL. -/
abbrev BLT_BELT_CFG.ENC_IN (k : Nat) : Fld := ⟨(BLT_BELT_CFG.reg k), 28, 3⟩
/-- BLT_BELTk_CFG.DIR_EN [27:27] RWL. -/
abbrev BLT_BELT_CFG.DIR_EN (k : Nat) : Fld := ⟨(BLT_BELT_CFG.reg k), 27, 1⟩
/-- BLT_BELTk_CFG.DIR_IN [26:24] RWL. -/
abbrev BLT_BELT_CFG.DIR_IN (k : Nat) : Fld := ⟨(BLT_BELT_CFG.reg k), 24, 3⟩
/-- BLT_BELTk_CFG.INDEX_EN [23:23] RWL. -/
abbrev BLT_BELT_CFG.INDEX_EN (k : Nat) : Fld := ⟨(BLT_BELT_CFG.reg k), 23, 1⟩
/-- BLT_BELTk_CFG.INDEX_IN [22:20] RWL. -/
abbrev BLT_BELT_CFG.INDEX_IN (k : Nat) : Fld := ⟨(BLT_BELT_CFG.reg k), 20, 3⟩
/-- BLT_BELTk_CFG.SLIP_EN [19:19] RWL. -/
abbrev BLT_BELT_CFG.SLIP_EN (k : Nat) : Fld := ⟨(BLT_BELT_CFG.reg k), 19, 1⟩
/-- BLT_BELTk_CFG.DRIVE_IN [18:16] RWL. -/
abbrev BLT_BELT_CFG.DRIVE_IN (k : Nat) : Fld := ⟨(BLT_BELT_CFG.reg k), 16, 3⟩
/-- BLT_BELTk_CFG.TAIL_IN [14:12] RWL. -/
abbrev BLT_BELT_CFG.TAIL_IN (k : Nat) : Fld := ⟨(BLT_BELT_CFG.reg k), 12, 3⟩
/-- Offset of BLT_BELTk_LEN (08_belt_timing_and_belt_frame.md). -/
def BLT_BELT_LEN.reg (k : Nat) : Nat := 0xD0404 + 0x40 * (k % 8)
/-- BLT_BELTk_LEN.BELT_LEN [31:0] RWL. -/
abbrev BLT_BELT_LEN.BELT_LEN (k : Nat) : Fld := ⟨(BLT_BELT_LEN.reg k), 0, 32⟩
/-- Offset of BLT_BELTk_CPM (08_belt_timing_and_belt_frame.md). -/
def BLT_BELT_CPM.reg (k : Nat) : Nat := 0xD0408 + 0x40 * (k % 8)
/-- BLT_BELTk_CPM.CPM [31:0] RWL. -/
abbrev BLT_BELT_CPM.CPM (k : Nat) : Fld := ⟨(BLT_BELT_CPM.reg k), 0, 32⟩
/-- Offset of BLT_BELTk_MAP (08_belt_timing_and_belt_frame.md). -/
def BLT_BELT_MAP.reg (k : Nat) : Nat := 0xD040C + 0x40 * (k % 8)
/-- BLT_BELTk_MAP.CELLS_M1 [31:16] RWL. -/
abbrev BLT_BELT_MAP.CELLS_M1 (k : Nat) : Fld := ⟨(BLT_BELT_MAP.reg k), 16, 16⟩
/-- BLT_BELTk_MAP.MAP_REVS [15:8] RWL. -/
abbrev BLT_BELT_MAP.MAP_REVS (k : Nat) : Fld := ⟨(BLT_BELT_MAP.reg k), 8, 8⟩
/-- BLT_BELTk_MAP.MIN_HITS [7:0] RWL. -/
abbrev BLT_BELT_MAP.MIN_HITS (k : Nat) : Fld := ⟨(BLT_BELT_MAP.reg k), 0, 8⟩
/-- Offset of BLT_BELTk_EVT (08_belt_timing_and_belt_frame.md). -/
def BLT_BELT_EVT.reg (k : Nat) : Nat := 0xD0410 + 0x40 * (k % 8)
/-- BLT_BELTk_EVT.MAP_MAX_S [31:16] RWL. -/
abbrev BLT_BELT_EVT.MAP_MAX_S (k : Nat) : Fld := ⟨(BLT_BELT_EVT.reg k), 16, 16⟩
/-- BLT_BELTk_EVT.RATIO [15:8] RWL. -/
abbrev BLT_BELT_EVT.RATIO (k : Nat) : Fld := ⟨(BLT_BELT_EVT.reg k), 8, 8⟩
/-- Offset of BLT_BELTk_SLIP_CFG (08_belt_timing_and_belt_frame.md). -/
def BLT_BELT_SLIP_CFG.reg (k : Nat) : Nat := 0xD0414 + 0x40 * (k % 8)
/-- BLT_BELTk_SLIP_CFG.SLIP_LIMIT [31:16] RWL. -/
abbrev BLT_BELT_SLIP_CFG.SLIP_LIMIT (k : Nat) : Fld := ⟨(BLT_BELT_SLIP_CFG.reg k), 16, 16⟩
/-- BLT_BELTk_SLIP_CFG.SLIP_GATES [15:8] RWL. -/
abbrev BLT_BELT_SLIP_CFG.SLIP_GATES (k : Nat) : Fld := ⟨(BLT_BELT_SLIP_CFG.reg k), 8, 8⟩
/-- Offset of BLT_BELTk_DRIVE_CPM (08_belt_timing_and_belt_frame.md). -/
def BLT_BELT_DRIVE_CPM.reg (k : Nat) : Nat := 0xD0418 + 0x40 * (k % 8)
/-- BLT_BELTk_DRIVE_CPM.VALUE [31:0] RWL. -/
abbrev BLT_BELT_DRIVE_CPM.VALUE (k : Nat) : Fld := ⟨(BLT_BELT_DRIVE_CPM.reg k), 0, 32⟩
/-- Offset of BLT_BELTk_TAIL_CPM (08_belt_timing_and_belt_frame.md). -/
def BLT_BELT_TAIL_CPM.reg (k : Nat) : Nat := 0xD041C + 0x40 * (k % 8)
/-- BLT_BELTk_TAIL_CPM.VALUE [31:0] RWL. -/
abbrev BLT_BELT_TAIL_CPM.VALUE (k : Nat) : Fld := ⟨(BLT_BELT_TAIL_CPM.reg k), 0, 32⟩
/-- Offset of BLT_BELTk_POS_LO (08_belt_timing_and_belt_frame.md). -/
def BLT_BELT_POS_LO.reg (k : Nat) : Nat := 0xD0420 + 0x40 * (k % 8)
/-- BLT_BELTk_POS_LO.VALUE [31:0] RO. -/
abbrev BLT_BELT_POS_LO.VALUE (k : Nat) : Fld := ⟨(BLT_BELT_POS_LO.reg k), 0, 32⟩
/-- Offset of BLT_BELTk_POS_HI (08_belt_timing_and_belt_frame.md). -/
def BLT_BELT_POS_HI.reg (k : Nat) : Nat := 0xD0424 + 0x40 * (k % 8)
/-- BLT_BELTk_POS_HI.VALUE [31:0] RO. -/
abbrev BLT_BELT_POS_HI.VALUE (k : Nat) : Fld := ⟨(BLT_BELT_POS_HI.reg k), 0, 32⟩
/-- Offset of BLT_BELTk_SPEED (08_belt_timing_and_belt_frame.md). -/
def BLT_BELT_SPEED.reg (k : Nat) : Nat := 0xD0428 + 0x40 * (k % 8)
/-- BLT_BELTk_SPEED.VALUE [31:0] RO. -/
abbrev BLT_BELT_SPEED.VALUE (k : Nat) : Fld := ⟨(BLT_BELT_SPEED.reg k), 0, 32⟩
/-- Offset of BLT_BELTk_STATUS (08_belt_timing_and_belt_frame.md). -/
def BLT_BELT_STATUS.reg (k : Nat) : Nat := 0xD042C + 0x40 * (k % 8)
/-- BLT_BELTk_STATUS.DEFINED [31:31] RO. -/
abbrev BLT_BELT_STATUS.DEFINED (k : Nat) : Fld := ⟨(BLT_BELT_STATUS.reg k), 31, 1⟩
/-- BLT_BELTk_STATUS.SPEED_VALID [30:30] RO. -/
abbrev BLT_BELT_STATUS.SPEED_VALID (k : Nat) : Fld := ⟨(BLT_BELT_STATUS.reg k), 30, 1⟩
/-- BLT_BELTk_STATUS.INDEX_MISSING [29:29] W1C. -/
abbrev BLT_BELT_STATUS.INDEX_MISSING (k : Nat) : Fld := ⟨(BLT_BELT_STATUS.reg k), 29, 1⟩
/-- BLT_BELTk_STATUS.LEN_MISMATCH [28:28] RO. -/
abbrev BLT_BELT_STATUS.LEN_MISMATCH (k : Nat) : Fld := ⟨(BLT_BELT_STATUS.reg k), 28, 1⟩
/-- BLT_BELTk_STATUS.FIXED_FULL [27:27] RO. -/
abbrev BLT_BELT_STATUS.FIXED_FULL (k : Nat) : Fld := ⟨(BLT_BELT_STATUS.reg k), 27, 1⟩
/-- BLT_BELTk_STATUS.SLIP_VALID [26:26] RO. -/
abbrev BLT_BELT_STATUS.SLIP_VALID (k : Nat) : Fld := ⟨(BLT_BELT_STATUS.reg k), 26, 1⟩
/-- BLT_BELTk_STATUS.SLIP_HIGH [25:25] RO. -/
abbrev BLT_BELT_STATUS.SLIP_HIGH (k : Nat) : Fld := ⟨(BLT_BELT_STATUS.reg k), 25, 1⟩
/-- BLT_BELTk_STATUS.SLIP [15:0] RO. -/
abbrev BLT_BELT_STATUS.SLIP (k : Nat) : Fld := ⟨(BLT_BELT_STATUS.reg k), 0, 16⟩
/-- Offset of BLT_BELTk_LEN_MEAS (08_belt_timing_and_belt_frame.md). -/
def BLT_BELT_LEN_MEAS.reg (k : Nat) : Nat := 0xD0430 + 0x40 * (k % 8)
/-- BLT_BELTk_LEN_MEAS.VALUE [31:0] RO. -/
abbrev BLT_BELT_LEN_MEAS.VALUE (k : Nat) : Fld := ⟨(BLT_BELT_LEN_MEAS.reg k), 0, 32⟩
/-- Offset of BLT_BELTk_EVENT (08_belt_timing_and_belt_frame.md). -/
def BLT_BELT_EVENT.reg (k : Nat) : Nat := 0xD0434 + 0x40 * (k % 8)
/-- BLT_BELTk_EVENT.BELT_CELLS [31:16] RO. -/
abbrev BLT_BELT_EVENT.BELT_CELLS (k : Nat) : Fld := ⟨(BLT_BELT_EVENT.reg k), 16, 16⟩
/-- BLT_BELTk_EVENT.FIXED_CELLS [15:0] RO. -/
abbrev BLT_BELT_EVENT.FIXED_CELLS (k : Nat) : Fld := ⟨(BLT_BELT_EVENT.reg k), 0, 16⟩
/-- Offset of BLT_BELTk_MAP_COUNT (08_belt_timing_and_belt_frame.md). -/
def BLT_BELT_MAP_COUNT.reg (k : Nat) : Nat := 0xD0438 + 0x40 * (k % 8)
/-- BLT_BELTk_MAP_COUNT.VALUE [31:0] RO. -/
abbrev BLT_BELT_MAP_COUNT.VALUE (k : Nat) : Fld := ⟨(BLT_BELT_MAP_COUNT.reg k), 0, 32⟩
/-- Offset of BLT_BELTk_SLIP_EVENT_COUNT (08_belt_timing_and_belt_frame.md). -/
def BLT_BELT_SLIP_EVENT_COUNT.reg (k : Nat) : Nat := 0xD043C + 0x40 * (k % 8)
/-- BLT_BELTk_SLIP_EVENT_COUNT.VALUE [31:0] RO. -/
abbrev BLT_BELT_SLIP_EVENT_COUNT.VALUE (k : Nat) : Fld := ⟨(BLT_BELT_SLIP_EVENT_COUNT.reg k), 0, 32⟩
/-- Offset of BLT_CFG (08_belt_timing_and_belt_frame.md). -/
def BLT_CFG.reg : Nat := 0xD0800
/-- BLT_CFG.EN [31:31] RWL. -/
abbrev BLT_CFG.EN : Fld := ⟨BLT_CFG.reg, 31, 1⟩
/-- BLT_CFG.FRAME_DECIM_M1 [7:0] RWL. -/
abbrev BLT_CFG.FRAME_DECIM_M1 : Fld := ⟨BLT_CFG.reg, 0, 8⟩
/-- Offset of BLT_REGION (08_belt_timing_and_belt_frame.md). -/
def BLT_REGION.reg : Nat := 0xD0804
/-- BLT_REGION.BASE_MIB [12:0] RWL. -/
abbrev BLT_REGION.BASE_MIB : Fld := ⟨BLT_REGION.reg, 0, 13⟩
/-- Offset of BLT_STATUS (08_belt_timing_and_belt_frame.md). -/
def BLT_STATUS.reg : Nat := 0xD0808
/-- BLT_STATUS.FAILED [31:31] RO. -/
abbrev BLT_STATUS.FAILED : Fld := ⟨BLT_STATUS.reg, 31, 1⟩
/-- BLT_STATUS.ROUTE_IGNORED [8:0] RO. -/
abbrev BLT_STATUS.ROUTE_IGNORED : Fld := ⟨BLT_STATUS.reg, 0, 9⟩
/-- Offset of BLT_BIN_RATE (08_belt_timing_and_belt_frame.md). -/
def BLT_BIN_RATE.reg : Nat := 0xD080C
/-- BLT_BIN_RATE.VALUE [31:0] RO. -/
abbrev BLT_BIN_RATE.VALUE : Fld := ⟨BLT_BIN_RATE.reg, 0, 32⟩
/-- Offset of BLT_EXCLUDED_COUNT (08_belt_timing_and_belt_frame.md). -/
def BLT_EXCLUDED_COUNT.reg : Nat := 0xD0810
/-- BLT_EXCLUDED_COUNT.VALUE [31:0] RO. -/
abbrev BLT_EXCLUDED_COUNT.VALUE : Fld := ⟨BLT_EXCLUDED_COUNT.reg, 0, 32⟩
/-- Offset of BLT_DROP_OVERRUN_COUNT (08_belt_timing_and_belt_frame.md). -/
def BLT_DROP_OVERRUN_COUNT.reg : Nat := 0xD0814
/-- BLT_DROP_OVERRUN_COUNT.VALUE [31:0] RO. -/
abbrev BLT_DROP_OVERRUN_COUNT.VALUE : Fld := ⟨BLT_DROP_OVERRUN_COUNT.reg, 0, 32⟩
/-- Offset of BLT_DROP_FAILED_COUNT (08_belt_timing_and_belt_frame.md). -/
def BLT_DROP_FAILED_COUNT.reg : Nat := 0xD0818
/-- BLT_DROP_FAILED_COUNT.VALUE [31:0] RO. -/
abbrev BLT_DROP_FAILED_COUNT.VALUE : Fld := ⟨BLT_DROP_FAILED_COUNT.reg, 0, 32⟩
/-- Offset of BLT_ROUTEr_A (08_belt_timing_and_belt_frame.md). -/
def BLT_ROUTE_A.reg (r : Nat) : Nat := 0xD1000 + 0x10 * (r % 256)
/-- BLT_ROUTEr_A.EN [31:31] RWL. -/
abbrev BLT_ROUTE_A.EN (r : Nat) : Fld := ⟨(BLT_ROUTE_A.reg r), 31, 1⟩
/-- BLT_ROUTEr_A.BELT [30:28] RWL. -/
abbrev BLT_ROUTE_A.BELT (r : Nat) : Fld := ⟨(BLT_ROUTE_A.reg r), 28, 3⟩
/-- BLT_ROUTEr_A.PORT [27:24] RWL. -/
abbrev BLT_ROUTE_A.PORT (r : Nat) : Fld := ⟨(BLT_ROUTE_A.reg r), 24, 4⟩
/-- BLT_ROUTEr_A.SIGN [23:23] RWL. -/
abbrev BLT_ROUTE_A.SIGN (r : Nat) : Fld := ⟨(BLT_ROUTE_A.reg r), 23, 1⟩
/-- BLT_ROUTEr_A.RATIO [16:0] RWL. -/
abbrev BLT_ROUTE_A.RATIO (r : Nat) : Fld := ⟨(BLT_ROUTE_A.reg r), 0, 17⟩
/-- Offset of BLT_ROUTEr_B (08_belt_timing_and_belt_frame.md). -/
def BLT_ROUTE_B.reg (r : Nat) : Nat := 0xD1004 + 0x10 * (r % 256)
/-- BLT_ROUTEr_B.LAST_BIN [31:16] RWL. -/
abbrev BLT_ROUTE_B.LAST_BIN (r : Nat) : Fld := ⟨(BLT_ROUTE_B.reg r), 16, 16⟩
/-- BLT_ROUTEr_B.FIRST_BIN [15:0] RWL. -/
abbrev BLT_ROUTE_B.FIRST_BIN (r : Nat) : Fld := ⟨(BLT_ROUTE_B.reg r), 0, 16⟩
/-- Offset of BLT_ROUTEr_C (08_belt_timing_and_belt_frame.md). -/
def BLT_ROUTE_C.reg (r : Nat) : Nat := 0xD1008 + 0x10 * (r % 256)
/-- BLT_ROUTEr_C.X0_MM [31:0] RWL. -/
abbrev BLT_ROUTE_C.X0_MM (r : Nat) : Fld := ⟨(BLT_ROUTE_C.reg r), 0, 32⟩
/-- Offset of TRGu_CFG (09_trigger_and_capture.md). -/
def TRGU_CFG.reg (u : Nat) : Nat := 0xE0000 + 0x40 * (u % 16)
/-- TRGu_CFG.EN [31:31] RWL. -/
abbrev TRGU_CFG.EN (u : Nat) : Fld := ⟨(TRGU_CFG.reg u), 31, 1⟩
/-- TRGu_CFG.SINGLE [30:30] RWL. -/
abbrev TRGU_CFG.SINGLE (u : Nat) : Fld := ⟨(TRGU_CFG.reg u), 30, 1⟩
/-- TRGu_CFG.ARM_AT_START [29:29] RWL. -/
abbrev TRGU_CFG.ARM_AT_START (u : Nat) : Fld := ⟨(TRGU_CFG.reg u), 29, 1⟩
/-- TRGu_CFG.PRIME_AT_ARM [28:28] RWL. -/
abbrev TRGU_CFG.PRIME_AT_ARM (u : Nat) : Fld := ⟨(TRGU_CFG.reg u), 28, 1⟩
/-- TRGu_CFG.FALLING [27:27] RWL. -/
abbrev TRGU_CFG.FALLING (u : Nat) : Fld := ⟨(TRGU_CFG.reg u), 27, 1⟩
/-- TRGu_CFG.CAP_EN [26:26] RWL. -/
abbrev TRGU_CFG.CAP_EN (u : Nat) : Fld := ⟨(TRGU_CFG.reg u), 26, 1⟩
/-- TRGu_CFG.INHIBIT [25:24] RWL. -/
abbrev TRGU_CFG.INHIBIT (u : Nat) : Fld := ⟨(TRGU_CFG.reg u), 24, 2⟩
/-- TRGu_CFG.CAP_REGION [23:22] RWL. -/
abbrev TRGU_CFG.CAP_REGION (u : Nat) : Fld := ⟨(TRGU_CFG.reg u), 22, 2⟩
/-- TRGu_CFG.DATA_SRC [21:21] RWL. -/
abbrev TRGU_CFG.DATA_SRC (u : Nat) : Fld := ⟨(TRGU_CFG.reg u), 21, 1⟩
/-- Offset of TRGu_SRC (09_trigger_and_capture.md). -/
def TRGU_SRC.reg (u : Nat) : Nat := 0xE0004 + 0x40 * (u % 16)
/-- TRGu_SRC.KIND [31:29] RWL. -/
abbrev TRGU_SRC.KIND (u : Nat) : Fld := ⟨(TRGU_SRC.reg u), 29, 3⟩
/-- TRGu_SRC.INDEX [23:20] RWL. -/
abbrev TRGU_SRC.INDEX (u : Nat) : Fld := ⟨(TRGU_SRC.reg u), 20, 4⟩
/-- TRGu_SRC.PARAM [15:0] RWL. -/
abbrev TRGU_SRC.PARAM (u : Nat) : Fld := ⟨(TRGU_SRC.reg u), 0, 16⟩
/-- Offset of TRGu_SRC_RANGE (09_trigger_and_capture.md). -/
def TRGU_SRC_RANGE.reg (u : Nat) : Nat := 0xE0008 + 0x40 * (u % 16)
/-- TRGu_SRC_RANGE.FIRST [31:16] RWL. -/
abbrev TRGU_SRC_RANGE.FIRST (u : Nat) : Fld := ⟨(TRGU_SRC_RANGE.reg u), 16, 16⟩
/-- TRGu_SRC_RANGE.COUNT [15:0] RWL. -/
abbrev TRGU_SRC_RANGE.COUNT (u : Nat) : Fld := ⟨(TRGU_SRC_RANGE.reg u), 0, 16⟩
/-- Offset of TRGu_LEVEL (09_trigger_and_capture.md). -/
def TRGU_LEVEL.reg (u : Nat) : Nat := 0xE000C + 0x40 * (u % 16)
/-- TRGu_LEVEL.LEVEL [31:0] RWL. -/
abbrev TRGU_LEVEL.LEVEL (u : Nat) : Fld := ⟨(TRGU_LEVEL.reg u), 0, 32⟩
/-- Offset of TRGu_HYST (09_trigger_and_capture.md). -/
def TRGU_HYST.reg (u : Nat) : Nat := 0xE0010 + 0x40 * (u % 16)
/-- TRGu_HYST.HYST [31:0] RWL. -/
abbrev TRGU_HYST.HYST (u : Nat) : Fld := ⟨(TRGU_HYST.reg u), 0, 32⟩
/-- Offset of TRGu_CAP_WIN (09_trigger_and_capture.md). -/
def TRGU_CAP_WIN.reg (u : Nat) : Nat := 0xE0014 + 0x40 * (u % 16)
/-- TRGu_CAP_WIN.PORT [31:28] RWL. -/
abbrev TRGU_CAP_WIN.PORT (u : Nat) : Fld := ⟨(TRGU_CAP_WIN.reg u), 28, 4⟩
/-- TRGu_CAP_WIN.BIN_COUNT_M1 [27:16] RWL. -/
abbrev TRGU_CAP_WIN.BIN_COUNT_M1 (u : Nat) : Fld := ⟨(TRGU_CAP_WIN.reg u), 16, 12⟩
/-- TRGu_CAP_WIN.FIRST_BIN [15:0] RWL. -/
abbrev TRGU_CAP_WIN.FIRST_BIN (u : Nat) : Fld := ⟨(TRGU_CAP_WIN.reg u), 0, 16⟩
/-- Offset of TRGu_CAP_LEN (09_trigger_and_capture.md). -/
def TRGU_CAP_LEN.reg (u : Nat) : Nat := 0xE0018 + 0x40 * (u % 16)
/-- TRGu_CAP_LEN.POST [31:16] RWL. -/
abbrev TRGU_CAP_LEN.POST (u : Nat) : Fld := ⟨(TRGU_CAP_LEN.reg u), 16, 16⟩
/-- TRGu_CAP_LEN.PRE [15:0] RWL. -/
abbrev TRGU_CAP_LEN.PRE (u : Nat) : Fld := ⟨(TRGU_CAP_LEN.reg u), 0, 16⟩
/-- Offset of TRGu_CAP_FMT (09_trigger_and_capture.md). -/
def TRGU_CAP_FMT.reg (u : Nat) : Nat := 0xE001C + 0x40 * (u % 16)
/-- TRGu_CAP_FMT.INTERVAL_M1 [15:8] RWL. -/
abbrev TRGU_CAP_FMT.INTERVAL_M1 (u : Nat) : Fld := ⟨(TRGU_CAP_FMT.reg u), 8, 8⟩
/-- TRGu_CAP_FMT.QUAL [4:4] RWL. -/
abbrev TRGU_CAP_FMT.QUAL (u : Nat) : Fld := ⟨(TRGU_CAP_FMT.reg u), 4, 1⟩
/-- TRGu_CAP_FMT.RMS [3:3] RWL. -/
abbrev TRGU_CAP_FMT.RMS (u : Nat) : Fld := ⟨(TRGU_CAP_FMT.reg u), 3, 1⟩
/-- TRGu_CAP_FMT.MEAN [2:2] RWL. -/
abbrev TRGU_CAP_FMT.MEAN (u : Nat) : Fld := ⟨(TRGU_CAP_FMT.reg u), 2, 1⟩
/-- TRGu_CAP_FMT.MINMAX [1:1] RWL. -/
abbrev TRGU_CAP_FMT.MINMAX (u : Nat) : Fld := ⟨(TRGU_CAP_FMT.reg u), 1, 1⟩
/-- Offset of TRGu_MEAS (09_trigger_and_capture.md). -/
def TRGU_MEAS.reg (u : Nat) : Nat := 0xE0020 + 0x40 * (u % 16)
/-- TRGu_MEAS.AUTO [31:31] RWL. -/
abbrev TRGU_MEAS.AUTO (u : Nat) : Fld := ⟨(TRGU_MEAS.reg u), 31, 1⟩
/-- TRGu_MEAS.MEAS_OFFSET [11:0] RWL. -/
abbrev TRGU_MEAS.MEAS_OFFSET (u : Nat) : Fld := ⟨(TRGU_MEAS.reg u), 0, 12⟩
/-- Offset of TRGu_STATUS (09_trigger_and_capture.md). -/
def TRGU_STATUS.reg (u : Nat) : Nat := 0xE0024 + 0x40 * (u % 16)
/-- TRGu_STATUS.STATE [31:29] RO. -/
abbrev TRGU_STATUS.STATE (u : Nat) : Fld := ⟨(TRGU_STATUS.reg u), 29, 3⟩
/-- TRGu_STATUS.INHIBITED [28:28] RO. -/
abbrev TRGU_STATUS.INHIBITED (u : Nat) : Fld := ⟨(TRGU_STATUS.reg u), 28, 1⟩
/-- TRGu_STATUS.PRIMED [27:27] RO. -/
abbrev TRGU_STATUS.PRIMED (u : Nat) : Fld := ⟨(TRGU_STATUS.reg u), 27, 1⟩
/-- TRGu_STATUS.SRC_INVALID [26:26] RO. -/
abbrev TRGU_STATUS.SRC_INVALID (u : Nat) : Fld := ⟨(TRGU_STATUS.reg u), 26, 1⟩
/-- Offset of TRGu_CAP_PLAN (09_trigger_and_capture.md). -/
def TRGU_CAP_PLAN.reg (u : Nat) : Nat := 0xE0028 + 0x40 * (u % 16)
/-- TRGu_CAP_PLAN.POST_EFF [31:16] RO. -/
abbrev TRGU_CAP_PLAN.POST_EFF (u : Nat) : Fld := ⟨(TRGU_CAP_PLAN.reg u), 16, 16⟩
/-- TRGu_CAP_PLAN.PRE_EFF [15:0] RO. -/
abbrev TRGU_CAP_PLAN.PRE_EFF (u : Nat) : Fld := ⟨(TRGU_CAP_PLAN.reg u), 0, 16⟩
/-- Offset of TRGu_CAP_CAPACITY (09_trigger_and_capture.md). -/
def TRGU_CAP_CAPACITY.reg (u : Nat) : Nat := 0xE002C + 0x40 * (u % 16)
/-- TRGu_CAP_CAPACITY.C [31:0] RO. -/
abbrev TRGU_CAP_CAPACITY.C (u : Nat) : Fld := ⟨(TRGU_CAP_CAPACITY.reg u), 0, 32⟩
/-- Offset of TRGu_LAST_VALUE (09_trigger_and_capture.md). -/
def TRGU_LAST_VALUE.reg (u : Nat) : Nat := 0xE0030 + 0x40 * (u % 16)
/-- TRGu_LAST_VALUE.VALUE [31:0] RO. -/
abbrev TRGU_LAST_VALUE.VALUE (u : Nat) : Fld := ⟨(TRGU_LAST_VALUE.reg u), 0, 32⟩
/-- Offset of TRGu_FIRE_COUNT (09_trigger_and_capture.md). -/
def TRGU_FIRE_COUNT.reg (u : Nat) : Nat := 0xE0034 + 0x40 * (u % 16)
/-- TRGu_FIRE_COUNT.VALUE [31:0] RO. -/
abbrev TRGU_FIRE_COUNT.VALUE (u : Nat) : Fld := ⟨(TRGU_FIRE_COUNT.reg u), 0, 32⟩
/-- Offset of TRGu_MISSED_COUNT (09_trigger_and_capture.md). -/
def TRGU_MISSED_COUNT.reg (u : Nat) : Nat := 0xE0038 + 0x40 * (u % 16)
/-- TRGu_MISSED_COUNT.VALUE [31:0] RO. -/
abbrev TRGU_MISSED_COUNT.VALUE (u : Nat) : Fld := ⟨(TRGU_MISSED_COUNT.reg u), 0, 32⟩
/-- Offset of TRGu_INHIBIT_COUNT (09_trigger_and_capture.md). -/
def TRGU_INHIBIT_COUNT.reg (u : Nat) : Nat := 0xE003C + 0x40 * (u % 16)
/-- TRGu_INHIBIT_COUNT.VALUE [31:0] RO. -/
abbrev TRGU_INHIBIT_COUNT.VALUE (u : Nat) : Fld := ⟨(TRGU_INHIBIT_COUNT.reg u), 0, 32⟩
/-- Offset of TRG_CREGr_BASE (09_trigger_and_capture.md). -/
def TRG_CREG_BASE.reg (r : Nat) : Nat := 0xE0400 + 0x20 * (r % 4)
/-- TRG_CREGr_BASE.BASE_MIB [12:0] RWL. -/
abbrev TRG_CREG_BASE.BASE_MIB (r : Nat) : Fld := ⟨(TRG_CREG_BASE.reg r), 0, 13⟩
/-- Offset of TRG_CREGr_SIZE (09_trigger_and_capture.md). -/
def TRG_CREG_SIZE.reg (r : Nat) : Nat := 0xE0404 + 0x20 * (r % 4)
/-- TRG_CREGr_SIZE.SIZE_MIB [10:0] RWL. -/
abbrev TRG_CREG_SIZE.SIZE_MIB (r : Nat) : Fld := ⟨(TRG_CREG_SIZE.reg r), 0, 11⟩
/-- Offset of TRG_CREGr_DROP_COUNT (09_trigger_and_capture.md). -/
def TRG_CREG_DROP_COUNT.reg (r : Nat) : Nat := 0xE0408 + 0x20 * (r % 4)
/-- TRG_CREGr_DROP_COUNT.VALUE [31:0] RO. -/
abbrev TRG_CREG_DROP_COUNT.VALUE (r : Nat) : Fld := ⟨(TRG_CREG_DROP_COUNT.reg r), 0, 32⟩
/-- Offset of TRG_CREGr_LOST_COUNT (09_trigger_and_capture.md). -/
def TRG_CREG_LOST_COUNT.reg (r : Nat) : Nat := 0xE040C + 0x20 * (r % 4)
/-- TRG_CREGr_LOST_COUNT.VALUE [31:0] RO. -/
abbrev TRG_CREG_LOST_COUNT.VALUE (r : Nat) : Fld := ⟨(TRG_CREG_LOST_COUNT.reg r), 0, 32⟩
/-- Offset of TRG_CREGr_ABORT_COUNT (09_trigger_and_capture.md). -/
def TRG_CREG_ABORT_COUNT.reg (r : Nat) : Nat := 0xE0410 + 0x20 * (r % 4)
/-- TRG_CREGr_ABORT_COUNT.VALUE [31:0] RO. -/
abbrev TRG_CREG_ABORT_COUNT.VALUE (r : Nat) : Fld := ⟨(TRG_CREG_ABORT_COUNT.reg r), 0, 32⟩
/-- Offset of TRG_DOUTk_CFG (09_trigger_and_capture.md). -/
def TRG_DOUT_CFG.reg (k : Nat) : Nat := 0xE0500 + 0x10 * (k % 4)
/-- TRG_DOUTk_CFG.EN [31:31] RWL. -/
abbrev TRG_DOUT_CFG.EN (k : Nat) : Fld := ⟨(TRG_DOUT_CFG.reg k), 31, 1⟩
/-- TRG_DOUTk_CFG.POL [30:30] RWL. -/
abbrev TRG_DOUT_CFG.POL (k : Nat) : Fld := ⟨(TRG_DOUT_CFG.reg k), 30, 1⟩
/-- TRG_DOUTk_CFG.LATCH [29:29] RWL. -/
abbrev TRG_DOUT_CFG.LATCH (k : Nat) : Fld := ⟨(TRG_DOUT_CFG.reg k), 29, 1⟩
/-- TRG_DOUTk_CFG.SAF_EN [28:28] RWL. -/
abbrev TRG_DOUT_CFG.SAF_EN (k : Nat) : Fld := ⟨(TRG_DOUT_CFG.reg k), 28, 1⟩
/-- TRG_DOUTk_CFG.UNIT_MASK [15:0] RWL. -/
abbrev TRG_DOUT_CFG.UNIT_MASK (k : Nat) : Fld := ⟨(TRG_DOUT_CFG.reg k), 0, 16⟩
/-- Offset of TRG_DOUTk_HOLD (09_trigger_and_capture.md). -/
def TRG_DOUT_HOLD.reg (k : Nat) : Nat := 0xE0504 + 0x10 * (k % 4)
/-- TRG_DOUTk_HOLD.HOLD_MS [15:0] RWL. -/
abbrev TRG_DOUT_HOLD.HOLD_MS (k : Nat) : Fld := ⟨(TRG_DOUT_HOLD.reg k), 0, 16⟩
/-- Offset of TRG_DOUTk_STATUS (09_trigger_and_capture.md). -/
def TRG_DOUT_STATUS.reg (k : Nat) : Nat := 0xE0508 + 0x10 * (k % 4)
/-- TRG_DOUTk_STATUS.ACTIVE [31:31] RO. -/
abbrev TRG_DOUT_STATUS.ACTIVE (k : Nat) : Fld := ⟨(TRG_DOUT_STATUS.reg k), 31, 1⟩
/-- TRG_DOUTk_STATUS.BY_UNIT [30:30] RO. -/
abbrev TRG_DOUT_STATUS.BY_UNIT (k : Nat) : Fld := ⟨(TRG_DOUT_STATUS.reg k), 30, 1⟩
/-- TRG_DOUTk_STATUS.BY_SAF [29:29] RO. -/
abbrev TRG_DOUT_STATUS.BY_SAF (k : Nat) : Fld := ⟨(TRG_DOUT_STATUS.reg k), 29, 1⟩
/-- TRG_DOUTk_STATUS.BY_CMD [28:28] RO. -/
abbrev TRG_DOUT_STATUS.BY_CMD (k : Nat) : Fld := ⟨(TRG_DOUT_STATUS.reg k), 28, 1⟩
/-- TRG_DOUTk_STATUS.LATCHED [27:27] W1C. -/
abbrev TRG_DOUT_STATUS.LATCHED (k : Nat) : Fld := ⟨(TRG_DOUT_STATUS.reg k), 27, 1⟩
/-- Offset of TRG_TSn_CFG (09_trigger_and_capture.md). -/
def TRG_TS_CFG.reg (n : Nat) : Nat := 0xE0600 + 0x4 * (n % 12)
/-- TRG_TSn_CFG.EN [31:31] RWL. -/
abbrev TRG_TS_CFG.EN (n : Nat) : Fld := ⟨(TRG_TS_CFG.reg n), 31, 1⟩
/-- TRG_TSn_CFG.OUT_EN [30:30] RWL. -/
abbrev TRG_TS_CFG.OUT_EN (n : Nat) : Fld := ⟨(TRG_TS_CFG.reg n), 30, 1⟩
/-- TRG_TSn_CFG.BLOCK_LOG2 [3:0] RWL. -/
abbrev TRG_TS_CFG.BLOCK_LOG2 (n : Nat) : Fld := ⟨(TRG_TS_CFG.reg n), 0, 4⟩
/-- Offset of TRG_STATUS (09_trigger_and_capture.md). -/
def TRG_STATUS.reg : Nat := 0xE0700
/-- TRG_STATUS.CAP_FAILED [31:31] RO. -/
abbrev TRG_STATUS.CAP_FAILED : Fld := ⟨TRG_STATUS.reg, 31, 1⟩
/-- Offset of FLT_PORTn_CFG (06_temporal_filter_chain.md). -/
def FLT_PORT_CFG.reg (n : Nat) : Nat := 0x100000 + 0x40 * (n % 12)
/-- FLT_PORTn_CFG.EN [31:31] RWL. -/
abbrev FLT_PORT_CFG.EN (n : Nat) : Fld := ⟨(FLT_PORT_CFG.reg n), 31, 1⟩
/-- FLT_PORTn_CFG.INTEG_EN [30:30] RWL. -/
abbrev FLT_PORT_CFG.INTEG_EN (n : Nat) : Fld := ⟨(FLT_PORT_CFG.reg n), 30, 1⟩
/-- FLT_PORTn_CFG.ZERO_ON_PLAN [29:29] RWL. -/
abbrev FLT_PORT_CFG.ZERO_ON_PLAN (n : Nat) : Fld := ⟨(FLT_PORT_CFG.reg n), 29, 1⟩
/-- FLT_PORTn_CFG.ALIGN_EN [28:28] RWL. -/
abbrev FLT_PORT_CFG.ALIGN_EN (n : Nat) : Fld := ⟨(FLT_PORT_CFG.reg n), 28, 1⟩
/-- FLT_PORTn_CFG.ALIGN_AUTO [27:27] RWL. -/
abbrev FLT_PORT_CFG.ALIGN_AUTO (n : Nat) : Fld := ⟨(FLT_PORT_CFG.reg n), 27, 1⟩
/-- FLT_PORTn_CFG.OUT_FORMAT [26:26] RWL. -/
abbrev FLT_PORT_CFG.OUT_FORMAT (n : Nat) : Fld := ⟨(FLT_PORT_CFG.reg n), 26, 1⟩
/-- FLT_PORTn_CFG.SET_KIND [25:25] RWL. -/
abbrev FLT_PORT_CFG.SET_KIND (n : Nat) : Fld := ⟨(FLT_PORT_CFG.reg n), 25, 1⟩
/-- FLT_PORTn_CFG.SET [20:16] RWL. -/
abbrev FLT_PORT_CFG.SET (n : Nat) : Fld := ⟨(FLT_PORT_CFG.reg n), 16, 5⟩
/-- FLT_PORTn_CFG.DECIM_LOG2 [10:8] RWL. -/
abbrev FLT_PORT_CFG.DECIM_LOG2 (n : Nat) : Fld := ⟨(FLT_PORT_CFG.reg n), 8, 3⟩
/-- FLT_PORTn_CFG.OUT_K [4:0] RWL. -/
abbrev FLT_PORT_CFG.OUT_K (n : Nat) : Fld := ⟨(FLT_PORT_CFG.reg n), 0, 5⟩
/-- Offset of FLT_PORTn_WINDOW (06_temporal_filter_chain.md). -/
def FLT_PORT_WINDOW.reg (n : Nat) : Nat := 0x100004 + 0x40 * (n % 12)
/-- FLT_PORTn_WINDOW.FIRST [31:16] RWL. -/
abbrev FLT_PORT_WINDOW.FIRST (n : Nat) : Fld := ⟨(FLT_PORT_WINDOW.reg n), 16, 16⟩
/-- FLT_PORTn_WINDOW.COUNT [15:0] RWL. -/
abbrev FLT_PORT_WINDOW.COUNT (n : Nat) : Fld := ⟨(FLT_PORT_WINDOW.reg n), 0, 16⟩
/-- Offset of FLT_PORTn_ALIGN (06_temporal_filter_chain.md). -/
def FLT_PORT_ALIGN.reg (n : Nat) : Nat := 0x100008 + 0x40 * (n % 12)
/-- FLT_PORTn_ALIGN.FRAC_USED [22:16] RO. -/
abbrev FLT_PORT_ALIGN.FRAC_USED (n : Nat) : Fld := ⟨(FLT_PORT_ALIGN.reg n), 16, 7⟩
/-- FLT_PORTn_ALIGN.FRAC [6:0] RWL. -/
abbrev FLT_PORT_ALIGN.FRAC (n : Nat) : Fld := ⟨(FLT_PORT_ALIGN.reg n), 0, 7⟩
/-- Offset of FLT_PORTn_GD (06_temporal_filter_chain.md). -/
def FLT_PORT_GD.reg (n : Nat) : Nat := 0x10000C + 0x40 * (n % 12)
/-- FLT_PORTn_GD.GD [23:0] RO. -/
abbrev FLT_PORT_GD.GD (n : Nat) : Fld := ⟨(FLT_PORT_GD.reg n), 0, 24⟩
/-- Offset of FLT_PORTn_SETTLE (06_temporal_filter_chain.md). -/
def FLT_PORT_SETTLE.reg (n : Nat) : Nat := 0x100010 + 0x40 * (n % 12)
/-- FLT_PORTn_SETTLE.LEFT [31:16] RO. -/
abbrev FLT_PORT_SETTLE.LEFT (n : Nat) : Fld := ⟨(FLT_PORT_SETTLE.reg n), 16, 16⟩
/-- FLT_PORTn_SETTLE.COUNT [15:0] RO. -/
abbrev FLT_PORT_SETTLE.COUNT (n : Nat) : Fld := ⟨(FLT_PORT_SETTLE.reg n), 0, 16⟩
/-- Offset of FLT_PORTn_STATUS (06_temporal_filter_chain.md). -/
def FLT_PORT_STATUS.reg (n : Nat) : Nat := 0x100014 + 0x40 * (n % 12)
/-- FLT_PORTn_STATUS.SETTLING [31:31] RO. -/
abbrev FLT_PORT_STATUS.SETTLING (n : Nat) : Fld := ⟨(FLT_PORT_STATUS.reg n), 31, 1⟩
/-- FLT_PORTn_STATUS.NONUNIFORM [30:30] RO. -/
abbrev FLT_PORT_STATUS.NONUNIFORM (n : Nat) : Fld := ⟨(FLT_PORT_STATUS.reg n), 30, 1⟩
/-- FLT_PORTn_STATUS.SOS_BYPASSED [29:29] RO. -/
abbrev FLT_PORT_STATUS.SOS_BYPASSED (n : Nat) : Fld := ⟨(FLT_PORT_STATUS.reg n), 29, 1⟩
/-- FLT_PORTn_STATUS.USER_INVALID [28:28] RO. -/
abbrev FLT_PORT_STATUS.USER_INVALID (n : Nat) : Fld := ⟨(FLT_PORT_STATUS.reg n), 28, 1⟩
/-- FLT_PORTn_STATUS.WRAPPED [27:27] RO. -/
abbrev FLT_PORT_STATUS.WRAPPED (n : Nat) : Fld := ⟨(FLT_PORT_STATUS.reg n), 27, 1⟩
/-- FLT_PORTn_STATUS.WINDOW_CUT [26:26] RO. -/
abbrev FLT_PORT_STATUS.WINDOW_CUT (n : Nat) : Fld := ⟨(FLT_PORT_STATUS.reg n), 26, 1⟩
/-- FLT_PORTn_STATUS.SAT_SEEN [25:25] W1C. -/
abbrev FLT_PORT_STATUS.SAT_SEEN (n : Nat) : Fld := ⟨(FLT_PORT_STATUS.reg n), 25, 1⟩
/-- Offset of FLT_PORTn_SAT_COUNT (06_temporal_filter_chain.md). -/
def FLT_PORT_SAT_COUNT.reg (n : Nat) : Nat := 0x100018 + 0x40 * (n % 12)
/-- FLT_PORTn_SAT_COUNT.COUNT [31:0] RO. -/
abbrev FLT_PORT_SAT_COUNT.COUNT (n : Nat) : Fld := ⟨(FLT_PORT_SAT_COUNT.reg n), 0, 32⟩
/-- Offset of FLT_PORTn_OUT_SAT_COUNT (06_temporal_filter_chain.md). -/
def FLT_PORT_OUT_SAT_COUNT.reg (n : Nat) : Nat := 0x10001C + 0x40 * (n % 12)
/-- FLT_PORTn_OUT_SAT_COUNT.COUNT [31:0] RO. -/
abbrev FLT_PORT_OUT_SAT_COUNT.COUNT (n : Nat) : Fld := ⟨(FLT_PORT_OUT_SAT_COUNT.reg n), 0, 32⟩
/-- Offset of FLT_PORTn_RESTART_COUNT (06_temporal_filter_chain.md). -/
def FLT_PORT_RESTART_COUNT.reg (n : Nat) : Nat := 0x100020 + 0x40 * (n % 12)
/-- FLT_PORTn_RESTART_COUNT.COUNT [31:0] RO. -/
abbrev FLT_PORT_RESTART_COUNT.COUNT (n : Nat) : Fld := ⟨(FLT_PORT_RESTART_COUNT.reg n), 0, 32⟩
/-- Offset of FLT_USERu_CTRL (06_temporal_filter_chain.md). -/
def FLT_USER_CTRL.reg (u : Nat) : Nat := 0x101000 + 0x100 * (u % 8)
/-- FLT_USERu_CTRL.REF_FREQ [31:16] RWL. -/
abbrev FLT_USER_CTRL.REF_FREQ (u : Nat) : Fld := ⟨(FLT_USER_CTRL.reg u), 16, 16⟩
/-- FLT_USERu_CTRL.SECTIONS [2:0] RWL. -/
abbrev FLT_USER_CTRL.SECTIONS (u : Nat) : Fld := ⟨(FLT_USER_CTRL.reg u), 0, 3⟩
/-- Offset of FLT_USERu_STATUS (06_temporal_filter_chain.md). -/
def FLT_USER_STATUS.reg (u : Nat) : Nat := 0x101004 + 0x100 * (u % 8)
/-- FLT_USERu_STATUS.VALID [31:31] RO. -/
abbrev FLT_USER_STATUS.VALID (u : Nat) : Fld := ⟨(FLT_USER_STATUS.reg u), 31, 1⟩
/-- FLT_USERu_STATUS.LEAD_DC_ZERO [30:30] RO. -/
abbrev FLT_USER_STATUS.LEAD_DC_ZERO (u : Nat) : Fld := ⟨(FLT_USER_STATUS.reg u), 30, 1⟩
/-- FLT_USERu_STATUS.BAD [29:24] RO. -/
abbrev FLT_USER_STATUS.BAD (u : Nat) : Fld := ⟨(FLT_USER_STATUS.reg u), 24, 6⟩
/-- FLT_USERu_STATUS.SETTLE [15:0] RO. -/
abbrev FLT_USER_STATUS.SETTLE (u : Nat) : Fld := ⟨(FLT_USER_STATUS.reg u), 0, 16⟩
/-- Offset of FLT_USERu_SECs_B0 (06_temporal_filter_chain.md). -/
def FLT_USER_SEC_B0.reg (u s : Nat) : Nat := 0x101020 + 0x100 * (u % 8) + 0x20 * (s % 6)
/-- FLT_USERu_SECs_B0.COEF [23:0] RWL. -/
abbrev FLT_USER_SEC_B0.COEF (u s : Nat) : Fld := ⟨(FLT_USER_SEC_B0.reg u s), 0, 24⟩
/-- Offset of FLT_USERu_SECs_B1 (06_temporal_filter_chain.md). -/
def FLT_USER_SEC_B1.reg (u s : Nat) : Nat := 0x101024 + 0x100 * (u % 8) + 0x20 * (s % 6)
/-- FLT_USERu_SECs_B1.COEF [23:0] RWL. -/
abbrev FLT_USER_SEC_B1.COEF (u s : Nat) : Fld := ⟨(FLT_USER_SEC_B1.reg u s), 0, 24⟩
/-- Offset of FLT_USERu_SECs_B2 (06_temporal_filter_chain.md). -/
def FLT_USER_SEC_B2.reg (u s : Nat) : Nat := 0x101028 + 0x100 * (u % 8) + 0x20 * (s % 6)
/-- FLT_USERu_SECs_B2.COEF [23:0] RWL. -/
abbrev FLT_USER_SEC_B2.COEF (u s : Nat) : Fld := ⟨(FLT_USER_SEC_B2.reg u s), 0, 24⟩
/-- Offset of FLT_USERu_SECs_A1 (06_temporal_filter_chain.md). -/
def FLT_USER_SEC_A1.reg (u s : Nat) : Nat := 0x10102C + 0x100 * (u % 8) + 0x20 * (s % 6)
/-- FLT_USERu_SECs_A1.COEF [23:0] RWL. -/
abbrev FLT_USER_SEC_A1.COEF (u s : Nat) : Fld := ⟨(FLT_USER_SEC_A1.reg u s), 0, 24⟩
/-- Offset of FLT_USERu_SECs_A2 (06_temporal_filter_chain.md). -/
def FLT_USER_SEC_A2.reg (u s : Nat) : Nat := 0x101030 + 0x100 * (u % 8) + 0x20 * (s % 6)
/-- FLT_USERu_SECs_A2.COEF [23:0] RWL. -/
abbrev FLT_USER_SEC_A2.COEF (u s : Nat) : Fld := ⟨(FLT_USER_SEC_A2.reg u s), 0, 24⟩
/-- Offset of FLT_USERu_SECs_SHIFT (06_temporal_filter_chain.md). -/
def FLT_USER_SEC_SHIFT.reg (u s : Nat) : Nat := 0x101034 + 0x100 * (u % 8) + 0x20 * (s % 6)
/-- FLT_USERu_SECs_SHIFT.SHIFT [3:0] RWL. -/
abbrev FLT_USER_SEC_SHIFT.SHIFT (u s : Nat) : Fld := ⟨(FLT_USER_SEC_SHIFT.reg u s), 0, 4⟩
/-- Offset of FLT_PRESETp_SECs_B0 (06_temporal_filter_chain.md). -/
def FLT_PRESET_SEC_B0.reg (p s : Nat) : Nat := 0x102020 + 0x100 * (p % 24) + 0x20 * (s % 6)
/-- FLT_PRESETp_SECs_B0.COEF [23:0] RO. -/
abbrev FLT_PRESET_SEC_B0.COEF (p s : Nat) : Fld := ⟨(FLT_PRESET_SEC_B0.reg p s), 0, 24⟩
/-- Offset of FLT_PRESETp_SECs_B1 (06_temporal_filter_chain.md). -/
def FLT_PRESET_SEC_B1.reg (p s : Nat) : Nat := 0x102024 + 0x100 * (p % 24) + 0x20 * (s % 6)
/-- FLT_PRESETp_SECs_B1.COEF [23:0] RO. -/
abbrev FLT_PRESET_SEC_B1.COEF (p s : Nat) : Fld := ⟨(FLT_PRESET_SEC_B1.reg p s), 0, 24⟩
/-- Offset of FLT_PRESETp_SECs_B2 (06_temporal_filter_chain.md). -/
def FLT_PRESET_SEC_B2.reg (p s : Nat) : Nat := 0x102028 + 0x100 * (p % 24) + 0x20 * (s % 6)
/-- FLT_PRESETp_SECs_B2.COEF [23:0] RO. -/
abbrev FLT_PRESET_SEC_B2.COEF (p s : Nat) : Fld := ⟨(FLT_PRESET_SEC_B2.reg p s), 0, 24⟩
/-- Offset of FLT_PRESETp_SECs_A1 (06_temporal_filter_chain.md). -/
def FLT_PRESET_SEC_A1.reg (p s : Nat) : Nat := 0x10202C + 0x100 * (p % 24) + 0x20 * (s % 6)
/-- FLT_PRESETp_SECs_A1.COEF [23:0] RO. -/
abbrev FLT_PRESET_SEC_A1.COEF (p s : Nat) : Fld := ⟨(FLT_PRESET_SEC_A1.reg p s), 0, 24⟩
/-- Offset of FLT_PRESETp_SECs_A2 (06_temporal_filter_chain.md). -/
def FLT_PRESET_SEC_A2.reg (p s : Nat) : Nat := 0x102030 + 0x100 * (p % 24) + 0x20 * (s % 6)
/-- FLT_PRESETp_SECs_A2.COEF [23:0] RO. -/
abbrev FLT_PRESET_SEC_A2.COEF (p s : Nat) : Fld := ⟨(FLT_PRESET_SEC_A2.reg p s), 0, 24⟩
/-- Offset of FLT_PRESETp_SECs_SHIFT (06_temporal_filter_chain.md). -/
def FLT_PRESET_SEC_SHIFT.reg (p s : Nat) : Nat := 0x102034 + 0x100 * (p % 24) + 0x20 * (s % 6)
/-- FLT_PRESETp_SECs_SHIFT.SHIFT [3:0] RO. -/
abbrev FLT_PRESET_SEC_SHIFT.SHIFT (p s : Nat) : Fld := ⟨(FLT_PRESET_SEC_SHIFT.reg p s), 0, 4⟩
/-- Offset of ACRk_CTRL (10_analysis_cores.md). -/
def ACR_CTRL.reg (k : Nat) : Nat := 0x140000 + 0x100 * (k % 16)
/-- ACRk_CTRL.RUN_AT_START [31:31] RWL. -/
abbrev ACR_CTRL.RUN_AT_START (k : Nat) : Fld := ⟨(ACR_CTRL.reg k), 31, 1⟩
/-- ACRk_CTRL.STOP_NOW [2:2] WO. -/
abbrev ACR_CTRL.STOP_NOW (k : Nat) : Fld := ⟨(ACR_CTRL.reg k), 2, 1⟩
/-- ACRk_CTRL.START_NOW [1:1] WO. -/
abbrev ACR_CTRL.START_NOW (k : Nat) : Fld := ⟨(ACR_CTRL.reg k), 1, 1⟩
/-- Offset of ACRk_ENTRY (10_analysis_cores.md). -/
def ACR_ENTRY.reg (k : Nat) : Nat := 0x140004 + 0x100 * (k % 16)
/-- ACRk_ENTRY.ENTRY [10:0] RWL. -/
abbrev ACR_ENTRY.ENTRY (k : Nat) : Fld := ⟨(ACR_ENTRY.reg k), 0, 11⟩
/-- Offset of ACRk_WDOG (10_analysis_cores.md). -/
def ACR_WDOG.reg (k : Nat) : Nat := 0x140008 + 0x100 * (k % 16)
/-- ACRk_WDOG.WDOG_US [15:0] RWL. -/
abbrev ACR_WDOG.WDOG_US (k : Nat) : Fld := ⟨(ACR_WDOG.reg k), 0, 16⟩
/-- Offset of ACRk_FEED_CFG (10_analysis_cores.md). -/
def ACR_FEED_CFG.reg (k : Nat) : Nat := 0x14000C + 0x100 * (k % 16)
/-- ACRk_FEED_CFG.EN [31:31] RWL. -/
abbrev ACR_FEED_CFG.EN (k : Nat) : Fld := ⟨(ACR_FEED_CFG.reg k), 31, 1⟩
/-- ACRk_FEED_CFG.FORMAT [30:30] RWL. -/
abbrev ACR_FEED_CFG.FORMAT (k : Nat) : Fld := ⟨(ACR_FEED_CFG.reg k), 30, 1⟩
/-- ACRk_FEED_CFG.QUAL [29:29] RWL. -/
abbrev ACR_FEED_CFG.QUAL (k : Nat) : Fld := ⟨(ACR_FEED_CFG.reg k), 29, 1⟩
/-- ACRk_FEED_CFG.PORT [27:24] RWL. -/
abbrev ACR_FEED_CFG.PORT (k : Nat) : Fld := ⟨(ACR_FEED_CFG.reg k), 24, 4⟩
/-- ACRk_FEED_CFG.DECIM_M1 [23:16] RWL. -/
abbrev ACR_FEED_CFG.DECIM_M1 (k : Nat) : Fld := ⟨(ACR_FEED_CFG.reg k), 16, 8⟩
/-- ACRk_FEED_CFG.FIRST_TILE [15:6] RWL. -/
abbrev ACR_FEED_CFG.FIRST_TILE (k : Nat) : Fld := ⟨(ACR_FEED_CFG.reg k), 6, 10⟩
/-- ACRk_FEED_CFG.TILE_COUNT_M1 [5:0] RWL. -/
abbrev ACR_FEED_CFG.TILE_COUNT_M1 (k : Nat) : Fld := ⟨(ACR_FEED_CFG.reg k), 0, 6⟩
/-- Offset of ACRk_FEED_BUF (10_analysis_cores.md). -/
def ACR_FEED_BUF.reg (k : Nat) : Nat := 0x140010 + 0x100 * (k % 16)
/-- ACRk_FEED_BUF.SLOTS [31:24] RWL. -/
abbrev ACR_FEED_BUF.SLOTS (k : Nat) : Fld := ⟨(ACR_FEED_BUF.reg k), 24, 8⟩
/-- ACRk_FEED_BUF.BASE [17:6] RWL. -/
abbrev ACR_FEED_BUF.BASE (k : Nat) : Fld := ⟨(ACR_FEED_BUF.reg k), 6, 12⟩
/-- Offset of ACRk_OUT_CFG (10_analysis_cores.md). -/
def ACR_OUT_CFG.reg (k : Nat) : Nat := 0x140014 + 0x100 * (k % 16)
/-- ACRk_OUT_CFG.EN [31:31] RWL. -/
abbrev ACR_OUT_CFG.EN (k : Nat) : Fld := ⟨(ACR_OUT_CFG.reg k), 31, 1⟩
/-- ACRk_OUT_CFG.RING [2:0] RWL. -/
abbrev ACR_OUT_CFG.RING (k : Nat) : Fld := ⟨(ACR_OUT_CFG.reg k), 0, 3⟩
/-- Offset of ACRk_DRAM (10_analysis_cores.md). -/
def ACR_DRAM.reg (k : Nat) : Nat := 0x140018 + 0x100 * (k % 16)
/-- ACRk_DRAM.SIZE_MIB [31:16] RWL. -/
abbrev ACR_DRAM.SIZE_MIB (k : Nat) : Fld := ⟨(ACR_DRAM.reg k), 16, 16⟩
/-- ACRk_DRAM.BASE_MIB [12:0] RWL. -/
abbrev ACR_DRAM.BASE_MIB (k : Nat) : Fld := ⟨(ACR_DRAM.reg k), 0, 13⟩
/-- Offset of ACRk_STATUS (10_analysis_cores.md). -/
def ACR_STATUS.reg (k : Nat) : Nat := 0x140020 + 0x100 * (k % 16)
/-- ACRk_STATUS.STATE [31:29] RO. -/
abbrev ACR_STATUS.STATE (k : Nat) : Fld := ⟨(ACR_STATUS.reg k), 29, 3⟩
/-- ACRk_STATUS.WAIT [28:26] RO. -/
abbrev ACR_STATUS.WAIT (k : Nat) : Fld := ⟨(ACR_STATUS.reg k), 26, 3⟩
/-- ACRk_STATUS.FEED_BAD [25:25] RO. -/
abbrev ACR_STATUS.FEED_BAD (k : Nat) : Fld := ⟨(ACR_STATUS.reg k), 25, 1⟩
/-- ACRk_STATUS.DEPTH [22:20] RO. -/
abbrev ACR_STATUS.DEPTH (k : Nat) : Fld := ⟨(ACR_STATUS.reg k), 20, 3⟩
/-- ACRk_STATUS.STOP_CAUSE [19:16] RO. -/
abbrev ACR_STATUS.STOP_CAUSE (k : Nat) : Fld := ⟨(ACR_STATUS.reg k), 16, 4⟩
/-- ACRk_STATUS.PC [10:0] RO. -/
abbrev ACR_STATUS.PC (k : Nat) : Fld := ⟨(ACR_STATUS.reg k), 0, 11⟩
/-- Offset of ACRk_FAULT (10_analysis_cores.md). -/
def ACR_FAULT.reg (k : Nat) : Nat := 0x140024 + 0x100 * (k % 16)
/-- ACRk_FAULT.CAUSE [31:28] RO. -/
abbrev ACR_FAULT.CAUSE (k : Nat) : Fld := ⟨(ACR_FAULT.reg k), 28, 4⟩
/-- ACRk_FAULT.PC [10:0] RO. -/
abbrev ACR_FAULT.PC (k : Nat) : Fld := ⟨(ACR_FAULT.reg k), 0, 11⟩
/-- Offset of ACRk_FAULT_INSN (10_analysis_cores.md). -/
def ACR_FAULT_INSN.reg (k : Nat) : Nat := 0x140028 + 0x100 * (k % 16)
/-- ACRk_FAULT_INSN.INSN [31:0] RO. -/
abbrev ACR_FAULT_INSN.INSN (k : Nat) : Fld := ⟨(ACR_FAULT_INSN.reg k), 0, 32⟩
/-- Offset of ACRk_SIG (10_analysis_cores.md). -/
def ACR_SIG.reg (k : Nat) : Nat := 0x14002C + 0x100 * (k % 16)
/-- ACRk_SIG.CODE [7:0] RO. -/
abbrev ACR_SIG.CODE (k : Nat) : Fld := ⟨(ACR_SIG.reg k), 0, 8⟩
/-- Offset of ACRk_SLOT_INFO (10_analysis_cores.md). -/
def ACR_SLOT_INFO.reg (k : Nat) : Nat := 0x140030 + 0x100 * (k % 16)
/-- ACRk_SLOT_INFO.SLOTS_USED [31:24] RO. -/
abbrev ACR_SLOT_INFO.SLOTS_USED (k : Nat) : Fld := ⟨(ACR_SLOT_INFO.reg k), 24, 8⟩
/-- ACRk_SLOT_INFO.SLOT_SIZE [14:0] RO. -/
abbrev ACR_SLOT_INFO.SLOT_SIZE (k : Nat) : Fld := ⟨(ACR_SLOT_INFO.reg k), 0, 15⟩
/-- Offset of ACRk_DIAG_SEL (10_analysis_cores.md). -/
def ACR_DIAG_SEL.reg (k : Nat) : Nat := 0x140034 + 0x100 * (k % 16)
/-- ACRk_DIAG_SEL.SEL [5:0] RW. -/
abbrev ACR_DIAG_SEL.SEL (k : Nat) : Fld := ⟨(ACR_DIAG_SEL.reg k), 0, 6⟩
/-- Offset of ACRk_DIAG_DATA (10_analysis_cores.md). -/
def ACR_DIAG_DATA.reg (k : Nat) : Nat := 0x140038 + 0x100 * (k % 16)
/-- ACRk_DIAG_DATA.DATA [31:0] RO. -/
abbrev ACR_DIAG_DATA.DATA (k : Nat) : Fld := ⟨(ACR_DIAG_DATA.reg k), 0, 32⟩
/-- Offset of ACRk_FEED_COUNT (10_analysis_cores.md). -/
def ACR_FEED_COUNT.reg (k : Nat) : Nat := 0x140040 + 0x100 * (k % 16)
/-- ACRk_FEED_COUNT.COUNT [31:0] RO. -/
abbrev ACR_FEED_COUNT.COUNT (k : Nat) : Fld := ⟨(ACR_FEED_COUNT.reg k), 0, 32⟩
/-- Offset of ACRk_FEED_DROP_COUNT (10_analysis_cores.md). -/
def ACR_FEED_DROP_COUNT.reg (k : Nat) : Nat := 0x140044 + 0x100 * (k % 16)
/-- ACRk_FEED_DROP_COUNT.COUNT [31:0] RO. -/
abbrev ACR_FEED_DROP_COUNT.COUNT (k : Nat) : Fld := ⟨(ACR_FEED_DROP_COUNT.reg k), 0, 32⟩
/-- Offset of ACRk_OUT_COUNT (10_analysis_cores.md). -/
def ACR_OUT_COUNT.reg (k : Nat) : Nat := 0x140048 + 0x100 * (k % 16)
/-- ACRk_OUT_COUNT.COUNT [31:0] RO. -/
abbrev ACR_OUT_COUNT.COUNT (k : Nat) : Fld := ⟨(ACR_OUT_COUNT.reg k), 0, 32⟩
/-- Offset of ACRk_OUT_LOST_COUNT (10_analysis_cores.md). -/
def ACR_OUT_LOST_COUNT.reg (k : Nat) : Nat := 0x14004C + 0x100 * (k % 16)
/-- ACRk_OUT_LOST_COUNT.COUNT [31:0] RO. -/
abbrev ACR_OUT_LOST_COUNT.COUNT (k : Nat) : Fld := ⟨(ACR_OUT_LOST_COUNT.reg k), 0, 32⟩
/-- Offset of ACRk_SIG_COUNT (10_analysis_cores.md). -/
def ACR_SIG_COUNT.reg (k : Nat) : Nat := 0x140050 + 0x100 * (k % 16)
/-- ACRk_SIG_COUNT.COUNT [31:0] RO. -/
abbrev ACR_SIG_COUNT.COUNT (k : Nat) : Fld := ⟨(ACR_SIG_COUNT.reg k), 0, 32⟩
/-- Offset of ACRk_FAULT_COUNT (10_analysis_cores.md). -/
def ACR_FAULT_COUNT.reg (k : Nat) : Nat := 0x140054 + 0x100 * (k % 16)
/-- ACRk_FAULT_COUNT.COUNT [31:0] RO. -/
abbrev ACR_FAULT_COUNT.COUNT (k : Nat) : Fld := ⟨(ACR_FAULT_COUNT.reg k), 0, 32⟩
/-- Offset of ACRk_HOST_REJECT_COUNT (10_analysis_cores.md). -/
def ACR_HOST_REJECT_COUNT.reg (k : Nat) : Nat := 0x140058 + 0x100 * (k % 16)
/-- ACRk_HOST_REJECT_COUNT.COUNT [31:0] RO. -/
abbrev ACR_HOST_REJECT_COUNT.COUNT (k : Nat) : Fld := ⟨(ACR_HOST_REJECT_COUNT.reg k), 0, 32⟩
/-- Offset of ACRk_BUSY_CYCLES_LO (10_analysis_cores.md). -/
def ACR_BUSY_CYCLES_LO.reg (k : Nat) : Nat := 0x14005C + 0x100 * (k % 16)
/-- ACRk_BUSY_CYCLES_LO.COUNT [31:0] RO. -/
abbrev ACR_BUSY_CYCLES_LO.COUNT (k : Nat) : Fld := ⟨(ACR_BUSY_CYCLES_LO.reg k), 0, 32⟩
/-- Offset of ACRk_BUSY_CYCLES_HI (10_analysis_cores.md). -/
def ACR_BUSY_CYCLES_HI.reg (k : Nat) : Nat := 0x140060 + 0x100 * (k % 16)
/-- ACRk_BUSY_CYCLES_HI.COUNT [31:0] RO. -/
abbrev ACR_BUSY_CYCLES_HI.COUNT (k : Nat) : Fld := ⟨(ACR_BUSY_CYCLES_HI.reg k), 0, 32⟩
/-- Offset of ACRk_STALL_CYCLES_LO (10_analysis_cores.md). -/
def ACR_STALL_CYCLES_LO.reg (k : Nat) : Nat := 0x140064 + 0x100 * (k % 16)
/-- ACRk_STALL_CYCLES_LO.COUNT [31:0] RO. -/
abbrev ACR_STALL_CYCLES_LO.COUNT (k : Nat) : Fld := ⟨(ACR_STALL_CYCLES_LO.reg k), 0, 32⟩
/-- Offset of ACRk_STALL_CYCLES_HI (10_analysis_cores.md). -/
def ACR_STALL_CYCLES_HI.reg (k : Nat) : Nat := 0x140068 + 0x100 * (k % 16)
/-- ACRk_STALL_CYCLES_HI.COUNT [31:0] RO. -/
abbrev ACR_STALL_CYCLES_HI.COUNT (k : Nat) : Fld := ⟨(ACR_STALL_CYCLES_HI.reg k), 0, 32⟩
/-- Offset of ACRk_SPM_CFG (11_scratchpads_and_dram.md). -/
def ACR_SPM_CFG.reg (k : Nat) : Nat := 0x140080 + 0x100 * (k % 16)
/-- ACRk_SPM_CFG.COMPAT [31:31] RWL. -/
abbrev ACR_SPM_CFG.COMPAT (k : Nat) : Fld := ⟨(ACR_SPM_CFG.reg k), 31, 1⟩
/-- ACRk_SPM_CFG.CE_THRESH [23:16] RWL. -/
abbrev ACR_SPM_CFG.CE_THRESH (k : Nat) : Fld := ⟨(ACR_SPM_CFG.reg k), 16, 8⟩
/-- ACRk_SPM_CFG.STARVE_LIMIT [15:0] RWL. -/
abbrev ACR_SPM_CFG.STARVE_LIMIT (k : Nat) : Fld := ⟨(ACR_SPM_CFG.reg k), 0, 16⟩
/-- Offset of ACRk_SPM_STATUS (11_scratchpads_and_dram.md). -/
def ACR_SPM_STATUS.reg (k : Nat) : Nat := 0x140084 + 0x100 * (k % 16)
/-- ACRk_SPM_STATUS.SPM_FAIL [31:31] RO. -/
abbrev ACR_SPM_STATUS.SPM_FAIL (k : Nat) : Fld := ⟨(ACR_SPM_STATUS.reg k), 31, 1⟩
/-- ACRk_SPM_STATUS.MARCH_BUSY [30:30] RO. -/
abbrev ACR_SPM_STATUS.MARCH_BUSY (k : Nat) : Fld := ⟨(ACR_SPM_STATUS.reg k), 30, 1⟩
/-- ACRk_SPM_STATUS.LAST_PASS [29:29] RO. -/
abbrev ACR_SPM_STATUS.LAST_PASS (k : Nat) : Fld := ⟨(ACR_SPM_STATUS.reg k), 29, 1⟩
/-- ACRk_SPM_STATUS.LAST_MODE [28:28] RO. -/
abbrev ACR_SPM_STATUS.LAST_MODE (k : Nat) : Fld := ⟨(ACR_SPM_STATUS.reg k), 28, 1⟩
/-- ACRk_SPM_STATUS.UNREPAIRED [27:24] RO. -/
abbrev ACR_SPM_STATUS.UNREPAIRED (k : Nat) : Fld := ⟨(ACR_SPM_STATUS.reg k), 24, 4⟩
/-- ACRk_SPM_STATUS.SOFT [23:16] RO. -/
abbrev ACR_SPM_STATUS.SOFT (k : Nat) : Fld := ⟨(ACR_SPM_STATUS.reg k), 16, 8⟩
/-- ACRk_SPM_STATUS.FUSED [15:8] RO. -/
abbrev ACR_SPM_STATUS.FUSED (k : Nat) : Fld := ⟨(ACR_SPM_STATUS.reg k), 8, 8⟩
/-- Offset of ACRk_SPM_CE_COUNT (11_scratchpads_and_dram.md). -/
def ACR_SPM_CE_COUNT.reg (k : Nat) : Nat := 0x140088 + 0x100 * (k % 16)
/-- ACRk_SPM_CE_COUNT.VALUE [31:0] RO. -/
abbrev ACR_SPM_CE_COUNT.VALUE (k : Nat) : Fld := ⟨(ACR_SPM_CE_COUNT.reg k), 0, 32⟩
/-- Offset of ACRk_SPM_UE_COUNT (11_scratchpads_and_dram.md). -/
def ACR_SPM_UE_COUNT.reg (k : Nat) : Nat := 0x14008C + 0x100 * (k % 16)
/-- ACRk_SPM_UE_COUNT.VALUE [31:0] RO. -/
abbrev ACR_SPM_UE_COUNT.VALUE (k : Nat) : Fld := ⟨(ACR_SPM_UE_COUNT.reg k), 0, 32⟩
/-- Offset of ACRk_SPM_ECC_ADDR (11_scratchpads_and_dram.md). -/
def ACR_SPM_ECC_ADDR.reg (k : Nat) : Nat := 0x140090 + 0x100 * (k % 16)
/-- ACRk_SPM_ECC_ADDR.UE [31:31] RO. -/
abbrev ACR_SPM_ECC_ADDR.UE (k : Nat) : Fld := ⟨(ACR_SPM_ECC_ADDR.reg k), 31, 1⟩
/-- ACRk_SPM_ECC_ADDR.READER [30:28] RO. -/
abbrev ACR_SPM_ECC_ADDR.READER (k : Nat) : Fld := ⟨(ACR_SPM_ECC_ADDR.reg k), 28, 3⟩
/-- ACRk_SPM_ECC_ADDR.ADDR [17:0] RO. -/
abbrev ACR_SPM_ECC_ADDR.ADDR (k : Nat) : Fld := ⟨(ACR_SPM_ECC_ADDR.reg k), 0, 18⟩
/-- Offset of ACRk_STARVE_COUNT (11_scratchpads_and_dram.md). -/
def ACR_STARVE_COUNT.reg (k : Nat) : Nat := 0x140094 + 0x100 * (k % 16)
/-- ACRk_STARVE_COUNT.VALUE [31:0] RO. -/
abbrev ACR_STARVE_COUNT.VALUE (k : Nat) : Fld := ⟨(ACR_STARVE_COUNT.reg k), 0, 32⟩
/-- Offset of ACRk_STARVE_MAX (11_scratchpads_and_dram.md). -/
def ACR_STARVE_MAX.reg (k : Nat) : Nat := 0x140098 + 0x100 * (k % 16)
/-- ACRk_STARVE_MAX.VALUE [31:0] RO. -/
abbrev ACR_STARVE_MAX.VALUE (k : Nat) : Fld := ⟨(ACR_STARVE_MAX.reg k), 0, 32⟩
/-- Offset of ACRk_SPM_REPAIRa (11_scratchpads_and_dram.md). -/
def ACR_SPM_REPAIR.reg (k a : Nat) : Nat := 0x1400A0 + 0x100 * (k % 16) + 0x4 * (a % 4)
/-- ACRk_SPM_REPAIRa.STATE1 [31:30] RO. -/
abbrev ACR_SPM_REPAIR.STATE1 (k a : Nat) : Fld := ⟨(ACR_SPM_REPAIR.reg k a), 30, 2⟩
/-- ACRk_SPM_REPAIRa.COL1 [25:16] RO. -/
abbrev ACR_SPM_REPAIR.COL1 (k a : Nat) : Fld := ⟨(ACR_SPM_REPAIR.reg k a), 16, 10⟩
/-- ACRk_SPM_REPAIRa.STATE0 [15:14] RO. -/
abbrev ACR_SPM_REPAIR.STATE0 (k a : Nat) : Fld := ⟨(ACR_SPM_REPAIR.reg k a), 14, 2⟩
/-- ACRk_SPM_REPAIRa.COL0 [9:0] RO. -/
abbrev ACR_SPM_REPAIR.COL0 (k a : Nat) : Fld := ⟨(ACR_SPM_REPAIR.reg k a), 0, 10⟩
/-- Offset of ACR_SUMMARY (10_analysis_cores.md). -/
def ACR_SUMMARY.reg : Nat := 0x141000
/-- ACR_SUMMARY.FAULTED [31:16] RO. -/
abbrev ACR_SUMMARY.FAULTED : Fld := ⟨ACR_SUMMARY.reg, 16, 16⟩
/-- ACR_SUMMARY.ACTIVE [15:0] RO. -/
abbrev ACR_SUMMARY.ACTIVE : Fld := ⟨ACR_SUMMARY.reg, 0, 16⟩
/-- Offset of ACR_MARCH_CTRL (11_scratchpads_and_dram.md). -/
def ACR_MARCH_CTRL.reg : Nat := 0x141010
/-- ACR_MARCH_CTRL.START [31:31] WO. -/
abbrev ACR_MARCH_CTRL.START : Fld := ⟨ACR_MARCH_CTRL.reg, 31, 1⟩
/-- ACR_MARCH_CTRL.MODE [30:30] RW. -/
abbrev ACR_MARCH_CTRL.MODE : Fld := ⟨ACR_MARCH_CTRL.reg, 30, 1⟩
/-- ACR_MARCH_CTRL.CORE_MASK [15:0] RW. -/
abbrev ACR_MARCH_CTRL.CORE_MASK : Fld := ⟨ACR_MARCH_CTRL.reg, 0, 16⟩
/-- Offset of ACR_MARCH_STATUS (11_scratchpads_and_dram.md). -/
def ACR_MARCH_STATUS.reg : Nat := 0x141014
/-- ACR_MARCH_STATUS.BUSY [31:31] RO. -/
abbrev ACR_MARCH_STATUS.BUSY : Fld := ⟨ACR_MARCH_STATUS.reg, 31, 1⟩
/-- ACR_MARCH_STATUS.SKIPPED [15:0] RO. -/
abbrev ACR_MARCH_STATUS.SKIPPED : Fld := ⟨ACR_MARCH_STATUS.reg, 0, 16⟩
/-- Offset of ACR_MARCH_BOOT (11_scratchpads_and_dram.md). -/
def ACR_MARCH_BOOT.reg : Nat := 0x141018
/-- ACR_MARCH_BOOT.EN [31:31] RW. -/
abbrev ACR_MARCH_BOOT.EN : Fld := ⟨ACR_MARCH_BOOT.reg, 31, 1⟩
/-- Offset of ACR_FUSE_CTRL (11_scratchpads_and_dram.md). -/
def ACR_FUSE_CTRL.reg : Nat := 0x141020
/-- ACR_FUSE_CTRL.CORE [19:16] WO. -/
abbrev ACR_FUSE_CTRL.CORE : Fld := ⟨ACR_FUSE_CTRL.reg, 16, 4⟩
/-- ACR_FUSE_CTRL.KEY [15:8] WO. -/
abbrev ACR_FUSE_CTRL.KEY : Fld := ⟨ACR_FUSE_CTRL.reg, 8, 8⟩
/-- ACR_FUSE_CTRL.BURN [0:0] WO. -/
abbrev ACR_FUSE_CTRL.BURN : Fld := ⟨ACR_FUSE_CTRL.reg, 0, 1⟩
/-- Offset of ACR_FUSE_STATUS (11_scratchpads_and_dram.md). -/
def ACR_FUSE_STATUS.reg : Nat := 0x141024
/-- ACR_FUSE_STATUS.BUSY [31:31] RO. -/
abbrev ACR_FUSE_STATUS.BUSY : Fld := ⟨ACR_FUSE_STATUS.reg, 31, 1⟩
/-- ACR_FUSE_STATUS.FAIL [30:30] RO. -/
abbrev ACR_FUSE_STATUS.FAIL : Fld := ⟨ACR_FUSE_STATUS.reg, 30, 1⟩
/-- ACR_FUSE_STATUS.COLUMNS [3:0] RO. -/
abbrev ACR_FUSE_STATUS.COLUMNS : Fld := ⟨ACR_FUSE_STATUS.reg, 0, 4⟩
/-- Offset of DMC_CFG (11_scratchpads_and_dram.md). -/
def DMC_CFG.reg : Nat := 0x180000
/-- DMC_CFG.SR_EN [31:31] RWL. -/
abbrev DMC_CFG.SR_EN : Fld := ⟨DMC_CFG.reg, 31, 1⟩
/-- DMC_CFG.FSP [30:30] RWL. -/
abbrev DMC_CFG.FSP : Fld := ⟨DMC_CFG.reg, 30, 1⟩
/-- DMC_CFG.SCRUB_H [23:16] RWL. -/
abbrev DMC_CFG.SCRUB_H : Fld := ⟨DMC_CFG.reg, 16, 8⟩
/-- DMC_CFG.SR_IDLE_US [15:0] RWL. -/
abbrev DMC_CFG.SR_IDLE_US : Fld := ⟨DMC_CFG.reg, 0, 16⟩
/-- Offset of DMC_STATUS (11_scratchpads_and_dram.md). -/
def DMC_STATUS.reg : Nat := 0x180004
/-- DMC_STATUS.STATE [31:28] RO. -/
abbrev DMC_STATUS.STATE : Fld := ⟨DMC_STATUS.reg, 28, 4⟩
/-- DMC_STATUS.FSP_CUR [27:27] RO. -/
abbrev DMC_STATUS.FSP_CUR : Fld := ⟨DMC_STATUS.reg, 27, 1⟩
/-- DMC_STATUS.FSP_PENDING [26:26] RO. -/
abbrev DMC_STATUS.FSP_PENDING : Fld := ⟨DMC_STATUS.reg, 26, 1⟩
/-- DMC_STATUS.INIT_DONE [25:25] RO. -/
abbrev DMC_STATUS.INIT_DONE : Fld := ⟨DMC_STATUS.reg, 25, 1⟩
/-- DMC_STATUS.TRAIN_FAIL [19:16] RO. -/
abbrev DMC_STATUS.TRAIN_FAIL : Fld := ⟨DMC_STATUS.reg, 16, 4⟩
/-- Offset of DMC_BAR2_BASE (11_scratchpads_and_dram.md). -/
def DMC_BAR2_BASE.reg : Nat := 0x180008
/-- DMC_BAR2_BASE.BASE_MIB [12:0] RW. -/
abbrev DMC_BAR2_BASE.BASE_MIB : Fld := ⟨DMC_BAR2_BASE.reg, 0, 13⟩
/-- Offset of DMC_ECC_CFG (11_scratchpads_and_dram.md). -/
def DMC_ECC_CFG.reg : Nat := 0x18000C
/-- DMC_ECC_CFG.CE_WINDOW_MS [31:16] RWL. -/
abbrev DMC_ECC_CFG.CE_WINDOW_MS : Fld := ⟨DMC_ECC_CFG.reg, 16, 16⟩
/-- DMC_ECC_CFG.CE_THRESH [15:0] RWL. -/
abbrev DMC_ECC_CFG.CE_THRESH : Fld := ⟨DMC_ECC_CFG.reg, 0, 16⟩
/-- Offset of DMC_ECC_CE_COUNT (11_scratchpads_and_dram.md). -/
def DMC_ECC_CE_COUNT.reg : Nat := 0x180010
/-- DMC_ECC_CE_COUNT.VALUE [31:0] RO. -/
abbrev DMC_ECC_CE_COUNT.VALUE : Fld := ⟨DMC_ECC_CE_COUNT.reg, 0, 32⟩
/-- Offset of DMC_ECC_CE_ADDR_LO (11_scratchpads_and_dram.md). -/
def DMC_ECC_CE_ADDR_LO.reg : Nat := 0x180014
/-- DMC_ECC_CE_ADDR_LO.VALUE [31:0] RO. -/
abbrev DMC_ECC_CE_ADDR_LO.VALUE : Fld := ⟨DMC_ECC_CE_ADDR_LO.reg, 0, 32⟩
/-- Offset of DMC_ECC_CE_ADDR_HI (11_scratchpads_and_dram.md). -/
def DMC_ECC_CE_ADDR_HI.reg : Nat := 0x180018
/-- DMC_ECC_CE_ADDR_HI.VALUE [31:0] RO. -/
abbrev DMC_ECC_CE_ADDR_HI.VALUE : Fld := ⟨DMC_ECC_CE_ADDR_HI.reg, 0, 32⟩
/-- Offset of DMC_FREEZE_INFO (11_scratchpads_and_dram.md). -/
def DMC_FREEZE_INFO.reg : Nat := 0x180020
/-- DMC_FREEZE_INFO.FROZEN [31:31] RO. -/
abbrev DMC_FREEZE_INFO.FROZEN : Fld := ⟨DMC_FREEZE_INFO.reg, 31, 1⟩
/-- DMC_FREEZE_INFO.CLIENT [30:28] RO. -/
abbrev DMC_FREEZE_INFO.CLIENT : Fld := ⟨DMC_FREEZE_INFO.reg, 28, 3⟩
/-- DMC_FREEZE_INFO.CHANNEL [27:26] RO. -/
abbrev DMC_FREEZE_INFO.CHANNEL : Fld := ⟨DMC_FREEZE_INFO.reg, 26, 2⟩
/-- DMC_FREEZE_INFO.SYNDROME [7:0] RO. -/
abbrev DMC_FREEZE_INFO.SYNDROME : Fld := ⟨DMC_FREEZE_INFO.reg, 0, 8⟩
/-- Offset of DMC_FREEZE_ADDR_LO (11_scratchpads_and_dram.md). -/
def DMC_FREEZE_ADDR_LO.reg : Nat := 0x180024
/-- DMC_FREEZE_ADDR_LO.VALUE [31:0] RO. -/
abbrev DMC_FREEZE_ADDR_LO.VALUE : Fld := ⟨DMC_FREEZE_ADDR_LO.reg, 0, 32⟩
/-- Offset of DMC_FREEZE_ADDR_HI (11_scratchpads_and_dram.md). -/
def DMC_FREEZE_ADDR_HI.reg : Nat := 0x180028
/-- DMC_FREEZE_ADDR_HI.VALUE [31:0] RO. -/
abbrev DMC_FREEZE_ADDR_HI.VALUE : Fld := ⟨DMC_FREEZE_ADDR_HI.reg, 0, 32⟩
/-- Offset of DMC_RAW_WAIT_COUNT (11_scratchpads_and_dram.md). -/
def DMC_RAW_WAIT_COUNT.reg : Nat := 0x180040
/-- DMC_RAW_WAIT_COUNT.VALUE [31:0] RO. -/
abbrev DMC_RAW_WAIT_COUNT.VALUE : Fld := ⟨DMC_RAW_WAIT_COUNT.reg, 0, 32⟩
/-- Offset of DMC_FSP_DEFER_COUNT (11_scratchpads_and_dram.md). -/
def DMC_FSP_DEFER_COUNT.reg : Nat := 0x180044
/-- DMC_FSP_DEFER_COUNT.VALUE [31:0] RO. -/
abbrev DMC_FSP_DEFER_COUNT.VALUE : Fld := ⟨DMC_FSP_DEFER_COUNT.reg, 0, 32⟩
/-- Offset of DMC_SR_ENTRY_COUNT (11_scratchpads_and_dram.md). -/
def DMC_SR_ENTRY_COUNT.reg : Nat := 0x180048
/-- DMC_SR_ENTRY_COUNT.VALUE [31:0] RO. -/
abbrev DMC_SR_ENTRY_COUNT.VALUE : Fld := ⟨DMC_SR_ENTRY_COUNT.reg, 0, 32⟩
/-- Offset of DMC_SR_WAKE_WAIT_COUNT (11_scratchpads_and_dram.md). -/
def DMC_SR_WAKE_WAIT_COUNT.reg : Nat := 0x18004C
/-- DMC_SR_WAKE_WAIT_COUNT.VALUE [31:0] RO. -/
abbrev DMC_SR_WAKE_WAIT_COUNT.VALUE : Fld := ⟨DMC_SR_WAKE_WAIT_COUNT.reg, 0, 32⟩
/-- Offset of DMC_REFRESH_POSTPONE_COUNT (11_scratchpads_and_dram.md). -/
def DMC_REFRESH_POSTPONE_COUNT.reg : Nat := 0x180050
/-- DMC_REFRESH_POSTPONE_COUNT.VALUE [31:0] RO. -/
abbrev DMC_REFRESH_POSTPONE_COUNT.VALUE : Fld := ⟨DMC_REFRESH_POSTPONE_COUNT.reg, 0, 32⟩
/-- Offset of DMC_BAR2_VOID_COUNT (11_scratchpads_and_dram.md). -/
def DMC_BAR2_VOID_COUNT.reg : Nat := 0x180054
/-- DMC_BAR2_VOID_COUNT.VALUE [31:0] RO. -/
abbrev DMC_BAR2_VOID_COUNT.VALUE : Fld := ⟨DMC_BAR2_VOID_COUNT.reg, 0, 32⟩
/-- Offset of DMC_CLIENTc_OVERRUN_COUNT (11_scratchpads_and_dram.md). -/
def DMC_CLIENT_OVERRUN_COUNT.reg (c : Nat) : Nat := 0x180100 + 0x4 * (c % 7)
/-- DMC_CLIENTc_OVERRUN_COUNT.VALUE [31:0] RO. -/
abbrev DMC_CLIENT_OVERRUN_COUNT.VALUE (c : Nat) : Fld := ⟨(DMC_CLIENT_OVERRUN_COUNT.reg c), 0, 32⟩
/-- Offset of DMC_REGIONi (11_scratchpads_and_dram.md). -/
def DMC_REGION.reg (i : Nat) : Nat := 0x180200 + 0x4 * (i % 22)
/-- DMC_REGIONi.EN [31:31] RO. -/
abbrev DMC_REGION.EN (i : Nat) : Fld := ⟨(DMC_REGION.reg i), 31, 1⟩
/-- DMC_REGIONi.BASE_MIB [30:18] RO. -/
abbrev DMC_REGION.BASE_MIB (i : Nat) : Fld := ⟨(DMC_REGION.reg i), 18, 13⟩
/-- DMC_REGIONi.SIZE_MIB [17:7] RO. -/
abbrev DMC_REGION.SIZE_MIB (i : Nat) : Fld := ⟨(DMC_REGION.reg i), 7, 11⟩
/-- Offset of DMC_CONFLICT (11_scratchpads_and_dram.md). -/
def DMC_CONFLICT.reg : Nat := 0x180280
/-- DMC_CONFLICT.VALID [31:31] RO. -/
abbrev DMC_CONFLICT.VALID : Fld := ⟨DMC_CONFLICT.reg, 31, 1⟩
/-- DMC_CONFLICT.ENTRY_B [12:8] RO. -/
abbrev DMC_CONFLICT.ENTRY_B : Fld := ⟨DMC_CONFLICT.reg, 8, 5⟩
/-- DMC_CONFLICT.ENTRY_A [4:0] RO. -/
abbrev DMC_CONFLICT.ENTRY_A : Fld := ⟨DMC_CONFLICT.reg, 0, 5⟩
/-- Offset of HIF_LINK (12_host_interface_and_events.md). -/
def HIF_LINK.reg : Nat := 0x190000
/-- HIF_LINK.WIDTH [7:4] RO. -/
abbrev HIF_LINK.WIDTH : Fld := ⟨HIF_LINK.reg, 4, 4⟩
/-- HIF_LINK.SPEED [3:0] RO. -/
abbrev HIF_LINK.SPEED : Fld := ⟨HIF_LINK.reg, 0, 4⟩
/-- Offset of HIF_SHADOW_BASE_LO (12_host_interface_and_events.md). -/
def HIF_SHADOW_BASE_LO.reg : Nat := 0x190010
/-- HIF_SHADOW_BASE_LO.ADDR_LO [31:6] RW. -/
abbrev HIF_SHADOW_BASE_LO.ADDR_LO : Fld := ⟨HIF_SHADOW_BASE_LO.reg, 6, 26⟩
/-- HIF_SHADOW_BASE_LO.EN [0:0] RW. -/
abbrev HIF_SHADOW_BASE_LO.EN : Fld := ⟨HIF_SHADOW_BASE_LO.reg, 0, 1⟩
/-- Offset of HIF_SHADOW_BASE_HI (12_host_interface_and_events.md). -/
def HIF_SHADOW_BASE_HI.reg : Nat := 0x190014
/-- HIF_SHADOW_BASE_HI.ADDR_HI [31:0] RW. -/
abbrev HIF_SHADOW_BASE_HI.ADDR_HI : Fld := ⟨HIF_SHADOW_BASE_HI.reg, 0, 32⟩
/-- Offset of HIF_RWL_IGNORED_COUNT (12_host_interface_and_events.md). -/
def HIF_RWL_IGNORED_COUNT.reg : Nat := 0x190020
/-- HIF_RWL_IGNORED_COUNT.COUNT [31:0] RO. -/
abbrev HIF_RWL_IGNORED_COUNT.COUNT : Fld := ⟨HIF_RWL_IGNORED_COUNT.reg, 0, 32⟩
/-- Offset of HIF_RWL_ADDR (12_host_interface_and_events.md). -/
def HIF_RWL_ADDR.reg : Nat := 0x190024
/-- HIF_RWL_ADDR.OFFSET [22:0] RO. -/
abbrev HIF_RWL_ADDR.OFFSET : Fld := ⟨HIF_RWL_ADDR.reg, 0, 23⟩
/-- Offset of HIF_CMD_STATUS (12_host_interface_and_events.md). -/
def HIF_CMD_STATUS.reg : Nat := 0x190030
/-- HIF_CMD_STATUS.HELD [31:31] RO. -/
abbrev HIF_CMD_STATUS.HELD : Fld := ⟨HIF_CMD_STATUS.reg, 31, 1⟩
/-- HIF_CMD_STATUS.IN_PROGRESS [24:16] RO. -/
abbrev HIF_CMD_STATUS.IN_PROGRESS : Fld := ⟨HIF_CMD_STATUS.reg, 16, 9⟩
/-- HIF_CMD_STATUS.LAST_INDEX [15:0] RO. -/
abbrev HIF_CMD_STATUS.LAST_INDEX : Fld := ⟨HIF_CMD_STATUS.reg, 0, 16⟩
/-- Offset of HIF_CMD_ERR_COUNT (12_host_interface_and_events.md). -/
def HIF_CMD_ERR_COUNT.reg : Nat := 0x190034
/-- HIF_CMD_ERR_COUNT.COUNT [31:0] RO. -/
abbrev HIF_CMD_ERR_COUNT.COUNT : Fld := ⟨HIF_CMD_ERR_COUNT.reg, 0, 32⟩
/-- Offset of HIF_RINGr_BASE_LO (12_host_interface_and_events.md). -/
def HIF_RING_BASE_LO.reg (r : Nat) : Nat := 0x190100 + 0x20 * (r % 32)
/-- HIF_RINGr_BASE_LO.ADDR_LO [31:6] RW. -/
abbrev HIF_RING_BASE_LO.ADDR_LO (r : Nat) : Fld := ⟨(HIF_RING_BASE_LO.reg r), 6, 26⟩
/-- Offset of HIF_RINGr_BASE_HI (12_host_interface_and_events.md). -/
def HIF_RING_BASE_HI.reg (r : Nat) : Nat := 0x190104 + 0x20 * (r % 32)
/-- HIF_RINGr_BASE_HI.ADDR_HI [31:0] RW. -/
abbrev HIF_RING_BASE_HI.ADDR_HI (r : Nat) : Fld := ⟨(HIF_RING_BASE_HI.reg r), 0, 32⟩
/-- Offset of HIF_RINGr_CTRL (12_host_interface_and_events.md). -/
def HIF_RING_CTRL.reg (r : Nat) : Nat := 0x190108 + 0x20 * (r % 32)
/-- HIF_RINGr_CTRL.EN [31:31] RW. -/
abbrev HIF_RING_CTRL.EN (r : Nat) : Fld := ⟨(HIF_RING_CTRL.reg r), 31, 1⟩
/-- HIF_RINGr_CTRL.IRQ_EN [30:30] RW. -/
abbrev HIF_RING_CTRL.IRQ_EN (r : Nat) : Fld := ⟨(HIF_RING_CTRL.reg r), 30, 1⟩
/-- HIF_RINGr_CTRL.VECTOR [28:24] RW. -/
abbrev HIF_RING_CTRL.VECTOR (r : Nat) : Fld := ⟨(HIF_RING_CTRL.reg r), 24, 5⟩
/-- HIF_RINGr_CTRL.SIZE_LOG2 [3:0] RW. -/
abbrev HIF_RING_CTRL.SIZE_LOG2 (r : Nat) : Fld := ⟨(HIF_RING_CTRL.reg r), 0, 4⟩
/-- Offset of HIF_RINGr_INDEX (12_host_interface_and_events.md). -/
def HIF_RING_INDEX.reg (r : Nat) : Nat := 0x19010C + 0x20 * (r % 32)
/-- HIF_RINGr_INDEX.TAIL [31:16] RO. -/
abbrev HIF_RING_INDEX.TAIL (r : Nat) : Fld := ⟨(HIF_RING_INDEX.reg r), 16, 16⟩
/-- HIF_RINGr_INDEX.HEAD [15:0] RO. -/
abbrev HIF_RING_INDEX.HEAD (r : Nat) : Fld := ⟨(HIF_RING_INDEX.reg r), 0, 16⟩
/-- Offset of HIF_RINGr_STATUS (12_host_interface_and_events.md). -/
def HIF_RING_STATUS.reg (r : Nat) : Nat := 0x190110 + 0x20 * (r % 32)
/-- HIF_RINGr_STATUS.STALLED [31:31] RO. -/
abbrev HIF_RING_STATUS.STALLED (r : Nat) : Fld := ⟨(HIF_RING_STATUS.reg r), 31, 1⟩
/-- HIF_RINGr_STATUS.ERR_CODE [3:0] RO. -/
abbrev HIF_RING_STATUS.ERR_CODE (r : Nat) : Fld := ⟨(HIF_RING_STATUS.reg r), 0, 4⟩
/-- Offset of HIF_RINGr_DISCARD_COUNT (12_host_interface_and_events.md). -/
def HIF_RING_DISCARD_COUNT.reg (r : Nat) : Nat := 0x190114 + 0x20 * (r % 32)
/-- HIF_RINGr_DISCARD_COUNT.VALUE [31:0] RO. -/
abbrev HIF_RING_DISCARD_COUNT.VALUE (r : Nat) : Fld := ⟨(HIF_RING_DISCARD_COUNT.reg r), 0, 32⟩
/-- Offset of HIF_RINGr_BLOCK_COUNT (12_host_interface_and_events.md). -/
def HIF_RING_BLOCK_COUNT.reg (r : Nat) : Nat := 0x190118 + 0x20 * (r % 32)
/-- HIF_RINGr_BLOCK_COUNT.VALUE [31:0] RO. -/
abbrev HIF_RING_BLOCK_COUNT.VALUE (r : Nat) : Fld := ⟨(HIF_RING_BLOCK_COUNT.reg r), 0, 32⟩
/-- Offset of HIF_EVq_ROUTE (12_host_interface_and_events.md). -/
def HIF_EV_ROUTE.reg (q : Nat) : Nat := 0x190800 + 0x4 * (q % 64)
/-- HIF_EVq_ROUTE.RING_EN [31:31] RW. -/
abbrev HIF_EV_ROUTE.RING_EN (q : Nat) : Fld := ⟨(HIF_EV_ROUTE.reg q), 31, 1⟩
/-- HIF_EVq_ROUTE.MSIX_EN [30:30] RW. -/
abbrev HIF_EV_ROUTE.MSIX_EN (q : Nat) : Fld := ⟨(HIF_EV_ROUTE.reg q), 30, 1⟩
/-- HIF_EVq_ROUTE.URGENT [29:29] RW. -/
abbrev HIF_EV_ROUTE.URGENT (q : Nat) : Fld := ⟨(HIF_EV_ROUTE.reg q), 29, 1⟩
/-- HIF_EVq_ROUTE.VECTOR [28:24] RW. -/
abbrev HIF_EV_ROUTE.VECTOR (q : Nat) : Fld := ⟨(HIF_EV_ROUTE.reg q), 24, 5⟩
/-- HIF_EVq_ROUTE.HOLD_US [15:0] RW. -/
abbrev HIF_EV_ROUTE.HOLD_US (q : Nat) : Fld := ⟨(HIF_EV_ROUTE.reg q), 0, 16⟩
/-- Offset of HIF_EVq_COUNT (12_host_interface_and_events.md). -/
def HIF_EV_COUNT.reg (q : Nat) : Nat := 0x190900 + 0x4 * (q % 64)
/-- HIF_EVq_COUNT.COUNT [31:0] RO. -/
abbrev HIF_EV_COUNT.COUNT (q : Nat) : Fld := ⟨(HIF_EV_COUNT.reg q), 0, 32⟩
/-- Offset of HIF_EV_PEND_LO (12_host_interface_and_events.md). -/
def HIF_EV_PEND_LO.reg : Nat := 0x190A00
/-- HIF_EV_PEND_LO.PEND [31:0] W1C. -/
abbrev HIF_EV_PEND_LO.PEND : Fld := ⟨HIF_EV_PEND_LO.reg, 0, 32⟩
/-- Offset of HIF_EV_PEND_HI (12_host_interface_and_events.md). -/
def HIF_EV_PEND_HI.reg : Nat := 0x190A04
/-- HIF_EV_PEND_HI.PEND [31:0] W1C. -/
abbrev HIF_EV_PEND_HI.PEND : Fld := ⟨HIF_EV_PEND_HI.reg, 0, 32⟩
/-- Offset of HIF_VECv_MOD (12_host_interface_and_events.md). -/
def HIF_VEC_MOD.reg (v : Nat) : Nat := 0x190C00 + 0x4 * (v % 32)
/-- HIF_VECv_MOD.HOLDOFF_US [15:0] RW. -/
abbrev HIF_VEC_MOD.HOLDOFF_US (v : Nat) : Fld := ⟨(HIF_VEC_MOD.reg v), 0, 16⟩
/-- Offset of DBL_RINGr (12_host_interface_and_events.md). -/
def DBL_RING.reg (r : Nat) : Nat := 0x1A0000 + 0x4 * (r % 32)
/-- DBL_RINGr.TAIL [15:0] WO. -/
abbrev DBL_RING.TAIL (r : Nat) : Fld := ⟨(DBL_RING.reg r), 0, 16⟩
/-- Offset of CMP_CFG (13_product_formats_and_compression.md). -/
def CMP_CFG.reg : Nat := 0x1B0000
/-- CMP_CFG.EN [31:31] RWL. -/
abbrev CMP_CFG.EN : Fld := ⟨CMP_CFG.reg, 31, 1⟩
/-- CMP_CFG.MAX_WAIT_US [15:0] RWL. -/
abbrev CMP_CFG.MAX_WAIT_US : Fld := ⟨CMP_CFG.reg, 0, 16⟩
/-- Offset of CMP_RING_EN (13_product_formats_and_compression.md). -/
def CMP_RING_EN.reg : Nat := 0x1B0004
/-- CMP_RING_EN.RING [31:3] RWL. -/
abbrev CMP_RING_EN.RING : Fld := ⟨CMP_RING_EN.reg, 3, 29⟩
/-- Offset of CMP_MAP_CFG (13_product_formats_and_compression.md). -/
def CMP_MAP_CFG.reg : Nat := 0x1B0008
/-- CMP_MAP_CFG.FULL [7:0] RWL. -/
abbrev CMP_MAP_CFG.FULL : Fld := ⟨CMP_MAP_CFG.reg, 0, 8⟩
/-- Offset of CMP_HEALTH_CFG (13_product_formats_and_compression.md). -/
def CMP_HEALTH_CFG.reg : Nat := 0x1B000C
/-- CMP_HEALTH_CFG.EN [31:31] RWL. -/
abbrev CMP_HEALTH_CFG.EN : Fld := ⟨CMP_HEALTH_CFG.reg, 31, 1⟩
/-- CMP_HEALTH_CFG.PERIOD_MS [15:0] RWL. -/
abbrev CMP_HEALTH_CFG.PERIOD_MS : Fld := ⟨CMP_HEALTH_CFG.reg, 0, 16⟩
/-- Offset of CMP_PORTn_CFG (13_product_formats_and_compression.md). -/
def CMP_PORT_CFG.reg (n : Nat) : Nat := 0x1B0040 + 0x4 * (n % 12)
/-- CMP_PORTn_CFG.RAW_EN [31:31] RWL. -/
abbrev CMP_PORT_CFG.RAW_EN (n : Nat) : Fld := ⟨(CMP_PORT_CFG.reg n), 31, 1⟩
/-- CMP_PORTn_CFG.LEVEL_EN [30:30] RWL. -/
abbrev CMP_PORT_CFG.LEVEL_EN (n : Nat) : Fld := ⟨(CMP_PORT_CFG.reg n), 30, 1⟩
/-- Offset of CMP_HEALTH_LISTi (13_product_formats_and_compression.md). -/
def CMP_HEALTH_LIST.reg (i : Nat) : Nat := 0x1B0100 + 0x4 * (i % 64)
/-- CMP_HEALTH_LISTi.OFFSET [31:0] RWL. -/
abbrev CMP_HEALTH_LIST.OFFSET (i : Nat) : Fld := ⟨(CMP_HEALTH_LIST.reg i), 0, 32⟩
/-- Offset of CMP_PLAN_RATE (13_product_formats_and_compression.md). -/
def CMP_PLAN_RATE.reg : Nat := 0x1B0200
/-- CMP_PLAN_RATE.VALUE [31:0] RO. -/
abbrev CMP_PLAN_RATE.VALUE : Fld := ⟨CMP_PLAN_RATE.reg, 0, 32⟩
/-- Offset of CMP_IN_BYTES_LO (13_product_formats_and_compression.md). -/
def CMP_IN_BYTES_LO.reg : Nat := 0x1B0204
/-- CMP_IN_BYTES_LO.VALUE [31:0] RO. -/
abbrev CMP_IN_BYTES_LO.VALUE : Fld := ⟨CMP_IN_BYTES_LO.reg, 0, 32⟩
/-- Offset of CMP_IN_BYTES_HI (13_product_formats_and_compression.md). -/
def CMP_IN_BYTES_HI.reg : Nat := 0x1B0208
/-- CMP_IN_BYTES_HI.VALUE [31:0] RO. -/
abbrev CMP_IN_BYTES_HI.VALUE : Fld := ⟨CMP_IN_BYTES_HI.reg, 0, 32⟩
/-- Offset of CMP_OUT_BYTES_LO (13_product_formats_and_compression.md). -/
def CMP_OUT_BYTES_LO.reg : Nat := 0x1B020C
/-- CMP_OUT_BYTES_LO.VALUE [31:0] RO. -/
abbrev CMP_OUT_BYTES_LO.VALUE : Fld := ⟨CMP_OUT_BYTES_LO.reg, 0, 32⟩
/-- Offset of CMP_OUT_BYTES_HI (13_product_formats_and_compression.md). -/
def CMP_OUT_BYTES_HI.reg : Nat := 0x1B0210
/-- CMP_OUT_BYTES_HI.VALUE [31:0] RO. -/
abbrev CMP_OUT_BYTES_HI.VALUE : Fld := ⟨CMP_OUT_BYTES_HI.reg, 0, 32⟩
/-- Offset of CMP_STORED_COUNT (13_product_formats_and_compression.md). -/
def CMP_STORED_COUNT.reg : Nat := 0x1B0214
/-- CMP_STORED_COUNT.VALUE [31:0] RO. -/
abbrev CMP_STORED_COUNT.VALUE : Fld := ⟨CMP_STORED_COUNT.reg, 0, 32⟩
/-- Offset of CMP_BYPASS_COUNT (13_product_formats_and_compression.md). -/
def CMP_BYPASS_COUNT.reg : Nat := 0x1B0218
/-- CMP_BYPASS_COUNT.VALUE [31:0] RO. -/
abbrev CMP_BYPASS_COUNT.VALUE : Fld := ⟨CMP_BYPASS_COUNT.reg, 0, 32⟩
/-- Offset of CMP_LINK_DROP_COUNT (13_product_formats_and_compression.md). -/
def CMP_LINK_DROP_COUNT.reg : Nat := 0x1B021C
/-- CMP_LINK_DROP_COUNT.VALUE [31:0] RO. -/
abbrev CMP_LINK_DROP_COUNT.VALUE : Fld := ⟨CMP_LINK_DROP_COUNT.reg, 0, 32⟩
/-- Offset of CMP_ENGINE_BUSY (13_product_formats_and_compression.md). -/
def CMP_ENGINE_BUSY.reg : Nat := 0x1B0220
/-- CMP_ENGINE_BUSY.BUSY [3:0] RO. -/
abbrev CMP_ENGINE_BUSY.BUSY : Fld := ⟨CMP_ENGINE_BUSY.reg, 0, 4⟩
/-- Offset of AUX_SEQ_CFG (14_auxiliary_inputs.md). -/
def AUX_SEQ_CFG.reg : Nat := 0x1C0000
/-- AUX_SEQ_CFG.EN [31:31] RWL. -/
abbrev AUX_SEQ_CFG.EN : Fld := ⟨AUX_SEQ_CFG.reg, 31, 1⟩
/-- AUX_SEQ_CFG.OUT_EN [30:30] RWL. -/
abbrev AUX_SEQ_CFG.OUT_EN : Fld := ⟨AUX_SEQ_CFG.reg, 30, 1⟩
/-- AUX_SEQ_CFG.DONE_EV [29:29] RWL. -/
abbrev AUX_SEQ_CFG.DONE_EV : Fld := ⟨AUX_SEQ_CFG.reg, 29, 1⟩
/-- AUX_SEQ_CFG.MODE [27:26] RWL. -/
abbrev AUX_SEQ_CFG.MODE : Fld := ⟨AUX_SEQ_CFG.reg, 26, 2⟩
/-- AUX_SEQ_CFG.LAST [19:16] RWL. -/
abbrev AUX_SEQ_CFG.LAST : Fld := ⟨AUX_SEQ_CFG.reg, 16, 4⟩
/-- Offset of AUX_SEQ_PERIOD (14_auxiliary_inputs.md). -/
def AUX_SEQ_PERIOD.reg : Nat := 0x1C0004
/-- AUX_SEQ_PERIOD.PASS_ROUNDS [31:20] RWL. -/
abbrev AUX_SEQ_PERIOD.PASS_ROUNDS : Fld := ⟨AUX_SEQ_PERIOD.reg, 20, 12⟩
/-- AUX_SEQ_PERIOD.PASS_US [19:0] RWL. -/
abbrev AUX_SEQ_PERIOD.PASS_US : Fld := ⟨AUX_SEQ_PERIOD.reg, 0, 20⟩
/-- Offset of AUX_BIAS (14_auxiliary_inputs.md). -/
def AUX_BIAS.reg : Nat := 0x1C0008
/-- AUX_BIAS.BIAS [15:0] RWL. -/
abbrev AUX_BIAS.BIAS : Fld := ⟨AUX_BIAS.reg, 0, 16⟩
/-- Offset of AUX_REF_CFG (14_auxiliary_inputs.md). -/
def AUX_REF_CFG.reg : Nat := 0x1C000C
/-- AUX_REF_CFG.INT_EN [31:31] RWL. -/
abbrev AUX_REF_CFG.INT_EN : Fld := ⟨AUX_REF_CFG.reg, 31, 1⟩
/-- AUX_REF_CFG.EXT_SETTLE_MS [23:16] RWL. -/
abbrev AUX_REF_CFG.EXT_SETTLE_MS : Fld := ⟨AUX_REF_CFG.reg, 16, 8⟩
/-- AUX_REF_CFG.EXT_MV [15:0] RWL. -/
abbrev AUX_REF_CFG.EXT_MV : Fld := ⟨AUX_REF_CFG.reg, 0, 16⟩
/-- Offset of AUX_BLANK0_CFG (14_auxiliary_inputs.md). -/
def AUX_BLANK0_CFG.reg : Nat := 0x1C0010
/-- AUX_BLANK0_CFG.EN [31:31] RWL. -/
abbrev AUX_BLANK0_CFG.EN : Fld := ⟨AUX_BLANK0_CFG.reg, 31, 1⟩
/-- AUX_BLANK0_CFG.PAUSE [30:30] RWL. -/
abbrev AUX_BLANK0_CFG.PAUSE : Fld := ⟨AUX_BLANK0_CFG.reg, 30, 1⟩
/-- AUX_BLANK0_CFG.MARK [29:29] RWL. -/
abbrev AUX_BLANK0_CFG.MARK : Fld := ⟨AUX_BLANK0_CFG.reg, 29, 1⟩
/-- AUX_BLANK0_CFG.FILTER_US [23:16] RWL. -/
abbrev AUX_BLANK0_CFG.FILTER_US : Fld := ⟨AUX_BLANK0_CFG.reg, 16, 8⟩
/-- AUX_BLANK0_CFG.PORTS [11:0] RWL. -/
abbrev AUX_BLANK0_CFG.PORTS : Fld := ⟨AUX_BLANK0_CFG.reg, 0, 12⟩
/-- Offset of AUX_BLANK1_CFG (14_auxiliary_inputs.md). -/
def AUX_BLANK1_CFG.reg : Nat := 0x1C0014
/-- AUX_BLANK1_CFG.EN [31:31] RWL. -/
abbrev AUX_BLANK1_CFG.EN : Fld := ⟨AUX_BLANK1_CFG.reg, 31, 1⟩
/-- AUX_BLANK1_CFG.PAUSE [30:30] RWL. -/
abbrev AUX_BLANK1_CFG.PAUSE : Fld := ⟨AUX_BLANK1_CFG.reg, 30, 1⟩
/-- AUX_BLANK1_CFG.MARK [29:29] RWL. -/
abbrev AUX_BLANK1_CFG.MARK : Fld := ⟨AUX_BLANK1_CFG.reg, 29, 1⟩
/-- AUX_BLANK1_CFG.FILTER_US [23:16] RWL. -/
abbrev AUX_BLANK1_CFG.FILTER_US : Fld := ⟨AUX_BLANK1_CFG.reg, 16, 8⟩
/-- AUX_BLANK1_CFG.PORTS [11:0] RWL. -/
abbrev AUX_BLANK1_CFG.PORTS : Fld := ⟨AUX_BLANK1_CFG.reg, 0, 12⟩
/-- Offset of AUX_STATUS (14_auxiliary_inputs.md). -/
def AUX_STATUS.reg : Nat := 0x1C0020
/-- AUX_STATUS.BUSY [31:31] RO. -/
abbrev AUX_STATUS.BUSY : Fld := ⟨AUX_STATUS.reg, 31, 1⟩
/-- AUX_STATUS.BLANK0 [30:30] RO. -/
abbrev AUX_STATUS.BLANK0 : Fld := ⟨AUX_STATUS.reg, 30, 1⟩
/-- AUX_STATUS.BLANK1 [29:29] RO. -/
abbrev AUX_STATUS.BLANK1 : Fld := ⟨AUX_STATUS.reg, 29, 1⟩
/-- AUX_STATUS.INT_REF_OK [28:28] RO. -/
abbrev AUX_STATUS.INT_REF_OK : Fld := ⟨AUX_STATUS.reg, 28, 1⟩
/-- AUX_STATUS.EXT_REF_OK [27:27] RO. -/
abbrev AUX_STATUS.EXT_REF_OK : Fld := ⟨AUX_STATUS.reg, 27, 1⟩
/-- AUX_STATUS.SUP_REF_OK [26:26] RO. -/
abbrev AUX_STATUS.SUP_REF_OK : Fld := ⟨AUX_STATUS.reg, 26, 1⟩
/-- AUX_STATUS.ENTRY [19:16] RO. -/
abbrev AUX_STATUS.ENTRY : Fld := ⟨AUX_STATUS.reg, 16, 4⟩
/-- Offset of AUX_PASS_TIME (14_auxiliary_inputs.md). -/
def AUX_PASS_TIME.reg : Nat := 0x1C0024
/-- AUX_PASS_TIME.VALUE [31:0] RO. -/
abbrev AUX_PASS_TIME.VALUE : Fld := ⟨AUX_PASS_TIME.reg, 0, 32⟩
/-- Offset of AUX_PASS_NUM (14_auxiliary_inputs.md). -/
def AUX_PASS_NUM.reg : Nat := 0x1C0028
/-- AUX_PASS_NUM.VALUE [31:0] RO. -/
abbrev AUX_PASS_NUM.VALUE : Fld := ⟨AUX_PASS_NUM.reg, 0, 32⟩
/-- Offset of AUX_PASS_OVERRUN_COUNT (14_auxiliary_inputs.md). -/
def AUX_PASS_OVERRUN_COUNT.reg : Nat := 0x1C0030
/-- AUX_PASS_OVERRUN_COUNT.VALUE [31:0] RO. -/
abbrev AUX_PASS_OVERRUN_COUNT.VALUE : Fld := ⟨AUX_PASS_OVERRUN_COUNT.reg, 0, 32⟩
/-- Offset of AUX_BLANK_PAUSE_COUNT (14_auxiliary_inputs.md). -/
def AUX_BLANK_PAUSE_COUNT.reg : Nat := 0x1C0034
/-- AUX_BLANK_PAUSE_COUNT.VALUE [31:0] RO. -/
abbrev AUX_BLANK_PAUSE_COUNT.VALUE : Fld := ⟨AUX_BLANK_PAUSE_COUNT.reg, 0, 32⟩
/-- Offset of AUX_EXC_FAULT_COUNT (14_auxiliary_inputs.md). -/
def AUX_EXC_FAULT_COUNT.reg : Nat := 0x1C0038
/-- AUX_EXC_FAULT_COUNT.VALUE [31:0] RO. -/
abbrev AUX_EXC_FAULT_COUNT.VALUE : Fld := ⟨AUX_EXC_FAULT_COUNT.reg, 0, 32⟩
/-- Offset of AUX_HK_LATE_COUNT (14_auxiliary_inputs.md). -/
def AUX_HK_LATE_COUNT.reg : Nat := 0x1C003C
/-- AUX_HK_LATE_COUNT.VALUE [31:0] RO. -/
abbrev AUX_HK_LATE_COUNT.VALUE : Fld := ⟨AUX_HK_LATE_COUNT.reg, 0, 32⟩
/-- Offset of AUX_ENTe_SEL (14_auxiliary_inputs.md). -/
def AUX_ENT_SEL.reg (e : Nat) : Nat := 0x1C0100 + 0x20 * (e % 16)
/-- AUX_ENTe_SEL.POS [31:26] RWL. -/
abbrev AUX_ENT_SEL.POS (e : Nat) : Fld := ⟨(AUX_ENT_SEL.reg e), 26, 6⟩
/-- AUX_ENTe_SEL.NEG [25:22] RWL. -/
abbrev AUX_ENT_SEL.NEG (e : Nat) : Fld := ⟨(AUX_ENT_SEL.reg e), 22, 4⟩
/-- AUX_ENTe_SEL.EXC_EN [21:21] RWL. -/
abbrev AUX_ENT_SEL.EXC_EN (e : Nat) : Fld := ⟨(AUX_ENT_SEL.reg e), 21, 1⟩
/-- AUX_ENTe_SEL.EXC_PIN [20:17] RWL. -/
abbrev AUX_ENT_SEL.EXC_PIN (e : Nat) : Fld := ⟨(AUX_ENT_SEL.reg e), 17, 4⟩
/-- AUX_ENTe_SEL.EXC_CODE [16:14] RWL. -/
abbrev AUX_ENT_SEL.EXC_CODE (e : Nat) : Fld := ⟨(AUX_ENT_SEL.reg e), 14, 3⟩
/-- AUX_ENTe_SEL.LEAD [13:12] RWL. -/
abbrev AUX_ENT_SEL.LEAD (e : Nat) : Fld := ⟨(AUX_ENT_SEL.reg e), 12, 2⟩
/-- AUX_ENTe_SEL.LEAD_PIN [11:8] RWL. -/
abbrev AUX_ENT_SEL.LEAD_PIN (e : Nat) : Fld := ⟨(AUX_ENT_SEL.reg e), 8, 4⟩
/-- AUX_ENTe_SEL.REF [7:6] RWL. -/
abbrev AUX_ENT_SEL.REF (e : Nat) : Fld := ⟨(AUX_ENT_SEL.reg e), 6, 2⟩
/-- Offset of AUX_ENTe_TIME (14_auxiliary_inputs.md). -/
def AUX_ENT_TIME.reg (e : Nat) : Nat := 0x1C0104 + 0x20 * (e % 16)
/-- AUX_ENTe_TIME.SETTLE_US [31:24] RWL. -/
abbrev AUX_ENT_TIME.SETTLE_US (e : Nat) : Fld := ⟨(AUX_ENT_TIME.reg e), 24, 8⟩
/-- AUX_ENTe_TIME.ALIGN_EN [19:19] RWL. -/
abbrev AUX_ENT_TIME.ALIGN_EN (e : Nat) : Fld := ⟨(AUX_ENT_TIME.reg e), 19, 1⟩
/-- AUX_ENTe_TIME.SAMP [18:16] RWL. -/
abbrev AUX_ENT_TIME.SAMP (e : Nat) : Fld := ⟨(AUX_ENT_TIME.reg e), 16, 3⟩
/-- AUX_ENTe_TIME.GAIN_LOG2 [10:8] RWL. -/
abbrev AUX_ENT_TIME.GAIN_LOG2 (e : Nat) : Fld := ⟨(AUX_ENT_TIME.reg e), 8, 3⟩
/-- AUX_ENTe_TIME.FORMAT [5:4] RWL. -/
abbrev AUX_ENT_TIME.FORMAT (e : Nat) : Fld := ⟨(AUX_ENT_TIME.reg e), 4, 2⟩
/-- Offset of AUX_ENTe_VALUE (14_auxiliary_inputs.md). -/
def AUX_ENT_VALUE.reg (e : Nat) : Nat := 0x1C0108 + 0x20 * (e % 16)
/-- AUX_ENTe_VALUE.VALUE [31:0] RO. -/
abbrev AUX_ENT_VALUE.VALUE (e : Nat) : Fld := ⟨(AUX_ENT_VALUE.reg e), 0, 32⟩
/-- Offset of AUX_ENTe_LEAD (14_auxiliary_inputs.md). -/
def AUX_ENT_LEAD.reg (e : Nat) : Nat := 0x1C010C + 0x20 * (e % 16)
/-- AUX_ENTe_LEAD.VALUE [31:0] RO. -/
abbrev AUX_ENT_LEAD.VALUE (e : Nat) : Fld := ⟨(AUX_ENT_LEAD.reg e), 0, 32⟩
/-- Offset of AUX_ENTe_STATUS (14_auxiliary_inputs.md). -/
def AUX_ENT_STATUS.reg (e : Nat) : Nat := 0x1C0110 + 0x20 * (e % 16)
/-- AUX_ENTe_STATUS.REF_SETTLING [31:31] RO. -/
abbrev AUX_ENT_STATUS.REF_SETTLING (e : Nat) : Fld := ⟨(AUX_ENT_STATUS.reg e), 31, 1⟩
/-- AUX_ENTe_STATUS.EXC_FAULT [30:30] RO. -/
abbrev AUX_ENT_STATUS.EXC_FAULT (e : Nat) : Fld := ⟨(AUX_ENT_STATUS.reg e), 30, 1⟩
/-- AUX_ENTe_STATUS.BLANKED [29:29] RO. -/
abbrev AUX_ENT_STATUS.BLANKED (e : Nat) : Fld := ⟨(AUX_ENT_STATUS.reg e), 29, 1⟩
/-- AUX_ENTe_STATUS.OVERRANGE [28:28] RO. -/
abbrev AUX_ENT_STATUS.OVERRANGE (e : Nat) : Fld := ⟨(AUX_ENT_STATUS.reg e), 28, 1⟩
/-- AUX_ENTe_STATUS.FRAC_USED [6:0] RO. -/
abbrev AUX_ENT_STATUS.FRAC_USED (e : Nat) : Fld := ⟨(AUX_ENT_STATUS.reg e), 0, 7⟩
/-- Offset of AUX_HKc (14_auxiliary_inputs.md). -/
def AUX_HK.reg (c : Nat) : Nat := 0x1C0400 + 0x4 * ((c - 16) % 24)
/-- AUX_HKc.VALUE [31:0] RO. -/
abbrev AUX_HK.VALUE (c : Nat) : Fld := ⟨(AUX_HK.reg c), 0, 32⟩
/-- Offset of MLK_CFG (15_redundant_pair_and_fuvon_link.md). -/
def MLK_CFG.reg : Nat := 0x1D0000
/-- MLK_CFG.EN [31:31] RWL. -/
abbrev MLK_CFG.EN : Fld := ⟨MLK_CFG.reg, 31, 1⟩
/-- MLK_CFG.PAIR_EN [30:30] RWL. -/
abbrev MLK_CFG.PAIR_EN : Fld := ⟨MLK_CFG.reg, 30, 1⟩
/-- MLK_CFG.ROLE [29:29] RWL. -/
abbrev MLK_CFG.ROLE : Fld := ⟨MLK_CFG.reg, 29, 1⟩
/-- MLK_CFG.TKO_AT_START [28:28] RWL. -/
abbrev MLK_CFG.TKO_AT_START : Fld := ⟨MLK_CFG.reg, 28, 1⟩
/-- MLK_CFG.REF_RESTORE [27:27] RWL. -/
abbrev MLK_CFG.REF_RESTORE : Fld := ⟨MLK_CFG.reg, 27, 1⟩
/-- MLK_CFG.ARM_WAIT_MS [15:0] RWL. -/
abbrev MLK_CFG.ARM_WAIT_MS : Fld := ⟨MLK_CFG.reg, 0, 16⟩
/-- Offset of MLK_EQ_TX (15_redundant_pair_and_fuvon_link.md). -/
def MLK_EQ_TX.reg : Nat := 0x1D0004
/-- MLK_EQ_TX.CLK [19:16] RWL. -/
abbrev MLK_EQ_TX.CLK : Fld := ⟨MLK_EQ_TX.reg, 16, 4⟩
/-- MLK_EQ_TX.LANE3 [15:12] RWL. -/
abbrev MLK_EQ_TX.LANE3 : Fld := ⟨MLK_EQ_TX.reg, 12, 4⟩
/-- MLK_EQ_TX.LANE2 [11:8] RWL. -/
abbrev MLK_EQ_TX.LANE2 : Fld := ⟨MLK_EQ_TX.reg, 8, 4⟩
/-- MLK_EQ_TX.LANE1 [7:4] RWL. -/
abbrev MLK_EQ_TX.LANE1 : Fld := ⟨MLK_EQ_TX.reg, 4, 4⟩
/-- MLK_EQ_TX.LANE0 [3:0] RWL. -/
abbrev MLK_EQ_TX.LANE0 : Fld := ⟨MLK_EQ_TX.reg, 0, 4⟩
/-- Offset of MLK_EQ_RX (15_redundant_pair_and_fuvon_link.md). -/
def MLK_EQ_RX.reg : Nat := 0x1D0008
/-- MLK_EQ_RX.CLK [19:16] RWL. -/
abbrev MLK_EQ_RX.CLK : Fld := ⟨MLK_EQ_RX.reg, 16, 4⟩
/-- MLK_EQ_RX.LANE3 [15:12] RWL. -/
abbrev MLK_EQ_RX.LANE3 : Fld := ⟨MLK_EQ_RX.reg, 12, 4⟩
/-- MLK_EQ_RX.LANE2 [11:8] RWL. -/
abbrev MLK_EQ_RX.LANE2 : Fld := ⟨MLK_EQ_RX.reg, 8, 4⟩
/-- MLK_EQ_RX.LANE1 [7:4] RWL. -/
abbrev MLK_EQ_RX.LANE1 : Fld := ⟨MLK_EQ_RX.reg, 4, 4⟩
/-- MLK_EQ_RX.LANE0 [3:0] RWL. -/
abbrev MLK_EQ_RX.LANE0 : Fld := ⟨MLK_EQ_RX.reg, 0, 4⟩
/-- Offset of MLK_LINK_STATUS (15_redundant_pair_and_fuvon_link.md). -/
def MLK_LINK_STATUS.reg : Nat := 0x1D000C
/-- MLK_LINK_STATUS.STATE [31:29] RO. -/
abbrev MLK_LINK_STATUS.STATE : Fld := ⟨MLK_LINK_STATUS.reg, 29, 3⟩
/-- MLK_LINK_STATUS.CLK_OK [28:28] RO. -/
abbrev MLK_LINK_STATUS.CLK_OK : Fld := ⟨MLK_LINK_STATUS.reg, 28, 1⟩
/-- MLK_LINK_STATUS.LANES_UP [27:24] RO. -/
abbrev MLK_LINK_STATUS.LANES_UP : Fld := ⟨MLK_LINK_STATUS.reg, 24, 4⟩
/-- MLK_LINK_STATUS.DOWN_SEEN [23:23] W1C. -/
abbrev MLK_LINK_STATUS.DOWN_SEEN : Fld := ⟨MLK_LINK_STATUS.reg, 23, 1⟩
/-- Offset of MLK_PAIR_STATUS (15_redundant_pair_and_fuvon_link.md). -/
def MLK_PAIR_STATUS.reg : Nat := 0x1D0010
/-- MLK_PAIR_STATUS.ARMED [31:31] RO. -/
abbrev MLK_PAIR_STATUS.ARMED : Fld := ⟨MLK_PAIR_STATUS.reg, 31, 1⟩
/-- MLK_PAIR_STATUS.TKO_ACTIVE [30:30] RO. -/
abbrev MLK_PAIR_STATUS.TKO_ACTIVE : Fld := ⟨MLK_PAIR_STATUS.reg, 30, 1⟩
/-- MLK_PAIR_STATUS.CH_CLASH [29:29] RO. -/
abbrev MLK_PAIR_STATUS.CH_CLASH : Fld := ⟨MLK_PAIR_STATUS.reg, 29, 1⟩
/-- MLK_PAIR_STATUS.ROLE_CLASH [28:28] RO. -/
abbrev MLK_PAIR_STATUS.ROLE_CLASH : Fld := ⟨MLK_PAIR_STATUS.reg, 28, 1⟩
/-- MLK_PAIR_STATUS.LOOP_MISMATCH [27:27] RO. -/
abbrev MLK_PAIR_STATUS.LOOP_MISMATCH : Fld := ⟨MLK_PAIR_STATUS.reg, 27, 1⟩
/-- MLK_PAIR_STATUS.TKO_INVALID [26:26] RO. -/
abbrev MLK_PAIR_STATUS.TKO_INVALID : Fld := ⟨MLK_PAIR_STATUS.reg, 26, 1⟩
/-- MLK_PAIR_STATUS.MIRROR_SYNCED [25:25] RO. -/
abbrev MLK_PAIR_STATUS.MIRROR_SYNCED : Fld := ⟨MLK_PAIR_STATUS.reg, 25, 1⟩
/-- MLK_PAIR_STATUS.MIRROR_LAGGING [24:24] RO. -/
abbrev MLK_PAIR_STATUS.MIRROR_LAGGING : Fld := ⟨MLK_PAIR_STATUS.reg, 24, 1⟩
/-- MLK_PAIR_STATUS.REF_RESTORED [23:23] W1C. -/
abbrev MLK_PAIR_STATUS.REF_RESTORED : Fld := ⟨MLK_PAIR_STATUS.reg, 23, 1⟩
/-- MLK_PAIR_STATUS.LOSS_CAUSE [19:16] RO. -/
abbrev MLK_PAIR_STATUS.LOSS_CAUSE : Fld := ⟨MLK_PAIR_STATUS.reg, 16, 4⟩
/-- Offset of MLK_PARTNER_INFO (15_redundant_pair_and_fuvon_link.md). -/
def MLK_PARTNER_INFO.reg : Nat := 0x1D0014
/-- MLK_PARTNER_INFO.PART_CODE [31:16] RO. -/
abbrev MLK_PARTNER_INFO.PART_CODE : Fld := ⟨MLK_PARTNER_INFO.reg, 16, 16⟩
/-- MLK_PARTNER_INFO.ROLE [15:15] RO. -/
abbrev MLK_PARTNER_INFO.ROLE : Fld := ⟨MLK_PARTNER_INFO.reg, 15, 1⟩
/-- MLK_PARTNER_INFO.CH [13:8] RO. -/
abbrev MLK_PARTNER_INFO.CH : Fld := ⟨MLK_PARTNER_INFO.reg, 8, 6⟩
/-- MLK_PARTNER_INFO.STEPPING [7:4] RO. -/
abbrev MLK_PARTNER_INFO.STEPPING : Fld := ⟨MLK_PARTNER_INFO.reg, 4, 4⟩
/-- Offset of MLK_PARTNER_HEALTH (15_redundant_pair_and_fuvon_link.md). -/
def MLK_PARTNER_HEALTH.reg : Nat := 0x1D0018
/-- MLK_PARTNER_HEALTH.FAULT_PORTS [31:20] RO. -/
abbrev MLK_PARTNER_HEALTH.FAULT_PORTS : Fld := ⟨MLK_PARTNER_HEALTH.reg, 20, 12⟩
/-- MLK_PARTNER_HEALTH.BREAK_PORTS [19:8] RO. -/
abbrev MLK_PARTNER_HEALTH.BREAK_PORTS : Fld := ⟨MLK_PARTNER_HEALTH.reg, 8, 12⟩
/-- MLK_PARTNER_HEALTH.DOUT [7:4] RO. -/
abbrev MLK_PARTNER_HEALTH.DOUT : Fld := ⟨MLK_PARTNER_HEALTH.reg, 4, 4⟩
/-- MLK_PARTNER_HEALTH.TKO [3:3] RO. -/
abbrev MLK_PARTNER_HEALTH.TKO : Fld := ⟨MLK_PARTNER_HEALTH.reg, 3, 1⟩
/-- MLK_PARTNER_HEALTH.STATE [2:0] RO. -/
abbrev MLK_PARTNER_HEALTH.STATE : Fld := ⟨MLK_PARTNER_HEALTH.reg, 0, 3⟩
/-- Offset of MLK_MIRROR_CFG (15_redundant_pair_and_fuvon_link.md). -/
def MLK_MIRROR_CFG.reg : Nat := 0x1D001C
/-- MLK_MIRROR_CFG.LAG_US [15:0] RWL. -/
abbrev MLK_MIRROR_CFG.LAG_US : Fld := ⟨MLK_MIRROR_CFG.reg, 0, 16⟩
/-- Offset of MLK_ALARM_CFG (15_redundant_pair_and_fuvon_link.md). -/
def MLK_ALARM_CFG.reg : Nat := 0x1D0020
/-- MLK_ALARM_CFG.DOUT_TAKE [3:0] RWL. -/
abbrev MLK_ALARM_CFG.DOUT_TAKE : Fld := ⟨MLK_ALARM_CFG.reg, 0, 4⟩
/-- Offset of MLK_TKO_CHECK (15_redundant_pair_and_fuvon_link.md). -/
def MLK_TKO_CHECK.reg : Nat := 0x1D0024
/-- MLK_TKO_CHECK.REASON [31:24] RO. -/
abbrev MLK_TKO_CHECK.REASON : Fld := ⟨MLK_TKO_CHECK.reg, 24, 8⟩
/-- MLK_TKO_CHECK.TRANSITION [23:23] RO. -/
abbrev MLK_TKO_CHECK.TRANSITION : Fld := ⟨MLK_TKO_CHECK.reg, 23, 1⟩
/-- MLK_TKO_CHECK.PLAN [22:20] RO. -/
abbrev MLK_TKO_CHECK.PLAN : Fld := ⟨MLK_TKO_CHECK.reg, 20, 3⟩
/-- MLK_TKO_CHECK.ENTRY_A [19:14] RO. -/
abbrev MLK_TKO_CHECK.ENTRY_A : Fld := ⟨MLK_TKO_CHECK.reg, 14, 6⟩
/-- MLK_TKO_CHECK.ENTRY_B [13:8] RO. -/
abbrev MLK_TKO_CHECK.ENTRY_B : Fld := ⟨MLK_TKO_CHECK.reg, 8, 6⟩
/-- MLK_TKO_CHECK.PORT [7:4] RO. -/
abbrev MLK_TKO_CHECK.PORT : Fld := ⟨MLK_TKO_CHECK.reg, 4, 4⟩
/-- MLK_TKO_CHECK.CONFLICT_SRC [3:0] RO. -/
abbrev MLK_TKO_CHECK.CONFLICT_SRC : Fld := ⟨MLK_TKO_CHECK.reg, 0, 4⟩
/-- Offset of MLK_TKO_ROUND_LO (15_redundant_pair_and_fuvon_link.md). -/
def MLK_TKO_ROUND_LO.reg : Nat := 0x1D0028
/-- MLK_TKO_ROUND_LO.ROUND [31:0] RO. -/
abbrev MLK_TKO_ROUND_LO.ROUND : Fld := ⟨MLK_TKO_ROUND_LO.reg, 0, 32⟩
/-- Offset of MLK_TKO_ROUND_HI (15_redundant_pair_and_fuvon_link.md). -/
def MLK_TKO_ROUND_HI.reg : Nat := 0x1D002C
/-- MLK_TKO_ROUND_HI.ROUND [15:0] RO. -/
abbrev MLK_TKO_ROUND_HI.ROUND : Fld := ⟨MLK_TKO_ROUND_HI.reg, 0, 16⟩
/-- Offset of MLK_LANEl_CRC_COUNT (15_redundant_pair_and_fuvon_link.md). -/
def MLK_LANE_CRC_COUNT.reg (l : Nat) : Nat := 0x1D0040 + 0x4 * (l % 4)
/-- MLK_LANEl_CRC_COUNT.COUNT [31:0] RO. -/
abbrev MLK_LANE_CRC_COUNT.COUNT (l : Nat) : Fld := ⟨(MLK_LANE_CRC_COUNT.reg l), 0, 32⟩
/-- Offset of MLK_LANEl_COMMA_LOSS_COUNT (15_redundant_pair_and_fuvon_link.md). -/
def MLK_LANE_COMMA_LOSS_COUNT.reg (l : Nat) : Nat := 0x1D0050 + 0x4 * (l % 4)
/-- MLK_LANEl_COMMA_LOSS_COUNT.COUNT [31:0] RO. -/
abbrev MLK_LANE_COMMA_LOSS_COUNT.COUNT (l : Nat) : Fld := ⟨(MLK_LANE_COMMA_LOSS_COUNT.reg l), 0, 32⟩
/-- Offset of MLK_LANEl_STUFF_ERR_COUNT (15_redundant_pair_and_fuvon_link.md). -/
def MLK_LANE_STUFF_ERR_COUNT.reg (l : Nat) : Nat := 0x1D0060 + 0x4 * (l % 4)
/-- MLK_LANEl_STUFF_ERR_COUNT.COUNT [31:0] RO. -/
abbrev MLK_LANE_STUFF_ERR_COUNT.COUNT (l : Nat) : Fld := ⟨(MLK_LANE_STUFF_ERR_COUNT.reg l), 0, 32⟩
/-- Offset of MLK_HB_MISS_COUNT (15_redundant_pair_and_fuvon_link.md). -/
def MLK_HB_MISS_COUNT.reg : Nat := 0x1D0070
/-- MLK_HB_MISS_COUNT.COUNT [31:0] RO. -/
abbrev MLK_HB_MISS_COUNT.COUNT : Fld := ⟨MLK_HB_MISS_COUNT.reg, 0, 32⟩
/-- Offset of MLK_TKO_COUNT (15_redundant_pair_and_fuvon_link.md). -/
def MLK_TKO_COUNT.reg : Nat := 0x1D0074
/-- MLK_TKO_COUNT.COUNT [31:0] RO. -/
abbrev MLK_TKO_COUNT.COUNT : Fld := ⟨MLK_TKO_COUNT.reg, 0, 32⟩
/-- Offset of MLK_FAULT_TX_COUNT (15_redundant_pair_and_fuvon_link.md). -/
def MLK_FAULT_TX_COUNT.reg : Nat := 0x1D0078
/-- MLK_FAULT_TX_COUNT.COUNT [31:0] RO. -/
abbrev MLK_FAULT_TX_COUNT.COUNT : Fld := ⟨MLK_FAULT_TX_COUNT.reg, 0, 32⟩
/-- Offset of MLK_FAULT_RX_COUNT (15_redundant_pair_and_fuvon_link.md). -/
def MLK_FAULT_RX_COUNT.reg : Nat := 0x1D007C
/-- MLK_FAULT_RX_COUNT.COUNT [31:0] RO. -/
abbrev MLK_FAULT_RX_COUNT.COUNT : Fld := ⟨MLK_FAULT_RX_COUNT.reg, 0, 32⟩
/-- Offset of MLK_RETX_COUNT (15_redundant_pair_and_fuvon_link.md). -/
def MLK_RETX_COUNT.reg : Nat := 0x1D0080
/-- MLK_RETX_COUNT.COUNT [31:0] RO. -/
abbrev MLK_RETX_COUNT.COUNT : Fld := ⟨MLK_RETX_COUNT.reg, 0, 32⟩
/-- Offset of MLK_LINK_DOWN_COUNT (15_redundant_pair_and_fuvon_link.md). -/
def MLK_LINK_DOWN_COUNT.reg : Nat := 0x1D0084
/-- MLK_LINK_DOWN_COUNT.COUNT [31:0] RO. -/
abbrev MLK_LINK_DOWN_COUNT.COUNT : Fld := ⟨MLK_LINK_DOWN_COUNT.reg, 0, 32⟩
/-- Offset of MLK_TKO_DEFER_COUNT (15_redundant_pair_and_fuvon_link.md). -/
def MLK_TKO_DEFER_COUNT.reg : Nat := 0x1D0088
/-- MLK_TKO_DEFER_COUNT.COUNT [31:0] RO. -/
abbrev MLK_TKO_DEFER_COUNT.COUNT : Fld := ⟨MLK_TKO_DEFER_COUNT.reg, 0, 32⟩
/-- Offset of MLK_PIMG_SEQ (15_redundant_pair_and_fuvon_link.md). -/
def MLK_PIMG_SEQ.reg : Nat := 0x1D008C
/-- MLK_PIMG_SEQ.COUNT [31:0] RO. -/
abbrev MLK_PIMG_SEQ.COUNT : Fld := ⟨MLK_PIMG_SEQ.reg, 0, 32⟩
/-- Offset of MLK_LOOPn_CFG (15_redundant_pair_and_fuvon_link.md). -/
def MLK_LOOP_CFG.reg (n : Nat) : Nat := 0x1D0100 + 0x10 * (n % 12)
/-- MLK_LOOPn_CFG.EN [31:31] RWL. -/
abbrev MLK_LOOP_CFG.EN (n : Nat) : Fld := ⟨(MLK_LOOP_CFG.reg n), 31, 1⟩
/-- MLK_LOOPn_CFG.PARTNER_PORT [27:24] RWL. -/
abbrev MLK_LOOP_CFG.PARTNER_PORT (n : Nat) : Fld := ⟨(MLK_LOOP_CFG.reg n), 24, 4⟩
/-- MLK_LOOPn_CFG.LOOP_BINS [15:0] RWL. -/
abbrev MLK_LOOP_CFG.LOOP_BINS (n : Nat) : Fld := ⟨(MLK_LOOP_CFG.reg n), 0, 16⟩
/-- Offset of MLK_LOOPn_END (15_redundant_pair_and_fuvon_link.md). -/
def MLK_LOOP_END.reg (n : Nat) : Nat := 0x1D0104 + 0x10 * (n % 12)
/-- MLK_LOOPn_END.TKO_APR_END_BIN [31:16] RWL. -/
abbrev MLK_LOOP_END.TKO_APR_END_BIN (n : Nat) : Fld := ⟨(MLK_LOOP_END.reg n), 16, 16⟩
/-- MLK_LOOPn_END.TKO_END_BIN [15:0] RWL. -/
abbrev MLK_LOOP_END.TKO_END_BIN (n : Nat) : Fld := ⟨(MLK_LOOP_END.reg n), 0, 16⟩
/-- Offset of MLK_LOOPn_STATUS (15_redundant_pair_and_fuvon_link.md). -/
def MLK_LOOP_STATUS.reg (n : Nat) : Nat := 0x1D0108 + 0x10 * (n % 12)
/-- MLK_LOOPn_STATUS.BOUND_US [15:0] RO. -/
abbrev MLK_LOOP_STATUS.BOUND_US (n : Nat) : Fld := ⟨(MLK_LOOP_STATUS.reg n), 0, 16⟩
/-- Offset of SAF_CFG (16_safety_and_event_recorder.md). -/
def SAF_CFG.reg : Nat := 0x1E0000
/-- SAF_CFG.DOUT_CHAN [3:0] RWL. -/
abbrev SAF_CFG.DOUT_CHAN : Fld := ⟨SAF_CFG.reg, 0, 4⟩
/-- Offset of SAF_CHANc_CFG (16_safety_and_event_recorder.md). -/
def SAF_CHAN_CFG.reg (c : Nat) : Nat := 0x1E0010 + 0x8 * (c % 2)
/-- SAF_CHANc_CFG.EN [31:31] RWL. -/
abbrev SAF_CHAN_CFG.EN (c : Nat) : Fld := ⟨(SAF_CHAN_CFG.reg c), 31, 1⟩
/-- SAF_CHANc_CFG.LATCH [30:30] RWL. -/
abbrev SAF_CHAN_CFG.LATCH (c : Nat) : Fld := ⟨(SAF_CHAN_CFG.reg c), 30, 1⟩
/-- SAF_CHANc_CFG.BREAK_ALARM [29:29] RWL. -/
abbrev SAF_CHAN_CFG.BREAK_ALARM (c : Nat) : Fld := ⟨(SAF_CHAN_CFG.reg c), 29, 1⟩
/-- SAF_CHANc_CFG.PORT_MASK [27:16] RWL. -/
abbrev SAF_CHAN_CFG.PORT_MASK (c : Nat) : Fld := ⟨(SAF_CHAN_CFG.reg c), 16, 12⟩
/-- SAF_CHANc_CFG.UNIT_MASK [15:0] RWL. -/
abbrev SAF_CHAN_CFG.UNIT_MASK (c : Nat) : Fld := ⟨(SAF_CHAN_CFG.reg c), 0, 16⟩
/-- Offset of SAF_CHANc_HOLD (16_safety_and_event_recorder.md). -/
def SAF_CHAN_HOLD.reg (c : Nat) : Nat := 0x1E0014 + 0x8 * (c % 2)
/-- SAF_CHANc_HOLD.MODE [31:30] RWL. -/
abbrev SAF_CHAN_HOLD.MODE (c : Nat) : Fld := ⟨(SAF_CHAN_HOLD.reg c), 30, 2⟩
/-- SAF_CHANc_HOLD.HOLD_MS [15:0] RWL. -/
abbrev SAF_CHAN_HOLD.HOLD_MS (c : Nat) : Fld := ⟨(SAF_CHAN_HOLD.reg c), 0, 16⟩
/-- Offset of SAF_CFG_CRC (16_safety_and_event_recorder.md). -/
def SAF_CFG_CRC.reg : Nat := 0x1E0020
/-- SAF_CFG_CRC.VALUE [31:0] RWL. -/
abbrev SAF_CFG_CRC.VALUE : Fld := ⟨SAF_CFG_CRC.reg, 0, 32⟩
/-- Offset of SAF_CFG_CRC_CALC (16_safety_and_event_recorder.md). -/
def SAF_CFG_CRC_CALC.reg : Nat := 0x1E0024
/-- SAF_CFG_CRC_CALC.VALUE [31:0] RO. -/
abbrev SAF_CFG_CRC_CALC.VALUE : Fld := ⟨SAF_CFG_CRC_CALC.reg, 0, 32⟩
/-- Offset of SAF_STATUS (16_safety_and_event_recorder.md). -/
def SAF_STATUS.reg : Nat := 0x1E0030
/-- SAF_STATUS.PIN_A [31:31] RO. -/
abbrev SAF_STATUS.PIN_A : Fld := ⟨SAF_STATUS.reg, 31, 1⟩
/-- SAF_STATUS.PIN_B [30:30] RO. -/
abbrev SAF_STATUS.PIN_B : Fld := ⟨SAF_STATUS.reg, 30, 1⟩
/-- SAF_STATUS.ALARM_A [29:29] RO. -/
abbrev SAF_STATUS.ALARM_A : Fld := ⟨SAF_STATUS.reg, 29, 1⟩
/-- SAF_STATUS.ALARM_B [28:28] RO. -/
abbrev SAF_STATUS.ALARM_B : Fld := ⟨SAF_STATUS.reg, 28, 1⟩
/-- SAF_STATUS.COVER_A [27:27] RO. -/
abbrev SAF_STATUS.COVER_A : Fld := ⟨SAF_STATUS.reg, 27, 1⟩
/-- SAF_STATUS.COVER_B [26:26] RO. -/
abbrev SAF_STATUS.COVER_B : Fld := ⟨SAF_STATUS.reg, 26, 1⟩
/-- SAF_STATUS.CRC_BAD [25:25] RO. -/
abbrev SAF_STATUS.CRC_BAD : Fld := ⟨SAF_STATUS.reg, 25, 1⟩
/-- SAF_STATUS.ANY_LASTING [24:24] RO. -/
abbrev SAF_STATUS.ANY_LASTING : Fld := ⟨SAF_STATUS.reg, 24, 1⟩
/-- SAF_STATUS.SK_OK [23:23] RO. -/
abbrev SAF_STATUS.SK_OK : Fld := ⟨SAF_STATUS.reg, 23, 1⟩
/-- SAF_STATUS.PORT_LOST [11:0] RO. -/
abbrev SAF_STATUS.PORT_LOST : Fld := ⟨SAF_STATUS.reg, 0, 12⟩
/-- Offset of SAF_ACK (16_safety_and_event_recorder.md). -/
def SAF_ACK.reg : Nat := 0x1E0034
/-- SAF_ACK.KEY [15:8] WO. -/
abbrev SAF_ACK.KEY : Fld := ⟨SAF_ACK.reg, 8, 8⟩
/-- SAF_ACK.CH1 [1:1] WO. -/
abbrev SAF_ACK.CH1 : Fld := ⟨SAF_ACK.reg, 1, 1⟩
/-- SAF_ACK.CH0 [0:0] WO. -/
abbrev SAF_ACK.CH0 : Fld := ⟨SAF_ACK.reg, 0, 1⟩
/-- Offset of SAF_PIN_TEST (16_safety_and_event_recorder.md). -/
def SAF_PIN_TEST.reg : Nat := 0x1E0038
/-- SAF_PIN_TEST.KEY [15:8] WO. -/
abbrev SAF_PIN_TEST.KEY : Fld := ⟨SAF_PIN_TEST.reg, 8, 8⟩
/-- SAF_PIN_TEST.PIN_B [1:1] WO. -/
abbrev SAF_PIN_TEST.PIN_B : Fld := ⟨SAF_PIN_TEST.reg, 1, 1⟩
/-- SAF_PIN_TEST.PIN_A [0:0] WO. -/
abbrev SAF_PIN_TEST.PIN_A : Fld := ⟨SAF_PIN_TEST.reg, 0, 1⟩
/-- Offset of SAF_SAFE_CAUSE (16_safety_and_event_recorder.md). -/
def SAF_SAFE_CAUSE.reg : Nat := 0x1E003C
/-- SAF_SAFE_CAUSE.VALID [31:31] RO. -/
abbrev SAF_SAFE_CAUSE.VALID : Fld := ⟨SAF_SAFE_CAUSE.reg, 31, 1⟩
/-- SAF_SAFE_CAUSE.CODE [7:0] RO. -/
abbrev SAF_SAFE_CAUSE.CODE : Fld := ⟨SAF_SAFE_CAUSE.reg, 0, 8⟩
/-- Offset of SAF_KAT_FAIL (16_safety_and_event_recorder.md). -/
def SAF_KAT_FAIL.reg : Nat := 0x1E0040
/-- SAF_KAT_FAIL.PORTS [11:0] W1C. -/
abbrev SAF_KAT_FAIL.PORTS : Fld := ⟨SAF_KAT_FAIL.reg, 0, 12⟩
/-- Offset of SAF_KAT_COUNT (16_safety_and_event_recorder.md). -/
def SAF_KAT_COUNT.reg : Nat := 0x1E0044
/-- SAF_KAT_COUNT.VALUE [31:0] RO. -/
abbrev SAF_KAT_COUNT.VALUE : Fld := ⟨SAF_KAT_COUNT.reg, 0, 32⟩
/-- Offset of SAF_SHADOW_COUNT (16_safety_and_event_recorder.md). -/
def SAF_SHADOW_COUNT.reg : Nat := 0x1E0048
/-- SAF_SHADOW_COUNT.VALUE [31:0] RO. -/
abbrev SAF_SHADOW_COUNT.VALUE : Fld := ⟨SAF_SHADOW_COUNT.reg, 0, 32⟩
/-- Offset of SAF_DIAGd_CFG (16_safety_and_event_recorder.md). -/
def SAF_DIAG_CFG.reg (d : Nat) : Nat := 0x1E0100 + 0x10 * (d % 32)
/-- SAF_DIAGd_CFG.N [27:24] RWL. -/
abbrev SAF_DIAG_CFG.N (d : Nat) : Fld := ⟨(SAF_DIAG_CFG.reg d), 24, 4⟩
/-- SAF_DIAGd_CFG.W_MS [15:0] RWL. -/
abbrev SAF_DIAG_CFG.W_MS (d : Nat) : Fld := ⟨(SAF_DIAG_CFG.reg d), 0, 16⟩
/-- Offset of SAF_DIAGd_STATUS (16_safety_and_event_recorder.md). -/
def SAF_DIAG_STATUS.reg (d : Nat) : Nat := 0x1E0104 + 0x10 * (d % 32)
/-- SAF_DIAGd_STATUS.LASTING [31:31] RO. -/
abbrev SAF_DIAG_STATUS.LASTING (d : Nat) : Fld := ⟨(SAF_DIAG_STATUS.reg d), 31, 1⟩
/-- SAF_DIAGd_STATUS.IN_WINDOW [27:24] RO. -/
abbrev SAF_DIAG_STATUS.IN_WINDOW (d : Nat) : Fld := ⟨(SAF_DIAG_STATUS.reg d), 24, 4⟩
/-- SAF_DIAGd_STATUS.REACTION [21:20] RO. -/
abbrev SAF_DIAG_STATUS.REACTION (d : Nat) : Fld := ⟨(SAF_DIAG_STATUS.reg d), 20, 2⟩
/-- SAF_DIAGd_STATUS.LASTING_PORTS [11:0] RO. -/
abbrev SAF_DIAG_STATUS.LASTING_PORTS (d : Nat) : Fld := ⟨(SAF_DIAG_STATUS.reg d), 0, 12⟩
/-- Offset of SAF_DIAGd_COUNT (16_safety_and_event_recorder.md). -/
def SAF_DIAG_COUNT.reg (d : Nat) : Nat := 0x1E0108 + 0x10 * (d % 32)
/-- SAF_DIAGd_COUNT.VALUE [31:0] RO. -/
abbrev SAF_DIAG_COUNT.VALUE (d : Nat) : Fld := ⟨(SAF_DIAG_COUNT.reg d), 0, 32⟩
/-- Offset of SAF_DIAGd_LAST (16_safety_and_event_recorder.md). -/
def SAF_DIAG_LAST.reg (d : Nat) : Nat := 0x1E010C + 0x10 * (d % 32)
/-- SAF_DIAGd_LAST.VALUE [31:0] RO. -/
abbrev SAF_DIAG_LAST.VALUE (d : Nat) : Fld := ⟨(SAF_DIAG_LAST.reg d), 0, 32⟩
/-- Offset of EVR_CFG (16_safety_and_event_recorder.md). -/
def EVR_CFG.reg : Nat := 0x1F0000
/-- EVR_CFG.SAFETY [31:31] RWL. -/
abbrev EVR_CFG.SAFETY : Fld := ⟨EVR_CFG.reg, 31, 1⟩
/-- EVR_CFG.SUPPLY [30:30] RWL. -/
abbrev EVR_CFG.SUPPLY : Fld := ⟨EVR_CFG.reg, 30, 1⟩
/-- EVR_CFG.RESET [29:29] RWL. -/
abbrev EVR_CFG.RESET : Fld := ⟨EVR_CFG.reg, 29, 1⟩
/-- EVR_CFG.HOST [28:28] RWL. -/
abbrev EVR_CFG.HOST : Fld := ⟨EVR_CFG.reg, 28, 1⟩
/-- EVR_CFG.TRANSIENT_GAP_S [7:0] RWL. -/
abbrev EVR_CFG.TRANSIENT_GAP_S : Fld := ⟨EVR_CFG.reg, 0, 8⟩
/-- Offset of EVR_STATUS (16_safety_and_event_recorder.md). -/
def EVR_STATUS.reg : Nat := 0x1F0004
/-- EVR_STATUS.BUSY [31:31] RO. -/
abbrev EVR_STATUS.BUSY : Fld := ⟨EVR_STATUS.reg, 31, 1⟩
/-- EVR_STATUS.FAIL [30:30] RO. -/
abbrev EVR_STATUS.FAIL : Fld := ⟨EVR_STATUS.reg, 30, 1⟩
/-- EVR_STATUS.QUEUED [20:16] RO. -/
abbrev EVR_STATUS.QUEUED : Fld := ⟨EVR_STATUS.reg, 16, 5⟩
/-- Offset of EVR_HEAD_LO (16_safety_and_event_recorder.md). -/
def EVR_HEAD_LO.reg : Nat := 0x1F0008
/-- EVR_HEAD_LO.VALUE [31:0] RO. -/
abbrev EVR_HEAD_LO.VALUE : Fld := ⟨EVR_HEAD_LO.reg, 0, 32⟩
/-- Offset of EVR_HEAD_HI (16_safety_and_event_recorder.md). -/
def EVR_HEAD_HI.reg : Nat := 0x1F000C
/-- EVR_HEAD_HI.VALUE [31:0] RO. -/
abbrev EVR_HEAD_HI.VALUE : Fld := ⟨EVR_HEAD_HI.reg, 0, 32⟩
/-- Offset of EVR_OP_SECONDS (16_safety_and_event_recorder.md). -/
def EVR_OP_SECONDS.reg : Nat := 0x1F0010
/-- EVR_OP_SECONDS.VALUE [31:0] RO. -/
abbrev EVR_OP_SECONDS.VALUE : Fld := ⟨EVR_OP_SECONDS.reg, 0, 32⟩
/-- Offset of EVR_POWER_CYCLES (16_safety_and_event_recorder.md). -/
def EVR_POWER_CYCLES.reg : Nat := 0x1F0014
/-- EVR_POWER_CYCLES.VALUE [31:0] RO. -/
abbrev EVR_POWER_CYCLES.VALUE : Fld := ⟨EVR_POWER_CYCLES.reg, 0, 32⟩
/-- Offset of EVR_LIST_SEQ (16_safety_and_event_recorder.md). -/
def EVR_LIST_SEQ.reg : Nat := 0x1F0018
/-- EVR_LIST_SEQ.VALUE [31:0] RO. -/
abbrev EVR_LIST_SEQ.VALUE : Fld := ⟨EVR_LIST_SEQ.reg, 0, 32⟩
/-- Offset of EVR_LOST_COUNT (16_safety_and_event_recorder.md). -/
def EVR_LOST_COUNT.reg : Nat := 0x1F001C
/-- EVR_LOST_COUNT.VALUE [31:0] RO. -/
abbrev EVR_LOST_COUNT.VALUE : Fld := ⟨EVR_LOST_COUNT.reg, 0, 32⟩
/-- Offset of EVR_WRITE_COUNT (16_safety_and_event_recorder.md). -/
def EVR_WRITE_COUNT.reg : Nat := 0x1F0020
/-- EVR_WRITE_COUNT.VALUE [31:0] RO. -/
abbrev EVR_WRITE_COUNT.VALUE : Fld := ⟨EVR_WRITE_COUNT.reg, 0, 32⟩
/-- Offset of EVR_SNAPi (16_safety_and_event_recorder.md). -/
def EVR_SNAP.reg (i : Nat) : Nat := 0x1F0100 + 0x4 * (i % 48)
/-- EVR_SNAPi.OFFSET [31:0] RWL. -/
abbrev EVR_SNAP.OFFSET (i : Nat) : Fld := ⟨(EVR_SNAP.reg i), 0, 32⟩

end Sys2Proof.Machine
end

