-- ==== Sys2Proof/Machine/RegReset.lean ====
section
/-!
DEFINITION. The reset value of every register, from the register map and the tables that give an instance its own.
-/
namespace Sys2Proof.Machine

/-- Defaults of N and W of the diagnostics 0x00–0x1A (R387); a fixed diagnostic reads N = 1, W_MS = 0. -/
def diagDefaults : List (Nat × Nat) :=
  [(1, 0), (1, 1000), (3, 100), (8, 100), (3, 100), (2, 60000), (4, 60000), (1, 1000), (3, 100), (3, 100), (2, 100),
   (1, 0), (2, 1000), (1, 0), (1, 0), (1, 0), (1, 0), (2, 1000), (1, 0), (1, 0), (1, 1000), (1, 1000), (1, 1000),
   (1, 0), (1, 1000), (1, 0), (1, 0)]

/-- The stored coefficients of a second-order section, 2⁻²² per LSB (R141). -/
structure Coefs where
  b0 : Int := 0x400000
  b1 : Int := 0
  b2 : Int := 0
  a1 : Int := 0
  a2 : Int := 0
  deriving DecidableEq, Repr

/-! The Butterworth sections of R149 by kind, order and corner in hundredths of f_o, rounded to nearest; the middle coefficient
of a low-pass section, and A2 of a high-pass section, absorb the rounding, so that the gains R149 states hold exactly. -/

/-- Low-pass, order 2, corner 0.25 f_o. -/
def lowPass2at25 : List Coefs :=
  [⟨1228483, 2456967, 1228483, 0, 719629⟩]

/-- Low-pass, order 4, corner 0.25 f_o. -/
def lowPass4at25 : List Coefs :=
  [⟨1090064, 2180128, 1090064, 0, 165952⟩,
   ⟨1516726, 3033452, 1516726, 0, 1872600⟩]

/-- Low-pass, order 2, corner 0.10 f_o. -/
def lowPass2at10 : List Coefs :=
  [⟨282928, 565855, 282928, -4794008, 1731415⟩]

/-- Low-pass, order 4, corner 0.10 f_o. -/
def lowPass4at10 : List Coefs :=
  [⟨259565, 519132, 259565, -4398145, 1242103⟩,
   ⟨326973, 653945, 326973, -5540312, 2653899⟩]

/-- Low-pass, order 4, corner 0.05 f_o. -/
def lowPass4at05 : List Coefs :=
  [⟨79846, 159694, 79846, -6206203, 2331285⟩,
   ⟨91788, 183574, 91788, -7134362, 3307208⟩]

/-- Low-pass, order 6, corner 0.05 f_o. -/
def lowPass6at05 : List Coefs :=
  [⟨79047, 158095, 79047, -6144103, 2265988⟩,
   ⟨84236, 168471, 84236, -6547384, 2690023⟩,
   ⟨95041, 190080, 95041, -7387215, 3573073⟩]

/-- Low-pass, order 4, corner 0.02 f_o. -/
def lowPass4at02 : List Coefs :=
  [⟨14821, 29641, 14821, -7458787, 3323766⟩,
   ⟨15780, 31559, 15780, -7941561, 3810376⟩]

/-- Low-pass, order 6, corner 0.02 f_o. -/
def lowPass6at02 : List Coefs :=
  [⟨14751, 29501, 14751, -7423726, 3288425⟩,
   ⟨15190, 30381, 15190, -7644937, 3511394⟩,
   ⟨16017, 32035, 16017, -8060974, 3930739⟩]

/-- High-pass, order 2, corner 0.02 f_o. -/
def highPass2at02 : List Coefs :=
  [⟨3837659, -7675318, 3837659, -7644937, 3511395⟩]

/-- High-pass, order 4, corner 0.02 f_o. -/
def highPass4at02 : List Coefs :=
  [⟨3744214, -7488428, 3744214, -7458787, 3323765⟩,
   ⟨3986560, -7973120, 3986560, -7941561, 3810375⟩]

/-- High-pass, order 2, corner 0.05 f_o. -/
def highPass2at05 : List Coefs :=
  [⟨3357928, -6715856, 3357928, -6547384, 2690024⟩]

/-- High-pass, order 4, corner 0.05 f_o. -/
def highPass4at05 : List Coefs :=
  [⟨3182948, -6365896, 3182948, -6206203, 2331285⟩,
   ⟨3658969, -7317938, 3658969, -7134362, 3307210⟩]

/-- The sections of the presets 0–23 (R149). -/
def presetSections : List (List Coefs) :=
  [ []
  , lowPass2at25
  , lowPass4at25
  , lowPass2at10
  , lowPass4at10
  , lowPass4at05
  , lowPass6at05
  , lowPass4at02
  , lowPass6at02
  , highPass2at02
  , highPass4at02
  , highPass2at05
  , highPass4at05
  , highPass2at02 ++ lowPass2at25
  , highPass2at05 ++ lowPass2at25
  , highPass2at02 ++ lowPass2at10
  , highPass2at05 ++ lowPass2at10
  , highPass4at02 ++ lowPass4at25
  , highPass4at05 ++ lowPass4at25
  , highPass4at02 ++ lowPass4at10
  , highPass4at05 ++ lowPass4at10
  , [⟨3932160, -3932160, 0, -3670016, 0⟩]
  , [⟨4063232, -4063232, 0, -3932160, 0⟩]
  , [⟨4128768, -4128768, 0, -4063232, 0⟩] ]

/-- A preset's section; a section it does not use is a pass-through. -/
def presetSection (p s : Nat) : Coefs := (((presetSections[p]?).getD [])[s]?).getD {}

/-- The word of coefficient `c` (B0, B1, B2, A1, A2, then SHIFT) of a section. -/
def Coefs.word (x : Coefs) (c : Nat) : Nat :=
  match c with
  | 0 => toBits 24 x.b0
  | 1 => toBits 24 x.b1
  | 2 => toBits 24 x.b2
  | 3 => toBits 24 x.a1
  | 4 => toBits 24 x.a2
  | _ => 0

/-- The reset value of the register at an offset; 0 where no register lies. -/
def resetVal (off : Nat) : Word :=
  match rowOf off with
  | none => 0
  | some r =>
    if r.base = 0x1E0100 then
      match diagDefaults[r.index off]? with
      | some (n, w) => Word.of (n * 0x1000000 + w)
      | none => 0
    else if r.base = 0xC1000 then
      -- BRL_PORTn_SECTk_START: 0x0000 for k = 0, 0xFFFF otherwise
      if (off - r.base) % 0x100 = 0 then 0 else 0xFFFF
    else if 0x102020 ≤ r.base ∧ r.base < 0x102038 then
      -- FLT_PRESETp_SECs
      Word.of ((presetSection ((off - 0x102020) / 0x100) ((off - 0x102020) % 0x100 / 0x20)).word ((off - 0x102020) % 0x20 / 4))
    else Word.of r.reset

end Sys2Proof.Machine
end

