-- ==== Sys2Proof/Machine/SMap.lean ====
section
/-!
DEFINITION. Sparse maps from natural keys in one canonical form: keys strictly rising, and no entry equal to what an
unlisted key reads as.  Register files, memories and arrays of like units are held this way, so that equal contents
are equal data.
-/
namespace Sys2Proof.Machine

/-- A sparse map: pairs of key and value. -/
abbrev SMap (α : Type) := List (Nat × α)

/-- A byte memory: a sparse map of `Host.Cell`s. -/
abbrev Memory := List Host.Cell

/-- The value at a key; `d` says what an unlisted key reads as. -/
def SMap.get {α : Type} (d : Nat → α) : SMap α → Nat → α
  | [], k => d k
  | (k', v) :: t, k => if k' = k then v else SMap.get d t k

/-- The map without a key. -/
def SMap.del {α : Type} : SMap α → Nat → SMap α
  | [], _ => []
  | e :: t, k => if e.1 = k then SMap.del t k else e :: SMap.del t k

/-- Store a value at a key, keeping the canonical form. -/
def SMap.put {α : Type} [DecidableEq α] (d : Nat → α) : SMap α → Nat → α → SMap α
  | [], k, v => if v = d k then [] else [(k, v)]
  | (k', v') :: t, k, v =>
    if k' < k then (k', v') :: SMap.put d t k v
    else if k' = k then (if v = d k then SMap.del t k else (k, v) :: t)
    else if v = d k then (k', v') :: SMap.del t k else (k, v) :: (k', v') :: t

/-- Change every listed value, keeping the canonical form. -/
def SMap.mapVals {α : Type} [DecidableEq α] (d : Nat → α) (f : α → α) (m : SMap α) : SMap α :=
  (m.map (fun e => (e.1, f e.2))).filter (fun e => !decide (e.2 = d e.1))

/-- Every key of the map lies above `lo`, keys rise strictly, and no entry holds its default. -/
def SMap.wfFrom {α : Type} [DecidableEq α] (d : Nat → α) : Option Nat → SMap α → Bool
  | _, [] => true
  | lo, (k, v) :: t =>
    (match lo with | none => true | some l => decide (l < k)) && !decide (v = d k) && SMap.wfFrom d (some k) t

/-- The canonical form. -/
def SMap.wf {α : Type} [DecidableEq α] (d : Nat → α) (m : SMap α) : Bool := SMap.wfFrom d none m

/-- Read one byte of a memory whose unlisted bytes read as `d`. DESIGN CHOICE, log entry 11. -/
def Memory.byte (d : Byte) (m : Memory) (a : Nat) : Byte := SMap.get (fun _ => d) m a

/-- Write one byte. -/
def Memory.setByte (d : Byte) (m : Memory) (a : Nat) (v : Byte) : Memory := SMap.put (fun _ => d) m a v

/-- Write consecutive bytes from address `a`. -/
def Memory.setBytes (d : Byte) : Memory → Nat → List Byte → Memory
  | m, _, [] => m
  | m, a, b :: bs => Memory.setBytes d (Memory.setByte d m a b) (a + 1) bs

/-- Read `n` consecutive bytes from address `a`. -/
def Memory.bytes (d : Byte) (m : Memory) (a : Nat) : Nat → List Byte
  | 0 => []
  | n + 1 => Memory.byte d m a :: Memory.bytes d m (a + 1) n

/-- Little-endian value of a list of bytes. -/
def leVal : List Byte → Nat
  | [] => 0
  | b :: bs => b.toNat + 256 * leVal bs

/-- The `n` low bytes of a number, little-endian. -/
def leBytes : Nat → Nat → List Byte
  | 0, _ => []
  | n + 1, x => BitVec.ofNat 8 x :: leBytes n (x / 256)

/-- Little-endian read of `n` bytes as a number. -/
def Memory.readLE (d : Byte) (m : Memory) (a n : Nat) : Nat := leVal (Memory.bytes d m a n)

/-- Little-endian write of the `n` low bytes of a number. -/
def Memory.writeLE (d : Byte) (m : Memory) (a n x : Nat) : Memory := Memory.setBytes d m a (leBytes n x)

/-- Remove every listed byte of `[a, a + n)`, so that the range reads as unlisted. -/
def Memory.clearRange (m : Memory) (a n : Nat) : Memory :=
  m.filter (fun c => decide (c.1 < a) || decide (a + n ≤ c.1))

/-- The canonical form of a memory whose unlisted bytes read as `d`. -/
def Memory.wf (d : Byte) (m : Memory) : Bool := SMap.wf (fun _ => d) m

end Sys2Proof.Machine
end

