-- ==== Sys2Proof/Machine/State.lean ====
section
/-!
DEFINITION. The state of the block, as plain data.  Registers have one home, `State.regs`, but for status words that
only mirror typed state (they are views, `State.readReg`).  Arrays of like units are sparse maps whose unlisted
entries are at reset.
-/
namespace Sys2Proof.Machine

/-- Faults. A constructor's docstring says who raises it. -/
inductive Fault where
  /-- Raised by no meaning: the block has no event that stops it (a device in reset or SAFE still takes commands). Safe. -/
  | none
  deriving DecidableEq, Repr

/-- Refusals. -/
inductive Refusal where
  /-- Raised by an arm of `exec` whose command has no meaning yet. Safe. -/
  | notModelled (mnemonic : String)
  deriving DecidableEq, Repr

/-- The two parts of the family (R1). -/
inductive Part where
  | wv4812
  | wv2406
  deriving DecidableEq, Repr

/-- The device states (R27). -/
inductive DevState where
  | boot
  | setup
  | running
  | degraded
  | safe
  deriving DecidableEq, Repr

/-- The causes of DEGRADED (R30). -/
structure DegCause where
  port : Bool := false
  dram : Bool := false
  tec : Bool := false
  partner : Bool := false
  core : Bool := false
  deriving DecidableEq, Repr

/-- Supplies, reset and start-up (chapter 17). `inReset`: the device is held in reset; `causeAt`: device time of the
first cause of the latest reset (R418); `releasedAt`: device time of the latest release (R423). -/
structure Supply where
  vauxUp : Bool := true
  inReset : Bool := false
  causeAt : Nat := 0
  releasedAt : Nat := 0
  deriving DecidableEq, Repr

/-- The device state and what stands beside it in GLB_STATE (R27, R28, R35, R36). -/
structure Ctl where
  dev : DevState := .boot
  prev : DevState := .boot
  deg : DegCause := {}
  stopPending : Bool := false
  commitFail : Bool := false
  bootFail : Bool := false
  imageNone : Bool := false
  dramFailed : Bool := false
  bootStep : Nat := 0
  /-- The number the next round start takes, and the round in progress (R21). -/
  nextRound : Nat := 0
  round : Nat := 0
  /-- Ports whose PORT_FAULT has not been restored (R30). -/
  faulted : BitVec 12 := 0
  deriving DecidableEq, Repr

/-- A QSPI flash operation in progress, and what step 0x2 found of the flash (R426, R431): whether one answered, and its
page size. -/
structure Qspi where
  op : Option (Nat × Nat × Nat) := none
  found : Bool := false
  page : Nat := 256
  deriving DecidableEq, Repr

/-- The waveform of a probe (R43): linear up-chirps 80 MHz wide with equal peak power, centred at the offsets given in MHz from
the carrier, one per enabled tone; or one flat pulse at the carrier. -/
inductive Wave where
  | chirps (centres : List Int)
  | flat
  deriving DecidableEq, Repr

/-- A probe (R43, R63): waveform, duration in units of 1/128 tick, its peak in mW summed over the tones, and the 10–90 % width
of its raised-cosine edges in ns; none where the specification states none (part A). -/
structure Probe where
  wave : Wave
  dur : Nat
  peak : Nat
  edge : Option Nat
  deriving DecidableEq, Repr

/-- What a frame of the Fuvon link says (R362): the 120 bytes of a heartbeat (R363); part code, stepping, laser channel, role, loops
as port, partner port and bins, and whether the partner's identity has come (R361); entry to SAFE, or a PORT_FAULT cause and its
port (R368); destination and data of the mirror (R365). -/
inductive LinkMsg where
  | heartbeat (payload : List Byte)
  | identity (part stepping chan : Nat) (roleB : Bool) (loops : List (Nat × Nat × Nat)) (acked : Bool)
  | fault (safe : Bool) (cause port : Nat)
  | mirror (dest : Nat) (data : List Byte)
  deriving DecidableEq, Repr

/-- What leaves the device on its links, kept as the model's own observable. -/
inductive Emission where
  /-- A posted write to host memory (R290). -/
  | hostWrite (addr : Nat) (data : List Byte)
  /-- An MSI-X message (R314). -/
  | msix (vector : Nat)
  /-- A frame on a lane of the Fuvon link (R359, R362): lane, number within its type, message, and the bits on the line. -/
  | link (lane seq : Nat) (msg : LinkMsg) (bits : List Bool)
  /-- Light launched: port (15 the dump), kind code of R73, launch instant (part A and part B: leading edge), and probe. -/
  | light (port kind tick : Nat) (probe : Probe)
  deriving DecidableEq, Repr

/-- Where a completed block stands on its way to its ring: waiting for a DEFLATE engine since a tick, in an engine, or
in the output buffer (R331–R333). -/
inductive BlockStage where
  | waiting (since : Nat)
  | engine (e : Nat)
  | ready
  deriving DecidableEq, Repr

/-- A block or record on its way to a host ring (R298, R318). `hdr` is the header from byte 16 on, `payload` the
uncompressed payload, `stream` what is carried. A record on ring 1 or 2 has only `hdr`. -/
structure Block where
  ring : Nat
  kind : Nat := 0
  stored : Bool := false
  compressed : Bool := false
  stage : BlockStage := .ready
  hdr : List Byte := []
  payload : List Byte := []
  stream : List Byte := []
  /-- The core of a core-output block. -/
  core : Option Nat := none
  /-- The capture record of a capture block: its region and number. -/
  cap : Option (Nat × Nat) := none
  /-- A later part of its record is lost, and the record counted so (R217). -/
  cut : Bool := false
  deriving DecidableEq, Repr

/-- One host ring beside its registers: the block sequence number and the posted descriptors, oldest first (R288). -/
structure HostRing where
  seq : Nat := 0
  posted : List Desc := []
  deriving DecidableEq, Repr

/-- The record hold-off of an event source and its merged raises (R313). DEDUCED, log entry 103. -/
structure EvHold where
  running : Bool := false
  merged : Nat := 0
  detail : Nat := 0
  time : Nat := 0
  round : Nat := 0
  deriving DecidableEq, Repr

/-- A ring-0 command in progress: its opcode, descriptor, ring-0 index and the round it acts at (R300, R301). -/
structure PendCmd where
  opcode : Nat
  hdr : CmdHdr
  index : Nat
  round : Nat
  deriving DecidableEq, Repr

/-- What the host sets in PCI Express configuration space (R279), in bytes. PRESUMED, log entry 105: the reset values are those
of the PCI Express Base Specification. -/
structure PciCfg where
  maxPayload : Nat := 128
  maxRead : Nat := 512
  deriving DecidableEq, Repr

/-- The host interface beside its registers (chapter 12). -/
structure Hif where
  /-- Configuration space, as far as R279 names what the host sets in it. -/
  pci : PciCfg := {}
  rings : SMap HostRing := []
  holds : SMap EvHold := []
  /-- The MSI-X table by word; an unlisted vector control word reads 1, masked. -/
  msix : SMap Word := []
  /-- The pending-bit array. -/
  pba : BitVec 32 := 0
  /-- Vectors pending inside the device. -/
  vecPend : BitVec 32 := 0
  /-- Vectors whose hold-off runs. -/
  vecHold : BitVec 32 := 0
  d3hot : Bool := false
  /-- Commands accepted and not completed, in ring order. -/
  cmds : List PendCmd := []
  /-- Blocks and records due on rings, oldest first: the output buffer of R333 and the record queue. -/
  out : List Block := []
  deriving DecidableEq, Repr

/-- A recorder record waiting for its slot (R402, R404). -/
structure EvrRec where
  cause : Nat
  detail : Nat
  time : Nat
  round : Nat
  dev : Nat
  opSeconds : Nat
  listSeq : Nat
  suppressed : Nat
  snapCount : Nat
  values : List Nat
  deriving DecidableEq, Repr

/-- The event recorder (R400–R408): MRAM records, the counts the VAUX domain keeps, and the queue. -/
structure Evr where
  mem : Memory := []
  opStored : Nat := 0
  opBase : Nat := 0
  cycles : Nat := 0
  listSeq : Nat := 0
  listCrc : Nat := 0
  head : Nat := 0
  nextSeq : Nat := 1
  queue : List EvrRec := []
  deriving DecidableEq, Repr

/-- One safety channel (R380–R383): its pin, latched alarm, running alarm hold, the port whose declared break is a
cause, coverage, and a running pin test. -/
structure Chan where
  pin : Bool := false
  latched : Bool := false
  holding : Bool := false
  brk : Option Nat := none
  covered : Bool := false
  testing : Bool := false
  /-- The tick the pin test under way started at (R383). -/
  testAt : Nat := 0
  /-- Turned off by the output's current limit (R450). -/
  limited : Bool := false
  deriving DecidableEq, Repr

/-- History of one diagnostic, device-wide or of one port (R391, R405). -/
structure Diag where
  times : List Nat := []
  lasting : Bool := false
  suppressed : Nat := 0
  lastRecord : Option Nat := none
  deriving DecidableEq, Repr

/-- The scorekeeper (chapter 16). -/
structure Saf where
  chans : SMap Chan := []
  diags : SMap Diag := []
  fireHeld : BitVec 16 := 0
  shadowHeld : BitVec 16 := 0
  toggle : Bool := true
  /-- Ports whose known-answer test is in progress, and the pattern of each (R388). -/
  kat : BitVec 12 := 0
  katPattern : SMap Nat := []
  deriving DecidableEq, Repr

/-- What a turn launches (R73, R84). -/
inductive TurnKind where
  | rayleigh
  | brillouin
  | diagnostic
  deriving DecidableEq, Repr

/-- A turn that has been launched, or whose frame is missing, with the settings in force at the start of its round
(R23): `regs` is the register file of that round. `sub`: a Rayleigh entry launched as a Brillouin turn (R86). -/
structure Turn where
  port : Nat
  entry : Nat
  plan : Nat
  kind : TurnKind
  sub : Bool := false
  slid : Bool := false
  skipped : Bool := false
  apr : Bool := false
  unlocked : Bool := false
  lag : Bool := false
  stall : Bool := false
  calNew : Bool := false
  ranged : Bool := false
  rxFault : Bool := false
  blanked : Bool := false
  unsettled : Bool := false
  takeover : Bool := false
  round : Nat
  launch : Nat
  /-- The launch instant the table gives; `launch` is the actual one (R88, R322). -/
  nominal : Nat := 0
  beltPos : Nat
  peak : Nat
  energy : Nat
  /-- Stream index of a Rayleigh entry's frame (R116, R205). -/
  index : Nat := 0
  /-- Per defined belt: its number, position and reference position at the launch instant (R197), in 2⁻⁸ count. -/
  belts : List (Nat × Int × Int) := []
  regs : SMap Word := []
  /-- Calibration coefficients of the round (R439). -/
  cal : SMap Word := []
  deriving DecidableEq, Repr

/-- The source: the bank estimate in eighths of a nanojoule at a tick, whether a pump gate is open, the pump loop's
setpoint in mA, and whether verified turns were seen this round (R49, R51, R56). `gateAt`: the tick the pump gate opened;
`proven`: per pump, 1 more than the round of its latest passed detection (PROVEN). -/
structure Source where
  bank8 : Nat := 0
  bankAt : Nat := 0
  gate : Bool := false
  setpoint : Nat := 1000
  verified : Bool := false
  /-- The pumps are shed until the round start after a VIN warning (R414). -/
  shed : Bool := false
  gateAt : Nat := 0
  proven : SMap Nat := []
  /-- The laser has unlocked and has not been locked since (R38). -/
  unlockHeld : Bool := false
  /-- The latest route of the switch to a port: the port, and from when to when, in units of 1/128 tick; at the dump outside
  (R58). -/
  route : Option (Nat × Nat × Nat) := none
  deriving DecidableEq, Repr

/-- A diagnostic turn in progress: its round and the position of part B in the replica cycle (R63, R64). -/
structure DiagTurn where
  round : Nat
  replica : Option Nat
  deriving DecidableEq, Repr

/-- The scheduler (chapter 03). `nextEntry`: the next turn-table entry to fall due; `sliding`: the turn that slides and
the tick its leading edge fell due; `turnCount`: the port turn counters of R84; `tap`: turns awaiting their tap check. -/
structure Sched where
  roundStart : Nat := 0
  started : Bool := false
  nextEntry : Nat := 0
  sliding : Option (Turn × Nat) := none
  slides : Nat := 0
  skips : Nat := 0
  turnCount : SMap Nat := []
  diagOwed : Bool := false
  replicaPos : Nat := 0
  diag : Option DiagTurn := none
  tap : List Turn := []
  /-- Turns of Rayleigh entries whose frames are not written, in launch order, and Brillouin turns whose spectra are not
  processed. -/
  flight : List Turn := []
  brl : List Turn := []
  /-- Ports at reduced power in the round in progress (R67). -/
  apr : Nat := 0
  shadow : SMap Word := []
  pendingCfg : Option (SMap Word) := none
  starting : Bool := false
  lag : Bool := false
  stall : Bool := false
  calNew : Bool := false
  beltBase : Int := 0
  beltTarget : Nat := 0
  /-- The predicted tick of the next target of belt-locked rounds (R193). -/
  pred : Option Nat := none
  /-- The end of the latest source occupancy, in units of 1/128 tick (R71). -/
  srcEnd : Nat := 0
  /-- Ticks by which deferrals of a takeover lengthen the round in progress (R371). -/
  defer : Nat := 0
  /-- Ports, as bits, whose turn in the round in progress is a deferred takeover turn (R371, R434). -/
  deferred : Nat := 0
  /-- In the first round after a commit command: the length of each port's free stretch that R82 names. -/
  firstFree : SMap Nat := []
  deriving DecidableEq, Repr

/-- States of a trigger unit (R208). -/
inductive UnitSt where
  | off
  | armed
  | primed
  | capturing
  | readout
  | stopped
  deriving DecidableEq, Repr

/-- What one bin has gathered over the frames of a capture interval (R213). -/
structure BinAcc where
  mn : Int
  mx : Int
  sum : Int
  sq : Nat
  qual : Nat
  deriving DecidableEq, Repr

/-- One capture interval (R213, R222). -/
structure Interval where
  index : Nat
  first : Nat
  time : Nat
  flags : Nat
  frames : Nat
  round : Nat
  dropped : Bool := false
  bins : List BinAcc := []
  deriving DecidableEq, Repr

/-- What a firing leaves for its capture record (R215, R221). -/
structure Firing where
  time : Nat
  pip : Nat
  value : Int
  srcIndex : Nat
  /-- Number of the trigger interval, and the round of its last frame so far. -/
  trigger : Nat
  round : Nat
  ticks : Nat
  deriving DecidableEq, Repr

/-- A trigger unit (R207–R219). `evaluated`: since it was last armed; `missPrimed`: a priming value came while capturing;
`after`: where a capture ends instead of rearming (ARMED here is an arming, R209); `cur`: the interval being gathered;
`intervals`: the stored intervals, oldest first; `seq`: intervals written into the region since arming; `record`: a closed
record with its region. -/
structure TrgUnit where
  st : UnitSt := .off
  inhibited : Bool := false
  evaluated : Bool := false
  missPrimed : Bool := false
  after : Option UnitSt := none
  cur : Option Interval := none
  intervals : List Interval := []
  seq : Nat := 0
  firing : Option Firing := none
  record : Option (Nat × List Byte) := none
  deriving DecidableEq, Repr

/-- A blanking input: active, and the latest instant at which it was (R351). -/
structure Blank where
  active : Bool := false
  last : Option Nat := none
  deriving DecidableEq, Repr

/-- The alignment state of a slot (R115, R116): the alignment angle of each path, in 2⁻⁹⁶ turn, the mean magnitude, and the
combined phase in the reference frame, in 2⁻³² turn. No angle: the slot is not initialised. DESIGN CHOICE, log entry 51. -/
structure SlotSt where
  theta : List Int := []
  mu : Nat := 0
  phi : Int := 0
  deriving DecidableEq, Repr

/-- Plan geometry (R130). -/
structure Geom where
  tones : Nat
  chirp : Nat
  gauge : Nat
  lead : Nat
  bins : Nat
  deriving DecidableEq, Repr

/-- The phase engine of a port (R114–R118): geometry of the reference frame (none before the first real frame), slots,
quality words of the reference frame, and a run of missing frames written as GAP. -/
structure PhaseSt where
  geom : Option Geom := none
  slots : SMap SlotSt := []
  quals : List Nat := []
  gapRun : Bool := false
  deriving DecidableEq, Repr

/-- An accumulator of the relative-temperature channel (R126, R127): U, its continuity break, the sum of U over the frames of
the interval, and the flags gathered. DEDUCED, log entry 53. -/
structure LfSlot where
  u : Int := 0
  brk : Bool := false
  sum : Int := 0
  flags : Nat := 0
  deriving DecidableEq, Repr

/-- An LF sample as the rate source keeps it (R206, R211): launch of its first frame, its instant, and per bin the kelvin
value in µK, none where GAP. -/
structure LfSample where
  first : Nat
  time : Nat
  vals : List (Option Int)
  deriving DecidableEq, Repr

/-- The relative-temperature channel of a port: frames of the interval, accumulators by slot, samples, newest first, and the
round from which frames are counted after a rebase, and the launch of the interval's first frame (R126–R128). `extend`: the
home range, while a takeover waits for its first covering frame; `masked`: the bins from there on carry GAP in the interval in
progress (R373). -/
structure LfSt where
  n : Nat := 0
  first : Nat := 0
  slots : SMap LfSlot := []
  hist : List LfSample := []
  from_ : Nat := 0
  extend : Option Nat := none
  masked : Option Nat := none
  deriving DecidableEq, Repr

/-- The accumulation of a level profile (R130): the sums of |z|² per bin, over paths and frames. -/
structure LevelSt where
  geom : Geom
  peak : Nat
  first : Nat
  n : Nat
  sums : List Nat
  deriving DecidableEq, Repr

/-- The latest level profile: peak power, and the sums it was formed from with their divisor. -/
structure ProfileSt where
  peak : Nat
  div : Nat
  sums : List Nat
  deriving DecidableEq, Repr

/-- The integrity check of a port (R132–R134): the latest real frame's geometry and break bin, and real frames in a row
without one. DEDUCED, log entry 59. -/
structure IntegSt where
  last : Option (Geom × Nat) := none
  clear : Nat := 0
  deriving DecidableEq, Repr

/-- The tile summaries of a port (R205): the round from which a block may open, and the open block: index and launch of its
first frame, the frames' x values, newest first, and the quality gathered. -/
structure TileSt where
  from_ : Nat := 0
  first : Option (Nat × Nat) := none
  frames : List (List Int) := []
  quals : List Nat := []
  deriving DecidableEq, Repr

/-- The state of one second-order section (R141): the two last inputs and the two last outputs, in 2⁻³ LSB. -/
structure SecSt where
  x1 : Int := 0
  x2 : Int := 0
  y1 : Int := 0
  y2 : Int := 0
  deriving DecidableEq, Repr

/-- One bin of a filter chain (R139–R145): integrator s, the CIC's input e, integrators and combs, sections, the last three
inputs of F4, and the quality of the decimation window. -/
structure FltBin where
  s : Int := 0
  e : Int := 0
  i1 : Int := 0
  i2 : Int := 0
  i3 : Int := 0
  c1 : Int := 0
  c2 : Int := 0
  c3 : Int := 0
  secs : List SecSt := []
  hist : List Int := []
  qual : Nat := 0
  deriving DecidableEq, Repr

/-- A change of a filter chain (R152, R153): its round and round start, whether it zeroes, and whether its settling count has
begun. -/
structure FltChange where
  round : Nat
  time : Nat
  zero : Bool
  begun : Bool := false
  deriving DecidableEq, Repr

/-- The filter chain of a port (chapter 06): frames since the restart, bins of the window, header flags of the decimation
window, changes that wait for their frames, and the settling count left. -/
structure FltSt where
  j : Nat := 0
  bins : SMap FltBin := []
  flags : Nat := 0
  pend : List FltChange := []
  left : Nat := 0
  deriving DecidableEq, Repr

/-- A scheduled auto-ranging step (R106): which code set, zone, direction, and the earliest instant it takes effect. -/
structure RangeStep where
  setB : Bool
  zone : Nat
  up : Bool
  from_ : Nat
  deriving DecidableEq, Repr

/-- The receiver of a port (chapter 04): LO selected, TIA code, clip and floor runs of the zones of the R and the B set,
scheduled steps, and whether the next frame is the first with stepped R codes, or with stepped B codes. Before a port's first
turn, test or slice the specification gives no LO and no code: LO_R and code 0. DESIGN CHOICE, log entry 11. -/
structure RxSt where
  loB : Bool := false
  tia : Nat := 0
  runsR : SMap (Nat × Nat) := []
  runsB : SMap (Nat × Nat) := []
  steps : List RangeStep := []
  ranged : Bool := false
  rangedB : Bool := false
  deriving DecidableEq, Repr

/-- A sense port's streams: the next stream index (R116), the next output frame of its filter chain (R137), and the state of
its receiver, phase engine and what follows it. -/
structure PortSt where
  next : Nat := 0
  fltNext : Nat := 0
  /-- Rounds of the latest frame and of the latest output frame (R221). -/
  round : Nat := 0
  fltRound : Nat := 0
  rx : RxSt := {}
  ph : PhaseSt := {}
  lf : LfSt := {}
  level : Option LevelSt := none
  prof : Option ProfileSt := none
  integ : IntegSt := {}
  tile : TileSt := {}
  flt : FltSt := {}
  deriving DecidableEq, Repr

/-- A control output (R224, R450): a unit hold running, a command drive, and a current-limit turn-off. -/
structure Dout where
  held : Bool := false
  cmd : Bool := false
  limited : Bool := false
  deriving DecidableEq, Repr

/-- States of an analysis core (R247). -/
inductive CoreSt where
  | stopped
  | running
  | waiting
  | faulted
  deriving DecidableEq, Repr

/-- One active repeat level (R238). -/
structure Level where
  first : Nat
  last : Nat
  count : Nat
  deriving DecidableEq, Repr

/-- What the latest instructions leave for the next ones (R240): X registers and accumulators of the latest, pointers of
the latest and of the one before, and whether the latest wrote SHF. -/
structure Hazard where
  x : Nat := 0
  acc : Nat := 0
  ptr1 : Nat := 0
  ptr2 : Nat := 0
  shf : Bool := false
  deriving DecidableEq, Repr

/-- A queued output block (R245). -/
structure OutBlk where
  addr : Nat
  len : Nat
  time : Nat
  en : Bool
  deriving DecidableEq, Repr

/-- A queued DRAM transfer (R246). -/
structure Xfer where
  write : Bool
  spm : Nat
  dram : Nat
  len : Nat
  deriving DecidableEq, Repr

/-- An analysis core (chapter 10). `stopping`: the STOP_CAUSE of a stop that has not finished; `wait`: the WAIT code;
`lastStore`: the word and old bytes of a store issued by the latest instruction (R241); `ready` and `held`: slots; `degFault`:
its fault stands in DEG_CAUSE.CORE. DESIGN CHOICE, log entry 11. -/
structure Core where
  st : CoreSt := .stopped
  stopping : Option Nat := none
  stopCause : Nat := 0
  wait : Nat := 0
  waitAt : Nat := 0
  x : Vector Word 16 := Vector.replicate 16 0
  p : Vector (BitVec 18) 8 := Vector.replicate 8 0
  pb : Vector (BitVec 18) 8 := Vector.replicate 8 0
  pl : Vector (BitVec 18) 8 := Vector.replicate 8 0
  acc : Vector (BitVec 48) 4 := Vector.replicate 4 0
  stack : List Level := []
  shf : BitVec 6 := 0
  flags : BitVec 7 := 0
  pc : BitVec 11 := 0
  cycles : BitVec 64 := 0
  cycleHi : Word := 0
  timeHi : Word := 0
  hz : Hazard := {}
  lastStore : Option (Nat × List Byte) := none
  compat : Bool := false
  pmem : SMap Word := []
  spm : Memory := []
  /-- Stored bits of each 32-bit scratchpad word that differ from its code word: 32 data bits, then 7 check bits (R256). -/
  errs : SMap (BitVec 39) := []
  /-- Fused assignments of the factory spare columns in force: array, spare 2–5 and column (R262). -/
  factory : List (Nat × Nat × Nat) := []
  ready : List Nat := []
  held : List Nat := []
  nextSlot : Nat := 0
  staging : List (List Byte) := []
  dropped : Nat := 0
  outQ : List OutBlk := []
  dmaQ : List Xfer := []
  outSeq : Nat := 0
  degFault : Bool := false
  deriving DecidableEq, Repr

/-- A fused assignment of a spare column (R262, R263): spares 0 and 1 of an array are its field spares, 2–5 its factory spares.
DESIGN CHOICE, log entry 11. -/
structure Fuse where
  core : Nat
  array : Nat
  spare : Nat
  column : Nat
  deriving DecidableEq, Repr

/-- A calibration run in progress (R434–R438): when it started, and per port the slices, frames and turns gathered. -/
structure CalRun where
  start : Nat
  slices : SMap Nat := []
  frames : SMap Nat := []
  turns : SMap Nat := []
  /-- Slices of each port in round `round` (R434). -/
  round : Nat := 0
  taken : SMap Nat := []
  deriving DecidableEq, Repr

/-- A DRAM request that waits (R268): client, usable address, what it asks for, when it arrived, and whether it is promoted. -/
structure DramReq where
  client : Nat
  addr : Nat
  op : DramOp
  since : Nat
  promoted : Bool := false
  deriving DecidableEq, Repr

/-- The DRAM controller beside its registers (chapter 11). -/
structure Dmc where
  /-- Device times of the latest corrections (R274). -/
  ceTimes : List Nat := []
  /-- Stored bits of each 8-byte word of usable DRAM that differ from its code word: 64 data bits, then 8 check bits (R265). -/
  errs : SMap (BitVec 72) := []
  /-- Requests that wait, oldest first (R268). -/
  reqs : List DramReq := []
  /-- Blocks of the write queue, oldest first: their data stand in `dram`, which every read of them returns (R269). -/
  writeQ : List Nat := []
  /-- Refresh commands postponed, by 8 × channel + bank pair (R270). -/
  postponed : SMap Nat := []
  /-- The channel that retrains and since when (R271). -/
  retrain : Option (Nat × Nat) := none
  /-- The die temperature at a channel's latest retraining, 0.01 K (R271). -/
  temps : SMap Int := []
  /-- The state a set-point change returns to (R272). -/
  back : Nat := 0
  deriving DecidableEq, Repr

/-- Calibration beside its registers (chapter 18). A coefficient set is held as values of the result registers. `temps`:
the latest reading of each die, two's complement 0.01 °C; `want`: a trigger waiting for its round start, as cause and die. -/
structure Cal where
  force : SMap Word := []
  previous : SMap Word := []
  startup : SMap Word := []
  result : Option (SMap Word) := none
  completedAt : Nat := 0
  run : Option CalRun := none
  want : Option (Nat × Nat) := none
  temps : SMap Nat := []
  deriving DecidableEq, Repr

/-- A sample of a sequencer pass (R350). -/
structure AuxSample where
  entry : Nat
  flags : Nat
  value : Nat
  instant : Nat
  deriving DecidableEq, Repr

/-- The auxiliary sequencer beside its registers (chapter 14): the sequencer and entry settings of the latest pass, its
start and the start before it, the start of the entry under way, its samples, the unaligned values of past passes per entry,
newest first (none: no value), the position in the housekeeping cycle, which references were settled when the pass began, the
changes since, newest first, as time, reference and settled (R342), and the latest change to paused (R352). -/
structure Aux where
  cfg : SMap Word := []
  start : Nat := 0
  prev : Nat := 0
  entryAt : Nat := 0
  samples : List AuxSample := []
  hist : SMap (List (Option Int)) := []
  hkPos : Nat := 0
  refBase : Nat := 0
  refLog : List (Nat × Nat × Bool) := []
  pauseAt : Nat := 0
  deriving DecidableEq, Repr

/-- A timing input (R176–R180): its level, the edges since its latest stamped edge, the edge index, the latest stamped edge
in pips, the tick its gate opened at, the gate's stamps (index and pips, newest first), and its latest valid rate in counts
per pip as a fraction. -/
structure Tin where
  level : Bool := false
  phase : Nat := 0
  index : Nat := 0
  last : Option Nat := none
  gate : Option Nat := none
  stamps : List (Nat × Nat) := []
  rate : Option (Nat × Nat) := none
  /-- The tick its latest result closed at, when that result is valid (R190). -/
  result : Option Nat := none
  deriving DecidableEq, Repr

/-- A closed map period whose scoring is due (R200), with the settings it ran under (R202). -/
structure MapClose where
  openRound : Nat
  closeRound : Nat
  revs : Nat
  cut : Bool
  timeout : Bool
  mapB : Bool
  regs : SMap Word
  deriving DecidableEq, Repr

/-- A belt (R189–R201). Counts since START; `count8` in 2⁻⁸ where so named. `ref8`: P_ref; `mult`: revolutions of
INDEX_EN = 0 reached; `revs`: revolutions of the open period; `tail`: TAIL_IN stamps of DRIVE_IN's gate. `fwd`, `lastFwd`: the
direction at the latest counted and the latest stamped edge; `meas`: LEN_MEAS holds a measurement. -/
structure Belt where
  count : Int := 0
  fwd : Bool := true
  lastFwd : Bool := true
  meas : Bool := false
  last : Int := 0
  lastAt : Option Nat := none
  ref8 : Int := 0
  refSet : Bool := false
  index8 : Option Int := none
  mult : Nat := 0
  revs : Nat := 0
  isOpen : Bool := false
  openRound : Nat := 0
  openTime : Nat := 0
  mapB : Bool := false
  closing : List MapClose := []
  tail : List (Nat × Nat) := []
  slipRun : Nat := 0
  deriving DecidableEq, Repr

/-- A pair unit (R181): unpaired starts and held stops in pips, oldest first. `wait`: a start and the later
stop it would pair with, did no start come one pip ahead of the stop, and the units whose shadow decision differs. -/
structure PairUnit where
  starts : List Nat := []
  stops : List Nat := []
  wait : Option (Nat × Nat × BitVec 16) := none
  deriving DecidableEq, Repr

/-- Timing inputs, pair units and belts (chapter 08). `block`: the entries of the open pair-interval block. -/
structure Blt where
  tins : SMap Tin := []
  belts : SMap Belt := []
  pairs : SMap PairUnit := []
  block : List (List Byte) := []
  blockTime : Nat := 0
  deriving DecidableEq, Repr

/-- The time base's discipline (R184, R186, R187): the latest PPS edge in pips, consecutive good spacings, whether each of
the last eight edges was within LOCK_NS, the trim targets of the last 16 s of TRACK, the frequency part of the steering, and
the trim target in force. -/
structure Tmb where
  last : Option Nat := none
  good : Nat := 0
  locks : List Bool := []
  hist : List Int := []
  freq : Int := 0
  target : Int := 0
  deriving DecidableEq, Repr

/-- An averaging period (R162, R163): its first round and start, its accumulator (B or A), the turns accumulated and dropped,
geometry as lead, bins and width and peak of its first turn, cell marks, and per cell 1 more than its TIA code. -/
structure BrlPeriod where
  openRound : Nat
  openTime : Nat
  accB : Bool
  turns : Nat := 0
  dropped : Nat := 0
  geom : Option (Nat × Nat × Nat) := none
  home : Option (Nat × Nat × Nat) := none
  extRound : Nat := 0
  peak : Nat := 0
  marks : SMap Nat := []
  codes : SMap Nat := []
  deriving DecidableEq, Repr

/-- A closed period whose fit is due (R164): its closing round, a learn as first cell and count, and the registers and the
references of its cells in force at the close (R167, R174). -/
structure BrlClose where
  per : BrlPeriod
  closeRound : Nat
  closeTime : Nat
  learn : Option (Nat × Nat)
  loop : Bool
  regs : SMap Word
  refs : List Word
  deriving DecidableEq, Repr

/-- The Brillouin engine of a port (chapter 07): the open period, the accumulator of the next, what the stack holds (the
accumulator it belongs to, the cells and the turns since the last fold), a learn in progress, closed periods, and the latest
closed period of each peak as peak, turns and point sums of its cells (R172). -/
structure BrlPort where
  cur : Option BrlPeriod := none
  nextB : Bool := false
  stackB : Bool := false
  stackCells : Nat := 0
  folds : Nat := 0
  learn : Option (Nat × Nat) := none
  closing : List BrlClose := []
  sums : List (Nat × Nat × List Nat) := []
  deriving DecidableEq, Repr

/-- A mirror frame sent and not acknowledged (R365): sequence, destination, data, the time it was first sent and the time of
its latest sending. -/
structure MirrorTx where
  seq : Nat
  dest : Nat
  data : List Byte
  first : Nat
  sent : Nat
  deriving DecidableEq, Repr

/-- What an identity frame said of the partner (R362, R364): role, channel, and its loops as port, partner port, bins. -/
structure PartnerId where
  roleB : Bool
  chan : Nat
  loops : List (Nat × Nat × Nat)
  deriving DecidableEq, Repr

/-- A lane of the Fuvon link beside its registers: its first frame since alignment has not come, and the numbers of its latest
frames in error, latest first (R361). -/
structure LaneSt where
  fresh : Bool := false
  errs : List Nat := []
  deriving DecidableEq, Repr

/-- The redundant pair beside its registers (chapter 15). `missRun`: heartbeats missed in a row; `seen`: a heartbeat has come
since the link was last entered; `ident`: the partner's identity; `seq`, `tx`: the last mirror sequence sent and the frames
not acknowledged; `resync`: the last sequence of a resync in progress; `rx`, `held`: the highest sequence received without
a gap, and frames beyond it; `known`: the mirrored values last sent; `pimg`, `pbase`: partner image by offset, and partner
baselines; `wait`: a takeover waits for its round start; `home`: the home configuration kept in a takeover;
`checked`: the takeover configuration passed its check; `restore`: a restore of references is due (R366); `wasArmed`: the device
has become armed since START (R368); `lanes`: the lanes; `txSeq`, `rxSeq`: by frame type the next number to send and the latest
taken in (R362); `eq`: de-emphasis in tenths of a dB and peaking in dB in effect on the four lanes and the clock lane (R360). -/
structure Mlk where
  missRun : Nat := 0
  seen : Bool := false
  ident : Option PartnerId := none
  seq : Nat := 0
  tx : List MirrorTx := []
  resync : Option Nat := none
  rx : Nat := 0
  held : List (Nat × Nat × List Byte) := []
  known : SMap Word := []
  pimg : List (Nat × Word) := []
  pbase : Memory := []
  wait : Bool := false
  home : Option (SMap Word) := none
  checked : Bool := false
  restore : Bool := false
  wasArmed : Bool := false
  lanes : SMap LaneSt := []
  txSeq : SMap Nat := []
  rxSeq : SMap (Option Nat) := []
  eq : List (Nat × Nat) := List.replicate 5 (0, 0)
  deriving DecidableEq, Repr

/-- The state of the block. -/
structure State where
  part : Part := .wv4812
  /-- Device time in scheduler ticks (R19, R20). -/
  time : Nat := 0
  supply : Supply := {}
  ctl : Ctl := {}
  /-- The registers: an unlisted offset reads its reset value. -/
  regs : SMap Word := []
  /-- The LO/HI latches by the pair's low offset; an unlisted latch is 0 (R11). -/
  latches : SMap Word := []
  hif : Hif := {}
  evr : Evr := {}
  saf : Saf := {}
  src : Source := {}
  sched : Sched := {}
  cal : Cal := {}
  aux : Aux := {}
  blt : Blt := {}
  tmb : Tmb := {}
  brl : SMap BrlPort := []
  mlk : Mlk := {}
  units : SMap TrgUnit := []
  douts : SMap Dout := []
  blanks : SMap Blank := []
  streams : SMap PortSt := []
  /-- Capture records delivered by each region (R317). -/
  capRecs : SMap Nat := []
  cores : SMap Core := []
  /-- Field spares burnt into fuses, and the MARCH_DEFAULT fuse (R260, R263). -/
  fuses : List Fuse := []
  marchDefault : Bool := false
  /-- Mode of the march in progress: preserving (R260). -/
  marchMode : Bool := false
  /-- The core whose soft assignments are being burnt (R263). -/
  burn : Option Nat := none
  /-- Usable DRAM by byte offset; an unlisted byte reads 0 (R267). -/
  dram : Memory := []
  dmc : Dmc := {}
  /-- Words of the QSPI flash; an unlisted byte is erased, 0xFF. -/
  flash : Memory := []
  qspi : Qspi := {}
  /-- The factory trim in 0.01 ppb, a fuse (R183). -/
  factoryTrim : Int := 0
  /-- Completion data of the latest host read. -/
  rdData : Word := 0
  /-- The high word of the latest 64-bit read of BAR2 (R276). -/
  rdData2 : Word := 0
  /-- What has left the device: the model's own observable. -/
  sent : List Emission := []
  /-- Counter of the free values drawn: the model's own field. -/
  freeCtr : Nat := 0
  /-- Commands waiting, first in first out. -/
  pending : List Instr := []
  deriving DecidableEq, Repr

/-- The block right after the release of the first power-on reset (R411, R423): BOOT at step 0x0. DESIGN CHOICE, log entry 10;
DESIGN CHOICE, log entry 11. -/
def State.reset : State := { evr := { cycles := 1 } }

end Sys2Proof.Machine
end

