-- ==== Sys2Proof/Machine/Ops.lean ====
section
/-!
DEFINITION. Named operations on the state: registers and fields, arrays of like units, 64-bit pairs and their latches.
-/
namespace Sys2Proof.Machine

/-- A tick count for a time in microseconds, milliseconds, seconds: 400 ticks to the microsecond (R18, R19). -/
def ticksPerUs : Nat := 400
def ticksPerMs : Nat := 400000
def ticksPerS : Nat := 400000000

/-! One part of the state replaced. -/

def State.putTime (s : State) (x : Nat) : State := { s with time := x }
def State.putSupply (s : State) (x : Supply) : State := { s with supply := x }
def State.putCtl (s : State) (x : Ctl) : State := { s with ctl := x }
def State.putLatches (s : State) (x : SMap Word) : State := { s with latches := x }
def State.putHif (s : State) (x : Hif) : State := { s with hif := x }
def State.putEvr (s : State) (x : Evr) : State := { s with evr := x }
def State.putSaf (s : State) (x : Saf) : State := { s with saf := x }
def State.putSrc (s : State) (x : Source) : State := { s with src := x }
def State.putSched (s : State) (x : Sched) : State := { s with sched := x }
def State.putCal (s : State) (x : Cal) : State := { s with cal := x }
def State.putAux (s : State) (x : Aux) : State := { s with aux := x }
def State.putBlt (s : State) (x : Blt) : State := { s with blt := x }
def State.putTmb (s : State) (x : Tmb) : State := { s with tmb := x }
def State.putBrl (s : State) (x : SMap BrlPort) : State := { s with brl := x }
def State.putMlk (s : State) (x : Mlk) : State := { s with mlk := x }
def State.putUnits (s : State) (x : SMap TrgUnit) : State := { s with units := x }
def State.putDouts (s : State) (x : SMap Dout) : State := { s with douts := x }
def State.putBlanks (s : State) (x : SMap Blank) : State := { s with blanks := x }
def State.putStreams (s : State) (x : SMap PortSt) : State := { s with streams := x }
def State.putCapRecs (s : State) (x : SMap Nat) : State := { s with capRecs := x }
def State.putCores (s : State) (x : SMap Core) : State := { s with cores := x }
def State.putFuses (s : State) (x : List Fuse) : State := { s with fuses := x }
def State.putMarchMode (s : State) (x : Bool) : State := { s with marchMode := x }
def State.putBurn (s : State) (x : Option Nat) : State := { s with burn := x }
def State.putDram (s : State) (x : Memory) : State := { s with dram := x }
def State.putDmc (s : State) (x : Dmc) : State := { s with dmc := x }
def State.putFlash (s : State) (x : Memory) : State := { s with flash := x }
def State.putQspi (s : State) (x : Qspi) : State := { s with qspi := x }
def State.putRdData (s : State) (x : Word) : State := { s with rdData := x }
def State.putRdData2 (s : State) (x : Word) : State := { s with rdData2 := x }
def State.putFreeCtr (s : State) (x : Nat) : State := { s with freeCtr := x }
def State.putRegs (s : State) (x : SMap Word) : State := { s with regs := x }

/-! Registers. -/

/-- The stored word of the register at an offset. -/
def State.reg (s : State) (off : Nat) : Word := SMap.get resetVal s.regs off

/-- Store a register word. -/
def State.setReg (s : State) (off : Nat) (w : Word) : State := s.putRegs (SMap.put resetVal s.regs off w)

/-- Error patterns of DRAM words but those of the words `n` bytes from `a` lie in, which are written whole (R269). -/
def Dmc.clean (d : Dmc) (a n : Nat) : Dmc :=
  { d with errs := d.errs.filter (fun e => !(decide (a / 8 ≤ e.1) && decide (e.1 < (a + n + 7) / 8))) }

/-- Write usable DRAM. -/
def State.setDram (s : State) (a : Nat) (bs : List Byte) : State :=
  (s.putDram (Memory.setBytes 0 s.dram a bs)).putDmc (s.dmc.clean a bs.length)

/-- Zero usable DRAM. -/
def State.zeroDram (s : State) (a n : Nat) : State := (s.putDram (Memory.clearRange s.dram a n)).putDmc (s.dmc.clean a n)

/-- The value of a field within a word. -/
def Fld.get (f : Fld) (w : Word) : Nat := w.toNat / 2 ^ f.lo % 2 ^ f.width

/-- A word with a field replaced. -/
def Fld.put (f : Fld) (w : Word) (v : Nat) : Word :=
  Word.of (w.toNat - f.get w * 2 ^ f.lo + v % 2 ^ f.width * 2 ^ f.lo)

/-- The value of a register field. -/
def State.fld (s : State) (f : Fld) : Nat := f.get (s.reg f.off)

/-- The value of a signed register field. -/
def State.fldInt (s : State) (f : Fld) : Int := ofBits f.width (s.fld f)

/-- A one-bit field is set. -/
def State.flag (s : State) (f : Fld) : Bool := s.fld f != 0

/-- Write a register field. -/
def State.setFld (s : State) (f : Fld) (v : Nat) : State := s.setReg f.off (f.put (s.reg f.off) v)

/-- Write a one-bit field. -/
def State.setFlag (s : State) (f : Fld) (b : Bool) : State := s.setFld f (if b then 1 else 0)

/-- Write a signed register field. -/
def State.setFldInt (s : State) (f : Fld) (v : Int) : State := s.setFld f (toBits f.width v)

/-- Add to a wrapping counter register. -/
def State.addReg (s : State) (off n : Nat) : State := s.setReg off (s.reg off + Word.of n)

/-- Add 1 to a wrapping counter register. -/
def State.bump (s : State) (off : Nat) : State := s.addReg off 1

/-- The 64-bit value of a LO/HI pair, from the offset of its low word. -/
def State.reg64 (s : State) (lo : Nat) : Nat := (s.reg lo).toNat + 2 ^ 32 * (s.reg (lo + 4)).toNat

/-- Write a LO/HI pair. -/
def State.setReg64 (s : State) (lo v : Nat) : State :=
  (s.setReg lo (Word.of v)).setReg (lo + 4) (Word.of (v / 2 ^ 32))

/-- Write a whole register from a number. -/
def State.setNat (s : State) (off v : Nat) : State := s.setReg off (Word.of v)

/-- The low 16 bits of `b` are set in `m`: bit `i` of a number. -/
def bitOf (m i : Nat) : Bool := m / 2 ^ i % 2 == 1

/-- A number with bit `i` set or cleared. -/
def putBit (m i : Nat) (b : Bool) : Nat :=
  if b then (if bitOf m i then m else m + 2 ^ i) else (if bitOf m i then m - 2 ^ i else m)

/-- Set the pending bit of an event source (R310). -/
def State.pendEvent (s : State) (q : Nat) : State :=
  let lo := HIF_EV_PEND_LO.reg + 4 * (q / 32 % 2)
  s.setReg lo (Word.of (putBit (s.reg lo).toNat (q % 32) true))

/-- The bit indices below `n` that are set. -/
def bitsOf (n m : Nat) : List Nat := (List.range n).filter (bitOf m)

/-! The part (R1–R3). -/

/-- Bonded sense ports. -/
def Part.ports : Part → Nat
  | .wv4812 => 12
  | .wv2406 => 6

/-- The part code, which is the PCI Express Device ID too (R279). -/
def Part.code : Part → Nat
  | .wv4812 => 0x4812
  | .wv2406 => 0x2406

/-- GLB_DEVICE_ID: part code, core and port counts, stepping. -/
def Part.idWord : Part → Nat
  | .wv4812 => 0x48120C81
  | .wv2406 => 0x24060641

/-- Number of sense ports of this device. -/
def State.ports (s : State) : Nat := s.part.ports

/-! The device state (R27–R30). -/

/-- The code of a device state (R35). -/
def DevState.code : DevState → Nat
  | .boot => 0
  | .setup => 1
  | .running => 2
  | .degraded => 3
  | .safe => 4

/-- RUNNING or DEGRADED. -/
def State.isRunning (s : State) : Bool := s.ctl.dev == .running || s.ctl.dev == .degraded

/-- RWL fields are stored: BOOT or SETUP (R6), until a START is accepted (R31). DEDUCED, log entry 35. -/
def State.isSetup (s : State) : Bool := s.ctl.dev == .boot || (s.ctl.dev == .setup && !s.sched.starting)

/-- Change the device state, keeping the state before the change in PREV_STATE. A device in SAFE leaves it only through reset
(R29). DEDUCED, log entry 107. -/
def State.setDev (s : State) (d : DevState) : State :=
  if s.ctl.dev = d then s
  else if s.ctl.dev = .safe then s
  else s.putCtl { s.ctl with dev := d, prev := s.ctl.dev }

/-- Some DEG_CAUSE bit is 1. -/
def DegCause.any (d : DegCause) : Bool := d.port || d.dram || d.tec || d.partner || d.core

/-- DEG_CAUSE changes: RUNNING becomes DEGRADED at once when a bit is 1 (R28). -/
def State.withDeg (s : State) (d : DegCause) : State :=
  let s := s.putCtl { s.ctl with deg := d }
  if s.ctl.dev = .running && d.any then s.setDev .degraded else s

/-- FAULT_N is low: in DEGRADED and SAFE, and in BOOT after a failed step, of which a DRAM training that failed is one though
BOOT goes on (R27, R423). -/
def State.faultN (s : State) : Bool :=
  match s.ctl.dev with
  | .boot => s.ctl.bootFail || s.fld DMC_STATUS.TRAIN_FAIL != 0
  | .setup => false
  | .running => false
  | .degraded => true
  | .safe => true

/-- GLB_STATE as a host reads it. -/
def State.glbState (s : State) : Nat :=
  let b (x : Bool) (i : Nat) : Nat := if x then 2 ^ i else 0
  let c := s.ctl
  b c.dramFailed 22 + b c.imageNone 21 + b c.bootFail 20 + c.bootStep % 16 * 2 ^ 16
    + b c.deg.core 12 + b c.deg.partner 11 + b c.deg.tec 10 + b c.deg.dram 9 + b c.deg.port 8
    + b c.stopPending 7 + b c.commitFail 6 + c.prev.code * 8 + c.dev.code

/-! Free values. -/

/-- The free value of the next draw. UNVERIFIED, log entry 3; UNVERIFIED, log entry 13; DESIGN CHOICE, log entry 15. -/
def State.freeVal (s : State) : Nat := Config.free s.freeCtr

/-- Advance the counter of free values. DESIGN CHOICE, log entry 15. -/
def State.drawFree (s : State) : State := s.putFreeCtr (s.freeCtr + 1)

/-- A scheduler tick passes: device time advances while the VAUX domain runs (R19, R20). DESIGN CHOICE, log entry 2. -/
def State.tick (s : State) : State := if s.supply.vauxUp then s.putTime (s.time + 1) else s

/-- Something leaves the device. -/
def State.emit (s : State) (e : Emission) : State := { s with sent := s.sent ++ [e] }

/-! CRC-32C (R318): Castagnoli, reflected, initial value and final XOR of all ones. -/

/-- One bit step of the reflected CRC. -/
def crcBit (c : BitVec 32) : BitVec 32 :=
  if c.getLsbD 0 then (c >>> 1) ^^^ 0x82F63B78 else c >>> 1

/-- Eight bit steps. -/
def crcByte (c : BitVec 32) (b : Byte) : BitVec 32 :=
  crcBit (crcBit (crcBit (crcBit (crcBit (crcBit (crcBit (crcBit (c ^^^ b.setWidth 32))))))))

/-- The CRC of a list of bytes. -/
def crc32c (bs : List Byte) : Word := (bs.foldl crcByte 0xFFFFFFFF) ^^^ 0xFFFFFFFF

/-- Zero bytes. -/
def zeroBytes (n : Nat) : List Byte := List.replicate n 0

/-- Pad a list of bytes with zeros to a multiple of 8 (R317). -/
def pad8 (bs : List Byte) : List Byte := bs ++ zeroBytes ((8 - bs.length % 8) % 8)

/-- Part of a list. -/
def slice {α : Type} (l : List α) (first count : Nat) : List α := (l.drop first).take count

/-! Arithmetic shared by the engines. -/

/-- Nearest integer to `a / b`, ties away from zero. -/
def roundDiv (a : Int) (b : Nat) : Int :=
  if 0 ≤ a then (2 * a + b) / (2 * b) else -((2 * (-a) + b) / (2 * b))

/-- Nearest natural number to `a / b`, ties up. -/
def roundDivNat (a b : Nat) : Nat := (2 * a + b) / (2 * b)

/-- `⌈a / b⌉`. -/
def ceilDiv (a b : Nat) : Nat := (a + b - 1) / b

/-- Nearest integer to a rational, ties away from zero. -/
def roundRat (q : Rat) : Int := roundDiv q.num q.den

/-- The greatest integer whose square is at most `n`, by bits from the top of `k`. -/
def isqrtFrom (n : Nat) : Nat → Nat → Nat
  | 0, r => r
  | k + 1, r => let t := r + 2 ^ k; if t * t ≤ n then isqrtFrom n k t else isqrtFrom n k r

/-- Integer square root of numbers below 2¹²⁸. -/
def isqrt (n : Nat) : Nat := isqrtFrom n 64 0

end Sys2Proof.Machine
end

