-- ==== Sys2Proof/Machine/Interp.lean ====
section
/-!
DEFINITION. The cubic Lagrange interpolator of R145, shared by the filter chains and the auxiliary sequencer.
-/
namespace Sys2Proof.Machine

/-- The four weights of a delay of 1 + FRAC / 64 steps, in units of 2⁻¹⁶: each rounded, w(1) absorbing the rounding. -/
def alignWeights (frac : Nat) : Int × Int × Int × Int :=
  let f : Int := frac
  let w0 := -roundDiv (f * (f - 64) * (f - 128)) 24
  let w2 := -roundDiv ((64 + f) * f * (f - 128)) 8
  let w3 := roundDiv ((64 + f) * f * (f - 64)) 24
  (w0, 65536 - w0 - w2 - w3, w2, w3)

/-- The weighted sum of the latest value and the three before it, in units of 2⁻¹⁶. -/
def alignSum (frac : Nat) (x0 x1 x2 x3 : Int) : Int :=
  let (w0, w1, w2, w3) := alignWeights frac
  w0 * x0 + w1 * x1 + w2 * x2 + w3 * x3

end Sys2Proof.Machine
end

