-- ==== Sys2Proof/Machine/HostIf.lean ====
section
/-!
DEFINITION. Events, MSI-X vectors, product blocks and ring placement (chapters 12 and 13).
-/
namespace Sys2Proof.Machine

/-! Rings (R288–R293). -/

/-- A ring's typed state. -/
def State.ring (s : State) (r : Nat) : HostRing := SMap.get (fun _ => {}) s.hif.rings r

/-- Replace a ring's typed state. -/
def State.setRing (s : State) (r : Nat) (x : HostRing) : State :=
  s.putHif { s.hif with rings := SMap.put (fun _ => {}) s.hif.rings r x }

/-- The number of descriptors of a ring (R293, SIZE_LOG2 clamped to 4–12). -/
def State.ringSize (s : State) (r : Nat) : Nat := 2 ^ clampNat 4 12 (s.fld (HIF_RING_CTRL.SIZE_LOG2 r))

/-- The bus address of the head-shadow word of a ring; none while no shadow is written (R291). -/
def State.shadowAddr (s : State) (r : Nat) : Option Nat :=
  if s.flag HIF_SHADOW_BASE_LO.EN && !s.hif.d3hot then
    some (s.fld HIF_SHADOW_BASE_LO.ADDR_LO * 64 + s.fld HIF_SHADOW_BASE_HI.ADDR_HI * 2 ^ 32 + 4 * r)
  else none

/-- Write a ring's head-shadow word: head and the low half of its discard count (R291). -/
def State.writeShadow (s : State) (r : Nat) : State :=
  match s.shadowAddr r with
  | none => s
  | some a =>
    s.emit (.hostWrite a
      (leBytes 4 (s.fld (HIF_RING_INDEX.HEAD r) + (s.reg (HIF_RING_DISCARD_COUNT.reg r)).toNat % 2 ^ 16 * 2 ^ 16)))

/-! MSI-X vectors (R312, R314). -/

/-- The value of an unlisted word of the MSI-X table: vector control words are masked. DEDUCED, log entry 102. -/
def msixDefault (k : Nat) : Word := if k % 4 = 3 then 1 else 0

/-- The vector is masked in the MSI-X table. DEDUCED, log entry 102. -/
def State.vecMasked (s : State) (v : Nat) : Bool := (SMap.get msixDefault s.hif.msix (4 * v + 3)).getLsbD 0

/-- Set or clear one bit of a 32-bit vector set. -/
def setVec (m : BitVec 32) (v : Nat) (b : Bool) : BitVec 32 := BitVec.ofNat 32 (putBit m.toNat v b)

/-- Send the message of a vector and start its hold-off (R314). DEDUCED, log entry 102. -/
def State.sendVec (s : State) (v : Nat) : State :=
  let h := s.hif
  (s.emit (.msix v)).putHif { h with
    pba := setVec h.pba v false, vecPend := setVec h.vecPend v false,
    vecHold := if s.fld (HIF_VEC_MOD.HOLDOFF_US v) = 0 then h.vecHold else setVec h.vecHold v true }

/-- Make a vector pending: it sends at once unless masked, held off (and not urgent) or in D3hot (R283, R314). -/
def State.pendVec (s : State) (v : Nat) (urgent : Bool) : State :=
  if s.vecMasked v then s.putHif { s.hif with pba := setVec s.hif.pba v true }
  else if s.hif.d3hot || (s.hif.vecHold.getLsbD v && !urgent) then
    s.putHif { s.hif with vecPend := setVec s.hif.vecPend v true }
  else s.sendVec v

/-! Product blocks (R317, R318, R331–R333). -/

/-- Bytes of buffer a block occupies: header and carried payload; a record is one descriptor. -/
def Block.size (b : Block) : Nat := 16 + b.hdr.length + b.stream.length

/-- The bytes of a block: prefix, header and carried payload (R318). -/
def Block.bytes (b : Block) : List Byte :=
  leBytes 1 b.kind ++ leBytes 1 1 ++ leBytes 2 (16 + b.hdr.length) ++ leBytes 4 b.payload.length
    ++ leBytes 4 b.stream.length ++ leBytes 4 (if b.payload = [] then 0 else (crc32c b.payload).toNat)
    ++ b.hdr ++ b.stream

/-- A block is lost: counted on its ring, with SEQ advanced (R298). DEDUCED, log entry 87. -/
def State.discardBlock (s : State) (r : Nat) : State :=
  let s := s.setRing r { s.ring r with seq := (s.ring r).seq + 1 }
  (s.bump (HIF_RING_DISCARD_COUNT.reg r)).writeShadow r

/-- Bytes held by the 4 MiB output buffer (R333). DEDUCED, log entry 89. -/
def State.outBytes (s : State) : Nat :=
  s.hif.out.foldl (fun n b => if b.stage = .ready && decide (3 ≤ b.ring) then n + b.size else n) 0

/-- Capacity of the output buffer (R333). DEDUCED, log entry 89. -/
def outCapacity : Nat := 4 * 2 ^ 20

/-- Append to the blocks due. DEDUCED, log entry 89. -/
def State.queueBlock (s : State) (b : Block) : State := s.putHif { s.hif with out := s.hif.out ++ [b] }

/-- Compression applies to a block: R331. UNVERIFIED, log entry 16. -/
def State.compresses (s : State) (r len : Nat) : Bool :=
  s.flag CMP_CFG.EN && bitOf (s.reg CMP_RING_EN.reg).toNat r && decide (64 ≤ len)

/-- The lowest idle DEFLATE engine. -/
def State.freeEngine (s : State) : Option Nat :=
  (List.range 4).find? (fun e => !bitOf (s.fld CMP_ENGINE_BUSY.BUSY) e)

/-- Give the oldest waiting block to engine `e`. DEDUCED, log entry 90. -/
def assignOldest (e : Nat) : List Block → List Block × Option Nat
  | [] => ([], none)
  | b :: bs =>
    match b.stage with
    | .waiting _ => ({ b with stage := .engine e } :: bs, some b.payload.length)
    | _ => let (t, n) := assignOldest e bs; (b :: t, n)

/-- Free engines take the oldest waiting blocks (R332). -/
def State.feedEngines (s : State) : Nat → State
  | 0 => s
  | k + 1 =>
    match s.freeEngine with
    | none => s
    | some e =>
      match assignOldest e s.hif.out with
      | (_, none) => s
      | (out, some n) =>
        let s := s.putHif { s.hif with out := out }
        let s := s.setFld CMP_ENGINE_BUSY.BUSY (putBit (s.fld CMP_ENGINE_BUSY.BUSY) e true)
        (s.setReg64 CMP_IN_BYTES_LO.reg (s.reg64 CMP_IN_BYTES_LO.reg + n)).feedEngines k

/-- Discard several blocks of a ring. -/
def State.discardMany (s : State) (r : Nat) : Nat → State
  | 0 => s
  | n + 1 => (s.discardBlock r).discardMany r n

/-- A block is lost: counted on its ring; a core's block in ACRk_OUT_LOST_COUNT (R245); a part of a capture record loses the
record, once (R217). DEDUCED, log entry 89. -/
def State.loseBlock (s : State) (b : Block) : State :=
  let s := s.discardBlock b.ring
  let s := match b.core with
    | some k => s.bump (ACR_OUT_LOST_COUNT.reg k)
    | none => s
  if b.cap.isNone || b.cut then s else s.bump (TRG_CREG_LOST_COUNT.reg (b.ring - 16))

/-- The engine that holds a block. -/
def Block.engine (b : Block) : Option Nat := match b.stage with | .engine e => some e | _ => none

/-- A part of a capture record is lost from its place among the blocks due: the parts of the record behind it are discarded with
it, and an engine that held one is free; the parts before it are still written, as parts of a lost record (R217, R330, R332).
DEDUCED, log entry 89. -/
def State.dropRest (s : State) (b : Block) (before after : List Block) : State :=
  match b.cap with
  | none => s.putHif { s.hif with out := before ++ after }
  | some c =>
    let before := before.map (fun x => if x.cap = some c then { x with cut := true } else x)
    let rest := after.filter (fun x => x.cap == some c)
    let busy := (rest.filterMap Block.engine).foldl (fun m e => putBit m e false) (s.fld CMP_ENGINE_BUSY.BUSY)
    let s := s.putHif { s.hif with out := before ++ after.filter (fun x => x.cap != some c) }
    let s := (s.setFld CMP_ENGINE_BUSY.BUSY busy).discardMany b.ring rest.length
    s.feedEngines 4

/-- A completed block goes to the output buffer, or is lost when that cannot hold it whole (R333); answers whether it was
kept. -/
def State.bufferBlock (s : State) (b : Block) : State × Bool :=
  if outCapacity < s.outBytes + b.size then (((s.bump CMP_LINK_DROP_COUNT.reg).loseBlock b).dropRest b s.hif.out [], false)
  else (s.queueBlock { b with stage := .ready }, true)

/-- A completed product block falls due on its ring: discarded in D3hot (R283), queued for an engine where compression
applies, else placed in the output buffer (R331–R333); answers whether it was kept. -/
def State.sendBlock (s : State) (b : Block) : State × Bool :=
  if s.hif.d3hot then ((s.loseBlock b).dropRest b s.hif.out [], false)
  else if s.compresses b.ring b.payload.length then ((s.queueBlock { b with stage := .waiting s.time }).feedEngines 4, true)
  else s.bufferBlock b

/-- A product block of the device itself. -/
def State.pushBlock (s : State) (r kind : Nat) (hdr payload : List Byte) : State :=
  (s.sendBlock { ring := r, kind := kind, hdr := hdr, payload := payload, stream := payload }).1

/-- A record for ring 1 or 2 falls due; it does not pass the output buffer (R283, R298). -/
def State.pushRecord (s : State) (r : Nat) (bytes : List Byte) : State :=
  if s.hif.d3hot then s.discardBlock r else s.queueBlock { ring := r, hdr := bytes }

/-! Events (R310–R316). -/

/-- The hold-off state of an event source. -/
def State.evHold (s : State) (q : Nat) : EvHold := SMap.get (fun _ => {}) s.hif.holds q

/-- Replace the hold-off state of an event source. -/
def State.setEvHold (s : State) (q : Nat) (h : EvHold) : State :=
  s.putHif { s.hif with holds := SMap.put (fun _ => {}) s.hif.holds q h }

/-- Bytes 0–23 of an event record (R299); SEQ is added when it is placed. -/
def eventRecord (q count detail time round : Nat) : List Byte :=
  leBytes 1 q ++ leBytes 1 0 ++ leBytes 2 (satNat 16 count) ++ leBytes 4 detail ++ leBytes 8 time ++ leBytes 8 round

/-- A raise is offered to ring 2: written at once with no hold-off running, merged otherwise (R313). DEDUCED, log entry 103.
-/
def State.offerRaise (s : State) (q detail : Nat) : State :=
  let h := s.evHold q
  if h.running then
    s.setEvHold q { h with
      merged := h.merged + 1, detail := detail,
      time := if h.merged = 0 then s.time else h.time, round := if h.merged = 0 then s.ctl.round else h.round }
  else
    let s := s.pushRecord 2 (eventRecord q 1 detail s.time s.ctl.round)
    if s.fld (HIF_EV_ROUTE.HOLD_US q) = 0 then s else s.setEvHold q { running := true }

/-- Raise event source `q` with its DETAIL (R310). -/
def State.raiseEvent (s : State) (q detail : Nat) : State :=
  let s := s.pendEvent q
  let s := s.bump (HIF_EV_COUNT.reg q)
  let s := if s.flag (HIF_EV_ROUTE.RING_EN q) then s.offerRaise q detail else s
  if s.flag (HIF_EV_ROUTE.MSIX_EN q) then
    s.pendVec (s.fld (HIF_EV_ROUTE.VECTOR q)) (s.flag (HIF_EV_ROUTE.URGENT q))
  else s

/-- A ring error of R292: EV45 and ERR_CODE. -/
def State.ringError (s : State) (r code : Nat) : State :=
  (s.setFld (HIF_RING_STATUS.ERR_CODE r) code).raiseEvent 45 (r + code * 256)

/-! Placement (R290, R297, R298). -/

/-- The outcome of reading posted descriptors for `n` bytes. -/
inductive Fit where
  | fits (used : List (Desc × Nat))
  | short
  | bad (code : Nat)
  deriving DecidableEq, Repr

/-- A posted descriptor is unusable: OWN_CLEAR or BAD_DESC (R292). -/
def badDesc (record : Bool) (d : Desc) : Option Nat :=
  if !d.own then some 2
  else if record then (if d.zero then none else some 3)
  else if d.len % 8 != 0 || decide (d.len < 64) || decide (65536 < d.len) || d.addr % 8 != 0 then some 3
  else none

/-- Fill consecutive descriptors with `n` bytes. -/
def fitDescs (record : Bool) : List Desc → Nat → Fit
  | _, 0 => .fits []
  | [], _ => .short
  | d :: ds, n =>
    match badDesc record d with
    | some c => .bad c
    | none =>
      let k := if record then n else min n d.len
      match fitDescs record ds (n - k) with
      | .fits us => .fits ((d, k) :: us)
      | f => f

/-- The words of a buffer descriptor's writeback but the last (R297). -/
def bufferWords (d : Desc) (len seq flags : Nat) : List Word :=
  [d.w0, d.w1, d.w2, d.w3, Word.of len, Word.of seq, Word.of flags]

/-- Words of a byte list. -/
def bytesToWords : List Byte → List Word
  | a :: b :: c :: d :: t => Word.of (leVal [a, b, c, d]) :: bytesToWords t
  | _ => []

/-- The bus address of the descriptor at index `i` of ring `r`: ring base + 32 × (i mod SIZE) (R288). -/
def State.descAddr (s : State) (r i : Nat) : Nat :=
  s.fld (HIF_RING_BASE_LO.ADDR_LO r) * 64 + s.fld (HIF_RING_BASE_HI.ADDR_HI r) * 2 ^ 32 + 32 * (i % s.ringSize r)

/-- The descriptor at the head is written back from byte `skip` on: the bytes up to 27, then the last word with OWN = 0 in a
request of its own; the head moves on, and its shadow is written (R290). -/
def State.writeDesc (s : State) (r skip : Nat) (words : List Word) (last : Word) : State :=
  let i := s.fld (HIF_RING_INDEX.HEAD r)
  let a := s.descAddr r i
  let s := s.emit (.hostWrite (a + skip) (words.flatMap (fun w => leBytes 4 w.toNat)))
  let s := s.emit (.hostWrite (a + 28) (leBytes 4 last.toNat))
  let x := s.ring r
  let s := s.setRing r { x with posted := x.posted.drop 1 }
  (s.setFld (HIF_RING_INDEX.HEAD r) (i + 1)).writeShadow r

/-- Write the used descriptors of a block in turn: its bytes, then the writeback (R290). -/
def State.writeParts (s : State) (r seq kflags : Nat) : List (Desc × Nat) → List Byte → Nat → State
  | [], _, _ => s
  | (d, k) :: us, data, part =>
    let flags := (if part = 0 then 1 else 0) + (if us = [] then 2 else 0) + kflags + part % 256 * 256
    let s := s.emit (.hostWrite d.addr (data.take k))
    (s.writeDesc r 0 (bufferWords d k seq flags) 0).writeParts r seq kflags us (data.drop k) (part + 1)

/-- After a block or record is written: SEQ, its count, and the interrupt (R298, R312). -/
def State.completeBlock (s : State) (r : Nat) : State :=
  let x := s.ring r
  let s := (s.setRing r { x with seq := x.seq + 1 }).bump (HIF_RING_BLOCK_COUNT.reg r)
  if s.flag (HIF_RING_CTRL.IRQ_EN r) then s.pendVec (s.fld (HIF_RING_CTRL.VECTOR r)) false else s

/-- The ring takes blocks: enabled, not stalled, and the function not in D3hot (R283, R292, R298). -/
def State.ringOpen (s : State) (r : Nat) : Bool :=
  s.flag (HIF_RING_CTRL.EN r) && !s.flag (HIF_RING_STATUS.STALLED r) && !s.hif.d3hot

/-- Place one block on its ring; answers whether it was written: a block that is not is to be discarded whole (R298). DEDUCED,
log entry 87. -/
def State.placeBlock (s : State) (b : Block) : State × Bool :=
  let r := b.ring
  let record := decide (r < 3)
  if !s.ringOpen r then (s, false)
  else
    let x := s.ring r
    match fitDescs record x.posted (if record then 28 else b.size) with
    | .short => (s, false)
    | .bad c => ((s.setFlag (HIF_RING_STATUS.STALLED r) true).ringError r c, false)
    | .fits used =>
      if record then
        let data := if r = 2 then b.hdr ++ leBytes 4 x.seq else b.hdr
        ((s.writeDesc r 0 (bytesToWords data) 0).completeBlock r, true)
      else
        let k := (if b.stored then 4 else 0) + (if b.compressed then 8 else 0) + b.kind * 2 ^ 16
        ((s.writeParts r x.seq k used b.bytes 0).completeBlock r, true)

/-- Take the oldest block of a ring, if it is ready, with what stands before and behind it. DEDUCED, log entry 87. -/
def takeReady (r : Nat) : List Block → Option (List Block × Block × List Block)
  | [] => none
  | b :: bs =>
    if b.ring = r then (if b.stage = .ready then some ([], b, bs) else none)
    else (takeReady r bs).map (fun (h, x, t) => (b :: h, x, t))

/-- The oldest block or record due on ring `r` is written into posted descriptors, or discarded whole (R298); answers the
capture record that a discarded part belongs to. DEDUCED, log entry 87. -/
def State.writeBlock (s : State) (r : Nat) : State × Option (Nat × Nat) :=
  match takeReady r s.hif.out with
  | none => (s, none)
  | some (before, b, after) =>
    let s := s.putHif { s.hif with out := before ++ after }
    let (s, ok) := s.placeBlock b
    -- an event of the placement has its record behind the blocks due
    if !ok then ((s.loseBlock b).dropRest b before (s.hif.out.drop before.length), b.cap)
    else match b.core with
      | some k => (s.bump (ACR_OUT_COUNT.reg k), none)
      | none => (s, none)

/-- While the output buffer cannot hold `size` more bytes, the oldest blocks of ring `r` go to the host; answers whether record
`c` is still whole. -/
def State.makeRoom (s : State) (r size : Nat) (c : Nat × Nat) : Nat → State × Bool
  | 0 => (s, true)
  | n + 1 =>
    if s.outBytes + size ≤ outCapacity || (takeReady r s.hif.out).isNone then (s, true)
    else
      match s.writeBlock r with
      | (s, lost) => if lost = some c then (s, false) else s.makeRoom r size c n

end Sys2Proof.Machine
end

