-- ==== Sys2Proof/Machine/Plan.lean ====
section
/-!
DEFINITION. Reading a schedule configuration: plans, turn-table entries, times and energies (R43, R62, R64, R70–R75).
Times are in units of 1/128 tick, so that half a probe of R44 is a whole number.
-/
namespace Sys2Proof.Machine

/-- A configuration: register words with their reset values as defaults. -/
abbrev Cfg := SMap Word

/-- A field of a configuration. -/
def Cfg.fld (c : Cfg) (f : Fld) : Nat := f.get (SMap.get resetVal c f.off)

/-- A one-bit field of a configuration. -/
def Cfg.flag (c : Cfg) (f : Fld) : Bool := c.fld f != 0

/-- Units of 1/128 tick in a tick, in a bin of 10 ns, in 20 ns, in 40 ns, in a microsecond. -/
def uTick : Nat := 128
def uBin : Nat := 512
def u20ns : Nat := 1024
def u40ns : Nat := 2048
def uUs : Nat := 51200

/-- A stored probe plan (R70). -/
structure Plan where
  brlOnly : Bool
  tones : Nat
  chirp : Nat
  peak : Nat
  gauge : Nat
  bins : Nat
  lead : Nat
  share : Nat
  width : Nat
  brlPeak : Nat
  deriving DecidableEq, Repr

/-- Plan `p` of a configuration. -/
def Cfg.plan (c : Cfg) (p : Nat) : Plan where
  brlOnly := c.flag (LCH_PLAN_PROBE.KIND p)
  tones := c.fld (LCH_PLAN_PROBE.TONES p)
  chirp := c.fld (LCH_PLAN_PROBE.CHIRP_TICKS p)
  peak := c.fld (LCH_PLAN_POWER.PEAK_MW p)
  gauge := c.fld (LCH_PLAN_PROC.GAUGE p)
  bins := c.fld (LCH_PLAN_SPAN.BIN_COUNT p)
  lead := c.fld (LCH_PLAN_SPAN.LEAD_BINS p)
  share := c.fld (LCH_PLAN_PROC.BRL_SHARE p)
  width := c.fld (LCH_PLAN_BRL.BRL_WIDTH p)
  brlPeak := c.fld (LCH_PLAN_POWER.BRL_PEAK_MW p)

/-- A turn-table entry (R73). -/
structure Entry where
  index : Nat
  port : Nat
  plan : Nat
  kind : Nat
  offset : Nat
  deriving DecidableEq, Repr

/-- Entry `i` of a configuration. -/
def Cfg.entry (c : Cfg) (i : Nat) : Entry where
  index := i
  port := c.fld (LCH_TURN.PORT i)
  plan := c.fld (LCH_TURN.PLAN i)
  kind := c.fld (LCH_TURN.KIND i)
  offset := c.fld (LCH_TURN.OFFSET i)

/-- Entries in use. -/
def Cfg.turnCount (c : Cfg) : Nat := c.fld LCH_TABLE_CFG.TURN_COUNT

/-- The turn table, in entry order. -/
def Cfg.entries (c : Cfg) : List Entry := (List.range c.turnCount).map c.entry

/-- Round period in ticks. -/
def Cfg.period (c : Cfg) : Nat := c.fld LCH_ROUND_CFG.PERIOD

/-- Belt-locked mode. -/
def Cfg.beltLocked (c : Cfg) : Bool := c.flag LCH_ROUND_CFG.MODE

/-- Whole Brillouin rounds are enabled (R85). -/
def Cfg.wholeBrl (c : Cfg) : Bool := decide (2 ≤ c.fld LCH_TABLE_CFG.BRL_ROUND_EVERY)

/-- The entry names a port (a Rayleigh or Brillouin entry). -/
def Entry.onPort (e : Entry) : Bool := decide (e.kind < 2)

/-- The entry may launch a Rayleigh probe, a Brillouin pulse (R84, R85). -/
def Cfg.mayRayleigh (_ : Cfg) (e : Entry) : Bool := e.kind == 0
def Cfg.mayBrillouin (c : Cfg) (e : Entry) : Bool :=
  e.kind == 1 || (e.kind == 0 && ((c.plan e.plan).share != 0 || c.wholeBrl))

/-- Probe durations in units (R44). -/
def Plan.rayleighDur (p : Plan) : Nat := p.chirp * uTick
def Plan.brillouinDur (p : Plan) : Nat := 2 * p.width

/-- Energies in whole nJ, rounded up (R72). -/
def rayleighEnergy (peak chirp : Nat) : Nat := ceilDiv (peak * chirp * 25) 10000
def brillouinEnergy (peak width : Nat) : Nat := ceilDiv (peak * width) 25600

/-- Longest probe an entry may launch. -/
def Cfg.longestProbe (c : Cfg) (e : Entry) : Nat :=
  let p := c.plan e.plan
  max (if c.mayRayleigh e then p.rayleighDur else 0) (if c.mayBrillouin e then p.brillouinDur else 0)

/-- Largest energy an entry may draw, with the duration of that probe. -/
def Cfg.largestDraw (c : Cfg) (e : Entry) : Nat × Nat :=
  let p := c.plan e.plan
  let r := (rayleighEnergy p.peak p.chirp, p.rayleighDur)
  let b := (brillouinEnergy p.brlPeak p.width, p.brillouinDur)
  if !c.mayBrillouin e then r
  else if !c.mayRayleigh e then b
  else if r.1 < b.1 || (r.1 = b.1 && decide (r.2 < b.2)) then b else r

/-- Listen window in units (R71). -/
def Plan.window (p : Plan) : Nat := (p.lead + p.bins) * uBin

/-- A probe of the replica cycle (R64): Brillouin or Rayleigh, duration in units, tone set, peak. -/
structure Replica where
  brl : Bool
  dur : Nat
  tones : Nat
  peak : Nat
  deriving DecidableEq, Repr

/-- Energy of part B (R72). -/
def Replica.energy (r : Replica) : Nat :=
  if r.brl then brillouinEnergy r.peak (r.dur / 2) else rayleighEnergy r.peak (r.dur / uTick)

/-- The probes of plan `p` the replica cycle lists: a chirp below 400 ticks, a Brillouin pulse (R64). -/
def Cfg.planReplicas (c : Cfg) (p : Nat) : List Replica :=
  let q := c.plan p
  let ray := c.entries.any (fun e => e.kind == 0 && e.plan == p)
  let brl := c.entries.any (fun e => e.plan == p && c.mayBrillouin e)
  (if ray && decide (q.chirp < 400) then [⟨false, q.rayleighDur, q.tones, q.peak⟩] else [])
    ++ (if brl then [⟨true, q.brillouinDur, 0, q.brlPeak⟩] else [])

/-- Keep the first of equal elements. -/
def dedup {α : Type} [DecidableEq α] : List α → List α
  | [] => []
  | x :: xs => x :: (dedup xs).filter (fun y => decide (y ≠ x))

/-- The replica cycle (R64). -/
def Cfg.replicaCycle (c : Cfg) : List Replica := dedup ((List.range 8).flatMap c.planReplicas)

/-- ECO_LEAD in units; 0 acts as 1 (SRC_PUMP_CFG). -/
def Cfg.ecoLead (c : Cfg) : Nat := max 1 (c.fld SRC_PUMP_CFG.ECO_LEAD) * uUs

/-- Merge intervals sorted by start that lie less than 1 µs apart (R56). DEDUCED, log entry 40. -/
def mergeGates : List (Int × Int) → List (Int × Int)
  | [] => []
  | g :: gs =>
    match mergeGates gs with
    | [] => [g]
    | h :: hs => if h.1 - g.2 < uUs then (g.1, max g.2 h.2) :: hs else g :: h :: hs

/-- Insert an interval into a list sorted by start. -/
def insGate (g : Int × Int) : List (Int × Int) → List (Int × Int)
  | [] => [g]
  | h :: hs => if g.1 ≤ h.1 then g :: h :: hs else h :: insGate g hs

/-- Sort intervals by start. -/
def sortGates (gs : List (Int × Int)) : List (Int × Int) := gs.foldr insGate []

/-- The economy pump gates of a round's port entries, from a base time, for the given probe duration. DEDUCED, log entry 40.
-/
def Cfg.entryGate (c : Cfg) (base : Int) (dur : Nat) (e : Entry) : Int × Int :=
  let t := base + (e.offset * uTick : Nat)
  (t - (dur / 2 : Nat) - c.ecoLead, t + (dur / 2 : Nat) + c.ecoLead)

/-- The shortest probe an entry may launch. -/
def Cfg.shortestProbe (c : Cfg) (e : Entry) : Nat :=
  let p := c.plan e.plan
  if !c.mayRayleigh e then p.brillouinDur
  else if !c.mayBrillouin e then p.rayleighDur
  else min p.rayleighDur p.brillouinDur

/-- The shortest gate on-time of the table, in units (R57): merged gates, taken cyclically, each entry at its shortest
probe. -/
def Cfg.shortestGate (c : Cfg) : Option Nat :=
  let es := c.entries.filter Entry.onPort
  let at_ (b : Int) := es.map (fun e => c.entryGate b (c.shortestProbe e) e)
  let p : Int := (c.period * uTick : Nat)
  let ms := mergeGates (sortGates (at_ (-p) ++ at_ 0 ++ at_ p))
  let len (g : Int × Int) : Nat :=
    match ms.find? (fun m => decide (m.1 ≤ g.1) && decide (g.2 ≤ m.2)) with
    | some m => (m.2 - m.1).toNat
    | none => (g.2 - g.1).toNat
  (at_ 0).foldl (fun m g => match m with
    | none => some (len g)
    | some x => some (min x (len g))) none

/-- Diagnostic turns are active (R62). With ECO_EN = 0 the pumps run continuously, so no gate is short. -/
def Cfg.diagActive (c : Cfg) : Bool :=
  c.flag SRC_PUMP_CFG.DIAG_FORCE || c.replicaCycle != [] ||
    (c.flag SRC_PUMP_CFG.ECO_EN && (match c.shortestGate with | some g => decide (g < 5 * uUs) | none => false))

/-- Longest replica of the cycle. -/
def Cfg.longestReplica (c : Cfg) : Nat := c.replicaCycle.foldl (fun m r => max m r.dur) 0

/-- Longest source occupancy of a diagnostic entry, from its leading edge (R63, R71). -/
def Cfg.diagOccupancy (c : Cfg) : Nat :=
  if c.replicaCycle = [] then 816 * uTick else 880 * uTick + c.longestReplica + u40ns

/-- Source occupancy of an entry with a probe of the given duration, about a round starting at 0 (R71). -/
def Cfg.sourceSpan (c : Cfg) (e : Entry) : Int × Int :=
  let t : Int := (e.offset * uTick : Nat)
  if e.onPort then
    let h : Int := (c.longestProbe e / 2 + u20ns : Nat)
    (t - h, t + h)
  else (t, t + c.diagOccupancy)

/-- Port occupancy of an entry with its longest probe (R71). -/
def Cfg.portSpan (c : Cfg) (e : Entry) : Int × Int :=
  let t : Int := (e.offset * uTick : Nat)
  let h : Int := (c.longestProbe e / 2 : Nat)
  (t - h, t + (c.plan e.plan).window + h)

/-- The entries of a port. -/
def Cfg.portEntries (c : Cfg) (n : Nat) : List Entry := c.entries.filter (fun e => e.onPort && e.port == n)

/-- Fields of the schedule configuration that LCH_WRITE reaches (R308). -/
def schedMask (off : Nat) : Nat :=
  if 0x40000 ≤ off ∧ off < 0x80000 then (match rowOf off with | some r => r.rwl | none => 0)
  else if off = SRC_PUMP_CFG.reg then 0xC00003FF
  else if off = SRC_LOSHIFT.reg then 0x3FFF
  else 0

/-- The schedule configuration held in a register file: the words `schedMask` reaches. -/
def schedCfg (regs : SMap Word) : Cfg :=
  (regs.filter (fun p => decide (schedMask p.1 ≠ 0))).map (fun p => (p.1, p.2))

/-- The takeover configuration of the MLK_TKO registers, as LCH words, with the source set-up in force (R369). -/
def tkoCfg (regs : SMap Word) : Cfg :=
  ((regs.filter (fun p => decide (p.1 = SRC_PUMP_CFG.reg) || decide (p.1 = SRC_LOSHIFT.reg)))
    ++ ((regs.filter (fun p => decide (0x1D1000 ≤ p.1) && decide (p.1 < 0x1D1500))).map
          (fun p => (p.1 - 0x1D1000 + 0x40000, p.2))))

end Sys2Proof.Machine
end

