-- ==== Sys2Proof/Machine/Units.lean ====
section
/-!
DEFINITION. Accessors of the arrays of like units held in the state.
-/
namespace Sys2Proof.Machine

/-- Trigger unit `u`. -/
def State.unit (s : State) (u : Nat) : TrgUnit := SMap.get (fun _ => {}) s.units u

/-- Replace trigger unit `u`. -/
def State.setUnit (s : State) (u : Nat) (x : TrgUnit) : State := s.putUnits (SMap.put (fun _ => {}) s.units u x)

/-- Control output `k`. -/
def State.dout (s : State) (k : Nat) : Dout := SMap.get (fun _ => {}) s.douts k

/-- Replace control output `k`. -/
def State.setDout (s : State) (k : Nat) (x : Dout) : State := s.putDouts (SMap.put (fun _ => {}) s.douts k x)

/-- Blanking input `i`. -/
def State.blank (s : State) (i : Nat) : Blank := SMap.get (fun _ => {}) s.blanks i

/-- Replace blanking input `i`. -/
def State.setBlank (s : State) (i : Nat) (x : Blank) : State := s.putBlanks (SMap.put (fun _ => {}) s.blanks i x)

/-- Sense port `n`. -/
def State.port (s : State) (n : Nat) : PortSt := SMap.get (fun _ => {}) s.streams n

/-- Replace sense port `n`. -/
def State.setPort (s : State) (n : Nat) (x : PortSt) : State := s.putStreams (SMap.put (fun _ => {}) s.streams n x)

/-- The Brillouin engine of port `n`. -/
def State.brlPort (s : State) (n : Nat) : BrlPort := SMap.get (fun _ => {}) s.brl n

/-- Replace the Brillouin engine of port `n`. -/
def State.setBrlPort (s : State) (n : Nat) (x : BrlPort) : State := s.putBrl (SMap.put (fun _ => {}) s.brl n x)

/-- Analysis core `k`. -/
def State.core (s : State) (k : Nat) : Core := SMap.get (fun _ => {}) s.cores k

/-- Replace analysis core `k`. -/
def State.setCore (s : State) (k : Nat) (x : Core) : State := s.putCores (SMap.put (fun _ => {}) s.cores k x)

/-- The core is stopped or faulted. -/
def Core.idle (c : Core) : Bool := c.st == .stopped || c.st == .faulted

/-- Passes left at repeat level `i`, level 0 the outermost (R229). -/
def Core.lc (c : Core) (i : Nat) : Nat := match c.stack.reverse[i]? with | some l => l.count | none => 0

/-- Safety channel `c`. -/
def State.chan (s : State) (c : Nat) : Chan := SMap.get (fun _ => {}) s.saf.chans c

/-- Replace safety channel `c`. -/
def State.setChan (s : State) (c : Nat) (x : Chan) : State :=
  s.putSaf { s.saf with chans := SMap.put (fun _ => {}) s.saf.chans c x }

/-- History of diagnostic `d` at port `p` (15: the whole device). DEDUCED, log entry 48. -/
def State.diag (s : State) (d p : Nat) : Diag := SMap.get (fun _ => {}) s.saf.diags (d * 16 + p)

/-- Replace the history of a diagnostic. -/
def State.setDiag (s : State) (d p : Nat) (x : Diag) : State :=
  s.putSaf { s.saf with diags := SMap.put (fun _ => {}) s.saf.diags (d * 16 + p) x }

/-- Pins of the safety channels driven (R379); a lost toggle releases both. -/
def State.pinDriven (s : State) (c : Nat) : Bool := (s.chan c).pin && s.saf.toggle

/-- An alarm is in force on a channel (R380). -/
def State.alarm (s : State) (c : Nat) : Bool :=
  let x := s.chan c
  x.latched || x.holding || x.brk.isSome

/-- Operating seconds (R407). DESIGN CHOICE, log entry 2. -/
def State.opSeconds (s : State) : Nat := s.evr.opBase + s.time / ticksPerS

/-- A bit as a number at a position. -/
def bitAt (b : Bool) (i : Nat) : Nat := if b then 2 ^ i else 0

end Sys2Proof.Machine
end

