-- ==== Sys2Proof/Machine/Cal.lean ====
section
/-!
DEFINITION. Calibration runs, coefficient sets, pinning and restoring (R433–R443).
-/
namespace Sys2Proof.Machine

/-- Result registers of calibration (R442): the device's and the ports'. DESIGN CHOICE, log entry 47. -/
def isCalResult (off : Nat) : Bool :=
  (decide (GLB_CAL_LASER.reg ≤ off) && decide (off ≤ GLB_CAL_EXC.reg)) ||
    (List.range 12).any (fun n => decide (PRT_CAL_HYB.reg n ≤ off) && decide (off ≤ PRT_CAL_ROUTE.reg n))

/-- The place of the measured excitation current of a code, in pA, in a coefficient set: beyond the registers, none of which
holds it (R433, item 9). -/
def calExc (code : Nat) : Nat := 2 ^ 32 + code

/-- A place of a coefficient set. -/
def isCalCoef (off : Nat) : Bool := isCalResult off || (decide (2 ^ 32 ≤ off) && decide (off < 2 ^ 32 + 8))

/-- A coefficient of the set in force. -/
def State.calWord (s : State) (off : Nat) : Word := SMap.get (fun _ => 0) s.cal.force off

/-- A field of the set in force. -/
def State.calFld (s : State) (f : Fld) : Nat := f.get (s.calWord f.off)

/-- The calibrated current of an excitation code in pA (R337, R433); its nominal value before a run has measured it. DESIGN
CHOICE, log entry 112. -/
def State.excCurrent (s : State) (code : Nat) : Nat :=
  let w := (s.calWord (calExc code)).toNat
  if w = 0 then 7812500 * 2 ^ code else w

/-- Slices of items 0–4 of one port: 32, 128, 256, 64 and 32 (R433). -/
def calItemSlices : List Nat := [32, 128, 256, 64, 32]
def calSlices : Nat := 512

/-- Items 0–4 whose slices are done. -/
def calItemsDone (slices : Nat) : List Bool :=
  let rec go (used : Nat) : List Nat → List Bool
    | [] => []
    | n :: ns => decide (used + n ≤ slices) :: go (used + n) ns
  go 0 calItemSlices

/-- The port has a Rayleigh entry; it has a probe of at least 1 µs (R436). -/
def State.portRayleigh (s : State) (n : Nat) : Bool := ((schedCfg s.regs).portEntries n).any (fun e => e.kind == 0)
def State.portLongProbe (s : State) (n : Nat) : Bool :=
  let c := schedCfg s.regs
  (c.portEntries n).any (fun e =>
    (c.mayRayleigh e && decide (uUs ≤ (c.plan e.plan).rayleighDur)) ||
    (c.mayBrillouin e && decide (uUs ≤ (c.plan e.plan).brillouinDur)))

/-- Item 5 or item 6 of a port is missing at once (R436). -/
def State.calNo5 (s : State) (n : Nat) : Bool := !s.portRayleigh n
def State.calNo6 (s : State) (n : Nat) : Bool := !s.portLongProbe n

/-- Counts of a run for a port. -/
def CalRun.slicesOf (r : CalRun) (n : Nat) : Nat := SMap.get (fun _ => 0) r.slices n
def CalRun.framesOf (r : CalRun) (n : Nat) : Nat := SMap.get (fun _ => 0) r.frames n
def CalRun.turnsOf (r : CalRun) (n : Nat) : Nat := SMap.get (fun _ => 0) r.turns n

/-- Every item of a port is measured or missing (R438). DEDUCED, log entry 46. -/
def State.calPortDone (s : State) (r : CalRun) (n : Nat) : Bool :=
  decide (calSlices ≤ r.slicesOf n) && (s.calNo5 n || decide (256 ≤ r.framesOf n))
    && (s.calNo6 n || decide (256 ≤ r.turnsOf n))

/-- PORTS_DONE of GLB_CAL_STATUS. -/
def State.calShowDone (s : State) (r : CalRun) : State :=
  s.setFld GLB_CAL_STATUS.PORTS_DONE
    ((List.range s.ports).foldl (fun m n => m + bitAt (s.calPortDone r n) n) 0)

/-- Replace the run in progress. -/
def State.setCalRun (s : State) (r : Option CalRun) : State := s.putCal { s.cal with run := r }

/-- One more slice, frame or turn of a port in the run in progress (R434, R436). -/
def State.calSlice (s : State) (n : Nat) : State :=
  match s.cal.run with
  | none => s
  | some r =>
    let r := { r with slices := SMap.put (fun _ => 0) r.slices n (min calSlices (r.slicesOf n + 1)) }
    (s.setCalRun (some r)).calShowDone r
def State.calFrame (s : State) (n : Nat) : State :=
  match s.cal.run with
  | none => s
  | some r =>
    let r := { r with frames := SMap.put (fun _ => 0) r.frames n (min 256 (r.framesOf n + 1)) }
    (s.setCalRun (some r)).calShowDone r
def State.calTurn (s : State) (n : Nat) : State :=
  match s.cal.run with
  | none => s
  | some r =>
    let r := { r with turns := SMap.put (fun _ => 0) r.turns n (min 256 (r.turnsOf n + 1)) }
    (s.setCalRun (some r)).calShowDone r

/-- The latest reading of a die. -/
def State.dieTemp (s : State) (d : Nat) : Nat := SMap.get (fun _ => 0) s.cal.temps d

/-- Low 16 bits of the run number, in the high half of a DETAIL. -/
def State.calRunDetail (s : State) : Nat := (s.reg GLB_CAL_RUN_NUM.reg).toNat % 2 ^ 16 * 2 ^ 16

/-- A run starts: numbered, reference temperatures taken, EV36 raised (R437, R443). -/
def State.calStart (s : State) (cause die : Nat) : State :=
  let s := s.bump GLB_CAL_RUN_NUM.reg
  let s := s.setFlag GLB_CAL_STATUS.BUSY true
  let s := (s.setFld GLB_CAL_STATUS.CAUSE cause).setFld GLB_CAL_STATUS.DIE die
  let s := s.setFld GLB_CAL_STATUS.PORTS_DONE 0
  let s := (List.range 8).foldl (fun s d => s.setFld (GLB_CAL_REF_TEMP.TEMP d) (s.dieTemp d)) s
  let s := s.putCal { s.cal with run := some { start := s.time }, want := none }
  s.raiseEvent 36 (cause + (if cause = 3 then die * 16 else 0) + s.calRunDetail)

/-- An abort of the run in progress (R440). -/
def State.calAbort (s : State) : State :=
  if s.cal.run.isNone then s
  else
    let s := (s.setCalRun none).setFlag GLB_CAL_STATUS.BUSY false
    let s := s.bump GLB_CAL_ABORT_COUNT.reg
    s.raiseEvent 37 ((if s.flag GLB_CAL_STATUS.PINNED then 2 else 0) + 8 + s.calRunDetail)

/-- The first die whose reading differs from its reference by more than DELTA (R437). -/
def State.calTempDie (s : State) : Option Nat :=
  if !s.flag GLB_CAL_CFG.TEMP_EN then none
  else
    (List.range 8).find? (fun d =>
      let delta := (s.reg GLB_CAL_DELTA.reg).toNat / 2 ^ (4 * d) % 16
      let diff := ofBits 16 (s.dieTemp d) - ofBits 16 (s.fld (GLB_CAL_REF_TEMP.TEMP d))
      delta != 0 && decide ((delta * 50 : Nat) < diff.natAbs))

/-- The temperature test: with no run in progress a trigger waits for the next round start (R437). -/
def State.calTempTest (s : State) : State :=
  if s.cal.run.isSome || s.cal.want.isSome then s
  else match s.calTempDie with
    | some d => s.putCal { s.cal with want := some (3, d) }
    | none => s

/-- Write measured values into the result registers, and answer the set they make: a register with no measured value keeps the
value of the set in force (R433, R442). DESIGN CHOICE, log entry 47. -/
def State.calResults (s : State) (vs : List (Nat × Word)) : State × SMap Word :=
  let vs := vs.filter (fun v => isCalCoef v.1)
  ((vs.filter (fun v => isCalResult v.1)).foldl (fun s v => s.setReg v.1 v.2) s,
    vs.foldl (fun m v => SMap.put (fun _ => 0) m v.1 v.2) s.cal.force)

/-- Missing items of a port at the end of a run, as PRTn_CAL_STATUS.MISSING (R433, R436, R438). -/
def State.calMissing (s : State) (r : CalRun) (n : Nat) : Nat :=
  let done := calItemsDone (r.slicesOf n)
  (List.range 5).foldl (fun m i => m + bitAt (!(done[i]?).getD false) i) 0
    + bitAt (s.calNo5 n || decide (r.framesOf n < 256)) 5 + bitAt (s.calNo6 n || decide (r.turnsOf n < 256)) 6

/-- PRTn_CAL_STATUS of a port at the end of a run. -/
def State.calPortStatus (s : State) (r : CalRun) (sat : Nat) (n : Nat) : State :=
  let miss := s.calMissing r n
  let s := s.setFlag (PRT_CAL_STATUS.DONE n) true
  let s := s.setFlag (PRT_CAL_STATUS.NO_FRAMES n) (s.calNo5 n || s.calNo6 n)
  let s := s.setFlag (PRT_CAL_STATUS.SAT n) (bitOf sat n)
  let s := s.setFld (PRT_CAL_STATUS.MISSING n) miss
  s.setFld (PRT_CAL_STATUS.FRAMES n) (satNat 16 (r.framesOf n))

/-- The end of a run with its measured values (R438, R439, R442, R443): `devMissing` bit `i` for device item `8 + i`;
`sat` the ports whose coefficients were saturated. -/
def State.calFinish (s : State) (r : CalRun) (timeout : Bool) (vs : List (Nat × Word)) (devMissing sat : Nat)
    (devSat : Bool) : State :=
  let miss := (List.range s.ports).any (fun n => s.calMissing r n != 0) || devMissing % 16 != 0
  let s := (List.range s.ports).foldl (fun s n => s.calPortStatus r sat n) s
  let s := (s.setFlag GLB_CAL_MISSING.SAT devSat).setFld GLB_CAL_MISSING.DEV_ITEMS devMissing
  let (s, set) := s.calResults vs
  let pinned := s.flag GLB_CAL_STATUS.PINNED
  let s := (s.setCalRun none).setFlag GLB_CAL_STATUS.BUSY false
  let s := s.setFlag GLB_CAL_STATUS.PENDING (!pinned)
  let s := s.putCal { s.cal with result := if pinned then none else some set, completedAt := s.time }
  let s := s.raiseEvent 37 (bitAt (!pinned) 0 + bitAt pinned 1 + bitAt miss 2 + bitAt timeout 4 + bitAt (devSat || sat % 4096 != 0) 5
    + s.calRunDetail)
  s.calTempTest

/-- The set in force changes at a round start: the old set becomes previous, frames of the round carry CAL_NEW, and the
round is recorded (R439, R441). -/
def State.calChange (s : State) (set : SMap Word) (origin : Nat) : State :=
  let s := s.putCal { s.cal with previous := s.cal.force, force := set }
  let s := s.setFld GLB_CAL_STATUS.SET origin
  let s := s.setReg64 GLB_CAL_APPLY_ROUND_LO.reg (s.ctl.round % 2 ^ 48)
  s.putSched { s.sched with calNew := true }

/-- A completed run's result is dropped unapplied. DEDUCED, log entry 46. -/
def State.calDrop (s : State) : State :=
  (s.putCal { s.cal with result := none }).setFlag GLB_CAL_STATUS.PENDING false

/-- Application of a result at a round start at least 10 µs after completion (R439). DESIGN CHOICE, log entry 47. -/
def State.calApply (s : State) : State :=
  match s.cal.result with
  | some set =>
    if 10 * ticksPerUs ≤ s.time - s.cal.completedAt then s.calDrop.calChange set 1 else s
  | none => s

/-- CAL_PIN at its round start (R441). DEDUCED, log entry 46. -/
def State.calPin (s : State) (on : Bool) : State :=
  let s := s.setFlag GLB_CAL_STATUS.PINNED on
  if on then s.calDrop else s

/-- CAL_RESTORE at its round start (R441): a result applied at the same round start is discarded. DESIGN CHOICE, log entry 47.
-/
def State.calRestore (s : State) (startup : Bool) : State :=
  let s := if (match s.cal.result with | some _ => decide (10 * ticksPerUs ≤ s.time - s.cal.completedAt) | none => false)
    then s.calDrop else s
  if startup then s.calChange s.cal.startup 3 else s.calChange s.cal.previous 2

end Sys2Proof.Machine
end

