-- ==== Sys2Proof/Machine/Complete.lean ====
section
/-!
DEFINITION. Completion of ring-0 commands (R295, R296, R303, R309).
-/
namespace Sys2Proof.Machine

/-- Result codes (R309). -/
def resOk : Nat := 0x00
def resPending : Nat := 0x01
def resLate : Nat := 0x02
def resBadOpcode : Nat := 0x03
def resBadParam : Nat := 0x04
def resParamFetch : Nat := 0x05
def resAbsent : Nat := 0x06
def resCommitFail : Nat := 0x07
def resSuperseded : Nat := 0x08
def resStopped : Nat := 0x09
def resNotClear : Nat := 0x0A
def resBusy : Nat := 0x0B
def resConflict : Nat := 0x0C
def resSpmFail : Nat := 0x0D
def resCancelled : Nat := 0x0E
def resNotFound : Nat := 0x0F
def resSafe : Nat := 0x10

/-- Codes that raise EV46 CMD_ERROR. -/
def resIsError (code : Nat) : Bool := (decide (2 ≤ code) && decide (code ≤ 7)) || (decide (0xA ≤ code) && decide (code ≤ 0xD))

/-- An outcome of a command: its code with DETAIL and DETAIL2. -/
structure CmdRes where
  code : Nat
  detail : Nat := 0
  detail2 : Nat := 0
  deriving DecidableEq, Repr

/-- OK, with the no-effect bit when the command did nothing. -/
def resDone (effect : Bool) : CmdRes := { code := resOk, detail := if effect then 0 else 1 }

/-- The RESULT word (R295). -/
def CmdRes.word (r : CmdRes) : Nat := r.code % 256 + r.detail % 256 * 256 + r.detail2 % 65536 * 65536

/-- The completion record of R296, bytes 0–27. -/
def completionBytes (opcode tag index round time : Nat) (r : CmdRes) : List Byte :=
  leBytes 1 opcode ++ leBytes 1 0 ++ leBytes 2 tag ++ leBytes 2 index ++ leBytes 2 0 ++ leBytes 8 (round % 2 ^ 48)
    ++ leBytes 8 time ++ leBytes 4 r.word

/-- Write a command's completion record, raising EV46 for an error (R296, R309). DEDUCED, log entry 29. -/
def State.complete (s : State) (opcode tag index round : Nat) (r : CmdRes) : State :=
  let s := s.pushRecord 1 (completionBytes opcode tag index round s.time r)
  if resIsError r.code then (s.bump HIF_CMD_ERR_COUNT.reg).raiseEvent 46 (r.code + index * 2 ^ 16) else s

/-- Complete a command in progress; the caller takes it out of the list. -/
def State.completeCmd (s : State) (c : PendCmd) (round : Nat) (r : CmdRes) : State :=
  s.complete c.opcode c.hdr.tag.toNat c.index round r

/-- Complete several commands with one result, in ring order. -/
def State.completeAll (s : State) (round : Nat) (r : CmdRes) : List PendCmd → State
  | [] => s
  | c :: cs => (s.completeCmd c round r).completeAll round r cs

/-- Nothing is pending any more in the scheduler (LCH_PENDING, R90). -/
def State.clearPending (s : State) : State :=
  (s.putSched { s.sched with pendingCfg := none }).setNat LCH_PENDING.reg 0

/-- Complete every command in progress of which `p` holds. -/
def State.completeWhere (s : State) (p : PendCmd → Bool) (round : Nat) (r : CmdRes) : State :=
  let cs := s.hif.cmds.filter p
  let s := s.putHif { s.hif with cmds := s.hif.cmds.filter (fun c => !p c) }
  let s := if cs.any (fun c => c.opcode == 0x11) then s.clearPending else s
  s.completeAll round r cs

end Sys2Proof.Machine
end

