-- ==== Sys2Proof/Machine/CoreCtl.lean ====
section
/-!
DEFINITION. Starting, stopping and faulting an analysis core (R243, R246–R249).
-/
namespace Sys2Proof.Machine

/-- Causes in ACRk_STATUS.STOP_CAUSE. -/
def stopHalt : Nat := 1
def stopHost : Nat := 2
def stopDevice : Nat := 3
def stopSafe : Nat := 4
def stopFault : Nat := 5

/-- Fault causes (R249). -/
def faultIllegal : Nat := 1
def faultAlign : Nat := 2
def faultPc : Nat := 3
def faultRep : Nat := 4
def faultOut : Nat := 5
def faultDma : Nat := 6
def faultWdog : Nat := 7
def faultEcc : Nat := 8
def faultParity : Nat := 9
def faultSlot : Nat := 10

/-- The core executes: RUNNING, with no stop under way (R248). DEDUCED, log entry 4. -/
def Core.executes (c : Core) : Bool := c.st == .running && c.stopping.isNone

/-- The core is RUNNING or WAITING, with no stop under way. -/
def Core.live (c : Core) : Bool := (c.st == .running || c.st == .waiting) && c.stopping.isNone

/-- Slot size in bytes (R243). -/
def State.slotSize (s : State) (k : Nat) : Nat :=
  let n := 64 * (s.fld (ACR_FEED_CFG.TILE_COUNT_M1 k) + 1)
  let w := if s.flag (ACR_FEED_CFG.FORMAT k) then 2 else 4
  let q := if s.flag (ACR_FEED_CFG.QUAL k) then 1 else 0
  64 * ceilDiv (64 + n * w + n * q) 64

/-- Byte address of slot 0 (R243). -/
def State.slotBase (s : State) (k : Nat) : Nat := s.fld (ACR_FEED_BUF.BASE k) * 64

/-- Slots in use: the requested number, reduced to those that fit (R243). -/
def State.slotsUsed (s : State) (k : Nat) : Nat :=
  min (max 1 (s.fld (ACR_FEED_BUF.SLOTS k))) ((2 ^ 18 - s.slotBase k) / s.slotSize k)

/-- Write the slot registers and FEED_BAD from the configuration (R243). -/
def State.feedSetup (s : State) (k : Nat) : State :=
  let s := s.setFld (ACR_SLOT_INFO.SLOTS_USED k) (s.slotsUsed k)
  let s := s.setFld (ACR_SLOT_INFO.SLOT_SIZE k) (s.slotSize k)
  s.setFlag (ACR_STATUS.FEED_BAD k) (s.slotsUsed k == 0 || decide (s.ports ≤ s.fld (ACR_FEED_CFG.PORT k)))

/-- Start core `k` at an entry: registers zero, stack empty, COMPAT read (R228, R248, R254). -/
def State.startCore (s : State) (k start : Nat) : State :=
  let c := s.core k
  let n : Core := {
    st := .running
    stopCause := c.stopCause
    pc := BitVec.ofNat 11 start
    compat := s.flag (ACR_SPM_CFG.COMPAT k)
    pmem := c.pmem
    spm := c.spm
    errs := c.errs
    factory := c.factory
    outQ := c.outQ
    dmaQ := c.dmaQ
    outSeq := c.outSeq }
  ((s.setCore k n).setNat (ACR_FAULT.reg k) 0).feedSetup k

/-- Begin a stop of core `k`: no further instruction issues, held slots are released and staging is emptied; queued
outputs and transfers go on (R248). -/
def State.beginStop (s : State) (k cause : Nat) : State :=
  let c := s.core k
  if c.live then
    s.setCore k { c with stopping := some cause, wait := 0, ready := [], held := [], staging := [], lastStore := none }
  else s

/-- Entry to SAFE: every core stops with cause SAFE, its outputs and transfers abandoned (R248). -/
def State.coreSafe (s : State) (k : Nat) : State :=
  let c := s.core k
  if c.st = .running ∨ c.st = .waiting then
    s.setCore k { c with stopping := some stopSafe, wait := 0, ready := [], held := [], staging := [], outQ := [],
                         dmaQ := [], lastStore := none }
  else s.setCore k { c with st := .stopped, stopCause := stopSafe }

/-- The finish of a stop: the state changes once outputs and transfers are done (R248). -/
def State.finishStop (s : State) (k : Nat) : State :=
  let c := s.core k
  match c.stopping with
  | none => s
  | some cause =>
    if c.outQ = [] ∧ c.dmaQ = [] then
      s.setCore k { c with st := if cause = stopFault then .faulted else .stopped, stopCause := cause, stopping := none }
    else s

/-- A fault of core `k` under R249: recorded, the feed stopped, EV44 raised and DEG_CAUSE.CORE set (R30). UNVERIFIED, log
entry 3; UNVERIFIED, log entry 108. -/
def State.coreFault (s : State) (k cause pc : Nat) (insn : Word) : State :=
  let c := s.core k
  let s := s.setCore k { c with stopping := some stopFault, wait := 0, ready := [], held := [], staging := [],
                                lastStore := none, degFault := true }
  let s := s.setNat (ACR_FAULT.reg k) (cause * 2 ^ 28 + pc % 2048)
  let s := s.setReg (ACR_FAULT_INSN.reg k) insn
  let s := s.bump (ACR_FAULT_COUNT.reg k)
  let s := s.raiseEvent 44 (k + cause * 256 + pc % 2048 * 2 ^ 16)
  s.withDeg { s.ctl.deg with core := true }

/-- DEG_CAUSE.CORE follows the faulted cores that no command has restarted or stopped (R30). -/
def State.clearCoreDeg (s : State) (k : Nat) : State :=
  let s := s.setCore k { s.core k with degFault := false }
  s.withDeg { s.ctl.deg with core := (List.range 16).any (fun j => (s.core j).degFault) }

/-- Whether a march is testing the core's scratchpad (R260). -/
def State.marchBusy (s : State) (k : Nat) : Bool := s.flag (ACR_SPM_STATUS.MARCH_BUSY k)

/-- The core may start: it is stopped or faulted, its scratchpad is not under test and not failed (R260, R261). -/
def State.canStart (s : State) (k : Nat) : Bool :=
  (s.core k).idle && !s.marchBusy k && !s.flag (ACR_SPM_STATUS.SPM_FAIL k)

end Sys2Proof.Machine
end

