-- ==== Sys2Proof/Machine/Bank.lean ====
section
/-!
DEFINITION. The bank: its decay while the pumps are gated off, and the estimate at an instant (R49, R81).
-/
namespace Sys2Proof.Machine

/-- e^(−y) in units of 2⁻⁶⁴ for `y = n / 2⁶⁴` below 1, by its Taylor series. -/
def expNegTerms (y : Int) : Nat → Int → Int → Int
  | 0, _, acc => acc
  | k + 1, term, acc =>
    -- `k` counts down from 24; the term index is 24 − k
    let i : Int := 24 - (k : Int)
    let t := -(term * y) / (i * 2 ^ 64)
    expNegTerms y k t (acc + t)

/-- e^(−t / 4 ms) in units of 2⁻⁶⁴, for `t` in units of 1/128 tick (R49). -/
def decayFactor (t : Nat) : Nat :=
  -- 4.0 ms is 204,800,000 units; beyond 20 time constants nothing is left of 40,000 nJ
  if 20 * 204800000 < t then 0
  else
    let y : Int := (t * 2 ^ 64 / (32 * 204800000) : Nat)
    let e := (expNegTerms y 24 (2 ^ 64) (2 ^ 64)).toNat
    let sq (x : Nat) : Nat := x * x / 2 ^ 64
    sq (sq (sq (sq (sq e))))

/-- Decay of a bank over a time, rounded towards zero (R81). DESIGN CHOICE, log entry 14. -/
def decayBank (bank t : Nat) : Nat := if t = 0 then bank else bank * decayFactor t / 2 ^ 64

/-- The bank estimate in eighths of a nanojoule at the present instant: it refills at REFILL_MW while the pumps run, to at
most 40,000 nJ, and decays while they are gated off (R49). DESIGN CHOICE, log entry 2; DESIGN CHOICE, log entry 14. -/
def State.bankNow8 (s : State) : Nat :=
  let r := s.fld SRC_BANK_EST.REFILL_MW
  let d := s.time - s.src.bankAt
  if s.src.gate && r != 0 then min 320000 (s.src.bank8 + r / 50 * d) else decayBank s.src.bank8 (128 * d)

/-- Bring the stored estimate up to the present instant. DESIGN CHOICE, log entry 14. -/
def State.syncBank (s : State) : State := s.putSrc { s.src with bank8 := s.bankNow8, bankAt := s.time }

/-- Set the estimate. -/
def State.setBank (s : State) (b8 : Nat) : State := s.putSrc { s.src with bank8 := b8, bankAt := s.time }

/-- Open or close the pump gate. DESIGN CHOICE, log entry 14. -/
def State.setGate (s : State) (on : Bool) : State :=
  let s := s.syncBank
  s.putSrc { s.src with gate := on, gateAt := if on && !s.src.gate then s.time else s.src.gateAt }

/-- Set the refill rate that SRC_BANK_EST shows. DESIGN CHOICE, log entry 14. -/
def State.setRefill (s : State) (mw : Nat) : State := s.syncBank.setFld SRC_BANK_EST.REFILL_MW mw

end Sys2Proof.Machine
end

