-- ==== Sys2Proof/Machine/View.lean ====
section
/-!
DEFINITION. What a register reads: the stored word, or the view of typed state that a status register gives.
-/
namespace Sys2Proof.Machine

/-- Low words of the read-only 64-bit pairs of R11: first offset, stride and count. -/
def pairRows : List (Nat × Nat × Nat) :=
  [ (GLB_CAL_APPLY_ROUND_LO.reg, 8, 1), (TMB_TIME_LO.reg, 8, 1), (TMB_PPS_LAST_LO.reg, 8, 1), (TMB_GRID_LO.reg, 8, 1)
  , (LCH_ACTIVE_ROUND_LO.reg, 8, 1), (LCH_ROUND_NUM_LO.reg, 8, 1)
  , (BLT_TIN_FREQ_LO.reg 0, BLT_TIN_FREQ_LO.reg 1 - BLT_TIN_FREQ_LO.reg 0, 8)
  , (BLT_TIN_COUNT_LO.reg 0, BLT_TIN_COUNT_LO.reg 1 - BLT_TIN_COUNT_LO.reg 0, 8)
  , (BLT_TIN_LAST_LO.reg 0, BLT_TIN_LAST_LO.reg 1 - BLT_TIN_LAST_LO.reg 0, 8)
  , (BLT_PAIR_LAST_LO.reg 0, BLT_PAIR_LAST_LO.reg 1 - BLT_PAIR_LAST_LO.reg 0, 4)
  , (BLT_BELT_POS_LO.reg 0, BLT_BELT_POS_LO.reg 1 - BLT_BELT_POS_LO.reg 0, 8)
  , (ACR_BUSY_CYCLES_LO.reg 0, 0x100, 16), (ACR_STALL_CYCLES_LO.reg 0, 0x100, 16)
  , (DMC_ECC_CE_ADDR_LO.reg, 8, 1), (DMC_FREEZE_ADDR_LO.reg, 8, 1)
  , (CMP_IN_BYTES_LO.reg, 8, 1), (CMP_OUT_BYTES_LO.reg, 8, 1), (MLK_TKO_ROUND_LO.reg, 8, 1), (EVR_HEAD_LO.reg, 8, 1) ]

/-- Offset `off` is the register at `lo` of one of `n` units `stride` apart: the unit. -/
def unitOf (lo stride n off : Nat) : Option Nat :=
  if lo ≤ off ∧ (off - lo) % stride = 0 ∧ (off - lo) / stride < n then some ((off - lo) / stride) else none

/-- An offset is the low word of a pair of R11. -/
def isPairLo (off : Nat) : Bool :=
  pairRows.any (fun r => decide (r.1 ≤ off) && (off - r.1) % r.2.1 == 0 && decide ((off - r.1) / r.2.1 < r.2.2))

/-- An offset is the high word of a pair of R11. -/
def isPairHi (off : Nat) : Bool := decide (4 ≤ off) && isPairLo (off - 4)

/-- The register's instance belongs to a port the part does not have (R2). -/
def State.absent (s : State) (off : Nat) : Bool :=
  match rowOf off with
  | some r => r.perPort && decide (s.ports ≤ r.index off)
  | none => false

/-- Pump current in mA: the loop's setpoint while the regulator runs, 1.2 A at its limit (R51, R54, R55). DEDUCED, log entry
20. -/
def State.pumpCurrent (s : State) (off : Nat) : Nat :=
  let w := s.reg off
  if !s.src.gate || SRC_PUMP0_STATUS.OFF.get w != 0 then 0
  else if SRC_PUMP0_STATUS.LIMIT.get w != 0 then 1200 else s.src.setpoint

/-! Trigger units, outputs and sources. -/

/-- The code of a unit state (R208). -/
def UnitSt.code : UnitSt → Nat
  | .off => 0
  | .armed => 1
  | .primed => 2
  | .capturing => 3
  | .readout => 4
  | .stopped => 5

/-- Captures have failed: TRG_STATUS.CAP_FAILED (R223). -/
def State.capFailed (s : State) : Bool := s.flag TRG_STATUS.CAP_FAILED

/-- DRAM training failed or the controller is frozen (R275, R278). -/
def State.dramDead (s : State) : Bool := decide (6 ≤ s.fld DMC_STATUS.STATE)

/-- The Brillouin engine is disabled or FAILED (R173). DEDUCED, log entry 94. -/
def State.brlDown (s : State) : Bool := !s.flag BRL_CFG.EN || s.dramDead

/-- The unit's source cannot deliver (R204). -/
def State.srcInvalid (s : State) (u : Nat) : Bool :=
  let i := s.fld (TRGU_SRC.INDEX u)
  match s.fld (TRGU_SRC.KIND u) with
  | 1 => decide (s.ports ≤ i) || !s.flag (TRG_TS_CFG.EN i)
  | 2 => decide (s.ports ≤ i) || s.brlDown
  | 3 => decide (s.ports ≤ i) || !s.flag (PRT_LF_CFG.LF_EN i)
  | 5 => decide (4 ≤ i) || !s.flag (BLT_PAIR_CFG.EN i)
  | 6 => decide (8 ≤ i) || !s.flag (BLT_TIN_CFG.EN i)
  | _ => false

/-- TRGu_STATUS (R208, R211). -/
def State.unitStatus (s : State) (u : Nat) : Nat :=
  let x := s.unit u
  x.st.code * 2 ^ 29 + bitAt x.inhibited 28 + bitAt (x.st == .primed) 27 + bitAt (s.srcInvalid u) 26

/-- The scorekeeper asserts output `k` (R384). -/
def State.doutSaf (s : State) (k : Nat) : Bool :=
  s.flag (TRG_DOUT_CFG.SAF_EN k) && !s.pinDriven (if bitOf (s.fld SAF_CFG.DOUT_CHAN) k then 1 else 0)

/-- A unit drives output `k`, by its hold or its latch (R224). -/
def State.doutUnit (s : State) (k : Nat) : Bool :=
  (s.dout k).held || (s.flag (TRG_DOUT_CFG.LATCH k) && s.flag (TRG_DOUT_STATUS.LATCHED k))

/-- Output `k` is active (R224). -/
def State.doutActive (s : State) (k : Nat) : Bool :=
  s.flag (TRG_DOUT_CFG.EN k) && (s.doutUnit k || (s.dout k).cmd || s.doutSaf k)

/-- The transistor of output `k` is on (R225): off in BOOT and SAFE and while limited (R450). -/
def State.doutOn (s : State) (k : Nat) : Bool :=
  if s.ctl.dev = .boot || s.ctl.dev = .safe || (s.dout k).limited then false
  else s.doutActive k != s.flag (TRG_DOUT_CFG.POL k)

/-- TRG_DOUTk_STATUS. -/
def State.doutStatus (s : State) (k : Nat) : Nat :=
  bitAt (s.doutActive k) 31 + bitAt (s.doutUnit k) 30 + bitAt (s.doutSaf k) 29 + bitAt (s.dout k).cmd 28
    + bitAt (s.flag (TRG_DOUT_STATUS.LATCHED k)) 27

/-! The scorekeeper. -/

/-- Diagnostics with fixed N = 1 (R387). -/
def diagFixed (d : Nat) : Bool := [0x00, 0x0B, 0x0D, 0x0E, 0x0F, 0x10, 0x12, 0x13, 0x17, 0x19, 0x1A].contains d

/-- Reactions of the diagnostics 0x00–0x1A: 0 LOG, 1 PORT, 2 SAFE (R387). -/
def diagReaction (d : Nat) : Nat :=
  ([2, 0, 2, 2, 2, 2, 2, 0, 1, 1, 1, 1, 2, 2, 2, 2, 2, 2, 2, 0, 0, 0, 0, 0, 0, 2, 0][d]?).getD 0

/-- Port-class diagnostics (R387): counted separately for each port. DEDUCED, log entry 48. -/
def diagPortClass (d : Nat) : Bool := decide (0x08 ≤ d) && decide (d ≤ 0x0B)

/-- N and W of a diagnostic in force, W in milliseconds (R391). -/
def State.diagN (s : State) (d : Nat) : Nat := if diagFixed d then 1 else clampNat 1 8 (s.fld (SAF_DIAG_CFG.N d))
def State.diagW (s : State) (d : Nat) : Nat := if diagFixed d then 0 else clampNat 1 60000 (s.fld (SAF_DIAG_CFG.W_MS d))

/-- Events of a history that lie within W of the present. -/
def State.inWindow (s : State) (d p : Nat) : Nat :=
  ((s.diag d p).times.filter (fun t => decide (s.time - t ≤ s.diagW d * ticksPerMs))).length

/-- SAF_DIAGd_STATUS. -/
def State.diagStatus (s : State) (d : Nat) : Nat :=
  if 0x1B ≤ d then 0
  else
    let ports := (List.range 12).filter (fun p => (s.diag d p).lasting)
    let cls := diagPortClass d
    let n := if cls then (List.range 12).foldl (fun m p => max m (s.inWindow d p)) 0 else s.inWindow d 15
    bitAt (if cls then ports != [] else (s.diag d 15).lasting) 31 + min n 15 * 2 ^ 24 + diagReaction d * 2 ^ 20
      + (if cls then ports.foldl (fun m p => m + 2 ^ p) 0 else 0)

/-- Some diagnostic is lasting. -/
def State.anyLasting (s : State) : Bool := s.saf.diags.any (fun e => e.2.lasting)

/-- CRC_BAD: the computed CRC of the safety configuration differs from the expected one (R385). -/
def State.crcBad (s : State) : Bool := s.reg SAF_CFG_CRC_CALC.reg != s.reg SAF_CFG_CRC.reg

/-- SAF_STATUS. -/
def State.safStatus (s : State) : Nat :=
  bitAt (s.pinDriven 0) 31 + bitAt (s.pinDriven 1) 30 + bitAt (s.alarm 0) 29 + bitAt (s.alarm 1) 28
    + bitAt (s.chan 0).covered 27 + bitAt (s.chan 1).covered 26 + bitAt s.anyLasting 24
    + (s.reg SAF_STATUS.reg).toNat % 2 ^ 24 + bitAt s.crcBad 25

/-! Belts. -/

/-- Belt `k` is defined (R188). -/
def State.beltDefined (s : State) (k : Nat) : Bool :=
  let i := s.fld (BLT_BELT_CFG.ENC_IN k)
  s.flag (BLT_BELT_CFG.EN k) && s.flag (BLT_TIN_CFG.EN i) && s.fld (BLT_TIN_GATE.MODE i) != 3

/-- Entry `r` is enabled and ignored (R195). -/
def State.routeIgnored (s : State) (r : Nat) : Bool :=
  s.flag (BLT_ROUTE_A.EN r) && (!s.beltDefined (s.fld (BLT_ROUTE_A.BELT r)) || decide (s.ports ≤ s.fld (BLT_ROUTE_A.PORT r))
    || decide (s.fld (BLT_ROUTE_B.LAST_BIN r) < s.fld (BLT_ROUTE_B.FIRST_BIN r)))

/-- ROUTE_IGNORED. -/
def State.routeIgnoredCount (s : State) : Nat := ((List.range 256).filter s.routeIgnored).length

/-- The value of the BLT registers that mirror typed state (R181, R188, R195). -/
def State.viewBelt (s : State) (off : Nat) : Option Nat :=
  match unitOf (BLT_BELT_STATUS.reg 0) 0x40 8 off with
  | some k => some ((BLT_BELT_STATUS.DEFINED k).put (s.reg off) (if s.beltDefined k then 1 else 0)).toNat
  | none =>
    match unitOf (BLT_PAIR_STATUS.reg 0) 0x20 4 off with
    | some p =>
      some ((BLT_PAIR_STATUS.SAME_INPUT p).put (s.reg off)
        (if s.fld (BLT_PAIR_CFG.START_IN p) = s.fld (BLT_PAIR_CFG.STOP_IN p) then 1 else 0)).toNat
    | none =>
      if off = BLT_STATUS.reg then some (BLT_STATUS.ROUTE_IGNORED.put (s.reg off) s.routeIgnoredCount).toNat else none

/-! Cores. -/

/-- The code of a core state (R247). -/
def CoreSt.code : CoreSt → Nat
  | .stopped => 0
  | .running => 1
  | .waiting => 2
  | .faulted => 3

/-- ACRk_STATUS. -/
def State.coreStatus (s : State) (k : Nat) : Nat :=
  let c := s.core k
  c.st.code * 2 ^ 29 + c.wait * 2 ^ 26 + bitAt (s.flag (ACR_STATUS.FEED_BAD k)) 25 + c.stack.length * 2 ^ 20
    + c.stopCause * 2 ^ 16 + c.pc.toNat

/-- A special register read without side effect (R229). -/
def State.special (s : State) (k n : Nat) : Word :=
  let c := s.core k
  if h : n < 8 then (c.pb[n]).setWidth 32
  else if n < 16 then ((c.pl[n % 8]'(Nat.mod_lt _ (by decide)))).setWidth 32
  else if n < 20 then Word.of (c.lc (n - 16))
  else match n with
    | 0x14 => c.shf.setWidth 32
    | 0x15 => c.flags.setWidth 32
    | 0x16 => Word.of c.stack.length
    | 0x17 => Word.of k
    | 0x18 => Word.of c.ready.length
    | 0x19 => Word.of c.outQ.length
    | 0x1A => Word.of c.dmaQ.length
    | 0x1B => c.cycles.setWidth 32
    | 0x1C => c.cycleHi
    | 0x1D => Word.of s.time
    | 0x1E => c.timeHi
    | _ => 0

/-- ACRk_DIAG_DATA: the register ACRk_DIAG_SEL names, while the core is stopped or faulted. -/
def State.coreDiag (s : State) (k : Nat) : Word :=
  let c := s.core k
  let i := s.fld (ACR_DIAG_SEL.SEL k)
  if !c.idle then 0
  else if h : i < 16 then c.x[i]
  else if i < 24 then ((c.p[i % 8]'(Nat.mod_lt _ (by decide)))).setWidth 32
  else if i < 28 then ((c.acc[i % 4]'(Nat.mod_lt _ (by decide)))).setWidth 32
  else if i < 32 then (((c.acc[i % 4]'(Nat.mod_lt _ (by decide))).extractLsb' 32 16)).signExtend 32
  else s.special k (i - 32)

/-- ACR_SUMMARY. -/
def State.coreSummary (s : State) : Nat :=
  (List.range 16).foldl (fun m k =>
    m + bitAt ((s.core k).st == .faulted) (16 + k) + bitAt ((s.core k).st == .running || (s.core k).st == .waiting) k) 0

/-! The read. -/

/-- PRTn_INTEG_STATUS.CLEAR (R134). -/
def State.intClear (s : State) (n : Nat) : Bool := s.flag (PRT_INTEG_STATUS.CLEAR n) || !s.flag (PRT_INTEG_CFG.EN n)

/-- Slot of port `n` in the Brillouin region, and the entry of cell `c` in its own or its partner's reference table (R160). -/
def State.brlSlot (s : State) (n : Nat) : Nat := s.fld BRL_REGION.BASE_MIB * 2 ^ 20 + 0x01500000 * n
def State.refAddr (s : State) (partner : Bool) (n c : Nat) : Nat :=
  s.brlSlot n + (if partner then 0x01420000 else 0x01400000) + 4 * c

/-- A reference entry as DRAM holds it. -/
def State.refEntry (s : State) (partner : Bool) (n c : Nat) : Word := Word.of (Memory.readLE 0 s.dram (s.refAddr partner n c) 4)

/-- The value of the GLB, TMB, SRC, LCH and PRT registers that mirror typed state. DESIGN CHOICE, log entry 8. -/
def State.viewLow (s : State) (off : Nat) : Option Nat :=
  if off = GLB_DEVICE_ID.reg then
    some s.part.idWord
  else if off = GLB_STATE.reg then some s.glbState
  else if off = TMB_TIME_LO.reg then some s.time
  else if off = TMB_TIME_HI.reg then some (s.time / 2 ^ 32)
  else if off = TMB_SEC_COUNT.reg then some ((s.time - s.reg64 TMB_GRID_LO.reg) / ticksPerS)
  else if off = LCH_ROUND_NUM_LO.reg then some s.ctl.round
  else if off = LCH_ROUND_NUM_HI.reg then some (s.ctl.round / 2 ^ 32 % 2 ^ 16)
  else if off = SRC_BANK_EST.reg then some (s.fld SRC_BANK_EST.REFILL_MW * 2 ^ SRC_BANK_EST.REFILL_MW.lo + s.bankNow8 / 8)
  else if off = SRC_PUMP0_STATUS.reg || off = SRC_PUMP1_STATUS.reg then
    some (SRC_PUMP0_STATUS.CURRENT.put (s.reg off) (s.pumpCurrent off)).toNat
  else if off = BRL_REF_DATA.reg then some (s.refEntry false (s.fld BRL_REF_ADDR.PORT) (s.fld BRL_REF_ADDR.CELL)).toNat
  else match unitOf (PRT_INTEG_STATUS.reg 0) 0x4000 12 off with
    | some n =>
      -- CLEAR reads 1 whenever EN = 0 (R134)
      some ((PRT_INTEG_STATUS.CLEAR n).put (s.reg off) (if s.intClear n then 1 else 0)).toNat
    | none => none

/-- The value of the TRG and ACR registers that mirror typed state. DESIGN CHOICE, log entry 8. -/
def State.viewMid (s : State) (off : Nat) : Option Nat :=
  if TRGU_STATUS.reg 0 ≤ off ∧ off < TRGU_STATUS.reg 0 + 0x400 ∧ (off - TRGU_STATUS.reg 0) % 0x40 = 0 then
    some (s.unitStatus ((off - TRGU_STATUS.reg 0) / 0x40))
  else if TRG_DOUT_STATUS.reg 0 ≤ off ∧ off < TRG_DOUT_STATUS.reg 0 + 0x40 ∧ (off - TRG_DOUT_STATUS.reg 0) % 0x10 = 0 then
    some (s.doutStatus ((off - TRG_DOUT_STATUS.reg 0) / 0x10))
  else if off = ACR_SUMMARY.reg then some s.coreSummary
  else if ACR_STATUS.reg 0 ≤ off ∧ off < ACR_STATUS.reg 0 + 0x1000 ∧ (off - ACR_STATUS.reg 0) % 0x100 = 0 then
    some (s.coreStatus ((off - ACR_STATUS.reg 0) / 0x100))
  else if ACR_DIAG_DATA.reg 0 ≤ off ∧ off < ACR_DIAG_DATA.reg 0 + 0x1000 ∧ (off - ACR_DIAG_DATA.reg 0) % 0x100 = 0 then
    some (s.coreDiag ((off - ACR_DIAG_DATA.reg 0) / 0x100)).toNat
  else none

/-- The value of the HIF, SAF and EVR registers that mirror typed state. DESIGN CHOICE, log entry 8. -/
def State.viewHigh (s : State) (off : Nat) : Option Nat :=
  if off = HIF_CMD_STATUS.reg then
    some (bitAt (decide (256 ≤ s.hif.cmds.length)) 31 + min s.hif.cmds.length 256 * 2 ^ 16
      + s.fld HIF_CMD_STATUS.LAST_INDEX)
  else if off = SAF_STATUS.reg then some s.safStatus
  else if SAF_DIAG_STATUS.reg 0 ≤ off ∧ off < SAF_DIAG_STATUS.reg 0 + 0x200 ∧ (off - SAF_DIAG_STATUS.reg 0) % 0x10 = 0 then
    some (s.diagStatus ((off - SAF_DIAG_STATUS.reg 0) / 0x10))
  else if off = EVR_STATUS.reg then
    some (bitAt (s.flag EVR_STATUS.BUSY) 31 + bitAt (s.flag EVR_STATUS.FAIL) 30 + s.evr.queue.length * 2 ^ 16)
  else if off = EVR_HEAD_LO.reg then some s.evr.head
  else if off = EVR_HEAD_HI.reg then some (s.evr.head / 2 ^ 32)
  else if off = EVR_OP_SECONDS.reg then some s.opSeconds
  else if off = EVR_POWER_CYCLES.reg then some s.evr.cycles
  else if off = EVR_LIST_SEQ.reg then some s.evr.listSeq
  else none

/-- The live value of the word at a BAR0 offset below the recorder window: 0 for an offset that holds no register (R10) and
for an instance of a port the part does not have (R2). DESIGN CHOICE, log entry 8. -/
def State.readReg (s : State) (off : Nat) : Word :=
  if s.absent off then 0
  else
    match (if off < 0xD0000 then s.viewLow off else if off < 0xE0000 then s.viewBelt off else if off < 0x190000 then s.viewMid off else s.viewHigh off) with
    | some v => Word.of v
    | none => s.reg off

end Sys2Proof.Machine
end

