-- ==== Sys2Proof/Machine/Evr.lean ====
section
/-!
DEFINITION. The event recorder: records, the snapshot, the queue and the slots (R400–R408).
-/
namespace Sys2Proof.Machine

/-- Causes of records (R401). -/
def recTransient : Nat := 1
def recLasting : Nat := 2
def recAlarm : Nat := 3
def recDegraded : Nat := 4
def recSafeEntry : Nat := 5
def recPwrWarn : Nat := 6
def recReset : Nat := 7
def recHostMark : Nat := 8
def recSnapList : Nat := 9

/-- Records of a cause are written (R401): its kind is enabled in EVR_CFG. -/
def State.recEnabled (s : State) (cause : Nat) : Bool :=
  if cause = recSnapList then true
  else if cause = recHostMark then s.flag EVR_CFG.HOST
  else if cause = recReset then s.flag EVR_CFG.RESET
  else if cause = recPwrWarn then s.flag EVR_CFG.SUPPLY
  else s.flag EVR_CFG.SAFETY

/-- The snapshot list: EVR_SNAP entries up to the first of 0xFFFF_FFFF (R403). -/
def State.snapList (s : State) : List Nat :=
  ((List.range 48).map (fun i => (s.reg (EVR_SNAP.reg i)).toNat)).takeWhile (fun o => o != 0xFFFFFFFF)

/-- The word of the recorder window at a BAR0 offset from 0x0020_0000 (R408). -/
def State.evrWindow (s : State) (off : Nat) : Word := Word.of (Memory.readLE 0 s.evr.mem (off - 0x200000) 4)

/-- Word `i` of the partner image: entries of an offset and a value; an unused entry carries offset 0xFFFF_FFFF (R367).
UNVERIFIED, log entry 18. -/
def State.imageWord (s : State) (i : Nat) : Word :=
  match s.mlk.pimg[i / 2]? with
  | some (o, v) => if i % 2 = 0 then Word.of o else v
  | none => if i % 2 = 0 then 0xFFFFFFFF else Config.unusedImage (i / 2)

/-- The live value of the word at a BAR0 offset below the scratchpads: a word of program memory, which reads while its core is stopped
or faulted (R227), the MSI-X table and pending-bit array (R314), the partner's baselines and image (R367), the recorder window
(R400), and the registers. DEDUCED, log entry 9. -/
def State.barLive (s : State) (off : Nat) : Word :=
  if off % 4 ≠ 0 then 0
  else if 0x160000 ≤ off ∧ off < 0x180000 then
    let c := s.core ((off - 0x160000) / 0x2000)
    if c.idle then SMap.get (fun _ => 0) c.pmem ((off - 0x160000) % 0x2000 / 4) else 0
  else if 0x192000 ≤ off ∧ off < 0x192200 then SMap.get msixDefault s.hif.msix ((off - 0x192000) / 4)
  else if off = 0x193000 then s.hif.pba
  else if 0x1D2000 ≤ off ∧ off < 0x1D8000 then Word.of (Memory.readLE 0 s.mlk.pbase (off - 0x1D2000) 4)
  else if 0x1D8000 ≤ off ∧ off < 0x1E0000 then s.imageWord ((off - 0x1D8000) / 4)
  else if 0x200000 ≤ off ∧ off < 0x280000 then s.evrWindow off
  else s.readReg off

/-- One snapshot value: the live word, 0 for an offset out of range; a high word that does not follow its low word
reads the pair's latch, and the latch is not disturbed (R403, R11). -/
def State.snapValue (s : State) (prev : Option Nat) (off : Nat) : Nat :=
  if off % 4 != 0 || decide (0x200000 ≤ off) then 0
  else if isPairHi off && prev != some (off - 4) then (SMap.get (fun _ => 0) s.latches (off - 4)).toNat
  else (s.barLive off).toNat

/-- The values of the snapshot, in list order. DEDUCED, log entry 96. -/
def State.snapValues (s : State) (prev : Option Nat) : List Nat → List Nat
  | [] => []
  | o :: os => s.snapValue prev o :: s.snapValues (some o) os

/-- A record of the present instant (R402). DEDUCED, log entry 96. -/
def State.makeRec (s : State) (cause detail suppressed : Nat) : EvrRec :=
  let values := if cause = recSnapList then s.snapList else s.snapValues none s.snapList
  { cause := cause, detail := detail, time := s.time, round := if s.isRunning then s.ctl.round else 0,
    dev := s.ctl.dev.code, opSeconds := s.opSeconds, listSeq := s.evr.listSeq, suppressed := suppressed,
    snapCount := values.length, values := values }

/-- Records that enter at the head of the queue (R404). -/
def recAtHead (cause : Nat) : Bool := cause == recPwrWarn || cause == recSafeEntry || cause == recSnapList

/-- Remove the newest TRANSIENT record of a queue, given newest first. -/
def dropTransient : List EvrRec → Option (List EvrRec)
  | [] => none
  | r :: rs => if r.cause = recTransient then some rs else (dropTransient rs).map (r :: ·)

/-- Add to the record queue of 16 (R404). -/
def State.enqueueRec (s : State) (r : EvrRec) : State :=
  let put (q : List EvrRec) : State :=
    s.putEvr { s.evr with queue := if recAtHead r.cause then r :: q else q ++ [r] }
  if s.evr.queue.length < 16 then put s.evr.queue
  else match dropTransient s.evr.queue.reverse with
    | some q => put q.reverse
    | none => s.bump EVR_LOST_COUNT.reg

/-- Queue a record of a cause whose kind is enabled. -/
def State.record (s : State) (cause detail : Nat) (suppressed : Nat := 0) : State :=
  if s.recEnabled cause then s.enqueueRec (s.makeRec cause detail suppressed) else s

/-- Bytes of a record except its CRC: bytes 0–59 and 64–255 (R402). -/
def recHead (r : EvrRec) (seq cycles : Nat) : List Byte :=
  leBytes 8 seq ++ leBytes 4 r.opSeconds ++ leBytes 4 cycles ++ leBytes 8 r.time ++ leBytes 8 r.round
    ++ leBytes 2 r.cause ++ leBytes 1 r.dev ++ leBytes 1 r.snapCount ++ leBytes 4 r.detail ++ leBytes 4 r.listSeq
    ++ leBytes 4 r.suppressed ++ zeroBytes 12

/-- VALUES: 48 words. -/
def recValues (r : EvrRec) : List Byte :=
  ((List.range 48).map (fun i => (r.values[i]?).getD 0)).flatMap (leBytes 4)

/-- The 256 bytes of a record. -/
def recBytes (r : EvrRec) (seq cycles : Nat) : List Byte :=
  let h := recHead r seq cycles
  let v := recValues r
  h ++ leBytes 4 (crc32c (h ++ v)).toNat ++ v

/-- Bytes of a recorder slot: 2,048 slots of 256 bytes (R400). -/
def Evr.slotBytes (e : Evr) (slot : Nat) : List Byte := Memory.bytes 0 e.mem (slot * 256) 256

/-- SEQ of a slot. -/
def Evr.slotSeq (e : Evr) (slot : Nat) : Nat := Memory.readLE 0 e.mem (slot * 256) 8

/-- A slot holds a record: its SEQ is not 0 and its CRC is valid (R402, R407). -/
def Evr.slotValid (e : Evr) (slot : Nat) : Bool :=
  e.slotSeq slot != 0 &&
    (let b := e.slotBytes slot
     leVal ((b.drop 60).take 4) == (crc32c (b.take 60 ++ b.drop 64)).toNat)

/-- The highest SEQ of the valid slots (R407). DEDUCED, log entry 96. -/
def Evr.scan (e : Evr) : Nat :=
  (List.range 2048).foldl (fun m i => if m < e.slotSeq i && e.slotValid i then e.slotSeq i else m) 0

/-- EVR_RECORD_WRITE (R404): the record at the head of the queue is written and verified. `fail` is `none` when the read-back
verifies, else bytes 8–255 of the slot as the memory holds them. A failed verification reports EVR_WRITE; the report itself is
made by the caller, which is given whether the write failed. DEDUCED, log entry 96. -/
def State.writeRecord (s : State) (fail : Option (List Byte)) : State × Bool :=
  match s.evr.queue with
  | [] => (s, false)
  | r :: q =>
    let e := s.evr
    let seq := e.nextSeq
    let base := seq % 2048 * 256
    let e := { e with queue := q, nextSeq := seq + 1, opStored := max e.opStored r.opSeconds }
    match fail with
    | none =>
      let mem := Memory.setBytes 0 e.mem base (recBytes r seq e.cycles)
      let s := s.putEvr { e with mem := mem, head := seq }
      ((s.bump EVR_WRITE_COUNT.reg).raiseEvent 62 (seq % 2 ^ 32), false)
    | some bs =>
      let mem := Memory.setBytes 0 (Memory.setBytes 0 e.mem base (zeroBytes 8)) (base + 8) (bs.take 248)
      ((s.putEvr { e with mem := mem }).setFlag EVR_STATUS.FAIL true, true)

/-- At START: a snapshot list that differs from the one in force raises LIST_SEQ and queues a SNAP_LIST record (R403). -/
def State.snapAtStart (s : State) : State :=
  let crc := (crc32c (s.snapList.flatMap (leBytes 4))).toNat
  if crc = s.evr.listCrc then s
  else
    let s := s.putEvr { s.evr with listSeq := s.evr.listSeq + 1, listCrc := crc }
    s.record recSnapList s.snapList.length

end Sys2Proof.Machine
end

