-- ==== Sys2Proof/Machine/Fuvon.lean ====
section
/-!
DEFINITION. Frames of the Fuvon link: their layout, scrambling, stuffing and commas, the lanes they take, and which of them a
device takes in (R359, R361, R362).
-/
namespace Sys2Proof.Machine

/-! Frames (R359, R362). -/

/-- The type of a frame. -/
def LinkMsg.code : LinkMsg → Nat
  | .heartbeat _ => 1
  | .identity .. => 2
  | .fault .. => 3
  | .mirror .. => 4

/-- The bytes of a message: of an identity and of a fault message the layout is left open. DEDUCED, log entry 129. -/
def LinkMsg.bytes : LinkMsg → List Byte
  | .heartbeat bs => bs
  | .identity part stepping chan roleB loops acked =>
    Config.linkBytes 2 (part :: stepping :: chan :: roleB.toNat :: acked.toNat :: loops.flatMap (fun l => [l.1, l.2.1, l.2.2]))
  | .fault safe cause port => Config.linkBytes 3 [safe.toNat, cause, port]
  | .mirror dest data => leBytes 4 dest ++ leBytes 2 data.length ++ data

/-- The 120 bytes of payload. -/
def LinkMsg.payload (m : LinkMsg) : List Byte := (m.bytes ++ zeroBytes 120).take 120

/-- The 128 bytes of a frame: header, payload, and CRC-32C over both. The words go most significant byte first. DEDUCED, log entry
129. -/
def frameBytes (type seq : Nat) (payload : List Byte) : List Byte :=
  let body := (leBytes 4 (type * 2 ^ 28 + seq % 2 ^ 24)).reverse ++ payload
  body ++ (leBytes 4 (crc32c body).toNat).reverse

/-- Bits, the most significant of each byte first. -/
def bitsMsb (bs : List Byte) : List Bool := bs.flatMap (fun b => (List.range 8).map (fun i => b.getLsbD (7 - i)))

/-- Bytes of a stream of bits, the most significant first. -/
def bytesMsb : List Bool → List Byte
  | a :: b :: c :: d :: e :: f :: g :: h :: t =>
    BitVec.ofNat 8 ([a, b, c, d, e, f, g, h].foldl (fun n x => 2 * n + x.toNat) 0) :: bytesMsb t
  | _ => []

/-! Line coding (R359). `st` is the scrambler's or descrambler's state: the latest 58 bits of the scrambled stream, latest first. -/

/-- The next bit of the scrambler with polynomial x⁵⁸ + x³⁹ + 1. -/
def scrambleBit (st : List Bool) (b : Bool) : Bool := b ^^ st.getD 38 false ^^ st.getD 57 false

/-- The scrambled stream, and the state it leaves. -/
def scramble : List Bool → List Bool → List Bool × List Bool
  | st, [] => ([], st)
  | st, b :: bs =>
    let x := scrambleBit st b
    let r := scramble ((x :: st).take 58) bs
    (x :: r.1, r.2)

/-- The stream before the scrambler. -/
def descramble : List Bool → List Bool → List Bool
  | _, [] => []
  | st, x :: xs => scrambleBit st x :: descramble ((x :: st).take 58) xs

/-- After 24 identical bits one inverted bit goes in; `n` bits like `p` have gone out, the inserted ones counted. DEDUCED, log entry
129. -/
def stuff : Nat → Bool → List Bool → List Bool
  | _, _, [] => []
  | n, p, b :: bs =>
    let n := if b = p then n + 1 else 1
    if n = 24 then b :: (!b) :: stuff 1 (!b) bs else b :: stuff n b bs

/-- The stream before stuffing; none at a stuff error, a 25th identical bit. -/
def destuff : Nat → Bool → List Bool → Option (List Bool)
  | _, _, [] => some []
  | n, p, b :: bs =>
    if n = 24 then (if b = p then none else destuff 1 b bs)
    else (destuff (if b = p then n + 1 else 1) b bs).map (fun r => b :: r)

/-- The comma, 0xFFFF_FFF0. -/
def comma : List Bool := List.replicate 28 true ++ List.replicate 4 false

/-- A frame as it goes out on a lane, with the scrambler's state after it. -/
def lineBits (st : List Bool) (frame : List Byte) : List Bool × List Bool :=
  let r := scramble st (bitsMsb frame)
  (comma ++ stuff 0 false r.1, r.2)

/-- What the bits between two commas are to the receiver: a stuff error, a CRC failure, or a frame. -/
inductive LineFrame where
  | stuffError
  | crcError
  | frame (bytes : List Byte)
  deriving DecidableEq, Repr

/-- The check of a received frame; `st` is the descrambler's state at its comma. -/
def lineCheck (st bits : List Bool) : LineFrame :=
  match destuff 0 false bits with
  | none => .stuffError
  | some scrambled =>
    let bytes := bytesMsb (descramble st scrambled)
    let body := bytes.take 124
    if scrambled.length = 1024 ∧ bytes.drop 124 = (leBytes 4 (crc32c body).toNat).reverse then .frame bytes else .crcError

/-! Sending (R362). -/

/-- The Fuvon link is UP (R361). -/
def State.linkUp (s : State) : Bool := s.fld MLK_LINK_STATUS.STATE == 4

/-- The aligned lanes. -/
def State.lanesUp (s : State) : List Nat := bitsOf 4 (s.fld MLK_LINK_STATUS.LANES_UP)

/-- Send a frame `n` times in succession on a lane. -/
def State.sendCopies (s : State) (lane seq : Nat) (m : LinkMsg) : Nat → List Bool → State
  | 0, _ => s
  | n + 1, st =>
    let r := lineBits st (frameBytes m.code seq m.payload)
    (s.emit (.link lane seq m r.1)).sendCopies lane seq m n r.2

/-- Send a frame `n` times on a lane: the frames before it, idle ones among them, leave the scrambler in a state that the model does
not follow. UNVERIFIED, log entry 129. -/
def State.sendOn (s : State) (seq : Nat) (m : LinkMsg) (n lane : Nat) : State :=
  s.drawFree.sendCopies lane seq m n ((List.range 58).map (bitOf s.freeVal))

/-- Send a frame `n` times on every aligned lane, with the next number of its type. DEDUCED, log entry 129. -/
def State.sendAll (s : State) (m : LinkMsg) (n : Nat) : State :=
  let q := SMap.get (fun _ => 0) s.mlk.txSeq m.code
  let s := s.putMlk { s.mlk with txSeq := SMap.put (fun _ => 0) s.mlk.txSeq m.code (q + 1) }
  s.lanesUp.foldl (fun s l => s.sendOn (q % 2 ^ 24) m n l) s

/-- Send a frame on one of the aligned lanes: which is left open. UNVERIFIED, log entry 129. -/
def State.sendOne (s : State) (seq : Nat) (m : LinkMsg) : State :=
  let ls := s.lanesUp
  s.drawFree.sendOn seq m 1 (ls.getD (s.freeVal % ls.length) 0)

/-- Send a fault message while the link is UP: three successive frames on every aligned lane (R362, R368). -/
def State.sendFault (s : State) (safe : Bool) (cause port : Nat) : State :=
  if s.linkUp then (s.bump MLK_FAULT_TX_COUNT.reg).sendAll (.fault safe cause port) 3 else s

/-- Send the device's identity on every aligned lane: part, stepping, channel, role and loop table, and whether the partner's has
come (R361, R362). -/
def State.sendIdentity (s : State) : State :=
  let loops := ((List.range s.ports).filter (fun n => s.flag (MLK_LOOP_CFG.EN n))).map
    (fun n => (n, s.fld (MLK_LOOP_CFG.PARTNER_PORT n), s.fld (MLK_LOOP_CFG.LOOP_BINS n)))
  s.sendAll (.identity (s.part.idWord / 2 ^ 16) (s.part.idWord % 16) (s.fld SRC_LASER_CFG.CH)
    (s.flag MLK_CFG.ROLE) loops s.mlk.ident.isSome) 1

/-! Lanes and receiving (R361, R362). -/

/-- A lane's state beside its registers. -/
def State.lane (s : State) (l : Nat) : LaneSt := SMap.get (fun _ => {}) s.mlk.lanes l

/-- Replace a lane's state. -/
def State.setLane (s : State) (l : Nat) (x : LaneSt) : State :=
  s.putMlk { s.mlk with lanes := SMap.put (fun _ => {}) s.mlk.lanes l x }

/-- A frame comes in on a lane: taken where the lane is aligned, but the first after its alignment. -/
def State.laneTakes (s : State) (l : Nat) : State × Bool :=
  if !bitOf (s.fld MLK_LINK_STATUS.LANES_UP) l then (s, false)
  else if (s.lane l).fresh then (s.setLane l { s.lane l with fresh := false }, false)
  else (s, true)

/-- A frame of a type and number comes in on a lane; a copy of the latest of its type counts no more. DEDUCED, log entry 129. -/
def State.receive (s : State) (type l seq : Nat) : State × Bool :=
  match s.laneTakes l with
  | (s, false) => (s, false)
  | (s, true) =>
    if SMap.get (fun _ => none) s.mlk.rxSeq type = some seq then (s, false)
    else (s.putMlk { s.mlk with rxSeq := SMap.put (fun _ => none) s.mlk.rxSeq type (some seq) }, true)

/-- The lane has 16 CRC or stuff errors within 1,024 consecutive frames. -/
def LaneSt.bad (x : LaneSt) : Bool :=
  match x.errs.head?, x.errs[15]? with
  | some last, some first => decide (last < first + 1024)
  | _, _ => false

/-- A frame in error, by its number on the lane. -/
def State.laneError (s : State) (l frame : Nat) : State :=
  s.setLane l { s.lane l with errs := (frame :: (s.lane l).errs).take 16 }

/-! Equalisation (R360). -/

/-- De-emphasis in tenths of a dB, and peaking in dB, of a lane's codes. -/
def txEq (c : Nat) : Nat := 15 * min c 7
def rxEq (c : Nat) : Nat := c

/-- The codes of MLK_EQ_TX and MLK_EQ_RX come into effect on the four lanes and the clock lane, which is the last. -/
def State.latchEq (s : State) : State :=
  let code (r i : Nat) : Nat := (s.reg r).toNat / 16 ^ i % 16
  s.putMlk { s.mlk with eq := (List.range 5).map (fun i => (txEq (code MLK_EQ_TX.reg i), rxEq (code MLK_EQ_RX.reg i))) }

/-- The link leaves OFF with EN = 1 outside BOOT (R360, R361). -/
def State.linkWake (s : State) : State :=
  if s.flag MLK_CFG.EN && s.fld MLK_LINK_STATUS.STATE == 0 then (s.latchEq).setFld MLK_LINK_STATUS.STATE 1 else s

end Sys2Proof.Machine
end

