-- ==== Sys2Proof/Machine/SafetyFn.lean ====
section
/-!
DEFINITION. The scorekeeper: alarms, coverage, pins, diagnostics, reactions and the entry to SAFE (R379–R394).
-/
namespace Sys2Proof.Machine

/-! Alarms and coverage (R380). -/

/-- The ports a channel names, among those of the part. -/
def State.chanPorts (s : State) (c : Nat) : List Nat := bitsOf s.ports (s.fld (SAF_CHAN_CFG.PORT_MASK c))

/-- The units a channel names. -/
def State.chanUnits (s : State) (c : Nat) : List Nat := bitsOf 16 (s.fld (SAF_CHAN_CFG.UNIT_MASK c))

/-- A break is declared on a port (R133). -/
def State.breakOn (s : State) (n : Nat) : Bool := s.flag (PRT_INTEG_STATUS.DECLARED n)

/-- The lowest named port whose declared break is an alarm cause of the channel. -/
def State.chanBreak (s : State) (c : Nat) : Option Nat :=
  if s.flag (SAF_CHAN_CFG.BREAK_ALARM c) then (s.chanPorts c).find? s.breakOn else none

/-- An alarm cause of channel `c`: kind 0x01 unit, 0x02 break, 0x03 shadow. The first cause while no alarm is in force
raises EV52 and writes an ALARM record; the alarm is latched, and its hold runs again (R380, R401). -/
def State.alarmCause (s : State) (c kind id : Nat) : State :=
  let detail := c + kind * 256 + id * 2 ^ 16
  let s := if s.alarm c then s else (s.raiseEvent 52 detail).record recAlarm detail
  if s.flag (SAF_CHAN_CFG.LATCH c) then s.setChan c { s.chan c with latched := true }
  else s.setChan c { s.chan c with holding := true }

/-- An alarm cause on every channel that names a unit: R380 asks for no EN, which releases the pin (R381). -/
def State.alarmUnit (s : State) (kind u : Nat) : State :=
  [0, 1].foldl (fun s c => if (s.chanUnits c).contains u then s.alarmCause c kind u else s) s

/-- Follow a change of the break that is a cause: its start is a cause, and with LATCH = 0 the hold runs from its end.
DEDUCED, log entry 49. -/
def State.breakEdge (s : State) (c : Nat) : State :=
  let now := s.chanBreak c
  let was := (s.chan c).brk
  let s :=
    match now, was with
    | some n, none => s.alarmCause c 2 n
    | none, some _ => if s.flag (SAF_CHAN_CFG.LATCH c) then s else s.setChan c { s.chan c with holding := true }
    | _, _ => s
  s.setChan c { s.chan c with brk := now }

/-- A port is lost (R393). -/
def State.portLost (s : State) (n : Nat) : Bool := bitOf (s.fld SAF_STATUS.PORT_LOST) n

/-- The condition of R380 for one unit. -/
def State.unitCovered (s : State) (u : Nat) : Bool :=
  let x := s.unit u
  s.flag (TRGU_CFG.EN u) && (x.st == .armed || x.st == .primed) && !s.srcInvalid u && (x.evaluated || x.inhibited)

/-- Why a channel is not covered, in the order of R380: a reason of R406 with the port or unit; `none` when covered. A
device that does not run gives reason 0. -/
def State.uncovered (s : State) (c : Nat) : Option (Nat × Nat) :=
  if !s.isRunning then some (0, 0)
  else if s.crcBad then some (4, 0)
  else if !s.flag SRC_LASER_STATUS.LOCKED then some (3, 0)
  else
    match (s.chanPorts c).find? (fun n =>
        s.portLost n || (!s.flag (SAF_CHAN_CFG.BREAK_ALARM c) && s.breakOn n)) with
    | some n => some (1, n)
    | none =>
      match (s.chanUnits c).find? (fun u => !s.unitCovered u) with
      | some u => some (2, u)
      | none =>
        if s.flag MLK_CFG.PAIR_EN && !s.flag MLK_PAIR_STATUS.ARMED && !s.flag MLK_PAIR_STATUS.TKO_ACTIVE then some (5, 0)
        else none

/-- EV53 and a DEGRADED record (R401, R406). -/
def State.degradedRecord (s : State) (c reason id : Nat) : State :=
  let detail := c + reason * 256 + id * 2 ^ 16
  (s.raiseEvent 53 detail).record recDegraded detail

/-- Follow a change of coverage. DEDUCED, log entry 49. -/
def State.coverEdge (s : State) (c : Nat) : State :=
  let why := s.uncovered c
  let s :=
    match why with
    | some (r, id) => if (s.chan c).covered && r != 0 then s.degradedRecord c r id else s
    | none => s
  s.setChan c { s.chan c with covered := why.isNone }

/-! Pins (R381–R384). -/

/-- The pin of channel `c` is to be released (R379, R381, R383): also while the drive stage gets no toggle. DEDUCED, log entry 50. -/
def State.pinRelease (s : State) (c : Nat) : Bool :=
  if !s.saf.toggle || !s.isRunning || !s.flag (SAF_CHAN_CFG.EN c) || (s.chan c).testing then true
  else
    let cov := (s.chan c).covered
    match s.fld (SAF_CHAN_HOLD.MODE c) with
    | 1 => s.alarm c
    | 2 => !cov && !(s.alarm 0 || s.alarm 1)
    | _ => s.alarm c || !cov

/-- Release a pin whose release is due; a pin returns to driven only at a later PIN_REDRIVE (R382). DEDUCED, log entry 49. -/
def State.releasePin (s : State) (c : Nat) : State :=
  if s.pinRelease c then s.setChan c { s.chan c with pin := false } else s

/-- Re-evaluate alarms by breaks, coverage and pins after a change of anything R380 names. DEDUCED, log entry 49. -/
def State.settle (s : State) : State :=
  let s := (s.breakEdge 0).breakEdge 1
  let s := (s.coverEdge 0).coverEdge 1
  (s.releasePin 0).releasePin 1

/-! Entry to SAFE (R394, R303, R248, R440). -/

/-- The scheduler and the auxiliary sequencer stop: nothing further is launched or passed (R345). -/
def State.haltSched (s : State) : State :=
  let s := s.setFlag AUX_STATUS.BUSY false
  (s.putSched { s.sched with
    started := false, nextEntry := 0, sliding := none, diag := none, tap := [], flight := [], brl := [], starting := false }).putAux
    { s.aux with samples := [] }

/-- The device enters SAFE with a code for SAF_SAFE_CAUSE. DEDUCED, log entry 107. -/
def State.enterSafe (s : State) (code : Nat) : State :=
  if s.ctl.dev = .safe then s
  else
    let s := ((s.setDev .safe).linkWake).setFlag GLB_BOOT_STATUS.RESUMING false
    let s := s.putCtl { s.ctl with stopPending := false }
    let s := s.setNat SAF_SAFE_CAUSE.reg (2 ^ 31 + code)
    let s := (s.setGate false).setBank 0
    let s := s.haltSched
    let s := (List.range 16).foldl (fun s u => s.setUnit u { st := .off }) s
    let s := (List.range 16).foldl (fun s k => s.coreSafe k) s
    let s := s.calAbort
    let s := s.setFlag MLK_PAIR_STATUS.ARMED false
    let s := s.completeWhere (fun _ => true) 0 { code := resSafe }
    let s := s.sendFault true 0 0
    let s := s.record recSafeEntry (s.reg SAF_SAFE_CAUSE.reg).toNat
    -- a shadow mismatch stays a cause until an evaluation agrees (R380)
    let s := s.putSaf { s.saf with fireHeld := 0 }
    s.settle

/-! Diagnostics (R387, R391, R393, R405). -/

/-- A port becomes lost, or the device enters SAFE, when a diagnostic is lasting. -/
def State.diagReact (s : State) (d p : Nat) : State :=
  match diagReaction d with
  | 1 => (s.setFld SAF_STATUS.PORT_LOST (putBit (s.fld SAF_STATUS.PORT_LOST) p true)).settle
  | 2 => s.enterSafe d
  | _ => s

/-- A TRANSIENT record, at most one per TRANSIENT_GAP_S; an event for which none is written adds to SUPPRESSED (R405). -/
def State.transientRecord (s : State) (d p detail : Nat) : State :=
  let h := s.diag d p
  let gap := s.fld EVR_CFG.TRANSIENT_GAP_S * ticksPerS
  let due := match h.lastRecord with
    | none => true
    | some t => decide (gap ≤ s.time - t)
  if due && s.recEnabled recTransient then
    (s.record recTransient detail h.suppressed).setDiag d p { h with suppressed := 0, lastRecord := some s.time }
  else s.setDiag d p { h with suppressed := h.suppressed + 1 }

/-- Diagnostic `d` reports an event, at port `p` for a port-class diagnostic, else 15 (R391). DEDUCED, log entry 48. -/
def State.diagEvent (s : State) (d p : Nat) : State :=
  let s := s.bump (SAF_DIAG_COUNT.reg d)
  let s := s.setNat (SAF_DIAG_LAST.reg d) s.time
  let h := s.diag d p
  let n := s.diagN d
  let times := (s.time :: h.times).take n
  let lasting := decide (n ≤ times.length) && times.all (fun t => decide (s.time - t ≤ s.diagW d * ticksPerMs))
  let s := s.setDiag d p { h with times := times, lasting := h.lasting || lasting }
  let detail := d + p * 256 + s.inWindow d p * 2 ^ 16
  if lasting then
    let s := (s.raiseEvent 54 detail).record recLasting detail h.suppressed
    let s := if s.recEnabled recLasting then s.setDiag d p { s.diag d p with suppressed := 0 } else s
    s.diagReact d p
  else (s.raiseEvent 55 detail).transientRecord d p detail

/-- Clear the history of every port-class diagnostic of a port (R393). DEDUCED, log entry 48. -/
def State.clearPortDiags (s : State) (n : Nat) : State :=
  [0x08, 0x09, 0x0A, 0x0B].foldl (fun s d => s.setDiag d n { s.diag d n with times := [], lasting := false }) s

/-- What PORT_FAULT of port `n` does beside its event (R30, R368): the PORT cause, and the fault message of a loop port. -/
def State.portMark (s : State) (n cause : Nat) : State :=
  let s := s.putCtl { s.ctl with faulted := BitVec.ofNat 12 (putBit s.ctl.faulted.toNat n true) }
  let s := s.withDeg { s.ctl.deg with port := true }
  let s := if cause ≠ 1 && s.flag (MLK_LOOP_CFG.EN n) then s.sendFault false cause n else s
  s.settle

/-- PORT_FAULT of port `n` (R30, R316, R368): its event and what follows it. DEDUCED, log entry 48. -/
def State.portFault (s : State) (n cause : Nat) : State :=
  let detail := cause + (if cause = 3 then (s.reg (PRT_RX_FAULT.reg n)).toNat % 256 * 256 else 0)
  (s.raiseEvent n detail).portMark n cause

/-! Events that a diagnostic follows (R387). -/

/-- EV40 SRAM_ECC, which the SRAM diagnostic follows. -/
def State.raiseSram (s : State) (k : Nat) (ue : Bool) (addr : Nat) : State :=
  (s.raiseEvent 40 (k * 2 ^ 28 + bitAt ue 27 + addr % 2 ^ 18)).diagEvent 0x15 15

/-- A route check fails on port `n` (R59, R135, R172): SWITCH_ROUTE, whose event is PORT_FAULT of the port; a bit already set
does not raise its event again. DEDUCED, log entry 110. -/
def State.routeFault (s : State) (n : Nat) : State :=
  (if s.flag SRC_FAULT_CAUSE.SWITCH_ROUTE then s.portMark n 2
    else (s.setFlag SRC_FAULT_CAUSE.SWITCH_ROUTE true).portFault n 2).diagEvent 0x08 n

/-- Causes of SRC_FAULT_CAUSE (R59): bits already set raise nothing; EV12 carries the bits newly set. DEDUCED, log entry 24.
-/
def State.srcFault (s : State) (bits : Nat) : State :=
  let old := (s.reg SRC_FAULT_CAUSE.reg).toNat
  let new := (BitVec.ofNat 32 bits &&& ~~~(BitVec.ofNat 32 old)).toNat
  if new = 0 then s else (s.setNat SRC_FAULT_CAUSE.reg (old + new)).raiseEvent 12 new

end Sys2Proof.Machine
end

