-- ==== Sys2Proof/Machine/TrgFn.lean ====
section
/-!
DEFINITION. The trigger engine: arming, evaluation, firing, capture intervals and records (R204–R225).
-/
namespace Sys2Proof.Machine

/-! Captures (R212–R222). -/

/-- Capture port of a unit (R212). -/
def State.capPort (s : State) (u : Nat) : Nat :=
  let k := s.fld (TRGU_SRC.KIND u)
  if k = 1 || k = 2 || k = 3 then s.fld (TRGU_SRC.INDEX u) else s.fld (TRGU_CAP_WIN.PORT u)

/-- Bins of the capture window, and frames to the interval (R213). -/
def State.capBins (s : State) (u : Nat) : Nat := s.fld (TRGU_CAP_WIN.BIN_COUNT_M1 u) + 1
def State.capK (s : State) (u : Nat) : Nat := s.fld (TRGU_CAP_FMT.INTERVAL_M1 u) + 1

/-- int16 values stored per bin (R214). -/
def State.capV (s : State) (u : Nat) : Nat :=
  2 * s.fld (TRGU_CAP_FMT.MINMAX u) + s.fld (TRGU_CAP_FMT.MEAN u) + s.fld (TRGU_CAP_FMT.RMS u)

/-- Bytes of an interval record (R214). -/
def State.capSize (s : State) (u : Nat) : Nat :=
  64 * ceilDiv (32 + s.capBins u * (2 * s.capV u + s.fld (TRGU_CAP_FMT.QUAL u))) 64

/-- Size of a capture region in MiB: 0 acts as 1, above 1,024 as 1,024. -/
def State.cregSize (s : State) (r : Nat) : Nat := clampNat 1 1024 (s.fld (TRG_CREG_SIZE.SIZE_MIB r))

/-- Intervals the region holds (R214). -/
def State.capCapacity (s : State) (u : Nat) : Nat := (s.cregSize (s.fld (TRGU_CFG.CAP_REGION u)) * 2 ^ 20 - 4096) / s.capSize u

/-- Effective counts before and after the trigger, and whether the post count is truncated (R214). -/
def State.capPlan (s : State) (u : Nat) : Nat × Nat × Bool :=
  let c := s.capCapacity u
  let pre := s.fld (TRGU_CAP_LEN.PRE u)
  let post := s.fld (TRGU_CAP_LEN.POST u)
  if pre + post ≤ c then (pre, post, false) else if post ≤ c then (c - post, post, false) else (0, c, true)

/-- TRGu_CAP_PLAN and TRGu_CAP_CAPACITY, at each commit (R214). DEDUCED, log entry 101. -/
def State.showCapPlan (s : State) (u : Nat) : State :=
  let (pre, post, _) := s.capPlan u
  let s := (s.setFld (TRGU_CAP_PLAN.PRE_EFF u) pre).setFld (TRGU_CAP_PLAN.POST_EFF u) post
  s.setNat (TRGU_CAP_CAPACITY.reg u) (s.capCapacity u)

/-- A bin of a frame joins an interval; a GAP value enters as 0 (R213). -/
def BinAcc.add (a : BinAcc) (x : Int) (q : Nat) : BinAcc :=
  { mn := min a.mn x, mx := max a.mx x, sum := a.sum + x, sq := a.sq + x.natAbs * x.natAbs,
    qual := (BitVec.ofNat 8 a.qual ||| BitVec.ofNat 8 q).toNat }

/-- The first frame's bin of an interval. -/
def BinAcc.start (x : Int) (q : Nat) : BinAcc := { mn := x, mx := x, sum := x, sq := x.natAbs * x.natAbs, qual := q % 256 }

/-- A frame as captures see it: its number, launch, flags, round, and the values and quality words of the window. -/
structure CapFrame where
  index : Nat
  launch : Nat
  flags : Nat
  round : Nat
  values : List (Int × Nat)
  deriving DecidableEq, Repr

/-- Add a frame to the interval being gathered. DEDUCED, log entry 56. -/
def Interval.add (i : Interval) (f : CapFrame) : Interval :=
  { i with
    flags := (BitVec.ofNat 32 i.flags ||| BitVec.ofNat 32 f.flags).toNat
    frames := i.frames + 1
    round := f.round
    bins := List.zipWith (fun a (x : Int × Nat) => a.add x.1 x.2) i.bins f.values }

/-- A new interval with its first frame. -/
def Interval.start (k : Nat) (f : CapFrame) : Interval :=
  { index := f.index / k, first := f.index, time := f.launch, flags := f.flags, frames := 1, round := f.round
    bins := f.values.map (fun x => BinAcc.start x.1 x.2) }

/-- Mean of an interval's bin over its K frames (R213). -/
def BinAcc.mean (a : BinAcc) (k : Nat) : Int := roundDiv a.sum k

/-- Root mean square, rounded to nearest: the least r with (2r + 1)² K > 4 Σx² (R213). -/
def BinAcc.rms (a : BinAcc) (k : Nat) : Nat :=
  let r := isqrt (4 * a.sq / k)
  (r + 1) / 2

/-- The bytes of an interval record (R222). -/
def intervalBytes (size k : Nat) (mm mean rms qual : Bool) (i : Interval) : List Byte :=
  let plane (on : Bool) (n : Nat) (f : BinAcc → Nat) : List Byte := if on then i.bins.flatMap (fun b => leBytes n (f b)) else []
  let body := if i.dropped then [] else
    plane mm 2 (fun b => toBits 16 b.mn) ++ plane mm 2 (fun b => toBits 16 b.mx) ++ plane mean 2 (fun b => toBits 16 (b.mean k))
      ++ plane rms 2 (fun b => b.rms k) ++ plane qual 1 (fun b => b.qual)
  let h := leBytes 8 i.first ++ leBytes 8 i.time ++ leBytes 4 i.flags ++ leBytes 2 i.frames ++ leBytes 1 (if i.dropped then 1 else 0)
    ++ zeroBytes 9
  let d := h ++ body
  d ++ zeroBytes (size - d.length)

/-- The bytes of an interval record of unit `u`. -/
def State.capInterval (s : State) (u : Nat) (i : Interval) : List Byte :=
  intervalBytes (s.capSize u) (s.capK u) (s.flag (TRGU_CAP_FMT.MINMAX u)) (s.flag (TRGU_CAP_FMT.MEAN u))
    (s.flag (TRGU_CAP_FMT.RMS u)) (s.flag (TRGU_CAP_FMT.QUAL u)) i

/-! Measurements (R220). -/

/-- Index of the largest value of a list, the first on a tie. -/
def argMax (l : List Nat) : Nat :=
  (l.foldl (fun (p : Nat × Nat × Nat) x => if p.2.1 < x then (p.2.2, x, p.2.2 + 1) else (p.1, p.2.1, p.2.2 + 1)) (0, 0, 0)).1

/-- One bin of an interval. -/
def Interval.bin (i : Interval) (b : Nat) : BinAcc := (i.bins[b]?).getD { mn := 0, mx := 0, sum := 0, sq := 0, qual := 0 }

/-- Positive-going crossings of the interval means less their average, at positions in intervals. -/
def crossings (n total : Int) : Nat → List Int → List Rat
  | i, a :: b :: t =>
    let x := n * a - total
    let y := n * b - total
    (if x < 0 ∧ 0 ≤ y then [(i : Rat) + (x : Rat) / ((x - y : Int) : Rat)] else []) ++ crossings n total (i + 1) (b :: t)
  | _, _ => []

/-- The measurements of a record: measurement bin (within the window), peak, its interval relative to the trigger,
peak-to-peak, energy, and the dominant period when there is one. -/
structure Meas where
  bin : Nat
  peak : Int
  peakAt : Int
  pp : Nat
  energy : Nat
  period : Option Nat
  deriving DecidableEq, Repr

/-- Measure the stored intervals; dropped ones are left out. -/
def measure (k width : Nat) (auto : Bool) (offset trigger : Nat) (stored : List Interval) : Meas :=
  let live := stored.filter (fun i => !i.dropped)
  let post := live.filter (fun i => decide (trigger ≤ i.index))
  let bin := if auto then argMax ((List.range width).map (fun b => post.foldl (fun m i => m + (i.bin b).sq) 0)) else offset
  let pk := live.foldl (fun (m : Option Interval) i => match m with
    | none => some i
    | some j => if (j.bin bin).sum.natAbs < (i.bin bin).sum.natAbs then some i else some j) none
  let sums := live.map (fun i => (i.bin bin).sum)
  let cs := crossings sums.length (sums.foldl (· + ·) 0) 0 sums
  { bin := bin
    peak := match pk with | some i => (i.bin bin).mean k | none => 0
    peakAt := match pk with | some i => (i.index : Int) - trigger | none => 0
    pp := match live with
      | [] => 0
      | i :: is => (is.foldl (fun m j => max m (j.bin bin).mx) (i.bin bin).mx
                    - is.foldl (fun m j => min m (j.bin bin).mn) (i.bin bin).mn).toNat
    energy := live.foldl (fun m i => m + (i.bin bin).sq) 0
    period := match cs, cs.getLast? with
      | c :: _ :: _, some l => some (roundRat (256 * (l - c) / ((cs.length - 1 : Nat) : Rat))).toNat
      | _, _ => none }

/-! Records (R221). -/

/-- The 128-byte header and interval records of a capture. `flags`: ABORTED and CAP_FAILED as the close adds them. -/
def State.capRecord (s : State) (u flags : Nat) (f : Firing) (pre post : List Interval) (preShort trunc : Bool) : List Byte :=
  let k := s.capK u
  let size := s.capSize u
  let stored := pre ++ post
  let m := measure k (s.capBins u) (s.flag (TRGU_MEAS.AUTO u)) (s.fld (TRGU_MEAS.MEAS_OFFSET u)) f.trigger stored
  let filt := s.flag (TRGU_CFG.DATA_SRC u)
  let port := s.capPort u
  let first := match stored with | i :: _ => i.first | [] => 0
  let fl := flags + bitAt trunc 0 + bitAt preShort 1 + bitAt m.period.isNone 4 + bitAt filt 5
    + bitAt (s.flag (TRGU_CFG.SINGLE u)) 6
  leBytes 2 0x0C01 ++ leBytes 1 u ++ leBytes 1 (s.fld (TRGU_CFG.CAP_REGION u)) ++ leBytes 1 port
    ++ leBytes 1 (s.fld (TRGU_SRC.KIND u)) ++ leBytes 1 (s.fld (TRGU_SRC.INDEX u)) ++ leBytes 1 f.pip
    ++ leBytes 8 f.time ++ leBytes 8 f.round ++ leBytes 8 first ++ leBytes 4 fl ++ leBytes 4 (toBits 32 f.value)
    ++ leBytes 4 f.srcIndex ++ leBytes 4 (s.reg (TRGU_LEVEL.reg u)).toNat ++ leBytes 2 (s.fld (TRGU_CAP_WIN.FIRST_BIN u))
    ++ leBytes 2 (s.capBins u) ++ leBytes 2 k ++ leBytes 1 ((s.reg (TRGU_CAP_FMT.reg u)).toNat / 2 % 16)
    ++ leBytes 1 (if filt then clampNat 4 16 (s.fld (FLT_PORT_CFG.OUT_K port))
        else clampNat 8 14 (s.fld (PRT_PE_CFG.SCALE_K port)))
    ++ leBytes 4 f.ticks ++ leBytes 4 pre.length ++ leBytes 4 post.length ++ leBytes 4 size
    ++ leBytes 4 (s.fld (TRGU_CAP_WIN.FIRST_BIN u) + m.bin) ++ leBytes 4 (toBits 32 m.peak) ++ leBytes 4 (toBits 32 m.peakAt)
    ++ leBytes 4 m.pp ++ leBytes 4 (m.period.getD 0) ++ leBytes 8 m.energy
    ++ leBytes 4 (stored.filter (fun i => i.dropped)).length ++ zeroBytes 24
    ++ stored.flatMap (s.capInterval u)

/-- A firing's present cause of alarm ends (R380). -/
def State.dropFire (s : State) (u : Nat) : State :=
  s.putSaf { s.saf with fireHeld := BitVec.ofNat 16 (putBit s.saf.fireHeld.toNat u false) }

/-- Close the record of a unit in CAPTURING, with ABORTED (bit 2) or CAP_FAILED (bit 3) among `flags`; the unit goes to
READOUT (R209, R219). -/
def State.closeCapture (s : State) (u flags : Nat) : State :=
  let x := s.unit u
  match x.firing with
  | none => s
  | some f =>
    let (npre, npost, trunc) := s.capPlan u
    let pre := x.intervals.filter (fun i => decide (i.index < f.trigger) && decide (f.trigger ≤ i.index + npre))
    let post := x.intervals.filter (fun i => decide (f.trigger ≤ i.index) && decide (i.index < f.trigger + npost))
    let rec' := s.capRecord u flags f pre post (decide (pre.length < npre)) trunc
    s.setUnit u { x with st := .readout, record := some (s.fld (TRGU_CFG.CAP_REGION u), rec'), cur := none, intervals := [] }

/-- Whether a capture has its last post-trigger interval; then it closes (R209). -/
def State.captureStep (s : State) (u : Nat) : State :=
  let x := s.unit u
  match x.st, x.firing with
  | .capturing, some f =>
    let npost := (s.capPlan u).2.1
    let last := x.intervals.foldl (fun m i => max m (i.index + 1)) 0
    if f.trigger + npost ≤ last || npost = 0 then s.closeCapture u 0 else s
  | _, _ => s

/-- Keep at most the region's capacity of intervals before a trigger. -/
def trimIntervals (cap : Nat) (l : List Interval) : List Interval := l.drop (l.length - cap)

/-- The DRAM address of the region's place for the `seq`-th interval since arming: the region is written as a circle of its C
places, behind its first 4,096 bytes (R214, R215). DESIGN CHOICE, log entry 125. -/
def State.capPlace (s : State) (u seq : Nat) : Nat :=
  s.fld (TRG_CREG_BASE.BASE_MIB (s.fld (TRGU_CFG.CAP_REGION u))) * 2 ^ 20 + 4096 + s.capSize u * (seq % s.capCapacity u)

/-- A capture interval is written into the region in DRAM, or lost: then its record holds no data (R213, R215, R216). A region
of no interval stores none (R214). -/
def State.storeInterval (s : State) (u : Nat) (i : Interval) (lost : Bool) : State :=
  let x := s.unit u
  let i := if lost then { i with dropped := true, bins := [] } else i
  let l := x.intervals ++ [i]
  let l := if x.st = .capturing then l else trimIntervals (s.capCapacity u) l
  let s :=
    if s.capCapacity u = 0 then s.setUnit u { x with cur := none }
    else
      (s.setDram (s.capPlace u x.seq) (s.capInterval u i)).setUnit u
        { x with intervals := l, cur := none, seq := x.seq + 1 }
  if lost then
    (s.bump (TRG_CREG_DROP_COUNT.reg (s.fld (TRGU_CFG.CAP_REGION u)))).bump (DMC_CLIENT_OVERRUN_COUNT.reg 2)
  else s

/-- A frame of the capture port reaches a unit that writes its region (R208, R213). `lost`: its interval could not be written
before its successor was complete. DEDUCED, log entry 56; DEDUCED, log entry 101. -/
def State.captureFrame (s : State) (u : Nat) (f : CapFrame) (lost : Bool) : State :=
  let x := s.unit u
  if !s.flag (TRGU_CFG.CAP_EN u) || s.capFailed || !(x.st == .armed || x.st == .primed || x.st == .capturing) then s
  else
    let k := s.capK u
    let x := { x with firing := x.firing.map (fun r => if f.index / k = r.trigger then { r with round := f.round } else r) }
    let s := s.setUnit u x
    let (s, i) := match x.cur with
      | some c => if c.index = f.index / k then (s, c.add f) else (s.storeInterval u c false, Interval.start k f)
      | none => (s, Interval.start k f)
    if f.index % k + 1 = k then (s.storeInterval u i lost).captureStep u
    else s.setUnit u { s.unit u with cur := some i }

/-- What a record's parts carry (R319, chapter 13). -/
def capPartHeader (region unit num off len : Nat) : List Byte :=
  leBytes 1 region ++ leBytes 1 unit ++ zeroBytes 2 ++ leBytes 4 num ++ leBytes 4 off ++ leBytes 4 len

/-- Send the parts of a record until one is lost; the rest of the record is then discarded with it (R217). A record larger than
the output buffer leaves it as it is copied: its parts go to the host as the buffer fills. DESIGN CHOICE, log entry 125. -/
def State.sendParts (s : State) (region unit num len : Nat) : Nat → Nat → List Byte → State
  | 0, _, _ => s
  | n + 1, off, bs =>
    if bs = [] then s
    else
      let r := 16 + region
      let d := bs.take 65536
      let b : Block := { ring := r, kind := 0x0C, cap := some (region, num),
                         hdr := capPartHeader region unit num off len, payload := pad8 d, stream := pad8 d }
      match (if s.hif.d3hot || s.compresses r b.payload.length then (s, true)
             else s.makeRoom r b.size (region, num) s.hif.out.length) with
      | (s, false) => s.discardMany r (ceilDiv bs.length 65536)
      | (s, true) =>
        match s.sendBlock b with
        | (s, true) => s.sendParts region unit num len n (off + 65536) (bs.drop 65536)
        | (s, false) => s.discardMany r (ceilDiv (bs.drop 65536).length 65536)

/-- A unit that counts as primed (R207): the cause of a firing before ends (R380). -/
def State.primeUnit (s : State) (u : Nat) : State := (s.setUnit u { s.unit u with st := .primed }).dropFire u

/-- The unit is armed (R209): primed at once under PRIME_AT_ARM. -/
def State.armUnit (s : State) (u : Nat) : State :=
  let s := s.setUnit u { s.unit u with
    st := .armed, evaluated := false, missPrimed := false, after := none, cur := none, intervals := [], seq := 0
    firing := none, record := none }
  if s.flag (TRGU_CFG.PRIME_AT_ARM u) then s.primeUnit u else s

/-- A unit's readout has ended (R209). -/
def State.endReadout (s : State) (u : Nat) : State :=
  let x := { s.unit u with firing := none, record := none, after := none, cur := none, intervals := [] }
  match (s.unit u).after with
  | some .armed => (s.setUnit u x).armUnit u
  | some .off => s.setUnit u {}
  | some st => s.setUnit u { x with st := st }
  | none => s.setUnit u { x with st := if s.flag (TRGU_CFG.SINGLE u) then .stopped else .armed }

/-! Evaluation and firing (R207, R210, R211). -/

/-- A source value: value, source index, source instant with its pip, and the start of its source span. -/
structure SrcValue where
  value : Int
  index : Nat := 0
  time : Nat
  pip : Nat := 0
  span : Nat
  deriving DecidableEq, Repr

/-- A blanking input was active at some time since `t`. -/
def State.blankedSince (s : State) (i t : Nat) : Bool :=
  (s.blank i).active || (match (s.blank i).last with | some e => decide (t ≤ e) | none => false)

/-- The evaluation is inhibited. -/
def State.inhibitedBy (s : State) (u span : Nat) : Bool :=
  let m := s.fld (TRGU_CFG.INHIBIT u)
  (bitOf m 0 && s.blankedSince 0 span) || (bitOf m 1 && s.blankedSince 1 span)

/-- A value primes, or fires, a unit (R207). -/
def State.primesBy (s : State) (u : Nat) (v : Int) : Bool :=
  let l := s.fldInt (TRGU_LEVEL.LEVEL u)
  let h : Int := s.fld (TRGU_HYST.HYST u)
  if s.flag (TRGU_CFG.FALLING u) then decide (l + h ≤ v) else decide (v ≤ l - h)
def State.firesBy (s : State) (u : Nat) (v : Int) : Bool :=
  let l := s.fldInt (TRGU_LEVEL.LEVEL u)
  if s.flag (TRGU_CFG.FALLING u) then decide (v ≤ l) else decide (l ≤ v)

/-- Drive the control outputs of a firing unit: their holds restart, and latches set (R224). -/
def State.driveOutputs (s : State) (u : Nat) : State :=
  (List.range 4).foldl (fun s k =>
    if bitOf (s.fld (TRG_DOUT_CFG.UNIT_MASK k)) u then
      let s := s.setDout k { s.dout k with held := true }
      if s.flag (TRG_DOUT_CFG.LATCH k) then s.setFlag (TRG_DOUT_STATUS.LATCHED k) true else s
    else s) s

/-- The trigger interval: the one that holds the capture port's latest complete frame (R215). -/
def State.triggerInterval (s : State) (u : Nat) : Nat :=
  let p := s.port (s.capPort u)
  ((if s.flag (TRGU_CFG.DATA_SRC u) then p.fltNext else p.next) - 1) / s.capK u

/-- The round of the capture port's latest complete frame. -/
def State.lastRound (s : State) (u : Nat) : Nat :=
  let p := s.port (s.capPort u)
  if s.flag (TRGU_CFG.DATA_SRC u) then p.fltRound else p.round

/-- FRAME_TICKS: PERIOD over the Rayleigh entries of the capture port (R221). -/
def State.frameTicks (s : State) (port : Nat) : Nat :=
  let c := schedCfg s.regs
  c.period / max 1 ((c.portEntries port).filter (fun e => e.kind == 0)).length

/-- A unit fires (R209, R210). -/
def State.fire (s : State) (u : Nat) (v : SrcValue) : State :=
  let s := s.setNat (TRGU_LAST_VALUE.reg u) (toBits 32 v.value)
  let s := s.bump (TRGU_FIRE_COUNT.reg u)
  let s := (s.raiseEvent (16 + u) (toBits 32 v.value)).driveOutputs u
  let x := s.unit u
  let s :=
    if s.flag (TRGU_CFG.CAP_EN u) then
      let f : Firing := { time := v.time, pip := v.pip, value := v.value, srcIndex := v.index,
                          trigger := s.triggerInterval u, round := s.lastRound u, ticks := s.frameTicks (s.capPort u) }
      let s := s.setUnit u { x with st := .capturing, firing := some f, missPrimed := false }
      if s.capFailed then s.closeCapture u 8 else s.captureStep u
    else if s.flag (TRGU_CFG.SINGLE u) then s.setUnit u { x with st := .stopped }
    else
      (s.setUnit u { x with st := .armed }).putSaf { s.saf with fireHeld := BitVec.ofNat 16 (putBit s.saf.fireHeld.toNat u true) }
  (s.alarmUnit 1 u).settle

/-- The scorekeeper's shadow of an evaluation of a safety unit (R390). -/
def State.shadow (s : State) (u : Nat) (differs : Bool) : State :=
  let s := s.putSaf { s.saf with shadowHeld := BitVec.ofNat 16 (putBit s.saf.shadowHeld.toNat u differs) }
  if differs then ((s.bump SAF_SHADOW_COUNT.reg).alarmUnit 3 u).diagEvent 0x0C 15 else s

/-- A unit is named by a channel. -/
def State.safetyUnit (s : State) (u : Nat) : Bool := (s.chanUnits 0).contains u || (s.chanUnits 1).contains u

/-- The edge decision of an evaluation that is not inhibited (R207): at most one change of state. -/
def State.edge (s : State) (u : Nat) (v : SrcValue) : State :=
  match (s.unit u).st with
  | .armed => if s.primesBy u v.value then s.primeUnit u else s
  | .primed => if s.firesBy u v.value then s.fire u v else s
  | _ => s

/-- One evaluation of unit `u` (R207–R211, R390). `differs`: the scorekeeper's shadow decision differs. DEDUCED, log entry
101. -/
def State.evaluate (s : State) (u : Nat) (v : SrcValue) (differs : Bool) : State :=
  let x := s.unit u
  match x.st with
  | .armed | .primed =>
    if s.inhibitedBy u v.span then
      let s := s.bump (TRGU_INHIBIT_COUNT.reg u)
      (s.setUnit u { x with st := .armed, inhibited := true }).settle
    else
      let s := s.setUnit u { x with inhibited := false, evaluated := true }
      let s := if x.inhibited && s.flag (TRGU_CFG.PRIME_AT_ARM u) then s.primeUnit u else s
      let s := if s.safetyUnit u then s.shadow u differs else s
      (s.edge u v).settle
  | .capturing | .readout =>
    if x.missPrimed && s.firesBy u v.value then
      (s.bump (TRGU_MISSED_COUNT.reg u)).setUnit u { x with missPrimed := false }
    else if s.primesBy u v.value then s.setUnit u { x with missPrimed := true }
    else s
  | _ => s

/-- Evaluate every unit whose source is of a kind and index. `value` gives a unit's value, none when its range holds nothing
usable; `differs` is the set of units whose shadow decision differs. -/
def State.evalSource (s : State) (kind index : Nat) (value : Nat → Option SrcValue) (differs : BitVec 16) : State :=
  (List.range 16).foldl (fun s u =>
    if s.fld (TRGU_SRC.KIND u) = kind && s.fld (TRGU_SRC.INDEX u) = index then
      match value u with
      | some v => s.evaluate u v (differs.getLsbD u)
      | none => s
    else s) s

/-- The range of a unit: first and count, 0 acting as 1 (R204). -/
def State.srcRange (s : State) (u : Nat) : Nat × Nat :=
  (s.fld (TRGU_SRC_RANGE.FIRST u), max 1 (s.fld (TRGU_SRC_RANGE.COUNT u)))

/-- The value of a range source: the largest, or smallest with FALLING, of the usable entries, the lowest index on a tie. -/
def State.rangeValue (s : State) (u : Nat) (at_ : Nat → Option Int) : Option (Int × Nat) :=
  let (first, n) := s.srcRange u
  let falling := s.flag (TRGU_CFG.FALLING u)
  (List.range n).foldl (fun m i =>
    match at_ (first + i), m with
    | some v, none => some (v, first + i)
    | some v, some (w, j) => if (if falling then decide (v < w) else decide (w < v)) then some (v, first + i) else some (w, j)
    | none, m => m) none

/-! Commands and state changes of units (R209, R218, R223). -/

/-- The start of running: units in use are armed or stopped (R208, R209). -/
def State.trgStart (s : State) (u : Nat) : State :=
  if !s.flag (TRGU_CFG.EN u) then s.setUnit u {}
  else if s.flag (TRGU_CFG.ARM_AT_START u) then s.armUnit u
  else s.setUnit u { s.unit u with st := .stopped }

/-- STOP: every unit goes to OFF; a capture is abandoned (R218). -/
def State.trgStop (s : State) (u : Nat) : State :=
  let x := s.unit u
  let r := match x.record with | some (r, _) => r | none => s.fld (TRGU_CFG.CAP_REGION u)
  let s := if x.st = .capturing ∨ x.st = .readout then s.bump (TRG_CREG_ABORT_COUNT.reg r) else s
  (s.setUnit u {}).dropFire u

/-- TRG_ARM of one unit; answers whether it had an effect. -/
def State.trgArm (s : State) (u : Nat) : State × Bool :=
  if (s.unit u).st = .stopped then (s.armUnit u, true) else (s, false)

/-- TRG_DISARM of one unit. -/
def State.trgDisarm (s : State) (u : Nat) : State × Bool :=
  let x := s.unit u
  match x.st with
  | .armed | .primed => ((s.setUnit u { x with st := .stopped }).dropFire u, true)
  | .capturing | .readout => (s.setUnit u { x with after := some .stopped }, true)
  | _ => (s, false)

/-- The settings whose change ends a capture or rearms a unit (R209). -/
def State.trgKey (s : State) (u : Nat) : List Nat :=
  [s.fld (TRGU_SRC.KIND u), s.fld (TRGU_SRC.INDEX u), (s.reg (TRGU_SRC_RANGE.reg u)).toNat, s.fld (TRGU_CFG.FALLING u),
   s.fld (TRGU_CFG.CAP_EN u), s.fld (TRGU_CFG.CAP_REGION u), s.fld (TRGU_CFG.DATA_SRC u), (s.reg (TRGU_CAP_WIN.reg u)).toNat,
   (s.reg (TRGU_CAP_LEN.reg u)).toNat, (s.reg (TRGU_CAP_FMT.reg u)).toNat, (s.reg (TRGU_MEAS.reg u)).toNat]

/-- Apply a change of settings to unit `u`: `apply` makes the change; what it ends is closed with the old settings. -/
def State.trgChange (s new : State) (u : Nat) : State → State := fun t =>
  let x := s.unit u
  let wasEn := s.flag (TRGU_CFG.EN u)
  let isEn := new.flag (TRGU_CFG.EN u)
  let closed := if x.st = .capturing then (s.closeCapture u 4).unit u else x
  if wasEn && !isEn && x.st ≠ .off then
    if x.st = .capturing ∨ x.st = .readout then t.setUnit u { closed with after := some .off }
    else (t.setUnit u {}).dropFire u
  else if isEn && x.st = .off then t.trgStart u
  else if s.trgKey u ≠ new.trgKey u then
    match x.st with
    | .armed | .primed => t.armUnit u
    | .capturing | .readout => t.setUnit u { closed with after := some .armed }
    | _ => t
  else t

/-- A change of trigger settings while the device runs: `new` is the state with the registers changed. -/
def State.trgChangeAll (s new : State) : State :=
  ((List.range 16).foldl (fun t u => s.trgChange new u t) new).settle

/-- DRAM failure: captures in progress close with ABORTED and CAP_FAILED, and no other unit keeps intervals: its later record is
header-only (R223). -/
def State.trgFail (s : State) : State :=
  let s := s.setFlag TRG_STATUS.CAP_FAILED true
  (List.range 16).foldl (fun s u =>
    if (s.unit u).st = .capturing then s.closeCapture u 12
    else s.setUnit u { s.unit u with cur := none, intervals := [] }) s

/-! Rows of the family. -/

/-- CAPTURE_READOUT (R217, R209): the record of unit `u` is copied to its ring, then the unit goes on. -/
def execCaptureReadout (u : Fin 16) (s : State) : Host.Outcome State Fault Refusal :=
  .next (
    let x := s.unit u.val
    match x.st, x.record with
    | .readout, some (r, bytes) =>
      let num := SMap.get (fun _ => 0) s.capRecs r
      let s := s.putCapRecs (SMap.put (fun _ => 0) s.capRecs r (num + 1))
      ((s.sendParts r u.val num bytes.length (bytes.length / 65536 + 1) 0 bytes).endReadout u.val).settle
    | _, _ => s)

/-- DOUT_HOLD_EXPIRY (R224). -/
def execDoutHoldExpiry (k : Fin 4) (s : State) : Host.Outcome State Fault Refusal :=
  .next (s.setDout k.val { s.dout k.val with held := false })

end Sys2Proof.Machine
end

