-- ==== Sys2Proof/Machine/AuxRows.lean ====
section
/-!
DEFINITION. The auxiliary sequencer, the housekeeping converter, the references and the blanking inputs (R335–R355).
-/
namespace Sys2Proof.Machine

/-! Blanking (R351–R353). -/

/-- Input `i` pauses the sequencer (R352). -/
def State.pausing (s : State) (i : Nat) : Bool :=
  (s.blank i).active && s.flag (if i = 0 then AUX_BLANK0_CFG.PAUSE else AUX_BLANK1_CFG.PAUSE)

/-- The sequencer is paused. -/
def State.auxPaused (s : State) : Bool := s.isRunning && (s.pausing 0 || s.pausing 1)

/-- Each change to paused is counted (R352), whether an input, a setting or the device state makes it. -/
def State.countPause (old new : State) : State :=
  if !old.auxPaused && new.auxPaused then
    (new.bump AUX_BLANK_PAUSE_COUNT.reg).putAux { new.aux with pauseAt := new.time }
  else new

/-- Units that select input `i` show INHIBITED (R211). DEDUCED, log entry 70. -/
def State.inhibitUnits (s : State) (i : Nat) : State :=
  (List.range 16).foldl (fun s u =>
    let x := s.unit u
    let hit := bitOf (s.fld (TRGU_CFG.INHIBIT u)) i && (x.st == .armed || x.st == .primed || x.st == .stopped)
    if hit then s.setUnit u { x with inhibited := true } else s) s

/-- Input `i` marks the frames of port `n` (R353). DEDUCED, log entry 70. -/
def State.blankMarks (s : State) (i n : Nat) : Bool :=
  s.flag (if i = 0 then AUX_BLANK0_CFG.MARK else AUX_BLANK1_CFG.MARK)
    && bitOf (s.fld (if i = 0 then AUX_BLANK0_CFG.PORTS else AUX_BLANK1_CFG.PORTS)) n

/-- The length of a turn's port occupancy after its launch instant, in units of 1/128 tick (R71). -/
def Turn.occAfter (t : Turn) : Nat :=
  let p := (schedCfg t.regs).plan t.plan
  p.window + (if t.kind = .brillouin || t.sub then p.brillouinDur else p.rayleighDur) / 2

/-- The end of a turn's port occupancy, in units of 1/128 tick (R71). -/
def Turn.occEnd (t : Turn) : Nat := t.launch * uTick + t.occAfter

/-- A turn's frame is missing: it was skipped, or launched as a Brillouin turn (R86, R88, R117). -/
def Turn.missing (t : Turn) : Bool := t.skipped || t.sub

/-- The launch instant a turn's frame carries: that of a missing frame is nominal (R322). -/
def Turn.frameLaunch (t : Turn) : Nat := if t.missing then t.nominal else t.launch

/-- The end of the port occupancy a frame is judged on: that of a missing frame is nominal (R353). -/
def Turn.frameOccEnd (t : Turn) : Nat := t.frameLaunch * uTick + t.occAfter

/-- An input becomes active: it marks the frames whose port occupancy is in progress, and a turn that slides while its nominal
occupancy is (R353). -/
def State.markTurns (s : State) (i : Nat) : State :=
  let hit (t : Turn) (till : Nat) : Turn :=
    if s.blankMarks i t.port && decide (s.time * uTick ≤ till) then { t with blanked := true } else t
  s.putSched { s.sched with
    flight := s.sched.flight.map (fun t => hit t t.frameOccEnd)
    brl := s.sched.brl.map (fun t => hit t t.frameOccEnd)
    sliding := s.sched.sliding.map (fun x => (hit x.1 (x.1.nominal * uTick + x.1.occAfter), x.2)) }

/-- An input that is active now marks the frames of port `n` (R353). -/
def State.blankMarked (s : State) (n : Nat) : Bool := s.isRunning && [0, 1].any (fun i => (s.blank i).active && s.blankMarks i n)

/-- Input `i` becomes active or inactive (R351). -/
def State.setBlankActive (s : State) (i : Nat) (active : Bool) : State :=
  let s := if active && s.isRunning then s.markTurns i else s
  let t := s.setBlank i { active := active, last := some s.time }
  let t := t.setFlag (if i = 0 then AUX_STATUS.BLANK0 else AUX_STATUS.BLANK1) active
  let t := if active && s.isRunning then (t.inhibitUnits i).settle else t
  s.countPause t

/-- Input `i` serves as BLANKi_N. -/
def State.blankEn (s : State) (i : Nat) : Bool := s.flag (if i = 0 then AUX_BLANK0_CFG.EN else AUX_BLANK1_CFG.EN)

/-- BLANK_INPUT_CHANGE (R351): the qualification of an input whose EN is 1 ends. -/
def execBlankInputChange (i : Fin 2) (active : Bool) (s : State) : Host.Outcome State Fault Refusal :=
  .next (if (s.blank i.val).active = active || (active && !s.blankEn i.val) then s else s.setBlankActive i.val active)

/-! References (R342). -/

/-- The settled bit of a reference. -/
def refBit (r : Nat) : Fld :=
  if r = 1 then AUX_STATUS.EXT_REF_OK else if r = 2 then AUX_STATUS.SUP_REF_OK else AUX_STATUS.INT_REF_OK

/-- Reference `r` becomes settled or unsettled, which the pass under way records. -/
def State.setRef (s : State) (r : Nat) (ok : Bool) : State :=
  (s.setFlag (refBit r) ok).putAux { s.aux with refLog := if s.flag AUX_STATUS.BUSY then (s.time, r, ok) :: s.aux.refLog else [] }

/-- Reference `r` (code 0b11 acts as 0b00) was settled at an instant of the pass under way: the latest change up to it, or what
stood at the pass start. -/
def State.refOkAt (s : State) (r t : Nat) : Bool :=
  match s.aux.refLog.find? (fun x => x.2.1 == r % 3 && decide (x.1 ≤ t)) with
  | some x => x.2.2
  | none => bitOf s.aux.refBase (r % 3)

/-- REF_SETTLED (R342): the internal reference settles only with INT_EN = 1. -/
def execRefSettled (r : Fin 3) (s : State) : Host.Outcome State Fault Refusal :=
  .next (if r.val = 0 && !s.flag AUX_REF_CFG.INT_EN then s else s.setRef r.val true)

/-- REFERENCE_UNSETTLED (R342). -/
def execReferenceUnsettled (r : Fin 3) (s : State) : Host.Outcome State Fault Refusal := .next (s.setRef r.val false)

/-! Times of a pass (R341, R346), in half microseconds. -/

/-- Conversion time of a SAMP code in µs (R341). -/
def sampUs (code : Nat) : Nat := ([20, 50, 100, 250, 1000, 5000, 20000, 100000][code]?).getD 0

/-- Lead mode in force: an internal channel, EXC_EN = 0 and the reserved code act as 0 (R339, R344). -/
def Cfg.auxLead (c : Cfg) (e : Nat) : Nat :=
  if 16 ≤ c.fld (AUX_ENT_SEL.POS e) || !c.flag (AUX_ENT_SEL.EXC_EN e) then 0 else c.fld (AUX_ENT_SEL.LEAD e) % 3

/-- Time of one conversion of an entry. -/
def Cfg.auxConv (c : Cfg) (e : Nat) : Nat := 2 * sampUs (c.fld (AUX_ENT_TIME.SAMP e))

/-- T_e. -/
def Cfg.auxTime (c : Cfg) (e : Nat) : Nat :=
  4 + 2 * c.fld (AUX_ENT_TIME.SETTLE_US e) + (c.auxLead e + 1) * (c.auxConv e + 10)

/-- The sum of T_e below entry `e`. -/
def Cfg.auxBefore (c : Cfg) (e : Nat) : Nat := (List.range e).foldl (fun n i => n + c.auxTime i) 0

/-- AUX_PASS_TIME in µs. -/
def Cfg.auxPassUs (c : Cfg) : Nat := c.auxBefore (c.fld AUX_SEQ_CFG.LAST + 1) / 2

/-- Offset of the conversion instant of entry `e` from the pass start. -/
def Cfg.auxOffset (c : Cfg) (e : Nat) : Nat :=
  c.auxBefore e + 4 + 2 * c.fld (AUX_ENT_TIME.SETTLE_US e) + c.auxConv e / 2

/-- Pass period in ticks in TIMED and ROUND modes (R345, R349). -/
def State.auxPeriod (s : State) (c : Cfg) : Nat :=
  if c.fld AUX_SEQ_CFG.MODE = 1 then clampNat 20 1000000 (c.fld AUX_SEQ_PERIOD.PASS_US) * ticksPerUs
  else max 1 (c.fld AUX_SEQ_PERIOD.PASS_ROUNDS) * (schedCfg s.regs).period

/-- The entry delivers aligned values (R349). -/
def Cfg.auxAligns (c : Cfg) (e : Nat) : Bool :=
  c.flag (AUX_ENT_TIME.ALIGN_EN e) && (c.fld AUX_SEQ_CFG.MODE == 1 || c.fld AUX_SEQ_CFG.MODE == 2)

/-- FRAC_USED (R349). -/
def State.auxFrac (s : State) (c : Cfg) (e : Nat) : Nat := min 64 (roundDivNat (64 * c.auxOffset e * 200) (max 1 (s.auxPeriod c)))

/-! Pass start (R345, R347, R355). -/

/-- Sequencer settings: what a pass takes at its start. -/
def isAuxSeq (off : Nat) : Bool :=
  (decide (AUX_SEQ_CFG.reg ≤ off) && decide (off ≤ AUX_SEQ_PERIOD.reg)) ||
    (decide (AUX_ENT_SEL.reg 0 ≤ off) && decide (off < AUX_ENT_SEL.reg 0 + 0x200) && decide ((off - AUX_ENT_SEL.reg 0) % 0x20 < 8))

/-- The settings a pass that starts now takes. -/
def State.auxCfg (s : State) : Cfg := s.regs.filter (fun p => isAuxSeq p.1)

/-- The alignment history, without the entries whose settings change (R355). -/
def auxKeep (old new : Cfg) (h : SMap (List (Option Int))) : SMap (List (Option Int)) :=
  h.filter (fun p =>
    let same (o : Nat) : Bool := SMap.get resetVal old o == SMap.get resetVal new o
    same (AUX_ENT_SEL.reg p.1) && same (AUX_ENT_TIME.reg p.1))

/-- Entries a pass does not convert have no value in it (R349). -/
def auxLapse (last : Nat) (h : SMap (List (Option Int))) : SMap (List (Option Int)) :=
  h.map (fun p => if p.1 ≤ last then p else (p.1, (none :: p.2).take 4))

/-- A pass start can fall in this round: in ROUND mode only where the round number is a multiple of PASS_ROUNDS (R345). -/
def State.auxRoundOk (s : State) : Bool :=
  s.fld AUX_SEQ_CFG.MODE != 2 || s.ctl.round % max 1 (s.fld AUX_SEQ_PERIOD.PASS_ROUNDS) == 0

/-- AUX_PASS_START (R345, R347): a start that falls while a pass converts, or in a pause, is missed. DEDUCED, log entry 68. -/
def execAuxPassStart (s : State) : Host.Outcome State Fault Refusal :=
  .next (
    if !s.isRunning || !s.flag AUX_SEQ_CFG.EN || !s.auxRoundOk then s
    else if s.flag AUX_STATUS.BUSY || s.auxPaused then s.bump AUX_PASS_OVERRUN_COUNT.reg
    else
      let c := s.auxCfg
      let a := s.aux
      let s := (s.bump AUX_PASS_NUM.reg).setFlag AUX_STATUS.BUSY true
      let s := s.setFld AUX_STATUS.ENTRY 0
      (s.putAux { a with
          cfg := c
          start := s.time
          prev := a.start
          entryAt := s.time
          samples := []
          hist := auxLapse (Cfg.fld c AUX_SEQ_CFG.LAST) (auxKeep a.cfg c a.hist)
          refBase := [0, 1, 2].foldl (fun m r => m + bitAt (s.flag (refBit r)) r) 0
          refLog := [] }))

/-! The crosspoint and the excitation (R335–R337). -/

/-- Entry `e` names an internal channel (R344). -/
def Cfg.auxInternal (c : Cfg) (e : Nat) : Bool := decide (16 ≤ c.fld (AUX_ENT_SEL.POS e))

/-- Excitation of an entry: EXC_EN, but not for an internal channel, nor from a pin that drives VBIAS (R338, R344). -/
def State.auxExcites (s : State) (c : Cfg) (e : Nat) : Bool :=
  !c.auxInternal e && c.flag (AUX_ENT_SEL.EXC_EN e) && !bitOf (s.fld AUX_BIAS.BIAS) (c.fld (AUX_ENT_SEL.EXC_PIN e))

/-- When the current of the entry under way is on, in ticks from the entry's start: from the end of the 2 µs switching interval
to the end of its last conversion that uses excitation (R337, R346). -/
def Cfg.auxExcSpan (c : Cfg) (e : Nat) : Nat × Nat :=
  let n := if c.auxLead e = 0 then 1 else 2
  (800, 200 * (4 + 2 * c.fld (AUX_ENT_TIME.SETTLE_US e) + n * c.auxConv e + (n - 1) * 10))

/-- What a pin of the crosspoint does at the present tick. -/
inductive PinDrive where
  | highZ
  /-- Named as POS, NEG or LEAD_PIN of the entry under way. -/
  | sense
  /-- The pulsed current of EXC_CODE, in pA. -/
  | current (pA : Nat)
  /-- VBIAS. -/
  | bias
  deriving DecidableEq, Repr

/-- What pin AINp does (R335–R337): a bias output, the excitation source or an input of the entry under way, else high-impedance.
-/
def State.pinDrive (s : State) (p : Nat) : PinDrive :=
  let c : Cfg := s.aux.cfg
  let e := s.fld AUX_STATUS.ENTRY
  let t := s.time - s.aux.entryAt
  let busy := s.flag AUX_STATUS.BUSY && !Cfg.auxInternal c e
  if bitOf (s.fld AUX_BIAS.BIAS) p then .bias
  else if busy && s.auxExcites c e && Cfg.fld c (AUX_ENT_SEL.EXC_PIN e) == p && decide ((Cfg.auxExcSpan c e).1 ≤ t) && decide (t < (Cfg.auxExcSpan c e).2) then
    .current (s.excCurrent (Cfg.fld c (AUX_ENT_SEL.EXC_CODE e)))
  else if busy && (Cfg.fld c (AUX_ENT_SEL.POS e) == p || Cfg.fld c (AUX_ENT_SEL.NEG e) == p ||
      (Cfg.auxLead c e == 1 && Cfg.fld c (AUX_ENT_SEL.LEAD_PIN e) == p)) then .sense
  else .highZ

/-- The voltage of pin `a` against pin `b` in a conversion, in pV, with the front end's offset; a pin against itself is a short
(R335, R339). -/
def auxDiff (m : AuxMeas) (pins : List Int) (a b : Nat) : Int := (pins[a]?).getD 0 - (pins[b]?).getD 0 + m.offset

/-- The voltages of the conversions of an entry in order, in pV (R339). -/
def Cfg.auxVoltages (c : Cfg) (e : Nat) (m : AuxMeas) : List Int :=
  let pos := c.fld (AUX_ENT_SEL.POS e)
  let neg := c.fld (AUX_ENT_SEL.NEG e)
  let main := auxDiff m m.main pos neg
  match c.auxLead e with
  | 1 => [main, auxDiff m m.lead neg (c.fld (AUX_ENT_SEL.LEAD_PIN e))]
  | 2 => [main, auxDiff m m.lead (c.fld (AUX_ENT_SEL.EXC_PIN e)) pos, auxDiff m m.zero pos neg]
  | _ => [main]

/-- The starts of the conversions of an entry that completes now, from the conversion instant of its main one (R346). -/
def State.auxStarts (s : State) (c : Cfg) (e : Nat) (m : AuxMeas) : List Nat :=
  let conv := 200 * c.auxConv e
  let main := m.instant - conv / 2
  match c.auxLead e with
  | 1 => [main, s.time - conv]
  | 2 => [main, main + conv + 2000, s.time - conv]
  | _ => [main]

/-! Conversions (R338–R343). -/

/-- No value. -/
def auxNone : Nat := 0x80000000

/-- Saturation of R343. DEDUCED, log entry 68. -/
def auxSat (x : Int) : Int := clampInt (-2147483647) 2147483647 x

/-- The calibrated value of the internal reference in nV: free within 2.500 V ± 0.05 % (R342). UNVERIFIED, log entry 112. -/
def intRefNv : Nat := 2498750000 + Config.intRef % 2500001

/-- Vref of an entry in nV (R342). -/
def State.auxVref (s : State) (c : Cfg) (e : Nat) : Nat :=
  match c.fld (AUX_ENT_SEL.REF e) with
  | 1 => clampNat 500 3000 (s.fld AUX_REF_CFG.EXT_MV) * 1000000
  | 2 => (s.reg (AUX_HK.reg 0x1C)).toNat * 1000
  | _ => intRefNv

/-- The code of a voltage in pV (R340). -/
def auxCode (vref gain : Nat) (v : Int) : Int := clampInt (-8388608) 8388607 (roundRat ((2 ^ 23 * v * gain : Int) / ((vref * 1000 : Nat) : Rat)))

/-- A difference of codes as a voltage in µV. -/
def auxVolts (vref gain : Nat) (code : Int) : Rat := (code * vref : Int) / ((1000 * gain * 2 ^ 23 : Nat) : Rat)

/-- A voltage in µV over a current in pA, in units of 0.1 mΩ. -/
def auxOhms (v : Rat) (current : Nat) : Int := auxSat (roundRat (v * 10000 * 1000000 / (current : Rat)))

/-- An internal channel exists on the part (R344). -/
def State.hkPresent (s : State) (c : Nat) : Bool :=
  (decide (0x10 ≤ c) && decide (c ≤ 0x1C) || decide (0x20 ≤ c) && decide (c ≤ 0x27)) &&
    !(s.part == .wv2406 && (c == 0x1A || c == 0x23 || c == 0x26))

/-- What an entry's conversions give: value, lead resistance, overrange and the fault bits of EV61. -/
structure AuxResult where
  value : Nat
  lead : Nat
  overrange : Bool
  fault : Nat
  deriving DecidableEq, Repr

/-- The bits of EV61 for an entry (R338): compliance, a current more than 2 % from the value calibrated for its code, or a bias
pin, which is converted with excitation off. -/
def State.auxFault (s : State) (c : Cfg) (e : Nat) (m : AuxMeas) : Nat :=
  if c.auxInternal e || !c.flag (AUX_ENT_SEL.EXC_EN e) then 0
  else if !s.auxExcites c e then bitAt true 10
  else
    let i := s.excCurrent (c.fld (AUX_ENT_SEL.EXC_CODE e))
    bitAt m.atCompliance 8 + bitAt (decide (i < 50 * ((m.current : Int) - i).natAbs)) 9

/-- The value of an entry (R338, R339, R343, R344). -/
def State.auxResult (s : State) (c : Cfg) (e : Nat) (m : AuxMeas) : AuxResult :=
  let pos := c.fld (AUX_ENT_SEL.POS e)
  if 16 ≤ pos then
    { value := if s.hkPresent pos then toBits 32 (auxSat m.channel) else auxNone, lead := 0, overrange := false, fault := 0 }
  else
    let vref := s.auxVref c e
    let gain := 2 ^ c.fld (AUX_ENT_TIME.GAIN_LOG2 e)
    let mode := c.auxLead e
    let current := s.excCurrent (c.fld (AUX_ENT_SEL.EXC_CODE e))
    let codes := (c.auxVoltages e m).map (auxCode vref gain)
    let at_ (i : Nat) : Int := (codes[i]?).getD 0
    let code := at_ 0 - (if mode = 0 then 0 else at_ mode)
    let fault := s.auxFault c e m
    let volts := auxVolts vref gain code
    let fmt := c.fld (AUX_ENT_TIME.FORMAT e)
    let value : Int :=
      if fmt = 2 && c.flag (AUX_ENT_SEL.EXC_EN e) then auxOhms volts current
      else if fmt = 1 || fmt = 2 then auxSat (roundRat (volts * 256))
      else auxSat code
    { value := if fault = 0 then toBits 32 value else auxNone
      lead := if mode = 0 then 0 else toBits 32 (auxOhms (auxVolts vref gain (at_ 1)) current)
      overrange := codes.any (fun x => x == -8388608 || x == 8388607)
      fault := fault }

/-- A paused input was active since `t`, or is. -/
def State.auxBlanked (s : State) (t : Nat) : Bool :=
  [0, 1].any (fun i => s.flag (if i = 0 then AUX_BLANK0_CFG.PAUSE else AUX_BLANK1_CFG.PAUSE) && s.blankedSince i t)

/-- The aligned value of an entry from its latest four values; none while one is missing (R349). DEDUCED, log entry 68. -/
def auxAligned (frac : Nat) : List (Option Int) → Option Int
  | some x0 :: some x1 :: some x2 :: some x3 :: _ => some (auxSat (roundDiv (alignSum frac x0 x1 x2 x3) 65536))
  | _ => none

/-- The sample an entry delivers in the product (R349, R350). -/
def State.auxSample (s : State) (c : Cfg) (e frac flags value instant : Nat) : Option AuxSample :=
  if c.auxAligns e then
    (auxAligned frac (SMap.get (fun _ => []) s.aux.hist e)).map (fun v => ⟨e, flags, toBits 32 v, s.aux.prev⟩)
  else some ⟨e, flags, value, instant⟩

/-- Bytes of a sample (chapter 13). -/
def AuxSample.bytes (x : AuxSample) : List Byte :=
  leBytes 1 x.entry ++ leBytes 1 x.flags ++ zeroBytes 2 ++ leBytes 4 x.value ++ leBytes 8 x.instant

/-- The end of a pass (R350). DEDUCED, log entry 68. -/
def State.auxPassEnd (s : State) : State :=
  let c : Cfg := s.aux.cfg
  let num := (s.reg AUX_PASS_NUM.reg).toNat
  let xs := s.aux.samples
  let s := (s.setFlag AUX_STATUS.BUSY false).setFld AUX_STATUS.ENTRY 0
  let s :=
    if Cfg.flag c AUX_SEQ_CFG.OUT_EN then
      s.pushBlock 22 0x0B (leBytes 8 s.aux.start ++ leBytes 4 num ++ leBytes 1 xs.length ++ zeroBytes 3)
        (xs.flatMap AuxSample.bytes)
    else s
  if Cfg.flag c AUX_SEQ_CFG.DONE_EV then s.raiseEvent 60 num else s

/-- The entry's registers, counter and event (R338, R343). -/
def State.auxStore (s : State) (e frac : Nat) (r : AuxResult) (unsettled blanked : Bool) : State :=
  let s := (s.setNat (AUX_ENT_VALUE.reg e) r.value).setNat (AUX_ENT_LEAD.reg e) r.lead
  let s := s.setNat (AUX_ENT_STATUS.reg e)
    (bitAt unsettled 31 + bitAt (r.fault != 0) 30 + bitAt blanked 29 + bitAt r.overrange 28 + frac)
  if r.fault = 0 then s else (s.bump AUX_EXC_FAULT_COUNT.reg).raiseEvent 61 (e + r.fault)

/-- AUX_CONVERSION_COMPLETE (R335–R343, R349, R350): the entry under way delivers its value to the trigger engine and
the product, and the pass ends after its last entry. While the sequencer is paused only a conversion already under way
completes (R352). -/
def execAuxConversionComplete (m : AuxMeas) (differs : BitVec 16) (s : State) : Host.Outcome State Fault Refusal :=
  .next (
    if !s.flag AUX_STATUS.BUSY then s
    else
      let c : Cfg := s.aux.cfg
      let e := s.fld AUX_STATUS.ENTRY
      let starts := s.auxStarts c e m
      if s.auxPaused && starts.any (fun t => decide (s.aux.pauseAt ≤ t)) then s
      else
      let r := s.auxResult c e m
      let unsettled := starts.any (fun t => !s.refOkAt (c.fld (AUX_ENT_SEL.REF e)) t)
      let span := ((c.auxTime e - 4 - 10) * 200)
      let blanked := s.auxBlanked (s.time - span)
      let frac := if Cfg.auxAligns c e then s.auxFrac c e else 0
      let s := s.auxStore e frac r unsettled blanked
      let v : Option Int := if r.value = auxNone then none else some (ofBits 32 r.value)
      let h := v :: (SMap.get (fun _ => []) s.aux.hist e).take 3
      let s := s.putAux { s.aux with hist := SMap.put (fun _ => []) s.aux.hist e h }
      let flags := bitAt unsettled 0 + bitAt (r.fault != 0) 1 + bitAt blanked 2
      let xs := (s.auxSample c e frac flags r.value m.instant).toList
      let s := s.putAux { s.aux with samples := s.aux.samples ++ xs, entryAt := s.time + 2000 }
      let s := match v with
        | some x => s.evalSource 4 e (fun _ => some { value := x, time := m.instant, span := m.instant }) differs
        | none => s
      if Cfg.fld c AUX_SEQ_CFG.LAST ≤ e then s.auxPassEnd else s.setFld AUX_STATUS.ENTRY (e + 1))

/-! Housekeeping (R348, R413, R420). -/

/-- The internal channels in the order of the housekeeping cycle. DEDUCED, log entry 69. -/
def hkChannel (i : Nat) : Nat := if i % 21 < 13 then 0x10 + i % 21 else 0x20 + (i % 21 - 13)

/-- Nominal voltage of a supervised rail in µV (R416). DEDUCED, log entry 69. -/
def railNominal (c : Nat) : Option Nat :=
  match c with
  | 0x14 => some 750000
  | 0x15 => some 1800000
  | 0x16 => some 1800000
  | 0x17 => some 1050000
  | 0x18 => some 500000
  | 0x19 => some 1800000
  | 0x1A => some 1800000
  | 0x1B => some 3300000
  | 0x1C => some 3300000
  | _ => none

/-- Warning temperature of a die in 0.01 °C (R419); the source die has none. -/
def State.dieWarn (s : State) (d : Nat) : Option Int :=
  let m : Int := 100 * max 1 (s.fld PWR_CFG.WARN_MARGIN)
  match d with
  | 1 => some (9500 - m)
  | 2 => some (10500 - m)
  | 3 => if s.part = .wv2406 then none else some (10500 - m)
  | 4 => some (11000 - m)
  | 5 => some (10500 - m)
  | 6 => if s.part = .wv2406 then none else some (10500 - m)
  | 7 => some (11500 - m)
  | _ => none

/-- How far each die lies below its warning temperature. -/
def State.dieMargins (s : State) : List (Nat × Int) :=
  (List.range 8).filterMap (fun d => (s.dieWarn d).map (fun w => (d, w - ofBits 16 (s.dieTemp d))))

/-- The die closest to its warning temperature, the lowest code on a tie. -/
def hottest : List (Nat × Int) → Nat
  | [] => 0
  | m :: ms => (ms.foldl (fun a b => if b.2 < a.2 then b else a) m).1

/-- A new reading of die `d` in 0.01 °C: the thermal warning and the calibration trigger (R420, R437). -/
def State.dieReading (s : State) (d : Nat) (t : Int) : State :=
  let s := s.putCal { s.cal with temps := SMap.put (fun _ => 0) s.cal.temps d (toBits 16 t) }
  let ms := s.dieMargins
  let s := s.setFld PWR_STATUS.HOT_DIE (hottest ms)
  let s :=
    if ms.any (fun m => m.1 == d && decide (m.2 ≤ 0)) && !s.flag PWR_STATUS.THERM_WARN then
      let s := (s.setFlag PWR_STATUS.THERM_WARN true).setFlag PWR_STATUS.THERM_SEEN true
      ((s.bump PWR_THERM_COUNT.reg).raiseEvent 58 (d + toBits 16 (roundDiv t 10) * 2 ^ 16)).diagEvent 0x16 15
    else if ms.all (fun m => decide (200 ≤ m.2)) then s.setFlag PWR_STATUS.THERM_WARN false
    else s
  s.calTempTest

/-- A new reading of channel `c` in the unit of R344. DEDUCED, log entry 69. -/
def State.hkReading (s : State) (c : Nat) (v : Int) : State :=
  let s := s.setNat (AUX_HK.reg c) (toBits 32 v)
  let s := if c = 0x12 then s.setFld PWR_STATUS.VIN_MV (satNat 16 (roundDiv v 1000).toNat) else s
  let s :=
    match railNominal c with
    | some n => if v * 100 < (95 * n : Nat) || (105 * n : Nat) < v * 100 then s.diagEvent 0x11 15 else s
    | none => s
  if 0x20 ≤ c then s.dieReading (c - 0x20) (roundDiv v 10) else s

/-- HK_CONVERSION (R348): the next channel of the cycle. An absent channel keeps 0x8000_0000. `late`: it had waited 10 ms. -/
def execHkConversion (value : BitVec 32) (late : Bool) (s : State) : Host.Outcome State Fault Refusal :=
  .next (
    if s.supply.inReset then s
    else
      let c := hkChannel s.aux.hkPos
      let s := s.putAux { s.aux with hkPos := (s.aux.hkPos + 1) % 21 }
      let s := if late then s.bump AUX_HK_LATE_COUNT.reg else s
      if s.hkPresent c then s.hkReading c value.toInt else s)

end Sys2Proof.Machine
end

