-- ==== Sys2Proof/Machine/Operands.lean ====
section
/-!
DEFINITION. Operand forms of the analysis-core instructions: the fields of the formats of R235, register pairs and lanes
(R230), and effective addresses (R234).
-/
namespace Sys2Proof.Machine

/-- Bits `[hi:lo]` of an instruction word. -/
def bitsAt (w : Word) (hi lo : Nat) : Nat := w.toNat / 2 ^ lo % 2 ^ (hi - lo + 1)

/-- Fields of the formats (R235). -/
def fOp (w : Word) : Nat := bitsAt w 31 26
def fD (w : Word) : Nat := bitsAt w 25 22
def fA (w : Word) : Nat := bitsAt w 21 18
def fB (w : Word) : Nat := bitsAt w 17 14
def fImm (w : Word) : Nat := bitsAt w 17 0
def fImmS (w : Word) : Int := ofBits 18 (fImm w)
def fP (w : Word) : Nat := bitsAt w 21 19
def fPost (w : Word) : Bool := bitsAt w 18 18 == 1
def fS (w : Word) : Nat := bitsAt w 21 16
def fC (w : Word) : Nat := bitsAt w 25 24
def fSrc (w : Word) : Nat := bitsAt w 15 14
def fSh (w : Word) : Nat := bitsAt w 13 12
def fPa (w : Word) : Nat := bitsAt w 10 8
def fEnd (w : Word) : Nat := bitsAt w 10 0
def fCount (w : Word) : Nat := bitsAt w 25 11
def fCode (w : Word) : Nat := bitsAt w 7 0

/-- Bits that a format marks 0 (R235). -/
def zeroR (w : Word) : Bool := bitsAt w 13 0 == 0
def zeroS (w : Word) : Bool := bitsAt w 15 0 == 0
def zeroC (w : Word) : Bool := bitsAt w 13 8 == 0
def zeroB (w : Word) : Bool := bitsAt w 13 11 == 0
def zeroA (w : Word) : Bool := bitsAt w 23 22 == 0 && bitsAt w 11 11 == 0 && bitsAt w 7 0 == 0

/-- X register `i`. -/
def Core.getX (c : Core) (i : Nat) : Word := c.x[i % 16]'(Nat.mod_lt _ (by decide))
def Core.setX (c : Core) (i : Nat) (v : Word) : Core := { c with x := c.x.set (i % 16) v (Nat.mod_lt _ (by decide)) }

/-- Pointer `i`, its base and its length, with the low three bits of both ignored (R228). -/
def Core.getP (c : Core) (i : Nat) : BitVec 18 := c.p[i % 8]'(Nat.mod_lt _ (by decide))
def Core.setP (c : Core) (i : Nat) (v : BitVec 18) : Core :=
  { c with p := c.p.set (i % 8) v (Nat.mod_lt _ (by decide)) }
def Core.base (c : Core) (i : Nat) : Nat := (c.pb[i % 8]'(Nat.mod_lt _ (by decide))).toNat / 8 * 8
def Core.len (c : Core) (i : Nat) : Nat := (c.pl[i % 8]'(Nat.mod_lt _ (by decide))).toNat / 8 * 8

/-- Accumulator `i` as an integer. -/
def Core.getAcc (c : Core) (i : Nat) : Int := (c.acc[i % 4]'(Nat.mod_lt _ (by decide))).toInt
def Core.setAcc (c : Core) (i : Nat) (v : Int) : Core :=
  { c with acc := c.acc.set (i % 4) (BitVec.ofInt 48 v) (Nat.mod_lt _ (by decide)) }

/-- An address reduced into pointer `i`'s circular range, or wrapped modulo 2¹⁸ (R234). -/
def Core.circ (c : Core) (i : Nat) (v : Int) : Nat :=
  if c.len i = 0 then toBits 18 v
  else toBits 18 ((c.base i : Int) + (v - (c.base i : Int)) % (c.len i : Int))

/-- Effective address through pointer `p` with an offset, and the pointer's new value (R234). -/
def Core.address (c : Core) (p : Nat) (post : Bool) (off : Int) : Nat × BitVec 18 :=
  let v : Int := (c.getP p).toNat
  if post then (c.circ p v, BitVec.ofNat 18 (c.circ p (v + off))) else (c.circ p (v + off), c.getP p)

/-- The four int16 lanes of a double word's bytes (R230). -/
def lanesOf : List Byte → List Int
  | a :: b :: t => ofBits 16 (leVal [a, b]) :: lanesOf t
  | _ => []

/-- The bytes of a register pair Xn, Xn+1. -/
def Core.pairBytes (c : Core) (n : Nat) : List Byte := leBytes 4 (c.getX n).toNat ++ leBytes 4 (c.getX (n + 1)).toNat

/-- The lanes of a register pair. -/
def Core.lanes (c : Core) (n : Nat) : List Int := lanesOf (c.pairBytes n)

/-- Write a register pair from eight bytes. -/
def Core.setPair (c : Core) (n : Nat) (bs : List Byte) : Core :=
  (c.setX n (Word.of (leVal (bs.take 4)))).setX (n + 1) (Word.of (leVal (bs.drop 4)))

/-- Lane products of two lane lists. -/
def laneProducts (xs ys : List Int) : List Int := List.zipWith (· * ·) xs ys

/-- Register masks of what an instruction uses (R240). -/
def mask (i : Nat) : Nat := 2 ^ i
def pairMask (n : Nat) : Nat := 2 ^ n + 2 ^ (n + 1)

end Sys2Proof.Machine
end

