-- ==== Sys2Proof/Machine/Flags.lean ====
section
/-!
DEFINITION. The flag computations of the analysis cores: saturating arithmetic, accumulation, moves out of accumulators
and redundant sign bits, with the sticky FLAGS bits they set (R229, R231–R233).
-/
namespace Sys2Proof.Machine

/-- FLAGS bits (R229): AOV0–AOV3 are bits 0–3. -/
def flagSat : Nat := 4
def flagDfail : Nat := 5
def flagGap : Nat := 6

/-- Set a sticky flag. -/
def Core.raise (c : Core) (i : Nat) : Core := { c with flags := BitVec.ofNat 7 (putBit c.flags.toNat i true) }

/-- Set a sticky flag when a condition holds. -/
def Core.raiseIf (c : Core) (b : Bool) (i : Nat) : Core := if b then c.raise i else c

/-- Write a saturated 32-bit result, setting SAT when it saturates (R231). -/
def Core.setSat (c : Core) (i : Nat) (v : Int) : Core :=
  (c.setX i (BitVec.ofInt 32 (satInt 32 v))).raiseIf (decide (satInt 32 v ≠ v)) flagSat

/-- Accumulate into ACCn, saturating to 48 bits and setting AOVn (R231). -/
def Core.accumulate (c : Core) (n : Nat) (v : Int) : Core :=
  let sum := c.getAcc n + v
  (c.setAcc n (satInt 48 sum)).raiseIf (decide (satInt 48 sum ≠ sum)) (n % 4)

/-- A product shifted right by 0, 8, 16 or 24 bits, to nearest with ties away from zero (R231). -/
def shifted (sh : Nat) (v : Int) : Int := roundDiv v (2 ^ (8 * sh))

/-- Sum of shifted products. -/
def shiftedSum (sh : Nat) (vs : List Int) : Int := vs.foldl (fun a v => a + shifted sh v) 0

/-- Accumulate one shifted product into each accumulator in turn (VMAC). -/
def Core.accumulateLanes (c : Core) (sh : Nat) : Nat → List Int → Core
  | _, [] => c
  | n, v :: vs => (c.accumulate n (shifted sh v)).accumulateLanes sh (n + 1) vs

/-- The scaling shift in force: values 48–63 act as 47 (R228). -/
def Core.shift (c : Core) : Nat := min c.shf.toNat 47

/-- A move out of ACCn before saturation (R232). -/
def Core.moved (c : Core) (n : Nat) : Int := roundDiv (c.getAcc n) (2 ^ c.shift)

/-- A move out saturated to `w` bits, with whether it saturated. -/
def Core.moveOut (c : Core) (n w : Nat) : Int × Bool :=
  (satInt w (c.moved n), decide (satInt w (c.moved n) ≠ c.moved n))

/-- Bit length of a natural number. -/
def bitLen (n : Nat) : Nat := if n = 0 then 0 else Nat.log2 n + 1

/-- The number of bits below the sign bit that equal it (R233). -/
def redundantBits (w : Nat) (v : Int) : Nat := w - 1 - bitLen (if 0 ≤ v then v.toNat else (-v - 1).toNat)

end Sys2Proof.Machine
end

