-- ==== Sys2Proof/Machine/CoreExec.lean ====
section
/-!
DEFINITION. Issuing one instruction on an analysis core: fetch, stalls (R240), repeats (R238), faults (R249), waits and
the scratchpad's error checks (R251, R256).
-/
namespace Sys2Proof.Machine

/-- What an instruction uses that a recent producer may not have ready (R240): masks of X registers, pointers used as
addresses, and accumulators read by a move out or as ADDA's source; and whether it uses SHF. -/
structure Use where
  x : Nat := 0
  p : Nat := 0
  acc : Nat := 0
  shf : Bool := false
  deriving DecidableEq, Repr

/-- How an instruction ends: a fault; completion, sequential or by a jump, with its issue cycles; a wait; a halt. -/
inductive Exit where
  | fault (cause : Nat)
  | seq (c : Core) (cycles : Nat)
  | jump (c : Core) (target cycles : Nat)
  | wait (code : Nat)
  | halt
  deriving DecidableEq, Repr

/-- Masks share a bit. DEDUCED, log entry 4. -/
def meets (a b : Nat) : Bool := (BitVec.ofNat 32 a &&& BitVec.ofNat 32 b) != 0

/-- Stall cycles before an instruction (R240). -/
def stallOf (h : Hazard) (u : Use) : Nat :=
  if meets h.ptr1 u.p then 2
  else if meets h.x u.x || meets h.acc u.acc || meets h.ptr2 u.p || (h.shf && u.shf) then 1
  else 0

/-- The instruction word at an address of program memory. -/
def Core.insn (c : Core) (pc : Nat) : Word := SMap.get (fun _ => 0) c.pmem pc

/-- The next address after sequential completion at `pc`, with the repeat stack left (R238). -/
def nextPc (pc : Nat) : List Level → Nat × List Level
  | [] => (pc + 1, [])
  | l :: ls =>
    if l.last = pc then
      if 1 < l.count then (l.first, { l with count := l.count - 1 } :: ls) else nextPc pc ls
    else (pc + 1, l :: ls)

/-- Count issue and stall cycles (R229, ACRk_BUSY_CYCLES, ACRk_STALL_CYCLES). -/
def State.countCycles (s : State) (k cycles stall : Nat) : State :=
  let c := s.core k
  let s := s.setCore k { c with cycles := c.cycles + BitVec.ofNat 64 (cycles + stall) }
  let s := s.setReg64 (ACR_BUSY_CYCLES_LO.reg k) (s.reg64 (ACR_BUSY_CYCLES_LO.reg k) + cycles + stall)
  s.setReg64 (ACR_STALL_CYCLES_LO.reg k) (s.reg64 (ACR_STALL_CYCLES_LO.reg k) + stall)

/-- Set the program counter; a fetch beyond 2,047 is a PC_RANGE fault whose PC and word the manual leaves open (R237, R249).
UNVERIFIED, log entry 108. -/
def State.goto (s : State) (k pc : Nat) : State :=
  if pc < 2048 then s.setCore k { s.core k with pc := BitVec.ofNat 11 pc }
  else
    let v := s.freeVal
    let s := s.drawFree
    s.drawFree.coreFault k faultPc v (Word.of s.freeVal)

/-- Complete an instruction: its registers, hazards and cycles, then the program counter. -/
def State.retire (s : State) (k : Nat) (made : Hazard) (c : Core) (cycles stall : Nat) (jump : Option Nat) : State :=
  let old := s.core k
  -- a stall before this instruction made the pointer ready (R240)
  let c := { c with hz := { made with ptr2 := if stall = 0 then old.hz.ptr1 else 0 } }
  match jump with
  | some t => ((s.setCore k c).countCycles k cycles stall).goto k t
  | none =>
    let (t, st) := nextPc old.pc.toNat c.stack
    ((s.setCore k { c with stack := st }).countCycles k cycles stall).goto k t

/-- The end of an instruction. -/
def State.conclude (s : State) (k : Nat) (w : Word) (made : Hazard) (stall : Nat) : Exit → State
  | .fault cause => s.coreFault k cause (s.core k).pc.toNat w
  | .seq c cycles => s.retire k made c cycles stall none
  | .jump c t cycles => s.retire k made c cycles stall (some t)
  | .wait code =>
    (s.setCore k { s.core k with st := .waiting, wait := code, waitAt := s.time, lastStore := none, hz := {} }).countCycles k 1 stall
  | .halt => (s.countCycles k 1 stall).beginStop k stopHalt

/-- One instruction: what it uses, what it leaves, and what it does, given the record of a
store issued directly before it with no stall between (R241). -/
structure Insn where
  use : Use := {}
  made : Hazard := {}
  run : Core → Option (Nat × List Byte) → Exit

/-- The store whose write meets this instruction's read in one cycle (R241). -/
def Core.overlap (c : Core) (stall : Nat) : Option (Nat × List Byte) := if stall = 0 then c.lastStore else none

/-- Issue the instruction at the program counter of core `k`, whose word must carry opcode `op`; a parity error on the fetch
is a PMEM_PARITY fault. A store's record of old bytes lasts for the next instruction only (R241). UNVERIFIED, log entry 3;
DEDUCED, log entry 4. -/
def State.issue (s : State) (k op : Nat) (parity : Bool) (f : Word → Insn) : State :=
  let c := s.core k
  if !c.executes then s
  else if parity then s.drawFree.coreFault k faultParity c.pc.toNat (Word.of s.freeVal)
  else
    let w := c.insn c.pc.toNat
    if fOp w ≠ op then s
    else
      let i := f w
      let stall := stallOf c.hz i.use
      s.conclude k w i.made stall (i.run { c with lastStore := none } (c.overlap stall))

/-! Scratchpad error checks (R256). -/

/-- Record an error: counters, the latest error, and EV40. Reader: 0 core, 1 merge, 2 output, 3 DMAW, 4 host. -/
def State.spmError (s : State) (k reader addr : Nat) (ue : Bool) : State :=
  let s := s.setNat (ACR_SPM_ECC_ADDR.reg k) (bitAt ue 31 + reader * 2 ^ 28 + addr % 2 ^ 18)
  if ue then (s.bump (ACR_SPM_UE_COUNT.reg k)).raiseSram k true addr
  else
    let s := s.bump (ACR_SPM_CE_COUNT.reg k)
    let t := s.fld (ACR_SPM_CFG.CE_THRESH k)
    if t ≠ 0 && (s.reg (ACR_SPM_CE_COUNT.reg k)).toNat % t = 0 then s.raiseSram k false addr else s

/-- Bits of an error pattern: the number that are set. -/
def weight {w : Nat} (e : BitVec w) : Nat := (List.range w).foldl (fun n i => if e.getLsbD i then n + 1 else n) 0

/-- Upsets flip stored bits of a core's scratchpad. -/
def Core.upset (c : Core) (ups : Upsets) : Core :=
  { c with errs := ups.foldl (fun m u =>
      SMap.put (fun _ => 0) m (u.1.val / 4) (SMap.get (fun _ => 0) m (u.1.val / 4) ^^^ u.2)) c.errs }

/-- Upsets of core `k`'s scratchpad. -/
def State.upset (s : State) (k : Nat) (ups : Upsets) : State :=
  if ups = [] then s else s.setCore k ((s.core k).upset ups)

/-- Words that `n` bytes from address `a` lie in are written whole, with valid check bits (R256). -/
def Core.clean (c : Core) (a n : Nat) : Core :=
  { c with errs := c.errs.filter (fun e => !(decide (a / 4 ≤ e.1) && decide (e.1 < ceilDiv (a + n) 4))) }

/-- The errors a read of `n` bytes from address `a` finds, word by word: byte address, and whether uncorrectable. One flipped bit
is corrected; more are uncorrectable (R256). UNVERIFIED, log entry 126. -/
def Core.findings (c : Core) (a n : Nat) : List (Nat × Bool) :=
  (c.errs.filter (fun e => decide (a / 4 ≤ e.1) && decide (e.1 < ceilDiv (a + n) 4))).map
    (fun e => (4 * e.1, decide (1 < weight e.2)))

/-- The check of a read of `n` bytes from address `a` of core `k`'s scratchpad; answers whether an error is uncorrectable. -/
def State.spmCheck (s : State) (k reader a n : Nat) : State × Bool :=
  let fs := (s.core k).findings a n
  (fs.foldl (fun s e => s.spmError k reader e.1 e.2) s, fs.any (·.2))

/-- A memory instruction: the address and length of its read, if it reads, and the instruction itself. -/
structure MemInsn where
  insn : Insn
  read : Core → Option (Nat × Nat)
  reader : Nat := 0

/-- The read that the instruction at the program counter of core `k` makes: none where it does not issue, or faults on its
address. -/
def State.memRead (s : State) (k op : Nat) (parity : Bool) (f : Word → MemInsn) : Option (Nat × Nat) :=
  let c := s.core k
  let w := c.insn c.pc.toNat
  let m := f w
  if !c.executes || parity || fOp w ≠ op then none
  else
    match m.insn.run { c with lastStore := none } (c.overlap (stallOf c.hz m.insn.use)) with
    | .fault _ => none
    | _ => m.read c

/-- Issue a memory instruction after upsets of the scratchpad: the check applies to a read that is made. An uncorrectable error
faults the core before the instruction completes (R256). -/
def State.issueMem (s : State) (k op : Nat) (parity : Bool) (ups : Upsets) (f : Word → MemInsn) : State :=
  let s := s.upset k ups
  let c := s.core k
  let w := c.insn c.pc.toNat
  match s.memRead k op parity f with
  | none => s.issue k op parity (fun w => (f w).insn)
  | some (a, n) =>
    match s.spmCheck k (f w).reader a n with
    | (s, true) => s.coreFault k faultEcc c.pc.toNat w
    | (s, false) => s.issue k op parity (fun w => (f w).insn)

/-! Resuming a waiting core (R244–R246). -/

/-- Cycles of the core clock in a span of ticks: 2.5 to the tick (R18). -/
def coreCycles (ticks : Nat) : Nat := ticks * 5 / 2

/-- Re-issue the waiting instruction of a core: `f` is its meaning by its word. The cycles of the wait count since start, but
not as busy (R240). DEDUCED, log entry 4. -/
def State.resume (s : State) (k : Nat) (f : Word → Option Insn) : State :=
  let c := s.core k
  if c.st = .waiting ∧ c.stopping = none then
    let w := c.insn c.pc.toNat
    match f w with
    | none => s
    | some i =>
      match i.run c none with
      | .seq c' _ =>
        let n := BitVec.ofNat 64 (coreCycles (s.time - c.waitAt))
        s.retire k i.made { c' with st := .running, wait := 0, cycles := c'.cycles + n } 0 0 none
      | _ => s
  else s

end Sys2Proof.Machine
end

