-- ==== Sys2Proof/Machine/CoreFlow.lean ====
section
/-!
DEFINITION. Branches, repeats, feed, output, transfer, pointer and special-register instructions of the analysis cores (R229, R234, R236–R239, R244–R248).
-/
namespace Sys2Proof.Machine

/-- The condition of Bcc (R237); `none` for a reserved code. -/
def branchTaken (cond : Nat) (a b : Word) : Option Bool :=
  match cond with
  | 0x0 => some true
  | 0x1 => some (a == b)
  | 0x2 => some (a != b)
  | 0x3 => some (decide (a.toInt < b.toInt))
  | 0x4 => some (decide (b.toInt ≤ a.toInt))
  | 0x5 => some (decide (a.toNat < b.toNat))
  | 0x6 => some (decide (b.toNat ≤ a.toNat))
  | 0x7 => some (a == 0)
  | 0x8 => some (a != 0)
  | 0x9 => some (decide (a.toInt < 0))
  | 0xA => some (decide (0 ≤ a.toInt))
  | 0xB => some (decide (0 < a.toInt))
  | 0xC => some (decide (a.toInt ≤ 0))
  | _ => none

/-- Bcc: 1 cycle not taken, 3 taken; a taken branch never tests a repeat (R237, R239). -/
def insnBcc (w : Word) : Insn where
  -- J uses neither register, and a comparison with zero only Xa
  use := { x := if fD w = 0 then 0 else if 7 ≤ fD w then mask (fA w) else mask (fA w) ||| mask (fB w) }
  run := fun c _ =>
    if !zeroB w then .fault faultIllegal
    else match branchTaken (fD w) (c.getX (fA w)) (c.getX (fB w)) with
      | none => .fault faultIllegal
      | some true => .jump c (fEnd w) 3
      | some false => .seq c 1

/-- JAL: X15 takes PC + 1; cond, a and b must be 0 (R236). -/
def insnJal (w : Word) : Insn where
  run := fun c _ =>
    if zeroB w && fD w == 0 && fA w == 0 && fB w == 0 then .jump (c.setX 15 (Word.of (c.pc.toNat + 1))) (fEnd w) 3
    else .fault faultIllegal

/-- JR: Xa above 2,047 is a PC_RANGE fault; the target field must be 0 (R236). -/
def insnJr (w : Word) : Insn where
  use := { x := mask (fA w) }
  run := fun c _ =>
    if !(zeroB w && fEnd w == 0) then .fault faultIllegal
    else if 2047 < (c.getX (fA w)).toNat then .fault faultPc
    else .jump c (c.getX (fA w)).toNat 3

/-- An end address lies within the innermost active level (R238). -/
def Core.within (c : Core) (last : Nat) : Bool :=
  match c.stack with
  | [] => true
  | l :: _ => decide (last ≤ l.last)

/-- A repeat of `count` passes over the instructions up to `last` (R238). -/
def Core.repeat' (c : Core) (count last : Nat) : Exit :=
  let pc := c.pc.toNat
  if last < pc + 1 || !c.within last then .fault faultIllegal
  else if c.stack.length = 4 then .fault faultRep
  else if count = 0 then .jump c (last + 1) 3
  else .jump { c with stack := ⟨pc + 1, last, count⟩ :: c.stack } (pc + 1) 2

/-- REPI: an unsigned 15-bit count (R238). -/
def insnRepi (w : Word) : Insn where
  run := fun c _ => c.repeat' (fCount w) (fEnd w)

/-- REPR: the count from Xa, unsigned (R238). -/
def insnRepr (w : Word) : Insn where
  use := { x := mask (fA w) }
  run := fun c _ =>
    if fD w == 0 && bitsAt w 17 11 == 0 then c.repeat' (c.getX (fA w)).toNat (fEnd w) else .fault faultIllegal

/-- WAITF: take the oldest ready slot, or wait (R244). `addr` gives a slot's scratchpad address. -/
def insnWaitf (addr : Nat → Nat) (w : Word) : Insn where
  run := fun c _ =>
    if !zeroC w then .fault faultIllegal
    else match c.ready with
      | [] => .wait 1
      | i :: t => .seq { c.setX (fD w) (Word.of (addr i)) with ready := t, held := c.held ++ [i] } 1

/-- RELF: release the oldest slot held; with none held, a FEED_SLOT fault (R244). -/
def insnRelf (w : Word) : Insn where
  run := fun c _ =>
    if !zeroC w then .fault faultIllegal
    else match c.held with
      | [] => .fault faultSlot
      | _ :: t => .seq { c with held := t } 1

/-- OUT: queue Xb bytes from address Xa, or wait while four are queued (R245). -/
def insnOut (time : Nat) (en : Bool) (w : Word) : Insn where
  use := { x := mask (fA w) ||| mask (fB w) }
  run := fun c _ =>
    let a := (c.getX (fA w)).toNat
    let n := (c.getX (fB w)).toNat
    if !zeroC w then .fault faultIllegal
    else if a % 8 != 0 || n == 0 || decide (65536 < n) || decide (2 ^ 18 < a + n) then .fault faultOut
    else if 4 ≤ c.outQ.length then .wait 2
    else .seq { c with outQ := c.outQ ++ [⟨a, n, time, en⟩] } 1

/-- WAITO: wait until no output is queued (R236). -/
def insnWaito (w : Word) : Insn where
  run := fun c _ => if !zeroC w then .fault faultIllegal else if c.outQ = [] then .seq c 1 else .wait 2

/-- DMAR and DMAW (R246): `size` is the buffer in bytes; `dead` says that the DRAM is frozen or failed training, when the
transfer completes at once without moving data and sets FLAGS.DFAIL. -/
def insnDma (write : Bool) (size : Nat) (dead : Bool) (w : Word) : Insn where
  use := { x := mask (fD w) ||| mask (fA w) ||| mask (fB w) }
  run := fun c _ =>
    let d := (c.getX (fD w)).toNat
    let a := (c.getX (fA w)).toNat
    let n := (c.getX (fB w)).toNat
    if !zeroC w then .fault faultIllegal
    else if d % 8 != 0 || a % 8 != 0 || n % 8 != 0 || decide (n < 8) || decide (65536 < n) || decide (2 ^ 18 < d + n)
        || decide (size < a + n) then .fault faultDma
    else if dead then .seq (c.raise flagDfail) 1
    else if 4 ≤ c.dmaQ.length then .wait 3
    else .seq { c with dmaQ := c.dmaQ ++ [⟨write, d, a, n⟩] } 1

/-- WAITD: wait until no transfer is queued or in progress (R246). -/
def insnWaitd (w : Word) : Insn where
  run := fun c _ => if !zeroC w then .fault faultIllegal else if c.dmaQ = [] then .seq c 1 else .wait 3

/-- Bytes of the core's DRAM buffer: SIZE_MIB above 1,024 acts as 1,024 (R246). -/
def State.coreDramSize (s : State) (k : Nat) : Nat := min 1024 (s.fld (ACR_DRAM.SIZE_MIB k)) * 2 ^ 20

/-- Scratchpad address of slot `i` (R243). -/
def State.slotAddr (s : State) (k i : Nat) : Nat := s.slotBase k + i * s.slotSize k

/-- The waiting instructions of a core, for their resumption. -/
def State.waitInsn (s : State) (k : Nat) (w : Word) : Option Insn :=
  match fOp w with
  | 0x19 => some (insnWaitf (s.slotAddr k) w)
  | 0x1B => some (insnOut s.time (s.flag (ACR_OUT_CFG.EN k)) w)
  | 0x1C => some (insnWaito w)
  | 0x1D => some (insnDma false (s.coreDramSize k) s.dramDead w)
  | 0x1E => some (insnDma true (s.coreDramSize k) s.dramDead w)
  | 0x1F => some (insnWaitd w)
  | _ => none

/-- A waiting core goes on when its condition holds. -/
def State.wake (s : State) (k : Nat) : State := s.resume k (s.waitInsn k)

/-- MOVP: Pp := Xx[17:0] (R236). -/
def insnMovp (w : Word) : Insn where
  use := { x := mask (fD w) }
  made := { ptr1 := mask (fP w) }
  run := fun c _ =>
    if bitsAt w 18 0 == 0 then .seq (c.setP (fP w) ((c.getX (fD w)).setWidth 18)) 1 else .fault faultIllegal

/-- MVP: Xx := Pp, zero-extended (R236). -/
def insnMvp (w : Word) : Insn where
  run := fun c _ =>
    if bitsAt w 18 0 == 0 then .seq (c.setX (fD w) ((c.getP (fP w)).setWidth 32)) 1 else .fault faultIllegal

/-- ADDP: Pp := Pp + imm18, circular; x must be 0 (R234, R236). -/
def insnAddp (w : Word) : Insn where
  use := { p := mask (fP w) }
  run := fun c _ =>
    if fPost w || fD w != 0 then .fault faultIllegal
    else .seq (c.setP (fP w) (BitVec.ofNat 18 (c.circ (fP w) ((c.getP (fP w)).toNat + fImmS w)))) 1

/-- MTS: a write to a read-only number or to 0x1F and above is ILLEGAL (R229). -/
def insnMts (w : Word) : Insn where
  use := { x := mask (fD w) }
  made := { ptr1 := if fS w < 16 then mask (fS w % 8) else 0, shf := fS w == 0x14 }
  run := fun c _ =>
    let v := c.getX (fD w)
    let n := fS w
    if !zeroS w then .fault faultIllegal
    else if n < 8 then .seq { c with pb := c.pb.set (n % 8) (v.setWidth 18) (Nat.mod_lt _ (by decide)) } 1
    else if n < 16 then .seq { c with pl := c.pl.set (n % 8) (v.setWidth 18) (Nat.mod_lt _ (by decide)) } 1
    else if n = 0x14 then .seq { c with shf := v.setWidth 6 } 1
    else if n = 0x15 then .seq { c with flags := v.setWidth 7 } 1
    else .fault faultIllegal

/-- MFS: reading CYCLE_LO or TIME_LO latches its high word; 0x1F and above is ILLEGAL (R229). -/
def insnMfs (read : Nat → Word) (time : Nat) (w : Word) : Insn where
  run := fun c _ =>
    let n := fS w
    if !zeroS w || decide (0x1E < n) then .fault faultIllegal
    else
      let c' := c.setX (fD w) (read n)
      if n = 0x1B then .seq { c' with cycleHi := (c.cycles >>> 32).setWidth 32 } 1
      else if n = 0x1D then .seq { c' with timeHi := Word.of (time / 2 ^ 32) } 1
      else .seq c' 1

/-- A core executes SIG and completes it: CODE, count and EV42 (R236). -/
def State.signal (s : State) (k : Nat) : State :=
  let c := s.core k
  let w := c.insn c.pc.toNat
  if c.executes && fOp w == 0x2D && zeroC w then
    let s := s.setFld (ACR_SIG.CODE k) (fCode w)
    (s.bump (ACR_SIG_COUNT.reg k)).raiseEvent 42 (k + fCode w * 256)
  else s

/-- Bcc (R237). -/
def execBcc (k : Fin 16) (parity : Bool) (s : State) : Host.Outcome State Fault Refusal :=
  .next (s.issue k 0x14 parity insnBcc)

/-- JAL (R236). -/
def execJal (k : Fin 16) (parity : Bool) (s : State) : Host.Outcome State Fault Refusal :=
  .next (s.issue k 0x15 parity insnJal)

/-- JR (R236). DEDUCED, log entry 25. -/
def execJr (k : Fin 16) (parity : Bool) (s : State) : Host.Outcome State Fault Refusal :=
  .next (s.issue k 0x16 parity insnJr)

/-- REPI (R238). DEDUCED, log entry 26. -/
def execRepi (k : Fin 16) (parity : Bool) (s : State) : Host.Outcome State Fault Refusal :=
  .next (s.issue k 0x17 parity insnRepi)

/-- REPR (R238). DEDUCED, log entry 26. -/
def execRepr (k : Fin 16) (parity : Bool) (s : State) : Host.Outcome State Fault Refusal :=
  .next (s.issue k 0x18 parity insnRepr)

/-- WAITF (R244). -/
def execWaitf (k : Fin 16) (parity : Bool) (s : State) : Host.Outcome State Fault Refusal :=
  .next (s.issue k 0x19 parity (insnWaitf (s.slotAddr k)))

/-- RELF (R244). -/
def execRelf (k : Fin 16) (parity : Bool) (s : State) : Host.Outcome State Fault Refusal :=
  .next (s.issue k 0x1A parity insnRelf)

/-- OUT (R245). -/
def execOut (k : Fin 16) (parity : Bool) (s : State) : Host.Outcome State Fault Refusal :=
  .next (s.issue k 0x1B parity (insnOut s.time (s.flag (ACR_OUT_CFG.EN k))))

/-- WAITO (R236). -/
def execWaito (k : Fin 16) (parity : Bool) (s : State) : Host.Outcome State Fault Refusal :=
  .next (s.issue k 0x1C parity insnWaito)

/-- DMAR (R246). -/
def execDmar (k : Fin 16) (parity : Bool) (s : State) : Host.Outcome State Fault Refusal :=
  .next (s.issue k 0x1D parity (insnDma false (s.coreDramSize k) s.dramDead))

/-- DMAW (R246). -/
def execDmaw (k : Fin 16) (parity : Bool) (s : State) : Host.Outcome State Fault Refusal :=
  .next (s.issue k 0x1E parity (insnDma true (s.coreDramSize k) s.dramDead))

/-- WAITD (R246). -/
def execWaitd (k : Fin 16) (parity : Bool) (s : State) : Host.Outcome State Fault Refusal :=
  .next (s.issue k 0x1F parity insnWaitd)

/-- MOVP (R236). -/
def execMovp (k : Fin 16) (parity : Bool) (s : State) : Host.Outcome State Fault Refusal :=
  .next (s.issue k 0x28 parity insnMovp)

/-- MVP (R236). -/
def execMvp (k : Fin 16) (parity : Bool) (s : State) : Host.Outcome State Fault Refusal :=
  .next (s.issue k 0x29 parity insnMvp)

/-- ADDP (R234). -/
def execAddp (k : Fin 16) (parity : Bool) (s : State) : Host.Outcome State Fault Refusal :=
  .next (s.issue k 0x2A parity insnAddp)

/-- MTS (R229). -/
def execMts (k : Fin 16) (parity : Bool) (s : State) : Host.Outcome State Fault Refusal :=
  .next (s.issue k 0x2B parity insnMts)

/-- MFS (R229). -/
def execMfs (k : Fin 16) (parity : Bool) (s : State) : Host.Outcome State Fault Refusal :=
  .next (s.issue k 0x2C parity (insnMfs (s.special k) s.time))

/-- SIG: ACRk_SIG.CODE and EV42 AC_EVENT (R236). -/
def execSig (k : Fin 16) (parity : Bool) (s : State) : Host.Outcome State Fault Refusal :=
  .next ((if parity then s else s.signal k).issue k 0x2D parity
    (fun w => { run := fun c _ => if zeroC w then .seq c 1 else .fault faultIllegal }))

/-- HALT: the core stops with cause HALT (R248). -/
def execHalt (k : Fin 16) (parity : Bool) (s : State) : Host.Outcome State Fault Refusal :=
  .next (s.issue k 0x2E parity (fun w => { run := fun _ _ => if zeroC w then .halt else .fault faultIllegal }))

/-- A reserved opcode, 0x2F or 0x3F, is an ILLEGAL fault (R236). -/
def execReservedOpcode (k : Fin 16) (parity : Bool) (s : State) : Host.Outcome State Fault Refusal :=
  let c := s.core k
  let op := fOp (c.insn c.pc.toNat)
  if op = 0x2F ∨ op = 0x3F then .next (s.issue k op parity (fun _ => { run := fun _ _ => .fault faultIllegal }))
  else .next s

end Sys2Proof.Machine
end

