-- ==== Sys2Proof/Machine/Store.lean ====
section
/-!
DEFINITION. A register write by field type (R6, R285).
-/
namespace Sys2Proof.Machine

/-- A word with the bits of a mask taken from another. -/
def mixWord (mask old new : Word) : Word := (old &&& ~~~mask) ||| (new &&& mask)

/-- A write acts by field type: RW bits are stored; RWL bits are stored in BOOT and SETUP, and a write that would change them
at another time is counted; W1C bits written 1 are cleared; WO bits are not stored (R6, R285). An offset that holds no
register, or an instance of a port the part does not have, ignores the write (R2, R10). DESIGN CHOICE, log entry 8; DEDUCED,
log entry 35. -/
def State.storeWord (s : State) (off : Nat) (w : Word) : State :=
  match rowOf off with
  | none => s
  | some r =>
    if s.absent off then s
    else
      let old := s.reg off
      let rwl := Word.of r.rwl
      let new := mixWord (Word.of r.rw) old w &&& ~~~(w &&& Word.of r.w1c)
      if s.isSetup then s.setReg off (mixWord rwl new w)
      else
        let s := s.setReg off new
        if (old ^^^ w) &&& rwl = 0 then s
        else (s.bump HIF_RWL_IGNORED_COUNT.reg).setNat HIF_RWL_ADDR.reg off

end Sys2Proof.Machine
end

