-- ==== Sys2Proof/Machine/Dram.lean ====
section
/-!
DEFINITION. The DRAM controller: requests, error checks, the freeze, refresh, set points, self-refresh, the scrubber and
the BAR2 window (R264–R278).
-/
namespace Sys2Proof.Machine

/-- Usable DRAM in bytes: 7,168 MiB or 3,584 MiB (R265). -/
def Part.dramBytes : Part → Nat
  | .wv4812 => 7168 * 2 ^ 20
  | .wv2406 => 3584 * 2 ^ 20

/-- DRAM channels (R264). -/
def Part.channels : Part → Nat
  | .wv4812 => 4
  | .wv2406 => 2

/-- The organisation of the DRAM (R264): channels to a die, bank groups to a channel, banks to a group, rows to a bank, and bytes
to a row. -/
def dieChannels : Nat := 2
def bankGroups : Nat := 4
def groupBanks : Nat := 4
def bankRows : Nat := 65536
def rowBytes : Nat := 2048

/-- The row layout (R265): data blocks of a row, bytes of a block, and the column byte of the first check byte. -/
def rowBlocks : Nat := 28
def blockBytes : Nat := 64
def checkColumn : Nat := 1792

/-- Where a usable byte lies: die, channel, bank group, bank within it, row, the column byte, and the column of the check byte of its
8-byte word (R264–R266). -/
structure DramPlace where
  die : Nat
  ch : Nat
  bg : Nat
  bank : Nat
  row : Nat
  column : Nat
  check : Nat
  deriving DecidableEq, Repr

/-- The address mapping of a part with `c` channels (R266). -/
def dramPlace (c a : Nat) : DramPlace :=
  let k := a / blockBytes
  let q := k / (bankGroups * c)
  let j := q % rowBlocks
  let r := q / rowBlocks
  { die := k % c / dieChannels, ch := k % c, bg := k / c % bankGroups, bank := r % groupBanks, row := r / groupBanks
    column := blockBytes * j + a % blockBytes, check := checkColumn + 8 * j + a % blockBytes / 8 }

/-- The pair of banks that one refresh command blocks: banks of one address in groups two apart. PRESUMED, log entry 128. -/
def DramPlace.pair (p : DramPlace) : Nat := p.bg % 2 * groupBanks + p.bank

/-- Where a usable address lies on this part. -/
def State.dramPlace (s : State) (a : Nat) : DramPlace := Sys2Proof.Machine.dramPlace s.part.channels a

/-- The channel of a usable address (R266). -/
def State.dramChannel (s : State) (a : Nat) : Nat := (s.dramPlace a).ch

/-- State codes of DMC_STATUS (R278). -/
def dmcInit : Nat := 0
def dmcTraining : Nat := 1
def dmcFill : Nat := 2
def dmcReady : Nat := 3
def dmcSelfRefresh : Nat := 4
def dmcFspChange : Nat := 5
def dmcFrozen : Nat := 6
def dmcFailed : Nat := 7

/-- The controller serves requests: training and fill are done, and it is neither frozen nor failed. DEDUCED, log entry 94. -/
def State.dramServes (s : State) : Bool := s.flag DMC_STATUS.INIT_DONE && !s.dramDead

/-- Bytes of usable DRAM. -/
def State.dramBytes (s : State) (a n : Nat) : List Byte := Memory.bytes 0 s.dram a n

/-- Queued transfers of a core complete at once without moving data and set FLAGS.DFAIL (R246). DEDUCED, log entry 94. -/
def State.failXfers (s : State) (k : Nat) : State :=
  let c := s.core k
  if c.dmaQ = [] then s else (s.setCore k { c.raise flagDfail with dmaQ := [] }).wake k

/-- The clients of the DRAM fail: the Brillouin and belt-frame engines, captures and core transfers (R173, R203, R223, R246).
DEDUCED, log entry 94. -/
def State.dramClientsFail (s : State) : State :=
  let s := ((s.setFlag BRL_STATUS.FAILED true).setFlag BRL_STATUS.FIT_BUSY false).putBrl []
  let s := s.setFlag BRL_STATUS.LEARN_PENDING false
  let s := s.setFlag BLT_STATUS.FAILED true
  let s := s.trgFail
  (List.range 16).foldl (fun s k => s.failXfers k) s

/-- BAR2 reads that wait when the controller freezes are answered with all ones, as reads in FROZEN (R276); the other requests stay
queued (R275). -/
def State.voidReads (s : State) : State :=
  let n := (s.dmc.reqs.filter (fun r => r.client == 5)).length
  if n = 0 then s
  else
    let s := s.putDmc { s.dmc with reqs := s.dmc.reqs.filter (fun r => r.client != 5) }
    ((s.addReg DMC_BAR2_VOID_COUNT.reg n).putRdData 0xFFFFFFFF).putRdData2 0xFFFFFFFF

/-- An uncorrectable error: the controller freezes (R275). Client 0–6, or 7 for maintenance. DEDUCED, log entry 93. -/
def State.dramFreeze (s : State) (client a syndrome : Nat) : State :=
  let s := s.voidReads
  let s := s.setFld DMC_STATUS.STATE dmcFrozen
  let s := s.setNat DMC_FREEZE_INFO.reg (2 ^ 31 + client % 8 * 2 ^ 28 + s.dramChannel a * 2 ^ 26 + syndrome % 256)
  let s := s.setReg64 DMC_FREEZE_ADDR_LO.reg a
  let s := s.raiseEvent 39 (s.reg DMC_FREEZE_INFO.reg).toNat
  let s := s.dramClientsFail
  let s := s.putCtl { s.ctl with dramFailed := true }
  let s := s.withDeg { s.ctl.deg with dram := true }
  (s.diagEvent 0x13 15).settle

/-- A corrected error: counted, its address recorded, and EV38 raised when CE_THRESH corrections fall within the window; the
count then starts afresh (R274). DEDUCED, log entry 93. -/
def State.dramCorrected (s : State) (a : Nat) : State :=
  let s := s.bump DMC_ECC_CE_COUNT.reg
  let s := s.setReg64 DMC_ECC_CE_ADDR_LO.reg a
  let w := s.fld DMC_ECC_CFG.CE_WINDOW_MS * ticksPerMs
  let ts := s.time :: s.dmc.ceTimes.filter (fun t => decide (s.time - t ≤ w))
  if max 1 (s.fld DMC_ECC_CFG.CE_THRESH) ≤ ts.length then
    let s := s.putDmc { s.dmc with ceTimes := [] }
    (s.raiseEvent 38 (s.reg DMC_ECC_CE_COUNT.reg).toNat).diagEvent 0x14 15
  else s.putDmc { s.dmc with ceTimes := ts }

/-- Upsets flip stored bits of the DRAM. -/
def State.dramUpset (s : State) (ups : DramUpsets) : State :=
  s.putDmc { s.dmc with errs := ups.foldl (fun m u =>
    SMap.put (fun _ => 0) m (u.1 / 8) (SMap.get (fun _ => 0) m (u.1 / 8) ^^^ u.2)) s.dmc.errs }

/-- The error patterns of the 8-byte words that `n` bytes from `a` lie in: byte address and pattern. -/
def Dmc.findings (d : Dmc) (a n : Nat) : List (Nat × BitVec 72) :=
  (d.errs.filter (fun e => decide (a / 8 ≤ e.1) && decide (e.1 < (a + n + 7) / 8))).map (fun e => (8 * e.1, e.2))

/-- The check of a read of `n` bytes from `a` by a client; answers whether data were delivered. One flipped bit is corrected; the
first word with more freezes the controller (R274, R275). DEDUCED, log entry 93; UNVERIFIED, log entry 126. -/
def State.dramRead (s : State) (client a n : Nat) : State × Bool :=
  let fs := s.dmc.findings a n
  match fs.find? (fun e => decide (1 < weight e.2)) with
  | some e => (s.dramFreeze client e.1 (Config.syndrome e.2).toNat, false)
  | none => (fs.foldl (fun s e => s.dramCorrected e.1) s, true)

/-! Requests (R268, R269). -/

/-- The rank of a request: a promoted BAR2 read first, then the clients by number, the scrubber last (R268). -/
def DramReq.rank (r : DramReq) : Nat := if r.promoted then 0 else r.client + 1

/-- The blocks a request lies in. -/
def DramReq.blocks (r : DramReq) : List Nat :=
  let n := match r.op with | .read n => n | .write bs => bs.length
  (List.range (ceilDiv (r.addr % blockBytes + n) blockBytes)).map (fun i => r.addr / blockBytes + i)

/-- A request can be served now: its channel does not retrain (R271). -/
def State.reqOpen (s : State) (r : DramReq) : Bool :=
  match s.dmc.retrain with
  | none => true
  | some (ch, _) => s.dramChannel r.addr != ch

/-- The request to serve first of those that can be: the lowest rank, the oldest of a rank; and the others. -/
def State.pickReq (s : State) : Option (DramReq × List DramReq) :=
  let best := s.dmc.reqs.foldl (fun (m : Option DramReq) r =>
    if !s.reqOpen r then m
    else match m with
      | none => some r
      | some b => if r.rank < b.rank then some r else m) none
  best.map (fun b => (b, s.dmc.reqs.erase b))

/-- The writes of a block that are queued are issued before a read of it, which is counted (R269). -/
def State.readAfterWrite (s : State) (blocks : List Nat) : State :=
  if s.dmc.writeQ.any blocks.contains then
    (s.bump DMC_RAW_WAIT_COUNT.reg).putDmc { s.dmc with writeQ := s.dmc.writeQ.filter (fun b => !blocks.contains b) }
  else s

/-- A request of clients 3 and 4 that waited over 100 µs is counted (R268). -/
def State.countLate (s : State) (r : DramReq) : State :=
  if (r.client == 3 || r.client == 4) && decide (100 * ticksPerUs < s.time - r.since) then
    s.bump (DMC_CLIENT_OVERRUN_COUNT.reg r.client)
  else s

/-- The data of a BAR2 read are delivered: the low word, and the high one of a 64-bit read. -/
def State.bar2Data (s : State) (a n : Nat) : State :=
  let s1 := s.putRdData (Word.of (leVal (s.dramBytes a 4)))
  if n = 8 then s1.putRdData2 (Word.of (leVal (s.dramBytes (a + 4) 4))) else s1

/-- A BAR2 read that finds an uncorrectable error delivers no data: what its completion carries is open. UNVERIFIED, log entry
109. -/
def State.bar2None (s : State) (n : Nat) : State :=
  let s1 := (s.putRdData (Word.of s.freeVal)).drawFree
  if n = 8 then (s1.putRdData2 (Word.of s1.freeVal)).drawFree else s1

/-- A request is served: a write enters the write queue of 64 blocks, the oldest leaving it when it is full; a read is checked,
after the queued writes of its blocks; the scrubber rewrites a block it corrects (R268, R269, R274). DEDUCED, log entry 93. -/
def State.serveReq (s : State) (r : DramReq) : State :=
  let s := s.countLate r
  match r.op with
  | .write bs =>
    if r.addr + bs.length ≤ s.part.dramBytes then
      let s := s.setDram r.addr bs
      let q := s.dmc.writeQ ++ r.blocks
      s.putDmc { s.dmc with writeQ := q.drop (q.length - 64) }
    else s
  | .read n =>
    match (s.readAfterWrite r.blocks).dramRead r.client r.addr n with
    | (s, true) =>
      if r.client = 5 then s.bar2Data r.addr n
      else if r.client = 6 then s.putDmc (s.dmc.clean r.addr n)
      else s
    | (s, false) => if r.client = 5 then s.bar2None n else s

/-- The controller serves one request now: it is READY (R272, R273, R278). -/
def State.serveOne (s : State) : State :=
  if !s.dramServes || s.fld DMC_STATUS.STATE ≠ dmcReady then s
  else match s.pickReq with
    | none => s
    | some (r, rest) => (s.putDmc { s.dmc with reqs := rest }).serveReq r

/-- A request arrives, and waits until it is served. -/
def State.arrive (s : State) (client a : Nat) (op : DramOp) : State :=
  if s.dramServes then
    s.putDmc { s.dmc with reqs := s.dmc.reqs ++ [{ client := client, addr := a, op := op, since := s.time }] }
  else s

/-- DRAM_REQUEST (R268, R269, R274): a request may arrive, and the first of those that wait is served. DEDUCED, log entry 93. -/
def execDramRequest (req : Option (Fin 7 × Nat × DramOp)) (ups : DramUpsets) (s : State) : Host.Outcome State Fault Refusal :=
  .next (
    let s := s.dramUpset ups
    (match req with
     | some (c, a, op) => s.arrive c.val a op
     | none => s).serveOne)

/-- Promote the oldest BAR2 read that waits. -/
def promote : List DramReq → Option (List DramReq)
  | [] => none
  | r :: rs => if r.client = 5 && !r.promoted then some ({ r with promoted := true } :: rs) else (promote rs).map (r :: ·)

/-- BAR2_PROMOTION (R268): the oldest BAR2 read that waits is promoted above every client, and counted as client 5's loss. -/
def execBar2Promotion (s : State) : Host.Outcome State Fault Refusal :=
  .next (
    match promote s.dmc.reqs with
    | none => s
    | some rs => (s.putDmc { s.dmc with reqs := rs }).bump (DMC_CLIENT_OVERRUN_COUNT.reg 5))

/-! Refresh and training (R270, R271). -/

/-- A bank pair of a channel has queued requests. -/
def State.pairBusy (s : State) (ch pair : Nat) : Bool :=
  let here (a : Nat) : Bool := (s.dramPlace a).ch == ch && (s.dramPlace a).pair == pair
  s.dmc.reqs.any (fun r => here r.addr) || s.dmc.writeQ.any (fun b => here (b * blockBytes))

/-- DRAM_REFRESH (R270): a command falls due on a bank pair. It is postponed only while the pair has queued requests and fewer than
8 of its commands are; else at least one is issued. DEDUCED, log entry 128. -/
def execDramRefresh (ch : Fin 4) (pair : Fin 8) (issued : Fin 10) (s : State) : Host.Outcome State Fault Refusal :=
  .next (
    if !s.dramServes || decide (s.part.channels ≤ ch.val) then s
    else
      let k := 8 * ch.val + pair.val
      let n := SMap.get (fun _ => 0) s.dmc.postponed k
      if issued.val = 0 && s.pairBusy ch.val pair.val && decide (n < 8) then
        (s.bump DMC_REFRESH_POSTPONE_COUNT.reg).putDmc { s.dmc with postponed := SMap.put (fun _ => 0) s.dmc.postponed k (n + 1) }
      else s.putDmc { s.dmc with postponed := SMap.put (fun _ => 0) s.dmc.postponed k (n + 1 - max 1 issued.val) })

/-- Training is under way: the training part of step 0x5, or a channel's retraining (R271). -/
def State.trainingNow (s : State) : Bool := s.fld DMC_STATUS.STATE == dmcTraining || s.dmc.retrain.isSome

/-- A set-point change begins: no channel serves a request until it is made (R272). -/
def State.fspBegin (s : State) : State :=
  let st := s.fld DMC_STATUS.STATE
  if st = dmcFspChange then s
  else ((s.putDmc { s.dmc with back := st }).setFld DMC_STATUS.STATE dmcFspChange).setFlag DMC_STATUS.FSP_PENDING false

/-- A change that was deferred begins. -/
def State.fspDeferred (s : State) : State := if s.flag DMC_STATUS.FSP_PENDING then s.fspBegin else s

/-- The set point requested comes into force, and the controller goes on (R272). -/
def State.fspMake (s : State) : State :=
  (s.setFld DMC_STATUS.FSP_CUR (s.fld DMC_CFG.FSP)).setFld DMC_STATUS.STATE s.dmc.back

/-- FSP_CHANGE (R272): the set point requested comes into force, in at most 5 µs. -/
def execFspChange (s : State) : Host.Outcome State Fault Refusal :=
  .next (if s.fld DMC_STATUS.STATE == dmcFspChange then s.fspMake else s)

/-- A request of a set point: ignored in FROZEN and FAILED, deferred while training is under way and in self-refresh; it replaces
one still pending (R272). -/
def State.fspRequest (s : State) : State :=
  if s.dramDead then s
  else if s.trainingNow || s.fld DMC_STATUS.STATE == dmcSelfRefresh then
    (s.bump DMC_FSP_DEFER_COUNT.reg).setFlag DMC_STATUS.FSP_PENDING true
  else s.fspBegin

/-- DRAM_RETRAIN (R271): a channel retrains, while no other does; the temperature of its die is kept for the 5 K rule. -/
def execDramRetrain (ch : Fin 4) (temp : Int) (s : State) : Host.Outcome State Fault Refusal :=
  .next (
    if s.dramServes && decide (ch.val < s.part.channels) && s.dmc.retrain.isNone && s.fld DMC_STATUS.STATE == dmcReady then
      s.putDmc { s.dmc with retrain := some (ch.val, s.time), temps := SMap.put (fun _ => 0) s.dmc.temps ch.val temp }
    else s)

/-- What time brings the controller: a retraining ends, at most 1 µs after it began; the training of step 0x5 ends and its fill
begins; and a queued write is issued while no request waits. How long a training takes is open. DESIGN CHOICE, log entry 2;
UNVERIFIED, log entry 128. -/
def State.dramTick (s : State) : State :=
  match s.dmc.retrain with
  | some (_, t) =>
    if s.freeVal % 2 = 1 || decide (t + ticksPerUs ≤ s.time) then
      (s.drawFree.putDmc { s.dmc with retrain := none }).fspDeferred
    else s.drawFree
  | none =>
    let st := s.fld DMC_STATUS.STATE
    if st = dmcTraining then
      if s.freeVal % 2 = 1 then (s.drawFree.setFld DMC_STATUS.STATE dmcFill).fspDeferred else s.drawFree
    else if st = dmcReady && s.dmc.reqs == [] && s.dmc.writeQ != [] then s.putDmc { s.dmc with writeQ := s.dmc.writeQ.drop 1 }
    else s

/-! Self-refresh and the scrubber (R273, R274). -/

/-- SELF_REFRESH_ENTRY (R273): no request waits and no channel retrains; the writes queued are issued first. -/
def execSelfRefreshEntry (s : State) : Host.Outcome State Fault Refusal :=
  .next (
    if s.dramServes && s.flag DMC_CFG.SR_EN && s.fld DMC_STATUS.STATE == dmcReady && s.dmc.reqs == [] && s.dmc.retrain.isNone then
      ((s.bump DMC_SR_ENTRY_COUNT.reg).setFld DMC_STATUS.STATE dmcSelfRefresh).putDmc { s.dmc with writeQ := [] }
    else s)

/-- SELF_REFRESH_EXIT (R273): `waited` requests arrived during entry; a deferred set-point change begins directly after exit. -/
def execSelfRefreshExit (waited : Nat) (s : State) : Host.Outcome State Fault Refusal :=
  .next (
    if s.fld DMC_STATUS.STATE == dmcSelfRefresh then
      ((s.addReg DMC_SR_WAKE_WAIT_COUNT.reg waited).setFld DMC_STATUS.STATE dmcReady).fspDeferred
    else s)

/-- SCRUB_READ (R274, R275): the scrubber asks for the block at `a`; `late`: the pass did not complete within SCRUB_H (R268). -/
def execScrubRead (a : Nat) (ups : DramUpsets) (late : Bool) (s : State) : Host.Outcome State Fault Refusal :=
  .next (
    let s := s.dramUpset ups
    if s.dramServes && s.fld DMC_CFG.SCRUB_H != 0 then
      let s := if late then s.bump (DMC_CLIENT_OVERRUN_COUNT.reg 6) else s
      (s.arrive 6 (a / blockBytes * blockBytes) (.read blockBytes)).serveOne
    else s)

/-- A write of DMC_CFG: a request of a set point other than the one in force (R272). -/
def State.writeDmcCfg (s : State) (w : Word) : State :=
  let s' := s.storeWord DMC_CFG.reg w
  if s.isSetup && s'.fld DMC_CFG.FSP != s'.fld DMC_STATUS.FSP_CUR then s'.fspRequest else s'

/-- FSP_WRITE (R272). -/
def execFspWrite (w : Word) (s : State) : Host.Outcome State Fault Refusal := .next (s.writeDmcCfg w)

/-! BAR2 (R276). -/

/-- The base of the BAR2 window in bytes: above its limit it acts as that limit. -/
def State.bar2Base (s : State) : Nat := min (s.part.dramBytes / 2 ^ 20 - 64) (s.fld DMC_BAR2_BASE.BASE_MIB) * 2 ^ 20

/-- BAR2_READ (R276): an access of the BAR2 window at a byte offset. `write` and `size` (bytes) say which; an aligned 32-bit
or 64-bit read returns data, the low word in `rdData` and the high one in `rdData2`, at once or when its turn comes (R268); any
other access has no effect and raises EV47. DEDUCED, log entry 9; UNVERIFIED, log entry 109. -/
def execBar2Read (off size : Nat) (write : Bool) (ups : DramUpsets) (s : State) : Host.Outcome State Fault Refusal :=
  .next (
    let s := s.dramUpset ups
    if write || (size != 4 && size != 8) || off % size != 0 then s.raiseEvent 47 2
    else
      let a := s.bar2Base + off % 2 ^ 26
      if s.part.dramBytes ≤ a then (s.putRdData 0xFFFFFFFF).putRdData2 0xFFFFFFFF
      else if !s.dramServes then
        ((s.bump DMC_BAR2_VOID_COUNT.reg).putRdData 0xFFFFFFFF).putRdData2 0xFFFFFFFF
      else (s.arrive 5 a (.read size)).serveOne)

end Sys2Proof.Machine
end

