-- ==== Sys2Proof/Machine/Timing.lean ====
section
/-!
DEFINITION. Timing inputs, pair units and the time base (R175–R187).
-/
namespace Sys2Proof.Machine

/-- Timing input `i`, pair unit `p`, belt `k`. -/
def State.tin (s : State) (i : Nat) : Tin := SMap.get (fun _ => {}) s.blt.tins i
def State.setTin (s : State) (i : Nat) (x : Tin) : State := s.putBlt { s.blt with tins := SMap.put (fun _ => {}) s.blt.tins i x }
def State.pair (s : State) (p : Nat) : PairUnit := SMap.get (fun _ => {}) s.blt.pairs p
def State.setPair (s : State) (p : Nat) (x : PairUnit) : State :=
  s.putBlt { s.blt with pairs := SMap.put (fun _ => {}) s.blt.pairs p x }
def State.belt (s : State) (k : Nat) : Belt := SMap.get (fun _ => {}) s.blt.belts k
def State.setBelt (s : State) (k : Nat) (x : Belt) : State :=
  s.putBlt { s.blt with belts := SMap.put (fun _ => {}) s.blt.belts k x }

/-- Pips in a tick (R19, R177). -/
def pipsPerTick : Nat := 256

/-! Gates and the regression (R179, R180). -/

/-- A gate of input `i` opens; the tail stamps of belts driven by it start again (R192). DEDUCED, log entry 71. -/
def State.openGate (s : State) (i : Nat) : State :=
  let s := s.setTin i { s.tin i with gate := some s.time, stamps := [] }
  (List.range 8).foldl (fun s k =>
    if s.fld (BLT_BELT_CFG.DRIVE_IN k) = i && (s.belt k).tail != [] then s.setBelt k { s.belt k with tail := [] } else s) s

/-- The sums of the regression over N stamps, each times N: Sxx, Sxy and Syy about the means (R180). -/
structure Fit1 where
  n : Nat
  sxx : Int
  sxy : Int
  syy : Int
  deriving DecidableEq, Repr

/-- Fit stamps taken about the first of the list. -/
def fitStamps (l : List (Nat × Nat)) : Fit1 :=
  match l with
  | [] => { n := 0, sxx := 0, sxy := 0, syy := 0 }
  | (n0, t0) :: _ =>
    let acc := l.foldl (fun (a : Int × Int × Int × Int × Int) x =>
      let dn : Int := (x.1 : Int) - n0
      let dt : Int := (x.2 : Int) - t0
      (a.1 + dn, a.2.1 + dt, a.2.2.1 + dn * dn, a.2.2.2.1 + dn * dt, a.2.2.2.2 + dt * dt)) (0, 0, 0, 0, 0)
    let n : Int := l.length
    { n := l.length, sxx := n * acc.2.2.1 - acc.1 * acc.1, sxy := n * acc.2.2.2.1 - acc.1 * acc.2.1
      syy := n * acc.2.2.2.2 - acc.2.1 * acc.2.1 }

/-- Fewest stamps of a valid result. -/
def State.minStamps (s : State) (i : Nat) : Nat := max 3 (s.fld (BLT_TIN_GATE.MIN_STAMPS i))

/-- Prescale D (R176). -/
def State.prescale (s : State) (i : Nat) : Nat := s.fld (BLT_TIN_CFG.PRESCALE i) + 1

/-- The rate of a fit in counts per pip, as a fraction. -/
def Fit1.rate (f : Fit1) (d : Nat) : Nat × Nat := (d * f.sxx.toNat, f.sxy.toNat)

/-- The rms residual in pips. -/
def Fit1.resid (f : Fit1) : Nat :=
  if f.sxx = 0 || f.n = 0 then 0
  else (isqrt (4 * (f.syy * f.sxx - f.sxy * f.sxy).toNat / (f.sxx.toNat * f.n * f.n)) + 1) / 2

/-- A rate in counts per pip times a scale of counts per second: `scale · 1.024·10¹¹ · rate`, rounded. -/
def rateTimes (scale : Nat) (r : Nat × Nat) : Nat := roundDivNat (scale * 102400000000 * r.1) r.2

/-! Enabling (R176, R179). -/

/-- An input is enabled: its prescaler and edge index start again, and a free-running gate opens. -/
def State.enableTin (s : State) (i : Nat) : State :=
  let s := s.setTin i { level := (s.tin i).level }
  if s.fld (BLT_TIN_GATE.MODE i) = 0 then s.openGate i else s

/-- Follow a change of an input's settings. DEDUCED, log entry 71. -/
def State.tinChange (old new : State) (i : Nat) : State :=
  let was := old.flag (BLT_TIN_CFG.EN i)
  let is := new.flag (BLT_TIN_CFG.EN i)
  if !was && is then new.enableTin i
  else if was && !is then new.setTin i { level := (new.tin i).level }
  else if is && old.fld (BLT_TIN_GATE.MODE i) != new.fld (BLT_TIN_GATE.MODE i) then
    let new := new.setTin i { new.tin i with gate := none, stamps := [] }
    if new.fld (BLT_TIN_GATE.MODE i) = 0 then new.openGate i else new
  else new

/-- Follow a change of every input's settings. -/
def State.tinChangeAll (old new : State) : State := (List.range 8).foldl (fun s i => State.tinChange old s i) new

/-! Pair units (R181, R182). -/

/-- W of a pair unit in pips. -/
def State.pairW (s : State) (p : Nat) : Nat := max 1 (s.fld (BLT_PAIR_CFG.WINDOW p)) * pipsPerTick

/-- The open pair-interval block is written (chapter 13). -/
def State.closePairBlock (s : State) : State :=
  let es := s.blt.block
  if es = [] then s
  else
    (s.putBlt { s.blt with block := [] }).pushBlock 22 0x0D
      (leBytes 8 s.blt.blockTime ++ leBytes 2 es.length ++ zeroBytes 6) es.flatten

/-- A pair record of 32 bytes. -/
def pairEntry (p flags : Nat) (interval : Int) (start stop : Nat) : List Byte :=
  leBytes 1 p ++ leBytes 1 flags ++ zeroBytes 6 ++ leBytes 8 (toBits 64 interval) ++ leBytes 8 (start / pipsPerTick)
    ++ leBytes 6 (stop / pipsPerTick) ++ leBytes 1 (start % pipsPerTick) ++ leBytes 1 (stop % pipsPerTick)

/-- An entry joins the open block, which closes at 256 (R319). -/
def State.addPairEntry (s : State) (e : List Byte) : State :=
  let b := s.blt
  let s := s.putBlt { b with
      block := b.block ++ [e]
      blockTime := if b.block = [] then s.time else b.blockTime }
  if 256 ≤ s.blt.block.length then s.closePairBlock else s

/-- A paired result (R182, R204). -/
def State.pairResult (s : State) (p start stop : Nat) (coincident : Bool) (differs : BitVec 16) : State :=
  let v : Int := if coincident then 0 else (stop : Int) - start
  let neg := decide (v < 0)
  let s := s.setReg64 (BLT_PAIR_LAST_LO.reg p) (toBits 64 v)
  let s := (s.setFlag (BLT_PAIR_STATUS.COINCIDENT p) coincident).setFlag (BLT_PAIR_STATUS.NEG p) neg
  let s := s.bump (BLT_PAIR_PAIRED_COUNT.reg p)
  let s := s.addPairEntry (pairEntry p (bitAt coincident 0 + bitAt neg 1) v start stop)
  s.evalSource 5 p (fun _ => some { value := satInt 32 v, time := stop / pipsPerTick, pip := stop % pipsPerTick,
                                    span := stop / pipsPerTick }) differs

/-- Two stamps lie within 1 pip. -/
def near1 (a b : Nat) : Bool := decide (a ≤ b + 1) && decide (b ≤ a + 1)

/-- Remove the first element equal to `x`. -/
def removeFirst (x : Nat) : List Nat → List Nat
  | [] => []
  | y :: ys => if y = x then ys else y :: removeFirst x ys

/-- The stop that waits at pair unit `p` pairs with its start: none came one pip ahead of it (R181 rule 2). -/
def State.pairRelease (s : State) (p : Nat) : State :=
  let x := s.pair p
  match x.wait with
  | some (t, e, differs) => (s.setPair p { x with starts := removeFirst t x.starts, wait := none }).pairResult p t e false differs
  | none => s

/-- Stops whose look-ahead of one pip is over pair (R181). -/
def State.pairSettle (s : State) : State :=
  (List.range 4).foldl (fun s p =>
    match (s.pair p).wait with
    | some (_, e, _) => if e + 1 < s.time * pipsPerTick then s.pairRelease p else s
    | none => s) s

/-- A start that no waiting stop takes: it pairs with a held stop, or is kept. -/
def State.pairLone (s : State) (p t : Nat) (differs : BitVec 16) : State :=
  let x := s.pair p
  match x.stops.find? (near1 t) with
  | some e => (s.setPair p { x with stops := removeFirst e x.stops }).pairResult p t e true differs
  | none =>
    match x.stops.find? (fun e => decide (e ≤ t) && decide (2 * (t - e) ≤ s.pairW p)) with
    | some e => (s.setPair p { x with stops := removeFirst e x.stops }).pairResult p t e false differs
    | none => s.setPair p { x with starts := x.starts ++ [t] }

/-- A start stamp arrives at pair unit `p`. -/
def State.pairStart (s : State) (p t : Nat) (differs : BitVec 16) : State :=
  let x := s.pair p
  match x.wait with
  | some (_, e, _) =>
    if near1 t e then (s.setPair p { x with wait := none }).pairResult p t e true differs
    else (s.pairRelease p).pairLone p t differs
  | none => s.pairLone p t differs

/-- A stop stamp arrives at pair unit `p`: where an older start would take it, it waits one pip for a start that is nearer. -/
def State.pairStop (s : State) (p e : Nat) (differs : BitVec 16) : State :=
  let s := s.pairRelease p
  let x := s.pair p
  match x.starts.find? (near1 e) with
  | some t => (s.setPair p { x with starts := removeFirst t x.starts }).pairResult p t e true differs
  | none =>
    match x.starts.find? (fun t => decide (t ≤ e) && decide (e - t ≤ s.pairW p)) with
    | some t => s.setPair p { x with wait := some (t, e, differs) }
    | none => s.setPair p { x with stops := x.stops ++ [e] }

/-- A pair unit takes stamps. -/
def State.pairActive (s : State) (p : Nat) : Bool :=
  s.flag (BLT_PAIR_CFG.EN p) && s.fld (BLT_PAIR_CFG.START_IN p) != s.fld (BLT_PAIR_CFG.STOP_IN p)

/-- A stamp of input `i` reaches the pair units. -/
def State.pairStamp (s : State) (i t : Nat) (differs : BitVec 16) : State :=
  (List.range 4).foldl (fun s p =>
    if !s.pairActive p then s
    else if s.fld (BLT_PAIR_CFG.START_IN p) = i then s.pairStart p t differs
    else if s.fld (BLT_PAIR_CFG.STOP_IN p) = i then s.pairStop p t differs
    else s) s

/-- Units whose settings change lose their unpaired stamps. -/
def State.pairChangeAll (old new : State) : State :=
  (List.range 4).foldl (fun s p => if old.reg (BLT_PAIR_CFG.reg p) = s.reg (BLT_PAIR_CFG.reg p) then s else s.setPair p {}) new

/-- PAIR_HOLD_EXPIRY (R181 rule 4): the oldest held stop is dropped. -/
def execPairHoldExpiry (p : Fin 4) (s : State) : Host.Outcome State Fault Refusal :=
  .next (
    let x := s.pair p.val
    match x.stops with
    | [] => s
    | _ :: es => (s.setPair p.val { x with stops := es }).bump (BLT_PAIR_DROP_COUNT.reg p.val))

/-- PAIR_ORPHAN (R181): the oldest unpaired start is orphaned. -/
def execPairOrphan (p : Fin 4) (s : State) : Host.Outcome State Fault Refusal :=
  .next (
    let s := s.pairRelease p.val
    let x := s.pair p.val
    match x.starts with
    | [] => s
    | _ :: ts => (s.setPair p.val { x with starts := ts }).bump (BLT_PAIR_ORPHAN_COUNT.reg p.val))

/-- PAIR_BLOCK_TIMEOUT (R319): the block closes 1 ms after its first interval. -/
def execPairBlockTimeout (s : State) : Host.Outcome State Fault Refusal := .next s.closePairBlock

/-! The time base (R183–R187). -/

/-- The trim target of FREE, and the limit of the total trim (R183). -/
def State.freeTarget (s : State) : Int := clampInt (-8000000) 8000000 (s.factoryTrim + s.fldInt TMB_TRIM.TRIM)

/-- A new trim target where the discipline is FREE (R184, R186). UNVERIFIED, log entry 75. -/
def State.retarget (s : State) : State :=
  if s.fld TMB_PPS_STATUS.STATE = 0 then (s.putTmb { s.tmb with target := s.freeTarget }) else s

/-- A value outside ±5,000,000 is ignored (TMB_TRIM). -/
def trimInRange (w : Word) : Bool :=
  let v := ofBits 24 (TMB_TRIM.TRIM.get w)
  decide (-5000000 ≤ v) && decide (v ≤ 5000000)

/-- A write of TMB_TRIM's word sets the target (R184). -/
def State.setTrim (s : State) (w : Word) : State :=
  if trimInRange w then (s.setFld TMB_TRIM.TRIM (TMB_TRIM.TRIM.get w)).retarget else s

/-- TMB_TRIM written through BAR0: stored in SETUP, counted at another time (R6, R184, R285). -/
def State.writeTrim (s : State) (w : Word) : State :=
  if s.isSetup then s.setTrim w
  else if TMB_TRIM.TRIM.get w = s.fld TMB_TRIM.TRIM then s
  else (s.bump HIF_RWL_IGNORED_COUNT.reg).setNat HIF_RWL_ADDR.reg TMB_TRIM.reg

/-- TRIM_WRITE (R184). -/
def execTrimWrite (w : Word) (s : State) : Host.Outcome State Fault Refusal := .next (if s.supply.inReset then s else s.writeTrim w)

/-- TRIM_STEP (R184): one step of 0.01 ppb towards the target. -/
def execTrimStep (s : State) : Host.Outcome State Fault Refusal :=
  .next (
    let u := s.fldInt TMB_TRIM_USED.USED
    if u < s.tmb.target then s.setFldInt TMB_TRIM_USED.USED (u + 1)
    else if s.tmb.target < u then s.setFldInt TMB_TRIM_USED.USED (u - 1)
    else s)

/-- Enter a discipline state. DEDUCED, log entry 76. -/
def State.ppsTo (s : State) (st : Nat) : State :=
  let s := s.setFld TMB_PPS_STATUS.STATE st
  (s.putTmb { s.tmb with locks := [], hist := if st = 2 then [] else s.tmb.hist }).setFlag TMB_PPS_STATUS.LOCKED false

/-- Follow a change of TMB_PPS_CFG.EN (R186). -/
def State.ppsChange (old new : State) : State :=
  let was := old.flag TMB_PPS_CFG.EN
  let is := new.flag TMB_PPS_CFG.EN
  if !was && is then (new.ppsTo 1).putTmb { new.tmb with good := 0, last := none }
  else if was && !is then (new.ppsTo 0).retarget
  else new

/-- TRACK is lost (R186). UNVERIFIED, log entry 75. -/
def State.ppsLost (s : State) (why : Nat) : State :=
  let h := s.tmb.hist
  let t := if h = [] then s.tmb.target else roundDiv (h.foldl (· + ·) 0) h.length
  let s := s.ppsTo 3
  let s := s.putTmb { s.tmb with target := t, good := 0 }
  (s.setFlag TMB_PPS_STATUS.LOST_SEEN true).raiseEvent 59 why

/-- TRACK is entered: the grid moves to the tick nearest the stamp, unless rounds are aligned to it (R186). DEDUCED, log entry
76. -/
def State.ppsTrack (s : State) (stamp : Nat) : State :=
  let s := s.ppsTo 2
  if s.isRunning && s.flag LCH_ROUND_CFG.PPS_ALIGN then s
  else (s.setReg64 TMB_GRID_LO.reg ((stamp + 128) / pipsPerTick)).bump TMB_GRID_MOVE_COUNT.reg

/-- Phase error of a stamp in pips: from the nearest second boundary (R187). -/
def State.phaseErr (s : State) (stamp : Nat) : Int :=
  let sec : Int := ticksPerS * pipsPerTick
  let d := ((stamp : Int) - (s.reg64 TMB_GRID_LO.reg * pipsPerTick : Nat)) % sec
  if 2 * d < sec then d else d - sec

/-- The phase-correction part of the steering, in 0.01 ppb, of a phase error in pips: it takes the error back over the time
constant, by at most 1 ppm (R187). DEDUCED, log entry 75. -/
def State.phasePart (s : State) (e : Int) : Int :=
  clampInt (-100000) 100000 (-roundDiv (e * 1000) (1024 * 2 ^ clampNat 3 10 (s.fld TMB_PPS_CFG.TC_LOG2)))

/-- An edge in TRACK: the phase error, the lock condition, and the target: the phase part, and a frequency part whose filter is
left open, a free value; their sum within the limit of the trim (R183, R187). UNVERIFIED, log entry 75. -/
def State.ppsSteer (s : State) (stamp : Nat) : State :=
  let e := s.phaseErr stamp
  let s := s.setFldInt TMB_PPS_STATUS.PHASE_ERR (satInt 24 (roundDiv (e * 5) 512))
  let ok := decide (e.natAbs * 5 ≤ clampNat 10 10000 (s.fld TMB_PPS_CFG.LOCK_NS) * 512)
  let locks := (ok :: s.tmb.locks).take 8
  let f : Int := (s.freeVal % 16000001 : Nat) - 8000000
  let t := clampInt (-8000000) 8000000 (f + s.phasePart e)
  let s := s.drawFree.putTmb { s.tmb with
      locks := locks
      freq := f
      target := t
      hist := (t :: s.tmb.hist).take 16 }
  s.setFlag TMB_PPS_STATUS.LOCKED (locks.length == 8 && locks.all id)

/-- PPS_EDGE (R186, R187): the active edge at the present tick and `pip`. -/
def execPpsEdge (pip : Fin 256) (s : State) : Host.Outcome State Fault Refusal :=
  .next (
    let stamp := s.time * pipsPerTick + pip.val
    let s := (s.setReg64 TMB_PPS_LAST_LO.reg s.time).setFld TMB_PPS_LAST_PIP.PIP pip.val
    if !s.flag TMB_PPS_CFG.EN then s
    else
      let good := match s.tmb.last with
        | none => false
        | some l => decide (((stamp : Int) - l - (ticksPerS * pipsPerTick : Nat)).natAbs ≤ 4000 * pipsPerTick)
      let first := s.tmb.last.isNone
      let s := s.putTmb { s.tmb with
          last := some stamp
          good := if good then s.tmb.good + 1 else 0 }
      if s.fld TMB_PPS_STATUS.STATE = 2 then
        if good || first then s.ppsSteer stamp else s.ppsLost 1
      else if 3 ≤ s.tmb.good then s.ppsTrack stamp
      else s)

/-- PPS_TIMEOUT (R186): no edge within 1.1 s of the previous one. -/
def execPpsTimeout (s : State) : Host.Outcome State Fault Refusal :=
  .next (if s.fld TMB_PPS_STATUS.STATE = 2 then s.ppsLost 0 else s)

end Sys2Proof.Machine
end

