-- ==== Sys2Proof/Machine/Belt.lean ====
section
/-!
DEFINITION. Belts, the route table and the belt-frame engine (R188–R203).
-/
namespace Sys2Proof.Machine

/-! Position and speed (R188–R191). -/

/-- BELT_LEN: 0 acts as 1. -/
def State.beltLen (s : State) (k : Nat) : Nat := max 1 (s.reg (BLT_BELT_LEN.reg k)).toNat

/-- Position at an instant in pips, in 2⁻⁸ count (R189). UNVERIFIED, log entry 73. -/
def State.beltPos (s : State) (k t : Nat) : Int :=
  let x := s.belt k
  let i := s.fld (BLT_BELT_CFG.ENC_IN k)
  match x.lastAt, (s.tin i).rate with
  | some l, some (num, den) =>
    let cap := s.prescale i * 256 - 1
    let q := 256 * num * (t - l)
    if x.lastFwd then x.last * 256 + (min cap (q / den) : Nat) else x.last * 256 - (min cap (ceilDiv q den) : Nat)
  | _, _ => x.count * 256

/-- Position at the present tick. -/
def State.beltNow (s : State) (k : Nat) : Int := s.beltPos k (s.time * pipsPerTick)

/-- A rate over counts per metre, as µm/s: the rate in counts per pip, CPM in counts per 1,000 m. UNVERIFIED, log entry 73. -/
def speedOf (r : Nat × Nat) (cpm : Nat) : Nat := roundDivNat (1000 * 1000000 * 102400000000 * r.1) (r.2 * cpm)

/-- LEN_MISMATCH, set while the latest measured length differs from BELT_LEN by more than 1 % (R191). -/
def State.lenShow (s : State) (k : Nat) : State :=
  if !(s.belt k).meas then s
  else
    let n := ofBits 32 (s.reg (BLT_BELT_LEN_MEAS.reg k)).toNat
    s.setFlag (BLT_BELT_STATUS.LEN_MISMATCH k) (decide ((s.beltLen k : Int) < (n - s.beltLen k).natAbs * 100))

/-- An index edge of belt `k` (R191, R200). DEDUCED, log entry 72. -/
def State.beltIndex (s : State) (k t : Nat) : State :=
  let x := s.belt k
  let p := s.beltPos k t
  let s :=
    match x.index8 with
    | some q =>
      let s := s.setNat (BLT_BELT_LEN_MEAS.reg k) (toBits 32 (roundDiv (p - q) 256))
      (s.setBelt k { x with meas := true }).lenShow k
    | none => s
  s.setBelt k { s.belt k with ref8 := p, refSet := true, index8 := some p, revs := x.revs + 1 }

/-- How far a belt's count stands past its reference position, in 2⁻⁸ count. -/
def Belt.past8 (x : Belt) : Int := x.count * 256 - x.ref8

/-- A counted edge moves belt `k`: its count, a missing index, and the revolutions of a belt without one (R189, R191, R200).
DEDUCED, log entry 72. -/
def State.beltCount (s : State) (k : Nat) : State :=
  let x := s.belt k
  let fwd := !s.flag (BLT_BELT_CFG.DIR_EN k) || (s.tin (s.fld (BLT_BELT_CFG.DIR_IN k))).level
  let x := { x with fwd := fwd, count := if fwd then x.count + 1 else x.count - 1 }
  let len8 : Int := (s.beltLen k * 256 : Nat)
  let d := x.past8
  if s.flag (BLT_BELT_CFG.INDEX_EN k) then
    if x.index8.isSome && decide (3 * len8 ≤ 2 * d) then
      (s.setBelt k { x with ref8 := x.ref8 + len8 }).setFlag (BLT_BELT_STATUS.INDEX_MISSING k) true
    else s.setBelt k x
  else
    let m := (d / len8).toNat
    if x.refSet && x.mult < m then s.setBelt k { x with mult := m, revs := x.revs + (m - x.mult) } else s.setBelt k x

/-- Where each defined belt stands at an instant in pips: position and reference position (R197). -/
def State.beltSnap (s : State) (t : Nat) : List (Nat × Int × Int) :=
  (List.range 8).filterMap (fun k => if s.beltDefined k then some (k, s.beltPos k t, (s.belt k).ref8) else none)

/-- Turns whose launch instant is still to come take the belts as they now stand at it: an edge or a rate between leading edge and
launch instant counts (R197). -/
def State.snapTurns (s : State) (now : Nat) : State :=
  s.putSched { s.sched with flight := s.sched.flight.map (fun t =>
    if now ≤ t.launch * pipsPerTick then { t with belts := s.beltSnap (t.launch * pipsPerTick) } else t) }

/-- A counted edge of input `i`, with its stamp when it has one, reaches the belts. DEDUCED, log entry 72. -/
def State.beltEdge (s : State) (i : Nat) (stamp : Option Nat) : State :=
  (List.range 8).foldl (fun s k =>
    let s := if s.beltDefined k && s.fld (BLT_BELT_CFG.ENC_IN k) = i then
        let s := s.beltCount k
        match stamp with
        | some t =>
          let x := s.belt k
          s.setBelt k { x with last := x.count, lastAt := some t, lastFwd := x.fwd }
        | none => s
      else s
    match stamp with
    | none => s
    | some t =>
      let s := if s.beltDefined k && s.flag (BLT_BELT_CFG.INDEX_EN k) && s.fld (BLT_BELT_CFG.INDEX_IN k) = i
        then s.beltIndex k t else s
      if s.flag (BLT_BELT_CFG.SLIP_EN k) && s.fld (BLT_BELT_CFG.TAIL_IN k) = i
          && (s.tin (s.fld (BLT_BELT_CFG.DRIVE_IN k))).gate.isSome then
        s.setBelt k { s.belt k with tail := ((s.tin i).index, t) :: (s.belt k).tail }
      else s) s

/-! The prediction of belt-locked rounds (R193). -/

/-- The tick at which a belt reaches a target in 2⁻⁸ count, where its speed is valid: the present one for a target at or behind its
position, else the first tick at or after t_last + (target − P_last) / v. DEDUCED, log entry 124. -/
def State.predictedTick (s : State) (k : Nat) (target : Int) : Option Nat :=
  let x := s.belt k
  if !s.flag (BLT_BELT_STATUS.SPEED_VALID k) then none
  else if target ≤ s.beltNow k then some s.time
  else match x.lastAt, (s.tin (s.fld (BLT_BELT_CFG.ENC_IN k))).rate with
    | some l, some (num, den) =>
      if num = 0 then none
      else some (max s.time (ceilDiv (l * 256 * num + (target - x.last * 256).toNat * den) (256 * num * pipsPerTick)))
    | _, _ => none

/-- The target of the next belt-locked round, in 2⁻⁸ count (R78). -/
def State.beltTarget8 (s : State) : Int := s.sched.beltBase + ((256 * s.fld LCH_BELT_STEP.STEP * s.sched.beltTarget : Nat) : Int)

/-- The prediction of the next round start as it now comes out. -/
def State.predictNow (s : State) : State :=
  s.putSched { s.sched with pred := s.predictedTick (s.fld LCH_ROUND_CFG.BELT) s.beltTarget8 }

/-- The prediction is final from 10,000 ticks before the predicted tick (R193). -/
def State.predFinal (s : State) : Bool := match s.sched.pred with | some p => decide (p ≤ s.time + 10000) | none => false

/-- The prediction is recomputed, unless it is final. -/
def State.predict (s : State) : State :=
  if s.isRunning && s.sched.started && s.flag LCH_ROUND_CFG.MODE && !s.predFinal then s.predictNow else s

/-! Timing-input edges (R176–R178). -/

/-- A sticky fault bit of input `i` (R178). -/
def State.tinFault (s : State) (f : Fld) (i bit : Nat) : State :=
  if s.flag f then s else (s.setFlag f true).raiseEvent 34 (i + bit)

/-- A stamped edge of input `i` at `t` pips (R177, R178). -/
def State.stampEdge (s : State) (i t : Nat) (differs : BitVec 16) : State :=
  let x := s.tin i
  let x := { x with phase := 0, index := x.index + 1 }
  let close := match x.last with
    | some l => decide (t < l + 32 * pipsPerTick)
    | none => false
  let s := s.setTin i { x with last := some t }
  if close then
    ((s.bump (BLT_TIN_LOST_COUNT.reg i)).tinFault (BLT_TIN_STATUS.OVR_STAMP i) i (2 ^ 8)).beltEdge i none
  else
    let s := (s.setReg64 (BLT_TIN_LAST_LO.reg i) (t / pipsPerTick)).setFld (BLT_TIN_LAST_PIP.PIP i) (t % pipsPerTick)
    let x := s.tin i
    let s := if x.gate.isSome then s.setTin i { x with stamps := (x.index, t) :: x.stamps } else s
    (s.beltEdge i (some t)).pairStamp i t differs

/-- The edge is of the selected slope (R176). -/
def State.slopeCounts (s : State) (i : Nat) (rising : Bool) : Bool :=
  match s.fld (BLT_TIN_CFG.SLOPE i) with
  | 1 => !rising
  | 2 => true
  | _ => rising

/-- TIN_EDGE (R176–R178): an edge at input `i` at the present tick and `pip`. `short`: it ends a pulse shorter than 10 ns,
and whether counting caught it. -/
def execTinEdge (i : Fin 8) (rising : Bool) (pip : Fin 256) (short : Option Bool) (differs : BitVec 16) (s : State) :
    Host.Outcome State Fault Refusal :=
  .next (
    let s := s.setTin i.val { s.tin i.val with level := rising }
    if !s.flag (BLT_TIN_CFG.EN i.val) then s
    else
      let s := if short.isSome then s.tinFault (BLT_TIN_STATUS.OVR_PULSE i.val) i.val (2 ^ 9) else s
      if !s.slopeCounts i.val rising || short == some false then s
      else
        let s := s.setReg64 (BLT_TIN_COUNT_LO.reg i.val) (s.reg64 (BLT_TIN_COUNT_LO.reg i.val) + 1)
        let x := s.tin i.val
        let t := s.time * pipsPerTick + pip.val
        let s := if x.phase + 1 < s.prescale i.val then (s.setTin i.val { x with phase := x.phase + 1 }).beltEdge i.val none
          else (s.stampEdge i.val t differs).predict
        s.snapTurns t)

/-! Gate closes (R180, R190, R192). -/

/-- The latest result of input `i` stands: it is valid and closed no more than 2 × GATE_MS + 1 ms ago (R190). -/
def State.rateStands (s : State) (i : Nat) : Bool :=
  match (s.tin i).result with
  | some t => decide (s.time ≤ t + (2 * clampNat 1 10000 (s.fld (BLT_TIN_GATE.GATE_MS i)) + 1) * ticksPerMs)
  | none => false

/-- SPEED and SPEED_VALID of belt `k`, from the latest result of its encoder (R188, R190). With CPM 0 the quotient is a free value.
DEDUCED, log entry 72. -/
def State.beltSpeed (s : State) (k : Nat) : State :=
  let i := s.fld (BLT_BELT_CFG.ENC_IN k)
  let cpm := (s.reg (BLT_BELT_CPM.reg k)).toNat
  match (s.tin i).rate with
  | some r =>
    if s.beltDefined k && s.rateStands i && (!s.flag (BLT_BELT_CFG.DIR_EN k) || (s.belt k).fwd) then
      let v := if cpm = 0 then s.freeVal else satNat 31 (speedOf r cpm)
      let s := if cpm = 0 then s.drawFree else s
      (s.setNat (BLT_BELT_SPEED.reg k) v).setFlag (BLT_BELT_STATUS.SPEED_VALID k) true
    else (s.setNat (BLT_BELT_SPEED.reg k) 0).setFlag (BLT_BELT_STATUS.SPEED_VALID k) false
  | none => (s.setNat (BLT_BELT_SPEED.reg k) 0).setFlag (BLT_BELT_STATUS.SPEED_VALID k) false

/-- The belts on encoder `i` at its gate's close. -/
def State.speedClose (s : State) (i k : Nat) : State := if s.beltDefined k && s.fld (BLT_BELT_CFG.ENC_IN k) == i then s.beltSpeed k else s

/-- Slip in 0.01 % from the rates and counts per metre of drive and tail (R192): 10,000 (1 − tail / drive). UNVERIFIED, log
entry 73. -/
def slipOf (drive tail : Nat × Nat) (dcpm tcpm : Nat) : Int :=
  let a : Int := (drive.1 * tail.2 * tcpm : Nat)
  let b : Int := (tail.1 * drive.2 * dcpm : Nat)
  satInt 16 (roundDiv (10000 * (a - b)) a.toNat)

/-- Slip of belt `k` at the close of its drive gate. -/
def State.beltSlip (s : State) (i : Nat) (rate : Option (Nat × Nat)) (k : Nat) : State :=
  if !s.beltDefined k || !s.flag (BLT_BELT_CFG.SLIP_EN k) || s.fld (BLT_BELT_CFG.DRIVE_IN k) != i then s
  else
    let j := s.fld (BLT_BELT_CFG.TAIL_IN k)
    let l := if j = i then [] else (s.belt k).tail
    let f := fitStamps l
    let tail : Option (Nat × Nat) :=
      if j = i then rate else if s.minStamps j ≤ f.n then some (f.rate (s.prescale j)) else none
    match rate, tail with
    | some d, some t =>
      let dc := (s.reg (BLT_BELT_DRIVE_CPM.reg k)).toNat
      let tc := (s.reg (BLT_BELT_TAIL_CPM.reg k)).toNat
      let open' := dc = 0 || tc = 0
      let v := if open' then ofBits 16 s.freeVal else slipOf d t dc tc
      let s := if open' then s.drawFree else s
      let s := (s.setFldInt (BLT_BELT_STATUS.SLIP k) v).setFlag (BLT_BELT_STATUS.SLIP_VALID k) true
      let x := s.belt k
      if (clampNat 1 10000 (s.fld (BLT_BELT_SLIP_CFG.SLIP_LIMIT k)) : Int) ≤ v then
        let s := s.setBelt k { x with slipRun := x.slipRun + 1 }
        if max 1 (s.fld (BLT_BELT_SLIP_CFG.SLIP_GATES k)) ≤ x.slipRun + 1 && !s.flag (BLT_BELT_STATUS.SLIP_HIGH k) then
          ((s.setFlag (BLT_BELT_STATUS.SLIP_HIGH k) true).bump (BLT_BELT_SLIP_EVENT_COUNT.reg k)).raiseEvent 35
            (k + toBits 16 v * 2 ^ 16)
        else s
      else (s.setBelt k { x with slipRun := 0 }).setFlag (BLT_BELT_STATUS.SLIP_HIGH k) false
    | _, _ => (s.setBelt k { s.belt k with slipRun := 0 }).setFlag (BLT_BELT_STATUS.SLIP_VALID k) false

/-- The result of a gate of input `i` (R180), then what follows it. `short`: a GATE-pin gate open for less than 1 ms. DEDUCED,
log entry 71. -/
def State.closeGate (s : State) (i : Nat) (differs : BitVec 16) : State :=
  let x := s.tin i
  match x.gate with
  | none => s
  | some since =>
    let f := fitStamps x.stamps
    let valid := decide (s.minStamps i ≤ f.n)
    let r := f.rate (s.prescale i)
    let mode := s.fld (BLT_TIN_GATE.MODE i)
    let s := s.setFlag (BLT_TIN_STATUS.SHORT_GATE i) (mode == 2 && decide (s.time - since < ticksPerMs))
    let s := s.setReg64 (BLT_TIN_FREQ_LO.reg i) (if valid then rateTimes 1000000 r else 0)
    let s := s.setFlag (BLT_TIN_STATUS.VALID i) valid
    let s := if valid then (s.setNat (BLT_TIN_NUSED.reg i) (satNat 32 f.n)).setFld (BLT_TIN_STATUS.RESID_PIPS i) (satNat 16 f.resid) else s
    let s := s.setTin i { x with
      gate := none
      stamps := []
      rate := if valid then some r else x.rate
      result := if valid then some s.time else none }
    let rate := if valid then some r else none
    let s := (List.range 8).foldl (fun s k => (s.speedClose i k).beltSlip i rate k) s
    let s := s.predict.snapTurns (s.time * pipsPerTick)
    let s := if mode = 0 then s.openGate i else s
    if valid then
      s.evalSource 6 i (fun _ => some { value := satInt 32 (rateTimes 10 r), time := s.time, span := s.time }) differs
    else s

/-- TIN_GATE_CLOSE (R179, R180): GATE_MS has passed. -/
def execTinGateClose (i : Fin 8) (differs : BitVec 16) (s : State) : Host.Outcome State Fault Refusal :=
  .next (s.closeGate i.val differs)

/-- GATE_PIN_EDGE (R179): the GATE input changes level. -/
def execGatePinEdge (high : Bool) (differs : BitVec 16) (s : State) : Host.Outcome State Fault Refusal :=
  .next (
    let active := high != s.flag BLT_GATE_CFG.POL
    (List.range 8).foldl (fun s i =>
      if !s.flag (BLT_TIN_CFG.EN i) || s.fld (BLT_TIN_GATE.MODE i) != 2 then s
      else if active then (if (s.tin i).gate.isNone then s.openGate i else s)
      else s.closeGate i differs) s)

/-- SPEED_VALID_EXPIRY (R190). -/
def execSpeedValidExpiry (k : Fin 8) (s : State) : Host.Outcome State Fault Refusal :=
  .next ((s.setNat (BLT_BELT_SPEED.reg k.val) 0).setFlag (BLT_BELT_STATUS.SPEED_VALID k.val) false).predict

/-! The route table (R195). -/

/-- A route entry in force: number, belt, first and last bin, and its path. -/
structure Route where
  belt : Nat
  first : Nat
  last : Nat
  neg : Bool
  ratio : Nat
  x0 : Nat
  deriving DecidableEq, Repr

/-- Enabled entries that are not ignored, with their ports, in order. -/
def State.routes (s : State) : List (Nat × Route) :=
  (List.range 256).filterMap (fun r =>
    if s.flag (BLT_ROUTE_A.EN r) && !s.routeIgnored r then
      some (s.fld (BLT_ROUTE_A.PORT r),
        { belt := s.fld (BLT_ROUTE_A.BELT r), first := s.fld (BLT_ROUTE_B.FIRST_BIN r), last := s.fld (BLT_ROUTE_B.LAST_BIN r)
          neg := s.flag (BLT_ROUTE_A.SIGN r), ratio := clampNat 4096 65536 (s.fld (BLT_ROUTE_A.RATIO r))
          x0 := (s.reg (BLT_ROUTE_C.reg r)).toNat })
    else none)

/-- Path distance of a bin in mm, with the group index × 10,000 (R14, R195): half a bin is 149,896,229 / (20 GI) mm. -/
def Route.path (r : Route) (gi b : Nat) : Int :=
  let d : Int := (r.ratio * (2 * (b - r.first) + 1) * 149896229 : Nat)
  (r.x0 : Int) + roundDiv (if r.neg then -d else d) (65536 * 20 * gi)

/-- Fixed cell of bin `b`: the belt's bins of lower-numbered entries, plus its place (R197). -/
def fixedCell (belt b port : Nat) : List (Nat × Route) → Nat → Option (Nat × Route)
  | [], _ => none
  | (p, r) :: t, n =>
    if p = port && decide (r.first ≤ b) && decide (b ≤ r.last) then (if r.belt = belt then some (n, r) else none).map (fun x => (x.1 + (b - r.first), r))
    else fixedCell belt b port t (if r.belt = belt then n + (r.last + 1 - r.first) else n)

/-- The entry of a bin: the lowest-numbered that holds it. -/
def routeOf (port b : Nat) (rs : List (Nat × Route)) : Option Route :=
  (rs.find? (fun x => x.1 == port && decide (x.2.first ≤ b) && decide (b ≤ x.2.last))).map (·.2)

/-- Fixed cells in use of a belt. -/
def fixedCount (belt : Nat) (rs : List (Nat × Route)) : Nat :=
  min 65536 (rs.foldl (fun n x => if x.2.belt = belt then n + (x.2.last + 1 - x.2.first) else n) 0)

/-! Accumulation (R196–R200). -/

/-- Base address of a belt's maps, and of one map. -/
def State.mapBase (s : State) (k : Nat) (fixed mapB : Bool) : Nat :=
  s.fld BLT_REGION.BASE_MIB * 2 ^ 20 + 0x400000 * k + (if fixed then 0x200000 else 0) + (if mapB then 0x100000 else 0)

/-- Cells of a belt map. -/
def State.mapCells (s : State) (k : Nat) : Nat := s.fld (BLT_BELT_MAP.CELLS_M1 k) + 1

/-- Add an energy to the cell at an address (R197, R199). -/
def State.addCell (s : State) (a e : Nat) : State :=
  let sum := (Memory.readLE 0 s.dram a 8 + e) % 2 ^ 64
  let n := (Memory.readLE 0 s.dram (a + 8) 4 + 1) % 2 ^ 32
  let mx := max (Memory.readLE 0 s.dram (a + 12) 4) e
  s.setDram a (leBytes 8 sum ++ leBytes 4 n ++ leBytes 4 mx)

/-- The energy of an increment (R196). -/
def beltEnergy (delta : Int) : Nat :=
  let x := (roundDiv delta 4096).natAbs
  x * x

/-- Belt cell of a path distance at a position (R197): P and P_ref in 2⁻⁸ count, x in mm. -/
def State.beltCell (s : State) (k : Nat) (p8 ref8 x : Int) : Nat :=
  let len : Int := (s.beltLen k * 256000000 : Nat)
  let u := ((p8 - ref8) * 1000000 - 256 * x * (s.reg (BLT_BELT_CPM.reg k)).toNat) % len
  (u * s.mapCells k / len).toNat

/-- The map pair a frame of a round belongs to (R200). -/
def Belt.mapOf (x : Belt) (round : Nat) : Option Bool :=
  if x.isOpen && decide (x.openRound ≤ round) then some x.mapB
  else (x.closing.reverse.find? (fun c => decide (c.openRound ≤ round) && decide (round < c.closeRound))).map (·.mapB)

/-- One bin of a frame (R196, R197). `st` is the state with the settings of the frame's round. DEDUCED, log entry 74. -/
def State.beltBin (st : State) (rs : List (Nat × Route)) (t : Turn) (b : Nat) (delta : Int) (qual : Nat) (s : State) : State :=
  match routeOf t.port b rs with
  | none => s
  | some r =>
    match t.belts.find? (fun x => x.1 == r.belt), (s.belt r.belt).mapOf t.round with
    | some (_, p8, ref8), some mapB =>
      -- CLIP, SETTLE, NEAR, FADE, GAP or BLANKED (R120)
      if (BitVec.ofNat 8 qual &&& 0xAF) != 0 then s.bump BLT_EXCLUDED_COUNT.reg
      else
        let e := beltEnergy delta
        let c := st.beltCell r.belt p8 ref8 (r.path (st.fld (PRT_GROUP_INDEX.GI t.port)) b)
        let s := s.addCell (s.mapBase r.belt false mapB + 16 * c) e
        match fixedCell r.belt b t.port rs 0 with
        | some (n, _) =>
          if n < 65536 then s.addCell (s.mapBase r.belt true mapB + 16 * n) e
          else s.setFlag (BLT_BELT_STATUS.FIXED_FULL r.belt) true
        | none => s
    | _, _ => s

/-- All bins of a frame, from bin `b`. -/
def State.beltBins (st : State) (rs : List (Nat × Route)) (t : Turn) : Nat → List (Int × Nat) → State → State
  | _, [], s => s
  | b, (d, q) :: vs, s => State.beltBins st rs t (b + 1) vs (State.beltBin st rs t b d q s)

/-- A frame of stream index `j` reaches the engine (R196, R198, R203). `real`: processed from samples; `full`: the
engine's queue is full. DEDUCED, log entry 74. -/
def State.beltFrame (s : State) (t : Turn) (j : Nat) (real full : Bool) (vs : List (Int × Nat)) : State :=
  if !s.flag BLT_CFG.EN || j % ({ s with regs := t.regs }.fld BLT_CFG.FRAME_DECIM_M1 + 1) != 0 then s
  else if s.flag BLT_STATUS.FAILED then s.bump BLT_DROP_FAILED_COUNT.reg
  else if !real then s
  else if full then (s.bump BLT_DROP_OVERRUN_COUNT.reg).bump (DMC_CLIENT_OVERRUN_COUNT.reg 1)
  else
    let st := { s with regs := t.regs }
    State.beltBins st st.routes t 0 vs s

/-! Map periods (R200–R202). -/

/-- A period opens on the next pair. -/
def State.openMap (s : State) (k : Nat) : State :=
  s.setBelt k { s.belt k with isOpen := true, revs := 0, openRound := s.ctl.round, openTime := s.time }

/-- The open period closes at the present round start; `regs`: the settings it ran under. -/
def State.closeMap (s : State) (k : Nat) (regs : SMap Word) (cut timeout : Bool) : State :=
  let x := s.belt k
  if !x.isOpen then s
  else
    let c : MapClose := { openRound := x.openRound, closeRound := s.ctl.round, revs := x.revs, cut := cut, timeout := timeout, mapB := x.mapB, regs := regs }
    let s := s.setBelt k { x with closing := x.closing ++ [c], mapB := !x.mapB }
    s.openMap k

/-- Belts at a round start (R191, R194, R200): positions, the reference of belts without an index, and the map periods. -/
def State.beltRound (s : State) : State :=
  (List.range 8).foldl (fun s k =>
    if !s.beltDefined k then s.setReg64 (BLT_BELT_POS_LO.reg k) (2 ^ 64 - 1)
    else
      let p := s.beltNow k
      let s := s.setReg64 (BLT_BELT_POS_LO.reg k) (toBits 64 p)
      let x := s.belt k
      let s := if !x.refSet && !s.flag (BLT_BELT_CFG.INDEX_EN k) then s.setBelt k { x with ref8 := p, refSet := true } else s
      if !s.flag BLT_CFG.EN || s.flag BLT_STATUS.FAILED then s
      else if !(s.belt k).isOpen then s.openMap k
      else
        let x := s.belt k
        let lim := s.fld (BLT_BELT_EVT.MAP_MAX_S k)
        if max 1 (s.fld (BLT_BELT_MAP.MAP_REVS k)) ≤ x.revs then s.closeMap k s.regs false false
        else if lim != 0 && decide (lim * ticksPerS ≤ s.time - x.openTime) then s.closeMap k s.regs false true
        else s) s

/-- Round-mode gates open at a round start (R179). -/
def State.gateRound (s : State) : State :=
  (List.range 8).foldl (fun s i =>
    if s.flag (BLT_TIN_CFG.EN i) && s.fld (BLT_TIN_GATE.MODE i) = 1 && (s.tin i).gate.isNone then s.openGate i else s) s

/-- START: positions count from 0; the reference of a belt with an index is open until its first index edge, a free value;
every map is zeroed (R189, R191, R202). UNVERIFIED, log entry 73. -/
def State.beltStart (s : State) : State :=
  let s := (List.range 8).foldl (fun s k =>
    let x : Belt := { meas := (s.belt k).meas }
    if s.flag (BLT_BELT_CFG.INDEX_EN k) then s.drawFree.setBelt k { x with ref8 := s.freeVal } else s.setBelt k x) s
  if s.flag BLT_CFG.EN then (s.zeroDram (s.fld BLT_REGION.BASE_MIB * 2 ^ 20) (32 * 2 ^ 20)) else s

/-- STOP: each open period is abandoned (R202). DEDUCED, log entry 43. -/
def State.beltStop (s : State) : State :=
  (List.range 8).foldl (fun s k => s.setBelt k { s.belt k with isOpen := false, closing := [] }) s

/-- The settings of belt `k` whose change closes its period (R202). -/
def State.beltKey (s : State) (k : Nat) : List Nat :=
  [s.beltLen k, (s.reg (BLT_BELT_CPM.reg k)).toNat, s.mapCells k, s.fld (BLT_BELT_CFG.INDEX_EN k), s.fld (BLT_BELT_CFG.INDEX_IN k)]

/-- The route entries of belt `k`, with those that named it. -/
def State.beltRouteKey (s : State) (k : Nat) : List Nat :=
  ((List.range 256).filter (fun r => s.fld (BLT_ROUTE_A.BELT r) == k && s.reg (BLT_ROUTE_A.reg r) != 0)).flatMap (fun r =>
    [r, (s.reg (BLT_ROUTE_A.reg r)).toNat, (s.reg (BLT_ROUTE_B.reg r)).toNat, (s.reg (BLT_ROUTE_C.reg r)).toNat])

/-- Belt `k` ceases to be defined (R188): it has no speed and no slip, and its open period is abandoned and its pair zeroed. DESIGN
CHOICE, log entry 123. -/
def State.beltUndefine (s : State) (k : Nat) : State :=
  let s := ((s.setFlag (BLT_BELT_STATUS.SLIP_VALID k) false).setFld (BLT_BELT_STATUS.SLIP k) 0).beltSpeed k
  let x := s.belt k
  let s := s.setBelt k { x with isOpen := false, tail := [], slipRun := 0 }
  if x.isOpen && !s.flag BLT_STATUS.FAILED then
    (s.zeroDram (s.mapBase k false x.mapB) (2 ^ 20)).zeroDram (s.mapBase k true x.mapB) (2 ^ 20)
  else s

/-- What follows for belt `k` when its settings or its input's change: the definition, the speed (R188, R190), LEN_MISMATCH (R191), the
multiple of BELT_LEN that revolutions are counted from (R200), and its period (R202). -/
def State.beltFollow (old s : State) (k : Nat) : State :=
  let s := s.beltSpeed k
  let s := if old.beltLen k = s.beltLen k && old.fld (BLT_BELT_CFG.INDEX_EN k) = s.fld (BLT_BELT_CFG.INDEX_EN k) then s
    else (s.setBelt k { s.belt k with mult := ((s.belt k).past8 / ((s.beltLen k * 256 : Nat) : Int)).toNat }).lenShow k
  if old.beltDefined k && !s.beltDefined k then s.beltUndefine k
  else if (old.beltKey k = s.beltKey k && old.beltRouteKey k = s.beltRouteKey k) || s.flag BLT_STATUS.FAILED then s
  else s.closeMap k old.regs true false

/-- BLT_SET at its round start, or a write in SETUP: inputs, pair units and belts follow. -/
def State.bltChange (old new : State) : State :=
  (List.range 8).foldl (fun s k =>
    if old.reg (BLT_BELT_CFG.reg k) = s.reg (BLT_BELT_CFG.reg k) && old.beltKey k = s.beltKey k && old.beltRouteKey k = s.beltRouteKey k
        && old.beltDefined k = s.beltDefined k then s
    else State.beltFollow old s k) (State.pairChangeAll old (State.tinChangeAll old new))

/-! Scoring (R200, R201, R329). -/

/-- A cell of a map: number, sum, count, max. -/
structure MapCell where
  cell : Nat
  sum : Nat
  count : Nat
  mx : Nat
  deriving DecidableEq, Repr

/-- The cells of a map that hold anything. -/
def State.readMap (s : State) (base n : Nat) : List MapCell :=
  ((List.range n).map (fun c =>
    ({ cell := c, sum := Memory.readLE 0 s.dram (base + 16 * c) 8, count := Memory.readLE 0 s.dram (base + 16 * c + 8) 4
       mx := Memory.readLE 0 s.dram (base + 16 * c + 12) 4 } : MapCell))).filter (fun x => x.count != 0)

/-- Cells with enough hits; Σsum and Σcount over them; and those flagged (R201). -/
def scoreMap (minHits ratio : Nat) (cs : List MapCell) : Nat × Nat × List MapCell :=
  let ok := cs.filter (fun c => decide (minHits ≤ c.count))
  let sum := ok.foldl (fun n c => n + c.sum) 0
  let cnt := ok.foldl (fun n c => n + c.count) 0
  (sum, cnt, ok.filter (fun c => decide (sum * ratio * c.count ≤ c.sum * cnt * 16)))

/-- Insert by descending mean, lower cell numbers first among equals. DEDUCED, log entry 74. -/
def insCell (c : MapCell) : List MapCell → List MapCell
  | [] => [c]
  | d :: ds => if d.sum * c.count < c.sum * d.count then c :: d :: ds else d :: insCell c ds

/-- The mean of a cell, rounded and saturated. -/
def MapCell.mean (c : MapCell) : Nat := satNat 32 (roundDivNat c.sum c.count)

/-- An entry of the list block. -/
def MapCell.bytes (c : MapCell) : List Byte := leBytes 4 c.cell ++ leBytes 4 c.count ++ leBytes 4 c.mean ++ leBytes 4 c.mx

/-- Full blocks of a map: 16,384 cells each (R329). -/
def State.fullBlocks (s : State) (hdr : Nat → List Byte) (vals : List Nat) : Nat → Nat → State
  | 0, _ => s
  | n + 1, first =>
    if vals = [] then s
    else (s.pushBlock 20 0x0A (hdr first) (pad8 ((vals.take 16384).flatMap (leBytes 4)))).fullBlocks hdr (vals.drop 16384) n (first + 16384)

/-- The mean of every cell of a map, 0 below MIN_HITS. -/
def mapMeans (n minHits : Nat) (cs : List MapCell) : List Nat :=
  (List.range n).map (fun i =>
    match cs.find? (fun c => c.cell == i) with
    | some c => if minHits ≤ c.count then c.mean else 0
    | none => 0)

/-- The product of a closed period, under the settings it ran under: list block, full blocks, event, counters, and the zeroed pair (R200, R201, R329). -/
def State.scoreClose (s : State) (k : Nat) (c : MapClose) : State :=
  let st := { s with regs := c.regs }
  let cells := st.mapCells k
  let fixed := fixedCount k st.routes
  let minHits := max 1 (st.fld (BLT_BELT_MAP.MIN_HITS k))
  let ratio := max 17 (st.fld (BLT_BELT_EVT.RATIO k))
  let ba := s.mapBase k false c.mapB
  let fa := s.mapBase k true c.mapB
  let bm := s.readMap ba cells
  let fm := s.readMap fa fixed
  let (bs, bn, bf) := scoreMap minHits ratio bm
  let (fs, fn, ff) := scoreMap minHits ratio fm
  let sort (l : List MapCell) : List MapCell := (l.foldl (fun m x => insCell x m) []).take 64
  let bl := sort bf
  let fl := sort ff
  let full := bitOf (st.fld CMP_MAP_CFG.FULL) k
  let flags := bitAt c.cut 0 + bitAt c.timeout 1 + bitAt (decide (64 < bf.length)) 2 + bitAt (decide (64 < ff.length)) 3 + bitAt full 4
  let mean (sum n : Nat) : Nat := if n = 0 then 0 else satNat 32 (roundDivNat sum n)
  let hdr (fl' first : Nat) : List Byte :=
    leBytes 8 c.openRound ++ leBytes 8 c.closeRound ++ leBytes 4 (mean bs bn) ++ leBytes 4 (mean fs fn) ++ leBytes 2 bl.length
      ++ leBytes 2 fl.length ++ leBytes 4 cells ++ leBytes 4 fixed ++ leBytes 1 k ++ leBytes 1 fl' ++ leBytes 2 (satNat 16 c.revs)
      ++ leBytes 4 first ++ zeroBytes 4
  let s := s.pushBlock 20 0x0A (hdr flags 0) ((bl ++ fl).flatMap MapCell.bytes)
  let s := if full then
      (s.fullBlocks (hdr (flags + 32)) (mapMeans cells minHits bm) 4 0).fullBlocks (hdr (flags + 96)) (mapMeans fixed minHits fm) 4 0
    else s
  let s := (s.zeroDram ba (2 ^ 20)).zeroDram fa (2 ^ 20)
  let s := (s.setFld (BLT_BELT_EVENT.BELT_CELLS k) (satNat 16 bf.length)).setFld (BLT_BELT_EVENT.FIXED_CELLS k) (satNat 16 ff.length)
  let s := s.bump (BLT_BELT_MAP_COUNT.reg k)
  if bf = [] && ff = [] then s else s.raiseEvent 33 (k + satNat 16 bf.length * 2 ^ 16)

/-- BELT_MAP_SCORE_DONE (R200): the oldest closed period of belt `k`; nothing is written after a DRAM failure (R203). -/
def execBeltMapScoreDone (k : Fin 8) (s : State) : Host.Outcome State Fault Refusal :=
  .next (
    let x := s.belt k.val
    match x.closing with
    | [] => s
    | c :: cs =>
      let s := s.setBelt k.val { x with closing := cs }
      if s.flag BLT_STATUS.FAILED then s else s.scoreClose k.val c)

/-- BLT_BIN_RATE at a commit: mapped bins per second in thousands, at PERIOD (R198). -/
def State.showBinRate (s : State) : State :=
  let c := schedCfg s.regs
  let rs := s.routes
  let bins := c.entries.foldl (fun n e =>
    if e.kind = 0 then
      n + ((List.range (c.plan e.plan).bins).filter (fun b => (routeOf e.port b rs).isSome)).length
    else n) 0
  s.setNat BLT_BIN_RATE.reg (roundDivNat (bins * 400000) (max 1 c.period * (s.fld BLT_CFG.FRAME_DECIM_M1 + 1)))

end Sys2Proof.Machine
end

