-- ==== Sys2Proof/Machine/Commit.lean ====
section
/-!
DEFINITION. The commit check: the ordered checks of R80, the boundary checks of R82, the longest free interval of R469
and the bank check of R81.
-/
namespace Sys2Proof.Machine

/-- Outcome of a commit check, as LCH_COMMIT_STATUS records it, with the margin of an accepted one. -/
structure CommitResult where
  reason : Nat := 0
  transition : Bool := false
  plan : Nat := 0
  entryA : Nat := 0
  entryB : Nat := 0
  port : Nat := 0
  conflict : Nat := 0
  margin : Nat := 0
  deriving DecidableEq, Repr

/-- LCH_COMMIT_STATUS of an outcome. -/
def CommitResult.word (r : CommitResult) : Nat :=
  r.reason * 2 ^ 24 + (if r.transition then 2 ^ 23 else 0) + r.plan * 2 ^ 20 + r.entryA * 2 ^ 14 + r.entryB * 2 ^ 8
    + r.port * 16 + r.conflict

/-- A rejection that names one entry. -/
def reject (reason a : Nat) : CommitResult := { reason := reason, entryA := a, entryB := a }

/-- Periods, limits and modes of rule 3 (R73, R76, R77). -/
def Cfg.roundInvalid (c : Cfg) : Bool :=
  let p := c.period
  let m := c.fld LCH_ROUND_MAX.MAX_PERIOD
  let g := c.fld LCH_TABLE_CFG.CAL_GAP
  decide (p < 8000) || decide (4000000 < p) || decide (4000000 < m) || decide (m < p)
    || c.fld LCH_BELT_STEP.STEP == 0 || c.fld LCH_TABLE_CFG.BRL_ROUND_EVERY == 1 || decide (g < 4) || decide (64 < g)
    || (c.flag LCH_ROUND_CFG.PPS_ALIGN && c.beltLocked) || decide (64 < c.turnCount)

/-- Rule 6: the first entry out of order or at or beyond PERIOD (R74). -/
def orderFault (period : Nat) : Option Nat → List Entry → Option Nat
  | _, [] => none
  | prev, e :: es =>
    if period ≤ e.offset then some e.index
    else match prev with
      | some o => if e.offset ≤ o then some e.index else orderFault period (some e.offset) es
      | none => orderFault period (some e.offset) es

/-- Rule 9: a checked peak above 500 mW. -/
def Cfg.peakBad (c : Cfg) (p : Nat) : Bool :=
  let q := c.plan p
  let brl := q.brlOnly || q.share != 0 || c.wholeBrl
  (!q.brlOnly && decide (500 < q.peak)) || (brl && decide (500 < q.brlPeak))

/-- Rule 10: any other checked field outside R70. -/
def Cfg.planBad (c : Cfg) (p : Nat) : Bool :=
  let q := c.plan p
  let brl := q.brlOnly || q.share != 0 || c.wholeBrl
  let out (lo hi x : Nat) : Bool := decide (x < lo) || decide (hi < x)
  out 64 65535 q.bins || out 0 1365 q.lead || decide (66900 < q.lead + q.bins)
    || (!q.brlOnly && (out 1 15 q.tones || out 80 8000 q.chirp || out 1 500 q.peak || out 2 64 q.gauge || out 0 64 q.share))
    || (brl && (out 256 1280 q.width || out 1 500 q.brlPeak))

/-- Two spans lie closer than `gap`. -/
def clash (gap : Int) (a b : Int × Int) : Bool := decide (a.1 < b.2 + gap) && decide (b.1 < a.2 + gap)

/-- Shift a span. -/
def shift (d : Int) (a : Int × Int) : Int × Int := (a.1 + d, a.2 + d)

/-- The first pair of spans closer than `gap`, cyclically over a period; a span also meets its own next copy. -/
def firstClash (period gap : Int) : List (Nat × Int × Int) → Option (Nat × Nat)
  | [] => none
  | (i, a) :: t =>
    if period < a.2 - a.1 + gap then some (i, i)
    else match t.find? (fun (_, b) => clash gap a b || clash gap a (shift period b) || clash gap a (shift (-period) b)) with
      | some (j, _) => some (i, j)
      | none => firstClash period gap t

/-- The first old span closer than `gap` to a new one, the old round ending where the new one starts (R82). -/
def crossClash (oldPeriod gap : Int) (olds news : List (Nat × Int × Int)) : Option (Nat × Nat) :=
  olds.findSome? (fun (i, a) =>
    (news.find? (fun (_, b) => clash gap (shift (-oldPeriod) a) b)).map (fun (j, _) => (i, j)))

/-- Ports named by the table, ascending. -/
def Cfg.ports (c : Cfg) : List Nat := (List.range 12).filter (fun n => c.portEntries n != [])

/-- Source spans with their entry numbers. -/
def Cfg.sourceSpans (c : Cfg) : List (Nat × Int × Int) := c.entries.map (fun e => (e.index, c.sourceSpan e))

/-- Port spans of a port with their entry numbers. -/
def Cfg.portSpans (c : Cfg) (n : Nat) : List (Nat × Int × Int) := (c.portEntries n).map (fun e => (e.index, c.portSpan e))

/-- Period in units. -/
def Cfg.periodU (c : Cfg) : Int := (c.period * uTick : Nat)

/-- Launch instants of one port less than 25 µs apart: consecutive entries, then around the round (rule 14). -/
def rateFault (period : Nat) (first : Option Entry) : List Entry → Option (Nat × Nat)
  | [] => none
  | [e] => match first with
    | some f => if f.offset + period < e.offset + 10000 then some (e.index, f.index) else none
    | none => if period < 10000 then some (e.index, e.index) else none
  | a :: b :: t =>
    if b.offset < a.offset + 10000 then some (a.index, b.index)
    else rateFault period (some (first.getD a)) (b :: t)

/-- A stretch starts later, or is shorter: the choice of R469 keeps the longest, the earliest start among equals. -/
def betterFree (a b : Int × Int) : Bool :=
  decide (b.2 - b.1 < a.2 - a.1) || (decide (a.2 - a.1 = b.2 - b.1) && decide (a.1 < b.1))

/-- The better of an optional stretch and another. -/
def pickFree (m : Option (Int × Int)) (g : Int × Int) : Option (Int × Int) :=
  match m with
  | none => some g
  | some x => if betterFree g x then some g else some x

/-- The free stretches after each span to the next, cyclically; starts taken within the round (R469). -/
def freeAfter (period : Int) (first : Int × Int) : List (Int × Int) → List (Int × Int)
  | [] => []
  | [a] => [(a.2, first.1 + period)]
  | a :: b :: t => (a.2, b.1) :: freeAfter period first (b :: t)

/-- A stretch moved so that its start lies in `[0, period)`. -/
def wrapFree (period : Int) (g : Int × Int) : Int × Int := (g.1 % period, g.1 % period + (g.2 - g.1))

/-- A port's longest free interval from the round start, in units (R469); the whole round when it has no entry. -/
def Cfg.longestFree (c : Cfg) (n : Nat) : Int × Int :=
  let sp := (c.portSpans n).map (fun x => (x.2.1, x.2.2))
  match sp with
  | [] => (0, c.periodU)
  | f :: _ => ((freeAfter c.periodU f sp).map (wrapFree c.periodU)).foldl pickFree none |>.getD (0, 0)

/-- Free stretches of `[at, stop)` left by spans sorted by start. -/
def stretches (stop : Int) : Int → List (Int × Int) → List (Int × Int)
  | at_, [] => if at_ < stop then [(at_, stop)] else []
  | at_, (a, b) :: t => (if at_ < min a stop then [(at_, min a stop)] else []) ++ stretches stop (max at_ b) t

/-- The port's longest free stretch wholly inside the first round after a commit (R82). -/
def firstFree (old new : Cfg) (n : Nat) : Int × Int :=
  let olds := (old.portSpans n).map (fun x => shift (-old.periodU) (x.2.1, x.2.2))
  let news := (new.portSpans n).map (fun x => (x.2.1, x.2.2))
  let nexts := news.map (shift new.periodU)
  (stretches new.periodU 0 (sortGates (olds ++ news ++ nexts))).foldl pickFree none |>.getD (0, 0)

/-- The length of every port's stretch in the first round after a commit command (R82). -/
def firstFrees (old new : Cfg) : SMap Nat :=
  (List.range 12).foldl (fun m n => let f := firstFree old new n; SMap.put (fun _ => 0) m n (f.2 - f.1).toNat) []

/-- The shortest free stretch rule 16 asks for: CAL_GAP + 2 µs + 20 ns. -/
def Cfg.calNeed (c : Cfg) : Int := ((c.fld LCH_TABLE_CFG.CAL_GAP + 2) * uUs + u20ns : Nat)

/-! The bank check (R81). -/

/-- Refill of a bank at `mw` over a time, rounded down and capped at 40,000 nJ (R81). -/
def refillBank (bank mw t : Nat) : Nat := min 40000 (bank + mw * t / uUs)

/-- Advance a bank from `t0` to `t1` with the pumps on inside the given gates only (R49, R81). -/
def advanceBank (mw : Nat) : List (Int × Int) → Nat → Int → Int → Nat
  | [], bank, t0, t1 => if t0 < t1 then decayBank bank (t1 - t0).toNat else bank
  | (a, b) :: gs, bank, t0, t1 =>
    if t1 ≤ t0 then bank
    else if b ≤ t0 then advanceBank mw gs bank t0 t1
    else
      let s := max t0 (min a t1)
      let bank := decayBank bank (s - t0).toNat
      let e := max s (min b t1)
      let bank := if mw = 0 then decayBank bank (e - s).toNat else refillBank bank mw (e - s).toNat
      advanceBank mw gs bank e t1

/-- A draw of the simulation: time, energy and entry. -/
structure Draw where
  time : Int
  energy : Nat
  entry : Nat
  deriving DecidableEq, Repr

/-- Energy and duration of the largest part B of the replica cycle (R72). -/
def Cfg.largestReplica (c : Cfg) : Nat × Nat :=
  c.replicaCycle.foldl (fun m r => if m.1 < r.energy then (r.energy, r.dur) else m) (0, 0)

/-- The draws of one round from a base time (R81). -/
def Cfg.draws (c : Cfg) (base : Int) : List Draw :=
  c.entries.flatMap (fun e =>
    let t := base + (e.offset * uTick : Nat)
    if e.onPort then
      let (nj, d) := c.largestDraw e
      [⟨t - (d / 2 : Nat), nj, e.index⟩]
    else if c.diagActive then [⟨t, 500 + c.largestReplica.1, e.index⟩] else [])

/-- The pump gates of the turns of one round from a base time (R56); the whole round with ECO_EN = 0. -/
def Cfg.gates (c : Cfg) (base : Int) (period : Int) : List (Int × Int) :=
  if !c.flag SRC_PUMP_CFG.ECO_EN then [(base, base + period)]
  else c.entries.flatMap (fun e => if e.onPort then [c.entryGate base (c.largestDraw e).2 e] else [])

/-- The 8 µs pre-openings of the diagnostic turns of one round from a base time (R63), in which the bank refills with
ECO_EN = 1 beside the gates (R81). -/
def Cfg.preOpenings (c : Cfg) (base : Int) : List (Int × Int) :=
  if !c.flag SRC_PUMP_CFG.ECO_EN || !c.diagActive then []
  else (c.entries.filter (fun e => !e.onPort)).map (fun e =>
    let t := base + (e.offset * uTick : Nat)
    (t - (8 * uUs : Nat), t))

/-- Insert a draw by time, entries in order at equal times. -/
def insDraw (d : Draw) : List Draw → List Draw
  | [] => [d]
  | h :: hs => if d.time < h.time then d :: h :: hs else h :: insDraw d hs

/-- State of the simulation: bank, time, margin, or the entry it rejects. -/
structure BankSim where
  bank : Nat
  time : Int
  margin : Nat
  bad : Option Nat := none
  deriving DecidableEq, Repr

/-- One draw of the simulation. A draw whose leading edge lies before its round's start (OFFSET below half its probe) is taken
at the round's start, after the end of the round before. DESIGN CHOICE, log entry 111. -/
def BankSim.draw (mw : Nat) (gs : List (Int × Int)) (b : BankSim) (d : Draw) : BankSim :=
  if b.bad.isSome then b
  else
    let bank := advanceBank mw gs b.bank b.time d.time
    let time := max b.time d.time
    if bank < d.energy then { b with bank := bank, time := time, bad := some d.entry }
    else { b with bank := bank - d.energy, time := time, margin := min b.margin (bank - d.energy) }

/-- One round of the simulation. -/
def BankSim.round (mw : Nat) (gs : List (Int × Int)) (b : BankSim) (ds : List Draw) (stop : Int) : BankSim :=
  let b := (ds.foldl (fun l d => insDraw d l) []).foldl (fun b d => b.draw mw gs d) b
  if b.bad.isSome then b else { b with bank := advanceBank mw gs b.bank b.time stop, time := max b.time stop }

/-- The stretches in which the simulated bank refills: the gates of R56, merged, and the pre-openings of R63 (R81). -/
def refillSpans (old : Option Cfg) (new : Cfg) (p0 period : Int) : List (Int × Int) :=
  let bases := [p0, p0 + period, p0 + 2 * period]
  let g0 := match old with | some o => o.gates 0 p0 | none => []
  let d0 := match old with | some o => o.preOpenings 0 | none => []
  sortGates (mergeGates (sortGates (g0 ++ bases.flatMap (fun b => new.gates b period))) ++ (d0 ++ bases.flatMap new.preOpenings))

/-- The whole simulation with the new rounds at `period`: the margin, or a rejection (R81). The round of the configuration
being replaced runs at its own PERIOD whatever `period`, and a bank that falls between the two new rounds is reported with
entry 0. DESIGN CHOICE, log entry 111. -/
def bankRun (mw : Nat) (old : Option Cfg) (new : Cfg) (period : Int) : CommitResult :=
  let p0 : Int := match old with | some o => o.periodU | none => 0
  let gs := refillSpans old new p0 period
  let b : BankSim := { bank := 40000, time := 0, margin := 40000 }
  let b0 := match old with | some o => b.round mw gs (o.draws 0) p0 | none => b
  let b1 := b0.round mw gs (new.draws p0) (p0 + period)
  let b2 := b1.round mw gs (new.draws (p0 + period)) (p0 + 2 * period)
  match b2.bad with
  | some e => reject 0x0E e
  | none => if b2.bank < b1.bank then reject 0x0E 0 else { margin := b2.margin }

/-- The bank check alone, at PERIOD, and in belt-locked mode at MAX_PERIOD too (R81). -/
def bankRuns (mw : Nat) (old : Option Cfg) (new : Cfg) : CommitResult :=
  let a := bankRun mw old new new.periodU
  if a.reason ≠ 0 || !new.beltLocked then a
  else
    let b := bankRun mw old new (new.fld LCH_ROUND_MAX.MAX_PERIOD * uTick : Nat)
    if b.reason ≠ 0 then b else { margin := min a.margin b.margin }

/-- The bank check with its TRANSITION bit: a failure that the new configuration alone does not have arises from the round
being replaced (R82). DEDUCED, log entry 111. -/
def bankCheck (mw : Nat) (old : Option Cfg) (new : Cfg) : CommitResult :=
  let r := bankRuns mw old new
  if r.reason ≠ 0 && old.isSome then { r with transition := (bankRuns mw none new).reason == 0 } else r

/-- What the check asks of the rest of the device: the laser, the part, the refill rate, whether the belt named is
defined (R188), and the conflict found by an owning block (rule 18). -/
structure CommitEnv where
  locked : Bool
  ports : Nat
  refill : Nat
  beltDefined : Bool
  conflict : Nat
  deriving DecidableEq, Repr

/-- Rules 1–12: the checks of one configuration alone. -/
def staticCheck (v : CommitEnv) (c : Cfg) : Option CommitResult :=
  let es := c.entries
  let named := (List.range 8).filterMap (fun p => (es.find? (fun e => e.onPort && e.plan == p)).map (fun e => (p, e.index)))
  let diags := es.filter (fun e => e.kind == 2)
  if !v.locked then some (reject 0x11 0)
  else if c.turnCount = 0 then some (reject 0x01 0)
  else if c.roundInvalid then some (reject 0x02 0)
  else if c.flag LCH_ROUND_CFG.PPS_ALIGN && 400000000 % c.period != 0 then some (reject 0x03 0)
  else if c.beltLocked && !v.beltDefined then some (reject 0x04 0)
  else match orderFault c.period none es with
  | some i => some (reject 0x05 i)
  | none =>
  match es.find? (fun e => (e.onPort && decide (v.ports ≤ e.port)) || (e.kind == 2 && e.port != 15)) with
  | some e => some (reject 0x06 e.index)
  | none =>
  match es.find? (fun e => e.kind == 3 || (e.onPort && (c.plan e.plan).brlOnly != (e.kind == 1))) with
  | some e => some (reject 0x08 e.index)
  | none =>
  match named.find? (fun x => c.peakBad x.1) with
  | some (p, i) => some { reject 0x09 i with plan := p }
  | none =>
  match named.find? (fun x => c.planBad x.1) with
  | some (p, i) => some { reject 0x07 i with plan := p }
  | none =>
    if c.diagActive && diags = [] then some (reject 0x0F 0)
    else match diags with
      | _ :: d :: _ => some (reject 0x10 d.index)
      | _ => none

/-- A spacing rejection between two entries. -/
def rejectPair (reason : Nat) (trans : Bool) (port : Nat) (p : Nat × Nat) : CommitResult :=
  { reason := reason, transition := trans, entryA := p.1, entryB := p.2, port := port }

/-- Rule 13: source spacing, within the round and across the boundary. -/
def sourceCheck (old : Option Cfg) (c : Cfg) : Option CommitResult :=
  match firstClash c.periodU 0 c.sourceSpans with
  | some p => some (rejectPair 0x0A false 0 p)
  | none => old.bind (fun o => (crossClash o.periodU 0 o.sourceSpans c.sourceSpans).map (rejectPair 0x0A true 0))

/-- Rule 14 for one port. -/
def rateCheck (old : Option Cfg) (c : Cfg) (n : Nat) : Option CommitResult :=
  match rateFault c.period none (c.portEntries n) with
  | some p => some (rejectPair 0x0C false n p)
  | none => old.bind (fun o =>
      match (o.portEntries n).getLast?, (c.portEntries n).head? with
      | some a, some b =>
        if b.offset + o.period < a.offset + 10000 then some (rejectPair 0x0C true n (a.index, b.index)) else none
      | _, _ => none)

/-- Rule 15 for one port. -/
def portCheck (old : Option Cfg) (c : Cfg) (n : Nat) : Option CommitResult :=
  match firstClash c.periodU u40ns (c.portSpans n) with
  | some p => some (rejectPair 0x0B false n p)
  | none => old.bind (fun o => (crossClash o.periodU u40ns (o.portSpans n) (c.portSpans n)).map (rejectPair 0x0B true n))

/-- Rule 16 for one port. -/
def calCheck (old : Option Cfg) (c : Cfg) (n : Nat) : Option CommitResult :=
  let e := match (c.portEntries n).head? with | some e => e.index | none => 0
  let f := c.longestFree n
  if f.2 - f.1 < c.calNeed then some { reject 0x0D e with port := n }
  else old.bind (fun o =>
    let g := firstFree o c n
    if g.2 - g.1 < c.calNeed then some { reject 0x0D e with port := n, transition := true } else none)

/-- Rules 13–16 in order. -/
def spacingCheck (old : Option Cfg) (c : Cfg) : Option CommitResult :=
  (sourceCheck old c).orElse (fun _ => (c.ports.findSome? (rateCheck old c)).orElse (fun _ =>
    (c.ports.findSome? (portCheck old c)).orElse (fun _ => c.ports.findSome? (calCheck old c))))

/-- The commit check of R80: the first failure in the order of its table; `old` is the configuration being replaced
on a commit command (R82). -/
def commitCheck (v : CommitEnv) (old : Option Cfg) (c : Cfg) : CommitResult :=
  match staticCheck v c with
  | some r => r
  | none =>
    match spacingCheck old c with
    | some r => r
    | none =>
      let b := bankCheck v.refill old c
      if b.reason ≠ 0 then b
      else if v.conflict ≠ 0 then { reason := 0x12, conflict := v.conflict }
      else b

end Sys2Proof.Machine
end

