-- ==== Sys2Proof/Machine/Launch.lean ====
section
/-!
DEFINITION. Turns falling due: launches, slides and skips, and the dump diagnostic turn (R62–R67, R84–R89).
-/
namespace Sys2Proof.Machine

/-- The schedule in force. -/
def State.sch (s : State) : Cfg := schedCfg s.regs

/-- Diagnostic turns are active in the running configuration (R62). -/
def State.diagOn (s : State) : Bool := s.flag SRC_DIAG_STATUS.ACTIVE

/-- A diagnostic turn is due in a round (R75, R89). -/
def State.diagDue (s : State) (round : Nat) : Bool := s.diagOn && (round % 64 == 0 || s.sched.diagOwed)

/-- The scheduler launches turns: rounds run, and no declared takeover waits for its round start (R370). -/
def State.launching (s : State) : Bool := s.isRunning && s.sched.started && !s.mlk.wait

/-! Which probe an entry launches (R84, R85). -/

/-- The entry's turn is launched as a Brillouin turn, for a round and a value of its port turn counter. -/
def Cfg.brlAt (c : Cfg) (e : Entry) (round count : Nat) : Bool :=
  let k := c.fld LCH_TABLE_CFG.BRL_ROUND_EVERY
  let n := (c.plan e.plan).share
  e.kind == 1 || (e.kind == 0 && ((decide (2 ≤ k) && round % k == k - 1) || (decide (1 ≤ n) && count % n == n - 1)))

/-- The port turn counter of R84. -/
def State.turnCount (s : State) (n : Nat) : Nat := SMap.get (fun _ => 0) s.sched.turnCount n

/-- Duration of the probe an entry launches, in units of 1/128 tick. -/
def Cfg.durAt (c : Cfg) (e : Entry) (round count : Nat) : Nat :=
  if c.brlAt e round count then (c.plan e.plan).brillouinDur else (c.plan e.plan).rayleighDur

/-- Ticks from a turn's leading edge to its launch instant, rounded up. -/
def leadTicks (dur : Nat) : Nat := ceilDiv dur (2 * uTick)

/-! The turn. -/

/-- The turn of a port entry that falls due in the round in progress, with what the round start settled (R23). -/
def State.makeTurn (s : State) (e : Entry) : Turn :=
  let c : Cfg := s.sch
  let p := c.plan e.plan
  let n := s.turnCount e.port
  let brl := c.brlAt e s.ctl.round n
  let apr := bitOf s.sched.apr e.port
  let full := if brl then p.brlPeak else p.peak
  let peak := if apr then min full 10 else full
  let launch := s.sched.roundStart + e.offset
  { port := e.port
    entry := e.index
    plan := e.plan
    kind := if e.kind = 1 then .brillouin else .rayleigh
    sub := e.kind == 0 && brl
    apr := apr
    lag := s.sched.lag
    stall := s.sched.stall
    calNew := s.sched.calNew
    takeover := s.flag MLK_PAIR_STATUS.TKO_ACTIVE
    round := s.ctl.round
    launch := launch
    nominal := launch
    beltPos := if s.beltDefined (c.fld LCH_ROUND_CFG.BELT) then s.reg64 (BLT_BELT_POS_LO.reg (c.fld LCH_ROUND_CFG.BELT)) else 2 ^ 64 - 1
    peak := peak
    energy := if brl then brillouinEnergy peak p.width else rayleighEnergy peak p.chirp
    index := n
    regs := s.regs
    cal := s.cal.force }

/-- A turn is launched as a Brillouin turn. -/
def Turn.brl (t : Turn) : Bool := t.kind == .brillouin || t.sub

/-- The plan of a turn. -/
def Turn.planOf (t : Turn) : Plan := (schedCfg t.regs).plan t.plan

/-- A coefficient of a turn's round (R439). -/
def Turn.calFld (t : Turn) (f : Fld) : Nat := f.get (SMap.get (fun _ => 0) t.cal f.off)

/-- Duration of a turn's probe. -/
def Turn.dur (t : Turn) : Nat := if t.brl then t.planOf.brillouinDur else t.planOf.rayleighDur

/-- Centres of the tones of a mask, in MHz from the carrier (R43). -/
def toneCentres (mask : Nat) : List Int := (bitsOf 4 mask).map (fun (k : Nat) => 90 * (k : Int) - 135)

/-- The probe of a Rayleigh turn. -/
def rayleighProbe (tones dur peak : Nat) : Probe := { wave := .chirps (toneCentres tones), dur := dur, peak := peak, edge := some 20 }

/-- The probe of a Brillouin turn. -/
def brillouinProbe (dur peak : Nat) : Probe := { wave := .flat, dur := dur, peak := peak, edge := some 2 }

/-- The probe a turn launches (R43, R67). -/
def Turn.probe (t : Turn) : Probe := if t.brl then brillouinProbe t.dur t.peak else rayleighProbe t.planOf.tones t.dur t.peak

/-- Part A of a diagnostic turn (R63). -/
def partA : Probe := { wave := .flat, dur := 2 * uUs, peak := 250, edge := none }

/-- Part B: the replica of a probe (R63, R64). -/
def Replica.probe (r : Replica) : Probe := if r.brl then brillouinProbe r.dur r.peak else rayleighProbe r.tones r.dur r.peak

/-! The switch (R58). -/

/-- The route of the switch at an instant in units of 1/128 tick: a port, or 15, the dump. It leaves the dump 20 ns before a
probe's leading edge until 20 ns after its trailing edge, and only while the device runs. -/
def State.routeAt (s : State) (u : Nat) : Nat :=
  match s.src.route with
  | some (n, a, b) => if s.isRunning && decide (a ≤ u) && decide (u < b) then n else 15
  | none => 15

/-- The switch moves to the port of a turn for its probe. -/
def State.routeTurn (s : State) (t : Turn) : State :=
  let a := t.launch * uTick - (t.dur / 2 + u20ns)
  s.putSrc { s.src with route := some (t.port, a, a + t.dur + u40ns) }

/-- The probe is verified by the tap monitors: it lasts 1 µs or longer (R60). -/
def Turn.long (t : Turn) : Bool := decide (uUs ≤ t.dur)

/-- The TIA code of zone `k` of the code set a turn uses (R99, R103). DEDUCED, log entry 58. -/
def gainCode (st : State) (n : Nat) (setB : Bool) (k : Nat) : Nat :=
  (st.reg (if setB then PRT_ZONE_GAIN_B.reg n else PRT_ZONE_GAIN_R.reg n)).toNat / 2 ^ (3 * k) % 8

/-! The bank (R81, R87). -/

/-- The bank estimate covers an energy. -/
def State.covers (s : State) (nj : Nat) : Bool := decide (nj ≤ s.bankNow8 / 8)

/-- Draw an energy from the bank. -/
def State.drawBank (s : State) (nj : Nat) : State :=
  let s := s.syncBank
  s.putSrc { s.src with bank8 := s.src.bank8 - 8 * nj }

/-- SRC_TAP_LAST of a turn (R61). -/
def State.tapLast (s : State) (port energy : Nat) (short fail : Bool) : State :=
  s.setNat SRC_TAP_LAST.reg (port * 2 ^ 28 + bitAt short 27 + bitAt fail 26 + min energy (2 ^ 18 - 1))

/-- A port is set up for a turn: the LO, and the code of zone Z0 (R94, R103). -/
def State.armRx (s : State) (t : Turn) : State :=
  let x := s.port t.port
  s.setPort t.port { x with rx := { x.rx with
      loB := t.brl
      tia := gainCode { s with regs := t.regs } t.port t.brl 0
      ranged := if t.kind == .rayleigh && !t.sub then false else x.rx.ranged
      rangedB := if t.sub then false else x.rx.rangedB } }

/-- Add a turn to those whose frame or spectra are to come. -/
def State.addFlight (s : State) (t : Turn) : State :=
  let s := if t.kind = .rayleigh then (s.putSched { s.sched with flight := s.sched.flight ++ [t] }) else s
  if t.brl && !t.skipped then (s.putSched { s.sched with brl := s.sched.brl ++ [t] }) else s

/-- The source is occupied until an instant in units of 1/128 tick (R71). -/
def State.takeSource (s : State) (u : Nat) : State := s.putSched { s.sched with srcEnd := u }

/-- A port turn is launched at the present leading edge. -/
def State.launchTurn (s : State) (t : Turn) : State :=
  let marked := s.blankMarked t.port
  let t := { t with
    unlocked := !s.flag SRC_LASER_STATUS.LOCKED
    ranged := if t.brl then t.sub && (s.port t.port).rx.rangedB else (s.port t.port).rx.ranged
    -- a BRL_SUB frame is missing: judged on its nominal occupancy
    blanked := if t.sub then t.blanked || (marked && decide (s.time * uTick ≤ t.frameOccEnd)) else marked
    unsettled := !s.flag SRC_LOSHIFT.SETTLED
    belts := s.beltSnap (t.launch * pipsPerTick) }
  let s := (s.drawBank t.energy).armRx t
  let s := (s.routeTurn t).emit (.light t.port (if t.brl then 1 else 0) t.launch t.probe)
  let s := (s.addFlight t).takeSource (t.launch * uTick + (t.dur / 2 + u20ns))
  if t.long then (s.putSched { s.sched with tap := s.sched.tap ++ [t] }) else s.tapLast t.port 0 true false

/-- The closed period that holds a round. -/
def BrlClose.holds (c : BrlClose) (round : Nat) : Bool := decide (c.per.openRound ≤ round) && decide (round < c.closeRound)

/-- Change the period of a round (R162): the open one, or a closed one in whose rounds it lies. -/
def BrlPort.inPeriod (x : BrlPort) (round : Nat) (f : BrlPeriod → BrlPeriod) : BrlPort :=
  match x.cur with
  | some p =>
    if p.openRound ≤ round then { x with cur := some (f p) }
    else { x with closing := x.closing.map (fun c => if c.holds round then { c with per := f c.per } else c) }
  | none => { x with closing := x.closing.map (fun c => if c.holds round then { c with per := f c.per } else c) }

/-- A Brillouin turn that is not accumulated (R155): counted, and in the period of its round. DEDUCED, log entry 79. -/
def State.brlDrop (s : State) (n round off : Nat) : State :=
  (s.bump off).setBrlPort n (BrlPort.inPeriod (s.brlPort n) round (fun p => { p with dropped := p.dropped + 1 }))

/-- A turn that is skipped: its frame is judged on its nominal occupancy (R353), and what only a launched turn carries is off
(R323). -/
def State.asSkipped (s : State) (t : Turn) : Turn :=
  { t with
    skipped := true
    slid := false
    sub := false
    apr := false
    launch := t.nominal
    blanked := t.blanked || (s.blankMarked t.port && decide (s.time * uTick ≤ t.nominal * uTick + t.occAfter)) }

/-- A port turn is skipped (R87, R88). DEDUCED, log entry 79. -/
def State.skipTurn (s : State) (t : Turn) : State :=
  let brl := t.brl
  let t := s.asSkipped t
  let s := (s.bump LCH_SKIP_COUNT.reg).bump (LCH_PORT_SKIP_COUNT.reg t.port)
  let s := s.putSched { s.sched with skips := s.sched.skips + 1 }
  let s := s.addFlight t
  if !brl then s
  else s.brlDrop t.port t.round (if s.flag BRL_STATUS.FAILED then BRL_DROP_FAILED_COUNT.reg else BRL_DROP_SKIP_COUNT.reg)

/-! The diagnostic turn (R63, R64, R89). -/

/-- The replica the next diagnostic turn carries. -/
def State.nextReplica (s : State) : Option (Nat × Replica) :=
  let l := s.sch.replicaCycle
  let i := if l = [] then 0 else s.sched.replicaPos % l.length
  (l[i]?).map (fun r => (i, r))

/-- Energy of a diagnostic turn (R72). -/
def State.diagEnergy (s : State) : Nat := 500 + (match s.nextReplica with | some (_, r) => r.energy | none => 0)

/-- Length of the source occupancy of the next diagnostic turn, in units of 1/128 tick (R63). -/
def State.diagSpan (s : State) : Nat := match s.nextReplica with | some (_, r) => 880 * uTick + r.dur + u40ns | none => 816 * uTick

/-- A diagnostic turn is launched: part A, and part B 2.2 µs after it (R63). DEDUCED, log entry 79. -/
def State.launchDiag (s : State) : State :=
  let s1 := s.drawBank s.diagEnergy
  let s1 := (s1.bump SRC_DIAG_COUNT.reg).setFld SRC_DIAG_STATUS.ROUND_LOW (s.ctl.round % 2 ^ 16)
  let s1 := s1.emit (.light 15 2 s.time partA)
  let s1 := s1.takeSource (s.time * uTick + s.diagSpan)
  let k := s.sch.replicaCycle.length
  match s.nextReplica with
  | some (i, r) =>
    let s1 := (s1.setFld SRC_DIAG_STATUS.REPLICA i).emit (.light 15 (if r.brl then 1 else 0) (s.time + 880) r.probe)
    s1.putSched { s1.sched with
        diag := some { round := s.ctl.round, replica := some i }
        diagOwed := false
        replicaPos := (i + 1) % k }
  | none =>
    let s1 := s1.setFld SRC_DIAG_STATUS.REPLICA 0x1F
    s1.putSched { s1.sched with
        diag := some { round := s.ctl.round, replica := none }
        diagOwed := false }

/-- A diagnostic turn is skipped (R88, R89): reported as incomplete unless loads are shed. -/
def State.skipDiag (s : State) : State :=
  let s := s.bump LCH_DIAG_MISS_COUNT.reg
  let s := s.putSched { s.sched with skips := s.sched.skips + 1, diagOwed := true }
  if s.flag PWR_STATUS.SHED then s else s.diagEvent 0x06 15

/-! Slides (R87). -/

/-- The start of an entry's source occupancy, in units from the round start, for a round and turn counter. -/
def Cfg.srcStart (c : Cfg) (e : Entry) (round count : Nat) : Int :=
  if e.onPort then ((e.offset * uTick : Nat) : Int) - (c.durAt e round count / 2 + u20ns : Nat) else (e.offset * uTick : Nat)

/-- The start of an entry's port occupancy. -/
def Cfg.portStart (c : Cfg) (e : Entry) (round count : Nat) : Int :=
  ((e.offset * uTick : Nat) : Int) - (c.durAt e round count / 2 : Nat)

/-- By how much the present round is lengthened (R371), in units of 1/128 tick. -/
def State.deferU (s : State) : Int := (s.sched.defer * uTick : Nat)

/-- The next source occupancy after entry `i`, in units from the present round start: in this round, else in the next.
DEDUCED, log entry 78. -/
def State.nextSource (s : State) (i : Nat) : Option Int :=
  let c : Cfg := s.sch
  let r := s.ctl.round
  let uses (round : Nat) (e : Entry) : Bool := e.onPort || (e.kind == 2 && s.diagDue round)
  match c.entries.find? (fun e => decide (i < e.index) && uses r e) with
  | some e => some (c.srcStart e r (s.turnCount e.port))
  | none => (c.entries.find? (uses (r + 1))).map (fun e => c.srcStart e (r + 1) (s.turnCount e.port) + c.periodU + s.deferU)

/-- The next port occupancy of port `n` after entry `i`. DEDUCED, log entry 78. -/
def State.nextPort (s : State) (n i : Nat) : Option Int :=
  let c : Cfg := s.sch
  let r := s.ctl.round
  let es := c.portEntries n
  match es.find? (fun e => decide (i < e.index)) with
  | some e => some (c.portStart e r (s.turnCount n))
  | none => es.head?.map (fun e => c.portStart e (r + 1) (s.turnCount n) + c.periodU + s.deferU)

/-- The slide limit in ticks of a turn whose leading edge lies `lead` units after the round start, for entry `i`, given the
lengths of its source and port occupancies. DEDUCED, log entry 78. -/
def State.slideLimit (s : State) (i : Nat) (lead : Int) (src : Nat) (port : Option (Nat × Nat)) : Nat :=
  let slack : Int := (s.fld LCH_SLACK.SLACK * uTick : Nat)
  let a := match s.nextSource i with | some x => min slack (x - lead - (src : Int)) | none => slack
  let b := match port with
    | some (n, len) => (match s.nextPort n i with | some x => min a (x - lead - (len : Int)) | none => a)
    | none => a
  (b / (uTick : Int)).toNat

/-- The scheduler goes past entry `e`: the port turn counter of a Rayleigh entry advances (R84). DEDUCED, log entry 77. -/
def State.passEntry (s : State) (e : Entry) : State :=
  let s := s.putSched { s.sched with nextEntry := e.index + 1 }
  if e.kind = 0 then
    s.putSched { s.sched with turnCount := SMap.put (fun _ => 0) s.sched.turnCount e.port (s.turnCount e.port + 1) }
  else s

/-- The next entry to fall due from entry `i`; slots of diagnostic turns that are not due stay idle (R75). DEDUCED, log entry
77. -/
def State.dueEntry (s : State) : Option Entry :=
  s.sch.entries.find? (fun e => decide (s.sched.nextEntry ≤ e.index) && (e.onPort || (e.kind == 2 && s.diagDue s.ctl.round)))

/-- A turn begins to slide at the present tick; an input that is active marks its nominal occupancy (R87, R353). -/
def State.slideTurn (s : State) (t : Turn) : State :=
  s.putSched { s.sched with sliding := some ({ t with blanked := s.blankMarked t.port }, s.time) }

/-- A turn's energy is compared with the estimate: it is launched, slides or is skipped (R87). -/
def State.offerTurn (s : State) (t : Turn) : State :=
  if s.covers t.energy then s.launchTurn t
  else
    let w := t.planOf.window
    let lead : Int := (((t.launch : Int) - s.sched.roundStart) * (uTick : Nat)) - (t.dur / 2 : Nat)
    let lim := s.slideLimit t.entry lead (t.dur + u40ns) (some (t.port, w + t.dur))
    if lim = 0 then s.skipTurn t else s.slideTurn t

/-! Deferrals of a takeover (R371). -/

/-- The first leading edge, in ticks, at which a probe of duration `dur`, on a port or at the dump, keeps the spacing of R80
against every occupancy in progress; `before`: from the start of its source occupancy to its leading edge. -/
def State.clearEdge (s : State) (before : Nat) (port : Option Nat) : Nat :=
  let ends := match port with
    | some n => (s.sched.flight ++ s.sched.brl).map (fun (x : Turn) =>
        if x.port = n ∧ x.skipped = false then x.launch * uTick + (x.planOf.window + x.dur / 2 + u40ns) else 0)
    | none => []
  ceilDiv (ends.foldl max (s.sched.srcEnd + before)) uTick

/-- The leading edge of an entry that is due: nominal, and with the occupancies in progress kept clear. -/
def State.edges (s : State) (e : Entry) : Nat × Nat :=
  if e.onPort then
    let t := s.makeTurn e
    (t.launch - leadTicks t.dur, s.clearEdge u20ns (some t.port))
  else (s.sched.roundStart + e.offset, s.clearEdge 0 none)

/-- In a takeover the entry that is due waits for occupancies in progress (R371). -/
def State.deferred (s : State) (e : Entry) : Bool :=
  s.flag MLK_PAIR_STATUS.TKO_ACTIVE && (let x := s.edges e; decide (x.1 < x.2))

/-- TURN_DUE (R87): the leading edge of the next port entry. DEDUCED, log entry 5; DEDUCED, log entry 77; DEDUCED, log entry
80. -/
def execTurnDue (s : State) : Host.Outcome State Fault Refusal :=
  .next (
    if !s.launching || s.sched.sliding.isSome then s
    else match s.dueEntry with
      | none => s
      | some e => if e.onPort && !s.deferred e then (s.passEntry e).offerTurn (s.makeTurn e) else s)

/-- A diagnostic turn as the scheduler holds it while it slides. -/
def State.diagAsTurn (s : State) (e : Entry) : Turn :=
  { port := 15
    entry := e.index
    plan := 0
    kind := .diagnostic
    round := s.ctl.round
    launch := s.sched.roundStart + e.offset
    beltPos := 0
    peak := 250
    energy := s.diagEnergy }

/-- A diagnostic turn's energy is compared with the estimate: it is launched, slides or is skipped (R87). -/
def State.offerDiag (s : State) (e : Entry) : State :=
  if s.covers s.diagEnergy then s.launchDiag
  else
    let lead : Int := ((s.time : Int) - s.sched.roundStart) * (uTick : Nat)
    if s.slideLimit e.index lead s.diagSpan none = 0 then s.skipDiag
    else s.putSched { s.sched with sliding := some (s.diagAsTurn e, s.time) }

/-- DIAG_TURN (R63, R87): the leading edge of part A of a diagnostic turn that is due. -/
def execDiagTurn (s : State) : Host.Outcome State Fault Refusal :=
  .next (
    if !s.launching || s.sched.sliding.isSome then s
    else match s.dueEntry with
      | none => s
      | some e =>
        if e.onPort || s.deferred e then s else (s.passEntry e).offerDiag e)

/-- The sliding turn, whose leading edge fell due at the tick `due`, is launched at the present tick (R87, R88). -/
def State.launchSlid (s : State) (t : Turn) (due : Nat) : State :=
  let s := (s.bump LCH_SLIDE_COUNT.reg).putSched { s.sched with sliding := none, slides := s.sched.slides + 1 }
  if t.kind = .diagnostic then s.launchDiag
  else s.launchTurn { t with slid := true, launch := t.launch + (s.time - due) }

/-- SLID_TURN_LAUNCH (R87, R88): the estimate covers the sliding turn. DEDUCED, log entry 80. -/
def execSlidTurnLaunch (s : State) : Host.Outcome State Fault Refusal :=
  .next (
    match s.sched.sliding with
    | none => s
    | some (t, due) => if s.covers t.energy then s.launchSlid t due else s)

/-- SLIDE_LIMIT_EXPIRY (R87): the sliding turn is skipped, unless the estimate covers it as the limit runs out. DEDUCED, log
entry 80. -/
def execSlideLimitExpiry (s : State) : Host.Outcome State Fault Refusal :=
  .next (
    match s.sched.sliding with
    | none => s
    | some (t, due) =>
      if s.covers t.energy then s.launchSlid t due
      else
        let s := s.putSched { s.sched with sliding := none }
        if t.kind = .diagnostic then s.skipDiag else s.skipTurn t)

/-- DEFERRED_TAKEOVER_LAUNCH (R371): the turn of the next entry, held for occupancies in progress, is offered at the first leading
edge that keeps clear of them; the round is lengthened by its largest deferral. DEDUCED, log entry 78. -/
def execDeferredTakeoverLaunch (s : State) : Host.Outcome State Fault Refusal :=
  .next (
    if !s.launching || s.sched.sliding.isSome then s
    else match s.dueEntry with
      | none => s
      | some e =>
        let (nominal, edge) := s.edges e
        if !s.deferred e || decide (s.time < edge) then s
        else
          let late := edge - nominal
          let t := s.makeTurn e
          let s := (s.passEntry e).bump MLK_TKO_DEFER_COUNT.reg
          let s := s.putSched { s.sched with
            defer := max s.sched.defer late
            deferred := if e.onPort then putBit s.sched.deferred e.port true else s.sched.deferred }
          if e.onPort then s.offerTurn { t with slid := true, launch := t.launch + late } else s.offerDiag e)

end Sys2Proof.Machine
end

