-- ==== Sys2Proof/Machine/Trig.lean ====
section
/-!
DEFINITION. Angles and logarithms for the engines: fixed-point sine, cosine and argument to 128 fractional bits, and exactly
rounded decimal logarithms.
-/
namespace Sys2Proof.Machine

/-- π in units of 2⁻¹²⁸, rounded down. -/
def piFx : Nat := 1069028584064966747859680373161870783300

/-- 1 in units of 2⁻¹²⁸. -/
def oneFx : Int := 2 ^ 128

/-- A whole turn: angles are kept in 2⁻⁹⁶ turn. -/
def turnFx : Nat := 2 ^ 96

/-- Wrap a number to `[−2^(w−1), 2^(w−1))`. -/
def wrapInt (w : Nat) (x : Int) : Int := (x + (2 ^ (w - 1) : Nat)) % (2 ^ w : Nat) - (2 ^ (w - 1) : Nat)

/-- Terms of the Taylor series of e^(jx), `x` in 2⁻¹²⁸: `k` is the index of the term `t`; the sums are of cosine and sine. -/
def cisTerms (x : Int) : Nat → Nat → Int → Int → Int → Int × Int
  | 0, _, _, c, s => (c, s)
  | n + 1, k, t, c, s =>
    let t := t * x / ((k + 1 : Nat) * oneFx)
    match (k + 1) % 4 with
    | 0 => cisTerms x n (k + 1) t (c + t) s
    | 1 => cisTerms x n (k + 1) t c (s + t)
    | 2 => cisTerms x n (k + 1) t (c - t) s
    | _ => cisTerms x n (k + 1) t c (s - t)

/-- Cosine and sine, in 2⁻¹²⁸, of an angle in 2⁻⁹⁶ turn. DESIGN CHOICE, log entry 51. -/
def cis (a : Int) : Int × Int :=
  let r := (a % turnFx).toNat
  let x : Int := (r % 2 ^ 94 * piFx / 2 ^ 95 : Nat)
  let (c, s) := cisTerms x 48 0 oneFx oneFx 0
  match r / 2 ^ 94 with
  | 0 => (c, s)
  | 1 => (-s, c)
  | 2 => (-c, -s)
  | _ => (s, -c)

/-- Half-angle step of a tangent in 2⁻¹²⁸: u / (1 + √(1 + u²)). -/
def halfTan (u : Nat) : Nat := u * 2 ^ 128 / (2 ^ 128 + isqrtFrom (2 ^ 256 + u * u) 130 0)

/-- Terms of the series of the arctangent. -/
def atanTerms (u2 : Nat) : Nat → Nat → Nat → Int → Int
  | 0, _, _, acc => acc
  | n + 1, k, p, acc =>
    let t : Int := (p / (2 * k + 1) : Nat)
    atanTerms u2 n (k + 1) (p * u2 / 2 ^ 128) (if k % 2 = 0 then acc + t else acc - t)

/-- Arctangent of `y / x`, `0 ≤ y ≤ x`, `0 < x`, in 2⁻⁹⁶ turn. -/
def atanTurn (y x : Nat) : Int :=
  let u := halfTan (halfTan (halfTan (y * 2 ^ 128 / x)))
  roundDiv (8 * atanTerms (u * u / 2 ^ 128) 30 0 u 0 * 2 ^ 95) piFx

/-- The argument of `x + jy` in 2⁻⁹⁶ turn, in `(−2⁹⁵, 2⁹⁵]`; of 0 it is 0. DESIGN CHOICE, log entry 51. -/
def argTurn (x y : Int) : Int :=
  let ax := x.natAbs
  let ay := y.natAbs
  if ax = 0 ∧ ay = 0 then 0
  else
    let a := if ay ≤ ax then atanTurn ay ax else 2 ^ 94 - atanTurn ax ay
    let a := if x < 0 then 2 ^ 95 - a else a
    if y < 0 then -a else a

/-- A rational times π, rounded to nearest. -/
def roundPi (q : Rat) : Int := roundRat (q * ((piFx : Rat) / (2 ^ 128 : Nat)))

/-- 10^(k − 1/2) ≤ (num / den)^scale: the rounding of scale · log₁₀ (num / den) is at least `k`. -/
def logAtLeast (scale num den : Nat) (k : Int) : Bool :=
  let e := 2 * k - 1
  if 0 ≤ e then decide (10 ^ e.toNat * den ^ (2 * scale) ≤ num ^ (2 * scale))
  else decide (den ^ (2 * scale) ≤ num ^ (2 * scale) * 10 ^ (-e).toNat)

/-- The greatest `k` from `base`, by bits from the top of `n`, at which `logAtLeast` holds. -/
def logSearch (scale num den : Nat) : Nat → Int → Int
  | 0, k => k
  | n + 1, k =>
    let t := k + (2 ^ n : Nat)
    if logAtLeast scale num den t then logSearch scale num den n t else logSearch scale num den n k

/-- A power in the code of R130: 1,000 log₁₀ of it, rounded, plus 10,000, saturated to 16 bits; 0 for no power. -/
def levelCode (num den : Nat) : Nat :=
  if num = 0 then 0
  else if logAtLeast 1000 num den (-9999) then min 65535 (logSearch 1000 num den 17 (-9999) + 10000).toNat
  else 0

end Sys2Proof.Machine
end

