-- ==== Sys2Proof/Machine/Phase.lean ====
section
/-!
DEFINITION. Gain zones and the phase engine: gauge differencing, vector combining, increments and quality words
(R101–R108, R114–R121).
-/
namespace Sys2Proof.Machine

/-! Zones (R101, R102, R108). -/

/-- Zones in use on port `n`. -/
def State.zoneCount (st : State) (n : Nat) : Nat := clampNat 1 8 (st.fld (PRT_RX_CFG.ZONE_COUNT n))

/-- Effective boundary of zone `k`; Z0 begins at 0 (R101). -/
def State.zoneEdge (st : State) (n : Nat) : Nat → Nat
  | 0 => 0
  | 1 => st.fld (PRT_ZONE_BOUND.BOUND n 1)
  | k + 2 => max (st.fld (PRT_ZONE_BOUND.BOUND n (k + 2))) (st.zoneEdge n (k + 1) + 4)

/-- The zone of an output bin. -/
def State.zoneOf (st : State) (n b : Nat) : Nat :=
  (List.range (st.zoneCount n)).foldl (fun z k => if 0 < k ∧ st.zoneEdge n k ≤ b then k else z) 0

/-- The code of a set changes at zone `k`'s boundary (R102). -/
def State.zoneSteps (st : State) (n : Nat) (setB : Bool) (k : Nat) : Bool :=
  decide (0 < k) && gainCode st n setB k != gainCode st n setB (k - 1)

/-- Boundaries of the zone steps of a set. -/
def State.stepEdges (st : State) (n : Nat) (setB : Bool) : List Nat :=
  ((List.range (st.zoneCount n)).filter (st.zoneSteps n setB)).map (st.zoneEdge n)

/-- Slots of the near zone of a probe, of a duration in units of 1/128 tick (R108). DEDUCED, log entry 54. -/
def nearSlots (dur : Nat) : Nat := ceilDiv dur uBin

/-! Quality words (R120). -/

def qClip : Nat := 0x01
def qSettle : Nat := 0x02
def qNear : Nat := 0x04
def qFade : Nat := 0x08
def qFilled : Nat := 0x10
def qGap : Nat := 0x20
def qSettling : Nat := 0x40
def qBlanked : Nat := 0x80

/-- Bitwise or, and and, of quality words or flags. -/
def orBits (a b : Nat) : Nat := (BitVec.ofNat 32 a ||| BitVec.ofNat 32 b).toNat
def andBits (a b : Nat) : Nat := (BitVec.ofNat 32 a &&& BitVec.ofNat 32 b).toNat

/-- A quality word carries one of a set of flags. -/
def hasFlag (q m : Nat) : Bool := andBits q m != 0

/-- A flag as a quality word. -/
def ifFlag (b : Bool) (m : Nat) : Nat := if b then m else 0

/-- NEAR and SETTLE of a bin of a port in lead `lead`, with the near zone and the step edges given. DEDUCED, log entry 54. -/
def placeQual (near lead : Nat) (edges : List Nat) (b : Nat) : Nat :=
  ifFlag (decide (lead + b < near)) qNear + ifFlag (edges.any (fun e => b == e || b == e + 1)) qSettle

/-! Frames. -/

/-- Kind of a frame (R116, R117). -/
inductive FrameKind where
  | real
  | filled
  | gap
  deriving DecidableEq, Repr

/-- A frame of a port's stream: its turn, plan as the header names it, geometry, increments in binary angle and quality per
output bin, the same for reference slots (slot, increment, quality), its FLAGS, and for a real frame the power sums Σ|z|². -/
structure OutFrame where
  turn : Turn
  kind : FrameKind
  plan : Nat
  geom : Geom
  incs : List Int
  quals : List Nat
  refs : List (Nat × Int × Nat) := []
  flags : Nat
  power : List Nat := []
  deriving DecidableEq, Repr

/-- The plan geometry of a plan (R130). -/
def Plan.geom (p : Plan) : Geom := { tones := p.tones, chirp := p.chirp, gauge := p.gauge, lead := p.lead, bins := p.bins }

/-- FLAGS of a turn, with what its frame adds (R323). -/
def Turn.flags (t : Turn) : Nat :=
  bitAt t.slid 0 + bitAt t.skipped 1 + bitAt t.sub 2 + bitAt t.apr 5 + bitAt t.unlocked 6 + bitAt t.ranged 7 + bitAt t.rxFault 8
    + bitAt t.lag 9 + bitAt t.stall 10 + bitAt t.blanked 13 + bitAt t.calNew 15

/-- Every bin carries GAP: FLAGS bit 4. -/
def gapFlag (qs : List Nat) : Nat := bitAt (qs.all (fun q => hasFlag q qGap)) 4

/-- An increment in binary angle as int32 at 2⁻²⁴ rad, and as int16 at scale k (R121). -/
def incInt32 (d : Int) : Int := roundPi ((d : Rat) / 128)
def incInt16 (k : Nat) (d : Int) : Int := satInt 16 (roundPi ((d * 2 ^ k : Int) / (2 ^ 31 : Nat)))

/-- SCALE_K of port `n`. -/
def State.scaleK (st : State) (n : Nat) : Nat := clampNat 8 14 (st.fld (PRT_PE_CFG.SCALE_K n))

/-- The state with the settings of a turn's round (R23). -/
def State.withTurn (s : State) (t : Turn) : State := { s with regs := t.regs }

/-! Stages 5 and 6 (R114, R115). -/

/-- Product of a value with the conjugate of another. -/
def mulConj (a b : Int × Int) : Int × Int := (a.1 * b.1 + a.2 * b.2, a.2 * b.1 - a.1 * b.2)

/-- Magnitude of a complex number held in 2⁻¹²⁸ of its unit, in 2⁻²⁴ of it. -/
def magFx (c : Int × Int) : Nat := isqrtFrom (c.1 * c.1 + c.2 * c.2).toNat 192 0 / 2 ^ 104

/-- Magnitude of a phasor, in 2⁻⁴⁰ of its unit. -/
def mag40 (p : Int × Int) : Nat := isqrtFrom (2 ^ 80 * (p.1 * p.1 + p.2 * p.2).toNat) 96 0

/-- A phasor turned by −θ, in 2⁻¹²⁸ of its unit. -/
def turnBack (p : Int × Int) (theta : Int) : Int × Int :=
  let (c, s) := cis theta
  (p.1 * c + p.2 * s, p.2 * c - p.1 * s)

/-- Sum of complex numbers. -/
def sumC (l : List (Int × Int)) : Int × Int := l.foldl (fun a b => (a.1 + b.1, a.2 + b.2)) (0, 0)

/-- What stage 6 gives for a slot: its new state, φ in 2⁻⁹⁶ turn, and the fade test. -/
structure Combined where
  st : SlotSt
  phi : Int
  fade : Bool
  deriving DecidableEq, Repr

/-- Initialisation of the alignment (R115): θ from the strongest path, μ from |c|. DESIGN CHOICE, log entry 51. -/
def combineInit (ps : List (Int × Int)) : Combined :=
  let mags := ps.map mag40
  let best := mags.foldl max 0
  let a0 := match (ps.zip mags).find? (fun x => x.2 == best) with | some (p, _) => argTurn p.1 p.2 | none => 0
  let th := ps.map (fun p => wrapInt 96 (argTurn p.1 p.2 - a0))
  let c := sumC (List.zipWith turnBack ps th)
  { st := { theta := th, mu := magFx c }, phi := argTurn c.1 c.2, fade := false }

/-- Combining with the alignment kept (R115): the fade test, and the updates of θ and μ. DESIGN CHOICE, log entry 51. -/
def combineStep (fadeShift alignShift : Nat) (x : SlotSt) (ps : List (Int × Int)) : Combined :=
  let c := sumC (List.zipWith turnBack ps x.theta)
  let phi := argTurn c.1 c.2
  let m := magFx c
  let fade := decide (m * 2 ^ fadeShift < x.mu)
  let th :=
    if fade then x.theta
    else
      let th := List.zipWith (fun p t => t + roundDiv (wrapInt 96 (argTurn p.1 p.2 - phi - t)) (2 ^ alignShift)) ps x.theta
      let w := sumC (List.zipWith (fun p t => let (a, b) := cis t; ((mag40 p : Int) * a, (mag40 p : Int) * b)) ps th)
      let tbar := argTurn w.1 w.2
      th.map (fun t => t - tbar)
  let mu := ((x.mu : Int) + roundDiv ((m : Int) - x.mu) (2 ^ alignShift)).toNat
  { st := { x with theta := th, mu := mu }, phi := phi, fade := fade }

/-- The phasors of a slot, none for an edge slot (R114). -/
def gaugePhasors (z : List (List (Int × Int))) (gauge slots s : Nat) : Option (List (Int × Int)) :=
  let l := gauge / 2
  let h := gauge - l
  if s < l ∨ slots ≤ s + h then none
  else some (List.zipWith mulConj ((z[s + h]?).getD []) ((z[s - l]?).getD []))

/-- Slots the engine follows: the output bins' and the reference slots in the window (R111, R127). -/
def State.refSlots (st : State) (n slots : Nat) : List Nat :=
  let first := st.fld (PRT_LF_REF.REF_FIRST n)
  ((List.range (clampNat 1 1024 (st.fld (PRT_LF_REF.REF_COUNT n)))).map (first + ·)).filter (fun s => decide (s < slots))

/-- One slot of a real frame: its slot state with φ, the increment where one is formed, and the fade test. -/
structure SlotOut where
  slot : Nat
  st : Option SlotSt
  inc : Option Int
  fade : Bool
  deriving DecidableEq, Repr

/-- Stages 5–7 for a slot (R114–R116). `keep`: alignment of the reference frame holds; `form`: increments may be formed; `dev`:
the deviation of the computed φ, which R115 bounds by 2⁻²⁰ turn. A slot that was an edge slot in the reference frame has no φ
there: where a change of BIN_COUNT alone makes it a slot with φ it is initialised, and its bin carries GAP, as a bin absent from
the reference frame. DESIGN CHOICE, log entry 113. -/
def slotStep (fadeShift alignShift : Nat) (keep form : Bool) (old : Option SlotSt) (dev : Int) (slot : Nat)
    (ps : Option (List (Int × Int))) : SlotOut :=
  match ps with
  | none => { slot := slot, st := none, inc := none, fade := false }
  | some ps =>
    let prev := if keep then old else none
    let c := match prev with
      | some x => combineStep fadeShift alignShift x ps
      | none => combineInit ps
    let phi := wrapInt 32 (roundDiv c.phi (2 ^ 64) + dev)
    { slot := slot
      st := some { c.st with phi := phi }
      inc := match prev with | some x => if form then some (wrapInt 32 (phi - x.phi)) else none | none => none
      fade := c.fade }

/-- The deviation of a draw, in 2⁻³² turn: with the rounding of φ to its format it stays within the 2⁻²⁰ turn of R115. DESIGN
CHOICE, log entry 51. -/
def phaseDev (draw : Nat) : Int := ((Config.free draw % 8191 : Nat) : Int) - 4095

/-- Stages 5–7 for the slots of a real frame; each draws a deviation. -/
def slotSteps (fadeShift alignShift : Nat) (keep form : Bool) (olds : SMap SlotSt) (z : List (List (Int × Int)))
    (gauge slots : Nat) : Nat → List Nat → List SlotOut
  | _, [] => []
  | d, s :: ss =>
    slotStep fadeShift alignShift keep form ((olds.find? (fun x => x.1 == s)).map (·.2)) (phaseDev d) s (gaugePhasors z gauge slots s)
      :: slotSteps fadeShift alignShift keep form olds z gauge slots (d + 1) ss

end Sys2Proof.Machine
end

