-- ==== Sys2Proof/Machine/Filter.lean ====
section
/-!
DEFINITION. The temporal filter and decimation chain (R136–R153).
-/
namespace Sys2Proof.Machine

/-! Sections and sets (R141–R144, R149). -/

/-- A section in use: its coefficients and output shift. -/
structure Sos where
  c : Coefs
  shift : Nat
  deriving DecidableEq, Repr

/-- A section is valid (R142): both poles lie within 31/32. -/
def Coefs.valid (x : Coefs) : Bool :=
  decide (x.a2.natAbs * 1024 ≤ 961 * 2 ^ 22) && decide ((x.a1.natAbs : Int) * 992 ≤ 961 * 2 ^ 22 + 1024 * x.a2)

/-- A section is DC-zero: its stored coefficients sum to 0 (R144). -/
def Coefs.dcZero (x : Coefs) : Bool := x.b0 + x.b1 + x.b2 == 0

/-- Section `s` of user set `u`. -/
def State.userSection (st : State) (u s : Nat) : Sos where
  c := { b0 := st.fldInt (FLT_USER_SEC_B0.COEF u s), b1 := st.fldInt (FLT_USER_SEC_B1.COEF u s)
         b2 := st.fldInt (FLT_USER_SEC_B2.COEF u s), a1 := st.fldInt (FLT_USER_SEC_A1.COEF u s)
         a2 := st.fldInt (FLT_USER_SEC_A2.COEF u s) }
  shift := st.fld (FLT_USER_SEC_SHIFT.SHIFT u s)

/-- The sections in use of user set `u`. -/
def State.userSet (st : State) (u : Nat) : List Sos :=
  (List.range (min 6 (st.fld (FLT_USER_CTRL.SECTIONS u)))).map (st.userSection u)

/-- The sections of preset `p`; every SHIFT is 0. -/
def presetSet (p : Nat) : List Sos := ((presetSections[p]?).getD []).map (fun c => { c := c, shift := 0 })

/-- S of the presets, and g in hundredths (R149). -/
def presetSettle : List Nat :=
  [0, 10, 21, 19, 37, 71, 104, 174, 257, 94, 174, 38, 71, 94, 38, 94, 38, 174, 71, 174, 71, 63, 129, 262]
def presetDelay : List Nat :=
  [0, 71, 131, 218, 402, 825, 1220, 2077, 3071, 9, 16, 23, 42, 159, 185, 511, 550, 286, 327, 904, 1133, 7, 3, 2]

/-- Square of the largest pole radius of a section in 2⁻⁸⁰, rounded: a2 for complex poles, else from the real poles. -/
def Coefs.radius2 (x : Coefs) : Nat :=
  let d := x.a1 * x.a1 - 4 * x.a2 * 2 ^ 22
  if d < 0 then x.a2.toNat * 2 ^ 58
  else
    let r := x.a1.natAbs * 2 ^ 58 + isqrtFrom (d.toNat * 2 ^ 116) 100 0
    r * r / 2 ^ 82

/-- The least number of output frames after which the slowest valid pole has fallen below 2⁻¹² (R149). DEDUCED, log entry 52.
-/
def settleOf (l : List Sos) : Nat :=
  let r2 := (l.filter (fun x => x.c.valid)).foldl (fun m x => max m x.c.radius2) 0
  if r2 = 0 then 0 else ((List.range 400).find? (fun n => decide (r2 ^ n * 2 ^ 24 < 2 ^ (80 * n)))).getD 400

/-- Group delay of a polynomial b0 + b1 z⁻¹ + b2 z⁻² at e^(jω), as a rational; none where it is 0 there. DEDUCED, log entry
52. -/
def polyDelay (b0 b1 b2 : Int) (w : Int) : Option Rat :=
  let (c1, s1) := cis w
  let (c2, s2) := cis (2 * w)
  let dr := b0 * oneFx + b1 * c1 + b2 * c2
  let di := b1 * s1 + b2 * s2
  let nr := b1 * c1 + 2 * b2 * c2
  let ni := b1 * s1 + 2 * b2 * s2
  if dr * dr + di * di = 0 then none else some ((nr * dr + ni * di : Int) / ((dr * dr + di * di : Int) : Rat))

/-- Group delay of a section at an angle in 2⁻⁹⁶ turn. DEDUCED, log entry 52. -/
def Coefs.delay (x : Coefs) (w : Int) : Option Rat :=
  match polyDelay x.b0 x.b1 x.b2 w, polyDelay (2 ^ 22) x.a1 x.a2 w with
  | some n, some d => some (n - d)
  | _, _ => none

/-- Group delay of the valid sections of a set. DEDUCED, log entry 52. -/
def setDelay (l : List Sos) (w : Int) : Option Rat :=
  (l.filter (fun x => x.c.valid)).foldl (fun m x => match m, x.c.delay w with | some a, some b => some (a + b) | _, _ => none) (some 0)

/-! A port's configuration. -/

/-- A chain's configuration in force. -/
structure FltConf where
  en : Bool
  integ : Bool
  log2M : Nat
  first : Nat
  count : Nat
  sections : List Sos
  user : Option Nat
  preset : Nat
  align : Bool
  frac : Nat
  int32 : Bool
  outK : Nat
  deriving DecidableEq, Repr

/-- The OFFSETs of a port's Rayleigh entries. -/
def State.rayOffsets (st : State) (n : Nat) : List Nat :=
  (((st.sch : Cfg).portEntries n).filter (fun e => e.kind == 0)).map (·.offset)

/-- FRAC_USED (R145). -/
def State.fracUsed (st : State) (n : Nat) (log2M : Nat) : Nat :=
  if st.flag (FLT_PORT_CFG.ALIGN_AUTO n) then
    match st.rayOffsets n with
    | [] => 0
    | o :: os =>
      let e := os.length + 1
      let p := (st.sch : Cfg).period
      -- in units of PERIOD / E
      if p = 0 then 0 else min 64 (roundDivNat (64 * (o * e % p)) (2 ^ log2M * p))
  else min 64 (st.fld (FLT_PORT_ALIGN.FRAC n))

/-- The configuration of port `n` in a register file. -/
def State.fltConf (st : State) (n : Nat) : FltConf :=
  let user := st.flag (FLT_PORT_CFG.SET_KIND n)
  let set := st.fld (FLT_PORT_CFG.SET n)
  let set := if (if user then 7 else 23) < set then 0 else set
  let m := min 6 (st.fld (FLT_PORT_CFG.DECIM_LOG2 n))
  { en := st.flag (FLT_PORT_CFG.EN n)
    integ := st.flag (FLT_PORT_CFG.INTEG_EN n)
    log2M := m
    first := st.fld (FLT_PORT_WINDOW.FIRST n)
    count := clampNat 1 16384 (st.fld (FLT_PORT_WINDOW.COUNT n))
    sections := if user then st.userSet set else presetSet set
    user := if user then some set else none
    preset := set
    align := st.flag (FLT_PORT_CFG.ALIGN_EN n)
    frac := st.fracUsed n m
    int32 := st.flag (FLT_PORT_CFG.OUT_FORMAT n)
    outK := clampNat 4 16 (st.fld (FLT_PORT_CFG.OUT_K n)) }

/-- The set's first section is DC-zero, and valid (R144). -/
def FltConf.leadDcZero (c : FltConf) : Bool := match c.sections with | x :: _ => x.c.valid && x.c.dcZero | [] => false

/-- F3 is bypassed (R144): with a set of no sections there is nothing to bypass, and SOS_BYPASSED reads 0. DESIGN CHOICE, log
entry 122. -/
def FltConf.bypassed (c : FltConf) : Bool := c.integ && !c.leadDcZero && c.sections != []

/-- The stream is wrapped (R144). -/
def FltConf.wrapped (c : FltConf) : Bool := c.integ && !c.leadDcZero

/-- The settling count C (R153). -/
def FltConf.settle (c : FltConf) : Nat :=
  (match c.user with | some _ => settleOf c.sections | none => (presetSettle[c.preset]?).getD 0)
    + (if 0 < c.log2M then 3 else 0) + (if c.align then 3 else 0)

/-- One of the integers within 1 of a value. -/
def withinOne (draw : Nat) (v : Rat) : Int :=
  let lo := (v - 1).ceil
  lo + ((draw % ((v + 1).floor - lo + 1).toNat : Nat) : Int)

/-- FLT_PORTn_GD (R151): for a user set within ±1 LSB of its group delay; where that is not defined, a free value. -/
def State.fltDelay (s : State) (c : FltConf) (n : Nat) : State :=
  let m : Nat := 2 ^ c.log2M
  let set (v : Int) (s : State) : State := s.setFldInt (FLT_PORT_GD.GD n) v
  if c.bypassed then set (384 * ((m : Int) - 1)) s
  else match c.user with
    | none => set (roundDiv ((256 * (150 * (m - 1) + m * (presetDelay[c.preset]?).getD 0) : Nat) : Int) 100) s
    | some u =>
      let w : Int := (min 32768 (s.fld (FLT_USER_CTRL.REF_FREQ u)) * 2 ^ 80 : Nat)
      match setDelay c.sections w with
      | some g => set (withinOne s.freeVal (384 * ((m : Rat) - 1) + 256 * (m : Rat) * g)) s.drawFree
      | none => set s.freeVal s.drawFree

/-- A port's Rayleigh entries are not equally spaced over the round (R146). -/
def State.nonUniform (st : State) (n : Nat) : Bool :=
  let os := st.rayOffsets n
  match os with
  | [] => false
  | o :: _ =>
    let gaps := List.zipWith (fun a b => b - a) os (os.drop 1 ++ [o + (st.sch : Cfg).period])
    gaps.any (fun g => g != (gaps.head?).getD 0)

/-- What the status registers of a chain are formed from: its configuration, the spacing of its entries, and the reference
frequency of the user set it uses (R146, R151). -/
def State.fltShown (s : State) (n : Nat) : FltConf × Bool × Option Nat :=
  let c := s.fltConf n
  (c, s.nonUniform n, c.user.map (fun u => s.fld (FLT_USER_CTRL.REF_FREQ u)))

/-- The status registers of a chain for the configuration in force. -/
def State.showFlt (s : State) (n : Nat) : State :=
  let c := s.fltConf n
  let s := (s.setFld (FLT_PORT_ALIGN.FRAC_USED n) c.frac).setFld (FLT_PORT_SETTLE.COUNT n) c.settle
  let s := (s.setFlag (FLT_PORT_STATUS.NONUNIFORM n) (s.nonUniform n)).setFlag (FLT_PORT_STATUS.SOS_BYPASSED n) c.bypassed
  let s := s.setFlag (FLT_PORT_STATUS.USER_INVALID n) (c.user.isSome && c.sections.any (fun x => !x.c.valid))
  (s.setFlag (FLT_PORT_STATUS.WRAPPED n) c.wrapped).fltDelay c n

/-- FLT_USERu_STATUS (R143, R144). -/
def State.showUser (s : State) (u : Nat) : State :=
  let l := s.userSet u
  let bad := ((List.range l.length).zip l).foldl (fun m x => m + bitAt (!x.2.c.valid) x.1) 0
  let s := (s.setFlag (FLT_USER_STATUS.VALID u) (bad == 0)).setFld (FLT_USER_STATUS.BAD u) bad
  let lead := match l with | x :: _ => x.c.valid && x.c.dcZero | [] => false
  (s.setFlag (FLT_USER_STATUS.LEAD_DC_ZERO u) lead).setFld (FLT_USER_STATUS.SETTLE u) (settleOf l)

/-! The stages (R139–R147). -/

/-- A 50-bit register: two's complement, wrapping. -/
def wrap50 (x : Int) : Int := wrapInt 50 x

/-- F1 and the integrators of F2 for one input increment. -/
def FltBin.feed (c : FltConf) (x : FltBin) (delta : Int) (q : Nat) : FltBin :=
  let s := if c.integ then wrapInt 32 (x.s + delta) else x.s
  let e := if c.integ then wrap50 (x.e + wrapInt 32 (s - x.s)) else delta
  let i1 := wrap50 (x.i1 + e)
  let i2 := wrap50 (x.i2 + i1)
  let i3 := wrap50 (x.i3 + i2)
  if c.log2M = 0 then { x with s := s, e := e, qual := orBits x.qual q }
  else { x with s := s, e := e, i1 := i1, i2 := i2, i3 := i3, qual := orBits x.qual q }

/-- The combs of F2 and its final shift (R140). -/
def FltBin.comb (c : FltConf) (x : FltBin) : FltBin × Int :=
  if c.log2M = 0 then (x, wrapInt 32 x.e)
  else
    let t1 := wrap50 (x.i3 - x.c1)
    let t2 := wrap50 (t1 - x.c2)
    let t3 := wrap50 (t2 - x.c3)
    let t := 3 * c.log2M
    ({ x with c1 := x.i3, c2 := t1, c3 := t2 }, wrapInt 32 ((t3 + 2 ^ (t - 1)) / 2 ^ t))

/-- One section (R141, R143, R144): its state, output and whether it saturated. -/
def Sos.step (f : Sos) (diff : Bool) (x : SecSt) (v : Int) : SecSt × Int × Bool :=
  if !f.c.valid then (x, v, false)
  else
    let fb := roundDiv (f.c.a1 * x.y1) (2 ^ 22) + roundDiv (f.c.a2 * x.y2) (2 ^ 22)
    let d := wrapInt 32 (v - x.x1)
    let y :=
      if diff then roundDiv (f.c.b0 * d) (2 ^ 19) - roundDiv (f.c.b2 * x.x2) (2 ^ 19) - fb
      else roundDiv (f.c.b0 * v) (2 ^ 19) + roundDiv (f.c.b1 * x.x1) (2 ^ 19) + roundDiv (f.c.b2 * x.x2) (2 ^ 19) - fb
    let o := roundDiv y (2 ^ (3 + f.shift))
    ({ x1 := v, x2 := if diff then d else x.x1, y1 := y, y2 := x.y1 }, satInt 32 o, o != satInt 32 o)

/-- The sections in turn; only the first is in difference form. -/
def sosChain : Bool → List Sos → List SecSt → Int → List SecSt × Int × Bool
  | _, [], _, v => ([], v, false)
  | diff, f :: fs, xs, v =>
    let (x, v1, s1) := f.step (diff && f.c.valid) ((xs.head?).getD {}) v
    let (l, v2, s2) := sosChain false fs (xs.drop 1) v1
    (x :: l, v2, s1 || s2)

/-- F4 (R145): the aligned value and whether it saturated. -/
def alignStep (c : FltConf) (hist : List Int) (v : Int) : Int × Bool :=
  if !c.align then (v, false)
  else
    let h (i : Nat) : Int := (hist[i]?).getD 0
    if c.wrapped then
      let w (x : Int) : Int := wrapInt 32 (x - h 0)
      (wrapInt 32 (h 0 + roundDiv (alignSum c.frac (w v) 0 (w (h 1)) (w (h 2))) (2 ^ 16)), false)
    else
      let u := roundDiv (alignSum c.frac v (h 0) (h 1) (h 2)) (2 ^ 16)
      (satInt 32 u, u != satInt 32 u)

/-- F5 as int16 (R147), and whether it saturated. -/
def outInt16 (c : FltConf) (u : Int) : Int × Bool :=
  let r := roundDiv u (2 ^ (24 - c.outK))
  if c.wrapped then (wrapInt 16 r, false) else (satInt 16 r, r != satInt 16 r)

/-- An output of one bin: the F4 value, the int16, quality, and saturations within the chain and at the output. -/
structure FltOut where
  u : Int
  v16 : Int
  qual : Nat
  sat : Bool
  outSat : Bool
  deriving DecidableEq, Repr

/-- Stages F2–F5 of one bin at an output frame (R140–R148). -/
def FltBin.output (c : FltConf) (settling : Bool) (x : FltBin) : FltBin × FltOut :=
  let (x, v) := x.comb c
  let (secs, v, s1) := if c.bypassed then ([], v, false) else sosChain c.leadDcZero c.sections x.secs v
  let (u, s2) := alignStep c x.hist v
  let (v16, s3) := outInt16 c u
  let gap := hasFlag x.qual qGap
  let q := andBits x.qual (if gap then 0xAF else 0xBF) + ifFlag settling qSettling
  ({ x with secs := secs, hist := [v, (x.hist[0]?).getD 0, (x.hist[1]?).getD 0] },
   { u := if gap then 0 else u, v16 := if gap then 0 else v16, qual := q, sat := s1 || s2, outSat := s3 && !c.int32 })

/-! Frames and changes (R137, R152, R153). -/

/-- Bins of a frame in the filter window. -/
def FltConf.span (c : FltConf) (bins : Nat) : Nat := min c.count (bins - c.first)

/-- Changes reach the chain with its frames: the settling count begins with the first frame launched at or after the change, and
the state is zeroed at the first frame of its round (R152, R153). -/
def FltSt.apply (c : FltConf) (t : Turn) (x : FltSt) : FltSt :=
  let reached (p : FltChange) : Bool := decide (p.time ≤ t.launch)
  let x := if x.pend.any (fun p => reached p && !p.begun) then
      { x with left := c.settle, pend := x.pend.map (fun p => { p with begun := p.begun || reached p }) }
    else x
  let rest := x.pend.filter (fun p => decide (t.round < p.round))
  if x.pend.any (fun p => p.zero && decide (p.round ≤ t.round)) then { pend := rest, left := c.settle } else { x with pend := rest }

/-- Feed the bins of a frame. -/
def feedBins (c : FltConf) : Nat → List (Int × Nat) → SMap FltBin → SMap FltBin
  | _, [], m => m
  | b, (d, q) :: t, m =>
    feedBins c (b + 1) t (SMap.put (fun _ => {}) m b (FltBin.feed c (SMap.get (fun _ => {}) m b) d q))

/-- The outputs of the bins of an output frame. -/
def outBins (c : FltConf) (settling : Bool) : Nat → Nat → SMap FltBin → SMap FltBin × List FltOut
  | _, 0, m => (m, [])
  | b, k + 1, m =>
    let (x, o) := FltBin.output c settling (SMap.get (fun _ => {}) m b)
    let (m, os) := outBins c settling (b + 1) k (SMap.put (fun _ => {}) m b x)
    (m, o :: os)

/-- An output frame: its bins and FLAGS. -/
structure FltFrame where
  conf : FltConf
  outs : List FltOut
  flags : Nat
  deriving DecidableEq, Repr

/-- LEFT and SETTLING of a chain. -/
def State.showLeft (s : State) (n left : Nat) : State :=
  (s.setFld (FLT_PORT_SETTLE.LEFT n) left).setFlag (FLT_PORT_STATUS.SETTLING n) (decide (0 < left))

/-- A frame enters the chain of its port (R137): the output frame it completes, if any. Where the frames of a decimation window
differ in BIN_COUNT, a bin is fed by the frames that carry it, and the output frame carries the bins of the last: a bin that it
lacks keeps its state, but for the quality of the window, which ends with it. DESIGN CHOICE, log entry 121. -/
def State.fltFrame (s : State) (f : OutFrame) : State × Option FltFrame :=
  let n := f.turn.port
  let c := (s.withTurn f.turn).fltConf n
  let p := s.port n
  let x := p.flt.apply c f.turn
  if !c.en then ((s.setPort n { p with flt := x }).showLeft n x.left, none)
  else
    let k := c.span f.incs.length
    let cut := decide (k < c.count)
    let s := s.setFlag (FLT_PORT_STATUS.WINDOW_CUT n) cut
    let ins := (((f.incs.map incInt32).zip f.quals).drop c.first).take k
    let x := { x with bins := feedBins c 0 ins x.bins, flags := orBits x.flags (orBits f.flags (bitAt cut 14)), j := x.j + 1 }
    if x.j % 2 ^ c.log2M != 0 then ((s.setPort n { p with flt := x }).showLeft n x.left, none)
    else
      let settling := decide (0 < x.left)
      let (bins, outs) := outBins c settling 0 k x.bins
      let sat := outs.any (·.sat)
      let osat := outs.any (·.outSat)
      let flags := orBits x.flags (bitAt (sat || osat) 11 + bitAt settling 12)
      -- windows are counted from 0 again: j keeps only its place in the window
      let bins := SMap.mapVals (fun _ => {}) (fun (b : FltBin) => { b with qual := 0 }) bins
      let x := { x with bins := bins, flags := 0, j := 0, left := x.left - 1 }
      let s := (s.setPort n { p with flt := x, fltNext := p.fltNext + 1, fltRound := f.turn.round }).showLeft n x.left
      let s := if sat then s.bump (FLT_PORT_SAT_COUNT.reg n) else s
      let s := if osat then s.bump (FLT_PORT_OUT_SAT_COUNT.reg n) else s
      let s := if sat || osat then s.setFlag (FLT_PORT_STATUS.SAT_SEEN n) true else s
      (s, some { conf := c, outs := outs, flags := flags })

/-- A change of the chain takes effect at the present round start: whether it zeroes (R152). -/
def State.fltPend (s : State) (n : Nat) (zero : Bool) : State :=
  let p := s.port n
  let s := s.setPort n { p with flt := { p.flt with pend := p.flt.pend ++ [{ round := s.ctl.round, time := s.time, zero := zero }] } }
  if zero && s.flag (FLT_PORT_CFG.EN n) then s.bump (FLT_PORT_RESTART_COUNT.reg n) else s

/-- What a filter command zeroes the state for when it changes (R152). -/
def State.fltKey (s : State) (n : Nat) : FltConf × List Nat :=
  ({ s.fltConf n with int32 := false, outK := 0, frac := 0 },
   [s.fld (FLT_PORT_CFG.ALIGN_AUTO n), s.fld (FLT_PORT_ALIGN.FRAC n)])

/-- What excites port `n` (R152): its Rayleigh entries with their plans, and whole Brillouin rounds. -/
def State.excitation (s : State) (n : Nat) : Nat × List (Nat × Nat × Plan) :=
  let c : Cfg := s.sch
  (c.fld LCH_TABLE_CFG.BRL_ROUND_EVERY,
   ((c.portEntries n).filter (fun e => e.kind == 0)).map (fun e => (e.offset, e.plan, c.plan e.plan)))

/-- The chains at a round start (R151–R153): `old` is the state before the changes of this round start. -/
def State.fltRound (old s : State) : State :=
  let s := if (List.range 8).any (fun u => old.userSet u ≠ s.userSet u) then (List.range 8).foldl (fun s u => s.showUser u) s else s
  (List.range s.ports).foldl (fun s n =>
    let cmd := decide (old.fltKey n ≠ s.fltKey n)
    let exc := decide (old.excitation n ≠ s.excitation n) || bitOf old.sched.apr n != bitOf s.sched.apr n
    let s := if cmd || exc then s.fltPend n (cmd || s.flag (FLT_PORT_CFG.ZERO_ON_PLAN n)) else s
    if decide (old.fltShown n ≠ s.fltShown n) || exc then s.showFlt n else s) s

/-- The chains of a START: zeroed, with the settling count from the first output frame (R152). -/
def State.fltStart (s : State) : State :=
  (List.range s.ports).foldl (fun s n =>
    let p := s.port n
    let s := s.setPort n { p with flt := { pend := [{ round := s.ctl.nextRound, time := s.time, zero := true }] }, fltNext := 0 }
    let s := if s.flag (FLT_PORT_CFG.EN n) then s.bump (FLT_PORT_RESTART_COUNT.reg n) else s
    s.showFlt n) s

/-- The chains at a STOP: their state is discarded (R152). DEDUCED, log entry 43. -/
def State.fltStop (s : State) : State :=
  (List.range s.ports).foldl (fun s n => (s.setPort n { s.port n with flt := {} }).showLeft n 0) s

end Sys2Proof.Machine
end

