-- ==== Sys2Proof/Machine/Mirror.lean ====
section
/-!
DEFINITION. The mirror of the Fuvon link: what is sent, and in which frames (R365).
-/
namespace Sys2Proof.Machine

/-- Register instances of a row. -/
def RegRow.offsets (r : RegRow) : List Nat :=
  (List.range r.n1).flatMap (fun i => (List.range r.n2).map (fun j => r.base + r.s1 * i + r.s2 * j))

/-- Registers of the configuration item: every RWL register of the SRC, LCH and PRT blocks, and the status registers. -/
def mirrorRegs : List Nat :=
  ((rowsSRC ++ rowsLCH ++ rowsPRT).filter (fun r => r.rwl != 0)).flatMap RegRow.offsets
    ++ [GLB_STATE.reg, SRC_APR_PORTS.reg] ++ (List.range 12).map PRT_INTEG_STATUS.reg ++ (List.range 16).map TRGU_STATUS.reg
    ++ (List.range 4).map TRG_DOUT_STATUS.reg

/-- Destinations: BAR0 offsets for registers and baselines, and from 2³¹ the partner reference tables by port and cell. DESIGN
CHOICE, log entry 81. -/
def refDest (port cell : Nat) : Nat := 2 ^ 31 + 0x20000 * port + 4 * cell

/-- The item a destination belongs to, in the row order of R365 counted from 0. DESIGN CHOICE, log entry 81. -/
def mirrorItem (dest : Nat) : Nat :=
  if 2 ^ 31 ≤ dest then 3
  else if 0x1D2000 ≤ dest ∧ dest < 0x1D8000 then 2
  else if (List.range 12).any (fun n => (decide (PRT_ZONE_BOUND.reg n 1 ≤ dest) && decide (dest ≤ PRT_ZONE_BOUND.reg n 7))
      || dest == PRT_ZONE_GAIN_R.reg n || dest == PRT_ZONE_GAIN_B.reg n) then 1
  else 0

/-- Send a mirror frame with the next sequence number. DESIGN CHOICE, log entry 81. -/
def State.sendMirror (s : State) (dest : Nat) (data : List Byte) : State :=
  let q := s.mlk.seq + 1
  let x : MirrorTx := { seq := q, dest := dest, data := data, first := s.time, sent := s.time }
  (s.putMlk { s.mlk with seq := q, tx := s.mlk.tx ++ [x] }).sendOne (q % 2 ^ 24) (.mirror dest data)

/-- Send data in frames of at most 112 bytes. -/
def State.sendMirrorData (s : State) (dest : Nat) : Nat → List Byte → State
  | 0, _ => s
  | n + 1, bs =>
    if bs = [] then s else (s.sendMirror dest (bs.take 112)).sendMirrorData (dest + 112) n (bs.drop 112)

/-- Send every register of which the value differs from the one last sent. -/
def State.mirrorChanges (s : State) : State :=
  if !s.linkUp then s
  else
    mirrorRegs.foldl (fun s off =>
      let w := s.readReg off
      if SMap.get resetVal s.mlk.known off = w then s
      else
        let s := s.sendMirror off (leBytes 4 w.toNat)
        (s.putMlk { s.mlk with known := SMap.put resetVal s.mlk.known off w })) s

/-- The port of the partner that a loop names. -/
def State.loopPeer (s : State) (n : Nat) : Nat := s.fld (MLK_LOOP_CFG.PARTNER_PORT n)

/-- Loop ports in use. -/
def State.loopPorts (s : State) : List Nat := (List.range s.ports).filter (fun n => s.flag (MLK_LOOP_CFG.EN n))

/-- A profile as one mean code per tile. -/
def tileMeans (p : ProfileSt) : List Nat :=
  (List.range 1024).map (fun t =>
    let l := (slice p.sums (64 * t) 64).map (fun v => levelCode v p.div)
    if l = [] then 0 else roundDivNat (l.foldl (· + ·) 0) l.length)

/-- Send the baseline of loop port `n` to the partner's loop port. DESIGN CHOICE, log entry 81. -/
def State.mirrorBaseline (s : State) (n : Nat) : State :=
  if !s.linkUp || !s.flag (MLK_LOOP_CFG.EN n) then s
  else match (s.port n).prof with
    | some p => s.sendMirrorData (0x1D2000 + 0x800 * s.loopPeer n) 19 ((tileMeans p).flatMap (leBytes 2))
    | none => s

/-- Send references of loop port `n` from a cell on. DESIGN CHOICE, log entry 81. -/
def State.mirrorRefs (s : State) (n first count : Nat) : State :=
  if !s.linkUp || !s.flag (MLK_LOOP_CFG.EN n) || !s.flag (BRL_PORT_STATUS.REF_LOADED n) then s
  else
    let count := min count (32768 - first)
    s.sendMirrorData (refDest (s.loopPeer n) first) (count / 28 + 1) (s.dramBytes (s.refAddr false n first) (4 * count))

end Sys2Proof.Machine
end

