-- ==== Sys2Proof/Machine/Stages.lean ====
section
/-!
DEFINITION. From raw codes to compressed values and spectral points: clipping and peaks, the corrections and the gain-zone
compensation of stages 1 and 2, tone separation, pulse compression, and the spectra of a Brillouin turn (R96–R108, R111–R113,
R156).  Ticks are counted from the launch instant.
-/
namespace Sys2Proof.Machine

/-! Raw codes (R96–R98). -/

/-- Whole ticks of a turn's occupancy before its launch instant (R71). -/
def Turn.ticksBefore (t : Turn) : Nat := t.dur / 2 / uTick

/-- Ticks of a turn's occupancy from its launch instant on: a code is taken at each tick before t + W + D/2 (R71). -/
def Turn.ticksAfter (t : Turn) : Nat := ceilDiv (t.planOf.window + t.dur / 2) uTick

/-- The codes of a channel: 0 XI, 1 XQ, 2 YI, 3 YQ (R96). -/
def rxChan (rx : RxIn) (c : Nat) : List (BitVec 12) :=
  match c with
  | 0 => rx.xi
  | 1 => rx.xq
  | 2 => rx.yi
  | _ => rx.yq

/-- The raw code of a channel at a tick; outside the occupancy no sample enters (R95). -/
def Turn.rxCode (t : Turn) (rx : RxIn) (c : Nat) (k : Int) : Int :=
  let i := k + t.ticksBefore
  if i < 0 ∨ (t.ticksAfter : Int) ≤ k then 0 else ((((rxChan rx c)[i.toNat]?).getD 0).toInt)

/-- A code is clipped (R98). -/
def clippedCode (x : Int) : Bool := x == -2048 || x == 2047

/-- Some channel is clipped at a tick. -/
def Turn.rxClipAt (t : Turn) (rx : RxIn) (k : Int) : Bool := [0, 1, 2, 3].any (fun c => clippedCode (t.rxCode rx c k))

/-- The largest raw magnitude of the four channels at a tick. -/
def Turn.rxMagAt (t : Turn) (rx : RxIn) (k : Int) : Nat := [0, 1, 2, 3].foldl (fun m c => max m (t.rxCode rx c k).natAbs) 0

/-- The ticks of `[a, b)`. -/
def ticksOf (a b : Int) : List Int := (List.range (b - a).toNat).map (fun (i : Nat) => a + i)

/-- The ticks whose instants lie in `[a, b)`, in units of 1/128 tick. -/
def ticksIn (a b : Int) : List Int := ticksOf (-((-a) / uTick)) (-((-b) / uTick))

/-- The ticks of the slots `[a, b)`: four to a slot (R97). -/
def slotTicks (a b : Nat) : List Int := ticksOf ((4 * a : Nat) : Int) ((4 * b : Nat) : Int)

/-- Slots of a turn's listen window. -/
def Turn.slots (t : Turn) : Nat := t.planOf.lead + t.planOf.bins

/-- The output bins that carry CLIP: a clipped sample in the raw interval (L + b) × 10 ns − D/2 to (L + b + 1) × 10 ns + D/2
(R98). DEDUCED, log entry 114. -/
def Turn.rxClipBins (t : Turn) (rx : RxIn) : List Nat :=
  (List.range t.planOf.bins).filter (fun b =>
    let a : Int := ((t.planOf.lead + b) * uBin : Nat)
    (ticksIn (a - (t.dur / 2 : Nat)) (a + (uBin + t.dur / 2 : Nat))).any (t.rxClipAt rx))

/-- The frame has a clipped sample outside the near zone (R108). -/
def Turn.rxClippedFar (t : Turn) (rx : RxIn) : Bool := (slotTicks (nearSlots t.dur) t.slots).any (t.rxClipAt rx)

/-- The largest raw magnitude of a channel over the listen window, NEAR slots excluded. -/
def Turn.rxPeak (t : Turn) (rx : RxIn) (c : Nat) : Nat :=
  (slotTicks (nearSlots t.dur) t.slots).foldl (fun m k => max m (t.rxCode rx c k).natAbs) 0

/-- One channel returns a single code for the whole listen window (R110). -/
def Turn.rxStuck (t : Turn) (rx : RxIn) : Bool :=
  [0, 1, 2, 3].any (fun c => (slotTicks 0 t.slots).all (fun k => t.rxCode rx c k == t.rxCode rx c 0))

/-! Zones of a turn (R101, R102, R106). -/

/-- The end of a zone's bins. -/
def State.zoneEnd (st : State) (n bins k : Nat) : Nat :=
  if k + 1 < st.zoneCount n then min (st.zoneEdge n (k + 1)) bins else bins

/-- The bins of a zone's test span: beyond its SETTLE and NEAR bins, and within BIN_COUNT (R106). -/
def State.zoneSpan (st : State) (t : Turn) (k : Nat) : Nat × Nat :=
  let n := t.port
  let e := st.zoneEdge n k
  (max (if st.zoneSteps n t.brl k then e + 2 else e) (nearSlots t.dur - t.planOf.lead), st.zoneEnd n t.planOf.bins k)

/-- The samples of a zone's test span. -/
def State.spanTicks (st : State) (t : Turn) (k : Nat) : List Int :=
  let x := st.zoneSpan t k
  slotTicks (t.planOf.lead + x.1) (t.planOf.lead + x.2)

/-- The boundaries at which the code changes in a turn: those of the zones it reaches (R101, R102). -/
def State.turnEdges (st : State) (t : Turn) : List Nat := (st.stepEdges t.port t.brl).filter (fun e => decide (e < t.planOf.bins))

/-- The code at a tick: that of the last zone whose boundary the tick has passed (R102). -/
def State.codeAt (st : State) (t : Turn) (k : Int) : Nat :=
  let n := t.port
  let z := (List.range (st.zoneCount n)).foldl (fun z j =>
    if decide (0 < j) && decide (st.zoneEdge n j < t.planOf.bins) && decide (((4 * (t.planOf.lead + st.zoneEdge n j) : Nat) : Int) ≤ k)
    then j else z) 0
  gainCode st n t.brl z

/-! Stages 1 and 2 (R105, R111). -/

/-- A value whose rounding the specification leaves open: one of the two integers about `num / den`, exact where it is one.
UNVERIFIED, log entry 115. -/
def roundFree (draw : Nat) (num : Int) (den : Nat) : Int :=
  num / den + (if num % den = 0 then 0 else ((Config.free draw % 2 : Nat) : Int))

/-- A signed coefficient of a turn's round. -/
def Turn.calInt (t : Turn) (f : Fld) : Int := ofBits f.width (t.calFld f)

/-- Offset (0.1 LSB) and gain error (100 ppm) of a channel. -/
def Turn.calOfs (t : Turn) (c : Nat) : Int :=
  t.calInt (match c with | 0 => PRT_CAL_OFS.XI t.port | 1 => PRT_CAL_OFS.XQ t.port | 2 => PRT_CAL_OFS.YI t.port | _ => PRT_CAL_OFS.YQ t.port)
def Turn.calGain (t : Turn) (c : Nat) : Int :=
  t.calInt (match c with
    | 0 => PRT_CAL_GAIN.XI t.port | 1 => PRT_CAL_GAIN.XQ t.port | 2 => PRT_CAL_GAIN.YI t.port | _ => PRT_CAL_GAIN.YQ t.port)

/-- Skew of a channel (0.1 ps), and phase error (0.01°) and imbalance (0.001 dB) of its hybrid. -/
def Turn.calTrim (t : Turn) (c : Nat) : List Int :=
  [ (match c with
      | 0 => 0 | 1 => t.calInt (PRT_CAL_SKEW.XQ t.port) | 2 => t.calInt (PRT_CAL_SKEW.YI t.port) | _ => t.calInt (PRT_CAL_SKEW.YQ t.port))
  , t.calInt (if c < 2 then PRT_CAL_HYB.PHASE_X t.port else PRT_CAL_HYB.PHASE_Y t.port)
  , t.calInt (if c < 2 then PRT_CAL_AMP.AMP_X t.port else PRT_CAL_AMP.AMP_Y t.port) ]

/-- Stage 1 for one sample: offset and gain, then what the skew and hybrid corrections change, whose formula is left open: a free
value of the coefficients and of the samples about it; saturated to the raw range (R111). DEDUCED, log entry 114; UNVERIFIED, log
entry 115. -/
def Turn.rxCorrected (t : Turn) (rx : RxIn) (c : Nat) (k : Int) : Int :=
  let y : Rat := ((10 * t.rxCode rx c k - t.calOfs c) * 1000 : Int) / ((10000 + t.calGain c : Int) : Rat)
  let trim := t.calTrim c
  let d := if trim.all (· == 0) then 0
    else Config.trim ((c : Int) :: trim ++ [-1, 0, 1].flatMap (fun i => [t.rxCode rx (c / 2 * 2) (k + i), t.rxCode rx (c / 2 * 2 + 1) (k + i)]))
  satInt 12 (roundRat y + d)

/-- A corrected sample in compensated units (R105). -/
def State.shifted (st : State) (t : Turn) (rx : RxIn) (c : Nat) (k : Int) : Int := t.rxCorrected rx c k * 2 ^ (7 - st.codeAt t k)

/-- Stage 2 (R102, R105): the five samples within the 12 ns of a step lie on the line from the last one before the step to the
first after them. -/
def State.compensated (st : State) (t : Turn) (rx : RxIn) (draw c : Nat) (k : Int) : Int :=
  match (st.turnEdges t).find? (fun e =>
      let ks : Int := (4 * (t.planOf.lead + e) : Nat)
      decide (ks ≤ k) && decide (k < ks + 5)) with
  | none => st.shifted t rx c k
  | some e =>
    let ks : Int := (4 * (t.planOf.lead + e) : Nat)
    let a := st.shifted t rx c (ks - 1)
    let b := st.shifted t rx c (ks + 5)
    roundFree (draw + 4 * (k + t.ticksBefore).toNat + c) (6 * a + (b - a) * (k - ks + 1)) 6

/-- The complex compensated streams: X, and Y. -/
def State.stream (st : State) (t : Turn) (rx : RxIn) (draw pol : Nat) (k : Int) : Int × Int :=
  (st.compensated t rx draw (2 * pol) k, st.compensated t rx draw (2 * pol + 1) k)

/-! Stage 3 (R112). -/

/-- The response at `f` quarter megahertz of the symmetric filter with the given half of its taps, from its centre on, at 400 MS/s,
in 2⁻¹²⁸ of its taps. -/
def tapResponse (half : List Int) (f : Nat) : Int :=
  ((List.range half.length).zip half).foldl (fun m x =>
    m + (if x.1 = 0 then 1 else 2) * x.2 * (cis ((x.1 * f * turnFx / 1600 : Nat) : Int)).1) 0

/-- The gain of a symmetric filter at its centre frequency. -/
def tapSum (half : List Int) : Int := 2 * half.foldl (· + ·) 0 - (half.head?).getD 0

/-- A filter has the characteristics of R112, at every quarter megahertz: flat within 0.1 dB to 40 MHz, at least 50 dB down from
50 MHz on. DEDUCED, log entry 114. -/
def sepMeets (half : List Int) : Bool :=
  let g := tapSum half * oneFx
  decide (0 < g)
    && (List.range 161).all (fun f => let h := 100000 * tapResponse half f; decide (98855 * g ≤ h) && decide (h ≤ 101157 * g))
    && (List.range 601).all (fun f => let h := 100000 * tapResponse half (f + 200); decide (h.natAbs ≤ 316 * g.natAbs))

/-- A filter that has them, for want of one the specification gives. -/
def sepDefault : List Int :=
  [3687, 3386, 2570, 1475, 400, -394, -760, -706, -370, 44, 350, 443, 326, 86, -152, -285, -270, -137, 38, 172, 210, 149, 28, -89
  , -151, -137, -63, 30, 98, 112, 74, 8, -54, -83, -71, -28, 21, 55, 59, 36, 0, -31, -43, -34, -11, 13, 28, 28, 15, -2, -15, -19
  , -14, -4, 6, 12, 11, 5, -1, -6, -7, -4, -1, 2, 3]

/-- The taps of the separation filter: free among the filters that have the characteristics of R112. UNVERIFIED, log entry 115. -/
def sepTaps : List Int := if sepMeets Config.sepTaps then Config.sepTaps else sepDefault

/-- e^(−j2πft) at a tick, with f the centre of tone `tone`: −135, −45, +45 and +135 MHz. -/
def toneTurn (tone : Nat) (k : Int) : Int × Int := cis ((135 - 90 * (tone : Int)) * k % 400 * turnFx / 400)

/-- Product of complex numbers. -/
def mulC (a b : Int × Int) : Int × Int := (a.1 * b.1 - a.2 * b.2, a.1 * b.2 + a.2 * b.1)

/-- The separated stream of a path at slot `s`: the tone turned to 0, low-pass filtered with a gain of 1 and taken at the centre
of the slot, (s + 0.5) × 10 ns after the launch instant; 24-bit parts in 2⁻⁴ unit (R111, R112). -/
def separated (taps : List Int) (x : Int → Int × Int) (draw tone : Nat) (s : Int) : Int × Int :=
  let mixed (k : Int) : Int × Int := mulC (x k) (toneTurn tone k)
  let sum := sumC (((List.range taps.length).zip taps).map (fun h =>
    let p := mixed (4 * s + 2 + h.1)
    let p := if h.1 = 0 then p else sumC [p, mixed (4 * s + 2 - h.1)]
    (h.2 * p.1, h.2 * p.2)))
  let den := (tapSum taps).natAbs * 2 ^ 124
  (satInt 24 (roundFree draw sum.1 den), satInt 24 (roundFree (draw + 1) sum.2 den))

/-! Stage 4 (R113). -/

/-- The envelope of a chirp of `d` ticks at a tick from its centre, in 2⁻¹²⁸: raised-cosine edges of 20 ns from 10 to 90 %, which
are 13.55165 ticks whole, at half amplitude D/2 from the centre (R43). DEDUCED, log entry 114. -/
def chirpEnv (d u : Nat) : Int :=
  let x : Int := (2 * (u : Int) - d) * 100000 + 1355165
  if x ≤ 0 then oneFx
  else if 2 * 1355165 ≤ x then 0
  else (oneFx + (cis (x * turnFx / (4 * 1355165))).1) / 2

/-- The chirp at a tick from its centre: 80 MHz over `d` ticks, in 2⁻¹²⁸. -/
def chirpAt (d : Nat) (u : Int) : Int × Int :=
  let e := chirpEnv d u.natAbs
  let (c, s) := cis (u * u * turnFx / (10 * max 1 d))
  (e * c / oneFx, e * s / oneFx)

/-- Taylor coefficients F1 to F3 of n̄ = 4 and 35 dB, in 2⁻⁴⁰. -/
def taylor : List Int := [375920009267, -16488801559, 4100145125]

/-- The reference: the chirp with the spectral taper 1 + 2 Σ F_m cos (2πmf / 80 MHz), which adds its copies m × 12.5 ns to either
side, in 2⁻¹⁶⁸. -/
def refChirp (d : Nat) (u : Int) : Int × Int :=
  let r := chirpAt d u
  sumC ((r.1 * 2 ^ 40, r.2 * 2 ^ 40) :: ((List.range 3).zip taylor).flatMap (fun f =>
    let m : Int := 5 * ((f.1 + 1 : Nat) : Int)
    let a := chirpAt d (u - m)
    let b := chirpAt d (u + m)
    [(f.2 * a.1, f.2 * a.2), (f.2 * b.1, f.2 * b.2)]))

/-- Slots to either side that the reference of a chirp of `d` ticks reaches. -/
def refReach (d : Nat) : Nat := (d / 2 + 22) / 4 + 1

/-- The reference at the slots from `−reach` to `reach`. -/
def refSamples (d : Nat) : List (Int × Int) :=
  (List.range (2 * refReach d + 1)).map (fun (i : Nat) => refChirp d (4 * ((i : Int) - refReach d)))

/-- Its normalisation: the magnitude of its correlation with the untapered chirp, in 2⁻²⁹⁶ (R113). -/
def refNorm (d : Nat) : Nat :=
  let c := sumC (((List.range (2 * refReach d + 1)).zip (refSamples d)).map (fun x =>
    mulConj (chirpAt d (4 * ((x.1 : Int) - refReach d))) x.2))
  isqrtFrom (c.1 * c.1 + c.2 * c.2).toNat 320 0

/-- The compressed values of a path over `slots` slots, from its separated stream `reach` slots earlier on; `draw`: that of the
first (R113). -/
def compressed (reach norm : Nat) (ref ys : List (Int × Int)) (draw slots : Nat) : List (Int × Int) :=
  (List.range slots).map (fun s =>
    let c := sumC (List.zipWith mulConj (slice ys s (2 * reach + 1)) ref)
    (satInt 24 (roundFree (draw + 2 * s) (c.1 * 2 ^ 128) norm), satInt 24 (roundFree (draw + 2 * s + 1) (c.2 * 2 ^ 128) norm)))

/-- The paths of a mask of tones: tone and polarisation (R111). -/
def pathsOf (tones : Nat) : List (Nat × Nat) := (bitsOf 4 tones).flatMap (fun k => [(k, 0), (k, 1)])

/-- Draws that stage 2 of a turn takes. -/
def Turn.rxDraws (t : Turn) : Nat := 4 * (t.ticksBefore + t.ticksAfter)

/-- Draws that stages 2 to 4 of a turn take. -/
def Turn.stageDraws (t : Turn) : Nat :=
  t.rxDraws + 4 * (pathsOf t.planOf.tones).length * (t.slots + 2 * refReach t.planOf.chirp)

/-- Stages 1 to 4 of a Rayleigh turn: z(k, s), by path and slot (R111–R113). -/
def State.pathValues (st : State) (t : Turn) (rx : RxIn) (draw : Nat) : List (List (Int × Int)) :=
  let d := t.planOf.chirp
  let reach := refReach d
  let ref := refSamples d
  let norm := refNorm d
  let taps := sepTaps
  let long := t.slots + 2 * reach
  let paths := pathsOf t.planOf.tones
  let base := draw + t.rxDraws
  ((List.range paths.length).zip paths).map (fun p =>
    let b := base + 4 * p.1 * long
    let ys := (List.range long).map (fun (i : Nat) => separated taps (st.stream t rx draw p.2.2) (b + 2 * i) p.2.1 ((i : Int) - reach))
    compressed reach norm ref ys (b + 2 * long) t.slots)

/-- The values of every slot, path by path. -/
def State.stageValues (st : State) (t : Turn) (rx : RxIn) (draw : Nat) : List (List (Int × Int)) :=
  let z := st.pathValues t rx draw
  (List.range t.slots).map (fun s => z.map (fun p => (p[s]?).getD (0, 0)))

/-! Spectra of a Brillouin turn (R156). -/

/-- Samples of a cell's window: Nw = ⌈(D + 20 ns) / 2.5 ns⌉. -/
def Turn.cellWindow (t : Turn) : Nat := ceilDiv (t.dur + u20ns) uTick

/-- The ticks of the window of cell `c`, about (L + 2c + 1) × 10 ns. DEDUCED, log entry 60. -/
def Turn.cellTicks (t : Turn) (c : Nat) : List Int :=
  let m : Int := (4 * (t.planOf.lead + 2 * c + 1) : Nat)
  ticksOf (m - (t.cellWindow / 2 : Nat)) (m - (t.cellWindow / 2 : Nat) + t.cellWindow)

/-- The Hann taper of a window of `nw` samples, `i` ticks from its centre, in 2⁻¹²⁸. DEDUCED, log entry 60. -/
def hann (nw : Nat) (i : Int) : Int := (oneFx + (cis (i * turnFx / max 1 nw)).1) / 2

/-- |X_k|² of the windowed samples zero-padded to 64, at f_k = −200 MHz + 6.25 MHz × k, in 2⁻⁵¹² unit². -/
def spectralPower (xs : List (Int × Int)) (k : Nat) : Nat :=
  let c := sumC (((List.range xs.length).zip xs).map (fun x => mulC x.2 (cis ((((32 : Int) - k) * x.1) * (2 ^ 90)))))
  (c.1 * c.1 + c.2 * c.2).toNat

/-- The 64 powers |X_k|² + |Y_k|² of a cell, in 2⁻⁵¹² unit². -/
def State.cellPowers (st : State) (t : Turn) (rx : RxIn) (draw c : Nat) : List Nat :=
  let m : Int := (4 * (t.planOf.lead + 2 * c + 1) : Nat)
  let win (pol : Nat) : List (Int × Int) := (t.cellTicks c).map (fun k =>
    let h := hann t.cellWindow (k - m)
    let x := st.stream t rx draw pol k
    (h * x.1, h * x.2))
  let x := win 0
  let y := win 1
  (List.range 64).map (fun k => spectralPower x k + spectralPower y k)

/-- The window of cell `c` includes a clipped raw sample (R156). -/
def Turn.rxCellClip (t : Turn) (rx : RxIn) (c : Nat) : Bool := (t.cellTicks c).any (t.rxClipAt rx)

end Sys2Proof.Machine
end

