-- ==== Sys2Proof/Machine/Receiver.lean ====
section
/-!
DEFINITION. Receiver monitors and auto-ranging (R106, R107, R110).
-/
namespace Sys2Proof.Machine

/-! Monitors (R110). -/

/-- A receiver fault of port `n`: its bit, PORT_FAULT and the diagnostic, at each detection. -/
def State.rxFaultAt (s : State) (n : Nat) (f : Fld) : State := ((s.setFlag f true).portFault n 3).diagEvent 0x09 n

/-- The LO monitor of a turn: below half of the calibrated value of the LO selected. Answers whether it found a fault. -/
def State.loMonitor (s : State) (t : Turn) (loX loY : Nat) : State × Bool :=
  let n := t.port
  let calX := t.calFld (if t.brl then PRT_CAL_LO_B.X n else PRT_CAL_LO_R.X n)
  let calY := t.calFld (if t.brl then PRT_CAL_LO_B.Y n else PRT_CAL_LO_R.Y n)
  let low := decide (2 * loX < calX) || decide (2 * loY < calY)
  let s := ((s.setFlag (PRT_LO_MON.SEL n) t.brl).setFld (PRT_LO_MON.LO_X n) loX).setFld (PRT_LO_MON.LO_Y n) loY
  let s := s.setFlag (if t.brl then PRT_RX_STATUS.LO_B_OK n else PRT_RX_STATUS.LO_R_OK n) (!low)
  (if low then s.rxFaultAt n (if t.brl then PRT_RX_FAULT.LO_LOW_B n else PRT_RX_FAULT.LO_LOW_R n) else s, low)

/-- Both monitors of a listen window. -/
def State.rxMonitors (s : State) (t : Turn) (rx : RxIn) : State × Bool :=
  let (s, low) := s.loMonitor t rx.loX.toNat rx.loY.toNat
  let stuck := t.rxStuck rx
  (if stuck then s.rxFaultAt t.port (PRT_RX_FAULT.ADC_STUCK t.port) else s, low || stuck)

/-- What the listen window of a Rayleigh or Brillouin turn shows: peaks and clipping outside the near zone (R108). -/
def State.rxShow (s : State) (t : Turn) (rx : RxIn) : State :=
  let n := t.port
  let s := (s.setFld (PRT_PEAK_X.PEAK_I n) (t.rxPeak rx 0)).setFld (PRT_PEAK_X.PEAK_Q n) (t.rxPeak rx 1)
  let s := (s.setFld (PRT_PEAK_Y.PEAK_I n) (t.rxPeak rx 2)).setFld (PRT_PEAK_Y.PEAK_Q n) (t.rxPeak rx 3)
  if t.rxClippedFar rx then (s.bump (PRT_CLIP_COUNT.reg n)).setFlag (PRT_RX_STATUS.CLIP_SEEN n) true else s

/-! Auto-ranging (R106, R107). -/

/-- The port is at reduced power (R67). -/
def State.aprPort (s : State) (n : Nat) : Bool := bitOf (s.fld SRC_APR_PORTS.APR) n

/-- Automatic power reduction of a port begins or ends (R67, R69): its auto-ranging is frozen while it lasts, and as it ends the
runs restart from 0 (R107). -/
def State.setApr (s : State) (n : Nat) (b : Bool) : State :=
  let s := s.setFld SRC_APR_PORTS.APR (putBit (s.fld SRC_APR_PORTS.APR) n b)
  let s := s.setFlag (PRT_RX_STATUS.RANGING_FROZEN n) b
  if b then s else s.setPort n { s.port n with rx := { (s.port n).rx with runsR := [], runsB := [] } }

/-- The runs of a zone of a set. -/
def RxSt.runs (x : RxSt) (setB : Bool) (k : Nat) : Nat × Nat := SMap.get (fun _ => (0, 0)) (if setB then x.runsB else x.runsR) k

/-- Replace them. -/
def RxSt.setRuns (x : RxSt) (setB : Bool) (k : Nat) (r : Nat × Nat) : RxSt :=
  if setB then { x with runsB := SMap.put (fun _ => (0, 0)) x.runsB k r }
  else { x with runsR := SMap.put (fun _ => (0, 0)) x.runsR k r }

/-- The test of one zone on a frame: `clip`, and the largest magnitude. -/
def State.zoneTest (s st : State) (n : Nat) (setB : Bool) (from_ k : Nat) (clip : Bool) (mag : Nat) : State :=
  let p := s.port n
  let x := p.rx
  let code := gainCode st n setB k
  if code ≠ gainCode s n setB k || x.steps.any (fun e => e.setB == setB && e.zone == k) then s.bump (PRT_AR_STALE_COUNT.reg n)
  else
    let (c, f) := x.runs setB k
    let c := if clip then c + 1 else 0
    let f := if mag ≤ max 1 (st.fld (PRT_RX_FLOOR.FLOOR n)) then f + 1 else 0
    let x := x.setRuns setB k (c, f)
    let lo := st.fld (PRT_RX_CFG.GAIN_MIN n)
    let hi := max lo (st.fld (PRT_RX_CFG.GAIN_MAX n))
    let step (up : Bool) : RxSt := { x with steps := x.steps ++ [{ setB := setB, zone := k, up := up, from_ := from_ }] }
    let x :=
      if max 1 (st.fld (PRT_RX_CFG.CLIP_TURNS n)) ≤ c ∧ lo < code then step false
      else if max 1 (st.fld (PRT_RX_FLOOR.FLOOR_TURNS n)) ≤ f ∧ code < hi then step true
      else x
    s.setPort n { p with rx := x }

/-- The auto-ranging tests of a turn's frame, 30 µs after its listen window: the clip test and the largest magnitude of each
zone's span on all four channels. -/
def State.rangeTests (s : State) (t : Turn) (rx : RxIn) : State :=
  let n := t.port
  let st := s.withTurn t
  let b := t.brl
  if !st.flag (if b then PRT_RX_CFG.AR_EN_B n else PRT_RX_CFG.AR_EN_R n) || s.aprPort n then s
  else
    let p := t.planOf
    let from_ := t.launch + 4 * (p.lead + p.bins) + 30 * ticksPerUs
    (List.range (st.zoneCount n)).foldl (fun s k =>
      match st.spanTicks t k with
      | [] => s
      | ks => s.zoneTest st n b from_ k (ks.any (t.rxClipAt rx)) (ks.foldl (fun m i => max m (t.rxMagAt rx i)) 0)) s

/-- A step takes effect: its zone's runs restart. -/
def State.takeStep (s : State) (n : Nat) (e : RangeStep) : State :=
  let reg := if e.setB then PRT_ZONE_GAIN_B.reg n else PRT_ZONE_GAIN_R.reg n
  let code := gainCode s n e.setB e.zone
  let w := (s.reg reg).toNat
  let s := s.setNat reg (if e.up then w + 2 ^ (3 * e.zone) else if code = 0 then w else w - 2 ^ (3 * e.zone))
  let p := s.port n
  let x := p.rx.setRuns e.setB e.zone (0, 0)
  (s.setPort n { p with rx := { x with ranged := x.ranged || !e.setB, rangedB := x.rangedB || e.setB } }).bump (PRT_RANGE_COUNT.reg n)

/-- Steps due at a round start (R104, R106, R107): those of a port at reduced power, or that a zone command of this round start
names, are discarded; the command resets every run of its port, reduced or not. -/
def State.rangeRound (s : State) (cmd : Nat) : State :=
  (List.range s.ports).foldl (fun s n =>
    let p := s.port n
    if bitOf cmd n then
      s.setPort n { p with rx := { p.rx with
        steps := if s.aprPort n then [] else p.rx.steps.filter (fun e => decide (s.time < e.from_)), runsR := [], runsB := [] } }
    else if s.aprPort n then s.setPort n { p with rx := { p.rx with steps := [] } }
    else
      let due := p.rx.steps.filter (fun e => decide (e.from_ ≤ s.time))
      let s := s.setPort n { p with rx := { p.rx with steps := p.rx.steps.filter (fun e => decide (s.time < e.from_)) } }
      due.foldl (fun s e => s.takeStep n e) s) s

end Sys2Proof.Machine
end

