-- ==== Sys2Proof/Machine/Products.lean ====
section
/-!
DEFINITION. What becomes of a frame: product blocks, the feed, captures, relative temperature, tiles, the level profile and
the integrity and route checks (R126–R135, R204–R206, R213, R242–R244, R317–R328).
-/
namespace Sys2Proof.Machine

/-! Blocks (R320–R322). -/

/-- Write a product of `n` units in segments of `maxu` (R320): `hdr first count seg segs`, `payload first count`. -/
def State.segments (s : State) (r kind maxu n : Nat) (hdr : Nat → Nat → Nat → Nat → List Byte) (payload : Nat → Nat → List Byte) :
    State :=
  let m := ceilDiv n maxu
  (List.range m).foldl (fun s i =>
    let c := min maxu (n - i * maxu)
    s.pushBlock r kind (hdr (i * maxu) c i m) (payload (i * maxu) c)) s


/-- A value plane of `w`-byte two's complement values, and a quality plane when quality is carried (R321). -/
def binPayload (w : Nat) (vals : List Int) (quals : Option (List Nat)) : List Byte :=
  pad8 (vals.flatMap (fun v => leBytes w (toBits (8 * w) v)))
    ++ (match quals with | some q => pad8 (q.flatMap (leBytes 1)) | none => [])

/-- Bins of a segment (R320). -/
def maxUnits (w : Nat) (qual : Bool) : Nat := 64 * (1024 / (w + if qual then 1 else 0))

/-- The header of a strain-rate or filtered frame, with the codes of the set its turn used (R105, R322). -/
def frameHdr (t : Turn) (flags format scale first count seg segs : Nat) : List Byte :=
  leBytes 8 (t.round % 2 ^ 48) ++ leBytes 8 t.launch ++ leBytes 8 t.beltPos ++ leBytes 8 t.index ++ leBytes 4 flags
    ++ leBytes 2 first ++ leBytes 2 count ++ leBytes 1 t.port ++ leBytes 1 t.entry ++ leBytes 1 format ++ leBytes 1 scale
    ++ leBytes 4 ((SMap.get resetVal t.regs (if t.brl then PRT_ZONE_GAIN_B.reg t.port else PRT_ZONE_GAIN_R.reg t.port)).toNat % 2 ^ 24 + seg * 2 ^ 24 + segs * 2 ^ 28)

/-- The strain-rate frame on ring 3 + n (R321–R324). -/
def State.rawProduct (s : State) (f : OutFrame) : State :=
  let n := f.turn.port
  let st := s.withTurn f.turn
  if !st.flag (CMP_PORT_CFG.RAW_EN n) then s
  else
    let q := st.flag (PRT_PE_CFG.QUAL_OUT n)
    let k := st.scaleK n
    s.segments (3 + n) 0x01 (maxUnits 2 q) f.incs.length (frameHdr f.turn f.flags (f.plan + bitAt q 3) k)
      (fun first c => binPayload 2 ((slice f.incs first c).map (incInt16 k)) (if q then some (slice f.quals first c) else none))

/-- The filtered frame (R147, R148, R322). -/
def State.filteredProduct (s : State) (f : OutFrame) (o : FltFrame) : State :=
  let n := f.turn.port
  let q := (s.withTurn f.turn).flag (PRT_PE_CFG.QUAL_OUT n)
  let w := if o.conf.int32 then 4 else 2
  let scale := if o.conf.int32 then 24 else o.conf.outK
  s.segments (3 + n) 0x02 (maxUnits w q) o.outs.length
    (fun first c seg segs =>
      frameHdr f.turn o.flags (f.plan + bitAt q 3 + bitAt o.conf.int32 4 + 2 ^ 5) scale (o.conf.first + first) c seg segs)
    (fun first c =>
      let l := slice o.outs first c
      binPayload w (l.map (fun x => if o.conf.int32 then x.u else x.v16)) (if q then some (l.map (·.qual)) else none))

/-! The analysis-core feed (R242–R244). -/

/-- KIND of a slot. -/
def OutFrame.slotKind (f : OutFrame) : Nat := match f.kind with | .real => 0 | .filled => 1 | .gap => 2

/-- A window of a frame: entries beyond it read 0 with GAP. -/
def windowOf (first n : Nat) (l : List (Int × Nat)) : List (Int × Nat) :=
  let x := slice l first n
  x ++ List.replicate (n - x.length) (0, qGap)

/-- The bytes of a slot for core `k`: header, bins, quality words; DROPPED is added when the slot is written (R243). -/
def State.slotBytes (s : State) (k : Nat) (f : OutFrame) : List Byte :=
  let n := f.turn.port
  let st := s.withTurn f.turn
  let tiles := s.fld (ACR_FEED_CFG.TILE_COUNT_M1 k) + 1
  let ft := s.fld (ACR_FEED_CFG.FIRST_TILE k)
  let i16 := s.flag (ACR_FEED_CFG.FORMAT k)
  let w := windowOf (64 * ft) (64 * tiles) (f.incs.zip f.quals)
  leBytes 8 f.turn.index ++ leBytes 8 f.turn.launch ++ leBytes 8 f.turn.round ++ leBytes 4 f.flags ++ leBytes 2 ft
    ++ leBytes 1 tiles ++ leBytes 1 n ++ leBytes 2 (min (64 * tiles) (f.incs.length - 64 * ft)) ++ leBytes 1 (if i16 then 1 else 0)
    ++ leBytes 1 (if i16 then st.scaleK n else 24) ++ zeroBytes 4 ++ leBytes 1 f.slotKind ++ zeroBytes 23
    ++ w.flatMap (fun x => if i16 then leBytes 2 (toBits 16 (incInt16 (st.scaleK n) x.1)) else leBytes 4 (toBits 32 (incInt32 x.1)))
    ++ (if s.flag (ACR_FEED_CFG.QUAL k) then w.flatMap (fun x => leBytes 1 x.2) else [])

/-- A frame reaches the staging buffer of core `k`, or is dropped whole. -/
def State.feedCore (s : State) (f : OutFrame) (k : Nat) : State :=
  let c := s.core k
  if !c.live || !s.flag (ACR_FEED_CFG.EN k) || s.fld (ACR_FEED_CFG.PORT k) != f.turn.port
      || f.turn.index % (s.fld (ACR_FEED_CFG.DECIM_M1 k) + 1) != 0 then s
  else if s.flag (ACR_STATUS.FEED_BAD k) || decide (32768 < (c.staging.length + 1) * s.slotSize k) then
    (s.setCore k { c.raise flagGap with dropped := c.dropped + 1 }).bump (ACR_FEED_DROP_COUNT.reg k)
  else s.setCore k { c with staging := c.staging ++ [s.slotBytes k f] }

/-- The feed of every core. DEDUCED, log entry 56. -/
def State.feedFrame (s : State) (f : OutFrame) : State := (List.range 16).foldl (fun s k => s.feedCore f k) s

/-! Captures (R213). -/

/-- A frame reaches the capture units of its port: raw, or filtered. -/
def State.captureAll (s : State) (filt : Bool) (n index launch flags round : Nat) (vals : List (Int × Nat)) (drop : BitVec 16) :
    State :=
  (List.range 16).foldl (fun s u =>
    if s.flag (TRGU_CFG.CAP_EN u) && s.capPort u == n && s.flag (TRGU_CFG.DATA_SRC u) == filt then
      s.captureFrame u
        { index := index, launch := launch, flags := flags, round := round
          values := windowOf (s.fld (TRGU_CAP_WIN.FIRST_BIN u)) (s.capBins u) vals } (drop.getLsbD u)
    else s) s

/-- Strain-rate values to the captures with DATA_SRC = 0. -/
def State.captureRaw (s : State) (f : OutFrame) (m : FrameMarks) : State :=
  let t := f.turn
  let k := (s.withTurn t).scaleK t.port
  s.captureAll false t.port t.index t.launch f.flags t.round ((f.incs.map (incInt16 k)).zip f.quals) m.capDrop

/-- Filtered values to the captures with DATA_SRC = 1, counted in output frames; bins outside the filter window read 0 with
GAP. -/
def State.captureFiltered (s : State) (f : OutFrame) (o : FltFrame) (m : FrameMarks) : State :=
  let t := f.turn
  s.captureAll true t.port ((s.port t.port).fltNext - 1) t.launch o.flags t.round
    (List.replicate o.conf.first (0, qGap) ++ o.outs.map (fun x => (x.v16, x.qual))) m.capDrop

/-! Relative temperature (R126–R129, R206). -/

/-- One increment joins an accumulator. -/
def LfSlot.add (x : LfSlot) (inc : Int) (qual : Nat) : LfSlot :=
  let x := if hasFlag qual qGap then { x with brk := true } else { x with u := ofBits 64 (toBits 64 (x.u + inc)) }
  { x with flags := orBits x.flags (andBits qual (qClip + qFade + qFilled + qBlanked)) }

/-- Accumulators of the output bins and of the reference slots. -/
def lfBin (b : Nat) : Nat := 2 * b
def lfRef (slot : Nat) : Nat := 2 * slot + 1

/-- The accumulators after a frame, with U added to the sums of the interval. DEDUCED, log entry 53. -/
def lfAdd (f : OutFrame) (m : SMap LfSlot) : SMap LfSlot :=
  let put (m : SMap LfSlot) (k : Nat) (inc : Int) (q : Nat) : SMap LfSlot :=
    SMap.put (fun _ => {}) m k ((SMap.get (fun _ => {}) m k).add inc q)
  let m := ((f.incs.zip f.quals).foldl (fun (a : Nat × SMap LfSlot) x => (a.1 + 1, put a.2 (lfBin a.1) x.1 x.2)) (0, m)).2
  let m := f.refs.foldl (fun m x => put m (lfRef x.1) x.2.1 x.2.2) m
  SMap.mapVals (fun _ => {}) (fun x => { x with sum := x.sum + x.u }) m

/-- Mean of Ū over the usable reference slots (R128); none when no slot is usable. DEDUCED, log entry 53. -/
def lfReference (f : OutFrame) (d : Nat) (m : SMap LfSlot) : Option Rat :=
  let us := f.refs.filterMap (fun x =>
    let a := SMap.get (fun _ => {}) m (lfRef x.1)
    if a.brk || hasFlag x.2.2 qNear then none else some a.sum)
  if us = [] then none else some (((us.foldl (· + ·) 0 : Int) : Rat) / ((d * us.length : Nat) : Rat))

/-- Laser frequency in Hz (R37). -/
def State.laserHz (st : State) : Nat := (386200 + 25 * st.fld SRC_LASER_CFG.CH) * 500000000

/-- K_e × 10²⁸ π / 5 … : XI × G × ν, the denominator R122 and R127 share. -/
def State.strainDen (st : State) (n gauge : Nat) : Nat := st.fld (PRT_PE_CONV.XI n) * gauge * st.laserHz

/-- A kelvin value in µK of a mean in binary angle (R127): Ū K_e / (COEF × 10⁻⁸). -/
def State.lfMicroK (st : State) (n gauge : Nat) (u : Rat) : Int :=
  satInt 32 (roundRat (u * (10 ^ 26 : Nat) / ((2 ^ 32 * st.strainDen n gauge * st.fld (PRT_LF_COEF.COEF n) : Nat) : Rat)))

/-- Rate of rise of a bin in mK/min (R206); where it does not fit its format a free value. UNVERIFIED, log entry 57. -/
def lfRate (draw b : Nat) (now old : LfSample) : Option Int :=
  match (now.vals[b]?).getD none, (old.vals[b]?).getD none with
  | some v, some w =>
    let r := roundDiv ((v - w) * 24000000) (now.time - old.time)
    some (if satInt 32 r = r then r else ofBits 32 (Config.free (draw + b)))
  | _, _ => none

/-- The rate source is evaluated at an LF sample (R204, R206). -/
def State.rateEval (s : State) (n : Nat) (differs : BitVec 16) : State :=
  match (s.port n).lf.hist with
  | [] => s
  | now :: _ =>
    let h := (s.port n).lf.hist
    let draw := s.freeCtr
    let s := s.putFreeCtr (draw + now.vals.length)
    let val (u : Nat) : Option SrcValue :=
      match h[max 1 (s.fld (TRGU_SRC.PARAM u) % 256)]? with
      | none => none
      | some old => (s.rangeValue u (fun b => lfRate draw b now old)).map (fun v =>
          { value := v.1, index := v.2, time := now.time, span := old.first })
    s.evalSource 3 n val differs

/-- The LF sample at the end of an interval, over the frames summed in it: its block on ring 15, its values kept for the rate source. UNVERIFIED, log entry
57. -/
def State.lfSample (s : State) (f : OutFrame) (differs : BitVec 16) : State :=
  let t := f.turn
  let n := t.port
  let st := s.withTurn t
  let p := s.port n
  let d := p.lf.n
  let refEn := st.flag (PRT_LF_CFG.REF_EN n)
  let ref := if refEn then lfReference f d p.lf.slots else some 0
  let bad := s.flag (PRT_INTEG_STATUS.LF_REF_BAD n) || ref.isNone
  let s := s.setFlag (PRT_INTEG_STATUS.LF_REF_BAD n) bad
  let fmt := st.flag (PRT_LF_CFG.FORMAT n)
  let cell (b q : Nat) : Option Int × Int × Nat :=
    let a : LfSlot := SMap.get (fun _ => {}) p.lf.slots (lfBin b)
    let gap := bad || a.brk || (match p.lf.masked with | some m => decide (m ≤ b) | none => false)
    let u : Rat := (a.sum : Rat) / (d : Rat) - ref.getD 0
    let k := st.lfMicroK n f.geom.gauge u
    let v := if gap then 0 else if fmt then satInt 32 (roundPi (u / (2 ^ 19 : Nat))) else k
    (if gap then none else some k, v, a.flags + andBits q (qNear + qSettle) + ifFlag gap qGap)
  let cells := List.zipWith cell (List.range f.quals.length) f.quals
  let s := s.segments 15 0x04 (maxUnits 4 true) cells.length
    (fun first c seg segs =>
      leBytes 8 (t.round % 2 ^ 48) ++ leBytes 8 t.launch ++ leBytes 2 first ++ leBytes 2 c ++ leBytes 1 n
        ++ leBytes 1 (bitAt fmt 0 + bitAt refEn 1 + bitAt bad 2) ++ leBytes 1 (seg + 16 * segs) ++ zeroBytes 1
        ++ leBytes 2 d ++ zeroBytes 6)
    (fun first c => binPayload 4 ((slice cells first c).map (·.2.1)) (some ((slice cells first c).map (·.2.2))))
  let x := { p.lf with
    n := 0
    masked := none
    slots := SMap.mapVals (fun _ => {}) (fun a => { a with sum := 0, flags := 0 }) p.lf.slots
    hist := ({ first := p.lf.first, time := t.launch, vals := cells.map (·.1) } :: p.lf.hist).take 256 }
  (s.setPort n { p with lf := x }).rateEval n differs

/-- The first covering frame of a takeover is complete (R373): U and the continuity break of every bin beyond the home range
are cleared, and the interval in progress carries GAP there. -/
def LfSt.extendAt (x : LfSt) : LfSt :=
  match x.extend with
  | none => x
  | some h => { x with extend := none, masked := some h, slots := x.slots.filter (fun e => e.1 % 2 = 1 || decide (e.1 < lfBin h)) }

/-- A frame reaches the relative-temperature channel; the first interval after a rebase begins with the first frame launched at
or after its round start (R126). Frames that pass while LF_EN = 0 leave U, the breaks and the interval as they stand, and its
return to 1 sets no break. DESIGN CHOICE, log entry 120. -/
def State.lfFrame (s : State) (f : OutFrame) (differs : BitVec 16) : State :=
  let n := f.turn.port
  let st := s.withTurn f.turn
  let p := s.port n
  if !st.flag (PRT_LF_CFG.LF_EN n) || decide (f.turn.launch < p.lf.from_) then s
  else
    let d := max 1 (st.fld (PRT_LF_CFG.DECIM n))
    let x := { p.lf with
      n := p.lf.n + 1, slots := lfAdd f p.lf.slots, first := if p.lf.n = 0 then f.turn.launch else p.lf.first }
    let x := if f.kind = .real && f.turn.takeover then x.extendAt else x
    let s := s.setPort n { p with lf := x }
    if d ≤ x.n then s.lfSample f differs else s

/-! Tile summaries (R205, R328). -/

/-- Pairs of a list. -/
def pairs : List Int → List (Int × Int)
  | a :: b :: t => (a, b) :: pairs t
  | _ => []

/-- Level energies times 2^L: levels from 1 upwards, `k` left, then level 0; the list holds sums of segments. -/
def haar : Nat → List Int → List Nat
  | 0, l => [(l.foldl (· + ·) 0).natAbs ^ 2]
  | k + 1, l =>
    let ps := pairs l
    ps.foldl (fun e p => e + (p.1 - p.2).natAbs ^ 2) 0 * 2 ^ k :: haar k (ps.map (fun p => p.1 + p.2))

/-- The level energies E[0] … E[L] of a bin, times 2^L. -/
def levelEnergies (l : Nat) (xs : List Int) : List Nat :=
  let e := haar l xs
  e.drop l ++ e.take l

/-- Quality of two frames together; a bin that one of them lacks is GAP. DEDUCED, log entry 55. -/
def mergeQuals : List Nat → List Nat → List Nat
  | [], bs => bs.map (orBits qGap)
  | as, [] => as.map (orBits qGap)
  | a :: as, b :: bs => orBits a b :: mergeQuals as bs

/-- Sum of two lists of energies. -/
def addEnergies (a b : List Nat) : List Nat := List.zipWith (· + ·) a b

/-- A tile: contributing bins and the sums of their level energies times 2^L. -/
structure Tile where
  count : Nat
  sums : List Nat
  deriving DecidableEq, Repr

/-- The tiles of a closed block; `frames` oldest first. -/
def blockTiles (l : Nat) (frames : List (List Int)) (quals : List Nat) : List Tile :=
  let e (b : Nat) : List Nat := levelEnergies l (frames.map (fun xs => (xs[b]?).getD 0))
  (List.range (ceilDiv quals.length 64)).map (fun t =>
    let bins := (List.range 64).filter (fun i =>
      match quals[64 * t + i]? with | some q => !hasFlag q (qClip + qSettle + qNear + qFade + qGap) | none => false)
    { count := bins.length
      sums := bins.foldl (fun m i => addEnergies m (e (64 * t + i))) (List.replicate (l + 1) 0) })

/-- The tile value for a band mask. -/
def Tile.value (x : Tile) (l mask : Nat) : Option Int :=
  if x.count = 0 then none
  else
    let sum := ((List.range (l + 1)).filter (bitOf mask)).foldl (fun m i => m + (x.sums[i]?).getD 0) 0
    some (roundDivNat sum (2 ^ (2 * l) * x.count) : Nat)

/-- The bytes of a tile in a summary. -/
def Tile.bytes (x : Tile) (l : Nat) : List Byte :=
  leBytes 4 x.count ++ x.sums.flatMap (fun e => leBytes 4 (if x.count = 0 then 0 else satNat 32 (roundDivNat e (2 ^ (2 * l) * x.count))))

/-- A tile block closes with frame `f`: the summary, and the units on the source. -/
def State.closeTiles (s : State) (f : OutFrame) (l : Nat) (out : Bool) (index first : Nat) (frames : List (List Int)) (quals : List Nat)
    (differs : BitVec 16) : State :=
  let t := f.turn
  let tiles := blockTiles l frames quals
  let s := if out then
      s.pushBlock 21 0x08
        (leBytes 8 index ++ leBytes 8 t.launch ++ leBytes 8 (t.round % 2 ^ 48) ++ leBytes 2 tiles.length ++ leBytes 1 t.port
          ++ leBytes 1 l ++ zeroBytes 4)
        (pad8 (tiles.flatMap (fun x => x.bytes l)))
    else s
  let val (u : Nat) : Option SrcValue :=
    let mask := s.fld (TRGU_SRC.PARAM u) % 2048
    (s.rangeValue u (fun i => (tiles[i]?).bind (fun x => x.value l mask))).map (fun v =>
      { value := v.1, index := v.2, time := t.launch, span := first })
  s.evalSource 1 t.port val differs

/-- A frame reaches the tile summaries of its port. -/
def State.tileFrame (s : State) (f : OutFrame) (differs : BitVec 16) : State :=
  let t := f.turn
  let n := t.port
  let st := s.withTurn t
  let p := s.port n
  let l := clampNat 3 10 (st.fld (TRG_TS_CFG.BLOCK_LOG2 n))
  let j := t.index % 2 ^ l
  if !st.flag (TRG_TS_CFG.EN n) || decide (t.round < p.tile.from_) || (p.tile.first.isNone && j != 0) then s
  else
    let xs := f.incs.map (fun d => roundDiv (incInt32 d) 4096)
    let (index, first) := p.tile.first.getD (t.index, t.launch)
    let quals := if p.tile.first.isNone then f.quals else mergeQuals p.tile.quals f.quals
    let frames := xs :: p.tile.frames
    if j + 1 = 2 ^ l then
      (s.setPort n { p with tile := { from_ := p.tile.from_ } }).closeTiles f l (st.flag (TRG_TS_CFG.OUT_EN n)) index first
        frames.reverse quals differs
    else s.setPort n { p with tile := { p.tile with first := some (index, first), frames := frames, quals := quals } }

/-! The level profile (R130, R325). -/

/-- Paths of a geometry: two for each enabled tone. -/
def Geom.paths (g : Geom) : Nat := 2 * (bitsOf 4 g.tones).length

/-- The noise floor of zone `k` in a turn, in 2⁻¹⁶ compensated units squared (R131). UNVERIFIED, log entry 17. -/
def State.zoneNoise (st : State) (t : Turn) (g : Geom) (k : Nat) : Nat :=
  let c := gainCode st t.port false k
  let ref := t.calFld (if c % 2 = 0 then PRT_CAL_NOISE.CODE_EVEN t.port (c / 2) else PRT_CAL_NOISE.CODE_ODD t.port (c / 2))
  Config.noiseFloor ref g.chirp g.tones

/-- The profile of 256 frames is complete. -/
def State.emitLevel (s : State) (f : OutFrame) (x : LevelSt) : State :=
  let t := f.turn
  let n := t.port
  let st := s.withTurn t
  let div := 256 * x.geom.paths * 256
  let p := s.port n
  let s := (s.setPort n { p with level := none, prof := some { peak := x.peak, div := div, sums := x.sums } }).mirrorBaseline n
  if !st.flag (CMP_PORT_CFG.LEVEL_EN n) then s
  else
    let noise (k : Nat) : Nat := if k < st.zoneCount n then levelCode (st.zoneNoise t x.geom k) 65536 else 0
    s.segments (3 + n) 0x03 32768 x.sums.length
      (fun first c seg segs =>
        leBytes 8 (x.first % 2 ^ 48) ++ leBytes 8 (t.round % 2 ^ 48) ++ leBytes 2 first ++ leBytes 2 c ++ leBytes 1 n ++ leBytes 1 f.plan
          ++ leBytes 1 (seg + 16 * segs) ++ leBytes 1 (st.zoneCount n) ++ leBytes 2 x.peak ++ zeroBytes 6
          ++ (List.range 8).flatMap (fun k => leBytes 2 (noise k)))
      (fun first c => pad8 ((slice x.sums first c).flatMap (fun v => leBytes 2 (levelCode v div))))

/-- A real frame joins the accumulation, which starts afresh where geometry or peak differ. DEDUCED, log entry 56. -/
def State.levelFrame (s : State) (f : OutFrame) : State :=
  let t := f.turn
  let n := t.port
  let p := s.port n
  let fresh : LevelSt := { geom := f.geom, peak := t.peak, first := t.round, n := 0, sums := List.replicate f.power.length 0 }
  let (s, x) := match p.level with
    | none => (s, fresh)
    | some x => if x.geom = f.geom ∧ x.peak = t.peak then (s, x) else (s.bump (PRT_LEVEL_RESTART_COUNT.reg n), fresh)
  let x := { x with n := x.n + 1, sums := addEnergies x.sums f.power }
  let s := if x.n = 256 then s.emitLevel f x else s.setPort n { p with level := some x }
  s.setFlag (PRT_INTEG_STATUS.ROUTE_REF n) (match (s.port n).prof with | some q => q.peak == t.peak | none => false)

/-! Integrity (R131–R134) and the route check (R135). -/

/-- A bin is dark: the sum of eight bin powers lies below the noise floor raised by MARGIN tenths of a decibel. -/
def darkBin (margin paths sum8 noise : Nat) : Bool :=
  decide ((sum8 * 2 ^ 16) ^ 100 < (noise * (8 * paths * 2 ^ 8)) ^ 100 * 10 ^ margin)

/-- The first bin outside the near zone. -/
def nearBins (dur lead : Nat) : Nat := nearSlots dur - lead

/-- The examined end of a frame (R132, R373). DEDUCED, log entry 59. -/
def State.examinedEnd (s : State) (f : OutFrame) : Nat :=
  let t := f.turn
  let n := t.port
  let st := s.withTurn t
  let loop := t.takeover && st.flag (MLK_LOOP_CFG.EN n)
  let end_ := st.fld (if loop then MLK_LOOP_END.TKO_END_BIN n else PRT_INTEG_END.END_BIN n)
  let apr := st.fld (if loop then MLK_LOOP_END.TKO_APR_END_BIN n else PRT_INTEG_END.APR_END_BIN n)
  min f.geom.bins (if s.aprPort n then min apr end_ else end_)

/-- The break bin of a frame (R132). UNVERIFIED, log entry 17. -/
def State.breakBin (s : State) (f : OutFrame) : Option Nat :=
  let t := f.turn
  let n := t.port
  let st := s.withTurn t
  let e := s.examinedEnd f
  let margin := clampNat 10 200 (st.fld (PRT_INTEG_CFG.MARGIN n))
  let noise := (List.range 8).map (st.zoneNoise t f.geom)
  let dark (b : Nat) : Bool :=
    darkBin margin f.geom.paths ((slice f.power b 8).foldl (· + ·) 0) ((noise[st.zoneOf n b]?).getD 0)
  let from_ := nearBins t.dur f.geom.lead
  let bs := (((List.range (e + 1 - 8)).drop from_).reverse).takeWhile dark
  match bs.getLast? with
  | some b => if b + 64 ≤ e then some b else none
  | none => none

/-- A break is declared, or followed (R133, R67). -/
def State.breakAt (s : State) (n b : Nat) : State :=
  if s.flag (PRT_INTEG_STATUS.DECLARED n) then s.setFld (PRT_INTEG_STATUS.BREAK_BIN n) b
  else
    let s := ((s.setFlag (PRT_INTEG_STATUS.DECLARED n) true).setFld (PRT_INTEG_STATUS.BREAK_BIN n) b).bump (PRT_BREAK_COUNT.reg n)
    (s.setApr n true).portFault n 1

/-- The integrity check of a real frame. DEDUCED, log entry 59. -/
def State.integFrame (s : State) (f : OutFrame) : State :=
  let n := f.turn.port
  let p := s.port n
  if !(s.withTurn f.turn).flag (PRT_INTEG_CFG.EN n) then
    (s.setPort n { p with integ := {} }).setFlag (PRT_INTEG_STATUS.CLEAR n) false
  else
    match s.breakBin f with
    | none =>
      let c := min 2 (p.integ.clear + 1)
      let s := s.setPort n { p with integ := { last := none, clear := c } }
      if 2 ≤ c then s.setFlag (PRT_INTEG_STATUS.CLEAR n) true else s
    | some b =>
      let s := (s.setPort n { p with integ := { last := some (f.geom, b), clear := 0 } }).setFlag (PRT_INTEG_STATUS.CLEAR n) false
      match p.integ.last with
      | some (g, b0) => if g = f.geom ∧ b ≤ b0 + 16 ∧ b0 ≤ b + 16 then s.breakAt n b else s
      | none => s

/-- A route check of port `n` fails, with its counter (R135, R172). -/
def State.routeFail (s : State) (n counter : Nat) : State :=
  (s.bump counter).routeFault n

/-- `a / b` lies more than 3 dB below `c / d`. -/
def below3dB (a b c d : Nat) : Bool := decide ((a * d) ^ 10 * 10 ^ 3 < (c * b) ^ 10)

/-- The route check of a real frame, against the profile that stood before it (R135). -/
def State.routeFrame (s : State) (f : OutFrame) : State :=
  let t := f.turn
  let n := t.port
  match (s.port n).prof with
  | none => s
  | some q =>
    if t.long || s.aprPort n || q.peak != t.peak then s
    else
      let from_ := nearBins t.dur f.geom.lead
      let k := min (slice f.power from_ 64).length (slice q.sums from_ 64).length
      let a := (slice f.power from_ k).foldl (· + ·) 0
      let r := (slice q.sums from_ k).foldl (· + ·) 0
      if below3dB a (f.geom.paths * 256) r q.div then s.routeFail n (PRT_ROUTE_FAIL_COUNT.reg n) else s

/-- PRTn_STRAIN_PER_RAD: round(10¹⁵ K_e) (R122). -/
def State.showStrain (s : State) (f : OutFrame) : State :=
  let n := f.turn.port
  let d := (s.withTurn f.turn).strainDen n f.geom.gauge
  s.setNat (PRT_STRAIN_PER_RAD.reg n)
    (roundRat ((5 * 10 ^ 26 * 2 ^ 128 : Nat) / ((piFx * d : Nat) : Rat))).toNat

/-- A real frame's measurements. -/
def State.realFrame (s : State) (f : OutFrame) : State :=
  let n := f.turn.port
  let s := ((s.integFrame f).routeFrame f).levelFrame f
  let s := match s.cal.run with
    | some r => if r.start ≤ f.turn.launch then s.calFrame n else s
    | none => s
  s.showStrain f

/-! Delivery (R124). -/

/-- Filtered output of a frame. -/
def State.filterFrame (s : State) (f : OutFrame) (m : FrameMarks) : State :=
  match s.fltFrame f with
  | (s, some o) => (s.filteredProduct f o).captureFiltered f o m
  | (s, none) => s

/-- A frame is handed on: to its product, the belt-frame engine, the feed, the captures, the filter chain, the relative
temperature, the tiles, and for a real frame the checks. -/
def State.deliver (s : State) (f : OutFrame) (m : FrameMarks) : State :=
  let n := f.turn.port
  let s := s.setPort n { s.port n with next := f.turn.index + 1, round := f.turn.round }
  let all := gapFlag f.quals != 0
  let s := if all then s.bump (PRT_GAP_FRAME_COUNT.reg n) else s
  let s := if f.kind = .filled then s.bump (PRT_FILL_COUNT.reg n) else s
  let s := s.rawProduct f
  let s := s.beltFrame f.turn f.turn.index (f.kind == .real) m.beltFull ((f.incs.map incInt32).zip f.quals)
  let s := ((s.feedFrame f).captureRaw f m).filterFrame f m
  let s := (s.lfFrame f m.differs).tileFrame f m.differs
  if f.kind = .real then s.realFrame f else s

end Sys2Proof.Machine
end

