-- ==== Sys2Proof/Machine/Frame.lean ====
section
/-!
DEFINITION. Frames of a port: real frames, filled frames and runs of missing frames (R111, R114–R120).
-/
namespace Sys2Proof.Machine

/-- End of a turn's listen window and 30 µs (R117, R124). -/
def Turn.dueAt (t : Turn) : Nat := t.frameLaunch + 4 * (t.planOf.lead + t.planOf.bins) + 30 * ticksPerUs

/-- Turns of port `n` whose frames are to come, in launch order. -/
def State.portFlight (s : State) (n : Nat) : List Turn := s.sched.flight.filter (fun t => t.port == n)

/-- The missing frames at the head of a port's stream. -/
def State.run (s : State) (n : Nat) : List Turn := (s.portFlight n).takeWhile Turn.missing

/-- The turns of port `n` up to a stream index are done with. -/
def State.dropFlight (s : State) (n index : Nat) : State :=
  s.putSched { s.sched with flight := s.sched.flight.filter (fun t => t.port != n || decide (index < t.index)) }

/-- FILL_MAX in force for a turn. DEDUCED, log entry 55. -/
def State.fillMax (s : State) (t : Turn) : Nat := (s.withTurn t).fld (PRT_PE_CFG.FILL_MAX t.port)

/-! GAP frames. -/

/-- Reference slots with GAP. DEDUCED, log entry 54. -/
def State.gapRefs (st : State) (n slots : Nat) : List (Nat × Int × Nat) := (st.refSlots n slots).map (fun x => (x, 0, qGap))

/-- A missing turn as its frame shows it: its nominal launch instant (R322). -/
def Turn.atNominal (t : Turn) : Turn := { t with launch := t.frameLaunch }

/-- A missing turn's frame written with GAP on every bin (R117). DEDUCED, log entry 54. -/
def State.gapFrame (s : State) (t : Turn) : OutFrame :=
  let st := s.withTurn t
  let p := t.planOf
  let near := nearSlots p.rayleighDur
  let edges := st.stepEdges t.port false
  let quals := (List.range p.bins).map (fun b => qGap + placeQual near p.lead edges b + ifFlag t.blanked qBlanked)
  { turn := t.atNominal
    kind := .gap
    plan := t.plan
    geom := p.geom
    incs := List.replicate p.bins 0
    quals := quals
    refs := st.gapRefs t.port (p.lead + p.bins)
    flags := t.flags + gapFlag quals }

/-- Write turns as GAP frames; answers the marks left. -/
def State.writeGaps (s : State) (ms : List FrameMarks) : List Turn → State × List FrameMarks
  | [] => (s, ms)
  | t :: ts =>
    let s := (s.dropFlight t.port t.index).deliver (s.gapFrame t) ((ms.head?).getD {})
    s.writeGaps (ms.drop 1) ts

/-- A run is being written as GAP. -/
def State.setGapRun (s : State) (n : Nat) (b : Bool) : State :=
  let p := s.port n
  s.setPort n { p with ph := { p.ph with gapRun := b } }

/-- Number of frames of the run at the head of a port that fall due: one more of a run already written as GAP, else the run
up to its (FILL_MAX + 1)th frame. -/
def State.gapCount (s : State) (n : Nat) : Option Nat :=
  let r := s.run n
  if r = [] then none
  else if (s.port n).ph.gapRun then some 1
  else ((List.range r.length).find? (fun k => match r[k]? with | some t => decide (s.fillMax t ≤ k) | none => false)).map (· + 1)

/-- Write the frames of the run that fall due. DEDUCED, log entry 55. -/
def State.gapStep (s : State) (n : Nat) (ms : List FrameMarks) : State × List FrameMarks :=
  match s.gapCount n with
  | none => (s, ms)
  | some k =>
    let (s, ms) := s.writeGaps ms ((s.run n).take k)
    (s.setGapRun n true, ms)

/-- Runs whose time has passed while an earlier frame was incomplete are written after it (R117). -/
def State.gapPassed (s : State) (n : Nat) : Nat → List FrameMarks → State
  | 0, _ => s
  | fuel + 1, ms =>
    match s.gapCount n with
    | none => s
    | some k =>
      match (s.run n)[k - 1]? with
      | some t =>
        if t.dueAt ≤ s.time then
          let (s, ms) := s.gapStep n ms
          s.gapPassed n fuel ms
        else s
      | none => s

/-- Runs unresolved at a STOP are written as GAP (R117). -/
def State.gapStop (s : State) : State :=
  (List.range s.ports).foldl (fun s n => (s.writeGaps [] (s.run n)).1) s

/-! Real and filled frames. -/

/-- The real frame is formed on the slots of its window: output bins, and reference slots within the lead (R111). -/
def State.frameSlots (st : State) (n : Nat) (g : Geom) : List Nat :=
  (st.refSlots n (g.lead + g.bins)).filter (fun x => decide (x < g.lead)) ++ (List.range g.bins).map (g.lead + ·)

/-- What stages 5–7 give for the bins of a real frame. -/
structure RealOut where
  geom : Geom
  outs : List SlotOut
  filled : Nat
  deriving DecidableEq, Repr

/-- The slot of a list of outputs. -/
def slotAt (outs : List SlotOut) (s : Nat) : SlotOut :=
  (outs.find? (fun o => o.slot == s)).getD { slot := s, st := none, inc := none, fade := false }

/-- The output bins' slots. -/
def RealOut.bins (r : RealOut) : List SlotOut := r.outs.filter (fun o => decide (r.geom.lead ≤ o.slot))

/-- The increment of each filled frame, and of the real frame, of a total over `m` filled frames (R118). DEDUCED, log entry
55. -/
def fillStep (m : Nat) (total : Int) : Int := Int.tdiv total (m + 1)
def fillLast (m : Nat) (total : Int) : Int := total - m * fillStep m total

/-- Quality of a bin of a real frame. -/
def realQual (t : Turn) (near lead : Nat) (edges clips : List Nat) (b : Nat) (o : SlotOut) : Nat :=
  placeQual near lead edges b + ifFlag (clips.contains b) qClip + ifFlag t.blanked qBlanked
    + (if o.inc.isNone then qGap else ifFlag o.fade qFade)

/-- Reference slots of a real or filled frame. -/
def State.refsOf (st : State) (n near : Nat) (r : RealOut) (q : Nat) (f : Int → Int) : List (Nat × Int × Nat) :=
  (st.refSlots n (r.geom.lead + r.geom.bins)).map (fun x =>
    let o := slotAt r.outs x
    match o.inc with
    | some d => (x, f d, ifFlag (decide (x < near)) qNear + q)
    | none => (x, 0, ifFlag (decide (x < near)) qNear + qGap))

/-- A filled frame on the geometry of the real frame that resolves it (R118): `f0`, `f1` are the CLIP and FADE flags of the
real frames around it. -/
def State.filledFrame (s : State) (t : Turn) (plan : Nat) (r : RealOut) (f0 f1 : List Nat) : OutFrame :=
  let st := s.withTurn t
  let near := nearSlots t.planOf.rayleighDur
  let edges := st.stepEdges t.port false
  let bins := r.bins
  let qual (b : Nat) (o : SlotOut) : Nat :=
    let place := placeQual near r.geom.lead edges b + ifFlag t.blanked qBlanked
    if o.inc.isNone then place + qGap else place + qFilled + orBits ((f0[b]?).getD 0) ((f1[b]?).getD 0)
  let quals := List.zipWith qual (List.range bins.length) bins
  { turn := t.atNominal
    kind := .filled
    plan := plan
    geom := r.geom
    incs := bins.map (fun o => match o.inc with | some d => fillStep r.filled d | none => 0)
    quals := quals
    refs := st.refsOf t.port near r qFilled (fillStep r.filled)
    flags := t.flags + 8 + gapFlag quals }

/-- Write filled frames; answers the marks left. -/
def State.writeFilled (s : State) (plan : Nat) (r : RealOut) (f0 f1 : List Nat) (ms : List FrameMarks) :
    List Turn → State × List FrameMarks
  | [] => (s, ms)
  | t :: ts =>
    let s := (s.dropFlight t.port t.index).deliver (s.filledFrame t plan r f0 f1) ((ms.head?).getD {})
    s.writeFilled plan r f0 f1 (ms.drop 1) ts

/-- Two geometries agree but for BIN_COUNT (R116). -/
def Geom.alike (a b : Geom) : Bool := a.tones == b.tones && a.chirp == b.chirp && a.gauge == b.gauge && a.lead == b.lead

/-- The slot states of a frame. -/
def slotMap (outs : List SlotOut) : SMap SlotSt :=
  outs.foldl (fun m o => match o.st with | some x => SMap.put (fun _ => {}) m o.slot x | none => m) []

/-- Power of each output bin over the paths, at its own slot (R130). -/
def binPowers (z : List (List (Int × Int))) (lead bins : Nat) : List Nat :=
  (List.range bins).map (fun b => (((z[lead + b]?).getD []).map (fun p => p.1.natAbs ^ 2 + p.2.natAbs ^ 2)).foldl (· + ·) 0)

/-- Clamped exponents of R115. -/
def State.fadeShift (st : State) (n : Nat) : Nat := clampNat 1 8 (st.fld (PRT_PE_CFG.FADE_SHIFT n))
def State.alignShift (st : State) (n : Nat) : Nat := clampNat 2 12 (st.fld (PRT_PE_CFG.ALIGN_SHIFT n))

/-- A real frame of turn `t` with the run before it (R114–R118): the run is filled where the frame forms an increment on some
output bin. -/
def State.processReal (s : State) (t : Turn) (run : List Turn) (rx : RxIn) (ms : List FrameMarks) : State × List FrameMarks :=
  let n := t.port
  let st := s.withTurn t
  let g := t.planOf.geom
  let ph := (s.port n).ph
  let same := match ph.geom with | some g0 => g0.alike g | none => false
  let form := same && !(ph.gapRun || decide (s.fillMax t < run.length))
  let slots := st.frameSlots n g
  let z := st.stageValues t rx s.freeCtr
  let s := s.putFreeCtr (s.freeCtr + t.stageDraws)
  let outs := slotSteps (st.fadeShift n) (st.alignShift n) same form (if same then ph.slots else []) z g.gauge (g.lead + g.bins)
    s.freeCtr slots
  let s := s.putFreeCtr (s.freeCtr + slots.length)
  let fills := outs.any (fun o => decide (g.lead ≤ o.slot) && o.inc.isSome)
  let r : RealOut := { geom := g, outs := outs, filled := if fills then run.length else 0 }
  let near := nearSlots t.dur
  let edges := st.stepEdges n false
  let bins := r.bins
  let quals := List.zipWith (realQual t near g.lead edges (t.rxClipBins rx)) (List.range bins.length) bins
  let keep := quals.map (fun q => andBits q (qClip + qFade))
  let (s, ms) := if fills then s.writeFilled t.plan r ph.quals keep ms run else s.writeGaps ms run
  let f : OutFrame := {
    turn := t
    kind := .real
    plan := t.plan
    geom := g
    incs := bins.map (fun o => match o.inc with | some d => fillLast r.filled d | none => 0)
    quals := quals
    refs := st.refsOf n near r 0 (fillLast r.filled)
    flags := t.flags + gapFlag quals
    power := binPowers z g.lead g.bins }
  let p := s.port n
  let s := s.setPort n { p with ph := { geom := some g, slots := slotMap outs, quals := keep, gapRun := false } }
  let s := s.addReg (PRT_FADE_COUNT.reg n) (quals.filter (fun q => hasFlag q qFade)).length
  ((s.dropFlight n t.index).deliver f ((ms.head?).getD {}), ms.drop 1)

/-- FRAME_COMPLETE (R124): the oldest frame of port `n` that is not missing is complete. `marks`: what happens as each frame
this writes is handed on, in order. DEDUCED, log entry 5. -/
def execFrameComplete (n : Fin 12) (rx : RxIn) (marks : List FrameMarks) (s : State) : Host.Outcome State Fault Refusal :=
  .next (
    let l := s.portFlight n.val
    match l.find? (fun t => !t.missing) with
    | none => s
    | some t =>
      let (s, fault) := s.rxMonitors t rx
      let s := s.rxShow t rx
      let t := { t with rxFault := t.rxFault || fault }
      let (s, ms) := s.processReal t (l.takeWhile Turn.missing) rx marks
      (s.rangeTests t rx).gapPassed n.val l.length ms)

/-- MISSING_RUN_TIMEOUT (R117): 30 µs after the nominal listen window of the frame that resolves a run as GAP, no earlier
frame of the port being incomplete. DEDUCED, log entry 55. -/
def execMissingRunTimeout (n : Fin 12) (marks : List FrameMarks) (s : State) : Host.Outcome State Fault Refusal :=
  .next (s.gapStep n.val marks).1

end Sys2Proof.Machine
end

