-- ==== Sys2Proof/Machine/Brl.lean ====
section
/-!
DEFINITION. Brillouin temperature: spectra, stacks and accumulators, averaging periods, the peak fit, references (R154–R174).
-/
namespace Sys2Proof.Machine

/-! References (R168, R169). -/

/-- The region's slot of port `n` lies in DRAM that serves requests. -/
def State.brlReach (s : State) (n : Nat) : Bool := s.dramServes && decide (s.brlSlot n + 0x01500000 ≤ s.part.dramBytes)

/-- Mark every entry of a reference table invalid. -/
def refInvalidate (m : Memory) (base : Nat) : Memory :=
  (m.map (fun c => if base ≤ c.1 ∧ c.1 < base + 0x20000 ∧ (c.1 - base) % 4 = 3 then (c.1, c.2 &&& 0x7F) else c)).filter
    (fun c => c.2 != 0)

/-- The first write to a table after REF_LOADED is cleared marks its entries invalid (R168). -/
def State.refOpen (s : State) (n : Nat) : State :=
  if s.flag (BRL_PORT_STATUS.REF_LOADED n) then s
  else (s.putDram (refInvalidate s.dram (s.refAddr false n 0))).setFlag (BRL_PORT_STATUS.REF_LOADED n) true

/-- A word is a reference entry in range: others are ignored. -/
def refInRange (w : Word) : Bool :=
  let k := BRL_REF_DATA.NUB0_KHZ.get w
  decide (10000000 ≤ k) && decide (k ≤ 11600000)

/-- Write reference entries of port `n` from cell `c`; cells beyond the table are not written. -/
def State.refWrite (s : State) (n : Nat) : Nat → List Word → State
  | _, [] => s
  | c, w :: ws =>
    let s := if refInRange w && decide (c < 32768) then
        (s.refOpen n).setDram (s.refAddr false n c) (leBytes 4 (w &&& 0x80FFFFFF).toNat)
      else s
    State.refWrite s n (c + 1) ws

/-- The effective reference of cell `c` (R168, R174): its own entry, else under takeover the partner's. -/
def State.refOf (s : State) (n c : Nat) : Word :=
  let own := s.refEntry false n c
  if s.flag (BRL_PORT_STATUS.REF_LOADED n) && own.getLsbD 31 then own
  else
    let l := s.fld (BRL_PORT_LOOP.LOOP_CELLS n)
    if s.flag (BRL_PORT_STATUS.LOOP_ACTIVE n) && decide (c < l) then
      let e := s.refEntry true n (l - 1 - c)
      if e.getLsbD 31 then e else 0
    else 0

/-- An access of BRL_REF_DATA (R168): one entry is read, or written in BOOT or SETUP, and CELL advances. An entry that DRAM
does not serve reads a free value. UNVERIFIED, log entry 66. -/
def State.refData (s : State) (write : Option Word) : State :=
  if s.supply.inReset then s
  else
    let n := s.fld BRL_REF_ADDR.PORT
    let c := s.fld BRL_REF_ADDR.CELL
    let here := decide (n < s.ports) && s.brlReach n
    let s := match write with
      | none =>
        if here then s.putRdData (s.refEntry false n c)
        else if s.ports ≤ n then s.putRdData 0
        else s.drawFree.putRdData (Word.of s.freeVal)
      | some w =>
        if s.isSetup then (if here then s.refWrite n c [w] else s)
        else if (s.readReg BRL_REF_DATA.reg ^^^ w) &&& 0x80FFFFFF = 0 then s
        else (s.bump HIF_RWL_IGNORED_COUNT.reg).setNat HIF_RWL_ADDR.reg BRL_REF_DATA.reg
    s.setFld BRL_REF_ADDR.CELL (c + 1)

/-- BRL_REF_DATA_ACCESS (R168). DEDUCED, log entry 9; UNVERIFIED, log entry 66. -/
def execBrlRefDataAccess (write : Option Word) (s : State) : Host.Outcome State Fault Refusal := .next (s.refData write)

/-! Stacks and accumulators (R158, R160). -/

/-- Addresses of a cell's stack and accumulators. -/
def State.stackAddr (s : State) (n c : Nat) : Nat := s.brlSlot n + 128 * c
def State.accAddr (s : State) (n : Nat) (b : Bool) (c : Nat) : Nat := s.brlSlot n + (if b then 0x00C00000 else 0x00400000) + 256 * c

/-- Points of `w` bytes. -/
def pointsOf (w : Nat) : Nat → List Byte → List Nat
  | 0, _ => []
  | n + 1, bs => leVal (bs.take w) :: pointsOf w n (bs.drop w)

/-- Bytes of points. -/
def pointBytes (w : Nat) (ps : List Nat) : List Byte := ps.flatMap (leBytes w)

/-- A cell's stack, and accumulator. -/
def State.stackOf (s : State) (n c : Nat) : List Nat := pointsOf 2 64 (s.dramBytes (s.stackAddr n c) 128)
def State.accOf (s : State) (n : Nat) (b : Bool) (c : Nat) : List Nat := pointsOf 4 64 (s.dramBytes (s.accAddr n b c) 256)

/-- Add flags to a cell's mark. -/
def markCell (m : SMap Nat) (c q : Nat) : SMap Nat := SMap.put (fun _ => 0) m c (orBits (SMap.get (fun _ => 0) m c) q)

/-- Change the period an accumulator belongs to: the open one, or a closed one. -/
def BrlPort.inAcc (x : BrlPort) (b : Bool) (f : BrlPeriod → BrlPeriod) : BrlPort :=
  match x.cur with
  | some p =>
    if p.accB = b then { x with cur := some (f p) }
    else { x with closing := x.closing.map (fun c => if c.per.accB = b then { c with per := f c.per } else c) }
  | none => { x with closing := x.closing.map (fun c => if c.per.accB = b then { c with per := f c.per } else c) }

/-- Fold a cell's stack into its accumulator: a saturated point marks the cell CLIP. -/
def State.foldCell (s : State) (n c : Nat) : State :=
  let x := s.brlPort n
  let sums := addEnergies (s.accOf n x.stackB c) (s.stackOf n c)
  let s := s.setDram (s.accAddr n x.stackB c) (pointBytes 4 (sums.map (satNat 32)))
  let s := s.setDram (s.stackAddr n c) (zeroBytes 128)
  if sums.any (fun v => decide (2 ^ 32 ≤ v)) then
    s.setBrlPort n (x.inAcc x.stackB (fun p => { p with marks := markCell p.marks c qClip }))
  else s

/-- Fold every stack of a port. -/
def State.brlFold (s : State) (n : Nat) : State :=
  let s := (List.range (s.brlPort n).stackCells).foldl (fun s c => s.foldCell n c) s
  s.setBrlPort n { s.brlPort n with folds := 0, stackCells := 0 }

/-! Turns (R155–R159, R172). -/

/-- A spectral point of a power in 2⁻⁵¹² unit² (R157). DEDUCED, log entry 60. -/
def spectralPoint (shift code power : Nat) : Nat := min 4095 (roundDivNat power (2 ^ (512 + shift + 2 * (7 - code))))

/-- The near zone reaches the window of cell `c` (R156). DEDUCED, log entry 60. -/
def cellNear (dur lead c : Nat) : Bool :=
  let nw := ceilDiv (dur + u20ns) uTick
  decide (4 * (lead + 2 * c + 1) < 4 * nearSlots dur + nw / 2)

/-- A turn's geometry as its period compares it. -/
def Turn.brlGeom (t : Turn) : Nat × Nat × Nat := (t.planOf.lead, t.planOf.bins, t.planOf.width)

/-- The geometry a turn of a period is held to: that of the first turn accumulated in it, where a takeover extends the port
within the period counted apart before and from the takeover round (R155, R174). -/
def BrlPeriod.geomFor (p : BrlPeriod) (t : Turn) : Option (Nat × Nat × Nat) := if t.round < p.extRound then p.home else p.geom

/-- A turn joins the period. -/
def BrlPeriod.take (p : BrlPeriod) (t : Turn) : BrlPeriod :=
  let p := { p with turns := p.turns + 1, peak := if p.turns = 0 then t.peak else p.peak }
  if t.round < p.extRound then { p with home := some t.brlGeom } else { p with geom := some t.brlGeom }

/-- The geometry of a period's product (R174). -/
def BrlPeriod.shape (p : BrlPeriod) : Option (Nat × Nat × Nat) := p.geom.or p.home

/-- Add a turn's points to a cell's stack. -/
def State.addCellPoints (s : State) (n c : Nat) (vs : List Nat) : State :=
  s.setDram (s.stackAddr n c) (pointBytes 2 ((addEnergies (s.stackOf n c) vs).map (· % 65536)))

/-- The marks and code of a cell in a turn. -/
def BrlPeriod.cell (p : BrlPeriod) (c code q : Nat) : BrlPeriod :=
  let old := SMap.get (fun _ => 0) p.codes c
  let q := q + (if old != 0 && old != code + 1 then qBlanked else 0)
  { p with marks := markCell p.marks c q, codes := if old = 0 then SMap.put (fun _ => 0) p.codes c (code + 1) else p.codes }

/-- The 64 points of every cell of a turn, with the cells' codes; `draw`: the first draw of stage 2. DEDUCED, log entry 60. -/
def State.turnPoints (s : State) (t : Turn) (rx : RxIn) (draw : Nat) : List (Nat × List Nat) :=
  let st := s.withTurn t
  let shift := st.fld BRL_CFG.SPEC_SHIFT
  (List.range (ceilDiv t.planOf.bins 2)).map (fun c =>
    let code := gainCode st t.port true (st.zoneOf t.port (2 * c + 1))
    (code, (st.cellPowers t rx draw c).map (spectralPoint shift code)))

/-- The points of a turn join the stack, and its marks the period. -/
def State.addPoints (s : State) (t : Turn) (rx : RxIn) (accB : Bool) (pts : List (Nat × List Nat)) : State :=
  let n := t.port
  ((List.range pts.length).zip pts).foldl (fun s x =>
    let sat := (x.2.2.filter (fun v => v == 4095)).length
    let q := ifFlag (t.rxCellClip rx x.1 || sat != 0) qClip + ifFlag (cellNear t.dur t.planOf.lead x.1) 2
    let s := (s.addCellPoints n x.1 x.2.2).addReg BRL_POINT_SAT_COUNT.reg sat
    s.setBrlPort n (BrlPort.inAcc (s.brlPort n) accB (fun p => p.cell x.1 x.2.1 q))) s

/-- The route check of an accumulated turn (R172). DEDUCED, log entry 65. -/
def State.brlRoute (s : State) (t : Turn) (pts : List (Nat × List Nat)) : State :=
  let n := t.port
  match (s.brlPort n).sums.find? (fun x => x.1 == t.peak) with
  | none => s
  | some (_, turns, sums) =>
    if s.aprPort n then s
    else
      let cs := ((List.range pts.length).filter (fun c => !cellNear t.dur t.planOf.lead c && decide (c < sums.length))).take 32
      let a := cs.foldl (fun m c => m + ((pts[c]?).getD (0, [])).2.foldl (· + ·) 0) 0
      let r := cs.foldl (fun m c => m + (sums[c]?).getD 0) 0
      if below3dB a 1 r turns then s.routeFail n (BRL_PORT_ROUTE_FAIL_COUNT.reg n) else s

/-- A turn is accumulated whole in period `p`. DEDUCED, log entry 61. -/
def State.accumulate (s : State) (t : Turn) (rx : RxIn) (p : BrlPeriod) : State :=
  let n := t.port
  let s := if (s.brlPort n).stackB = p.accB then s else s.brlFold n
  let pts := s.turnPoints t rx s.freeCtr
  let s := s.putFreeCtr (s.freeCtr + t.rxDraws)
  let x := s.brlPort n
  let x := { x with stackB := p.accB, stackCells := max x.stackCells pts.length, folds := x.folds + 1 }
  let s := s.setBrlPort n (x.inAcc p.accB (fun p => p.take t))
  let s := s.addPoints t rx p.accB pts
  let s := if 16 ≤ (s.brlPort n).folds then s.brlFold n else s
  let s := match (s.brlPort n).cur with
    | some c => if c.accB = p.accB then s.setFld (BRL_PORT_STATUS.CELLS n) pts.length else s
    | none => s
  s.brlRoute t pts

/-- The period open at the start of a round. -/
def BrlPort.periodOf (x : BrlPort) (round : Nat) : Option BrlPeriod :=
  match x.cur with
  | some p => if p.openRound ≤ round then some p else (x.closing.find? (fun c => c.holds round)).map (·.per)
  | none => (x.closing.find? (fun c => c.holds round)).map (·.per)

/-- A Brillouin turn is offered to the engine (R155). DEDUCED, log entry 61. -/
def State.brlTurn (s : State) (t : Turn) (rx : RxIn) (full : Bool) : State :=
  let n := t.port
  if s.flag BRL_STATUS.FAILED then s.brlDrop n t.round BRL_DROP_FAILED_COUNT.reg
  else if !s.flag BRL_CFG.EN then s
  else
    match (s.brlPort n).periodOf t.round with
    | none => s
    | some p =>
      if t.unsettled then s.brlDrop n t.round BRL_DROP_LOSHIFT_COUNT.reg
      else if t.apr then s.brlDrop n t.round BRL_DROP_APR_COUNT.reg
      else if (p.geomFor t).isSome && p.geomFor t != some t.brlGeom then s.brlDrop n t.round BRL_DROP_GEOM_COUNT.reg
      else if full then (s.brlDrop n t.round BRL_DROP_OVERRUN_COUNT.reg).bump (DMC_CLIENT_OVERRUN_COUNT.reg 0)
      else s.accumulate t rx p

/-- A monitor fault in the listen window of a Rayleigh turn launched as a Brillouin turn marks its frame (R110). -/
def State.markSub (s : State) (t : Turn) (fault : Bool) : State :=
  s.putSched { s.sched with flight := s.sched.flight.map (fun x =>
    if x.port == t.port && x.sub && x.index == t.index && x.launch == t.launch then { x with rxFault := x.rxFault || fault } else x) }

/-- BRL_TURN_COMPLETE (R155–R158): the oldest Brillouin turn of port `n` in flight, 30 µs after its listen window. -/
def execBrlTurnComplete (n : Fin 12) (rx : RxIn) (full : Bool) (s : State) : Host.Outcome State Fault Refusal :=
  .next (
    match s.sched.brl.find? (fun t => t.port == n.val) with
    | none => s
    | some t =>
      let s := s.putSched { s.sched with brl := s.sched.brl.erase t }
      let (s, fault) := s.rxMonitors t rx
      let s := (s.rxShow t rx).markSub t fault
      (s.brlTurn t rx full).rangeTests t rx)

/-! Averaging periods (R162, R163). -/

/-- PERIOD_S in ticks. -/
def State.brlPeriodTicks (s : State) : Nat := clampNat 1 600 (s.fld BRL_CFG.PERIOD_S) * ticksPerS

/-- LEARN_PENDING and FIT_BUSY. DEDUCED, log entry 64. -/
def State.brlShow (s : State) : State :=
  (s.setFlag BRL_STATUS.LEARN_PENDING (s.brl.any (fun e => e.2.learn.isSome))).setFlag BRL_STATUS.FIT_BUSY
    (s.brl.any (fun e => e.2.closing != []))

/-- A new period opens at the present round start. DEDUCED, log entry 64. -/
def State.openPeriod (s : State) (n : Nat) : State :=
  let x := s.brlPort n
  (s.setBrlPort n { x with
    cur := some { openRound := s.ctl.round, openTime := s.time, accB := x.nextB }, nextB := !x.nextB }).setFld
    (BRL_PORT_STATUS.CELLS n) 0

/-- The open period closes at the present round start, and the next opens (R162, R167); turns still in flight join it, so the
references of their cells are taken too. DEDUCED, log entry 63. -/
def State.closePeriod (s : State) (n : Nat) (p : BrlPeriod) : State :=
  let x := s.brlPort n
  let bins := ((s.sched.brl.filter (fun t => t.port == n)).map (fun t => t.planOf.bins)).foldl max 0
  let bins := match p.shape with | some (_, b, _) => max b bins | none => bins
  let c : BrlClose := {
    per := p
    closeRound := s.ctl.round
    closeTime := s.time
    learn := x.learn
    loop := s.flag (BRL_PORT_STATUS.LOOP_ACTIVE n)
    regs := s.regs
    refs := (List.range (ceilDiv bins 2)).map (s.refOf n) }
  (s.setBrlPort n { x with closing := x.closing ++ [c], learn := none }).openPeriod n

/-- Periods at a round start. -/
def State.brlRound (s : State) : State :=
  if !s.flag BRL_CFG.EN || s.flag BRL_STATUS.FAILED then s
  else
    ((List.range s.ports).foldl (fun s n =>
      match (s.brlPort n).cur with
      | none => s.openPeriod n
      | some p => if p.openTime + s.brlPeriodTicks ≤ s.time then s.closePeriod n p else s) s).brlShow

/-- A port's period is zeroed and its timer restarts (R163). -/
def State.brlRestart (s : State) (n : Nat) : State :=
  let s := s.bump (BRL_PORT_RESTART_COUNT.reg n)
  let x := s.brlPort n
  match x.cur with
  | none => s
  | some p =>
    let s := s.zeroDram (s.accAddr n p.accB 0) 0x00800000
    let (s, x) := if x.stackB = p.accB then (s.zeroDram (s.brlSlot n) 0x00400000, { x with folds := 0, stackCells := 0 }) else (s, x)
    (s.setBrlPort n { x with
      cur := some { openRound := s.ctl.round, openTime := s.time, accB := p.accB } }).setFld (BRL_PORT_STATUS.CELLS n) 0

/-- Every port's period is zeroed: FREQ_MHZ changes (R47, R163). -/
def State.brlRestartAll (s : State) : State :=
  if !s.flag BRL_CFG.EN || s.flag BRL_STATUS.FAILED then s else (List.range s.ports).foldl (fun s n => s.brlRestart n) s

/-- A takeover extends a port (R163, R174): its period keeps what it holds, and its timer restarts. DEDUCED, log entry 64. -/
def State.brlExtend (s : State) (n : Nat) : State :=
  let s := s.setFlag (BRL_PORT_STATUS.LOOP_ACTIVE n) true
  let x := s.brlPort n
  match x.cur with
  | none => s
  | some p =>
    (s.bump (BRL_PORT_RESTART_COUNT.reg n)).setBrlPort n { x with cur := some { p with
      openTime := s.time, home := p.shape, geom := none, extRound := s.ctl.round } }

/-- A failback returns a port to its half (R163). -/
def State.brlReturn (s : State) (n : Nat) : State :=
  let s := s.setFlag (BRL_PORT_STATUS.LOOP_ACTIVE n) false
  if !s.flag BRL_CFG.EN || s.flag BRL_STATUS.FAILED then s else s.brlRestart n

/-- START: everything is zeroed (R163). DEDUCED, log entry 64. -/
def State.brlStart (s : State) : State :=
  let s := s.putBrl []
  if !s.flag BRL_CFG.EN || s.flag BRL_STATUS.FAILED then s.brlShow
  else
    ((List.range s.ports).foldl (fun s n =>
      ((s.zeroDram (s.brlSlot n) 0x01400000).setFld (BRL_PORT_STATUS.CELLS n) 0).bump (BRL_PORT_RESTART_COUNT.reg n)) s).brlShow

/-- STOP: open periods are discarded, and fits in progress with them (R163). DEDUCED, log entry 43. -/
def State.brlStop (s : State) : State := (s.putBrl []).brlShow

/-- REF_LEARN at its round start (R169). -/
def State.refLearn (s : State) (n first count : Nat) : State :=
  let s := s.brlRestart n
  (s.setBrlPort n { s.brlPort n with learn := some (first, count) }).brlShow

/-! The fit (R165, R166). -/

/-- The iterates of the fit are kept to 2⁻⁶⁴. DESIGN CHOICE, log entry 62. -/
def fixRat (q : Rat) : Rat := ((roundRat (q * (2 ^ 64 : Nat)) : Int) : Rat) / ((2 ^ 64 : Nat) : Rat)

/-- f_k in MHz. -/
def bandFreq (k : Nat) : Rat := ((25 * (k : Int) - 800 : Int) : Rat) / 4

/-- Insert into an ascending list. -/
def insNat (x : Nat) : List Nat → List Nat
  | [] => [x]
  | y :: ys => if x ≤ y then x :: y :: ys else y :: insNat x ys

/-- Line centre, width and height of a Lorentzian, in MHz and points. -/
structure Line where
  f : Rat
  g : Rat
  a : Rat
  deriving DecidableEq, Repr

/-- Determinant by rows. -/
def det3 (a b c d e f g h i : Rat) : Rat := a * (e * i - f * h) - b * (d * i - f * g) + c * (d * h - e * g)

/-- The sums of the normal equations of one point, and of all: JᵀJ (6) and Jᵀr (3). -/
def normalRow (l : Line) (fk y : Rat) : List Rat :=
  let x := 2 * (fk - l.f) / l.g
  let q := 1 / (1 + x * x)
  let jf := 4 * l.a * x * q * q / l.g
  let jg := 2 * l.a * x * x * q * q / l.g
  let r := y - l.a * q
  [jf * jf, jf * jg, jf * q, jg * jg, jg * q, q * q, jf * r, jg * r, q * r]

/-- One Gauss-Newton step on f_c, gamma and A; none where the step is not defined. DESIGN CHOICE, log entry 62. -/
def gaussNewton (ys : List (Rat × Rat)) (l : Line) : Option Line :=
  if l.g = 0 then none
  else
    let rows := (ys.filter (fun p => decide (l.a / 8 ≤ p.2))).map (fun p => (normalRow l p.1 p.2).map fixRat)
    let m := rows.foldl (fun s r => List.zipWith (· + ·) s r) (List.replicate 9 0)
    let v (i : Nat) : Rat := (m[i]?).getD 0
    let d := det3 (v 0) (v 1) (v 2) (v 1) (v 3) (v 4) (v 2) (v 4) (v 5)
    if d = 0 then none
    else
      let df := det3 (v 6) (v 1) (v 2) (v 7) (v 3) (v 4) (v 8) (v 4) (v 5) / d
      let dg := det3 (v 0) (v 6) (v 2) (v 1) (v 7) (v 4) (v 2) (v 8) (v 5) / d
      let da := det3 (v 0) (v 1) (v 6) (v 1) (v 3) (v 7) (v 2) (v 4) (v 8) / d
      some { f := fixRat (l.f + df), g := fixRat (l.g + dg), a := fixRat (l.a + da) }

/-- Repeat the step. DESIGN CHOICE, log entry 62. -/
def fitSteps (ys : List (Rat × Rat)) : Nat → Line → Option Line
  | 0, l => some l
  | n + 1, l => (gaussNewton ys l).bind (fitSteps ys n)

/-- Vertex of the parabola through 1/(y − F) at km − 1, km, km + 1; none where it is not defined. DESIGN CHOICE, log entry 62.
-/
def vertex (km : Nat) (a b c : Rat) : Option Rat :=
  if a = 0 ∨ b = 0 ∨ c = 0 then none
  else
    let d := 1 / a - 2 / b + 1 / c
    if d = 0 then none else some (bandFreq km + (25 / 4 : Rat) * (1 / a - 1 / c) / (2 * d))

/-- A cell's fit: ratio code, NO_PEAK, EDGE at a band end, and the line; none where the fit does not define it. -/
structure CellFit where
  ratio : Nat
  noPeak : Bool
  edge : Bool
  line : Option Line
  deriving DecidableEq, Repr

/-- 40 log₁₀ of the peak-to-floor ratio, rounded and saturated: units of 0.25 dB (R170). No ratio of 0 to 0 is defined.
UNVERIFIED, log entry 57. -/
def ratioCode (draw y sum8 : Nat) : Nat :=
  if sum8 = 0 then (if y = 0 then Config.free draw % 256 else 255)
  else satNat 8 (logSearch 40 (8 * y) sum8 9 0).toNat

/-- The fit of a cell's accumulated spectrum (R165). DESIGN CHOICE, log entry 62. -/
def fitCell (draw snrMin : Nat) (ys : List Nat) : CellFit :=
  let sum8 := ((ys.foldl (fun l y => insNat y l) []).take 8).foldl (· + ·) 0
  let km := argMax ys
  let y := (ys[km]?).getD 0
  let ratio := ratioCode draw y sum8
  if (8 * y) ^ 100 < sum8 ^ 100 * 10 ^ snrMin then { ratio := ratio, noPeak := true, edge := false, line := none }
  else
    let f : Rat := (sum8 : Rat) / 8
    let d (k : Nat) : Rat := ((((ys[k]?).getD 0 : Nat) : Rat)) - f
    let a := d km
    let pts := (List.range 64).map (fun k => (bandFreq k, d k))
    let g : Rat := (25 / 4 : Rat) * ((pts.filter (fun p => decide (a / 2 ≤ p.2))).length : Rat)
    if km = 0 ∨ km = 63 then { ratio := ratio, noPeak := false, edge := true, line := none }
    else
      { ratio := ratio, noPeak := false, edge := false
        line := (vertex km (d (km - 1)) a (d (km + 1))).bind (fun fc => fitSteps pts 6 { f := fixRat fc, g := g, a := a }) }

/-- A cell of a product: f_c in 10 kHz, width, ratio, quality, νB in kHz, and its temperature field. -/
structure CellOut where
  temp : Option Int
  centre : Option Int
  width : Nat
  ratio : Nat
  qual : Nat
  nub : Rat
  deriving DecidableEq, Repr

/-- The section of a cell: reference temperature and coefficient (R167). -/
def State.sectionOf (st : State) (n c : Nat) : Int × Nat :=
  let start (k : Nat) : Nat := if k = 0 then 0 else st.fld (BRL_PORT_SECT_START.START_CELL n k)
  let used := (List.range 16).takeWhile (fun k => k == 0 || (decide (start (k - 1) < start k) && start k != 0xFFFF))
  let k := used.foldl (fun m k => if start k ≤ c then k else m) 0
  (st.fldInt (BRL_PORT_SECT_COEF.T_REF n k), st.fld (BRL_PORT_SECT_COEF.COEF n k))

/-- Line and quality of a cell but for its reference (R165, R166); where the fit defines no line, centre and width are free.
UNVERIFIED, log entry 57. -/
def cellLine (st : State) (draw turns : Nat) (mark : Nat) (ys : List Nat) : CellOut :=
  let fit := fitCell draw (st.fld BRL_FIT_CFG.SNR_MIN) ys
  let free : Line := { f := (ofBits 16 (Config.free (draw + 1)) : Rat) / 100, g := ((Config.free (draw + 2) % 65536 : Nat) : Rat) / 16, a := 0 }
  let l := fit.line.getD free
  let edge := !fit.noPeak && (fit.edge || decide ((175 : Rat) < l.f) || decide (l.f < -175))
  let wide := !fit.noPeak && (decide (l.g < (st.fld BRL_FIT_CFG.WIDTH_MIN : Rat)) || decide ((st.fld BRL_FIT_CFG.WIDTH_MAX : Rat) < l.g))
  let q := mark + ifFlag (decide (turns < st.fld BRL_MIN_TURNS.MIN_TURNS)) 4 + ifFlag fit.noPeak 8 + ifFlag edge 16 + ifFlag wide 32
  { temp := none
    centre := if hasFlag q 0x3C then none else some (roundRat (l.f * 100))
    width := if fit.noPeak then 0 else satNat 8 (roundRat l.g).toNat
    ratio := fit.ratio
    qual := q
    nub := ((st.fld SRC_LOSHIFT.FREQ_MHZ : Rat) - l.f) * 1000 }

/-- A cell with its reference and section (R167): a temperature that does not fit its field is free. UNVERIFIED, log entry 57.
-/
def CellOut.withRef (x : CellOut) (st : State) (draw n c : Nat) (ref : Word) : CellOut :=
  let x := if ref.getLsbD 31 then x else { x with qual := x.qual + 64 }
  if hasFlag x.qual 0x7C then x
  else
    let (tref, coef) := st.sectionOf n c
    let t := roundRat ((tref : Rat) + 100 * (x.nub - (BRL_REF_DATA.NUB0_KHZ.get ref : Rat)) / (coef : Rat))
    { x with temp := some (if satInt 16 t = t then t else ofBits 16 (Config.free (draw + 3))) }

/-- The 8 bytes of a cell (R327). -/
def CellOut.bytes (x : CellOut) : List Byte :=
  leBytes 2 (toBits 16 (x.temp.getD (-32768))) ++ leBytes 2 (toBits 16 (x.centre.getD (-32768))) ++ leBytes 1 x.width
    ++ leBytes 1 x.ratio ++ leBytes 1 x.qual ++ zeroBytes 1

/-- A learn closes (R169): cells of the range whose quality bits 0–5 are 0 take their νB. Answers the references after it.
DEDUCED, log entry 67. -/
def State.learnClose (s : State) (n first count : Nat) (cells : List CellOut) (refs : List Word) : State × List Word :=
  let good (c : Nat) : Bool := decide (first ≤ c) && decide (c < first + count) &&
    (match cells[c]? with | some x => !hasFlag x.qual 0x3F | none => false)
  let word (x : CellOut) : Word := Word.of (2 ^ 31 + (roundRat x.nub).toNat % 2 ^ 24)
  let ids := (List.range cells.length).zip (cells.zip refs)
  let s := ids.foldl (fun s x => if good x.1 then s.refWrite n x.1 [word x.2.1] else s) s
  let k := (ids.filter (fun x => good x.1)).length
  let s := (s.setFld BRL_LEARN_RESULT.LEARNED (satNat 16 k)).setFld BRL_LEARN_RESULT.REJECTED (satNat 16 (count - k))
  (s.mirrorRefs n first count, ids.map (fun x => if good x.1 then word x.2.1 else x.2.2))

/-- The fit of a closed period is complete (R164): its product, learned references, counters, the event and the units.
DEDUCED, log entry 63. -/
def State.finishPeriod (s : State) (n : Nat) (c : BrlClose) (differs : BitVec 16) : State :=
  let st := { s with regs := c.regs }
  let p := c.per
  let (lead, bins, width) := p.shape.getD (0, 0, 0)
  let k := ceilDiv bins 2
  let draw := s.freeCtr
  let s := s.putFreeCtr (draw + 4 * k)
  let ys := (List.range k).map (s.accOf n p.accB)
  let cells := List.zipWith (fun i y => cellLine st (draw + 4 * i) p.turns (SMap.get (fun _ => 0) p.marks i) y) (List.range k) ys
  let (s, refs) := match c.learn with
    | some (first, count) => s.learnClose n first count cells (c.refs.take k)
    | none => (s, c.refs.take k)
  let outs := List.zipWith (fun i (x : CellOut × Word) => x.1.withRef st (draw + 4 * i) n i x.2) (List.range k) (cells.zip refs)
  let s := s.zeroDram (s.accAddr n p.accB 0) 0x00800000
  let x := s.brlPort n
  let s := s.setBrlPort n { x with
    sums := if p.turns = 0 then x.sums
      else (p.peak, p.turns, ys.map (fun y => y.foldl (· + ·) 0)) :: x.sums.filter (fun e => e.1 != p.peak) }
  let s := s.segments 15 0x05 8192 k
    (fun first cnt seg segs =>
      leBytes 8 (p.openRound % 2 ^ 48) ++ leBytes 8 (c.closeRound % 2 ^ 48) ++ leBytes 4 p.turns ++ leBytes 4 p.dropped
        ++ leBytes 2 (st.fld SRC_LOSHIFT.FREQ_MHZ) ++ leBytes 2 width ++ leBytes 2 lead ++ leBytes 2 bins ++ leBytes 2 first
        ++ leBytes 2 cnt ++ leBytes 1 n ++ leBytes 1 (seg + 16 * segs) ++ leBytes 2 (bitAt c.loop 0 + bitAt c.learn.isSome 1)
        ++ zeroBytes 8)
    (fun first cnt => (slice outs first cnt).flatMap CellOut.bytes)
  let s := s.setNat (BRL_PORT_LAST_TURNS.reg n) p.turns
  let s := if k = 0 then s else s.bump (BRL_PORT_PERIOD_COUNT.reg n)
  let s := (s.setFld BRL_STATUS.LAST_PORT n).raiseEvent 32 (n + satNat 16 k * 2 ^ 16)
  let val (u : Nat) : Option SrcValue :=
    (s.rangeValue u (fun i => match outs[i]? with | some o => if hasFlag o.qual qClip then none else o.temp | none => none)).map
      (fun v => { value := v.1, index := v.2, time := c.closeTime, span := c.closeTime })
  s.brlShow.evalSource 2 n val differs

/-- The fit of port `n` is the next to complete: periods are fitted in the order they closed, those that closed together in
port order, and turns of the period have all been added (R164). DEDUCED, log entry 63. -/
def State.fitNext (s : State) (n : Nat) : Bool :=
  match (s.brlPort n).closing with
  | [] => false
  | c :: _ =>
    s.brl.all (fun e => e.2.closing.all (fun d => decide (c.closeTime < d.closeTime) || (d.closeTime == c.closeTime && decide (n ≤ e.1))))
      && s.sched.brl.all (fun t => t.port != n || !c.holds t.round)

/-- BRL_FIT_COMPLETE (R164): every stack of the oldest closed period of port `n` is folded and its fit is complete. DEDUCED,
log entry 63. -/
def execBrlFitComplete (n : Fin 12) (differs : BitVec 16) (s : State) : Host.Outcome State Fault Refusal :=
  .next (
    match (s.brlPort n.val).closing with
    | [] => s
    | c :: _ =>
      if !s.fitNext n.val then s
      else
      let s := if (s.brlPort n.val).stackB = c.per.accB then s.brlFold n.val else s
      match (s.brlPort n.val).closing with
      | [] => s
      | c :: cs => (s.setBrlPort n.val { s.brlPort n.val with closing := cs }).finishPeriod n.val c differs)

/-! The planned rate (R159). -/

/-- Rounds of `m`, of which an entry of a port with `e` Rayleigh entries, at place `i` among them, is a Brillouin turn.
DEDUCED, log entry 67. -/
def brlRounds (every share e i m : Nat) : Nat :=
  ((List.range m).filter (fun r =>
    (decide (2 ≤ every) && r % every == every - 1) || (decide (1 ≤ share) && (r * e + i) % share == share - 1))).length

/-- Cell-updates per round of the running table. DEDUCED, log entry 67. -/
def State.cellUpdates (s : State) : Rat :=
  let c : Cfg := s.sch
  let every := c.fld LCH_TABLE_CFG.BRL_ROUND_EVERY
  c.entries.foldl (fun q e =>
    let p := c.plan e.plan
    let cells : Rat := (ceilDiv p.bins 2 : Nat)
    if e.kind = 1 then q + cells
    else if e.kind = 0 then
      let l := (c.portEntries e.port).filter (fun x => x.kind == 0)
      let m := max 1 every * max 1 p.share
      q + cells * (brlRounds every p.share l.length (l.filter (fun x => decide (x.index < e.index))).length m : Rat) / (m : Rat)
    else q) 0

/-- BRL_CELL_RATE at a commit: thousands of cell-updates per second at PERIOD. DEDUCED, log entry 67. -/
def State.showCellRate (s : State) : State :=
  s.setNat BRL_CELL_RATE.reg (roundRat (s.cellUpdates * 400000 / ((max 1 s.sch.period : Nat) : Rat))).toNat

end Sys2Proof.Machine
end

