-- ==== Sys2Proof/Machine/Regions.lean ====
section
/-!
DEFINITION. DRAM regions, shared balls, and the commit check made on the device (R80, R161, R212, R277, R354).
-/
namespace Sys2Proof.Machine

/-- A DRAM region: its entry, base and size in MiB. -/
structure Region where
  entry : Nat
  base : Nat
  size : Nat
  deriving DecidableEq, Repr

/-- A capture region is enabled: an enabled unit with CAP_EN names it (R212). -/
def State.cregUnits (s : State) (r : Nat) : List Nat :=
  (List.range 16).filter (fun u => s.flag (TRGU_CFG.EN u) && s.flag (TRGU_CFG.CAP_EN u) && s.fld (TRGU_CFG.CAP_REGION u) == r)

/-- The enabled regions (R277). -/
def State.regions (s : State) : List Region :=
  (if s.flag BRL_CFG.EN then [⟨0, s.fld BRL_REGION.BASE_MIB, match s.part with | .wv4812 => 256 | .wv2406 => 128⟩] else [])
    ++ (if s.flag BLT_CFG.EN then [⟨1, s.fld BLT_REGION.BASE_MIB, 32⟩] else [])
    ++ (List.range 4).filterMap (fun r =>
        if s.cregUnits r = [] then none else some ⟨2 + r, s.fld (TRG_CREG_BASE.BASE_MIB r), s.cregSize r⟩)
    ++ (List.range 16).filterMap (fun k =>
        let n := min 1024 (s.fld (ACR_DRAM.SIZE_MIB k))
        if n = 0 then none else some ⟨6 + k, s.fld (ACR_DRAM.BASE_MIB k), n⟩)

/-- Two regions overlap. -/
def Region.overlaps (a b : Region) : Bool := decide (a.base < b.base + b.size) && decide (b.base < a.base + a.size)

/-- The first regions at fault: one that passes the usable capacity, or two that overlap. -/
def regionFault (capacity : Nat) : List Region → Option (Nat × Nat)
  | [] => none
  | a :: t =>
    if capacity < a.base + a.size then some (a.entry, a.entry)
    else match t.find? a.overlaps with
      | some b => some (a.entry, b.entry)
      | none => regionFault capacity t

/-- Usable capacity in MiB. -/
def State.capacityMib (s : State) : Nat := s.part.dramBytes / 2 ^ 20

/-- The regions at fault in the present settings. DEDUCED, log entry 32. -/
def State.regionConflict (s : State) : Option (Nat × Nat) := regionFault s.capacityMib s.regions

/-- A shared ball serves both as timing input and as blanking input (R354). DEDUCED, log entry 32. -/
def State.ballConflict (s : State) : Bool :=
  (s.flag AUX_BLANK0_CFG.EN && s.flag (BLT_TIN_CFG.EN 6)) || (s.flag AUX_BLANK1_CFG.EN && s.flag (BLT_TIN_CFG.EN 7))

/-- Two enabled capture units name one region (R212). DEDUCED, log entry 32. -/
def State.captureConflict (s : State) : Bool := (List.range 4).any (fun r => decide (2 ≤ (s.cregUnits r).length))

/-- CONFLICT_SRC of the present settings, 0 for none. -/
def State.conflictSrc (s : State) : Nat :=
  if s.ballConflict then 1 else if s.regionConflict.isSome then 2 else if s.captureConflict then 3 else 0

/-- DMC_CONFLICT of a rejected check. -/
def State.showConflict (s : State) (src : Nat) : State :=
  match s.regionConflict with
  | some (a, b) => if src = 2 then s.setNat DMC_CONFLICT.reg (2 ^ 31 + b * 256 + a) else s
  | none => s

/-- DMC_REGIONi after an accepted commit. -/
def State.showRegions (s : State) : State :=
  (List.range 22).foldl (fun s i =>
    s.setNat (DMC_REGION.reg i) (match s.regions.find? (fun r => r.entry == i) with
      | some r => 2 ^ 31 + r.base * 2 ^ 18 + r.size * 2 ^ 7
      | none => 0)) s

/-- What the check of a configuration asks of the device. -/
def State.commitEnv (s : State) (c : Cfg) : CommitEnv where
  locked := s.flag SRC_LASER_STATUS.LOCKED
  ports := s.ports
  refill := s.fld SRC_BANK_EST.REFILL_MW
  beltDefined := s.beltDefined (c.fld LCH_ROUND_CFG.BELT)
  conflict := s.conflictSrc

/-- The commit check of a configuration on the device (R80–R82). -/
def State.checkCommit (s : State) (old : Option Cfg) (c : Cfg) : CommitResult := commitCheck (s.commitEnv c) old c

end Sys2Proof.Machine
end

