-- ==== Sys2Proof/Machine/Link.lean ====
section
/-!
DEFINITION. The redundant pair and the Fuvon link: lanes, heartbeats, arming, the mirror and partner loss (R356–R376).
-/
namespace Sys2Proof.Machine

/-! Link states (R361). -/

def linkOff : Nat := 0
def linkClock : Nat := 1
def linkAlign : Nat := 2
def linkIdent : Nat := 3
def linkUpCode : Nat := 4

/-- Change the link state. -/
def State.setLink (s : State) (st : Nat) : State := s.setFld MLK_LINK_STATUS.STATE st

/-- The link runs: enabled, and the device not in BOOT. DEDUCED, log entry 82. -/
def State.linkRuns (s : State) : Bool := s.flag MLK_CFG.EN && s.ctl.dev != .boot

/-- The link leaves UP: EV48, with the lanes that were up and whether the partner's clock was lost (R376). -/
def State.linkDown (s : State) (lanes : Nat) (clock : Bool) : State :=
  let s := (s.bump MLK_LINK_DOWN_COUNT.reg).setFlag MLK_LINK_STATUS.DOWN_SEEN true
  (s.raiseEvent 48 (lanes + bitAt clock 8)).diagEvent 0x18 15

/-- No lane is aligned any more: their state goes, and the copies of frames seen are forgotten. -/
def State.dropLanes (s : State) : State :=
  let s := s.setFld MLK_LINK_STATUS.LANES_UP 0
  s.putMlk { s.mlk with lanes := [], rxSeq := [] }

/-- The link goes to OFF: in BOOT, or with EN = 0. An exit from UP is counted, and raises no EV48, which R361 gives to the exits to
ALIGN and CLOCK. DEDUCED, log entry 82. -/
def State.linkOffNow (s : State) : State :=
  if s.fld MLK_LINK_STATUS.STATE = linkOff then s
  else
    let up := s.linkUp
    let s := ((s.setLink linkOff).setFlag MLK_LINK_STATUS.CLK_OK false).dropLanes
    if up then s.bump MLK_LINK_DOWN_COUNT.reg else s

/-- The link follows MLK_CFG.EN and the device state. -/
def State.linkFollow (s : State) : State :=
  if !s.linkRuns then s.linkOffNow
  else s.linkWake

/-- PARTNER_CLOCK_CHANGE (R361). DEDUCED, log entry 82. -/
def execPartnerClockChange (present : Bool) (s : State) : Host.Outcome State Fault Refusal :=
  .next (
    if !s.linkRuns then s
    else if present then
      let s := s.setFlag MLK_LINK_STATUS.CLK_OK true
      if s.fld MLK_LINK_STATUS.STATE = linkClock then s.setLink linkAlign else s
    else
      let lanes := s.fld MLK_LINK_STATUS.LANES_UP
      let up := s.linkUp
      let s := ((s.setFlag MLK_LINK_STATUS.CLK_OK false).dropLanes).setLink linkClock
      if up then s.linkDown lanes true else s)

/-- Three commas, each 1,024 destuffed bits after the last (R361). DEDUCED, log entry 129. -/
def threeCommas (gaps : List Nat) : Bool := gaps.take 2 == [1024, 1024]

/-- LANE_ALIGN (R361): lane `l` is aligned after three commas, and its first frame from then on is discarded; the first lane brings
IDENT, in which identity frames are sent. -/
def execLaneAlign (l : Fin 4) (gaps : List Nat) (s : State) : Host.Outcome State Fault Refusal :=
  .next (
    let st := s.fld MLK_LINK_STATUS.STATE
    if st < linkAlign || bitOf (s.fld MLK_LINK_STATUS.LANES_UP) l.val || !threeCommas gaps then s
    else
      let s := s.setFld MLK_LINK_STATUS.LANES_UP (putBit (s.fld MLK_LINK_STATUS.LANES_UP) l.val true)
      let s := s.setLane l.val { fresh := true }
      if st = linkAlign then (s.setLink linkIdent).sendIdentity else s)

/-- The latest four commas due were missing (R361). -/
def fourMissing (commas : List Bool) : Bool := commas.take 4 == [false, false, false, false]

/-- LANE_LOSS (R361): an aligned lane is lost after four consecutive missing commas, or 16 errors within 1,024 frames; with no lane
left the link goes back to ALIGN. -/
def execLaneLoss (l : Fin 4) (commas : List Bool) (s : State) : Host.Outcome State Fault Refusal :=
  .next (
    let lanes := s.fld MLK_LINK_STATUS.LANES_UP
    if !bitOf lanes l.val || !(fourMissing commas || (s.lane l.val).bad) then s
    else
      let up := s.linkUp
      let left := putBit lanes l.val false
      let s := (s.bump (MLK_LANE_COMMA_LOSS_COUNT.reg l.val)).setFld MLK_LINK_STATUS.LANES_UP left
      let s := s.setLane l.val {}
      if left ≠ 0 then s
      else
        let s := s.dropLanes.setLink linkAlign
        if up then s.linkDown lanes false else s)

/-- LINK_FRAME_DISCARDED (R359, R362): the bits of a frame come in on an aligned lane. A stuff error or a CRC failure is counted; the
first frame after alignment, and a sound one of a type that R362 does not list, go without a count, and of a sound frame of a listed
type the effect is in the row of its type. -/
def execLinkFrameDiscarded (l : Fin 4) (frame : Nat) (before bits : List Bool) (s : State) : Host.Outcome State Fault Refusal :=
  .next (
    match s.laneTakes l.val with
    | (s, false) => s
    | (s, true) =>
      match lineCheck before bits with
      | .stuffError => (s.bump (MLK_LANE_STUFF_ERR_COUNT.reg l.val)).laneError l.val frame
      | .crcError => (s.bump (MLK_LANE_CRC_COUNT.reg l.val)).laneError l.val frame
      | .frame _ => s)

/-! The mirror, sending (R365). -/

/-- A resync: every item in full (R365). DESIGN CHOICE, log entry 81; DEDUCED, log entry 84. -/
def State.resync (s : State) : State :=
  let s := s.putMlk { s.mlk with seq := 0, tx := [], rx := 0, held := [], known := [] }
  let s := (s.setFlag MLK_PAIR_STATUS.MIRROR_SYNCED false).setFlag MLK_PAIR_STATUS.MIRROR_LAGGING false
  let s := mirrorRegs.foldl (fun s off =>
    let w := s.readReg off
    let s := s.sendMirror off (leBytes 4 w.toNat)
    (s.putMlk { s.mlk with known := SMap.put resetVal s.mlk.known off w })) s
  let s := s.loopPorts.foldl (fun s n => (s.mirrorBaseline n).mirrorRefs n 0 32768) s
  s.putMlk { s.mlk with resync := some s.mlk.seq }

/-- MIRROR_RETRANSMIT (R365): every frame from the oldest unacknowledged one is sent again. -/
def execMirrorRetransmit (s : State) : Host.Outcome State Fault Refusal :=
  .next (
    if !s.linkUp then s
    else
      let tx := s.mlk.tx.map (fun x => { x with sent := s.time })
      let s := tx.foldl (fun s x => s.sendOne (x.seq % 2 ^ 24) (.mirror x.dest x.data)) s
      let s := s.addReg MLK_RETX_COUNT.reg tx.length
      s.putMlk { s.mlk with tx := tx })

/-- LAG_US in ticks. -/
def State.lagTicks (s : State) : Nat := max 100 (s.fld MLK_MIRROR_CFG.LAG_US) * ticksPerUs

/-- MIRROR_LAG (R365): the oldest item waits LAG_US without acknowledgement; once per episode. -/
def execMirrorLag (s : State) : Host.Outcome State Fault Refusal :=
  .next (
    match s.mlk.tx with
    | [] => s
    | x :: _ =>
      if s.flag MLK_PAIR_STATUS.MIRROR_LAGGING then s
      else
        let wait := (s.time - x.first) / ticksPerUs
        (s.setFlag MLK_PAIR_STATUS.MIRROR_LAGGING true).raiseEvent 51 (mirrorItem x.dest + satNat 16 wait * 2 ^ 16))

/-! The mirror, receiving (R365, R367). -/

/-- Advance MLK_PIMG_SEQ around an update: it is odd while the update is under way. -/
def State.pimgUpdate (s : State) (f : State → State) : State := (f (s.bump MLK_PIMG_SEQ.reg)).bump MLK_PIMG_SEQ.reg

/-- Put a value into the partner image: 4,096 entries by ascending offset. -/
def putImage (off : Nat) (w : Word) : List (Nat × Word) → List (Nat × Word)
  | [] => [(off, w)]
  | (o, v) :: t => if off < o then (off, w) :: (o, v) :: t else if off = o then (off, w) :: t else (o, v) :: putImage off w t

/-- Store the words of a mirror frame in the partner image. -/
def State.storeImage (s : State) : Nat → List Word → State
  | _, [] => s
  | off, w :: ws =>
    let l := putImage off w s.mlk.pimg
    State.storeImage (s.putMlk { s.mlk with pimg := if l.length ≤ 4096 then l else s.mlk.pimg }) (off + 4) ws

/-- Store the data of a mirror frame: references are discarded while the Brillouin engine is disabled or has failed. -/
def State.applyMirror (s : State) (dest : Nat) (data : List Byte) : State :=
  if 2 ^ 31 ≤ dest then
    let n := (dest - 2 ^ 31) / 0x20000
    if s.brlDown || decide (s.ports ≤ n) || !s.brlReach n || decide (0x20000 < dest % 0x20000 + data.length) then s
    else s.setDram (s.refAddr true n 0 + dest % 0x20000) data
  else if 0x1D2000 ≤ dest ∧ dest + data.length ≤ 0x1D8000 then
    s.pimgUpdate (fun s => (s.putMlk { s.mlk with pbase := Memory.setBytes 0 s.mlk.pbase (dest - 0x1D2000) data }))
  else s.pimgUpdate (fun s => s.storeImage dest (bytesToWords data))

/-- Held frames that now follow without a gap are stored. DEDUCED, log entry 84. -/
def State.drainHeld (s : State) : Nat → State
  | 0 => s
  | n + 1 =>
    match s.mlk.held.find? (fun x => x.1 == s.mlk.rx + 1) with
    | none => s
    | some x =>
      let s := s.putMlk { s.mlk with rx := x.1, held := s.mlk.held.erase x }
      (s.applyMirror x.2.1 x.2.2).drainHeld n

/-- A mirror frame is stored in sequence; one that comes again is dropped, one beyond a gap is held. DESIGN CHOICE, log entry 81;
DEDUCED, log entry 84. -/
def State.mirrorFrame (s : State) (seq : BitVec 24) (dest : BitVec 32) (data : List (BitVec 8)) : State :=
      let ahead := (seq.toNat + 2 ^ 24 - s.mlk.rx % 2 ^ 24) % 2 ^ 24
      if ahead = 0 ∨ 2 ^ 23 ≤ ahead then s
      else
        let x := (s.mlk.rx + ahead, dest.toNat, data)
        if s.mlk.held.any (fun y => y.1 == x.1) then s
        else
          let l := x :: s.mlk.held
          (s.putMlk { s.mlk with held := l }).drainHeld l.length

/-- MIRROR_DATA (R365). -/
def execMirrorData (l : Fin 4) (seq : BitVec 24) (dest : BitVec 32) (data : List (BitVec 8)) (s : State) :
    Host.Outcome State Fault Refusal :=
  .next (
    if !s.linkUp || decide (112 < data.length) then s
    else match s.laneTakes l.val with
      | (s, false) => s
      | (s, true) => s.mirrorFrame seq dest data)

/-! Arming (R364). -/

/-- The partner's heartbeat shows RUNNING or DEGRADED. -/
def State.partnerRuns (s : State) : Bool :=
  s.mlk.seen && (let st := s.fld MLK_PARTNER_HEALTH.STATE; st == 2 || st == 3)

/-- The two channels lie at least 16 steps apart (R357). -/
def State.channelsApart (s : State) (i : PartnerId) : Bool :=
  let k := s.fld SRC_LASER_CFG.CH
  decide (k + 16 ≤ i.chan) || decide (i.chan + 16 ≤ k)

/-- Every enabled loop names on the partner a loop that names it back with the same LOOP_BINS. -/
def State.loopsAgree (s : State) (i : PartnerId) : Bool :=
  s.loopPorts.all (fun n => i.loops.contains (s.loopPeer n, n, s.fld (MLK_LOOP_CFG.LOOP_BINS n)))

/-- CH_CLASH, ROLE_CLASH and LOOP_MISMATCH, from the partner's identity. -/
def State.pairFlags (s : State) : State :=
  match s.mlk.ident with
  | none => s
  | some i =>
    let s := s.setFlag MLK_PAIR_STATUS.CH_CLASH (!s.channelsApart i)
    let s := s.setFlag MLK_PAIR_STATUS.ROLE_CLASH (s.flag MLK_CFG.ROLE == i.roleB)
    s.setFlag MLK_PAIR_STATUS.LOOP_MISMATCH (!s.loopsAgree i)

/-- Every condition of R364 holds. -/
def State.canArm (s : State) : Bool :=
  s.flag MLK_CFG.PAIR_EN && s.isRunning && s.linkUp && s.partnerRuns && s.mlk.ident.isSome
    && !s.flag MLK_PAIR_STATUS.ROLE_CLASH && !s.flag MLK_PAIR_STATUS.CH_CLASH && !s.flag MLK_PAIR_STATUS.LOOP_MISMATCH
    && s.mlk.checked && s.flag MLK_PAIR_STATUS.MIRROR_SYNCED

/-- Test for arming; an armed device with REF_RESTORE takes its references back (R366). -/
def State.tryArm (s : State) : State :=
  let s := s.pairFlags
  if s.flag MLK_PAIR_STATUS.ARMED || !s.canArm then s
  else
    let s := s.setFlag MLK_PAIR_STATUS.ARMED true
    let want := s.flag MLK_CFG.REF_RESTORE && s.loopPorts.any (fun n => !s.flag (BRL_PORT_STATUS.REF_LOADED n))
    (s.putMlk { s.mlk with restore := want, wasArmed := true }).settle

/-- The device is no longer armed: a STOP, or PAIR_EN = 0. -/
def State.disarm (s : State) : State :=
  let s := s.setFlag MLK_PAIR_STATUS.ARMED false
  (s.putMlk { s.mlk with restore := false }).settle

/-! Partner loss (R368, R370). -/

/-- What a declaration stops of the home configuration: a turn that slides is launched no more, and is skipped (R84, R87, R370).
DEDUCED, log entry 83. -/
def State.cutHome (s : State) : State :=
  match s.sched.sliding with
  | none => s
  | some (t, _) =>
    let s := s.putSched { s.sched with sliding := none }
    if t.kind = .diagnostic then s.skipDiag else s.skipTurn t

/-- Outputs the partner had active are driven here (R370). -/
def State.takeOutputs (s : State) : State :=
  (List.range 4).foldl (fun s k =>
    if bitOf (s.fld MLK_ALARM_CFG.DOUT_TAKE) k && bitOf (s.fld MLK_PARTNER_HEALTH.DOUT) k then s.setDout k { s.dout k with cmd := true }
    else s) s

/-- A declaration of partner loss, with its cause and for cause 0x3 the partner's port. -/
def State.declareLoss (s : State) (cause port : Nat) : State :=
  let s := (s.setFlag MLK_PAIR_STATUS.ARMED false).setFld MLK_PAIR_STATUS.LOSS_CAUSE cause
  let s := s.setFlag MLK_PAIR_STATUS.TKO_ACTIVE true
  let s := s.putMlk { s.mlk with wait := true, restore := false }
  let s := (s.cutHome).completeWhere (fun c => c.opcode == 0x11) s.ctl.round { code := resSuperseded }
  let s := (s.raiseEvent 49 (cause + (if cause = 3 then port * 256 else 0))).diagEvent 0x17 15
  let s := s.takeOutputs
  (s.withDeg { s.ctl.deg with partner := true }).settle

/-- An armed device declares partner loss. -/
def State.armedLoss (s : State) (cause port : Nat) : State :=
  if s.flag MLK_PAIR_STATUS.ARMED then s.declareLoss cause port else s

/-- ARM_WAIT_EXPIRY (R368): ARM_WAIT_MS after START; with TKO_AT_START a device that has not become armed declares partner loss. -/
def execArmWaitExpiry (s : State) : Host.Outcome State Fault Refusal :=
  .next (
    if s.isRunning && s.flag MLK_CFG.TKO_AT_START && !s.mlk.wasArmed then s.declareLoss 5 0 else s)

/-- FAULT_MESSAGE (R368): counted; an armed device declares partner loss on entry to SAFE, or a route, receiver or
known-answer fault of a loop's partner port. -/
def execFaultMessage (l : Fin 4) (seq : BitVec 24) (safe : Bool) (cause : Fin 256) (port : Fin 16) (s : State) :
    Host.Outcome State Fault Refusal :=
  .next (
    if !s.linkUp then s
    else match s.receive 3 l.val seq.toNat with
      | (s, false) => s
      | (s, true) =>
        let s := s.bump MLK_FAULT_RX_COUNT.reg
        if safe then s.armedLoss 2 0
        else if 2 ≤ cause.val ∧ cause.val ≤ 4 ∧ s.loopPorts.any (fun n => s.loopPeer n == port.val) then s.armedLoss 3 port.val
        else s)

/-! Heartbeats (R363, R386). -/

/-- Ports with a declared break. -/
def State.breakPorts (s : State) : Nat := (List.range 12).foldl (fun m n => m + bitAt (s.breakOn n) n) 0

/-- Active outputs. -/
def State.doutMask (s : State) : Nat := (List.range 4).foldl (fun m k => m + bitAt (s.doutActive k) k) 0

/-- The scorekeeper's byte of a heartbeat. -/
def State.safByte (s : State) : Nat :=
  bitAt (s.pinDriven 0) 0 + bitAt (s.pinDriven 1) 1 + bitAt (s.alarm 0) 2 + bitAt (s.alarm 1) 3 + bitAt s.anyLasting 4

/-- The 120 bytes of a heartbeat. DEDUCED, log entry 85. -/
def State.heartbeatBytes (s : State) : List Byte :=
  leBytes 8 s.time ++ leBytes 8 (s.ctl.round % 2 ^ 48)
    ++ leBytes 1 (s.ctl.dev.code + bitAt (s.flag MLK_PAIR_STATUS.ARMED) 3 + bitAt (s.flag MLK_PAIR_STATUS.TKO_ACTIVE) 4)
    ++ leBytes 1 (s.fld SRC_LASER_CFG.CH) ++ leBytes 2 s.ctl.faulted.toNat ++ leBytes 2 s.breakPorts ++ leBytes 1 s.doutMask
    ++ leBytes 1 s.safByte ++ leBytes 4 s.mlk.rx ++ leBytes 4 (s.reg MLK_PIMG_SEQ.reg).toNat ++ zeroBytes 88

/-- HEARTBEAT_SEND (R362, R363): a frame on every aligned lane. -/
def execHeartbeatSend (s : State) : Host.Outcome State Fault Refusal :=
  .next (if s.linkUp then s.sendAll (.heartbeat s.heartbeatBytes) 1 else s)

/-- Frames up to an acknowledged sequence number are done with; a resync acknowledged whole sets MIRROR_SYNCED. DEDUCED, log
entry 85. -/
def State.mirrorAck (s : State) (ack : Nat) : State :=
  let acked (q : Nat) : Bool := decide ((ack + 2 ^ 24 - q % 2 ^ 24) % 2 ^ 24 < 2 ^ 23)
  let tx := s.mlk.tx.filter (fun x => !acked x.seq)
  let s := s.putMlk { s.mlk with tx := tx }
  let s := if tx.any (fun x => decide (x.first + s.lagTicks ≤ s.time)) then s
    else s.setFlag MLK_PAIR_STATUS.MIRROR_LAGGING false
  match s.mlk.resync with
  | some q => if tx.any (fun x => decide (x.seq ≤ q)) then s
      else (s.putMlk { s.mlk with resync := none }).setFlag MLK_PAIR_STATUS.MIRROR_SYNCED true
  | none => s

/-- What the partner image holds at an offset; 0 while it has no such entry. -/
def State.imageAt (s : State) (off : Nat) : Nat :=
  match s.mlk.pimg.find? (fun e => e.1 == off) with
  | some e => e.2.toNat
  | none => 0

/-- The trigger and alarm state of a heartbeat as register words of the partner image: ACTIVE of the outputs, and the pins, alarms
and ANY_LASTING of SAF_STATUS; the other bits of those words stay. DEDUCED, log entry 129. -/
def State.heartbeatImage (s : State) (dout alarm : Nat) : List (Nat × Word) :=
  (List.range 4).map (fun k =>
    (TRG_DOUT_STATUS.reg k, Word.of (putBit (s.imageAt (TRG_DOUT_STATUS.reg k)) 31 (bitOf dout k))))
  ++ [(SAF_STATUS.reg, Word.of ([(31, 0), (30, 1), (29, 2), (28, 3), (24, 4)].foldl
    (fun w (b : Nat × Nat) => putBit w b.1 (bitOf alarm b.2)) (s.imageAt SAF_STATUS.reg)))]

/-- The partner image follows a heartbeat, where it changes anything (R365, R367). DEDUCED, log entry 129. -/
def State.imageAlarm (s : State) (dout alarm : Nat) : State :=
  let es := s.heartbeatImage dout alarm
  if es.all (fun e => s.mlk.pimg.contains e) then s
  else s.pimgUpdate (fun s => es.foldl (fun s e => s.storeImage e.1 [e.2]) s)

/-- A valid heartbeat: the partner's health, the trigger and alarm state, and the acknowledgement; a partner in BOOT or SETUP is lost
to an armed device. -/
def State.takeHeartbeat (s : State) (h : Heartbeat) : State :=
  let s := s.putMlk { s.mlk with missRun := 0, seen := true }
  let s := s.setNat MLK_PARTNER_HEALTH.reg
    (h.faults.toNat * 2 ^ 20 + h.breaks.toNat * 2 ^ 8 + h.dout.toNat * 2 ^ 4 + bitAt h.tko 3 + h.state.toNat)
  let s := (s.imageAlarm h.dout.toNat h.alarm.toNat).mirrorAck (h.ack.toNat % 2 ^ 24)
  if h.state.toNat < 2 then s.armedLoss 4 0 else s.tryArm

/-- HEARTBEAT (R363). -/
def execHeartbeat (l : Fin 4) (seq : BitVec 24) (h : Heartbeat) (s : State) : Host.Outcome State Fault Refusal :=
  .next (
    if !s.linkUp then s
    else match s.receive 1 l.val seq.toNat with
      | (s, false) => s
      | (s, true) => s.takeHeartbeat h)

/-- MISSED_HEARTBEAT (R363, R368): at the fourth in a row an armed device declares partner loss. DEDUCED, log entry 82. -/
def execMissedHeartbeat (s : State) : Host.Outcome State Fault Refusal :=
  .next (
    if !s.linkRuns then s
    else
      let s := s.bump MLK_HB_MISS_COUNT.reg
      let s := s.putMlk { s.mlk with missRun := s.mlk.missRun + 1 }
      if 4 ≤ s.mlk.missRun then s.armedLoss 1 0 else s)

/-- What the partner says of itself: acknowledged in IDENT, the link is UP, sends its identity once and resyncs; else IDENT sends
the identity again. -/
def State.takeIdentity (s : State) (i : Identity) : State :=
  let st := s.fld MLK_LINK_STATUS.STATE
  let s := s.setNat MLK_PARTNER_INFO.reg
    (i.part.toNat * 2 ^ 16 + bitAt i.roleB 15 + i.chan.toNat * 2 ^ 8 + i.stepping.toNat * 2 ^ 4)
  let s := s.putMlk { s.mlk with ident := some { roleB := i.roleB, chan := i.chan.toNat, loops := i.loops } }
  if st = linkIdent then
    if i.acked then
      let s := s.putMlk { s.mlk with missRun := 0, seen := false }
      (((s.setLink linkUpCode).sendIdentity).resync).tryArm
    else s.sendIdentity.tryArm
  else s.tryArm

/-- IDENTITY (R361, R362). -/
def execIdentity (l : Fin 4) (seq : BitVec 24) (i : Identity) (s : State) : Host.Outcome State Fault Refusal :=
  .next (
    if s.fld MLK_LINK_STATUS.STATE < linkIdent then s
    else match s.receive 2 l.val seq.toNat with
      | (s, false) => s
      | (s, true) => s.takeIdentity i)

/-! The takeover configuration (R369, R372). -/

/-- The check of the takeover configuration: as a START, and PPS_ALIGN is ROUND_INVALID. -/
def State.tkoCheckResult (s : State) : CommitResult :=
  let c := tkoCfg s.regs
  let r := s.checkCommit none c
  if c.flag LCH_ROUND_CFG.PPS_ALIGN && r.reason != 0x11 && r.reason != 0x01 then reject 0x02 0 else r

/-- The first Rayleigh or Brillouin entry of a port. -/
def Cfg.firstEntry (c : Cfg) (n : Nat) : Option Entry := (c.portEntries n).head?

/-- Probe duration of a plan. -/
def Plan.dur (p : Plan) : Nat := if p.brlOnly then p.brillouinDur else p.rayleighDur

/-- The resumption bound of loop port `n` in units of 1/128 tick (R372). -/
def tkoBound (home tko : Cfg) (n : Nat) : Nat :=
  match tko.firstEntry n with
  | none => 0
  | some e =>
    let pt := tko.plan e.plan
    let len (x : Entry) : Nat := let o := tko.sourceSpan x; (o.2 - o.1).toNat
    let q := ((tko.entries.filter (fun x => decide (x.index < e.index))).map len).foldl (· + ·) 0
      + (tko.entries.map len).foldl max 0
    let h := match home.firstEntry n with
      | some x => let ph := home.plan x.plan; ph.window + (ph.dur + pt.dur) / 2 + u40ns
      | none => 0
    2005 * uUs / 10 + max (20 * uUs + e.offset * uTick) h + q + pt.window + 30 * uUs

/-- The home configuration: kept in a takeover, else the one in the LCH registers. -/
def State.homeCfg (s : State) : Cfg := match s.mlk.home with | some c => c | none => s.sch

/-- Check the takeover configuration and record the outcome. -/
def State.checkTko (s : State) : State :=
  let r := s.tkoCheckResult
  let ok := r.reason == 0
  let s := (s.setNat MLK_TKO_CHECK.reg r.word).setFlag MLK_PAIR_STATUS.TKO_INVALID (!ok)
  let s := s.putMlk { s.mlk with checked := ok }
  if ok then
    s.loopPorts.foldl (fun s n =>
      s.setFld (MLK_LOOP_STATUS.BOUND_US n) (satNat 16 (ceilDiv (tkoBound s.homeCfg (tkoCfg s.regs) n) uUs))) s
  else s

end Sys2Proof.Machine
end

