-- ==== Sys2Proof/Machine/Fields.lean ====
section
/-!
DEFINITION. Values that a register ignores, field lists, and what follows a change of settings (R307, R308, R354, R355).
-/
namespace Sys2Proof.Machine

/-! Values a description ignores (R307). -/

/-- The ranged field of a register whose other values are ignored, with its limits: SRC_LOSHIFT, PRTn_GROUP_INDEX,
PRTn_PE_CONV, PRTn_LF_COEF and BRL_PORTn_SECTk_COEF. -/
def rangedFld (off : Nat) : Option (Fld × Nat × Nat) :=
  let n := (off - 0x80000) / 0x4000
  if off = SRC_LOSHIFT.reg then some (SRC_LOSHIFT.FREQ_MHZ, 10400, 11200)
  else if off < 0x80000 then none
  else if off < 0xB0000 then
    if off = PRT_GROUP_INDEX.reg n then some (PRT_GROUP_INDEX.GI n, 14400, 14800)
    else if off = PRT_PE_CONV.reg n then some (PRT_PE_CONV.XI n, 7000, 8500)
    else if off = PRT_LF_COEF.reg n then some (PRT_LF_COEF.COEF n, 100, 2000)
    else none
  else if BRL_PORT_SECT_COEF.reg 0 0 ≤ off ∧ off < BRL_PORT_SECT_COEF.reg 0 0 + 0xC00 then
    let p := (off - BRL_PORT_SECT_COEF.reg 0 0) / 0x100
    let k := (off - BRL_PORT_SECT_COEF.reg p 0) / 8
    if off = BRL_PORT_SECT_COEF.reg p k ∧ k < 16 then some (BRL_PORT_SECT_COEF.COEF p k, 500, 2000) else none
  else none

/-- A new word of a register, with a field whose new value is ignored left as it was. -/
def keepRanged (off : Nat) (old new : Word) : Word :=
  match rangedFld off with
  | none => new
  | some (f, lo, hi) => if lo ≤ f.get new ∧ f.get new ≤ hi then new else f.put new (f.get old)

/-! Field lists (R307, R308). -/

/-- An entry of a field list. -/
structure FieldEdit where
  off : Nat
  mask : Word
  value : Word
  deriving DecidableEq, Repr

/-- The entries of a parameter block. -/
def fieldEdits : List Word → List FieldEdit
  | o :: m :: v :: t => ⟨o.toNat, m, v⟩ :: fieldEdits t
  | _ => []

/-- The RWL bits of the register at an offset. -/
def rwlBits (off : Nat) : Nat := match rowOf off with | some r => r.rwl | none => 0

/-- An offset is one of `n` units of a register family. -/
def isUnit (f : Nat → Nat) (n off : Nat) : Bool := (List.range n).any (fun i => f i == off)

/-- ZONE_SET's registers. -/
def zoneReg (off : Nat) : Bool :=
  isUnit PRT_RX_CFG.reg 12 off || isUnit PRT_RX_FLOOR.reg 12 off || isUnit PRT_ZONE_GAIN_R.reg 12 off
    || isUnit PRT_ZONE_GAIN_B.reg 12 off || isUnit PRT_GROUP_INDEX.reg 12 off
    || (List.range 12).any (fun n => decide (PRT_ZONE_BOUND.reg n 1 ≤ off) && decide (off ≤ PRT_ZONE_BOUND.reg n 7))

/-- PE_SET's registers. -/
def peReg (off : Nat) : Bool :=
  [PRT_PE_CFG.reg, PRT_PE_CONV.reg, PRT_LF_CFG.reg, PRT_LF_COEF.reg, PRT_LF_REF.reg, PRT_INTEG_CFG.reg, PRT_INTEG_END.reg].any
    (fun f => isUnit f 12 off)

/-- Offset within a block of registers. -/
def inBlock (lo hi off : Nat) : Bool := decide (lo ≤ off) && decide (off < hi)

/-- The bits of a register that an opcode's field list reaches; 0 for a register outside its set (R308). -/
def fieldReach (op off : Nat) : Nat :=
  match op with
  | 0x10 => schedMask off
  | 0x20 => if zoneReg off then rwlBits off else 0
  | 0x21 => if peReg off then rwlBits off else 0
  | 0x30 => if inBlock 0x100000 0x110000 off then rwlBits off else 0
  | 0x40 =>
    if off = BRL_CFG.reg then rwlBits off % 2 ^ 31
    else if inBlock 0xC0000 0xD0000 off && off != BRL_REGION.reg && off != BRL_REF_DATA.reg then rwlBits off else 0
  | 0x50 =>
    if off = BLT_CFG.reg then BLT_CFG.FRAME_DECIM_M1.put 0 (2 ^ BLT_CFG.FRAME_DECIM_M1.width - 1) |>.toNat
    else if inBlock 0xD0000 0xE0000 off && off != BLT_REGION.reg then rwlBits off else 0
  | 0x60 => if inBlock 0xE0000 0x100000 off && !inBlock 0xE0400 0xE0500 off then rwlBits off else 0
  | 0x72 => if inBlock 0x140000 0x141000 off then rwlBits off else 0
  | 0x80 => if off = DMC_CFG.reg || off = DMC_ECC_CFG.reg then rwlBits off else 0
  | 0x90 => if inBlock 0x1C0000 0x1D0000 off then rwlBits off else 0
  | 0x91 => if off = CMP_CFG.reg then rwlBits off % 2 ^ 31 else if inBlock 0x1B0000 0x1C0000 off then rwlBits off else 0
  | 0xB0 =>
    if off = MLK_CFG.reg then
      -- EN and ROLE are withheld
      (Word.of (rwlBits off) &&& ~~~(Word.of (2 ^ 31 + 2 ^ 29))).toNat
    else if inBlock 0x1D0000 0x1E0000 off && off != MLK_EQ_TX.reg && off != MLK_EQ_RX.reg then rwlBits off else 0
  | _ => 0

/-- The unit a list is bound to: the one port of ZONE_SET, the core of AC_CONFIG; 0 for lists that are not bound. -/
def fieldUnit (op off : Nat) : Nat :=
  match op with
  | 0x20 => (off - 0x80000) / 0x4000
  | 0x72 => (off - 0x140000) / 0x100
  | _ => 0

/-- An entry of an opcode's list is at fault; `unit`: the unit the list is bound to. -/
def editBad (op unit : Nat) (e : FieldEdit) : Bool :=
  let m := fieldReach op e.off
  e.off % 4 != 0 || m == 0 || fieldUnit op e.off != unit || (e.mask &&& ~~~(Word.of m)) != 0

/-- The first entry at fault. DEDUCED, log entry 27; DEDUCED, log entry 32. -/
def firstBad (op unit : Nat) : Nat → List FieldEdit → Option Nat
  | _, [] => none
  | i, e :: es => if editBad op unit e then some i else firstBad op unit (i + 1) es

/-- The word an entry gives a register. -/
def FieldEdit.word (e : FieldEdit) (old : Word) : Word := keepRanged e.off old (mixWord e.mask old e.value)

/-- Apply a list to the registers. -/
def State.applyEdits (s : State) (es : List FieldEdit) : State :=
  es.foldl (fun s e => s.setReg e.off (e.word (s.reg e.off))) s

/-- Apply a list to the shadow configuration (R90). -/
def editShadow (c : Cfg) (es : List FieldEdit) : Cfg :=
  es.foldl (fun c e => SMap.put resetVal c e.off (e.word (SMap.get resetVal c e.off))) c

/-! What follows a change of settings; `old` is the state before it. -/

/-- Auxiliary settings: an input with EN = 0 is never active, the internal reference is settled only with INT_EN = 1, and a
change to paused is counted (R342, R351, R352). -/
def State.auxChange (old s : State) : State :=
  let s := [0, 1].foldl (fun s i => if (s.blank i).active && !s.blankEn i then s.setBlankActive i false else s) s
  let s := if s.flag AUX_REF_CFG.INT_EN || !s.flag AUX_STATUS.INT_REF_OK then s else s.setRef 0 false
  State.countPause old s

/-- Tile summaries: a change of EN or BLOCK_LOG2 abandons the block in progress (R205). -/
def State.tileChange (old s : State) : State :=
  (List.range s.ports).foldl (fun s n =>
    if old.flag (TRG_TS_CFG.EN n) = s.flag (TRG_TS_CFG.EN n) ∧ old.fld (TRG_TS_CFG.BLOCK_LOG2 n) = s.fld (TRG_TS_CFG.BLOCK_LOG2 n) then s
    else s.setPort n { s.port n with tile := { from_ := s.ctl.round } }) s

/-- Takeover registers in `[0x1D1000, 0x1D1500)`. -/
def tkoRegs (s : State) : SMap Word := s.regs.filter (fun p => inBlock 0x1D1000 0x1D1500 p.1)

/-- Pair settings: PAIR_EN = 0 disarms (R364). -/
def State.pairChange (old s : State) : State :=
  if old.flag MLK_CFG.PAIR_EN && !s.flag MLK_CFG.PAIR_EN then s.disarm else s

end Sys2Proof.Machine
end

