-- ==== Sys2Proof/Machine/Commands.lean ====
section
/-!
DEFINITION. Processing of ring-0 commands: format checks, acceptance, and the commands that act when processed (R294–R309).
-/
namespace Sys2Proof.Machine

/-! Opcodes (R306). -/

def opNop : Nat := 0x00
def opCancel : Nat := 0x01
def opEvrMark : Nat := 0x02
def opStop : Nat := 0x03
def opLchWrite : Nat := 0x10
def opLchCommit : Nat := 0x11
def opLchShadowReset : Nat := 0x12
def opZoneSet : Nat := 0x20
def opPeSet : Nat := 0x21
def opPortRestore : Nat := 0x22
def opLfRebase : Nat := 0x23
def opFltSet : Nat := 0x30
def opBrlSet : Nat := 0x40
def opRefLoad : Nat := 0x41
def opRefLearn : Nat := 0x42
def opBltSet : Nat := 0x50
def opTrim : Nat := 0x51
def opTrgSet : Nat := 0x60
def opTrgArm : Nat := 0x61
def opTrgDisarm : Nat := 0x62
def opDoutSet : Nat := 0x63
def opDoutClear : Nat := 0x64
def opAcStart : Nat := 0x70
def opAcStop : Nat := 0x71
def opAcConfig : Nat := 0x72
def opDmcSet : Nat := 0x80
def opAuxSet : Nat := 0x90
def opCmpSet : Nat := 0x91
def opCalRun : Nat := 0xA0
def opCalPin : Nat := 0xA1
def opCalRestore : Nat := 0xA2
def opPairSet : Nat := 0xB0
def opFailback : Nat := 0xB1

/-- Opcodes with a field list, and those that act when processed. -/
def opLists : List Nat := [0x10, 0x20, 0x21, 0x30, 0x40, 0x50, 0x60, 0x72, 0x80, 0x90, 0x91, 0xB0]
def opImmediate : List Nat := [0x01, 0x02, 0x10, 0x12]

/-- Every opcode. -/
def opAll : List Nat :=
  [0x00, 0x01, 0x02, 0x03, 0x10, 0x11, 0x12, 0x20, 0x21, 0x22, 0x23, 0x30, 0x40, 0x41, 0x42, 0x50, 0x51, 0x60, 0x61, 0x62, 0x63,
   0x64, 0x70, 0x71, 0x72, 0x80, 0x90, 0x91, 0xA0, 0xA1, 0xA2, 0xB0, 0xB1]

/-- Bits of INLINE an opcode names; the others are reserved. DEDUCED, log entry 28. -/
def opInline (op : Nat) : Nat :=
  match op with
  | 0x01 => 0xFFFF
  | 0x02 => 0xFFFFFFFF
  | 0x22 => 0xF
  | 0x23 => 0xFFF
  | 0x41 => 0xF0007FFF
  | 0x42 => 0xF0007FFF
  | 0x51 => 0xFFFFFF
  | 0x61 => 0xFFFF
  | 0x62 => 0xFFFF
  | 0x63 => 0xF
  | 0x64 => 0xF
  | 0x70 => 0x07FF800F
  | 0x71 => 0xF
  | 0x72 => 0xF
  | 0xA1 => 1
  | 0xA2 => 1
  | _ => 0

end Sys2Proof.Machine

namespace Sys2Proof

/-! Fields of a descriptor. -/

/-- INLINE as a number. DEDUCED, log entry 28. -/
def CmdHdr.inl (h : CmdHdr) : Nat := h.inline.toNat

/-- INLINE[3:0]: a port, a core or an output mask. -/
def CmdHdr.low4 (h : CmdHdr) : Nat := h.inl % 16

/-- INLINE[31:28] and [14:0] of the reference commands. -/
def CmdHdr.refPort (h : CmdHdr) : Nat := h.inl / 2 ^ 28
def CmdHdr.refCell (h : CmdHdr) : Nat := h.inl % 2 ^ 15

/-- INLINE2[15:0]: cells of REF_LEARN. -/
def CmdHdr.cells (h : CmdHdr) : Nat := h.word8.toNat % 2 ^ 16

/-- The parameter block as words. -/
def CmdHdr.words (h : CmdHdr) : List Word := h.params.take (h.paramLen / 4)

/-- The field list. -/
def CmdHdr.edits (h : CmdHdr) : List Machine.FieldEdit := Machine.fieldEdits h.words

end Sys2Proof

namespace Sys2Proof.Machine

/-! Format checks (R309). -/

/-- A wrong parameter block or a reserved bit. DEDUCED, log entry 27; DEDUCED, log entry 28. -/
def cmdMalformed (op : Nat) (h : CmdHdr) : Bool :=
  h.reserved || (h.inline &&& ~~~(Word.of (opInline op))) != 0 || h.paramLen % 4 != 0 || decide (65536 < h.paramLen)
    || (h.paramLen != 0 && h.word8.toNat % 8 != 0)
    || (if opLists.contains op then h.paramLen == 0 || h.paramLen % 12 != 0
        else if op = opRefLoad then h.paramLen == 0
        else h.paramLen != 0)
    || (op == opRefLearn && (h.cells == 0 || decide (2 ^ 16 ≤ h.word8.toNat)))

/-- The unit a list of an opcode is bound to (R306, R308). -/
def listUnit (op : Nat) (h : CmdHdr) : Nat :=
  if op = opAcConfig then h.low4
  else match h.edits with
    | e :: _ => fieldUnit op e.off
    | [] => 0

/-- A port that the part does not have is named (R309). DEDUCED, log entry 27. -/
def State.cmdAbsent (s : State) (op : Nat) (h : CmdHdr) : Bool :=
  match op with
  | 0x22 => decide (s.ports ≤ h.low4)
  | 0x23 => decide (2 ^ s.ports ≤ h.inl)
  | 0x41 => decide (s.ports ≤ h.refPort)
  | 0x42 => decide (s.ports ≤ h.refPort)
  | _ => opLists.contains op && h.edits.any (fun e => s.absent e.off)

/-- The checks made when a command is processed, in order, but for its target and the commit check. DEDUCED, log entry 27. -/
def State.formatCheck (s : State) (op : Nat) (h : CmdHdr) : Option CmdRes :=
  if !opAll.contains op then some { code := resBadOpcode }
  else if cmdMalformed op h then some { code := resBadParam }
  else if h.paramLen ≠ 0 && (!h.fetchOk || decide (h.params.length < h.paramLen / 4)) then some { code := resParamFetch }
  else match (if opLists.contains op then firstBad op (listUnit op h) 0 h.edits else none) with
    | some i => some { code := resBadParam, detail2 := i }
    | none => if s.cmdAbsent op h then some { code := resAbsent } else none

/-! Targets (R301). -/

/-- The round a round command acts at, or its rejection. -/
def State.cmdTarget (s : State) (h : CmdHdr) : Nat ⊕ CmdRes :=
  let t := h.target.toNat
  if 2 ^ 48 ≤ t then .inr { code := resBadParam }
  else if s.ctl.round + 2 ≤ t then .inl t
  else if h.next then .inl (s.ctl.round + 2)
  else .inr { code := resLate }

/-! Writeback (R290, R295). -/

/-- The command's descriptor is written back: its last four words, OWN = 0 last, then the head and its shadow; LAST_INDEX
follows. DEDUCED, log entry 29. -/
def State.writebackCmd (s : State) (round : Nat) (r : CmdRes) (final : Bool) : State :=
  let i := s.fld (HIF_RING_INDEX.HEAD 0)
  let s := s.writeDesc 0 16 [Word.of round, Word.of (round / 2 ^ 32), Word.of r.word] (if final then 2 ^ 30 else 0)
  s.setFld HIF_CMD_STATUS.LAST_INDEX i

/-- A command completes at its processing. DEDUCED, log entry 29. -/
def State.finishCmd (s : State) (op : Nat) (h : CmdHdr) (r : CmdRes) : State :=
  let i := s.fld (HIF_RING_INDEX.HEAD 0)
  (s.writebackCmd 0 r true).complete op h.tag.toNat i 0 r

/-- A round command is accepted for a round. -/
def State.acceptCmd (s : State) (op : Nat) (h : CmdHdr) (round : Nat) : State :=
  let i := s.fld (HIF_RING_INDEX.HEAD 0)
  let s := s.writebackCmd round { code := resPending } false
  s.putHif { s.hif with cmds := s.hif.cmds ++ [{ opcode := op, hdr := h, index := i, round := round }] }

/-! The commit command (R80–R83, R90, R91). -/

/-- An outcome of the commit check is shown and reported. DEDUCED, log entry 41. -/
def State.showCommit (s : State) (r : CommitResult) : State :=
  let s := s.setNat LCH_COMMIT_STATUS.reg r.word
  let s := if r.reason = 0 then s.setFld LCH_CHECK_MARGIN.MIN_MARGIN r.margin else s
  (s.showConflict r.conflict).raiseEvent 14 r.word

/-- LCH_COMMIT is checked and, when it passes, its shadow is pending for a round. -/
def State.processCommit (s : State) (h : CmdHdr) (round : Nat) : State :=
  let r := s.checkCommit (some s.sch) s.sched.shadow
  let s := s.showCommit r
  if r.reason ≠ 0 then
    s.finishCmd opLchCommit h { code := resCommitFail, detail := r.reason, detail2 := bitAt r.transition 0 }
  else
    let s := s.completeWhere (fun c => c.opcode == opLchCommit) 0 { code := resSuperseded }
    let s := s.putSched { s.sched with pendingCfg := some s.sched.shadow }
    let s := s.setNat LCH_PENDING.reg (2 ^ 31 + round % 2 ^ 16)
    s.acceptCmd opLchCommit h round

/-! Commands that act when processed. -/

/-- The oldest command in progress with a tag, and the others. -/
def takeTag (tag : Nat) : List PendCmd → Option (PendCmd × List PendCmd)
  | [] => none
  | c :: cs => if c.hdr.tag.toNat = tag then some (c, cs) else (takeTag tag cs).map (fun (x, t) => (x, c :: t))

/-- CANCEL (R305). -/
def State.cancelCmd (s : State) (tag : Nat) : State × CmdRes :=
  match takeTag tag s.hif.cmds with
  | none => (s, { code := resNotFound })
  | some (c, cs) =>
    let s := s.putHif { s.hif with cmds := cs }
    let s := if c.opcode = opLchCommit then s.clearPending else s
    (s.completeCmd c 0 { code := resCancelled }, resDone true)

/-- EVR_MARK (R401): a host-mark record; without effect where the kind is disabled. -/
def State.evrMark (s : State) (code : Nat) : State × CmdRes :=
  (s.record recHostMark code, resDone (s.recEnabled recHostMark))

/-- An immediate command acts. -/
def State.actNow (s : State) (op : Nat) (h : CmdHdr) : State × CmdRes :=
  if op = opCancel then s.cancelCmd (h.inl % 2 ^ 16)
  else if op = opEvrMark then s.evrMark h.inl
  else if op = opLchWrite then
    ((s.putSched { s.sched with shadow := editShadow s.sched.shadow h.edits }), resDone true)
  else ((s.putSched { s.sched with shadow := s.sch }), resDone true)

/-! Processing (R300). -/

/-- Ring 0 is fetched: the device runs, the ring is enabled and not stalled, a descriptor is posted, and fewer than 256
commands are in progress. -/
def State.fetches (s : State) : Bool :=
  s.isRunning && s.ringOpen 0 && !(s.ring 0).posted.isEmpty && decide (s.hif.cmds.length < 256)

/-- The next descriptor of ring 0 is processed: `op` and `h` are what it spells (R294), with the parameter block it names; a row
that is not the command at the head of the ring has no effect. DEDUCED, log entry 27; DEDUCED, log entry 30. -/
def State.processCmd (s : State) (op : Nat) (h : CmdHdr) : State :=
  if !s.fetches then s
  else match (s.ring 0).posted with
    | [] => s
    | d :: _ =>
      if !d.own then (s.setFlag (HIF_RING_STATUS.STALLED 0) true).ringError 0 2
      else if !d.spells op h then s
      else match s.formatCheck op h with
        | some r => s.finishCmd op h r
        | none =>
          if opImmediate.contains op then
            let (t, r) := s.actNow op h
            t.finishCmd op h r
          else match s.cmdTarget h with
            | .inr r => s.finishCmd op h r
            | .inl round =>
              if s.ctl.stopPending then s.finishCmd op h { code := resStopped }
              else if op = opLchCommit then s.processCommit h round else s.acceptCmd op h round

/-! The rows of ring 0. -/

/-- NOP. -/
def execNop (h : CmdHdr) (s : State) : Host.Outcome State Fault Refusal := .next (s.processCmd opNop h)

/-- CANCEL (R305). -/
def execCancel (h : CmdHdr) (s : State) : Host.Outcome State Fault Refusal := .next (s.processCmd opCancel h)

/-- EVR_MARK (R401). -/
def execEvrMark (h : CmdHdr) (s : State) : Host.Outcome State Fault Refusal := .next (s.processCmd opEvrMark h)

/-- STOP (R304). -/
def execStopCommand (h : CmdHdr) (s : State) : Host.Outcome State Fault Refusal := .next (s.processCmd opStop h)

/-- LCH_WRITE (R90). -/
def execLchWrite (h : CmdHdr) (s : State) : Host.Outcome State Fault Refusal := .next (s.processCmd opLchWrite h)

/-- LCH_COMMIT (R90, R91). -/
def execLchCommit (h : CmdHdr) (s : State) : Host.Outcome State Fault Refusal := .next (s.processCmd opLchCommit h)

/-- LCH_SHADOW_RESET. -/
def execLchShadowReset (h : CmdHdr) (s : State) : Host.Outcome State Fault Refusal := .next (s.processCmd opLchShadowReset h)

/-- ZONE_SET (R104, R109). -/
def execZoneSet (h : CmdHdr) (s : State) : Host.Outcome State Fault Refusal := .next (s.processCmd opZoneSet h)

/-- PE_SET. -/
def execPeSet (h : CmdHdr) (s : State) : Host.Outcome State Fault Refusal := .next (s.processCmd opPeSet h)

/-- PORT_RESTORE (R69). -/
def execPortRestore (h : CmdHdr) (s : State) : Host.Outcome State Fault Refusal := .next (s.processCmd opPortRestore h)

/-- LF_REBASE (R126). -/
def execLfRebase (h : CmdHdr) (s : State) : Host.Outcome State Fault Refusal := .next (s.processCmd opLfRebase h)

/-- FLT_SET (R152). -/
def execFltSet (h : CmdHdr) (s : State) : Host.Outcome State Fault Refusal := .next (s.processCmd opFltSet h)

/-- BRL_SET (R163, R167). -/
def execBrlSet (h : CmdHdr) (s : State) : Host.Outcome State Fault Refusal := .next (s.processCmd opBrlSet h)

/-- REF_LOAD (R168). -/
def execRefLoad (h : CmdHdr) (s : State) : Host.Outcome State Fault Refusal := .next (s.processCmd opRefLoad h)

/-- REF_LEARN (R169). -/
def execRefLearn (h : CmdHdr) (s : State) : Host.Outcome State Fault Refusal := .next (s.processCmd opRefLearn h)

/-- BLT_SET (R202). -/
def execBltSet (h : CmdHdr) (s : State) : Host.Outcome State Fault Refusal := .next (s.processCmd opBltSet h)

/-- TRIM (R184). -/
def execTrim (h : CmdHdr) (s : State) : Host.Outcome State Fault Refusal := .next (s.processCmd opTrim h)

/-- TRG_SET (R209). -/
def execTrgSet (h : CmdHdr) (s : State) : Host.Outcome State Fault Refusal := .next (s.processCmd opTrgSet h)

/-- TRG_ARM (R209). -/
def execTrgArm (h : CmdHdr) (s : State) : Host.Outcome State Fault Refusal := .next (s.processCmd opTrgArm h)

/-- TRG_DISARM (R209). -/
def execTrgDisarm (h : CmdHdr) (s : State) : Host.Outcome State Fault Refusal := .next (s.processCmd opTrgDisarm h)

/-- DOUT_SET (R224). -/
def execDoutSet (h : CmdHdr) (s : State) : Host.Outcome State Fault Refusal := .next (s.processCmd opDoutSet h)

/-- DOUT_CLEAR (R224). -/
def execDoutClear (h : CmdHdr) (s : State) : Host.Outcome State Fault Refusal := .next (s.processCmd opDoutClear h)

/-- AC_START (R248). -/
def execAcStart (h : CmdHdr) (s : State) : Host.Outcome State Fault Refusal := .next (s.processCmd opAcStart h)

/-- AC_STOP (R248). -/
def execAcStop (h : CmdHdr) (s : State) : Host.Outcome State Fault Refusal := .next (s.processCmd opAcStop h)

/-- AC_CONFIG (R248, R254). -/
def execAcConfig (h : CmdHdr) (s : State) : Host.Outcome State Fault Refusal := .next (s.processCmd opAcConfig h)

/-- DMC_SET (R272). -/
def execDmcSet (h : CmdHdr) (s : State) : Host.Outcome State Fault Refusal := .next (s.processCmd opDmcSet h)

/-- AUX_SET (R355). -/
def execAuxSet (h : CmdHdr) (s : State) : Host.Outcome State Fault Refusal := .next (s.processCmd opAuxSet h)

/-- CMP_SET (chapter 13). -/
def execCmpSet (h : CmdHdr) (s : State) : Host.Outcome State Fault Refusal := .next (s.processCmd opCmpSet h)

/-- CAL_RUN (R437). -/
def execCalRun (h : CmdHdr) (s : State) : Host.Outcome State Fault Refusal := .next (s.processCmd opCalRun h)

/-- CAL_PIN (R441). -/
def execCalPin (h : CmdHdr) (s : State) : Host.Outcome State Fault Refusal := .next (s.processCmd opCalPin h)

/-- CAL_RESTORE (R441). -/
def execCalRestore (h : CmdHdr) (s : State) : Host.Outcome State Fault Refusal := .next (s.processCmd opCalRestore h)

/-- PAIR_SET (R364, R369). -/
def execPairSet (h : CmdHdr) (s : State) : Host.Outcome State Fault Refusal := .next (s.processCmd opPairSet h)

/-- FAILBACK (R375). -/
def execFailback (h : CmdHdr) (s : State) : Host.Outcome State Fault Refusal := .next (s.processCmd opFailback h)

/-- BAD_OPCODE_COMMAND (R309): a descriptor whose opcode R306 does not list. -/
def execBadOpcodeCommand (op : BitVec 8) (h : CmdHdr) (s : State) : Host.Outcome State Fault Refusal :=
  .next (if opAll.contains op.toNat then s else s.processCmd op.toNat h)

end Sys2Proof.Machine
end

