-- ==== Sys2Proof/Machine/CoreEvt.lean ====
section
/-!
DEFINITION. Events of the analysis cores outside their instructions: starting and stopping in SETUP, the feed, outputs and
transfers, the march tests and the fuse burn, and host accesses of their memories (R226–R263).
-/
namespace Sys2Proof.Machine

/-! START_NOW and STOP_NOW (R248). -/

/-- A write of ACRk_CTRL: RUN_AT_START by its type, then, in SETUP only, STOP_NOW and START_NOW. DEDUCED, log entry 21. -/
def State.writeAcrCtrl (s : State) (k : Nat) (w : Word) : State :=
  let s := s.storeWord (ACR_CTRL.reg k) w
  if s.ctl.dev ≠ .setup then s
  else
    let s := if (ACR_CTRL.STOP_NOW k).get w = 1 then s.beginStop k stopHost else s
    if (ACR_CTRL.START_NOW k).get w = 1 && s.canStart k then
      (s.startCore k (s.fld (ACR_ENTRY.ENTRY k))).clearCoreDeg k
    else s

/-- START_NOW (R248). -/
def execStartNow (k : Fin 16) (w : Word) (s : State) : Host.Outcome State Fault Refusal := .next (s.writeAcrCtrl k.val w)

/-- STOP_NOW (R248). -/
def execStopNow (k : Fin 16) (w : Word) (s : State) : Host.Outcome State Fault Refusal := .next (s.writeAcrCtrl k.val w)

/-! March tests and soft repair (R258–R262). -/

/-- An element of the march: address order (`up`: none for either), what each word is read as, and what is written to it: the
background, or with `true` its complement (R258). -/
structure MarchElement where
  up : Option Bool
  read : Option Bool
  write : Option Bool
  deriving DecidableEq, Repr

/-- March C−: elements M0–M5 (R258). -/
def marchElements : List MarchElement :=
  [⟨none, none, some false⟩, ⟨some true, some false, some true⟩, ⟨some true, some true, some false⟩,
   ⟨some false, some false, some true⟩, ⟨some false, some true, some false⟩, ⟨none, some false, none⟩]

/-- The eight data backgrounds of a stored word: the solid one, then those in which stored bit `i` is bit `j` of `i` (R258). -/
def marchBackground : Nat → BitVec 78
  | 0 => 0
  | j + 1 => BitVec.ofNat 78 ((List.range 78).foldl (fun n i => if bitOf i j then n + 2 ^ i else n) 0)

/-- A word of a background, or of its complement. -/
def marchWord (background : Nat) (inverted : Bool) : BitVec 78 :=
  if inverted then ~~~(marchBackground background) else marchBackground background

/-- The columns a read marks as failing: those of the bits that differ from the expected value; column 78w + i of word w of the
row and stored bit i (R258). -/
def MarchRead.failing (r : MarchRead) : List Nat :=
  match (marchElements[r.element.val]?).bind (·.read) with
  | none => []
  | some v =>
    let d := r.bits ^^^ marchWord r.background.val v
    ((List.range 78).filter (fun i => d.getLsbD i)).map (fun i => 78 * (r.word.val % 8) + i)

/-- Failing columns of array `a` of core `k`, each once. -/
def failsOf (reads : List MarchRead) (k a : Nat) : List Nat :=
  dedup ((reads.filter (fun r => decide (r.core.val = k) && decide (r.array.val = a))).flatMap MarchRead.failing)

/-- Field spares of an array that are free: state 0b00. -/
def State.freeSpares (s : State) (k a : Nat) : List Nat :=
  (if s.fld (ACR_SPM_REPAIR.STATE0 k a) = 0 then [0] else []) ++ (if s.fld (ACR_SPM_REPAIR.STATE1 k a) = 0 then [1] else [])

/-- Set a field spare's state and column. -/
def State.setSpare (s : State) (k a spare st col : Nat) : State :=
  if spare = 0 then (s.setFld (ACR_SPM_REPAIR.STATE0 k a) st).setFld (ACR_SPM_REPAIR.COL0 k a) col
  else (s.setFld (ACR_SPM_REPAIR.STATE1 k a) st).setFld (ACR_SPM_REPAIR.COL1 k a) col

/-- The fused spare that serves a failing column is marked replaced by a further spare. -/
def State.markReplaced (s : State) (k a col : Nat) : State :=
  if s.fld (ACR_SPM_REPAIR.STATE0 k a) = 2 ∧ s.fld (ACR_SPM_REPAIR.COL0 k a) = col then
    s.setFld (ACR_SPM_REPAIR.STATE0 k a) 3
  else if s.fld (ACR_SPM_REPAIR.STATE1 k a) = 2 ∧ s.fld (ACR_SPM_REPAIR.COL1 k a) = col then
    s.setFld (ACR_SPM_REPAIR.STATE1 k a) 3
  else s

/-- Assign free spares to failing columns. DEDUCED, log entry 91. -/
def State.assignSpares (s : State) (k a : Nat) : List Nat → List Nat → State
  | c :: cs, p :: ps => ((s.markReplaced k a c).setSpare k a p 1 c).assignSpares k a cs ps
  | _, _ => s

/-- SOFT and FUSED counts of a core from its spares. -/
def State.showSpares (s : State) (k : Nat) : State :=
  let cnt (p : Nat → Bool) (a : Nat) : Nat :=
    (if p (s.fld (ACR_SPM_REPAIR.STATE0 k a)) then 1 else 0) + (if p (s.fld (ACR_SPM_REPAIR.STATE1 k a)) then 1 else 0)
  let sum (p : Nat → Bool) : Nat := (List.range 4).foldl (fun m a => m + cnt p a * 2 ^ (2 * a)) 0
  (s.setFld (ACR_SPM_STATUS.SOFT k) (sum (fun x => x == 1))).setFld (ACR_SPM_STATUS.FUSED k) (sum (fun x => decide (2 ≤ x)))

/-- The contents of a repaired column are open after a preserving run: its bit of every row takes a free value (R261). A
check-bit column leaves the data as they are. UNVERIFIED, log entry 92. -/
def State.openColumn (s : State) (k a col : Nat) : State :=
  let i := col % 78
  if 64 ≤ i then s
  else
    let c := s.core k
    let addr (r : Nat) : Nat := a * 65536 + r * 64 + col / 78 * 8 + i / 8
    let spm := (List.range 1024).foldl (fun m r =>
      Memory.setByte 0 m (addr r)
        (BitVec.ofNat 8 (putBit (Memory.byte 0 m (addr r)).toNat (i % 8) (Config.free (s.freeCtr + r) % 2 == 1)))) c.spm
    (s.setCore k { c with spm := spm }).putFreeCtr (s.freeCtr + 1024)

/-- Soft repair of one array; answers whether it stays unrepaired (R261). DEDUCED, log entry 91; UNVERIFIED, log entry 92. -/
def State.repairArray (s : State) (k a : Nat) (preserving : Bool) (cols : List Nat) : State × Bool :=
  let spares := s.freeSpares k a
  if spares.length < cols.length then (s, true)
  else
    let s := s.assignSpares k a cols spares
    (if preserving then cols.foldl (fun s c => s.openColumn k a c) s else s, false)

/-- The end of a run on one core. DEDUCED, log entry 91; UNVERIFIED, log entry 92. -/
def State.marchCore (s : State) (preserving : Bool) (fs : List MarchRead) (k : Nat) : State :=
  let s := if preserving then s else s.setCore k { s.core k with spm := [], errs := [] }
  let (s, un) := (List.range 4).foldl (fun (p : State × Nat) a =>
    let (s, bad) := p.1.repairArray k a preserving (failsOf fs k a)
    (s, p.2 + bitAt bad a)) (s, 0)
  let s := s.showSpares k
  let s := s.setFld (ACR_SPM_STATUS.UNREPAIRED k) un
  let s := (s.setFlag (ACR_SPM_STATUS.LAST_PASS k) (un == 0)).setFlag (ACR_SPM_STATUS.SPM_FAIL k) (un != 0)
  (s.setFlag (ACR_SPM_STATUS.LAST_MODE k) preserving).setFlag (ACR_SPM_STATUS.MARCH_BUSY k) false

/-- BOOT_MARCH (R260): destructive on all scratchpads when enabled; step 0x2 follows. -/
def execBootMarch (reads : List MarchRead) (s : State) : Host.Outcome State Fault Refusal :=
  .next (
    if s.ctl.dev = .boot ∧ s.ctl.bootStep = 1 ∧ !s.supply.inReset then
      let s := if s.flag ACR_MARCH_BOOT.EN then (List.range 16).foldl (fun s k => s.marchCore false reads k) s else s
      s.putCtl { s.ctl with bootStep := 2 }
    else s)

/-- A write of ACR_MARCH_CTRL (R260). -/
def State.writeMarchCtrl (s : State) (w : Word) : State :=
  let s := s.storeWord ACR_MARCH_CTRL.reg w
  if ACR_MARCH_CTRL.START.get w = 0 || s.ctl.dev = .boot || s.flag ACR_MARCH_STATUS.BUSY then s
  else
    let want := bitsOf 16 (s.fld ACR_MARCH_CTRL.CORE_MASK)
    let run := want.filter (fun k => (s.core k).idle)
    let skip := want.filter (fun k => !(s.core k).idle)
    let s := run.foldl (fun s k => s.setFlag (ACR_SPM_STATUS.MARCH_BUSY k) true) s
    let s := s.setNat ACR_MARCH_STATUS.reg (2 ^ 31 + skip.foldl (fun m k => m + 2 ^ k) 0)
    s.putMarchMode (s.flag ACR_MARCH_CTRL.MODE)

/-- MARCH_START (R260). -/
def execMarchStart (w : Word) (s : State) : Host.Outcome State Fault Refusal := .next (s.writeMarchCtrl w)

/-- MARCH_COMPLETE (R261). DEDUCED, log entry 5. -/
def execMarchComplete (reads : List MarchRead) (s : State) : Host.Outcome State Fault Refusal :=
  .next (
    if s.flag ACR_MARCH_STATUS.BUSY then
      let run := (List.range 16).filter (fun k => s.marchBusy k)
      let s := run.foldl (fun s k => s.marchCore s.marchMode reads k) s
      let s := s.setFlag ACR_MARCH_STATUS.BUSY false
      s.raiseEvent 41 (run.foldl (fun m k => m + 2 ^ k) 0)
    else s)

/-! Fuses (R262, R263). -/

/-- Soft assignments of a core, as array and spare, in order. -/
def State.softSpares (s : State) (k : Nat) : List (Nat × Nat) :=
  (List.range 4).flatMap (fun a =>
    (if s.fld (ACR_SPM_REPAIR.STATE0 k a) = 1 then [(a, 0)] else []) ++
    (if s.fld (ACR_SPM_REPAIR.STATE1 k a) = 1 then [(a, 1)] else []))

/-- The column of a field spare. -/
def State.spareCol (s : State) (k a spare : Nat) : Nat :=
  if spare = 0 then s.fld (ACR_SPM_REPAIR.COL0 k a) else s.fld (ACR_SPM_REPAIR.COL1 k a)

/-- A fused assignment comes into the registers: spare 0 reads replaced where spare 1 serves the same column. -/
def State.showFused (s : State) (k a : Nat) : State :=
  if s.fld (ACR_SPM_REPAIR.STATE0 k a) = 2 ∧ 2 ≤ s.fld (ACR_SPM_REPAIR.STATE1 k a) ∧
      s.spareCol k a 0 = s.spareCol k a 1 then s.setFld (ACR_SPM_REPAIR.STATE0 k a) 3
  else s

/-- Burn one soft assignment. DEDUCED, log entry 91. -/
def State.burnOne (s : State) (k : Nat) (p : Nat × Nat) : State :=
  let col := s.spareCol k p.1 p.2
  let s := s.setSpare k p.1 p.2 2 col
  (s.showFused k p.1).putFuses (s.fuses ++ [⟨k, p.1, p.2, col⟩])

/-- One fused assignment loads: a field spare comes into the registers, a factory spare into force. -/
def State.loadFuse (s : State) (f : Fuse) : State :=
  if f.spare < 2 then (s.setSpare f.core f.array f.spare 2 f.column).showFused f.core f.array
  else s.setCore f.core { s.core f.core with factory := (s.core f.core).factory ++ [(f.array, f.spare, f.column)] }

/-- All fused assignments load (R262). -/
def State.loadFuses (s : State) : State :=
  let s := s.fuses.foldl (fun s f => s.loadFuse f) s
  (List.range 16).foldl (fun s k => s.showSpares k) s

/-- Finish a burn after `n` columns. DEDUCED, log entry 91. -/
def State.endBurn (s : State) (k n : Nat) (fail : Bool) : State :=
  let s := (((s.softSpares k).take n).foldl (fun s p => s.burnOne k p) s).showSpares k
  (s.setNat ACR_FUSE_STATUS.reg (bitAt fail 30 + n % 16)).putBurn none

/-- A write of ACR_FUSE_CTRL (R263). -/
def State.writeFuseCtrl (s : State) (w : Word) : State :=
  if ACR_FUSE_CTRL.BURN.get w = 1 && ACR_FUSE_CTRL.KEY.get w == 0xA7 && s.ctl.dev == .setup && s.burn.isNone then
    (s.setNat ACR_FUSE_STATUS.reg (2 ^ 31)).putBurn (some (ACR_FUSE_CTRL.CORE.get w))
  else s

/-- FUSE_BURN (R263). -/
def execFuseBurn (w : Word) (s : State) : Host.Outcome State Fault Refusal := .next (s.writeFuseCtrl w)

/-- FUSE_BURN_COMPLETE (R263). -/
def execFuseBurnComplete (s : State) : Host.Outcome State Fault Refusal :=
  .next (
    match s.burn with
    | none => s
    | some k => (s.endBurn k (s.softSpares k).length false).raiseEvent 41 (2 ^ 31 + 2 ^ k))

/-- Every scratchpad word is written 0 with valid check bits (R257). -/
def State.zeroSpads (s : State) : State :=
  (List.range 16).foldl (fun s k => s.setCore k { s.core k with spm := [], errs := [] }) s

/-- A burn is abandoned after `n` columns by EV56 (R263). -/
def State.abandonBurn (s : State) (n : Nat) : State :=
  match s.burn with
  | none => s
  | some k => s.endBurn k (min n ((s.softSpares k).length - 1)) true

/-! Host accesses (R227, R256, R260). -/

/-- The core memory at a BAR0 offset: core, whether scratchpad, and the byte address in it. -/
def coreWindow (off : Nat) : Option (Nat × Bool × Nat) :=
  if 0x160000 ≤ off ∧ off < 0x180000 then some ((off - 0x160000) / 0x2000, false, (off - 0x160000) % 0x2000)
  else if 0x400000 ≤ off ∧ off < 0x800000 then some ((off - 0x400000) / 0x40000, true, (off - 0x400000) % 0x40000)
  else none

/-- An aligned 32-bit access of a core's program memory or scratchpad (R227). `write`: the word written; `ups`: upsets of the
scratchpad. An uncorrectable read returns the stored data (R256). -/
def State.hostMem (s : State) (off : Nat) (write : Option Word) (ups : Upsets) : State :=
  match coreWindow off with
  | none => s
  | some (k, spm, a) =>
    let s := s.upset k ups
    let c := s.core k
    let a := a / 4 * 4
    if !c.idle || (spm && s.marchBusy k) then
      let s := s.bump (ACR_HOST_REJECT_COUNT.reg k)
      if write.isSome then s else s.putRdData 0
    else match write with
      | some w =>
        s.setCore k (if spm then { c.clean a 4 with spm := Memory.writeLE 0 c.spm a 4 w.toNat }
                     else { c with pmem := SMap.put (fun _ => 0) c.pmem (a / 4) w })
      | none =>
        if spm then
          let (s, bad) := s.spmCheck k 4 a 4
          let flips := if bad then (SMap.get (fun _ => 0) c.errs (a / 4)).setWidth 32 else 0
          s.putRdData (Word.of (Memory.readLE 0 c.spm a 4) ^^^ flips)
        else s.putRdData (c.insn (a / 4))

/-- HOST_MEM_ACCESS (R227). DEDUCED, log entry 9. -/
def execHostMemAccess (off : Nat) (write : Option Word) (ups : Upsets) (s : State) : Host.Outcome State Fault Refusal :=
  .next (s.hostMem off write ups)

/-! The feed, outputs and transfers (R244–R248, R255). -/

/-- A staged frame of core `k` has a free slot (R244): the DMA's first work (R252). -/
def State.feedDue (s : State) (k : Nat) : Bool :=
  let c := s.core k
  c.staging != [] && c.live && decide (c.ready.length + c.held.length < s.fld (ACR_SLOT_INFO.SLOTS_USED k))

/-- The DMA of core `k` has work (R255). -/
def State.dmaWork (s : State) (k : Nat) : Bool := s.feedDue k || (s.core k).outQ != [] || (s.core k).dmaQ != []

/-- FEED_SLOT_READY (R244): the oldest staged frame of core `k` is fully written into the next free slot, with the frames
dropped before it in its DROPPED field, and becomes ready; a core held in WAITF takes it. -/
def execFeedSlotReady (k : Fin 16) (s : State) : Host.Outcome State Fault Refusal :=
  .next (
    let c := s.core k.val
    match c.staging with
    | [] => s
    | f :: fs =>
      let used := s.fld (ACR_SLOT_INFO.SLOTS_USED k.val)
      if !s.feedDue k.val then s
      else
        let bytes := f.take 36 ++ leBytes 4 (satNat 32 c.dropped) ++ f.drop 40
        let slot := c.nextSlot % used
        let s := s.setCore k.val { c.clean (s.slotAddr k.val slot) bytes.length with
          spm := Memory.setBytes 0 c.spm (s.slotAddr k.val slot) bytes, staging := fs, dropped := 0,
          ready := c.ready ++ [slot], nextSlot := (slot + 1) % used }
        (s.bump (ACR_FEED_COUNT.reg k.val)).wake k.val)

/-- Product header bytes of a core-output block (chapter 13). -/
def coreOutHeader (k seq time : Nat) : List Byte := leBytes 1 k ++ zeroBytes 3 ++ leBytes 4 seq ++ leBytes 8 time

/-- CORE_OUT_BLOCK (R245): the DMA reads the oldest queued output block, once no feed slot and no transfer is due before it
(R252); `ups`: upsets of the scratchpad. A block with an uncorrectable error, or queued while OUT_CFG.EN was 0, is discarded, and
the sequence number advances. DEDUCED, log entry 127. -/
def execCoreOutBlock (k : Fin 16) (ups : Upsets) (s : State) : Host.Outcome State Fault Refusal :=
  .next (
    let s := s.upset k.val ups
    let c := s.core k.val
    match c.outQ with
    | [] => s
    | b :: bs =>
      if s.feedDue k.val || c.dmaQ != [] then s
      else
        let s := s.setCore k.val { c with outQ := bs, outSeq := (c.outSeq + 1) % 2 ^ 32 }
        let (s, bad) := s.spmCheck k.val 2 b.addr b.len
        let data := pad8 (Memory.bytes 0 c.spm b.addr b.len)
        let blk : Block := { ring := 24 + s.fld (ACR_OUT_CFG.RING k.val), kind := 0x0F, core := some k.val,
                             hdr := coreOutHeader k.val c.outSeq b.time, payload := data, stream := data }
        (if bad || !b.en then s.loseBlock blk else (s.sendBlock blk).1).wake k.val)

/-- CORE_DMA_COMPLETE (R246): the oldest transfer completes, once no feed slot is due before it (R252). `ups`, `dups`:
upsets of the scratchpad and of the DRAM; `late`: it waited over 100 µs (R268). DEDUCED, log entry 127. -/
def execCoreDmaComplete (k : Fin 16) (ups : Upsets) (dups : DramUpsets) (late : Bool) (s : State) :
    Host.Outcome State Fault Refusal :=
  .next (
    let s := (s.upset k.val ups).dramUpset dups
    let c := s.core k.val
    match c.dmaQ with
    | [] => s
    | x :: xs =>
      if !s.dramServes then s.failXfers k.val
      else if s.feedDue k.val then s
      else
        let base := s.fld (ACR_DRAM.BASE_MIB k.val) * 2 ^ 20 + x.dram
        let s := if late then s.bump (DMC_CLIENT_OVERRUN_COUNT.reg 3) else s
        if x.write then
          let (s, bad) := s.spmCheck k.val 3 x.spm x.len
          let c := s.core k.val
          let c := { c with dmaQ := xs }
          let s := if bad then s.setCore k.val (c.raise flagDfail)
            else (s.setCore k.val c).setDram base (Memory.bytes 0 c.spm x.spm x.len)
          s.wake k.val
        else
          let (s, ok) := s.dramRead 3 base x.len
          if !ok then s
          else
            let c := s.core k.val
            (s.setCore k.val { c.clean x.spm x.len with dmaQ := xs, spm := Memory.setBytes 0 c.spm x.spm (s.dramBytes base x.len) }).wake k.val)

/-- CORE_DMA_ABANDON (R248): transfers still queued 100 µs after a stop complete at once without moving data. -/
def execCoreDmaAbandon (k : Fin 16) (s : State) : Host.Outcome State Fault Refusal :=
  .next (if (s.core k.val).stopping.isSome then s.failXfers k.val else s)

/-- CORE_STOP_COMPLETE (R248). -/
def execCoreStopComplete (k : Fin 16) (s : State) : Host.Outcome State Fault Refusal := .next (s.finishStop k.val)

/-- CORE_WATCHDOG (R250): a core held in WAITF never trips it. -/
def execCoreWatchdog (k : Fin 16) (s : State) : Host.Outcome State Fault Refusal :=
  .next (
    let c := s.core k.val
    if c.live && c.wait != 1 && s.fld (ACR_WDOG.WDOG_US k.val) != 0 then
      s.coreFault k.val faultWdog c.pc.toNat (c.insn c.pc.toNat)
    else s)

/-- AC_DMA_STARVE (R255): a run of `run` consecutive waiting cycles of core `k`'s DMA has ended: the core executes, and the DMA has
work. -/
def execAcDmaStarve (k : Fin 16) (run : Nat) (s : State) : Host.Outcome State Fault Refusal :=
  .next (
    let lim := s.fld (ACR_SPM_CFG.STARVE_LIMIT k.val)
    if !(s.core k.val).executes || !s.dmaWork k.val then s else
    let s := s.setNat (ACR_STARVE_MAX.reg k.val) (max (s.reg (ACR_STARVE_MAX.reg k.val)).toNat (satNat 32 run))
    if lim != 0 && decide (lim ≤ run) then (s.bump (ACR_STARVE_COUNT.reg k.val)).raiseEvent 43 k.val else s)

end Sys2Proof.Machine
end

