-- ==== Sys2Proof/Machine/SafetyRows.lean ====
section
/-!
DEFINITION. Commands of the scorekeeper, the event recorder and the output drivers (R379–R408, R450, R451).
-/
namespace Sys2Proof.Machine

/-! The safety configuration (R385). -/

/-- Offsets of the safety configuration, ascending; the diagnostics are 0x00–0x1A of R387. DEDUCED, log entry 19; DEDUCED, log
entry 97. -/
def State.safetyOffsets (s : State) : List Nat :=
  let ports := (List.range s.ports).filter (fun n => (s.chanPorts 0).contains n || (s.chanPorts 1).contains n)
  let units := (List.range 16).filter (fun u => (s.chanUnits 0).contains u || (s.chanUnits 1).contains u)
  ports.flatMap (fun n => [PRT_INTEG_CFG.reg n, PRT_INTEG_END.reg n])
    ++ units.flatMap (fun u => [TRGU_CFG.reg u, TRGU_SRC.reg u, TRGU_SRC_RANGE.reg u, TRGU_LEVEL.reg u, TRGU_HYST.reg u])
    ++ [SAF_CFG.reg, SAF_CHAN_CFG.reg 0, SAF_CHAN_HOLD.reg 0, SAF_CHAN_CFG.reg 1, SAF_CHAN_HOLD.reg 1]
    ++ (List.range 27).map SAF_DIAG_CFG.reg

/-- The CRC of the safety configuration is computed; CRC_BAD follows from it. DEDUCED, log entry 97. -/
def State.safetyCrc (s : State) : State :=
  let crc := crc32c (s.safetyOffsets.flatMap (fun o => leBytes 4 (s.reg o).toNat))
  s.setReg SAF_CFG_CRC_CALC.reg crc

/-! Acknowledgement, pin test and pins (R380–R383). -/

/-- A cause is present on a channel (R380). -/
def State.causePresent (s : State) (c : Nat) : Bool :=
  (s.chan c).brk.isSome ||
    (s.chanUnits c).any (fun u => bitOf s.saf.fireHeld.toNat u || bitOf s.saf.shadowHeld.toNat u)

/-- Acknowledge one channel. -/
def State.ackChan (s : State) (c : Nat) : State :=
  if s.causePresent c then s else s.setChan c { s.chan c with latched := false }

/-- A write of SAF_ACK. -/
def State.writeSafAck (s : State) (w : Word) : State :=
  if SAF_ACK.KEY.get w ≠ 0x5A then s
  else
    let s := if SAF_ACK.CH0.get w = 1 then s.ackChan 0 else s
    (if SAF_ACK.CH1.get w = 1 then s.ackChan 1 else s).settle

/-- SAF_ACK (R380). -/
def execSafAck (w : Word) (s : State) : Host.Outcome State Fault Refusal := .next (s.writeSafAck w)

/-- Test one pin. -/
def State.testPin (s : State) (c : Nat) : State :=
  (s.setChan c { s.chan c with testing := true, testAt := s.time, pin := false }).degradedRecord c 6 0

/-- A write of SAF_PIN_TEST. -/
def State.writeSafPinTest (s : State) (w : Word) : State :=
  if SAF_PIN_TEST.KEY.get w ≠ 0x3C || !s.isRunning then s
  else
    let s := if SAF_PIN_TEST.PIN_A.get w = 1 then s.testPin 0 else s
    (if SAF_PIN_TEST.PIN_B.get w = 1 then s.testPin 1 else s).settle

/-- SAF_PIN_TEST (R383). -/
def execSafPinTest (w : Word) (s : State) : Host.Outcome State Fault Refusal := .next (s.writeSafPinTest w)

/-- The test of channel `c` is among the tests that end first. -/
def State.testEnds (s : State) (c : Nat) : Bool :=
  (s.chan c).testing && (!(s.chan (1 - c)).testing || decide ((s.chan c).testAt ≤ (s.chan (1 - c)).testAt))

/-- End the test of channel `c`, when it is due. -/
def State.endTest (s : State) (due : Bool) (c : Nat) : State := if due then s.setChan c { s.chan c with testing := false } else s

/-- PIN_TEST_END (R383): the 10 ms of the earliest test under way, or of both that started together, end; a pin is driven
again at its PIN_REDRIVE. DEDUCED, log entry 50. -/
def execPinTestEnd (s : State) : Host.Outcome State Fault Refusal :=
  .next (((s.endTest (s.testEnds 0) 0).endTest (s.testEnds 1) 1).settle)

/-- PIN_REDRIVE (R382): 1 ms after its release conditions ended the pin of channel `c` is driven. DEDUCED, log entry 50. -/
def execPinRedrive (c : Fin 2) (s : State) : Host.Outcome State Fault Refusal :=
  .next (if s.pinRelease c.val then s else s.setChan c.val { s.chan c.val with pin := true })

/-- ALARM_HOLD_EXPIRY (R380). DEDUCED, log entry 50. -/
def execAlarmHoldExpiry (c : Fin 2) (s : State) : Host.Outcome State Fault Refusal :=
  .next ((s.setChan c.val { s.chan c.val with holding := false }).settle)

/-- SCOREKEEPER_TOGGLE_LOSS (R379): the drive stage releases both pins. -/
def execScorekeeperToggleLoss (s : State) : Host.Outcome State Fault Refusal :=
  let s := s.putSaf { s.saf with toggle := false }
  .next ((s.setChan 0 { s.chan 0 with pin := false }).setChan 1 { s.chan 1 with pin := false })

/-- PIN_READBACK (R451): checked for a channel in use, in RUNNING and DEGRADED. DEDUCED, log entry 98. -/
def execPinReadback (c : Fin 2) (s : State) : Host.Outcome State Fault Refusal :=
  .next (if s.flag (SAF_CHAN_CFG.EN c.val) && s.isRunning then s.diagEvent 0x19 15 else s)

/-- An output driver: DOUT0–DOUT3, then HEALTHY_A and HEALTHY_B, limited or not (R450). -/
def State.setLimited (s : State) (o : Nat) (b : Bool) : State :=
  if o < 4 then s.setDout o { s.dout o with limited := b } else s.setChan (o - 4) { s.chan (o - 4) with limited := b }

/-- CURRENT_LIMIT (R450). DEDUCED, log entry 98. -/
def execCurrentLimit (o : Fin 6) (s : State) : Host.Outcome State Fault Refusal := .next (s.setLimited o.val true)

/-- CURRENT_LIMIT_RETRY (R450). DEDUCED, log entry 98. -/
def execCurrentLimitRetry (o : Fin 6) (s : State) : Host.Outcome State Fault Refusal := .next (s.setLimited o.val false)

/-! Known-answer tests (R388, R389). -/

/-- KAT_START: the port has a turn-table entry and the device runs. The pattern is the round number mod 16. The test sets the receiver:
code 7, and an LO that R388 does not name (R95). UNVERIFIED, log entry 119. -/
def execKatStart (n : Fin 12) (s : State) : Host.Outcome State Fault Refusal :=
  .next (
    if s.isRunning && (schedCfg s.regs).portEntries n.val != [] then
      let x := s.port n.val
      let lo := s.freeVal % 2 == 1
      let s := s.drawFree.setPort n.val { x with rx := { x.rx with loB := lo, tia := 7 } }
      s.putSaf { s.saf with
        kat := BitVec.ofNat 12 (putBit s.saf.kat.toNat n.val true)
        katPattern := SMap.put (fun _ => 0) s.saf.katPattern n.val (s.ctl.round % 16) }
    else s)

/-- KAT_RESULT: `crc`, the CRC-32C of the results of port `n`'s test, is compared with the one the ROM expects of its pattern.
UNVERIFIED, log entry 130. -/
def execKatResult (n : Fin 12) (crc : Word) (s : State) : Host.Outcome State Fault Refusal :=
  .next (
    if !bitOf s.saf.kat.toNat n.val then s
    else
      let pass := crc == Config.katCrc (SMap.get (fun _ => 0) s.saf.katPattern n.val)
      let s := s.putSaf { s.saf with kat := BitVec.ofNat 12 (putBit s.saf.kat.toNat n.val false) }
      let s := s.bump SAF_KAT_COUNT.reg
      if pass then s
      else
        let s := s.setFld SAF_KAT_FAIL.PORTS (putBit (s.fld SAF_KAT_FAIL.PORTS) n.val true)
        (s.portFault n.val 4).diagEvent 0x0A n.val)

/-! Diagnostics (R387, R393). -/

/-- LOCKSTEP_MISMATCH. -/
def execLockstepMismatch (s : State) : Host.Outcome State Fault Refusal := .next (s.diagEvent 0x0E 15)

/-- CLOCK_FAULT. -/
def execClockFault (s : State) : Host.Outcome State Fault Refusal := .next (s.diagEvent 0x10 15)

/-- SAFETY_SWEEP: what the sweep finds: the scorekeeper's self-test, a configuration memory that differs from its CRC, port
memories with an uncorrectable error, and a difference of the time base. -/
def execSafetySweep (selfTestOk configBad : Bool) (portMem : BitVec 12) (timeBad : Bool) (s : State) :
    Host.Outcome State Fault Refusal :=
  .next (
    let s := s.setFlag SAF_STATUS.SK_OK selfTestOk
    let s := if selfTestOk then s else s.diagEvent 0x0F 15
    let s := if configBad then s.diagEvent 0x0D 15 else s
    let s := (bitsOf s.ports portMem.toNat).foldl (fun s n => s.diagEvent 0x0B n) s
    if timeBad then s.diagEvent 0x12 15 else s)

/-- DIAG_WINDOW_EXPIRY (R393). -/
def execDiagWindowExpiry (d : Fin 27) (s : State) : Host.Outcome State Fault Refusal :=
  .next (
    if diagReaction d.val = 0 && decide (s.inWindow d.val 15 < s.diagN d.val) then
      s.setDiag d.val 15 { s.diag d.val 15 with lasting := false }
    else s)

/-! The event recorder (R404, R407). -/

/-- EVR_RECORD_WRITE (R404): `fail`: bytes 8–255 of the slot as the memory holds them where the read-back does not
verify. -/
def execEvrRecordWrite (fail : Option (List Byte)) (s : State) : Host.Outcome State Fault Refusal :=
  .next (
    let (s, bad) := s.writeRecord fail
    if bad then s.diagEvent 0x1A 15 else s)

/-- EVR_OP_SAVE (R407). -/
def execEvrOpSave (s : State) : Host.Outcome State Fault Refusal :=
  .next (s.putEvr { s.evr with opStored := s.opSeconds })

end Sys2Proof.Machine
end

