-- ==== Sys2Proof/Machine/Supply.lean ====
section
/-!
DEFINITION. Supplies, resets, the PCI Express function, the laser and cooler, and the steps of BOOT before the image and
after it (R27–R29, R37–R42, R281–R283, R411–R425).
-/
namespace Sys2Proof.Machine

/-! Resets (R28, R411–R418). -/

/-- Registers of the VAUX domain (R185, R260, GLB_RESET_CAUSE). DEDUCED, log entry 22. -/
def vauxRegs : List Nat := [GLB_RESET_CAUSE.reg, ACR_MARCH_BOOT.reg, TMB_GRID_LO.reg, TMB_GRID_HI.reg]

/-- The whole device but the VAUX domain goes to reset; what the flash, the fuses and the memory of the recorder hold stays,
and so do the commands waiting (R28, R417). DEDUCED, log entry 22; DEDUCED, log entry 104. -/
def State.deviceReset (s : State) : State :=
  let r : State := {
    part := s.part
    time := s.time
    supply := { s.supply with inReset := true }
    evr := s.evr
    fuses := s.fuses
    marchDefault := s.marchDefault
    flash := s.flash
    factoryTrim := s.factoryTrim
    sent := s.sent
    freeCtr := s.freeCtr
    pending := s.pending
    tmb := { target := s.factoryTrim } }
  (vauxRegs.foldl (fun r o => r.setReg o (s.reg o)) r).setFldInt TMB_TRIM_USED.USED s.factoryTrim

/-- A reset of the causes of R417 but POWER_ON: `detail` holds the rail, die and over-voltage bits. Several causes within 10
µs keep the first in the order of R417 (R418). DEDUCED, log entry 22. -/
def State.resetBy (s : State) (cause detail : Nat) : State :=
  if !s.supply.vauxUp then s
  else
    let old := (s.reg GLB_RESET_CAUSE.reg).toNat
    let again := s.supply.inReset && decide (s.time - s.supply.causeAt ≤ 10 * ticksPerUs)
    let word :=
      if again then (if cause < old % 16 then detail + old / 16 % 16 * 16 + cause else old)
      else detail + old % 16 * 16 + cause
    let s := s.deviceReset
    let s := if again then s else s.putSupply { s.supply with causeAt := s.time }
    s.setNat GLB_RESET_CAUSE.reg word

/-- POWER_ON (R20, R407, R411): the VAUX domain starts. DEDUCED, log entry 104. -/
def execPowerOn (s : State) : Host.Outcome State Fault Refusal :=
  .next (
    if s.supply.vauxUp then s
    else
      let s := (s.putTime 0).putSupply { s.supply with vauxUp := true, causeAt := 0 }
      let e := s.evr
      let head := e.scan
      let s := s.deviceReset
      let s := s.putEvr { e with
        cycles := e.cycles + 1, opBase := e.opStored, head := head, nextSeq := max e.nextSeq (head + 1), queue := [] }
      let s := s.setNat GLB_RESET_CAUSE.reg 1
      (s.setReg64 TMB_GRID_LO.reg 0).setFlag ACR_MARCH_BOOT.EN s.marchDefault)

/-- VAUX_LOSS (R411): the VAUX domain stops, its queue is lost, and the device is reset. DEDUCED, log entry 104. -/
def execVauxLoss (s : State) : Host.Outcome State Fault Refusal :=
  .next (
    let s := s.deviceReset
    ((s.putSupply { s.supply with vauxUp := false }).putEvr { s.evr with queue := [] }))

/-- RESET_RELEASE (R411, R423): BOOT begins at step 0x0. -/
def execResetRelease (s : State) : Host.Outcome State Fault Refusal :=
  .next (
    if s.supply.vauxUp && s.supply.inReset then
      s.putSupply { s.supply with inReset := false, releasedAt := s.time }
    else s)

/-- VIN_UV (R412). -/
def execVinUv (s : State) : Host.Outcome State Fault Refusal := .next (s.resetBy 2 0)

/-- VIN_OV (R412). -/
def execVinOv (s : State) : Host.Outcome State Fault Refusal := .next (s.resetBy 3 0)

/-- The dies at which a rail is supervised (R416). -/
def railDies : List (Nat × List Nat) :=
  [(0x14, [4]), (0x15, [4, 2, 3, 7]), (0x16, [5, 6, 4]), (0x17, [5, 6, 4]), (0x18, [5, 6, 4]), (0x19, [2]), (0x1A, [3]),
    (0x1B, [0, 1]), (0x1C, [7])]

/-- A supervisor of the rail stands at the die: on the WV2406 those of VANA_B and of DRAM die 1 are absent (R416). -/
def Part.supervises (p : Part) (rail die : Nat) : Bool :=
  ((railDies.find? (fun r => r.1 == rail)).any (fun r => r.2.contains die)) && !(p == .wv2406 && (rail == 0x1A || die == 6))

/-- RAIL_FAULT (R416): rail and die codes, and whether it was an over-voltage. A rail has no supervisor at another die. -/
def execRailFault (rail : Fin 256) (die : Fin 8) (ov : Bool) (s : State) : Host.Outcome State Fault Refusal :=
  .next (if s.part.supervises rail.val die.val then s.resetBy 4 (bitAt ov 20 + rail.val * 2 ^ 12 + die.val * 2 ^ 8) else s)

/-- THERMAL_SHUTDOWN (R420). -/
def execThermalShutdown (die : Fin 8) (s : State) : Host.Outcome State Fault Refusal := .next (s.resetBy 5 (die.val * 2 ^ 8))

/-- PERST_N (R281, R417). -/
def execPerstN (s : State) : Host.Outcome State Fault Refusal := .next (s.resetBy 6 0)

/-! The supply warning (R412, R414, R432). -/

/-- VIN_WARNING: `vin` in mV; `burnt`: columns of a fuse burn in progress that are done (R263). DEDUCED, log entry 39. -/
def execVinWarning (vin : BitVec 16) (burnt : Nat) (s : State) : Host.Outcome State Fault Refusal :=
  .next (
    if s.flag PWR_STATUS.VIN_WARN then s
    else
      let pumps := s.flag PWR_CFG.SHED_PUMPS
      let shed := pumps || s.flag PWR_CFG.SHED_TEC
      let detail := vin.toNat + bitAt shed 16
      let s := s.raiseEvent 56 detail
      let s := ((s.setFlag PWR_STATUS.VIN_WARN true).setFlag PWR_STATUS.WARN_SEEN true).bump PWR_WARN_COUNT.reg
      let s := s.record recPwrWarn detail
      let s := s.setFlag PWR_STATUS.SHED shed
      let s := if pumps then ((s.setGate false).putSrc { (s.setGate false).src with shed := true }) else s
      s.abandonBurn burnt)

/-- VIN_WARNING_CLEAR: the cooler resumes at once; the pumps resume at the next round start, and in SETUP, where no round
runs, at once. DEDUCED, log entry 39. -/
def execVinWarningClear (s : State) : Host.Outcome State Fault Refusal :=
  .next (
    if !s.flag PWR_STATUS.VIN_WARN then s
    else
      let s := (s.setFlag PWR_STATUS.VIN_WARN false).setFlag PWR_STATUS.SHED false
      if s.ctl.dev = .setup then ((s.setGate true).putSrc { (s.setGate true).src with shed := false }) else s)

/-! The PCI Express function (R279, R281, R283). -/

/-- Vendor ID and class code (R279); the Device ID is `Part.code`. -/
def vendorId : Nat := 0x1DA1
def classCode : Nat := 0x118000

/-- Hot reset and function level reset: the function with its configuration space, the HIF and DBL registers and the rings. Commands processed before stay
in progress (R281). DEDUCED, log entry 23. -/
def State.functionReset (s : State) : State :=
  (s.putRegs (s.regs.filter (fun e => decide (e.1 < 0x190000) || decide (0x1B0000 ≤ e.1)))).putHif
    { cmds := s.hif.cmds, out := s.hif.out }

/-- HOT_RESET (R281). DEDUCED, log entry 23. -/
def execHotReset (s : State) : Host.Outcome State Fault Refusal := .next s.functionReset

/-- FUNCTION_LEVEL_RESET (R281). DEDUCED, log entry 23. -/
def execFunctionLevelReset (s : State) : Host.Outcome State Fault Refusal := .next s.functionReset

/-- D3HOT_ENTRY (R283). DEDUCED, log entry 23. -/
def execD3hotEntry (s : State) : Host.Outcome State Fault Refusal := .next (s.putHif { s.hif with d3hot := true })

/-- D0_RETURN (R283): every ring's head shadow is written, and pending vectors are sent, subject to R314. DEDUCED, log entry
23. -/
def execD0Return (s : State) : Host.Outcome State Fault Refusal :=
  .next (
    if !s.hif.d3hot then s
    else
      let s := s.putHif { s.hif with d3hot := false }
      let s := (List.range 32).foldl (fun s r => s.writeShadow r) s
      (List.range 32).foldl (fun s v =>
        if s.hif.vecPend.getLsbD v && !s.hif.vecHold.getLsbD v && !s.vecMasked v then s.sendVec v else s) s)

/-- PCIE_LINK_CHANGE (R424): negotiated lanes and speed; both read 0 while the link is not active. DEDUCED, log entry 23;
DESIGN CHOICE, log entry 105. -/
def execPcieLinkChange (width speed : Fin 16) (s : State) : Host.Outcome State Fault Refusal :=
  .next ((s.setFld HIF_LINK.WIDTH width.val).setFld HIF_LINK.SPEED (if width.val = 0 then 0 else speed.val))

/-! Laser and cooler (R37–R42, R59). -/

/-- Step `n` of BOOT, or of a resume under R425, is in progress. -/
def State.atStep (s : State) (n : Nat) : Bool :=
  !s.supply.inReset && (s.ctl.dev == .boot || s.ctl.dev == .setup && s.flag GLB_BOOT_STATUS.RESUMING) && s.ctl.bootStep == n

/-- Go on to step `n`. -/
def State.toStep (s : State) (n : Nat) : State := s.putCtl { s.ctl with bootStep := n }

/-- BOOT ends: BOOT_MS is the time since the release of reset (R423). DESIGN CHOICE, log entry 45. -/
def State.bootEnd (s : State) : State :=
  if s.ctl.dev = .boot then s.setFld GLB_BOOT_STATUS.BOOT_MS (satNat 24 ((s.time - s.supply.releasedAt) / ticksPerMs)) else s

/-- A step fails: SAFE with BOOT_FAIL and SAF_SAFE_CAUSE 0xFD (R28, R394, R425). DEDUCED, log entry 106. -/
def State.bootFails (s : State) : State := (s.putCtl { s.ctl with bootFail := true }).bootEnd.enterSafe 0xFD

/-- COOLER_SETTLE (R42): step 0x3 completes or fails. -/
def execCoolerSettle (ok : Bool) (s : State) : Host.Outcome State Fault Refusal :=
  .next (if s.atStep 3 then (if ok then s.toStep 4 else s.bootFails) else s)

/-- Clear the TEC cause: the laser is locked and the cooler within its limit (R30). -/
def State.clearTec (s : State) : State :=
  if s.flag SRC_LASER_STATUS.LOCKED && !s.flag SRC_TEC_STATUS.LIMIT then s.withDeg { s.ctl.deg with tec := false } else s

/-- Write the laser readings. -/
def State.laserReading (s : State) (freqErr current : Nat) : State :=
  (s.setFld SRC_LASER_STATUS.FREQ_ERR freqErr).setFld SRC_LASER_STATUS.CURRENT current

/-- LASER_LOCK (R38): with the readings of the lock; step 0x4 completes, and step 0x5 begins by training (R267). -/
def execLaserLock (freqErr : BitVec 16) (current : BitVec 12) (s : State) : Host.Outcome State Fault Refusal :=
  .next (
    let s := (s.laserReading freqErr.toNat current.toNat).setFlag SRC_LASER_STATUS.LOCKED true
    let s := s.putSrc { s.src with unlockHeld := false }
    let s := s.clearTec.settle
    if s.atStep 4 then
      let s := if s.fld DMC_STATUS.STATE == dmcFspChange then s.fspMake else s
      (s.toStep 5).setFld DMC_STATUS.STATE dmcTraining
    else s)

/-- LASER_UNLOCK (R38, R59, R30): with the cooler within its limit the LASER_UNLOCK cause, else the TEC cause; each later
check of R59 that finds the laser still unlocked reports it again. DEDUCED, log entry 24. -/
def execLaserUnlock (freqErr : BitVec 16) (current : BitVec 12) (s : State) : Host.Outcome State Fault Refusal :=
  .next (
    if !s.flag SRC_LASER_STATUS.LOCKED && !s.src.unlockHeld then s
    else
      let s := s.putSrc { s.src with unlockHeld := true }
      let s := (s.laserReading freqErr.toNat current.toNat).setFlag SRC_LASER_STATUS.LOCKED false
      let s := s.setFlag SRC_LASER_STATUS.UNLOCK_SEEN true
      let s :=
        if s.flag SRC_TEC_STATUS.LIMIT then s.withDeg { s.ctl.deg with tec := true }
        else (s.srcFault (2 ^ SRC_FAULT_CAUSE.LASER_UNLOCK.lo)).diagEvent 0x02 15
      s.settle)

/-- LASER_CURRENT_FAULT (R59, R387). -/
def execLaserCurrentFault (current : BitVec 12) (s : State) : Host.Outcome State Fault Refusal :=
  .next (
    let s := s.setFld SRC_LASER_STATUS.CURRENT current.toNat
    (s.srcFault (2 ^ SRC_FAULT_CAUSE.LASER_CURRENT.lo)).diagEvent 0x02 15)

/-- LASER_LOCK_TIMEOUT (R423). -/
def execLaserLockTimeout (s : State) : Host.Outcome State Fault Refusal := .next (if s.atStep 4 then s.bootFails else s)

/-- Write of SRC_LASER_CFG (R37, R39): values above 48 are ignored; a write in SETUP starts a relock. -/
def State.writeLaserCfg (s : State) (w : Word) : State :=
  if s.isSetup && decide (48 < SRC_LASER_CFG.CH.get w) then s
  else
    let t := s.storeWord SRC_LASER_CFG.reg w
    if s.isSetup && s.ctl.dev == .setup then (t.setFlag SRC_LASER_STATUS.LOCKED false).putSrc { t.src with unlockHeld := false } else t

/-- LASER_CH_WRITE (R39). -/
def execLaserChWrite (w : Word) (s : State) : Host.Outcome State Fault Refusal := .next (s.writeLaserCfg w)

/-- TEC_LIMIT (R41, R59, R387): the readings of the cooler; suspended while SHED = 1 (R414). A TEC_CURRENT that is still set does
not raise EV15 again. With the laser unlocked the TEC cause follows (R30). DEDUCED, log entry 110. -/
def execTecLimit (current : BitVec 12) (tempErr : BitVec 16) (s : State) : Host.Outcome State Fault Refusal :=
  .next (
    if s.flag PWR_STATUS.SHED || s.flag SRC_TEC_STATUS.LIMIT then s
    else
      let s := (s.setFld SRC_TEC_STATUS.CURRENT current.toNat).setFld SRC_TEC_STATUS.TEMP_ERR tempErr.toNat
      let s := (s.setFlag SRC_TEC_STATUS.LIMIT true).setFlag SRC_TEC_STATUS.LIMIT_SEEN true
      let s :=
        if s.flag SRC_FAULT_CAUSE.TEC_CURRENT then s
        else (s.setFlag SRC_FAULT_CAUSE.TEC_CURRENT true).raiseEvent 15 (s.reg SRC_TEC_STATUS.reg).toNat
      let s := s.diagEvent 0x07 15
      if s.ctl.dev ≠ .boot && !s.flag SRC_LASER_STATUS.LOCKED then s.withDeg { s.ctl.deg with tec := true } else s)

/-- TEC_LIMIT_CLEAR (R41). -/
def execTecLimitClear (current : BitVec 12) (tempErr : BitVec 16) (s : State) : Host.Outcome State Fault Refusal :=
  .next (
    let s := (s.setFld SRC_TEC_STATUS.CURRENT current.toNat).setFld SRC_TEC_STATUS.TEMP_ERR tempErr.toNat
    (s.setFlag SRC_TEC_STATUS.LIMIT false).clearTec)

/-! Steps 0x0 and 0x5, and entry to SETUP (R49, R267, R423). -/

/-- BOOT_FUSE_LOAD (R423): step 0x0 completes, with repairs loaded, scratchpads zero and the RESET record queued (R257, R262,
R418); or it fails. -/
def execBootFuseLoad (ok : Bool) (s : State) : Host.Outcome State Fault Refusal :=
  .next (
    if !s.atStep 0 then s
    else if !ok then s.bootFails
    else
      let s := s.loadFuses.zeroSpads
      let c := (s.reg GLB_RESET_CAUSE.reg).toNat
      let s := s.record recReset c
      let s := if c % 16 = 4 then s.raiseEvent 57 c else s
      s.toStep (if s.flag ACR_MARCH_BOOT.EN then 1 else 2))

/-- Refill rate of the pumps that are not OFF (R49). -/
def State.pumpRefill (s : State) : Nat :=
  (if s.flag SRC_PUMP0_STATUS.OFF then 0 else 150) + (if s.flag SRC_PUMP1_STATUS.OFF then 0 else 150)

/-- Entry to SETUP: every pump that is not OFF starts, unless loads are shed now (R49, R414). -/
def State.enterSetup (s : State) : State :=
  let s := (s.setDev .setup).linkWake
  if s.src.shed && s.flag PWR_STATUS.SHED then s.setRefill s.pumpRefill
  else (((s.setGate true).putSrc { (s.setGate true).src with shed := false }).setRefill s.pumpRefill)

/-- DRAM_TRAINING (R267): step 0x5 completes with the DRAM trained and filled, or with the channels that failed. The
start-up calibration begins (R437). -/
def execDramTraining (failed : BitVec 4) (s : State) : Host.Outcome State Fault Refusal :=
  .next (
    if !s.atStep 5 then s
    else
      let s :=
        if failed = 0 || s.fld DMC_STATUS.STATE ≠ dmcTraining then
          -- training ends, and with it the deferral of a set-point change; then the fill
          let s := s.fspDeferred
          let s := if s.fld DMC_STATUS.STATE = dmcFspChange then s.fspMake else s
          let s := ((s.setFld DMC_STATUS.STATE dmcReady).putDram []).putDmc {}
          s.setFlag DMC_STATUS.INIT_DONE true
        else
          let s := (s.setFld DMC_STATUS.STATE dmcFailed).setFld DMC_STATUS.TRAIN_FAIL failed.toNat
          let s := s.putCtl { s.ctl with dramFailed := true }
          let s := s.dramClientsFail
          s.withDeg { s.ctl.deg with dram := true }
      (s.toStep 6).calStart 1 0)

/-- BOOT_CAL_TIMEOUT (R438). -/
def execBootCalTimeout (s : State) : Host.Outcome State Fault Refusal := .next (if s.atStep 6 then s.bootFails else s)

/-- A write of GLB_BOOT_CTRL (R425). -/
def State.writeBootCtrl (s : State) (w : Word) : State :=
  if GLB_BOOT_CTRL.RESUME.get w = 1 && GLB_BOOT_CTRL.KEY.get w == 0x6B && s.ctl.imageNone && s.ctl.dev == .setup
      && !s.flag GLB_BOOT_STATUS.RESUMING && s.ctl.bootStep == 2 then
    (s.toStep 3).setFlag GLB_BOOT_STATUS.RESUMING true
  else s

/-- BOOT_RESUME (R425). -/
def execBootResume (w : Word) (s : State) : Host.Outcome State Fault Refusal := .next (s.writeBootCtrl w)

end Sys2Proof.Machine
end

