-- ==== Sys2Proof/Machine/Acts.lean ====
section
/-!
DEFINITION. A schedule configuration coming into force, and what each round command does at its target round start
(R90, R302–R309, R375).
-/
namespace Sys2Proof.Machine

/-! A configuration comes into force (R90, R92). -/

/-- Offsets of the schedule configuration. -/
def schedOffsets : List Nat :=
  (rowsLCH.filter (fun r => r.rwl != 0)).flatMap RegRow.offsets ++ [SRC_PUMP_CFG.reg, SRC_LOSHIFT.reg]

/-- Write a configuration into the registers. -/
def State.putCfg (s : State) (c : Cfg) : State :=
  schedOffsets.foldl (fun s off => s.setReg off (mixWord (Word.of (schedMask off)) (s.reg off) (SMap.get resetVal c off))) s

/-- The shadow equals the active configuration. -/
def State.resetShadow (s : State) : State := s.putSched { s.sched with shadow := s.sch }

/-- Bytes of a bin product of `n` bins: 64 of header to a segment, and padded planes (R320, R321). -/
def productBytes (w : Nat) (q : Bool) (n : Nat) : Nat :=
  let maxu := maxUnits w q
  (List.range (ceilDiv n maxu)).foldl (fun t i =>
    let c := min maxu (n - i * maxu)
    t + 64 + 8 * ceilDiv (c * w) 8 + (if q then 8 * ceilDiv c 8 else 0)) 0

/-- Bytes that one Rayleigh entry of port `n` puts on its ring in a round: its strain-rate frame, and its share of a filtered
frame (R334). -/
def State.entryBytes (s : State) (n bins : Nat) : Rat :=
  let q := s.flag (PRT_PE_CFG.QUAL_OUT n)
  let f := s.fltConf n
  let raw : Nat := if s.flag (CMP_PORT_CFG.RAW_EN n) then productBytes 2 q bins else 0
  let flt : Nat := if f.en then productBytes (if f.int32 then 4 else 2) q (f.span bins) else 0
  (raw : Rat) + (flt : Rat) / ((2 ^ f.log2M : Nat) : Rat)

/-- CMP_PLAN_RATE (R334). DEDUCED, log entry 41. -/
def State.showPlanRate (s : State) : State :=
  let c := s.sch
  let total := c.entries.foldl (fun (t : Rat) e => if e.kind = 0 then t + s.entryBytes e.port (c.plan e.plan).bins else t) 0
  s.setNat CMP_PLAN_RATE.reg (roundRat (total * 400 / ((max 1 c.period : Nat) : Rat))).toNat

/-- What every commit shows (R62, R126, R172, R198, R214, R277, R334, R346). DEDUCED, log entry 41. -/
def State.showRates (s : State) : State :=
  let s := s.setFlag SRC_DIAG_STATUS.ACTIVE s.sch.diagActive
  let s := s.setNat AUX_PASS_TIME.reg (Cfg.auxPassUs s.auxCfg)
  let s := (((s.showCellRate).showBinRate).showPlanRate).showRegions
  (List.range 16).foldl (fun s u => s.showCapPlan u) s

/-- The active configuration takes effect at the round in progress. DEDUCED, log entry 41. -/
def State.markActive (s : State) : State := s.setReg64 LCH_ACTIVE_ROUND_LO.reg (s.ctl.round % 2 ^ 48)

/-- Fields of a plan named by the running table change (R92). DEDUCED, log entry 33. -/
def plansChange (old new : Cfg) : Bool :=
  (List.range 8).any (fun p => old.entries.any (fun e => e.onPort && e.plan == p) && decide (old.plan p ≠ new.plan p))

/-- A run in progress is aborted and starts again with cause 4 (R440). -/
def State.calAgain (s : State) : State := if s.cal.run.isSome then (s.calAbort).calStart 4 0 else s

/-- A pump gate is open at the instant of a round start (R56). DEDUCED, log entry 40. -/
def Cfg.gateAtStart (c : Cfg) : Bool :=
  let p := c.periodU
  (mergeGates (sortGates (c.gates (-p) p ++ c.gates 0 p ++ c.gates p p))).any (fun g => decide (g.1 ≤ 0) && decide (0 < g.2))

/-- Economy gating begins at a round start (R56). -/
def State.ecoBegin (s : State) : State :=
  if s.flag SRC_PUMP_CFG.ECO_EN then s.setGate (s.sch.gateAtStart && !s.src.shed) else s

/-- Rounds follow a belt from here: the base position is the one at this tick (R78). DEDUCED, log entry 34. -/
def State.beltBase (s : State) : State :=
  s.putSched { s.sched with beltBase := s.beltNow (s.fld LCH_ROUND_CFG.BELT), beltTarget := 1 }

/-- What belt-locked rounds follow. DEDUCED, log entry 34. -/
def Cfg.beltKey (c : Cfg) : Bool × Nat × Nat := (c.beltLocked, c.fld LCH_ROUND_CFG.BELT, c.fld LCH_BELT_STEP.STEP)

/-- A configuration replaces the running one at the round in progress. DEDUCED, log entry 34. -/
def State.takeCfg (s : State) (c : Cfg) : State :=
  let old := s.sch
  let n := (s.putCfg c).markActive
  let new := n.sch
  let n := if old.fld SRC_LOSHIFT.FREQ_MHZ = new.fld SRC_LOSHIFT.FREQ_MHZ then n
    else (n.setFlag SRC_LOSHIFT.SETTLED false).brlRestartAll
  let n := if old.replicaCycle = new.replicaCycle then n else n.putSched { n.sched with replicaPos := 0 }
  let n := if new.beltLocked && decide (old.beltKey ≠ new.beltKey) then n.beltBase else n
  let n := if old.flag SRC_PUMP_CFG.ECO_EN then n else n.ecoBegin
  n.showRates

/-- The pending commit becomes active (R90). DEDUCED, log entry 33. -/
def State.actCommit (s : State) : State × CmdRes :=
  match s.sched.pendingCfg with
  | none => (s, resDone false)
  | some c =>
    let change := plansChange s.sch c
    let free := firstFrees s.sch c
    let n := s.clearPending.takeCfg c
    let n := n.putSched { n.sched with firstFree := free }
    (if change then n.calAgain else n, resDone true)

/-! Settings. -/

/-- Apply a command's field list with what follows from it, or refuse it for a conflict it would make (R309, R354). DEDUCED,
log entry 32. -/
def State.actList (s : State) (c : PendCmd) (follow : State → State → State) : State × CmdRes :=
  let n := s.applyEdits c.hdr.edits
  let src := if [opBltSet, opTrgSet, opAcConfig, opAuxSet].contains c.opcode then n.conflictSrc else 0
  if src = 0 then (follow s n, resDone true)
  else (s.setNat DMC_CONFLICT.reg ((n.showConflict src).reg DMC_CONFLICT.reg).toNat, { code := resConflict, detail := src })

/-- TRG_SET: units and tile summaries follow. -/
def State.trgFollow (old new : State) : State := old.tileChange (old.trgChangeAll new)

/-- DMC_SET: a set point other than the one in force is requested (R272). -/
def State.dmcFollow (_old new : State) : State :=
  if new.fld DMC_CFG.FSP = new.fld DMC_STATUS.FSP_CUR then new else new.fspRequest

/-- PAIR_SET: arming, and the check of a takeover configuration it writes (R364, R369). -/
def State.pairFollow (writes : Bool) (old new : State) : State :=
  let n := old.pairChange new
  if writes then n.checkTko else n

/-! Ports, units and outputs. -/

/-- The scorekeeper and DEG_CAUSE let go of a port (R30, R134, R393). -/
def State.restorePort (s : State) (n : Nat) : State :=
  let s := s.setApr n false
  let s := (s.setFlag (PRT_INTEG_STATUS.DECLARED n) false).setFld (PRT_INTEG_STATUS.BREAK_BIN n) 0xFFFF
  let s := (s.setFld SAF_STATUS.PORT_LOST (putBit (s.fld SAF_STATUS.PORT_LOST) n false)).clearPortDiags n
  let faulted := BitVec.ofNat 12 (putBit s.ctl.faulted.toNat n false)
  let s := s.putCtl { s.ctl with faulted := faulted }
  (s.withDeg { s.ctl.deg with port := faulted != 0 }).settle

/-- PORT_RESTORE (R69). -/
def State.actRestore (s : State) (n : Nat) : State × CmdRes :=
  if s.intClear n then (s.restorePort n, resDone true) else (s, { code := resNotClear, detail := n })

/-- LF_REBASE (R126). DEDUCED, log entry 53. -/
def State.actRebase (s : State) (mask : Nat) : State :=
  (bitsOf s.ports mask).foldl (fun s n =>
    (s.setPort n { s.port n with lf := { from_ := s.time } }).setFlag (PRT_INTEG_STATUS.LF_REF_BAD n) false) s

/-- TRG_ARM or TRG_DISARM of the units of a mask: units without effect in DETAIL2. -/
def State.actUnits (s : State) (mask : Nat) (f : State → Nat → State × Bool) : State × CmdRes :=
  let us := bitsOf 16 mask
  let (t, none_) := us.foldl (fun (p : State × Nat) u =>
    let (t, ok) := f p.1 u
    (t, if ok then p.2 else p.2 + 2 ^ u)) (s, 0)
  (t.settle, { code := resOk, detail := if none_ = mask then 1 else 0, detail2 := none_ })

/-- DOUT_SET and DOUT_CLEAR of the outputs of a mask (R224). -/
def State.actDouts (s : State) (mask : Nat) (on : Bool) : State :=
  (bitsOf 4 mask).foldl (fun s k =>
    let s := s.setDout k { s.dout k with cmd := on }
    if on then s else s.setFlag (TRG_DOUT_STATUS.LATCHED k) false) s

/-! Brillouin references. -/

/-- The Brillouin engine of a port learns. -/
def State.learns (s : State) (n : Nat) : Bool := s.flag BRL_CFG.EN && !s.flag BRL_STATUS.FAILED && s.brlReach n

/-- REF_LOAD (R168, R365). -/
def State.actRefLoad (s : State) (n first : Nat) (ws : List Word) : State × CmdRes :=
  if s.brlReach n then ((s.refWrite n first ws).mirrorRefs n first ws.length, resDone true) else (s, resDone false)

/-- REF_LEARN (R169). -/
def State.actRefLearn (s : State) (n first count : Nat) : State × CmdRes :=
  if s.learns n then (s.refLearn n first count, resDone true) else (s, resDone false)

/-! Cores (R248). -/

/-- The core a command names. -/
def PendCmd.core (c : PendCmd) : Option Nat :=
  if [opAcStart, opAcStop, opAcConfig].contains c.opcode then some c.hdr.low4 else none

/-- The core runs, for a command of a round start at which `stops` are the cores stopped by an AC_STOP. DEDUCED, log entry 31.
-/
def State.coreBusy (s : State) (stops : List Nat) (k : Nat) : Bool := !(s.core k).idle && !stops.contains k

/-- AC_START. DEDUCED, log entry 31. -/
def State.actAcStart (s : State) (stops : List Nat) (h : CmdHdr) : State × CmdRes :=
  let k := h.low4
  if s.coreBusy stops k || s.marchBusy k then (s, { code := resBusy, detail := k })
  else if s.flag (ACR_SPM_STATUS.SPM_FAIL k) then (s, { code := resSpmFail, detail := k })
  else
    let entry := if bitOf h.inl 15 then h.inl / 2 ^ 16 % 2 ^ 11 else s.fld (ACR_ENTRY.ENTRY k)
    let c := s.core k
    let s := match c.stopping with
      | some cause => s.setCore k { c with stopCause := cause }
      | none => s
    ((s.startCore k entry).clearCoreDeg k, resDone true)

/-- AC_STOP. DEDUCED, log entry 31. -/
def State.actAcStop (s : State) (k : Nat) : State × CmdRes :=
  let c := s.core k
  if c.live then ((s.beginStop k stopHost).clearCoreDeg k, resDone true)
  else (s.clearCoreDeg k, resDone c.degFault)

/-! Calibration and time. -/

/-- CAL_RUN (R437). -/
def State.actCalRun (s : State) : State × CmdRes :=
  if s.cal.run.isSome then (s, resDone false) else (s.calStart 2 0, resDone true)

/-- TRIM (R184): a target outside the range is ignored. -/
def State.actTrim (s : State) (v : Nat) : State × CmdRes :=
  if trimInRange (Word.of v) then (s.setTrim (Word.of v), resDone true) else (s, resDone false)

/-! FAILBACK (R375). -/

/-- The partner's port that bars a failback; 0xF when the partner is not seen. -/
def State.failbackBar (s : State) : Option Nat :=
  if !s.linkUp || !s.partnerRuns then some 0xF
  else
    (s.loopPorts.map s.loopPeer).find? (fun p =>
      bitOf (s.fld MLK_PARTNER_HEALTH.FAULT_PORTS) p || bitOf (s.fld MLK_PARTNER_HEALTH.BREAK_PORTS) p)

/-- The home configuration comes back into force. DEDUCED, log entry 42. -/
def State.failBack (s : State) (home : Cfg) : State :=
  let s := (s.takeCfg home).resetShadow
  let s := s.setFlag MLK_PAIR_STATUS.TKO_ACTIVE false
  let s := s.putMlk { s.mlk with home := none }
  let ports := (List.range s.ports).filter (fun n => s.flag (MLK_LOOP_CFG.EN n) || s.flag (BRL_PORT_STATUS.LOOP_ACTIVE n))
  let s := ports.foldl (fun s n =>
    (s.brlReturn n).setPort n { s.port n with lf := { (s.port n).lf with extend := none, masked := none } }) s
  (s.calAgain.withDeg { s.ctl.deg with partner := false }).settle

/-- FAILBACK at its round start. DEDUCED, log entry 42. -/
def State.actFailback (s : State) : State × CmdRes :=
  if !s.flag MLK_PAIR_STATUS.TKO_ACTIVE then (s, resDone false)
  else match s.failbackBar with
    | some p => (s, { code := resNotClear, detail := p })
    | none =>
      let home := s.homeCfg
      let r := s.checkCommit (some s.sch) home
      let s := s.showCommit r
      if r.reason ≠ 0 then (s, { code := resCommitFail, detail := r.reason, detail2 := bitAt r.transition 0 })
      else (s.failBack home, resDone true)

/-! One command (R303). -/

/-- A round command acts. `stops`: the cores that an AC_STOP of this round start names. -/
def State.actCmd (s : State) (stops : List Nat) (c : PendCmd) : State × CmdRes :=
  let h := c.hdr
  let op := c.opcode
  if op = opLchCommit then s.actCommit
  else if op = opPortRestore then s.actRestore h.low4
  else if op = opLfRebase then (s.actRebase h.inl, resDone true)
  else if op = opRefLoad then s.actRefLoad h.refPort h.refCell h.words
  else if op = opRefLearn then s.actRefLearn h.refPort h.refCell h.cells
  else if op = opTrim then s.actTrim h.inl
  else if op = opTrgArm then s.actUnits h.inl State.trgArm
  else if op = opTrgDisarm then s.actUnits h.inl State.trgDisarm
  else if op = opDoutSet then (s.actDouts h.inl true, resDone true)
  else if op = opDoutClear then (s.actDouts h.inl false, resDone true)
  else if op = opAcStart then s.actAcStart stops h
  else if op = opAcStop then s.actAcStop h.low4
  else if op = opAcConfig && s.coreBusy stops h.low4 then (s, { code := resBusy, detail := h.low4 })
  else if op = opCalRun then s.actCalRun
  else if op = opCalPin then (s.calPin (bitOf h.inl 0), resDone true)
  else if op = opCalRestore then (s.calRestore (bitOf h.inl 0), resDone true)
  else if op = opFailback then s.actFailback
  else if op = opBltSet then s.actList c State.bltChange
  else if op = opTrgSet then s.actList c State.trgFollow
  else if op = opDmcSet then s.actList c State.dmcFollow
  else if op = opAuxSet then s.actList c State.auxChange
  else if op = opAcConfig then s.actList c (fun _ n => n.feedSetup h.low4)
  else if op = opPairSet then s.actList c (State.pairFollow (h.edits.any (fun e => inBlock 0x1D1000 0x1D1500 e.off)))
  else if opLists.contains op then s.actList c (fun _ n => n)
  else (s, resDone true)

end Sys2Proof.Machine
end

