-- ==== Sys2Proof/Machine/SourceRows.lean ====
section
/-!
DEFINITION. The source monitors and pumps: tap checks, diagnostic results, pump faults, economy gates and the pump loop
(R47–R61, R65, R110).
-/
namespace Sys2Proof.Machine

/-! Pump detection (R54, R55, R59). -/

/-- A pump's field by its number. -/
def pumpFld (f0 f1 : Fld) (p : Nat) : Fld := if p = 0 then f0 else f1

/-- Regulator `p` is OFF. DEDUCED, log entry 20. -/
def State.pumpOff (s : State) (p : Nat) : Bool := s.flag (pumpFld SRC_PUMP0_STATUS.OFF SRC_PUMP1_STATUS.OFF p)

/-- PROVEN of pump `p` as a round sees it: passed within the last 64 rounds. -/
def State.showProven (s : State) (p : Nat) : State :=
  let at_ := SMap.get (fun _ => 0) s.src.proven p
  s.setFlag (pumpFld SRC_PUMP0_STATUS.PROVEN SRC_PUMP1_STATUS.PROVEN p)
    (!s.pumpOff p && at_ != 0 && decide (s.ctl.round + 1 ≤ at_ + 64))

/-- Pump `p` passes open and short detection. -/
def State.provePump (s : State) (p : Nat) : State :=
  if s.pumpOff p then s
  else (s.putSrc { s.src with proven := SMap.put (fun _ => 0) s.src.proven p (s.ctl.round + 1) }).showProven p

/-- Pump `p` is found open or short: shut off at once and reported (R55, R59); detection is suspended while loads are shed
(R414), and a regulator that is OFF is not checked. DEDUCED, log entry 20. -/
def State.pumpFail (s : State) (p : Nat) (short : Bool) : State :=
  if s.flag PWR_STATUS.SHED || s.pumpOff p then s
  else
    let s := s.setFlag (if short then pumpFld SRC_PUMP0_STATUS.SHORT SRC_PUMP1_STATUS.SHORT p
      else pumpFld SRC_PUMP0_STATUS.OPEN SRC_PUMP1_STATUS.OPEN p) true
    let s := s.setFlag (pumpFld SRC_PUMP0_STATUS.OFF SRC_PUMP1_STATUS.OFF p) true
    let s := (s.putSrc { s.src with proven := SMap.put (fun _ => 0) s.src.proven p 0 }).showProven p
    (s.srcFault (2 ^ (2 * p + (if short then 1 else 0)))).diagEvent 0x01 15

/-- PUMP_OPEN_SHORT (R55). -/
def execPumpOpenShort (p : Fin 2) (short : Bool) (s : State) : Host.Outcome State Fault Refusal := .next (s.pumpFail p.val short)

/-- PUMP_LIMIT (R54, R59): a regulator has held 1.2 A for 1 s; suspended while loads are shed (R414). -/
def execPumpLimit (p : Fin 2) (s : State) : Host.Outcome State Fault Refusal :=
  .next (
    if s.flag PWR_STATUS.SHED || s.pumpOff p.val then s
    else
      let s := s.setFlag (pumpFld SRC_PUMP0_STATUS.LIMIT SRC_PUMP1_STATUS.LIMIT p.val) true
      (s.srcFault (2 ^ SRC_FAULT_CAUSE.PUMP_LIMIT.lo)).diagEvent 0x01 15)

/-! Economy gates (R56, R414). -/

/-- Economy gating applies. DEDUCED, log entry 40. -/
def State.ecoGates (s : State) : Bool := s.isRunning && s.flag SRC_PUMP_CFG.ECO_EN

/-- PUMP_GATE_OPEN (R56, R63). -/
def execPumpGateOpen (s : State) : Host.Outcome State Fault Refusal :=
  .next (if s.ecoGates && !s.src.shed then s.setGate true else s)

/-- PUMP_GATE_CLOSE (R56, R87): a gate whose turn slides stays open; one of 5 µs or more has proven the pumps (R59). -/
def execPumpGateClose (s : State) : Host.Outcome State Fault Refusal :=
  .next (
    if !s.ecoGates || s.sched.sliding.isSome || !s.src.gate then s
    else
      let long := decide (5 * ticksPerUs ≤ s.time - s.src.gateAt)
      let s := s.setGate false
      if long && !s.flag PWR_STATUS.SHED then (s.provePump 0).provePump 1 else s)

/-- The pump loop at a round start (R51, R54): the setpoint moves by at most 50 mA, by how much is left open, when the round
before had verified turns; a setpoint above 1.2 A holds the regulators at their limit. DESIGN CHOICE, log entry 12;
UNVERIFIED, log entry 13. -/
def State.pumpLoop (s : State) : State :=
  let s :=
    if s.src.verified then
      let d : Int := (s.freeVal % 101 : Nat) - 50
      s.drawFree.putSrc { s.src with setpoint := ((s.src.setpoint : Int) + d).toNat, verified := false }
    else s
  let lim (p : Nat) (s : State) : State :=
    s.setFlag (pumpFld SRC_PUMP0_STATUS.LIMIT SRC_PUMP1_STATUS.LIMIT p) (!s.pumpOff p && decide (1200 < s.src.setpoint))
  lim 1 (lim 0 s)

/-- Pumps at a round start: they resume after a warning, the surviving pumps' refill is in force, a continuous run proves them
(R49, R55, R59, R414). DEDUCED, log entry 39. -/
def State.pumpRound (s : State) : State :=
  let s := if s.src.shed && !s.flag PWR_STATUS.SHED then (s.putSrc { s.src with shed := false }) else s
  let s := s.setRefill s.pumpRefill
  let s := if !s.flag SRC_PUMP_CFG.ECO_EN && !s.src.shed then s.setGate true else s
  let s :=
    if s.src.gate && decide (5 * ticksPerUs ≤ s.time - s.src.gateAt) && !s.flag PWR_STATUS.SHED then (s.provePump 0).provePump 1
    else s
  (s.showProven 0).showProven 1

/-! Tap checks (R59–R61, R387). -/

/-- A measured energy in quarters of a nanojoule lies above, or below, plan by more than 1 dB: ratios are compared by their
tenth powers. -/
def energyHigh (q nj : Nat) : Bool := decide (10 * (4 * nj) ^ 10 < q ^ 10)
def energyLow (q nj : Nat) : Bool := decide (10 * q ^ 10 < (4 * nj) ^ 10)

/-- An energy outside ±1 dB of plan. -/
def energyBad (q nj : Nat) : Bool := energyHigh q nj || energyLow q nj

/-- The cause and the diagnostic of an energy check that fails. -/
def State.energyCause (s : State) (q nj : Nat) : State :=
  if energyBad q nj then
    (s.srcFault (2 ^ (if energyHigh q nj then SRC_FAULT_CAUSE.ENERGY_HIGH.lo else SRC_FAULT_CAUSE.ENERGY_LOW.lo))).diagEvent 0x03 15
  else s

/-- The energy check of a turn: a failure is counted (SRC_ENERGY_FAIL_COUNT). -/
def State.energyFault (s : State) (q nj : Nat) : State :=
  if energyBad q nj then (s.energyCause q nj).bump SRC_ENERGY_FAIL_COUNT.reg else s

/-- Leakage above −35 dB. -/
def State.leakFault (s : State) (leak : Bool) : State :=
  if leak then (s.srcFault (2 ^ SRC_FAULT_CAUSE.SWITCH_LEAK.lo)).diagEvent 0x04 15 else s

/-- TAP_CHECK (R59–R61): the booster tap's energy in 0.25 nJ, whether the selected port's tap is low, and whether another
port's tap leaks, of the oldest turn that is not yet checked. -/
def execTapCheck (energy : Nat) (routeLow leak : Bool) (s : State) : Host.Outcome State Fault Refusal :=
  .next (
    match s.sched.tap with
    | [] => s
    | t :: ts =>
      let s := (s.putSched { s.sched with tap := ts }).putSrc { s.src with verified := s.src.verified || !t.apr }
      let fail := energyHigh energy t.energy || energyLow energy t.energy || routeLow || leak
      let s := (s.tapLast t.port energy false fail).calTurn t.port
      let s := s.energyFault energy t.energy
      let s := if routeLow then s.routeFault t.port else s
      s.leakFault leak)

/-- The switch parks at the dump (R48). -/
def State.parkSwitch (s : State) : State := s.putSrc { s.src with route := none }

/-- OVERPOWER_TRIP (R48): the pumps go off and the switch parks at the dump at once. -/
def execOverpowerTrip (s : State) : Host.Outcome State Fault Refusal :=
  .next (((s.setGate false).parkSwitch.srcFault (2 ^ SRC_FAULT_CAUSE.OVERPOWER.lo)).diagEvent 0x00 15)

/-- LOSHIFT_SETTLED (R47). -/
def execLoshiftSettled (s : State) : Host.Outcome State Fault Refusal := .next (s.setFlag SRC_LOSHIFT.SETTLED true)

/-! Diagnostic results (R59, R65). -/

/-- Energy of the replica of a diagnostic turn. -/
def State.replicaEnergy (s : State) (d : DiagTurn) : Option Nat :=
  d.replica.bind (fun i => (s.sch.replicaCycle[i]?).map Replica.energy)

/-- The pump checks of a diagnostic turn; a pump that is OFF, or detection suspended, requires none. -/
def State.diagPumps (s : State) (f : DiagFind) : State :=
  if s.flag PWR_STATUS.SHED then s
  else
    let one (p : Nat) (open_ short : Bool) (s : State) : State :=
      if open_ || short then s.pumpFail p short else s.provePump p
    one 1 f.open1 f.short1 (one 0 f.open0 f.short0 s)

/-- Energy failures of a diagnostic turn, one for each part that fails: its causes, and its diagnostic at each (R59, R65). -/
def State.diagEnergies (s : State) (parts : List (Nat × Nat)) : State :=
  parts.foldl (fun s p => s.energyCause p.1 p.2) s

/-- DIAG_TURN_RESULTS (R65): what the monitors found in the diagnostic turn in progress. A turn that fails in both parts counts
once in SRC_ENERGY_FAIL_COUNT. SRC_TAP_LAST shows the booster tap's energy of part A whether or not there is a part B, and its
FAIL the checks of the booster tap and of leakage: R61 leaves both open for a diagnostic turn. DESIGN CHOICE, log entry 117. -/
def execDiagTurnResults (f : DiagFind) (s : State) : Host.Outcome State Fault Refusal :=
  .next (
    match s.sched.diag with
    | none => s
    | some d =>
      let s := s.putSched { s.sched with diag := none }
      let shed := s.flag PWR_STATUS.SHED
      let pump0 := !s.pumpOff 0 && (shed || !(f.open0 || f.short0))
      let pump1 := !s.pumpOff 1 && (shed || !(f.open1 || f.short1))
      let aTap := energyBad f.tapA 500
      let dump := f.dumpBad
      let partB := match s.replicaEnergy d with | some nj => [(f.dumpB, nj)] | none => []
      let bBad := partB.any (fun p => energyBad p.1 p.2)
      let s := (((s.setFlag SRC_DIAG_STATUS.PUMP0_OK pump0).setFlag SRC_DIAG_STATUS.PUMP1_OK pump1).setFlag SRC_DIAG_STATUS.ENERGY_OK (!aTap && !dump)).setFlag
        SRC_DIAG_STATUS.REPLICA_OK (!bBad)
      let s := (s.setFlag SRC_DIAG_STATUS.LEAK_OK (!f.leak)).setFlag SRC_DIAG_STATUS.LASER_OK (!f.laserBad)
      let s := s.tapLast 15 f.tapA false (aTap || f.leak)
      let s := s.diagPumps f
      let s := s.diagEnergies ((f.tapA, 500) :: partB)
      let s := if aTap || bBad then s.bump SRC_ENERGY_FAIL_COUNT.reg else s
      let s := if dump then (s.srcFault (2 ^ SRC_FAULT_CAUSE.DUMP_PATH.lo)).diagEvent 0x05 15 else s
      let s := s.leakFault f.leak
      if f.laserBad then (s.srcFault (2 ^ SRC_FAULT_CAUSE.LASER_CURRENT.lo)).diagEvent 0x02 15 else s)

/-! The receivers' converter links and codes (R102, R110). -/

/-- ADC_LINK_ERROR (R110): a CRC error on converter die A (ports 0–5) or B (ports 6–11) is raised on every bonded port of
the die. The row comes at the instant of R110 and carries none of the error itself: RX_FAULT goes to every turn of the die in
flight whose occupancy ended no more than 30 µs ago. DESIGN CHOICE, log entry 116. -/
def execAdcLinkError (die : Fin 2) (s : State) : Host.Outcome State Fault Refusal :=
  .next (
    let ps := (List.range s.ports).filter (fun n => n / 6 == die.val)
    let hit (t : Turn) : Turn :=
      if ps.contains t.port && !t.skipped && decide (s.time * uTick ≤ t.occEnd + 30 * uUs) then { t with rxFault := true } else t
    let s := s.putSched { s.sched with flight := s.sched.flight.map hit, brl := s.sched.brl.map hit }
    ps.foldl (fun s n => ((s.setFlag (PRT_RX_FAULT.ADC_LINK n) true).portFault n 3).diagEvent 0x09 n) s)

/-- The turn port `n` is receiving: the latest launched of those whose frame or spectra are to come. -/
def State.receiving (s : State) (n : Nat) : Option Turn :=
  ((s.sched.flight ++ s.sched.brl).filter (fun t => t.port == n && !t.skipped)).foldl (fun m t =>
    match m with
    | none => some t
    | some x => if x.launch < t.launch then some t else m) none

/-- ZONE_STEP (R101, R102, R104): within a listen window of port `n` the TIA code becomes that of zone `k` in the set the turn
uses, with the codes and boundaries of the turn's own round; a zone whose boundary is at or above the turn's BIN_COUNT is not
reached. -/
def execZoneStep (n : Fin 12) (k : Fin 8) (s : State) : Host.Outcome State Fault Refusal :=
  .next (
    match s.receiving n.val with
    | none => s
    | some t =>
      let st := s.withTurn t
      if st.zoneCount n.val ≤ k.val || t.planOf.bins ≤ st.zoneEdge n.val k.val then s
      else
        let x := s.port n.val
        s.setPort n.val { x with rx := { x.rx with tia := gainCode st n.val t.brl k.val } })

end Sys2Proof.Machine
end

