-- ==== Sys2Proof/Machine/Round.lean ====
section
/-!
DEFINITION. Round starts: what each one applies, time-locked, belt-locked, and the takeover round start
(R21–R24, R28, R76–R79, R302–R304, R366, R370, R439).
-/
namespace Sys2Proof.Machine

/-! Commands that act at a round start (R302). -/

/-- The commands of one core in the order stop, configure, start (R248). DEDUCED, log entry 31. -/
def coreOrder (k : Nat) (cs : List PendCmd) : List PendCmd :=
  let of (op : Nat) : List PendCmd := cs.filter (fun c => c.opcode == op && c.core == some k)
  of opAcStop ++ of opAcConfig ++ of opAcStart

/-- Ring order, with the commands of each core in its own order at the places they hold; `seen`: the commands before. DEDUCED,
log entry 31. -/
def actOrder (all : List PendCmd) : List PendCmd → List PendCmd → List PendCmd
  | _, [] => []
  | seen, c :: cs =>
    (match c.core with
      | none => c
      | some k => ((coreOrder k all)[(seen.filter (fun x => x.core == some k)).length]?).getD c) :: actOrder all (seen ++ [c]) cs

/-- Act on commands in turn, each completing at the round in progress. -/
def State.actAll (stops : List Nat) : State → List PendCmd → State
  | s, [] => s
  | s, c :: cs => let (t, r) := s.actCmd stops c; State.actAll stops (t.completeCmd c t.ctl.round r) cs

/-- The commands of a round act (R302). -/
def State.actRound (s : State) : State :=
  let now := s.hif.cmds.filter (fun c => decide (c.round ≤ s.ctl.round))
  let s := s.putHif { s.hif with cmds := s.hif.cmds.filter (fun c => !decide (c.round ≤ s.ctl.round)) }
  let stops := now.filterMap (fun c => if c.opcode = opAcStop then c.core else none)
  s.actAll stops (actOrder now [] now)

/-- Ports that a zone command of a round names (R104). -/
def zonePorts (round : Nat) (cs : List PendCmd) : Nat :=
  (cs.filter (fun c => c.opcode == opZoneSet && decide (c.round ≤ round))).foldl (fun m c => putBit m (listUnit opZoneSet c.hdr) true) 0

/-! Stops (R304). -/

/-- A STOP command bars the next round. -/
def State.stopDue (s : State) : Bool := s.hif.cmds.any (fun c => c.opcode == opStop && decide (c.round ≤ s.ctl.nextRound))

/-- A stop takes effect: no further round starts, what waits for one completes STOPPED, and the device disarms (R28, R91,
R303, R364). DEDUCED, log entry 30. -/
def State.requestStop (s : State) : State :=
  let s := s.putCtl { s.ctl with stopPending := true }
  let s := s.completeWhere (fun _ => true) 0 { code := resStopped }
  s.clearPending.disarm

/-- The STOP command whose round this would be takes effect. DEDUCED, log entry 30. -/
def State.stopRound (s : State) : State :=
  let due (c : PendCmd) : Bool := c.opcode == opStop && decide (c.round ≤ s.ctl.nextRound)
  (s.completeWhere due s.ctl.nextRound (resDone true)).requestStop

/-! The belt at a round start (R78, R79). -/

/-- The first target index above `k` that a position has not passed, in 2⁻⁸ count. -/
def nextTarget (base : Int) (step : Nat) (k : Nat) (p : Int) : Nat :=
  max (k + 1) ((p - base) / ((256 * max 1 step : Nat) : Int) + 1).toNat

/-- The tick of a belt-locked round start after the first (R79), and whether it is a stall: the predicted tick, not before PERIOD; at
MAX_PERIOD where that comes first or there is no valid speed. -/
def State.beltDue (s : State) : Nat × Bool :=
  let c : Cfg := s.sch
  let max_ := s.sched.roundStart + c.fld LCH_ROUND_MAX.MAX_PERIOD + s.sched.defer
  match s.sched.pred with
  | some p => if p ≤ max_ then (max p (s.sched.roundStart + c.period + s.sched.defer), false) else (max_, true)
  | none => (max_, true)

/-- A round start after the first is due: belt-locked ones at the tick of R79, time-locked ones when they are commanded. -/
def State.roundDue (s : State) : Bool := !Cfg.beltLocked s.sch || decide (s.beltDue.1 ≤ s.time)

/-- A belt-locked round start after the first: BELT_LAG where the predicted tick lies before PERIOD, abandoned targets, and
BELT_STALL (R79). -/
def State.beltRoundStart (s : State) : State :=
  let c : Cfg := s.sch
  if !c.beltLocked then s.putSched { s.sched with lag := false, stall := false }
  else if s.beltDue.2 then (s.putSched { s.sched with lag := false, stall := true }).bump LCH_BELT_STALL_COUNT.reg
  else
    let p := s.beltNow (c.fld LCH_ROUND_CFG.BELT)
    let next := nextTarget s.sched.beltBase (c.fld LCH_BELT_STEP.STEP) s.sched.beltTarget p
    let abandoned := next - (s.sched.beltTarget + 1)
    let early := match s.sched.pred with | some t => decide (t < s.sched.roundStart + c.period + s.sched.defer) | none => false
    let s := s.putSched { s.sched with lag := early || decide (0 < abandoned), stall := false, beltTarget := next }
    s.addReg LCH_BELT_LAG_COUNT.reg (abandoned + (if early then 1 else 0))

/-- The prediction for the next target starts afresh (R193). -/
def State.predictRound (s : State) : State :=
  if Cfg.beltLocked s.sch then s.predictNow else s.putSched { s.sched with pred := none }

/-! A round. -/

/-- EV13 at the end of a round in which turns slid or were skipped (R88, R316). DEDUCED, log entry 78; DEDUCED, log entry 86.
-/
def State.reportDefer (s : State) : State :=
  if s.sched.slides = 0 ∧ s.sched.skips = 0 then s
  else s.raiseEvent 13 (satNat 16 s.sched.slides + satNat 16 s.sched.skips * 2 ^ 16)

/-- The next round begins at the present tick (R21, R22). DEDUCED, log entry 86. -/
def State.nextRound (s : State) : State :=
  let s := s.reportDefer
  (s.putCtl { s.ctl with round := s.ctl.nextRound, nextRound := s.ctl.nextRound + 1 }).putSched
    { s.sched with roundStart := s.time, nextEntry := 0, slides := 0, skips := 0, defer := 0, deferred := 0, firstFree := [], calNew := false }

/-- The first round start after a START: the device runs, trigger units are armed or stopped (R208, R209), and cores with
RUN_AT_START start (R28, R248). DEDUCED, log entry
38. -/
def State.firstRound (old : State) : State :=
  let s := old.putSched { old.sched with started := true, starting := false, lag := false, stall := false }
  let s := s.setDev (if s.ctl.dramFailed || s.ctl.deg.any then .degraded else .running)
  let s := (State.countPause old s).markActive.ecoBegin
  let s := if Cfg.beltLocked s.sch then s.beltBase else s
  let s := (List.range 16).foldl (fun s u => s.trgStart u) s
  (List.range 16).foldl (fun s k =>
    if s.flag (ACR_CTRL.RUN_AT_START k) && (s.core k).st == .stopped && s.canStart k then s.startCore k (s.fld (ACR_ENTRY.ENTRY k))
    else s) s

/-- DEGRADED ends at a round start with every cause 0 (R28). DEDUCED, log entry 38. -/
def State.degEnd (s : State) : State := if s.ctl.dev = .degraded && !s.ctl.deg.any && !s.ctl.dramFailed then s.setDev .running else s

/-- Automatic power reduction in force in this round (R67). -/
def State.takeApr (s : State) : State := s.putSched { s.sched with apr := s.fld SRC_APR_PORTS.APR }

/-- A calibration run waiting for a round start begins (R437). -/
def State.calBegin (s : State) : State :=
  match s.cal.want with
  | some (cause, die) => if s.cal.run.isSome then s else s.calStart cause die
  | none => s

/-- References taken back from the partner, per port (R366): each acts as a REF_LOAD of every cell. -/
def State.restoreRefs (s : State) (refs : List (Nat × List Word)) : State :=
  if !s.mlk.restore then s
  else
    let s := s.putMlk { s.mlk with restore := false }
    let due := refs.filter (fun r => s.loopPorts.contains r.1 && !s.flag (BRL_PORT_STATUS.REF_LOADED r.1))
    let s := due.foldl (fun s r => (s.actRefLoad r.1 0 r.2).1) s
    if due = [] then s else s.setFlag MLK_PAIR_STATUS.REF_RESTORED true

/-- Everything a round start applies once its number is known and its commands are due (R24): `old` is the state before.
DEDUCED, log entry 38; DEDUCED, log entry 97. -/
def State.applyRound (old s : State) (refs : List (Nat × List Word)) : State :=
  let zones := zonePorts s.ctl.round s.hif.cmds
  let s := s.actRound.calApply.calBegin
  let s := ((s.restoreRefs refs).rangeRound zones).takeApr
  let s := s.degEnd.pumpLoop.pumpRound
  let s := State.fltRound old s.beltRound.gateRound
  s.brlRound.predictRound.safetyCrc.settle.mirrorChanges.tryArm

/-- ROUND_START (R22): due after a START or in a running device, unless a stop is requested or a takeover waits, and not before the
tick a belt-locked round starts at (R79). `refs`: the
references the partner holds, for a restore that is due (R366). -/
def State.roundStart (s : State) (refs : List (Nat × List Word)) : State :=
  if s.ctl.dev = .setup && s.sched.starting then State.applyRound s s.nextRound.firstRound refs
  else if !s.isRunning || !s.sched.started || s.ctl.stopPending || s.mlk.wait then s
  else if s.stopDue then s.stopRound
  else if !s.roundDue then s
  else State.applyRound s s.beltRoundStart.nextRound refs

/-- ROUND_START. -/
def execRoundStart (refs : List (Fin 12 × List Word)) (s : State) : Host.Outcome State Fault Refusal :=
  .next (s.roundStart (refs.map (fun r => (r.1.val, r.2))))

/-! The takeover round start (R370, R373, R440). -/

/-- The first covering frame of a loop port clears its relative-temperature sums beyond the home range. DEDUCED, log entry 58.
-/
def State.lfExtend (s : State) (home : Cfg) (n : Nat) : State :=
  if !s.flag (PRT_LF_CFG.LF_EN n) then s
  else
    let bins := match Cfg.firstEntry home n with | some e => (home.plan e.plan).bins | none => 0
    s.setPort n { s.port n with lf := { (s.port n).lf with extend := some bins } }

/-- The takeover configuration comes into force; the home configuration of a takeover in force already stays kept. DEDUCED, log entry
83. -/
def State.takeOver (s : State) : State :=
  let home := s.homeCfg
  let s := (s.takeCfg (tkoCfg s.regs)).resetShadow
  let s := s.putMlk { s.mlk with wait := false, home := some home }
  let s := s.loopPorts.foldl (fun s n => (s.brlExtend n).lfExtend home n) s
  let s := (s.bump MLK_TKO_COUNT.reg).setReg64 MLK_TKO_ROUND_LO.reg (s.ctl.round % 2 ^ 48)
  let mask := s.loopPorts.foldl (fun m n => putBit m n true) 0
  (s.raiseEvent 50 (mask + s.ctl.round % 2 ^ 16 * 2 ^ 16)).calAgain

/-- TAKEOVER_ROUND_START (R370): 20 µs after a declaration. -/
def execTakeoverRoundStart (s : State) : Host.Outcome State Fault Refusal :=
  .next (
    if !s.isRunning || !s.mlk.wait || s.ctl.stopPending then s
    else if s.stopDue then s.stopRound
    else
      let n := s.nextRound
      State.applyRound s (n.putSched { n.sched with started := true, lag := false, stall := false }).takeOver [])

end Sys2Proof.Machine
end

