-- ==== Sys2Proof/Machine/Control.lean ====
section
/-!
DEFINITION. GLB_CTRL: START, STOP and its completion, the host's entry to SAFE, and SOFT_RESET (R28, R33, R34, R394).
-/
namespace Sys2Proof.Machine

/-! START (R28, R33, R369, R370). -/

/-- A START in a takeover commits the takeover configuration again; the home configuration stays kept (R370). DESIGN CHOICE,
log entry 36. -/
def State.startCfg (s : State) : State :=
  if !s.flag MLK_PAIR_STATUS.TKO_ACTIVE then s
  else
    let home := s.homeCfg
    let s := s.putCfg (tkoCfg s.regs)
    let s := s.putMlk { s.mlk with wait := false, home := some home }
    s.loopPorts.foldl (fun s n => s.setFlag (BRL_PORT_STATUS.LOOP_ACTIVE n) true) s

/-- The streams of a port begin afresh: the receiver and the latest level profile stay (R33, R116, R126). A level profile under
way is discarded, which counts no restart (R130), and the break bin of the last frame before is forgotten, so that no pair of
frames of R133 spans a STOP. DESIGN CHOICE, log entry 118. -/
def State.streamStart (s : State) (n : Nat) : State :=
  let p := s.port n
  (s.setPort n { rx := p.rx, prof := p.prof, flt := p.flt }).setFlag (PRT_INTEG_STATUS.LF_REF_BAD n) false

/-- The scheduler waits for its first round start (R28). -/
def State.schedStart (s : State) : State :=
  let pos := if Cfg.replicaCycle s.sched.shadow = Cfg.replicaCycle s.sch then s.sched.replicaPos else 0
  s.putSched { shadow := s.sch, starting := true, replicaPos := pos, apr := s.fld SRC_APR_PORTS.APR }

/-- A START whose configuration passed its check. DEDUCED, log entry 97. -/
def State.begin (s : State) : State :=
  let s := s.snapAtStart
  let s := s.schedStart.clearPending.showRates
  let s := s.putMlk { s.mlk with wasArmed := false }
  let s := (List.range s.ports).foldl (fun s n => s.streamStart n) s
  let s := (s.setNat AUX_PASS_NUM.reg 0).putAux { s.aux with hist := [] }
  let s := s.beltStart
  let s := s.fltStart.brlStart.safetyCrc.checkTko.calTempTest
  s.settle

/-- GLB_CTRL.START: the configuration is checked, and the device starts or stays in SETUP with COMMIT_FAIL set (R28, R80). A
START while a BOOT_RESUME runs is ignored (R425). DESIGN CHOICE, log entry 36. -/
def State.start (s : State) : State :=
  if s.ctl.dev ≠ .setup || s.supply.inReset || s.flag GLB_BOOT_STATUS.RESUMING then s
  else
    let s := (s.putCtl { s.ctl with commitFail := false }).startCfg
    let r := s.checkCommit none s.sch
    let s := s.showCommit r
    if r.reason ≠ 0 then (s.putCtl { s.ctl with commitFail := true }) else s.begin

/-- START. DESIGN CHOICE, log entry 36. -/
def execStart (s : State) : Host.Outcome State Fault Refusal := .next s.start

/-! STOP (R28, R303). -/

/-- GLB_CTRL.STOP. -/
def State.stop (s : State) : State := if s.isRunning && !s.ctl.stopPending then s.requestStop else s

/-- STOP. -/
def execStop (s : State) : Host.Outcome State Fault Refusal := .next s.stop

/-- Nothing is left of a stop: every turn of the last round has fallen due, and no frame of a launched turn is incomplete
(R28). DEDUCED, log entry 37. -/
def State.drained (s : State) : Bool :=
  s.sched.flight.all Turn.missing && s.sched.sliding.isNone && (!s.launching || s.dueEntry.isNone)

/-- The state change to SETUP (R28, R33, R117, R163, R202, R218, R248, R440). DEDUCED, log entry 37; DEDUCED, log entry 43. -/
def State.stopDone (s : State) : State :=
  let s := s.reportDefer.gapStop.calAbort
  let s := (List.range 16).foldl (fun s k => s.beginStop k stopDevice) s
  let s := s.fltStop.brlStop.beltStop
  let s := (List.range 16).foldl (fun s u => s.trgStop u) s
  let s := s.haltSched.resetShadow
  let s := s.completeWhere (fun _ => true) 0 { code := resStopped }
  let s := s.putCtl { s.ctl with stopPending := false }
  let s := s.putMlk { s.mlk with wait := false }
  s.disarm.enterSetup.settle

/-- STOP_COMPLETE (R28). DEDUCED, log entry 37. -/
def execStopComplete (s : State) : Host.Outcome State Fault Refusal :=
  .next (if s.isRunning && s.ctl.stopPending && s.drained then s.stopDone else s)

/-! SAFE and SOFT_RESET (R28, R394). -/

/-- GLB_CTRL.ENTER_SAFE. -/
def State.hostSafe (s : State) : State := if s.supply.inReset then s else s.enterSafe 0xFE

/-- ENTER_SAFE. -/
def execEnterSafe (s : State) : Host.Outcome State Fault Refusal := .next s.hostSafe

/-- SOFT_RESET (R34, R417). -/
def execSoftReset (s : State) : Host.Outcome State Fault Refusal := .next (s.resetBy 7 0)

/-- A write of GLB_CTRL acts on the highest bit that counts as set (R34). -/
def State.writeGlbCtrl (s : State) (w : Word) : State :=
  if GLB_CTRL.SOFT_RESET.get w = 1 ∧ GLB_CTRL.RESET_KEY.get w = 0xD5 then s.resetBy 7 0
  else if GLB_CTRL.ENTER_SAFE.get w = 1 then s.hostSafe
  else if GLB_CTRL.STOP.get w = 1 then s.stop
  else if GLB_CTRL.START.get w = 1 then s.start
  else s

end Sys2Proof.Machine
end

