-- ==== Sys2Proof/Machine/Deflate.lean ====
section
/-!
DEFINITION. The stream a DEFLATE engine makes of a payload (R331): greedy matches found through a hash of three bytes, and one
dynamic block with BFINAL = 1 under RFC 1951, which the rule names.  PRESUMED, log entry 16: the tables of length and distance
codes and the block header are RFC 1951's.  The hash, how code lengths are built from the symbol counts and how they are listed
in the header are left open: free values, within the limits of the rule.
-/
namespace Sys2Proof.Machine

/-! Matches. -/

/-- A symbol before its code: a literal, or a match of a length at a distance. -/
inductive Token where
  | lit (b : Byte)
  | copy (len dist : Nat)
  deriving DecidableEq, Repr

/-- How many bytes two lists begin with in common, at most `n`. -/
def commonLen : Nat → List Byte → List Byte → Nat
  | n + 1, a :: as, b :: bs => if a = b then commonLen n as bs + 1 else 0
  | _, _, _ => 0

/-- The hash of the next three bytes; none with fewer left. -/
def hashOf : List Byte → Option Nat
  | a :: b :: c :: _ => some (Config.hash3 a b c)
  | _ => none

/-- Positions of `before`, nearest first, that have the hash of `at_`: each with its distance and the text from there on. `tail`
is the text from the position just behind. -/
def candidates (h : Nat) : Nat → List Byte → List Byte → List (Nat × List Byte)
  | _, _, [] => []
  | d, text, b :: before =>
    let text := b :: text
    (if hashOf text = some h then [(d, text)] else []) ++ candidates h (d + 1) text before

/-- The longest match, the nearest on a tie. -/
def longest (at_ : List Byte) : List (Nat × List Byte) → Nat × Nat
  | [] => (0, 0)
  | (d, text) :: cs =>
    let n := commonLen 258 text at_
    let r := longest at_ cs
    if r.1 ≤ n then (n, d) else r

/-- The match at a position: of at most 8 earlier positions with its hash, nearest first, none farther than 32,768 bytes.
`before` is what precedes it in the payload, nearest first. -/
def matchAt (before at_ : List Byte) : Option (Nat × Nat) :=
  match hashOf at_ with
  | none => none
  | some h =>
    let r := longest at_ (((candidates h 1 at_ before).take 8).filter (fun c => decide (c.1 ≤ 32768)))
    if 3 ≤ r.1 then some r else none

/-- Greedy matching; `skip` bytes are still covered by the match before. -/
def tokens : Nat → List Byte → List Byte → List Token
  | _, _, [] => []
  | skip + 1, before, b :: rest => tokens skip (b :: before) rest
  | 0, before, b :: rest =>
    match matchAt before (b :: rest) with
    | some (n, d) => .copy n d :: tokens (n - 1) (b :: before) rest
    | none => .lit b :: tokens 0 (b :: before) rest

/-! Symbols (RFC 1951, 3.2.5). -/

/-- The lowest length or distance of each code. -/
def lengthBases : List Nat :=
  [3, 4, 5, 6, 7, 8, 9, 10, 11, 13, 15, 17, 19, 23, 27, 31, 35, 43, 51, 59, 67, 83, 99, 115, 131, 163, 195, 227, 258]
def distBases : List Nat :=
  [1, 2, 3, 4, 5, 7, 9, 13, 17, 25, 33, 49, 65, 97, 129, 193, 257, 385, 513, 769, 1025, 1537, 2049, 3073, 4097, 6145, 8193,
   12289, 16385, 24577]

/-- Extra bits of length code 257 + `c`, and of distance code `c`. -/
def lengthExtra (c : Nat) : Nat := if c < 8 || c == 28 then 0 else c / 4 - 1
def distExtra (c : Nat) : Nat := if c < 4 then 0 else c / 2 - 1

/-- The code of a value: the last whose lowest value does not pass it. -/
def codeIn (bases : List Nat) (x : Nat) : Nat := (bases.filter (fun b => decide (b ≤ x))).length - 1

/-- The `n` low bits of a number, least significant first, as RFC 1951 packs every field but a code. -/
def bitsLsb : Nat → Nat → List Bool
  | 0, _ => []
  | n + 1, x => (x % 2 == 1) :: bitsLsb n (x / 2)

/-- A token's symbols: alphabet (false: literals and lengths, true: distances), code, and extra bits. -/
def Token.symbols : Token → List (Bool × Nat × List Bool)
  | .lit b => [(false, b.toNat, [])]
  | .copy n d =>
    let c := codeIn lengthBases n
    let k := codeIn distBases d
    [(false, 257 + c, bitsLsb (lengthExtra c) (n - lengthBases.getD c 0)),
     (true, k, bitsLsb (distExtra k) (d - distBases.getD k 0))]

/-! Codes (RFC 1951, 3.2.2). -/

/-- Code lengths within a limit form the complete prefix code of exactly the symbols that occur; a lone symbol takes one bit. -/
def lengthsFit (limit : Nat) (counts lens : List Nat) : Bool :=
  let used := lens.filter (fun l => l != 0)
  lens.length == counts.length && (lens.zip counts).all (fun (l, c) => (l == 0) == (c == 0))
    && used.all (fun l => decide (l ≤ limit))
    && (if used.length ≤ 1 then used.all (fun l => l == 1)
        else used.foldl (fun n l => n + 2 ^ (limit - l)) 0 == 2 ^ limit)

/-- Lengths that always fit: of `n` symbols, the first ones one bit shorter than the others. -/
def plainLengths (counts : List Nat) : List Nat :=
  let n := (counts.filter (fun c => c != 0)).length
  let k := Nat.log2 n
  if n ≤ 1 then counts.map (fun c => if c = 0 then 0 else 1)
  else (counts.foldl (fun (ls, i) c => if c = 0 then (0 :: ls, i) else ((if i < 2 ^ (k + 1) - n then k else k + 1) :: ls, i + 1))
    (([] : List Nat), 0)).1.reverse

/-- The code lengths built from symbol counts: left open within the limit (R331). UNVERIFIED, log entry 16. -/
def codeLengths (limit : Nat) (counts : List Nat) : List Nat :=
  let lens := Config.codeLengths limit counts
  if lengthsFit limit counts lens then lens else plainLengths counts

/-- How often each of `n` symbols occurs. -/
def symbolCounts (n : Nat) (xs : List Nat) : List Nat := (List.range n).map (fun k => xs.count k)

/-- The canonical code of symbol `k`: codes of one length follow in symbol order. -/
def codeOf (lens : List Nat) (k : Nat) : Nat :=
  let l := lens.getD k 0
  let first := (List.range l).foldl (fun c i => (c + (if i = 0 then 0 else lens.count i)) * 2) 0
  first + (lens.take k).count l

/-- The bits of a symbol's code, the most significant first. -/
def codeBits (lens : List Nat) (k : Nat) : List Bool := (bitsLsb (lens.getD k 0) (codeOf lens k)).reverse

/-! The block header (RFC 1951, 3.2.7). -/

/-- What a list of code-length symbols stands for, from the length before: 16 repeats it 3–6 times, 17 and 18 are runs of 0. -/
def runsExpand : Nat → List (Nat × Nat) → List Nat
  | _, [] => []
  | p, (k, x) :: rs =>
    if k = 16 then List.replicate (3 + x) p ++ runsExpand p rs
    else if k = 17 then List.replicate (3 + x) 0 ++ runsExpand 0 rs
    else if k = 18 then List.replicate (11 + x) 0 ++ runsExpand 0 rs
    else k :: runsExpand k rs

/-- The extra bits of a code-length symbol. -/
def runExtra (k : Nat) : Nat := if k = 16 then 2 else if k = 17 then 3 else if k = 18 then 7 else 0

/-- The symbols that list code lengths in the header: left open, but that they stand for the lengths. UNVERIFIED, log entry 16. -/
def lengthRuns (lens : List Nat) : List (Nat × Nat) :=
  let rs := Config.lengthRuns lens
  let first := match rs with | (k, _) :: _ => decide (k < 19 ∧ k ≠ 16) | [] => true
  if first && rs.all (fun r => decide (r.1 < 19) && decide (r.2 < 2 ^ runExtra r.1)) && runsExpand 0 rs == lens then rs
  else lens.map (fun l => (l, 0))

/-- The order in which the header gives the lengths of the code-length code. -/
def runOrder : List Nat := [16, 17, 18, 0, 8, 7, 9, 6, 10, 5, 11, 4, 12, 3, 13, 2, 14, 1, 15]

/-- Entries of a list of lengths up to the last in use, at least `least`. -/
def usedLen (least : Nat) (lens : List Nat) : Nat := max least (lens.length - (lens.reverse.takeWhile (fun l => l == 0)).length)

/-- The header and codes of one dynamic block with BFINAL = 1, and its symbols. -/
def blockBits (p : List Byte) : List Bool :=
  let syms := (tokens 0 [] p).flatMap Token.symbols ++ [(false, 256, [])]
  let of (a : Bool) := (syms.filter (fun s => s.1 == a)).map (fun s => s.2.1)
  let lit := codeLengths 15 (symbolCounts 286 (of false))
  let dist := codeLengths 15 (symbolCounts 30 (of true))
  let nl := usedLen 257 lit
  let nd := usedLen 1 dist
  let runs := lengthRuns (lit.take nl ++ dist.take nd)
  let cl := codeLengths 7 (symbolCounts 19 (runs.map Prod.fst))
  let order := runOrder.map (fun k => cl.getD k 0)
  let nc := usedLen 4 order
  [true, false, true] ++ bitsLsb 5 (nl - 257) ++ bitsLsb 5 (nd - 1) ++ bitsLsb 4 (nc - 4)
    ++ (order.take nc).flatMap (bitsLsb 3)
    ++ runs.flatMap (fun r => codeBits cl r.1 ++ bitsLsb (runExtra r.1) r.2)
    ++ syms.flatMap (fun s => codeBits (if s.1 then dist else lit) s.2.1 ++ s.2.2)

/-- Bits into bytes, the first bit least significant; the last byte is filled with 0. -/
def packBits : List Bool → List Byte
  | a :: b :: c :: d :: e :: f :: g :: h :: t =>
    BitVec.ofNat 8 ([a, b, c, d, e, f, g, h].foldr (fun x n => 2 * n + x.toNat) 0) :: packBits t
  | [] => []
  | t => [BitVec.ofNat 8 (t.foldr (fun x n => 2 * n + x.toNat) 0)]

/-- The dynamic stream of a payload (R331). UNVERIFIED, log entry 16. -/
def deflate (p : List Byte) : List Byte := packBits (blockBits p)

end Sys2Proof.Machine
end

