-- ==== Sys2Proof/Machine/HostRows.lean ====
section
/-!
DEFINITION. Rings, reads, blocks on their way to the host, compression and MSI-X (R9–R12, R288–R293, R310–R316, R331–R333).
-/
namespace Sys2Proof.Machine

/-! Doorbells and ring control (R288, R289, R292, R293). -/

/-- Descriptors between head and a tail. -/
def State.ringPosted (s : State) (r tail : Nat) : Nat := (tail + 65536 - s.fld (HIF_RING_INDEX.HEAD r)) % 65536

/-- A doorbell write: a new tail with the descriptors it posts, or DOORBELL_RANGE; a stalled ring re-reads its descriptor. -/
def State.doorbell (s : State) (r tail : Nat) (descs : List Desc) : State :=
  if !s.flag (HIF_RING_CTRL.EN r) then s
  else
    let n := s.ringPosted r tail
    if s.ringSize r < n || n < s.ringPosted r (s.fld (HIF_RING_INDEX.TAIL r)) then s.ringError r 1
    else
      let s := s.setFld (HIF_RING_INDEX.TAIL r) tail
      let s := s.setRing r { s.ring r with posted := descs.take n }
      s.setFlag (HIF_RING_STATUS.STALLED r) false

/-- DOORBELL (R289): `descs`: every descriptor from the head to the new tail, as host memory holds it. DESIGN CHOICE, log
entry 88. -/
def execDoorbell (r : Fin 32) (tail : BitVec 16) (descs : List Desc) (s : State) : Host.Outcome State Fault Refusal :=
  .next (s.doorbell r.val tail.toNat descs)

/-- A write of HIF_RINGr_CTRL (R293). -/
def State.writeRingCtrl (s : State) (r : Nat) (w : Word) : State :=
  let was := s.flag (HIF_RING_CTRL.EN r)
  let size := s.fld (HIF_RING_CTRL.SIZE_LOG2 r)
  let s := s.storeWord (HIF_RING_CTRL.reg r) w
  let s := if was then s.setFld (HIF_RING_CTRL.SIZE_LOG2 r) size else s
  let now := s.flag (HIF_RING_CTRL.EN r)
  if now && !was then
    let moved := s.fld (HIF_RING_INDEX.HEAD r) != 0
    let s := s.setNat (HIF_RING_INDEX.reg r) 0
    let s := s.setNat (HIF_RING_STATUS.reg r) 0
    -- a head that changes goes to its shadow (R291)
    if moved then (s.setRing r {}).writeShadow r else s.setRing r {}
  else if was && !now then s.setRing r { s.ring r with posted := [] }
  else s

/-- A write of HIF_RINGr_BASE: ignored while EN = 1 (R293). -/
def State.writeRingBase (s : State) (r off : Nat) (w : Word) : State :=
  if s.flag (HIF_RING_CTRL.EN r) then s else s.storeWord off w

/-- RING_CTRL_WRITE (R293). -/
def execRingCtrlWrite (r : Fin 32) (w : Word) (s : State) : Host.Outcome State Fault Refusal := .next (s.writeRingCtrl r.val w)

/-- HOST_DMA_ERROR (R292): DMA_FAULT disables the ring. -/
def execHostDmaError (r : Fin 32) (s : State) : Host.Outcome State Fault Refusal :=
  .next (
    if !s.flag (HIF_RING_CTRL.EN r.val) then s
    else
      let s := (s.setFlag (HIF_RING_CTRL.EN r.val) false).setRing r.val { s.ring r.val with posted := [] }
      s.ringError r.val 4)

/-! Reads (R9–R12). -/

/-- LO_WORD_READ (R11): the low word of a pair is returned, and the high word of that instant goes to the pair's latch.
DEDUCED, log entry 9. -/
def execLoWordRead (off : Nat) (s : State) : Host.Outcome State Fault Refusal :=
  .next (
    if isPairLo off then
      (s.putRdData (s.readReg off)).putLatches (SMap.put (fun _ => 0) s.latches off (s.readReg (off + 4)))
    else s)

/-- BAR0_BAD_ACCESS (R9). -/
def execBar0BadAccess (write : Bool) (s : State) : Host.Outcome State Fault Refusal :=
  .next ((if write then s else (s.putRdData 0)).raiseEvent 47 1)

/-- AER_ERROR (R316): correctable, non-fatal or fatal. DESIGN CHOICE, log entry 105. -/
def execAerError (kind : Fin 3) (s : State) : Host.Outcome State Fault Refusal := .next (s.raiseEvent 47 (3 + kind.val))

/-! Blocks (R290, R298, R331–R333). -/

/-- BLOCK_WRITE (R298): the oldest block or record due on ring `r` is written into posted descriptors, or discarded whole.
DEDUCED, log entry 87. -/
def execBlockWrite (r : Fin 32) (s : State) : Host.Outcome State Fault Refusal := .next (s.writeBlock r.val).1

/-- A payload in stored DEFLATE blocks (R331). UNVERIFIED, log entry 16. -/
def storedStream (p : List Byte) : List Byte :=
  let blk (final : Bool) (d : List Byte) : List Byte :=
    leBytes 1 (if final then 1 else 0) ++ leBytes 2 d.length ++ leBytes 2 (65535 - d.length) ++ d
  if p.length ≤ 65535 then blk true p else blk false (p.take 65535) ++ blk true (p.drop 65535)

/-- Take the block of engine `e`, with what stands before it, in order. DEDUCED, log entry 90. -/
def takeEngine (e : Nat) : List Block → Option (List Block × Block × List Block)
  | [] => none
  | b :: bs =>
    if b.stage = .engine e then some ([], b, bs) else (takeEngine e bs).map (fun (h, x, t) => (b :: h, x, t))

/-- A compressed or stored block returns to its place among the blocks due, or is lost when the output buffer cannot hold it
(R333). -/
def State.settleBlock (s : State) (before : List Block) (b : Block) (after : List Block) : State :=
  let s := s.setReg64 CMP_OUT_BYTES_LO.reg (s.reg64 CMP_OUT_BYTES_LO.reg + b.stream.length)
  let s := s.putHif { s.hif with out := before ++ after }
  if outCapacity < s.outBytes + b.size then ((s.bump CMP_LINK_DROP_COUNT.reg).loseBlock b).dropRest b before after
  else s.putHif { s.hif with out := before ++ { b with stage := .ready } :: after }

/-- COMPRESS_COMPLETE (R331): engine `e` finishes; a stream no shorter than its payload is replaced by stored blocks.
UNVERIFIED, log entry 16. -/
def execCompressComplete (e : Fin 4) (s : State) : Host.Outcome State Fault Refusal :=
  .next (
    match takeEngine e.val s.hif.out with
    | none => s
    | some (before, b, after) =>
      let z := deflate b.payload
      let s := s.setFld CMP_ENGINE_BUSY.BUSY (putBit (s.fld CMP_ENGINE_BUSY.BUSY) e.val false)
      let s :=
        if b.payload.length ≤ z.length then
          (s.bump CMP_STORED_COUNT.reg).settleBlock before
            { b with stream := storedStream b.payload, stored := true, compressed := true } after
        else s.settleBlock before { b with stream := z, compressed := true } after
      s.feedEngines 4)

/-- Take the oldest block that waits for an engine. DEDUCED, log entry 90. -/
def takeWaiting : List Block → Option (List Block × Block × List Block)
  | [] => none
  | b :: bs =>
    match b.stage with
    | .waiting _ => some ([], b, bs)
    | _ => (takeWaiting bs).map (fun (h, x, t) => (b :: h, x, t))

/-- CMP_BYPASS (R332): the oldest waiting block has waited MAX_WAIT_US and is emitted stored. DEDUCED, log entry 90. -/
def execCmpBypass (s : State) : Host.Outcome State Fault Refusal :=
  .next (
    match takeWaiting s.hif.out with
    | none => s
    | some (before, b, after) =>
      (s.bump CMP_BYPASS_COUNT.reg).settleBlock before
        { b with stream := storedStream b.payload, stored := true, compressed := true } after)

/-! Hold-offs and vectors (R313, R314). -/

/-- EVENT_HOLDOFF_EXPIRY (R313): merged raises are written as one record, and the hold-off starts again. DEDUCED, log entry
103. -/
def execEventHoldoffExpiry (q : Fin 64) (s : State) : Host.Outcome State Fault Refusal :=
  .next (
    let h := s.evHold q.val
    if !h.running then s
    else if h.merged = 0 then s.setEvHold q.val {}
    else (s.pushRecord 2 (eventRecord q.val h.merged h.detail h.time h.round)).setEvHold q.val { running := true })

/-- MSIX_HOLDOFF_EXPIRY (R314). -/
def execMsixHoldoffExpiry (v : Fin 32) (s : State) : Host.Outcome State Fault Refusal :=
  .next (
    let s := s.putHif { s.hif with vecHold := setVec s.hif.vecHold v.val false }
    if s.hif.vecPend.getLsbD v.val then
      (s.putHif { s.hif with vecPend := setVec s.hif.vecPend v.val false }).pendVec v.val false
    else s)

/-- A write of word `k` of the MSI-X table; unmasking a vector that is pending in the array sends it, subject to its
hold-off (R314). -/
def State.writeMsix (s : State) (k : Nat) (w : Word) : State :=
  let v := k / 4
  let was := s.vecMasked v
  let s := s.putHif { s.hif with msix := SMap.put msixDefault s.hif.msix k w }
  if k % 4 = 3 && was && !s.vecMasked v && s.hif.pba.getLsbD v then
    (s.putHif { s.hif with pba := setVec s.hif.pba v false }).pendVec v false
  else if k % 4 = 3 && !was && s.vecMasked v && s.hif.vecPend.getLsbD v then
    s.putHif { s.hif with pba := setVec s.hif.pba v true, vecPend := setVec s.hif.vecPend v false }
  else s

/-- MSIX_UNMASK (R314): the vector control word of `v` is written with its mask bit 0. DEDUCED, log entry 102. -/
def execMsixUnmask (v : Fin 32) (s : State) : Host.Outcome State Fault Refusal := .next (s.writeMsix (4 * v.val + 3) 0)

end Sys2Proof.Machine
end

