-- ==== Sys2Proof/Machine/Qspi.lean ====
section
/-!
DEFINITION. The QSPI flash as the host reaches it (R431, R432).
-/
namespace Sys2Proof.Machine

/-- Codes of GLB_QSPI_STATUS.ERR. -/
def qspiRefused : Nat := 1
def qspiRange : Nat := 2
def qspiBadOp : Nat := 3
def qspiBoot : Nat := 4
def qspiTimeout : Nat := 5
def qspiNoFlash : Nat := 6

/-- LEN of a command: 0 acts as 1, above 256 as 256. -/
def State.qspiLen (s : State) : Nat := clampNat 1 256 (s.fld GLB_QSPI_CMD.LEN)

/-- The flash bytes an operation touches: address and length. DEDUCED, log entry 95. -/
def State.qspiSpan (s : State) (op addr : Nat) : Nat × Nat :=
  match op with
  | 2 => (addr / 0x1000 * 0x1000, 0x1000)
  | 3 => (addr / 0x10000 * 0x10000, 0x10000)
  | 4 => (0, 0)
  | _ => (addr, s.qspiLen)

/-- The operation touches the slot loaded at the latest BOOT; never while IMAGE_NONE = 1. -/
def State.touchesSlot (s : State) (sp : Nat × Nat) : Bool :=
  let lo := s.fld GLB_IMAGE_STATUS.SLOT * 0x400000
  !s.ctl.imageNone && decide (sp.1 < lo + 0x400000) && decide (lo < sp.1 + sp.2)

/-- The address or length lies beyond the flash (its size when SFDP gave one), or a PROGRAM crosses a page. -/
def State.qspiBadRange (s : State) (op : Nat) (sp : Nat × Nat) : Bool :=
  let size := s.fld GLB_QSPI_STATUS.SIZE_MIB * 2 ^ 20
  (size != 0 && decide (size < sp.1 + sp.2)) || (op == 1 && sp.1 / s.qspi.page != (sp.1 + sp.2 - 1) / s.qspi.page)

/-- Why an operation is refused; 0 when it starts. -/
def State.qspiCheck (s : State) (op addr : Nat) : Nat :=
  let sp := s.qspiSpan op addr
  if s.ctl.dev = .boot && s.ctl.bootStep = 2 then qspiBoot
  else if 5 ≤ op then qspiBadOp
  else if !s.qspi.found then qspiNoFlash
  else if s.qspiBadRange op sp then qspiRange
  else if 1 ≤ op && op ≤ 3 && s.touchesSlot sp then qspiRefused
  else 0

/-- DETAIL of EV63 (R432); bit 3 for a flash operation. -/
def State.imageDetail (s : State) (op : Bool) (err : Nat) : Nat :=
  let seq := if s.fld GLB_IMAGE_STATUS.SLOT = 0 then s.reg GLB_IMAGE_SEQ0.reg else s.reg GLB_IMAGE_SEQ1.reg
  s.fld GLB_IMAGE_STATUS.SLOT + bitAt (s.flag GLB_IMAGE_STATUS.FALLBACK) 1 + bitAt s.ctl.imageNone 2 + bitAt op 3
    + err * 16 + (if s.ctl.imageNone then 0 else seq.toNat % 2 ^ 16 * 2 ^ 16)

/-- An operation completes: DONE, ERR and EV63. -/
def State.qspiDone (s : State) (err : Nat) : State :=
  let s := (s.setFlag GLB_QSPI_STATUS.BUSY false).setFlag GLB_QSPI_STATUS.DONE true
  let s := (s.setFld GLB_QSPI_STATUS.ERR err).putQspi { s.qspi with op := none }
  s.raiseEvent 63 (s.imageDetail true err)

/-- A write of GLB_QSPI_CMD: ignored while BUSY; START begins the operation, or refuses it. -/
def State.writeQspiCmd (s : State) (w : Word) : State :=
  if s.flag GLB_QSPI_STATUS.BUSY then s
  else
    let s := s.storeWord GLB_QSPI_CMD.reg w
    if GLB_QSPI_CMD.START.get w = 0 then s
    else
      let op := s.fld GLB_QSPI_CMD.OP
      let addr := (s.reg GLB_QSPI_ADDR.reg).toNat
      let err := s.qspiCheck op addr
      if err ≠ 0 then s.qspiDone err
      else
        (s.setFlag GLB_QSPI_STATUS.BUSY true).putQspi { s.qspi with op := some (op, addr, s.qspiLen) }

/-- QSPI_READ. -/
def execQspiRead (w : Word) (s : State) : Host.Outcome State Fault Refusal := .next (s.writeQspiCmd w)

/-- QSPI_PROGRAM. -/
def execQspiProgram (w : Word) (s : State) : Host.Outcome State Fault Refusal := .next (s.writeQspiCmd w)

/-- QSPI_ERASE_4K. -/
def execQspiErase4k (w : Word) (s : State) : Host.Outcome State Fault Refusal := .next (s.writeQspiCmd w)

/-- QSPI_ERASE_64K. -/
def execQspiErase64k (w : Word) (s : State) : Host.Outcome State Fault Refusal := .next (s.writeQspiCmd w)

/-- QSPI_READ_ID. -/
def execQspiReadId (w : Word) (s : State) : Host.Outcome State Fault Refusal := .next (s.writeQspiCmd w)

/-- Byte `i` of the buffer. -/
def State.qspiByte (s : State) (i : Nat) : Byte :=
  BitVec.ofNat 8 ((s.reg (GLB_QSPI_BUF.reg (i / 4))).toNat / 2 ^ (8 * (i % 4)))

/-- Put bytes into the buffer from byte `i`. DEDUCED, log entry 95. -/
def State.qspiFill (s : State) : Nat → List Byte → State
  | _, [] => s
  | i, b :: bs =>
    let off := GLB_QSPI_BUF.reg (i / 4)
    let f : Fld := ⟨off, 8 * (i % 4), 8⟩
    (s.setFld f b.toNat).qspiFill (i + 1) bs

/-- Programming clears bits of the flash: the cell becomes old AND new. DEDUCED, log entry 95. -/
def State.flashProgram (s : State) (addr : Nat) : Nat → State
  | 0 => s
  | n + 1 =>
    let s := s.flashProgram addr n
    s.putFlash (Memory.setByte 0xFF s.flash (addr + n) (Memory.byte 0xFF s.flash (addr + n) &&& s.qspiByte n))

/-- QSPI_COMPLETE (R431): `timeout`: the flash stayed busy for 4 s; `data`: the identification bytes of READ_ID, or what an
operation that timed out left in the bytes it touches. DEDUCED, log entry 5; DEDUCED, log entry 95. -/
def execQspiComplete (timeout : Bool) (data : List Byte) (s : State) : Host.Outcome State Fault Refusal :=
  .next (
    match s.qspi.op with
    | none => s
    | some (op, addr, len) =>
      let sp := s.qspiSpan op addr
      if timeout then
        (if op = 0 ∨ op = 4 then s
         else (s.putFlash (Memory.setBytes 0xFF s.flash sp.1 (data.take sp.2)))).qspiDone qspiTimeout
      else
        let s := match op with
          | 0 => s.qspiFill 0 (Memory.bytes 0xFF s.flash addr len)
          | 1 => s.flashProgram addr len
          | 4 => s.qspiFill 0 (data.take 3)
          | _ => s.putFlash (Memory.clearRange s.flash sp.1 sp.2)
        s.qspiDone 0)

end Sys2Proof.Machine
end

