-- ==== Sys2Proof/Machine/RegWrites.lean ====
section
/-!
DEFINITION. Writes of registers through BAR0: what each register adds to its field types (R6, R10, R285).
-/
namespace Sys2Proof.Machine

/-! What follows a change of settings in BOOT or SETUP; `old` is the state before the write. -/

/-- SRC_LOSHIFT: a new shift is not settled (R46). -/
def State.loshiftFollow (old s : State) : State :=
  if old.fld SRC_LOSHIFT.FREQ_MHZ = s.fld SRC_LOSHIFT.FREQ_MHZ then s else s.setFlag SRC_LOSHIFT.SETTLED false

/-- BRL_REGION: a change of BASE_MIB clears REF_LOADED (R168). -/
def State.regionFollow (old s : State) : State :=
  if old.fld BRL_REGION.BASE_MIB = s.fld BRL_REGION.BASE_MIB then s
  else (List.range s.ports).foldl (fun s n => s.setFlag (BRL_PORT_STATUS.REF_LOADED n) false) s

/-- The status registers of the filter chains and user sets (R143, R149). -/
def State.filterFollow (old s : State) : State :=
  let s := (List.range 8).foldl (fun s u => if old.userSet u = s.userSet u then s else s.showUser u) s
  (List.range s.ports).foldl (fun s n => if old.fltShown n = s.fltShown n then s else s.showFlt n) s

/-- A change of N or W clears the history of a diagnostic (R391). -/
def State.diagFollow (old s : State) : State :=
  (List.range 27).foldl (fun s d =>
    if old.diagN d = s.diagN d ∧ old.diagW d = s.diagW d then s
    else (List.range 16).foldl (fun s p => s.setDiag d p { s.diag d p with times := [], lasting := (s.diag d p).lasting && diagReaction d != 0 }) s) s

/-- What follows a write at an offset, by the block it lies in. -/
def State.follow (old s : State) (off : Nat) : State :=
  if inBlock 0x10000 0x20000 off then State.ppsChange old s
  else if inBlock 0x30000 0x40000 off then State.loshiftFollow old s
  else if inBlock 0xC0000 0xD0000 off then State.regionFollow old s
  else if inBlock 0xD0000 0xE0000 off then State.bltChange old s
  else if inBlock 0x100000 0x140000 off then State.filterFollow old s
  else if inBlock 0x1C0000 0x1D0000 off then State.auxChange old s
  else if inBlock 0x1D0000 0x1E0000 off then (State.pairChange old s).linkFollow
  else if inBlock 0x1E0000 0x1F0000 off then (State.diagFollow old s).settle
  else s

/-- A diagnostic whose N and W are fixed, or a reserved one, ignores writes of its settings (R387). DEDUCED, log entry 19. -/
def diagCfgFixed (off : Nat) : Bool :=
  (List.range 32).any (fun d => off == SAF_DIAG_CFG.reg d && (diagFixed d || decide (27 ≤ d)))

/-- A write by field types and ignored values, with what follows it (R6, R285). DEDUCED, log entry 19. -/
def State.plainWrite (s : State) (off : Nat) (w : Word) : State :=
  if s.isSetup && diagCfgFixed off then s
  else State.follow s (s.storeWord off (if s.isSetup then keepRanged off (s.reg off) w else w)) off

/-! Registers with an action of their own. -/

/-- Registers of the GLB block. -/
def State.writeGlb (s : State) (off : Nat) (w : Word) : State :=
  if off = GLB_CTRL.reg then s.writeGlbCtrl w
  else if off = GLB_BOOT_CTRL.reg then s.writeBootCtrl w
  else if off = GLB_QSPI_CMD.reg then s.writeQspiCmd w
  else if inBlock GLB_QSPI_ADDR.reg 0x200 off && s.flag GLB_QSPI_STATUS.BUSY then s
  else s.storeWord off w

/-- Registers of the ACR block and the core memories. -/
def State.writeAcr (s : State) (off : Nat) (w : Word) : State :=
  if off = ACR_MARCH_CTRL.reg then s.writeMarchCtrl w
  else if off = ACR_FUSE_CTRL.reg then s.writeFuseCtrl w
  else match (List.range 16).find? (fun k => ACR_CTRL.reg k == off) with
    | some k => s.writeAcrCtrl k w
    | none =>
      let s := s.storeWord off w
      -- SLOT_INFO and FEED_BAD follow the feed's registers (R243)
      match (List.range 16).find? (fun k => ACR_FEED_CFG.reg k == off || ACR_FEED_BUF.reg k == off) with
      | some k => s.feedSetup k
      | none => s

/-- Registers of the HIF block and the MSI-X table; the pending-bit array is read-only. -/
def State.writeHif (s : State) (off : Nat) (w : Word) : State :=
  if inBlock 0x192000 0x192200 off && off % 4 = 0 then s.writeMsix ((off - 0x192000) / 4) w
  else match (List.range 32).find? (fun r => decide (HIF_RING_BASE_LO.reg r ≤ off) && decide (off ≤ HIF_RING_CTRL.reg r)) with
    | some r => if off = HIF_RING_CTRL.reg r then s.writeRingCtrl r w else s.writeRingBase r off w
    | none => s.storeWord off w

/-- A 32-bit write at a BAR0 offset. A doorbell's write is the row DOORBELL, which carries the descriptors it posts: here it has
no effect. -/
def State.barWrite (s : State) (off : Nat) (w : Word) : State :=
  if s.supply.inReset || off % 4 != 0 then s
  else if off < 0x10000 then s.writeGlb off w
  else if (coreWindow off).isSome then s.hostMem off (some w) []
  else if inBlock 0x140000 0x180000 off then s.writeAcr off w
  else if inBlock 0x190000 0x1A0000 off then s.writeHif off w
  else if inBlock 0x1A0000 0x1B0000 off then s
  else if off = TMB_TRIM.reg then s.writeTrim w
  else if off = SRC_LASER_CFG.reg then s.writeLaserCfg w
  else if off = BRL_REF_DATA.reg then s.refData (some w)
  else if off = DMC_CFG.reg then s.writeDmcCfg w
  else if off = SAF_ACK.reg then s.writeSafAck w
  else if off = SAF_PIN_TEST.reg then s.writeSafPinTest w
  else s.plainWrite off w

/-- REGISTER_WRITE (R6): an aligned 32-bit write at a BAR0 offset. -/
def execRegisterWrite (off : Nat) (w : Word) (s : State) : Host.Outcome State Fault Refusal := .next (s.barWrite off w)

end Sys2Proof.Machine
end

