-- ==== Sys2Proof/Machine/Boot.lean ====
section
/-!
DEFINITION. The configuration image and the end of BOOT (R423–R430, R435).
-/
namespace Sys2Proof.Machine

/-! Slot headers (R427, R429). -/

/-- Bytes of the flash; an erased byte reads 0xFF. -/
def State.flashBytes (s : State) (a n : Nat) : List Byte := Memory.bytes 0xFF s.flash a n

/-- A field of a slot's header. -/
def State.slotFld (s : State) (k at_ n : Nat) : Nat := leVal (s.flashBytes (k * 0x400000 + at_) n)

/-- SEQ, LENGTH and BODY_CRC of a slot whose header is valid. -/
def State.slotHeader (s : State) (k : Nat) : Option (Nat × Nat × Nat) :=
  let part := s.slotFld k 6 2
  let seq := s.slotFld k 8 4
  let len := s.slotFld k 12 4
  if s.slotFld k 0 4 = 0x57434647 && s.slotFld k 4 2 = 1 && (part = s.part.code || part = 0xFFFF) && seq != 0xFFFFFFFF
      && decide (len ≤ 0x3FFFC0) && (crc32c (s.flashBytes (k * 0x400000) 60)).toNat = s.slotFld k 60 4 then
    some (seq, len, s.slotFld k 16 4)
  else none

/-- The body of a slot. -/
def State.slotBody (s : State) (k len : Nat) : List Byte := s.flashBytes (k * 0x400000 + 64) len

/-- SEQ `a` is newer than SEQ `b` (R429). -/
def seqNewer (a b : Nat) : Bool :=
  let d := (a + 2 ^ 32 - b) % 2 ^ 32
  decide (1 ≤ d) && decide (d ≤ 0x7FFFFFFF)

/-- Slots with a valid header, newer first, slot 0 first when neither is newer. -/
def State.slotOrder (s : State) : List Nat :=
  match s.slotHeader 0, s.slotHeader 1 with
  | some a, some b => if seqNewer b.1 a.1 then [1, 0] else [0, 1]
  | some _, none => [0]
  | none, some _ => [1]
  | none, none => []

/-- The body of a slot passes its CRC. -/
def State.bodyOk (s : State) (k : Nat) : Bool :=
  match s.slotHeader k with
  | some (_, len, crc) => (crc32c (s.slotBody k len)).toNat == crc
  | none => false

/-! Applying a body (R428, R430). -/

/-- A bad write is counted, saturating. DEDUCED, log entry 44. -/
def State.badWrite (s : State) : State :=
  s.setFld GLB_IMAGE_STATUS.BAD_WRITES (satNat 16 (s.fld GLB_IMAGE_STATUS.BAD_WRITES + 1))

/-- An image write is discarded at an offset of GLB, HIF, DBL, the MSI-X table, the pending-bit array or the recorder window, or
where no register or window is. -/
def imageDiscards (off : Nat) : Bool :=
  off % 4 != 0 || decide (off < 0x10000) || inBlock 0x190000 0x1B0000 off || inBlock 0x200000 0x280000 off
    || ((rowOf off).isNone && (coreWindow off).isNone && !inBlock 0x1D2000 0x1E0000 off)

/-- One image write. DEDUCED, log entry 44. -/
def State.imageWrite (s : State) (off : Nat) (w : Word) : State := if imageDiscards off then s.badWrite else s.barWrite off w

/-- REG: pairs of offset and value. -/
def State.imagePairs (s : State) : List Word → State
  | o :: v :: t => (s.imageWrite o.toNat v).imagePairs t
  | _ => s

/-- BLOCK: words at consecutive offsets. -/
def State.imageWords (s : State) (off : Nat) : List Word → State
  | [] => s
  | w :: t => (s.imageWrite off w).imageWords (off + 4) t

/-- The payload of a record. DEDUCED, log entry 44. -/
def State.imageRecord (s : State) (type_ : Nat) (ws : List Word) : State :=
  match type_, ws with
  | 1, ws => s.imagePairs ws
  | 2, o :: t => s.imageWords o.toNat t
  | 2, [] => s
  | 3, tx :: rx :: _ => (s.setReg MLK_EQ_TX.reg tx).setReg MLK_EQ_RX.reg rx
  | 3, _ => s
  | _, _ => s.badWrite

/-- The records of a body; a record that overruns it ends it. DEDUCED, log entry 44. -/
def State.imageBody (s : State) : Nat → List Byte → State
  | 0, _ => s
  | _, [] => s
  | fuel + 1, bs =>
    let type_ := leVal (bs.take 2)
    let len := leVal ((bs.drop 4).take 4)
    if bs.length < 8 then s.badWrite
    else if type_ = 0 then s
    else if bs.length < 8 + len then s.badWrite
    else (s.imageRecord type_ (bytesToWords ((bs.drop 8).take len))).imageBody fuel (bs.drop (8 + len))

/-- Apply the body of slot `k`. DEDUCED, log entry 44. -/
def State.applySlot (s : State) (k : Nat) : State :=
  match s.slotHeader k with
  | none => s
  | some (_, len, _) =>
    let s := s.setFld GLB_IMAGE_STATUS.SLOT k
    let s := s.setFlag GLB_IMAGE_STATUS.AUTO_START (bitOf (s.slotFld k 20 4) 0)
    s.imageBody (len / 8 + 1) (s.slotBody k len)

/-! Step 0x2 (R423, R425, R426, R429). -/

/-- What the headers show. -/
def State.showSlots (s : State) : State :=
  let h0 := s.slotHeader 0
  let h1 := s.slotHeader 1
  let s := (s.setFlag GLB_IMAGE_STATUS.VALID0 h0.isSome).setFlag GLB_IMAGE_STATUS.VALID1 h1.isSome
  let seq (h : Option (Nat × Nat × Nat)) : Nat := match h with | some x => x.1 | none => 0xFFFFFFFF
  (s.setNat GLB_IMAGE_SEQ0.reg (seq h0)).setNat GLB_IMAGE_SEQ1.reg (seq h1)

/-- The image is selected and applied; `none`: no flash answered. DEDUCED, log entry 44. -/
def State.imageLoad (s : State) (flash : Option (Nat × Nat)) : State :=
  match flash with
  | none =>
    let s := s.bootEnd
    let s := s.putCtl { s.ctl with imageNone := true }
    (s.raiseEvent 63 (s.imageDetail false 0)).enterSetup
  | some (mib, page) =>
    let s := ((s.setFld GLB_QSPI_STATUS.SIZE_MIB mib).putQspi { found := true, page := max 1 page }).showSlots
    let order := s.slotOrder
    let s := s.setFlag GLB_IMAGE_STATUS.FALLBACK (match order with | [a, _] => !s.bodyOk a | _ => false)
    match order.find? s.bodyOk with
    | some k =>
      let s := s.applySlot k
      (s.raiseEvent 63 (s.imageDetail false 0)).toStep 3
    | none =>
      let s := s.bootEnd
      let s := s.putCtl { s.ctl with imageNone := true }
      (s.raiseEvent 63 (s.imageDetail false 0)).enterSetup

/-- IMAGE_LOAD (R429): `flash`: the size in MiB, 0 when SFDP gives none, and the page size of the flash that answered. -/
def execImageLoad (flash : Option (BitVec 16 × Nat)) (s : State) : Host.Outcome State Fault Refusal :=
  .next (if s.atStep 2 && s.ctl.dev == .boot then s.imageLoad (flash.map (fun f => (f.1.toNat, f.2))) else s)

/-! Step 0x6 (R423, R425, R430, R435, R441). -/

/-- PRTn_CAL_STATUS after the start-up run: items 5 and 6 come from the fuses and are not missing (R433). -/
def State.bootPortCal (s : State) (sat n : Nat) : State :=
  (s.setNat (PRT_CAL_STATUS.reg n) 0).setFlag (PRT_CAL_STATUS.DONE n) true |>.setFlag (PRT_CAL_STATUS.SAT n) (bitOf sat n)

/-- The start-up set comes into force at once. DESIGN CHOICE, log entry 45. -/
def State.bootCal (s : State) (vs : List (Nat × Word)) (sat : Nat) (devSat : Bool) : State :=
  let s := (List.range s.ports).foldl (fun s n => s.bootPortCal sat n) s
  let s := (s.setNat GLB_CAL_MISSING.reg 0).setFlag GLB_CAL_MISSING.SAT devSat
  let (s, set) := s.calResults vs
  let s := s.putCal { s.cal with force := set, startup := set, previous := set, result := none, completedAt := s.time }
  let s := ((s.setCalRun none).setFlag GLB_CAL_STATUS.BUSY false).setFld GLB_CAL_STATUS.SET 0
  let s := (s.setFld GLB_CAL_STATUS.PORTS_DONE (2 ^ s.ports - 1)).setReg64 GLB_CAL_APPLY_ROUND_LO.reg 0
  s.raiseEvent 37 (bitAt (devSat || sat != 0) 5 + s.calRunDetail)

/-- Start-up is complete: SETUP, and START when the image asks for it; under R425 the device stays in SETUP. DESIGN CHOICE,
log entry 45; DEDUCED, log entry 106. -/
def State.bootComplete (s : State) : State :=
  let s := s.toStep 7
  if s.ctl.dev = .boot then
    let s := s.bootEnd.enterSetup
    if s.flag GLB_IMAGE_STATUS.AUTO_START then (s.setFlag GLB_BOOT_STATUS.AUTO_STARTED true).start else s
  else s.setFlag GLB_BOOT_STATUS.RESUMING false

/-- BOOT_CALIBRATION (R435): step 0x6 completes. `values`: the measured values of result registers; `devMissing`: bit `i` for
device item `8 + i`, a missing item failing the step (R438); `sat`, `devSat`: coefficients saturated (R442). DESIGN CHOICE,
log entry 45; DEDUCED, log entry 106. -/
def execBootCalibration (values : List (Nat × Word)) (devMissing : BitVec 4) (sat : BitVec 12) (devSat : Bool) (s : State) :
    Host.Outcome State Fault Refusal :=
  .next (
    if !s.atStep 6 then s
    else if devMissing ≠ 0 then s.bootFails
    else (s.bootCal values sat.toNat devSat).bootComplete)

end Sys2Proof.Machine
end

