-- ==== Sys2Proof/Machine/CalRows.lean ====
section
/-!
DEFINITION. The rows of calibration and of health blocks (R330, R434–R442).
-/
namespace Sys2Proof.Machine

/-- A run is in progress that is not the start-up run, whose end is BOOT_CALIBRATION (R435, R437). -/
def State.calRunning (s : State) : Option CalRun := if s.isRunning then s.cal.run else none

/-- The receiver of port `n` as a slice sets it (R95, R434): which LO and which code each slice takes is left open. UNVERIFIED, log
entry 119. -/
def State.sliceRx (s : State) (n : Nat) : State :=
  let x := s.port n
  let v := s.freeVal
  s.drawFree.setPort n { x with rx := { x.rx with loB := v % 2 == 1, tia := v / 2 % 8 } }

/-- Slices a port runs in the round in progress (R434): back to back in a round with no turn-table entry, and else after the 2 µs of
the known-answer test, in its longest free interval, or in the stretch R82 names in the first round after a commit command; none where
a deferred takeover turn took its place. DEDUCED, log entry 131. -/
def State.sliceLimit (s : State) (n : Nat) : Nat :=
  let c := schedCfg s.regs
  if (c.portEntries n).isEmpty then c.periodU.toNat / (4 * uUs)
  else if bitOf s.sched.deferred n then 0
  else
    let first := SMap.get (fun _ => 0) s.sched.firstFree n
    let f := c.longestFree n
    ((if first = 0 then (f.2 - f.1).toNat else first) - (2 * uUs + u20ns)) / (4 * uUs)

/-- One more slice fits: in a running device within the round's limit, in the start-up run always (R434, R435). -/
def State.sliceFits (s : State) (r : CalRun) (n : Nat) : Bool :=
  !s.isRunning || decide ((if r.round = s.ctl.round then SMap.get (fun _ => 0) r.taken n else 0) < s.sliceLimit n)

/-- A slice counts in its round. -/
def CalRun.take (r : CalRun) (round n : Nat) : CalRun :=
  let old := if r.round = round then r.taken else []
  { r with round := round, taken := SMap.put (fun _ => 0) old n (SMap.get (fun _ => 0) old n + 1) }

/-- CAL_SLICE (R434, R435): a slice of port `n` is complete. -/
def execCalSlice (n : Fin 12) (s : State) : Host.Outcome State Fault Refusal :=
  .next (
    match s.cal.run with
    | none => s
    | some r =>
      if s.ports ≤ n.val || !s.sliceFits r n.val then s
      else ((s.setCalRun (some (r.take s.ctl.round n.val))).sliceRx n.val).calSlice n.val)

/-- CAL_RUN_COMPLETE (R438): every port item is measured or missing, and so are the device items. `values`: the measured
values of result registers; `devMissing`: bit `i` for device item `8 + i`; `sat`, `devSat`: coefficients saturated (R442).
DEDUCED, log entry 46. -/
def execCalRunComplete (values : List (Nat × Word)) (devMissing : BitVec 4) (sat : BitVec 12) (devSat : Bool) (s : State) :
    Host.Outcome State Fault Refusal :=
  .next (
    match s.calRunning with
    | none => s
    | some r =>
      if (List.range s.ports).all (s.calPortDone r) then s.calFinish r false values devMissing.toNat sat.toNat devSat else s)

/-- CAL_TIMEOUT (R438): the run is complete with the items not yet measured missing. DEDUCED, log entry 46. -/
def execCalTimeout (values : List (Nat × Word)) (devMissing : BitVec 4) (sat : BitVec 12) (devSat : Bool) (s : State) :
    Host.Outcome State Fault Refusal :=
  .next (
    match s.calRunning with
    | none => s
    | some r => s.calFinish r true values devMissing.toNat sat.toNat devSat)

/-- What an aligned 32-bit read outside the core memories returns: the high word of a pair is its latch (R11). DEDUCED, log
entry 9. -/
def State.barRead (s : State) (off : Nat) : Word :=
  if isPairHi off then SMap.get (fun _ => 0) s.latches (off - 4) else s.barLive off

/-- The value of a listed register (R330). -/
def State.healthValue (s : State) (off : Nat) : Nat := (s.barLive off).toNat

/-- Entries of a health block: a low word of a pair is followed by its high word (R330). -/
def State.healthEntries (s : State) : List (Nat × Nat) :=
  let offs := ((List.range 64).map (fun i => (s.reg (CMP_HEALTH_LIST.reg i)).toNat)).takeWhile (fun o => o != 0xFFFFFFFF)
  offs.flatMap (fun o =>
    if isPairLo o then [(o, s.healthValue o), (o + 4, s.healthValue (o + 4))] else [(o, s.healthValue o)])

/-- HEALTH_BLOCK (R330): every PERIOD_MS while EN = 1. -/
def execHealthBlock (s : State) : Host.Outcome State Fault Refusal :=
  .next (
    if !s.flag CMP_HEALTH_CFG.EN then s
    else
      let es := s.healthEntries
      s.pushBlock 23 0x0E (leBytes 8 s.time ++ leBytes 6 (if s.isRunning then s.ctl.round else 0) ++ leBytes 2 es.length)
        (es.flatMap (fun e => leBytes 4 e.1 ++ leBytes 4 e.2)))

end Sys2Proof.Machine
end

