-- ==== Sys2Proof/Machine/CoreAlu.lean ====
section
/-!
DEFINITION. Arithmetic, logic and shift instructions of the analysis cores (R231, R233, R236).
-/
namespace Sys2Proof.Machine

/-- An R-format instruction on two registers; `b` may be an unnamed field that must be 0. -/
def insnR (named : Bool) (f : Core → Nat → Word → Word → Core) (w : Word) : Insn where
  use := { x := if named then mask (fA w) ||| mask (fB w) else mask (fA w) }
  run := fun c _ =>
    if zeroR w && (named || fB w == 0) then .seq (f c (fD w) (c.getX (fA w)) (c.getX (fB w))) 1
    else .fault faultIllegal

/-- An R-format instruction that writes a plain result. -/
def insnAlu (f : Word → Word → Word) : Word → Insn := insnR true (fun c d a b => c.setX d (f a b))

/-- An R-format instruction whose exact result saturates (R231). -/
def insnSat (f : Int → Int → Int) : Word → Insn := insnR true (fun c d a b => c.setSat d (f a.toInt b.toInt))

/-- The low five bits of a register as a shift distance. -/
def dist (b : Word) : Nat := b.toNat % 32

/-- An I-format instruction (R235). -/
def insnI (ok : Word → Bool) (f : Word → Word → Word) (w : Word) : Insn where
  use := { x := mask (fA w) }
  run := fun c _ => if ok w then .seq (c.setX (fD w) (f (c.getX (fA w)) w)) 1 else .fault faultIllegal

/-- SHI: shift or rotate by an immediate, selected by imm[6:5] (R236). -/
def shi (a : Word) (w : Word) : Word :=
  let n := bitsAt w 4 0
  match bitsAt w 6 5 with
  | 0 => a <<< n
  | 1 => a >>> n
  | 2 => a.sshiftRight n
  | _ => a.rotateRight n

/-- NOP: fields ignored (R236). -/
def execNopInstruction (k : Fin 16) (parity : Bool) (s : State) : Host.Outcome State Fault Refusal :=
  .next (s.issue k 0x00 parity (fun _ => { run := fun c _ => .seq c 1 }))

/-- ADD wraps modulo 2³² (R231). -/
def execAdd (k : Fin 16) (parity : Bool) (s : State) : Host.Outcome State Fault Refusal :=
  .next (s.issue k 0x01 parity (insnAlu (fun a b => a + b)))

/-- SUB wraps modulo 2³² (R231). -/
def execSub (k : Fin 16) (parity : Bool) (s : State) : Host.Outcome State Fault Refusal :=
  .next (s.issue k 0x02 parity (insnAlu (fun a b => a - b)))

/-- ADDS saturates to int32 and sets FLAGS.SAT when it does (R231). -/
def execAdds (k : Fin 16) (parity : Bool) (s : State) : Host.Outcome State Fault Refusal :=
  .next (s.issue k 0x03 parity (insnSat (fun a b => a + b)))

/-- SUBS saturates to int32 (R231). -/
def execSubs (k : Fin 16) (parity : Bool) (s : State) : Host.Outcome State Fault Refusal :=
  .next (s.issue k 0x04 parity (insnSat (fun a b => a - b)))

/-- AND (R236). -/
def execAnd (k : Fin 16) (parity : Bool) (s : State) : Host.Outcome State Fault Refusal :=
  .next (s.issue k 0x05 parity (insnAlu (fun a b => a &&& b)))

/-- OR (R236). -/
def execOr (k : Fin 16) (parity : Bool) (s : State) : Host.Outcome State Fault Refusal :=
  .next (s.issue k 0x06 parity (insnAlu (fun a b => a ||| b)))

/-- XOR (R236). -/
def execXor (k : Fin 16) (parity : Bool) (s : State) : Host.Outcome State Fault Refusal :=
  .next (s.issue k 0x07 parity (insnAlu (fun a b => a ^^^ b)))

/-- SLL by Xb[4:0] (R236). -/
def execSll (k : Fin 16) (parity : Bool) (s : State) : Host.Outcome State Fault Refusal :=
  .next (s.issue k 0x08 parity (insnAlu (fun a b => a <<< dist b)))

/-- SRL by Xb[4:0] (R236). -/
def execSrl (k : Fin 16) (parity : Bool) (s : State) : Host.Outcome State Fault Refusal :=
  .next (s.issue k 0x09 parity (insnAlu (fun a b => a >>> dist b)))

/-- SRA by Xb[4:0] (R236). -/
def execSra (k : Fin 16) (parity : Bool) (s : State) : Host.Outcome State Fault Refusal :=
  .next (s.issue k 0x0A parity (insnAlu (fun a b => a.sshiftRight (dist b))))

/-- MUL: the low 32 bits of the product (R231); ready for the second instruction after (R240). -/
def execMul (k : Fin 16) (parity : Bool) (s : State) : Host.Outcome State Fault Refusal :=
  .next (s.issue k 0x0B parity (fun w => { insnAlu (fun a b => a * b) w with made := { x := mask (fD w) } }))

/-- MIN, signed (R236). -/
def execMin (k : Fin 16) (parity : Bool) (s : State) : Host.Outcome State Fault Refusal :=
  .next (s.issue k 0x0C parity (insnAlu (fun a b => if a.toInt ≤ b.toInt then a else b)))

/-- MAX, signed (R236). -/
def execMax (k : Fin 16) (parity : Bool) (s : State) : Host.Outcome State Fault Refusal :=
  .next (s.issue k 0x0D parity (insnAlu (fun a b => if a.toInt ≤ b.toInt then b else a)))

/-- ABS saturates: ABS of −2³¹ gives 2³¹ − 1 (R231). -/
def execAbs (k : Fin 16) (parity : Bool) (s : State) : Host.Outcome State Fault Refusal :=
  .next (s.issue k 0x0E parity (insnR false (fun c d a _ => c.setSat d a.toInt.natAbs)))

/-- EXP: redundant sign bits of a register (R233). -/
def execExp (k : Fin 16) (parity : Bool) (s : State) : Host.Outcome State Fault Refusal :=
  .next (s.issue k 0x0F parity (insnR false (fun c d a _ => c.setX d (Word.of (redundantBits 32 a.toInt)))))

/-- ADDI: sign-extended imm18, wrapping (R236). -/
def execAddi (k : Fin 16) (parity : Bool) (s : State) : Host.Outcome State Fault Refusal :=
  .next (s.issue k 0x10 parity (insnI (fun _ => true) (fun a w => a + BitVec.ofInt 32 (fImmS w))))

/-- ORI: zero-extended imm18 (R236). -/
def execOri (k : Fin 16) (parity : Bool) (s : State) : Host.Outcome State Fault Refusal :=
  .next (s.issue k 0x11 parity (insnI (fun _ => true) (fun a w => a ||| Word.of (fImm w))))

/-- LUI: imm18 << 14; a = 0 (R236). -/
def execLui (k : Fin 16) (parity : Bool) (s : State) : Host.Outcome State Fault Refusal :=
  .next (s.issue k 0x12 parity (fun w => { insnI (fun w => fA w == 0) (fun _ w => Word.of (fImm w * 2 ^ 14)) w with use := {} }))

/-- SHI: imm[17:7] = 0 (R236). -/
def execShi (k : Fin 16) (parity : Bool) (s : State) : Host.Outcome State Fault Refusal :=
  .next (s.issue k 0x13 parity (insnI (fun w => bitsAt w 17 7 == 0) shi))

end Sys2Proof.Machine
end

