-- ==== Sys2Proof/Machine/CoreMem.lean ====
section
/-!
DEFINITION. Loads, stores and accumulator instructions of the analysis cores (R230–R236, R241, R253).
-/
namespace Sys2Proof.Machine

/-- The bytes a read of the core returns: old bytes of a word that a store issued directly before is writing, in native
mode; otherwise what the scratchpad holds (R241, R253). -/
def Core.load (c : Core) (overlap : Option (Nat × List Byte)) (ea n : Nat) : List Byte :=
  match overlap with
  | some (a, old) =>
    if a = ea / 8 * 8 && !c.compat then (old.drop (ea % 8)).take n else Memory.bytes 0 c.spm ea n
  | none => Memory.bytes 0 c.spm ea n

/-- Store bytes, keeping the word's old bytes for the next instruction (R241); the 32-bit words they lie in are written whole,
with valid check bits (R251, R256). -/
def Core.store (c : Core) (ea : Nat) (bs : List Byte) : Core :=
  let a := ea / 8 * 8
  { c.clean ea bs.length with spm := Memory.setBytes 0 c.spm ea bs, lastStore := some (a, Memory.bytes 0 c.spm a 8) }

/-- The effective address of an L-format instruction, and the pointer it leaves (R234). -/
def Core.lAddress (c : Core) (w : Word) : Nat × BitVec 18 := c.address (fP w) (fPost w) (fImmS w)

/-- An L-format load of `n` bytes; `pair` asks for an even register (R236). -/
def insnLoad (n : Nat) (pair : Bool) (f : Core → Nat → List Byte → Core) (w : Word) : MemInsn where
  insn := {
    use := { p := mask (fP w) }
    made := { x := if pair then mask (fD w) ||| mask (fD w + 1) else mask (fD w) }
    run := fun c o =>
      let (ea, p) := c.lAddress w
      if pair && fD w % 2 == 1 then .fault faultIllegal
      else if ea % n != 0 then .fault faultAlign
      else .seq (f (c.setP (fP w) p) (fD w) (c.load o ea n)) 1 }
  read := fun c => some ((c.lAddress w).1, n)

/-- An L-format store of the `n` low bytes of a register or pair; a part-word store reads to merge (R251). -/
def insnStore (n : Nat) (pair merge : Bool) (w : Word) : MemInsn where
  insn := {
    use := { p := mask (fP w), x := if pair then mask (fD w) ||| mask (fD w + 1) else mask (fD w) }
    run := fun c _ =>
      let (ea, p) := c.lAddress w
      if pair && fD w % 2 == 1 then .fault faultIllegal
      else if ea % n != 0 then .fault faultAlign
      else .seq ((c.setP (fP w) p).store ea ((c.pairBytes (fD w)).take n)) 1 }
  read := fun c => if merge then some ((c.lAddress w).1, n) else none
  reader := 1

/-- The unnamed fields of an A-format word are 0 (R235): which of c, a, b, sh and p the instruction names. -/
def aOk (c a b sh p : Bool) (w : Word) : Bool :=
  zeroA w && (c || fC w == 0) && (a || fA w == 0) && (b || fB w == 0) && (sh || fSh w == 0) && (p || fPa w == 0)

/-- An A-format instruction on registers, of the MAC class: `accs` are the accumulators it writes. -/
def insnMac (ok : Word → Bool) (x accs : Word → Nat) (f : Core → Word → Core) (w : Word) : Insn where
  use := { x := x w }
  made := { acc := accs w }
  run := fun c _ => if ok w then .seq (f c w) 1 else .fault faultIllegal

/-- A memory MAC of `n` bytes with post-modify by its size (R234, R236). -/
def insnMacM (n : Nat) (ok : Word → Bool) (x accs : Word → Nat) (f : Core → Word → List Byte → Core) (w : Word) :
    MemInsn where
  insn := {
    use := { x := x w, p := mask (fPa w) }
    made := { acc := accs w }
    run := fun c o =>
      let (ea, p) := c.address (fPa w) true n
      if !ok w then .fault faultIllegal
      else if ea % n != 0 then .fault faultAlign
      else .seq (f (c.setP (fPa w) p) w (c.load o ea n)) 1 }
  read := fun c => some ((c.address (fPa w) true n).1, n)

/-- A move out of an accumulator or its redundant sign bits: the X result is ready for the second instruction after. -/
def insnMove (ok : Word → Bool) (accs xs : Word → Nat) (shf : Bool) (f : Core → Word → Core) (w : Word) : Insn where
  use := { acc := accs w, shf := shf }
  made := { x := xs w }
  run := fun c _ => if ok w then .seq (f c w) 1 else .fault faultIllegal

/-- Even pair fields. -/
def evenA (w : Word) : Bool := fA w % 2 == 0
def evenB (w : Word) : Bool := fB w % 2 == 0

/-- Masks of the fields of an A-format word. -/
def useA (w : Word) : Nat := mask (fA w)
def useAB (w : Word) : Nat := mask (fA w) ||| mask (fB w)
def usePairA (w : Word) : Nat := mask (fA w) ||| mask (fA w + 1)
def usePairs (w : Word) : Nat := usePairA w ||| mask (fB w) ||| mask (fB w + 1)
def accC (w : Word) : Nat := mask (fC w)

/-- The int32 of four bytes. -/
def int32Of (bs : List Byte) : Int := ofBits 32 (leVal bs)

/-- VMVA: lane i of pair a takes ACCi moved out to int16 (R232). -/
def Core.moveLanes (c : Core) (a : Nat) : Core :=
  let ms := (List.range 4).map (fun i => c.moveOut i 16)
  (c.setPair a (ms.flatMap (fun m => leBytes 2 (toBits 16 m.1)))).raiseIf (ms.any (·.2)) flagSat

/-- LDB: zero-extended byte (R236). -/
def execLdb (k : Fin 16) (parity : Bool) (ups : Upsets) (s : State) : Host.Outcome State Fault Refusal :=
  .next (s.issueMem k 0x20 parity ups (insnLoad 1 false (fun c d bs => c.setX d (Word.of (leVal bs)))))

/-- LDH: sign-extended halfword (R236). -/
def execLdh (k : Fin 16) (parity : Bool) (ups : Upsets) (s : State) : Host.Outcome State Fault Refusal :=
  .next (s.issueMem k 0x21 parity ups (insnLoad 2 false (fun c d bs => c.setX d (BitVec.ofInt 32 (ofBits 16 (leVal bs))))))

/-- LDW (R236). -/
def execLdw (k : Fin 16) (parity : Bool) (ups : Upsets) (s : State) : Host.Outcome State Fault Refusal :=
  .next (s.issueMem k 0x22 parity ups (insnLoad 4 false (fun c d bs => c.setX d (Word.of (leVal bs)))))

/-- LDD: a double word into an even pair (R230). -/
def execLdd (k : Fin 16) (parity : Bool) (ups : Upsets) (s : State) : Host.Outcome State Fault Refusal :=
  .next (s.issueMem k 0x23 parity ups (insnLoad 8 true (fun c d bs => c.setPair d bs)))

/-- STB, with merge (R251). -/
def execStb (k : Fin 16) (parity : Bool) (ups : Upsets) (s : State) : Host.Outcome State Fault Refusal :=
  .next (s.issueMem k 0x24 parity ups (insnStore 1 false true))

/-- STH, with merge (R251). -/
def execSth (k : Fin 16) (parity : Bool) (ups : Upsets) (s : State) : Host.Outcome State Fault Refusal :=
  .next (s.issueMem k 0x25 parity ups (insnStore 2 false true))

/-- STW (R241). -/
def execStw (k : Fin 16) (parity : Bool) (s : State) : Host.Outcome State Fault Refusal :=
  .next (s.issue k 0x26 parity (fun w => (insnStore 4 false false w).insn))

/-- STD: an even pair (R230, R241). -/
def execStd (k : Fin 16) (parity : Bool) (s : State) : Host.Outcome State Fault Refusal :=
  .next (s.issue k 0x27 parity (fun w => (insnStore 8 true false w).insn))

/-- CLRA: clear the accumulators of a mask (R236). -/
def execClra (k : Fin 16) (parity : Bool) (s : State) : Host.Outcome State Fault Refusal :=
  .next (s.issue k 0x30 parity (insnMac (aOk false false true false false) (fun _ => 0) fB (fun c w => (bitsOf 4 (fB w)).foldl (fun c i => c.setAcc i 0) c)))

/-- MTA: a sign-extended register to an accumulator (R236). -/
def execMta (k : Fin 16) (parity : Bool) (s : State) : Host.Outcome State Fault Refusal :=
  .next (s.issue k 0x31 parity (insnMac (aOk true true false false false) useA accC (fun c w => c.setAcc (fC w) (c.getX (fA w)).toInt)))

/-- ADDA: saturating accumulator add (R231). -/
def execAdda (k : Fin 16) (parity : Bool) (s : State) : Host.Outcome State Fault Refusal :=
  .next (s.issue k 0x32 parity (fun w => { insnMac (fun w => aOk true false true false false w && bitsAt w 17 16 == 0) (fun _ => 0) accC (fun c w => c.accumulate (fC w) (c.getAcc (fSrc w))) w with use := { acc := mask (fSrc w) } }))

/-- MAC32 (R231). -/
def execMac32 (k : Fin 16) (parity : Bool) (s : State) : Host.Outcome State Fault Refusal :=
  .next (s.issue k 0x33 parity (insnMac (aOk true true true true false) useAB accC (fun c w => c.accumulate (fC w) (shifted (fSh w) ((c.getX (fA w)).toInt * (c.getX (fB w)).toInt)))))

/-- VMAC: four lane products into four accumulators (R231). -/
def execVmac (k : Fin 16) (parity : Bool) (s : State) : Host.Outcome State Fault Refusal :=
  .next (s.issue k 0x36 parity (insnMac (fun w => aOk false true true true false w && evenA w && evenB w) usePairs (fun _ => 15) (fun c w => c.accumulateLanes (fSh w) 0 (laneProducts (c.lanes (fA w)) (c.lanes (fB w))))))

/-- DOT4: the sum of four lane products (R231). -/
def execDot4 (k : Fin 16) (parity : Bool) (s : State) : Host.Outcome State Fault Refusal :=
  .next (s.issue k 0x37 parity (insnMac (fun w => aOk true true true true false w && evenA w && evenB w) usePairs accC (fun c w => c.accumulate (fC w) (shiftedSum (fSh w) (laneProducts (c.lanes (fA w)) (c.lanes (fB w)))))))

/-- MVA: an accumulator moved out to int32 (R232). -/
def execMva (k : Fin 16) (parity : Bool) (s : State) : Host.Outcome State Fault Refusal :=
  .next (s.issue k 0x3B parity (insnMove (aOk true true false false false) accC useA true (fun c w => (c.setX (fA w) (BitVec.ofInt 32 (c.moveOut (fC w) 32).1)).raiseIf (c.moveOut (fC w) 32).2 flagSat)))

/-- MVAH: moved out to int16, sign-extended (R232). -/
def execMvah (k : Fin 16) (parity : Bool) (s : State) : Host.Outcome State Fault Refusal :=
  .next (s.issue k 0x3C parity (insnMove (aOk true true false false false) accC useA true (fun c w => (c.setX (fA w) (BitVec.ofInt 32 (c.moveOut (fC w) 16).1)).raiseIf (c.moveOut (fC w) 16).2 flagSat)))

/-- VMVA: four accumulators to int16 lanes (R232). -/
def execVmva (k : Fin 16) (parity : Bool) (s : State) : Host.Outcome State Fault Refusal :=
  .next (s.issue k 0x3D parity (insnMove (fun w => aOk false true false false false w && evenA w) (fun _ => 15) usePairA true (fun c w => c.moveLanes (fA w))))

/-- EXPA: redundant sign bits of an accumulator (R233). -/
def execExpa (k : Fin 16) (parity : Bool) (s : State) : Host.Outcome State Fault Refusal :=
  .next (s.issue k 0x3E parity (insnMove (aOk true true false false false) accC useA false (fun c w => c.setX (fA w) (Word.of (redundantBits 48 (c.getAcc (fC w)))))))

/-- MAC32M (R231, R234). -/
def execMac32m (k : Fin 16) (parity : Bool) (ups : Upsets) (s : State) : Host.Outcome State Fault Refusal :=
  .next (s.issueMem k 0x34 parity ups (insnMacM 4 (aOk true true false true true) useA accC (fun c w bs => c.accumulate (fC w) (shifted (fSh w) (int32Of bs * (c.getX (fA w)).toInt)))))

/-- SQ32M (R231, R234). -/
def execSq32m (k : Fin 16) (parity : Bool) (ups : Upsets) (s : State) : Host.Outcome State Fault Refusal :=
  .next (s.issueMem k 0x35 parity ups (insnMacM 4 (aOk true false false true true) (fun _ => 0) accC (fun c w bs => c.accumulate (fC w) (shifted (fSh w) (int32Of bs * int32Of bs)))))

/-- DOT4M (R231, R234). -/
def execDot4m (k : Fin 16) (parity : Bool) (ups : Upsets) (s : State) : Host.Outcome State Fault Refusal :=
  .next (s.issueMem k 0x38 parity ups (insnMacM 8 (fun w => aOk true true false true true w && evenA w) usePairA accC (fun c w bs => c.accumulate (fC w) (shiftedSum (fSh w) (laneProducts (c.lanes (fA w)) (lanesOf bs))))))

/-- SQ4M (R231, R234). -/
def execSq4m (k : Fin 16) (parity : Bool) (ups : Upsets) (s : State) : Host.Outcome State Fault Refusal :=
  .next (s.issueMem k 0x39 parity ups (insnMacM 8 (aOk true false false true true) (fun _ => 0) accC (fun c w bs => c.accumulate (fC w) (shiftedSum (fSh w) (laneProducts (lanesOf bs) (lanesOf bs))))))

/-- VMACM (R231, R234). -/
def execVmacm (k : Fin 16) (parity : Bool) (ups : Upsets) (s : State) : Host.Outcome State Fault Refusal :=
  .next (s.issueMem k 0x3A parity ups (insnMacM 8 (fun w => aOk false true false true true w && evenA w) usePairA (fun _ => 15) (fun c w bs => c.accumulateLanes (fSh w) 0 (laneProducts (c.lanes (fA w)) (lanesOf bs)))))

end Sys2Proof.Machine
end

