-- ==== Sys2Proof/Machine/Dispatch.lean ====
section
/-!
DEFINITION. The dispatch: one arm per command, each a direct call of its meaning.
-/
namespace Sys2Proof.Machine

def exec (i : Instr) (s : State) : Host.Outcome State Fault Refusal :=
  match i with
  | .powerOn => Sys2Proof.Machine.execPowerOn s
  | .vauxLoss => Sys2Proof.Machine.execVauxLoss s
  | .resetRelease => Sys2Proof.Machine.execResetRelease s
  | .vinWarning vin burnt => Sys2Proof.Machine.execVinWarning vin burnt s
  | .vinWarningClear => Sys2Proof.Machine.execVinWarningClear s
  | .vinUv => Sys2Proof.Machine.execVinUv s
  | .vinOv => Sys2Proof.Machine.execVinOv s
  | .railFault rail die ov => Sys2Proof.Machine.execRailFault rail die ov s
  | .thermalShutdown die => Sys2Proof.Machine.execThermalShutdown die s
  | .perstN => Sys2Proof.Machine.execPerstN s
  | .hotReset => Sys2Proof.Machine.execHotReset s
  | .functionLevelReset => Sys2Proof.Machine.execFunctionLevelReset s
  | .d3hotEntry => Sys2Proof.Machine.execD3hotEntry s
  | .d0Return => Sys2Proof.Machine.execD0Return s
  | .pcieLinkChange width speed => Sys2Proof.Machine.execPcieLinkChange width speed s
  | .bootFuseLoad ok => Sys2Proof.Machine.execBootFuseLoad ok s
  | .bootMarch reads => Sys2Proof.Machine.execBootMarch reads s
  | .imageLoad flash => Sys2Proof.Machine.execImageLoad flash s
  | .coolerSettle ok => Sys2Proof.Machine.execCoolerSettle ok s
  | .laserLock freqErr current => Sys2Proof.Machine.execLaserLock freqErr current s
  | .laserUnlock freqErr current => Sys2Proof.Machine.execLaserUnlock freqErr current s
  | .dramTraining failed => Sys2Proof.Machine.execDramTraining failed s
  | .bootCalibration values devMissing sat devSat => Sys2Proof.Machine.execBootCalibration values devMissing sat devSat s
  | .start => Sys2Proof.Machine.execStart s
  | .stop => Sys2Proof.Machine.execStop s
  | .stopComplete => Sys2Proof.Machine.execStopComplete s
  | .enterSafe => Sys2Proof.Machine.execEnterSafe s
  | .softReset => Sys2Proof.Machine.execSoftReset s
  | .bootResume w => Sys2Proof.Machine.execBootResume w s
  | .qspiRead w => Sys2Proof.Machine.execQspiRead w s
  | .qspiProgram w => Sys2Proof.Machine.execQspiProgram w s
  | .qspiErase4k w => Sys2Proof.Machine.execQspiErase4k w s
  | .qspiErase64k w => Sys2Proof.Machine.execQspiErase64k w s
  | .qspiReadId w => Sys2Proof.Machine.execQspiReadId w s
  | .qspiComplete timeout data => Sys2Proof.Machine.execQspiComplete timeout data s
  | .laserChWrite w => Sys2Proof.Machine.execLaserChWrite w s
  | .trimWrite w => Sys2Proof.Machine.execTrimWrite w s
  | .trimStep => Sys2Proof.Machine.execTrimStep s
  | .fspWrite w => Sys2Proof.Machine.execFspWrite w s
  | .brlRefDataAccess write => Sys2Proof.Machine.execBrlRefDataAccess write s
  | .startNow k w => Sys2Proof.Machine.execStartNow k w s
  | .stopNow k w => Sys2Proof.Machine.execStopNow k w s
  | .marchStart w => Sys2Proof.Machine.execMarchStart w s
  | .marchComplete reads => Sys2Proof.Machine.execMarchComplete reads s
  | .fuseBurn w => Sys2Proof.Machine.execFuseBurn w s
  | .fuseBurnComplete => Sys2Proof.Machine.execFuseBurnComplete s
  | .safAck w => Sys2Proof.Machine.execSafAck w s
  | .safPinTest w => Sys2Proof.Machine.execSafPinTest w s
  | .pinTestEnd => Sys2Proof.Machine.execPinTestEnd s
  | .doorbell r tail descs => Sys2Proof.Machine.execDoorbell r tail descs s
  | .ringCtrlWrite r w => Sys2Proof.Machine.execRingCtrlWrite r w s
  | .loWordRead off => Sys2Proof.Machine.execLoWordRead off s
  | .bar0BadAccess write => Sys2Proof.Machine.execBar0BadAccess write s
  | .hostMemAccess off write ups => Sys2Proof.Machine.execHostMemAccess off write ups s
  | .bar2Read off size write ups => Sys2Proof.Machine.execBar2Read off size write ups s
  | .registerWrite off w => Sys2Proof.Machine.execRegisterWrite off w s
  | .nop h => Sys2Proof.Machine.execNop h s
  | .cancel h => Sys2Proof.Machine.execCancel h s
  | .evrMark h => Sys2Proof.Machine.execEvrMark h s
  | .stopCommand h => Sys2Proof.Machine.execStopCommand h s
  | .lchWrite h => Sys2Proof.Machine.execLchWrite h s
  | .lchCommit h => Sys2Proof.Machine.execLchCommit h s
  | .lchShadowReset h => Sys2Proof.Machine.execLchShadowReset h s
  | .zoneSet h => Sys2Proof.Machine.execZoneSet h s
  | .peSet h => Sys2Proof.Machine.execPeSet h s
  | .portRestore h => Sys2Proof.Machine.execPortRestore h s
  | .lfRebase h => Sys2Proof.Machine.execLfRebase h s
  | .fltSet h => Sys2Proof.Machine.execFltSet h s
  | .brlSet h => Sys2Proof.Machine.execBrlSet h s
  | .refLoad h => Sys2Proof.Machine.execRefLoad h s
  | .refLearn h => Sys2Proof.Machine.execRefLearn h s
  | .bltSet h => Sys2Proof.Machine.execBltSet h s
  | .trim h => Sys2Proof.Machine.execTrim h s
  | .trgSet h => Sys2Proof.Machine.execTrgSet h s
  | .trgArm h => Sys2Proof.Machine.execTrgArm h s
  | .trgDisarm h => Sys2Proof.Machine.execTrgDisarm h s
  | .doutSet h => Sys2Proof.Machine.execDoutSet h s
  | .doutClear h => Sys2Proof.Machine.execDoutClear h s
  | .acStart h => Sys2Proof.Machine.execAcStart h s
  | .acStop h => Sys2Proof.Machine.execAcStop h s
  | .acConfig h => Sys2Proof.Machine.execAcConfig h s
  | .dmcSet h => Sys2Proof.Machine.execDmcSet h s
  | .auxSet h => Sys2Proof.Machine.execAuxSet h s
  | .cmpSet h => Sys2Proof.Machine.execCmpSet h s
  | .calRun h => Sys2Proof.Machine.execCalRun h s
  | .calPin h => Sys2Proof.Machine.execCalPin h s
  | .calRestore h => Sys2Proof.Machine.execCalRestore h s
  | .pairSet h => Sys2Proof.Machine.execPairSet h s
  | .failback h => Sys2Proof.Machine.execFailback h s
  | .roundStart refs => Sys2Proof.Machine.execRoundStart refs s
  | .turnDue => Sys2Proof.Machine.execTurnDue s
  | .slidTurnLaunch => Sys2Proof.Machine.execSlidTurnLaunch s
  | .slideLimitExpiry => Sys2Proof.Machine.execSlideLimitExpiry s
  | .diagTurn => Sys2Proof.Machine.execDiagTurn s
  | .diagTurnResults f => Sys2Proof.Machine.execDiagTurnResults f s
  | .tapCheck energy routeLow leak => Sys2Proof.Machine.execTapCheck energy routeLow leak s
  | .overpowerTrip => Sys2Proof.Machine.execOverpowerTrip s
  | .pumpGateOpen => Sys2Proof.Machine.execPumpGateOpen s
  | .pumpGateClose => Sys2Proof.Machine.execPumpGateClose s
  | .pumpOpenShort p short => Sys2Proof.Machine.execPumpOpenShort p short s
  | .pumpLimit p => Sys2Proof.Machine.execPumpLimit p s
  | .tecLimit current tempErr => Sys2Proof.Machine.execTecLimit current tempErr s
  | .tecLimitClear current tempErr => Sys2Proof.Machine.execTecLimitClear current tempErr s
  | .loshiftSettled => Sys2Proof.Machine.execLoshiftSettled s
  | .zoneStep n k => Sys2Proof.Machine.execZoneStep n k s
  | .adcLinkError die => Sys2Proof.Machine.execAdcLinkError die s
  | .frameComplete n rx marks => Sys2Proof.Machine.execFrameComplete n rx marks s
  | .missingRunTimeout n marks => Sys2Proof.Machine.execMissingRunTimeout n marks s
  | .captureReadout u => Sys2Proof.Machine.execCaptureReadout u s
  | .doutHoldExpiry k => Sys2Proof.Machine.execDoutHoldExpiry k s
  | .brlTurnComplete n rx full => Sys2Proof.Machine.execBrlTurnComplete n rx full s
  | .brlFitComplete n differs => Sys2Proof.Machine.execBrlFitComplete n differs s
  | .beltMapScoreDone k => Sys2Proof.Machine.execBeltMapScoreDone k s
  | .tinEdge j rising pip short differs => Sys2Proof.Machine.execTinEdge j rising pip short differs s
  | .pairHoldExpiry p => Sys2Proof.Machine.execPairHoldExpiry p s
  | .pairOrphan p => Sys2Proof.Machine.execPairOrphan p s
  | .gatePinEdge high differs => Sys2Proof.Machine.execGatePinEdge high differs s
  | .tinGateClose j differs => Sys2Proof.Machine.execTinGateClose j differs s
  | .ppsEdge pip => Sys2Proof.Machine.execPpsEdge pip s
  | .ppsTimeout => Sys2Proof.Machine.execPpsTimeout s
  | .blankInputChange j active => Sys2Proof.Machine.execBlankInputChange j active s
  | .auxPassStart => Sys2Proof.Machine.execAuxPassStart s
  | .auxConversionComplete m differs => Sys2Proof.Machine.execAuxConversionComplete m differs s
  | .hkConversion value late => Sys2Proof.Machine.execHkConversion value late s
  | .refSettled r => Sys2Proof.Machine.execRefSettled r s
  | .katStart n => Sys2Proof.Machine.execKatStart n s
  | .katResult n crc => Sys2Proof.Machine.execKatResult n crc s
  | .calSlice n => Sys2Proof.Machine.execCalSlice n s
  | .calRunComplete values devMissing sat devSat => Sys2Proof.Machine.execCalRunComplete values devMissing sat devSat s
  | .calTimeout values devMissing sat devSat => Sys2Proof.Machine.execCalTimeout values devMissing sat devSat s
  | .lockstepMismatch => Sys2Proof.Machine.execLockstepMismatch s
  | .clockFault => Sys2Proof.Machine.execClockFault s
  | .safetySweep selfTestOk configBad portMem timeBad => Sys2Proof.Machine.execSafetySweep selfTestOk configBad portMem timeBad s
  | .scorekeeperToggleLoss => Sys2Proof.Machine.execScorekeeperToggleLoss s
  | .pinReadback c => Sys2Proof.Machine.execPinReadback c s
  | .pinRedrive c => Sys2Proof.Machine.execPinRedrive c s
  | .alarmHoldExpiry c => Sys2Proof.Machine.execAlarmHoldExpiry c s
  | .evrRecordWrite fail => Sys2Proof.Machine.execEvrRecordWrite fail s
  | .evrOpSave => Sys2Proof.Machine.execEvrOpSave s
  | .dramRequest req ups => Sys2Proof.Machine.execDramRequest req ups s
  | .bar2Promotion => Sys2Proof.Machine.execBar2Promotion s
  | .dramRefresh ch pair issued => Sys2Proof.Machine.execDramRefresh ch pair issued s
  | .dramRetrain ch temp => Sys2Proof.Machine.execDramRetrain ch temp s
  | .fspChange => Sys2Proof.Machine.execFspChange s
  | .selfRefreshEntry => Sys2Proof.Machine.execSelfRefreshEntry s
  | .selfRefreshExit waited => Sys2Proof.Machine.execSelfRefreshExit waited s
  | .scrubRead a ups late => Sys2Proof.Machine.execScrubRead a ups late s
  | .blockWrite r => Sys2Proof.Machine.execBlockWrite r s
  | .eventHoldoffExpiry q => Sys2Proof.Machine.execEventHoldoffExpiry q s
  | .msixHoldoffExpiry v => Sys2Proof.Machine.execMsixHoldoffExpiry v s
  | .msixUnmask v => Sys2Proof.Machine.execMsixUnmask v s
  | .hostDmaError r => Sys2Proof.Machine.execHostDmaError r s
  | .compressComplete e => Sys2Proof.Machine.execCompressComplete e s
  | .feedSlotReady k => Sys2Proof.Machine.execFeedSlotReady k s
  | .coreOutBlock k ups => Sys2Proof.Machine.execCoreOutBlock k ups s
  | .coreDmaComplete k ups dups late => Sys2Proof.Machine.execCoreDmaComplete k ups dups late s
  | .coreDmaAbandon k => Sys2Proof.Machine.execCoreDmaAbandon k s
  | .coreStopComplete k => Sys2Proof.Machine.execCoreStopComplete k s
  | .coreWatchdog k => Sys2Proof.Machine.execCoreWatchdog k s
  | .acDmaStarve k run => Sys2Proof.Machine.execAcDmaStarve k run s
  | .nopInstruction k parity => Sys2Proof.Machine.execNopInstruction k parity s
  | .add k parity => Sys2Proof.Machine.execAdd k parity s
  | .sub k parity => Sys2Proof.Machine.execSub k parity s
  | .adds k parity => Sys2Proof.Machine.execAdds k parity s
  | .subs k parity => Sys2Proof.Machine.execSubs k parity s
  | .and k parity => Sys2Proof.Machine.execAnd k parity s
  | .or k parity => Sys2Proof.Machine.execOr k parity s
  | .xor k parity => Sys2Proof.Machine.execXor k parity s
  | .sll k parity => Sys2Proof.Machine.execSll k parity s
  | .srl k parity => Sys2Proof.Machine.execSrl k parity s
  | .sra k parity => Sys2Proof.Machine.execSra k parity s
  | .mul k parity => Sys2Proof.Machine.execMul k parity s
  | .min k parity => Sys2Proof.Machine.execMin k parity s
  | .max k parity => Sys2Proof.Machine.execMax k parity s
  | .abs k parity => Sys2Proof.Machine.execAbs k parity s
  | .exp k parity => Sys2Proof.Machine.execExp k parity s
  | .addi k parity => Sys2Proof.Machine.execAddi k parity s
  | .ori k parity => Sys2Proof.Machine.execOri k parity s
  | .lui k parity => Sys2Proof.Machine.execLui k parity s
  | .shi k parity => Sys2Proof.Machine.execShi k parity s
  | .bcc k parity => Sys2Proof.Machine.execBcc k parity s
  | .jal k parity => Sys2Proof.Machine.execJal k parity s
  | .jr k parity => Sys2Proof.Machine.execJr k parity s
  | .repi k parity => Sys2Proof.Machine.execRepi k parity s
  | .repr k parity => Sys2Proof.Machine.execRepr k parity s
  | .waitf k parity => Sys2Proof.Machine.execWaitf k parity s
  | .relf k parity => Sys2Proof.Machine.execRelf k parity s
  | .out k parity => Sys2Proof.Machine.execOut k parity s
  | .waito k parity => Sys2Proof.Machine.execWaito k parity s
  | .dmar k parity => Sys2Proof.Machine.execDmar k parity s
  | .dmaw k parity => Sys2Proof.Machine.execDmaw k parity s
  | .waitd k parity => Sys2Proof.Machine.execWaitd k parity s
  | .ldb k parity ups => Sys2Proof.Machine.execLdb k parity ups s
  | .ldh k parity ups => Sys2Proof.Machine.execLdh k parity ups s
  | .ldw k parity ups => Sys2Proof.Machine.execLdw k parity ups s
  | .ldd k parity ups => Sys2Proof.Machine.execLdd k parity ups s
  | .stb k parity ups => Sys2Proof.Machine.execStb k parity ups s
  | .sth k parity ups => Sys2Proof.Machine.execSth k parity ups s
  | .stw k parity => Sys2Proof.Machine.execStw k parity s
  | .std k parity => Sys2Proof.Machine.execStd k parity s
  | .movp k parity => Sys2Proof.Machine.execMovp k parity s
  | .mvp k parity => Sys2Proof.Machine.execMvp k parity s
  | .addp k parity => Sys2Proof.Machine.execAddp k parity s
  | .mts k parity => Sys2Proof.Machine.execMts k parity s
  | .mfs k parity => Sys2Proof.Machine.execMfs k parity s
  | .sig k parity => Sys2Proof.Machine.execSig k parity s
  | .halt k parity => Sys2Proof.Machine.execHalt k parity s
  | .clra k parity => Sys2Proof.Machine.execClra k parity s
  | .mta k parity => Sys2Proof.Machine.execMta k parity s
  | .adda k parity => Sys2Proof.Machine.execAdda k parity s
  | .mac32 k parity => Sys2Proof.Machine.execMac32 k parity s
  | .mac32m k parity ups => Sys2Proof.Machine.execMac32m k parity ups s
  | .sq32m k parity ups => Sys2Proof.Machine.execSq32m k parity ups s
  | .vmac k parity => Sys2Proof.Machine.execVmac k parity s
  | .dot4 k parity => Sys2Proof.Machine.execDot4 k parity s
  | .dot4m k parity ups => Sys2Proof.Machine.execDot4m k parity ups s
  | .sq4m k parity ups => Sys2Proof.Machine.execSq4m k parity ups s
  | .vmacm k parity ups => Sys2Proof.Machine.execVmacm k parity ups s
  | .mva k parity => Sys2Proof.Machine.execMva k parity s
  | .mvah k parity => Sys2Proof.Machine.execMvah k parity s
  | .vmva k parity => Sys2Proof.Machine.execVmva k parity s
  | .expa k parity => Sys2Proof.Machine.execExpa k parity s
  | .heartbeat l seq h => Sys2Proof.Machine.execHeartbeat l seq h s
  | .identity l seq x => Sys2Proof.Machine.execIdentity l seq x s
  | .faultMessage l seq safe cause port => Sys2Proof.Machine.execFaultMessage l seq safe cause port s
  | .mirrorData l seq dest data => Sys2Proof.Machine.execMirrorData l seq dest data s
  | .laneAlign l gaps => Sys2Proof.Machine.execLaneAlign l gaps s
  | .laneLoss l commas => Sys2Proof.Machine.execLaneLoss l commas s
  | .partnerClockChange present => Sys2Proof.Machine.execPartnerClockChange present s
  | .laserCurrentFault current => Sys2Proof.Machine.execLaserCurrentFault current s
  | .aerError kind => Sys2Proof.Machine.execAerError kind s
  | .badOpcodeCommand op h => Sys2Proof.Machine.execBadOpcodeCommand op h s
  | .reservedOpcode k parity => Sys2Proof.Machine.execReservedOpcode k parity s
  | .linkFrameDiscarded l frame before bits => Sys2Proof.Machine.execLinkFrameDiscarded l frame before bits s
  | .diagWindowExpiry d => Sys2Proof.Machine.execDiagWindowExpiry d s
  | .referenceUnsettled r => Sys2Proof.Machine.execReferenceUnsettled r s
  | .speedValidExpiry k => Sys2Proof.Machine.execSpeedValidExpiry k s
  | .currentLimit o => Sys2Proof.Machine.execCurrentLimit o s
  | .currentLimitRetry o => Sys2Proof.Machine.execCurrentLimitRetry o s
  | .cmpBypass => Sys2Proof.Machine.execCmpBypass s
  | .healthBlock => Sys2Proof.Machine.execHealthBlock s
  | .pairBlockTimeout => Sys2Proof.Machine.execPairBlockTimeout s
  | .heartbeatSend => Sys2Proof.Machine.execHeartbeatSend s
  | .missedHeartbeat => Sys2Proof.Machine.execMissedHeartbeat s
  | .mirrorRetransmit => Sys2Proof.Machine.execMirrorRetransmit s
  | .mirrorLag => Sys2Proof.Machine.execMirrorLag s
  | .armWaitExpiry => Sys2Proof.Machine.execArmWaitExpiry s
  | .takeoverRoundStart => Sys2Proof.Machine.execTakeoverRoundStart s
  | .laserLockTimeout => Sys2Proof.Machine.execLaserLockTimeout s
  | .bootCalTimeout => Sys2Proof.Machine.execBootCalTimeout s
  | .deferredTakeoverLaunch => Sys2Proof.Machine.execDeferredTakeoverLaunch s

end Sys2Proof.Machine
end

