-- ==== Sys2Proof/Machine/Step.lean ====
section
/-!
DEFINITION. One step: the command at the front of the queue acts on the state with the queue's rest; on an empty queue
one scheduler tick passes, after which stops of pair units whose look-ahead is over pair, and the DRAM controller goes on.
-/
namespace Sys2Proof.Machine

/-- One step of the block. DESIGN CHOICE, log entry 1; DESIGN CHOICE, log entry 2; DEDUCED, log entry 99. -/
def step (s : State) : Host.Outcome State Fault Refusal :=
  match s.pending with
  | [] => .next s.tick.pairSettle.dramTick
  | c :: cs => exec c { s with pending := cs }

/-- `s` with the command a word spells put at the front of its queue. DESIGN CHOICE, log entry 1. -/
def State.withFetchWord (s : State) (nbits w : Nat) : State :=
  match decodeTableWord nbits w with
  | none => s
  | some c => { s with pending := c :: s.pending }

end Sys2Proof.Machine
end

