-- ==== Sys2Proof/Safety.lean ====
section
/-!
DEFINITION. The terms in which claims about runs are stated: the canonical form of every map and memory of the state, what a
command leaves as it was, and how an analysis core completes, waits or faults.
-/
namespace Sys2Proof.Machine

/-- Every register map, latch map and memory of the state is in its one canonical form: keys strictly rising and no entry
equal to what an unlisted key reads as. -/
abbrev State.Canonical (s : State) : Prop :=
  SMap.wf resetVal s.regs = true ∧ SMap.wf (fun _ => 0) s.latches = true ∧ Memory.wf 0 s.dram = true
    ∧ Memory.wf 0xFF s.flash = true ∧ Memory.wf 0 s.evr.mem = true ∧ Memory.wf 0 s.mlk.pbase = true

/-- What no command touches: the part, the fuses set in manufacture, and the queue of waiting commands. -/
abbrev State.SameMake (s t : State) : Prop :=
  t.part = s.part ∧ t.factoryTrim = s.factoryTrim ∧ t.marchDefault = s.marchDefault ∧ t.pending = s.pending

/-- The command completes in a state that `Q` describes. -/
abbrev Completes (c : Instr) (s : State) (Q : State → Prop) : Prop := ∃ t, exec c s = .next t ∧ Q t

/-! Frames. -/

/-- The parts of the state beside the registers. -/
inductive Comp where
  | time | supply | ctl | latches | hif | evr | saf | src | sched | cal | aux | blt | tmb | brl | mlk | units | douts
  | blanks | streams | capRecs | cores | fuses | marchMode | burn | dram | dmc | flash | qspi | rdData | rdData2
  | sent | freeCtr
  deriving DecidableEq, Repr

/-- A part of the state is in `t` as it was in `s`. -/
def State.same (s t : State) : Comp → Prop
  | .time => t.time = s.time
  | .supply => t.supply = s.supply
  | .ctl => t.ctl = s.ctl
  | .latches => t.latches = s.latches
  | .hif => t.hif = s.hif
  | .evr => t.evr = s.evr
  | .saf => t.saf = s.saf
  | .src => t.src = s.src
  | .sched => t.sched = s.sched
  | .cal => t.cal = s.cal
  | .aux => t.aux = s.aux
  | .blt => t.blt = s.blt
  | .tmb => t.tmb = s.tmb
  | .brl => t.brl = s.brl
  | .mlk => t.mlk = s.mlk
  | .units => t.units = s.units
  | .douts => t.douts = s.douts
  | .blanks => t.blanks = s.blanks
  | .streams => t.streams = s.streams
  | .capRecs => t.capRecs = s.capRecs
  | .cores => t.cores = s.cores
  | .fuses => t.fuses = s.fuses
  | .marchMode => t.marchMode = s.marchMode
  | .burn => t.burn = s.burn
  | .dram => t.dram = s.dram
  | .dmc => t.dmc = s.dmc
  | .flash => t.flash = s.flash
  | .qspi => t.qspi = s.qspi
  | .rdData => t.rdData = s.rdData
  | .rdData2 => t.rdData2 = s.rdData2
  | .sent => t.sent = s.sent
  | .freeCtr => t.freeCtr = s.freeCtr

/-- A set of register offsets. -/
abbrev RegSet := Nat → Prop

/-- Between `s` and `t` only the parts `cs` and the registers of `R` may differ. -/
structure State.Frame (s t : State) (cs : List Comp) (R : RegSet) : Prop where
  parts : ∀ c, c ∉ cs → s.same t c
  regs : ∀ o, ¬ R o → t.reg o = s.reg o

/-- No register. -/
def noReg : RegSet := fun _ => False

/-- The registers of a LO/HI pair, from the offset of its low word. -/
def pairAt (o : Nat) : RegSet := fun a => a = o ∨ a = o + 4

/-- The registers of an event source's raise: the pending words, the counts, and the discard counts of rings (R310, R298). -/
def eventReg : RegSet := fun o =>
  (∃ q, o = HIF_EV_COUNT.reg q) ∨ (∃ i, o = HIF_EV_PEND_LO.reg + 4 * (i % 2)) ∨ ∃ r, o = HIF_RING_DISCARD_COUNT.reg r

/-- The register blocks of the address map (R444). -/
inductive RegBlock where
  | glb | tmb | pwr | src | lch | prt | brl | blt | trg | flt | acr | dmc | hif | cmp | aux | mlk | saf | evr
  deriving DecidableEq, Repr

/-- The offsets of a block, from its first to the first beyond it. -/
def RegBlock.range : RegBlock → Nat × Nat
  | .glb => (0x000000, 0x010000)
  | .tmb => (0x010000, 0x020000)
  | .pwr => (0x020000, 0x030000)
  | .src => (0x030000, 0x040000)
  | .lch => (0x040000, 0x080000)
  | .prt => (0x080000, 0x0C0000)
  | .brl => (0x0C0000, 0x0D0000)
  | .blt => (0x0D0000, 0x0E0000)
  | .trg => (0x0E0000, 0x100000)
  | .flt => (0x100000, 0x140000)
  | .acr => (0x140000, 0x180000)
  | .dmc => (0x180000, 0x190000)
  | .hif => (0x190000, 0x1A0000)
  | .cmp => (0x1B0000, 0x1C0000)
  | .aux => (0x1C0000, 0x1D0000)
  | .mlk => (0x1D0000, 0x1E0000)
  | .saf => (0x1E0000, 0x1F0000)
  | .evr => (0x1F0000, 0x280000)

/-- The registers of some blocks. -/
def regsIn (bs : List RegBlock) : RegSet := fun o => ∃ b ∈ bs, b.range.1 ≤ o ∧ o < b.range.2

/-- What a raise, a record and the reactions of the safety functions may change, an entry to SAFE and the fault message of a pair
among them: these parts, and registers of these blocks (R28, R248, R310, R362, R368, R391, R404). -/
abbrev reactParts : List Comp := [.ctl, .hif, .evr, .saf, .src, .sched, .cal, .aux, .mlk, .units, .cores, .sent, .freeCtr]

/-- The blocks beside `reactParts`. -/
abbrev reactBlocks : List RegBlock := [.glb, .lch, .hif, .aux, .mlk, .saf, .evr]

/-- Between `s` and `t` only a raise, a record and reactions happened, beside the parts `cs` and registers of the blocks
`bs`. -/
abbrev State.Reacts (s t : State) (cs : List Comp) (bs : List RegBlock) : Prop :=
  s.Frame t (cs ++ reactParts) (regsIn (bs ++ reactBlocks))

/-- Event `q` is pending. -/
abbrev State.evPending (s : State) (q : Nat) : Prop :=
  bitOf (s.reg (HIF_EV_PEND_LO.reg + 4 * (q / 32 % 2))).toNat (q % 32) = true

/-- Event source `q` was raised: its pending bit is set and its count is one more (R310). -/
structure State.Raised (s t : State) (q : Nat) : Prop where
  pend : t.evPending q
  count : t.reg (HIF_EV_COUNT.reg q) = s.reg (HIF_EV_COUNT.reg q) + 1

/-- `t` is `s` after a device reset (R28, R417): the VAUX domain, the flash, the fuses and what has left the device stay; every
other part is as after reset, and so is every register outside the VAUX domain. -/
structure State.ResetTo (s t : State) : Prop where
  kept : ∀ c ∈ [Comp.time, .evr, .fuses, .flash, .sent, .freeCtr], s.same t c
  lost : ∀ c ∈ [Comp.ctl, .latches, .hif, .saf, .src, .sched, .cal, .aux, .blt, .brl, .mlk, .units, .douts, .blanks, .streams,
    .capRecs, .cores, .marchMode, .burn, .dram, .dmc, .qspi, .rdData, .rdData2], State.reset.same t c
  regs : ∀ o, o ∉ [GLB_RESET_CAUSE.reg, ACR_MARCH_BOOT.reg, TMB_GRID_LO.reg, TMB_GRID_HI.reg, TMB_TRIM_USED.reg] →
    t.reg o = resetVal o
  vaux : ∀ o ∈ [ACR_MARCH_BOOT.reg, TMB_GRID_LO.reg, TMB_GRID_HI.reg], t.reg o = s.reg o

/-- The record at the head of the recorder's queue has a cause and a detail (R401). -/
def State.recordsFirst (s : State) (cause detail : Nat) : Prop :=
  ∃ r q, s.evr.queue = r :: q ∧ r.cause = cause ∧ r.detail = detail

/-- The record at the end of the recorder's queue has a cause and a detail (R401). -/
def State.recordsLast (s : State) (cause detail : Nat) : Prop :=
  ∃ r q, s.evr.queue = q ++ [r] ∧ r.cause = cause ∧ r.detail = detail

/-- Diagnostic `d` reported one event: it is counted, and EV54 or EV55 is raised (R391). -/
def State.Reports (s t : State) (d : Nat) : Prop :=
  t.reg (SAF_DIAG_COUNT.reg d) = s.reg (SAF_DIAG_COUNT.reg d) + 1 ∧ (t.evPending 54 ∨ t.evPending 55)

/-- `t` is `s` after an entry to SAFE with a code for SAF_SAFE_CAUSE (R28, R248, R303, R394): the pumps are off, nothing is left to
launch, every trigger unit is off, every core stops with its outputs and transfers abandoned, and every command is completed. -/
structure State.EntersSafe (s t : State) (code : Nat) : Prop where
  dev : t.ctl.dev = .safe
  prev : t.ctl.prev = s.ctl.dev
  cause : t.reg SAF_SAFE_CAUSE.reg = Word.of (2 ^ 31 + code)
  gate : t.src.gate = false
  sched : t.sched.started = false ∧ t.sched.starting = false ∧ t.sched.sliding = none ∧ t.sched.flight = [] ∧ t.sched.brl = []
  units : ∀ u, u < 16 → (t.unit u).st = .off
  cores : ∀ k, k < 16 → if (s.core k).st = .running ∨ (s.core k).st = .waiting then
      (t.core k).stopping = some 4 ∧ (t.core k).outQ = [] ∧ (t.core k).dmaQ = []
    else (t.core k).st = .stopped ∧ (t.core k).stopCause = 4
  cmds : t.hif.cmds = []
  frame : s.Reacts t [] []

/-! Analysis cores. -/

/-- Core `k` executes, and `w` is the word its program counter names. -/
abbrev State.Issues (s : State) (k : Nat) (w : Word) : Prop :=
  (s.core k).executes = true ∧ (s.core k).insn (s.core k).pc.toNat = w

/-- Core `k` as an instruction that follows no store finds and leaves it: the record of the bytes of a store directly before
is gone (R241). -/
abbrev State.coreAt (s : State) (k : Nat) : Core := { s.core k with lastStore := none }

/-- What an instruction does by the manual: the core with its registers written, what it uses and leaves for the hazards of
R240, and its issue cycles. -/
structure Effect where
  core : Core
  use : Use := {}
  made : Hazard := {}
  cycles : Nat := 1
  deriving DecidableEq, Repr

/-- Core `k` completes an instruction of effect `e` and goes on at `pc` with the repeat stack `stack`. Its cycle counts advance
by the issue cycles and the stall of R240. No other core, no other part of the state and no other register changes. -/
structure State.CoreNext (s t : State) (k : Nat) (e : Effect) (pc : Nat) (stack : List Level) : Prop where
  core : t.core k = { e.core with
    pc := BitVec.ofNat 11 pc
    stack := stack
    cycles := e.core.cycles + BitVec.ofNat 64 (e.cycles + stallOf (s.core k).hz e.use)
    hz := { e.made with ptr2 := if stallOf (s.core k).hz e.use = 0 then (s.core k).hz.ptr1 else 0 } }
  others : ∀ j, j ≠ k → t.core j = s.core j
  busy : t.reg64 (ACR_BUSY_CYCLES_LO.reg k)
    = (s.reg64 (ACR_BUSY_CYCLES_LO.reg k) + e.cycles + stallOf (s.core k).hz e.use) % 2 ^ 64
  stall : t.reg64 (ACR_STALL_CYCLES_LO.reg k)
    = (s.reg64 (ACR_STALL_CYCLES_LO.reg k) + stallOf (s.core k).hz e.use) % 2 ^ 64
  frame : s.Frame t [.cores] (fun o => pairAt (ACR_BUSY_CYCLES_LO.reg k) o ∨ pairAt (ACR_STALL_CYCLES_LO.reg k) o)

/-- Core `k` completes in sequence: it goes on at the next address, or at the first address of a repeat that has passes
left (R238). -/
def State.CoreSeq (s t : State) (k : Nat) (e : Effect) : Prop :=
  s.CoreNext t k e (nextPc (s.core k).pc.toNat e.core.stack).1 (nextPc (s.core k).pc.toNat e.core.stack).2

/-- The instruction at the program counter of core `k` is not the last of program memory, so that sequential completion stays
in range (R237). -/
abbrev State.SeqInRange (s : State) (k : Nat) : Prop := (nextPc (s.core k).pc.toNat (s.core k).stack).1 < 2048

/-- Core `k` waits with a WAIT code, its registers as they were (R244–R246). -/
structure State.CoreWaits (s t : State) (k code : Nat) (use : Use) : Prop where
  core : t.core k = { s.core k with
    st := .waiting, wait := code, waitAt := s.time, lastStore := none, hz := {}
    cycles := (s.core k).cycles + BitVec.ofNat 64 (1 + stallOf (s.core k).hz use) }
  others : ∀ j, j ≠ k → t.core j = s.core j
  frame : s.Frame t [.cores] (fun o => pairAt (ACR_BUSY_CYCLES_LO.reg k) o ∨ pairAt (ACR_STALL_CYCLES_LO.reg k) o)

/-- Core `k` takes a fault of R249 with a cause: it stops issuing, the feed and its slots go, ACRk_FAULT holds the cause and the
program counter, the word is kept, the fault is counted, EV44 is raised and DEG_CAUSE.CORE is set. -/
structure State.CoreFaults (s t : State) (k cause : Nat) (w : Word) : Prop where
  core : t.core k = { s.core k with
    stopping := some stopFault, wait := 0, ready := [], held := [], staging := [], lastStore := none, degFault := true }
  others : ∀ j, j ≠ k → t.core j = s.core j
  fault : t.reg (ACR_FAULT.reg k) = Word.of (cause * 2 ^ 28 + (s.core k).pc.toNat)
  word : t.reg (ACR_FAULT_INSN.reg k) = w
  count : t.reg (ACR_FAULT_COUNT.reg k) = s.reg (ACR_FAULT_COUNT.reg k) + 1
  raised : s.Raised t 44
  deg : t.ctl.deg = { s.ctl.deg with core := true }
  dev : t.ctl.dev = if s.ctl.dev = .running then .degraded else s.ctl.dev
  frame : s.Frame t [.cores, .ctl, .hif, .sent]
    (fun o => o = ACR_FAULT.reg k ∨ o = ACR_FAULT_INSN.reg k ∨ o = ACR_FAULT_COUNT.reg k ∨ eventReg o)

end Sys2Proof.Machine
end

