-- ==== Sys2Proof/Certificates/Slice0/Obligations.lean ====
section
/-!
DEFINITION. The statements for the provers. A statement `Completes c s Q` says that the command answers a next state of which
`Q` holds. Unless a docstring says otherwise a statement holds of every state, reached from reset or not.
-/

open Sys2Proof Sys2Proof.Machine

/-! Analysis cores: instructions on registers. -/

/-- R231, R236, R240: the instructions on two registers that write a plain result. The result wraps modulo 2³²; the shift
distance is Xb[4:0]; MIN and MAX are signed; only MUL delays its result. Every other register of the core keeps its value. -/
def Obligations.CoreRegisterArithmetic : Prop :=
  ∀ (s : State) (k : Fin 16) (w : Word), s.Issues k w → s.SeqInRange k → zeroR w = true →
    let c := s.coreAt k
    let a := c.getX (fA w)
    let b := c.getX (fB w)
    let n := b.toNat % 32
    let does (i : Instr) (op : Nat) (v : Word) (made : Hazard := {}) : Prop :=
      fOp w = op → Completes i s (fun t => s.CoreSeq t k
        { core := c.setX (fD w) v, use := { x := mask (fA w) ||| mask (fB w) }, made := made })
    does (.add k false) 0x01 (BitVec.ofInt 32 (a.toInt + b.toInt))
    ∧ does (.sub k false) 0x02 (BitVec.ofInt 32 (a.toInt - b.toInt))
    ∧ does (.and k false) 0x05 (a &&& b)
    ∧ does (.or k false) 0x06 (a ||| b)
    ∧ does (.xor k false) 0x07 (a ^^^ b)
    ∧ does (.sll k false) 0x08 (BitVec.ofNat 32 (a.toNat * 2 ^ n))
    ∧ does (.srl k false) 0x09 (BitVec.ofNat 32 (a.toNat / 2 ^ n))
    ∧ does (.sra k false) 0x0A (BitVec.ofInt 32 (a.toInt / 2 ^ n))
    ∧ does (.mul k false) 0x0B (BitVec.ofInt 32 (a.toInt * b.toInt)) { x := mask (fD w) }
    ∧ does (.min k false) 0x0C (if a.toInt ≤ b.toInt then a else b)
    ∧ does (.max k false) 0x0D (if a.toInt ≤ b.toInt then b else a)

/-- R231, R233: ADDS, SUBS and ABS saturate to int32 and set FLAGS.SAT when they do; EXP writes the number of bits below the
sign bit that equal it. ABS and EXP name no b, so it must be 0. -/
def Obligations.CoreSaturatingArithmetic : Prop :=
  ∀ (s : State) (k : Fin 16) (w : Word), s.Issues k w → s.SeqInRange k → zeroR w = true →
    let c := s.coreAt k
    let a := (c.getX (fA w)).toInt
    let b := (c.getX (fB w)).toInt
    let sat (v : Int) : Core :=
      { c.setX (fD w) (BitVec.ofInt 32 (max (-2 ^ 31) (min (2 ^ 31 - 1) v))) with
        flags := if -2 ^ 31 ≤ v ∧ v < 2 ^ 31 then c.flags else c.flags ||| 0x10 }
    let does (i : Instr) (op : Nat) (named : Bool) (r : Core) : Prop :=
      fOp w = op → (named ∨ fB w = 0) → Completes i s (fun t => s.CoreSeq t k
        { core := r, use := { x := if named then mask (fA w) ||| mask (fB w) else mask (fA w) } })
    does (.adds k false) 0x03 true (sat (a + b))
    ∧ does (.subs k false) 0x04 true (sat (a - b))
    ∧ does (.abs k false) 0x0E false (sat a.natAbs)
    ∧ ∀ r : Nat, r ≤ 31 → (∀ i, 31 - r ≤ i → i ≤ 31 → (c.getX (fA w)).getLsbD i = (c.getX (fA w)).msb) →
        (r < 31 → (c.getX (fA w)).getLsbD (30 - r) ≠ (c.getX (fA w)).msb) →
        does (.exp k false) 0x0F false (c.setX (fD w) (Word.of r))

/-- R235, R236: the instructions with an immediate, and NOP, which does nothing whatever its fields. -/
def Obligations.CoreImmediates : Prop :=
  ∀ (s : State) (k : Fin 16) (w : Word), s.Issues k w → s.SeqInRange k →
    let c := s.coreAt k
    let a := c.getX (fA w)
    let n := bitsAt w 4 0
    let does (i : Instr) (op : Nat) (ok : Bool) (r : Core) (use : Use) : Prop :=
      fOp w = op → ok = true → Completes i s (fun t => s.CoreSeq t k { core := r, use := use })
    does (.nopInstruction k false) 0x00 true c {}
    ∧ does (.addi k false) 0x10 true (c.setX (fD w) (BitVec.ofInt 32 (a.toInt + fImmS w))) { x := mask (fA w) }
    ∧ does (.ori k false) 0x11 true (c.setX (fD w) (a ||| Word.of (fImm w))) { x := mask (fA w) }
    ∧ does (.lui k false) 0x12 (fA w == 0) (c.setX (fD w) (Word.of (fImm w * 2 ^ 14))) {}
    ∧ does (.shi k false) 0x13 (bitsAt w 17 7 == 0)
        (c.setX (fD w) (match bitsAt w 6 5 with
          | 0 => BitVec.ofNat 32 (a.toNat * 2 ^ n)
          | 1 => BitVec.ofNat 32 (a.toNat / 2 ^ n)
          | 2 => BitVec.ofInt 32 (a.toInt / 2 ^ n)
          | _ => a.rotateRight n)) { x := mask (fA w) }

/-- R236, R237, R239: a taken branch and a jump go to their target after 3 cycles and test no repeat; a branch not taken goes on
in sequence after 1 cycle. JAL leaves PC + 1 in X15. A branch stalls only for the registers its condition reads: J for none, a
comparison with 0 for Xa. -/
def Obligations.CoreBranchesAndJumps : Prop :=
  ∀ (s : State) (k : Fin 16) (w : Word), s.Issues k w → zeroB w = true →
    let c := s.coreAt k
    let a := c.getX (fA w)
    let b := c.getX (fB w)
    let taken : Prop := match fD w with
      | 0 => True
      | 1 => a = b
      | 2 => a ≠ b
      | 3 => a.toInt < b.toInt
      | 4 => b.toInt ≤ a.toInt
      | 5 => a.toNat < b.toNat
      | 6 => b.toNat ≤ a.toNat
      | 7 => a = 0
      | 8 => a ≠ 0
      | 9 => a.toInt < 0
      | 10 => 0 ≤ a.toInt
      | 11 => 0 < a.toInt
      | _ => a.toInt ≤ 0
    let u : Use := { x := if fD w = 0 then 0 else if 7 ≤ fD w then mask (fA w) else mask (fA w) ||| mask (fB w) }
    (fOp w = 0x14 → fD w ≤ 0xC →
      (taken → Completes (.bcc k false) s (fun t => s.CoreNext t k { core := c, use := u, cycles := 3 } (fEnd w) c.stack))
      ∧ (¬ taken → s.SeqInRange k → Completes (.bcc k false) s (fun t => s.CoreSeq t k { core := c, use := u })))
    ∧ (fOp w = 0x15 → fD w = 0 → fA w = 0 → fB w = 0 → Completes (.jal k false) s (fun t =>
        s.CoreNext t k { core := c.setX 15 (Word.of (c.pc.toNat + 1)), cycles := 3 } (fEnd w) c.stack))
    ∧ (fOp w = 0x16 → fEnd w = 0 →
        (a.toNat ≤ 2047 → Completes (.jr k false) s (fun t =>
          s.CoreNext t k { core := c, use := { x := mask (fA w) }, cycles := 3 } a.toNat c.stack))
        ∧ (2047 < a.toNat → Completes (.jr k false) s (fun t => s.CoreFaults t k 3 w)))

/-- R238: REPI and REPR. A count of c ≥ 1 pushes a level of c passes over the body; a count of 0 pushes nothing and goes on at
end + 1; an end before PC + 1 or beyond the innermost level's end is an ILLEGAL fault, and a repeat at depth 4 a REP_OVERFLOW
fault. When sequential execution completes the instruction at the end of the innermost level, the body starts again while passes
are left, and the level is popped otherwise. -/
def Obligations.CoreRepeats : Prop :=
  ∀ (s : State) (k : Fin 16) (w : Word), s.Issues k w →
    let c := s.coreAt k
    let pc := c.pc.toNat
    let e := fEnd w
    let endOk : Prop := pc + 1 ≤ e ∧ ∀ l ls, c.stack = l :: ls → e ≤ l.last
    let does (i : Instr) (n : Nat) (use : Use) : Prop :=
      (endOk → c.stack.length < 4 → n = 0 → e + 1 < 2048 →
        Completes i s (fun t => s.CoreNext t k { core := c, use := use, cycles := 3 } (e + 1) c.stack))
      ∧ (endOk → c.stack.length < 4 → 0 < n →
        Completes i s (fun t => s.CoreNext t k { core := c, use := use, cycles := 2 } (pc + 1) (⟨pc + 1, e, n⟩ :: c.stack)))
      ∧ (¬ endOk → c.stack.length < 4 → Completes i s (fun t => s.CoreFaults t k 1 w))
      ∧ (endOk → c.stack.length = 4 → Completes i s (fun t => s.CoreFaults t k 4 w))
    (fOp w = 0x17 → does (.repi k false) (fCount w) {})
    ∧ (fOp w = 0x18 → fD w = 0 → bitsAt w 17 11 = 0 →
        does (.repr k false) (c.getX (fA w)).toNat { x := mask (fA w) })
    ∧ (fOp w = 0x00 → ∀ l ls, c.stack = l :: ls → l.last = pc →
        (1 < l.count → l.first < 2048 → Completes (.nopInstruction k false) s (fun t =>
          s.CoreNext t k { core := c } l.first ({ l with count := l.count - 1 } :: ls)))
        ∧ (l.count = 1 → (∀ m ms, ls = m :: ms → m.last ≠ pc) → pc + 1 < 2048 →
          Completes (.nopInstruction k false) s (fun t => s.CoreNext t k { core := c } (pc + 1) ls)))

/-- R236, R243–R246: WAITF takes the oldest ready slot and RELF releases the oldest slot held; OUT, DMAR and DMAW queue a block
or a transfer, at most four; WAITO and WAITD go on once nothing is queued. Where the condition fails the core waits with its
WAIT code, and a range that does not fit is a fault. With the DRAM frozen or failed a transfer completes without moving data and
sets FLAGS.DFAIL. -/
def Obligations.CoreFeedOutputAndTransfers : Prop :=
  ∀ (s : State) (k : Fin 16) (w : Word), s.Issues k w → s.SeqInRange k → zeroC w = true →
    let c := s.coreAt k
    let a := (c.getX (fA w)).toNat
    let n := (c.getX (fB w)).toNat
    let d := (c.getX (fD w)).toNat
    let seq (i : Instr) (r : Core) (use : Use) : Prop := Completes i s (fun t => s.CoreSeq t k { core := r, use := use })
    let waits (i : Instr) (code : Nat) (use : Use) : Prop := Completes i s (fun t => s.CoreWaits t k code use)
    let faults (i : Instr) (cause : Nat) : Prop := Completes i s (fun t => s.CoreFaults t k cause w)
    let ab : Use := { x := mask (fA w) ||| mask (fB w) }
    let dab : Use := { x := mask (fD w) ||| mask (fA w) ||| mask (fB w) }
    let outOk : Prop := a % 8 = 0 ∧ 1 ≤ n ∧ n ≤ 65536 ∧ a + n ≤ 2 ^ 18
    let dmaOk : Prop := d % 8 = 0 ∧ a % 8 = 0 ∧ n % 8 = 0 ∧ 8 ≤ n ∧ n ≤ 65536 ∧ d + n ≤ 2 ^ 18
      ∧ a + n ≤ min 1024 (s.fld (ACR_DRAM.SIZE_MIB k)) * 2 ^ 20
    let transfer (i : Instr) (write : Bool) : Prop :=
      (dmaOk → s.dramDead = true → seq i { c with flags := c.flags ||| 0x20 } dab)
      ∧ (dmaOk → s.dramDead = false → c.dmaQ.length < 4 → seq i { c with dmaQ := c.dmaQ ++ [⟨write, d, a, n⟩] } dab)
      ∧ (dmaOk → s.dramDead = false → 4 ≤ c.dmaQ.length → waits i 3 dab)
      ∧ (¬ dmaOk → faults i 6)
    (fOp w = 0x19 →
        (∀ i rest, c.ready = i :: rest → seq (.waitf k false)
          { c.setX (fD w) (Word.of (s.slotBase k + i * s.slotSize k)) with ready := rest, held := c.held ++ [i] } {})
        ∧ (c.ready = [] → waits (.waitf k false) 1 {}))
    ∧ (fOp w = 0x1A →
        (∀ i rest, c.held = i :: rest → seq (.relf k false) { c with held := rest } {})
        ∧ (c.held = [] → faults (.relf k false) 0xA))
    ∧ (fOp w = 0x1B →
        (outOk → c.outQ.length < 4 →
          seq (.out k false) { c with outQ := c.outQ ++ [⟨a, n, s.time, s.flag (ACR_OUT_CFG.EN k)⟩] } ab)
        ∧ (outOk → 4 ≤ c.outQ.length → waits (.out k false) 2 ab)
        ∧ (¬ outOk → faults (.out k false) 5))
    ∧ (fOp w = 0x1C → (c.outQ = [] → seq (.waito k false) c {}) ∧ (c.outQ ≠ [] → waits (.waito k false) 2 {}))
    ∧ (fOp w = 0x1D → transfer (.dmar k false) false)
    ∧ (fOp w = 0x1E → transfer (.dmaw k false) true)
    ∧ (fOp w = 0x1F → (c.dmaQ = [] → seq (.waitd k false) c {}) ∧ (c.dmaQ ≠ [] → waits (.waitd k false) 3 {}))

/-- R234, R236, R241, R253: a load reads its bytes at the effective address, little-endian; LDB zero-extends and LDH sign-extends.
A load issued in the cycle after a store to the same word reads that word's old bytes in native mode and the new ones in
compatibility mode. Post-modify then moves the pointer, within its circular range. The words read hold no error;
`CoreScratchpadErrors` states what an error does. -/
def Obligations.CoreLoads : Prop :=
  ∀ (s : State) (k : Fin 16) (w : Word), s.Issues k w → s.SeqInRange k →
    let c := s.coreAt k
    let p := fP w
    let v : Int := (c.getP p).toNat
    let cut (x : Int) : Nat :=
      (if c.len p = 0 then x % 2 ^ 18 else ((c.base p : Int) + (x - c.base p) % c.len p) % 2 ^ 18).toNat
    let ea := if fPost w then cut v else cut (v + fImmS w)
    let moved : BitVec 18 := if fPost w then BitVec.ofNat 18 (cut (v + fImmS w)) else c.getP p
    let use : Use := { p := mask p }
    let read (n : Nat) : List Byte := match (s.core k).lastStore with
      | none => Memory.bytes 0 c.spm ea n
      | some (a, old) =>
        if stallOf (s.core k).hz use = 0 ∧ a = ea / 8 * 8 ∧ c.compat = false then (old.drop (ea % 8)).take n
        else Memory.bytes 0 c.spm ea n
    let does (i : Upsets → Instr) (op n : Nat) (pair : Bool) (r : Core → List Byte → Core) : Prop :=
      fOp w = op → (pair → fD w % 2 = 0) →
        (ea % n = 0 → c.findings ea n = [] → Completes (i []) s (fun t => s.CoreSeq t k
          { core := r (c.setP p moved) (read n), use := use
            made := { x := if pair then mask (fD w) ||| mask (fD w + 1) else mask (fD w) } }))
        ∧ (ea % n ≠ 0 → Completes (i []) s (fun t => s.CoreFaults t k 2 w))
    does (.ldb k false) 0x20 1 false (fun c bs => c.setX (fD w) (Word.of (leVal bs)))
    ∧ does (.ldh k false) 0x21 2 false (fun c bs => c.setX (fD w) (BitVec.ofInt 32 (ofBits 16 (leVal bs))))
    ∧ does (.ldw k false) 0x22 4 false (fun c bs => c.setX (fD w) (Word.of (leVal bs)))
    ∧ does (.ldd k false) 0x23 8 true (fun c bs =>
        (c.setX (fD w) (Word.of (leVal (bs.take 4)))).setX (fD w + 1) (Word.of (leVal (bs.drop 4))))

/-- R234, R236, R241, R251, R256: a store writes the low bytes of Xd, or of the pair Xd, Xd+1, at the effective address; every
other byte of the scratchpad reads as before, and every register but a post-modified pointer keeps its value. The 32-bit words it
lies in are written whole and hold no error any more; an error elsewhere stays. A store of a part of a word reads that word, which
holds no error here. -/
def Obligations.CoreStores : Prop :=
  ∀ (s : State) (k : Fin 16) (w : Word), s.Issues k w → s.SeqInRange k →
    let c := s.coreAt k
    let p := fP w
    let ea := (c.address p (fPost w) (fImmS w)).1
    let bytes := leBytes 4 (c.getX (fD w)).toNat ++ leBytes 4 (c.getX (fD w + 1)).toNat
    let does (i : Instr) (op n : Nat) (pair merge : Bool) : Prop :=
      fOp w = op → (pair → fD w % 2 = 0) → (merge → c.findings ea n = []) →
        (ea % n = 0 → Completes i s (fun t =>
          (∃ spm errs, s.CoreSeq t k
            { core := { c.setP p (c.address p (fPost w) (fImmS w)).2 with
                spm := spm, errs := errs, lastStore := some (ea / 8 * 8, Memory.bytes 0 c.spm (ea / 8 * 8) 8) }
              use := { p := mask p, x := if pair then mask (fD w) ||| mask (fD w + 1) else mask (fD w) } })
          ∧ Memory.bytes 0 (t.core k).spm ea n = bytes.take n
          ∧ (∀ b, b < ea ∨ ea + n ≤ b → Memory.byte 0 (t.core k).spm b = Memory.byte 0 c.spm b)
          ∧ (t.core k).findings ea n = []
          ∧ ∀ b m, b + m ≤ ea / 4 * 4 ∨ (ea + n + 3) / 4 * 4 ≤ b → (t.core k).findings b m = c.findings b m))
        ∧ (ea % n ≠ 0 → Completes i s (fun t => s.CoreFaults t k 2 w))
    does (.stb k false []) 0x24 1 false true
    ∧ does (.sth k false []) 0x25 2 false true
    ∧ does (.stw k false) 0x26 4 false false
    ∧ does (.std k false) 0x27 8 true false

/-- R256: upsets flip stored bits, and a read finds the words it reads that hold an error. A read of one word with a corrected
error counts in ACRk_SPM_CE_COUNT, raises EV40 when the count reaches a multiple of
CE_THRESH, and completes as without the error; one with an uncorrectable error counts in ACRk_SPM_UE_COUNT, records the address
and the reader in ACRk_SPM_ECC_ADDR, raises EV40 and faults the core with SRAM_ECC, every register and byte as it was, the error
with them. Any uncorrectable word among several faults the core. Reader 0 is a load or memory MAC, reader 1 the merge read of STB
or STH. That two or more flipped bits are uncorrectable is the model's (log entry 126). -/
def Obligations.CoreScratchpadErrors : Prop :=
  ∀ (s : State) (k : Fin 16) (w : Word), s.Issues k w →
    let c := s.coreAt k
    let lEa := (c.address (fP w) (fPost w) (fImmS w)).1
    let mEa (n : Nat) := (c.address (fPa w) true n).1
    let count := s.reg (ACR_SPM_CE_COUNT.reg k) + 1
    let thresh := s.fld (ACR_SPM_CFG.CE_THRESH k)
    let does (i : Upsets → Instr) (op n ea reader : Nat) (ok : Bool) : Prop :=
      fOp w = op → ok = true → ea % n = 0 → ∀ ups : Upsets,
        let errs := ((s.core k).upset ups).errs
        let found := ((s.core k).upset ups).findings ea n
        let faulted (t : State) : Prop :=
          (t.core k).stopping = some 5 ∧ (t.core k).x = c.x ∧ (t.core k).acc = c.acc ∧ (t.core k).p = c.p
          ∧ (t.core k).spm = c.spm ∧ (t.core k).errs = errs ∧ (t.core k).pc = c.pc
          ∧ t.reg (ACR_FAULT.reg k) = Word.of (8 * 2 ^ 28 + c.pc.toNat) ∧ t.reg (ACR_FAULT_INSN.reg k) = w ∧ t.evPending 40
        ((∃ a, (a, true) ∈ found) → Completes (i ups) s faulted)
        ∧ (∀ a, found = [(a, true)] → Completes (i ups) s (fun t =>
          t.reg (ACR_SPM_UE_COUNT.reg k) = s.reg (ACR_SPM_UE_COUNT.reg k) + 1
          ∧ t.reg (ACR_SPM_ECC_ADDR.reg k) = Word.of (2 ^ 31 + reader * 2 ^ 28 + a % 2 ^ 18)))
        ∧ (∀ a, found = [(a, false)] → Completes (i ups) s (fun t =>
          t.reg (ACR_SPM_CE_COUNT.reg k) = count
          ∧ (thresh ≠ 0 → count.toNat % thresh = 0 → t.evPending 40)
          ∧ ∃ u, exec (i []) (s.setCore k { s.core k with errs := [] }) = .next u
            ∧ t.core k = { u.core k with errs := (t.core k).errs }))
    does (.ldb k false) 0x20 1 lEa 0 true
    ∧ does (.ldh k false) 0x21 2 lEa 0 true
    ∧ does (.ldw k false) 0x22 4 lEa 0 true
    ∧ does (.ldd k false) 0x23 8 lEa 0 (fD w % 2 == 0)
    ∧ does (.stb k false) 0x24 1 lEa 1 true
    ∧ does (.sth k false) 0x25 2 lEa 1 true
    ∧ does (.mac32m k false) 0x34 4 (mEa 4) 0 (aOk true true false true true w)
    ∧ does (.sq32m k false) 0x35 4 (mEa 4) 0 (aOk true false false true true w)
    ∧ does (.dot4m k false) 0x38 8 (mEa 8) 0 (aOk true true false true true w && fA w % 2 == 0)
    ∧ does (.sq4m k false) 0x39 8 (mEa 8) 0 (aOk true false false true true w)
    ∧ does (.vmacm k false) 0x3A 8 (mEa 8) 0 (aOk false true false true true w && fA w % 2 == 0)

/-- R229, R234, R236, R240: MOVP and MVP copy between a pointer and an X register, ADDP moves a pointer within its circular
range; MTS writes a base, a length, SHF or FLAGS, and MFS reads a special register by its number, reading CYCLE_LO or TIME_LO
latching the high word. A write to a read-only number and an access to a number above 0x1E are ILLEGAL faults. -/
def Obligations.CorePointersAndSpecials : Prop :=
  ∀ (s : State) (k : Fin 16) (w : Word), s.Issues k w → s.SeqInRange k →
    let c := s.coreAt k
    let p := fP w
    let x := c.getX (fD w)
    let n := fS w
    let seq (i : Instr) (r : Core) (use : Use) (made : Hazard) : Prop :=
      Completes i s (fun t => s.CoreSeq t k { core := r, use := use, made := made })
    let illegal (i : Instr) : Prop := Completes i s (fun t => s.CoreFaults t k 1 w)
    let v : Int := (c.getP p).toNat + fImmS w
    let moved : Int := if c.len p = 0 then v % 2 ^ 18 else (c.base p + (v - c.base p) % c.len p) % 2 ^ 18
    let mtsMade : Hazard := { ptr1 := if n < 16 then mask (n % 8) else 0, shf := n == 0x14 }
    let mts (r : Core) : Prop := seq (.mts k false) r { x := mask (fD w) } mtsMade
    let mfs (v : Word) (r : Core → Core := id) : Prop := seq (.mfs k false) (r (c.setX (fD w) v)) {} {}
    (fOp w = 0x28 → bitsAt w 18 0 = 0 →
      seq (.movp k false) (c.setP p (BitVec.ofNat 18 x.toNat)) { x := mask (fD w) } { ptr1 := mask p })
    ∧ (fOp w = 0x29 → bitsAt w 18 0 = 0 → seq (.mvp k false) (c.setX (fD w) (Word.of (c.getP p).toNat)) {} {})
    ∧ (fOp w = 0x2A → fPost w = false → fD w = 0 →
      seq (.addp k false) (c.setP p (BitVec.ofInt 18 moved)) { p := mask p } {})
    ∧ (fOp w = 0x2B → zeroS w = true →
      (∀ h : n < 8, mts { c with pb := c.pb.set n (BitVec.ofNat 18 x.toNat) })
      ∧ (8 ≤ n → ∀ h : n < 16, mts { c with pl := c.pl.set (n - 8) (BitVec.ofNat 18 x.toNat) })
      ∧ (n = 0x14 → mts { c with shf := BitVec.ofNat 6 x.toNat })
      ∧ (n = 0x15 → mts { c with flags := BitVec.ofNat 7 x.toNat })
      ∧ (16 ≤ n → n ≠ 0x14 → n ≠ 0x15 → illegal (.mts k false)))
    ∧ (fOp w = 0x2C → zeroS w = true →
      (∀ h : n < 8, mfs (Word.of c.pb[n].toNat))
      ∧ (8 ≤ n → ∀ h : n < 16, mfs (Word.of c.pl[n - 8].toNat))
      ∧ (16 ≤ n → n < 20 → mfs (Word.of (match c.stack.reverse[n - 16]? with | some l => l.count | none => 0)))
      ∧ (n = 0x14 → mfs (Word.of c.shf.toNat))
      ∧ (n = 0x15 → mfs (Word.of c.flags.toNat))
      ∧ (n = 0x16 → mfs (Word.of c.stack.length))
      ∧ (n = 0x17 → mfs (Word.of k))
      ∧ (n = 0x18 → mfs (Word.of c.ready.length))
      ∧ (n = 0x19 → mfs (Word.of c.outQ.length))
      ∧ (n = 0x1A → mfs (Word.of c.dmaQ.length))
      ∧ (n = 0x1B → mfs (Word.of c.cycles.toNat) fun r => { r with cycleHi := Word.of (c.cycles.toNat / 2 ^ 32) })
      ∧ (n = 0x1C → mfs c.cycleHi)
      ∧ (n = 0x1D → mfs (Word.of s.time) fun r => { r with timeHi := Word.of (s.time / 2 ^ 32) })
      ∧ (n = 0x1E → mfs c.timeHi)
      ∧ (0x1E < n → illegal (.mfs k false)))

/-- R236, R248: SIG writes ACRk_SIG.CODE, counts in ACRk_SIG_COUNT and raises EV42 AC_EVENT, then completes; HALT counts its cycle
and begins a stop with cause HALT, which releases the held slots and empties staging. Queued outputs and transfers stay queued. -/
def Obligations.CoreSignalAndHalt : Prop :=
  ∀ (s : State) (k : Fin 16) (w : Word), s.Issues k w → zeroC w = true →
    let c := s.core k
    (fOp w = 0x2D → s.SeqInRange k → Completes (.sig k false) s (fun t =>
      t.fld (ACR_SIG.CODE k) = bitsAt w 7 0
      ∧ t.reg (ACR_SIG_COUNT.reg k) = s.reg (ACR_SIG_COUNT.reg k) + 1
      ∧ s.Raised t 42
      ∧ (t.core k).pc = BitVec.ofNat 11 (nextPc c.pc.toNat c.stack).1
      ∧ (t.core k).x = c.x ∧ (t.core k).p = c.p ∧ (t.core k).acc = c.acc ∧ (t.core k).spm = c.spm
      ∧ (∀ j, j ≠ k → t.core j = s.core j)
      ∧ s.Frame t [.cores, .hif, .sent] (fun o => o = ACR_SIG.reg k ∨ o = ACR_SIG_COUNT.reg k ∨ eventReg o
          ∨ pairAt (ACR_BUSY_CYCLES_LO.reg k) o ∨ pairAt (ACR_STALL_CYCLES_LO.reg k) o)))
    ∧ (fOp w = 0x2E → Completes (.halt k false) s (fun t =>
      t.core k = { c with
        stopping := some 1, wait := 0, ready := [], held := [], staging := [], lastStore := none
        cycles := c.cycles + BitVec.ofNat 64 (1 + stallOf c.hz {}) }
      ∧ (∀ j, j ≠ k → t.core j = s.core j)
      ∧ s.Frame t [.cores] (fun o => pairAt (ACR_BUSY_CYCLES_LO.reg k) o ∨ pairAt (ACR_STALL_CYCLES_LO.reg k) o)))

/-- R229, R230, R235, R236, R237, R249, R233: a word with a bit set that its format or instruction marks 0, an odd register of a
pair, a reserved condition and a reserved opcode are ILLEGAL faults. EXPA writes the number of bits below the sign bit of an
accumulator that equal it, 0–47, and nothing else. -/
def Obligations.CoreIllegalWordsAndRedundantBits : Prop :=
  (∀ (s : State) (k : Fin 16) (w : Word), s.Issues k w →
      let illegal (op : Nat) (bad : Bool) (is : List Instr) : Prop :=
        fOp w = op → bad = true → ∀ i ∈ is, Completes i s (fun t => s.CoreFaults t k 1 w)
      let oddA := fA w % 2 == 1
      let oddB := fB w % 2 == 1
      let oddD := fD w % 2 == 1
      let z := !zeroA w
      let nb := fB w != 0
      let na := fA w != 0
      let nc := fC w != 0
      let ns := fSh w != 0
      let np := fPa w != 0
      illegal 0x01 (!zeroR w) [.add k false] ∧ illegal 0x02 (!zeroR w) [.sub k false]
      ∧ illegal 0x03 (!zeroR w) [.adds k false] ∧ illegal 0x04 (!zeroR w) [.subs k false]
      ∧ illegal 0x05 (!zeroR w) [.and k false] ∧ illegal 0x06 (!zeroR w) [.or k false]
      ∧ illegal 0x07 (!zeroR w) [.xor k false] ∧ illegal 0x08 (!zeroR w) [.sll k false]
      ∧ illegal 0x09 (!zeroR w) [.srl k false] ∧ illegal 0x0A (!zeroR w) [.sra k false]
      ∧ illegal 0x0B (!zeroR w) [.mul k false] ∧ illegal 0x0C (!zeroR w) [.min k false]
      ∧ illegal 0x0D (!zeroR w) [.max k false] ∧ illegal 0x0E (!zeroR w || nb) [.abs k false]
      ∧ illegal 0x0F (!zeroR w || nb) [.exp k false] ∧ illegal 0x12 na [.lui k false]
      ∧ illegal 0x13 (bitsAt w 17 7 != 0) [.shi k false]
      ∧ illegal 0x14 (!zeroB w || decide (0xC < fD w)) [.bcc k false]
      ∧ illegal 0x15 (!zeroB w || fD w != 0 || na || nb) [.jal k false]
      ∧ illegal 0x16 (!zeroB w || fEnd w != 0) [.jr k false]
      ∧ illegal 0x18 (fD w != 0 || bitsAt w 17 11 != 0) [.repr k false]
      ∧ illegal 0x19 (!zeroC w) [.waitf k false] ∧ illegal 0x1A (!zeroC w) [.relf k false]
      ∧ illegal 0x1B (!zeroC w) [.out k false] ∧ illegal 0x1C (!zeroC w) [.waito k false]
      ∧ illegal 0x1D (!zeroC w) [.dmar k false] ∧ illegal 0x1E (!zeroC w) [.dmaw k false]
      ∧ illegal 0x1F (!zeroC w) [.waitd k false]
      ∧ illegal 0x23 oddD [.ldd k false []]
      ∧ illegal 0x27 oddD [.std k false]
      ∧ illegal 0x28 (bitsAt w 18 0 != 0) [.movp k false] ∧ illegal 0x29 (bitsAt w 18 0 != 0) [.mvp k false]
      ∧ illegal 0x2A (fPost w || fD w != 0) [.addp k false]
      ∧ illegal 0x2B (!zeroS w) [.mts k false] ∧ illegal 0x2C (!zeroS w) [.mfs k false]
      ∧ illegal 0x2D (!zeroC w) [.sig k false] ∧ illegal 0x2E (!zeroC w) [.halt k false]
      ∧ illegal 0x2F true [.reservedOpcode k false] ∧ illegal 0x3F true [.reservedOpcode k false]
      ∧ illegal 0x30 (z || nc || na || ns || np) [.clra k false] ∧ illegal 0x31 (z || nb || ns || np) [.mta k false]
      ∧ illegal 0x32 (z || na || ns || np || bitsAt w 17 16 != 0) [.adda k false]
      ∧ illegal 0x33 (z || np) [.mac32 k false]
      ∧ illegal 0x34 (z || nb) [.mac32m k false []]
      ∧ illegal 0x35 (z || na || nb) [.sq32m k false []]
      ∧ illegal 0x36 (z || nc || np || oddA || oddB) [.vmac k false]
      ∧ illegal 0x37 (z || np || oddA || oddB) [.dot4 k false]
      ∧ illegal 0x38 (z || nb || oddA) [.dot4m k false []]
      ∧ illegal 0x39 (z || na || nb) [.sq4m k false []]
      ∧ illegal 0x3A (z || nc || nb || oddA) [.vmacm k false []]
      ∧ illegal 0x3B (z || nb || ns || np) [.mva k false] ∧ illegal 0x3C (z || nb || ns || np) [.mvah k false]
      ∧ illegal 0x3D (z || nc || nb || ns || np || oddA) [.vmva k false]
      ∧ illegal 0x3E (z || nb || ns || np) [.expa k false])
  ∧ (∀ (s : State) (k : Fin 16) (w : Word), s.Issues k w → s.SeqInRange k →
      let c := s.coreAt k
      let a : BitVec 48 := c.acc[fC w % 4]'(Nat.mod_lt _ (by decide))
      fOp w = 0x3E → aOk true true false false false w = true →
      ∀ r : Nat, r ≤ 47 → (∀ i, 47 - r ≤ i → i ≤ 47 → a.getLsbD i = a.msb) → (r < 47 → a.getLsbD (46 - r) ≠ a.msb) →
        Completes (.expa k false) s (fun t => s.CoreSeq t k
          { core := c.setX (fA w) (Word.of r), use := { acc := mask (fC w) }, made := { x := mask (fA w) } }))

/-- R231, R234, R236, R240: accumulator instructions. CLRA clears the accumulators of its mask, MTA loads one, ADDA adds one to
another; a multiply forms exact products, shifts each right by 0, 8, 16 or 24 bits rounding to nearest with ties away from zero,
and adds to its accumulator, saturating to 48 bits and setting AOV of that accumulator when it does. A memory form reads at its
pointer, which then moves by the size of the access; the words it reads hold no error. -/
def Obligations.CoreAccumulators : Prop :=
  ∀ (s : State) (k : Fin 16) (w : Word), s.Issues k w → s.SeqInRange k →
    let c := s.coreAt k
    let p := fPa w
    let round (v : Int) : Int :=
      let d : Int := 2 ^ (8 * fSh w)
      if 0 ≤ v then (2 * v + d) / (2 * d) else -((2 * -v + d) / (2 * d))
    let add (r : Core) (n : Nat) (v : Int) : Core :=
      let sum := r.getAcc n + v
      let r' := r.setAcc n (max (-2 ^ 47) (min (2 ^ 47 - 1) sum))
      if -2 ^ 47 ≤ sum ∧ sum < 2 ^ 47 then r' else { r' with flags := r.flags ||| BitVec.ofNat 7 (2 ^ n) }
    let lane (n i : Nat) : Int := ofBits 16 ((c.getX (n + i / 2)).toNat / 2 ^ (16 * (i % 2)) % 2 ^ 16)
    let four (r : Core) (v : Nat → Int) : Core :=
      add (add (add (add r 0 (round (v 0))) 1 (round (v 1))) 2 (round (v 2))) 3 (round (v 3))
    let sum (v : Nat → Int) : Int := round (v 0) + round (v 1) + round (v 2) + round (v 3)
    let seq (i : Instr) (r : Core) (use : Use) (accs : Nat) : Prop :=
      Completes i s (fun t => s.CoreSeq t k { core := r, use := use, made := { acc := accs } })
    let read (n : Nat) (use : Use) : List Byte := match (s.core k).lastStore with
      | none => Memory.bytes 0 c.spm (c.circ p (c.getP p).toNat) n
      | some (a, old) =>
        if stallOf (s.core k).hz use = 0 ∧ a = c.circ p (c.getP p).toNat / 8 * 8 ∧ c.compat = false then
          (old.drop (c.circ p (c.getP p).toNat % 8)).take n
        else Memory.bytes 0 c.spm (c.circ p (c.getP p).toNat) n
    let mem (i : Upsets → Instr) (n : Nat) (x accs : Nat) (r : Core → List Byte → Core) : Prop :=
      let use : Use := { x := x, p := mask p }
      (c.circ p (c.getP p).toNat % n = 0 → c.findings (c.circ p (c.getP p).toNat) n = [] →
        seq (i []) (r (c.setP p (BitVec.ofNat 18 (c.circ p ((c.getP p).toNat + n)))) (read n use)) use accs)
      ∧ (c.circ p (c.getP p).toNat % n ≠ 0 → Completes (i []) s (fun t => s.CoreFaults t k 2 w))
    let word (bs : List Byte) : Int := ofBits 32 (leVal bs)
    let laneOf (bs : List Byte) (i : Nat) : Int := ofBits 16 (leVal ((bs.drop (2 * i)).take 2))
    let ab := mask (fA w) ||| mask (fB w)
    let pairA := mask (fA w) ||| mask (fA w + 1)
    let pairs := pairA ||| mask (fB w) ||| mask (fB w + 1)
    let mac := mask (fC w)
    let even (n : Nat) : Bool := n % 2 == 0
    (fOp w = 0x30 → aOk false false true false false w = true →
      seq (.clra k false) { c with acc := Vector.ofFn fun n => if fB w / 2 ^ n.1 % 2 = 1 then 0 else c.acc[n] } {} (fB w))
    ∧ (fOp w = 0x31 → aOk true true false false false w = true →
      seq (.mta k false) (c.setAcc (fC w) (c.getX (fA w)).toInt) { x := mask (fA w) } mac)
    ∧ (fOp w = 0x32 → aOk true false true false false w = true → bitsAt w 17 16 = 0 →
      seq (.adda k false) (add c (fC w) (c.getAcc (bitsAt w 15 14))) { acc := mask (bitsAt w 15 14) } mac)
    ∧ (fOp w = 0x33 → aOk true true true true false w = true →
      seq (.mac32 k false) (add c (fC w) (round ((c.getX (fA w)).toInt * (c.getX (fB w)).toInt))) { x := ab } mac)
    ∧ (fOp w = 0x34 → aOk true true false true true w = true →
      mem (.mac32m k false) 4 (mask (fA w)) mac
        (fun r bs => add r (fC w) (round (word bs * (c.getX (fA w)).toInt))))
    ∧ (fOp w = 0x35 → aOk true false false true true w = true →
      mem (.sq32m k false) 4 0 mac (fun r bs => add r (fC w) (round (word bs * word bs))))
    ∧ (fOp w = 0x36 → aOk false true true true false w = true → even (fA w) = true → even (fB w) = true →
      seq (.vmac k false) (four c (fun i => lane (fA w) i * lane (fB w) i)) { x := pairs } 15)
    ∧ (fOp w = 0x37 → aOk true true true true false w = true → even (fA w) = true → even (fB w) = true →
      seq (.dot4 k false) (add c (fC w) (sum fun i => lane (fA w) i * lane (fB w) i)) { x := pairs } mac)
    ∧ (fOp w = 0x38 → aOk true true false true true w = true → even (fA w) = true →
      mem (.dot4m k false) 8 pairA mac (fun r bs => add r (fC w) (sum fun i => lane (fA w) i * laneOf bs i)))
    ∧ (fOp w = 0x39 → aOk true false false true true w = true →
      mem (.sq4m k false) 8 0 mac (fun r bs => add r (fC w) (sum fun i => laneOf bs i * laneOf bs i)))
    ∧ (fOp w = 0x3A → aOk false true false true true w = true → even (fA w) = true →
      mem (.vmacm k false) 8 pairA 15 (fun r bs => four r (fun i => lane (fA w) i * laneOf bs i)))

/-- R232: a move out of an accumulator forms round(ACC / 2^SHF) with ties away from zero, a shift of 48–63 acting as 47 (R228). It
saturates to int32 for MVA, and to int16 for MVAH and for each lane of VMVA, and sets FLAGS.SAT on any saturation. MVAH
sign-extends. The accumulator is unchanged, as is every register but those written. -/
def Obligations.CoreMovesOut : Prop :=
  ∀ (s : State) (k : Fin 16) (w : Word), s.Issues k w → s.SeqInRange k →
    let c := s.coreAt k
    let value (n : Nat) : Int :=
      let d : Int := 2 ^ min c.shf.toNat 47
      let v := c.getAcc n
      if 0 ≤ v then (2 * v + d) / (2 * d) else -((2 * -v + d) / (2 * d))
    let sat (bits n : Nat) : Int := max (-2 ^ (bits - 1)) (min (2 ^ (bits - 1) - 1) (value n))
    let flagged (r : Core) (any : Prop) [Decidable any] : Core := if any then { r with flags := c.flags ||| 0x10 } else r
    let lanes (i : Nat) : Nat := (sat 16 i).toNat + (if sat 16 i < 0 then (2 ^ 16 + sat 16 i).toNat else 0)
    let seq (i : Instr) (r : Core) (accs x : Nat) : Prop :=
      Completes i s (fun t => s.CoreSeq t k { core := r, use := { acc := accs, shf := true }, made := { x := x } })
    (fOp w = 0x3B → aOk true true false false false w = true →
      seq (.mva k false) (flagged (c.setX (fA w) (BitVec.ofInt 32 (sat 32 (fC w)))) (sat 32 (fC w) ≠ value (fC w)))
        (mask (fC w)) (mask (fA w)))
    ∧ (fOp w = 0x3C → aOk true true false false false w = true →
      seq (.mvah k false) (flagged (c.setX (fA w) (BitVec.ofInt 32 (sat 16 (fC w)))) (sat 16 (fC w) ≠ value (fC w)))
        (mask (fC w)) (mask (fA w)))
    ∧ (fOp w = 0x3D → aOk false true false false false w = true → fA w % 2 = 0 →
      seq (.vmva k false)
        (flagged ((c.setX (fA w) (Word.of (lanes 0 + lanes 1 * 2 ^ 16))).setX (fA w + 1) (Word.of (lanes 2 + lanes 3 * 2 ^ 16)))
          (∃ i : Fin 4, sat 16 i ≠ value i))
        15 (mask (fA w) ||| mask (fA w + 1)))

/-- R249, R248: a parity error on an instruction fetch is a PMEM_PARITY fault of a core that executes, whatever the instruction,
its registers and memory as they were. The manual does not say which word ACRk_FAULT_INSN then holds: a free value (log entry
3). An instruction is executed only by a core that is RUNNING with no stop under way: any other core, whatever the command says
of it, stays as it is. That such a command changes nothing at all is the model's choice (log entry 4). -/
def Obligations.CoreFetchParityAndIdleCores : Prop :=
  (∀ (s : State) (k : Fin 16) (ups : Upsets), (s.core k).executes = true →
      let faulted (c : Core) (t : State) : Prop :=
        t.core k = { c with
          stopping := some 5, wait := 0, ready := [], held := [], staging := [], lastStore := none, degFault := true }
        ∧ (∀ j, j ≠ k → t.core j = s.core j)
        ∧ t.reg (ACR_FAULT.reg k) = Word.of (9 * 2 ^ 28 + (s.core k).pc.toNat)
        ∧ t.reg (ACR_FAULT_COUNT.reg k) = s.reg (ACR_FAULT_COUNT.reg k) + 1
        ∧ s.Raised t 44
        ∧ t.ctl.deg = { s.ctl.deg with core := true }
        ∧ s.Frame t [.cores, .ctl, .hif, .sent, .freeCtr]
          (fun o => o = ACR_FAULT.reg k ∨ o = ACR_FAULT_INSN.reg k ∨ o = ACR_FAULT_COUNT.reg k ∨ eventReg o)
      (∀ i ∈ [Instr.nopInstruction k true, .add k true, .sub k true, .adds k true, .subs k true, .and k true, .or k true,
        .xor k true, .sll k true, .srl k true, .sra k true, .mul k true, .min k true, .max k true, .abs k true, .exp k true,
        .addi k true, .ori k true, .lui k true, .shi k true, .bcc k true, .jal k true, .jr k true, .repi k true, .repr k true,
        .waitf k true, .relf k true, .out k true, .waito k true, .dmar k true, .dmaw k true, .waitd k true, .stw k true,
        .std k true, .movp k true, .mvp k true, .addp k true, .mts k true, .mfs k true, .sig k true, .halt k true, .clra k true,
        .mta k true, .adda k true, .mac32 k true, .vmac k true, .dot4 k true, .mva k true, .mvah k true, .vmva k true,
        .expa k true],
        Completes i s (faulted (s.core k)))
      ∧ ∀ i ∈ [Instr.ldb k true ups, .ldh k true ups, .ldw k true ups, .ldd k true ups, .stb k true ups, .sth k true ups,
        .mac32m k true ups, .sq32m k true ups, .dot4m k true ups, .sq4m k true ups, .vmacm k true ups],
        Completes i s (faulted ((s.core k).upset ups)))
  ∧ (∀ (s : State) (k : Fin 16) (parity : Bool), (s.core k).executes = false →
      ∀ i ∈ [Instr.add k parity, .addi k parity, .bcc k parity, .repi k parity, .waitf k parity, .out k parity, .dmaw k parity,
        .ldw k parity [], .std k parity, .mts k parity, .mfs k parity, .sig k parity, .halt k parity, .mac32m k parity [],
        .mva k parity, .reservedOpcode k parity],
      exec i s = .next s)

/-! The machine. -/

/-- A step takes the command at the front of the queue and answers what it does to the state with the queue's rest. -/
def Obligations.StepTakesTheFront : Prop :=
  ∀ (s : State) (c : Instr) (cs : List Instr), s.pending = c :: cs → step s = exec c { s with pending := cs }

/-- On an empty queue one scheduler tick passes: device time advances while the VAUX domain runs (R19, R20), and then stops of pair
units whose look-ahead of one pip is over pair (R181), and the DRAM controller ends trainings and issues queued writes (R269, R271).
While no pair unit waits, no channel retrains, training is over and no write is queued, nothing else changes. That a step on an
empty queue is a tick is the model's choice (log entry 2). R20, R415: no command but POWER_ON changes device time. -/
def Obligations.DeviceTime : Prop :=
  (∀ s : State, s.pending = [] →
      step s = .next ((if s.supply.vauxUp then { s with time := s.time + 1 } else s).pairSettle.dramTick)
      ∧ (∃ t, step s = .next t ∧ t.time = if s.supply.vauxUp then s.time + 1 else s.time)
      ∧ ((∀ p, p < 4 → (s.pair p).wait = none) → s.dmc.retrain = none → s.fld DMC_STATUS.STATE ≠ dmcTraining → s.dmc.writeQ = [] →
        step s = .next (if s.supply.vauxUp then { s with time := s.time + 1 } else s)))
  ∧ (∀ (c : Instr) (s t : State), c ≠ .powerOn → exec c s = .next t → t.time = s.time)

/-- Every command completes. It leaves the part, the fuses of manufacture and the queue of waiting commands as they were, and
what has left the device is never taken back. -/
def Obligations.EveryCommandCompletes : Prop :=
  ∀ (c : Instr) (s : State), Completes c s (fun t => s.SameMake t ∧ ∃ new, t.sent = s.sent ++ new)

/-- Every step keeps the canonical form of the register map, of the latches and of every memory. -/
def Obligations.StepKeepsCanonicalForm : Prop := ∀ s t : State, s.Canonical → step s = .next t → t.Canonical

/-- What reset leaves: BOOT at step 0x0 with no cause of degradation, no stop and no commit failure (R28, R35), no core running
(R248), every ring empty (R281), device time 0 (R20), cause POWER_ON (R417), and every register at its reset value. The state
after reset is canonical, and no command waits in it. -/
def Obligations.ResetState : Prop :=
  (State.reset.ctl.dev = .boot ∧ State.reset.ctl.bootStep = 0 ∧ State.reset.glbState = 0 ∧ State.reset.time = 0
    ∧ State.reset.fld GLB_RESET_CAUSE.CAUSE = 1
    ∧ (∀ k, (State.reset.core k).st = .stopped ∧ (State.reset.core k).stopCause = 0)
    ∧ (∀ o, State.reset.reg o = resetVal o) ∧ (∀ r, State.reset.ring r = {})
    ∧ State.reset.evr.cycles = 1)
  ∧ (State.reset.Canonical ∧ State.reset.pending = [])

/-- R29: a device in SAFE leaves SAFE only through reset. The commands that may reset the device are the causes of R417, a write
of GLB_CTRL among them, and the loss of VAUX (R411). -/
def Obligations.OnlyResetLeavesSafe : Prop :=
  ∀ (c : Instr) (s t : State), s.ctl.dev = .safe → exec c s = .next t →
    t.ctl.dev = .safe ∨ c ∈ [Instr.powerOn, .vauxLoss, .vinUv, .vinOv, .perstN, .softReset]
      ∨ (∃ r d o, c = .railFault r d o) ∨ (∃ d, c = .thermalShutdown d) ∨ ∃ w, c = .registerWrite GLB_CTRL.reg w

/-- R426, R427: the words of the flash change only when a flash operation completes. Fuses change only when a burn completes, or
when a supply warning ends one under way (R263). -/
def Obligations.FlashAndFusesChangeOnlyByTheirOperations : Prop :=
  ∀ (c : Instr) (s t : State), exec c s = .next t →
    ((∀ x d, c ≠ .qspiComplete x d) → t.flash = s.flash)
    ∧ (c ≠ .fuseBurnComplete → (∀ v n, c ≠ .vinWarning v n) → t.fuses = s.fuses)

/-! The host and the analysis cores. -/

/-- R227, R228, R248, R256, R259–R263: in SETUP the host starts a core that is stopped or faulted, whose scratchpad is not under
test and not failed: it runs from its entry with every register of R228 zero and its memories as they were. STOP_NOW begins the stop
of a core that runs or waits: queued outputs and transfers stay queued. A march on the idle cores of its mask marks them busy until
it completes, and skips the others. When it completes, each array with failing columns is repaired by free field spares, or stays
unrepaired and fails its core's scratchpad. A burn turns every soft assignment into a fuse; one ordered while a burn runs has no
effect, which is the model's choice (log entry 91). The host reads and writes the memories of an idle core; an access of a core
that is not idle, or of a scratchpad under test, is rejected and counted. A read corrects a single-bit error and counts it, and
returns the stored data of a word with an uncorrectable one. -/
def Obligations.HostAndCores : Prop :=
  ∀ s : State,
    let stored (k : Nat) : RegSet := fun o => o = ACR_CTRL.reg k ∨ o = HIF_RWL_IGNORED_COUNT.reg ∨ o = HIF_RWL_ADDR.reg
    let alone (t : State) (k : Nat) : Prop := ∀ j, j ≠ k → t.core j = s.core j
    (∀ (k : Fin 16) (w : Word), s.ctl.dev = .setup →
      ((ACR_CTRL.START_NOW k).get w = 1 → (ACR_CTRL.STOP_NOW k).get w = 0 →
        (s.core k).st = .stopped ∨ (s.core k).st = .faulted →
        s.flag (ACR_SPM_STATUS.MARCH_BUSY k) = false → s.flag (ACR_SPM_STATUS.SPM_FAIL k) = false →
        Completes (.startNow k w) s (fun t =>
          let c := t.core k
          c.st = .running ∧ c.stopping = none ∧ c.degFault = false
          ∧ c.pc = BitVec.ofNat 11 (s.fld (ACR_ENTRY.ENTRY k)) ∧ c.stack = []
          ∧ (∀ i : Fin 16, c.x[i] = 0) ∧ (∀ i : Fin 8, c.p[i] = 0 ∧ c.pb[i] = 0 ∧ c.pl[i] = 0) ∧ (∀ i : Fin 4, c.acc[i] = 0)
          ∧ c.shf = 0 ∧ c.flags = 0 ∧ c.compat = s.flag (ACR_SPM_CFG.COMPAT k)
          ∧ c.pmem = (s.core k).pmem ∧ c.spm = (s.core k).spm ∧ c.errs = (s.core k).errs ∧ c.factory = (s.core k).factory
          ∧ t.reg (ACR_FAULT.reg k) = 0 ∧ alone t k
          ∧ s.Frame t [.ctl, .cores]
            (fun o => stored k o ∨ o = ACR_FAULT.reg k ∨ o = ACR_SLOT_INFO.reg k ∨ o = ACR_STATUS.reg k)))
      ∧ ((ACR_CTRL.START_NOW k).get w = 0 → (ACR_CTRL.STOP_NOW k).get w = 1 →
        (s.core k).st = .running ∨ (s.core k).st = .waiting → (s.core k).stopping = none →
        Completes (.stopNow k w) s (fun t =>
          t.core k = { s.core k with
            stopping := some 2, wait := 0, ready := [], held := [], staging := [], lastStore := none }
          ∧ alone t k ∧ s.Frame t [.cores] (stored k))))
    ∧ (∀ w : Word, ACR_MARCH_CTRL.START.get w = 1 → s.ctl.dev ≠ .boot → s.flag ACR_MARCH_STATUS.BUSY = false →
        Completes (.marchStart w) s (fun t =>
          t.flag ACR_MARCH_STATUS.BUSY = true ∧ t.marchMode = decide (ACR_MARCH_CTRL.MODE.get w = 1)
          ∧ (∀ k : Fin 16, t.flag (ACR_SPM_STATUS.MARCH_BUSY k)
              = (s.flag (ACR_SPM_STATUS.MARCH_BUSY k) || (bitOf w.toNat k && (s.core k).idle)))
          ∧ (∀ k : Fin 16, bitOf (t.fld ACR_MARCH_STATUS.SKIPPED) k = (bitOf w.toNat k && !(s.core k).idle))
          ∧ s.Frame t [.marchMode] (fun o => o = ACR_MARCH_CTRL.reg ∨ o = ACR_MARCH_STATUS.reg ∨ ∃ k, o = ACR_SPM_STATUS.reg k)))
    ∧ (∀ reads, s.flag ACR_MARCH_STATUS.BUSY = true → Completes (.marchComplete reads) s (fun t =>
        t.flag ACR_MARCH_STATUS.BUSY = false ∧ s.Raised t 41
        ∧ (∀ k : Fin 16, s.flag (ACR_SPM_STATUS.MARCH_BUSY k) = true →
          let bad (a : Nat) : Bool := decide ((s.freeSpares k a).length < (failsOf reads k a).length)
          t.flag (ACR_SPM_STATUS.MARCH_BUSY k) = false
          ∧ t.core k = { s.core k with spm := (t.core k).spm, errs := if s.marchMode then (s.core k).errs else [] }
          ∧ (s.marchMode = false → (t.core k).spm = [])
          ∧ ((∀ a, a < 4 → failsOf reads k a = []) → s.marchMode = true → (t.core k).spm = (s.core k).spm)
          ∧ (∀ a : Fin 4, bitOf (t.fld (ACR_SPM_STATUS.UNREPAIRED k)) a = bad a)
          ∧ t.flag (ACR_SPM_STATUS.SPM_FAIL k) = (bad 0 || bad 1 || bad 2 || bad 3)
          ∧ t.flag (ACR_SPM_STATUS.LAST_PASS k) = !(bad 0 || bad 1 || bad 2 || bad 3)
          ∧ t.flag (ACR_SPM_STATUS.LAST_MODE k) = s.marchMode
          ∧ ∀ a : Fin 4, bad a = false → ∀ c ∈ failsOf reads k a,
              (t.fld (ACR_SPM_REPAIR.STATE0 k a) = 1 ∧ t.fld (ACR_SPM_REPAIR.COL0 k a) = c)
              ∨ (t.fld (ACR_SPM_REPAIR.STATE1 k a) = 1 ∧ t.fld (ACR_SPM_REPAIR.COL1 k a) = c))
        ∧ (∀ k : Fin 16, s.flag (ACR_SPM_STATUS.MARCH_BUSY k) = false →
          t.core k = s.core k ∧ t.reg (ACR_SPM_STATUS.reg k) = s.reg (ACR_SPM_STATUS.reg k))
        ∧ s.Frame t [.hif, .cores, .sent, .freeCtr] (fun o => o = ACR_MARCH_STATUS.reg ∨ (∃ k, o = ACR_SPM_STATUS.reg k)
          ∨ (∃ k a, o = ACR_SPM_REPAIR.reg k a) ∨ eventReg o)))
    ∧ (∀ w : Word,
        let ok : Prop := ACR_FUSE_CTRL.BURN.get w = 1 ∧ ACR_FUSE_CTRL.KEY.get w = 0xA7 ∧ s.ctl.dev = .setup ∧ s.burn = none
        (ok → Completes (.fuseBurn w) s (fun t =>
          t.burn = some (ACR_FUSE_CTRL.CORE.get w) ∧ t.reg ACR_FUSE_STATUS.reg = Word.of (2 ^ 31)
          ∧ s.Frame t [.burn] (fun o => o = ACR_FUSE_STATUS.reg)))
        ∧ (¬ ok → exec (.fuseBurn w) s = .next s))
    ∧ (∀ k : Fin 16, s.burn = some k.val → Completes .fuseBurnComplete s (fun t =>
        t.burn = none
        ∧ t.fuses = s.fuses ++ (s.softSpares k).map (fun p => ⟨k, p.1, p.2, s.spareCol k p.1 p.2⟩)
        ∧ t.flag ACR_FUSE_STATUS.BUSY = false ∧ t.flag ACR_FUSE_STATUS.FAIL = false
        ∧ t.fld ACR_FUSE_STATUS.COLUMNS = (s.softSpares k).length
        ∧ t.softSpares k = [] ∧ s.Raised t 41
        ∧ s.Frame t [.hif, .fuses, .burn, .sent] (fun o => o = ACR_FUSE_STATUS.reg ∨ o = ACR_SPM_STATUS.reg k
          ∨ (∃ a, o = ACR_SPM_REPAIR.reg k a) ∨ eventReg o)))
    ∧ ∀ (off : Nat) (k a : Nat) (spm : Bool) (ups : Upsets), coreWindow off = some (k, spm, a) →
        let c := (s.core k).upset ups
        let at_ := a / 4 * 4
        ((s.core k).idle = false ∨ (spm = true ∧ s.marchBusy k = true) →
          let rejected (t : State) (cs : List Comp) : Prop :=
            t.reg (ACR_HOST_REJECT_COUNT.reg k) = s.reg (ACR_HOST_REJECT_COUNT.reg k) + 1 ∧ t.core k = c ∧ alone t k
            ∧ s.Frame t cs (fun o => o = ACR_HOST_REJECT_COUNT.reg k)
          (∀ w, Completes (.hostMemAccess off (some w) ups) s (fun t => rejected t [.cores]))
          ∧ Completes (.hostMemAccess off none ups) s (fun t => t.rdData = 0 ∧ rejected t [.cores, .rdData]))
        ∧ ((s.core k).idle = true → spm = false →
          (∀ w, Completes (.hostMemAccess off (some w) ups) s (fun t =>
            (t.core k).insn (a / 4) = w ∧ (∀ i, i ≠ a / 4 → (t.core k).insn i = (s.core k).insn i)
            ∧ t.core k = { c with pmem := (t.core k).pmem } ∧ alone t k ∧ s.Frame t [.cores] noReg))
          ∧ Completes (.hostMemAccess off none ups) s (fun t =>
            t.rdData = (s.core k).insn (a / 4) ∧ t.core k = c ∧ alone t k ∧ s.Frame t [.cores, .rdData] noReg))
        ∧ ((s.core k).idle = true → spm = true → s.marchBusy k = false →
          (∀ w, Completes (.hostMemAccess off (some w) ups) s (fun t =>
            Memory.readLE 0 (t.core k).spm at_ 4 = w.toNat
            ∧ (∀ b, b < at_ ∨ at_ + 4 ≤ b → Memory.byte 0 (t.core k).spm b = Memory.byte 0 (s.core k).spm b)
            ∧ (t.core k).findings at_ 4 = []
            ∧ t.core k = { c with spm := (t.core k).spm, errs := (t.core k).errs } ∧ alone t k ∧ s.Frame t [.cores] noReg))
          ∧ let word := Word.of (Memory.readLE 0 (s.core k).spm at_ 4)
            let reads (Q : State → Prop) : Prop := Completes (.hostMemAccess off none ups) s (fun t =>
              t.core k = c ∧ alone t k ∧ s.Reacts t [.cores, .rdData] [.acr] ∧ Q t)
            (c.findings at_ 4 = [] → reads (fun t => t.rdData = word ∧ s.Frame t [.cores, .rdData] noReg))
            ∧ (c.findings at_ 4 = [(at_, false)] → reads (fun t =>
              t.rdData = word ∧ t.reg (ACR_SPM_CE_COUNT.reg k) = s.reg (ACR_SPM_CE_COUNT.reg k) + 1))
            ∧ (c.findings at_ 4 = [(at_, true)] → reads (fun t =>
              t.rdData = word ^^^ (SMap.get (fun _ => 0) c.errs (a / 4)).setWidth 32
              ∧ t.reg (ACR_SPM_UE_COUNT.reg k) = s.reg (ACR_SPM_UE_COUNT.reg k) + 1
              ∧ t.reg (ACR_SPM_ECC_ADDR.reg k) = Word.of (2 ^ 31 + 4 * 2 ^ 28 + at_) ∧ t.evPending 40 ∧ s.Reports t 0x15)))

/-- R244–R250, R252, R255, R256: the oldest staged frame takes the next free slot and is counted; the oldest output block leaves the
core, padded to a multiple of 8 (R317), and is lost where it was queued with the output disabled or holds an uncorrectable error;
the oldest transfer moves its bytes. Feed slots come before transfers, and these before output blocks. A core that waits for what
happened goes on from there (`State.wake`). Transfers left after a stop fail without moving data; a stop whose outputs and
transfers are done is complete. A watchdog that expires faults the core. A run of waiting cycles that reaches its limit, of a DMA
with work beside a core that executes, is counted and raises EV43; a run said of another core changes nothing. -/
def Obligations.CoreEvents : Prop :=
  ∀ (k : Fin 16) (s : State),
    let goesOn (t : State) (Q : State → Prop) : Prop := ∃ u : State, t = u.wake k ∧ Q u
    let alone (t : State) : Prop := ∀ j, j ≠ k.val → t.core j = s.core j
    (∀ f fs, (s.core k).staging = f :: fs → (s.core k).live = true →
      let used := s.fld (ACR_SLOT_INFO.SLOTS_USED k)
      let slot := (s.core k).nextSlot % used
      let data := f.take 36 ++ leBytes 4 (satNat 32 (s.core k).dropped) ++ f.drop 40
      (s.core k).ready.length + (s.core k).held.length < used →
      Completes (.feedSlotReady k) s (fun t => goesOn t (fun u =>
        u.core k = { (s.core k).clean (s.slotAddr k slot) data.length with
          spm := Memory.setBytes 0 (s.core k).spm (s.slotAddr k slot) data
          staging := fs, dropped := 0, ready := (s.core k).ready ++ [slot], nextSlot := (slot + 1) % used }
        ∧ u.reg (ACR_FEED_COUNT.reg k) = s.reg (ACR_FEED_COUNT.reg k) + 1
        ∧ alone u ∧ s.Frame u [.cores] (fun o => o = ACR_FEED_COUNT.reg k))))
    ∧ (∀ b bs, (s.core k).outQ = b :: bs → s.feedDue k = false → (s.core k).dmaQ = [] →
      let ring := 24 + s.fld (ACR_OUT_CFG.RING k)
      let after := { s.core k with outQ := bs, outSeq := ((s.core k).outSeq + 1) % 2 ^ 32 }
      let lost (u : State) : Prop := u.reg (ACR_OUT_LOST_COUNT.reg k) = s.reg (ACR_OUT_LOST_COUNT.reg k) + 1
        ∧ u.reg (HIF_RING_DISCARD_COUNT.reg ring) = s.reg (HIF_RING_DISCARD_COUNT.reg ring) + 1
        ∧ (u.ring ring).seq = (s.ring ring).seq + 1
      (b.en = false → (s.core k).findings b.addr b.len = [] → Completes (.coreOutBlock k []) s (fun t => goesOn t (fun u =>
        u.core k = after ∧ lost u ∧ alone u ∧ u.hif.out = s.hif.out
        ∧ s.Frame u [.cores, .hif, .sent] (fun o => o = ACR_OUT_LOST_COUNT.reg k ∨ o = HIF_RING_DISCARD_COUNT.reg ring))))
      ∧ (b.en = true → (s.core k).findings b.addr b.len = [] → s.hif.d3hot = false → s.flag CMP_CFG.EN = false →
        let data := Memory.bytes 0 (s.core k).spm b.addr b.len
        let padded := data ++ List.replicate ((8 - data.length % 8) % 8) 0
        let blk : Block := { ring := ring, kind := 0x0F, core := some k.val, payload := padded, stream := padded
                             hdr := coreOutHeader k (s.core k).outSeq b.time }
        s.outBytes + blk.size ≤ outCapacity → Completes (.coreOutBlock k []) s (fun t => goesOn t (fun u =>
          u.core k = after ∧ u.hif.out = s.hif.out ++ [blk] ∧ alone u ∧ s.Frame u [.cores, .hif] noReg)))
      ∧ ∀ ups, (∃ a, (a, true) ∈ ((s.core k).upset ups).findings b.addr b.len) →
          Completes (.coreOutBlock k ups) s (fun t => goesOn t (fun u =>
            u.core k = { after with errs := ((s.core k).upset ups).errs }
            ∧ u.reg (ACR_OUT_LOST_COUNT.reg k) = s.reg (ACR_OUT_LOST_COUNT.reg k) + 1
            ∧ alone u ∧ s.Reacts u [.cores] [.acr])))
    ∧ (∀ x xs, (s.core k).dmaQ = x :: xs → s.dramServes = true → s.feedDue k = false →
      let base := s.fld (ACR_DRAM.BASE_MIB k) * 2 ^ 20 + x.dram
      (x.write = true → (s.core k).findings x.spm x.len = [] →
        Completes (.coreDmaComplete k [] [] false) s (fun t => goesOn t (fun u =>
          u.core k = { s.core k with dmaQ := xs }
          ∧ u.dram = Memory.setBytes 0 s.dram base (Memory.bytes 0 (s.core k).spm x.spm x.len)
          ∧ alone u ∧ s.Frame u [.cores, .dram, .dmc] noReg)))
      ∧ (x.write = true → ∀ ups, (∃ a, (a, true) ∈ ((s.core k).upset ups).findings x.spm x.len) →
        Completes (.coreDmaComplete k ups [] false) s (fun t => goesOn t (fun u =>
          u.core k = { (s.core k).upset ups with dmaQ := xs, flags := (s.core k).flags ||| 0x20 }
          ∧ u.dram = s.dram ∧ alone u ∧ s.Reacts u [.cores] [.acr])))
      ∧ (x.write = false → s.dmc.findings base x.len = [] →
        Completes (.coreDmaComplete k [] [] false) s (fun t => goesOn t (fun u =>
          u.core k = { (s.core k).clean x.spm x.len with
            dmaQ := xs, spm := Memory.setBytes 0 (s.core k).spm x.spm (Memory.bytes 0 s.dram base x.len) }
          ∧ alone u ∧ s.Frame u [.cores] noReg)))
      ∧ (x.write = false → ∀ dups, (∃ e ∈ (s.dramUpset dups).dmc.findings base x.len, 1 < weight e.2) →
        Completes (.coreDmaComplete k [] dups false) s (fun t =>
          t.fld DMC_STATUS.STATE = dmcFrozen ∧ t.dram = s.dram ∧ t.ctl.dramFailed = true ∧ s.Reports t 0x13)))
    ∧ ((s.core k).stopping.isSome = true → (s.core k).dmaQ ≠ [] → Completes (.coreDmaAbandon k) s (fun t =>
        t.core k = { (s.core k).raise flagDfail with dmaQ := [] } ∧ t.dram = s.dram ∧ alone t ∧ s.Frame t [.cores] noReg))
    ∧ (∀ cause, (s.core k).stopping = some cause → (s.core k).outQ = [] → (s.core k).dmaQ = [] →
        Completes (.coreStopComplete k) s (fun t =>
          t.core k = { s.core k with st := if cause = 5 then .faulted else .stopped, stopCause := cause, stopping := none }
          ∧ alone t ∧ s.Frame t [.cores] noReg))
    ∧ ((s.core k).live = true → (s.core k).wait ≠ 1 → s.fld (ACR_WDOG.WDOG_US k) ≠ 0 →
        Completes (.coreWatchdog k) s (fun t => s.CoreFaults t k 7 ((s.core k).insn (s.core k).pc.toNat)))
    ∧ (∀ run, (s.core k).executes = true → s.dmaWork k = true → Completes (.acDmaStarve k run) s (fun t =>
        let lim := s.fld (ACR_SPM_CFG.STARVE_LIMIT k)
        (t.reg (ACR_STARVE_MAX.reg k)).toNat = max (s.reg (ACR_STARVE_MAX.reg k)).toNat (min run (2 ^ 32 - 1))
        ∧ (lim ≠ 0 → lim ≤ run → t.reg (ACR_STARVE_COUNT.reg k) = s.reg (ACR_STARVE_COUNT.reg k) + 1 ∧ s.Raised t 43)
        ∧ (lim = 0 ∨ run < lim → s.Frame t [] (fun o => o = ACR_STARVE_MAX.reg k))
        ∧ s.Frame t [.hif, .sent] (fun o => o = ACR_STARVE_MAX.reg k ∨ o = ACR_STARVE_COUNT.reg k ∨ eventReg o)))
    ∧ ∀ run, (s.core k).executes = false ∨ s.dmaWork k = false → exec (.acDmaStarve k run) s = .next s

/-! The commands of ring 0. -/

/-- R288, R290, R294, R295, R300, R301, R306, R309: a command is what the descriptor at the head of ring 0 spells, with the parameter
block it names. A round command that passes the checks is accepted while the device runs: its descriptor is written back at its
address as PENDING with its round, OWN last, and it is in progress until that round. A commit is checked against the running
schedule as well: where it passes, its shadow is pending and it supersedes a commit in progress; where it fails it completes
with COMMIT_FAIL. -/
def Obligations.RoundCommandsAreAccepted : Prop :=
  ∀ (s : State) (d : Desc) (ds : List Desc) (params : List Word) (ok : Bool) (round : Nat),
    let h := d.cmd params ok
    s.fetches = true → (s.ring 0).posted = d :: ds → d.own = true → s.cmdTarget h = .inl round → s.ctl.stopPending = false →
    let i := s.fld (HIF_RING_INDEX.HEAD 0)
    let at_ := s.fld (HIF_RING_BASE_LO.ADDR_LO 0) * 64 + s.fld (HIF_RING_BASE_HI.ADDR_HI 0) * 2 ^ 32 + 32 * (i % s.ringSize 0)
    let taken (t : State) (words : List Word) (last : Nat) : Prop :=
      (t.ring 0).posted = ds ∧ t.fld (HIF_RING_INDEX.HEAD 0) = (i + 1) % 2 ^ 16 ∧ t.fld HIF_CMD_STATUS.LAST_INDEX = i
      ∧ ∃ before after, t.sent = before ++ .hostWrite (at_ + 16) (words.flatMap (fun w => leBytes 4 w.toNat))
          :: .hostWrite (at_ + 28) (leBytes 4 last) :: after
    let pending (op : Nat) : PendCmd := { opcode := op, hdr := h, index := i, round := round }
    (∀ p ∈ [(opNop, Instr.nop h), (opStop, .stopCommand h), (opZoneSet, .zoneSet h), (opPeSet, .peSet h),
        (opPortRestore, .portRestore h), (opLfRebase, .lfRebase h), (opFltSet, .fltSet h), (opBrlSet, .brlSet h),
        (opRefLoad, .refLoad h), (opRefLearn, .refLearn h), (opBltSet, .bltSet h), (opTrim, .trim h), (opTrgSet, .trgSet h),
        (opTrgArm, .trgArm h), (opTrgDisarm, .trgDisarm h), (opDoutSet, .doutSet h), (opDoutClear, .doutClear h),
        (opAcStart, .acStart h), (opAcStop, .acStop h), (opAcConfig, .acConfig h), (opDmcSet, .dmcSet h), (opAuxSet, .auxSet h),
        (opCmpSet, .cmpSet h), (opCalRun, .calRun h), (opCalPin, .calPin h), (opCalRestore, .calRestore h),
        (opPairSet, .pairSet h), (opFailback, .failback h)],
      d.opcode = p.1 → s.formatCheck p.1 h = none → Completes p.2 s (fun t =>
        t.hif.cmds = s.hif.cmds ++ [pending p.1] ∧ taken t [Word.of round, Word.of (round / 2 ^ 32), 1] 0
        ∧ s.Frame t [.hif, .sent] (fun o => o = HIF_RING_INDEX.reg 0 ∨ o = HIF_CMD_STATUS.reg)))
    ∧ (d.opcode = opLchCommit → s.formatCheck opLchCommit h = none →
      let r := s.checkCommit (some s.sch) s.sched.shadow
      (r.reason = 0 → Completes (.lchCommit h) s (fun t =>
        t.hif.cmds = s.hif.cmds.filter (fun c => !(c.opcode == opLchCommit)) ++ [pending opLchCommit]
        ∧ t.sched = { s.sched with pendingCfg := some s.sched.shadow }
        ∧ t.reg LCH_PENDING.reg = Word.of (2 ^ 31 + round % 2 ^ 16) ∧ t.reg LCH_COMMIT_STATUS.reg = Word.of r.word
        ∧ s.Raised t 14
        ∧ taken t [Word.of round, Word.of (round / 2 ^ 32), 1] 0
        ∧ s.Frame t [.hif, .sched, .sent] (regsIn [.hif, .lch, .dmc])))
      ∧ (r.reason ≠ 0 → Completes (.lchCommit h) s (fun t =>
        t.hif.cmds = s.hif.cmds ∧ t.sched = s.sched ∧ t.reg LCH_COMMIT_STATUS.reg = Word.of r.word
        ∧ t.reg HIF_CMD_ERR_COUNT.reg = s.reg HIF_CMD_ERR_COUNT.reg + 1 ∧ t.evPending 14 ∧ t.evPending 46
        ∧ taken t [0, 0, Word.of (7 + r.reason % 256 * 256 + (if r.transition then 1 else 0) * 65536)] (2 ^ 30)
        ∧ s.Frame t [.hif, .sent] (regsIn [.hif, .lch, .dmc]))))

/-- R90, R295, R300, R305, R309, R401: a command that acts when it is processed has its effect, and its descriptor is written back
with its result: CANCEL completes the oldest command in progress with its tag, EVR_MARK writes a host mark, LCH_WRITE edits
the shadow configuration, LCH_SHADOW_RESET makes it the running one. A command that fails a check, or whose opcode no rule
lists, has no effect: its result says why, it is counted, and EV46 is raised. A row that is not the command the descriptor at the
head spells changes nothing. -/
def Obligations.CommandsActOrAreRejected : Prop :=
  ∀ (s : State) (d : Desc) (ds : List Desc) (params : List Word) (ok : Bool),
    let h := d.cmd params ok
    s.fetches = true → (s.ring 0).posted = d :: ds → d.own = true →
    let i := s.fld (HIF_RING_INDEX.HEAD 0)
    let at_ := s.fld (HIF_RING_BASE_LO.ADDR_LO 0) * 64 + s.fld (HIF_RING_BASE_HI.ADDR_HI 0) * 2 ^ 32 + 32 * (i % s.ringSize 0)
    let done (t : State) (res : Nat) : Prop :=
      (t.ring 0).posted = ds ∧ t.fld (HIF_RING_INDEX.HEAD 0) = (i + 1) % 2 ^ 16 ∧ t.fld HIF_CMD_STATUS.LAST_INDEX = i
      ∧ ∃ after, t.sent = s.sent ++ .hostWrite (at_ + 16) (zeroBytes 8 ++ leBytes 4 res)
          :: .hostWrite (at_ + 28) (leBytes 4 (2 ^ 30)) :: after
    let rows (x : CmdHdr) : List (Nat × Instr) :=
      [(opNop, Instr.nop x), (opCancel, .cancel x), (opEvrMark, .evrMark x), (opStop, .stopCommand x), (opLchWrite, .lchWrite x),
      (opLchCommit, .lchCommit x), (opLchShadowReset, .lchShadowReset x), (opZoneSet, .zoneSet x), (opPeSet, .peSet x),
      (opPortRestore, .portRestore x), (opLfRebase, .lfRebase x), (opFltSet, .fltSet x), (opBrlSet, .brlSet x),
      (opRefLoad, .refLoad x), (opRefLearn, .refLearn x), (opBltSet, .bltSet x), (opTrim, .trim x), (opTrgSet, .trgSet x),
      (opTrgArm, .trgArm x), (opTrgDisarm, .trgDisarm x), (opDoutSet, .doutSet x), (opDoutClear, .doutClear x),
      (opAcStart, .acStart x), (opAcStop, .acStop x), (opAcConfig, .acConfig x), (opDmcSet, .dmcSet x), (opAuxSet, .auxSet x),
      (opCmpSet, .cmpSet x), (opCalRun, .calRun x), (opCalPin, .calPin x), (opCalRestore, .calRestore x),
      (opPairSet, .pairSet x), (opFailback, .failback x)]
    let ringRegs : RegSet := fun o => o = HIF_RING_INDEX.reg 0 ∨ o = HIF_CMD_STATUS.reg
    (d.opcode = opCancel → s.formatCheck opCancel h = none →
      (∀ c cs, takeTag (h.inl % 2 ^ 16) s.hif.cmds = some (c, cs) → Completes (.cancel h) s (fun t =>
        t.hif.cmds = cs ∧ (c.opcode = opLchCommit → t.sched.pendingCfg = none ∧ t.reg LCH_PENDING.reg = 0)
        ∧ (c.opcode ≠ opLchCommit → t.sched = s.sched) ∧ done t 0
        ∧ s.Frame t [.hif, .sched, .sent] (fun o => ringRegs o ∨ o = LCH_PENDING.reg)))
      ∧ (takeTag (h.inl % 2 ^ 16) s.hif.cmds = none → Completes (.cancel h) s (fun t =>
        t.hif.cmds = s.hif.cmds ∧ done t 0x0F ∧ s.Frame t [.hif, .sent] ringRegs)))
    ∧ (d.opcode = opEvrMark → s.formatCheck opEvrMark h = none → Completes (.evrMark h) s (fun t =>
        (s.recEnabled 8 = true → s.evr.queue.length < 16 →
          t.recordsLast 8 h.inl ∧ t.evr.queue.length = s.evr.queue.length + 1)
        ∧ (s.recEnabled 8 = false → t.evr = s.evr)
        ∧ done t (if s.recEnabled 8 then 0 else 256)
        ∧ s.Frame t [.hif, .evr, .sent] (fun o => ringRegs o ∨ o = EVR_LOST_COUNT.reg)))
    ∧ (d.opcode = opLchWrite → s.formatCheck opLchWrite h = none → Completes (.lchWrite h) s (fun t =>
        t.sched = { s.sched with shadow := editShadow s.sched.shadow h.edits } ∧ done t 0 ∧ s.Frame t [.hif, .sched, .sent] ringRegs))
    ∧ (d.opcode = opLchShadowReset → s.formatCheck opLchShadowReset h = none → Completes (.lchShadowReset h) s (fun t =>
        t.sched = { s.sched with shadow := s.sch } ∧ done t 0 ∧ s.Frame t [.hif, .sched, .sent] ringRegs))
    ∧ (∀ op : BitVec 8, d.opcode = op.toNat → opAll.contains op.toNat = false → Completes (.badOpcodeCommand op h) s (fun t =>
        t.hif.cmds = s.hif.cmds ∧ done t 3 ∧ s.Raised t 46
        ∧ t.reg HIF_CMD_ERR_COUNT.reg = s.reg HIF_CMD_ERR_COUNT.reg + 1
        ∧ s.Frame t [.hif, .sent] (fun o => ringRegs o ∨ o = HIF_CMD_ERR_COUNT.reg ∨ eventReg o)))
    ∧ (∀ x, ∀ p ∈ rows x, d.spells p.1 x = false → exec p.2 s = .next s)
    ∧ ∀ p ∈ rows h,
      let rejected (r : CmdRes) : Prop := Completes p.2 s (fun t =>
        t.hif.cmds = s.hif.cmds ∧ done t r.word ∧ s.Raised t 46
        ∧ t.reg HIF_CMD_ERR_COUNT.reg = s.reg HIF_CMD_ERR_COUNT.reg + 1
        ∧ s.Frame t [.hif, .sent] (fun o => ringRegs o ∨ o = HIF_CMD_ERR_COUNT.reg ∨ eventReg o))
      d.opcode = p.1 → (∀ r, s.formatCheck p.1 h = some r → rejected r)
        ∧ (s.formatCheck p.1 h = none → opImmediate.contains p.1 = false → ∀ r, s.cmdTarget h = .inr r → rejected r)
        ∧ (s.formatCheck p.1 h = none → opImmediate.contains p.1 = false → ∀ round, s.cmdTarget h = .inl round →
          s.ctl.stopPending = true → rejected { code := 9 })

/-! Time, timing inputs and belts. -/

/-- R183–R187: a trim target within its range is taken in SETUP, and the trim in force moves towards its target one step at a time.
A PPS edge is recorded; with the discipline enabled the third good edge in a row enters TRACK, where the phase correction is at most
1 ppm of the target, and a bad edge, or none in time, leaves TRACK for HOLDOVER with LOST_SEEN and EV59. -/
def Obligations.TimeBase : Prop :=
  ∀ s : State,
    (∀ w : Word, s.supply.inReset = false →
      (s.isSetup = true → trimInRange w = true → Completes (.trimWrite w) s (fun t =>
        t.fld TMB_TRIM.TRIM = TMB_TRIM.TRIM.get w
        ∧ (s.fld TMB_PPS_STATUS.STATE = 0 →
          t.tmb.target = clampInt (-8000000) 8000000 (s.factoryTrim + ofBits 24 (TMB_TRIM.TRIM.get w)))
        ∧ (s.fld TMB_PPS_STATUS.STATE ≠ 0 → t.tmb = s.tmb)
        ∧ s.Frame t [.tmb] (fun o => o = TMB_TRIM.reg)))
      ∧ (s.isSetup = true → trimInRange w = false → exec (.trimWrite w) s = .next s)
      ∧ (s.isSetup = false → TMB_TRIM.TRIM.get w ≠ s.fld TMB_TRIM.TRIM → Completes (.trimWrite w) s (fun t =>
        t.reg HIF_RWL_IGNORED_COUNT.reg = s.reg HIF_RWL_IGNORED_COUNT.reg + 1
        ∧ t.reg HIF_RWL_ADDR.reg = Word.of TMB_TRIM.reg
        ∧ s.Frame t [] (fun o => o = HIF_RWL_IGNORED_COUNT.reg ∨ o = HIF_RWL_ADDR.reg))))
    ∧ (-8000000 ≤ s.tmb.target → s.tmb.target ≤ 8000000 → Completes .trimStep s (fun t =>
        let u := s.fldInt TMB_TRIM_USED.USED
        t.fldInt TMB_TRIM_USED.USED = (if u < s.tmb.target then u + 1 else if s.tmb.target < u then u - 1 else u)
        ∧ s.Frame t [] (fun o => o = TMB_TRIM_USED.reg)))
    ∧ (∀ pip : Fin 256,
        let stamp := s.time * 256 + pip.val
        let good : Prop := ∃ l, s.tmb.last = some l ∧ ((stamp : Int) - l - (400000000 * 256 : Nat)).natAbs ≤ 4000 * 256
        let seen (t : State) : Prop := t.reg64 TMB_PPS_LAST_LO.reg = s.time % 2 ^ 64 ∧ t.fld TMB_PPS_LAST_PIP.PIP = pip.val
        let last : RegSet := fun o => pairAt TMB_PPS_LAST_LO.reg o ∨ o = TMB_PPS_LAST_PIP.reg
        (s.flag TMB_PPS_CFG.EN = false → Completes (.ppsEdge pip) s (fun t => seen t ∧ s.Frame t [] last))
        ∧ (s.flag TMB_PPS_CFG.EN = true → s.fld TMB_PPS_STATUS.STATE ≠ 2 →
          (¬ (good ∧ 2 ≤ s.tmb.good) → (¬ good ∨ s.tmb.good < 2) → Completes (.ppsEdge pip) s (fun t =>
            seen t ∧ t.tmb = { s.tmb with last := some stamp, good := t.tmb.good }
            ∧ (good → t.tmb.good = s.tmb.good + 1) ∧ (¬ good → t.tmb.good = 0) ∧ s.Frame t [.tmb] last))
          ∧ (good → 2 ≤ s.tmb.good → Completes (.ppsEdge pip) s (fun t =>
            seen t ∧ t.fld TMB_PPS_STATUS.STATE = 2 ∧ t.tmb.last = some stamp ∧ t.tmb.hist = []
            ∧ (s.isRunning = true → s.flag LCH_ROUND_CFG.PPS_ALIGN = true →
              t.reg64 TMB_GRID_LO.reg = s.reg64 TMB_GRID_LO.reg)
            ∧ (s.isRunning = false ∨ s.flag LCH_ROUND_CFG.PPS_ALIGN = false →
              t.reg64 TMB_GRID_LO.reg = (stamp + 128) / 256 % 2 ^ 64
              ∧ t.reg TMB_GRID_MOVE_COUNT.reg = s.reg TMB_GRID_MOVE_COUNT.reg + 1)
            ∧ s.Frame t [.tmb] (fun o => last o ∨ o = TMB_PPS_STATUS.reg ∨ pairAt TMB_GRID_LO.reg o ∨ o = TMB_GRID_MOVE_COUNT.reg))))
        ∧ (s.flag TMB_PPS_CFG.EN = true → s.fld TMB_PPS_STATUS.STATE = 2 →
          (good ∨ s.tmb.last = none → Completes (.ppsEdge pip) s (fun t =>
            seen t ∧ t.fld TMB_PPS_STATUS.STATE = 2 ∧ t.tmb.last = some stamp
            ∧ t.fldInt TMB_PPS_STATUS.PHASE_ERR = satInt 24 (roundDiv (s.phaseErr stamp * 5) 512)
            ∧ -8000000 ≤ t.tmb.target ∧ t.tmb.target ≤ 8000000 ∧ (t.tmb.target - t.tmb.freq).natAbs ≤ 100000
            ∧ t.tmb.hist = (t.tmb.target :: s.tmb.hist).take 16
            ∧ s.Frame t [.tmb, .freeCtr] (fun o => last o ∨ o = TMB_PPS_STATUS.reg)))
          ∧ (¬ good → s.tmb.last ≠ none → Completes (.ppsEdge pip) s (fun t =>
            seen t ∧ t.fld TMB_PPS_STATUS.STATE = 3 ∧ t.flag TMB_PPS_STATUS.LOCKED = false
            ∧ t.flag TMB_PPS_STATUS.LOST_SEEN = true ∧ s.Raised t 59 ∧ t.tmb.good = 0
            ∧ s.Frame t [.hif, .tmb, .sent] (fun o => last o ∨ o = TMB_PPS_STATUS.reg ∨ eventReg o)))))
    ∧ (s.fld TMB_PPS_STATUS.STATE = 2 → Completes .ppsTimeout s (fun t =>
        t.fld TMB_PPS_STATUS.STATE = 3 ∧ t.flag TMB_PPS_STATUS.LOCKED = false ∧ t.flag TMB_PPS_STATUS.LOST_SEEN = true
        ∧ s.Raised t 59 ∧ s.Frame t [.hif, .tmb, .sent] (fun o => o = TMB_PPS_STATUS.reg ∨ eventReg o)))
    ∧ (s.fld TMB_PPS_STATUS.STATE ≠ 2 → exec .ppsTimeout s = .next s)

/-- R176–R182, R190, R200: an edge of an enabled input's slope is counted, and every PRESCALE + 1 edges one is stamped. A gate that
closes gives its result, valid from the fewest stamps on, and a free-running gate opens again. The GATE pin opens and closes the
gates that follow it. An unpaired stamp that waited too long is dropped and counted; a stop that waits out the one pip in which a
nearer start may come pairs first. A speed that is no longer valid reads 0. A closed map period is scored, and its maps are
zeroed. -/
def Obligations.TimingInputs : Prop :=
  ∀ s : State,
    let reacts (t : State) : Prop := s.Reacts t [.blt, .douts, .freeCtr] [.acr, .blt, .cmp, .trg]
    (∀ (i : Fin 8) (rising : Bool) (pip : Fin 256) (short : Option Bool) (differs : BitVec 16),
      (s.flag (BLT_TIN_CFG.EN i) = false → Completes (.tinEdge i rising pip short differs) s (fun t =>
        t.tin i = { s.tin i with level := rising } ∧ (∀ j : Fin 8, j ≠ i → t.tin j = s.tin j) ∧ s.Frame t [.blt] noReg))
      ∧ (s.flag (BLT_TIN_CFG.EN i) = true →
        let counts : Prop := s.slopeCounts i rising = true ∧ short ≠ some false
        let stamped : Prop := s.prescale i ≤ (s.tin i).phase + 1
        Completes (.tinEdge i rising pip short differs) s (fun t =>
          (t.tin i).level = rising
          ∧ (¬ counts → t.tin i = { s.tin i with level := rising }
            ∧ t.reg64 (BLT_TIN_COUNT_LO.reg i) = s.reg64 (BLT_TIN_COUNT_LO.reg i))
          ∧ (counts → t.reg64 (BLT_TIN_COUNT_LO.reg i) = (s.reg64 (BLT_TIN_COUNT_LO.reg i) + 1) % 2 ^ 64)
          ∧ (counts → ¬ stamped → t.tin i = { s.tin i with level := rising, phase := (s.tin i).phase + 1 })
          ∧ (counts → stamped → (t.tin i).phase = 0 ∧ (t.tin i).index = (s.tin i).index + 1
            ∧ (t.tin i).last = some (s.time * 256 + pip.val) ∧ (t.tin i).gate = (s.tin i).gate)
          ∧ (short.isSome = true → t.flag (BLT_TIN_STATUS.OVR_PULSE i) = true)
          ∧ (∀ j : Fin 8, j ≠ i → t.tin j = s.tin j) ∧ reacts t)))
    ∧ (∀ (i : Fin 8) (differs : BitVec 16) (since : Nat), (s.tin i).gate = some since →
        let fit := fitStamps (s.tin i).stamps
        let valid := decide (s.minStamps i ≤ fit.n)
        Completes (.tinGateClose i differs) s (fun t =>
          t.flag (BLT_TIN_STATUS.VALID i) = valid
          ∧ t.reg64 (BLT_TIN_FREQ_LO.reg i) = (if valid then rateTimes 1000000 (fit.rate (s.prescale i)) else 0) % 2 ^ 64
          ∧ (t.tin i).gate = (if s.fld (BLT_TIN_GATE.MODE i) = 0 then some s.time else none) ∧ (t.tin i).stamps = []
          ∧ (t.tin i).rate = (if valid then some (fit.rate (s.prescale i)) else (s.tin i).rate)
          ∧ (t.tin i).result = (if valid then some s.time else none)
          ∧ (∀ j : Fin 8, j ≠ i → t.tin j = s.tin j) ∧ reacts t))
    ∧ (∀ (high : Bool) (differs : BitVec 16), Completes (.gatePinEdge high differs) s (fun t =>
        let follows (i : Fin 8) : Prop := s.flag (BLT_TIN_CFG.EN i) = true ∧ s.fld (BLT_TIN_GATE.MODE i) = 2
        (∀ i : Fin 8, ¬ follows i → t.tin i = s.tin i)
        ∧ (high ≠ s.flag BLT_GATE_CFG.POL → ∀ i : Fin 8, follows i →
          (t.tin i).gate = some (match (s.tin i).gate with | some g => g | none => s.time))
        ∧ (high = s.flag BLT_GATE_CFG.POL → ∀ i : Fin 8, follows i → (t.tin i).gate = none)
        ∧ reacts t))
    ∧ (∀ (p : Fin 4) (e : Nat) (es : List Nat),
        ((s.pair p).stops = e :: es → Completes (.pairHoldExpiry p) s (fun t =>
          t.pair p = { s.pair p with stops := es } ∧ (∀ q : Fin 4, q ≠ p → t.pair q = s.pair q)
          ∧ t.reg (BLT_PAIR_DROP_COUNT.reg p) = s.reg (BLT_PAIR_DROP_COUNT.reg p) + 1
          ∧ s.Frame t [.blt] (fun o => o = BLT_PAIR_DROP_COUNT.reg p)))
        ∧ ((s.pair p).wait = none → (s.pair p).starts = e :: es → Completes (.pairOrphan p) s (fun t =>
          t.pair p = { s.pair p with starts := es } ∧ (∀ q : Fin 4, q ≠ p → t.pair q = s.pair q)
          ∧ t.reg (BLT_PAIR_ORPHAN_COUNT.reg p) = s.reg (BLT_PAIR_ORPHAN_COUNT.reg p) + 1
          ∧ s.Frame t [.blt] (fun o => o = BLT_PAIR_ORPHAN_COUNT.reg p)))
        ∧ (∀ a b d, (s.pair p).wait = some (a, b, d) → removeFirst a (s.pair p).starts = e :: es → Completes (.pairOrphan p) s (fun t =>
          t.pair p = { s.pair p with starts := es, wait := none } ∧ (∀ q : Fin 4, q ≠ p → t.pair q = s.pair q)
          ∧ t.reg (BLT_PAIR_PAIRED_COUNT.reg p) = s.reg (BLT_PAIR_PAIRED_COUNT.reg p) + 1
          ∧ t.reg64 (BLT_PAIR_LAST_LO.reg p) = toBits 64 ((b : Int) - a)
          ∧ t.reg (BLT_PAIR_ORPHAN_COUNT.reg p) = s.reg (BLT_PAIR_ORPHAN_COUNT.reg p) + 1 ∧ reacts t)))
    ∧ Completes .pairBlockTimeout s (fun t =>
        t.blt = { s.blt with block := [] } ∧ (s.blt.block = [] → t = s)
        ∧ s.Frame t [.hif, .blt, .sent] (regsIn [.acr, .cmp, .hif, .trg]))
    ∧ (∀ k : Fin 8, Completes (.speedValidExpiry k) s (fun t =>
        t.reg (BLT_BELT_SPEED.reg k) = 0 ∧ t.flag (BLT_BELT_STATUS.SPEED_VALID k) = false
        ∧ t.sched = { s.sched with pred := t.sched.pred }
        ∧ (s.flag LCH_ROUND_CFG.MODE = false → t.sched = s.sched)
        ∧ s.Frame t [.sched] (fun o => o = BLT_BELT_SPEED.reg k ∨ o = BLT_BELT_STATUS.reg k)))
    ∧ ∀ (k : Fin 8) (c : MapClose) (cs : List MapClose), (s.belt k).closing = c :: cs → Completes (.beltMapScoreDone k) s (fun t =>
        t.belt k = { s.belt k with closing := cs } ∧ (∀ j : Fin 8, j ≠ k → t.belt j = s.belt j)
        ∧ (s.flag BLT_STATUS.FAILED = true → s.Frame t [.blt] noReg)
        ∧ (s.flag BLT_STATUS.FAILED = false →
          t.reg (BLT_BELT_MAP_COUNT.reg k) = s.reg (BLT_BELT_MAP_COUNT.reg k) + 1
          ∧ ∀ a, Memory.byte 0 t.dram a =
            if (s.mapBase k false c.mapB ≤ a ∧ a < s.mapBase k false c.mapB + 2 ^ 20)
              ∨ (s.mapBase k true c.mapB ≤ a ∧ a < s.mapBase k true c.mapB + 2 ^ 20) then 0 else Memory.byte 0 s.dram a)
        ∧ s.Frame t [.hif, .blt, .dram, .dmc, .sent] (regsIn [.acr, .blt, .cmp, .hif, .trg]))

/-! The auxiliary sequencer, the housekeeping converter, blanking and calibration. -/

/-- R338–R353: a pass that may start is numbered and takes its settings, in ROUND mode only in rounds that are multiples of PASS_ROUNDS;
one that may not is missed and counted. A conversion stores its entry's value, lead and status, and the sequence goes on or ends;
in a pause only one already under way completes. The housekeeping converter stores the channel it
is at and goes to the next. The settled bit of a reference follows it. A blanking input that changes is shown, and a pause it
begins is counted. -/
def Obligations.AuxiliaryChannels : Prop :=
  ∀ s : State,
    (s.isRunning = true → s.flag AUX_SEQ_CFG.EN = true →
      (s.fld AUX_SEQ_CFG.MODE = 2 → s.ctl.round % max 1 (s.fld AUX_SEQ_PERIOD.PASS_ROUNDS) = 0) →
      (s.flag AUX_STATUS.BUSY = false → s.auxPaused = false → Completes .auxPassStart s (fun t =>
        t.reg AUX_PASS_NUM.reg = s.reg AUX_PASS_NUM.reg + 1 ∧ t.flag AUX_STATUS.BUSY = true ∧ t.fld AUX_STATUS.ENTRY = 0
        ∧ t.aux.cfg = s.auxCfg ∧ t.aux.start = s.time ∧ t.aux.prev = s.aux.start ∧ t.aux.samples = []
        ∧ t.aux.entryAt = s.time ∧ t.aux.refLog = [] ∧ (∀ r : Fin 3, bitOf t.aux.refBase r = s.flag (refBit r))
        ∧ s.Frame t [.aux] (fun o => o = AUX_PASS_NUM.reg ∨ o = AUX_STATUS.reg)))
      ∧ (s.flag AUX_STATUS.BUSY = true ∨ s.auxPaused = true → Completes .auxPassStart s (fun t =>
        t.reg AUX_PASS_OVERRUN_COUNT.reg = s.reg AUX_PASS_OVERRUN_COUNT.reg + 1
        ∧ s.Frame t [] (fun o => o = AUX_PASS_OVERRUN_COUNT.reg))))
    ∧ (s.fld AUX_SEQ_CFG.MODE = 2 → s.ctl.round % max 1 (s.fld AUX_SEQ_PERIOD.PASS_ROUNDS) ≠ 0 → exec .auxPassStart s = .next s)
    ∧ (∀ (m : AuxMeas) (differs : BitVec 16), s.flag AUX_STATUS.BUSY = true →
        let c : Cfg := s.aux.cfg
        let e := s.fld AUX_STATUS.ENTRY
        let starts := s.auxStarts c e m
        (s.auxPaused = true → (∃ a ∈ starts, s.aux.pauseAt ≤ a) → exec (.auxConversionComplete m differs) s = .next s)
        ∧ ((s.auxPaused = true → ∀ a ∈ starts, a < s.aux.pauseAt) →
        let r := s.auxResult c e m
        Completes (.auxConversionComplete m differs) s (fun t =>
          t.reg (AUX_ENT_VALUE.reg e) = Word.of r.value ∧ t.reg (AUX_ENT_LEAD.reg e) = Word.of r.lead
          ∧ (t.reg (AUX_ENT_STATUS.reg e)).getLsbD 31
              = starts.any (fun a => !s.refOkAt (Cfg.fld c (AUX_ENT_SEL.REF e)) a)
          ∧ (t.reg (AUX_ENT_STATUS.reg e)).getLsbD 30 = (r.fault != 0)
          ∧ (t.reg (AUX_ENT_STATUS.reg e)).getLsbD 28 = r.overrange
          ∧ (r.fault ≠ 0 → t.reg AUX_EXC_FAULT_COUNT.reg = s.reg AUX_EXC_FAULT_COUNT.reg + 1 ∧ t.evPending 61)
          ∧ (Cfg.fld c AUX_SEQ_CFG.LAST ≤ e → t.flag AUX_STATUS.BUSY = false ∧ t.fld AUX_STATUS.ENTRY = 0
            ∧ (Cfg.flag c AUX_SEQ_CFG.DONE_EV = true → t.evPending 60))
          ∧ (e < Cfg.fld c AUX_SEQ_CFG.LAST → t.fld AUX_STATUS.ENTRY = e + 1)
          ∧ s.Reacts t [.douts] [.acr, .cmp, .trg])))
    ∧ (∀ (value : BitVec 32) (late : Bool), s.supply.inReset = false →
        let c := hkChannel s.aux.hkPos
        Completes (.hkConversion value late) s (fun t =>
          t.aux.hkPos = (s.aux.hkPos + 1) % 21
          ∧ t.reg AUX_HK_LATE_COUNT.reg = s.reg AUX_HK_LATE_COUNT.reg + (if late then 1 else 0)
          ∧ (s.hkPresent c = true → t.reg (AUX_HK.reg c) = value)
          ∧ (s.hkPresent c = false → s.Frame t [.aux] (fun o => o = AUX_HK_LATE_COUNT.reg))
          ∧ s.Reacts t [] [.pwr]))
    ∧ (∀ r : Fin 3,
        (r ≠ 0 ∨ s.flag AUX_REF_CFG.INT_EN = true → Completes (.refSettled r) s (fun t =>
          t.flag (refBit r) = true
          ∧ t.aux = { s.aux with refLog := if s.flag AUX_STATUS.BUSY then (s.time, r.val, true) :: s.aux.refLog else [] }
          ∧ s.Frame t [.aux] (fun o => o = AUX_STATUS.reg)))
        ∧ (r = 0 → s.flag AUX_REF_CFG.INT_EN = false → exec (.refSettled r) s = .next s)
        ∧ Completes (.referenceUnsettled r) s (fun t =>
          t.flag (refBit r) = false
          ∧ t.aux = { s.aux with refLog := if s.flag AUX_STATUS.BUSY then (s.time, r.val, false) :: s.aux.refLog else [] }
          ∧ s.Frame t [.aux] (fun o => o = AUX_STATUS.reg)))
    ∧ ∀ (i : Fin 2) (active : Bool), (s.blank i).active ≠ active → (active = true → s.blankEn i = true) →
        Completes (.blankInputChange i active) s (fun t =>
          t.blank i = { active := active, last := some s.time } ∧ (∀ j : Fin 2, j ≠ i → t.blank j = s.blank j)
          ∧ t.flag (if i = 0 then AUX_STATUS.BLANK0 else AUX_STATUS.BLANK1) = active
          ∧ t.reg AUX_BLANK_PAUSE_COUNT.reg =
            s.reg AUX_BLANK_PAUSE_COUNT.reg + (if s.auxPaused = false ∧ t.auxPaused = true then 1 else 0)
          ∧ (active = false ∨ s.isRunning = false → s.Frame t [.blanks, .aux] (fun o => o = AUX_STATUS.reg ∨ o = AUX_BLANK_PAUSE_COUNT.reg))
          ∧ (active = true → s.isRunning = true → ∀ u : Fin 16, bitOf (s.fld (TRGU_CFG.INHIBIT u)) i = true →
            (s.unit u).st = .armed ∨ (s.unit u).st = .primed ∨ (s.unit u).st = .stopped → (t.unit u).inhibited = true)
          ∧ t.aux = { s.aux with pauseAt := if s.auxPaused = false ∧ t.auxPaused = true then s.time else s.aux.pauseAt }
          ∧ s.Frame t [.hif, .evr, .saf, .sched, .aux, .units, .blanks, .sent] (regsIn [.aux, .evr, .hif]))

/-- R330, R434–R443: a slice of a run counts for its port, as many in a round as its longest free interval holds. A run whose ports are done, or whose time is over, ends: BUSY is clear,
its measured values stand in the result registers, EV37 is raised, and unless coefficients are pinned a result waits for its
round start. A health block is sent while enabled. -/
def Obligations.CalibrationAndHealth : Prop :=
  ∀ s : State,
    (∀ (n : Fin 12) (r : CalRun), n.val < s.ports → s.cal.run = some r →
        let before := if r.round = s.ctl.round then SMap.get (fun _ => 0) r.taken n.val else 0
        (s.isRunning = true → before < s.sliceLimit n) → Completes (.calSlice n) s (fun t =>
        (∃ r', t.cal = { s.cal with run := some r' } ∧ r'.slicesOf n = min 512 (r.slicesOf n + 1)
          ∧ (∀ m : Fin 12, m ≠ n → r'.slicesOf m = r.slicesOf m) ∧ r'.frames = r.frames ∧ r'.turns = r.turns ∧ r'.start = r.start
          ∧ r'.round = s.ctl.round ∧ SMap.get (fun _ => 0) r'.taken n.val = before + 1)
        ∧ (∃ lo tia, t.port n = { s.port n with rx := { (s.port n).rx with loB := lo, tia := tia } })
        ∧ (∀ m, m ≠ n.val → t.port m = s.port m)
        ∧ s.Frame t [.cal, .streams, .freeCtr] (fun o => o = GLB_CAL_STATUS.reg)))
    ∧ (∀ (n : Fin 12) (r : CalRun), s.isRunning = true → s.cal.run = some r → r.round = s.ctl.round →
        s.sliceLimit n ≤ SMap.get (fun _ => 0) r.taken n.val → exec (.calSlice n) s = .next s)
    ∧ (∀ (r : CalRun) (vs : List (Nat × Word)) (dev : BitVec 4) (sat : BitVec 12) (devSat : Bool),
        s.isRunning = true → s.cal.run = some r →
        let pinned := s.flag GLB_CAL_STATUS.PINNED
        let ended (t : State) : Prop :=
          t.cal.run = none ∧ t.flag GLB_CAL_STATUS.BUSY = false ∧ t.flag GLB_CAL_STATUS.PENDING = !pinned
          ∧ t.cal.completedAt = s.time ∧ t.cal.force = s.cal.force ∧ t.cal.result.isSome = !pinned
          ∧ t.fld GLB_CAL_MISSING.DEV_ITEMS = dev.toNat ∧ t.flag GLB_CAL_MISSING.SAT = devSat
          ∧ (∀ n : Fin 12, n.val < s.ports → t.flag (PRT_CAL_STATUS.DONE n) = true
            ∧ t.fld (PRT_CAL_STATUS.MISSING n) = s.calMissing r n ∧ t.flag (PRT_CAL_STATUS.SAT n) = sat.getLsbD n)
          ∧ (∀ o w, vs = [(o, w)] → isCalResult o = true → t.reg o = w)
          ∧ s.Raised t 37
          ∧ s.Frame t [.hif, .cal, .sent] (regsIn [.glb, .hif, .prt])
        ((List.range s.ports).all (s.calPortDone r) = true → Completes (.calRunComplete vs dev sat devSat) s ended)
        ∧ Completes (.calTimeout vs dev sat devSat) s ended)
    ∧ (s.flag CMP_HEALTH_CFG.EN = true → s.hif.d3hot = false → s.flag CMP_CFG.EN = false → s.outBytes + 1200 ≤ outCapacity →
        Completes .healthBlock s (fun t =>
          (∃ b : Block, t.hif = { s.hif with out := s.hif.out ++ [b] } ∧ b.ring = 23 ∧ b.kind = 0x0E ∧ b.stage = .ready
            ∧ b.payload = s.healthEntries.flatMap (fun e => leBytes 4 e.1 ++ leBytes 4 e.2) ∧ b.stream = b.payload)
          ∧ s.Frame t [.hif] noReg))
    ∧ (s.flag CMP_HEALTH_CFG.EN = false → exec .healthBlock s = .next s)

/-! The redundant pair. -/

/-- R359, R361–R363, R365, R376, R386: the link. A partner's clock, three commas on a lane, and the identity acknowledged take it from
CLOCK through ALIGN and IDENT to UP, where a resync begins; four missing commas, or 16 frames in error of 1,024, lose a lane; losing the
last lane or the clock takes the link back, and leaving UP raises EV48 with DOWN_SEEN and a count. Of the bits between two commas a
stuff error or a CRC failure is counted. Nothing is taken on a lane that is not aligned, nor its first frame after alignment. A
heartbeat is sent only in UP, on every aligned lane. A mirror frame next in sequence is taken, one beyond a gap is held, one that comes
again is dropped; frames not acknowledged are sent again, and EV51 tells once that they lag. -/
def Obligations.LinkAndMirror : Prop :=
  ∀ s : State,
    let st := s.fld MLK_LINK_STATUS.STATE
    let link : RegSet := fun o => o = MLK_LINK_STATUS.reg
    let aligned (l : Nat) : Prop := bitOf (s.fld MLK_LINK_STATUS.LANES_UP) l = true
    let hears (l : Nat) : Prop := aligned l ∧ (s.lane l).fresh = false
    let isNew (type : Nat) (seq : BitVec 24) : Prop := SMap.get (fun _ => none) s.mlk.rxSeq type ≠ some seq.toNat
    let others (t : State) (l : Nat) : Prop := ∀ j, j ≠ l → t.lane j = s.lane j
    let identitySent (t : State) : Prop := ∀ j ∈ t.lanesUp, ∃ q m bits,
      Emission.link j q m bits ∈ t.sent.drop s.sent.length ∧ m.code = 2
    let down (t : State) : Prop := t.flag MLK_LINK_STATUS.DOWN_SEEN = true
      ∧ t.reg MLK_LINK_DOWN_COUNT.reg = s.reg MLK_LINK_DOWN_COUNT.reg + 1 ∧ s.Raised t 48 ∧ s.Reports t 0x18 ∧ s.Reacts t [.mlk] []
    (∀ (l : Fin 4) (gaps : List Nat),
        (st < 2 ∨ aligned l ∨ gaps.take 2 ≠ [1024, 1024] → exec (.laneAlign l gaps) s = .next s)
        ∧ (2 ≤ st → ¬ aligned l → gaps.take 2 = [1024, 1024] → Completes (.laneAlign l gaps) s (fun t =>
          t.fld MLK_LINK_STATUS.LANES_UP = putBit (s.fld MLK_LINK_STATUS.LANES_UP) l.val true
          ∧ t.fld MLK_LINK_STATUS.STATE = (if st = 2 then 3 else st) ∧ t.lane l = { fresh := true } ∧ others t l
          ∧ (st = 2 → identitySent t ∧ s.Frame t [.mlk, .sent, .freeCtr] link) ∧ (st ≠ 2 → s.Frame t [.mlk] link))))
    ∧ (∀ (l : Fin 4) (commas : List Bool),
        let lost : Prop := aligned l ∧ (commas.take 4 = [false, false, false, false] ∨ (s.lane l).bad = true)
        let left := putBit (s.fld MLK_LINK_STATUS.LANES_UP) l.val false
        (¬ lost → exec (.laneLoss l commas) s = .next s)
        ∧ (lost → Completes (.laneLoss l commas) s (fun t =>
          t.fld MLK_LINK_STATUS.LANES_UP = left
          ∧ t.reg (MLK_LANE_COMMA_LOSS_COUNT.reg l) = s.reg (MLK_LANE_COMMA_LOSS_COUNT.reg l) + 1
          ∧ t.fld MLK_LINK_STATUS.STATE = (if left = 0 then 2 else st) ∧ t.lane l = {}
          ∧ (left ≠ 0 ∨ st ≠ 4 → s.Frame t [.mlk] (fun o => link o ∨ o = MLK_LANE_COMMA_LOSS_COUNT.reg l))
          ∧ (left = 0 → st = 4 → down t))))
    ∧ (∀ present, s.linkRuns = false → exec (.partnerClockChange present) s = .next s)
    ∧ (s.linkRuns = true → Completes (.partnerClockChange true) s (fun t =>
          t.flag MLK_LINK_STATUS.CLK_OK = true ∧ t.fld MLK_LINK_STATUS.STATE = (if st = 1 then 2 else st)
          ∧ t.fld MLK_LINK_STATUS.LANES_UP = s.fld MLK_LINK_STATUS.LANES_UP ∧ s.Frame t [] link)
        ∧ Completes (.partnerClockChange false) s (fun t =>
          t.flag MLK_LINK_STATUS.CLK_OK = false ∧ t.fld MLK_LINK_STATUS.STATE = 1 ∧ t.fld MLK_LINK_STATUS.LANES_UP = 0
          ∧ (st ≠ 4 → s.Frame t [.mlk] link) ∧ (st = 4 → down t)))
    ∧ (∀ (l : Fin 4) (frame : Nat) (before bits : List Bool),
        let counted (c : Nat) : Prop := Completes (.linkFrameDiscarded l frame before bits) s (fun t =>
          t.reg c = s.reg c + 1 ∧ t.lane l = { s.lane l with errs := (frame :: (s.lane l).errs).take 16 } ∧ others t l
          ∧ s.Frame t [.mlk] (fun o => o = c))
        hears l → (lineCheck before bits = .stuffError → counted (MLK_LANE_STUFF_ERR_COUNT.reg l))
          ∧ (lineCheck before bits = .crcError → counted (MLK_LANE_CRC_COUNT.reg l))
          ∧ ∀ f, lineCheck before bits = .frame f → exec (.linkFrameDiscarded l frame before bits) s = .next s)
    ∧ (∀ (l : Fin 4) (frame : Nat) (before bits : List Bool) (seq : BitVec 24) (h : Heartbeat) (x : Identity) (safe : Bool)
        (cause : Fin 256) (port : Fin 16) (dest : BitVec 32) (data : List Byte),
        ∀ c ∈ [Instr.linkFrameDiscarded l frame before bits, .heartbeat l seq h, .identity l seq x, .faultMessage l seq safe cause port,
            .mirrorData l seq dest data],
          (¬ aligned l → exec c s = .next s)
          ∧ (aligned l → (s.lane l).fresh = true → st = 4 → data.length ≤ 112 → Completes c s (fun t =>
            t.mlk = { s.mlk with lanes := t.mlk.lanes } ∧ t.lane l = { s.lane l with fresh := false } ∧ others t l
            ∧ s.Frame t [.mlk] noReg)))
    ∧ (∀ (l : Fin 4) (seq : BitVec 24) (i : Identity), (st < 3 ∨ ¬ isNew 2 seq → hears l → exec (.identity l seq i) s = .next s)
        ∧ (3 ≤ st → hears l → isNew 2 seq → Completes (.identity l seq i) s (fun t =>
          t.reg MLK_PARTNER_INFO.reg = Word.of (i.part.toNat * 2 ^ 16 + (if i.roleB then 2 ^ 15 else 0) + i.chan.toNat * 2 ^ 8
            + i.stepping.toNat * 2 ^ 4)
          ∧ t.mlk.ident = some { roleB := i.roleB, chan := i.chan.toNat, loops := i.loops }
          ∧ (st = 3 → identitySent t)
          ∧ (st = 3 → i.acked = false → t.fld MLK_LINK_STATUS.STATE = 3)
          ∧ (st = 3 → i.acked = true → t.fld MLK_LINK_STATUS.STATE = 4 ∧ t.flag MLK_PAIR_STATUS.MIRROR_SYNCED = false
            ∧ t.mlk.rx = 0 ∧ t.mlk.resync = some t.mlk.seq)
          ∧ t.flag MLK_PAIR_STATUS.ROLE_CLASH = (s.flag MLK_CFG.ROLE == i.roleB)
          ∧ t.flag MLK_PAIR_STATUS.CH_CLASH =
              !decide (s.fld SRC_LASER_CFG.CH + 16 ≤ i.chan.toNat ∨ i.chan.toNat + 16 ≤ s.fld SRC_LASER_CFG.CH)
          ∧ s.Frame t [.hif, .evr, .saf, .mlk, .sent, .freeCtr] (regsIn [.evr, .hif, .mlk]))))
    ∧ (st ≠ 4 → exec .heartbeatSend s = .next s ∧ exec .mirrorRetransmit s = .next s
        ∧ ∀ l q d bs, exec (.mirrorData l q d bs) s = .next s)
    ∧ (st = 4 →
        let q := SMap.get (fun _ => 0) s.mlk.txSeq 1
        Completes .heartbeatSend s (fun t =>
          t.mlk = { s.mlk with txSeq := t.mlk.txSeq } ∧ SMap.get (fun _ => 0) t.mlk.txSeq 1 = q + 1
          ∧ s.Frame t [.mlk, .sent, .freeCtr] noReg ∧ ∃ bs, ∃ lines : List (List Bool),
          t.sent = s.sent ++ (s.lanesUp.zip lines).map (fun x => .link x.1 (q % 2 ^ 24) (.heartbeat bs) x.2)
          ∧ lines.length = s.lanesUp.length
          ∧ (∀ x ∈ lines, ∃ sc, x = comma ++ stuff 0 false (scramble sc (bitsMsb (frameBytes 1 (q % 2 ^ 24) bs))).1)
          ∧ bs.length = 120
          ∧ bs.take 8 = leBytes 8 s.time ∧ (bs.drop 8).take 8 = leBytes 8 (s.ctl.round % 2 ^ 48)
          ∧ (bs.drop 16).take 1 = leBytes 1 (s.ctl.dev.code + bitAt (s.flag MLK_PAIR_STATUS.ARMED) 3
            + bitAt (s.flag MLK_PAIR_STATUS.TKO_ACTIVE) 4)
          ∧ (bs.drop 23).take 1 = leBytes 1 (bitAt (s.pinDriven 0) 0 + bitAt (s.pinDriven 1) 1 + bitAt (s.alarm 0) 2
            + bitAt (s.alarm 1) 3 + bitAt s.anyLasting 4)
          ∧ (bs.drop 24).take 4 = leBytes 4 s.mlk.rx)
        ∧ Completes .mirrorRetransmit s (fun t => ∃ lines : List (Nat × List Bool),
          t.sent = s.sent ++ (s.mlk.tx.zip lines).map (fun x => .link x.2.1 (x.1.seq % 2 ^ 24) (.mirror x.1.dest x.1.data) x.2.2)
          ∧ lines.length = s.mlk.tx.length ∧ (s.lanesUp ≠ [] → ∀ x ∈ lines, x.1 ∈ s.lanesUp)
          ∧ t.mlk = { s.mlk with tx := s.mlk.tx.map (fun x => { x with sent := s.time }) }
          ∧ t.reg MLK_RETX_COUNT.reg = s.reg MLK_RETX_COUNT.reg + Word.of s.mlk.tx.length
          ∧ s.Frame t [.mlk, .sent, .freeCtr] (fun o => o = MLK_RETX_COUNT.reg))
        ∧ ∀ (l : Fin 4) (seq : BitVec 24) (dest : BitVec 32) (data : List Byte), data.length ≤ 112 → hears l →
          let ahead := (seq.toNat + 2 ^ 24 - s.mlk.rx % 2 ^ 24) % 2 ^ 24
          (ahead = 0 ∨ 2 ^ 23 ≤ ahead → exec (.mirrorData l seq dest data) s = .next s)
          ∧ (ahead = 1 → s.mlk.held = [] → Completes (.mirrorData l seq dest data) s (fun t =>
            t.mlk.rx = s.mlk.rx + 1 ∧ t.mlk.held = [] ∧ t.mlk.tx = s.mlk.tx
            ∧ (0x1D2000 ≤ dest.toNat → dest.toNat + data.length ≤ 0x1D8000 →
              t.mlk.pbase = Memory.setBytes 0 s.mlk.pbase (dest.toNat - 0x1D2000) data ∧ t.mlk.pimg = s.mlk.pimg)
            ∧ (dest.toNat < 2 ^ 31 → t.reg MLK_PIMG_SEQ.reg = s.reg MLK_PIMG_SEQ.reg + 2 ∧ t.dram = s.dram)
            ∧ (2 ^ 31 ≤ dest.toNat → t.mlk.pbase = s.mlk.pbase ∧ t.mlk.pimg = s.mlk.pimg
              ∧ t.reg MLK_PIMG_SEQ.reg = s.reg MLK_PIMG_SEQ.reg)
            ∧ s.Frame t [.mlk, .dram, .dmc] (fun o => o = MLK_PIMG_SEQ.reg)))
          ∧ (1 < ahead → ahead < 2 ^ 23 → (∀ y ∈ s.mlk.held, y.1 ≠ s.mlk.rx + 1 ∧ y.1 ≠ s.mlk.rx + ahead) →
            Completes (.mirrorData l seq dest data) s (fun t =>
              t.mlk = { s.mlk with held := (s.mlk.rx + ahead, dest.toNat, data) :: s.mlk.held } ∧ s.Frame t [.mlk] noReg)))
    ∧ (s.mlk.tx = [] ∨ s.flag MLK_PAIR_STATUS.MIRROR_LAGGING = true → exec .mirrorLag s = .next s)
    ∧ (s.mlk.tx ≠ [] → s.flag MLK_PAIR_STATUS.MIRROR_LAGGING = false → Completes .mirrorLag s (fun t =>
        t.flag MLK_PAIR_STATUS.MIRROR_LAGGING = true ∧ s.Raised t 51
        ∧ s.Frame t [.hif, .sent] (fun o => o = MLK_PAIR_STATUS.reg ∨ eventReg o)))

/-- R363–R365, R368, R370: a new heartbeat received in UP shows in MLK_PARTNER_HEALTH and in the partner image, and acknowledges mirror
frames; one that misses is counted. A device is armed only while the conditions of R364 hold, and stays armed. An armed device declares
partner loss on the fourth missed heartbeat in a row, a fault message for SAFE or for a loop's port, or a partner in BOOT or SETUP; a
device that did not become armed in time does with TKO_AT_START. The declaration writes its cause, ends ARMED, sets
TKO_ACTIVE, raises EV49, and drives the outputs it takes over. A copy of a message changes nothing. -/
def Obligations.PartnerHealthAndLoss : Prop :=
  ∀ s : State,
    let st := s.fld MLK_LINK_STATUS.STATE
    let armed := s.flag MLK_PAIR_STATUS.ARMED
    let hears (l : Nat) : Prop := bitOf (s.fld MLK_LINK_STATUS.LANES_UP) l = true ∧ (s.lane l).fresh = false
    let isNew (type : Nat) (seq : BitVec 24) : Prop := SMap.get (fun _ => none) s.mlk.rxSeq type ≠ some seq.toNat
    let declares (t : State) (cause : Nat) : Prop :=
      t.flag MLK_PAIR_STATUS.ARMED = false ∧ t.fld MLK_PAIR_STATUS.LOSS_CAUSE = cause ∧ t.flag MLK_PAIR_STATUS.TKO_ACTIVE = true
      ∧ t.mlk.wait = true ∧ s.Raised t 49 ∧ s.Reports t 0x17 ∧ t.ctl.deg.partner = true ∧ (∀ c ∈ t.hif.cmds, c.opcode ≠ 0x11)
      ∧ t.sched.sliding = none
      ∧ (∀ k, k < 4 → t.dout k = if bitOf (s.fld MLK_ALARM_CFG.DOUT_TAKE) k = true ∧ bitOf (t.fld MLK_PARTNER_HEALTH.DOUT) k = true
          then { s.dout k with cmd := true } else s.dout k)
      ∧ s.Reacts t [.mlk, .douts, .brl] [.brl]
    (∀ (l : Fin 4) (seq : BitVec 24),
        (st ≠ 4 ∨ (hears l ∧ ¬ isNew 1 seq) → ∀ h, exec (.heartbeat l seq h) s = .next s)
        ∧ (st ≠ 4 ∨ (hears l ∧ ¬ isNew 3 seq) → ∀ b c p, exec (.faultMessage l seq b c p) s = .next s)
        ∧ (st = 4 → hears l → isNew 1 seq → ∀ h : Heartbeat, Completes (.heartbeat l seq h) s (fun t =>
          t.mlk.missRun = 0 ∧ t.mlk.seen = true
          ∧ t.reg MLK_PARTNER_HEALTH.reg = Word.of (h.faults.toNat * 2 ^ 20 + h.breaks.toNat * 2 ^ 8 + h.dout.toNat * 2 ^ 4
            + (if h.tko then 2 ^ 3 else 0) + h.state.toNat)
          ∧ t.mlk.tx = s.mlk.tx.filter (fun x => decide (2 ^ 23 ≤ (h.ack.toNat % 2 ^ 24 + 2 ^ 24 - x.seq % 2 ^ 24) % 2 ^ 24))
          ∧ (s.mlk.pimg.length + 5 ≤ 4096 → ∀ e ∈ s.heartbeatImage h.dout.toNat h.alarm.toNat, e ∈ t.mlk.pimg)
          ∧ (h.state.toNat < 2 → armed = true → declares t 4)
          ∧ (2 ≤ h.state.toNat → armed = true → t.flag MLK_PAIR_STATUS.ARMED = true)
          ∧ (armed = false → t.flag MLK_PAIR_STATUS.ARMED = true → s.flag MLK_CFG.PAIR_EN = true ∧ s.isRunning = true
            ∧ (h.state.toNat = 2 ∨ h.state.toNat = 3) ∧ s.mlk.checked = true ∧ t.mlk.wasArmed = true
            ∧ t.flag MLK_PAIR_STATUS.MIRROR_SYNCED = true ∧ t.flag MLK_PAIR_STATUS.ROLE_CLASH = false
            ∧ t.flag MLK_PAIR_STATUS.CH_CLASH = false ∧ t.flag MLK_PAIR_STATUS.LOOP_MISMATCH = false)
          ∧ s.Reacts t [.mlk, .douts, .brl] [.brl]))
        ∧ (st = 4 → hears l → isNew 3 seq → ∀ (safe : Bool) (cause : Fin 256) (port : Fin 16),
          let loops : Prop := 2 ≤ cause.val ∧ cause.val ≤ 4
            ∧ ∃ n, n < s.ports ∧ s.flag (MLK_LOOP_CFG.EN n) = true ∧ s.loopPeer n = port.val
          Completes (.faultMessage l seq safe cause port) s (fun t =>
            t.reg MLK_FAULT_RX_COUNT.reg = s.reg MLK_FAULT_RX_COUNT.reg + 1
            ∧ SMap.get (fun _ => none) t.mlk.rxSeq 3 = some seq.toNat
            ∧ (armed = true → safe = true → declares t 2) ∧ (armed = true → safe = false → loops → declares t 3)
            ∧ (armed = false ∨ (safe = false ∧ ¬ loops) → s.Frame t [.mlk] (fun o => o = MLK_FAULT_RX_COUNT.reg)))))
    ∧ (s.linkRuns = false → exec .missedHeartbeat s = .next s)
    ∧ (s.linkRuns = true → Completes .missedHeartbeat s (fun t =>
        t.reg MLK_HB_MISS_COUNT.reg = s.reg MLK_HB_MISS_COUNT.reg + 1 ∧ t.mlk.missRun = s.mlk.missRun + 1
        ∧ (armed = true → 3 ≤ s.mlk.missRun → declares t 1)
        ∧ (armed = false ∨ s.mlk.missRun < 3 → s.Frame t [.mlk] (fun o => o = MLK_HB_MISS_COUNT.reg))))
    ∧ (let due : Prop := s.isRunning = true ∧ s.flag MLK_CFG.TKO_AT_START = true ∧ s.mlk.wasArmed = false
      (due → Completes .armWaitExpiry s (fun t => declares t 5)) ∧ (¬ due → exec .armWaitExpiry s = .next s))

/-! Supplies, resets and the PCI Express function. -/

/-- R417, R418: each reset cause resets the whole device but the VAUX domain and records itself in GLB_RESET_CAUSE, the cause held
before moving to PREV_CAUSE. Of causes within 10 µs the first in the order of R417 stays. A rail faults only at a die where R416
supervises it. -/
def Obligations.ResetCauses : Prop :=
  ∀ s : State, s.supply.vauxUp = true →
    let old := (s.reg GLB_RESET_CAUSE.reg).toNat
    let again : Prop := s.supply.inReset = true ∧ s.time - s.supply.causeAt ≤ 4000
    let does (i : Instr) (cause detail : Nat) : Prop := Completes i s (fun t =>
      s.ResetTo t
      ∧ t.supply = { s.supply with
        inReset := true, causeAt := if s.supply.inReset && decide (s.time - s.supply.causeAt ≤ 4000) then s.supply.causeAt else s.time }
      ∧ (¬ again → t.reg GLB_RESET_CAUSE.reg = Word.of (detail + old % 16 * 16 + cause))
      ∧ (again → cause < old % 16 → t.reg GLB_RESET_CAUSE.reg = Word.of (detail + old / 16 % 16 * 16 + cause))
      ∧ (again → old % 16 ≤ cause → t.reg GLB_RESET_CAUSE.reg = s.reg GLB_RESET_CAUSE.reg))
    does .vinUv 2 0 ∧ does .vinOv 3 0 ∧ does .perstN 6 0 ∧ does .softReset 7 0
    ∧ (∀ rail die ov, (s.part.supervises rail.val die.val = true →
          does (.railFault rail die ov) 4 ((if ov then 2 ^ 20 else 0) + rail.val * 2 ^ 12 + die.val * 2 ^ 8))
        ∧ (s.part.supervises rail.val die.val = false → exec (.railFault rail die ov) s = .next s))
    ∧ ∀ die, does (.thermalShutdown die) 5 (die.val * 2 ^ 8)

/-- R20, R407, R411, R417: a power-on starts device time at 0, restores the recorder's counts and scans its memory, and holds the
device in reset with cause POWER_ON; the loss of VAUX stops the VAUX domain and resets the device, its queue of records lost; the
release of reset ends the hold and shows when. -/
def Obligations.PowerOnAndRelease : Prop :=
  ∀ s : State,
    (s.supply.vauxUp = false → Completes .powerOn s (fun t =>
      t.time = 0 ∧ t.supply = { s.supply with vauxUp := true, causeAt := 0, inReset := true }
      ∧ t.ctl = State.reset.ctl ∧ t.reg GLB_RESET_CAUSE.reg = 1 ∧ t.reg64 TMB_GRID_LO.reg = 0
      ∧ t.flag ACR_MARCH_BOOT.EN = s.marchDefault
      ∧ t.evr = { s.evr with
        cycles := s.evr.cycles + 1, opBase := s.evr.opStored, head := s.evr.scan
        nextSeq := max s.evr.nextSeq (s.evr.scan + 1), queue := [] }
      ∧ ∀ c ∈ [Comp.flash, .fuses, .sent], s.same t c))
    ∧ Completes .vauxLoss s (fun t =>
      t.supply = { s.supply with vauxUp := false, inReset := true } ∧ t.ctl = State.reset.ctl ∧ t.evr = { s.evr with queue := [] }
      ∧ ∀ c ∈ [Comp.time, .flash, .fuses, .sent], s.same t c)
    ∧ (s.supply.vauxUp = true → s.supply.inReset = true → Completes .resetRelease s (fun t =>
      t.supply = { s.supply with inReset := false, releasedAt := s.time } ∧ s.Frame t [.supply] noReg))

/-- R414: the supply warning raises EV56, sets VIN_WARN and WARN_SEEN, counts, queues a PWR_WARN record at the head of the
recorder's queue, and shows in SHED whether a load is shed; with SHED_PUMPS = 1 the pumps are commanded off. When it ends, VIN_WARN
and SHED return to 0; in SETUP the pumps resume at once. -/
def Obligations.SupplyWarning : Prop :=
  ∀ (s : State) (vin : BitVec 16) (burnt : Nat),
    let pumps := s.flag PWR_CFG.SHED_PUMPS
    let shed := pumps || s.flag PWR_CFG.SHED_TEC
    let detail := vin.toNat + if shed then 2 ^ 16 else 0
    (s.flag PWR_STATUS.VIN_WARN = false → Completes (.vinWarning vin burnt) s (fun t =>
      s.Raised t 56
      ∧ t.flag PWR_STATUS.VIN_WARN = true ∧ t.flag PWR_STATUS.WARN_SEEN = true ∧ t.flag PWR_STATUS.SHED = shed
      ∧ t.reg PWR_WARN_COUNT.reg = s.reg PWR_WARN_COUNT.reg + 1
      ∧ (s.flag EVR_CFG.SUPPLY = true → s.evr.queue.length < 16 → t.recordsFirst 6 detail)
      ∧ (pumps = true → t.src.gate = false ∧ t.src.shed = true)
      ∧ (pumps = false → t.src = s.src)
      ∧ t.burn = none
      ∧ s.Frame t [.hif, .evr, .src, .fuses, .burn, .sent] (regsIn [.acr, .evr, .hif, .pwr])))
    ∧ (s.flag PWR_STATUS.VIN_WARN = true → Completes .vinWarningClear s (fun t =>
      t.flag PWR_STATUS.VIN_WARN = false ∧ t.flag PWR_STATUS.SHED = false
      ∧ t.flag PWR_STATUS.WARN_SEEN = s.flag PWR_STATUS.WARN_SEEN
      ∧ (s.ctl.dev = .setup → t.src.gate = true ∧ t.src.shed = false)
      ∧ (s.ctl.dev ≠ .setup → t.src = s.src)
      ∧ s.Frame t [.src] (fun o => o = PWR_STATUS.reg)))

/-- R281: a hot reset and a function level reset return every HIF and DBL register, the MSI-X table and the rings to reset, and
leave the device state and every other block as they were; commands processed before stay in progress. -/
def Obligations.FunctionResets : Prop :=
  ∀ s : State, ∀ i ∈ [Instr.hotReset, .functionLevelReset], Completes i s (fun t =>
    (∀ o, 0x190000 ≤ o → o < 0x1B0000 → t.reg o = resetVal o)
    ∧ t.hif = { cmds := s.hif.cmds, out := s.hif.out }
    ∧ s.Frame t [.hif] (fun o => 0x190000 ≤ o ∧ o < 0x1B0000))

/-- R283, R424: entering D3hot changes nothing else; on the return to D0 the head shadow of each ring is written while shadows are
enabled, and the vectors pending inside the device that are neither masked nor held off are sent, in their order; a change of
the link shows in HIF_LINK, which reads 0 while the link is not active. -/
def Obligations.PowerStatesAndLink : Prop :=
  ∀ s : State,
    Completes .d3hotEntry s (fun t => t.hif = { s.hif with d3hot := true } ∧ s.Frame t [.hif] noReg)
    ∧ (s.hif.d3hot = true → Completes .d0Return s (fun t =>
      t.hif.d3hot = false
      ∧ (∃ shadows, t.sent = s.sent ++ shadows
          ++ ((List.range 32).filter (fun v => s.hif.vecPend.getLsbD v && !s.hif.vecHold.getLsbD v && !s.vecMasked v)).map Emission.msix
        ∧ shadows = (List.range 32).filterMap (fun r => ((s.putHif { s.hif with d3hot := false }).shadowAddr r).map (fun a => Emission.hostWrite a
          (leBytes 4 (s.fld (HIF_RING_INDEX.HEAD r) + (s.reg (HIF_RING_DISCARD_COUNT.reg r)).toNat % 2 ^ 16 * 2 ^ 16)))))
      ∧ (∀ v, v < 32 → s.hif.vecHold.getLsbD v = false → s.vecMasked v = false → t.hif.vecPend.getLsbD v = false)
      ∧ t.hif.rings = s.hif.rings ∧ t.hif.msix = s.hif.msix ∧ t.hif.cmds = s.hif.cmds ∧ t.hif.out = s.hif.out
      ∧ s.Frame t [.hif, .sent] noReg))
    ∧ ∀ width speed : Fin 16, Completes (.pcieLinkChange width speed) s (fun t =>
      t.fld HIF_LINK.WIDTH = width.val ∧ t.fld HIF_LINK.SPEED = (if width.val = 0 then 0 else speed.val)
      ∧ s.Frame t [] (fun o => o = HIF_LINK.reg))

/-! BOOT, the laser and the cooler. -/

/-- R28, R42, R394, R423, R438: a step of BOOT that fails takes the device to SAFE with BOOT_FAIL = 1 and cause 0xFD. -/
def Obligations.BootFailures : Prop :=
  ∀ s : State,
    let fails (i : Instr) (step : Nat) : Prop :=
      s.atStep step = true → Completes i s (fun t => s.EntersSafe t 0xFD ∧ t.ctl.bootFail = true)
    fails (.bootFuseLoad false) 0 ∧ fails (.coolerSettle false) 3 ∧ fails .laserLockTimeout 4 ∧ fails .bootCalTimeout 6
    ∧ ∀ vs missing sat devSat, missing ≠ 0 → fails (.bootCalibration vs missing sat devSat) 6

/-- R257, R260, R418, R423, R429: the steps of BOOT up to the image. Step 0x0 zeroes every scratchpad, queues the RESET record with
GLB_RESET_CAUSE, raises EV57 for cause RAIL, and goes on to the march of step 0x1 where it is enabled. The march tests every core's scratchpad and leaves it
zero. Step 0x2 goes on to step 0x3 with a valid image; without one the device is in SETUP with IMAGE_NONE = 1. EV63 tells which. -/
def Obligations.BootToImage : Prop :=
  ∀ s : State,
    (s.atStep 0 = true → Completes (.bootFuseLoad true) s (fun t =>
      t.ctl = { s.ctl with bootStep := if s.flag ACR_MARCH_BOOT.EN then 1 else 2 }
      ∧ (s.flag EVR_CFG.RESET = true → s.evr.queue.length < 16 → t.recordsLast 7 (s.reg GLB_RESET_CAUSE.reg).toNat)
      ∧ (s.fld GLB_RESET_CAUSE.CAUSE = 4 → s.Raised t 57)
      ∧ (∀ k, k < 16 → (t.core k).spm = [] ∧ (t.core k).errs = [] ∧ (t.core k).pmem = (s.core k).pmem)
      ∧ s.Frame t [.ctl, .hif, .evr, .cores, .sent] (regsIn [.acr, .evr, .hif])))
    ∧ (∀ fails, s.ctl.dev = .boot → s.supply.inReset = false → s.ctl.bootStep = 1 → Completes (.bootMarch fails) s (fun t =>
      t.ctl = { s.ctl with bootStep := 2 }
      ∧ (s.flag ACR_MARCH_BOOT.EN = false → s.Frame t [.ctl] noReg)
      ∧ (s.flag ACR_MARCH_BOOT.EN = true → ∀ k, k < 16 → (t.core k).spm = [] ∧ (t.core k).errs = []
        ∧ t.flag (ACR_SPM_STATUS.MARCH_BUSY k) = false ∧ t.flag (ACR_SPM_STATUS.LAST_MODE k) = false
        ∧ t.flag (ACR_SPM_STATUS.SPM_FAIL k) = (t.fld (ACR_SPM_STATUS.UNREPAIRED k) != 0)
        ∧ t.flag (ACR_SPM_STATUS.LAST_PASS k) = (t.fld (ACR_SPM_STATUS.UNREPAIRED k) == 0))
      ∧ s.Frame t [.ctl, .cores, .freeCtr] (regsIn [.acr])))
    ∧ (s.atStep 2 = true → s.ctl.dev = .boot →
      Completes (.imageLoad none) s (fun t => t.ctl.dev = .setup ∧ t.ctl.imageNone = true ∧ t.evPending 63)
      ∧ ∀ mib page, Completes (.imageLoad (some (mib, page))) s (fun t => t.evPending 63
        ∧ (s.slotOrder.find? s.bodyOk = none → t.ctl.dev = .setup ∧ t.ctl.imageNone = true)
        ∧ (s.slotOrder.find? s.bodyOk ≠ none → t.ctl.bootStep = 3)))

/-- R267, R423, R425, R430, R435, R437, R439: the steps of BOOT after the image. The cooler's settling leads to step 0x4, the lock
to DRAM training in step 0x5. Training and fill leave INIT_DONE and zeros, or training DRAM_FAILED with the channels that failed,
and the start-up calibration begins. Its completion ends BOOT in SETUP, and starts the device where the image asks for it. A write of
GLB_BOOT_CTRL resumes start-up at step 0x3 in SETUP without an image. -/
def Obligations.BootAfterImage : Prop :=
  ∀ s : State,
    (s.atStep 3 = true → Completes (.coolerSettle true) s (fun t => t.ctl = { s.ctl with bootStep := 4 } ∧ s.Frame t [.ctl] noReg))
    ∧ (s.atStep 5 = true → ∀ failed : BitVec 4, Completes (.dramTraining failed) s (fun t =>
      t.ctl.bootStep = 6 ∧ t.flag GLB_CAL_STATUS.BUSY = true ∧ t.fld GLB_CAL_STATUS.CAUSE = 1
      ∧ t.cal.run = some { start := s.time } ∧ t.reg GLB_CAL_RUN_NUM.reg = s.reg GLB_CAL_RUN_NUM.reg + 1 ∧ t.evPending 36
      ∧ (failed = 0 ∨ s.fld DMC_STATUS.STATE ≠ 1 → t.flag DMC_STATUS.INIT_DONE = true ∧ t.fld DMC_STATUS.STATE = 3
        ∧ t.dram = [] ∧ t.dmc = {} ∧ t.ctl.deg = s.ctl.deg)
      ∧ (failed ≠ 0 → s.fld DMC_STATUS.STATE = 1 → t.ctl.dramFailed = true ∧ t.ctl.deg.dram = true ∧ t.fld DMC_STATUS.STATE = 7
        ∧ t.fld DMC_STATUS.TRAIN_FAIL = failed.toNat ∧ t.flag BRL_STATUS.FAILED = true ∧ t.flag BLT_STATUS.FAILED = true)))
    ∧ (s.atStep 6 = true → ∀ vs sat devSat,
      (s.ctl.dev = .boot → s.flag GLB_IMAGE_STATUS.AUTO_START = false → Completes (.bootCalibration vs 0 sat devSat) s (fun t =>
        t.ctl.dev = .setup ∧ t.ctl.prev = .boot ∧ t.ctl.bootStep = 7 ∧ t.evPending 37
        ∧ t.fld GLB_BOOT_STATUS.BOOT_MS = min (2 ^ 24 - 1) ((s.time - s.supply.releasedAt) / 400000)))
      ∧ (s.ctl.dev = .boot → s.flag GLB_IMAGE_STATUS.AUTO_START = true → Completes (.bootCalibration vs 0 sat devSat) s (fun t =>
        ∃ u : State, u.ctl.dev = .setup ∧ u.ctl.bootStep = 7 ∧ u.flag GLB_BOOT_STATUS.AUTO_STARTED = true ∧ u.evPending 37
          ∧ exec .start u = .next t))
      ∧ (s.ctl.dev = .setup → Completes (.bootCalibration vs 0 sat devSat) s (fun t =>
        t.ctl.dev = .setup ∧ t.ctl.bootStep = 7 ∧ t.flag GLB_BOOT_STATUS.RESUMING = false ∧ t.evPending 37)))
    ∧ (∀ w : Word, GLB_BOOT_CTRL.RESUME.get w = 1 → GLB_BOOT_CTRL.KEY.get w = 0x6B → s.ctl.imageNone = true →
      s.ctl.dev = .setup → s.flag GLB_BOOT_STATUS.RESUMING = false → s.ctl.bootStep = 2 → Completes (.bootResume w) s (fun t =>
        t.ctl = { s.ctl with bootStep := 3 } ∧ t.flag GLB_BOOT_STATUS.RESUMING = true
        ∧ s.Frame t [.ctl] (fun o => o = GLB_BOOT_STATUS.reg)))

/-- R6, R38, R41, R59, R387, R414: the laser and the cooler. A lock shows in LOCKED and its readings, ends the TEC cause while the
cooler is within its limit, and in step 0x4 begins DRAM training. An unlock clears LOCKED; with the cooler at its limit the
TEC cause follows, otherwise the LASER_UNLOCK cause and its diagnostic. A cooler condition sets LIMIT, is recorded, raises
EV15 unless its cause still stands, and reports; it is not detected while SHED = 1, nor again while it lasts. A channel up to 48 is taken in SETUP, where it
unlocks the laser. -/
def Obligations.LaserAndCooler : Prop :=
  ∀ (s : State) (freqErr tempErr : BitVec 16) (current : BitVec 12),
    let limit := s.flag SRC_TEC_STATUS.LIMIT
    Completes (.laserLock freqErr current) s (fun t =>
      t.flag SRC_LASER_STATUS.LOCKED = true ∧ t.fld SRC_LASER_STATUS.FREQ_ERR = freqErr.toNat
      ∧ t.fld SRC_LASER_STATUS.CURRENT = current.toNat ∧ t.src.unlockHeld = false
      ∧ (limit = false → t.ctl.deg.tec = false) ∧ (limit = true → t.ctl.deg = s.ctl.deg)
      ∧ (s.atStep 4 = true → t.ctl.bootStep = 5 ∧ t.fld DMC_STATUS.STATE = 1)
      ∧ (s.atStep 4 = false → t.ctl.bootStep = s.ctl.bootStep)
      ∧ s.Frame t [.ctl, .hif, .evr, .saf, .src, .sent] (regsIn [.dmc, .evr, .hif, .src]))
    ∧ ((s.flag SRC_LASER_STATUS.LOCKED = true ∨ s.src.unlockHeld = true) → Completes (.laserUnlock freqErr current) s (fun t =>
      t.flag SRC_LASER_STATUS.LOCKED = false ∧ t.flag SRC_LASER_STATUS.UNLOCK_SEEN = true
      ∧ t.fld SRC_LASER_STATUS.FREQ_ERR = freqErr.toNat ∧ t.fld SRC_LASER_STATUS.CURRENT = current.toNat
      ∧ (limit = true → t.ctl.deg.tec = true)
      ∧ (limit = false → t.flag SRC_FAULT_CAUSE.LASER_UNLOCK = true ∧ s.Reports t 2
        ∧ (s.flag SRC_FAULT_CAUSE.LASER_UNLOCK = false → t.evPending 12))
      ∧ s.Reacts t [] [.src]))
    ∧ Completes (.laserCurrentFault current) s (fun t =>
      t.fld SRC_LASER_STATUS.CURRENT = current.toNat ∧ t.flag SRC_FAULT_CAUSE.LASER_CURRENT = true ∧ s.Reports t 2
      ∧ (s.flag SRC_FAULT_CAUSE.LASER_CURRENT = false → t.evPending 12) ∧ s.Reacts t [] [.src])
    ∧ (s.flag PWR_STATUS.SHED = false → limit = false → Completes (.tecLimit current tempErr) s (fun t =>
      t.flag SRC_TEC_STATUS.LIMIT = true ∧ t.flag SRC_TEC_STATUS.LIMIT_SEEN = true
      ∧ t.fld SRC_TEC_STATUS.CURRENT = current.toNat ∧ t.fld SRC_TEC_STATUS.TEMP_ERR = tempErr.toNat
      ∧ t.flag SRC_FAULT_CAUSE.TEC_CURRENT = true ∧ s.Reports t 7
      ∧ (s.flag SRC_FAULT_CAUSE.TEC_CURRENT = false → s.Raised t 15)
      ∧ (s.flag SRC_FAULT_CAUSE.TEC_CURRENT = true → t.reg (HIF_EV_COUNT.reg 15) = s.reg (HIF_EV_COUNT.reg 15))
      ∧ (s.ctl.dev ≠ .boot → s.flag SRC_LASER_STATUS.LOCKED = false → t.ctl.deg.tec = true)
      ∧ s.Reacts t [] [.src]))
    ∧ (s.flag PWR_STATUS.SHED = true ∨ limit = true → exec (.tecLimit current tempErr) s = .next s)
    ∧ Completes (.tecLimitClear current tempErr) s (fun t =>
      t.flag SRC_TEC_STATUS.LIMIT = false ∧ t.fld SRC_TEC_STATUS.CURRENT = current.toNat
      ∧ t.fld SRC_TEC_STATUS.TEMP_ERR = tempErr.toNat
      ∧ (s.flag SRC_LASER_STATUS.LOCKED = true → t.ctl.deg = { s.ctl.deg with tec := false })
      ∧ (s.flag SRC_LASER_STATUS.LOCKED = false → t.ctl.deg = s.ctl.deg)
      ∧ s.Frame t [.ctl] (fun o => o = SRC_TEC_STATUS.reg))
    ∧ ∀ w : Word,
      let k := SRC_LASER_CFG.CH.get w
      (s.isSetup = true → 48 < k → exec (.laserChWrite w) s = .next s)
      ∧ (s.isSetup = true → k ≤ 48 → Completes (.laserChWrite w) s (fun t =>
        t.fld SRC_LASER_CFG.CH = k
        ∧ (s.ctl.dev = .setup → t.flag SRC_LASER_STATUS.LOCKED = false ∧ t.src = { s.src with unlockHeld := false })
        ∧ (s.ctl.dev = .boot → s.Frame t [] (fun o => o = SRC_LASER_CFG.reg))
        ∧ s.Frame t [.src] (fun o => o = SRC_LASER_CFG.reg ∨ o = SRC_LASER_STATUS.reg)))
      ∧ (s.isSetup = false → k ≠ s.fld SRC_LASER_CFG.CH → Completes (.laserChWrite w) s (fun t =>
        t.fld SRC_LASER_CFG.CH = s.fld SRC_LASER_CFG.CH
        ∧ t.reg HIF_RWL_IGNORED_COUNT.reg = s.reg HIF_RWL_IGNORED_COUNT.reg + 1
        ∧ t.reg HIF_RWL_ADDR.reg = Word.of SRC_LASER_CFG.reg
        ∧ s.Frame t [] (fun o => o = SRC_LASER_CFG.reg ∨ o = HIF_RWL_IGNORED_COUNT.reg ∨ o = HIF_RWL_ADDR.reg)))

/-! The source and the launch of turns. -/

/-- R43, R58, R81, R84, R86, R87, R88: the turn of a port entry falls due. Where the bank estimate covers its energy it is
launched: its probe leaves at its launch instant, the switch is routed to the port from 20 ns before the probe's leading edge
until 20 ns after its trailing edge, the estimate loses its energy, and its frame or spectra are awaited. Otherwise it slides
while the slide limit is above 0, and is skipped, and counted, where it is 0. With SLACK = 0 the limit is 0. The premise that it
is not deferred always holds outside a takeover. -/
def Obligations.TurnFallsDue : Prop :=
  ∀ (s : State) (e : Entry), s.launching = true → s.sched.sliding = none → s.dueEntry = some e → e.onPort = true →
    s.deferred e = false →
    let T := s.makeTurn e
    let lights := T.launch * 128 - (T.dur / 2 + u20ns)
    let count := SMap.get (fun _ => 0) s.sched.turnCount e.port
    let passed (t : State) : Prop := t.sched.nextEntry = e.index + 1
      ∧ t.sched.turnCount = if e.kind = 0 then SMap.put (fun _ => 0) s.sched.turnCount e.port (count + 1) else s.sched.turnCount
    let lead : Int := (T.launch - s.sched.roundStart : Int) * 128 - (T.dur / 2 : Nat)
    let limit := (s.passEntry e).slideLimit T.entry lead (T.dur + u40ns) (some (T.port, T.planOf.window + T.dur))
    (8 * T.energy ≤ s.bankNow8 → Completes .turnDue s (fun t =>
      passed t
      ∧ t.sent = s.sent ++ [.light T.port (if T.brl then 1 else 0) T.launch T.probe]
      ∧ t.src.route = some (T.port, lights, lights + T.dur + u40ns)
      ∧ t.src.bank8 = s.bankNow8 - 8 * T.energy ∧ t.src.bankAt = s.time
      ∧ (T.kind = .rayleigh → ∃ T', t.sched.flight = s.sched.flight ++ [T'] ∧ T'.port = T.port ∧ T'.launch = T.launch
        ∧ T'.skipped = false ∧ T'.regs = s.regs ∧ T'.index = count)
      ∧ (T.brl = true → ∃ T', t.sched.brl = s.sched.brl ++ [T'] ∧ T'.port = T.port ∧ T'.launch = T.launch)
      ∧ s.Frame t [.src, .sched, .streams, .sent] (fun o => o = SRC_TAP_LAST.reg)))
    ∧ (s.bankNow8 < 8 * T.energy → 0 < limit → Completes .turnDue s (fun t =>
      passed t ∧ t.sched.sliding = some ({ T with blanked := s.blankMarked T.port }, s.time) ∧ s.Frame t [.sched] noReg))
    ∧ (s.bankNow8 / 8 < T.energy → limit = 0 → Completes .turnDue s (fun t =>
      passed t ∧ t.sched.skips = s.sched.skips + 1 ∧ t.sent = s.sent
      ∧ t.reg LCH_SKIP_COUNT.reg = s.reg LCH_SKIP_COUNT.reg + 1
      ∧ t.reg (LCH_PORT_SKIP_COUNT.reg T.port) = s.reg (LCH_PORT_SKIP_COUNT.reg T.port) + 1
      ∧ s.Frame t [.sched, .brl] (regsIn [.lch, .brl])))
    ∧ (s.fld LCH_SLACK.SLACK = 0 → limit = 0)

/-- R87, R88, R371: a sliding turn is launched once the estimate covers it, later by as long as it slid, and counted; when its
slide limit runs out it is launched if the estimate then covers it, and skipped otherwise. In a takeover the turn of an entry
whose nominal leading edge occupancies in progress do not leave clear is deferred to the first edge that does: from then on it is
counted and offered, later by its deferral, and the round is lengthened by the largest deferral of its turns. -/
def Obligations.SlidingTurns : Prop :=
  ∀ s : State,
    (∀ T due, s.sched.sliding = some (T, due) → T.kind ≠ .diagnostic →
      let launches (i : Instr) : Prop := Completes i s (fun t =>
        t.sched.sliding = none ∧ t.sched.slides = s.sched.slides + 1
        ∧ t.reg LCH_SLIDE_COUNT.reg = s.reg LCH_SLIDE_COUNT.reg + 1
        ∧ t.sent = s.sent ++ [.light T.port (if T.brl then 1 else 0) (T.launch + (s.time - due)) T.probe]
        ∧ t.src.bank8 = s.bankNow8 - 8 * T.energy
        ∧ s.Frame t [.src, .sched, .streams, .sent] (fun o => o = LCH_SLIDE_COUNT.reg ∨ o = SRC_TAP_LAST.reg))
      (8 * T.energy ≤ s.bankNow8 → launches .slidTurnLaunch ∧ launches .slideLimitExpiry)
      ∧ (s.bankNow8 / 8 < T.energy → exec .slidTurnLaunch s = .next s
        ∧ Completes .slideLimitExpiry s (fun t =>
          t.sched.sliding = none ∧ t.sched.skips = s.sched.skips + 1 ∧ t.sent = s.sent
          ∧ t.reg LCH_SKIP_COUNT.reg = s.reg LCH_SKIP_COUNT.reg + 1
          ∧ t.reg (LCH_PORT_SKIP_COUNT.reg T.port) = s.reg (LCH_PORT_SKIP_COUNT.reg T.port) + 1
          ∧ s.Frame t [.sched, .brl] (regsIn [.lch, .brl]))))
    ∧ ∀ e, s.launching = true → s.sched.sliding = none → s.dueEntry = some e →
      let late := (s.edges e).2 - (s.edges e).1
      let T := s.makeTurn e
      (s.deferred e = true → (s.edges e).2 ≤ s.time → Completes .deferredTakeoverLaunch s (fun t =>
        t.sched.nextEntry = e.index + 1 ∧ t.reg MLK_TKO_DEFER_COUNT.reg = s.reg MLK_TKO_DEFER_COUNT.reg + 1
        ∧ t.sched.defer = max s.sched.defer late
        ∧ (e.onPort = true → bitOf t.sched.deferred e.port = true
          ∧ (8 * T.energy ≤ s.bankNow8 → t.sent = s.sent ++ [.light e.port (if T.brl then 1 else 0) (T.launch + late) T.probe]))
        ∧ (e.onPort = false → 8 * s.diagEnergy ≤ s.bankNow8 → t.reg SRC_DIAG_COUNT.reg = s.reg SRC_DIAG_COUNT.reg + 1)
        ∧ s.Reacts t [.src, .sched, .brl, .streams, .sent] [.brl, .src, .mlk]))
      ∧ (s.deferred e = true → exec .turnDue s = .next s ∧ exec .diagTurn s = .next s)
      ∧ (s.deferred e = false ∨ s.time < (s.edges e).2 → exec .deferredTakeoverLaunch s = .next s)
      ∧ (s.flag MLK_PAIR_STATUS.TKO_ACTIVE = false → s.deferred e = false)

/-- R62–R65, R72, R87–R89: a diagnostic turn launches part A, and part B of its replica 2.2 µs later; where the bank does not cover
it and no slide is left it is missed, counted, owed, and reported unless loads are shed. Its results set SRC_DIAG_STATUS and the
causes of what was found; an energy of part A or of the replica more than 1 dB from its plan fails, and such a turn counts once in
SRC_ENERGY_FAIL_COUNT whichever parts fail. -/
def Obligations.DiagnosticTurns : Prop :=
  ∀ s : State,
    (∀ e, s.launching = true → s.sched.sliding = none → s.dueEntry = some e → e.onPort = false →
      s.deferred e = false →
      let energy := 500 + (match s.nextReplica with | some (_, r) => r.energy | none => 0)
      let partB := match s.nextReplica with
        | some (_, r) => [Emission.light 15 (if r.brl then 1 else 0) (s.time + 880) r.probe]
        | none => []
      (8 * energy ≤ s.bankNow8 → Completes .diagTurn s (fun t =>
        t.sent = s.sent ++ [.light 15 2 s.time { wave := .flat, dur := 102400, peak := 250, edge := none }] ++ partB
        ∧ t.src.bank8 = s.bankNow8 - 8 * energy
        ∧ t.reg SRC_DIAG_COUNT.reg = s.reg SRC_DIAG_COUNT.reg + 1
        ∧ t.fld SRC_DIAG_STATUS.ROUND_LOW = s.ctl.round % 2 ^ 16
        ∧ t.fld SRC_DIAG_STATUS.REPLICA = (match s.nextReplica with | some (i, _) => i % 32 | none => 31)
        ∧ t.sched.diag = some { round := s.ctl.round, replica := s.nextReplica.map (·.1) } ∧ t.sched.diagOwed = false
        ∧ s.Frame t [.src, .sched, .sent] (regsIn [.src])))
      ∧ (s.bankNow8 / 8 < energy → s.fld LCH_SLACK.SLACK = 0 → Completes .diagTurn s (fun t =>
        t.reg LCH_DIAG_MISS_COUNT.reg = s.reg LCH_DIAG_MISS_COUNT.reg + 1 ∧ t.sched.diagOwed = true
        ∧ (s.flag PWR_STATUS.SHED = false → s.Reports t 6)
        ∧ s.Reacts t [] [])))
    ∧ ∀ (f : DiagFind) (d : DiagTurn), s.sched.diag = some d →
      let shed := s.flag PWR_STATUS.SHED
      let off (q nj : Nat) : Prop := 10 * (4 * nj) ^ 10 < q ^ 10 ∨ 10 * q ^ 10 < (4 * nj) ^ 10
      let replicaOff : Prop := ∃ nj, s.replicaEnergy d = some nj ∧ off f.dumpB nj
      let pumpOk (dead found : Bool) : Bool := !dead && (shed || !found)
      Completes (.diagTurnResults f) s (fun t =>
        t.sched.diag = none
        ∧ t.flag SRC_DIAG_STATUS.PUMP0_OK = pumpOk (s.flag SRC_PUMP0_STATUS.OFF) (f.open0 || f.short0)
        ∧ t.flag SRC_DIAG_STATUS.PUMP1_OK = pumpOk (s.flag SRC_PUMP1_STATUS.OFF) (f.open1 || f.short1)
        ∧ (t.flag SRC_DIAG_STATUS.ENERGY_OK = true ↔ ¬ off f.tapA 500 ∧ f.dumpBad = false)
        ∧ (t.flag SRC_DIAG_STATUS.REPLICA_OK = true ↔ ¬ replicaOff)
        ∧ (off f.tapA 500 ∨ replicaOff → t.reg SRC_ENERGY_FAIL_COUNT.reg = s.reg SRC_ENERGY_FAIL_COUNT.reg + 1)
        ∧ (¬ (off f.tapA 500 ∨ replicaOff) → t.reg SRC_ENERGY_FAIL_COUNT.reg = s.reg SRC_ENERGY_FAIL_COUNT.reg)
        ∧ t.flag SRC_DIAG_STATUS.LEAK_OK = !f.leak ∧ t.flag SRC_DIAG_STATUS.LASER_OK = !f.laserBad
        ∧ (off f.tapA 500 → t.flag SRC_FAULT_CAUSE.ENERGY_HIGH = true ∨ t.flag SRC_FAULT_CAUSE.ENERGY_LOW = true)
        ∧ (f.dumpBad = true → t.flag SRC_FAULT_CAUSE.DUMP_PATH = true)
        ∧ (f.leak = true → t.flag SRC_FAULT_CAUSE.SWITCH_LEAK = true)
        ∧ (f.laserBad = true → t.flag SRC_FAULT_CAUSE.LASER_CURRENT = true)
        ∧ (shed = false → f.open0 = true ∨ f.short0 = true → t.flag SRC_PUMP0_STATUS.OFF = true)
        ∧ (shed = false → f.open1 = true ∨ f.short1 = true → t.flag SRC_PUMP1_STATUS.OFF = true)
        ∧ s.Reacts t [] [.src])

/-- R48, R54–R56, R59, R61, R110, R387, R391, R414: the monitors of the source. A tap check records the turn's energy and sets a
cause for each failure, an energy more than 1 dB from plan, a low port tap, which faults the port and raises its event unless the
cause was set already, and leakage. An over-power trip turns the pumps off and parks the switch at the dump. A pump found open or short is shut off; a regulator at its limit is recorded; neither is detected
while loads are shed. A cyclic-redundancy error of a converter link faults every bonded port of the die. -/
def Obligations.SourceMonitors : Prop :=
  ∀ s : State,
    (∀ T ts energy routeLow leak, s.sched.tap = T :: ts →
      let high : Prop := 10 * (4 * T.energy) ^ 10 < energy ^ 10
      let low : Prop := 10 * energy ^ 10 < (4 * T.energy) ^ 10
      let fails : Prop := high ∨ low ∨ routeLow = true ∨ leak = true
      Completes (.tapCheck energy routeLow leak) s (fun t =>
        (t.ctl.dev ≠ .safe → t.sched.tap = ts)
        ∧ t.src.verified = (s.src.verified || !T.apr)
        ∧ (fails → t.reg SRC_TAP_LAST.reg = Word.of (T.port * 2 ^ 28 + 2 ^ 26 + min energy (2 ^ 18 - 1)))
        ∧ (¬ fails → t.reg SRC_TAP_LAST.reg = Word.of (T.port * 2 ^ 28 + min energy (2 ^ 18 - 1)))
        ∧ (high → t.flag SRC_FAULT_CAUSE.ENERGY_HIGH = true) ∧ (low → t.flag SRC_FAULT_CAUSE.ENERGY_LOW = true)
        ∧ (high ∨ low → t.reg SRC_ENERGY_FAIL_COUNT.reg = s.reg SRC_ENERGY_FAIL_COUNT.reg + 1 ∧ s.Reports t 3)
        ∧ (¬ (high ∨ low) → t.reg SRC_ENERGY_FAIL_COUNT.reg = s.reg SRC_ENERGY_FAIL_COUNT.reg)
        ∧ (routeLow = true → t.flag SRC_FAULT_CAUSE.SWITCH_ROUTE = true ∧ t.ctl.deg.port = true ∧ s.Reports t 8
          ∧ (s.flag SRC_FAULT_CAUSE.SWITCH_ROUTE = false → t.evPending T.port))
        ∧ (leak = true → t.flag SRC_FAULT_CAUSE.SWITCH_LEAK = true ∧ s.Reports t 4)
        ∧ s.Reacts t [] [.src]))
    ∧ Completes .overpowerTrip s (fun t =>
        t.src.gate = false ∧ t.src.route = none ∧ t.flag SRC_FAULT_CAUSE.OVERPOWER = true ∧ s.Reports t 0 ∧ s.Reacts t [] [.src])
    ∧ (∀ (p : Fin 2) (short : Bool), s.flag PWR_STATUS.SHED = false →
        let off := if p.val = 0 then SRC_PUMP0_STATUS.OFF else SRC_PUMP1_STATUS.OFF
        s.flag off = false →
        Completes (.pumpOpenShort p short) s (fun t =>
          t.flag off = true
          ∧ t.flag (if short then (if p.val = 0 then SRC_PUMP0_STATUS.SHORT else SRC_PUMP1_STATUS.SHORT)
            else if p.val = 0 then SRC_PUMP0_STATUS.OPEN else SRC_PUMP1_STATUS.OPEN) = true
          ∧ bitOf (t.reg SRC_FAULT_CAUSE.reg).toNat (2 * p.val + if short then 1 else 0) = true
          ∧ s.Reports t 1 ∧ s.Reacts t [] [.src])
        ∧ Completes (.pumpLimit p) s (fun t =>
          t.flag (if p.val = 0 then SRC_PUMP0_STATUS.LIMIT else SRC_PUMP1_STATUS.LIMIT) = true
          ∧ t.flag SRC_FAULT_CAUSE.PUMP_LIMIT = true ∧ s.Reports t 1 ∧ s.Reacts t [] [.src]))
    ∧ (∀ (p : Fin 2) (short : Bool), s.flag PWR_STATUS.SHED = true →
        exec (.pumpOpenShort p short) s = .next s ∧ exec (.pumpLimit p) s = .next s)
    ∧ ∀ die : Fin 2, Completes (.adcLinkError die) s (fun t =>
        (∀ n, n < s.ports → n / 6 = die.val →
          t.flag (PRT_RX_FAULT.ADC_LINK n) = true ∧ t.evPending n ∧ t.ctl.faulted.getLsbD n = true ∧ t.ctl.deg.port = true)
        ∧ s.Reacts t [] [.prt])

/-- R46, R47, R49, R56, R59, R102: the economy gate opens and closes the pumps while ECO_EN = 1 and the device runs, unless they
are shed or a turn slides; a gate of 5 µs or more proves the pumps. The LO-shift synthesiser settles. At a zone boundary within
the turn's BIN_COUNT the TIA code of the port becomes that of the zone, from the settings of the turn's round. -/
def Obligations.GatesAndCodes : Prop :=
  ∀ s : State,
    (s.isRunning = true → s.flag SRC_PUMP_CFG.ECO_EN = true →
      (s.src.shed = false → Completes .pumpGateOpen s (fun t =>
        t.src.gate = true ∧ t.src.bank8 = s.bankNow8 ∧ t.src.bankAt = s.time
        ∧ t.src.gateAt = (if s.src.gate then s.src.gateAt else s.time) ∧ s.Frame t [.src] noReg))
      ∧ (s.src.shed = true → exec .pumpGateOpen s = .next s)
      ∧ (s.sched.sliding = none → s.src.gate = true → Completes .pumpGateClose s (fun t =>
        t.src.gate = false ∧ t.src.bank8 = s.bankNow8 ∧ t.src.bankAt = s.time
        ∧ (2000 ≤ s.time - s.src.gateAt → s.flag PWR_STATUS.SHED = false →
          (s.flag SRC_PUMP0_STATUS.OFF = false → t.flag SRC_PUMP0_STATUS.PROVEN = true)
          ∧ (s.flag SRC_PUMP1_STATUS.OFF = false → t.flag SRC_PUMP1_STATUS.PROVEN = true))
        ∧ s.Frame t [.src] (fun o => o = SRC_PUMP0_STATUS.reg ∨ o = SRC_PUMP1_STATUS.reg)))
      ∧ (s.sched.sliding ≠ none → exec .pumpGateClose s = .next s))
    ∧ Completes .loshiftSettled s (fun t => t.flag SRC_LOSHIFT.SETTLED = true ∧ s.Frame t [] (fun o => o = SRC_LOSHIFT.reg))
    ∧ ∀ (n : Fin 12) (k : Fin 8),
      (∀ T, s.receiving n.val = some T → k.val < (s.withTurn T).zoneCount n.val →
        (s.withTurn T).zoneEdge n.val k.val < T.planOf.bins →
        Completes (.zoneStep n k) s (fun t =>
          let codes := SMap.get resetVal T.regs (if T.brl then PRT_ZONE_GAIN_B.reg n else PRT_ZONE_GAIN_R.reg n)
          t.port n = { s.port n with rx := { (s.port n).rx with tia := codes.toNat / 2 ^ (3 * k.val) % 8 } }
          ∧ (∀ m, m ≠ n.val → t.port m = s.port m)
          ∧ s.Frame t [.streams] noReg))
      ∧ (∀ T, s.receiving n.val = some T → T.planOf.bins ≤ (s.withTurn T).zoneEdge n.val k.val →
        exec (.zoneStep n k) s = .next s)
      ∧ (s.receiving n.val = none → exec (.zoneStep n k) s = .next s)

/-! Frames, captures and the Brillouin engine. -/

/-- R108, R110, R116, R117, R124: the oldest complete frame of a port is taken, with every missing turn before it: none of them is
awaited any more. The largest codes of its window outside the near zone, a clipped one among them, and its local-oscillator monitor are shown; a monitor value below half of its calibrated
value, or a stuck converter, faults the port. A run of missing frames that is not resolved in time is written as GAP, its turns
are no longer awaited, and each of its frames is counted. -/
def Obligations.FramesAndRuns : Prop :=
  ∀ (n : Fin 12) (marks : List FrameMarks) (s : State),
    (∀ (rx : RxIn) (T : Turn), (s.portFlight n).find? (fun x => !x.missing) = some T → T.brl = false →
      let low : Prop := 2 * rx.loX.toNat < T.calFld (PRT_CAL_LO_R.X n) ∨ 2 * rx.loY.toNat < T.calFld (PRT_CAL_LO_R.Y n)
      Completes (.frameComplete n rx marks) s (fun t =>
        (∀ T' ∈ t.sched.flight, T' ∈ s.sched.flight ∧ (T'.port = n.val → T.index < T'.index))
        ∧ t.fld (PRT_PEAK_X.PEAK_I n) = T.rxPeak rx 0 ∧ t.fld (PRT_PEAK_X.PEAK_Q n) = T.rxPeak rx 1
        ∧ t.fld (PRT_PEAK_Y.PEAK_I n) = T.rxPeak rx 2 ∧ t.fld (PRT_PEAK_Y.PEAK_Q n) = T.rxPeak rx 3
        ∧ t.fld (PRT_LO_MON.LO_X n) = rx.loX.toNat ∧ t.fld (PRT_LO_MON.LO_Y n) = rx.loY.toNat
        ∧ t.flag (PRT_LO_MON.SEL n) = false
        ∧ (t.flag (PRT_RX_STATUS.LO_R_OK n) = true ↔ ¬ low)
        ∧ (low → t.flag (PRT_RX_FAULT.LO_LOW_R n) = true)
        ∧ (T.rxStuck rx = true → t.flag (PRT_RX_FAULT.ADC_STUCK n) = true)
        ∧ (low ∨ T.rxStuck rx = true → t.evPending n ∧ t.ctl.faulted.getLsbD n = true ∧ t.ctl.deg.port = true)
        ∧ (T.rxClippedFar rx = true → t.flag (PRT_RX_STATUS.CLIP_SEEN n) = true
          ∧ t.reg (PRT_CLIP_COUNT.reg n) = s.reg (PRT_CLIP_COUNT.reg n) + 1)
        ∧ s.Reacts t [.douts, .streams, .dram, .dmc] [.acr, .blt, .cmp, .dmc, .flt, .prt, .src, .trg]))
    ∧ ∀ k, s.gapCount n = some k → Completes (.missingRunTimeout n marks) s (fun t =>
        (t.port n).ph.gapRun = true
        ∧ (∀ T' ∈ t.sched.flight, T' ∈ s.sched.flight ∧ T' ∉ (s.run n).take k)
        ∧ t.reg (PRT_GAP_FRAME_COUNT.reg n) = s.reg (PRT_GAP_FRAME_COUNT.reg n) + Word.of k
        ∧ s.Reacts t [.douts, .streams, .dram, .dmc] [.acr, .blt, .cmp, .dmc, .flt, .prt, .src, .trg])

/-- R209, R217, R224: a capture that is ready is read out: its region's record number advances, and the unit goes where it was sent
during the readout, primed at once under PRIME_AT_ARM where that is ARMED, else to STOPPED under SINGLE and to ARMED without it, with no record held. A digital output is no longer
held when its hold time is over. -/
def Obligations.CapturesAndOutputs : Prop :=
  ∀ s : State,
    (∀ (u : Fin 16) (r : Nat) (bytes : List Byte), (s.unit u).st = .readout → (s.unit u).record = some (r, bytes) →
      Completes (.captureReadout u) s (fun t =>
        t.capRecs = SMap.put (fun _ => 0) s.capRecs r (SMap.get (fun _ => 0) s.capRecs r + 1)
        ∧ (t.unit u).st = (match (s.unit u).after with
          | some .armed => if s.flag (TRGU_CFG.PRIME_AT_ARM u) then .primed else .armed
          | some st => st
          | none => if s.flag (TRGU_CFG.SINGLE u) then .stopped else .armed)
        ∧ (t.unit u).record = none ∧ (t.unit u).after = none
        ∧ (∀ v : Fin 16, v ≠ u → t.unit v = s.unit v)
        ∧ s.Frame t [.hif, .evr, .saf, .units, .capRecs, .sent] (regsIn [.acr, .cmp, .evr, .hif, .trg])))
    ∧ ∀ k : Fin 4, Completes (.doutHoldExpiry k) s (fun t =>
        t.dout k = { s.dout k with held := false } ∧ (∀ j, j ≠ k.val → t.dout j = s.dout j) ∧ s.Frame t [.douts] noReg)

/-- R155, R163, R164, R168: the oldest Brillouin turn of a port is taken; where the engine does not take it, because it failed, the
LO shift was unsettled or the turn ran at reduced power, it is counted once under that cause. A closed period is fitted in its
turn, when all its Brillouin turns have been taken: it is no longer waiting, its turns are shown, and EV32 is raised. A read of BRL_REF_DATA answers the cell BRL_REF_ADDR names, and reads and
writes advance the address. -/
def Obligations.BrillouinEngine : Prop :=
  ∀ (n : Fin 12) (s : State),
    (∀ (rx : RxIn) (full : Bool) (T : Turn), s.sched.brl.find? (fun x => x.port == n.val) = some T →
      Completes (.brlTurnComplete n rx full) s (fun t =>
        (t.ctl.dev ≠ .safe → t.sched.brl = s.sched.brl.erase T)
        ∧ t.fld (PRT_LO_MON.LO_X n) = rx.loX.toNat ∧ t.fld (PRT_LO_MON.LO_Y n) = rx.loY.toNat
        ∧ t.fld (PRT_PEAK_X.PEAK_I n) = T.rxPeak rx 0 ∧ t.fld (PRT_PEAK_Y.PEAK_Q n) = T.rxPeak rx 3
        ∧ (s.flag BRL_STATUS.FAILED = true → t.reg BRL_DROP_FAILED_COUNT.reg = s.reg BRL_DROP_FAILED_COUNT.reg + 1)
        ∧ (s.flag BRL_STATUS.FAILED = false → s.flag BRL_CFG.EN = true → ((s.brlPort n).periodOf T.round).isSome = true →
          (T.unsettled = true → t.reg BRL_DROP_LOSHIFT_COUNT.reg = s.reg BRL_DROP_LOSHIFT_COUNT.reg + 1)
          ∧ (T.unsettled = false → T.apr = true → t.reg BRL_DROP_APR_COUNT.reg = s.reg BRL_DROP_APR_COUNT.reg + 1))
        ∧ s.Reacts t [.brl, .streams, .dram, .dmc] [.brl, .dmc, .prt, .src]))
    ∧ (∀ (differs : BitVec 16) (c : BrlClose) (cs : List BrlClose), (s.brlPort n).closing = c :: cs →
      (s.fitNext n = false → exec (.brlFitComplete n differs) s = .next s)
      ∧ (s.fitNext n = true → Completes (.brlFitComplete n differs) s (fun t =>
        (t.brlPort n).closing.length = cs.length
        ∧ t.reg (BRL_PORT_LAST_TURNS.reg n) = Word.of c.per.turns
        ∧ t.reg (BRL_PORT_PERIOD_COUNT.reg n) = s.reg (BRL_PORT_PERIOD_COUNT.reg n) + (if (c.per.shape.getD (0, 0, 0)).2.1 = 0 then 0 else 1)
        ∧ t.fld BRL_STATUS.LAST_PORT = n.val ∧ t.evPending 32
        ∧ s.Reacts t [.brl, .douts, .dram, .dmc] [.acr, .brl, .cmp, .trg])))
    ∧ (Memory.wf 0 s.dram = true → s.supply.inReset = false → s.fld BRL_REF_ADDR.PORT = n.val → n.val < s.ports → s.brlReach n = true →
      let c := s.fld BRL_REF_ADDR.CELL
      Completes (.brlRefDataAccess none) s (fun t =>
        t.rdData = s.refEntry false n c ∧ t.fld BRL_REF_ADDR.CELL = (c + 1) % 2 ^ 15
        ∧ t.fld BRL_REF_ADDR.PORT = n.val ∧ s.Frame t [.rdData] (fun o => o = BRL_REF_ADDR.reg))
      ∧ ∀ w : Word, s.isSetup = true →
        Completes (.brlRefDataAccess (some w)) s (fun t =>
          t.fld BRL_REF_ADDR.CELL = (c + 1) % 2 ^ 15 ∧ t.fld BRL_REF_ADDR.PORT = n.val
          ∧ (refInRange w = true → t.refEntry false n c = w &&& 0x80FFFFFF ∧ t.flag (BRL_PORT_STATUS.REF_LOADED n) = true
            ∧ ∀ c', c' < 32768 → c' ≠ c → t.refEntry false n c' =
              if s.flag (BRL_PORT_STATUS.REF_LOADED n) then s.refEntry false n c' else s.refEntry false n c' &&& 0x7FFFFFFF)
          ∧ (refInRange w = false → t.dram = s.dram)
          ∧ s.Frame t [.dram, .dmc] (fun o => o = BRL_REF_ADDR.reg ∨ o = BRL_PORT_STATUS.reg n)))

/-! Rounds. -/

/-- R22, R24, R28, R79, R208, R302, R304, R370, R371, R373: a round start. The first one after START takes the device out of SETUP,
and arms or stops the units that are enabled. In a device that runs, the next round begins at the present instant, in a
belt-locked one not before its tick of R79, and no command of this round or an earlier one is left in
progress; where a STOP command is due, no round begins, every command is completed and the stop is under way. The round start of
a takeover that waits begins the next round. Where no command acts in that round, the configuration that was in force before
the takeover is the home configuration, the takeover is counted, its round is shown, EV50 is raised, and every loop port reads its loop. -/
def Obligations.RoundStarts : Prop :=
  (∀ (refs : List (Fin 12 × List Word)) (s : State),
      let kept (t : State) : Prop := ∀ c ∈ [Comp.time, .supply, .latches, .capRecs, .fuses, .marchMode, .burn, .flash, .qspi,
        .rdData, .rdData2], s.same t c
      let begins (t : State) : Prop :=
        t.ctl.round = s.ctl.nextRound ∧ t.ctl.nextRound = s.ctl.nextRound + 1 ∧ t.sched.roundStart = s.time
        ∧ (∀ c ∈ t.hif.cmds, c ∈ s.hif.cmds ∧ s.ctl.nextRound < c.round) ∧ kept t
      (s.ctl.dev = .setup → s.sched.starting = true → Completes (.roundStart refs) s (fun t =>
        begins t ∧ (t.ctl.dev = .running ∨ t.ctl.dev = .degraded ∨ t.ctl.dev = .safe)
        ∧ (t.ctl.dev ≠ .safe → t.sched.started = true ∧ t.sched.starting = false)
        ∧ ((∀ c ∈ s.hif.cmds, s.ctl.nextRound < c.round) → ∀ u : Fin 16, (t.unit u).st =
          if s.flag (TRGU_CFG.EN u) = false then .off
          else if s.flag (TRGU_CFG.ARM_AT_START u) = false then .stopped
          else if s.flag (TRGU_CFG.PRIME_AT_ARM u) then .primed else .armed)))
      ∧ (s.isRunning = true → s.sched.started = true → s.ctl.stopPending = false → s.mlk.wait = false →
        (s.stopDue = false → s.roundDue = true → Completes (.roundStart refs) s begins)
        ∧ (s.stopDue = false → s.roundDue = false → exec (.roundStart refs) s = .next s)
        ∧ (s.flag LCH_ROUND_CFG.MODE = false → s.roundDue = true)
        ∧ (s.stopDue = true → Completes (.roundStart refs) s (fun t =>
          t.ctl.round = s.ctl.round ∧ t.ctl.nextRound = s.ctl.nextRound ∧ t.hif.cmds = [] ∧ t.ctl.stopPending = true
          ∧ t.flag MLK_PAIR_STATUS.ARMED = false ∧ t.sched.pendingCfg = none ∧ kept t))))
  ∧ (∀ s : State, s.isRunning = true → s.mlk.wait = true → s.ctl.stopPending = false → s.stopDue = false →
      Completes .takeoverRoundStart s (fun t =>
        t.ctl.round = s.ctl.nextRound ∧ t.ctl.nextRound = s.ctl.nextRound + 1 ∧ t.sched.roundStart = s.time
        ∧ t.mlk.wait = false
        ∧ (∀ c ∈ t.hif.cmds, c ∈ s.hif.cmds ∧ s.ctl.nextRound < c.round)
        ∧ ((∀ c ∈ s.hif.cmds, s.ctl.nextRound < c.round) →
          t.mlk.home = some s.homeCfg
          ∧ t.reg MLK_TKO_COUNT.reg = s.reg MLK_TKO_COUNT.reg + 1
          ∧ t.reg64 MLK_TKO_ROUND_LO.reg = s.ctl.nextRound % 2 ^ 48
          ∧ t.evPending 50
          ∧ ∀ n ∈ s.loopPorts, t.flag (BRL_PORT_STATUS.LOOP_ACTIVE n) = true)))

/-! Control of the device, the flash and the registers. -/

/-- R28, R33, R34, R80, R394: START in SETUP checks the configuration: a configuration that fails leaves the device in SETUP with
COMMIT_FAIL; one that passes waits for its first round start, the trigger units off until then. STOP requests the stop and
completes every command. When nothing is left of the last round, the device is in SETUP, or in SAFE where a reaction to that
end takes it there, with every unit off and nothing in flight. ENTER_SAFE takes the device to SAFE with the code 0xFE, from
every state but SAFE, where it has no effect. -/
def Obligations.StartStopAndEnterSafe : Prop :=
  (∀ s : State,
      (s.ctl.dev = .setup → s.supply.inReset = false → s.flag GLB_BOOT_STATUS.RESUMING = false →
        let s1 := (s.putCtl { s.ctl with commitFail := false }).startCfg
        let r := s1.checkCommit none s1.sch
        (r.reason ≠ 0 → Completes .start s (fun t =>
          t.ctl = { s.ctl with commitFail := true } ∧ t.sched = s.sched
          ∧ (s.flag MLK_PAIR_STATUS.TKO_ACTIVE = false → s.Frame t [.ctl, .hif, .sent] (regsIn [.hif, .lch, .dmc]))))
        ∧ (r.reason = 0 → Completes .start s (fun t =>
          t.ctl.commitFail = false ∧ t.ctl.dev = .setup ∧ t.sched.starting = true ∧ t.sched.started = false
          ∧ t.sched.flight = [] ∧ t.sched.pendingCfg = none
          ∧ t.reg AUX_PASS_NUM.reg = 0
          ∧ ∀ c ∈ [Comp.time, .supply, .latches, .src, .tmb, .units, .douts, .blanks, .capRecs, .cores, .fuses, .marchMode, .burn,
            .flash, .qspi, .rdData, .rdData2], s.same t c)))
      ∧ (s.ctl.dev ≠ .setup → exec .start s = .next s)
      ∧ (s.isRunning = true → s.ctl.stopPending = false → Completes .stop s (fun t =>
          t.ctl = { s.ctl with stopPending := true } ∧ t.hif.cmds = [] ∧ t.sched.pendingCfg = none
          ∧ t.flag MLK_PAIR_STATUS.ARMED = false ∧ t.reg LCH_PENDING.reg = 0
          ∧ s.Frame t [.ctl, .hif, .evr, .saf, .sched, .mlk, .sent] (regsIn [.evr, .hif, .lch, .mlk])))
      ∧ (s.isRunning = false → exec .stop s = .next s)
      ∧ (s.isRunning = true → s.ctl.stopPending = true → s.drained = true → Completes .stopComplete s (fun t =>
          (t.ctl.dev = .setup ∨ t.ctl.dev = .safe) ∧ t.ctl.stopPending = false ∧ t.hif.cmds = []
          ∧ t.sched.flight = [] ∧ t.sched.started = false ∧ (∀ u : Fin 16, (t.unit u).st = .off)
          ∧ t.flag MLK_PAIR_STATUS.ARMED = false
          ∧ ∀ c ∈ [Comp.time, .supply, .latches, .tmb, .blanks, .capRecs, .fuses, .marchMode, .burn, .flash, .qspi,
            .rdData, .rdData2], s.same t c)))
  ∧ (∀ s : State, s.supply.inReset = false →
      (s.ctl.dev ≠ .safe → Completes .enterSafe s (fun t => s.EntersSafe t 0xFE))
      ∧ (s.ctl.dev = .safe → exec .enterSafe s = .next s))

/-- R431, R432: a flash operation that passes its check is under way with BUSY set; one that does not ends at once
with its error; none starts while another is under way. At the end of a flash operation READ has copied the bytes to the buffer,
PROGRAM has cleared the bits that the buffer has at 0, and an erase has left the sector 0xFF; every other byte of the flash is
as it was. DONE is set and EV63 raised. After 4 s busy the operation ends with the error TIMEOUT, and only the bytes it touches
may have changed. -/
def Obligations.FlashOperations : Prop :=
  (∀ (s : State) (w : Word), ∀ c ∈ [Instr.qspiRead w, .qspiProgram w, .qspiErase4k w, .qspiErase64k w, .qspiReadId w],
      (s.flag GLB_QSPI_STATUS.BUSY = true → exec c s = .next s)
      ∧ (s.flag GLB_QSPI_STATUS.BUSY = false → GLB_QSPI_CMD.START.get w = 1 →
        let op := GLB_QSPI_CMD.OP.get w
        let addr := (s.reg GLB_QSPI_ADDR.reg).toNat
        let err := (s.setReg GLB_QSPI_CMD.reg w).qspiCheck op addr
        (err = 0 → Completes c s (fun t =>
          t.flag GLB_QSPI_STATUS.BUSY = true
          ∧ t.qspi = { s.qspi with op := some (op, addr, clampNat 1 256 (GLB_QSPI_CMD.LEN.get w)) }
          ∧ s.Frame t [.qspi] (fun o => o = GLB_QSPI_CMD.reg ∨ o = GLB_QSPI_STATUS.reg)))
        ∧ (err ≠ 0 → Completes c s (fun t =>
          t.flag GLB_QSPI_STATUS.BUSY = false ∧ t.flag GLB_QSPI_STATUS.DONE = true ∧ t.fld GLB_QSPI_STATUS.ERR = err
          ∧ t.qspi.op = none ∧ s.Raised t 63
          ∧ s.Frame t [.hif, .qspi, .sent] (fun o => o = GLB_QSPI_CMD.reg ∨ o = GLB_QSPI_STATUS.reg ∨ eventReg o)))))
  ∧ (∀ (s : State) (data : List Byte) (op addr len : Nat), s.qspi.op = some (op, addr, len) → op ≤ 4 → 1 ≤ len → len ≤ 256 →
      let cell (x : State) (a : Nat) : Byte := Memory.byte 0xFF x.flash a
      let sp := s.qspiSpan op addr
      let ended (t : State) (err : Nat) : Prop :=
        t.flag GLB_QSPI_STATUS.BUSY = false ∧ t.flag GLB_QSPI_STATUS.DONE = true ∧ t.fld GLB_QSPI_STATUS.ERR = err
        ∧ t.qspi.op = none ∧ s.Raised t 63
        ∧ s.Frame t [.hif, .flash, .qspi, .sent]
          (fun o => (∃ i, o = GLB_QSPI_BUF.reg i) ∨ o = GLB_QSPI_STATUS.reg ∨ eventReg o)
      Completes (.qspiComplete false data) s (fun t =>
          ended t 0
          ∧ (op = 0 → t.flash = s.flash ∧ ∀ i, i < len → t.qspiByte i = cell s (addr + i))
          ∧ (op = 1 → ∀ a, cell t a = if addr ≤ a ∧ a < addr + len then cell s a &&& s.qspiByte (a - addr) else cell s a)
          ∧ (op = 2 ∨ op = 3 → ∀ a, cell t a = if sp.1 ≤ a ∧ a < sp.1 + sp.2 then 0xFF else cell s a)
          ∧ (op = 4 → t.flash = s.flash ∧ ∀ i (h : i < data.length), i < 3 → t.qspiByte i = data[i]))
      ∧ Completes (.qspiComplete true data) s (fun t =>
          ended t 5
          ∧ (op = 0 ∨ op = 4 → t.flash = s.flash)
          ∧ ∀ a, ¬ (sp.1 ≤ a ∧ a < sp.1 + sp.2) → cell t a = cell s a))

/-- R6, R10, R285: a write of a register of the schedule or of a port acts by the type of each bit: RW bits are stored, W1C bits
written 1 are cleared, RWL bits are stored in BOOT and SETUP and left elsewhere, where a write that would change them is counted
with its offset; RO bits, and the rest of BAR0, stay as they are. An offset that holds no register ignores the write. -/
def Obligations.WritesActByFieldType : Prop :=
  ∀ (off : Nat) (w : Word) (s : State), s.supply.inReset = false → 0x40000 ≤ off → off < 0xC0000 → off % 4 = 0 →
    (rowOf off = none → exec (.registerWrite off w) s = .next s)
    ∧ ∀ r, rowOf off = some r →
      (s.absent off = true → exec (.registerWrite off w) s = .next s)
      ∧ (s.absent off = false →
        (s.isSetup = true → Completes (.registerWrite off w) s (fun t =>
          let v := keepRanged off (s.reg off) w
          (∀ i, i < 32 → (t.reg off).getLsbD i =
            if r.rwl.testBit i then v.getLsbD i
            else if r.w1c.testBit i && v.getLsbD i then false
            else if r.rw.testBit i then v.getLsbD i else (s.reg off).getLsbD i)
          ∧ s.Frame t [] (fun o => o = off)))
        ∧ (s.isSetup = false → Completes (.registerWrite off w) s (fun t =>
          (∀ i, i < 32 → (t.reg off).getLsbD i =
            if r.w1c.testBit i && w.getLsbD i then false
            else if r.rw.testBit i then w.getLsbD i else (s.reg off).getLsbD i)
          ∧ ((∃ i, i < 32 ∧ r.rwl.testBit i = true ∧ w.getLsbD i ≠ (s.reg off).getLsbD i) →
            t.reg HIF_RWL_IGNORED_COUNT.reg = s.reg HIF_RWL_IGNORED_COUNT.reg + 1 ∧ t.reg HIF_RWL_ADDR.reg = Word.of off)
          ∧ ((∀ i, i < 32 → r.rwl.testBit i = true → w.getLsbD i = (s.reg off).getLsbD i) → s.Frame t [] (fun o => o = off))
          ∧ s.Frame t [] (fun o => o = off ∨ o = HIF_RWL_IGNORED_COUNT.reg ∨ o = HIF_RWL_ADDR.reg))))

/-! The scorekeeper and the recorder. -/

/-- R379–R383, R450, R451: an acknowledgement with the key lets go of the latched alarm of a named channel whose cause is gone,
and of no other. A pin test with the key releases the named pins until it ends, tests that start together ending together. A pin is driven again only where nothing
releases it. A hold that is over ends, a lost toggle releases both pins, and a limited driver is marked until its retry. -/
def Obligations.AlarmsAndPins : Prop :=
  ∀ s : State,
    let acks (w : Word) (c : Fin 2) : Prop := (if c = 0 then SAF_ACK.CH0.get w else SAF_ACK.CH1.get w) = 1
    let tests (w : Word) (c : Fin 2) : Prop := (if c = 0 then SAF_PIN_TEST.PIN_A.get w else SAF_PIN_TEST.PIN_B.get w) = 1
    let quiet (t : State) : Prop := s.Frame t [.hif, .evr, .saf, .sent] (regsIn [.evr, .hif])
    (∀ w : Word, (SAF_ACK.KEY.get w = 0x5A → Completes (.safAck w) s (fun t =>
        (∀ c : Fin 2, acks w c → s.causePresent c = false → s.chanBreak c = none → (t.chan c).latched = false)
        ∧ (∀ c : Fin 2, ¬ acks w c ∨ s.causePresent c = true → (s.chan c).latched = true → (t.chan c).latched = true)
        ∧ quiet t))
      ∧ (SAF_ACK.KEY.get w ≠ 0x5A → exec (.safAck w) s = .next s))
    ∧ (∀ w : Word, (SAF_PIN_TEST.KEY.get w = 0x3C → s.isRunning = true → Completes (.safPinTest w) s (fun t =>
        (∀ c : Fin 2, tests w c → (t.chan c).testing = true ∧ (t.chan c).pin = false ∧ t.evPending 53)
        ∧ (∀ c : Fin 2, ¬ tests w c → (t.chan c).testing = (s.chan c).testing)
        ∧ quiet t))
      ∧ (SAF_PIN_TEST.KEY.get w ≠ 0x3C ∨ s.isRunning = false → exec (.safPinTest w) s = .next s))
    ∧ Completes .pinTestEnd s (fun t =>
        (∀ c d : Fin 2, c ≠ d → (t.chan c).testing = ((s.chan c).testing && (s.chan d).testing
          && decide ((s.chan d).testAt < (s.chan c).testAt))) ∧ quiet t)
    ∧ (∀ c : Fin 2, (s.pinRelease c = false → Completes (.pinRedrive c) s (fun t =>
        t.chan c = { s.chan c with pin := true } ∧ (∀ d : Fin 2, d ≠ c → t.chan d = s.chan d) ∧ s.Frame t [.saf] noReg))
      ∧ (s.pinRelease c = true → exec (.pinRedrive c) s = .next s))
    ∧ (∀ c : Fin 2, (s.chan c).brk.isSome = (s.chanBreak c).isSome → Completes (.alarmHoldExpiry c) s (fun t =>
        (t.chan c).holding = false ∧ quiet t))
    ∧ Completes .scorekeeperToggleLoss s (fun t =>
        t.saf.toggle = false ∧ (∀ c : Fin 2, t.chan c = { s.chan c with pin := false }) ∧ s.Frame t [.saf] noReg)
    ∧ (∀ c : Fin 2, (s.flag (SAF_CHAN_CFG.EN c) = true → s.isRunning = true → Completes (.pinReadback c) s (fun t =>
        s.Reports t 0x19 ∧ s.Reacts t [] []))
      ∧ (s.flag (SAF_CHAN_CFG.EN c) = false ∨ s.isRunning = false → exec (.pinReadback c) s = .next s))
    ∧ ∀ o : Fin 6,
        let limited (t : State) (b : Bool) : Prop :=
          (o.val < 4 → t.dout o = { s.dout o with limited := b } ∧ (∀ k, k ≠ o.val → t.dout k = s.dout k) ∧ t.saf = s.saf)
          ∧ (4 ≤ o.val → t.chan (o.val - 4) = { s.chan (o.val - 4) with limited := b } ∧ t.douts = s.douts)
          ∧ s.Frame t [.saf, .douts] noReg
        Completes (.currentLimit o) s (fun t => limited t true) ∧ Completes (.currentLimitRetry o) s (fun t => limited t false)

/-- R387–R389, R391, R393: a known-answer test of a port in the schedule of a device that runs sets the port's TIA code to 7 and is
under way until its result, whose pattern is the round number modulo 16; each result is counted, and one whose CRC differs from
that of its pattern marks the port, faults it and is reported. Each diagnostic of the device reports what it
found: it is counted, and EV54 or EV55 is pending. A diagnostic that only reports is no longer lasting once its window holds fewer
than N events. -/
def Obligations.DiagnosticsAndTests : Prop :=
  ∀ s : State,
    (∀ n : Fin 12, (s.isRunning = true → (Cfg.portEntries s.sch n) ≠ [] → Completes (.katStart n) s (fun t =>
        t.saf = { s.saf with kat := t.saf.kat, katPattern := t.saf.katPattern }
        ∧ (∀ m, m < 12 → t.saf.kat.getLsbD m = if m = n.val then true else s.saf.kat.getLsbD m)
        ∧ (∀ m, SMap.get (fun _ => 0) t.saf.katPattern m =
          if m = n.val then s.ctl.round % 16 else SMap.get (fun _ => 0) s.saf.katPattern m)
        ∧ (t.port n).rx = { (s.port n).rx with loB := (t.port n).rx.loB, tia := 7 }
        ∧ (∀ m, m ≠ n.val → t.port m = s.port m)
        ∧ s.Frame t [.saf, .streams, .freeCtr] noReg))
      ∧ (s.saf.kat.getLsbD n = true → ∀ crc : Word,
        let wanted := Config.katCrc (SMap.get (fun _ => 0) s.saf.katPattern n)
        (crc = wanted → Completes (.katResult n crc) s (fun t =>
          (∀ m, m < 12 → t.saf.kat.getLsbD m = if m = n.val then false else s.saf.kat.getLsbD m)
          ∧ t.reg SAF_KAT_COUNT.reg = s.reg SAF_KAT_COUNT.reg + 1 ∧ s.Frame t [.saf] (fun o => o = SAF_KAT_COUNT.reg)))
        ∧ (crc ≠ wanted → Completes (.katResult n crc) s (fun t =>
          t.saf.kat.getLsbD n = false ∧ t.reg SAF_KAT_COUNT.reg = s.reg SAF_KAT_COUNT.reg + 1
          ∧ bitOf (t.fld SAF_KAT_FAIL.PORTS) n = true ∧ t.evPending n ∧ t.ctl.faulted.getLsbD n = true
          ∧ s.Reports t 0x0A ∧ s.Reacts t [] [])))
      ∧ (s.saf.kat.getLsbD n = false → ∀ crc, exec (.katResult n crc) s = .next s))
    ∧ Completes .lockstepMismatch s (fun t => s.Reports t 0x0E ∧ s.Reacts t [] [])
    ∧ Completes .clockFault s (fun t => s.Reports t 0x10 ∧ s.Reacts t [] [])
    ∧ (∀ (ok bad : Bool) (mem : BitVec 12) (time : Bool), Completes (.safetySweep ok bad mem time) s (fun t =>
        t.flag SAF_STATUS.SK_OK = ok
        ∧ (ok = false → s.Reports t 0x0F) ∧ (bad = true → s.Reports t 0x0D) ∧ (time = true → s.Reports t 0x12)
        ∧ t.reg (SAF_DIAG_COUNT.reg 0x0B) = s.reg (SAF_DIAG_COUNT.reg 0x0B) + Word.of (bitsOf s.ports mem.toNat).length
        ∧ (ok = true → bad = false → mem = 0 → time = false → s.Frame t [] (fun o => o = SAF_STATUS.reg))
        ∧ s.Reacts t [] []))
    ∧ ∀ d : Fin 27, diagReaction d = 0 → s.inWindow d 15 < s.diagN d → Completes (.diagWindowExpiry d) s (fun t =>
        t.diag d 15 = { s.diag d 15 with lasting := false } ∧ (∀ e, e < 27 → e ≠ d.val → t.diag e 15 = s.diag e 15)
        ∧ s.Frame t [.saf] noReg)

/-- R402, R404, R407: the record at the head of the queue is written into the slot of its sequence number, whole, and no other slot
changes; it is counted, it is the newest record, and EV62 is raised. A write that does not verify sets FAIL and is reported. The
operating seconds are saved as they stand. -/
def Obligations.RecorderWrites : Prop :=
  ∀ s : State,
    (∀ (r : EvrRec) (q : List EvrRec), s.evr.queue = r :: q →
      let seq := s.evr.nextSeq
      Completes (.evrRecordWrite none) s (fun t =>
        t.evr.slotBytes (seq % 2048) = recBytes r seq s.evr.cycles
        ∧ (∀ k, k < 2048 → k ≠ seq % 2048 → t.evr.slotBytes k = s.evr.slotBytes k)
        ∧ t.evr.head = seq ∧ t.evr.nextSeq = seq + 1 ∧ t.evr.queue = q
        ∧ t.reg EVR_WRITE_COUNT.reg = s.reg EVR_WRITE_COUNT.reg + 1 ∧ s.Raised t 62
        ∧ s.Frame t [.hif, .evr, .sent] (fun o => o = EVR_WRITE_COUNT.reg ∨ eventReg o))
      ∧ ∀ bs, Completes (.evrRecordWrite (some bs)) s (fun t =>
        t.evr.slotSeq (seq % 2048) = 0 ∧ t.flag EVR_STATUS.FAIL = true ∧ s.Reports t 0x1A
        ∧ (∀ k, k < 2048 → k ≠ seq % 2048 → t.evr.slotBytes k = s.evr.slotBytes k)
        ∧ t.reg EVR_WRITE_COUNT.reg = s.reg EVR_WRITE_COUNT.reg ∧ s.Reacts t [] [.evr]))
    ∧ (s.evr.queue = [] → ∀ fail, exec (.evrRecordWrite fail) s = .next s)
    ∧ Completes .evrOpSave s (fun t => t.evr = { s.evr with opStored := s.opSeconds } ∧ s.Frame t [.evr] noReg)

/-! The host interface. -/

/-- R288, R289, R291–R293: a doorbell gives an enabled ring its tail and the descriptors it posts, and ends a stall; a tail
outside the ring sets DOORBELL_RANGE and raises EV45; a disabled ring ignores it. Enabling a ring clears its indices, status
and record of descriptors, and a head that changes goes to its shadow word; its size stays while it is enabled. A DMA fault disables the ring with DMA_FAULT and EV45. -/
def Obligations.RingControl : Prop :=
  ∀ (r : Fin 32) (s : State),
    (∀ (tail : BitVec 16) (descs : List Desc),
      let n := s.ringPosted r tail.toNat
      let bad : Prop := s.ringSize r < n ∨ n < s.ringPosted r (s.fld (HIF_RING_INDEX.TAIL r))
      (s.flag (HIF_RING_CTRL.EN r) = false → exec (.doorbell r tail descs) s = .next s)
      ∧ (s.flag (HIF_RING_CTRL.EN r) = true → ¬ bad → Completes (.doorbell r tail descs) s (fun t =>
        t.fld (HIF_RING_INDEX.TAIL r) = tail.toNat ∧ t.fld (HIF_RING_INDEX.HEAD r) = s.fld (HIF_RING_INDEX.HEAD r)
        ∧ (t.ring r).posted = descs.take n ∧ (t.ring r).seq = (s.ring r).seq ∧ t.flag (HIF_RING_STATUS.STALLED r) = false
        ∧ (∀ q : Fin 32, q ≠ r → t.ring q = s.ring q)
        ∧ s.Frame t [.hif] (fun o => o = HIF_RING_INDEX.reg r ∨ o = HIF_RING_STATUS.reg r)))
      ∧ (s.flag (HIF_RING_CTRL.EN r) = true → bad → Completes (.doorbell r tail descs) s (fun t =>
        t.fld (HIF_RING_STATUS.ERR_CODE r) = 1 ∧ s.Raised t 45 ∧ t.reg (HIF_RING_INDEX.reg r) = s.reg (HIF_RING_INDEX.reg r)
        ∧ s.Frame t [.hif, .sent] (fun o => o = HIF_RING_STATUS.reg r ∨ eventReg o))))
    ∧ (∀ w : Word, Completes (.ringCtrlWrite r w) s (fun t =>
        t.fld (HIF_RING_CTRL.EN r) = (HIF_RING_CTRL.EN r).get w
        ∧ t.fld (HIF_RING_CTRL.SIZE_LOG2 r) =
          (if s.flag (HIF_RING_CTRL.EN r) then s.fld (HIF_RING_CTRL.SIZE_LOG2 r) else (HIF_RING_CTRL.SIZE_LOG2 r).get w)
        ∧ (s.flag (HIF_RING_CTRL.EN r) = false → t.flag (HIF_RING_CTRL.EN r) = true →
          t.reg (HIF_RING_INDEX.reg r) = 0 ∧ t.reg (HIF_RING_STATUS.reg r) = 0 ∧ t.ring r = {})
        ∧ (s.flag (HIF_RING_CTRL.EN r) = true → t.flag (HIF_RING_CTRL.EN r) = false →
          t.ring r = { s.ring r with posted := [] } ∧ t.reg (HIF_RING_INDEX.reg r) = s.reg (HIF_RING_INDEX.reg r))
        ∧ (s.flag (HIF_RING_CTRL.EN r) = t.flag (HIF_RING_CTRL.EN r) → s.Frame t [] (fun o => o = HIF_RING_CTRL.reg r))
        ∧ (∀ q : Fin 32, q ≠ r → t.ring q = s.ring q)
        ∧ s.Frame t [.hif] (fun o => o = HIF_RING_CTRL.reg r ∨ o = HIF_RING_INDEX.reg r ∨ o = HIF_RING_STATUS.reg r)))
    ∧ (s.flag (HIF_RING_CTRL.EN r) = true → Completes (.hostDmaError r) s (fun t =>
        t.flag (HIF_RING_CTRL.EN r) = false ∧ (t.ring r).posted = [] ∧ t.fld (HIF_RING_STATUS.ERR_CODE r) = 4 ∧ s.Raised t 45
        ∧ s.Frame t [.hif, .sent] (fun o => o = HIF_RING_CTRL.reg r ∨ o = HIF_RING_STATUS.reg r ∨ eventReg o)))
    ∧ (s.flag (HIF_RING_CTRL.EN r) = false → exec (.hostDmaError r) s = .next s)

/-- R290, R298, R331–R333: the oldest block due on a ring is written into the descriptors posted, and each descriptor then written
back in two requests, the word that clears OWN last; it leaves the queue, with head and sequence advanced; where no descriptor is posted, or the ring takes no blocks, it is lost and counted. A compression that ends
leaves the block ready in its place, compressed, or stored where that is no longer; a block that waited too long is stored. -/
def Obligations.BlocksToTheHost : Prop :=
  ∀ s : State,
    (∀ (r : Fin 32) (b : Block) (before after : List Block), takeReady r s.hif.out = some (before, b, after) → b.cap = none →
      b.core = none →
      let head := s.fld (HIF_RING_INDEX.HEAD r)
      let at_ := s.descAddr r head
      (s.ringOpen r = false ∨ (s.ring r).posted = [] → Completes (.blockWrite r) s (fun t =>
        t.hif.out = before ++ after ∧ t.reg (HIF_RING_DISCARD_COUNT.reg r) = s.reg (HIF_RING_DISCARD_COUNT.reg r) + 1
        ∧ (t.ring r).seq = (s.ring r).seq + 1 ∧ (t.ring r).posted = (s.ring r).posted
        ∧ s.Frame t [.hif, .sent] (fun o => o = HIF_RING_DISCARD_COUNT.reg r)))
      ∧ (∀ d ds, r.val < 3 → s.ringOpen r = true → (s.ring r).posted = d :: ds → d.own = true → d.zero = true →
        Completes (.blockWrite r) s (fun t =>
          t.hif.out = before ++ after ∧ t.fld (HIF_RING_INDEX.HEAD r) = (head + 1) % 2 ^ 16
          ∧ t.ring r = { s.ring r with seq := (s.ring r).seq + 1, posted := ds }
          ∧ t.reg (HIF_RING_BLOCK_COUNT.reg r) = s.reg (HIF_RING_BLOCK_COUNT.reg r) + 1
          ∧ (∃ more, t.sent = s.sent
            ++ .hostWrite (at_ + 0) ((bytesToWords (if r.val = 2 then b.hdr ++ leBytes 4 (s.ring r).seq else b.hdr)).flatMap
              (fun w => leBytes 4 w.toNat))
            :: .hostWrite (at_ + 28) [0, 0, 0, 0] :: more)
          ∧ s.Frame t [.hif, .sent] (fun o => o = HIF_RING_INDEX.reg r ∨ o = HIF_RING_BLOCK_COUNT.reg r)))
      ∧ (∀ d ds, 3 ≤ r.val → s.ringOpen r = true → (s.ring r).posted = d :: ds → badDesc false d = none →
        b.size ≤ d.len → Completes (.blockWrite r) s (fun t =>
          t.hif.out = before ++ after ∧ t.fld (HIF_RING_INDEX.HEAD r) = (head + 1) % 2 ^ 16
          ∧ t.ring r = { s.ring r with seq := (s.ring r).seq + 1, posted := ds }
          ∧ (∃ more, t.sent = s.sent ++ .hostWrite d.addr b.bytes
            :: .hostWrite (at_ + 0) ([d.w0, d.w1, d.w2, d.w3, Word.of b.size, Word.of (s.ring r).seq,
              Word.of (3 + ((if b.stored then 4 else 0) + (if b.compressed then 8 else 0) + b.kind * 2 ^ 16))].flatMap
              (fun w => leBytes 4 w.toNat))
            :: .hostWrite (at_ + 28) [0, 0, 0, 0] :: more)
          ∧ s.Frame t [.hif, .sent] (fun o => o = HIF_RING_INDEX.reg r ∨ o = HIF_RING_BLOCK_COUNT.reg r)))
      ∧ (∀ d ds c, s.ringOpen r = true → (s.ring r).posted = d :: ds → badDesc (decide (r.val < 3)) d = some c →
        Completes (.blockWrite r) s (fun t =>
          t.flag (HIF_RING_STATUS.STALLED r) = true ∧ t.fld (HIF_RING_STATUS.ERR_CODE r) = c ∧ t.evPending 45
          ∧ s.Frame t [.hif, .sent] (fun o => o = HIF_RING_STATUS.reg r ∨ eventReg o))))
    ∧ (∀ (e : Fin 4) (before after : List Block) (b : Block), takeEngine e s.hif.out = some (before, b, after) →
      (∀ x ∈ before ++ after, ∀ at_, x.stage ≠ .waiting at_) →
      let z := deflate b.payload
      let short : Prop := z.length < b.payload.length
      let done := { b with stage := .ready, compressed := true, stored := decide (¬ short)
                           stream := if short then z else storedStream b.payload }
      ({ s with hif := { s.hif with out := before ++ after } }.outBytes + done.size ≤ outCapacity) → b.stored = false →
      Completes (.compressComplete e) s (fun t =>
        t.hif.out = before ++ done :: after
        ∧ bitOf (t.fld CMP_ENGINE_BUSY.BUSY) e = false
        ∧ t.reg CMP_STORED_COUNT.reg = s.reg CMP_STORED_COUNT.reg + (if short then 0 else 1)
        ∧ t.reg64 CMP_OUT_BYTES_LO.reg = (s.reg64 CMP_OUT_BYTES_LO.reg + done.stream.length) % 2 ^ 64
        ∧ s.Frame t [.hif] (fun o => o = CMP_ENGINE_BUSY.reg ∨ o = CMP_STORED_COUNT.reg ∨ pairAt CMP_OUT_BYTES_LO.reg o)))
    ∧ ∀ (before after : List Block) (b : Block), takeWaiting s.hif.out = some (before, b, after) →
      let done := { b with stage := .ready, compressed := true, stored := true, stream := storedStream b.payload }
      ({ s with hif := { s.hif with out := before ++ after } }.outBytes + done.size ≤ outCapacity) →
      Completes .cmpBypass s (fun t =>
        t.hif.out = before ++ done :: after
        ∧ t.reg CMP_BYPASS_COUNT.reg = s.reg CMP_BYPASS_COUNT.reg + 1
        ∧ t.reg64 CMP_OUT_BYTES_LO.reg = (s.reg64 CMP_OUT_BYTES_LO.reg + done.stream.length) % 2 ^ 64
        ∧ s.Frame t [.hif] (fun o => o = CMP_BYPASS_COUNT.reg ∨ pairAt CMP_OUT_BYTES_LO.reg o))

/-- R9, R11, R283, R312–R314, R316: a read of the low word of a pair answers it and latches the high word; an access that BAR0 does
not answer, and an AER error, raise EV47. Raises merged in a hold-off become one record and the
hold-off runs again; without any it ends. A vector pending at the end of its hold-off, or when it is unmasked, is sent. -/
def Obligations.ReadsAndInterrupts : Prop :=
  ∀ s : State,
    (∀ off, isPairLo off = true → Completes (.loWordRead off) s (fun t =>
        t.rdData = s.readReg off ∧ SMap.get (fun _ => 0) t.latches off = s.readReg (off + 4)
        ∧ (∀ o, o ≠ off → SMap.get (fun _ => 0) t.latches o = SMap.get (fun _ => 0) s.latches o)
        ∧ s.Frame t [.latches, .rdData] noReg))
    ∧ Completes (.bar0BadAccess false) s (fun t => t.rdData = 0 ∧ s.Raised t 47 ∧ s.Frame t [.hif, .rdData, .sent] eventReg)
    ∧ Completes (.bar0BadAccess true) s (fun t => s.Raised t 47 ∧ s.Frame t [.hif, .sent] eventReg)
    ∧ (∀ kind, Completes (.aerError kind) s (fun t => s.Raised t 47 ∧ s.Frame t [.hif, .sent] eventReg))
    ∧ (∀ q : Fin 64, (s.evHold q).running = true →
        Completes (.eventHoldoffExpiry q) s (fun t =>
          (t.evHold q).running = decide (0 < (s.evHold q).merged) ∧ (t.evHold q).merged = 0
          ∧ (s.hif.d3hot = false → t.hif.out = s.hif.out ++
            if (s.evHold q).merged = 0 then []
            else [{ ring := 2, hdr := eventRecord q (s.evHold q).merged (s.evHold q).detail (s.evHold q).time (s.evHold q).round }])
          ∧ (∀ p : Fin 64, p ≠ q → t.evHold p = s.evHold p)
          ∧ s.Frame t [.hif, .sent] (fun o => o = HIF_RING_DISCARD_COUNT.reg 2)))
    ∧ (∀ v : Fin 32, s.vecMasked v = false → s.hif.d3hot = false →
        Completes (.msixHoldoffExpiry v) s (fun t =>
          t.sent = s.sent ++ (if s.hif.vecPend.getLsbD v then [.msix v] else [])
          ∧ t.hif.vecPend.getLsbD v = false
          ∧ (t.hif.vecHold.getLsbD v = true ↔ s.hif.vecPend.getLsbD v = true ∧ s.fld (HIF_VEC_MOD.HOLDOFF_US v) ≠ 0)
          ∧ (∀ u : Fin 32, u ≠ v → t.hif.vecPend.getLsbD u = s.hif.vecPend.getLsbD u
            ∧ t.hif.vecHold.getLsbD u = s.hif.vecHold.getLsbD u)
          ∧ s.Frame t [.hif, .sent] noReg))
    ∧ ∀ v : Fin 32, s.vecMasked v = true →
        Completes (.msixUnmask v) s (fun t =>
          t.vecMasked v = false
          ∧ (s.hif.pba.getLsbD v = false → t.sent = s.sent)
          ∧ (s.hif.pba.getLsbD v = true → t.hif.pba.getLsbD v = false
            ∧ (s.hif.d3hot = false → s.hif.vecHold.getLsbD v = false → t.sent = s.sent ++ [.msix v])
            ∧ (s.hif.d3hot = true ∨ s.hif.vecHold.getLsbD v = true → t.sent = s.sent ∧ t.hif.vecPend.getLsbD v = true))
          ∧ (∀ u : Fin 32, u ≠ v → t.vecMasked u = s.vecMasked u)
          ∧ s.Frame t [.hif, .sent] noReg)

/-! The DRAM controller. -/

/-- R268–R278: requests of the clients wait until the controller, READY, serves the one of lowest rank. A write stores its bytes and
no others, and lies in the write queue. A read waits for the queued writes of its blocks, and is checked: one flipped bit of a word
is corrected and counted with its address; more freeze the controller, tell the client, the channel and the syndrome, and fail its
clients. A read of BAR2 answers the memory. Promotions and postponed refreshes are counted, no more than 8 being postponed. A set
point that cannot be changed at once is deferred, and comes into force when it can. -/
def Obligations.MemoryController : Prop :=
  ∀ s : State, s.dramServes = true →
    let idle : Prop := s.fld DMC_STATUS.STATE = dmcReady ∧ s.dmc.reqs = [] ∧ s.dmc.retrain = none
    let checked (client : Nat) (found : List (Nat × BitVec 72)) (t : State) : Prop :=
      match found.find? (fun e => decide (1 < weight e.2)) with
      | none => t.reg DMC_ECC_CE_COUNT.reg = s.reg DMC_ECC_CE_COUNT.reg + Word.of found.length
        ∧ (found = [] → t.reg64 DMC_ECC_CE_ADDR_LO.reg = s.reg64 DMC_ECC_CE_ADDR_LO.reg)
        ∧ (∀ e, found.getLast? = some e → t.reg64 DMC_ECC_CE_ADDR_LO.reg = e.1 % 2 ^ 64
          ∧ (s.fld DMC_ECC_CFG.CE_THRESH ≤ 1 → t.evPending 38))
        ∧ t.fld DMC_STATUS.STATE = dmcReady
      | some e => t.fld DMC_STATUS.STATE = dmcFrozen ∧ t.flag BRL_STATUS.FAILED = true ∧ t.flag BLT_STATUS.FAILED = true
        ∧ t.reg DMC_FREEZE_INFO.reg =
          Word.of (2 ^ 31 + client % 8 * 2 ^ 28 + s.dramChannel e.1 * 2 ^ 26 + (Config.syndrome e.2).toNat % 256)
        ∧ t.reg64 DMC_FREEZE_ADDR_LO.reg = e.1 % 2 ^ 64 ∧ t.evPending 39 ∧ t.ctl.dramFailed = true ∧ t.ctl.deg.dram = true
        ∧ s.Reports t 0x13
    let waited (blocks : List Nat) (t : State) : Prop :=
      t.reg DMC_RAW_WAIT_COUNT.reg = s.reg DMC_RAW_WAIT_COUNT.reg + (if s.dmc.writeQ.any blocks.contains then 1 else 0)
      ∧ ∀ b ∈ t.dmc.writeQ, b ∉ blocks
    let readFrame (t : State) (cs : List Comp) : Prop :=
      t.dram = s.dram ∧ s.Reacts t ([.brl, .dmc] ++ cs) [.acr, .blt, .brl, .dmc, .trg]
    (∀ (c : Fin 7) (a : Nat) (op : DramOp), s.fld DMC_STATUS.STATE ≠ dmcReady →
      Completes (.dramRequest (some (c, a, op)) []) s (fun t =>
        t.dmc = { s.dmc with reqs := s.dmc.reqs ++ [{ client := c, addr := a, op := op, since := s.time }] }
        ∧ s.Frame t [.dmc] noReg))
    ∧ (∀ r rest, s.pickReq = some (r, rest) → rest = s.dmc.reqs.erase r ∧ r ∈ s.dmc.reqs ∧ s.reqOpen r = true
        ∧ ∀ x ∈ s.dmc.reqs, s.reqOpen x = true → r.rank ≤ x.rank)
    ∧ (∀ (c : Fin 7) (a : Nat) (ups : DramUpsets), idle →
      (∀ bs, a + bs.length ≤ s.part.dramBytes → Completes (.dramRequest (some (c, a, .write bs)) ups) s (fun t =>
        (∀ (i : Nat) (h : i < bs.length), Memory.byte 0 t.dram (a + i) = bs[i])
        ∧ (∀ b, b < a ∨ a + bs.length ≤ b → Memory.byte 0 t.dram b = Memory.byte 0 s.dram b)
        ∧ t.dmc.reqs = [] ∧ t.dmc.findings a bs.length = [] ∧ t.dmc.writeQ.length ≤ 64
        ∧ s.Frame t [.dram, .dmc] noReg))
      ∧ ∀ n, Completes (.dramRequest (some (c, a, .read n)) ups) s (fun t =>
        checked c ((s.dramUpset ups).dmc.findings a n) t
        ∧ waited (DramReq.blocks { client := c, addr := a, op := .read n, since := s.time }) t
        ∧ t.dmc.reqs = [] ∧ readFrame t [.dram, .rdData, .rdData2]))
    ∧ (∀ a ups late, idle → s.fld DMC_CFG.SCRUB_H ≠ 0 → Completes (.scrubRead a ups late) s (fun t =>
        let found := (s.dramUpset ups).dmc.findings (a / 64 * 64) 64
        checked 6 found t
        ∧ (found.find? (fun e => decide (1 < weight e.2)) = none → t.dmc.findings (a / 64 * 64) 64 = [])
        ∧ t.reg (DMC_CLIENT_OVERRUN_COUNT.reg 6) = s.reg (DMC_CLIENT_OVERRUN_COUNT.reg 6) + (if late then 1 else 0)
        ∧ readFrame t [.dram]))
    ∧ (∀ (off size : Nat) ups, idle → size = 4 ∨ size = 8 → off % size = 0 →
        let a := s.bar2Base + off % 2 ^ 26
        let found := (s.dramUpset ups).dmc.findings a size
        a < s.part.dramBytes → Completes (.bar2Read off size false ups) s (fun t =>
          checked 5 found t
          ∧ (found.find? (fun e => decide (1 < weight e.2)) = none →
            t.rdData = Word.of (Memory.readLE 0 s.dram a 4)
            ∧ t.rdData2 = if size = 8 then Word.of (Memory.readLE 0 s.dram (a + 4) 4) else s.rdData2)
          ∧ readFrame t [.dram, .rdData, .rdData2]))
    ∧ (∀ off size write ups, write = true ∨ (size ≠ 4 ∧ size ≠ 8) ∨ off % size ≠ 0 →
        Completes (.bar2Read off size write ups) s (fun t => s.Raised t 47 ∧ s.Frame t [.hif, .dmc, .sent] eventReg))
    ∧ (∀ (before after : List DramReq) (x : DramReq), s.dmc.reqs = before ++ x :: after → x.client = 5 → x.promoted = false →
        (∀ y ∈ before, y.client = 5 → y.promoted = true) → Completes .bar2Promotion s (fun t =>
          t.dmc = { s.dmc with reqs := before ++ { x with promoted := true } :: after }
          ∧ t.reg (DMC_CLIENT_OVERRUN_COUNT.reg 5) = s.reg (DMC_CLIENT_OVERRUN_COUNT.reg 5) + 1
          ∧ s.Frame t [.dmc] (fun o => o = DMC_CLIENT_OVERRUN_COUNT.reg 5)))
    ∧ ((∀ y ∈ s.dmc.reqs, y.client = 5 → y.promoted = true) → exec .bar2Promotion s = .next s)
    ∧ (∀ (ch : Fin 4) (pair : Fin 8) (issued : Fin 10), ch.val < s.part.channels →
        let k := 8 * ch.val + pair.val
        let n := SMap.get (fun _ => 0) s.dmc.postponed k
        let after (t : State) (m : Nat) : Prop :=
          ∀ j, SMap.get (fun _ => 0) t.dmc.postponed j = if j = k then m else SMap.get (fun _ => 0) s.dmc.postponed j
        let kept : Prop := issued.val = 0 ∧ s.pairBusy ch pair = true ∧ n < 8
        (kept → Completes (.dramRefresh ch pair issued) s (fun t =>
          after t (n + 1) ∧ t.reg DMC_REFRESH_POSTPONE_COUNT.reg = s.reg DMC_REFRESH_POSTPONE_COUNT.reg + 1
          ∧ s.Frame t [.dmc] (fun o => o = DMC_REFRESH_POSTPONE_COUNT.reg)))
        ∧ (¬ kept → Completes (.dramRefresh ch pair issued) s (fun t =>
          after t (n + 1 - max 1 issued.val) ∧ s.Frame t [.dmc] noReg)))
    ∧ (∀ (ch : Fin 4) (temp : Int),
        (ch.val < s.part.channels → s.dmc.retrain = none → s.fld DMC_STATUS.STATE = dmcReady →
          Completes (.dramRetrain ch temp) s (fun t =>
            t.dmc = { s.dmc with retrain := some (ch.val, s.time), temps := t.dmc.temps }
            ∧ SMap.get (fun _ => 0) t.dmc.temps ch.val = temp ∧ s.Frame t [.dmc] noReg))
        ∧ (s.dmc.retrain.isSome = true → exec (.dramRetrain ch temp) s = .next s))
    ∧ (s.fld DMC_STATUS.STATE = dmcFspChange → Completes .fspChange s (fun t =>
        t.fld DMC_STATUS.FSP_CUR = s.fld DMC_CFG.FSP ∧ t.fld DMC_STATUS.STATE = s.dmc.back % 16
        ∧ s.Frame t [] (fun o => o = DMC_STATUS.reg)))
    ∧ (s.fld DMC_STATUS.STATE ≠ dmcFspChange → exec .fspChange s = .next s)
    ∧ (idle → s.flag DMC_CFG.SR_EN = true → Completes .selfRefreshEntry s (fun t =>
        t.fld DMC_STATUS.STATE = dmcSelfRefresh ∧ t.reg DMC_SR_ENTRY_COUNT.reg = s.reg DMC_SR_ENTRY_COUNT.reg + 1
        ∧ t.dmc = { s.dmc with writeQ := [] }
        ∧ s.Frame t [.dmc] (fun o => o = DMC_SR_ENTRY_COUNT.reg ∨ o = DMC_STATUS.reg)))
    ∧ (s.dmc.reqs ≠ [] ∨ s.flag DMC_CFG.SR_EN = false → exec .selfRefreshEntry s = .next s)
    ∧ (∀ waited, s.fld DMC_STATUS.STATE = dmcSelfRefresh → Completes (.selfRefreshExit waited) s (fun t =>
        t.fld DMC_STATUS.STATE = (if s.flag DMC_STATUS.FSP_PENDING then dmcFspChange else dmcReady)
        ∧ (s.flag DMC_STATUS.FSP_PENDING = true → t.dmc = { s.dmc with back := dmcReady })
        ∧ t.reg DMC_SR_WAKE_WAIT_COUNT.reg = s.reg DMC_SR_WAKE_WAIT_COUNT.reg + Word.of waited
        ∧ t.flag DMC_STATUS.FSP_PENDING = false
        ∧ s.Frame t [.dmc] (fun o => o = DMC_SR_WAKE_WAIT_COUNT.reg ∨ o = DMC_STATUS.reg)))
    ∧ ∀ w : Word, s.isSetup = true → Completes (.fspWrite w) s (fun t =>
        t.fld DMC_CFG.FSP = DMC_CFG.FSP.get w ∧ t.flag DMC_CFG.SR_EN = decide (DMC_CFG.SR_EN.get w = 1)
        ∧ (DMC_CFG.FSP.get w ≠ s.fld DMC_STATUS.FSP_CUR →
          (s.trainingNow = true ∨ s.fld DMC_STATUS.STATE = dmcSelfRefresh →
            t.flag DMC_STATUS.FSP_PENDING = true ∧ t.reg DMC_FSP_DEFER_COUNT.reg = s.reg DMC_FSP_DEFER_COUNT.reg + 1
            ∧ t.fld DMC_STATUS.STATE = s.fld DMC_STATUS.STATE)
          ∧ (s.trainingNow = false → s.fld DMC_STATUS.STATE = dmcReady →
            t.fld DMC_STATUS.STATE = dmcFspChange ∧ t.dmc.back = dmcReady ∧ t.flag DMC_STATUS.FSP_PENDING = false
            ∧ t.reg DMC_FSP_DEFER_COUNT.reg = s.reg DMC_FSP_DEFER_COUNT.reg))
        ∧ (DMC_CFG.FSP.get w = s.fld DMC_STATUS.FSP_CUR → t.reg DMC_STATUS.reg = s.reg DMC_STATUS.reg)
        ∧ s.Frame t [.dmc] (fun o => o = DMC_CFG.reg ∨ o = DMC_FSP_DEFER_COUNT.reg ∨ o = DMC_STATUS.reg))
end

