-- ==== Sys2Proof/Laws/SMap.lean ====
section
/-!
SUPPORT. Sparse maps and memories: what a read gives after a write, and that every operation keeps the canonical form.
-/
namespace Sys2Proof.Machine

variable {α : Type} [DecidableEq α] {d : Nat → α}

omit [DecidableEq α] in
/-- A removed key reads its default. -/
theorem SMap.get_del_eq (m : SMap α) (k : Nat) : SMap.get d (SMap.del m k) k = d k := by
  induction m with
  | nil => rfl
  | cons e t ih =>
    simp only [SMap.del]
    split
    · exact ih
    · rename_i h; simp [SMap.get, h, ih]

omit [DecidableEq α] in
/-- A removal leaves every other key as it was. -/
theorem SMap.get_del_ne (m : SMap α) (k : Nat) {j : Nat} (h : j ≠ k) : SMap.get d (SMap.del m k) j = SMap.get d m j := by
  induction m with
  | nil => rfl
  | cons e t ih =>
    simp only [SMap.del]
    split
    · rename_i he; subst he; simp [SMap.get, ih, Ne.symm h]
    · simp [SMap.get, ih]

/-- A write leaves every other key as it was. -/
theorem SMap.get_put_ne (m : SMap α) (k : Nat) (v : α) {j : Nat} (h : j ≠ k) :
    SMap.get d (SMap.put d m k v) j = SMap.get d m j := by
  induction m with
  | nil => simp only [SMap.put]; split <;> simp [SMap.get, Ne.symm h]
  | cons e t ih =>
    obtain ⟨k', v'⟩ := e
    simp only [SMap.put]
    split
    · simp [SMap.get, ih]
    · split
      · rename_i _ he
        subst he
        split <;> simp [SMap.get, Ne.symm h, SMap.get_del_ne _ _ h]
      · split <;> simp [SMap.get, Ne.symm h, SMap.get_del_ne _ _ h]

omit [DecidableEq α] in
/-- A key at or below the bound of a canonical tail is not listed. -/
theorem SMap.get_of_lt [DecidableEq α] (m : SMap α) (lo k : Nat) (hw : SMap.wfFrom d (some lo) m = true) (h : k ≤ lo) :
    SMap.get d m k = d k := by
  induction m generalizing lo with
  | nil => rfl
  | cons e t ih =>
    obtain ⟨k', v'⟩ := e
    simp only [SMap.wfFrom, Bool.and_eq_true, decide_eq_true_eq] at hw
    have hne : k' ≠ k := by omega
    simp only [SMap.get, hne, if_false]
    exact ih k' hw.2 (by omega)

/-- A map that is canonical above a bound is canonical above a smaller one. -/
theorem SMap.wfFrom_mono (m : SMap α) {lo lo' : Option Nat} (hw : SMap.wfFrom d lo m = true)
    (h : ∀ l', lo' = some l' → ∃ l, lo = some l ∧ l' ≤ l) : SMap.wfFrom d lo' m = true := by
  cases m with
  | nil => rfl
  | cons e t =>
    obtain ⟨k, v⟩ := e
    simp only [SMap.wfFrom, Bool.and_eq_true] at hw ⊢
    refine ⟨⟨?_, hw.1.2⟩, hw.2⟩
    cases lo' with
    | none => rfl
    | some l' =>
      obtain ⟨l, rfl, hl⟩ := h l' rfl
      have := hw.1.1
      simp only [decide_eq_true_eq] at this ⊢
      omega

omit [DecidableEq α] in
/-- A key at or below the bound of a canonical tail is not there to remove. -/
theorem SMap.del_of_lt [DecidableEq α] (m : SMap α) (lo k : Nat) (hw : SMap.wfFrom d (some lo) m = true) (h : k ≤ lo) :
    SMap.del m k = m := by
  induction m generalizing lo with
  | nil => rfl
  | cons e t ih =>
    obtain ⟨k', v'⟩ := e
    simp only [SMap.wfFrom, Bool.and_eq_true, decide_eq_true_eq] at hw
    have hne : k' ≠ k := by omega
    simp only [SMap.del, hne, if_false]
    rw [ih k' hw.2 (by omega)]

/-- A write keeps the canonical form above a bound below its key. -/
theorem SMap.wfFrom_put (m : SMap α) (k : Nat) (v : α) (lo : Option Nat) (hw : SMap.wfFrom d lo m = true)
    (hk : ∀ l, lo = some l → l < k) : SMap.wfFrom d lo (SMap.put d m k v) = true := by
  induction m generalizing lo with
  | nil =>
    simp only [SMap.put]
    split
    · rfl
    · rename_i hv
      cases lo with
      | none => simp [SMap.wfFrom, hv]
      | some l => simp [SMap.wfFrom, hv, hk l rfl]
  | cons e t ih =>
    obtain ⟨k', v'⟩ := e
    simp only [SMap.wfFrom, Bool.and_eq_true] at hw
    obtain ⟨⟨h1, h2⟩, h3⟩ := hw
    simp only [SMap.put]
    split
    · rename_i hlt
      simp only [SMap.wfFrom, Bool.and_eq_true]
      exact ⟨⟨h1, h2⟩, ih (some k') h3 (fun l hl => by cases hl; exact hlt)⟩
    · split
      · rename_i _ he
        subst he
        split
        · rw [SMap.del_of_lt t k' k' h3 (Nat.le_refl _)]
          refine SMap.wfFrom_mono t h3 (fun l' hl' => ⟨k', rfl, ?_⟩)
          subst hl'
          exact Nat.le_of_lt (hk l' rfl)
        · rename_i hv
          simp only [SMap.wfFrom, Bool.and_eq_true]
          refine ⟨⟨?_, by simp [hv]⟩, h3⟩
          cases lo with
          | none => rfl
          | some l => simp [hk l rfl]
      · rename_i hlt hne
        split
        · rw [SMap.del_of_lt t k' k h3 (by omega)]
          simp only [SMap.wfFrom, Bool.and_eq_true]
          exact ⟨⟨h1, h2⟩, h3⟩
        · rename_i hv
          simp only [SMap.wfFrom, Bool.and_eq_true]
          refine ⟨⟨?_, by simp [hv]⟩, ⟨by simp; omega, h2⟩, h3⟩
          cases lo with
          | none => rfl
          | some l => simp [hk l rfl]

/-- A write keeps the canonical form. -/
theorem SMap.put_wf {m : SMap α} (k : Nat) (v : α) (hw : SMap.wf d m = true) : SMap.wf d (SMap.put d m k v) = true :=
  SMap.wfFrom_put m k v none hw (fun _ h => by cases h)

/-- A read after a write to the same key gives the value written. -/
@[simp] theorem SMap.get_put_eq (m : SMap α) (k : Nat) (v : α) : SMap.get d (SMap.put d m k v) k = v := by
  induction m with
  | nil => simp only [SMap.put]; split <;> simp_all [SMap.get]
  | cons e t ih =>
    obtain ⟨k', v'⟩ := e
    simp only [SMap.put]
    split
    · rename_i hlt
      have hne : k' ≠ k := by omega
      simp only [SMap.get, hne, if_false]
      exact ih
    · split
      · split
        · rename_i hv; rw [hv]; exact SMap.get_del_eq t k
        · simp [SMap.get]
      · rename_i _ hne
        split
        · rename_i hv
          have : k' ≠ k := hne
          simp only [SMap.get, this, if_false]
          rw [hv]
          exact SMap.get_del_eq t k
        · simp [SMap.get]

/-- A read after a write. -/
theorem SMap.get_put (m : SMap α) (k : Nat) (v : α) (j : Nat) :
    SMap.get d (SMap.put d m k v) j = if j = k then v else SMap.get d m j := by
  split
  · rename_i h; subst h; exact SMap.get_put_eq m j v
  · rename_i h; exact SMap.get_put_ne m k v h

/-- Removing entries keeps the canonical form above a bound. -/
theorem SMap.wfFrom_filter (p : Nat × α → Bool) (m : SMap α) (lo : Option Nat) (hw : SMap.wfFrom d lo m = true) :
    SMap.wfFrom d lo (List.filter p m) = true := by
  induction m generalizing lo with
  | nil => rfl
  | cons e t ih =>
    obtain ⟨k, v⟩ := e
    simp only [SMap.wfFrom, Bool.and_eq_true] at hw
    simp only [List.filter]
    split
    · simp only [SMap.wfFrom, Bool.and_eq_true]
      exact ⟨hw.1, ih (some k) hw.2⟩
    · refine SMap.wfFrom_mono _ (ih (some k) hw.2) (fun l' hl' => ⟨k, rfl, ?_⟩)
      subst hl'
      have := hw.1.1
      simp only [decide_eq_true_eq] at this
      omega

/-- Removing entries keeps the canonical form. -/
theorem SMap.filter_wf {m : SMap α} (p : Nat × α → Bool) (hw : SMap.wf d m = true) : SMap.wf d (List.filter p m) = true :=
  SMap.wfFrom_filter p m none hw

/-- A map whose keys rise stays so when its values change; the filter removes defaults. -/
theorem SMap.wfFrom_mapVals (f : α → α) (m : SMap α) (lo : Option Nat) (hw : SMap.wfFrom d lo m = true) :
    SMap.wfFrom d lo (SMap.mapVals d f m) = true := by
  induction m generalizing lo with
  | nil => rfl
  | cons e t ih =>
    obtain ⟨k, v⟩ := e
    simp only [SMap.wfFrom, Bool.and_eq_true] at hw
    have hstep := ih (some k) hw.2
    simp only [SMap.mapVals] at hstep ⊢
    simp only [List.map, List.filter]
    split
    · rename_i hv
      simp only [SMap.wfFrom, Bool.and_eq_true]
      exact ⟨⟨hw.1.1, hv⟩, hstep⟩
    · refine SMap.wfFrom_mono _ hstep (fun l' hl' => ⟨k, rfl, ?_⟩)
      subst hl'
      have := hw.1.1
      simp only [decide_eq_true_eq] at this
      omega

/-- Changing every listed value keeps the canonical form. -/
theorem SMap.mapVals_wf {m : SMap α} (f : α → α) (hw : SMap.wf d m = true) : SMap.wf d (SMap.mapVals d f m) = true :=
  SMap.wfFrom_mapVals f m none hw

omit [DecidableEq α] in
/-- The empty map is canonical. -/
theorem SMap.nil_wf [DecidableEq α] : SMap.wf d ([] : SMap α) = true := rfl

/-! Memories. -/

/-- A byte write keeps the canonical form. -/
theorem Memory.setByte_wf {b : Byte} {m : Memory} (a : Nat) (v : Byte) (h : Memory.wf b m = true) :
    Memory.wf b (Memory.setByte b m a v) = true := SMap.put_wf a v h

/-- A write of consecutive bytes keeps the canonical form. -/
theorem Memory.setBytes_wf {b : Byte} {m : Memory} (a : Nat) (bs : List Byte) (h : Memory.wf b m = true) :
    Memory.wf b (Memory.setBytes b m a bs) = true := by
  induction bs generalizing m a with
  | nil => exact h
  | cons v t ih => exact ih (a + 1) (Memory.setByte_wf a v h)

/-- A little-endian write keeps the canonical form. -/
theorem Memory.writeLE_wf {b : Byte} {m : Memory} (a n x : Nat) (h : Memory.wf b m = true) :
    Memory.wf b (Memory.writeLE b m a n x) = true := Memory.setBytes_wf a (leBytes n x) h

/-- Clearing a range keeps the canonical form. -/
theorem Memory.clearRange_wf {b : Byte} {m : Memory} (a n : Nat) (h : Memory.wf b m = true) :
    Memory.wf b (Memory.clearRange m a n) = true := SMap.filter_wf _ h

/-- A write of consecutive bytes leaves every byte outside them as it was. -/
theorem Memory.byte_setBytes_ne (b : Byte) (m : Memory) (a : Nat) (bs : List Byte) (j : Nat)
    (h : j < a ∨ a + bs.length ≤ j) : Memory.byte b (Memory.setBytes b m a bs) j = Memory.byte b m j := by
  induction bs generalizing m a with
  | nil => rfl
  | cons v t ih =>
    simp only [List.length_cons] at h
    simp only [Memory.setBytes]
    rw [ih (Memory.setByte b m a v) (a + 1) (by omega)]
    exact SMap.get_put_ne m a v (by omega)

/-- A byte inside a write of consecutive bytes reads as written. -/
theorem Memory.byte_setBytes (b : Byte) (m : Memory) (a : Nat) (bs : List Byte) (i : Nat) (hi : i < bs.length) :
    Memory.byte b (Memory.setBytes b m a bs) (a + i) = bs[i] := by
  induction bs generalizing m a i with
  | nil => cases hi
  | cons v t ih =>
    simp only [Memory.setBytes]
    cases i with
    | zero =>
      rw [Memory.byte_setBytes_ne b _ (a + 1) t (a + 0) (by omega)]
      exact SMap.get_put_eq m a v
    | succ i =>
      have h := ih (Memory.setByte b m a v) (a + 1) i (by simpa using hi)
      have e : a + (i + 1) = a + 1 + i := by omega
      rw [e, h]
      rfl

/-- Reading back what a write of consecutive bytes stored. -/
theorem Memory.bytes_setBytes (b : Byte) (m : Memory) (a : Nat) (bs : List Byte) :
    Memory.bytes b (Memory.setBytes b m a bs) a bs.length = bs := by
  induction bs generalizing m a with
  | nil => rfl
  | cons v t ih =>
    have hb := Memory.byte_setBytes b m a (v :: t) 0 (by simp)
    simp only [List.length_cons, Memory.bytes]
    have hr : Memory.bytes b (Memory.setBytes b m a (v :: t)) (a + 1) t.length = t :=
      ih (Memory.setByte b m a v) (a + 1)
    rw [hr]
    simpa using hb

end Sys2Proof.Machine
end

