-- ==== Sys2Proof/Laws/Keeps.lean ====
section
/-!
SUPPORT. How frames and invariants of the commands are proved: a property of states is kept by an operation when it is kept by
each update the operation may make.  `Upd P i` says that `P` survives update number `i`; `Keeps P m R` says that it survives the
updates of the mask `m` and a write of any register whose offset satisfies `R`.  Every operation of the machine has one lemma
`<operation>_keeps` with its mask and its offsets; a frame is that lemma for "this part of the state is as it was", an invariant
is that lemma for the invariant.
-/
namespace Sys2Proof.Machine

/-- `P` survives update `i`: one part of the state takes a new value; a map or memory stays canonical if it was, and a
device in SAFE stays in SAFE but for a device reset (R29). -/
def Upd (P : State → Prop) : Nat → Prop
  | 0 => ∀ s v, P s → P (s.putTime v)
  | 1 => ∀ s v, P s → P (s.putSupply v)
  | 2 => ∀ s v, (v.dev = s.ctl.dev ∨ ¬ s.ctl.dev = .safe) → P s → P (s.putCtl v)
  | 3 => ∀ s v, (SMap.wf (fun _ => 0) s.latches = true → SMap.wf (fun _ => 0) v = true) → P s → P (s.putLatches v)
  | 4 => ∀ s v, P s → P (s.putHif v)
  | 5 => ∀ s v, (Memory.wf 0 s.evr.mem = true → Memory.wf 0 v.mem = true) → P s → P (s.putEvr v)
  | 6 => ∀ s v, P s → P (s.putSaf v)
  | 7 => ∀ s v, P s → P (s.putSrc v)
  | 8 => ∀ s v, P s → P (s.putSched v)
  | 9 => ∀ s v, P s → P (s.putCal v)
  | 10 => ∀ s v, P s → P (s.putAux v)
  | 11 => ∀ s v, P s → P (s.putBlt v)
  | 12 => ∀ s v, P s → P (s.putTmb v)
  | 13 => ∀ s v, P s → P (s.putBrl v)
  | 14 => ∀ s v, (Memory.wf 0 s.mlk.pbase = true → Memory.wf 0 v.pbase = true) → P s → P (s.putMlk v)
  | 15 => ∀ s v, P s → P (s.putUnits v)
  | 16 => ∀ s v, P s → P (s.putDouts v)
  | 17 => ∀ s v, P s → P (s.putBlanks v)
  | 18 => ∀ s v, P s → P (s.putStreams v)
  | 19 => ∀ s v, P s → P (s.putCapRecs v)
  | 20 => ∀ s v, P s → P (s.putCores v)
  | 21 => ∀ s v, P s → P (s.putFuses v)
  | 22 => ∀ s v, P s → P (s.putMarchMode v)
  | 23 => ∀ s v, P s → P (s.putBurn v)
  | 24 => ∀ s v, (Memory.wf 0 s.dram = true → Memory.wf 0 v = true) → P s → P (s.putDram v)
  | 25 => ∀ s v, P s → P (s.putDmc v)
  | 26 => ∀ s v, (Memory.wf 0xFF s.flash = true → Memory.wf 0xFF v = true) → P s → P (s.putFlash v)
  | 27 => ∀ s v, P s → P (s.putQspi v)
  | 28 => ∀ s v, P s → P (s.putRdData v)
  | 29 => ∀ s v, P s → P (s.putRdData2 v)
  | 30 => ∀ s (e : Emission), P s → P (s.emit e)
  | 31 => ∀ s v, P s → P (s.putFreeCtr v)
  | 32 => ∀ s v, (SMap.wf resetVal s.regs = true → SMap.wf resetVal v = true) → P s → P (s.putRegs v)
  | 33 => ∀ s, P s → P s.deviceReset
  | 34 => ∀ s q, P s → P (s.pendEvent q)
  | _ => True

/-- `P` survives the updates of a mask and writes of the registers of a set. -/
structure Keeps (P : State → Prop) (m : Nat) (R : Nat → Prop) : Prop where
  upd : ∀ i, m.testBit i = true → Upd P i
  reg : ∀ o, R o → ∀ s w, P s → P (s.setReg o w)

variable {P : State → Prop} {m m' : Nat} {R R' : Nat → Prop} {s : State}

/-- A property that survives more updates survives fewer. -/
theorem Keeps.sub (K : Keeps P m R) (h : m' &&& m = m') (hR : ∀ o, R' o → R o) : Keeps P m' R' where
  upd i hi := K.upd i (by
    have : (m' &&& m).testBit i = true := by rw [h]; exact hi
    simp only [Nat.testBit_and, Bool.and_eq_true] at this
    exact this.2)
  reg o ho := K.reg o (hR o ho)

/-! Register writes. -/

theorem setFld_keeps {f : Fld} {v : Nat} (h : P s) (hr : ∀ s w, P s → P (s.setReg f.off w)) : P (s.setFld f v) :=
  hr s _ h

theorem setFlag_keeps {f : Fld} {b : Bool} (h : P s) (hr : ∀ s w, P s → P (s.setReg f.off w)) : P (s.setFlag f b) :=
  hr s _ h

theorem setFldInt_keeps {f : Fld} {v : Int} (h : P s) (hr : ∀ s w, P s → P (s.setReg f.off w)) : P (s.setFldInt f v) :=
  hr s _ h

theorem setReg_keeps {o : Nat} {w : Word} (h : P s) (hr : ∀ s w, P s → P (s.setReg o w)) : P (s.setReg o w) := hr s _ h

theorem setNat_keeps {o v : Nat} (h : P s) (hr : ∀ s w, P s → P (s.setReg o w)) : P (s.setNat o v) := hr s _ h

theorem addReg_keeps {o v : Nat} (h : P s) (hr : ∀ s w, P s → P (s.setReg o w)) : P (s.addReg o v) := hr s _ h

theorem bump_keeps {o : Nat} (h : P s) (hr : ∀ s w, P s → P (s.setReg o w)) : P (s.bump o) := hr s _ h

theorem setReg64_keeps {o v : Nat} (h : P s) (hr : ∀ s w, P s → P (s.setReg o w))
    (hr' : ∀ s w, P s → P (s.setReg (o + 4) w)) : P (s.setReg64 o v) := hr' _ _ (hr s _ h)

/-! Loops and pairs. -/

theorem ite_keeps {c : Prop} [Decidable c] {s t : State} (hs : P s) (ht : P t) : P (if c then s else t) := by
  split
  · exact hs
  · exact ht

theorem ite_keeps_pair {c : Prop} [Decidable c] {γ : Type} {p q : State × γ} (hp : P p.1) (hq : P q.1) :
    P (if c then p else q).1 := by
  split
  · exact hp
  · exact hq

theorem foldl_keeps {β : Type} {f : State → β → State} {l : List β} (h : P s) (hf : ∀ s x, P s → P (f s x)) :
    P (l.foldl f s) := by
  induction l generalizing s with
  | nil => exact h
  | cons x t ih => exact ih (hf s x h)

theorem foldl_keeps_pair {β γ : Type} {f : State × γ → β → State × γ} {l : List β} {p : State × γ} (h : P p.1)
    (hf : ∀ p x, P p.1 → P (f p x).1) : P (l.foldl f p).1 := by
  induction l generalizing p with
  | nil => exact h
  | cons x t ih => exact ih (hf p x h)

theorem fst_keeps {γ : Type} {p : State × γ} {x : γ} (e : p = (s, x)) (h : P p.1) : P s := by rw [e] at h; exact h

/-! What a device reset leaves (R417). -/

/-- Register writes in a loop touch no other part of the state. -/
theorem foldl_setReg_regs (l : List Nat) (f : Nat → Word) (s : State) :
    ∃ r, l.foldl (fun s o => s.setReg o (f o)) s = s.putRegs r := by
  induction l generalizing s with
  | nil => exact ⟨s.regs, rfl⟩
  | cons o t ih =>
    obtain ⟨r, hr⟩ := ih (s.setReg o (f o))
    exact ⟨r, hr⟩

theorem deviceReset_evr (s : State) : s.deviceReset.evr = s.evr := by
  unfold State.deviceReset
  dsimp only
  obtain ⟨r, hr⟩ := foldl_setReg_regs vauxRegs (fun o => s.reg o) _
  rw [hr]
  rfl

end Sys2Proof.Machine
end

