-- ==== Sys2Proof/Laws/State.lean ====
section
/-!
SUPPORT. One lemma for each part of the state and each update: what the part is after the update.
-/
namespace Sys2Proof.Machine

/-! putTime -/

@[simp] theorem State.putTime_part (s : State) (x : Nat) : (s.putTime x).part = s.part := rfl
@[simp] theorem State.putTime_time (s : State) (x : Nat) : (s.putTime x).time = x := rfl
@[simp] theorem State.putTime_supply (s : State) (x : Nat) : (s.putTime x).supply = s.supply := rfl
@[simp] theorem State.putTime_ctl (s : State) (x : Nat) : (s.putTime x).ctl = s.ctl := rfl
@[simp] theorem State.putTime_regs (s : State) (x : Nat) : (s.putTime x).regs = s.regs := rfl
@[simp] theorem State.putTime_latches (s : State) (x : Nat) : (s.putTime x).latches = s.latches := rfl
@[simp] theorem State.putTime_hif (s : State) (x : Nat) : (s.putTime x).hif = s.hif := rfl
@[simp] theorem State.putTime_evr (s : State) (x : Nat) : (s.putTime x).evr = s.evr := rfl
@[simp] theorem State.putTime_saf (s : State) (x : Nat) : (s.putTime x).saf = s.saf := rfl
@[simp] theorem State.putTime_src (s : State) (x : Nat) : (s.putTime x).src = s.src := rfl
@[simp] theorem State.putTime_sched (s : State) (x : Nat) : (s.putTime x).sched = s.sched := rfl
@[simp] theorem State.putTime_cal (s : State) (x : Nat) : (s.putTime x).cal = s.cal := rfl
@[simp] theorem State.putTime_aux (s : State) (x : Nat) : (s.putTime x).aux = s.aux := rfl
@[simp] theorem State.putTime_blt (s : State) (x : Nat) : (s.putTime x).blt = s.blt := rfl
@[simp] theorem State.putTime_tmb (s : State) (x : Nat) : (s.putTime x).tmb = s.tmb := rfl
@[simp] theorem State.putTime_brl (s : State) (x : Nat) : (s.putTime x).brl = s.brl := rfl
@[simp] theorem State.putTime_mlk (s : State) (x : Nat) : (s.putTime x).mlk = s.mlk := rfl
@[simp] theorem State.putTime_units (s : State) (x : Nat) : (s.putTime x).units = s.units := rfl
@[simp] theorem State.putTime_douts (s : State) (x : Nat) : (s.putTime x).douts = s.douts := rfl
@[simp] theorem State.putTime_blanks (s : State) (x : Nat) : (s.putTime x).blanks = s.blanks := rfl
@[simp] theorem State.putTime_streams (s : State) (x : Nat) : (s.putTime x).streams = s.streams := rfl
@[simp] theorem State.putTime_capRecs (s : State) (x : Nat) : (s.putTime x).capRecs = s.capRecs := rfl
@[simp] theorem State.putTime_cores (s : State) (x : Nat) : (s.putTime x).cores = s.cores := rfl
@[simp] theorem State.putTime_fuses (s : State) (x : Nat) : (s.putTime x).fuses = s.fuses := rfl
@[simp] theorem State.putTime_marchDefault (s : State) (x : Nat) : (s.putTime x).marchDefault = s.marchDefault := rfl
@[simp] theorem State.putTime_marchMode (s : State) (x : Nat) : (s.putTime x).marchMode = s.marchMode := rfl
@[simp] theorem State.putTime_burn (s : State) (x : Nat) : (s.putTime x).burn = s.burn := rfl
@[simp] theorem State.putTime_dram (s : State) (x : Nat) : (s.putTime x).dram = s.dram := rfl
@[simp] theorem State.putTime_dmc (s : State) (x : Nat) : (s.putTime x).dmc = s.dmc := rfl
@[simp] theorem State.putTime_flash (s : State) (x : Nat) : (s.putTime x).flash = s.flash := rfl
@[simp] theorem State.putTime_qspi (s : State) (x : Nat) : (s.putTime x).qspi = s.qspi := rfl
@[simp] theorem State.putTime_factoryTrim (s : State) (x : Nat) : (s.putTime x).factoryTrim = s.factoryTrim := rfl
@[simp] theorem State.putTime_rdData (s : State) (x : Nat) : (s.putTime x).rdData = s.rdData := rfl
@[simp] theorem State.putTime_rdData2 (s : State) (x : Nat) : (s.putTime x).rdData2 = s.rdData2 := rfl
@[simp] theorem State.putTime_sent (s : State) (x : Nat) : (s.putTime x).sent = s.sent := rfl
@[simp] theorem State.putTime_freeCtr (s : State) (x : Nat) : (s.putTime x).freeCtr = s.freeCtr := rfl
@[simp] theorem State.putTime_pending (s : State) (x : Nat) : (s.putTime x).pending = s.pending := rfl

/-! putSupply -/

@[simp] theorem State.putSupply_part (s : State) (x : Supply) : (s.putSupply x).part = s.part := rfl
@[simp] theorem State.putSupply_time (s : State) (x : Supply) : (s.putSupply x).time = s.time := rfl
@[simp] theorem State.putSupply_supply (s : State) (x : Supply) : (s.putSupply x).supply = x := rfl
@[simp] theorem State.putSupply_ctl (s : State) (x : Supply) : (s.putSupply x).ctl = s.ctl := rfl
@[simp] theorem State.putSupply_regs (s : State) (x : Supply) : (s.putSupply x).regs = s.regs := rfl
@[simp] theorem State.putSupply_latches (s : State) (x : Supply) : (s.putSupply x).latches = s.latches := rfl
@[simp] theorem State.putSupply_hif (s : State) (x : Supply) : (s.putSupply x).hif = s.hif := rfl
@[simp] theorem State.putSupply_evr (s : State) (x : Supply) : (s.putSupply x).evr = s.evr := rfl
@[simp] theorem State.putSupply_saf (s : State) (x : Supply) : (s.putSupply x).saf = s.saf := rfl
@[simp] theorem State.putSupply_src (s : State) (x : Supply) : (s.putSupply x).src = s.src := rfl
@[simp] theorem State.putSupply_sched (s : State) (x : Supply) : (s.putSupply x).sched = s.sched := rfl
@[simp] theorem State.putSupply_cal (s : State) (x : Supply) : (s.putSupply x).cal = s.cal := rfl
@[simp] theorem State.putSupply_aux (s : State) (x : Supply) : (s.putSupply x).aux = s.aux := rfl
@[simp] theorem State.putSupply_blt (s : State) (x : Supply) : (s.putSupply x).blt = s.blt := rfl
@[simp] theorem State.putSupply_tmb (s : State) (x : Supply) : (s.putSupply x).tmb = s.tmb := rfl
@[simp] theorem State.putSupply_brl (s : State) (x : Supply) : (s.putSupply x).brl = s.brl := rfl
@[simp] theorem State.putSupply_mlk (s : State) (x : Supply) : (s.putSupply x).mlk = s.mlk := rfl
@[simp] theorem State.putSupply_units (s : State) (x : Supply) : (s.putSupply x).units = s.units := rfl
@[simp] theorem State.putSupply_douts (s : State) (x : Supply) : (s.putSupply x).douts = s.douts := rfl
@[simp] theorem State.putSupply_blanks (s : State) (x : Supply) : (s.putSupply x).blanks = s.blanks := rfl
@[simp] theorem State.putSupply_streams (s : State) (x : Supply) : (s.putSupply x).streams = s.streams := rfl
@[simp] theorem State.putSupply_capRecs (s : State) (x : Supply) : (s.putSupply x).capRecs = s.capRecs := rfl
@[simp] theorem State.putSupply_cores (s : State) (x : Supply) : (s.putSupply x).cores = s.cores := rfl
@[simp] theorem State.putSupply_fuses (s : State) (x : Supply) : (s.putSupply x).fuses = s.fuses := rfl
@[simp] theorem State.putSupply_marchDefault (s : State) (x : Supply) : (s.putSupply x).marchDefault = s.marchDefault := rfl
@[simp] theorem State.putSupply_marchMode (s : State) (x : Supply) : (s.putSupply x).marchMode = s.marchMode := rfl
@[simp] theorem State.putSupply_burn (s : State) (x : Supply) : (s.putSupply x).burn = s.burn := rfl
@[simp] theorem State.putSupply_dram (s : State) (x : Supply) : (s.putSupply x).dram = s.dram := rfl
@[simp] theorem State.putSupply_dmc (s : State) (x : Supply) : (s.putSupply x).dmc = s.dmc := rfl
@[simp] theorem State.putSupply_flash (s : State) (x : Supply) : (s.putSupply x).flash = s.flash := rfl
@[simp] theorem State.putSupply_qspi (s : State) (x : Supply) : (s.putSupply x).qspi = s.qspi := rfl
@[simp] theorem State.putSupply_factoryTrim (s : State) (x : Supply) : (s.putSupply x).factoryTrim = s.factoryTrim := rfl
@[simp] theorem State.putSupply_rdData (s : State) (x : Supply) : (s.putSupply x).rdData = s.rdData := rfl
@[simp] theorem State.putSupply_rdData2 (s : State) (x : Supply) : (s.putSupply x).rdData2 = s.rdData2 := rfl
@[simp] theorem State.putSupply_sent (s : State) (x : Supply) : (s.putSupply x).sent = s.sent := rfl
@[simp] theorem State.putSupply_freeCtr (s : State) (x : Supply) : (s.putSupply x).freeCtr = s.freeCtr := rfl
@[simp] theorem State.putSupply_pending (s : State) (x : Supply) : (s.putSupply x).pending = s.pending := rfl

/-! putCtl -/

@[simp] theorem State.putCtl_part (s : State) (x : Ctl) : (s.putCtl x).part = s.part := rfl
@[simp] theorem State.putCtl_time (s : State) (x : Ctl) : (s.putCtl x).time = s.time := rfl
@[simp] theorem State.putCtl_supply (s : State) (x : Ctl) : (s.putCtl x).supply = s.supply := rfl
@[simp] theorem State.putCtl_ctl (s : State) (x : Ctl) : (s.putCtl x).ctl = x := rfl
@[simp] theorem State.putCtl_regs (s : State) (x : Ctl) : (s.putCtl x).regs = s.regs := rfl
@[simp] theorem State.putCtl_latches (s : State) (x : Ctl) : (s.putCtl x).latches = s.latches := rfl
@[simp] theorem State.putCtl_hif (s : State) (x : Ctl) : (s.putCtl x).hif = s.hif := rfl
@[simp] theorem State.putCtl_evr (s : State) (x : Ctl) : (s.putCtl x).evr = s.evr := rfl
@[simp] theorem State.putCtl_saf (s : State) (x : Ctl) : (s.putCtl x).saf = s.saf := rfl
@[simp] theorem State.putCtl_src (s : State) (x : Ctl) : (s.putCtl x).src = s.src := rfl
@[simp] theorem State.putCtl_sched (s : State) (x : Ctl) : (s.putCtl x).sched = s.sched := rfl
@[simp] theorem State.putCtl_cal (s : State) (x : Ctl) : (s.putCtl x).cal = s.cal := rfl
@[simp] theorem State.putCtl_aux (s : State) (x : Ctl) : (s.putCtl x).aux = s.aux := rfl
@[simp] theorem State.putCtl_blt (s : State) (x : Ctl) : (s.putCtl x).blt = s.blt := rfl
@[simp] theorem State.putCtl_tmb (s : State) (x : Ctl) : (s.putCtl x).tmb = s.tmb := rfl
@[simp] theorem State.putCtl_brl (s : State) (x : Ctl) : (s.putCtl x).brl = s.brl := rfl
@[simp] theorem State.putCtl_mlk (s : State) (x : Ctl) : (s.putCtl x).mlk = s.mlk := rfl
@[simp] theorem State.putCtl_units (s : State) (x : Ctl) : (s.putCtl x).units = s.units := rfl
@[simp] theorem State.putCtl_douts (s : State) (x : Ctl) : (s.putCtl x).douts = s.douts := rfl
@[simp] theorem State.putCtl_blanks (s : State) (x : Ctl) : (s.putCtl x).blanks = s.blanks := rfl
@[simp] theorem State.putCtl_streams (s : State) (x : Ctl) : (s.putCtl x).streams = s.streams := rfl
@[simp] theorem State.putCtl_capRecs (s : State) (x : Ctl) : (s.putCtl x).capRecs = s.capRecs := rfl
@[simp] theorem State.putCtl_cores (s : State) (x : Ctl) : (s.putCtl x).cores = s.cores := rfl
@[simp] theorem State.putCtl_fuses (s : State) (x : Ctl) : (s.putCtl x).fuses = s.fuses := rfl
@[simp] theorem State.putCtl_marchDefault (s : State) (x : Ctl) : (s.putCtl x).marchDefault = s.marchDefault := rfl
@[simp] theorem State.putCtl_marchMode (s : State) (x : Ctl) : (s.putCtl x).marchMode = s.marchMode := rfl
@[simp] theorem State.putCtl_burn (s : State) (x : Ctl) : (s.putCtl x).burn = s.burn := rfl
@[simp] theorem State.putCtl_dram (s : State) (x : Ctl) : (s.putCtl x).dram = s.dram := rfl
@[simp] theorem State.putCtl_dmc (s : State) (x : Ctl) : (s.putCtl x).dmc = s.dmc := rfl
@[simp] theorem State.putCtl_flash (s : State) (x : Ctl) : (s.putCtl x).flash = s.flash := rfl
@[simp] theorem State.putCtl_qspi (s : State) (x : Ctl) : (s.putCtl x).qspi = s.qspi := rfl
@[simp] theorem State.putCtl_factoryTrim (s : State) (x : Ctl) : (s.putCtl x).factoryTrim = s.factoryTrim := rfl
@[simp] theorem State.putCtl_rdData (s : State) (x : Ctl) : (s.putCtl x).rdData = s.rdData := rfl
@[simp] theorem State.putCtl_rdData2 (s : State) (x : Ctl) : (s.putCtl x).rdData2 = s.rdData2 := rfl
@[simp] theorem State.putCtl_sent (s : State) (x : Ctl) : (s.putCtl x).sent = s.sent := rfl
@[simp] theorem State.putCtl_freeCtr (s : State) (x : Ctl) : (s.putCtl x).freeCtr = s.freeCtr := rfl
@[simp] theorem State.putCtl_pending (s : State) (x : Ctl) : (s.putCtl x).pending = s.pending := rfl

/-! putRegs -/

@[simp] theorem State.putRegs_part (s : State) (x : SMap Word) : (s.putRegs x).part = s.part := rfl
@[simp] theorem State.putRegs_time (s : State) (x : SMap Word) : (s.putRegs x).time = s.time := rfl
@[simp] theorem State.putRegs_supply (s : State) (x : SMap Word) : (s.putRegs x).supply = s.supply := rfl
@[simp] theorem State.putRegs_ctl (s : State) (x : SMap Word) : (s.putRegs x).ctl = s.ctl := rfl
@[simp] theorem State.putRegs_regs (s : State) (x : SMap Word) : (s.putRegs x).regs = x := rfl
@[simp] theorem State.putRegs_latches (s : State) (x : SMap Word) : (s.putRegs x).latches = s.latches := rfl
@[simp] theorem State.putRegs_hif (s : State) (x : SMap Word) : (s.putRegs x).hif = s.hif := rfl
@[simp] theorem State.putRegs_evr (s : State) (x : SMap Word) : (s.putRegs x).evr = s.evr := rfl
@[simp] theorem State.putRegs_saf (s : State) (x : SMap Word) : (s.putRegs x).saf = s.saf := rfl
@[simp] theorem State.putRegs_src (s : State) (x : SMap Word) : (s.putRegs x).src = s.src := rfl
@[simp] theorem State.putRegs_sched (s : State) (x : SMap Word) : (s.putRegs x).sched = s.sched := rfl
@[simp] theorem State.putRegs_cal (s : State) (x : SMap Word) : (s.putRegs x).cal = s.cal := rfl
@[simp] theorem State.putRegs_aux (s : State) (x : SMap Word) : (s.putRegs x).aux = s.aux := rfl
@[simp] theorem State.putRegs_blt (s : State) (x : SMap Word) : (s.putRegs x).blt = s.blt := rfl
@[simp] theorem State.putRegs_tmb (s : State) (x : SMap Word) : (s.putRegs x).tmb = s.tmb := rfl
@[simp] theorem State.putRegs_brl (s : State) (x : SMap Word) : (s.putRegs x).brl = s.brl := rfl
@[simp] theorem State.putRegs_mlk (s : State) (x : SMap Word) : (s.putRegs x).mlk = s.mlk := rfl
@[simp] theorem State.putRegs_units (s : State) (x : SMap Word) : (s.putRegs x).units = s.units := rfl
@[simp] theorem State.putRegs_douts (s : State) (x : SMap Word) : (s.putRegs x).douts = s.douts := rfl
@[simp] theorem State.putRegs_blanks (s : State) (x : SMap Word) : (s.putRegs x).blanks = s.blanks := rfl
@[simp] theorem State.putRegs_streams (s : State) (x : SMap Word) : (s.putRegs x).streams = s.streams := rfl
@[simp] theorem State.putRegs_capRecs (s : State) (x : SMap Word) : (s.putRegs x).capRecs = s.capRecs := rfl
@[simp] theorem State.putRegs_cores (s : State) (x : SMap Word) : (s.putRegs x).cores = s.cores := rfl
@[simp] theorem State.putRegs_fuses (s : State) (x : SMap Word) : (s.putRegs x).fuses = s.fuses := rfl
@[simp] theorem State.putRegs_marchDefault (s : State) (x : SMap Word) : (s.putRegs x).marchDefault = s.marchDefault := rfl
@[simp] theorem State.putRegs_marchMode (s : State) (x : SMap Word) : (s.putRegs x).marchMode = s.marchMode := rfl
@[simp] theorem State.putRegs_burn (s : State) (x : SMap Word) : (s.putRegs x).burn = s.burn := rfl
@[simp] theorem State.putRegs_dram (s : State) (x : SMap Word) : (s.putRegs x).dram = s.dram := rfl
@[simp] theorem State.putRegs_dmc (s : State) (x : SMap Word) : (s.putRegs x).dmc = s.dmc := rfl
@[simp] theorem State.putRegs_flash (s : State) (x : SMap Word) : (s.putRegs x).flash = s.flash := rfl
@[simp] theorem State.putRegs_qspi (s : State) (x : SMap Word) : (s.putRegs x).qspi = s.qspi := rfl
@[simp] theorem State.putRegs_factoryTrim (s : State) (x : SMap Word) : (s.putRegs x).factoryTrim = s.factoryTrim := rfl
@[simp] theorem State.putRegs_rdData (s : State) (x : SMap Word) : (s.putRegs x).rdData = s.rdData := rfl
@[simp] theorem State.putRegs_rdData2 (s : State) (x : SMap Word) : (s.putRegs x).rdData2 = s.rdData2 := rfl
@[simp] theorem State.putRegs_sent (s : State) (x : SMap Word) : (s.putRegs x).sent = s.sent := rfl
@[simp] theorem State.putRegs_freeCtr (s : State) (x : SMap Word) : (s.putRegs x).freeCtr = s.freeCtr := rfl
@[simp] theorem State.putRegs_pending (s : State) (x : SMap Word) : (s.putRegs x).pending = s.pending := rfl

/-! putLatches -/

@[simp] theorem State.putLatches_part (s : State) (x : SMap Word) : (s.putLatches x).part = s.part := rfl
@[simp] theorem State.putLatches_time (s : State) (x : SMap Word) : (s.putLatches x).time = s.time := rfl
@[simp] theorem State.putLatches_supply (s : State) (x : SMap Word) : (s.putLatches x).supply = s.supply := rfl
@[simp] theorem State.putLatches_ctl (s : State) (x : SMap Word) : (s.putLatches x).ctl = s.ctl := rfl
@[simp] theorem State.putLatches_regs (s : State) (x : SMap Word) : (s.putLatches x).regs = s.regs := rfl
@[simp] theorem State.putLatches_latches (s : State) (x : SMap Word) : (s.putLatches x).latches = x := rfl
@[simp] theorem State.putLatches_hif (s : State) (x : SMap Word) : (s.putLatches x).hif = s.hif := rfl
@[simp] theorem State.putLatches_evr (s : State) (x : SMap Word) : (s.putLatches x).evr = s.evr := rfl
@[simp] theorem State.putLatches_saf (s : State) (x : SMap Word) : (s.putLatches x).saf = s.saf := rfl
@[simp] theorem State.putLatches_src (s : State) (x : SMap Word) : (s.putLatches x).src = s.src := rfl
@[simp] theorem State.putLatches_sched (s : State) (x : SMap Word) : (s.putLatches x).sched = s.sched := rfl
@[simp] theorem State.putLatches_cal (s : State) (x : SMap Word) : (s.putLatches x).cal = s.cal := rfl
@[simp] theorem State.putLatches_aux (s : State) (x : SMap Word) : (s.putLatches x).aux = s.aux := rfl
@[simp] theorem State.putLatches_blt (s : State) (x : SMap Word) : (s.putLatches x).blt = s.blt := rfl
@[simp] theorem State.putLatches_tmb (s : State) (x : SMap Word) : (s.putLatches x).tmb = s.tmb := rfl
@[simp] theorem State.putLatches_brl (s : State) (x : SMap Word) : (s.putLatches x).brl = s.brl := rfl
@[simp] theorem State.putLatches_mlk (s : State) (x : SMap Word) : (s.putLatches x).mlk = s.mlk := rfl
@[simp] theorem State.putLatches_units (s : State) (x : SMap Word) : (s.putLatches x).units = s.units := rfl
@[simp] theorem State.putLatches_douts (s : State) (x : SMap Word) : (s.putLatches x).douts = s.douts := rfl
@[simp] theorem State.putLatches_blanks (s : State) (x : SMap Word) : (s.putLatches x).blanks = s.blanks := rfl
@[simp] theorem State.putLatches_streams (s : State) (x : SMap Word) : (s.putLatches x).streams = s.streams := rfl
@[simp] theorem State.putLatches_capRecs (s : State) (x : SMap Word) : (s.putLatches x).capRecs = s.capRecs := rfl
@[simp] theorem State.putLatches_cores (s : State) (x : SMap Word) : (s.putLatches x).cores = s.cores := rfl
@[simp] theorem State.putLatches_fuses (s : State) (x : SMap Word) : (s.putLatches x).fuses = s.fuses := rfl
@[simp] theorem State.putLatches_marchDefault (s : State) (x : SMap Word) : (s.putLatches x).marchDefault = s.marchDefault := rfl
@[simp] theorem State.putLatches_marchMode (s : State) (x : SMap Word) : (s.putLatches x).marchMode = s.marchMode := rfl
@[simp] theorem State.putLatches_burn (s : State) (x : SMap Word) : (s.putLatches x).burn = s.burn := rfl
@[simp] theorem State.putLatches_dram (s : State) (x : SMap Word) : (s.putLatches x).dram = s.dram := rfl
@[simp] theorem State.putLatches_dmc (s : State) (x : SMap Word) : (s.putLatches x).dmc = s.dmc := rfl
@[simp] theorem State.putLatches_flash (s : State) (x : SMap Word) : (s.putLatches x).flash = s.flash := rfl
@[simp] theorem State.putLatches_qspi (s : State) (x : SMap Word) : (s.putLatches x).qspi = s.qspi := rfl
@[simp] theorem State.putLatches_factoryTrim (s : State) (x : SMap Word) : (s.putLatches x).factoryTrim = s.factoryTrim := rfl
@[simp] theorem State.putLatches_rdData (s : State) (x : SMap Word) : (s.putLatches x).rdData = s.rdData := rfl
@[simp] theorem State.putLatches_rdData2 (s : State) (x : SMap Word) : (s.putLatches x).rdData2 = s.rdData2 := rfl
@[simp] theorem State.putLatches_sent (s : State) (x : SMap Word) : (s.putLatches x).sent = s.sent := rfl
@[simp] theorem State.putLatches_freeCtr (s : State) (x : SMap Word) : (s.putLatches x).freeCtr = s.freeCtr := rfl
@[simp] theorem State.putLatches_pending (s : State) (x : SMap Word) : (s.putLatches x).pending = s.pending := rfl

/-! putHif -/

@[simp] theorem State.putHif_part (s : State) (x : Hif) : (s.putHif x).part = s.part := rfl
@[simp] theorem State.putHif_time (s : State) (x : Hif) : (s.putHif x).time = s.time := rfl
@[simp] theorem State.putHif_supply (s : State) (x : Hif) : (s.putHif x).supply = s.supply := rfl
@[simp] theorem State.putHif_ctl (s : State) (x : Hif) : (s.putHif x).ctl = s.ctl := rfl
@[simp] theorem State.putHif_regs (s : State) (x : Hif) : (s.putHif x).regs = s.regs := rfl
@[simp] theorem State.putHif_latches (s : State) (x : Hif) : (s.putHif x).latches = s.latches := rfl
@[simp] theorem State.putHif_hif (s : State) (x : Hif) : (s.putHif x).hif = x := rfl
@[simp] theorem State.putHif_evr (s : State) (x : Hif) : (s.putHif x).evr = s.evr := rfl
@[simp] theorem State.putHif_saf (s : State) (x : Hif) : (s.putHif x).saf = s.saf := rfl
@[simp] theorem State.putHif_src (s : State) (x : Hif) : (s.putHif x).src = s.src := rfl
@[simp] theorem State.putHif_sched (s : State) (x : Hif) : (s.putHif x).sched = s.sched := rfl
@[simp] theorem State.putHif_cal (s : State) (x : Hif) : (s.putHif x).cal = s.cal := rfl
@[simp] theorem State.putHif_aux (s : State) (x : Hif) : (s.putHif x).aux = s.aux := rfl
@[simp] theorem State.putHif_blt (s : State) (x : Hif) : (s.putHif x).blt = s.blt := rfl
@[simp] theorem State.putHif_tmb (s : State) (x : Hif) : (s.putHif x).tmb = s.tmb := rfl
@[simp] theorem State.putHif_brl (s : State) (x : Hif) : (s.putHif x).brl = s.brl := rfl
@[simp] theorem State.putHif_mlk (s : State) (x : Hif) : (s.putHif x).mlk = s.mlk := rfl
@[simp] theorem State.putHif_units (s : State) (x : Hif) : (s.putHif x).units = s.units := rfl
@[simp] theorem State.putHif_douts (s : State) (x : Hif) : (s.putHif x).douts = s.douts := rfl
@[simp] theorem State.putHif_blanks (s : State) (x : Hif) : (s.putHif x).blanks = s.blanks := rfl
@[simp] theorem State.putHif_streams (s : State) (x : Hif) : (s.putHif x).streams = s.streams := rfl
@[simp] theorem State.putHif_capRecs (s : State) (x : Hif) : (s.putHif x).capRecs = s.capRecs := rfl
@[simp] theorem State.putHif_cores (s : State) (x : Hif) : (s.putHif x).cores = s.cores := rfl
@[simp] theorem State.putHif_fuses (s : State) (x : Hif) : (s.putHif x).fuses = s.fuses := rfl
@[simp] theorem State.putHif_marchDefault (s : State) (x : Hif) : (s.putHif x).marchDefault = s.marchDefault := rfl
@[simp] theorem State.putHif_marchMode (s : State) (x : Hif) : (s.putHif x).marchMode = s.marchMode := rfl
@[simp] theorem State.putHif_burn (s : State) (x : Hif) : (s.putHif x).burn = s.burn := rfl
@[simp] theorem State.putHif_dram (s : State) (x : Hif) : (s.putHif x).dram = s.dram := rfl
@[simp] theorem State.putHif_dmc (s : State) (x : Hif) : (s.putHif x).dmc = s.dmc := rfl
@[simp] theorem State.putHif_flash (s : State) (x : Hif) : (s.putHif x).flash = s.flash := rfl
@[simp] theorem State.putHif_qspi (s : State) (x : Hif) : (s.putHif x).qspi = s.qspi := rfl
@[simp] theorem State.putHif_factoryTrim (s : State) (x : Hif) : (s.putHif x).factoryTrim = s.factoryTrim := rfl
@[simp] theorem State.putHif_rdData (s : State) (x : Hif) : (s.putHif x).rdData = s.rdData := rfl
@[simp] theorem State.putHif_rdData2 (s : State) (x : Hif) : (s.putHif x).rdData2 = s.rdData2 := rfl
@[simp] theorem State.putHif_sent (s : State) (x : Hif) : (s.putHif x).sent = s.sent := rfl
@[simp] theorem State.putHif_freeCtr (s : State) (x : Hif) : (s.putHif x).freeCtr = s.freeCtr := rfl
@[simp] theorem State.putHif_pending (s : State) (x : Hif) : (s.putHif x).pending = s.pending := rfl

/-! putEvr -/

@[simp] theorem State.putEvr_part (s : State) (x : Evr) : (s.putEvr x).part = s.part := rfl
@[simp] theorem State.putEvr_time (s : State) (x : Evr) : (s.putEvr x).time = s.time := rfl
@[simp] theorem State.putEvr_supply (s : State) (x : Evr) : (s.putEvr x).supply = s.supply := rfl
@[simp] theorem State.putEvr_ctl (s : State) (x : Evr) : (s.putEvr x).ctl = s.ctl := rfl
@[simp] theorem State.putEvr_regs (s : State) (x : Evr) : (s.putEvr x).regs = s.regs := rfl
@[simp] theorem State.putEvr_latches (s : State) (x : Evr) : (s.putEvr x).latches = s.latches := rfl
@[simp] theorem State.putEvr_hif (s : State) (x : Evr) : (s.putEvr x).hif = s.hif := rfl
@[simp] theorem State.putEvr_evr (s : State) (x : Evr) : (s.putEvr x).evr = x := rfl
@[simp] theorem State.putEvr_saf (s : State) (x : Evr) : (s.putEvr x).saf = s.saf := rfl
@[simp] theorem State.putEvr_src (s : State) (x : Evr) : (s.putEvr x).src = s.src := rfl
@[simp] theorem State.putEvr_sched (s : State) (x : Evr) : (s.putEvr x).sched = s.sched := rfl
@[simp] theorem State.putEvr_cal (s : State) (x : Evr) : (s.putEvr x).cal = s.cal := rfl
@[simp] theorem State.putEvr_aux (s : State) (x : Evr) : (s.putEvr x).aux = s.aux := rfl
@[simp] theorem State.putEvr_blt (s : State) (x : Evr) : (s.putEvr x).blt = s.blt := rfl
@[simp] theorem State.putEvr_tmb (s : State) (x : Evr) : (s.putEvr x).tmb = s.tmb := rfl
@[simp] theorem State.putEvr_brl (s : State) (x : Evr) : (s.putEvr x).brl = s.brl := rfl
@[simp] theorem State.putEvr_mlk (s : State) (x : Evr) : (s.putEvr x).mlk = s.mlk := rfl
@[simp] theorem State.putEvr_units (s : State) (x : Evr) : (s.putEvr x).units = s.units := rfl
@[simp] theorem State.putEvr_douts (s : State) (x : Evr) : (s.putEvr x).douts = s.douts := rfl
@[simp] theorem State.putEvr_blanks (s : State) (x : Evr) : (s.putEvr x).blanks = s.blanks := rfl
@[simp] theorem State.putEvr_streams (s : State) (x : Evr) : (s.putEvr x).streams = s.streams := rfl
@[simp] theorem State.putEvr_capRecs (s : State) (x : Evr) : (s.putEvr x).capRecs = s.capRecs := rfl
@[simp] theorem State.putEvr_cores (s : State) (x : Evr) : (s.putEvr x).cores = s.cores := rfl
@[simp] theorem State.putEvr_fuses (s : State) (x : Evr) : (s.putEvr x).fuses = s.fuses := rfl
@[simp] theorem State.putEvr_marchDefault (s : State) (x : Evr) : (s.putEvr x).marchDefault = s.marchDefault := rfl
@[simp] theorem State.putEvr_marchMode (s : State) (x : Evr) : (s.putEvr x).marchMode = s.marchMode := rfl
@[simp] theorem State.putEvr_burn (s : State) (x : Evr) : (s.putEvr x).burn = s.burn := rfl
@[simp] theorem State.putEvr_dram (s : State) (x : Evr) : (s.putEvr x).dram = s.dram := rfl
@[simp] theorem State.putEvr_dmc (s : State) (x : Evr) : (s.putEvr x).dmc = s.dmc := rfl
@[simp] theorem State.putEvr_flash (s : State) (x : Evr) : (s.putEvr x).flash = s.flash := rfl
@[simp] theorem State.putEvr_qspi (s : State) (x : Evr) : (s.putEvr x).qspi = s.qspi := rfl
@[simp] theorem State.putEvr_factoryTrim (s : State) (x : Evr) : (s.putEvr x).factoryTrim = s.factoryTrim := rfl
@[simp] theorem State.putEvr_rdData (s : State) (x : Evr) : (s.putEvr x).rdData = s.rdData := rfl
@[simp] theorem State.putEvr_rdData2 (s : State) (x : Evr) : (s.putEvr x).rdData2 = s.rdData2 := rfl
@[simp] theorem State.putEvr_sent (s : State) (x : Evr) : (s.putEvr x).sent = s.sent := rfl
@[simp] theorem State.putEvr_freeCtr (s : State) (x : Evr) : (s.putEvr x).freeCtr = s.freeCtr := rfl
@[simp] theorem State.putEvr_pending (s : State) (x : Evr) : (s.putEvr x).pending = s.pending := rfl

/-! putSaf -/

@[simp] theorem State.putSaf_part (s : State) (x : Saf) : (s.putSaf x).part = s.part := rfl
@[simp] theorem State.putSaf_time (s : State) (x : Saf) : (s.putSaf x).time = s.time := rfl
@[simp] theorem State.putSaf_supply (s : State) (x : Saf) : (s.putSaf x).supply = s.supply := rfl
@[simp] theorem State.putSaf_ctl (s : State) (x : Saf) : (s.putSaf x).ctl = s.ctl := rfl
@[simp] theorem State.putSaf_regs (s : State) (x : Saf) : (s.putSaf x).regs = s.regs := rfl
@[simp] theorem State.putSaf_latches (s : State) (x : Saf) : (s.putSaf x).latches = s.latches := rfl
@[simp] theorem State.putSaf_hif (s : State) (x : Saf) : (s.putSaf x).hif = s.hif := rfl
@[simp] theorem State.putSaf_evr (s : State) (x : Saf) : (s.putSaf x).evr = s.evr := rfl
@[simp] theorem State.putSaf_saf (s : State) (x : Saf) : (s.putSaf x).saf = x := rfl
@[simp] theorem State.putSaf_src (s : State) (x : Saf) : (s.putSaf x).src = s.src := rfl
@[simp] theorem State.putSaf_sched (s : State) (x : Saf) : (s.putSaf x).sched = s.sched := rfl
@[simp] theorem State.putSaf_cal (s : State) (x : Saf) : (s.putSaf x).cal = s.cal := rfl
@[simp] theorem State.putSaf_aux (s : State) (x : Saf) : (s.putSaf x).aux = s.aux := rfl
@[simp] theorem State.putSaf_blt (s : State) (x : Saf) : (s.putSaf x).blt = s.blt := rfl
@[simp] theorem State.putSaf_tmb (s : State) (x : Saf) : (s.putSaf x).tmb = s.tmb := rfl
@[simp] theorem State.putSaf_brl (s : State) (x : Saf) : (s.putSaf x).brl = s.brl := rfl
@[simp] theorem State.putSaf_mlk (s : State) (x : Saf) : (s.putSaf x).mlk = s.mlk := rfl
@[simp] theorem State.putSaf_units (s : State) (x : Saf) : (s.putSaf x).units = s.units := rfl
@[simp] theorem State.putSaf_douts (s : State) (x : Saf) : (s.putSaf x).douts = s.douts := rfl
@[simp] theorem State.putSaf_blanks (s : State) (x : Saf) : (s.putSaf x).blanks = s.blanks := rfl
@[simp] theorem State.putSaf_streams (s : State) (x : Saf) : (s.putSaf x).streams = s.streams := rfl
@[simp] theorem State.putSaf_capRecs (s : State) (x : Saf) : (s.putSaf x).capRecs = s.capRecs := rfl
@[simp] theorem State.putSaf_cores (s : State) (x : Saf) : (s.putSaf x).cores = s.cores := rfl
@[simp] theorem State.putSaf_fuses (s : State) (x : Saf) : (s.putSaf x).fuses = s.fuses := rfl
@[simp] theorem State.putSaf_marchDefault (s : State) (x : Saf) : (s.putSaf x).marchDefault = s.marchDefault := rfl
@[simp] theorem State.putSaf_marchMode (s : State) (x : Saf) : (s.putSaf x).marchMode = s.marchMode := rfl
@[simp] theorem State.putSaf_burn (s : State) (x : Saf) : (s.putSaf x).burn = s.burn := rfl
@[simp] theorem State.putSaf_dram (s : State) (x : Saf) : (s.putSaf x).dram = s.dram := rfl
@[simp] theorem State.putSaf_dmc (s : State) (x : Saf) : (s.putSaf x).dmc = s.dmc := rfl
@[simp] theorem State.putSaf_flash (s : State) (x : Saf) : (s.putSaf x).flash = s.flash := rfl
@[simp] theorem State.putSaf_qspi (s : State) (x : Saf) : (s.putSaf x).qspi = s.qspi := rfl
@[simp] theorem State.putSaf_factoryTrim (s : State) (x : Saf) : (s.putSaf x).factoryTrim = s.factoryTrim := rfl
@[simp] theorem State.putSaf_rdData (s : State) (x : Saf) : (s.putSaf x).rdData = s.rdData := rfl
@[simp] theorem State.putSaf_rdData2 (s : State) (x : Saf) : (s.putSaf x).rdData2 = s.rdData2 := rfl
@[simp] theorem State.putSaf_sent (s : State) (x : Saf) : (s.putSaf x).sent = s.sent := rfl
@[simp] theorem State.putSaf_freeCtr (s : State) (x : Saf) : (s.putSaf x).freeCtr = s.freeCtr := rfl
@[simp] theorem State.putSaf_pending (s : State) (x : Saf) : (s.putSaf x).pending = s.pending := rfl

/-! putSrc -/

@[simp] theorem State.putSrc_part (s : State) (x : Source) : (s.putSrc x).part = s.part := rfl
@[simp] theorem State.putSrc_time (s : State) (x : Source) : (s.putSrc x).time = s.time := rfl
@[simp] theorem State.putSrc_supply (s : State) (x : Source) : (s.putSrc x).supply = s.supply := rfl
@[simp] theorem State.putSrc_ctl (s : State) (x : Source) : (s.putSrc x).ctl = s.ctl := rfl
@[simp] theorem State.putSrc_regs (s : State) (x : Source) : (s.putSrc x).regs = s.regs := rfl
@[simp] theorem State.putSrc_latches (s : State) (x : Source) : (s.putSrc x).latches = s.latches := rfl
@[simp] theorem State.putSrc_hif (s : State) (x : Source) : (s.putSrc x).hif = s.hif := rfl
@[simp] theorem State.putSrc_evr (s : State) (x : Source) : (s.putSrc x).evr = s.evr := rfl
@[simp] theorem State.putSrc_saf (s : State) (x : Source) : (s.putSrc x).saf = s.saf := rfl
@[simp] theorem State.putSrc_src (s : State) (x : Source) : (s.putSrc x).src = x := rfl
@[simp] theorem State.putSrc_sched (s : State) (x : Source) : (s.putSrc x).sched = s.sched := rfl
@[simp] theorem State.putSrc_cal (s : State) (x : Source) : (s.putSrc x).cal = s.cal := rfl
@[simp] theorem State.putSrc_aux (s : State) (x : Source) : (s.putSrc x).aux = s.aux := rfl
@[simp] theorem State.putSrc_blt (s : State) (x : Source) : (s.putSrc x).blt = s.blt := rfl
@[simp] theorem State.putSrc_tmb (s : State) (x : Source) : (s.putSrc x).tmb = s.tmb := rfl
@[simp] theorem State.putSrc_brl (s : State) (x : Source) : (s.putSrc x).brl = s.brl := rfl
@[simp] theorem State.putSrc_mlk (s : State) (x : Source) : (s.putSrc x).mlk = s.mlk := rfl
@[simp] theorem State.putSrc_units (s : State) (x : Source) : (s.putSrc x).units = s.units := rfl
@[simp] theorem State.putSrc_douts (s : State) (x : Source) : (s.putSrc x).douts = s.douts := rfl
@[simp] theorem State.putSrc_blanks (s : State) (x : Source) : (s.putSrc x).blanks = s.blanks := rfl
@[simp] theorem State.putSrc_streams (s : State) (x : Source) : (s.putSrc x).streams = s.streams := rfl
@[simp] theorem State.putSrc_capRecs (s : State) (x : Source) : (s.putSrc x).capRecs = s.capRecs := rfl
@[simp] theorem State.putSrc_cores (s : State) (x : Source) : (s.putSrc x).cores = s.cores := rfl
@[simp] theorem State.putSrc_fuses (s : State) (x : Source) : (s.putSrc x).fuses = s.fuses := rfl
@[simp] theorem State.putSrc_marchDefault (s : State) (x : Source) : (s.putSrc x).marchDefault = s.marchDefault := rfl
@[simp] theorem State.putSrc_marchMode (s : State) (x : Source) : (s.putSrc x).marchMode = s.marchMode := rfl
@[simp] theorem State.putSrc_burn (s : State) (x : Source) : (s.putSrc x).burn = s.burn := rfl
@[simp] theorem State.putSrc_dram (s : State) (x : Source) : (s.putSrc x).dram = s.dram := rfl
@[simp] theorem State.putSrc_dmc (s : State) (x : Source) : (s.putSrc x).dmc = s.dmc := rfl
@[simp] theorem State.putSrc_flash (s : State) (x : Source) : (s.putSrc x).flash = s.flash := rfl
@[simp] theorem State.putSrc_qspi (s : State) (x : Source) : (s.putSrc x).qspi = s.qspi := rfl
@[simp] theorem State.putSrc_factoryTrim (s : State) (x : Source) : (s.putSrc x).factoryTrim = s.factoryTrim := rfl
@[simp] theorem State.putSrc_rdData (s : State) (x : Source) : (s.putSrc x).rdData = s.rdData := rfl
@[simp] theorem State.putSrc_rdData2 (s : State) (x : Source) : (s.putSrc x).rdData2 = s.rdData2 := rfl
@[simp] theorem State.putSrc_sent (s : State) (x : Source) : (s.putSrc x).sent = s.sent := rfl
@[simp] theorem State.putSrc_freeCtr (s : State) (x : Source) : (s.putSrc x).freeCtr = s.freeCtr := rfl
@[simp] theorem State.putSrc_pending (s : State) (x : Source) : (s.putSrc x).pending = s.pending := rfl

/-! putSched -/

@[simp] theorem State.putSched_part (s : State) (x : Sched) : (s.putSched x).part = s.part := rfl
@[simp] theorem State.putSched_time (s : State) (x : Sched) : (s.putSched x).time = s.time := rfl
@[simp] theorem State.putSched_supply (s : State) (x : Sched) : (s.putSched x).supply = s.supply := rfl
@[simp] theorem State.putSched_ctl (s : State) (x : Sched) : (s.putSched x).ctl = s.ctl := rfl
@[simp] theorem State.putSched_regs (s : State) (x : Sched) : (s.putSched x).regs = s.regs := rfl
@[simp] theorem State.putSched_latches (s : State) (x : Sched) : (s.putSched x).latches = s.latches := rfl
@[simp] theorem State.putSched_hif (s : State) (x : Sched) : (s.putSched x).hif = s.hif := rfl
@[simp] theorem State.putSched_evr (s : State) (x : Sched) : (s.putSched x).evr = s.evr := rfl
@[simp] theorem State.putSched_saf (s : State) (x : Sched) : (s.putSched x).saf = s.saf := rfl
@[simp] theorem State.putSched_src (s : State) (x : Sched) : (s.putSched x).src = s.src := rfl
@[simp] theorem State.putSched_sched (s : State) (x : Sched) : (s.putSched x).sched = x := rfl
@[simp] theorem State.putSched_cal (s : State) (x : Sched) : (s.putSched x).cal = s.cal := rfl
@[simp] theorem State.putSched_aux (s : State) (x : Sched) : (s.putSched x).aux = s.aux := rfl
@[simp] theorem State.putSched_blt (s : State) (x : Sched) : (s.putSched x).blt = s.blt := rfl
@[simp] theorem State.putSched_tmb (s : State) (x : Sched) : (s.putSched x).tmb = s.tmb := rfl
@[simp] theorem State.putSched_brl (s : State) (x : Sched) : (s.putSched x).brl = s.brl := rfl
@[simp] theorem State.putSched_mlk (s : State) (x : Sched) : (s.putSched x).mlk = s.mlk := rfl
@[simp] theorem State.putSched_units (s : State) (x : Sched) : (s.putSched x).units = s.units := rfl
@[simp] theorem State.putSched_douts (s : State) (x : Sched) : (s.putSched x).douts = s.douts := rfl
@[simp] theorem State.putSched_blanks (s : State) (x : Sched) : (s.putSched x).blanks = s.blanks := rfl
@[simp] theorem State.putSched_streams (s : State) (x : Sched) : (s.putSched x).streams = s.streams := rfl
@[simp] theorem State.putSched_capRecs (s : State) (x : Sched) : (s.putSched x).capRecs = s.capRecs := rfl
@[simp] theorem State.putSched_cores (s : State) (x : Sched) : (s.putSched x).cores = s.cores := rfl
@[simp] theorem State.putSched_fuses (s : State) (x : Sched) : (s.putSched x).fuses = s.fuses := rfl
@[simp] theorem State.putSched_marchDefault (s : State) (x : Sched) : (s.putSched x).marchDefault = s.marchDefault := rfl
@[simp] theorem State.putSched_marchMode (s : State) (x : Sched) : (s.putSched x).marchMode = s.marchMode := rfl
@[simp] theorem State.putSched_burn (s : State) (x : Sched) : (s.putSched x).burn = s.burn := rfl
@[simp] theorem State.putSched_dram (s : State) (x : Sched) : (s.putSched x).dram = s.dram := rfl
@[simp] theorem State.putSched_dmc (s : State) (x : Sched) : (s.putSched x).dmc = s.dmc := rfl
@[simp] theorem State.putSched_flash (s : State) (x : Sched) : (s.putSched x).flash = s.flash := rfl
@[simp] theorem State.putSched_qspi (s : State) (x : Sched) : (s.putSched x).qspi = s.qspi := rfl
@[simp] theorem State.putSched_factoryTrim (s : State) (x : Sched) : (s.putSched x).factoryTrim = s.factoryTrim := rfl
@[simp] theorem State.putSched_rdData (s : State) (x : Sched) : (s.putSched x).rdData = s.rdData := rfl
@[simp] theorem State.putSched_rdData2 (s : State) (x : Sched) : (s.putSched x).rdData2 = s.rdData2 := rfl
@[simp] theorem State.putSched_sent (s : State) (x : Sched) : (s.putSched x).sent = s.sent := rfl
@[simp] theorem State.putSched_freeCtr (s : State) (x : Sched) : (s.putSched x).freeCtr = s.freeCtr := rfl
@[simp] theorem State.putSched_pending (s : State) (x : Sched) : (s.putSched x).pending = s.pending := rfl

/-! putCal -/

@[simp] theorem State.putCal_part (s : State) (x : Cal) : (s.putCal x).part = s.part := rfl
@[simp] theorem State.putCal_time (s : State) (x : Cal) : (s.putCal x).time = s.time := rfl
@[simp] theorem State.putCal_supply (s : State) (x : Cal) : (s.putCal x).supply = s.supply := rfl
@[simp] theorem State.putCal_ctl (s : State) (x : Cal) : (s.putCal x).ctl = s.ctl := rfl
@[simp] theorem State.putCal_regs (s : State) (x : Cal) : (s.putCal x).regs = s.regs := rfl
@[simp] theorem State.putCal_latches (s : State) (x : Cal) : (s.putCal x).latches = s.latches := rfl
@[simp] theorem State.putCal_hif (s : State) (x : Cal) : (s.putCal x).hif = s.hif := rfl
@[simp] theorem State.putCal_evr (s : State) (x : Cal) : (s.putCal x).evr = s.evr := rfl
@[simp] theorem State.putCal_saf (s : State) (x : Cal) : (s.putCal x).saf = s.saf := rfl
@[simp] theorem State.putCal_src (s : State) (x : Cal) : (s.putCal x).src = s.src := rfl
@[simp] theorem State.putCal_sched (s : State) (x : Cal) : (s.putCal x).sched = s.sched := rfl
@[simp] theorem State.putCal_cal (s : State) (x : Cal) : (s.putCal x).cal = x := rfl
@[simp] theorem State.putCal_aux (s : State) (x : Cal) : (s.putCal x).aux = s.aux := rfl
@[simp] theorem State.putCal_blt (s : State) (x : Cal) : (s.putCal x).blt = s.blt := rfl
@[simp] theorem State.putCal_tmb (s : State) (x : Cal) : (s.putCal x).tmb = s.tmb := rfl
@[simp] theorem State.putCal_brl (s : State) (x : Cal) : (s.putCal x).brl = s.brl := rfl
@[simp] theorem State.putCal_mlk (s : State) (x : Cal) : (s.putCal x).mlk = s.mlk := rfl
@[simp] theorem State.putCal_units (s : State) (x : Cal) : (s.putCal x).units = s.units := rfl
@[simp] theorem State.putCal_douts (s : State) (x : Cal) : (s.putCal x).douts = s.douts := rfl
@[simp] theorem State.putCal_blanks (s : State) (x : Cal) : (s.putCal x).blanks = s.blanks := rfl
@[simp] theorem State.putCal_streams (s : State) (x : Cal) : (s.putCal x).streams = s.streams := rfl
@[simp] theorem State.putCal_capRecs (s : State) (x : Cal) : (s.putCal x).capRecs = s.capRecs := rfl
@[simp] theorem State.putCal_cores (s : State) (x : Cal) : (s.putCal x).cores = s.cores := rfl
@[simp] theorem State.putCal_fuses (s : State) (x : Cal) : (s.putCal x).fuses = s.fuses := rfl
@[simp] theorem State.putCal_marchDefault (s : State) (x : Cal) : (s.putCal x).marchDefault = s.marchDefault := rfl
@[simp] theorem State.putCal_marchMode (s : State) (x : Cal) : (s.putCal x).marchMode = s.marchMode := rfl
@[simp] theorem State.putCal_burn (s : State) (x : Cal) : (s.putCal x).burn = s.burn := rfl
@[simp] theorem State.putCal_dram (s : State) (x : Cal) : (s.putCal x).dram = s.dram := rfl
@[simp] theorem State.putCal_dmc (s : State) (x : Cal) : (s.putCal x).dmc = s.dmc := rfl
@[simp] theorem State.putCal_flash (s : State) (x : Cal) : (s.putCal x).flash = s.flash := rfl
@[simp] theorem State.putCal_qspi (s : State) (x : Cal) : (s.putCal x).qspi = s.qspi := rfl
@[simp] theorem State.putCal_factoryTrim (s : State) (x : Cal) : (s.putCal x).factoryTrim = s.factoryTrim := rfl
@[simp] theorem State.putCal_rdData (s : State) (x : Cal) : (s.putCal x).rdData = s.rdData := rfl
@[simp] theorem State.putCal_rdData2 (s : State) (x : Cal) : (s.putCal x).rdData2 = s.rdData2 := rfl
@[simp] theorem State.putCal_sent (s : State) (x : Cal) : (s.putCal x).sent = s.sent := rfl
@[simp] theorem State.putCal_freeCtr (s : State) (x : Cal) : (s.putCal x).freeCtr = s.freeCtr := rfl
@[simp] theorem State.putCal_pending (s : State) (x : Cal) : (s.putCal x).pending = s.pending := rfl

/-! putAux -/

@[simp] theorem State.putAux_part (s : State) (x : Aux) : (s.putAux x).part = s.part := rfl
@[simp] theorem State.putAux_time (s : State) (x : Aux) : (s.putAux x).time = s.time := rfl
@[simp] theorem State.putAux_supply (s : State) (x : Aux) : (s.putAux x).supply = s.supply := rfl
@[simp] theorem State.putAux_ctl (s : State) (x : Aux) : (s.putAux x).ctl = s.ctl := rfl
@[simp] theorem State.putAux_regs (s : State) (x : Aux) : (s.putAux x).regs = s.regs := rfl
@[simp] theorem State.putAux_latches (s : State) (x : Aux) : (s.putAux x).latches = s.latches := rfl
@[simp] theorem State.putAux_hif (s : State) (x : Aux) : (s.putAux x).hif = s.hif := rfl
@[simp] theorem State.putAux_evr (s : State) (x : Aux) : (s.putAux x).evr = s.evr := rfl
@[simp] theorem State.putAux_saf (s : State) (x : Aux) : (s.putAux x).saf = s.saf := rfl
@[simp] theorem State.putAux_src (s : State) (x : Aux) : (s.putAux x).src = s.src := rfl
@[simp] theorem State.putAux_sched (s : State) (x : Aux) : (s.putAux x).sched = s.sched := rfl
@[simp] theorem State.putAux_cal (s : State) (x : Aux) : (s.putAux x).cal = s.cal := rfl
@[simp] theorem State.putAux_aux (s : State) (x : Aux) : (s.putAux x).aux = x := rfl
@[simp] theorem State.putAux_blt (s : State) (x : Aux) : (s.putAux x).blt = s.blt := rfl
@[simp] theorem State.putAux_tmb (s : State) (x : Aux) : (s.putAux x).tmb = s.tmb := rfl
@[simp] theorem State.putAux_brl (s : State) (x : Aux) : (s.putAux x).brl = s.brl := rfl
@[simp] theorem State.putAux_mlk (s : State) (x : Aux) : (s.putAux x).mlk = s.mlk := rfl
@[simp] theorem State.putAux_units (s : State) (x : Aux) : (s.putAux x).units = s.units := rfl
@[simp] theorem State.putAux_douts (s : State) (x : Aux) : (s.putAux x).douts = s.douts := rfl
@[simp] theorem State.putAux_blanks (s : State) (x : Aux) : (s.putAux x).blanks = s.blanks := rfl
@[simp] theorem State.putAux_streams (s : State) (x : Aux) : (s.putAux x).streams = s.streams := rfl
@[simp] theorem State.putAux_capRecs (s : State) (x : Aux) : (s.putAux x).capRecs = s.capRecs := rfl
@[simp] theorem State.putAux_cores (s : State) (x : Aux) : (s.putAux x).cores = s.cores := rfl
@[simp] theorem State.putAux_fuses (s : State) (x : Aux) : (s.putAux x).fuses = s.fuses := rfl
@[simp] theorem State.putAux_marchDefault (s : State) (x : Aux) : (s.putAux x).marchDefault = s.marchDefault := rfl
@[simp] theorem State.putAux_marchMode (s : State) (x : Aux) : (s.putAux x).marchMode = s.marchMode := rfl
@[simp] theorem State.putAux_burn (s : State) (x : Aux) : (s.putAux x).burn = s.burn := rfl
@[simp] theorem State.putAux_dram (s : State) (x : Aux) : (s.putAux x).dram = s.dram := rfl
@[simp] theorem State.putAux_dmc (s : State) (x : Aux) : (s.putAux x).dmc = s.dmc := rfl
@[simp] theorem State.putAux_flash (s : State) (x : Aux) : (s.putAux x).flash = s.flash := rfl
@[simp] theorem State.putAux_qspi (s : State) (x : Aux) : (s.putAux x).qspi = s.qspi := rfl
@[simp] theorem State.putAux_factoryTrim (s : State) (x : Aux) : (s.putAux x).factoryTrim = s.factoryTrim := rfl
@[simp] theorem State.putAux_rdData (s : State) (x : Aux) : (s.putAux x).rdData = s.rdData := rfl
@[simp] theorem State.putAux_rdData2 (s : State) (x : Aux) : (s.putAux x).rdData2 = s.rdData2 := rfl
@[simp] theorem State.putAux_sent (s : State) (x : Aux) : (s.putAux x).sent = s.sent := rfl
@[simp] theorem State.putAux_freeCtr (s : State) (x : Aux) : (s.putAux x).freeCtr = s.freeCtr := rfl
@[simp] theorem State.putAux_pending (s : State) (x : Aux) : (s.putAux x).pending = s.pending := rfl

/-! putBlt -/

@[simp] theorem State.putBlt_part (s : State) (x : Blt) : (s.putBlt x).part = s.part := rfl
@[simp] theorem State.putBlt_time (s : State) (x : Blt) : (s.putBlt x).time = s.time := rfl
@[simp] theorem State.putBlt_supply (s : State) (x : Blt) : (s.putBlt x).supply = s.supply := rfl
@[simp] theorem State.putBlt_ctl (s : State) (x : Blt) : (s.putBlt x).ctl = s.ctl := rfl
@[simp] theorem State.putBlt_regs (s : State) (x : Blt) : (s.putBlt x).regs = s.regs := rfl
@[simp] theorem State.putBlt_latches (s : State) (x : Blt) : (s.putBlt x).latches = s.latches := rfl
@[simp] theorem State.putBlt_hif (s : State) (x : Blt) : (s.putBlt x).hif = s.hif := rfl
@[simp] theorem State.putBlt_evr (s : State) (x : Blt) : (s.putBlt x).evr = s.evr := rfl
@[simp] theorem State.putBlt_saf (s : State) (x : Blt) : (s.putBlt x).saf = s.saf := rfl
@[simp] theorem State.putBlt_src (s : State) (x : Blt) : (s.putBlt x).src = s.src := rfl
@[simp] theorem State.putBlt_sched (s : State) (x : Blt) : (s.putBlt x).sched = s.sched := rfl
@[simp] theorem State.putBlt_cal (s : State) (x : Blt) : (s.putBlt x).cal = s.cal := rfl
@[simp] theorem State.putBlt_aux (s : State) (x : Blt) : (s.putBlt x).aux = s.aux := rfl
@[simp] theorem State.putBlt_blt (s : State) (x : Blt) : (s.putBlt x).blt = x := rfl
@[simp] theorem State.putBlt_tmb (s : State) (x : Blt) : (s.putBlt x).tmb = s.tmb := rfl
@[simp] theorem State.putBlt_brl (s : State) (x : Blt) : (s.putBlt x).brl = s.brl := rfl
@[simp] theorem State.putBlt_mlk (s : State) (x : Blt) : (s.putBlt x).mlk = s.mlk := rfl
@[simp] theorem State.putBlt_units (s : State) (x : Blt) : (s.putBlt x).units = s.units := rfl
@[simp] theorem State.putBlt_douts (s : State) (x : Blt) : (s.putBlt x).douts = s.douts := rfl
@[simp] theorem State.putBlt_blanks (s : State) (x : Blt) : (s.putBlt x).blanks = s.blanks := rfl
@[simp] theorem State.putBlt_streams (s : State) (x : Blt) : (s.putBlt x).streams = s.streams := rfl
@[simp] theorem State.putBlt_capRecs (s : State) (x : Blt) : (s.putBlt x).capRecs = s.capRecs := rfl
@[simp] theorem State.putBlt_cores (s : State) (x : Blt) : (s.putBlt x).cores = s.cores := rfl
@[simp] theorem State.putBlt_fuses (s : State) (x : Blt) : (s.putBlt x).fuses = s.fuses := rfl
@[simp] theorem State.putBlt_marchDefault (s : State) (x : Blt) : (s.putBlt x).marchDefault = s.marchDefault := rfl
@[simp] theorem State.putBlt_marchMode (s : State) (x : Blt) : (s.putBlt x).marchMode = s.marchMode := rfl
@[simp] theorem State.putBlt_burn (s : State) (x : Blt) : (s.putBlt x).burn = s.burn := rfl
@[simp] theorem State.putBlt_dram (s : State) (x : Blt) : (s.putBlt x).dram = s.dram := rfl
@[simp] theorem State.putBlt_dmc (s : State) (x : Blt) : (s.putBlt x).dmc = s.dmc := rfl
@[simp] theorem State.putBlt_flash (s : State) (x : Blt) : (s.putBlt x).flash = s.flash := rfl
@[simp] theorem State.putBlt_qspi (s : State) (x : Blt) : (s.putBlt x).qspi = s.qspi := rfl
@[simp] theorem State.putBlt_factoryTrim (s : State) (x : Blt) : (s.putBlt x).factoryTrim = s.factoryTrim := rfl
@[simp] theorem State.putBlt_rdData (s : State) (x : Blt) : (s.putBlt x).rdData = s.rdData := rfl
@[simp] theorem State.putBlt_rdData2 (s : State) (x : Blt) : (s.putBlt x).rdData2 = s.rdData2 := rfl
@[simp] theorem State.putBlt_sent (s : State) (x : Blt) : (s.putBlt x).sent = s.sent := rfl
@[simp] theorem State.putBlt_freeCtr (s : State) (x : Blt) : (s.putBlt x).freeCtr = s.freeCtr := rfl
@[simp] theorem State.putBlt_pending (s : State) (x : Blt) : (s.putBlt x).pending = s.pending := rfl

/-! putTmb -/

@[simp] theorem State.putTmb_part (s : State) (x : Tmb) : (s.putTmb x).part = s.part := rfl
@[simp] theorem State.putTmb_time (s : State) (x : Tmb) : (s.putTmb x).time = s.time := rfl
@[simp] theorem State.putTmb_supply (s : State) (x : Tmb) : (s.putTmb x).supply = s.supply := rfl
@[simp] theorem State.putTmb_ctl (s : State) (x : Tmb) : (s.putTmb x).ctl = s.ctl := rfl
@[simp] theorem State.putTmb_regs (s : State) (x : Tmb) : (s.putTmb x).regs = s.regs := rfl
@[simp] theorem State.putTmb_latches (s : State) (x : Tmb) : (s.putTmb x).latches = s.latches := rfl
@[simp] theorem State.putTmb_hif (s : State) (x : Tmb) : (s.putTmb x).hif = s.hif := rfl
@[simp] theorem State.putTmb_evr (s : State) (x : Tmb) : (s.putTmb x).evr = s.evr := rfl
@[simp] theorem State.putTmb_saf (s : State) (x : Tmb) : (s.putTmb x).saf = s.saf := rfl
@[simp] theorem State.putTmb_src (s : State) (x : Tmb) : (s.putTmb x).src = s.src := rfl
@[simp] theorem State.putTmb_sched (s : State) (x : Tmb) : (s.putTmb x).sched = s.sched := rfl
@[simp] theorem State.putTmb_cal (s : State) (x : Tmb) : (s.putTmb x).cal = s.cal := rfl
@[simp] theorem State.putTmb_aux (s : State) (x : Tmb) : (s.putTmb x).aux = s.aux := rfl
@[simp] theorem State.putTmb_blt (s : State) (x : Tmb) : (s.putTmb x).blt = s.blt := rfl
@[simp] theorem State.putTmb_tmb (s : State) (x : Tmb) : (s.putTmb x).tmb = x := rfl
@[simp] theorem State.putTmb_brl (s : State) (x : Tmb) : (s.putTmb x).brl = s.brl := rfl
@[simp] theorem State.putTmb_mlk (s : State) (x : Tmb) : (s.putTmb x).mlk = s.mlk := rfl
@[simp] theorem State.putTmb_units (s : State) (x : Tmb) : (s.putTmb x).units = s.units := rfl
@[simp] theorem State.putTmb_douts (s : State) (x : Tmb) : (s.putTmb x).douts = s.douts := rfl
@[simp] theorem State.putTmb_blanks (s : State) (x : Tmb) : (s.putTmb x).blanks = s.blanks := rfl
@[simp] theorem State.putTmb_streams (s : State) (x : Tmb) : (s.putTmb x).streams = s.streams := rfl
@[simp] theorem State.putTmb_capRecs (s : State) (x : Tmb) : (s.putTmb x).capRecs = s.capRecs := rfl
@[simp] theorem State.putTmb_cores (s : State) (x : Tmb) : (s.putTmb x).cores = s.cores := rfl
@[simp] theorem State.putTmb_fuses (s : State) (x : Tmb) : (s.putTmb x).fuses = s.fuses := rfl
@[simp] theorem State.putTmb_marchDefault (s : State) (x : Tmb) : (s.putTmb x).marchDefault = s.marchDefault := rfl
@[simp] theorem State.putTmb_marchMode (s : State) (x : Tmb) : (s.putTmb x).marchMode = s.marchMode := rfl
@[simp] theorem State.putTmb_burn (s : State) (x : Tmb) : (s.putTmb x).burn = s.burn := rfl
@[simp] theorem State.putTmb_dram (s : State) (x : Tmb) : (s.putTmb x).dram = s.dram := rfl
@[simp] theorem State.putTmb_dmc (s : State) (x : Tmb) : (s.putTmb x).dmc = s.dmc := rfl
@[simp] theorem State.putTmb_flash (s : State) (x : Tmb) : (s.putTmb x).flash = s.flash := rfl
@[simp] theorem State.putTmb_qspi (s : State) (x : Tmb) : (s.putTmb x).qspi = s.qspi := rfl
@[simp] theorem State.putTmb_factoryTrim (s : State) (x : Tmb) : (s.putTmb x).factoryTrim = s.factoryTrim := rfl
@[simp] theorem State.putTmb_rdData (s : State) (x : Tmb) : (s.putTmb x).rdData = s.rdData := rfl
@[simp] theorem State.putTmb_rdData2 (s : State) (x : Tmb) : (s.putTmb x).rdData2 = s.rdData2 := rfl
@[simp] theorem State.putTmb_sent (s : State) (x : Tmb) : (s.putTmb x).sent = s.sent := rfl
@[simp] theorem State.putTmb_freeCtr (s : State) (x : Tmb) : (s.putTmb x).freeCtr = s.freeCtr := rfl
@[simp] theorem State.putTmb_pending (s : State) (x : Tmb) : (s.putTmb x).pending = s.pending := rfl

/-! putBrl -/

@[simp] theorem State.putBrl_part (s : State) (x : SMap BrlPort) : (s.putBrl x).part = s.part := rfl
@[simp] theorem State.putBrl_time (s : State) (x : SMap BrlPort) : (s.putBrl x).time = s.time := rfl
@[simp] theorem State.putBrl_supply (s : State) (x : SMap BrlPort) : (s.putBrl x).supply = s.supply := rfl
@[simp] theorem State.putBrl_ctl (s : State) (x : SMap BrlPort) : (s.putBrl x).ctl = s.ctl := rfl
@[simp] theorem State.putBrl_regs (s : State) (x : SMap BrlPort) : (s.putBrl x).regs = s.regs := rfl
@[simp] theorem State.putBrl_latches (s : State) (x : SMap BrlPort) : (s.putBrl x).latches = s.latches := rfl
@[simp] theorem State.putBrl_hif (s : State) (x : SMap BrlPort) : (s.putBrl x).hif = s.hif := rfl
@[simp] theorem State.putBrl_evr (s : State) (x : SMap BrlPort) : (s.putBrl x).evr = s.evr := rfl
@[simp] theorem State.putBrl_saf (s : State) (x : SMap BrlPort) : (s.putBrl x).saf = s.saf := rfl
@[simp] theorem State.putBrl_src (s : State) (x : SMap BrlPort) : (s.putBrl x).src = s.src := rfl
@[simp] theorem State.putBrl_sched (s : State) (x : SMap BrlPort) : (s.putBrl x).sched = s.sched := rfl
@[simp] theorem State.putBrl_cal (s : State) (x : SMap BrlPort) : (s.putBrl x).cal = s.cal := rfl
@[simp] theorem State.putBrl_aux (s : State) (x : SMap BrlPort) : (s.putBrl x).aux = s.aux := rfl
@[simp] theorem State.putBrl_blt (s : State) (x : SMap BrlPort) : (s.putBrl x).blt = s.blt := rfl
@[simp] theorem State.putBrl_tmb (s : State) (x : SMap BrlPort) : (s.putBrl x).tmb = s.tmb := rfl
@[simp] theorem State.putBrl_brl (s : State) (x : SMap BrlPort) : (s.putBrl x).brl = x := rfl
@[simp] theorem State.putBrl_mlk (s : State) (x : SMap BrlPort) : (s.putBrl x).mlk = s.mlk := rfl
@[simp] theorem State.putBrl_units (s : State) (x : SMap BrlPort) : (s.putBrl x).units = s.units := rfl
@[simp] theorem State.putBrl_douts (s : State) (x : SMap BrlPort) : (s.putBrl x).douts = s.douts := rfl
@[simp] theorem State.putBrl_blanks (s : State) (x : SMap BrlPort) : (s.putBrl x).blanks = s.blanks := rfl
@[simp] theorem State.putBrl_streams (s : State) (x : SMap BrlPort) : (s.putBrl x).streams = s.streams := rfl
@[simp] theorem State.putBrl_capRecs (s : State) (x : SMap BrlPort) : (s.putBrl x).capRecs = s.capRecs := rfl
@[simp] theorem State.putBrl_cores (s : State) (x : SMap BrlPort) : (s.putBrl x).cores = s.cores := rfl
@[simp] theorem State.putBrl_fuses (s : State) (x : SMap BrlPort) : (s.putBrl x).fuses = s.fuses := rfl
@[simp] theorem State.putBrl_marchDefault (s : State) (x : SMap BrlPort) : (s.putBrl x).marchDefault = s.marchDefault := rfl
@[simp] theorem State.putBrl_marchMode (s : State) (x : SMap BrlPort) : (s.putBrl x).marchMode = s.marchMode := rfl
@[simp] theorem State.putBrl_burn (s : State) (x : SMap BrlPort) : (s.putBrl x).burn = s.burn := rfl
@[simp] theorem State.putBrl_dram (s : State) (x : SMap BrlPort) : (s.putBrl x).dram = s.dram := rfl
@[simp] theorem State.putBrl_dmc (s : State) (x : SMap BrlPort) : (s.putBrl x).dmc = s.dmc := rfl
@[simp] theorem State.putBrl_flash (s : State) (x : SMap BrlPort) : (s.putBrl x).flash = s.flash := rfl
@[simp] theorem State.putBrl_qspi (s : State) (x : SMap BrlPort) : (s.putBrl x).qspi = s.qspi := rfl
@[simp] theorem State.putBrl_factoryTrim (s : State) (x : SMap BrlPort) : (s.putBrl x).factoryTrim = s.factoryTrim := rfl
@[simp] theorem State.putBrl_rdData (s : State) (x : SMap BrlPort) : (s.putBrl x).rdData = s.rdData := rfl
@[simp] theorem State.putBrl_rdData2 (s : State) (x : SMap BrlPort) : (s.putBrl x).rdData2 = s.rdData2 := rfl
@[simp] theorem State.putBrl_sent (s : State) (x : SMap BrlPort) : (s.putBrl x).sent = s.sent := rfl
@[simp] theorem State.putBrl_freeCtr (s : State) (x : SMap BrlPort) : (s.putBrl x).freeCtr = s.freeCtr := rfl
@[simp] theorem State.putBrl_pending (s : State) (x : SMap BrlPort) : (s.putBrl x).pending = s.pending := rfl

/-! putMlk -/

@[simp] theorem State.putMlk_part (s : State) (x : Mlk) : (s.putMlk x).part = s.part := rfl
@[simp] theorem State.putMlk_time (s : State) (x : Mlk) : (s.putMlk x).time = s.time := rfl
@[simp] theorem State.putMlk_supply (s : State) (x : Mlk) : (s.putMlk x).supply = s.supply := rfl
@[simp] theorem State.putMlk_ctl (s : State) (x : Mlk) : (s.putMlk x).ctl = s.ctl := rfl
@[simp] theorem State.putMlk_regs (s : State) (x : Mlk) : (s.putMlk x).regs = s.regs := rfl
@[simp] theorem State.putMlk_latches (s : State) (x : Mlk) : (s.putMlk x).latches = s.latches := rfl
@[simp] theorem State.putMlk_hif (s : State) (x : Mlk) : (s.putMlk x).hif = s.hif := rfl
@[simp] theorem State.putMlk_evr (s : State) (x : Mlk) : (s.putMlk x).evr = s.evr := rfl
@[simp] theorem State.putMlk_saf (s : State) (x : Mlk) : (s.putMlk x).saf = s.saf := rfl
@[simp] theorem State.putMlk_src (s : State) (x : Mlk) : (s.putMlk x).src = s.src := rfl
@[simp] theorem State.putMlk_sched (s : State) (x : Mlk) : (s.putMlk x).sched = s.sched := rfl
@[simp] theorem State.putMlk_cal (s : State) (x : Mlk) : (s.putMlk x).cal = s.cal := rfl
@[simp] theorem State.putMlk_aux (s : State) (x : Mlk) : (s.putMlk x).aux = s.aux := rfl
@[simp] theorem State.putMlk_blt (s : State) (x : Mlk) : (s.putMlk x).blt = s.blt := rfl
@[simp] theorem State.putMlk_tmb (s : State) (x : Mlk) : (s.putMlk x).tmb = s.tmb := rfl
@[simp] theorem State.putMlk_brl (s : State) (x : Mlk) : (s.putMlk x).brl = s.brl := rfl
@[simp] theorem State.putMlk_mlk (s : State) (x : Mlk) : (s.putMlk x).mlk = x := rfl
@[simp] theorem State.putMlk_units (s : State) (x : Mlk) : (s.putMlk x).units = s.units := rfl
@[simp] theorem State.putMlk_douts (s : State) (x : Mlk) : (s.putMlk x).douts = s.douts := rfl
@[simp] theorem State.putMlk_blanks (s : State) (x : Mlk) : (s.putMlk x).blanks = s.blanks := rfl
@[simp] theorem State.putMlk_streams (s : State) (x : Mlk) : (s.putMlk x).streams = s.streams := rfl
@[simp] theorem State.putMlk_capRecs (s : State) (x : Mlk) : (s.putMlk x).capRecs = s.capRecs := rfl
@[simp] theorem State.putMlk_cores (s : State) (x : Mlk) : (s.putMlk x).cores = s.cores := rfl
@[simp] theorem State.putMlk_fuses (s : State) (x : Mlk) : (s.putMlk x).fuses = s.fuses := rfl
@[simp] theorem State.putMlk_marchDefault (s : State) (x : Mlk) : (s.putMlk x).marchDefault = s.marchDefault := rfl
@[simp] theorem State.putMlk_marchMode (s : State) (x : Mlk) : (s.putMlk x).marchMode = s.marchMode := rfl
@[simp] theorem State.putMlk_burn (s : State) (x : Mlk) : (s.putMlk x).burn = s.burn := rfl
@[simp] theorem State.putMlk_dram (s : State) (x : Mlk) : (s.putMlk x).dram = s.dram := rfl
@[simp] theorem State.putMlk_dmc (s : State) (x : Mlk) : (s.putMlk x).dmc = s.dmc := rfl
@[simp] theorem State.putMlk_flash (s : State) (x : Mlk) : (s.putMlk x).flash = s.flash := rfl
@[simp] theorem State.putMlk_qspi (s : State) (x : Mlk) : (s.putMlk x).qspi = s.qspi := rfl
@[simp] theorem State.putMlk_factoryTrim (s : State) (x : Mlk) : (s.putMlk x).factoryTrim = s.factoryTrim := rfl
@[simp] theorem State.putMlk_rdData (s : State) (x : Mlk) : (s.putMlk x).rdData = s.rdData := rfl
@[simp] theorem State.putMlk_rdData2 (s : State) (x : Mlk) : (s.putMlk x).rdData2 = s.rdData2 := rfl
@[simp] theorem State.putMlk_sent (s : State) (x : Mlk) : (s.putMlk x).sent = s.sent := rfl
@[simp] theorem State.putMlk_freeCtr (s : State) (x : Mlk) : (s.putMlk x).freeCtr = s.freeCtr := rfl
@[simp] theorem State.putMlk_pending (s : State) (x : Mlk) : (s.putMlk x).pending = s.pending := rfl

/-! putUnits -/

@[simp] theorem State.putUnits_part (s : State) (x : SMap TrgUnit) : (s.putUnits x).part = s.part := rfl
@[simp] theorem State.putUnits_time (s : State) (x : SMap TrgUnit) : (s.putUnits x).time = s.time := rfl
@[simp] theorem State.putUnits_supply (s : State) (x : SMap TrgUnit) : (s.putUnits x).supply = s.supply := rfl
@[simp] theorem State.putUnits_ctl (s : State) (x : SMap TrgUnit) : (s.putUnits x).ctl = s.ctl := rfl
@[simp] theorem State.putUnits_regs (s : State) (x : SMap TrgUnit) : (s.putUnits x).regs = s.regs := rfl
@[simp] theorem State.putUnits_latches (s : State) (x : SMap TrgUnit) : (s.putUnits x).latches = s.latches := rfl
@[simp] theorem State.putUnits_hif (s : State) (x : SMap TrgUnit) : (s.putUnits x).hif = s.hif := rfl
@[simp] theorem State.putUnits_evr (s : State) (x : SMap TrgUnit) : (s.putUnits x).evr = s.evr := rfl
@[simp] theorem State.putUnits_saf (s : State) (x : SMap TrgUnit) : (s.putUnits x).saf = s.saf := rfl
@[simp] theorem State.putUnits_src (s : State) (x : SMap TrgUnit) : (s.putUnits x).src = s.src := rfl
@[simp] theorem State.putUnits_sched (s : State) (x : SMap TrgUnit) : (s.putUnits x).sched = s.sched := rfl
@[simp] theorem State.putUnits_cal (s : State) (x : SMap TrgUnit) : (s.putUnits x).cal = s.cal := rfl
@[simp] theorem State.putUnits_aux (s : State) (x : SMap TrgUnit) : (s.putUnits x).aux = s.aux := rfl
@[simp] theorem State.putUnits_blt (s : State) (x : SMap TrgUnit) : (s.putUnits x).blt = s.blt := rfl
@[simp] theorem State.putUnits_tmb (s : State) (x : SMap TrgUnit) : (s.putUnits x).tmb = s.tmb := rfl
@[simp] theorem State.putUnits_brl (s : State) (x : SMap TrgUnit) : (s.putUnits x).brl = s.brl := rfl
@[simp] theorem State.putUnits_mlk (s : State) (x : SMap TrgUnit) : (s.putUnits x).mlk = s.mlk := rfl
@[simp] theorem State.putUnits_units (s : State) (x : SMap TrgUnit) : (s.putUnits x).units = x := rfl
@[simp] theorem State.putUnits_douts (s : State) (x : SMap TrgUnit) : (s.putUnits x).douts = s.douts := rfl
@[simp] theorem State.putUnits_blanks (s : State) (x : SMap TrgUnit) : (s.putUnits x).blanks = s.blanks := rfl
@[simp] theorem State.putUnits_streams (s : State) (x : SMap TrgUnit) : (s.putUnits x).streams = s.streams := rfl
@[simp] theorem State.putUnits_capRecs (s : State) (x : SMap TrgUnit) : (s.putUnits x).capRecs = s.capRecs := rfl
@[simp] theorem State.putUnits_cores (s : State) (x : SMap TrgUnit) : (s.putUnits x).cores = s.cores := rfl
@[simp] theorem State.putUnits_fuses (s : State) (x : SMap TrgUnit) : (s.putUnits x).fuses = s.fuses := rfl
@[simp] theorem State.putUnits_marchDefault (s : State) (x : SMap TrgUnit) : (s.putUnits x).marchDefault = s.marchDefault := rfl
@[simp] theorem State.putUnits_marchMode (s : State) (x : SMap TrgUnit) : (s.putUnits x).marchMode = s.marchMode := rfl
@[simp] theorem State.putUnits_burn (s : State) (x : SMap TrgUnit) : (s.putUnits x).burn = s.burn := rfl
@[simp] theorem State.putUnits_dram (s : State) (x : SMap TrgUnit) : (s.putUnits x).dram = s.dram := rfl
@[simp] theorem State.putUnits_dmc (s : State) (x : SMap TrgUnit) : (s.putUnits x).dmc = s.dmc := rfl
@[simp] theorem State.putUnits_flash (s : State) (x : SMap TrgUnit) : (s.putUnits x).flash = s.flash := rfl
@[simp] theorem State.putUnits_qspi (s : State) (x : SMap TrgUnit) : (s.putUnits x).qspi = s.qspi := rfl
@[simp] theorem State.putUnits_factoryTrim (s : State) (x : SMap TrgUnit) : (s.putUnits x).factoryTrim = s.factoryTrim := rfl
@[simp] theorem State.putUnits_rdData (s : State) (x : SMap TrgUnit) : (s.putUnits x).rdData = s.rdData := rfl
@[simp] theorem State.putUnits_rdData2 (s : State) (x : SMap TrgUnit) : (s.putUnits x).rdData2 = s.rdData2 := rfl
@[simp] theorem State.putUnits_sent (s : State) (x : SMap TrgUnit) : (s.putUnits x).sent = s.sent := rfl
@[simp] theorem State.putUnits_freeCtr (s : State) (x : SMap TrgUnit) : (s.putUnits x).freeCtr = s.freeCtr := rfl
@[simp] theorem State.putUnits_pending (s : State) (x : SMap TrgUnit) : (s.putUnits x).pending = s.pending := rfl

/-! putDouts -/

@[simp] theorem State.putDouts_part (s : State) (x : SMap Dout) : (s.putDouts x).part = s.part := rfl
@[simp] theorem State.putDouts_time (s : State) (x : SMap Dout) : (s.putDouts x).time = s.time := rfl
@[simp] theorem State.putDouts_supply (s : State) (x : SMap Dout) : (s.putDouts x).supply = s.supply := rfl
@[simp] theorem State.putDouts_ctl (s : State) (x : SMap Dout) : (s.putDouts x).ctl = s.ctl := rfl
@[simp] theorem State.putDouts_regs (s : State) (x : SMap Dout) : (s.putDouts x).regs = s.regs := rfl
@[simp] theorem State.putDouts_latches (s : State) (x : SMap Dout) : (s.putDouts x).latches = s.latches := rfl
@[simp] theorem State.putDouts_hif (s : State) (x : SMap Dout) : (s.putDouts x).hif = s.hif := rfl
@[simp] theorem State.putDouts_evr (s : State) (x : SMap Dout) : (s.putDouts x).evr = s.evr := rfl
@[simp] theorem State.putDouts_saf (s : State) (x : SMap Dout) : (s.putDouts x).saf = s.saf := rfl
@[simp] theorem State.putDouts_src (s : State) (x : SMap Dout) : (s.putDouts x).src = s.src := rfl
@[simp] theorem State.putDouts_sched (s : State) (x : SMap Dout) : (s.putDouts x).sched = s.sched := rfl
@[simp] theorem State.putDouts_cal (s : State) (x : SMap Dout) : (s.putDouts x).cal = s.cal := rfl
@[simp] theorem State.putDouts_aux (s : State) (x : SMap Dout) : (s.putDouts x).aux = s.aux := rfl
@[simp] theorem State.putDouts_blt (s : State) (x : SMap Dout) : (s.putDouts x).blt = s.blt := rfl
@[simp] theorem State.putDouts_tmb (s : State) (x : SMap Dout) : (s.putDouts x).tmb = s.tmb := rfl
@[simp] theorem State.putDouts_brl (s : State) (x : SMap Dout) : (s.putDouts x).brl = s.brl := rfl
@[simp] theorem State.putDouts_mlk (s : State) (x : SMap Dout) : (s.putDouts x).mlk = s.mlk := rfl
@[simp] theorem State.putDouts_units (s : State) (x : SMap Dout) : (s.putDouts x).units = s.units := rfl
@[simp] theorem State.putDouts_douts (s : State) (x : SMap Dout) : (s.putDouts x).douts = x := rfl
@[simp] theorem State.putDouts_blanks (s : State) (x : SMap Dout) : (s.putDouts x).blanks = s.blanks := rfl
@[simp] theorem State.putDouts_streams (s : State) (x : SMap Dout) : (s.putDouts x).streams = s.streams := rfl
@[simp] theorem State.putDouts_capRecs (s : State) (x : SMap Dout) : (s.putDouts x).capRecs = s.capRecs := rfl
@[simp] theorem State.putDouts_cores (s : State) (x : SMap Dout) : (s.putDouts x).cores = s.cores := rfl
@[simp] theorem State.putDouts_fuses (s : State) (x : SMap Dout) : (s.putDouts x).fuses = s.fuses := rfl
@[simp] theorem State.putDouts_marchDefault (s : State) (x : SMap Dout) : (s.putDouts x).marchDefault = s.marchDefault := rfl
@[simp] theorem State.putDouts_marchMode (s : State) (x : SMap Dout) : (s.putDouts x).marchMode = s.marchMode := rfl
@[simp] theorem State.putDouts_burn (s : State) (x : SMap Dout) : (s.putDouts x).burn = s.burn := rfl
@[simp] theorem State.putDouts_dram (s : State) (x : SMap Dout) : (s.putDouts x).dram = s.dram := rfl
@[simp] theorem State.putDouts_dmc (s : State) (x : SMap Dout) : (s.putDouts x).dmc = s.dmc := rfl
@[simp] theorem State.putDouts_flash (s : State) (x : SMap Dout) : (s.putDouts x).flash = s.flash := rfl
@[simp] theorem State.putDouts_qspi (s : State) (x : SMap Dout) : (s.putDouts x).qspi = s.qspi := rfl
@[simp] theorem State.putDouts_factoryTrim (s : State) (x : SMap Dout) : (s.putDouts x).factoryTrim = s.factoryTrim := rfl
@[simp] theorem State.putDouts_rdData (s : State) (x : SMap Dout) : (s.putDouts x).rdData = s.rdData := rfl
@[simp] theorem State.putDouts_rdData2 (s : State) (x : SMap Dout) : (s.putDouts x).rdData2 = s.rdData2 := rfl
@[simp] theorem State.putDouts_sent (s : State) (x : SMap Dout) : (s.putDouts x).sent = s.sent := rfl
@[simp] theorem State.putDouts_freeCtr (s : State) (x : SMap Dout) : (s.putDouts x).freeCtr = s.freeCtr := rfl
@[simp] theorem State.putDouts_pending (s : State) (x : SMap Dout) : (s.putDouts x).pending = s.pending := rfl

/-! putBlanks -/

@[simp] theorem State.putBlanks_part (s : State) (x : SMap Blank) : (s.putBlanks x).part = s.part := rfl
@[simp] theorem State.putBlanks_time (s : State) (x : SMap Blank) : (s.putBlanks x).time = s.time := rfl
@[simp] theorem State.putBlanks_supply (s : State) (x : SMap Blank) : (s.putBlanks x).supply = s.supply := rfl
@[simp] theorem State.putBlanks_ctl (s : State) (x : SMap Blank) : (s.putBlanks x).ctl = s.ctl := rfl
@[simp] theorem State.putBlanks_regs (s : State) (x : SMap Blank) : (s.putBlanks x).regs = s.regs := rfl
@[simp] theorem State.putBlanks_latches (s : State) (x : SMap Blank) : (s.putBlanks x).latches = s.latches := rfl
@[simp] theorem State.putBlanks_hif (s : State) (x : SMap Blank) : (s.putBlanks x).hif = s.hif := rfl
@[simp] theorem State.putBlanks_evr (s : State) (x : SMap Blank) : (s.putBlanks x).evr = s.evr := rfl
@[simp] theorem State.putBlanks_saf (s : State) (x : SMap Blank) : (s.putBlanks x).saf = s.saf := rfl
@[simp] theorem State.putBlanks_src (s : State) (x : SMap Blank) : (s.putBlanks x).src = s.src := rfl
@[simp] theorem State.putBlanks_sched (s : State) (x : SMap Blank) : (s.putBlanks x).sched = s.sched := rfl
@[simp] theorem State.putBlanks_cal (s : State) (x : SMap Blank) : (s.putBlanks x).cal = s.cal := rfl
@[simp] theorem State.putBlanks_aux (s : State) (x : SMap Blank) : (s.putBlanks x).aux = s.aux := rfl
@[simp] theorem State.putBlanks_blt (s : State) (x : SMap Blank) : (s.putBlanks x).blt = s.blt := rfl
@[simp] theorem State.putBlanks_tmb (s : State) (x : SMap Blank) : (s.putBlanks x).tmb = s.tmb := rfl
@[simp] theorem State.putBlanks_brl (s : State) (x : SMap Blank) : (s.putBlanks x).brl = s.brl := rfl
@[simp] theorem State.putBlanks_mlk (s : State) (x : SMap Blank) : (s.putBlanks x).mlk = s.mlk := rfl
@[simp] theorem State.putBlanks_units (s : State) (x : SMap Blank) : (s.putBlanks x).units = s.units := rfl
@[simp] theorem State.putBlanks_douts (s : State) (x : SMap Blank) : (s.putBlanks x).douts = s.douts := rfl
@[simp] theorem State.putBlanks_blanks (s : State) (x : SMap Blank) : (s.putBlanks x).blanks = x := rfl
@[simp] theorem State.putBlanks_streams (s : State) (x : SMap Blank) : (s.putBlanks x).streams = s.streams := rfl
@[simp] theorem State.putBlanks_capRecs (s : State) (x : SMap Blank) : (s.putBlanks x).capRecs = s.capRecs := rfl
@[simp] theorem State.putBlanks_cores (s : State) (x : SMap Blank) : (s.putBlanks x).cores = s.cores := rfl
@[simp] theorem State.putBlanks_fuses (s : State) (x : SMap Blank) : (s.putBlanks x).fuses = s.fuses := rfl
@[simp] theorem State.putBlanks_marchDefault (s : State) (x : SMap Blank) : (s.putBlanks x).marchDefault = s.marchDefault := rfl
@[simp] theorem State.putBlanks_marchMode (s : State) (x : SMap Blank) : (s.putBlanks x).marchMode = s.marchMode := rfl
@[simp] theorem State.putBlanks_burn (s : State) (x : SMap Blank) : (s.putBlanks x).burn = s.burn := rfl
@[simp] theorem State.putBlanks_dram (s : State) (x : SMap Blank) : (s.putBlanks x).dram = s.dram := rfl
@[simp] theorem State.putBlanks_dmc (s : State) (x : SMap Blank) : (s.putBlanks x).dmc = s.dmc := rfl
@[simp] theorem State.putBlanks_flash (s : State) (x : SMap Blank) : (s.putBlanks x).flash = s.flash := rfl
@[simp] theorem State.putBlanks_qspi (s : State) (x : SMap Blank) : (s.putBlanks x).qspi = s.qspi := rfl
@[simp] theorem State.putBlanks_factoryTrim (s : State) (x : SMap Blank) : (s.putBlanks x).factoryTrim = s.factoryTrim := rfl
@[simp] theorem State.putBlanks_rdData (s : State) (x : SMap Blank) : (s.putBlanks x).rdData = s.rdData := rfl
@[simp] theorem State.putBlanks_rdData2 (s : State) (x : SMap Blank) : (s.putBlanks x).rdData2 = s.rdData2 := rfl
@[simp] theorem State.putBlanks_sent (s : State) (x : SMap Blank) : (s.putBlanks x).sent = s.sent := rfl
@[simp] theorem State.putBlanks_freeCtr (s : State) (x : SMap Blank) : (s.putBlanks x).freeCtr = s.freeCtr := rfl
@[simp] theorem State.putBlanks_pending (s : State) (x : SMap Blank) : (s.putBlanks x).pending = s.pending := rfl

/-! putStreams -/

@[simp] theorem State.putStreams_part (s : State) (x : SMap PortSt) : (s.putStreams x).part = s.part := rfl
@[simp] theorem State.putStreams_time (s : State) (x : SMap PortSt) : (s.putStreams x).time = s.time := rfl
@[simp] theorem State.putStreams_supply (s : State) (x : SMap PortSt) : (s.putStreams x).supply = s.supply := rfl
@[simp] theorem State.putStreams_ctl (s : State) (x : SMap PortSt) : (s.putStreams x).ctl = s.ctl := rfl
@[simp] theorem State.putStreams_regs (s : State) (x : SMap PortSt) : (s.putStreams x).regs = s.regs := rfl
@[simp] theorem State.putStreams_latches (s : State) (x : SMap PortSt) : (s.putStreams x).latches = s.latches := rfl
@[simp] theorem State.putStreams_hif (s : State) (x : SMap PortSt) : (s.putStreams x).hif = s.hif := rfl
@[simp] theorem State.putStreams_evr (s : State) (x : SMap PortSt) : (s.putStreams x).evr = s.evr := rfl
@[simp] theorem State.putStreams_saf (s : State) (x : SMap PortSt) : (s.putStreams x).saf = s.saf := rfl
@[simp] theorem State.putStreams_src (s : State) (x : SMap PortSt) : (s.putStreams x).src = s.src := rfl
@[simp] theorem State.putStreams_sched (s : State) (x : SMap PortSt) : (s.putStreams x).sched = s.sched := rfl
@[simp] theorem State.putStreams_cal (s : State) (x : SMap PortSt) : (s.putStreams x).cal = s.cal := rfl
@[simp] theorem State.putStreams_aux (s : State) (x : SMap PortSt) : (s.putStreams x).aux = s.aux := rfl
@[simp] theorem State.putStreams_blt (s : State) (x : SMap PortSt) : (s.putStreams x).blt = s.blt := rfl
@[simp] theorem State.putStreams_tmb (s : State) (x : SMap PortSt) : (s.putStreams x).tmb = s.tmb := rfl
@[simp] theorem State.putStreams_brl (s : State) (x : SMap PortSt) : (s.putStreams x).brl = s.brl := rfl
@[simp] theorem State.putStreams_mlk (s : State) (x : SMap PortSt) : (s.putStreams x).mlk = s.mlk := rfl
@[simp] theorem State.putStreams_units (s : State) (x : SMap PortSt) : (s.putStreams x).units = s.units := rfl
@[simp] theorem State.putStreams_douts (s : State) (x : SMap PortSt) : (s.putStreams x).douts = s.douts := rfl
@[simp] theorem State.putStreams_blanks (s : State) (x : SMap PortSt) : (s.putStreams x).blanks = s.blanks := rfl
@[simp] theorem State.putStreams_streams (s : State) (x : SMap PortSt) : (s.putStreams x).streams = x := rfl
@[simp] theorem State.putStreams_capRecs (s : State) (x : SMap PortSt) : (s.putStreams x).capRecs = s.capRecs := rfl
@[simp] theorem State.putStreams_cores (s : State) (x : SMap PortSt) : (s.putStreams x).cores = s.cores := rfl
@[simp] theorem State.putStreams_fuses (s : State) (x : SMap PortSt) : (s.putStreams x).fuses = s.fuses := rfl
@[simp] theorem State.putStreams_marchDefault (s : State) (x : SMap PortSt) : (s.putStreams x).marchDefault = s.marchDefault := rfl
@[simp] theorem State.putStreams_marchMode (s : State) (x : SMap PortSt) : (s.putStreams x).marchMode = s.marchMode := rfl
@[simp] theorem State.putStreams_burn (s : State) (x : SMap PortSt) : (s.putStreams x).burn = s.burn := rfl
@[simp] theorem State.putStreams_dram (s : State) (x : SMap PortSt) : (s.putStreams x).dram = s.dram := rfl
@[simp] theorem State.putStreams_dmc (s : State) (x : SMap PortSt) : (s.putStreams x).dmc = s.dmc := rfl
@[simp] theorem State.putStreams_flash (s : State) (x : SMap PortSt) : (s.putStreams x).flash = s.flash := rfl
@[simp] theorem State.putStreams_qspi (s : State) (x : SMap PortSt) : (s.putStreams x).qspi = s.qspi := rfl
@[simp] theorem State.putStreams_factoryTrim (s : State) (x : SMap PortSt) : (s.putStreams x).factoryTrim = s.factoryTrim := rfl
@[simp] theorem State.putStreams_rdData (s : State) (x : SMap PortSt) : (s.putStreams x).rdData = s.rdData := rfl
@[simp] theorem State.putStreams_rdData2 (s : State) (x : SMap PortSt) : (s.putStreams x).rdData2 = s.rdData2 := rfl
@[simp] theorem State.putStreams_sent (s : State) (x : SMap PortSt) : (s.putStreams x).sent = s.sent := rfl
@[simp] theorem State.putStreams_freeCtr (s : State) (x : SMap PortSt) : (s.putStreams x).freeCtr = s.freeCtr := rfl
@[simp] theorem State.putStreams_pending (s : State) (x : SMap PortSt) : (s.putStreams x).pending = s.pending := rfl

/-! putCapRecs -/

@[simp] theorem State.putCapRecs_part (s : State) (x : SMap Nat) : (s.putCapRecs x).part = s.part := rfl
@[simp] theorem State.putCapRecs_time (s : State) (x : SMap Nat) : (s.putCapRecs x).time = s.time := rfl
@[simp] theorem State.putCapRecs_supply (s : State) (x : SMap Nat) : (s.putCapRecs x).supply = s.supply := rfl
@[simp] theorem State.putCapRecs_ctl (s : State) (x : SMap Nat) : (s.putCapRecs x).ctl = s.ctl := rfl
@[simp] theorem State.putCapRecs_regs (s : State) (x : SMap Nat) : (s.putCapRecs x).regs = s.regs := rfl
@[simp] theorem State.putCapRecs_latches (s : State) (x : SMap Nat) : (s.putCapRecs x).latches = s.latches := rfl
@[simp] theorem State.putCapRecs_hif (s : State) (x : SMap Nat) : (s.putCapRecs x).hif = s.hif := rfl
@[simp] theorem State.putCapRecs_evr (s : State) (x : SMap Nat) : (s.putCapRecs x).evr = s.evr := rfl
@[simp] theorem State.putCapRecs_saf (s : State) (x : SMap Nat) : (s.putCapRecs x).saf = s.saf := rfl
@[simp] theorem State.putCapRecs_src (s : State) (x : SMap Nat) : (s.putCapRecs x).src = s.src := rfl
@[simp] theorem State.putCapRecs_sched (s : State) (x : SMap Nat) : (s.putCapRecs x).sched = s.sched := rfl
@[simp] theorem State.putCapRecs_cal (s : State) (x : SMap Nat) : (s.putCapRecs x).cal = s.cal := rfl
@[simp] theorem State.putCapRecs_aux (s : State) (x : SMap Nat) : (s.putCapRecs x).aux = s.aux := rfl
@[simp] theorem State.putCapRecs_blt (s : State) (x : SMap Nat) : (s.putCapRecs x).blt = s.blt := rfl
@[simp] theorem State.putCapRecs_tmb (s : State) (x : SMap Nat) : (s.putCapRecs x).tmb = s.tmb := rfl
@[simp] theorem State.putCapRecs_brl (s : State) (x : SMap Nat) : (s.putCapRecs x).brl = s.brl := rfl
@[simp] theorem State.putCapRecs_mlk (s : State) (x : SMap Nat) : (s.putCapRecs x).mlk = s.mlk := rfl
@[simp] theorem State.putCapRecs_units (s : State) (x : SMap Nat) : (s.putCapRecs x).units = s.units := rfl
@[simp] theorem State.putCapRecs_douts (s : State) (x : SMap Nat) : (s.putCapRecs x).douts = s.douts := rfl
@[simp] theorem State.putCapRecs_blanks (s : State) (x : SMap Nat) : (s.putCapRecs x).blanks = s.blanks := rfl
@[simp] theorem State.putCapRecs_streams (s : State) (x : SMap Nat) : (s.putCapRecs x).streams = s.streams := rfl
@[simp] theorem State.putCapRecs_capRecs (s : State) (x : SMap Nat) : (s.putCapRecs x).capRecs = x := rfl
@[simp] theorem State.putCapRecs_cores (s : State) (x : SMap Nat) : (s.putCapRecs x).cores = s.cores := rfl
@[simp] theorem State.putCapRecs_fuses (s : State) (x : SMap Nat) : (s.putCapRecs x).fuses = s.fuses := rfl
@[simp] theorem State.putCapRecs_marchDefault (s : State) (x : SMap Nat) : (s.putCapRecs x).marchDefault = s.marchDefault := rfl
@[simp] theorem State.putCapRecs_marchMode (s : State) (x : SMap Nat) : (s.putCapRecs x).marchMode = s.marchMode := rfl
@[simp] theorem State.putCapRecs_burn (s : State) (x : SMap Nat) : (s.putCapRecs x).burn = s.burn := rfl
@[simp] theorem State.putCapRecs_dram (s : State) (x : SMap Nat) : (s.putCapRecs x).dram = s.dram := rfl
@[simp] theorem State.putCapRecs_dmc (s : State) (x : SMap Nat) : (s.putCapRecs x).dmc = s.dmc := rfl
@[simp] theorem State.putCapRecs_flash (s : State) (x : SMap Nat) : (s.putCapRecs x).flash = s.flash := rfl
@[simp] theorem State.putCapRecs_qspi (s : State) (x : SMap Nat) : (s.putCapRecs x).qspi = s.qspi := rfl
@[simp] theorem State.putCapRecs_factoryTrim (s : State) (x : SMap Nat) : (s.putCapRecs x).factoryTrim = s.factoryTrim := rfl
@[simp] theorem State.putCapRecs_rdData (s : State) (x : SMap Nat) : (s.putCapRecs x).rdData = s.rdData := rfl
@[simp] theorem State.putCapRecs_rdData2 (s : State) (x : SMap Nat) : (s.putCapRecs x).rdData2 = s.rdData2 := rfl
@[simp] theorem State.putCapRecs_sent (s : State) (x : SMap Nat) : (s.putCapRecs x).sent = s.sent := rfl
@[simp] theorem State.putCapRecs_freeCtr (s : State) (x : SMap Nat) : (s.putCapRecs x).freeCtr = s.freeCtr := rfl
@[simp] theorem State.putCapRecs_pending (s : State) (x : SMap Nat) : (s.putCapRecs x).pending = s.pending := rfl

/-! putCores -/

@[simp] theorem State.putCores_part (s : State) (x : SMap Core) : (s.putCores x).part = s.part := rfl
@[simp] theorem State.putCores_time (s : State) (x : SMap Core) : (s.putCores x).time = s.time := rfl
@[simp] theorem State.putCores_supply (s : State) (x : SMap Core) : (s.putCores x).supply = s.supply := rfl
@[simp] theorem State.putCores_ctl (s : State) (x : SMap Core) : (s.putCores x).ctl = s.ctl := rfl
@[simp] theorem State.putCores_regs (s : State) (x : SMap Core) : (s.putCores x).regs = s.regs := rfl
@[simp] theorem State.putCores_latches (s : State) (x : SMap Core) : (s.putCores x).latches = s.latches := rfl
@[simp] theorem State.putCores_hif (s : State) (x : SMap Core) : (s.putCores x).hif = s.hif := rfl
@[simp] theorem State.putCores_evr (s : State) (x : SMap Core) : (s.putCores x).evr = s.evr := rfl
@[simp] theorem State.putCores_saf (s : State) (x : SMap Core) : (s.putCores x).saf = s.saf := rfl
@[simp] theorem State.putCores_src (s : State) (x : SMap Core) : (s.putCores x).src = s.src := rfl
@[simp] theorem State.putCores_sched (s : State) (x : SMap Core) : (s.putCores x).sched = s.sched := rfl
@[simp] theorem State.putCores_cal (s : State) (x : SMap Core) : (s.putCores x).cal = s.cal := rfl
@[simp] theorem State.putCores_aux (s : State) (x : SMap Core) : (s.putCores x).aux = s.aux := rfl
@[simp] theorem State.putCores_blt (s : State) (x : SMap Core) : (s.putCores x).blt = s.blt := rfl
@[simp] theorem State.putCores_tmb (s : State) (x : SMap Core) : (s.putCores x).tmb = s.tmb := rfl
@[simp] theorem State.putCores_brl (s : State) (x : SMap Core) : (s.putCores x).brl = s.brl := rfl
@[simp] theorem State.putCores_mlk (s : State) (x : SMap Core) : (s.putCores x).mlk = s.mlk := rfl
@[simp] theorem State.putCores_units (s : State) (x : SMap Core) : (s.putCores x).units = s.units := rfl
@[simp] theorem State.putCores_douts (s : State) (x : SMap Core) : (s.putCores x).douts = s.douts := rfl
@[simp] theorem State.putCores_blanks (s : State) (x : SMap Core) : (s.putCores x).blanks = s.blanks := rfl
@[simp] theorem State.putCores_streams (s : State) (x : SMap Core) : (s.putCores x).streams = s.streams := rfl
@[simp] theorem State.putCores_capRecs (s : State) (x : SMap Core) : (s.putCores x).capRecs = s.capRecs := rfl
@[simp] theorem State.putCores_cores (s : State) (x : SMap Core) : (s.putCores x).cores = x := rfl
@[simp] theorem State.putCores_fuses (s : State) (x : SMap Core) : (s.putCores x).fuses = s.fuses := rfl
@[simp] theorem State.putCores_marchDefault (s : State) (x : SMap Core) : (s.putCores x).marchDefault = s.marchDefault := rfl
@[simp] theorem State.putCores_marchMode (s : State) (x : SMap Core) : (s.putCores x).marchMode = s.marchMode := rfl
@[simp] theorem State.putCores_burn (s : State) (x : SMap Core) : (s.putCores x).burn = s.burn := rfl
@[simp] theorem State.putCores_dram (s : State) (x : SMap Core) : (s.putCores x).dram = s.dram := rfl
@[simp] theorem State.putCores_dmc (s : State) (x : SMap Core) : (s.putCores x).dmc = s.dmc := rfl
@[simp] theorem State.putCores_flash (s : State) (x : SMap Core) : (s.putCores x).flash = s.flash := rfl
@[simp] theorem State.putCores_qspi (s : State) (x : SMap Core) : (s.putCores x).qspi = s.qspi := rfl
@[simp] theorem State.putCores_factoryTrim (s : State) (x : SMap Core) : (s.putCores x).factoryTrim = s.factoryTrim := rfl
@[simp] theorem State.putCores_rdData (s : State) (x : SMap Core) : (s.putCores x).rdData = s.rdData := rfl
@[simp] theorem State.putCores_rdData2 (s : State) (x : SMap Core) : (s.putCores x).rdData2 = s.rdData2 := rfl
@[simp] theorem State.putCores_sent (s : State) (x : SMap Core) : (s.putCores x).sent = s.sent := rfl
@[simp] theorem State.putCores_freeCtr (s : State) (x : SMap Core) : (s.putCores x).freeCtr = s.freeCtr := rfl
@[simp] theorem State.putCores_pending (s : State) (x : SMap Core) : (s.putCores x).pending = s.pending := rfl

/-! putFuses -/

@[simp] theorem State.putFuses_part (s : State) (x : List Fuse) : (s.putFuses x).part = s.part := rfl
@[simp] theorem State.putFuses_time (s : State) (x : List Fuse) : (s.putFuses x).time = s.time := rfl
@[simp] theorem State.putFuses_supply (s : State) (x : List Fuse) : (s.putFuses x).supply = s.supply := rfl
@[simp] theorem State.putFuses_ctl (s : State) (x : List Fuse) : (s.putFuses x).ctl = s.ctl := rfl
@[simp] theorem State.putFuses_regs (s : State) (x : List Fuse) : (s.putFuses x).regs = s.regs := rfl
@[simp] theorem State.putFuses_latches (s : State) (x : List Fuse) : (s.putFuses x).latches = s.latches := rfl
@[simp] theorem State.putFuses_hif (s : State) (x : List Fuse) : (s.putFuses x).hif = s.hif := rfl
@[simp] theorem State.putFuses_evr (s : State) (x : List Fuse) : (s.putFuses x).evr = s.evr := rfl
@[simp] theorem State.putFuses_saf (s : State) (x : List Fuse) : (s.putFuses x).saf = s.saf := rfl
@[simp] theorem State.putFuses_src (s : State) (x : List Fuse) : (s.putFuses x).src = s.src := rfl
@[simp] theorem State.putFuses_sched (s : State) (x : List Fuse) : (s.putFuses x).sched = s.sched := rfl
@[simp] theorem State.putFuses_cal (s : State) (x : List Fuse) : (s.putFuses x).cal = s.cal := rfl
@[simp] theorem State.putFuses_aux (s : State) (x : List Fuse) : (s.putFuses x).aux = s.aux := rfl
@[simp] theorem State.putFuses_blt (s : State) (x : List Fuse) : (s.putFuses x).blt = s.blt := rfl
@[simp] theorem State.putFuses_tmb (s : State) (x : List Fuse) : (s.putFuses x).tmb = s.tmb := rfl
@[simp] theorem State.putFuses_brl (s : State) (x : List Fuse) : (s.putFuses x).brl = s.brl := rfl
@[simp] theorem State.putFuses_mlk (s : State) (x : List Fuse) : (s.putFuses x).mlk = s.mlk := rfl
@[simp] theorem State.putFuses_units (s : State) (x : List Fuse) : (s.putFuses x).units = s.units := rfl
@[simp] theorem State.putFuses_douts (s : State) (x : List Fuse) : (s.putFuses x).douts = s.douts := rfl
@[simp] theorem State.putFuses_blanks (s : State) (x : List Fuse) : (s.putFuses x).blanks = s.blanks := rfl
@[simp] theorem State.putFuses_streams (s : State) (x : List Fuse) : (s.putFuses x).streams = s.streams := rfl
@[simp] theorem State.putFuses_capRecs (s : State) (x : List Fuse) : (s.putFuses x).capRecs = s.capRecs := rfl
@[simp] theorem State.putFuses_cores (s : State) (x : List Fuse) : (s.putFuses x).cores = s.cores := rfl
@[simp] theorem State.putFuses_fuses (s : State) (x : List Fuse) : (s.putFuses x).fuses = x := rfl
@[simp] theorem State.putFuses_marchDefault (s : State) (x : List Fuse) : (s.putFuses x).marchDefault = s.marchDefault := rfl
@[simp] theorem State.putFuses_marchMode (s : State) (x : List Fuse) : (s.putFuses x).marchMode = s.marchMode := rfl
@[simp] theorem State.putFuses_burn (s : State) (x : List Fuse) : (s.putFuses x).burn = s.burn := rfl
@[simp] theorem State.putFuses_dram (s : State) (x : List Fuse) : (s.putFuses x).dram = s.dram := rfl
@[simp] theorem State.putFuses_dmc (s : State) (x : List Fuse) : (s.putFuses x).dmc = s.dmc := rfl
@[simp] theorem State.putFuses_flash (s : State) (x : List Fuse) : (s.putFuses x).flash = s.flash := rfl
@[simp] theorem State.putFuses_qspi (s : State) (x : List Fuse) : (s.putFuses x).qspi = s.qspi := rfl
@[simp] theorem State.putFuses_factoryTrim (s : State) (x : List Fuse) : (s.putFuses x).factoryTrim = s.factoryTrim := rfl
@[simp] theorem State.putFuses_rdData (s : State) (x : List Fuse) : (s.putFuses x).rdData = s.rdData := rfl
@[simp] theorem State.putFuses_rdData2 (s : State) (x : List Fuse) : (s.putFuses x).rdData2 = s.rdData2 := rfl
@[simp] theorem State.putFuses_sent (s : State) (x : List Fuse) : (s.putFuses x).sent = s.sent := rfl
@[simp] theorem State.putFuses_freeCtr (s : State) (x : List Fuse) : (s.putFuses x).freeCtr = s.freeCtr := rfl
@[simp] theorem State.putFuses_pending (s : State) (x : List Fuse) : (s.putFuses x).pending = s.pending := rfl

/-! putMarchMode -/

@[simp] theorem State.putMarchMode_part (s : State) (x : Bool) : (s.putMarchMode x).part = s.part := rfl
@[simp] theorem State.putMarchMode_time (s : State) (x : Bool) : (s.putMarchMode x).time = s.time := rfl
@[simp] theorem State.putMarchMode_supply (s : State) (x : Bool) : (s.putMarchMode x).supply = s.supply := rfl
@[simp] theorem State.putMarchMode_ctl (s : State) (x : Bool) : (s.putMarchMode x).ctl = s.ctl := rfl
@[simp] theorem State.putMarchMode_regs (s : State) (x : Bool) : (s.putMarchMode x).regs = s.regs := rfl
@[simp] theorem State.putMarchMode_latches (s : State) (x : Bool) : (s.putMarchMode x).latches = s.latches := rfl
@[simp] theorem State.putMarchMode_hif (s : State) (x : Bool) : (s.putMarchMode x).hif = s.hif := rfl
@[simp] theorem State.putMarchMode_evr (s : State) (x : Bool) : (s.putMarchMode x).evr = s.evr := rfl
@[simp] theorem State.putMarchMode_saf (s : State) (x : Bool) : (s.putMarchMode x).saf = s.saf := rfl
@[simp] theorem State.putMarchMode_src (s : State) (x : Bool) : (s.putMarchMode x).src = s.src := rfl
@[simp] theorem State.putMarchMode_sched (s : State) (x : Bool) : (s.putMarchMode x).sched = s.sched := rfl
@[simp] theorem State.putMarchMode_cal (s : State) (x : Bool) : (s.putMarchMode x).cal = s.cal := rfl
@[simp] theorem State.putMarchMode_aux (s : State) (x : Bool) : (s.putMarchMode x).aux = s.aux := rfl
@[simp] theorem State.putMarchMode_blt (s : State) (x : Bool) : (s.putMarchMode x).blt = s.blt := rfl
@[simp] theorem State.putMarchMode_tmb (s : State) (x : Bool) : (s.putMarchMode x).tmb = s.tmb := rfl
@[simp] theorem State.putMarchMode_brl (s : State) (x : Bool) : (s.putMarchMode x).brl = s.brl := rfl
@[simp] theorem State.putMarchMode_mlk (s : State) (x : Bool) : (s.putMarchMode x).mlk = s.mlk := rfl
@[simp] theorem State.putMarchMode_units (s : State) (x : Bool) : (s.putMarchMode x).units = s.units := rfl
@[simp] theorem State.putMarchMode_douts (s : State) (x : Bool) : (s.putMarchMode x).douts = s.douts := rfl
@[simp] theorem State.putMarchMode_blanks (s : State) (x : Bool) : (s.putMarchMode x).blanks = s.blanks := rfl
@[simp] theorem State.putMarchMode_streams (s : State) (x : Bool) : (s.putMarchMode x).streams = s.streams := rfl
@[simp] theorem State.putMarchMode_capRecs (s : State) (x : Bool) : (s.putMarchMode x).capRecs = s.capRecs := rfl
@[simp] theorem State.putMarchMode_cores (s : State) (x : Bool) : (s.putMarchMode x).cores = s.cores := rfl
@[simp] theorem State.putMarchMode_fuses (s : State) (x : Bool) : (s.putMarchMode x).fuses = s.fuses := rfl
@[simp] theorem State.putMarchMode_marchDefault (s : State) (x : Bool) : (s.putMarchMode x).marchDefault = s.marchDefault := rfl
@[simp] theorem State.putMarchMode_marchMode (s : State) (x : Bool) : (s.putMarchMode x).marchMode = x := rfl
@[simp] theorem State.putMarchMode_burn (s : State) (x : Bool) : (s.putMarchMode x).burn = s.burn := rfl
@[simp] theorem State.putMarchMode_dram (s : State) (x : Bool) : (s.putMarchMode x).dram = s.dram := rfl
@[simp] theorem State.putMarchMode_dmc (s : State) (x : Bool) : (s.putMarchMode x).dmc = s.dmc := rfl
@[simp] theorem State.putMarchMode_flash (s : State) (x : Bool) : (s.putMarchMode x).flash = s.flash := rfl
@[simp] theorem State.putMarchMode_qspi (s : State) (x : Bool) : (s.putMarchMode x).qspi = s.qspi := rfl
@[simp] theorem State.putMarchMode_factoryTrim (s : State) (x : Bool) : (s.putMarchMode x).factoryTrim = s.factoryTrim := rfl
@[simp] theorem State.putMarchMode_rdData (s : State) (x : Bool) : (s.putMarchMode x).rdData = s.rdData := rfl
@[simp] theorem State.putMarchMode_rdData2 (s : State) (x : Bool) : (s.putMarchMode x).rdData2 = s.rdData2 := rfl
@[simp] theorem State.putMarchMode_sent (s : State) (x : Bool) : (s.putMarchMode x).sent = s.sent := rfl
@[simp] theorem State.putMarchMode_freeCtr (s : State) (x : Bool) : (s.putMarchMode x).freeCtr = s.freeCtr := rfl
@[simp] theorem State.putMarchMode_pending (s : State) (x : Bool) : (s.putMarchMode x).pending = s.pending := rfl

/-! putBurn -/

@[simp] theorem State.putBurn_part (s : State) (x : Option Nat) : (s.putBurn x).part = s.part := rfl
@[simp] theorem State.putBurn_time (s : State) (x : Option Nat) : (s.putBurn x).time = s.time := rfl
@[simp] theorem State.putBurn_supply (s : State) (x : Option Nat) : (s.putBurn x).supply = s.supply := rfl
@[simp] theorem State.putBurn_ctl (s : State) (x : Option Nat) : (s.putBurn x).ctl = s.ctl := rfl
@[simp] theorem State.putBurn_regs (s : State) (x : Option Nat) : (s.putBurn x).regs = s.regs := rfl
@[simp] theorem State.putBurn_latches (s : State) (x : Option Nat) : (s.putBurn x).latches = s.latches := rfl
@[simp] theorem State.putBurn_hif (s : State) (x : Option Nat) : (s.putBurn x).hif = s.hif := rfl
@[simp] theorem State.putBurn_evr (s : State) (x : Option Nat) : (s.putBurn x).evr = s.evr := rfl
@[simp] theorem State.putBurn_saf (s : State) (x : Option Nat) : (s.putBurn x).saf = s.saf := rfl
@[simp] theorem State.putBurn_src (s : State) (x : Option Nat) : (s.putBurn x).src = s.src := rfl
@[simp] theorem State.putBurn_sched (s : State) (x : Option Nat) : (s.putBurn x).sched = s.sched := rfl
@[simp] theorem State.putBurn_cal (s : State) (x : Option Nat) : (s.putBurn x).cal = s.cal := rfl
@[simp] theorem State.putBurn_aux (s : State) (x : Option Nat) : (s.putBurn x).aux = s.aux := rfl
@[simp] theorem State.putBurn_blt (s : State) (x : Option Nat) : (s.putBurn x).blt = s.blt := rfl
@[simp] theorem State.putBurn_tmb (s : State) (x : Option Nat) : (s.putBurn x).tmb = s.tmb := rfl
@[simp] theorem State.putBurn_brl (s : State) (x : Option Nat) : (s.putBurn x).brl = s.brl := rfl
@[simp] theorem State.putBurn_mlk (s : State) (x : Option Nat) : (s.putBurn x).mlk = s.mlk := rfl
@[simp] theorem State.putBurn_units (s : State) (x : Option Nat) : (s.putBurn x).units = s.units := rfl
@[simp] theorem State.putBurn_douts (s : State) (x : Option Nat) : (s.putBurn x).douts = s.douts := rfl
@[simp] theorem State.putBurn_blanks (s : State) (x : Option Nat) : (s.putBurn x).blanks = s.blanks := rfl
@[simp] theorem State.putBurn_streams (s : State) (x : Option Nat) : (s.putBurn x).streams = s.streams := rfl
@[simp] theorem State.putBurn_capRecs (s : State) (x : Option Nat) : (s.putBurn x).capRecs = s.capRecs := rfl
@[simp] theorem State.putBurn_cores (s : State) (x : Option Nat) : (s.putBurn x).cores = s.cores := rfl
@[simp] theorem State.putBurn_fuses (s : State) (x : Option Nat) : (s.putBurn x).fuses = s.fuses := rfl
@[simp] theorem State.putBurn_marchDefault (s : State) (x : Option Nat) : (s.putBurn x).marchDefault = s.marchDefault := rfl
@[simp] theorem State.putBurn_marchMode (s : State) (x : Option Nat) : (s.putBurn x).marchMode = s.marchMode := rfl
@[simp] theorem State.putBurn_burn (s : State) (x : Option Nat) : (s.putBurn x).burn = x := rfl
@[simp] theorem State.putBurn_dram (s : State) (x : Option Nat) : (s.putBurn x).dram = s.dram := rfl
@[simp] theorem State.putBurn_dmc (s : State) (x : Option Nat) : (s.putBurn x).dmc = s.dmc := rfl
@[simp] theorem State.putBurn_flash (s : State) (x : Option Nat) : (s.putBurn x).flash = s.flash := rfl
@[simp] theorem State.putBurn_qspi (s : State) (x : Option Nat) : (s.putBurn x).qspi = s.qspi := rfl
@[simp] theorem State.putBurn_factoryTrim (s : State) (x : Option Nat) : (s.putBurn x).factoryTrim = s.factoryTrim := rfl
@[simp] theorem State.putBurn_rdData (s : State) (x : Option Nat) : (s.putBurn x).rdData = s.rdData := rfl
@[simp] theorem State.putBurn_rdData2 (s : State) (x : Option Nat) : (s.putBurn x).rdData2 = s.rdData2 := rfl
@[simp] theorem State.putBurn_sent (s : State) (x : Option Nat) : (s.putBurn x).sent = s.sent := rfl
@[simp] theorem State.putBurn_freeCtr (s : State) (x : Option Nat) : (s.putBurn x).freeCtr = s.freeCtr := rfl
@[simp] theorem State.putBurn_pending (s : State) (x : Option Nat) : (s.putBurn x).pending = s.pending := rfl

/-! putDram -/

@[simp] theorem State.putDram_part (s : State) (x : Memory) : (s.putDram x).part = s.part := rfl
@[simp] theorem State.putDram_time (s : State) (x : Memory) : (s.putDram x).time = s.time := rfl
@[simp] theorem State.putDram_supply (s : State) (x : Memory) : (s.putDram x).supply = s.supply := rfl
@[simp] theorem State.putDram_ctl (s : State) (x : Memory) : (s.putDram x).ctl = s.ctl := rfl
@[simp] theorem State.putDram_regs (s : State) (x : Memory) : (s.putDram x).regs = s.regs := rfl
@[simp] theorem State.putDram_latches (s : State) (x : Memory) : (s.putDram x).latches = s.latches := rfl
@[simp] theorem State.putDram_hif (s : State) (x : Memory) : (s.putDram x).hif = s.hif := rfl
@[simp] theorem State.putDram_evr (s : State) (x : Memory) : (s.putDram x).evr = s.evr := rfl
@[simp] theorem State.putDram_saf (s : State) (x : Memory) : (s.putDram x).saf = s.saf := rfl
@[simp] theorem State.putDram_src (s : State) (x : Memory) : (s.putDram x).src = s.src := rfl
@[simp] theorem State.putDram_sched (s : State) (x : Memory) : (s.putDram x).sched = s.sched := rfl
@[simp] theorem State.putDram_cal (s : State) (x : Memory) : (s.putDram x).cal = s.cal := rfl
@[simp] theorem State.putDram_aux (s : State) (x : Memory) : (s.putDram x).aux = s.aux := rfl
@[simp] theorem State.putDram_blt (s : State) (x : Memory) : (s.putDram x).blt = s.blt := rfl
@[simp] theorem State.putDram_tmb (s : State) (x : Memory) : (s.putDram x).tmb = s.tmb := rfl
@[simp] theorem State.putDram_brl (s : State) (x : Memory) : (s.putDram x).brl = s.brl := rfl
@[simp] theorem State.putDram_mlk (s : State) (x : Memory) : (s.putDram x).mlk = s.mlk := rfl
@[simp] theorem State.putDram_units (s : State) (x : Memory) : (s.putDram x).units = s.units := rfl
@[simp] theorem State.putDram_douts (s : State) (x : Memory) : (s.putDram x).douts = s.douts := rfl
@[simp] theorem State.putDram_blanks (s : State) (x : Memory) : (s.putDram x).blanks = s.blanks := rfl
@[simp] theorem State.putDram_streams (s : State) (x : Memory) : (s.putDram x).streams = s.streams := rfl
@[simp] theorem State.putDram_capRecs (s : State) (x : Memory) : (s.putDram x).capRecs = s.capRecs := rfl
@[simp] theorem State.putDram_cores (s : State) (x : Memory) : (s.putDram x).cores = s.cores := rfl
@[simp] theorem State.putDram_fuses (s : State) (x : Memory) : (s.putDram x).fuses = s.fuses := rfl
@[simp] theorem State.putDram_marchDefault (s : State) (x : Memory) : (s.putDram x).marchDefault = s.marchDefault := rfl
@[simp] theorem State.putDram_marchMode (s : State) (x : Memory) : (s.putDram x).marchMode = s.marchMode := rfl
@[simp] theorem State.putDram_burn (s : State) (x : Memory) : (s.putDram x).burn = s.burn := rfl
@[simp] theorem State.putDram_dram (s : State) (x : Memory) : (s.putDram x).dram = x := rfl
@[simp] theorem State.putDram_dmc (s : State) (x : Memory) : (s.putDram x).dmc = s.dmc := rfl
@[simp] theorem State.putDram_flash (s : State) (x : Memory) : (s.putDram x).flash = s.flash := rfl
@[simp] theorem State.putDram_qspi (s : State) (x : Memory) : (s.putDram x).qspi = s.qspi := rfl
@[simp] theorem State.putDram_factoryTrim (s : State) (x : Memory) : (s.putDram x).factoryTrim = s.factoryTrim := rfl
@[simp] theorem State.putDram_rdData (s : State) (x : Memory) : (s.putDram x).rdData = s.rdData := rfl
@[simp] theorem State.putDram_rdData2 (s : State) (x : Memory) : (s.putDram x).rdData2 = s.rdData2 := rfl
@[simp] theorem State.putDram_sent (s : State) (x : Memory) : (s.putDram x).sent = s.sent := rfl
@[simp] theorem State.putDram_freeCtr (s : State) (x : Memory) : (s.putDram x).freeCtr = s.freeCtr := rfl
@[simp] theorem State.putDram_pending (s : State) (x : Memory) : (s.putDram x).pending = s.pending := rfl

/-! putDmc -/

@[simp] theorem State.putDmc_part (s : State) (x : Dmc) : (s.putDmc x).part = s.part := rfl
@[simp] theorem State.putDmc_time (s : State) (x : Dmc) : (s.putDmc x).time = s.time := rfl
@[simp] theorem State.putDmc_supply (s : State) (x : Dmc) : (s.putDmc x).supply = s.supply := rfl
@[simp] theorem State.putDmc_ctl (s : State) (x : Dmc) : (s.putDmc x).ctl = s.ctl := rfl
@[simp] theorem State.putDmc_regs (s : State) (x : Dmc) : (s.putDmc x).regs = s.regs := rfl
@[simp] theorem State.putDmc_latches (s : State) (x : Dmc) : (s.putDmc x).latches = s.latches := rfl
@[simp] theorem State.putDmc_hif (s : State) (x : Dmc) : (s.putDmc x).hif = s.hif := rfl
@[simp] theorem State.putDmc_evr (s : State) (x : Dmc) : (s.putDmc x).evr = s.evr := rfl
@[simp] theorem State.putDmc_saf (s : State) (x : Dmc) : (s.putDmc x).saf = s.saf := rfl
@[simp] theorem State.putDmc_src (s : State) (x : Dmc) : (s.putDmc x).src = s.src := rfl
@[simp] theorem State.putDmc_sched (s : State) (x : Dmc) : (s.putDmc x).sched = s.sched := rfl
@[simp] theorem State.putDmc_cal (s : State) (x : Dmc) : (s.putDmc x).cal = s.cal := rfl
@[simp] theorem State.putDmc_aux (s : State) (x : Dmc) : (s.putDmc x).aux = s.aux := rfl
@[simp] theorem State.putDmc_blt (s : State) (x : Dmc) : (s.putDmc x).blt = s.blt := rfl
@[simp] theorem State.putDmc_tmb (s : State) (x : Dmc) : (s.putDmc x).tmb = s.tmb := rfl
@[simp] theorem State.putDmc_brl (s : State) (x : Dmc) : (s.putDmc x).brl = s.brl := rfl
@[simp] theorem State.putDmc_mlk (s : State) (x : Dmc) : (s.putDmc x).mlk = s.mlk := rfl
@[simp] theorem State.putDmc_units (s : State) (x : Dmc) : (s.putDmc x).units = s.units := rfl
@[simp] theorem State.putDmc_douts (s : State) (x : Dmc) : (s.putDmc x).douts = s.douts := rfl
@[simp] theorem State.putDmc_blanks (s : State) (x : Dmc) : (s.putDmc x).blanks = s.blanks := rfl
@[simp] theorem State.putDmc_streams (s : State) (x : Dmc) : (s.putDmc x).streams = s.streams := rfl
@[simp] theorem State.putDmc_capRecs (s : State) (x : Dmc) : (s.putDmc x).capRecs = s.capRecs := rfl
@[simp] theorem State.putDmc_cores (s : State) (x : Dmc) : (s.putDmc x).cores = s.cores := rfl
@[simp] theorem State.putDmc_fuses (s : State) (x : Dmc) : (s.putDmc x).fuses = s.fuses := rfl
@[simp] theorem State.putDmc_marchDefault (s : State) (x : Dmc) : (s.putDmc x).marchDefault = s.marchDefault := rfl
@[simp] theorem State.putDmc_marchMode (s : State) (x : Dmc) : (s.putDmc x).marchMode = s.marchMode := rfl
@[simp] theorem State.putDmc_burn (s : State) (x : Dmc) : (s.putDmc x).burn = s.burn := rfl
@[simp] theorem State.putDmc_dram (s : State) (x : Dmc) : (s.putDmc x).dram = s.dram := rfl
@[simp] theorem State.putDmc_dmc (s : State) (x : Dmc) : (s.putDmc x).dmc = x := rfl
@[simp] theorem State.putDmc_flash (s : State) (x : Dmc) : (s.putDmc x).flash = s.flash := rfl
@[simp] theorem State.putDmc_qspi (s : State) (x : Dmc) : (s.putDmc x).qspi = s.qspi := rfl
@[simp] theorem State.putDmc_factoryTrim (s : State) (x : Dmc) : (s.putDmc x).factoryTrim = s.factoryTrim := rfl
@[simp] theorem State.putDmc_rdData (s : State) (x : Dmc) : (s.putDmc x).rdData = s.rdData := rfl
@[simp] theorem State.putDmc_rdData2 (s : State) (x : Dmc) : (s.putDmc x).rdData2 = s.rdData2 := rfl
@[simp] theorem State.putDmc_sent (s : State) (x : Dmc) : (s.putDmc x).sent = s.sent := rfl
@[simp] theorem State.putDmc_freeCtr (s : State) (x : Dmc) : (s.putDmc x).freeCtr = s.freeCtr := rfl
@[simp] theorem State.putDmc_pending (s : State) (x : Dmc) : (s.putDmc x).pending = s.pending := rfl

/-! putFlash -/

@[simp] theorem State.putFlash_part (s : State) (x : Memory) : (s.putFlash x).part = s.part := rfl
@[simp] theorem State.putFlash_time (s : State) (x : Memory) : (s.putFlash x).time = s.time := rfl
@[simp] theorem State.putFlash_supply (s : State) (x : Memory) : (s.putFlash x).supply = s.supply := rfl
@[simp] theorem State.putFlash_ctl (s : State) (x : Memory) : (s.putFlash x).ctl = s.ctl := rfl
@[simp] theorem State.putFlash_regs (s : State) (x : Memory) : (s.putFlash x).regs = s.regs := rfl
@[simp] theorem State.putFlash_latches (s : State) (x : Memory) : (s.putFlash x).latches = s.latches := rfl
@[simp] theorem State.putFlash_hif (s : State) (x : Memory) : (s.putFlash x).hif = s.hif := rfl
@[simp] theorem State.putFlash_evr (s : State) (x : Memory) : (s.putFlash x).evr = s.evr := rfl
@[simp] theorem State.putFlash_saf (s : State) (x : Memory) : (s.putFlash x).saf = s.saf := rfl
@[simp] theorem State.putFlash_src (s : State) (x : Memory) : (s.putFlash x).src = s.src := rfl
@[simp] theorem State.putFlash_sched (s : State) (x : Memory) : (s.putFlash x).sched = s.sched := rfl
@[simp] theorem State.putFlash_cal (s : State) (x : Memory) : (s.putFlash x).cal = s.cal := rfl
@[simp] theorem State.putFlash_aux (s : State) (x : Memory) : (s.putFlash x).aux = s.aux := rfl
@[simp] theorem State.putFlash_blt (s : State) (x : Memory) : (s.putFlash x).blt = s.blt := rfl
@[simp] theorem State.putFlash_tmb (s : State) (x : Memory) : (s.putFlash x).tmb = s.tmb := rfl
@[simp] theorem State.putFlash_brl (s : State) (x : Memory) : (s.putFlash x).brl = s.brl := rfl
@[simp] theorem State.putFlash_mlk (s : State) (x : Memory) : (s.putFlash x).mlk = s.mlk := rfl
@[simp] theorem State.putFlash_units (s : State) (x : Memory) : (s.putFlash x).units = s.units := rfl
@[simp] theorem State.putFlash_douts (s : State) (x : Memory) : (s.putFlash x).douts = s.douts := rfl
@[simp] theorem State.putFlash_blanks (s : State) (x : Memory) : (s.putFlash x).blanks = s.blanks := rfl
@[simp] theorem State.putFlash_streams (s : State) (x : Memory) : (s.putFlash x).streams = s.streams := rfl
@[simp] theorem State.putFlash_capRecs (s : State) (x : Memory) : (s.putFlash x).capRecs = s.capRecs := rfl
@[simp] theorem State.putFlash_cores (s : State) (x : Memory) : (s.putFlash x).cores = s.cores := rfl
@[simp] theorem State.putFlash_fuses (s : State) (x : Memory) : (s.putFlash x).fuses = s.fuses := rfl
@[simp] theorem State.putFlash_marchDefault (s : State) (x : Memory) : (s.putFlash x).marchDefault = s.marchDefault := rfl
@[simp] theorem State.putFlash_marchMode (s : State) (x : Memory) : (s.putFlash x).marchMode = s.marchMode := rfl
@[simp] theorem State.putFlash_burn (s : State) (x : Memory) : (s.putFlash x).burn = s.burn := rfl
@[simp] theorem State.putFlash_dram (s : State) (x : Memory) : (s.putFlash x).dram = s.dram := rfl
@[simp] theorem State.putFlash_dmc (s : State) (x : Memory) : (s.putFlash x).dmc = s.dmc := rfl
@[simp] theorem State.putFlash_flash (s : State) (x : Memory) : (s.putFlash x).flash = x := rfl
@[simp] theorem State.putFlash_qspi (s : State) (x : Memory) : (s.putFlash x).qspi = s.qspi := rfl
@[simp] theorem State.putFlash_factoryTrim (s : State) (x : Memory) : (s.putFlash x).factoryTrim = s.factoryTrim := rfl
@[simp] theorem State.putFlash_rdData (s : State) (x : Memory) : (s.putFlash x).rdData = s.rdData := rfl
@[simp] theorem State.putFlash_rdData2 (s : State) (x : Memory) : (s.putFlash x).rdData2 = s.rdData2 := rfl
@[simp] theorem State.putFlash_sent (s : State) (x : Memory) : (s.putFlash x).sent = s.sent := rfl
@[simp] theorem State.putFlash_freeCtr (s : State) (x : Memory) : (s.putFlash x).freeCtr = s.freeCtr := rfl
@[simp] theorem State.putFlash_pending (s : State) (x : Memory) : (s.putFlash x).pending = s.pending := rfl

/-! putQspi -/

@[simp] theorem State.putQspi_part (s : State) (x : Qspi) : (s.putQspi x).part = s.part := rfl
@[simp] theorem State.putQspi_time (s : State) (x : Qspi) : (s.putQspi x).time = s.time := rfl
@[simp] theorem State.putQspi_supply (s : State) (x : Qspi) : (s.putQspi x).supply = s.supply := rfl
@[simp] theorem State.putQspi_ctl (s : State) (x : Qspi) : (s.putQspi x).ctl = s.ctl := rfl
@[simp] theorem State.putQspi_regs (s : State) (x : Qspi) : (s.putQspi x).regs = s.regs := rfl
@[simp] theorem State.putQspi_latches (s : State) (x : Qspi) : (s.putQspi x).latches = s.latches := rfl
@[simp] theorem State.putQspi_hif (s : State) (x : Qspi) : (s.putQspi x).hif = s.hif := rfl
@[simp] theorem State.putQspi_evr (s : State) (x : Qspi) : (s.putQspi x).evr = s.evr := rfl
@[simp] theorem State.putQspi_saf (s : State) (x : Qspi) : (s.putQspi x).saf = s.saf := rfl
@[simp] theorem State.putQspi_src (s : State) (x : Qspi) : (s.putQspi x).src = s.src := rfl
@[simp] theorem State.putQspi_sched (s : State) (x : Qspi) : (s.putQspi x).sched = s.sched := rfl
@[simp] theorem State.putQspi_cal (s : State) (x : Qspi) : (s.putQspi x).cal = s.cal := rfl
@[simp] theorem State.putQspi_aux (s : State) (x : Qspi) : (s.putQspi x).aux = s.aux := rfl
@[simp] theorem State.putQspi_blt (s : State) (x : Qspi) : (s.putQspi x).blt = s.blt := rfl
@[simp] theorem State.putQspi_tmb (s : State) (x : Qspi) : (s.putQspi x).tmb = s.tmb := rfl
@[simp] theorem State.putQspi_brl (s : State) (x : Qspi) : (s.putQspi x).brl = s.brl := rfl
@[simp] theorem State.putQspi_mlk (s : State) (x : Qspi) : (s.putQspi x).mlk = s.mlk := rfl
@[simp] theorem State.putQspi_units (s : State) (x : Qspi) : (s.putQspi x).units = s.units := rfl
@[simp] theorem State.putQspi_douts (s : State) (x : Qspi) : (s.putQspi x).douts = s.douts := rfl
@[simp] theorem State.putQspi_blanks (s : State) (x : Qspi) : (s.putQspi x).blanks = s.blanks := rfl
@[simp] theorem State.putQspi_streams (s : State) (x : Qspi) : (s.putQspi x).streams = s.streams := rfl
@[simp] theorem State.putQspi_capRecs (s : State) (x : Qspi) : (s.putQspi x).capRecs = s.capRecs := rfl
@[simp] theorem State.putQspi_cores (s : State) (x : Qspi) : (s.putQspi x).cores = s.cores := rfl
@[simp] theorem State.putQspi_fuses (s : State) (x : Qspi) : (s.putQspi x).fuses = s.fuses := rfl
@[simp] theorem State.putQspi_marchDefault (s : State) (x : Qspi) : (s.putQspi x).marchDefault = s.marchDefault := rfl
@[simp] theorem State.putQspi_marchMode (s : State) (x : Qspi) : (s.putQspi x).marchMode = s.marchMode := rfl
@[simp] theorem State.putQspi_burn (s : State) (x : Qspi) : (s.putQspi x).burn = s.burn := rfl
@[simp] theorem State.putQspi_dram (s : State) (x : Qspi) : (s.putQspi x).dram = s.dram := rfl
@[simp] theorem State.putQspi_dmc (s : State) (x : Qspi) : (s.putQspi x).dmc = s.dmc := rfl
@[simp] theorem State.putQspi_flash (s : State) (x : Qspi) : (s.putQspi x).flash = s.flash := rfl
@[simp] theorem State.putQspi_qspi (s : State) (x : Qspi) : (s.putQspi x).qspi = x := rfl
@[simp] theorem State.putQspi_factoryTrim (s : State) (x : Qspi) : (s.putQspi x).factoryTrim = s.factoryTrim := rfl
@[simp] theorem State.putQspi_rdData (s : State) (x : Qspi) : (s.putQspi x).rdData = s.rdData := rfl
@[simp] theorem State.putQspi_rdData2 (s : State) (x : Qspi) : (s.putQspi x).rdData2 = s.rdData2 := rfl
@[simp] theorem State.putQspi_sent (s : State) (x : Qspi) : (s.putQspi x).sent = s.sent := rfl
@[simp] theorem State.putQspi_freeCtr (s : State) (x : Qspi) : (s.putQspi x).freeCtr = s.freeCtr := rfl
@[simp] theorem State.putQspi_pending (s : State) (x : Qspi) : (s.putQspi x).pending = s.pending := rfl

/-! putRdData -/

@[simp] theorem State.putRdData_part (s : State) (x : Word) : (s.putRdData x).part = s.part := rfl
@[simp] theorem State.putRdData_time (s : State) (x : Word) : (s.putRdData x).time = s.time := rfl
@[simp] theorem State.putRdData_supply (s : State) (x : Word) : (s.putRdData x).supply = s.supply := rfl
@[simp] theorem State.putRdData_ctl (s : State) (x : Word) : (s.putRdData x).ctl = s.ctl := rfl
@[simp] theorem State.putRdData_regs (s : State) (x : Word) : (s.putRdData x).regs = s.regs := rfl
@[simp] theorem State.putRdData_latches (s : State) (x : Word) : (s.putRdData x).latches = s.latches := rfl
@[simp] theorem State.putRdData_hif (s : State) (x : Word) : (s.putRdData x).hif = s.hif := rfl
@[simp] theorem State.putRdData_evr (s : State) (x : Word) : (s.putRdData x).evr = s.evr := rfl
@[simp] theorem State.putRdData_saf (s : State) (x : Word) : (s.putRdData x).saf = s.saf := rfl
@[simp] theorem State.putRdData_src (s : State) (x : Word) : (s.putRdData x).src = s.src := rfl
@[simp] theorem State.putRdData_sched (s : State) (x : Word) : (s.putRdData x).sched = s.sched := rfl
@[simp] theorem State.putRdData_cal (s : State) (x : Word) : (s.putRdData x).cal = s.cal := rfl
@[simp] theorem State.putRdData_aux (s : State) (x : Word) : (s.putRdData x).aux = s.aux := rfl
@[simp] theorem State.putRdData_blt (s : State) (x : Word) : (s.putRdData x).blt = s.blt := rfl
@[simp] theorem State.putRdData_tmb (s : State) (x : Word) : (s.putRdData x).tmb = s.tmb := rfl
@[simp] theorem State.putRdData_brl (s : State) (x : Word) : (s.putRdData x).brl = s.brl := rfl
@[simp] theorem State.putRdData_mlk (s : State) (x : Word) : (s.putRdData x).mlk = s.mlk := rfl
@[simp] theorem State.putRdData_units (s : State) (x : Word) : (s.putRdData x).units = s.units := rfl
@[simp] theorem State.putRdData_douts (s : State) (x : Word) : (s.putRdData x).douts = s.douts := rfl
@[simp] theorem State.putRdData_blanks (s : State) (x : Word) : (s.putRdData x).blanks = s.blanks := rfl
@[simp] theorem State.putRdData_streams (s : State) (x : Word) : (s.putRdData x).streams = s.streams := rfl
@[simp] theorem State.putRdData_capRecs (s : State) (x : Word) : (s.putRdData x).capRecs = s.capRecs := rfl
@[simp] theorem State.putRdData_cores (s : State) (x : Word) : (s.putRdData x).cores = s.cores := rfl
@[simp] theorem State.putRdData_fuses (s : State) (x : Word) : (s.putRdData x).fuses = s.fuses := rfl
@[simp] theorem State.putRdData_marchDefault (s : State) (x : Word) : (s.putRdData x).marchDefault = s.marchDefault := rfl
@[simp] theorem State.putRdData_marchMode (s : State) (x : Word) : (s.putRdData x).marchMode = s.marchMode := rfl
@[simp] theorem State.putRdData_burn (s : State) (x : Word) : (s.putRdData x).burn = s.burn := rfl
@[simp] theorem State.putRdData_dram (s : State) (x : Word) : (s.putRdData x).dram = s.dram := rfl
@[simp] theorem State.putRdData_dmc (s : State) (x : Word) : (s.putRdData x).dmc = s.dmc := rfl
@[simp] theorem State.putRdData_flash (s : State) (x : Word) : (s.putRdData x).flash = s.flash := rfl
@[simp] theorem State.putRdData_qspi (s : State) (x : Word) : (s.putRdData x).qspi = s.qspi := rfl
@[simp] theorem State.putRdData_factoryTrim (s : State) (x : Word) : (s.putRdData x).factoryTrim = s.factoryTrim := rfl
@[simp] theorem State.putRdData_rdData (s : State) (x : Word) : (s.putRdData x).rdData = x := rfl
@[simp] theorem State.putRdData_rdData2 (s : State) (x : Word) : (s.putRdData x).rdData2 = s.rdData2 := rfl
@[simp] theorem State.putRdData_sent (s : State) (x : Word) : (s.putRdData x).sent = s.sent := rfl
@[simp] theorem State.putRdData_freeCtr (s : State) (x : Word) : (s.putRdData x).freeCtr = s.freeCtr := rfl
@[simp] theorem State.putRdData_pending (s : State) (x : Word) : (s.putRdData x).pending = s.pending := rfl

/-! putRdData2 -/

@[simp] theorem State.putRdData2_part (s : State) (x : Word) : (s.putRdData2 x).part = s.part := rfl
@[simp] theorem State.putRdData2_time (s : State) (x : Word) : (s.putRdData2 x).time = s.time := rfl
@[simp] theorem State.putRdData2_supply (s : State) (x : Word) : (s.putRdData2 x).supply = s.supply := rfl
@[simp] theorem State.putRdData2_ctl (s : State) (x : Word) : (s.putRdData2 x).ctl = s.ctl := rfl
@[simp] theorem State.putRdData2_regs (s : State) (x : Word) : (s.putRdData2 x).regs = s.regs := rfl
@[simp] theorem State.putRdData2_latches (s : State) (x : Word) : (s.putRdData2 x).latches = s.latches := rfl
@[simp] theorem State.putRdData2_hif (s : State) (x : Word) : (s.putRdData2 x).hif = s.hif := rfl
@[simp] theorem State.putRdData2_evr (s : State) (x : Word) : (s.putRdData2 x).evr = s.evr := rfl
@[simp] theorem State.putRdData2_saf (s : State) (x : Word) : (s.putRdData2 x).saf = s.saf := rfl
@[simp] theorem State.putRdData2_src (s : State) (x : Word) : (s.putRdData2 x).src = s.src := rfl
@[simp] theorem State.putRdData2_sched (s : State) (x : Word) : (s.putRdData2 x).sched = s.sched := rfl
@[simp] theorem State.putRdData2_cal (s : State) (x : Word) : (s.putRdData2 x).cal = s.cal := rfl
@[simp] theorem State.putRdData2_aux (s : State) (x : Word) : (s.putRdData2 x).aux = s.aux := rfl
@[simp] theorem State.putRdData2_blt (s : State) (x : Word) : (s.putRdData2 x).blt = s.blt := rfl
@[simp] theorem State.putRdData2_tmb (s : State) (x : Word) : (s.putRdData2 x).tmb = s.tmb := rfl
@[simp] theorem State.putRdData2_brl (s : State) (x : Word) : (s.putRdData2 x).brl = s.brl := rfl
@[simp] theorem State.putRdData2_mlk (s : State) (x : Word) : (s.putRdData2 x).mlk = s.mlk := rfl
@[simp] theorem State.putRdData2_units (s : State) (x : Word) : (s.putRdData2 x).units = s.units := rfl
@[simp] theorem State.putRdData2_douts (s : State) (x : Word) : (s.putRdData2 x).douts = s.douts := rfl
@[simp] theorem State.putRdData2_blanks (s : State) (x : Word) : (s.putRdData2 x).blanks = s.blanks := rfl
@[simp] theorem State.putRdData2_streams (s : State) (x : Word) : (s.putRdData2 x).streams = s.streams := rfl
@[simp] theorem State.putRdData2_capRecs (s : State) (x : Word) : (s.putRdData2 x).capRecs = s.capRecs := rfl
@[simp] theorem State.putRdData2_cores (s : State) (x : Word) : (s.putRdData2 x).cores = s.cores := rfl
@[simp] theorem State.putRdData2_fuses (s : State) (x : Word) : (s.putRdData2 x).fuses = s.fuses := rfl
@[simp] theorem State.putRdData2_marchDefault (s : State) (x : Word) : (s.putRdData2 x).marchDefault = s.marchDefault := rfl
@[simp] theorem State.putRdData2_marchMode (s : State) (x : Word) : (s.putRdData2 x).marchMode = s.marchMode := rfl
@[simp] theorem State.putRdData2_burn (s : State) (x : Word) : (s.putRdData2 x).burn = s.burn := rfl
@[simp] theorem State.putRdData2_dram (s : State) (x : Word) : (s.putRdData2 x).dram = s.dram := rfl
@[simp] theorem State.putRdData2_dmc (s : State) (x : Word) : (s.putRdData2 x).dmc = s.dmc := rfl
@[simp] theorem State.putRdData2_flash (s : State) (x : Word) : (s.putRdData2 x).flash = s.flash := rfl
@[simp] theorem State.putRdData2_qspi (s : State) (x : Word) : (s.putRdData2 x).qspi = s.qspi := rfl
@[simp] theorem State.putRdData2_factoryTrim (s : State) (x : Word) : (s.putRdData2 x).factoryTrim = s.factoryTrim := rfl
@[simp] theorem State.putRdData2_rdData (s : State) (x : Word) : (s.putRdData2 x).rdData = s.rdData := rfl
@[simp] theorem State.putRdData2_rdData2 (s : State) (x : Word) : (s.putRdData2 x).rdData2 = x := rfl
@[simp] theorem State.putRdData2_sent (s : State) (x : Word) : (s.putRdData2 x).sent = s.sent := rfl
@[simp] theorem State.putRdData2_freeCtr (s : State) (x : Word) : (s.putRdData2 x).freeCtr = s.freeCtr := rfl
@[simp] theorem State.putRdData2_pending (s : State) (x : Word) : (s.putRdData2 x).pending = s.pending := rfl

/-! putFreeCtr -/

@[simp] theorem State.putFreeCtr_part (s : State) (x : Nat) : (s.putFreeCtr x).part = s.part := rfl
@[simp] theorem State.putFreeCtr_time (s : State) (x : Nat) : (s.putFreeCtr x).time = s.time := rfl
@[simp] theorem State.putFreeCtr_supply (s : State) (x : Nat) : (s.putFreeCtr x).supply = s.supply := rfl
@[simp] theorem State.putFreeCtr_ctl (s : State) (x : Nat) : (s.putFreeCtr x).ctl = s.ctl := rfl
@[simp] theorem State.putFreeCtr_regs (s : State) (x : Nat) : (s.putFreeCtr x).regs = s.regs := rfl
@[simp] theorem State.putFreeCtr_latches (s : State) (x : Nat) : (s.putFreeCtr x).latches = s.latches := rfl
@[simp] theorem State.putFreeCtr_hif (s : State) (x : Nat) : (s.putFreeCtr x).hif = s.hif := rfl
@[simp] theorem State.putFreeCtr_evr (s : State) (x : Nat) : (s.putFreeCtr x).evr = s.evr := rfl
@[simp] theorem State.putFreeCtr_saf (s : State) (x : Nat) : (s.putFreeCtr x).saf = s.saf := rfl
@[simp] theorem State.putFreeCtr_src (s : State) (x : Nat) : (s.putFreeCtr x).src = s.src := rfl
@[simp] theorem State.putFreeCtr_sched (s : State) (x : Nat) : (s.putFreeCtr x).sched = s.sched := rfl
@[simp] theorem State.putFreeCtr_cal (s : State) (x : Nat) : (s.putFreeCtr x).cal = s.cal := rfl
@[simp] theorem State.putFreeCtr_aux (s : State) (x : Nat) : (s.putFreeCtr x).aux = s.aux := rfl
@[simp] theorem State.putFreeCtr_blt (s : State) (x : Nat) : (s.putFreeCtr x).blt = s.blt := rfl
@[simp] theorem State.putFreeCtr_tmb (s : State) (x : Nat) : (s.putFreeCtr x).tmb = s.tmb := rfl
@[simp] theorem State.putFreeCtr_brl (s : State) (x : Nat) : (s.putFreeCtr x).brl = s.brl := rfl
@[simp] theorem State.putFreeCtr_mlk (s : State) (x : Nat) : (s.putFreeCtr x).mlk = s.mlk := rfl
@[simp] theorem State.putFreeCtr_units (s : State) (x : Nat) : (s.putFreeCtr x).units = s.units := rfl
@[simp] theorem State.putFreeCtr_douts (s : State) (x : Nat) : (s.putFreeCtr x).douts = s.douts := rfl
@[simp] theorem State.putFreeCtr_blanks (s : State) (x : Nat) : (s.putFreeCtr x).blanks = s.blanks := rfl
@[simp] theorem State.putFreeCtr_streams (s : State) (x : Nat) : (s.putFreeCtr x).streams = s.streams := rfl
@[simp] theorem State.putFreeCtr_capRecs (s : State) (x : Nat) : (s.putFreeCtr x).capRecs = s.capRecs := rfl
@[simp] theorem State.putFreeCtr_cores (s : State) (x : Nat) : (s.putFreeCtr x).cores = s.cores := rfl
@[simp] theorem State.putFreeCtr_fuses (s : State) (x : Nat) : (s.putFreeCtr x).fuses = s.fuses := rfl
@[simp] theorem State.putFreeCtr_marchDefault (s : State) (x : Nat) : (s.putFreeCtr x).marchDefault = s.marchDefault := rfl
@[simp] theorem State.putFreeCtr_marchMode (s : State) (x : Nat) : (s.putFreeCtr x).marchMode = s.marchMode := rfl
@[simp] theorem State.putFreeCtr_burn (s : State) (x : Nat) : (s.putFreeCtr x).burn = s.burn := rfl
@[simp] theorem State.putFreeCtr_dram (s : State) (x : Nat) : (s.putFreeCtr x).dram = s.dram := rfl
@[simp] theorem State.putFreeCtr_dmc (s : State) (x : Nat) : (s.putFreeCtr x).dmc = s.dmc := rfl
@[simp] theorem State.putFreeCtr_flash (s : State) (x : Nat) : (s.putFreeCtr x).flash = s.flash := rfl
@[simp] theorem State.putFreeCtr_qspi (s : State) (x : Nat) : (s.putFreeCtr x).qspi = s.qspi := rfl
@[simp] theorem State.putFreeCtr_factoryTrim (s : State) (x : Nat) : (s.putFreeCtr x).factoryTrim = s.factoryTrim := rfl
@[simp] theorem State.putFreeCtr_rdData (s : State) (x : Nat) : (s.putFreeCtr x).rdData = s.rdData := rfl
@[simp] theorem State.putFreeCtr_rdData2 (s : State) (x : Nat) : (s.putFreeCtr x).rdData2 = s.rdData2 := rfl
@[simp] theorem State.putFreeCtr_sent (s : State) (x : Nat) : (s.putFreeCtr x).sent = s.sent := rfl
@[simp] theorem State.putFreeCtr_freeCtr (s : State) (x : Nat) : (s.putFreeCtr x).freeCtr = x := rfl
@[simp] theorem State.putFreeCtr_pending (s : State) (x : Nat) : (s.putFreeCtr x).pending = s.pending := rfl

/-! setReg -/

@[simp] theorem State.setReg_part (s : State) (o : Nat) (w : Word) : (s.setReg o w).part = s.part := rfl
@[simp] theorem State.setReg_time (s : State) (o : Nat) (w : Word) : (s.setReg o w).time = s.time := rfl
@[simp] theorem State.setReg_supply (s : State) (o : Nat) (w : Word) : (s.setReg o w).supply = s.supply := rfl
@[simp] theorem State.setReg_ctl (s : State) (o : Nat) (w : Word) : (s.setReg o w).ctl = s.ctl := rfl
@[simp] theorem State.setReg_latches (s : State) (o : Nat) (w : Word) : (s.setReg o w).latches = s.latches := rfl
@[simp] theorem State.setReg_hif (s : State) (o : Nat) (w : Word) : (s.setReg o w).hif = s.hif := rfl
@[simp] theorem State.setReg_evr (s : State) (o : Nat) (w : Word) : (s.setReg o w).evr = s.evr := rfl
@[simp] theorem State.setReg_saf (s : State) (o : Nat) (w : Word) : (s.setReg o w).saf = s.saf := rfl
@[simp] theorem State.setReg_src (s : State) (o : Nat) (w : Word) : (s.setReg o w).src = s.src := rfl
@[simp] theorem State.setReg_sched (s : State) (o : Nat) (w : Word) : (s.setReg o w).sched = s.sched := rfl
@[simp] theorem State.setReg_cal (s : State) (o : Nat) (w : Word) : (s.setReg o w).cal = s.cal := rfl
@[simp] theorem State.setReg_aux (s : State) (o : Nat) (w : Word) : (s.setReg o w).aux = s.aux := rfl
@[simp] theorem State.setReg_blt (s : State) (o : Nat) (w : Word) : (s.setReg o w).blt = s.blt := rfl
@[simp] theorem State.setReg_tmb (s : State) (o : Nat) (w : Word) : (s.setReg o w).tmb = s.tmb := rfl
@[simp] theorem State.setReg_brl (s : State) (o : Nat) (w : Word) : (s.setReg o w).brl = s.brl := rfl
@[simp] theorem State.setReg_mlk (s : State) (o : Nat) (w : Word) : (s.setReg o w).mlk = s.mlk := rfl
@[simp] theorem State.setReg_units (s : State) (o : Nat) (w : Word) : (s.setReg o w).units = s.units := rfl
@[simp] theorem State.setReg_douts (s : State) (o : Nat) (w : Word) : (s.setReg o w).douts = s.douts := rfl
@[simp] theorem State.setReg_blanks (s : State) (o : Nat) (w : Word) : (s.setReg o w).blanks = s.blanks := rfl
@[simp] theorem State.setReg_streams (s : State) (o : Nat) (w : Word) : (s.setReg o w).streams = s.streams := rfl
@[simp] theorem State.setReg_capRecs (s : State) (o : Nat) (w : Word) : (s.setReg o w).capRecs = s.capRecs := rfl
@[simp] theorem State.setReg_cores (s : State) (o : Nat) (w : Word) : (s.setReg o w).cores = s.cores := rfl
@[simp] theorem State.setReg_fuses (s : State) (o : Nat) (w : Word) : (s.setReg o w).fuses = s.fuses := rfl
@[simp] theorem State.setReg_marchDefault (s : State) (o : Nat) (w : Word) : (s.setReg o w).marchDefault = s.marchDefault := rfl
@[simp] theorem State.setReg_marchMode (s : State) (o : Nat) (w : Word) : (s.setReg o w).marchMode = s.marchMode := rfl
@[simp] theorem State.setReg_burn (s : State) (o : Nat) (w : Word) : (s.setReg o w).burn = s.burn := rfl
@[simp] theorem State.setReg_dram (s : State) (o : Nat) (w : Word) : (s.setReg o w).dram = s.dram := rfl
@[simp] theorem State.setReg_dmc (s : State) (o : Nat) (w : Word) : (s.setReg o w).dmc = s.dmc := rfl
@[simp] theorem State.setReg_flash (s : State) (o : Nat) (w : Word) : (s.setReg o w).flash = s.flash := rfl
@[simp] theorem State.setReg_qspi (s : State) (o : Nat) (w : Word) : (s.setReg o w).qspi = s.qspi := rfl
@[simp] theorem State.setReg_factoryTrim (s : State) (o : Nat) (w : Word) : (s.setReg o w).factoryTrim = s.factoryTrim := rfl
@[simp] theorem State.setReg_rdData (s : State) (o : Nat) (w : Word) : (s.setReg o w).rdData = s.rdData := rfl
@[simp] theorem State.setReg_rdData2 (s : State) (o : Nat) (w : Word) : (s.setReg o w).rdData2 = s.rdData2 := rfl
@[simp] theorem State.setReg_sent (s : State) (o : Nat) (w : Word) : (s.setReg o w).sent = s.sent := rfl
@[simp] theorem State.setReg_freeCtr (s : State) (o : Nat) (w : Word) : (s.setReg o w).freeCtr = s.freeCtr := rfl
@[simp] theorem State.setReg_pending (s : State) (o : Nat) (w : Word) : (s.setReg o w).pending = s.pending := rfl

/-! setFld -/

@[simp] theorem State.setFld_part (s : State) (f : Fld) (v : Nat) : (s.setFld f v).part = s.part := rfl
@[simp] theorem State.setFld_time (s : State) (f : Fld) (v : Nat) : (s.setFld f v).time = s.time := rfl
@[simp] theorem State.setFld_supply (s : State) (f : Fld) (v : Nat) : (s.setFld f v).supply = s.supply := rfl
@[simp] theorem State.setFld_ctl (s : State) (f : Fld) (v : Nat) : (s.setFld f v).ctl = s.ctl := rfl
@[simp] theorem State.setFld_latches (s : State) (f : Fld) (v : Nat) : (s.setFld f v).latches = s.latches := rfl
@[simp] theorem State.setFld_hif (s : State) (f : Fld) (v : Nat) : (s.setFld f v).hif = s.hif := rfl
@[simp] theorem State.setFld_evr (s : State) (f : Fld) (v : Nat) : (s.setFld f v).evr = s.evr := rfl
@[simp] theorem State.setFld_saf (s : State) (f : Fld) (v : Nat) : (s.setFld f v).saf = s.saf := rfl
@[simp] theorem State.setFld_src (s : State) (f : Fld) (v : Nat) : (s.setFld f v).src = s.src := rfl
@[simp] theorem State.setFld_sched (s : State) (f : Fld) (v : Nat) : (s.setFld f v).sched = s.sched := rfl
@[simp] theorem State.setFld_cal (s : State) (f : Fld) (v : Nat) : (s.setFld f v).cal = s.cal := rfl
@[simp] theorem State.setFld_aux (s : State) (f : Fld) (v : Nat) : (s.setFld f v).aux = s.aux := rfl
@[simp] theorem State.setFld_blt (s : State) (f : Fld) (v : Nat) : (s.setFld f v).blt = s.blt := rfl
@[simp] theorem State.setFld_tmb (s : State) (f : Fld) (v : Nat) : (s.setFld f v).tmb = s.tmb := rfl
@[simp] theorem State.setFld_brl (s : State) (f : Fld) (v : Nat) : (s.setFld f v).brl = s.brl := rfl
@[simp] theorem State.setFld_mlk (s : State) (f : Fld) (v : Nat) : (s.setFld f v).mlk = s.mlk := rfl
@[simp] theorem State.setFld_units (s : State) (f : Fld) (v : Nat) : (s.setFld f v).units = s.units := rfl
@[simp] theorem State.setFld_douts (s : State) (f : Fld) (v : Nat) : (s.setFld f v).douts = s.douts := rfl
@[simp] theorem State.setFld_blanks (s : State) (f : Fld) (v : Nat) : (s.setFld f v).blanks = s.blanks := rfl
@[simp] theorem State.setFld_streams (s : State) (f : Fld) (v : Nat) : (s.setFld f v).streams = s.streams := rfl
@[simp] theorem State.setFld_capRecs (s : State) (f : Fld) (v : Nat) : (s.setFld f v).capRecs = s.capRecs := rfl
@[simp] theorem State.setFld_cores (s : State) (f : Fld) (v : Nat) : (s.setFld f v).cores = s.cores := rfl
@[simp] theorem State.setFld_fuses (s : State) (f : Fld) (v : Nat) : (s.setFld f v).fuses = s.fuses := rfl
@[simp] theorem State.setFld_marchDefault (s : State) (f : Fld) (v : Nat) : (s.setFld f v).marchDefault = s.marchDefault := rfl
@[simp] theorem State.setFld_marchMode (s : State) (f : Fld) (v : Nat) : (s.setFld f v).marchMode = s.marchMode := rfl
@[simp] theorem State.setFld_burn (s : State) (f : Fld) (v : Nat) : (s.setFld f v).burn = s.burn := rfl
@[simp] theorem State.setFld_dram (s : State) (f : Fld) (v : Nat) : (s.setFld f v).dram = s.dram := rfl
@[simp] theorem State.setFld_dmc (s : State) (f : Fld) (v : Nat) : (s.setFld f v).dmc = s.dmc := rfl
@[simp] theorem State.setFld_flash (s : State) (f : Fld) (v : Nat) : (s.setFld f v).flash = s.flash := rfl
@[simp] theorem State.setFld_qspi (s : State) (f : Fld) (v : Nat) : (s.setFld f v).qspi = s.qspi := rfl
@[simp] theorem State.setFld_factoryTrim (s : State) (f : Fld) (v : Nat) : (s.setFld f v).factoryTrim = s.factoryTrim := rfl
@[simp] theorem State.setFld_rdData (s : State) (f : Fld) (v : Nat) : (s.setFld f v).rdData = s.rdData := rfl
@[simp] theorem State.setFld_rdData2 (s : State) (f : Fld) (v : Nat) : (s.setFld f v).rdData2 = s.rdData2 := rfl
@[simp] theorem State.setFld_sent (s : State) (f : Fld) (v : Nat) : (s.setFld f v).sent = s.sent := rfl
@[simp] theorem State.setFld_freeCtr (s : State) (f : Fld) (v : Nat) : (s.setFld f v).freeCtr = s.freeCtr := rfl
@[simp] theorem State.setFld_pending (s : State) (f : Fld) (v : Nat) : (s.setFld f v).pending = s.pending := rfl

/-! setFlag -/

@[simp] theorem State.setFlag_part (s : State) (f : Fld) (b : Bool) : (s.setFlag f b).part = s.part := rfl
@[simp] theorem State.setFlag_time (s : State) (f : Fld) (b : Bool) : (s.setFlag f b).time = s.time := rfl
@[simp] theorem State.setFlag_supply (s : State) (f : Fld) (b : Bool) : (s.setFlag f b).supply = s.supply := rfl
@[simp] theorem State.setFlag_ctl (s : State) (f : Fld) (b : Bool) : (s.setFlag f b).ctl = s.ctl := rfl
@[simp] theorem State.setFlag_latches (s : State) (f : Fld) (b : Bool) : (s.setFlag f b).latches = s.latches := rfl
@[simp] theorem State.setFlag_hif (s : State) (f : Fld) (b : Bool) : (s.setFlag f b).hif = s.hif := rfl
@[simp] theorem State.setFlag_evr (s : State) (f : Fld) (b : Bool) : (s.setFlag f b).evr = s.evr := rfl
@[simp] theorem State.setFlag_saf (s : State) (f : Fld) (b : Bool) : (s.setFlag f b).saf = s.saf := rfl
@[simp] theorem State.setFlag_src (s : State) (f : Fld) (b : Bool) : (s.setFlag f b).src = s.src := rfl
@[simp] theorem State.setFlag_sched (s : State) (f : Fld) (b : Bool) : (s.setFlag f b).sched = s.sched := rfl
@[simp] theorem State.setFlag_cal (s : State) (f : Fld) (b : Bool) : (s.setFlag f b).cal = s.cal := rfl
@[simp] theorem State.setFlag_aux (s : State) (f : Fld) (b : Bool) : (s.setFlag f b).aux = s.aux := rfl
@[simp] theorem State.setFlag_blt (s : State) (f : Fld) (b : Bool) : (s.setFlag f b).blt = s.blt := rfl
@[simp] theorem State.setFlag_tmb (s : State) (f : Fld) (b : Bool) : (s.setFlag f b).tmb = s.tmb := rfl
@[simp] theorem State.setFlag_brl (s : State) (f : Fld) (b : Bool) : (s.setFlag f b).brl = s.brl := rfl
@[simp] theorem State.setFlag_mlk (s : State) (f : Fld) (b : Bool) : (s.setFlag f b).mlk = s.mlk := rfl
@[simp] theorem State.setFlag_units (s : State) (f : Fld) (b : Bool) : (s.setFlag f b).units = s.units := rfl
@[simp] theorem State.setFlag_douts (s : State) (f : Fld) (b : Bool) : (s.setFlag f b).douts = s.douts := rfl
@[simp] theorem State.setFlag_blanks (s : State) (f : Fld) (b : Bool) : (s.setFlag f b).blanks = s.blanks := rfl
@[simp] theorem State.setFlag_streams (s : State) (f : Fld) (b : Bool) : (s.setFlag f b).streams = s.streams := rfl
@[simp] theorem State.setFlag_capRecs (s : State) (f : Fld) (b : Bool) : (s.setFlag f b).capRecs = s.capRecs := rfl
@[simp] theorem State.setFlag_cores (s : State) (f : Fld) (b : Bool) : (s.setFlag f b).cores = s.cores := rfl
@[simp] theorem State.setFlag_fuses (s : State) (f : Fld) (b : Bool) : (s.setFlag f b).fuses = s.fuses := rfl
@[simp] theorem State.setFlag_marchDefault (s : State) (f : Fld) (b : Bool) : (s.setFlag f b).marchDefault = s.marchDefault := rfl
@[simp] theorem State.setFlag_marchMode (s : State) (f : Fld) (b : Bool) : (s.setFlag f b).marchMode = s.marchMode := rfl
@[simp] theorem State.setFlag_burn (s : State) (f : Fld) (b : Bool) : (s.setFlag f b).burn = s.burn := rfl
@[simp] theorem State.setFlag_dram (s : State) (f : Fld) (b : Bool) : (s.setFlag f b).dram = s.dram := rfl
@[simp] theorem State.setFlag_dmc (s : State) (f : Fld) (b : Bool) : (s.setFlag f b).dmc = s.dmc := rfl
@[simp] theorem State.setFlag_flash (s : State) (f : Fld) (b : Bool) : (s.setFlag f b).flash = s.flash := rfl
@[simp] theorem State.setFlag_qspi (s : State) (f : Fld) (b : Bool) : (s.setFlag f b).qspi = s.qspi := rfl
@[simp] theorem State.setFlag_factoryTrim (s : State) (f : Fld) (b : Bool) : (s.setFlag f b).factoryTrim = s.factoryTrim := rfl
@[simp] theorem State.setFlag_rdData (s : State) (f : Fld) (b : Bool) : (s.setFlag f b).rdData = s.rdData := rfl
@[simp] theorem State.setFlag_rdData2 (s : State) (f : Fld) (b : Bool) : (s.setFlag f b).rdData2 = s.rdData2 := rfl
@[simp] theorem State.setFlag_sent (s : State) (f : Fld) (b : Bool) : (s.setFlag f b).sent = s.sent := rfl
@[simp] theorem State.setFlag_freeCtr (s : State) (f : Fld) (b : Bool) : (s.setFlag f b).freeCtr = s.freeCtr := rfl
@[simp] theorem State.setFlag_pending (s : State) (f : Fld) (b : Bool) : (s.setFlag f b).pending = s.pending := rfl

/-! setFldInt -/

@[simp] theorem State.setFldInt_part (s : State) (f : Fld) (v : Int) : (s.setFldInt f v).part = s.part := rfl
@[simp] theorem State.setFldInt_time (s : State) (f : Fld) (v : Int) : (s.setFldInt f v).time = s.time := rfl
@[simp] theorem State.setFldInt_supply (s : State) (f : Fld) (v : Int) : (s.setFldInt f v).supply = s.supply := rfl
@[simp] theorem State.setFldInt_ctl (s : State) (f : Fld) (v : Int) : (s.setFldInt f v).ctl = s.ctl := rfl
@[simp] theorem State.setFldInt_latches (s : State) (f : Fld) (v : Int) : (s.setFldInt f v).latches = s.latches := rfl
@[simp] theorem State.setFldInt_hif (s : State) (f : Fld) (v : Int) : (s.setFldInt f v).hif = s.hif := rfl
@[simp] theorem State.setFldInt_evr (s : State) (f : Fld) (v : Int) : (s.setFldInt f v).evr = s.evr := rfl
@[simp] theorem State.setFldInt_saf (s : State) (f : Fld) (v : Int) : (s.setFldInt f v).saf = s.saf := rfl
@[simp] theorem State.setFldInt_src (s : State) (f : Fld) (v : Int) : (s.setFldInt f v).src = s.src := rfl
@[simp] theorem State.setFldInt_sched (s : State) (f : Fld) (v : Int) : (s.setFldInt f v).sched = s.sched := rfl
@[simp] theorem State.setFldInt_cal (s : State) (f : Fld) (v : Int) : (s.setFldInt f v).cal = s.cal := rfl
@[simp] theorem State.setFldInt_aux (s : State) (f : Fld) (v : Int) : (s.setFldInt f v).aux = s.aux := rfl
@[simp] theorem State.setFldInt_blt (s : State) (f : Fld) (v : Int) : (s.setFldInt f v).blt = s.blt := rfl
@[simp] theorem State.setFldInt_tmb (s : State) (f : Fld) (v : Int) : (s.setFldInt f v).tmb = s.tmb := rfl
@[simp] theorem State.setFldInt_brl (s : State) (f : Fld) (v : Int) : (s.setFldInt f v).brl = s.brl := rfl
@[simp] theorem State.setFldInt_mlk (s : State) (f : Fld) (v : Int) : (s.setFldInt f v).mlk = s.mlk := rfl
@[simp] theorem State.setFldInt_units (s : State) (f : Fld) (v : Int) : (s.setFldInt f v).units = s.units := rfl
@[simp] theorem State.setFldInt_douts (s : State) (f : Fld) (v : Int) : (s.setFldInt f v).douts = s.douts := rfl
@[simp] theorem State.setFldInt_blanks (s : State) (f : Fld) (v : Int) : (s.setFldInt f v).blanks = s.blanks := rfl
@[simp] theorem State.setFldInt_streams (s : State) (f : Fld) (v : Int) : (s.setFldInt f v).streams = s.streams := rfl
@[simp] theorem State.setFldInt_capRecs (s : State) (f : Fld) (v : Int) : (s.setFldInt f v).capRecs = s.capRecs := rfl
@[simp] theorem State.setFldInt_cores (s : State) (f : Fld) (v : Int) : (s.setFldInt f v).cores = s.cores := rfl
@[simp] theorem State.setFldInt_fuses (s : State) (f : Fld) (v : Int) : (s.setFldInt f v).fuses = s.fuses := rfl
@[simp] theorem State.setFldInt_marchDefault (s : State) (f : Fld) (v : Int) : (s.setFldInt f v).marchDefault = s.marchDefault := rfl
@[simp] theorem State.setFldInt_marchMode (s : State) (f : Fld) (v : Int) : (s.setFldInt f v).marchMode = s.marchMode := rfl
@[simp] theorem State.setFldInt_burn (s : State) (f : Fld) (v : Int) : (s.setFldInt f v).burn = s.burn := rfl
@[simp] theorem State.setFldInt_dram (s : State) (f : Fld) (v : Int) : (s.setFldInt f v).dram = s.dram := rfl
@[simp] theorem State.setFldInt_dmc (s : State) (f : Fld) (v : Int) : (s.setFldInt f v).dmc = s.dmc := rfl
@[simp] theorem State.setFldInt_flash (s : State) (f : Fld) (v : Int) : (s.setFldInt f v).flash = s.flash := rfl
@[simp] theorem State.setFldInt_qspi (s : State) (f : Fld) (v : Int) : (s.setFldInt f v).qspi = s.qspi := rfl
@[simp] theorem State.setFldInt_factoryTrim (s : State) (f : Fld) (v : Int) : (s.setFldInt f v).factoryTrim = s.factoryTrim := rfl
@[simp] theorem State.setFldInt_rdData (s : State) (f : Fld) (v : Int) : (s.setFldInt f v).rdData = s.rdData := rfl
@[simp] theorem State.setFldInt_rdData2 (s : State) (f : Fld) (v : Int) : (s.setFldInt f v).rdData2 = s.rdData2 := rfl
@[simp] theorem State.setFldInt_sent (s : State) (f : Fld) (v : Int) : (s.setFldInt f v).sent = s.sent := rfl
@[simp] theorem State.setFldInt_freeCtr (s : State) (f : Fld) (v : Int) : (s.setFldInt f v).freeCtr = s.freeCtr := rfl
@[simp] theorem State.setFldInt_pending (s : State) (f : Fld) (v : Int) : (s.setFldInt f v).pending = s.pending := rfl

/-! setNat -/

@[simp] theorem State.setNat_part (s : State) (o v : Nat) : (s.setNat o v).part = s.part := rfl
@[simp] theorem State.setNat_time (s : State) (o v : Nat) : (s.setNat o v).time = s.time := rfl
@[simp] theorem State.setNat_supply (s : State) (o v : Nat) : (s.setNat o v).supply = s.supply := rfl
@[simp] theorem State.setNat_ctl (s : State) (o v : Nat) : (s.setNat o v).ctl = s.ctl := rfl
@[simp] theorem State.setNat_latches (s : State) (o v : Nat) : (s.setNat o v).latches = s.latches := rfl
@[simp] theorem State.setNat_hif (s : State) (o v : Nat) : (s.setNat o v).hif = s.hif := rfl
@[simp] theorem State.setNat_evr (s : State) (o v : Nat) : (s.setNat o v).evr = s.evr := rfl
@[simp] theorem State.setNat_saf (s : State) (o v : Nat) : (s.setNat o v).saf = s.saf := rfl
@[simp] theorem State.setNat_src (s : State) (o v : Nat) : (s.setNat o v).src = s.src := rfl
@[simp] theorem State.setNat_sched (s : State) (o v : Nat) : (s.setNat o v).sched = s.sched := rfl
@[simp] theorem State.setNat_cal (s : State) (o v : Nat) : (s.setNat o v).cal = s.cal := rfl
@[simp] theorem State.setNat_aux (s : State) (o v : Nat) : (s.setNat o v).aux = s.aux := rfl
@[simp] theorem State.setNat_blt (s : State) (o v : Nat) : (s.setNat o v).blt = s.blt := rfl
@[simp] theorem State.setNat_tmb (s : State) (o v : Nat) : (s.setNat o v).tmb = s.tmb := rfl
@[simp] theorem State.setNat_brl (s : State) (o v : Nat) : (s.setNat o v).brl = s.brl := rfl
@[simp] theorem State.setNat_mlk (s : State) (o v : Nat) : (s.setNat o v).mlk = s.mlk := rfl
@[simp] theorem State.setNat_units (s : State) (o v : Nat) : (s.setNat o v).units = s.units := rfl
@[simp] theorem State.setNat_douts (s : State) (o v : Nat) : (s.setNat o v).douts = s.douts := rfl
@[simp] theorem State.setNat_blanks (s : State) (o v : Nat) : (s.setNat o v).blanks = s.blanks := rfl
@[simp] theorem State.setNat_streams (s : State) (o v : Nat) : (s.setNat o v).streams = s.streams := rfl
@[simp] theorem State.setNat_capRecs (s : State) (o v : Nat) : (s.setNat o v).capRecs = s.capRecs := rfl
@[simp] theorem State.setNat_cores (s : State) (o v : Nat) : (s.setNat o v).cores = s.cores := rfl
@[simp] theorem State.setNat_fuses (s : State) (o v : Nat) : (s.setNat o v).fuses = s.fuses := rfl
@[simp] theorem State.setNat_marchDefault (s : State) (o v : Nat) : (s.setNat o v).marchDefault = s.marchDefault := rfl
@[simp] theorem State.setNat_marchMode (s : State) (o v : Nat) : (s.setNat o v).marchMode = s.marchMode := rfl
@[simp] theorem State.setNat_burn (s : State) (o v : Nat) : (s.setNat o v).burn = s.burn := rfl
@[simp] theorem State.setNat_dram (s : State) (o v : Nat) : (s.setNat o v).dram = s.dram := rfl
@[simp] theorem State.setNat_dmc (s : State) (o v : Nat) : (s.setNat o v).dmc = s.dmc := rfl
@[simp] theorem State.setNat_flash (s : State) (o v : Nat) : (s.setNat o v).flash = s.flash := rfl
@[simp] theorem State.setNat_qspi (s : State) (o v : Nat) : (s.setNat o v).qspi = s.qspi := rfl
@[simp] theorem State.setNat_factoryTrim (s : State) (o v : Nat) : (s.setNat o v).factoryTrim = s.factoryTrim := rfl
@[simp] theorem State.setNat_rdData (s : State) (o v : Nat) : (s.setNat o v).rdData = s.rdData := rfl
@[simp] theorem State.setNat_rdData2 (s : State) (o v : Nat) : (s.setNat o v).rdData2 = s.rdData2 := rfl
@[simp] theorem State.setNat_sent (s : State) (o v : Nat) : (s.setNat o v).sent = s.sent := rfl
@[simp] theorem State.setNat_freeCtr (s : State) (o v : Nat) : (s.setNat o v).freeCtr = s.freeCtr := rfl
@[simp] theorem State.setNat_pending (s : State) (o v : Nat) : (s.setNat o v).pending = s.pending := rfl

/-! addReg -/

@[simp] theorem State.addReg_part (s : State) (o n : Nat) : (s.addReg o n).part = s.part := rfl
@[simp] theorem State.addReg_time (s : State) (o n : Nat) : (s.addReg o n).time = s.time := rfl
@[simp] theorem State.addReg_supply (s : State) (o n : Nat) : (s.addReg o n).supply = s.supply := rfl
@[simp] theorem State.addReg_ctl (s : State) (o n : Nat) : (s.addReg o n).ctl = s.ctl := rfl
@[simp] theorem State.addReg_latches (s : State) (o n : Nat) : (s.addReg o n).latches = s.latches := rfl
@[simp] theorem State.addReg_hif (s : State) (o n : Nat) : (s.addReg o n).hif = s.hif := rfl
@[simp] theorem State.addReg_evr (s : State) (o n : Nat) : (s.addReg o n).evr = s.evr := rfl
@[simp] theorem State.addReg_saf (s : State) (o n : Nat) : (s.addReg o n).saf = s.saf := rfl
@[simp] theorem State.addReg_src (s : State) (o n : Nat) : (s.addReg o n).src = s.src := rfl
@[simp] theorem State.addReg_sched (s : State) (o n : Nat) : (s.addReg o n).sched = s.sched := rfl
@[simp] theorem State.addReg_cal (s : State) (o n : Nat) : (s.addReg o n).cal = s.cal := rfl
@[simp] theorem State.addReg_aux (s : State) (o n : Nat) : (s.addReg o n).aux = s.aux := rfl
@[simp] theorem State.addReg_blt (s : State) (o n : Nat) : (s.addReg o n).blt = s.blt := rfl
@[simp] theorem State.addReg_tmb (s : State) (o n : Nat) : (s.addReg o n).tmb = s.tmb := rfl
@[simp] theorem State.addReg_brl (s : State) (o n : Nat) : (s.addReg o n).brl = s.brl := rfl
@[simp] theorem State.addReg_mlk (s : State) (o n : Nat) : (s.addReg o n).mlk = s.mlk := rfl
@[simp] theorem State.addReg_units (s : State) (o n : Nat) : (s.addReg o n).units = s.units := rfl
@[simp] theorem State.addReg_douts (s : State) (o n : Nat) : (s.addReg o n).douts = s.douts := rfl
@[simp] theorem State.addReg_blanks (s : State) (o n : Nat) : (s.addReg o n).blanks = s.blanks := rfl
@[simp] theorem State.addReg_streams (s : State) (o n : Nat) : (s.addReg o n).streams = s.streams := rfl
@[simp] theorem State.addReg_capRecs (s : State) (o n : Nat) : (s.addReg o n).capRecs = s.capRecs := rfl
@[simp] theorem State.addReg_cores (s : State) (o n : Nat) : (s.addReg o n).cores = s.cores := rfl
@[simp] theorem State.addReg_fuses (s : State) (o n : Nat) : (s.addReg o n).fuses = s.fuses := rfl
@[simp] theorem State.addReg_marchDefault (s : State) (o n : Nat) : (s.addReg o n).marchDefault = s.marchDefault := rfl
@[simp] theorem State.addReg_marchMode (s : State) (o n : Nat) : (s.addReg o n).marchMode = s.marchMode := rfl
@[simp] theorem State.addReg_burn (s : State) (o n : Nat) : (s.addReg o n).burn = s.burn := rfl
@[simp] theorem State.addReg_dram (s : State) (o n : Nat) : (s.addReg o n).dram = s.dram := rfl
@[simp] theorem State.addReg_dmc (s : State) (o n : Nat) : (s.addReg o n).dmc = s.dmc := rfl
@[simp] theorem State.addReg_flash (s : State) (o n : Nat) : (s.addReg o n).flash = s.flash := rfl
@[simp] theorem State.addReg_qspi (s : State) (o n : Nat) : (s.addReg o n).qspi = s.qspi := rfl
@[simp] theorem State.addReg_factoryTrim (s : State) (o n : Nat) : (s.addReg o n).factoryTrim = s.factoryTrim := rfl
@[simp] theorem State.addReg_rdData (s : State) (o n : Nat) : (s.addReg o n).rdData = s.rdData := rfl
@[simp] theorem State.addReg_rdData2 (s : State) (o n : Nat) : (s.addReg o n).rdData2 = s.rdData2 := rfl
@[simp] theorem State.addReg_sent (s : State) (o n : Nat) : (s.addReg o n).sent = s.sent := rfl
@[simp] theorem State.addReg_freeCtr (s : State) (o n : Nat) : (s.addReg o n).freeCtr = s.freeCtr := rfl
@[simp] theorem State.addReg_pending (s : State) (o n : Nat) : (s.addReg o n).pending = s.pending := rfl

/-! bump -/

@[simp] theorem State.bump_part (s : State) (o : Nat) : (s.bump o).part = s.part := rfl
@[simp] theorem State.bump_time (s : State) (o : Nat) : (s.bump o).time = s.time := rfl
@[simp] theorem State.bump_supply (s : State) (o : Nat) : (s.bump o).supply = s.supply := rfl
@[simp] theorem State.bump_ctl (s : State) (o : Nat) : (s.bump o).ctl = s.ctl := rfl
@[simp] theorem State.bump_latches (s : State) (o : Nat) : (s.bump o).latches = s.latches := rfl
@[simp] theorem State.bump_hif (s : State) (o : Nat) : (s.bump o).hif = s.hif := rfl
@[simp] theorem State.bump_evr (s : State) (o : Nat) : (s.bump o).evr = s.evr := rfl
@[simp] theorem State.bump_saf (s : State) (o : Nat) : (s.bump o).saf = s.saf := rfl
@[simp] theorem State.bump_src (s : State) (o : Nat) : (s.bump o).src = s.src := rfl
@[simp] theorem State.bump_sched (s : State) (o : Nat) : (s.bump o).sched = s.sched := rfl
@[simp] theorem State.bump_cal (s : State) (o : Nat) : (s.bump o).cal = s.cal := rfl
@[simp] theorem State.bump_aux (s : State) (o : Nat) : (s.bump o).aux = s.aux := rfl
@[simp] theorem State.bump_blt (s : State) (o : Nat) : (s.bump o).blt = s.blt := rfl
@[simp] theorem State.bump_tmb (s : State) (o : Nat) : (s.bump o).tmb = s.tmb := rfl
@[simp] theorem State.bump_brl (s : State) (o : Nat) : (s.bump o).brl = s.brl := rfl
@[simp] theorem State.bump_mlk (s : State) (o : Nat) : (s.bump o).mlk = s.mlk := rfl
@[simp] theorem State.bump_units (s : State) (o : Nat) : (s.bump o).units = s.units := rfl
@[simp] theorem State.bump_douts (s : State) (o : Nat) : (s.bump o).douts = s.douts := rfl
@[simp] theorem State.bump_blanks (s : State) (o : Nat) : (s.bump o).blanks = s.blanks := rfl
@[simp] theorem State.bump_streams (s : State) (o : Nat) : (s.bump o).streams = s.streams := rfl
@[simp] theorem State.bump_capRecs (s : State) (o : Nat) : (s.bump o).capRecs = s.capRecs := rfl
@[simp] theorem State.bump_cores (s : State) (o : Nat) : (s.bump o).cores = s.cores := rfl
@[simp] theorem State.bump_fuses (s : State) (o : Nat) : (s.bump o).fuses = s.fuses := rfl
@[simp] theorem State.bump_marchDefault (s : State) (o : Nat) : (s.bump o).marchDefault = s.marchDefault := rfl
@[simp] theorem State.bump_marchMode (s : State) (o : Nat) : (s.bump o).marchMode = s.marchMode := rfl
@[simp] theorem State.bump_burn (s : State) (o : Nat) : (s.bump o).burn = s.burn := rfl
@[simp] theorem State.bump_dram (s : State) (o : Nat) : (s.bump o).dram = s.dram := rfl
@[simp] theorem State.bump_dmc (s : State) (o : Nat) : (s.bump o).dmc = s.dmc := rfl
@[simp] theorem State.bump_flash (s : State) (o : Nat) : (s.bump o).flash = s.flash := rfl
@[simp] theorem State.bump_qspi (s : State) (o : Nat) : (s.bump o).qspi = s.qspi := rfl
@[simp] theorem State.bump_factoryTrim (s : State) (o : Nat) : (s.bump o).factoryTrim = s.factoryTrim := rfl
@[simp] theorem State.bump_rdData (s : State) (o : Nat) : (s.bump o).rdData = s.rdData := rfl
@[simp] theorem State.bump_rdData2 (s : State) (o : Nat) : (s.bump o).rdData2 = s.rdData2 := rfl
@[simp] theorem State.bump_sent (s : State) (o : Nat) : (s.bump o).sent = s.sent := rfl
@[simp] theorem State.bump_freeCtr (s : State) (o : Nat) : (s.bump o).freeCtr = s.freeCtr := rfl
@[simp] theorem State.bump_pending (s : State) (o : Nat) : (s.bump o).pending = s.pending := rfl

/-! setReg64 -/

@[simp] theorem State.setReg64_part (s : State) (o v : Nat) : (s.setReg64 o v).part = s.part := rfl
@[simp] theorem State.setReg64_time (s : State) (o v : Nat) : (s.setReg64 o v).time = s.time := rfl
@[simp] theorem State.setReg64_supply (s : State) (o v : Nat) : (s.setReg64 o v).supply = s.supply := rfl
@[simp] theorem State.setReg64_ctl (s : State) (o v : Nat) : (s.setReg64 o v).ctl = s.ctl := rfl
@[simp] theorem State.setReg64_latches (s : State) (o v : Nat) : (s.setReg64 o v).latches = s.latches := rfl
@[simp] theorem State.setReg64_hif (s : State) (o v : Nat) : (s.setReg64 o v).hif = s.hif := rfl
@[simp] theorem State.setReg64_evr (s : State) (o v : Nat) : (s.setReg64 o v).evr = s.evr := rfl
@[simp] theorem State.setReg64_saf (s : State) (o v : Nat) : (s.setReg64 o v).saf = s.saf := rfl
@[simp] theorem State.setReg64_src (s : State) (o v : Nat) : (s.setReg64 o v).src = s.src := rfl
@[simp] theorem State.setReg64_sched (s : State) (o v : Nat) : (s.setReg64 o v).sched = s.sched := rfl
@[simp] theorem State.setReg64_cal (s : State) (o v : Nat) : (s.setReg64 o v).cal = s.cal := rfl
@[simp] theorem State.setReg64_aux (s : State) (o v : Nat) : (s.setReg64 o v).aux = s.aux := rfl
@[simp] theorem State.setReg64_blt (s : State) (o v : Nat) : (s.setReg64 o v).blt = s.blt := rfl
@[simp] theorem State.setReg64_tmb (s : State) (o v : Nat) : (s.setReg64 o v).tmb = s.tmb := rfl
@[simp] theorem State.setReg64_brl (s : State) (o v : Nat) : (s.setReg64 o v).brl = s.brl := rfl
@[simp] theorem State.setReg64_mlk (s : State) (o v : Nat) : (s.setReg64 o v).mlk = s.mlk := rfl
@[simp] theorem State.setReg64_units (s : State) (o v : Nat) : (s.setReg64 o v).units = s.units := rfl
@[simp] theorem State.setReg64_douts (s : State) (o v : Nat) : (s.setReg64 o v).douts = s.douts := rfl
@[simp] theorem State.setReg64_blanks (s : State) (o v : Nat) : (s.setReg64 o v).blanks = s.blanks := rfl
@[simp] theorem State.setReg64_streams (s : State) (o v : Nat) : (s.setReg64 o v).streams = s.streams := rfl
@[simp] theorem State.setReg64_capRecs (s : State) (o v : Nat) : (s.setReg64 o v).capRecs = s.capRecs := rfl
@[simp] theorem State.setReg64_cores (s : State) (o v : Nat) : (s.setReg64 o v).cores = s.cores := rfl
@[simp] theorem State.setReg64_fuses (s : State) (o v : Nat) : (s.setReg64 o v).fuses = s.fuses := rfl
@[simp] theorem State.setReg64_marchDefault (s : State) (o v : Nat) : (s.setReg64 o v).marchDefault = s.marchDefault := rfl
@[simp] theorem State.setReg64_marchMode (s : State) (o v : Nat) : (s.setReg64 o v).marchMode = s.marchMode := rfl
@[simp] theorem State.setReg64_burn (s : State) (o v : Nat) : (s.setReg64 o v).burn = s.burn := rfl
@[simp] theorem State.setReg64_dram (s : State) (o v : Nat) : (s.setReg64 o v).dram = s.dram := rfl
@[simp] theorem State.setReg64_dmc (s : State) (o v : Nat) : (s.setReg64 o v).dmc = s.dmc := rfl
@[simp] theorem State.setReg64_flash (s : State) (o v : Nat) : (s.setReg64 o v).flash = s.flash := rfl
@[simp] theorem State.setReg64_qspi (s : State) (o v : Nat) : (s.setReg64 o v).qspi = s.qspi := rfl
@[simp] theorem State.setReg64_factoryTrim (s : State) (o v : Nat) : (s.setReg64 o v).factoryTrim = s.factoryTrim := rfl
@[simp] theorem State.setReg64_rdData (s : State) (o v : Nat) : (s.setReg64 o v).rdData = s.rdData := rfl
@[simp] theorem State.setReg64_rdData2 (s : State) (o v : Nat) : (s.setReg64 o v).rdData2 = s.rdData2 := rfl
@[simp] theorem State.setReg64_sent (s : State) (o v : Nat) : (s.setReg64 o v).sent = s.sent := rfl
@[simp] theorem State.setReg64_freeCtr (s : State) (o v : Nat) : (s.setReg64 o v).freeCtr = s.freeCtr := rfl
@[simp] theorem State.setReg64_pending (s : State) (o v : Nat) : (s.setReg64 o v).pending = s.pending := rfl

/-! emit -/

@[simp] theorem State.emit_part (s : State) (e : Emission) : (s.emit e).part = s.part := rfl
@[simp] theorem State.emit_time (s : State) (e : Emission) : (s.emit e).time = s.time := rfl
@[simp] theorem State.emit_supply (s : State) (e : Emission) : (s.emit e).supply = s.supply := rfl
@[simp] theorem State.emit_ctl (s : State) (e : Emission) : (s.emit e).ctl = s.ctl := rfl
@[simp] theorem State.emit_regs (s : State) (e : Emission) : (s.emit e).regs = s.regs := rfl
@[simp] theorem State.emit_latches (s : State) (e : Emission) : (s.emit e).latches = s.latches := rfl
@[simp] theorem State.emit_hif (s : State) (e : Emission) : (s.emit e).hif = s.hif := rfl
@[simp] theorem State.emit_evr (s : State) (e : Emission) : (s.emit e).evr = s.evr := rfl
@[simp] theorem State.emit_saf (s : State) (e : Emission) : (s.emit e).saf = s.saf := rfl
@[simp] theorem State.emit_src (s : State) (e : Emission) : (s.emit e).src = s.src := rfl
@[simp] theorem State.emit_sched (s : State) (e : Emission) : (s.emit e).sched = s.sched := rfl
@[simp] theorem State.emit_cal (s : State) (e : Emission) : (s.emit e).cal = s.cal := rfl
@[simp] theorem State.emit_aux (s : State) (e : Emission) : (s.emit e).aux = s.aux := rfl
@[simp] theorem State.emit_blt (s : State) (e : Emission) : (s.emit e).blt = s.blt := rfl
@[simp] theorem State.emit_tmb (s : State) (e : Emission) : (s.emit e).tmb = s.tmb := rfl
@[simp] theorem State.emit_brl (s : State) (e : Emission) : (s.emit e).brl = s.brl := rfl
@[simp] theorem State.emit_mlk (s : State) (e : Emission) : (s.emit e).mlk = s.mlk := rfl
@[simp] theorem State.emit_units (s : State) (e : Emission) : (s.emit e).units = s.units := rfl
@[simp] theorem State.emit_douts (s : State) (e : Emission) : (s.emit e).douts = s.douts := rfl
@[simp] theorem State.emit_blanks (s : State) (e : Emission) : (s.emit e).blanks = s.blanks := rfl
@[simp] theorem State.emit_streams (s : State) (e : Emission) : (s.emit e).streams = s.streams := rfl
@[simp] theorem State.emit_capRecs (s : State) (e : Emission) : (s.emit e).capRecs = s.capRecs := rfl
@[simp] theorem State.emit_cores (s : State) (e : Emission) : (s.emit e).cores = s.cores := rfl
@[simp] theorem State.emit_fuses (s : State) (e : Emission) : (s.emit e).fuses = s.fuses := rfl
@[simp] theorem State.emit_marchDefault (s : State) (e : Emission) : (s.emit e).marchDefault = s.marchDefault := rfl
@[simp] theorem State.emit_marchMode (s : State) (e : Emission) : (s.emit e).marchMode = s.marchMode := rfl
@[simp] theorem State.emit_burn (s : State) (e : Emission) : (s.emit e).burn = s.burn := rfl
@[simp] theorem State.emit_dram (s : State) (e : Emission) : (s.emit e).dram = s.dram := rfl
@[simp] theorem State.emit_dmc (s : State) (e : Emission) : (s.emit e).dmc = s.dmc := rfl
@[simp] theorem State.emit_flash (s : State) (e : Emission) : (s.emit e).flash = s.flash := rfl
@[simp] theorem State.emit_qspi (s : State) (e : Emission) : (s.emit e).qspi = s.qspi := rfl
@[simp] theorem State.emit_factoryTrim (s : State) (e : Emission) : (s.emit e).factoryTrim = s.factoryTrim := rfl
@[simp] theorem State.emit_rdData (s : State) (e : Emission) : (s.emit e).rdData = s.rdData := rfl
@[simp] theorem State.emit_rdData2 (s : State) (e : Emission) : (s.emit e).rdData2 = s.rdData2 := rfl
@[simp] theorem State.emit_freeCtr (s : State) (e : Emission) : (s.emit e).freeCtr = s.freeCtr := rfl
@[simp] theorem State.emit_pending (s : State) (e : Emission) : (s.emit e).pending = s.pending := rfl

@[simp] theorem State.emit_sent (s : State) (e : Emission) : (s.emit e).sent = s.sent ++ [e] := rfl

end Sys2Proof.Machine
end

