-- ==== Sys2Proof/Laws/Reg.lean ====
section
/-!
SUPPORT. Registers and fields after a write, and the canonical form under every update.
-/
namespace Sys2Proof.Machine

variable {s : State}

/-! Words and fields. -/

theorem Word.toNat_of (n : Nat) : (Word.of n).toNat = n % 2 ^ 32 := by simp [Word.of]

/-- A field reads back what was put into it. -/
theorem Fld.get_put (f : Fld) (w : Word) (v : Nat) (h : f.lo + f.width ≤ 32) : f.get (f.put w v) = v % 2 ^ f.width := by
  have hw : w.toNat < 2 ^ 32 := w.isLt
  simp only [Fld.get, Fld.put]
  rw [Word.toNat_of]
  have hp : (2 : Nat) ^ f.lo * 2 ^ f.width ≤ 2 ^ 32 := by
    rw [← Nat.pow_add]
    exact Nat.pow_le_pow_right (by decide) h
  have hlo : 0 < (2 : Nat) ^ f.lo := Nat.two_pow_pos _
  have hwd : 0 < (2 : Nat) ^ f.width := Nat.two_pow_pos _
  generalize hL : (2 : Nat) ^ f.lo = L at *
  generalize hW : (2 : Nat) ^ f.width = W at *
  -- split the word into the part below the field, the field and the part above
  have hx : w.toNat = w.toNat % L + (w.toNat / L % W) * L + (w.toNat / L / W) * (L * W) := by
    have h1 := Nat.div_add_mod w.toNat L
    have h2 := Nat.div_add_mod (w.toNat / L) W
    calc w.toNat = L * (w.toNat / L) + w.toNat % L := h1.symm
      _ = L * (W * (w.toNat / L / W) + w.toNat / L % W) + w.toNat % L := by rw [h2]
      _ = _ := by rw [Nat.mul_add, Nat.mul_comm L (w.toNat / L % W), ← Nat.mul_assoc, Nat.mul_comm (L * W)]; omega
  generalize w.toNat / L / W = H at *
  generalize w.toNat / L % W = M at *
  have hm : w.toNat % L < L := Nat.mod_lt _ hlo
  generalize w.toNat % L = B at *
  have hv : v % W < W := Nat.mod_lt _ hwd
  generalize v % W = V at *
  have hval : w.toNat - M * L + V * L = B + V * L + H * (L * W) := by omega
  rw [hval]
  have hVL : B + V * L < L * W := by
    have : V + 1 ≤ W := hv
    calc B + V * L < L + V * L := by omega
      _ = (V + 1) * L := by rw [Nat.add_mul]; omega
      _ ≤ W * L := Nat.mul_le_mul_right L this
      _ = L * W := Nat.mul_comm _ _
  have hlt : B + V * L + H * (L * W) < 2 ^ 32 := by
    have hH : H * (L * W) ≤ w.toNat := by omega
    obtain ⟨q, hq⟩ : ∃ q, (2 : Nat) ^ 32 = q * (L * W) := by
      subst hL hW
      refine ⟨2 ^ (32 - (f.lo + f.width)), ?_⟩
      rw [← Nat.pow_add, ← Nat.pow_add]
      congr 1
      omega
    have hHq : H < q := by
      apply Nat.lt_of_mul_lt_mul_right (a := L * W)
      rw [← hq]
      omega
    calc B + V * L + H * (L * W) < L * W + H * (L * W) := by omega
      _ = (H + 1) * (L * W) := by rw [Nat.add_mul]; omega
      _ ≤ q * (L * W) := Nat.mul_le_mul_right _ hHq
      _ = 2 ^ 32 := hq.symm
  rw [Nat.mod_eq_of_lt hlt]
  have hdiv : (B + V * L + H * (L * W)) / L = V + H * W := by
    have : B + V * L + H * (L * W) = B + L * (V + H * W) := by
      rw [Nat.mul_add, Nat.mul_comm L V, Nat.mul_left_comm L H W]
      omega
    rw [this, Nat.add_mul_div_left _ _ hlo, Nat.div_eq_of_lt hm]
    omega
  rw [hdiv, Nat.add_mul_mod_self_right, Nat.mod_eq_of_lt hv]

/-! Registers. -/

theorem State.reg_setReg_ne (s : State) (o : Nat) (w : Word) {o' : Nat} (h : o' ≠ o) : (s.setReg o w).reg o' = s.reg o' :=
  SMap.get_put_ne s.regs o w h

@[simp] theorem State.reg_setReg_eq (s : State) (o : Nat) (w : Word) : (s.setReg o w).reg o = w := SMap.get_put_eq s.regs o w

theorem State.regs_setReg_wf {o : Nat} {w : Word} (hw : SMap.wf resetVal s.regs = true) :
    SMap.wf resetVal (s.setReg o w).regs = true := SMap.put_wf o w hw

theorem State.reg_setFld_ne (s : State) (f : Fld) (v : Nat) {o : Nat} (h : o ≠ f.off) : (s.setFld f v).reg o = s.reg o :=
  State.reg_setReg_ne s f.off _ h

theorem State.fld_setFld (s : State) (f : Fld) (v : Nat) (h : f.lo + f.width ≤ 32) :
    (s.setFld f v).fld f = v % 2 ^ f.width := by
  unfold State.fld State.setFld
  rw [State.reg_setReg_eq s _ _, Fld.get_put f _ v h]

theorem State.flag_setFlag (s : State) (f : Fld) (b : Bool) (h : f.lo + f.width ≤ 32) (h1 : f.width = 1) :
    (s.setFlag f b).flag f = b := by
  unfold State.flag State.setFlag
  rw [State.fld_setFld s f _ h, h1]
  cases b <;> rfl

theorem State.fld_congr {t : State} {f : Fld} (h : t.reg f.off = s.reg f.off) : t.fld f = s.fld f := by
  unfold State.fld; rw [h]

theorem State.flag_congr {t : State} {f : Fld} (h : t.reg f.off = s.reg f.off) : t.flag f = s.flag f := by
  unfold State.flag; rw [State.fld_congr h]

/-! The canonical form. -/

theorem foldl_setReg_wf (l : List Nat) (f : Nat → Word) (s : State) (hw : SMap.wf resetVal s.regs = true) :
    SMap.wf resetVal (l.foldl (fun s o => s.setReg o (f o)) s).regs = true := by
  induction l generalizing s with
  | nil => exact hw
  | cons o t ih => exact ih (s.setReg o (f o)) (State.regs_setReg_wf hw)

theorem deviceReset_canonical (h : s.Canonical) : s.deviceReset.Canonical := by
  obtain ⟨_, _, _, hf, he, _⟩ := h
  have hr : SMap.wf resetVal s.deviceReset.regs = true := by
    unfold State.deviceReset
    dsimp only
    exact State.regs_setReg_wf (foldl_setReg_wf _ (fun o => s.reg o) _ rfl)
  refine ⟨hr, ?_⟩
  unfold State.deviceReset
  dsimp only
  obtain ⟨r, e⟩ := foldl_setReg_regs vauxRegs (fun o => s.reg o) _
  rw [e]
  exact ⟨rfl, rfl, hf, he, rfl⟩

/-- Every update of the machine keeps the canonical form. -/
theorem canonical_keeps (m : Nat) (R : Nat → Prop) : Keeps State.Canonical m R where
  upd i _ := by
    unfold Upd
    split <;> try first | exact fun _ _ h => h | exact fun _ _ _ h => h
    · exact fun s v hv h => ⟨h.1, hv h.2.1, h.2.2⟩
    · exact fun s v hv h => ⟨h.1, h.2.1, h.2.2.1, h.2.2.2.1, hv h.2.2.2.2.1, h.2.2.2.2.2⟩
    · exact fun s v hv h => ⟨h.1, h.2.1, h.2.2.1, h.2.2.2.1, h.2.2.2.2.1, hv h.2.2.2.2.2⟩
    · exact fun s v hv h => ⟨h.1, h.2.1, hv h.2.2.1, h.2.2.2⟩
    · exact fun s v hv h => ⟨h.1, h.2.1, h.2.2.1, hv h.2.2.2.1, h.2.2.2.2⟩
    · exact fun s v hv h => ⟨hv h.1, h.2⟩
    · exact fun s h => deviceReset_canonical h
    · exact fun s q h => ⟨State.regs_setReg_wf h.1, h.2⟩
    · trivial
  reg _ _ _ _ h := ⟨State.regs_setReg_wf h.1, h.2⟩

end Sys2Proof.Machine
end

