-- ==== Sys2Proof/Laws/Frame.lean ====
section
/-!
SUPPORT. The frames of `Keeps`: an operation whose mask holds no update of a part of the state leaves that part as it was, and
a register outside its offsets reads as before.
-/
namespace Sys2Proof.Machine

variable {s : State} {m : Nat} {R : Nat → Prop}

theorem deviceReset_part (s : State) : s.deviceReset.part = s.part := by
  unfold State.deviceReset
  dsimp only
  obtain ⟨r, e⟩ := foldl_setReg_regs vauxRegs (fun o => s.reg o) _
  rw [e]
  rfl

theorem deviceReset_time (s : State) : s.deviceReset.time = s.time := by
  unfold State.deviceReset
  dsimp only
  obtain ⟨r, e⟩ := foldl_setReg_regs vauxRegs (fun o => s.reg o) _
  rw [e]
  rfl

theorem deviceReset_fuses (s : State) : s.deviceReset.fuses = s.fuses := by
  unfold State.deviceReset
  dsimp only
  obtain ⟨r, e⟩ := foldl_setReg_regs vauxRegs (fun o => s.reg o) _
  rw [e]
  rfl

theorem deviceReset_marchDefault (s : State) : s.deviceReset.marchDefault = s.marchDefault := by
  unfold State.deviceReset
  dsimp only
  obtain ⟨r, e⟩ := foldl_setReg_regs vauxRegs (fun o => s.reg o) _
  rw [e]
  rfl

theorem deviceReset_flash (s : State) : s.deviceReset.flash = s.flash := by
  unfold State.deviceReset
  dsimp only
  obtain ⟨r, e⟩ := foldl_setReg_regs vauxRegs (fun o => s.reg o) _
  rw [e]
  rfl

theorem deviceReset_factoryTrim (s : State) : s.deviceReset.factoryTrim = s.factoryTrim := by
  unfold State.deviceReset
  dsimp only
  obtain ⟨r, e⟩ := foldl_setReg_regs vauxRegs (fun o => s.reg o) _
  rw [e]
  rfl

theorem deviceReset_sent (s : State) : s.deviceReset.sent = s.sent := by
  unfold State.deviceReset
  dsimp only
  obtain ⟨r, e⟩ := foldl_setReg_regs vauxRegs (fun o => s.reg o) _
  rw [e]
  rfl

theorem deviceReset_freeCtr (s : State) : s.deviceReset.freeCtr = s.freeCtr := by
  unfold State.deviceReset
  dsimp only
  obtain ⟨r, e⟩ := foldl_setReg_regs vauxRegs (fun o => s.reg o) _
  rw [e]
  rfl

theorem deviceReset_pending (s : State) : s.deviceReset.pending = s.pending := by
  unfold State.deviceReset
  dsimp only
  obtain ⟨r, e⟩ := foldl_setReg_regs vauxRegs (fun o => s.reg o) _
  rw [e]
  rfl

theorem keeps_part {v} : Keeps (fun t => t.part = v) m R where
  upd i hi := by
    unfold Upd
    split <;> first
      | exact fun _ _ h => h
      | exact fun _ _ _ h => h
      | trivial
      | exact fun s h => (deviceReset_part s).trans h
      | simp_all
  reg _ _ _ _ h := h

theorem keeps_time {v} (h : m.testBit 0 = false) : Keeps (fun t => t.time = v) m R where
  upd i hi := by
    unfold Upd
    split <;> first
      | exact fun _ _ h => h
      | exact fun _ _ _ h => h
      | trivial
      | exact fun s h => (deviceReset_time s).trans h
      | simp_all
  reg _ _ _ _ h := h

theorem keeps_supply {v} (h : m.testBit 1 = false) (hr : m.testBit 33 = false) : Keeps (fun t => t.supply = v) m R where
  upd i hi := by
    unfold Upd
    split <;> first
      | exact fun _ _ h => h
      | exact fun _ _ _ h => h
      | trivial
      | simp_all
      | simp_all
  reg _ _ _ _ h := h

theorem keeps_ctl {v} (h : m.testBit 2 = false) (hr : m.testBit 33 = false) : Keeps (fun t => t.ctl = v) m R where
  upd i hi := by
    unfold Upd
    split <;> first
      | exact fun _ _ h => h
      | exact fun _ _ _ h => h
      | trivial
      | simp_all
      | simp_all
  reg _ _ _ _ h := h

theorem keeps_regs {v} (h : m.testBit 32 = false) (hr : m.testBit 33 = false) (hp : m.testBit 34 = false) : Keeps (fun t => t.regs = v) m (fun _ => False) where
  upd i hi := by
    unfold Upd
    split <;> first
      | exact fun _ _ h => h
      | exact fun _ _ _ h => h
      | trivial
      | simp_all
      | simp_all
  reg _ h _ _ _ := h.elim

theorem keeps_latches {v} (h : m.testBit 3 = false) (hr : m.testBit 33 = false) : Keeps (fun t => t.latches = v) m R where
  upd i hi := by
    unfold Upd
    split <;> first
      | exact fun _ _ h => h
      | exact fun _ _ _ h => h
      | trivial
      | simp_all
      | simp_all
  reg _ _ _ _ h := h

theorem keeps_hif {v} (h : m.testBit 4 = false) (hr : m.testBit 33 = false) : Keeps (fun t => t.hif = v) m R where
  upd i hi := by
    unfold Upd
    split <;> first
      | exact fun _ _ h => h
      | exact fun _ _ _ h => h
      | trivial
      | simp_all
      | simp_all
  reg _ _ _ _ h := h

theorem keeps_evr {v} (h : m.testBit 5 = false) : Keeps (fun t => t.evr = v) m R where
  upd i hi := by
    unfold Upd
    split <;> first
      | exact fun _ _ h => h
      | exact fun _ _ _ h => h
      | trivial
      | exact fun s h => (deviceReset_evr s).trans h
      | simp_all
  reg _ _ _ _ h := h

theorem keeps_saf {v} (h : m.testBit 6 = false) (hr : m.testBit 33 = false) : Keeps (fun t => t.saf = v) m R where
  upd i hi := by
    unfold Upd
    split <;> first
      | exact fun _ _ h => h
      | exact fun _ _ _ h => h
      | trivial
      | simp_all
      | simp_all
  reg _ _ _ _ h := h

theorem keeps_src {v} (h : m.testBit 7 = false) (hr : m.testBit 33 = false) : Keeps (fun t => t.src = v) m R where
  upd i hi := by
    unfold Upd
    split <;> first
      | exact fun _ _ h => h
      | exact fun _ _ _ h => h
      | trivial
      | simp_all
      | simp_all
  reg _ _ _ _ h := h

theorem keeps_sched {v} (h : m.testBit 8 = false) (hr : m.testBit 33 = false) : Keeps (fun t => t.sched = v) m R where
  upd i hi := by
    unfold Upd
    split <;> first
      | exact fun _ _ h => h
      | exact fun _ _ _ h => h
      | trivial
      | simp_all
      | simp_all
  reg _ _ _ _ h := h

theorem keeps_cal {v} (h : m.testBit 9 = false) (hr : m.testBit 33 = false) : Keeps (fun t => t.cal = v) m R where
  upd i hi := by
    unfold Upd
    split <;> first
      | exact fun _ _ h => h
      | exact fun _ _ _ h => h
      | trivial
      | simp_all
      | simp_all
  reg _ _ _ _ h := h

theorem keeps_aux {v} (h : m.testBit 10 = false) (hr : m.testBit 33 = false) : Keeps (fun t => t.aux = v) m R where
  upd i hi := by
    unfold Upd
    split <;> first
      | exact fun _ _ h => h
      | exact fun _ _ _ h => h
      | trivial
      | simp_all
      | simp_all
  reg _ _ _ _ h := h

theorem keeps_blt {v} (h : m.testBit 11 = false) (hr : m.testBit 33 = false) : Keeps (fun t => t.blt = v) m R where
  upd i hi := by
    unfold Upd
    split <;> first
      | exact fun _ _ h => h
      | exact fun _ _ _ h => h
      | trivial
      | simp_all
      | simp_all
  reg _ _ _ _ h := h

theorem keeps_tmb {v} (h : m.testBit 12 = false) (hr : m.testBit 33 = false) : Keeps (fun t => t.tmb = v) m R where
  upd i hi := by
    unfold Upd
    split <;> first
      | exact fun _ _ h => h
      | exact fun _ _ _ h => h
      | trivial
      | simp_all
      | simp_all
  reg _ _ _ _ h := h

theorem keeps_brl {v} (h : m.testBit 13 = false) (hr : m.testBit 33 = false) : Keeps (fun t => t.brl = v) m R where
  upd i hi := by
    unfold Upd
    split <;> first
      | exact fun _ _ h => h
      | exact fun _ _ _ h => h
      | trivial
      | simp_all
      | simp_all
  reg _ _ _ _ h := h

theorem keeps_mlk {v} (h : m.testBit 14 = false) (hr : m.testBit 33 = false) : Keeps (fun t => t.mlk = v) m R where
  upd i hi := by
    unfold Upd
    split <;> first
      | exact fun _ _ h => h
      | exact fun _ _ _ h => h
      | trivial
      | simp_all
      | simp_all
  reg _ _ _ _ h := h

theorem keeps_units {v} (h : m.testBit 15 = false) (hr : m.testBit 33 = false) : Keeps (fun t => t.units = v) m R where
  upd i hi := by
    unfold Upd
    split <;> first
      | exact fun _ _ h => h
      | exact fun _ _ _ h => h
      | trivial
      | simp_all
      | simp_all
  reg _ _ _ _ h := h

theorem keeps_douts {v} (h : m.testBit 16 = false) (hr : m.testBit 33 = false) : Keeps (fun t => t.douts = v) m R where
  upd i hi := by
    unfold Upd
    split <;> first
      | exact fun _ _ h => h
      | exact fun _ _ _ h => h
      | trivial
      | simp_all
      | simp_all
  reg _ _ _ _ h := h

theorem keeps_blanks {v} (h : m.testBit 17 = false) (hr : m.testBit 33 = false) : Keeps (fun t => t.blanks = v) m R where
  upd i hi := by
    unfold Upd
    split <;> first
      | exact fun _ _ h => h
      | exact fun _ _ _ h => h
      | trivial
      | simp_all
      | simp_all
  reg _ _ _ _ h := h

theorem keeps_streams {v} (h : m.testBit 18 = false) (hr : m.testBit 33 = false) : Keeps (fun t => t.streams = v) m R where
  upd i hi := by
    unfold Upd
    split <;> first
      | exact fun _ _ h => h
      | exact fun _ _ _ h => h
      | trivial
      | simp_all
      | simp_all
  reg _ _ _ _ h := h

theorem keeps_capRecs {v} (h : m.testBit 19 = false) (hr : m.testBit 33 = false) : Keeps (fun t => t.capRecs = v) m R where
  upd i hi := by
    unfold Upd
    split <;> first
      | exact fun _ _ h => h
      | exact fun _ _ _ h => h
      | trivial
      | simp_all
      | simp_all
  reg _ _ _ _ h := h

theorem keeps_cores {v} (h : m.testBit 20 = false) (hr : m.testBit 33 = false) : Keeps (fun t => t.cores = v) m R where
  upd i hi := by
    unfold Upd
    split <;> first
      | exact fun _ _ h => h
      | exact fun _ _ _ h => h
      | trivial
      | simp_all
      | simp_all
  reg _ _ _ _ h := h

theorem keeps_fuses {v} (h : m.testBit 21 = false) : Keeps (fun t => t.fuses = v) m R where
  upd i hi := by
    unfold Upd
    split <;> first
      | exact fun _ _ h => h
      | exact fun _ _ _ h => h
      | trivial
      | exact fun s h => (deviceReset_fuses s).trans h
      | simp_all
  reg _ _ _ _ h := h

theorem keeps_marchDefault {v} : Keeps (fun t => t.marchDefault = v) m R where
  upd i hi := by
    unfold Upd
    split <;> first
      | exact fun _ _ h => h
      | exact fun _ _ _ h => h
      | trivial
      | exact fun s h => (deviceReset_marchDefault s).trans h
      | simp_all
  reg _ _ _ _ h := h

theorem keeps_marchMode {v} (h : m.testBit 22 = false) (hr : m.testBit 33 = false) : Keeps (fun t => t.marchMode = v) m R where
  upd i hi := by
    unfold Upd
    split <;> first
      | exact fun _ _ h => h
      | exact fun _ _ _ h => h
      | trivial
      | simp_all
      | simp_all
  reg _ _ _ _ h := h

theorem keeps_burn {v} (h : m.testBit 23 = false) (hr : m.testBit 33 = false) : Keeps (fun t => t.burn = v) m R where
  upd i hi := by
    unfold Upd
    split <;> first
      | exact fun _ _ h => h
      | exact fun _ _ _ h => h
      | trivial
      | simp_all
      | simp_all
  reg _ _ _ _ h := h

theorem keeps_dram {v} (h : m.testBit 24 = false) (hr : m.testBit 33 = false) : Keeps (fun t => t.dram = v) m R where
  upd i hi := by
    unfold Upd
    split <;> first
      | exact fun _ _ h => h
      | exact fun _ _ _ h => h
      | trivial
      | simp_all
      | simp_all
  reg _ _ _ _ h := h

theorem keeps_dmc {v} (h : m.testBit 25 = false) (hr : m.testBit 33 = false) : Keeps (fun t => t.dmc = v) m R where
  upd i hi := by
    unfold Upd
    split <;> first
      | exact fun _ _ h => h
      | exact fun _ _ _ h => h
      | trivial
      | simp_all
      | simp_all
  reg _ _ _ _ h := h

theorem keeps_flash {v} (h : m.testBit 26 = false) : Keeps (fun t => t.flash = v) m R where
  upd i hi := by
    unfold Upd
    split <;> first
      | exact fun _ _ h => h
      | exact fun _ _ _ h => h
      | trivial
      | exact fun s h => (deviceReset_flash s).trans h
      | simp_all
  reg _ _ _ _ h := h

theorem keeps_qspi {v} (h : m.testBit 27 = false) (hr : m.testBit 33 = false) : Keeps (fun t => t.qspi = v) m R where
  upd i hi := by
    unfold Upd
    split <;> first
      | exact fun _ _ h => h
      | exact fun _ _ _ h => h
      | trivial
      | simp_all
      | simp_all
  reg _ _ _ _ h := h

theorem keeps_factoryTrim {v} : Keeps (fun t => t.factoryTrim = v) m R where
  upd i hi := by
    unfold Upd
    split <;> first
      | exact fun _ _ h => h
      | exact fun _ _ _ h => h
      | trivial
      | exact fun s h => (deviceReset_factoryTrim s).trans h
      | simp_all
  reg _ _ _ _ h := h

theorem keeps_rdData {v} (h : m.testBit 28 = false) (hr : m.testBit 33 = false) : Keeps (fun t => t.rdData = v) m R where
  upd i hi := by
    unfold Upd
    split <;> first
      | exact fun _ _ h => h
      | exact fun _ _ _ h => h
      | trivial
      | simp_all
      | simp_all
  reg _ _ _ _ h := h

theorem keeps_rdData2 {v} (h : m.testBit 29 = false) (hr : m.testBit 33 = false) : Keeps (fun t => t.rdData2 = v) m R where
  upd i hi := by
    unfold Upd
    split <;> first
      | exact fun _ _ h => h
      | exact fun _ _ _ h => h
      | trivial
      | simp_all
      | simp_all
  reg _ _ _ _ h := h

theorem keeps_sent {v} (h : m.testBit 30 = false) : Keeps (fun t => t.sent = v) m R where
  upd i hi := by
    unfold Upd
    split <;> first
      | exact fun _ _ h => h
      | exact fun _ _ _ h => h
      | trivial
      | exact fun s h => (deviceReset_sent s).trans h
      | simp_all
  reg _ _ _ _ h := h

theorem keeps_freeCtr {v} (h : m.testBit 31 = false) : Keeps (fun t => t.freeCtr = v) m R where
  upd i hi := by
    unfold Upd
    split <;> first
      | exact fun _ _ h => h
      | exact fun _ _ _ h => h
      | trivial
      | exact fun s h => (deviceReset_freeCtr s).trans h
      | simp_all
  reg _ _ _ _ h := h

theorem keeps_pending {v} : Keeps (fun t => t.pending = v) m R where
  upd i hi := by
    unfold Upd
    split <;> first
      | exact fun _ _ h => h
      | exact fun _ _ _ h => h
      | trivial
      | exact fun s h => (deviceReset_pending s).trans h
      | simp_all
  reg _ _ _ _ h := h

/-- A register outside the offsets of an operation reads as before. -/
theorem keeps_reg {o : Nat} {v : Word} (h : m.testBit 32 = false) (hr : m.testBit 33 = false)
    (hp : m.testBit 34 = false ∨ ∀ i, o ≠ HIF_EV_PEND_LO.reg + 4 * (i % 2)) (hR : ¬ R o) :
    Keeps (fun t => t.reg o = v) m R where
  upd i hi := by
    unfold Upd
    split <;> first
      | exact fun s q hs => (State.reg_setReg_ne s _ _ ((hp.resolve_left (by simp [hi])) (q / 32))).trans hs
      | exact fun _ _ h => h
      | exact fun _ _ _ h => h
      | trivial
      | simp_all
  reg o' h' s w hs := by
    have : o ≠ o' := fun e => hR (e ▸ h')
    exact (State.reg_setReg_ne s o' w this).trans hs

end Sys2Proof.Machine
end

