-- ==== Sys2Proof/Laws/Frames.lean ====
section
/-!
SUPPORT. An operation whose mask and offsets lie within a frame keeps that frame.
-/
namespace Sys2Proof.Machine

/-- The bit of a part in the masks of `Keeps`. -/
def Comp.bit : Comp → Nat
  | .time => 0 | .supply => 1 | .ctl => 2 | .latches => 3 | .hif => 4 | .evr => 5 | .saf => 6 | .src => 7 | .sched => 8
  | .cal => 9 | .aux => 10 | .blt => 11 | .tmb => 12 | .brl => 13 | .mlk => 14 | .units => 15 | .douts => 16
  | .blanks => 17 | .streams => 18 | .capRecs => 19 | .cores => 20 | .fuses => 21 | .marchMode => 22 | .burn => 23
  | .dram => 24 | .dmc => 25 | .flash => 26 | .qspi => 27 | .rdData => 28 | .rdData2 => 29 | .sent => 30
  | .freeCtr => 31

/-- Every part. -/
def Comp.all : List Comp :=
  [.time, .supply, .ctl, .latches, .hif, .evr, .saf, .src, .sched, .cal, .aux, .blt, .tmb, .brl, .mlk, .units, .douts,
   .blanks, .streams, .capRecs, .cores, .fuses, .marchMode, .burn, .dram, .dmc, .flash, .qspi, .rdData, .rdData2,
   .sent, .freeCtr]

theorem Comp.mem_all (c : Comp) : c ∈ Comp.all := by cases c <;> decide

/-- A mask touches only the parts of a list, and neither the register map as a whole nor a device reset. -/
def within (m : Nat) (cs : List Comp) : Bool :=
  Comp.all.all (fun c => cs.contains c || !m.testBit c.bit) && !m.testBit 32 && !m.testBit 33

variable {s : State} {m : Nat} {R R' : Nat → Prop}

/-- A part whose bit is not in the mask, with no device reset in it, is as it was. -/
theorem keeps_same (c : Comp) (hm : m.testBit c.bit = false) (hr : m.testBit 33 = false) :
    Keeps (fun t => s.same t c) m R where
  upd i hi := by
    unfold Upd
    split <;> first
      | trivial
      | (cases c <;> first
          | exact fun _ _ h => h
          | exact fun _ _ _ h => h
          | (simp only [Comp.bit] at hm; rw [hm] at hi; cases hi)
          | (rw [hr] at hi; cases hi))
  reg o _ s w h := by cases c <;> exact h

theorem keeps_frame' (cs : List Comp) (hm : ∀ c, c ∉ cs → m.testBit c.bit = false) (h32 : m.testBit 32 = false)
    (h33 : m.testBit 33 = false) (h34 : m.testBit 34 = false ∨ ∀ i, R' (HIF_EV_PEND_LO.reg + 4 * (i % 2)))
    (hR : ∀ o, R o → R' o) : Keeps (fun t => s.Frame t cs R') m R where
  upd i hi := by
    have hs : ∀ c, c ∉ cs → Upd (fun t => s.same t c) i := fun c hc =>
      (keeps_same (R := R) c (hm c hc) h33).upd i hi
    have hg : ∀ o, ¬ R' o → Upd (fun t => t.reg o = s.reg o) i := fun o ho =>
      (keeps_reg (R := R) h32 h33 (h34.imp id (fun h i e => ho (by rw [e]; exact h i))) (fun h => ho (hR o h))).upd i hi
    unfold Upd at hs hg ⊢
    split <;> simp only at hs hg <;> first
      | trivial
      | exact fun s v h => ⟨fun c hc => hs c hc s v (h.parts c hc), fun o ho => hg o ho s v (h.regs o ho)⟩
      | exact fun s v hw h => ⟨fun c hc => hs c hc s v hw (h.parts c hc), fun o ho => hg o ho s v hw (h.regs o ho)⟩
      | exact fun s h => ⟨fun c hc => hs c hc s (h.parts c hc), fun o ho => hg o ho s (h.regs o ho)⟩
  reg o ho t w h := by
    refine ⟨fun c hc => (keeps_same (R := R) c (hm c hc) h33).reg o ho t w (h.parts c hc), fun o' ho' => ?_⟩
    have hne : o' ≠ o := fun e => ho' (by rw [e]; exact hR o ho)
    rw [State.reg_setReg_ne _ _ _ hne]
    exact h.regs o' ho'

/-- The frame of an operation that raises no event. -/
theorem keeps_frame (cs : List Comp) (hm : within m cs = true) (hp : m.testBit 34 = false) (hR : ∀ o, R o → R' o) :
    Keeps (fun t => s.Frame t cs R') m R := by
  simp only [within, Bool.and_eq_true, List.all_eq_true, Bool.or_eq_true, Bool.not_eq_true'] at hm
  obtain ⟨⟨hc, h32⟩, h33⟩ := hm
  exact keeps_frame' cs (fun c h => (hc c (Comp.mem_all c)).resolve_left (by simpa using h)) h32 h33 (Or.inl hp) hR

/-- The frame of an operation that may raise events. -/
theorem keeps_frame_ev (cs : List Comp) (hm : within m cs = true) (hp : ∀ i, R' (HIF_EV_PEND_LO.reg + 4 * (i % 2)))
    (hR : ∀ o, R o → R' o) : Keeps (fun t => s.Frame t cs R') m R := by
  simp only [within, Bool.and_eq_true, List.all_eq_true, Bool.or_eq_true, Bool.not_eq_true'] at hm
  obtain ⟨⟨hc, h32⟩, h33⟩ := hm
  exact keeps_frame' cs (fun c h => (hc c (Comp.mem_all c)).resolve_left (by simpa using h)) h32 h33 (Or.inr hp) hR

/-- An operation without a device reset leaves a device in SAFE (R29). -/
theorem keeps_safe {m : Nat} {R : Nat → Prop} (h33 : m.testBit 33 = false) : Keeps (fun t => t.ctl.dev = .safe) m R where
  upd i hi := by
    unfold Upd
    split <;> first
      | trivial
      | exact fun _ _ h => h
      | exact fun _ _ _ h => h
      | (intro s v h hs; exact h.elim (fun e => e.trans hs) (fun n => absurd hs n))
      | (rw [h33] at hi; cases hi)
  reg _ _ _ _ h := h

/-- Nothing has changed yet. -/
theorem State.Frame.refl (s : State) (cs : List Comp) (R : RegSet) : s.Frame s cs R :=
  ⟨fun c _ => by cases c <;> rfl, fun _ _ => rfl⟩

end Sys2Proof.Machine
end

