-- ==== Sys2Proof/Laws/KHostIf.lean ====
section
/-!
SUPPORT. What the operations of Sys2Proof.Machine.HostIf keep, and the registers they may write.
-/
namespace Sys2Proof.Machine

theorem State.setRing_keeps {P : State → Prop} (K : Keeps P 0x10 (fun _ => False)) {s : State} (r : Nat) (x : HostRing) (hs : P s) :
    P (State.setRing s r x) := by
  have t4 : ∀ (s : State) v, P s → P (s.putHif v) := K.upd 4 rfl
  unfold State.setRing
  repeat' (first
    | with_reducible assumption
    | with_reducible (first | apply t4)
    | intro _ _ _ _
    | intro _ _ _
    | intro _ _
    | with_reducible (first | apply ite_keeps | apply ite_keeps_pair)
    | dsimp only
    | split)

theorem State.writeShadow_keeps {P : State → Prop} (K : Keeps P 0x40000000 (fun _ => False)) {s : State} (r : Nat) (hs : P s) :
    P (State.writeShadow s r) := by
  have te : ∀ (s : State) (e : Emission), P s → P (s.emit e) := K.upd 30 rfl
  unfold State.writeShadow
  repeat' (first
    | with_reducible assumption
    | with_reducible (first | apply te)
    | intro _ _ _ _
    | intro _ _ _
    | intro _ _
    | with_reducible (first | apply ite_keeps | apply ite_keeps_pair)
    | dsimp only
    | split)

theorem State.sendVec_keeps {P : State → Prop} (K : Keeps P 0x40000010 (fun _ => False)) {s : State} (v : Nat) (hs : P s) :
    P (State.sendVec s v) := by
  have t4 : ∀ (s : State) v, P s → P (s.putHif v) := K.upd 4 rfl
  have te : ∀ (s : State) (e : Emission), P s → P (s.emit e) := K.upd 30 rfl
  unfold State.sendVec
  repeat' (first
    | with_reducible assumption
    | with_reducible (first | apply t4 | apply te)
    | intro _ _ _ _
    | intro _ _ _
    | intro _ _
    | with_reducible (first | apply ite_keeps | apply ite_keeps_pair)
    | dsimp only
    | split)

theorem State.pendVec_keeps {P : State → Prop} (K : Keeps P 0x40000010 (fun _ => False)) {s : State} (v : Nat) (urgent : Bool) (hs : P s) :
    P (State.pendVec s v urgent) := by
  have k0 : Keeps P 0x40000010 (fun _ => False) := K.sub rfl (fun _ h => h.elim)
  have t4 : ∀ (s : State) v, P s → P (s.putHif v) := K.upd 4 rfl
  unfold State.pendVec
  repeat' (first
    | with_reducible assumption
    | with_reducible (first | apply State.sendVec_keeps k0 | apply t4)
    | intro _ _ _ _
    | intro _ _ _
    | intro _ _
    | with_reducible (first | apply ite_keeps | apply ite_keeps_pair)
    | dsimp only
    | split)

/-- Registers `State.discardBlock` may write. -/
def State.discardBlock_offs (o : Nat) : Prop :=
  (∃ n, o = HIF_RING_DISCARD_COUNT.reg n)

theorem State.discardBlock_keeps {P : State → Prop} (K : Keeps P 0x40000010 State.discardBlock_offs) {s : State} (r : Nat) (hs : P s) :
    P (State.discardBlock s r) := by
  have k0 : Keeps P 0x10 (fun _ => False) := K.sub rfl (fun _ h => h.elim)
  have k1 : Keeps P 0x40000000 (fun _ => False) := K.sub rfl (fun _ h => h.elim)
  have r0 := fun n => K.reg (HIF_RING_DISCARD_COUNT.reg n) (⟨n, rfl⟩)
  unfold State.discardBlock
  repeat' (first
    | with_reducible assumption
    | with_reducible (first | apply State.setRing_keeps k0 | apply State.writeShadow_keeps k1 | apply bump_keeps)
    | with_reducible exact r0 _
    | intro _ _ _ _
    | intro _ _ _
    | intro _ _
    | with_reducible (first | apply ite_keeps | apply ite_keeps_pair)
    | dsimp only
    | split
    | with_reducible (first | apply r0))

theorem State.queueBlock_keeps {P : State → Prop} (K : Keeps P 0x10 (fun _ => False)) {s : State} (b : Block) (hs : P s) :
    P (State.queueBlock s b) := by
  have t4 : ∀ (s : State) v, P s → P (s.putHif v) := K.upd 4 rfl
  unfold State.queueBlock
  repeat' (first
    | with_reducible assumption
    | with_reducible (first | apply t4)
    | intro _ _ _ _
    | intro _ _ _
    | intro _ _
    | with_reducible (first | apply ite_keeps | apply ite_keeps_pair)
    | dsimp only
    | split)

/-- Registers `State.feedEngines` may write. -/
def State.feedEngines_offs (o : Nat) : Prop :=
  o = CMP_ENGINE_BUSY.reg ∨ o = CMP_IN_BYTES_LO.reg ∨ o = CMP_IN_BYTES_LO.reg + 4

theorem State.feedEngines_keeps {P : State → Prop} (K : Keeps P 0x10 State.feedEngines_offs) {s : State} (a0 : Nat) (hs : P s) :
    P (State.feedEngines s a0) := by
  have r0 := K.reg (CMP_ENGINE_BUSY.reg) (.inl rfl)
  have r1 := K.reg (CMP_IN_BYTES_LO.reg) (.inr (.inl rfl))
  have r2 := K.reg (CMP_IN_BYTES_LO.reg + 4) (.inr (.inr (rfl)))
  have t4 : ∀ (s : State) v, P s → P (s.putHif v) := K.upd 4 rfl
  induction a0 generalizing s with
  | zero =>
    unfold State.feedEngines
    repeat' (first
      | with_reducible assumption
      | with_reducible (first | apply setFld_keeps | apply setReg64_keeps | apply t4)
      | with_reducible exact r0
      | with_reducible exact r1
      | with_reducible exact r2
      | intro _ _ _ _
      | intro _ _ _
      | intro _ _
      | with_reducible (first | apply ite_keeps | apply ite_keeps_pair)
      | dsimp only
      | split
      | with_reducible (first | apply r0 | apply r1 | apply r2))
  | succ _ ih =>
    unfold State.feedEngines
    repeat' (first
      | with_reducible assumption
      | with_reducible apply ih
      | with_reducible (first | apply setFld_keeps | apply setReg64_keeps | apply t4)
      | with_reducible exact r0
      | with_reducible exact r1
      | with_reducible exact r2
      | intro _ _ _ _
      | intro _ _ _
      | intro _ _
      | with_reducible (first | apply ite_keeps | apply ite_keeps_pair)
      | dsimp only
      | split
      | with_reducible (first | apply r0 | apply r1 | apply r2))

/-- Registers `State.discardMany` may write. -/
def State.discardMany_offs (o : Nat) : Prop :=
  State.discardBlock_offs o

theorem State.discardMany_keeps {P : State → Prop} (K : Keeps P 0x40000010 State.discardMany_offs) {s : State} (r : Nat) (a0 : Nat) (hs : P s) :
    P (State.discardMany s r a0) := by
  have k0 : Keeps P 0x40000010 State.discardBlock_offs := K.sub rfl (fun _ h => h)
  induction a0 generalizing s r with
  | zero =>
    unfold State.discardMany
    repeat' (first
      | with_reducible assumption
      | with_reducible (first | apply State.discardBlock_keeps k0)
      | intro _ _ _ _
      | intro _ _ _
      | intro _ _
      | with_reducible (first | apply ite_keeps | apply ite_keeps_pair)
      | dsimp only
      | split)
  | succ _ ih =>
    unfold State.discardMany
    repeat' (first
      | with_reducible assumption
      | with_reducible apply ih
      | with_reducible (first | apply State.discardBlock_keeps k0)
      | intro _ _ _ _
      | intro _ _ _
      | intro _ _
      | with_reducible (first | apply ite_keeps | apply ite_keeps_pair)
      | dsimp only
      | split)

/-- Registers `State.loseBlock` may write. -/
def State.loseBlock_offs (o : Nat) : Prop :=
  (∃ n, o = ACR_OUT_LOST_COUNT.reg n) ∨ (∃ n, o = TRG_CREG_LOST_COUNT.reg n) ∨ State.discardBlock_offs o

theorem State.loseBlock_keeps {P : State → Prop} (K : Keeps P 0x40000010 State.loseBlock_offs) {s : State} (b : Block) (hs : P s) :
    P (State.loseBlock s b) := by
  have k0 : Keeps P 0x40000010 State.discardBlock_offs := K.sub rfl (fun _ h => .inr (.inr (h)))
  have r0 := fun n => K.reg (ACR_OUT_LOST_COUNT.reg n) (.inl ⟨n, rfl⟩)
  have r1 := fun n => K.reg (TRG_CREG_LOST_COUNT.reg n) (.inr (.inl ⟨n, rfl⟩))
  unfold State.loseBlock
  repeat' (first
    | with_reducible assumption
    | with_reducible (first | apply State.discardBlock_keeps k0 | apply bump_keeps)
    | with_reducible exact r0 _
    | with_reducible exact r1 _
    | intro _ _ _ _
    | intro _ _ _
    | intro _ _
    | with_reducible (first | apply ite_keeps | apply ite_keeps_pair)
    | dsimp only
    | split
    | with_reducible (first | apply r0 | apply r1))

/-- Registers `State.dropRest` may write. -/
def State.dropRest_offs (o : Nat) : Prop :=
  o = CMP_ENGINE_BUSY.reg ∨ State.discardMany_offs o ∨ State.feedEngines_offs o

theorem State.dropRest_keeps {P : State → Prop} (K : Keeps P 0x40000010 State.dropRest_offs) {s : State} (b : Block) (before : List Block) (after : List Block) (hs : P s) :
    P (State.dropRest s b before after) := by
  have k0 : Keeps P 0x40000010 State.discardMany_offs := K.sub rfl (fun _ h => .inr (.inl h))
  have k1 : Keeps P 0x10 State.feedEngines_offs := K.sub rfl (fun _ h => .inr (.inr (h)))
  have r0 := K.reg (CMP_ENGINE_BUSY.reg) (.inl rfl)
  have t4 : ∀ (s : State) v, P s → P (s.putHif v) := K.upd 4 rfl
  unfold State.dropRest
  repeat' (first
    | with_reducible assumption
    | with_reducible (first | apply State.discardMany_keeps k0 | apply State.feedEngines_keeps k1 | apply setFld_keeps | apply foldl_keeps | apply foldl_keeps_pair | apply t4)
    | with_reducible exact r0
    | intro _ _ _ _
    | intro _ _ _
    | intro _ _
    | with_reducible (first | apply ite_keeps | apply ite_keeps_pair)
    | dsimp only
    | split
    | with_reducible (first | apply r0))

/-- Registers `State.bufferBlock` may write. -/
def State.bufferBlock_offs (o : Nat) : Prop :=
  o = CMP_LINK_DROP_COUNT.reg ∨ State.dropRest_offs o ∨ State.loseBlock_offs o

theorem State.bufferBlock_keeps {P : State → Prop} (K : Keeps P 0x40000010 State.bufferBlock_offs) {s : State} (b : Block) (hs : P s) :
    P (State.bufferBlock s b).1 := by
  have k0 : Keeps P 0x40000010 State.dropRest_offs := K.sub rfl (fun _ h => .inr (.inl h))
  have k1 : Keeps P 0x40000010 State.loseBlock_offs := K.sub rfl (fun _ h => .inr (.inr (h)))
  have k2 : Keeps P 0x10 (fun _ => False) := K.sub rfl (fun _ h => h.elim)
  have r0 := K.reg (CMP_LINK_DROP_COUNT.reg) (.inl rfl)
  unfold State.bufferBlock
  repeat' (first
    | with_reducible assumption
    | with_reducible (first | apply State.dropRest_keeps k0 | apply State.loseBlock_keeps k1 | apply State.queueBlock_keeps k2 | apply bump_keeps)
    | with_reducible exact r0
    | intro _ _ _ _
    | intro _ _ _
    | intro _ _
    | with_reducible (first | apply ite_keeps | apply ite_keeps_pair)
    | dsimp only
    | split
    | with_reducible (first | apply r0))

/-- Registers `State.sendBlock` may write. -/
def State.sendBlock_offs (o : Nat) : Prop :=
  State.bufferBlock_offs o ∨ State.dropRest_offs o ∨ State.feedEngines_offs o ∨ State.loseBlock_offs o

theorem State.sendBlock_keeps {P : State → Prop} (K : Keeps P 0x40000010 State.sendBlock_offs) {s : State} (b : Block) (hs : P s) :
    P (State.sendBlock s b).1 := by
  have k0 : Keeps P 0x40000010 State.bufferBlock_offs := K.sub rfl (fun _ h => .inl h)
  have k1 : Keeps P 0x40000010 State.dropRest_offs := K.sub rfl (fun _ h => .inr (.inl h))
  have k2 : Keeps P 0x10 State.feedEngines_offs := K.sub rfl (fun _ h => .inr (.inr (.inl h)))
  have k3 : Keeps P 0x40000010 State.loseBlock_offs := K.sub rfl (fun _ h => .inr (.inr (.inr (h))))
  have k4 : Keeps P 0x10 (fun _ => False) := K.sub rfl (fun _ h => h.elim)
  unfold State.sendBlock
  repeat' (first
    | with_reducible assumption
    | with_reducible (first | apply State.bufferBlock_keeps k0 | apply State.dropRest_keeps k1 | apply State.feedEngines_keeps k2 | apply State.loseBlock_keeps k3 | apply State.queueBlock_keeps k4)
    | (apply fst_keeps (by assumption))
    | intro _ _ _ _
    | intro _ _ _
    | intro _ _
    | with_reducible (first | apply ite_keeps | apply ite_keeps_pair)
    | dsimp only
    | split)

/-- Registers `State.pushBlock` may write. -/
def State.pushBlock_offs (o : Nat) : Prop :=
  State.sendBlock_offs o

theorem State.pushBlock_keeps {P : State → Prop} (K : Keeps P 0x40000010 State.pushBlock_offs) {s : State} (r : Nat) (kind : Nat) (hdr : List Byte) (payload : List Byte) (hs : P s) :
    P (State.pushBlock s r kind hdr payload) := by
  have k0 : Keeps P 0x40000010 State.sendBlock_offs := K.sub rfl (fun _ h => h)
  unfold State.pushBlock
  repeat' (first
    | with_reducible assumption
    | with_reducible (first | apply State.sendBlock_keeps k0)
    | (apply fst_keeps (by assumption))
    | intro _ _ _ _
    | intro _ _ _
    | intro _ _
    | with_reducible (first | apply ite_keeps | apply ite_keeps_pair)
    | dsimp only
    | split)

/-- Registers `State.pushRecord` may write. -/
def State.pushRecord_offs (o : Nat) : Prop :=
  State.discardBlock_offs o

theorem State.pushRecord_keeps {P : State → Prop} (K : Keeps P 0x40000010 State.pushRecord_offs) {s : State} (r : Nat) (bytes : List Byte) (hs : P s) :
    P (State.pushRecord s r bytes) := by
  have k0 : Keeps P 0x40000010 State.discardBlock_offs := K.sub rfl (fun _ h => h)
  have k1 : Keeps P 0x10 (fun _ => False) := K.sub rfl (fun _ h => h.elim)
  unfold State.pushRecord
  repeat' (first
    | with_reducible assumption
    | with_reducible (first | apply State.discardBlock_keeps k0 | apply State.queueBlock_keeps k1)
    | intro _ _ _ _
    | intro _ _ _
    | intro _ _
    | with_reducible (first | apply ite_keeps | apply ite_keeps_pair)
    | dsimp only
    | split)

theorem State.setEvHold_keeps {P : State → Prop} (K : Keeps P 0x10 (fun _ => False)) {s : State} (q : Nat) (h : EvHold) (hs : P s) :
    P (State.setEvHold s q h) := by
  have t4 : ∀ (s : State) v, P s → P (s.putHif v) := K.upd 4 rfl
  unfold State.setEvHold
  repeat' (first
    | with_reducible assumption
    | with_reducible (first | apply t4)
    | intro _ _ _ _
    | intro _ _ _
    | intro _ _
    | with_reducible (first | apply ite_keeps | apply ite_keeps_pair)
    | dsimp only
    | split)

/-- Registers `State.offerRaise` may write. -/
def State.offerRaise_offs (o : Nat) : Prop :=
  State.pushRecord_offs o

theorem State.offerRaise_keeps {P : State → Prop} (K : Keeps P 0x40000010 State.offerRaise_offs) {s : State} (q : Nat) (detail : Nat) (hs : P s) :
    P (State.offerRaise s q detail) := by
  have k0 : Keeps P 0x40000010 State.pushRecord_offs := K.sub rfl (fun _ h => h)
  have k1 : Keeps P 0x10 (fun _ => False) := K.sub rfl (fun _ h => h.elim)
  unfold State.offerRaise
  repeat' (first
    | with_reducible assumption
    | with_reducible (first | apply State.pushRecord_keeps k0 | apply State.setEvHold_keeps k1)
    | intro _ _ _ _
    | intro _ _ _
    | intro _ _
    | with_reducible (first | apply ite_keeps | apply ite_keeps_pair)
    | dsimp only
    | split)

/-- Registers `State.raiseEvent` may write. -/
def State.raiseEvent_offs (o : Nat) : Prop :=
  (∃ n, o = HIF_EV_COUNT.reg n) ∨ State.offerRaise_offs o

theorem State.raiseEvent_keeps {P : State → Prop} (K : Keeps P 0x440000010 State.raiseEvent_offs) {s : State} (q : Nat) (detail : Nat) (hs : P s) :
    P (State.raiseEvent s q detail) := by
  have k0 : Keeps P 0x40000010 State.offerRaise_offs := K.sub rfl (fun _ h => .inr (h))
  have k1 : Keeps P 0x40000010 (fun _ => False) := K.sub rfl (fun _ h => h.elim)
  have r0 := fun n => K.reg (HIF_EV_COUNT.reg n) (.inl ⟨n, rfl⟩)
  have tp : ∀ (s : State) (q : Nat), P s → P (s.pendEvent q) := K.upd 34 rfl
  unfold State.raiseEvent
  repeat' (first
    | with_reducible assumption
    | with_reducible (first | apply State.offerRaise_keeps k0 | apply State.pendVec_keeps k1 | apply bump_keeps | apply tp)
    | with_reducible exact r0 _
    | intro _ _ _ _
    | intro _ _ _
    | intro _ _
    | with_reducible (first | apply ite_keeps | apply ite_keeps_pair)
    | dsimp only
    | split
    | with_reducible (first | apply r0))

/-- Registers `State.ringError` may write. -/
def State.ringError_offs (o : Nat) : Prop :=
  (∃ n, o = HIF_RING_STATUS.reg n) ∨ State.raiseEvent_offs o

theorem State.ringError_keeps {P : State → Prop} (K : Keeps P 0x440000010 State.ringError_offs) {s : State} (r : Nat) (code : Nat) (hs : P s) :
    P (State.ringError s r code) := by
  have k0 : Keeps P 0x440000010 State.raiseEvent_offs := K.sub rfl (fun _ h => .inr (h))
  have r0 := fun n => K.reg (HIF_RING_STATUS.reg n) (.inl ⟨n, rfl⟩)
  unfold State.ringError
  repeat' (first
    | with_reducible assumption
    | with_reducible (first | apply State.raiseEvent_keeps k0 | apply setFld_keeps)
    | with_reducible exact r0 _
    | intro _ _ _ _
    | intro _ _ _
    | intro _ _
    | with_reducible (first | apply ite_keeps | apply ite_keeps_pair)
    | dsimp only
    | split
    | with_reducible (first | apply r0))

/-- Registers `State.writeDesc` may write. -/
def State.writeDesc_offs (o : Nat) : Prop :=
  (∃ n, o = HIF_RING_INDEX.reg n)

theorem State.writeDesc_keeps {P : State → Prop} (K : Keeps P 0x40000010 State.writeDesc_offs) {s : State} (r : Nat) (skip : Nat) (words : List Word) (last : Word) (hs : P s) :
    P (State.writeDesc s r skip words last) := by
  have k0 : Keeps P 0x10 (fun _ => False) := K.sub rfl (fun _ h => h.elim)
  have k1 : Keeps P 0x40000000 (fun _ => False) := K.sub rfl (fun _ h => h.elim)
  have r0 := fun n => K.reg (HIF_RING_INDEX.reg n) (⟨n, rfl⟩)
  have te : ∀ (s : State) (e : Emission), P s → P (s.emit e) := K.upd 30 rfl
  unfold State.writeDesc
  repeat' (first
    | with_reducible assumption
    | with_reducible (first | apply State.setRing_keeps k0 | apply State.writeShadow_keeps k1 | apply setFld_keeps | apply te)
    | with_reducible exact r0 _
    | intro _ _ _ _
    | intro _ _ _
    | intro _ _
    | with_reducible (first | apply ite_keeps | apply ite_keeps_pair)
    | dsimp only
    | split
    | with_reducible (first | apply r0))

/-- Registers `State.writeParts` may write. -/
def State.writeParts_offs (o : Nat) : Prop :=
  State.writeDesc_offs o

theorem State.writeParts_keeps {P : State → Prop} (K : Keeps P 0x40000010 State.writeParts_offs) {s : State} (r : Nat) (seq : Nat) (kflags : Nat) (a0 : List (Desc × Nat)) (a1 : List Byte) (a2 : Nat) (hs : P s) :
    P (State.writeParts s r seq kflags a0 a1 a2) := by
  have k0 : Keeps P 0x40000010 State.writeDesc_offs := K.sub rfl (fun _ h => h)
  have te : ∀ (s : State) (e : Emission), P s → P (s.emit e) := K.upd 30 rfl
  induction a0 generalizing s r seq kflags a1 a2 with
  | nil =>
    unfold State.writeParts
    repeat' (first
      | with_reducible assumption
      | with_reducible (first | apply State.writeDesc_keeps k0 | apply te)
      | intro _ _ _ _
      | intro _ _ _
      | intro _ _
      | with_reducible (first | apply ite_keeps | apply ite_keeps_pair)
      | dsimp only
      | split)
  | cons _ _ ih =>
    unfold State.writeParts
    repeat' (first
      | with_reducible assumption
      | with_reducible apply ih
      | with_reducible (first | apply State.writeDesc_keeps k0 | apply te)
      | intro _ _ _ _
      | intro _ _ _
      | intro _ _
      | with_reducible (first | apply ite_keeps | apply ite_keeps_pair)
      | dsimp only
      | split)

/-- Registers `State.completeBlock` may write. -/
def State.completeBlock_offs (o : Nat) : Prop :=
  (∃ n, o = HIF_RING_BLOCK_COUNT.reg n)

theorem State.completeBlock_keeps {P : State → Prop} (K : Keeps P 0x40000010 State.completeBlock_offs) {s : State} (r : Nat) (hs : P s) :
    P (State.completeBlock s r) := by
  have k0 : Keeps P 0x40000010 (fun _ => False) := K.sub rfl (fun _ h => h.elim)
  have k1 : Keeps P 0x10 (fun _ => False) := K.sub rfl (fun _ h => h.elim)
  have r0 := fun n => K.reg (HIF_RING_BLOCK_COUNT.reg n) (⟨n, rfl⟩)
  unfold State.completeBlock
  repeat' (first
    | with_reducible assumption
    | with_reducible (first | apply State.pendVec_keeps k0 | apply State.setRing_keeps k1 | apply bump_keeps)
    | with_reducible exact r0 _
    | intro _ _ _ _
    | intro _ _ _
    | intro _ _
    | with_reducible (first | apply ite_keeps | apply ite_keeps_pair)
    | dsimp only
    | split
    | with_reducible (first | apply r0))

/-- Registers `State.placeBlock` may write. -/
def State.placeBlock_offs (o : Nat) : Prop :=
  (∃ n, o = HIF_RING_STATUS.reg n) ∨ State.completeBlock_offs o ∨ State.ringError_offs o ∨ State.writeDesc_offs o ∨
    State.writeParts_offs o

theorem State.placeBlock_keeps {P : State → Prop} (K : Keeps P 0x440000010 State.placeBlock_offs) {s : State} (b : Block) (hs : P s) :
    P (State.placeBlock s b).1 := by
  have k0 : Keeps P 0x40000010 State.completeBlock_offs := K.sub rfl (fun _ h => .inr (.inl h))
  have k1 : Keeps P 0x440000010 State.ringError_offs := K.sub rfl (fun _ h => .inr (.inr (.inl h)))
  have k2 : Keeps P 0x40000010 State.writeDesc_offs := K.sub rfl (fun _ h => .inr (.inr (.inr (.inl h))))
  have k3 : Keeps P 0x40000010 State.writeParts_offs := K.sub rfl (fun _ h => .inr (.inr (.inr (.inr (h)))))
  have r0 := fun n => K.reg (HIF_RING_STATUS.reg n) (.inl ⟨n, rfl⟩)
  unfold State.placeBlock
  repeat' (first
    | with_reducible assumption
    | with_reducible (first | apply State.completeBlock_keeps k0 | apply State.ringError_keeps k1 | apply State.writeDesc_keeps k2 | apply State.writeParts_keeps k3 | apply setFlag_keeps)
    | with_reducible exact r0 _
    | intro _ _ _ _
    | intro _ _ _
    | intro _ _
    | with_reducible (first | apply ite_keeps | apply ite_keeps_pair)
    | dsimp only
    | split
    | with_reducible (first | apply r0))

/-- Registers `State.writeBlock` may write. -/
def State.writeBlock_offs (o : Nat) : Prop :=
  (∃ n, o = ACR_OUT_COUNT.reg n) ∨ State.dropRest_offs o ∨ State.loseBlock_offs o ∨ State.placeBlock_offs o

theorem State.writeBlock_keeps {P : State → Prop} (K : Keeps P 0x440000010 State.writeBlock_offs) {s : State} (r : Nat) (hs : P s) :
    P (State.writeBlock s r).1 := by
  have k0 : Keeps P 0x40000010 State.dropRest_offs := K.sub rfl (fun _ h => .inr (.inl h))
  have k1 : Keeps P 0x40000010 State.loseBlock_offs := K.sub rfl (fun _ h => .inr (.inr (.inl h)))
  have k2 : Keeps P 0x440000010 State.placeBlock_offs := K.sub rfl (fun _ h => .inr (.inr (.inr (h))))
  have r0 := fun n => K.reg (ACR_OUT_COUNT.reg n) (.inl ⟨n, rfl⟩)
  have t4 : ∀ (s : State) v, P s → P (s.putHif v) := K.upd 4 rfl
  unfold State.writeBlock
  repeat' (first
    | with_reducible assumption
    | with_reducible (first | apply State.dropRest_keeps k0 | apply State.loseBlock_keeps k1 | apply State.placeBlock_keeps k2 | apply bump_keeps | apply t4)
    | with_reducible exact r0 _
    | (apply fst_keeps (by assumption))
    | intro _ _ _ _
    | intro _ _ _
    | intro _ _
    | with_reducible (first | apply ite_keeps | apply ite_keeps_pair)
    | dsimp only
    | split
    | with_reducible (first | apply r0))

/-- Registers `State.makeRoom` may write. -/
def State.makeRoom_offs (o : Nat) : Prop :=
  State.writeBlock_offs o

theorem State.makeRoom_keeps {P : State → Prop} (K : Keeps P 0x440000010 State.makeRoom_offs) {s : State} (r : Nat) (size : Nat) (c : Nat × Nat) (a0 : Nat) (hs : P s) :
    P (State.makeRoom s r size c a0).1 := by
  have k0 : Keeps P 0x440000010 State.writeBlock_offs := K.sub rfl (fun _ h => h)
  induction a0 generalizing s r size c with
  | zero =>
    unfold State.makeRoom
    repeat' (first
      | with_reducible assumption
      | with_reducible (first | apply State.writeBlock_keeps k0)
      | (apply fst_keeps (by assumption))
      | intro _ _ _ _
      | intro _ _ _
      | intro _ _
      | with_reducible (first | apply ite_keeps | apply ite_keeps_pair)
      | dsimp only
      | split)
  | succ _ ih =>
    unfold State.makeRoom
    repeat' (first
      | with_reducible assumption
      | with_reducible apply ih
      | with_reducible (first | apply State.writeBlock_keeps k0)
      | (apply fst_keeps (by assumption))
      | intro _ _ _ _
      | intro _ _ _
      | intro _ _
      | with_reducible (first | apply ite_keeps | apply ite_keeps_pair)
      | dsimp only
      | split)

end Sys2Proof.Machine
end

