-- ==== Sys2Proof/Laws/Events.lean ====
section
/-!
SUPPORT. Raising an event: its pending bit, its count, and what it leaves as it was.
-/
namespace Sys2Proof.Machine

/-- A bit that is set reads set. -/
theorem bitOf_putBit_true (m i : Nat) : bitOf (putBit m i true) i = true := by
  unfold putBit
  simp only [if_true]
  split
  · assumption
  · rename_i h
    simp only [bitOf, beq_iff_eq] at h ⊢
    rw [Nat.add_div_right _ (by exact Nat.two_pow_pos i)]
    omega

/-- A bit below 32 survives the cut to a word. -/
theorem bitOf_word (n : Nat) {i : Nat} (h : i < 32) : bitOf (Word.of n).toNat i = bitOf n i := by
  simp only [bitOf, Word.toNat_of]
  have e : (2 : Nat) ^ 32 = 2 ^ i * 2 ^ (32 - i) := by rw [← Nat.pow_add]; congr 1; omega
  rw [e, Nat.mod_mul_right_div_self]
  have e2 : (2 : Nat) ^ (32 - i) = 2 * 2 ^ (31 - i) := by rw [← Nat.pow_succ']; congr 1; omega
  rw [e2, Nat.mod_mul_right_mod]

/-- A set bit stays set when a bit is set. -/
theorem bitOf_putBit_mono (m i j : Nat) (h : bitOf m j = true) : bitOf (putBit m i true) j = true := by
  unfold putBit
  simp only [if_true]
  split
  · exact h
  · rename_i hi
    by_cases e : i = j
    · subst e; exact absurd h hi
    · simp only [bitOf, beq_iff_eq] at h hi ⊢
      rcases Nat.lt_or_gt_of_ne e with hl | hl
      · -- the bit below: no carry reaches bit j, for bit i was 0
        have h0 : m / 2 ^ i % 2 = 0 := by omega
        have key : (m + 2 ^ i) / 2 ^ i = m / 2 ^ i + 1 := Nat.add_div_right _ (Nat.two_pow_pos i)
        have e1 : ∀ x : Nat, x / 2 ^ j = x / 2 ^ i / 2 ^ (j - i) := by
          intro x; rw [Nat.div_div_eq_div_mul, ← Nat.pow_add]; congr 2; omega
        rw [e1, key]
        rw [e1] at h
        have e2 : 2 ^ (j - i) = 2 * 2 ^ (j - i - 1) := by rw [← Nat.pow_succ']; congr 1; omega
        rw [e2, ← Nat.div_div_eq_div_mul] at h ⊢
        have : (m / 2 ^ i + 1) / 2 = m / 2 ^ i / 2 := by omega
        rw [this]; exact h
      · have e2 : 2 ^ i = 2 ^ j * (2 * 2 ^ (i - j - 1)) := by
          rw [← Nat.pow_succ', ← Nat.pow_add]; congr 1; omega
        rw [e2, Nat.add_mul_div_left _ _ (Nat.two_pow_pos j)]
        omega

/-- Every operation whose offsets spare the pending words leaves a pending event pending. -/
theorem keeps_evPending {m : Nat} {R : Nat → Prop} (q : Nat) (h32 : m.testBit 32 = false) (h33 : m.testBit 33 = false)
    (hR : ∀ i, ¬ R (HIF_EV_PEND_LO.reg + 4 * (i % 2))) : Keeps (fun t => t.evPending q) m R where
  upd i hi := by
    unfold Upd
    split <;> first
      | exact fun _ _ h => h
      | exact fun _ _ _ h => h
      | trivial
      | (rw [h32] at hi; cases hi)
      | (rw [h33] at hi; cases hi)
      | (intro s r h
         unfold State.evPending State.pendEvent at *
         dsimp only
         by_cases e : HIF_EV_PEND_LO.reg + 4 * (q / 32 % 2) = HIF_EV_PEND_LO.reg + 4 * (r / 32 % 2)
         · rw [e] at h ⊢
           rw [State.reg_setReg_eq, bitOf_word _ (by omega)]
           exact bitOf_putBit_mono _ _ _ h
         · rw [State.reg_setReg_ne _ _ _ e]; exact h)
  reg o ho s w h := by
    have : HIF_EV_PEND_LO.reg + 4 * (q / 32 % 2) ≠ o := fun e => hR _ (e ▸ ho)
    unfold State.evPending
    rw [State.reg_setReg_ne _ _ _ this]
    exact h

/-- The registers of a raise lie in `eventReg`. -/
theorem raiseEvent_regs (o : Nat) (h : State.raiseEvent_offs o) : eventReg o := by
  simp only [State.raiseEvent_offs, State.offerRaise_offs, State.pushRecord_offs, State.discardBlock_offs] at h
  exact h.elim Or.inl (fun h => Or.inr (Or.inr h))

theorem EV_PEND_ne_discard (i r : Nat) : HIF_EV_PEND_LO.reg + 4 * (i % 2) ≠ HIF_RING_DISCARD_COUNT.reg r := by
  simp only [HIF_EV_PEND_LO.reg, HIF_RING_DISCARD_COUNT.reg]; omega

theorem EV_COUNT_ne_discard (q r : Nat) : HIF_EV_COUNT.reg q ≠ HIF_RING_DISCARD_COUNT.reg r := by
  simp only [HIF_EV_COUNT.reg, HIF_RING_DISCARD_COUNT.reg]; omega

theorem EV_PEND_ne_count (i q : Nat) : HIF_EV_PEND_LO.reg + 4 * (i % 2) ≠ HIF_EV_COUNT.reg q := by
  simp only [HIF_EV_PEND_LO.reg, HIF_EV_COUNT.reg]; omega

/-- An event that is offered to its ring and vector leaves every register but the discard counts. -/
theorem raiseEvent_tail (s : State) (q d o : Nat) (h : ∀ r, o ≠ HIF_RING_DISCARD_COUNT.reg r) :
    (s.raiseEvent q d).reg o
      = (((s.setReg (HIF_EV_PEND_LO.reg + 4 * (q / 32 % 2))
          (Word.of (putBit (s.reg (HIF_EV_PEND_LO.reg + 4 * (q / 32 % 2))).toNat (q % 32) true))).bump
            (HIF_EV_COUNT.reg q)).reg o) := by
  unfold State.raiseEvent State.pendEvent
  dsimp only
  generalize ((s.setReg (HIF_EV_PEND_LO.reg + 4 * (q / 32 % 2)) _).bump (HIF_EV_COUNT.reg q)) = u
  have ho : ∀ v : State, (v.offerRaise q d).reg o = v.reg o := fun v =>
    State.offerRaise_keeps (P := fun t => t.reg o = v.reg o)
      (keeps_reg rfl rfl (Or.inl rfl) (by
        simp only [State.offerRaise_offs, State.pushRecord_offs, State.discardBlock_offs]
        rintro ⟨r, hr⟩; exact h r hr)) q d rfl
  have hp : ∀ (v : State) (x : Nat) (b : Bool), (v.pendVec x b).reg o = v.reg o := fun v x b =>
    State.pendVec_keeps (P := fun t => t.reg o = v.reg o) (keeps_reg rfl rfl (Or.inl rfl) (fun h => h)) x b rfl
  split <;> split <;> simp only [hp, ho]

/-- A raise sets the pending bit and counts. -/
theorem raiseEvent_raised (s : State) (q d : Nat) : s.Raised (s.raiseEvent q d) q where
  pend := by
    unfold State.evPending
    rw [raiseEvent_tail _ _ _ _ (fun r => EV_PEND_ne_discard _ r)]
    unfold State.bump State.addReg
    rw [State.reg_setReg_ne _ _ _ (EV_PEND_ne_count _ _), State.reg_setReg_eq, bitOf_word _ (by omega), bitOf_putBit_true]
  count := by
    rw [raiseEvent_tail _ _ _ _ (fun r => EV_COUNT_ne_discard _ r)]
    unfold State.bump State.addReg
    rw [State.reg_setReg_eq, State.reg_setReg_ne _ _ _ (Ne.symm (EV_PEND_ne_count _ _))]
    rfl

/-- The frame of a raise. -/
theorem raiseEvent_frame (s : State) (q d : Nat) : s.Frame (s.raiseEvent q d) [.hif, .sent] eventReg :=
  State.raiseEvent_keeps (keeps_frame_ev _ rfl (fun i => Or.inr (Or.inl ⟨i, rfl⟩)) raiseEvent_regs) q d (State.Frame.refl _ _ _)

end Sys2Proof.Machine
end

