-- ==== Sys2Proof/Laws/KOps.lean ====
section
/-!
SUPPORT. What the operations of Sys2Proof.Machine.Ops keep, and the registers they may write.
-/
namespace Sys2Proof.Machine

theorem State.setDram_keeps {P : State → Prop} (K : Keeps P 0x3000000 (fun _ => False)) {s : State} (a : Nat) (bs : List Byte) (hs : P s) :
    P (State.setDram s a bs) := by
  have t24 : ∀ (s : State) v, (Memory.wf 0 s.dram = true → Memory.wf 0 v = true) → P s → P (s.putDram v) := K.upd 24 rfl
  have t25 : ∀ (s : State) v, P s → P (s.putDmc v) := K.upd 25 rfl
  unfold State.setDram
  repeat' (first
    | with_reducible assumption
    | with_reducible (first | apply t24 | apply t25)
    | with_reducible_and_instances (first | exact fun h => h | exact fun h => Memory.setBytes_wf _ _ h | exact fun h => SMap.put_wf _ _ h | exact fun h => Memory.clearRange_wf _ _ h | exact fun _ => rfl | exact fun h => Memory.setByte_wf _ _ h | exact fun h => Memory.setBytes_wf _ _ (Memory.setBytes_wf _ _ h) | exact fun h => Memory.clearRange_wf _ _ (Memory.clearRange_wf _ _ h) | exact fun h => SMap.filter_wf _ h)
    | exact fun h => SMap.put_wf _ _ h
    | exact fun _ => SMap.nil_wf
    | intro _ _ _ _
    | intro _ _ _
    | intro _ _
    | with_reducible (first | apply ite_keeps | apply ite_keeps_pair)
    | dsimp only
    | split)

theorem State.zeroDram_keeps {P : State → Prop} (K : Keeps P 0x3000000 (fun _ => False)) {s : State} (a : Nat) (n : Nat) (hs : P s) :
    P (State.zeroDram s a n) := by
  have t24 : ∀ (s : State) v, (Memory.wf 0 s.dram = true → Memory.wf 0 v = true) → P s → P (s.putDram v) := K.upd 24 rfl
  have t25 : ∀ (s : State) v, P s → P (s.putDmc v) := K.upd 25 rfl
  unfold State.zeroDram
  repeat' (first
    | with_reducible assumption
    | with_reducible (first | apply t24 | apply t25)
    | with_reducible_and_instances (first | exact fun h => h | exact fun h => Memory.setBytes_wf _ _ h | exact fun h => SMap.put_wf _ _ h | exact fun h => Memory.clearRange_wf _ _ h | exact fun _ => rfl | exact fun h => Memory.setByte_wf _ _ h | exact fun h => Memory.setBytes_wf _ _ (Memory.setBytes_wf _ _ h) | exact fun h => Memory.clearRange_wf _ _ (Memory.clearRange_wf _ _ h) | exact fun h => SMap.filter_wf _ h)
    | exact fun h => SMap.put_wf _ _ h
    | exact fun _ => SMap.nil_wf
    | intro _ _ _ _
    | intro _ _ _
    | intro _ _
    | with_reducible (first | apply ite_keeps | apply ite_keeps_pair)
    | dsimp only
    | split)

theorem State.setDev_keeps {P : State → Prop} (K : Keeps P 0x4 (fun _ => False)) {s : State} (d : DevState) (hs : P s) :
    P (State.setDev s d) := by
  have t2 : ∀ (s : State) v, (v.dev = s.ctl.dev ∨ ¬ s.ctl.dev = .safe) → P s → P (s.putCtl v) := K.upd 2 rfl
  unfold State.setDev
  repeat' (first
    | with_reducible assumption
    | with_reducible (first | apply t2)
    | with_reducible exact Or.inl rfl
    | exact Or.inr (by assumption)
    | split
    | intro _ _ _ _
    | intro _ _ _
    | intro _ _
    | with_reducible (first | apply ite_keeps | apply ite_keeps_pair)
    | dsimp only
    | split)

theorem State.withDeg_keeps {P : State → Prop} (K : Keeps P 0x4 (fun _ => False)) {s : State} (d : DegCause) (hs : P s) :
    P (State.withDeg s d) := by
  have k0 : Keeps P 0x4 (fun _ => False) := K.sub rfl (fun _ h => h.elim)
  have t2 : ∀ (s : State) v, (v.dev = s.ctl.dev ∨ ¬ s.ctl.dev = .safe) → P s → P (s.putCtl v) := K.upd 2 rfl
  unfold State.withDeg
  repeat' (first
    | with_reducible assumption
    | with_reducible (first | apply State.setDev_keeps k0 | apply t2)
    | with_reducible exact Or.inl rfl
    | exact Or.inr (by assumption)
    | intro _ _ _ _
    | intro _ _ _
    | intro _ _
    | with_reducible (first | apply ite_keeps | apply ite_keeps_pair)
    | dsimp only
    | split)

theorem State.drawFree_keeps {P : State → Prop} (K : Keeps P 0x80000000 (fun _ => False)) {s : State} (hs : P s) :
    P (State.drawFree s) := by
  have t31 : ∀ (s : State) v, P s → P (s.putFreeCtr v) := K.upd 31 rfl
  unfold State.drawFree
  repeat' (first
    | with_reducible assumption
    | with_reducible (first | apply t31)
    | intro _ _ _ _
    | intro _ _ _
    | intro _ _
    | with_reducible (first | apply ite_keeps | apply ite_keeps_pair)
    | dsimp only
    | split)

theorem State.tick_keeps {P : State → Prop} (K : Keeps P 0x1 (fun _ => False)) {s : State} (hs : P s) :
    P (State.tick s) := by
  have t0 : ∀ (s : State) v, P s → P (s.putTime v) := K.upd 0 rfl
  unfold State.tick
  repeat' (first
    | with_reducible assumption
    | with_reducible (first | apply t0)
    | intro _ _ _ _
    | intro _ _ _
    | intro _ _
    | with_reducible (first | apply ite_keeps | apply ite_keeps_pair)
    | dsimp only
    | split)

end Sys2Proof.Machine
end

