-- ==== Sys2Proof/Laws/KUnits.lean ====
section
/-!
SUPPORT. What the operations of Sys2Proof.Machine.Units keep, and the registers they may write.
-/
namespace Sys2Proof.Machine

theorem State.setUnit_keeps {P : State → Prop} (K : Keeps P 0x8000 (fun _ => False)) {s : State} (u : Nat) (x : TrgUnit) (hs : P s) :
    P (State.setUnit s u x) := by
  have t15 : ∀ (s : State) v, P s → P (s.putUnits v) := K.upd 15 rfl
  unfold State.setUnit
  repeat' (first
    | with_reducible assumption
    | with_reducible (first | apply t15)
    | intro _ _ _ _
    | intro _ _ _
    | intro _ _
    | with_reducible (first | apply ite_keeps | apply ite_keeps_pair)
    | dsimp only
    | split)

theorem State.setDout_keeps {P : State → Prop} (K : Keeps P 0x10000 (fun _ => False)) {s : State} (k : Nat) (x : Dout) (hs : P s) :
    P (State.setDout s k x) := by
  have t16 : ∀ (s : State) v, P s → P (s.putDouts v) := K.upd 16 rfl
  unfold State.setDout
  repeat' (first
    | with_reducible assumption
    | with_reducible (first | apply t16)
    | intro _ _ _ _
    | intro _ _ _
    | intro _ _
    | with_reducible (first | apply ite_keeps | apply ite_keeps_pair)
    | dsimp only
    | split)

theorem State.setBlank_keeps {P : State → Prop} (K : Keeps P 0x20000 (fun _ => False)) {s : State} (i : Nat) (x : Blank) (hs : P s) :
    P (State.setBlank s i x) := by
  have t17 : ∀ (s : State) v, P s → P (s.putBlanks v) := K.upd 17 rfl
  unfold State.setBlank
  repeat' (first
    | with_reducible assumption
    | with_reducible (first | apply t17)
    | intro _ _ _ _
    | intro _ _ _
    | intro _ _
    | with_reducible (first | apply ite_keeps | apply ite_keeps_pair)
    | dsimp only
    | split)

theorem State.setPort_keeps {P : State → Prop} (K : Keeps P 0x40000 (fun _ => False)) {s : State} (n : Nat) (x : PortSt) (hs : P s) :
    P (State.setPort s n x) := by
  have t18 : ∀ (s : State) v, P s → P (s.putStreams v) := K.upd 18 rfl
  unfold State.setPort
  repeat' (first
    | with_reducible assumption
    | with_reducible (first | apply t18)
    | intro _ _ _ _
    | intro _ _ _
    | intro _ _
    | with_reducible (first | apply ite_keeps | apply ite_keeps_pair)
    | dsimp only
    | split)

theorem State.setBrlPort_keeps {P : State → Prop} (K : Keeps P 0x2000 (fun _ => False)) {s : State} (n : Nat) (x : BrlPort) (hs : P s) :
    P (State.setBrlPort s n x) := by
  have t13 : ∀ (s : State) v, P s → P (s.putBrl v) := K.upd 13 rfl
  unfold State.setBrlPort
  repeat' (first
    | with_reducible assumption
    | with_reducible (first | apply t13)
    | intro _ _ _ _
    | intro _ _ _
    | intro _ _
    | with_reducible (first | apply ite_keeps | apply ite_keeps_pair)
    | dsimp only
    | split)

theorem State.setCore_keeps {P : State → Prop} (K : Keeps P 0x100000 (fun _ => False)) {s : State} (k : Nat) (x : Core) (hs : P s) :
    P (State.setCore s k x) := by
  have t20 : ∀ (s : State) v, P s → P (s.putCores v) := K.upd 20 rfl
  unfold State.setCore
  repeat' (first
    | with_reducible assumption
    | with_reducible (first | apply t20)
    | intro _ _ _ _
    | intro _ _ _
    | intro _ _
    | with_reducible (first | apply ite_keeps | apply ite_keeps_pair)
    | dsimp only
    | split)

theorem State.setChan_keeps {P : State → Prop} (K : Keeps P 0x40 (fun _ => False)) {s : State} (c : Nat) (x : Chan) (hs : P s) :
    P (State.setChan s c x) := by
  have t6 : ∀ (s : State) v, P s → P (s.putSaf v) := K.upd 6 rfl
  unfold State.setChan
  repeat' (first
    | with_reducible assumption
    | with_reducible (first | apply t6)
    | intro _ _ _ _
    | intro _ _ _
    | intro _ _
    | with_reducible (first | apply ite_keeps | apply ite_keeps_pair)
    | dsimp only
    | split)

theorem State.setDiag_keeps {P : State → Prop} (K : Keeps P 0x40 (fun _ => False)) {s : State} (d : Nat) (p : Nat) (x : Diag) (hs : P s) :
    P (State.setDiag s d p x) := by
  have t6 : ∀ (s : State) v, P s → P (s.putSaf v) := K.upd 6 rfl
  unfold State.setDiag
  repeat' (first
    | with_reducible assumption
    | with_reducible (first | apply t6)
    | intro _ _ _ _
    | intro _ _ _
    | intro _ _
    | with_reducible (first | apply ite_keeps | apply ite_keeps_pair)
    | dsimp only
    | split)

end Sys2Proof.Machine
end

