-- ==== Sys2Proof/Laws/KCoreCtl.lean ====
section
/-!
SUPPORT. What the operations of Sys2Proof.Machine.CoreCtl keep, and the registers they may write.
-/
namespace Sys2Proof.Machine

/-- Registers `State.feedSetup` may write. -/
def State.feedSetup_offs (o : Nat) : Prop :=
  (∃ n, o = ACR_SLOT_INFO.reg n) ∨ (∃ n, o = ACR_STATUS.reg n)

theorem State.feedSetup_keeps {P : State → Prop} (K : Keeps P 0x0 State.feedSetup_offs) {s : State} (k : Nat) (hs : P s) :
    P (State.feedSetup s k) := by
  have r0 := fun n => K.reg (ACR_SLOT_INFO.reg n) (.inl ⟨n, rfl⟩)
  have r1 := fun n => K.reg (ACR_STATUS.reg n) (.inr (⟨n, rfl⟩))
  unfold State.feedSetup
  repeat' (first
    | with_reducible assumption
    | with_reducible (first | apply setFlag_keeps | apply setFld_keeps)
    | with_reducible exact r0 _
    | with_reducible exact r1 _
    | intro _ _ _ _
    | intro _ _ _
    | intro _ _
    | with_reducible (first | apply ite_keeps | apply ite_keeps_pair)
    | dsimp only
    | split
    | with_reducible (first | apply r0 | apply r1))

/-- Registers `State.startCore` may write. -/
def State.startCore_offs (o : Nat) : Prop :=
  (∃ n, o = ACR_FAULT.reg n) ∨ State.feedSetup_offs o

theorem State.startCore_keeps {P : State → Prop} (K : Keeps P 0x100000 State.startCore_offs) {s : State} (k : Nat) (start : Nat) (hs : P s) :
    P (State.startCore s k start) := by
  have k0 : Keeps P 0x0 State.feedSetup_offs := K.sub rfl (fun _ h => .inr (h))
  have k1 : Keeps P 0x100000 (fun _ => False) := K.sub rfl (fun _ h => h.elim)
  have r0 := fun n => K.reg (ACR_FAULT.reg n) (.inl ⟨n, rfl⟩)
  unfold State.startCore
  repeat' (first
    | with_reducible assumption
    | with_reducible (first | apply State.feedSetup_keeps k0 | apply State.setCore_keeps k1 | apply setNat_keeps)
    | with_reducible exact r0 _
    | intro _ _ _ _
    | intro _ _ _
    | intro _ _
    | with_reducible (first | apply ite_keeps | apply ite_keeps_pair)
    | dsimp only
    | split
    | with_reducible (first | apply r0))

theorem State.beginStop_keeps {P : State → Prop} (K : Keeps P 0x100000 (fun _ => False)) {s : State} (k : Nat) (cause : Nat) (hs : P s) :
    P (State.beginStop s k cause) := by
  have k0 : Keeps P 0x100000 (fun _ => False) := K.sub rfl (fun _ h => h.elim)
  unfold State.beginStop
  repeat' (first
    | with_reducible assumption
    | with_reducible (first | apply State.setCore_keeps k0)
    | intro _ _ _ _
    | intro _ _ _
    | intro _ _
    | with_reducible (first | apply ite_keeps | apply ite_keeps_pair)
    | dsimp only
    | split)

theorem State.coreSafe_keeps {P : State → Prop} (K : Keeps P 0x100000 (fun _ => False)) {s : State} (k : Nat) (hs : P s) :
    P (State.coreSafe s k) := by
  have k0 : Keeps P 0x100000 (fun _ => False) := K.sub rfl (fun _ h => h.elim)
  unfold State.coreSafe
  repeat' (first
    | with_reducible assumption
    | with_reducible (first | apply State.setCore_keeps k0)
    | intro _ _ _ _
    | intro _ _ _
    | intro _ _
    | with_reducible (first | apply ite_keeps | apply ite_keeps_pair)
    | dsimp only
    | split)

theorem State.finishStop_keeps {P : State → Prop} (K : Keeps P 0x100000 (fun _ => False)) {s : State} (k : Nat) (hs : P s) :
    P (State.finishStop s k) := by
  have k0 : Keeps P 0x100000 (fun _ => False) := K.sub rfl (fun _ h => h.elim)
  unfold State.finishStop
  repeat' (first
    | with_reducible assumption
    | with_reducible (first | apply State.setCore_keeps k0)
    | intro _ _ _ _
    | intro _ _ _
    | intro _ _
    | with_reducible (first | apply ite_keeps | apply ite_keeps_pair)
    | dsimp only
    | split)

/-- Registers `State.coreFault` may write. -/
def State.coreFault_offs (o : Nat) : Prop :=
  (∃ n, o = ACR_FAULT.reg n) ∨ (∃ n, o = ACR_FAULT_COUNT.reg n) ∨ (∃ n, o = ACR_FAULT_INSN.reg n) ∨
    State.raiseEvent_offs o

theorem State.coreFault_keeps {P : State → Prop} (K : Keeps P 0x440100014 State.coreFault_offs) {s : State} (k : Nat) (cause : Nat) (pc : Nat) (insn : Word) (hs : P s) :
    P (State.coreFault s k cause pc insn) := by
  have k0 : Keeps P 0x440000010 State.raiseEvent_offs := K.sub rfl (fun _ h => .inr (.inr (.inr (h))))
  have k1 : Keeps P 0x100000 (fun _ => False) := K.sub rfl (fun _ h => h.elim)
  have k2 : Keeps P 0x4 (fun _ => False) := K.sub rfl (fun _ h => h.elim)
  have r0 := fun n => K.reg (ACR_FAULT.reg n) (.inl ⟨n, rfl⟩)
  have r1 := fun n => K.reg (ACR_FAULT_COUNT.reg n) (.inr (.inl ⟨n, rfl⟩))
  have r2 := fun n => K.reg (ACR_FAULT_INSN.reg n) (.inr (.inr (.inl ⟨n, rfl⟩)))
  unfold State.coreFault
  repeat' (first
    | with_reducible assumption
    | with_reducible (first | apply State.raiseEvent_keeps k0 | apply State.setCore_keeps k1 | apply State.withDeg_keeps k2 | apply bump_keeps | apply setNat_keeps | apply setReg_keeps)
    | with_reducible exact r0 _
    | with_reducible exact r1 _
    | with_reducible exact r2 _
    | intro _ _ _ _
    | intro _ _ _
    | intro _ _
    | with_reducible (first | apply ite_keeps | apply ite_keeps_pair)
    | dsimp only
    | split
    | with_reducible (first | apply r0 | apply r1 | apply r2))

theorem State.clearCoreDeg_keeps {P : State → Prop} (K : Keeps P 0x100004 (fun _ => False)) {s : State} (k : Nat) (hs : P s) :
    P (State.clearCoreDeg s k) := by
  have k0 : Keeps P 0x100000 (fun _ => False) := K.sub rfl (fun _ h => h.elim)
  have k1 : Keeps P 0x4 (fun _ => False) := K.sub rfl (fun _ h => h.elim)
  unfold State.clearCoreDeg
  repeat' (first
    | with_reducible assumption
    | with_reducible (first | apply State.setCore_keeps k0 | apply State.withDeg_keeps k1)
    | intro _ _ _ _
    | intro _ _ _
    | intro _ _
    | with_reducible (first | apply ite_keeps | apply ite_keeps_pair)
    | dsimp only
    | split)

end Sys2Proof.Machine
end

