-- ==== Sys2Proof/Laws/KBank.lean ====
section
/-!
SUPPORT. What the operations of Sys2Proof.Machine.Bank keep, and the registers they may write.
-/
namespace Sys2Proof.Machine

theorem State.syncBank_keeps {P : State → Prop} (K : Keeps P 0x80 (fun _ => False)) {s : State} (hs : P s) :
    P (State.syncBank s) := by
  have t7 : ∀ (s : State) v, P s → P (s.putSrc v) := K.upd 7 rfl
  unfold State.syncBank
  repeat' (first
    | with_reducible assumption
    | with_reducible (first | apply t7)
    | intro _ _ _ _
    | intro _ _ _
    | intro _ _
    | with_reducible (first | apply ite_keeps | apply ite_keeps_pair)
    | dsimp only
    | split)

theorem State.setBank_keeps {P : State → Prop} (K : Keeps P 0x80 (fun _ => False)) {s : State} (b8 : Nat) (hs : P s) :
    P (State.setBank s b8) := by
  have t7 : ∀ (s : State) v, P s → P (s.putSrc v) := K.upd 7 rfl
  unfold State.setBank
  repeat' (first
    | with_reducible assumption
    | with_reducible (first | apply t7)
    | intro _ _ _ _
    | intro _ _ _
    | intro _ _
    | with_reducible (first | apply ite_keeps | apply ite_keeps_pair)
    | dsimp only
    | split)

theorem State.setGate_keeps {P : State → Prop} (K : Keeps P 0x80 (fun _ => False)) {s : State} (on : Bool) (hs : P s) :
    P (State.setGate s on) := by
  have k0 : Keeps P 0x80 (fun _ => False) := K.sub rfl (fun _ h => h.elim)
  have t7 : ∀ (s : State) v, P s → P (s.putSrc v) := K.upd 7 rfl
  unfold State.setGate
  repeat' (first
    | with_reducible assumption
    | with_reducible (first | apply State.syncBank_keeps k0 | apply t7)
    | intro _ _ _ _
    | intro _ _ _
    | intro _ _
    | with_reducible (first | apply ite_keeps | apply ite_keeps_pair)
    | dsimp only
    | split)

/-- Registers `State.setRefill` may write. -/
def State.setRefill_offs (o : Nat) : Prop :=
  o = SRC_BANK_EST.reg

theorem State.setRefill_keeps {P : State → Prop} (K : Keeps P 0x80 State.setRefill_offs) {s : State} (mw : Nat) (hs : P s) :
    P (State.setRefill s mw) := by
  have k0 : Keeps P 0x80 (fun _ => False) := K.sub rfl (fun _ h => h.elim)
  have r0 := K.reg (SRC_BANK_EST.reg) (rfl)
  unfold State.setRefill
  repeat' (first
    | with_reducible assumption
    | with_reducible (first | apply State.syncBank_keeps k0 | apply setFld_keeps)
    | with_reducible exact r0
    | intro _ _ _ _
    | intro _ _ _
    | intro _ _
    | with_reducible (first | apply ite_keeps | apply ite_keeps_pair)
    | dsimp only
    | split
    | with_reducible (first | apply r0))

end Sys2Proof.Machine
end

