-- ==== Sys2Proof/Laws/KCal.lean ====
section
/-!
SUPPORT. What the operations of Sys2Proof.Machine.Cal keep, and the registers they may write.
-/
namespace Sys2Proof.Machine

/-- Registers `State.calShowDone` may write. -/
def State.calShowDone_offs (o : Nat) : Prop :=
  o = GLB_CAL_STATUS.reg

theorem State.calShowDone_keeps {P : State → Prop} (K : Keeps P 0x0 State.calShowDone_offs) {s : State} (r : CalRun) (hs : P s) :
    P (State.calShowDone s r) := by
  have r0 := K.reg (GLB_CAL_STATUS.reg) (rfl)
  unfold State.calShowDone
  repeat' (first
    | with_reducible assumption
    | with_reducible (first | apply setFld_keeps | apply foldl_keeps | apply foldl_keeps_pair)
    | with_reducible exact r0
    | intro _ _ _ _
    | intro _ _ _
    | intro _ _
    | with_reducible (first | apply ite_keeps | apply ite_keeps_pair)
    | dsimp only
    | split
    | with_reducible (first | apply r0))

theorem State.setCalRun_keeps {P : State → Prop} (K : Keeps P 0x200 (fun _ => False)) {s : State} (r : Option CalRun) (hs : P s) :
    P (State.setCalRun s r) := by
  have t9 : ∀ (s : State) v, P s → P (s.putCal v) := K.upd 9 rfl
  unfold State.setCalRun
  repeat' (first
    | with_reducible assumption
    | with_reducible (first | apply t9)
    | intro _ _ _ _
    | intro _ _ _
    | intro _ _
    | with_reducible (first | apply ite_keeps | apply ite_keeps_pair)
    | dsimp only
    | split)

/-- Registers `State.calSlice` may write. -/
def State.calSlice_offs (o : Nat) : Prop :=
  State.calShowDone_offs o

theorem State.calSlice_keeps {P : State → Prop} (K : Keeps P 0x200 State.calSlice_offs) {s : State} (n : Nat) (hs : P s) :
    P (State.calSlice s n) := by
  have k0 : Keeps P 0x0 State.calShowDone_offs := K.sub rfl (fun _ h => h)
  have k1 : Keeps P 0x200 (fun _ => False) := K.sub rfl (fun _ h => h.elim)
  unfold State.calSlice
  repeat' (first
    | with_reducible assumption
    | with_reducible (first | apply State.calShowDone_keeps k0 | apply State.setCalRun_keeps k1)
    | intro _ _ _ _
    | intro _ _ _
    | intro _ _
    | with_reducible (first | apply ite_keeps | apply ite_keeps_pair)
    | dsimp only
    | split)

/-- Registers `State.calFrame` may write. -/
def State.calFrame_offs (o : Nat) : Prop :=
  State.calShowDone_offs o

theorem State.calFrame_keeps {P : State → Prop} (K : Keeps P 0x200 State.calFrame_offs) {s : State} (n : Nat) (hs : P s) :
    P (State.calFrame s n) := by
  have k0 : Keeps P 0x0 State.calShowDone_offs := K.sub rfl (fun _ h => h)
  have k1 : Keeps P 0x200 (fun _ => False) := K.sub rfl (fun _ h => h.elim)
  unfold State.calFrame
  repeat' (first
    | with_reducible assumption
    | with_reducible (first | apply State.calShowDone_keeps k0 | apply State.setCalRun_keeps k1)
    | intro _ _ _ _
    | intro _ _ _
    | intro _ _
    | with_reducible (first | apply ite_keeps | apply ite_keeps_pair)
    | dsimp only
    | split)

/-- Registers `State.calTurn` may write. -/
def State.calTurn_offs (o : Nat) : Prop :=
  State.calShowDone_offs o

theorem State.calTurn_keeps {P : State → Prop} (K : Keeps P 0x200 State.calTurn_offs) {s : State} (n : Nat) (hs : P s) :
    P (State.calTurn s n) := by
  have k0 : Keeps P 0x0 State.calShowDone_offs := K.sub rfl (fun _ h => h)
  have k1 : Keeps P 0x200 (fun _ => False) := K.sub rfl (fun _ h => h.elim)
  unfold State.calTurn
  repeat' (first
    | with_reducible assumption
    | with_reducible (first | apply State.calShowDone_keeps k0 | apply State.setCalRun_keeps k1)
    | intro _ _ _ _
    | intro _ _ _
    | intro _ _
    | with_reducible (first | apply ite_keeps | apply ite_keeps_pair)
    | dsimp only
    | split)

/-- Registers `State.calStart` may write. -/
def State.calStart_offs (o : Nat) : Prop :=
  (∃ n, o = GLB_CAL_REF_TEMP.reg n) ∨ o = GLB_CAL_RUN_NUM.reg ∨ o = GLB_CAL_STATUS.reg ∨ State.raiseEvent_offs o

theorem State.calStart_keeps {P : State → Prop} (K : Keeps P 0x440000210 State.calStart_offs) {s : State} (cause : Nat) (die : Nat) (hs : P s) :
    P (State.calStart s cause die) := by
  have k0 : Keeps P 0x440000010 State.raiseEvent_offs := K.sub rfl (fun _ h => .inr (.inr (.inr (h))))
  have r0 := fun n => K.reg (GLB_CAL_REF_TEMP.reg n) (.inl ⟨n, rfl⟩)
  have r1 := K.reg (GLB_CAL_RUN_NUM.reg) (.inr (.inl rfl))
  have r2 := K.reg (GLB_CAL_STATUS.reg) (.inr (.inr (.inl rfl)))
  have t9 : ∀ (s : State) v, P s → P (s.putCal v) := K.upd 9 rfl
  unfold State.calStart
  repeat' (first
    | with_reducible assumption
    | with_reducible (first | apply State.raiseEvent_keeps k0 | apply bump_keeps | apply setFlag_keeps | apply setFld_keeps | apply foldl_keeps | apply foldl_keeps_pair | apply t9)
    | with_reducible exact r0 _
    | with_reducible exact r1
    | with_reducible exact r2
    | intro _ _ _ _
    | intro _ _ _
    | intro _ _
    | with_reducible (first | apply ite_keeps | apply ite_keeps_pair)
    | dsimp only
    | split
    | with_reducible (first | apply r0 | apply r1 | apply r2))

/-- Registers `State.calAbort` may write. -/
def State.calAbort_offs (o : Nat) : Prop :=
  o = GLB_CAL_ABORT_COUNT.reg ∨ o = GLB_CAL_STATUS.reg ∨ State.raiseEvent_offs o

theorem State.calAbort_keeps {P : State → Prop} (K : Keeps P 0x440000210 State.calAbort_offs) {s : State} (hs : P s) :
    P (State.calAbort s) := by
  have k0 : Keeps P 0x440000010 State.raiseEvent_offs := K.sub rfl (fun _ h => .inr (.inr (h)))
  have k1 : Keeps P 0x200 (fun _ => False) := K.sub rfl (fun _ h => h.elim)
  have r0 := K.reg (GLB_CAL_ABORT_COUNT.reg) (.inl rfl)
  have r1 := K.reg (GLB_CAL_STATUS.reg) (.inr (.inl rfl))
  unfold State.calAbort
  repeat' (first
    | with_reducible assumption
    | with_reducible (first | apply State.raiseEvent_keeps k0 | apply State.setCalRun_keeps k1 | apply bump_keeps | apply setFlag_keeps)
    | with_reducible exact r0
    | with_reducible exact r1
    | intro _ _ _ _
    | intro _ _ _
    | intro _ _
    | with_reducible (first | apply ite_keeps | apply ite_keeps_pair)
    | dsimp only
    | split
    | with_reducible (first | apply r0 | apply r1))

theorem State.calTempTest_keeps {P : State → Prop} (K : Keeps P 0x200 (fun _ => False)) {s : State} (hs : P s) :
    P (State.calTempTest s) := by
  have t9 : ∀ (s : State) v, P s → P (s.putCal v) := K.upd 9 rfl
  unfold State.calTempTest
  repeat' (first
    | with_reducible assumption
    | with_reducible (first | apply t9)
    | intro _ _ _ _
    | intro _ _ _
    | intro _ _
    | with_reducible (first | apply ite_keeps | apply ite_keeps_pair)
    | dsimp only
    | split)

/-- Registers `State.calResults` may write. -/
def State.calResults_offs (_o : Nat) : Prop :=
  True

theorem State.calResults_keeps {P : State → Prop} (K : Keeps P 0x0 State.calResults_offs) {s : State} (vs : List (Nat × Word)) (hs : P s) :
    P (State.calResults s vs).1 := by
  have ra : ∀ o s w, P s → P (State.setReg s o w) := fun o => K.reg o trivial
  unfold State.calResults
  repeat' (first
    | with_reducible assumption
    | with_reducible (first | apply setReg_keeps | apply foldl_keeps | apply foldl_keeps_pair)
    | with_reducible exact ra _
    | intro _ _ _ _
    | intro _ _ _
    | intro _ _
    | with_reducible (first | apply ite_keeps | apply ite_keeps_pair)
    | dsimp only
    | split
    | with_reducible (first | apply ra))

/-- Registers `State.calPortStatus` may write. -/
def State.calPortStatus_offs (o : Nat) : Prop :=
  (∃ n, o = PRT_CAL_STATUS.reg n)

theorem State.calPortStatus_keeps {P : State → Prop} (K : Keeps P 0x0 State.calPortStatus_offs) {s : State} (r : CalRun) (sat : Nat) (n : Nat) (hs : P s) :
    P (State.calPortStatus s r sat n) := by
  have r0 := fun n => K.reg (PRT_CAL_STATUS.reg n) (⟨n, rfl⟩)
  unfold State.calPortStatus
  repeat' (first
    | with_reducible assumption
    | with_reducible (first | apply setFlag_keeps | apply setFld_keeps)
    | with_reducible exact r0 _
    | intro _ _ _ _
    | intro _ _ _
    | intro _ _
    | with_reducible (first | apply ite_keeps | apply ite_keeps_pair)
    | dsimp only
    | split
    | with_reducible (first | apply r0))

/-- Registers `State.calFinish` may write. -/
def State.calFinish_offs (o : Nat) : Prop :=
  o = GLB_CAL_MISSING.reg ∨ o = GLB_CAL_STATUS.reg ∨ State.calPortStatus_offs o ∨ State.calResults_offs o ∨
    State.raiseEvent_offs o

theorem State.calFinish_keeps {P : State → Prop} (K : Keeps P 0x440000210 State.calFinish_offs) {s : State} (r : CalRun) (timeout : Bool) (vs : List (Nat × Word)) (devMissing : Nat) (sat : Nat) (devSat : Bool) (hs : P s) :
    P (State.calFinish s r timeout vs devMissing sat devSat) := by
  have k0 : Keeps P 0x0 State.calPortStatus_offs := K.sub rfl (fun _ h => .inr (.inr (.inl h)))
  have k1 : Keeps P 0x0 State.calResults_offs := K.sub rfl (fun _ h => .inr (.inr (.inr (.inl h))))
  have k2 : Keeps P 0x200 (fun _ => False) := K.sub rfl (fun _ h => h.elim)
  have k3 : Keeps P 0x440000010 State.raiseEvent_offs := K.sub rfl (fun _ h => .inr (.inr (.inr (.inr (h)))))
  have k4 : Keeps P 0x200 (fun _ => False) := K.sub rfl (fun _ h => h.elim)
  have r0 := K.reg (GLB_CAL_MISSING.reg) (.inl rfl)
  have r1 := K.reg (GLB_CAL_STATUS.reg) (.inr (.inl rfl))
  have t9 : ∀ (s : State) v, P s → P (s.putCal v) := K.upd 9 rfl
  unfold State.calFinish
  repeat' (first
    | with_reducible assumption
    | with_reducible (first | apply State.calPortStatus_keeps k0 | apply State.calResults_keeps k1 | apply State.calTempTest_keeps k2 | apply State.raiseEvent_keeps k3 | apply State.setCalRun_keeps k4 | apply setFlag_keeps | apply setFld_keeps | apply foldl_keeps | apply foldl_keeps_pair | apply t9)
    | with_reducible exact r0
    | with_reducible exact r1
    | (apply fst_keeps (by assumption))
    | intro _ _ _ _
    | intro _ _ _
    | intro _ _
    | with_reducible (first | apply ite_keeps | apply ite_keeps_pair)
    | dsimp only
    | split
    | with_reducible (first | apply r0 | apply r1))

/-- Registers `State.calChange` may write. -/
def State.calChange_offs (o : Nat) : Prop :=
  o = GLB_CAL_APPLY_ROUND_LO.reg ∨ o = GLB_CAL_APPLY_ROUND_LO.reg + 4 ∨ o = GLB_CAL_STATUS.reg

theorem State.calChange_keeps {P : State → Prop} (K : Keeps P 0x300 State.calChange_offs) {s : State} (set : SMap Word) (origin : Nat) (hs : P s) :
    P (State.calChange s set origin) := by
  have r0 := K.reg (GLB_CAL_APPLY_ROUND_LO.reg) (.inl rfl)
  have r1 := K.reg (GLB_CAL_APPLY_ROUND_LO.reg + 4) (.inr (.inl rfl))
  have r2 := K.reg (GLB_CAL_STATUS.reg) (.inr (.inr (rfl)))
  have t8 : ∀ (s : State) v, P s → P (s.putSched v) := K.upd 8 rfl
  have t9 : ∀ (s : State) v, P s → P (s.putCal v) := K.upd 9 rfl
  unfold State.calChange
  repeat' (first
    | with_reducible assumption
    | with_reducible (first | apply setFld_keeps | apply setReg64_keeps | apply t8 | apply t9)
    | with_reducible exact r0
    | with_reducible exact r1
    | with_reducible exact r2
    | intro _ _ _ _
    | intro _ _ _
    | intro _ _
    | with_reducible (first | apply ite_keeps | apply ite_keeps_pair)
    | dsimp only
    | split
    | with_reducible (first | apply r0 | apply r1 | apply r2))

/-- Registers `State.calDrop` may write. -/
def State.calDrop_offs (o : Nat) : Prop :=
  o = GLB_CAL_STATUS.reg

theorem State.calDrop_keeps {P : State → Prop} (K : Keeps P 0x200 State.calDrop_offs) {s : State} (hs : P s) :
    P (State.calDrop s) := by
  have r0 := K.reg (GLB_CAL_STATUS.reg) (rfl)
  have t9 : ∀ (s : State) v, P s → P (s.putCal v) := K.upd 9 rfl
  unfold State.calDrop
  repeat' (first
    | with_reducible assumption
    | with_reducible (first | apply setFlag_keeps | apply t9)
    | with_reducible exact r0
    | intro _ _ _ _
    | intro _ _ _
    | intro _ _
    | with_reducible (first | apply ite_keeps | apply ite_keeps_pair)
    | dsimp only
    | split
    | with_reducible (first | apply r0))

/-- Registers `State.calApply` may write. -/
def State.calApply_offs (o : Nat) : Prop :=
  State.calChange_offs o ∨ State.calDrop_offs o

theorem State.calApply_keeps {P : State → Prop} (K : Keeps P 0x300 State.calApply_offs) {s : State} (hs : P s) :
    P (State.calApply s) := by
  have k0 : Keeps P 0x300 State.calChange_offs := K.sub rfl (fun _ h => .inl h)
  have k1 : Keeps P 0x200 State.calDrop_offs := K.sub rfl (fun _ h => .inr (h))
  unfold State.calApply
  repeat' (first
    | with_reducible assumption
    | with_reducible (first | apply State.calChange_keeps k0 | apply State.calDrop_keeps k1)
    | intro _ _ _ _
    | intro _ _ _
    | intro _ _
    | with_reducible (first | apply ite_keeps | apply ite_keeps_pair)
    | dsimp only
    | split)

/-- Registers `State.calPin` may write. -/
def State.calPin_offs (o : Nat) : Prop :=
  o = GLB_CAL_STATUS.reg ∨ State.calDrop_offs o

theorem State.calPin_keeps {P : State → Prop} (K : Keeps P 0x200 State.calPin_offs) {s : State} (on : Bool) (hs : P s) :
    P (State.calPin s on) := by
  have k0 : Keeps P 0x200 State.calDrop_offs := K.sub rfl (fun _ h => .inr (h))
  have r0 := K.reg (GLB_CAL_STATUS.reg) (.inl rfl)
  unfold State.calPin
  repeat' (first
    | with_reducible assumption
    | with_reducible (first | apply State.calDrop_keeps k0 | apply setFlag_keeps)
    | with_reducible exact r0
    | intro _ _ _ _
    | intro _ _ _
    | intro _ _
    | with_reducible (first | apply ite_keeps | apply ite_keeps_pair)
    | dsimp only
    | split
    | with_reducible (first | apply r0))

/-- Registers `State.calRestore` may write. -/
def State.calRestore_offs (o : Nat) : Prop :=
  State.calChange_offs o ∨ State.calDrop_offs o

theorem State.calRestore_keeps {P : State → Prop} (K : Keeps P 0x300 State.calRestore_offs) {s : State} (startup : Bool) (hs : P s) :
    P (State.calRestore s startup) := by
  have k0 : Keeps P 0x300 State.calChange_offs := K.sub rfl (fun _ h => .inl h)
  have k1 : Keeps P 0x200 State.calDrop_offs := K.sub rfl (fun _ h => .inr (h))
  unfold State.calRestore
  repeat' (first
    | with_reducible assumption
    | with_reducible (first | apply State.calChange_keeps k0 | apply State.calDrop_keeps k1)
    | intro _ _ _ _
    | intro _ _ _
    | intro _ _
    | with_reducible (first | apply ite_keeps | apply ite_keeps_pair)
    | dsimp only
    | split)

end Sys2Proof.Machine
end

