-- ==== Sys2Proof/Laws/KComplete.lean ====
section
/-!
SUPPORT. What the operations of Sys2Proof.Machine.Complete keep, and the registers they may write.
-/
namespace Sys2Proof.Machine

/-- Registers `State.complete` may write. -/
def State.complete_offs (o : Nat) : Prop :=
  o = HIF_CMD_ERR_COUNT.reg ∨ State.pushRecord_offs o ∨ State.raiseEvent_offs o

theorem State.complete_keeps {P : State → Prop} (K : Keeps P 0x440000010 State.complete_offs) {s : State} (opcode : Nat) (tag : Nat) (index : Nat) (round : Nat) (r : CmdRes) (hs : P s) :
    P (State.complete s opcode tag index round r) := by
  have k0 : Keeps P 0x40000010 State.pushRecord_offs := K.sub rfl (fun _ h => .inr (.inl h))
  have k1 : Keeps P 0x440000010 State.raiseEvent_offs := K.sub rfl (fun _ h => .inr (.inr (h)))
  have r0 := K.reg (HIF_CMD_ERR_COUNT.reg) (.inl rfl)
  unfold State.complete
  repeat' (first
    | with_reducible assumption
    | with_reducible (first | apply State.pushRecord_keeps k0 | apply State.raiseEvent_keeps k1 | apply bump_keeps)
    | with_reducible exact r0
    | intro _ _ _ _
    | intro _ _ _
    | intro _ _
    | with_reducible (first | apply ite_keeps | apply ite_keeps_pair)
    | dsimp only
    | split
    | with_reducible (first | apply r0))

/-- Registers `State.completeCmd` may write. -/
def State.completeCmd_offs (o : Nat) : Prop :=
  State.complete_offs o

theorem State.completeCmd_keeps {P : State → Prop} (K : Keeps P 0x440000010 State.completeCmd_offs) {s : State} (c : PendCmd) (round : Nat) (r : CmdRes) (hs : P s) :
    P (State.completeCmd s c round r) := by
  have k0 : Keeps P 0x440000010 State.complete_offs := K.sub rfl (fun _ h => h)
  unfold State.completeCmd
  repeat' (first
    | with_reducible assumption
    | with_reducible (first | apply State.complete_keeps k0)
    | intro _ _ _ _
    | intro _ _ _
    | intro _ _
    | with_reducible (first | apply ite_keeps | apply ite_keeps_pair)
    | dsimp only
    | split)

/-- Registers `State.completeAll` may write. -/
def State.completeAll_offs (o : Nat) : Prop :=
  State.completeCmd_offs o

theorem State.completeAll_keeps {P : State → Prop} (K : Keeps P 0x440000010 State.completeAll_offs) {s : State} (round : Nat) (r : CmdRes) (a0 : List PendCmd) (hs : P s) :
    P (State.completeAll s round r a0) := by
  have k0 : Keeps P 0x440000010 State.completeCmd_offs := K.sub rfl (fun _ h => h)
  induction a0 generalizing s round r with
  | nil =>
    unfold State.completeAll
    repeat' (first
      | with_reducible assumption
      | with_reducible (first | apply State.completeCmd_keeps k0)
      | intro _ _ _ _
      | intro _ _ _
      | intro _ _
      | with_reducible (first | apply ite_keeps | apply ite_keeps_pair)
      | dsimp only
      | split)
  | cons _ _ ih =>
    unfold State.completeAll
    repeat' (first
      | with_reducible assumption
      | with_reducible apply ih
      | with_reducible (first | apply State.completeCmd_keeps k0)
      | intro _ _ _ _
      | intro _ _ _
      | intro _ _
      | with_reducible (first | apply ite_keeps | apply ite_keeps_pair)
      | dsimp only
      | split)

/-- Registers `State.clearPending` may write. -/
def State.clearPending_offs (o : Nat) : Prop :=
  o = LCH_PENDING.reg

theorem State.clearPending_keeps {P : State → Prop} (K : Keeps P 0x100 State.clearPending_offs) {s : State} (hs : P s) :
    P (State.clearPending s) := by
  have r0 := K.reg (LCH_PENDING.reg) (rfl)
  have t8 : ∀ (s : State) v, P s → P (s.putSched v) := K.upd 8 rfl
  unfold State.clearPending
  repeat' (first
    | with_reducible assumption
    | with_reducible (first | apply setNat_keeps | apply t8)
    | with_reducible exact r0
    | intro _ _ _ _
    | intro _ _ _
    | intro _ _
    | with_reducible (first | apply ite_keeps | apply ite_keeps_pair)
    | dsimp only
    | split
    | with_reducible (first | apply r0))

/-- Registers `State.completeWhere` may write. -/
def State.completeWhere_offs (o : Nat) : Prop :=
  State.clearPending_offs o ∨ State.completeAll_offs o

theorem State.completeWhere_keeps {P : State → Prop} (K : Keeps P 0x440000110 State.completeWhere_offs) {s : State} (p : PendCmd → Bool) (round : Nat) (r : CmdRes) (hs : P s) :
    P (State.completeWhere s p round r) := by
  have k0 : Keeps P 0x100 State.clearPending_offs := K.sub rfl (fun _ h => .inl h)
  have k1 : Keeps P 0x440000010 State.completeAll_offs := K.sub rfl (fun _ h => .inr (h))
  have t4 : ∀ (s : State) v, P s → P (s.putHif v) := K.upd 4 rfl
  unfold State.completeWhere
  repeat' (first
    | with_reducible assumption
    | with_reducible (first | apply State.clearPending_keeps k0 | apply State.completeAll_keeps k1 | apply t4)
    | intro _ _ _ _
    | intro _ _ _
    | intro _ _
    | with_reducible (first | apply ite_keeps | apply ite_keeps_pair)
    | dsimp only
    | split)

end Sys2Proof.Machine
end

