-- ==== Sys2Proof/Laws/KEvr.lean ====
section
/-!
SUPPORT. What the operations of Sys2Proof.Machine.Evr keep, and the registers they may write.
-/
namespace Sys2Proof.Machine

/-- Registers `State.enqueueRec` may write. -/
def State.enqueueRec_offs (o : Nat) : Prop :=
  o = EVR_LOST_COUNT.reg

theorem State.enqueueRec_keeps {P : State → Prop} (K : Keeps P 0x20 State.enqueueRec_offs) {s : State} (r : EvrRec) (hs : P s) :
    P (State.enqueueRec s r) := by
  have r0 := K.reg (EVR_LOST_COUNT.reg) (rfl)
  have t5 : ∀ (s : State) v, (Memory.wf 0 s.evr.mem = true → Memory.wf 0 v.mem = true) → P s → P (s.putEvr v) := K.upd 5 rfl
  unfold State.enqueueRec
  repeat' (first
    | with_reducible assumption
    | with_reducible (first | apply bump_keeps | apply t5)
    | with_reducible exact r0
    | with_reducible_and_instances (first | exact fun h => h | exact fun h => Memory.setBytes_wf _ _ h | exact fun h => SMap.put_wf _ _ h | exact fun h => Memory.clearRange_wf _ _ h | exact fun _ => rfl | exact fun h => Memory.setByte_wf _ _ h | exact fun h => Memory.setBytes_wf _ _ (Memory.setBytes_wf _ _ h) | exact fun h => Memory.clearRange_wf _ _ (Memory.clearRange_wf _ _ h) | exact fun h => SMap.filter_wf _ h)
    | exact fun h => SMap.put_wf _ _ h
    | exact fun _ => SMap.nil_wf
    | intro _ _ _ _
    | intro _ _ _
    | intro _ _
    | with_reducible (first | apply ite_keeps | apply ite_keeps_pair)
    | dsimp only
    | split
    | with_reducible (first | apply r0))

/-- Registers `State.record` may write. -/
def State.record_offs (o : Nat) : Prop :=
  State.enqueueRec_offs o

theorem State.record_keeps {P : State → Prop} (K : Keeps P 0x20 State.record_offs) {s : State} (cause : Nat) (detail : Nat) (suppressed : Nat) (hs : P s) :
    P (State.record s cause detail suppressed) := by
  have k0 : Keeps P 0x20 State.enqueueRec_offs := K.sub rfl (fun _ h => h)
  unfold State.record
  repeat' (first
    | with_reducible assumption
    | with_reducible (first | apply State.enqueueRec_keeps k0)
    | intro _ _ _ _
    | intro _ _ _
    | intro _ _
    | with_reducible (first | apply ite_keeps | apply ite_keeps_pair)
    | dsimp only
    | split)

/-- Registers `State.writeRecord` may write. -/
def State.writeRecord_offs (o : Nat) : Prop :=
  o = EVR_STATUS.reg ∨ o = EVR_WRITE_COUNT.reg ∨ State.raiseEvent_offs o

theorem State.writeRecord_keeps {P : State → Prop} (K : Keeps P 0x440000030 State.writeRecord_offs) {s : State} (fail : Option (List Byte)) (hs : P s) :
    P (State.writeRecord s fail).1 := by
  have k0 : Keeps P 0x440000010 State.raiseEvent_offs := K.sub rfl (fun _ h => .inr (.inr (h)))
  have r0 := K.reg (EVR_STATUS.reg) (.inl rfl)
  have r1 := K.reg (EVR_WRITE_COUNT.reg) (.inr (.inl rfl))
  have t5 : ∀ (s : State) v, (Memory.wf 0 s.evr.mem = true → Memory.wf 0 v.mem = true) → P s → P (s.putEvr v) := K.upd 5 rfl
  unfold State.writeRecord
  repeat' (first
    | with_reducible assumption
    | with_reducible (first | apply State.raiseEvent_keeps k0 | apply bump_keeps | apply setFlag_keeps | apply t5)
    | with_reducible exact r0
    | with_reducible exact r1
    | with_reducible_and_instances (first | exact fun h => h | exact fun h => Memory.setBytes_wf _ _ h | exact fun h => SMap.put_wf _ _ h | exact fun h => Memory.clearRange_wf _ _ h | exact fun _ => rfl | exact fun h => Memory.setByte_wf _ _ h | exact fun h => Memory.setBytes_wf _ _ (Memory.setBytes_wf _ _ h) | exact fun h => Memory.clearRange_wf _ _ (Memory.clearRange_wf _ _ h) | exact fun h => SMap.filter_wf _ h)
    | exact fun h => SMap.put_wf _ _ h
    | exact fun _ => SMap.nil_wf
    | intro _ _ _ _
    | intro _ _ _
    | intro _ _
    | with_reducible (first | apply ite_keeps | apply ite_keeps_pair)
    | dsimp only
    | split
    | with_reducible (first | apply r0 | apply r1))

/-- Registers `State.snapAtStart` may write. -/
def State.snapAtStart_offs (o : Nat) : Prop :=
  State.record_offs o

theorem State.snapAtStart_keeps {P : State → Prop} (K : Keeps P 0x20 State.snapAtStart_offs) {s : State} (hs : P s) :
    P (State.snapAtStart s) := by
  have k0 : Keeps P 0x20 State.record_offs := K.sub rfl (fun _ h => h)
  have t5 : ∀ (s : State) v, (Memory.wf 0 s.evr.mem = true → Memory.wf 0 v.mem = true) → P s → P (s.putEvr v) := K.upd 5 rfl
  unfold State.snapAtStart
  repeat' (first
    | with_reducible assumption
    | with_reducible (first | apply State.record_keeps k0 | apply t5)
    | with_reducible_and_instances (first | exact fun h => h | exact fun h => Memory.setBytes_wf _ _ h | exact fun h => SMap.put_wf _ _ h | exact fun h => Memory.clearRange_wf _ _ h | exact fun _ => rfl | exact fun h => Memory.setByte_wf _ _ h | exact fun h => Memory.setBytes_wf _ _ (Memory.setBytes_wf _ _ h) | exact fun h => Memory.clearRange_wf _ _ (Memory.clearRange_wf _ _ h) | exact fun h => SMap.filter_wf _ h)
    | exact fun h => SMap.put_wf _ _ h
    | exact fun _ => SMap.nil_wf
    | intro _ _ _ _
    | intro _ _ _
    | intro _ _
    | with_reducible (first | apply ite_keeps | apply ite_keeps_pair)
    | dsimp only
    | split)

end Sys2Proof.Machine
end

