-- ==== Sys2Proof/Laws/KFuvon.lean ====
section
/-!
SUPPORT. What the operations of Sys2Proof.Machine.Fuvon keep, and the registers they may write.
-/
namespace Sys2Proof.Machine

theorem State.sendCopies_keeps {P : State → Prop} (K : Keeps P 0x40000000 (fun _ => False)) {s : State} (lane : Nat) (seq : Nat) (m : LinkMsg) (a0 : Nat) (a1 : List Bool) (hs : P s) :
    P (State.sendCopies s lane seq m a0 a1) := by
  have te : ∀ (s : State) (e : Emission), P s → P (s.emit e) := K.upd 30 rfl
  induction a0 generalizing s lane seq m a1 with
  | zero =>
    unfold State.sendCopies
    repeat' (first
      | with_reducible assumption
      | with_reducible (first | apply te)
      | intro _ _ _ _
      | intro _ _ _
      | intro _ _
      | with_reducible (first | apply ite_keeps | apply ite_keeps_pair)
      | dsimp only
      | split)
  | succ _ ih =>
    unfold State.sendCopies
    repeat' (first
      | with_reducible assumption
      | with_reducible apply ih
      | with_reducible (first | apply te)
      | intro _ _ _ _
      | intro _ _ _
      | intro _ _
      | with_reducible (first | apply ite_keeps | apply ite_keeps_pair)
      | dsimp only
      | split)

theorem State.sendOn_keeps {P : State → Prop} (K : Keeps P 0xc0000000 (fun _ => False)) {s : State} (seq : Nat) (m : LinkMsg) (n : Nat) (lane : Nat) (hs : P s) :
    P (State.sendOn s seq m n lane) := by
  have k0 : Keeps P 0x80000000 (fun _ => False) := K.sub rfl (fun _ h => h.elim)
  have k1 : Keeps P 0x40000000 (fun _ => False) := K.sub rfl (fun _ h => h.elim)
  unfold State.sendOn
  repeat' (first
    | with_reducible assumption
    | with_reducible (first | apply State.drawFree_keeps k0 | apply State.sendCopies_keeps k1)
    | intro _ _ _ _
    | intro _ _ _
    | intro _ _
    | with_reducible (first | apply ite_keeps | apply ite_keeps_pair)
    | dsimp only
    | split)

theorem State.sendAll_keeps {P : State → Prop} (K : Keeps P 0xc0004000 (fun _ => False)) {s : State} (m : LinkMsg) (n : Nat) (hs : P s) :
    P (State.sendAll s m n) := by
  have k0 : Keeps P 0xc0000000 (fun _ => False) := K.sub rfl (fun _ h => h.elim)
  have t14 : ∀ (s : State) v, (Memory.wf 0 s.mlk.pbase = true → Memory.wf 0 v.pbase = true) → P s → P (s.putMlk v) := K.upd 14 rfl
  unfold State.sendAll
  repeat' (first
    | with_reducible assumption
    | with_reducible (first | apply State.sendOn_keeps k0 | apply foldl_keeps | apply foldl_keeps_pair | apply t14)
    | with_reducible_and_instances (first | exact fun h => h | exact fun h => Memory.setBytes_wf _ _ h | exact fun h => SMap.put_wf _ _ h | exact fun h => Memory.clearRange_wf _ _ h | exact fun _ => rfl | exact fun h => Memory.setByte_wf _ _ h | exact fun h => Memory.setBytes_wf _ _ (Memory.setBytes_wf _ _ h) | exact fun h => Memory.clearRange_wf _ _ (Memory.clearRange_wf _ _ h) | exact fun h => SMap.filter_wf _ h)
    | exact fun h => SMap.put_wf _ _ h
    | exact fun _ => SMap.nil_wf
    | intro _ _ _ _
    | intro _ _ _
    | intro _ _
    | with_reducible (first | apply ite_keeps | apply ite_keeps_pair)
    | dsimp only
    | split)

theorem State.sendOne_keeps {P : State → Prop} (K : Keeps P 0xc0000000 (fun _ => False)) {s : State} (seq : Nat) (m : LinkMsg) (hs : P s) :
    P (State.sendOne s seq m) := by
  have k0 : Keeps P 0x80000000 (fun _ => False) := K.sub rfl (fun _ h => h.elim)
  have k1 : Keeps P 0xc0000000 (fun _ => False) := K.sub rfl (fun _ h => h.elim)
  unfold State.sendOne
  repeat' (first
    | with_reducible assumption
    | with_reducible (first | apply State.drawFree_keeps k0 | apply State.sendOn_keeps k1)
    | intro _ _ _ _
    | intro _ _ _
    | intro _ _
    | with_reducible (first | apply ite_keeps | apply ite_keeps_pair)
    | dsimp only
    | split)

/-- Registers `State.sendFault` may write. -/
def State.sendFault_offs (o : Nat) : Prop :=
  o = MLK_FAULT_TX_COUNT.reg

theorem State.sendFault_keeps {P : State → Prop} (K : Keeps P 0xc0004000 State.sendFault_offs) {s : State} (safe : Bool) (cause : Nat) (port : Nat) (hs : P s) :
    P (State.sendFault s safe cause port) := by
  have k0 : Keeps P 0xc0004000 (fun _ => False) := K.sub rfl (fun _ h => h.elim)
  have r0 := K.reg (MLK_FAULT_TX_COUNT.reg) (rfl)
  unfold State.sendFault
  repeat' (first
    | with_reducible assumption
    | with_reducible (first | apply State.sendAll_keeps k0 | apply bump_keeps)
    | with_reducible exact r0
    | intro _ _ _ _
    | intro _ _ _
    | intro _ _
    | with_reducible (first | apply ite_keeps | apply ite_keeps_pair)
    | dsimp only
    | split
    | with_reducible (first | apply r0))

theorem State.sendIdentity_keeps {P : State → Prop} (K : Keeps P 0xc0004000 (fun _ => False)) {s : State} (hs : P s) :
    P (State.sendIdentity s) := by
  have k0 : Keeps P 0xc0004000 (fun _ => False) := K.sub rfl (fun _ h => h.elim)
  unfold State.sendIdentity
  repeat' (first
    | with_reducible assumption
    | with_reducible (first | apply State.sendAll_keeps k0)
    | intro _ _ _ _
    | intro _ _ _
    | intro _ _
    | with_reducible (first | apply ite_keeps | apply ite_keeps_pair)
    | dsimp only
    | split)

theorem State.setLane_keeps {P : State → Prop} (K : Keeps P 0x4000 (fun _ => False)) {s : State} (l : Nat) (x : LaneSt) (hs : P s) :
    P (State.setLane s l x) := by
  have t14 : ∀ (s : State) v, (Memory.wf 0 s.mlk.pbase = true → Memory.wf 0 v.pbase = true) → P s → P (s.putMlk v) := K.upd 14 rfl
  unfold State.setLane
  repeat' (first
    | with_reducible assumption
    | with_reducible (first | apply t14)
    | with_reducible_and_instances (first | exact fun h => h | exact fun h => Memory.setBytes_wf _ _ h | exact fun h => SMap.put_wf _ _ h | exact fun h => Memory.clearRange_wf _ _ h | exact fun _ => rfl | exact fun h => Memory.setByte_wf _ _ h | exact fun h => Memory.setBytes_wf _ _ (Memory.setBytes_wf _ _ h) | exact fun h => Memory.clearRange_wf _ _ (Memory.clearRange_wf _ _ h) | exact fun h => SMap.filter_wf _ h)
    | exact fun h => SMap.put_wf _ _ h
    | exact fun _ => SMap.nil_wf
    | intro _ _ _ _
    | intro _ _ _
    | intro _ _
    | with_reducible (first | apply ite_keeps | apply ite_keeps_pair)
    | dsimp only
    | split)

theorem State.laneTakes_keeps {P : State → Prop} (K : Keeps P 0x4000 (fun _ => False)) {s : State} (l : Nat) (hs : P s) :
    P (State.laneTakes s l).1 := by
  have k0 : Keeps P 0x4000 (fun _ => False) := K.sub rfl (fun _ h => h.elim)
  unfold State.laneTakes
  repeat' (first
    | with_reducible assumption
    | with_reducible (first | apply State.setLane_keeps k0)
    | intro _ _ _ _
    | intro _ _ _
    | intro _ _
    | with_reducible (first | apply ite_keeps | apply ite_keeps_pair)
    | dsimp only
    | split)

theorem State.receive_keeps {P : State → Prop} (K : Keeps P 0x4000 (fun _ => False)) {s : State} (type : Nat) (l : Nat) (seq : Nat) (hs : P s) :
    P (State.receive s type l seq).1 := by
  have k0 : Keeps P 0x4000 (fun _ => False) := K.sub rfl (fun _ h => h.elim)
  have t14 : ∀ (s : State) v, (Memory.wf 0 s.mlk.pbase = true → Memory.wf 0 v.pbase = true) → P s → P (s.putMlk v) := K.upd 14 rfl
  unfold State.receive
  repeat' (first
    | with_reducible assumption
    | with_reducible (first | apply State.laneTakes_keeps k0 | apply t14)
    | with_reducible_and_instances (first | exact fun h => h | exact fun h => Memory.setBytes_wf _ _ h | exact fun h => SMap.put_wf _ _ h | exact fun h => Memory.clearRange_wf _ _ h | exact fun _ => rfl | exact fun h => Memory.setByte_wf _ _ h | exact fun h => Memory.setBytes_wf _ _ (Memory.setBytes_wf _ _ h) | exact fun h => Memory.clearRange_wf _ _ (Memory.clearRange_wf _ _ h) | exact fun h => SMap.filter_wf _ h)
    | exact fun h => SMap.put_wf _ _ h
    | exact fun _ => SMap.nil_wf
    | (apply fst_keeps (by assumption))
    | intro _ _ _ _
    | intro _ _ _
    | intro _ _
    | with_reducible (first | apply ite_keeps | apply ite_keeps_pair)
    | dsimp only
    | split)

theorem State.laneError_keeps {P : State → Prop} (K : Keeps P 0x4000 (fun _ => False)) {s : State} (l : Nat) (frame : Nat) (hs : P s) :
    P (State.laneError s l frame) := by
  have k0 : Keeps P 0x4000 (fun _ => False) := K.sub rfl (fun _ h => h.elim)
  unfold State.laneError
  repeat' (first
    | with_reducible assumption
    | with_reducible (first | apply State.setLane_keeps k0)
    | intro _ _ _ _
    | intro _ _ _
    | intro _ _
    | with_reducible (first | apply ite_keeps | apply ite_keeps_pair)
    | dsimp only
    | split)

theorem State.latchEq_keeps {P : State → Prop} (K : Keeps P 0x4000 (fun _ => False)) {s : State} (hs : P s) :
    P (State.latchEq s) := by
  have t14 : ∀ (s : State) v, (Memory.wf 0 s.mlk.pbase = true → Memory.wf 0 v.pbase = true) → P s → P (s.putMlk v) := K.upd 14 rfl
  unfold State.latchEq
  repeat' (first
    | with_reducible assumption
    | with_reducible (first | apply t14)
    | with_reducible_and_instances (first | exact fun h => h | exact fun h => Memory.setBytes_wf _ _ h | exact fun h => SMap.put_wf _ _ h | exact fun h => Memory.clearRange_wf _ _ h | exact fun _ => rfl | exact fun h => Memory.setByte_wf _ _ h | exact fun h => Memory.setBytes_wf _ _ (Memory.setBytes_wf _ _ h) | exact fun h => Memory.clearRange_wf _ _ (Memory.clearRange_wf _ _ h) | exact fun h => SMap.filter_wf _ h)
    | exact fun h => SMap.put_wf _ _ h
    | exact fun _ => SMap.nil_wf
    | intro _ _ _ _
    | intro _ _ _
    | intro _ _
    | with_reducible (first | apply ite_keeps | apply ite_keeps_pair)
    | dsimp only
    | split)

/-- Registers `State.linkWake` may write. -/
def State.linkWake_offs (o : Nat) : Prop :=
  o = MLK_LINK_STATUS.reg

theorem State.linkWake_keeps {P : State → Prop} (K : Keeps P 0x4000 State.linkWake_offs) {s : State} (hs : P s) :
    P (State.linkWake s) := by
  have k0 : Keeps P 0x4000 (fun _ => False) := K.sub rfl (fun _ h => h.elim)
  have r0 := K.reg (MLK_LINK_STATUS.reg) (rfl)
  unfold State.linkWake
  repeat' (first
    | with_reducible assumption
    | with_reducible (first | apply State.latchEq_keeps k0 | apply setFld_keeps)
    | with_reducible exact r0
    | intro _ _ _ _
    | intro _ _ _
    | intro _ _
    | with_reducible (first | apply ite_keeps | apply ite_keeps_pair)
    | dsimp only
    | split
    | with_reducible (first | apply r0))

end Sys2Proof.Machine
end

