-- ==== Sys2Proof/Laws/KSafetyFn.lean ====
section
/-!
SUPPORT. What the operations of Sys2Proof.Machine.SafetyFn keep, and the registers they may write.
-/
namespace Sys2Proof.Machine

/-- Registers `State.alarmCause` may write. -/
def State.alarmCause_offs (o : Nat) : Prop :=
  State.raiseEvent_offs o ∨ State.record_offs o

theorem State.alarmCause_keeps {P : State → Prop} (K : Keeps P 0x440000070 State.alarmCause_offs) {s : State} (c : Nat) (kind : Nat) (id : Nat) (hs : P s) :
    P (State.alarmCause s c kind id) := by
  have k0 : Keeps P 0x440000010 State.raiseEvent_offs := K.sub rfl (fun _ h => .inl h)
  have k1 : Keeps P 0x20 State.record_offs := K.sub rfl (fun _ h => .inr (h))
  have k2 : Keeps P 0x40 (fun _ => False) := K.sub rfl (fun _ h => h.elim)
  unfold State.alarmCause
  repeat' (first
    | with_reducible assumption
    | with_reducible (first | apply State.raiseEvent_keeps k0 | apply State.record_keeps k1 | apply State.setChan_keeps k2)
    | intro _ _ _ _
    | intro _ _ _
    | intro _ _
    | with_reducible (first | apply ite_keeps | apply ite_keeps_pair)
    | dsimp only
    | split)

/-- Registers `State.alarmUnit` may write. -/
def State.alarmUnit_offs (o : Nat) : Prop :=
  State.alarmCause_offs o

theorem State.alarmUnit_keeps {P : State → Prop} (K : Keeps P 0x440000070 State.alarmUnit_offs) {s : State} (kind : Nat) (u : Nat) (hs : P s) :
    P (State.alarmUnit s kind u) := by
  have k0 : Keeps P 0x440000070 State.alarmCause_offs := K.sub rfl (fun _ h => h)
  unfold State.alarmUnit
  repeat' (first
    | with_reducible assumption
    | with_reducible (first | apply State.alarmCause_keeps k0 | apply foldl_keeps | apply foldl_keeps_pair)
    | intro _ _ _ _
    | intro _ _ _
    | intro _ _
    | with_reducible (first | apply ite_keeps | apply ite_keeps_pair)
    | dsimp only
    | split)

/-- Registers `State.breakEdge` may write. -/
def State.breakEdge_offs (o : Nat) : Prop :=
  State.alarmCause_offs o

theorem State.breakEdge_keeps {P : State → Prop} (K : Keeps P 0x440000070 State.breakEdge_offs) {s : State} (c : Nat) (hs : P s) :
    P (State.breakEdge s c) := by
  have k0 : Keeps P 0x440000070 State.alarmCause_offs := K.sub rfl (fun _ h => h)
  have k1 : Keeps P 0x40 (fun _ => False) := K.sub rfl (fun _ h => h.elim)
  unfold State.breakEdge
  repeat' (first
    | with_reducible assumption
    | with_reducible (first | apply State.alarmCause_keeps k0 | apply State.setChan_keeps k1)
    | intro _ _ _ _
    | intro _ _ _
    | intro _ _
    | with_reducible (first | apply ite_keeps | apply ite_keeps_pair)
    | dsimp only
    | split)

/-- Registers `State.degradedRecord` may write. -/
def State.degradedRecord_offs (o : Nat) : Prop :=
  State.raiseEvent_offs o ∨ State.record_offs o

theorem State.degradedRecord_keeps {P : State → Prop} (K : Keeps P 0x440000030 State.degradedRecord_offs) {s : State} (c : Nat) (reason : Nat) (id : Nat) (hs : P s) :
    P (State.degradedRecord s c reason id) := by
  have k0 : Keeps P 0x440000010 State.raiseEvent_offs := K.sub rfl (fun _ h => .inl h)
  have k1 : Keeps P 0x20 State.record_offs := K.sub rfl (fun _ h => .inr (h))
  unfold State.degradedRecord
  repeat' (first
    | with_reducible assumption
    | with_reducible (first | apply State.raiseEvent_keeps k0 | apply State.record_keeps k1)
    | intro _ _ _ _
    | intro _ _ _
    | intro _ _
    | with_reducible (first | apply ite_keeps | apply ite_keeps_pair)
    | dsimp only
    | split)

/-- Registers `State.coverEdge` may write. -/
def State.coverEdge_offs (o : Nat) : Prop :=
  State.degradedRecord_offs o

theorem State.coverEdge_keeps {P : State → Prop} (K : Keeps P 0x440000070 State.coverEdge_offs) {s : State} (c : Nat) (hs : P s) :
    P (State.coverEdge s c) := by
  have k0 : Keeps P 0x440000030 State.degradedRecord_offs := K.sub rfl (fun _ h => h)
  have k1 : Keeps P 0x40 (fun _ => False) := K.sub rfl (fun _ h => h.elim)
  unfold State.coverEdge
  repeat' (first
    | with_reducible assumption
    | with_reducible (first | apply State.degradedRecord_keeps k0 | apply State.setChan_keeps k1)
    | intro _ _ _ _
    | intro _ _ _
    | intro _ _
    | with_reducible (first | apply ite_keeps | apply ite_keeps_pair)
    | dsimp only
    | split)

theorem State.releasePin_keeps {P : State → Prop} (K : Keeps P 0x40 (fun _ => False)) {s : State} (c : Nat) (hs : P s) :
    P (State.releasePin s c) := by
  have k0 : Keeps P 0x40 (fun _ => False) := K.sub rfl (fun _ h => h.elim)
  unfold State.releasePin
  repeat' (first
    | with_reducible assumption
    | with_reducible (first | apply State.setChan_keeps k0)
    | intro _ _ _ _
    | intro _ _ _
    | intro _ _
    | with_reducible (first | apply ite_keeps | apply ite_keeps_pair)
    | dsimp only
    | split)

/-- Registers `State.settle` may write. -/
def State.settle_offs (o : Nat) : Prop :=
  State.breakEdge_offs o ∨ State.coverEdge_offs o

theorem State.settle_keeps {P : State → Prop} (K : Keeps P 0x440000070 State.settle_offs) {s : State} (hs : P s) :
    P (State.settle s) := by
  have k0 : Keeps P 0x440000070 State.breakEdge_offs := K.sub rfl (fun _ h => .inl h)
  have k1 : Keeps P 0x440000070 State.coverEdge_offs := K.sub rfl (fun _ h => .inr (h))
  have k2 : Keeps P 0x40 (fun _ => False) := K.sub rfl (fun _ h => h.elim)
  unfold State.settle
  repeat' (first
    | with_reducible assumption
    | with_reducible (first | apply State.breakEdge_keeps k0 | apply State.coverEdge_keeps k1 | apply State.releasePin_keeps k2)
    | intro _ _ _ _
    | intro _ _ _
    | intro _ _
    | with_reducible (first | apply ite_keeps | apply ite_keeps_pair)
    | dsimp only
    | split)

/-- Registers `State.haltSched` may write. -/
def State.haltSched_offs (o : Nat) : Prop :=
  o = AUX_STATUS.reg

theorem State.haltSched_keeps {P : State → Prop} (K : Keeps P 0x500 State.haltSched_offs) {s : State} (hs : P s) :
    P (State.haltSched s) := by
  have r0 := K.reg (AUX_STATUS.reg) (rfl)
  have t8 : ∀ (s : State) v, P s → P (s.putSched v) := K.upd 8 rfl
  have t10 : ∀ (s : State) v, P s → P (s.putAux v) := K.upd 10 rfl
  unfold State.haltSched
  repeat' (first
    | with_reducible assumption
    | with_reducible (first | apply setFlag_keeps | apply t8 | apply t10)
    | with_reducible exact r0
    | intro _ _ _ _
    | intro _ _ _
    | intro _ _
    | with_reducible (first | apply ite_keeps | apply ite_keeps_pair)
    | dsimp only
    | split
    | with_reducible (first | apply r0))

/-- Registers `State.enterSafe` may write. -/
def State.enterSafe_offs (o : Nat) : Prop :=
  o = GLB_BOOT_STATUS.reg ∨ o = MLK_PAIR_STATUS.reg ∨ o = SAF_SAFE_CAUSE.reg ∨ State.calAbort_offs o ∨
    State.completeWhere_offs o ∨ State.haltSched_offs o ∨ State.linkWake_offs o ∨ State.record_offs o ∨
    State.sendFault_offs o ∨ State.settle_offs o

theorem State.enterSafe_keeps {P : State → Prop} (K : Keeps P 0x4c010c7f4 State.enterSafe_offs) {s : State} (code : Nat) (hs : P s) :
    P (State.enterSafe s code) := by
  have k0 : Keeps P 0x440000210 State.calAbort_offs := K.sub rfl (fun _ h => .inr (.inr (.inr (.inl h))))
  have k1 : Keeps P 0x440000110 State.completeWhere_offs := K.sub rfl (fun _ h => .inr (.inr (.inr (.inr (.inl h)))))
  have k2 : Keeps P 0x100000 (fun _ => False) := K.sub rfl (fun _ h => h.elim)
  have k3 : Keeps P 0x500 State.haltSched_offs := K.sub rfl (fun _ h => .inr (.inr (.inr (.inr (.inr (.inl h))))))
  have k4 : Keeps P 0x4000 State.linkWake_offs := K.sub rfl (fun _ h => .inr (.inr (.inr (.inr (.inr (.inr (.inl h)))))))
  have k5 : Keeps P 0x20 State.record_offs := K.sub rfl (fun _ h => .inr (.inr (.inr (.inr (.inr (.inr (.inr (.inl h))))))))
  have k6 : Keeps P 0xc0004000 State.sendFault_offs := K.sub rfl (fun _ h => .inr (.inr (.inr (.inr (.inr (.inr (.inr (.inr (.inl h)))))))))
  have k7 : Keeps P 0x80 (fun _ => False) := K.sub rfl (fun _ h => h.elim)
  have k8 : Keeps P 0x4 (fun _ => False) := K.sub rfl (fun _ h => h.elim)
  have k9 : Keeps P 0x80 (fun _ => False) := K.sub rfl (fun _ h => h.elim)
  have k10 : Keeps P 0x8000 (fun _ => False) := K.sub rfl (fun _ h => h.elim)
  have k11 : Keeps P 0x440000070 State.settle_offs := K.sub rfl (fun _ h => .inr (.inr (.inr (.inr (.inr (.inr (.inr (.inr (.inr (h))))))))))
  have r0 := K.reg (GLB_BOOT_STATUS.reg) (.inl rfl)
  have r1 := K.reg (MLK_PAIR_STATUS.reg) (.inr (.inl rfl))
  have r2 := K.reg (SAF_SAFE_CAUSE.reg) (.inr (.inr (.inl rfl)))
  have t2 : ∀ (s : State) v, (v.dev = s.ctl.dev ∨ ¬ s.ctl.dev = .safe) → P s → P (s.putCtl v) := K.upd 2 rfl
  have t6 : ∀ (s : State) v, P s → P (s.putSaf v) := K.upd 6 rfl
  unfold State.enterSafe
  repeat' (first
    | with_reducible assumption
    | with_reducible (first | apply State.calAbort_keeps k0 | apply State.completeWhere_keeps k1 | apply State.coreSafe_keeps k2 | apply State.haltSched_keeps k3 | apply State.linkWake_keeps k4 | apply State.record_keeps k5 | apply State.sendFault_keeps k6 | apply State.setBank_keeps k7 | apply State.setDev_keeps k8 | apply State.setGate_keeps k9 | apply State.setUnit_keeps k10 | apply State.settle_keeps k11 | apply setFlag_keeps | apply setNat_keeps | apply foldl_keeps | apply foldl_keeps_pair | apply t2 | apply t6)
    | with_reducible exact r0
    | with_reducible exact r1
    | with_reducible exact r2
    | with_reducible exact Or.inl rfl
    | exact Or.inr (by assumption)
    | intro _ _ _ _
    | intro _ _ _
    | intro _ _
    | with_reducible (first | apply ite_keeps | apply ite_keeps_pair)
    | dsimp only
    | split
    | with_reducible (first | apply r0 | apply r1 | apply r2))

/-- Registers `State.diagReact` may write. -/
def State.diagReact_offs (o : Nat) : Prop :=
  o = SAF_STATUS.reg ∨ State.enterSafe_offs o ∨ State.settle_offs o

theorem State.diagReact_keeps {P : State → Prop} (K : Keeps P 0x4c010c7f4 State.diagReact_offs) {s : State} (d : Nat) (p : Nat) (hs : P s) :
    P (State.diagReact s d p) := by
  have k0 : Keeps P 0x4c010c7f4 State.enterSafe_offs := K.sub rfl (fun _ h => .inr (.inl h))
  have k1 : Keeps P 0x440000070 State.settle_offs := K.sub rfl (fun _ h => .inr (.inr (h)))
  have r0 := K.reg (SAF_STATUS.reg) (.inl rfl)
  unfold State.diagReact
  repeat' (first
    | with_reducible assumption
    | with_reducible (first | apply State.enterSafe_keeps k0 | apply State.settle_keeps k1 | apply setFld_keeps)
    | with_reducible exact r0
    | intro _ _ _ _
    | intro _ _ _
    | intro _ _
    | with_reducible (first | apply ite_keeps | apply ite_keeps_pair)
    | dsimp only
    | split
    | with_reducible (first | apply r0))

/-- Registers `State.transientRecord` may write. -/
def State.transientRecord_offs (o : Nat) : Prop :=
  State.record_offs o

theorem State.transientRecord_keeps {P : State → Prop} (K : Keeps P 0x60 State.transientRecord_offs) {s : State} (d : Nat) (p : Nat) (detail : Nat) (hs : P s) :
    P (State.transientRecord s d p detail) := by
  have k0 : Keeps P 0x20 State.record_offs := K.sub rfl (fun _ h => h)
  have k1 : Keeps P 0x40 (fun _ => False) := K.sub rfl (fun _ h => h.elim)
  unfold State.transientRecord
  repeat' (first
    | with_reducible assumption
    | with_reducible (first | apply State.record_keeps k0 | apply State.setDiag_keeps k1)
    | intro _ _ _ _
    | intro _ _ _
    | intro _ _
    | with_reducible (first | apply ite_keeps | apply ite_keeps_pair)
    | dsimp only
    | split)

/-- Registers `State.diagEvent` may write. -/
def State.diagEvent_offs (o : Nat) : Prop :=
  (∃ n, o = SAF_DIAG_COUNT.reg n) ∨ (∃ n, o = SAF_DIAG_LAST.reg n) ∨ State.diagReact_offs o ∨
    State.raiseEvent_offs o ∨ State.record_offs o ∨ State.transientRecord_offs o

theorem State.diagEvent_keeps {P : State → Prop} (K : Keeps P 0x4c010c7f4 State.diagEvent_offs) {s : State} (d : Nat) (p : Nat) (hs : P s) :
    P (State.diagEvent s d p) := by
  have k0 : Keeps P 0x4c010c7f4 State.diagReact_offs := K.sub rfl (fun _ h => .inr (.inr (.inl h)))
  have k1 : Keeps P 0x440000010 State.raiseEvent_offs := K.sub rfl (fun _ h => .inr (.inr (.inr (.inl h))))
  have k2 : Keeps P 0x20 State.record_offs := K.sub rfl (fun _ h => .inr (.inr (.inr (.inr (.inl h)))))
  have k3 : Keeps P 0x40 (fun _ => False) := K.sub rfl (fun _ h => h.elim)
  have k4 : Keeps P 0x60 State.transientRecord_offs := K.sub rfl (fun _ h => .inr (.inr (.inr (.inr (.inr (h))))))
  have r0 := fun n => K.reg (SAF_DIAG_COUNT.reg n) (.inl ⟨n, rfl⟩)
  have r1 := fun n => K.reg (SAF_DIAG_LAST.reg n) (.inr (.inl ⟨n, rfl⟩))
  unfold State.diagEvent
  repeat' (first
    | with_reducible assumption
    | with_reducible (first | apply State.diagReact_keeps k0 | apply State.raiseEvent_keeps k1 | apply State.record_keeps k2 | apply State.setDiag_keeps k3 | apply State.transientRecord_keeps k4 | apply bump_keeps | apply setNat_keeps)
    | with_reducible exact r0 _
    | with_reducible exact r1 _
    | intro _ _ _ _
    | intro _ _ _
    | intro _ _
    | with_reducible (first | apply ite_keeps | apply ite_keeps_pair)
    | dsimp only
    | split
    | with_reducible (first | apply r0 | apply r1))

theorem State.clearPortDiags_keeps {P : State → Prop} (K : Keeps P 0x40 (fun _ => False)) {s : State} (n : Nat) (hs : P s) :
    P (State.clearPortDiags s n) := by
  have k0 : Keeps P 0x40 (fun _ => False) := K.sub rfl (fun _ h => h.elim)
  unfold State.clearPortDiags
  repeat' (first
    | with_reducible assumption
    | with_reducible (first | apply State.setDiag_keeps k0 | apply foldl_keeps | apply foldl_keeps_pair)
    | intro _ _ _ _
    | intro _ _ _
    | intro _ _
    | with_reducible (first | apply ite_keeps | apply ite_keeps_pair)
    | dsimp only
    | split)

/-- Registers `State.portMark` may write. -/
def State.portMark_offs (o : Nat) : Prop :=
  State.sendFault_offs o ∨ State.settle_offs o

theorem State.portMark_keeps {P : State → Prop} (K : Keeps P 0x4c0004074 State.portMark_offs) {s : State} (n : Nat) (cause : Nat) (hs : P s) :
    P (State.portMark s n cause) := by
  have k0 : Keeps P 0xc0004000 State.sendFault_offs := K.sub rfl (fun _ h => .inl h)
  have k1 : Keeps P 0x440000070 State.settle_offs := K.sub rfl (fun _ h => .inr (h))
  have k2 : Keeps P 0x4 (fun _ => False) := K.sub rfl (fun _ h => h.elim)
  have t2 : ∀ (s : State) v, (v.dev = s.ctl.dev ∨ ¬ s.ctl.dev = .safe) → P s → P (s.putCtl v) := K.upd 2 rfl
  unfold State.portMark
  repeat' (first
    | with_reducible assumption
    | with_reducible (first | apply State.sendFault_keeps k0 | apply State.settle_keeps k1 | apply State.withDeg_keeps k2 | apply t2)
    | with_reducible exact Or.inl rfl
    | exact Or.inr (by assumption)
    | intro _ _ _ _
    | intro _ _ _
    | intro _ _
    | with_reducible (first | apply ite_keeps | apply ite_keeps_pair)
    | dsimp only
    | split)

/-- Registers `State.portFault` may write. -/
def State.portFault_offs (o : Nat) : Prop :=
  State.portMark_offs o ∨ State.raiseEvent_offs o

theorem State.portFault_keeps {P : State → Prop} (K : Keeps P 0x4c0004074 State.portFault_offs) {s : State} (n : Nat) (cause : Nat) (hs : P s) :
    P (State.portFault s n cause) := by
  have k0 : Keeps P 0x4c0004074 State.portMark_offs := K.sub rfl (fun _ h => .inl h)
  have k1 : Keeps P 0x440000010 State.raiseEvent_offs := K.sub rfl (fun _ h => .inr (h))
  unfold State.portFault
  repeat' (first
    | with_reducible assumption
    | with_reducible (first | apply State.portMark_keeps k0 | apply State.raiseEvent_keeps k1)
    | intro _ _ _ _
    | intro _ _ _
    | intro _ _
    | with_reducible (first | apply ite_keeps | apply ite_keeps_pair)
    | dsimp only
    | split)

/-- Registers `State.raiseSram` may write. -/
def State.raiseSram_offs (o : Nat) : Prop :=
  State.diagEvent_offs o ∨ State.raiseEvent_offs o

theorem State.raiseSram_keeps {P : State → Prop} (K : Keeps P 0x4c010c7f4 State.raiseSram_offs) {s : State} (k : Nat) (ue : Bool) (addr : Nat) (hs : P s) :
    P (State.raiseSram s k ue addr) := by
  have k0 : Keeps P 0x4c010c7f4 State.diagEvent_offs := K.sub rfl (fun _ h => .inl h)
  have k1 : Keeps P 0x440000010 State.raiseEvent_offs := K.sub rfl (fun _ h => .inr (h))
  unfold State.raiseSram
  repeat' (first
    | with_reducible assumption
    | with_reducible (first | apply State.diagEvent_keeps k0 | apply State.raiseEvent_keeps k1)
    | intro _ _ _ _
    | intro _ _ _
    | intro _ _
    | with_reducible (first | apply ite_keeps | apply ite_keeps_pair)
    | dsimp only
    | split)

/-- Registers `State.routeFault` may write. -/
def State.routeFault_offs (o : Nat) : Prop :=
  o = SRC_FAULT_CAUSE.reg ∨ State.diagEvent_offs o ∨ State.portFault_offs o ∨ State.portMark_offs o

theorem State.routeFault_keeps {P : State → Prop} (K : Keeps P 0x4c010c7f4 State.routeFault_offs) {s : State} (n : Nat) (hs : P s) :
    P (State.routeFault s n) := by
  have k0 : Keeps P 0x4c010c7f4 State.diagEvent_offs := K.sub rfl (fun _ h => .inr (.inl h))
  have k1 : Keeps P 0x4c0004074 State.portFault_offs := K.sub rfl (fun _ h => .inr (.inr (.inl h)))
  have k2 : Keeps P 0x4c0004074 State.portMark_offs := K.sub rfl (fun _ h => .inr (.inr (.inr (h))))
  have r0 := K.reg (SRC_FAULT_CAUSE.reg) (.inl rfl)
  unfold State.routeFault
  repeat' (first
    | with_reducible assumption
    | with_reducible (first | apply State.diagEvent_keeps k0 | apply State.portFault_keeps k1 | apply State.portMark_keeps k2 | apply setFlag_keeps)
    | with_reducible exact r0
    | intro _ _ _ _
    | intro _ _ _
    | intro _ _
    | with_reducible (first | apply ite_keeps | apply ite_keeps_pair)
    | dsimp only
    | split
    | with_reducible (first | apply r0))

/-- Registers `State.srcFault` may write. -/
def State.srcFault_offs (o : Nat) : Prop :=
  o = SRC_FAULT_CAUSE.reg ∨ State.raiseEvent_offs o

theorem State.srcFault_keeps {P : State → Prop} (K : Keeps P 0x440000010 State.srcFault_offs) {s : State} (bits : Nat) (hs : P s) :
    P (State.srcFault s bits) := by
  have k0 : Keeps P 0x440000010 State.raiseEvent_offs := K.sub rfl (fun _ h => .inr (h))
  have r0 := K.reg (SRC_FAULT_CAUSE.reg) (.inl rfl)
  unfold State.srcFault
  repeat' (first
    | with_reducible assumption
    | with_reducible (first | apply State.raiseEvent_keeps k0 | apply setNat_keeps)
    | with_reducible exact r0
    | intro _ _ _ _
    | intro _ _ _
    | intro _ _
    | with_reducible (first | apply ite_keeps | apply ite_keeps_pair)
    | dsimp only
    | split
    | with_reducible (first | apply r0))

end Sys2Proof.Machine
end

