-- ==== Sys2Proof/Laws/KCoreExec.lean ====
section
/-!
SUPPORT. What the operations of Sys2Proof.Machine.CoreExec keep, and the registers they may write.
-/
namespace Sys2Proof.Machine

/-- Registers `State.countCycles` may write. -/
def State.countCycles_offs (o : Nat) : Prop :=
  (∃ n, o = ACR_BUSY_CYCLES_LO.reg n) ∨ (∃ n, o = ACR_BUSY_CYCLES_LO.reg n + 4) ∨
    (∃ n, o = ACR_STALL_CYCLES_LO.reg n) ∨ (∃ n, o = ACR_STALL_CYCLES_LO.reg n + 4)

theorem State.countCycles_keeps {P : State → Prop} (K : Keeps P 0x100000 State.countCycles_offs) {s : State} (k : Nat) (cycles : Nat) (stall : Nat) (hs : P s) :
    P (State.countCycles s k cycles stall) := by
  have k0 : Keeps P 0x100000 (fun _ => False) := K.sub rfl (fun _ h => h.elim)
  have r0 := fun n => K.reg (ACR_BUSY_CYCLES_LO.reg n) (.inl ⟨n, rfl⟩)
  have r1 := fun n => K.reg (ACR_BUSY_CYCLES_LO.reg n + 4) (.inr (.inl ⟨n, rfl⟩))
  have r2 := fun n => K.reg (ACR_STALL_CYCLES_LO.reg n) (.inr (.inr (.inl ⟨n, rfl⟩)))
  have r3 := fun n => K.reg (ACR_STALL_CYCLES_LO.reg n + 4) (.inr (.inr (.inr (⟨n, rfl⟩))))
  unfold State.countCycles
  repeat' (first
    | with_reducible assumption
    | with_reducible (first | apply State.setCore_keeps k0 | apply setReg64_keeps)
    | with_reducible exact r0 _
    | with_reducible exact r1 _
    | with_reducible exact r2 _
    | with_reducible exact r3 _
    | intro _ _ _ _
    | intro _ _ _
    | intro _ _
    | with_reducible (first | apply ite_keeps | apply ite_keeps_pair)
    | dsimp only
    | split
    | with_reducible (first | apply r0 | apply r1 | apply r2 | apply r3))

/-- Registers `State.goto` may write. -/
def State.goto_offs (o : Nat) : Prop :=
  State.coreFault_offs o

theorem State.goto_keeps {P : State → Prop} (K : Keeps P 0x4c0100014 State.goto_offs) {s : State} (k : Nat) (pc : Nat) (hs : P s) :
    P (State.goto s k pc) := by
  have k0 : Keeps P 0x440100014 State.coreFault_offs := K.sub rfl (fun _ h => h)
  have k1 : Keeps P 0x80000000 (fun _ => False) := K.sub rfl (fun _ h => h.elim)
  have k2 : Keeps P 0x100000 (fun _ => False) := K.sub rfl (fun _ h => h.elim)
  unfold State.goto
  repeat' (first
    | with_reducible assumption
    | with_reducible (first | apply State.coreFault_keeps k0 | apply State.drawFree_keeps k1 | apply State.setCore_keeps k2)
    | intro _ _ _ _
    | intro _ _ _
    | intro _ _
    | with_reducible (first | apply ite_keeps | apply ite_keeps_pair)
    | dsimp only
    | split)

/-- Registers `State.retire` may write. -/
def State.retire_offs (o : Nat) : Prop :=
  State.countCycles_offs o ∨ State.goto_offs o

theorem State.retire_keeps {P : State → Prop} (K : Keeps P 0x4c0100014 State.retire_offs) {s : State} (k : Nat) (made : Hazard) (c : Core) (cycles : Nat) (stall : Nat) (jump : Option Nat) (hs : P s) :
    P (State.retire s k made c cycles stall jump) := by
  have k0 : Keeps P 0x100000 State.countCycles_offs := K.sub rfl (fun _ h => .inl h)
  have k1 : Keeps P 0x4c0100014 State.goto_offs := K.sub rfl (fun _ h => .inr (h))
  have k2 : Keeps P 0x100000 (fun _ => False) := K.sub rfl (fun _ h => h.elim)
  unfold State.retire
  repeat' (first
    | with_reducible assumption
    | with_reducible (first | apply State.countCycles_keeps k0 | apply State.goto_keeps k1 | apply State.setCore_keeps k2)
    | intro _ _ _ _
    | intro _ _ _
    | intro _ _
    | with_reducible (first | apply ite_keeps | apply ite_keeps_pair)
    | dsimp only
    | split)

/-- Registers `State.conclude` may write. -/
def State.conclude_offs (o : Nat) : Prop :=
  State.coreFault_offs o ∨ State.countCycles_offs o ∨ State.retire_offs o

theorem State.conclude_keeps {P : State → Prop} (K : Keeps P 0x4c0100014 State.conclude_offs) {s : State} (k : Nat) (w : Word) (made : Hazard) (stall : Nat) (a0 : Exit) (hs : P s) :
    P (State.conclude s k w made stall a0) := by
  have k0 : Keeps P 0x100000 (fun _ => False) := K.sub rfl (fun _ h => h.elim)
  have k1 : Keeps P 0x440100014 State.coreFault_offs := K.sub rfl (fun _ h => .inl h)
  have k2 : Keeps P 0x100000 State.countCycles_offs := K.sub rfl (fun _ h => .inr (.inl h))
  have k3 : Keeps P 0x4c0100014 State.retire_offs := K.sub rfl (fun _ h => .inr (.inr (h)))
  have k4 : Keeps P 0x100000 (fun _ => False) := K.sub rfl (fun _ h => h.elim)
  unfold State.conclude
  repeat' (first
    | with_reducible assumption
    | with_reducible (first | apply State.beginStop_keeps k0 | apply State.coreFault_keeps k1 | apply State.countCycles_keeps k2 | apply State.retire_keeps k3 | apply State.setCore_keeps k4)
    | intro _ _ _ _
    | intro _ _ _
    | intro _ _
    | with_reducible (first | apply ite_keeps | apply ite_keeps_pair)
    | dsimp only
    | split)

/-- Registers `State.issue` may write. -/
def State.issue_offs (o : Nat) : Prop :=
  State.conclude_offs o ∨ State.coreFault_offs o

theorem State.issue_keeps {P : State → Prop} (K : Keeps P 0x4c0100014 State.issue_offs) {s : State} (k : Nat) (op : Nat) (parity : Bool) (f : Word → Insn) (hs : P s) :
    P (State.issue s k op parity f) := by
  have k0 : Keeps P 0x4c0100014 State.conclude_offs := K.sub rfl (fun _ h => .inl h)
  have k1 : Keeps P 0x440100014 State.coreFault_offs := K.sub rfl (fun _ h => .inr (h))
  have k2 : Keeps P 0x80000000 (fun _ => False) := K.sub rfl (fun _ h => h.elim)
  unfold State.issue
  repeat' (first
    | with_reducible assumption
    | with_reducible (first | apply State.conclude_keeps k0 | apply State.coreFault_keeps k1 | apply State.drawFree_keeps k2)
    | intro _ _ _ _
    | intro _ _ _
    | intro _ _
    | with_reducible (first | apply ite_keeps | apply ite_keeps_pair)
    | dsimp only
    | split)

/-- Registers `State.spmError` may write. -/
def State.spmError_offs (o : Nat) : Prop :=
  (∃ n, o = ACR_SPM_CE_COUNT.reg n) ∨ (∃ n, o = ACR_SPM_ECC_ADDR.reg n) ∨ (∃ n, o = ACR_SPM_UE_COUNT.reg n) ∨
    State.raiseSram_offs o

theorem State.spmError_keeps {P : State → Prop} (K : Keeps P 0x4c010c7f4 State.spmError_offs) {s : State} (k : Nat) (reader : Nat) (addr : Nat) (ue : Bool) (hs : P s) :
    P (State.spmError s k reader addr ue) := by
  have k0 : Keeps P 0x4c010c7f4 State.raiseSram_offs := K.sub rfl (fun _ h => .inr (.inr (.inr (h))))
  have r0 := fun n => K.reg (ACR_SPM_CE_COUNT.reg n) (.inl ⟨n, rfl⟩)
  have r1 := fun n => K.reg (ACR_SPM_ECC_ADDR.reg n) (.inr (.inl ⟨n, rfl⟩))
  have r2 := fun n => K.reg (ACR_SPM_UE_COUNT.reg n) (.inr (.inr (.inl ⟨n, rfl⟩)))
  unfold State.spmError
  repeat' (first
    | with_reducible assumption
    | with_reducible (first | apply State.raiseSram_keeps k0 | apply bump_keeps | apply setNat_keeps)
    | with_reducible exact r0 _
    | with_reducible exact r1 _
    | with_reducible exact r2 _
    | intro _ _ _ _
    | intro _ _ _
    | intro _ _
    | with_reducible (first | apply ite_keeps | apply ite_keeps_pair)
    | dsimp only
    | split
    | with_reducible (first | apply r0 | apply r1 | apply r2))

theorem State.upset_keeps {P : State → Prop} (K : Keeps P 0x100000 (fun _ => False)) {s : State} (k : Nat) (ups : Upsets) (hs : P s) :
    P (State.upset s k ups) := by
  have k0 : Keeps P 0x100000 (fun _ => False) := K.sub rfl (fun _ h => h.elim)
  unfold State.upset
  repeat' (first
    | with_reducible assumption
    | with_reducible (first | apply State.setCore_keeps k0)
    | intro _ _ _ _
    | intro _ _ _
    | intro _ _
    | with_reducible (first | apply ite_keeps | apply ite_keeps_pair)
    | dsimp only
    | split)

/-- Registers `State.spmCheck` may write. -/
def State.spmCheck_offs (o : Nat) : Prop :=
  State.spmError_offs o

theorem State.spmCheck_keeps {P : State → Prop} (K : Keeps P 0x4c010c7f4 State.spmCheck_offs) {s : State} (k : Nat) (reader : Nat) (a : Nat) (n : Nat) (hs : P s) :
    P (State.spmCheck s k reader a n).1 := by
  have k0 : Keeps P 0x4c010c7f4 State.spmError_offs := K.sub rfl (fun _ h => h)
  unfold State.spmCheck
  repeat' (first
    | with_reducible assumption
    | with_reducible (first | apply State.spmError_keeps k0 | apply foldl_keeps | apply foldl_keeps_pair)
    | intro _ _ _ _
    | intro _ _ _
    | intro _ _
    | with_reducible (first | apply ite_keeps | apply ite_keeps_pair)
    | dsimp only
    | split)

/-- Registers `State.issueMem` may write. -/
def State.issueMem_offs (o : Nat) : Prop :=
  State.coreFault_offs o ∨ State.issue_offs o ∨ State.spmCheck_offs o

theorem State.issueMem_keeps {P : State → Prop} (K : Keeps P 0x4c010c7f4 State.issueMem_offs) {s : State} (k : Nat) (op : Nat) (parity : Bool) (ups : Upsets) (f : Word → MemInsn) (hs : P s) :
    P (State.issueMem s k op parity ups f) := by
  have k0 : Keeps P 0x440100014 State.coreFault_offs := K.sub rfl (fun _ h => .inl h)
  have k1 : Keeps P 0x4c0100014 State.issue_offs := K.sub rfl (fun _ h => .inr (.inl h))
  have k2 : Keeps P 0x4c010c7f4 State.spmCheck_offs := K.sub rfl (fun _ h => .inr (.inr (h)))
  have k3 : Keeps P 0x100000 (fun _ => False) := K.sub rfl (fun _ h => h.elim)
  unfold State.issueMem
  repeat' (first
    | with_reducible assumption
    | with_reducible (first | apply State.coreFault_keeps k0 | apply State.issue_keeps k1 | apply State.spmCheck_keeps k2 | apply State.upset_keeps k3)
    | (apply fst_keeps (by assumption))
    | intro _ _ _ _
    | intro _ _ _
    | intro _ _
    | with_reducible (first | apply ite_keeps | apply ite_keeps_pair)
    | dsimp only
    | split)

/-- Registers `State.resume` may write. -/
def State.resume_offs (o : Nat) : Prop :=
  State.retire_offs o

theorem State.resume_keeps {P : State → Prop} (K : Keeps P 0x4c0100014 State.resume_offs) {s : State} (k : Nat) (f : Word → Option Insn) (hs : P s) :
    P (State.resume s k f) := by
  have k0 : Keeps P 0x4c0100014 State.retire_offs := K.sub rfl (fun _ h => h)
  unfold State.resume
  repeat' (first
    | with_reducible assumption
    | with_reducible (first | apply State.retire_keeps k0)
    | intro _ _ _ _
    | intro _ _ _
    | intro _ _
    | with_reducible (first | apply ite_keeps | apply ite_keeps_pair)
    | dsimp only
    | split)

end Sys2Proof.Machine
end

