-- ==== Sys2Proof/Laws/Units.lean ====
section
/-!
SUPPORT. Arrays of like units: what one reads after it, or another, was replaced.
-/
namespace Sys2Proof.Machine

variable (s : State) (i j : Nat)

@[simp] theorem State.core_setCore (x : Core) : (s.setCore i x).core j = if j = i then x else s.core j :=
  SMap.get_put s.cores i x j

@[simp] theorem State.unit_setUnit (x : TrgUnit) : (s.setUnit i x).unit j = if j = i then x else s.unit j :=
  SMap.get_put s.units i x j

@[simp] theorem State.dout_setDout (x : Dout) : (s.setDout i x).dout j = if j = i then x else s.dout j :=
  SMap.get_put s.douts i x j

@[simp] theorem State.blank_setBlank (x : Blank) : (s.setBlank i x).blank j = if j = i then x else s.blank j :=
  SMap.get_put s.blanks i x j

@[simp] theorem State.port_setPort (x : PortSt) : (s.setPort i x).port j = if j = i then x else s.port j :=
  SMap.get_put s.streams i x j

@[simp] theorem State.brlPort_setBrlPort (x : BrlPort) :
    (s.setBrlPort i x).brlPort j = if j = i then x else s.brlPort j :=
  SMap.get_put s.brl i x j

@[simp] theorem State.chan_setChan (x : Chan) : (s.setChan i x).chan j = if j = i then x else s.chan j :=
  SMap.get_put s.saf.chans i x j

@[simp] theorem State.reg_setCore (x : Core) (o : Nat) : (s.setCore i x).reg o = s.reg o := rfl

@[simp] theorem State.reg64_setCore (x : Core) (o : Nat) : (s.setCore i x).reg64 o = s.reg64 o := rfl

@[simp] theorem State.core_setReg (o : Nat) (w : Word) : (s.setReg o w).core j = s.core j := rfl

@[simp] theorem State.core_setReg64 (o v : Nat) : (s.setReg64 o v).core j = s.core j := rfl

/-! Pairs of registers. -/

/-- A pair reads back what was written, modulo 2⁶⁴. -/
theorem State.reg64_setReg64 (o v : Nat) : (s.setReg64 o v).reg64 o = v % 2 ^ 64 := by
  unfold State.reg64 State.setReg64
  rw [State.reg_setReg_eq, State.reg_setReg_ne _ _ _ (by omega), State.reg_setReg_eq, Word.toNat_of, Word.toNat_of]
  omega

/-- A pair is as it was after a write of another. -/
theorem State.reg64_setReg64_ne {o o' : Nat} (v : Nat) (h : o' + 4 < o ∨ o + 4 < o') :
    (s.setReg64 o v).reg64 o' = s.reg64 o' := by
  unfold State.reg64 State.setReg64
  rw [State.reg_setReg_ne _ _ _ (by omega), State.reg_setReg_ne _ _ _ (by omega), State.reg_setReg_ne _ _ _ (by omega),
    State.reg_setReg_ne _ _ _ (by omega)]

theorem State.reg_setReg64_ne {o a : Nat} (v : Nat) (h : ¬ (a = o ∨ a = o + 4)) : (s.setReg64 o v).reg a = s.reg a := by
  unfold State.setReg64
  rw [State.reg_setReg_ne _ _ _ (by omega), State.reg_setReg_ne _ _ _ (by omega)]

/-- Every pair holds less than 2⁶⁴. -/
theorem State.reg64_lt (o : Nat) : s.reg64 o < 2 ^ 64 := by
  unfold State.reg64
  have h1 := (s.reg o).isLt
  have h2 := (s.reg (o + 4)).isLt
  omega

end Sys2Proof.Machine
end

