-- ==== Sys2Proof/Laws/CoreStep.lean ====
section
/-!
SUPPORT. Issuing one instruction on an analysis core: what its completion, its jump, its wait and its fault leave.
-/
namespace Sys2Proof.Machine

variable {s : State} {k op : Nat} {w : Word} {f : Word → Insn}

theorem ACR_counts_apart (k : Nat) : ACR_BUSY_CYCLES_LO.reg k + 4 < ACR_STALL_CYCLES_LO.reg k := by
  simp only [ACR_BUSY_CYCLES_LO.reg, ACR_STALL_CYCLES_LO.reg]; omega

/-- Counting cycles. -/
theorem countCycles_core (s : State) (k n m : Nat) :
    (s.countCycles k n m).core k = { s.core k with cycles := (s.core k).cycles + BitVec.ofNat 64 (n + m) } := by
  unfold State.countCycles
  simp only [State.core_setReg64, State.core_setCore, if_true]

theorem countCycles_others (s : State) (k n m : Nat) {j : Nat} (h : j ≠ k) : (s.countCycles k n m).core j = s.core j := by
  unfold State.countCycles
  simp only [State.core_setReg64, State.core_setCore, h, if_false]

theorem countCycles_busy (s : State) (k n m : Nat) :
    (s.countCycles k n m).reg64 (ACR_BUSY_CYCLES_LO.reg k) = (s.reg64 (ACR_BUSY_CYCLES_LO.reg k) + n + m) % 2 ^ 64 := by
  unfold State.countCycles
  dsimp only
  rw [State.reg64_setReg64_ne _ _ (Or.inl (ACR_counts_apart k)), State.reg64_setReg64]
  rfl

theorem countCycles_stall (s : State) (k n m : Nat) :
    (s.countCycles k n m).reg64 (ACR_STALL_CYCLES_LO.reg k) = (s.reg64 (ACR_STALL_CYCLES_LO.reg k) + m) % 2 ^ 64 := by
  unfold State.countCycles
  dsimp only
  rw [State.reg64_setReg64, State.reg64_setReg64_ne _ _ (Or.inr (ACR_counts_apart k))]
  rfl

/-- The registers a core's cycle counts live in. -/
abbrev cycleReg (k : Nat) : RegSet := fun o => pairAt (ACR_BUSY_CYCLES_LO.reg k) o ∨ pairAt (ACR_STALL_CYCLES_LO.reg k) o

theorem countCycles_frame (s : State) (k n m : Nat) : s.Frame (s.countCycles k n m) [.cores] (cycleReg k) where
  parts c hc := by cases c <;> first | rfl | exact absurd (List.mem_singleton.mpr rfl) hc
  regs o ho := by
    unfold State.countCycles
    dsimp only
    rw [State.reg_setReg64_ne _ _ (fun h => ho (Or.inr h)), State.reg_setReg64_ne _ _ (fun h => ho (Or.inl h))]
    rfl

/-- A frame goes on through a core's replacement. -/
theorem State.Frame.setCore {t : State} {R : RegSet} (h : s.Frame t [.cores] R) (k : Nat) (c : Core) :
    s.Frame (t.setCore k c) [.cores] R where
  parts c hc := by
    have := h.parts c hc
    cases c <;> first | exact this | exact absurd (List.mem_singleton.mpr rfl) hc
  regs o ho := h.regs o ho

/-- A frame of a state that differs in its cores. -/
theorem State.Frame.ofSetCore {t : State} {R : RegSet} {c : Core} (h : (s.setCore k c).Frame t [.cores] R) :
    s.Frame t [.cores] R where
  parts c hc := by
    have := h.parts c hc
    cases c <;> first | exact this | exact absurd (List.mem_singleton.mpr rfl) hc
  regs o ho := h.regs o ho

/-- The registers after completion, then the program counter. -/
theorem goto_next (s : State) (k n m t : Nat) (e : Effect) (st : List Level) (ht : t < 2048)
    (hn : n = e.cycles) (hm : m = stallOf (s.core k).hz e.use) :
    s.CoreNext (((s.setCore k { e.core with hz := { e.made with ptr2 := if m = 0 then (s.core k).hz.ptr1 else 0 }, stack := st }).countCycles k n
      m).goto k t) k e t st := by
  subst hn hm
  unfold State.goto
  rw [if_pos ht]
  constructor
  · simp only [State.core_setCore, if_true, countCycles_core]
  · intro j hj
    simp only [State.core_setCore, hj, if_false, countCycles_others _ _ _ _ hj]
  · rw [State.reg64_setCore, countCycles_busy, State.reg64_setCore]
  · rw [State.reg64_setCore, countCycles_stall, State.reg64_setCore]
  · refine State.Frame.setCore ?_ k _
    exact State.Frame.ofSetCore (countCycles_frame _ k _ _)

theorem retire_seq (s : State) (k : Nat) (e : Effect) (ht : (nextPc (s.core k).pc.toNat e.core.stack).1 < 2048) :
    s.CoreSeq (s.retire k e.made e.core e.cycles (stallOf (s.core k).hz e.use) none) k e := by
  unfold State.CoreSeq State.retire
  exact goto_next s k _ _ _ e _ ht rfl rfl

theorem retire_jump (s : State) (k : Nat) (e : Effect) {t : Nat} (ht : t < 2048) :
    s.CoreNext (s.retire k e.made e.core e.cycles (stallOf (s.core k).hz e.use) (some t)) k e t e.core.stack := by
  unfold State.retire
  exact goto_next s k _ _ _ e _ ht rfl rfl

/-- What an issue comes to when its word is that instruction's. -/
theorem issue_conclude (h : s.Issues k w) (hop : fOp w = op) :
    s.issue k op false f = s.conclude k w (f w).made (stallOf (s.core k).hz (f w).use)
      ((f w).run (s.coreAt k) ((s.core k).overlap (stallOf (s.core k).hz (f w).use))) := by
  unfold State.issue
  simp only [h.1, h.2, hop, Bool.not_true, if_false, Bool.false_eq_true, ne_eq, not_true]

/-- Completion in sequence. -/
theorem issue_seq (h : s.Issues k w) (hop : fOp w = op) {c : Core} {n : Nat}
    (hr : (f w).run (s.coreAt k) ((s.core k).overlap (stallOf (s.core k).hz (f w).use)) = .seq c n)
    (ht : (nextPc (s.core k).pc.toNat c.stack).1 < 2048) :
    s.CoreSeq (s.issue k op false f) k ⟨c, (f w).use, (f w).made, n⟩ := by
  rw [issue_conclude h hop, hr]
  exact retire_seq s k ⟨c, (f w).use, (f w).made, n⟩ ht

/-- Completion by a jump. -/
theorem issue_jump (h : s.Issues k w) (hop : fOp w = op) {c : Core} {n t : Nat}
    (hr : (f w).run (s.coreAt k) ((s.core k).overlap (stallOf (s.core k).hz (f w).use)) = .jump c t n) (ht : t < 2048) :
    s.CoreNext (s.issue k op false f) k ⟨c, (f w).use, (f w).made, n⟩ t c.stack := by
  rw [issue_conclude h hop, hr]
  exact retire_jump s k ⟨c, (f w).use, (f w).made, n⟩ ht

/-- Completion in sequence with an effect that leaves the repeat stack as it was. -/
theorem issue_effect (h : s.Issues k w) (hop : fOp w = op) {e : Effect}
    (hr : (f w).run (s.coreAt k) ((s.core k).overlap (stallOf (s.core k).hz (f w).use)) = .seq e.core e.cycles)
    (hu : (f w).use = e.use) (hm : (f w).made = e.made) (ht : s.SeqInRange k) (hs : e.core.stack = (s.core k).stack) :
    s.CoreSeq (s.issue k op false f) k e := by
  obtain ⟨c, u, m, n⟩ := e
  subst hu hm
  exact issue_seq h hop hr (by rw [hs]; exact ht)

/-- Completion by a jump with an effect that leaves the repeat stack as it was. -/
theorem issue_jump_effect (h : s.Issues k w) (hop : fOp w = op) {e : Effect} {t : Nat}
    (hr : (f w).run (s.coreAt k) ((s.core k).overlap (stallOf (s.core k).hz (f w).use)) = .jump e.core t e.cycles)
    (hu : (f w).use = e.use) (hm : (f w).made = e.made) (ht : t < 2048) :
    s.CoreNext (s.issue k op false f) k e t e.core.stack := by
  obtain ⟨c, u, m, n⟩ := e
  subst hu hm
  exact issue_jump h hop hr ht

/-- A wait. -/
theorem issue_wait (h : s.Issues k w) (hop : fOp w = op) {code : Nat}
    (hr : (f w).run (s.coreAt k) ((s.core k).overlap (stallOf (s.core k).hz (f w).use)) = .wait code) :
    s.CoreWaits (s.issue k op false f) k code (f w).use := by
  rw [issue_conclude h hop, hr]
  unfold State.conclude
  constructor
  · simp only [countCycles_core, State.core_setCore, if_true]
  · intro j hj
    simp only [countCycles_others _ _ _ _ hj, State.core_setCore, hj, if_false]
  · exact State.Frame.ofSetCore (countCycles_frame _ k _ _)

/-! Faults. -/

@[simp] theorem withDeg_core (s : State) (d : DegCause) (j : Nat) : (s.withDeg d).core j = s.core j := by
  unfold State.withDeg State.setDev
  repeat' (first | rfl | split | dsimp only)

@[simp] theorem withDeg_reg (s : State) (d : DegCause) (o : Nat) : (s.withDeg d).reg o = s.reg o := by
  unfold State.withDeg State.setDev
  repeat' (first | rfl | split | dsimp only)

/-- DEG_CAUSE takes a value with some bit 1. -/
theorem withDeg_ctl (s : State) (d : DegCause) (hd : d.any = true) :
    (s.withDeg d).ctl.deg = d ∧ (s.withDeg d).ctl.dev = if s.ctl.dev = .running then .degraded else s.ctl.dev := by
  unfold State.withDeg State.setDev
  simp only [hd, Bool.and_true, State.putCtl_ctl]
  by_cases h : s.ctl.dev = .running <;> simp [h]

theorem withDeg_frame (s : State) (d : DegCause) : s.Frame (s.withDeg d) [.ctl] noReg where
  parts c hc := by
    unfold State.withDeg State.setDev
    cases c <;> first
      | exact absurd (List.mem_singleton.mpr rfl) hc
      | (dsimp only [State.same]; repeat' (first | rfl | split | dsimp only))
  regs o _ := withDeg_reg s d o

/-- A frame of two steps. -/
theorem State.Frame.trans {t u : State} {cs : List Comp} {R : RegSet} (h : s.Frame t cs R) (g : t.Frame u cs R) :
    s.Frame u cs R where
  parts c hc := by
    have h1 := h.parts c hc
    have h2 := g.parts c hc
    cases c <;> exact h2.trans h1
  regs o ho := (g.regs o ho).trans (h.regs o ho)

/-- A wider frame. -/
theorem State.Frame.mono {t : State} {cs cs' : List Comp} {R R' : RegSet} (h : s.Frame t cs R) (hc : ∀ c ∈ cs, c ∈ cs')
    (hR : ∀ o, R o → R' o) : s.Frame t cs' R' :=
  ⟨fun c n => h.parts c (fun m => n (hc c m)), fun o n => h.regs o (fun m => n (hR o m))⟩

/-- Equal parts give equal registers and cores. -/
theorem State.Frame.core {t : State} {cs : List Comp} {R : RegSet} (h : s.Frame t cs R) (hc : .cores ∉ cs) (j : Nat) :
    t.core j = s.core j := by
  have := h.parts .cores hc
  unfold State.core
  rw [show t.cores = s.cores from this]

/-- The registers of a core's fault. -/
abbrev faultReg (k : Nat) : RegSet := fun o =>
  o = ACR_FAULT.reg k ∨ o = ACR_FAULT_INSN.reg k ∨ o = ACR_FAULT_COUNT.reg k ∨ eventReg o

/-- A fault of R249. -/
theorem coreFault_faults (s : State) (k cause : Nat) (w : Word) :
    s.CoreFaults (s.coreFault k cause (s.core k).pc.toNat w) k cause w := by
  have hpc : (s.core k).pc.toNat % 2048 = (s.core k).pc.toNat := Nat.mod_eq_of_lt (s.core k).pc.isLt
  unfold State.coreFault
  dsimp only
  rw [hpc]
  generalize hc : ({ s.core k with
    stopping := some stopFault, wait := 0, ready := [], held := [], staging := [], lastStore := none,
    degFault := true } : Core) = c
  generalize hu : (((s.setCore k c).setNat (ACR_FAULT.reg k) (cause * 2 ^ 28 + (s.core k).pc.toNat)).setReg
    (ACR_FAULT_INSN.reg k) w).bump (ACR_FAULT_COUNT.reg k) = u
  have hf := raiseEvent_frame u 44 (k + cause * 256 + (s.core k).pc.toNat * 2 ^ 16)
  have hr := raiseEvent_raised u 44 (k + cause * 256 + (s.core k).pc.toNat * 2 ^ 16)
  generalize hv : u.raiseEvent 44 (k + cause * 256 + (s.core k).pc.toNat * 2 ^ 16) = v at hf hr
  have e1 : ∀ q, ACR_FAULT.reg k ≠ HIF_EV_COUNT.reg q ∧ ACR_FAULT_INSN.reg k ≠ HIF_EV_COUNT.reg q ∧
      ACR_FAULT_COUNT.reg k ≠ HIF_EV_COUNT.reg q := by
    intro q; simp only [ACR_FAULT.reg, ACR_FAULT_INSN.reg, ACR_FAULT_COUNT.reg, HIF_EV_COUNT.reg]; omega
  have hout : ∀ o, o < 0x190000 → ¬ eventReg o := by
    intro o ho h
    simp only [eventReg, HIF_EV_COUNT.reg, HIF_EV_PEND_LO.reg, HIF_RING_DISCARD_COUNT.reg] at h
    rcases h with ⟨q, h⟩ | ⟨i, h⟩ | ⟨r, h⟩ <;> omega
  have hk : k % 16 < 16 := Nat.mod_lt _ (by decide)
  have b1 : ACR_FAULT.reg k < 0x190000 := by simp only [ACR_FAULT.reg]; omega
  have b2 : ACR_FAULT_INSN.reg k < 0x190000 := by simp only [ACR_FAULT_INSN.reg]; omega
  have b3 : ACR_FAULT_COUNT.reg k < 0x190000 := by simp only [ACR_FAULT_COUNT.reg]; omega
  have n12 : ACR_FAULT.reg k ≠ ACR_FAULT_INSN.reg k := by simp only [ACR_FAULT.reg, ACR_FAULT_INSN.reg]; omega
  have n13 : ACR_FAULT.reg k ≠ ACR_FAULT_COUNT.reg k := by simp only [ACR_FAULT.reg, ACR_FAULT_COUNT.reg]; omega
  have n23 : ACR_FAULT_INSN.reg k ≠ ACR_FAULT_COUNT.reg k := by
    simp only [ACR_FAULT_INSN.reg, ACR_FAULT_COUNT.reg]; omega
  have uctl : u.ctl = s.ctl := by rw [← hu]; rfl
  have ucore : ∀ j, u.core j = if j = k then c else s.core j := by
    intro j; rw [← hu]; simp only [State.bump, State.addReg, State.setNat, State.core_setReg, State.core_setCore]
  have ureg : ∀ o, o ≠ ACR_FAULT.reg k → o ≠ ACR_FAULT_INSN.reg k → o ≠ ACR_FAULT_COUNT.reg k → u.reg o = s.reg o := by
    intro o h1 h2 h3
    rw [← hu]
    unfold State.bump State.addReg State.setNat
    rw [State.reg_setReg_ne _ _ _ h3, State.reg_setReg_ne _ _ _ h2, State.reg_setReg_ne _ _ _ h1, State.reg_setCore]
  have uframe : s.Frame u [.cores] (faultReg k) := by
    refine ⟨fun c hc => ?_, fun o ho => ureg o (fun h => ho (Or.inl h)) (fun h => ho (Or.inr (Or.inl h)))
      (fun h => ho (Or.inr (Or.inr (Or.inl h))))⟩
    rw [← hu]
    cases c <;> first | rfl | exact absurd (List.mem_singleton.mpr rfl) hc
  have vctl : v.ctl = s.ctl := (hf.parts .ctl (by decide)).trans uctl
  constructor
  · rw [withDeg_core, hf.core (by decide), ucore, if_pos rfl, ← hc]
  · intro j hj; rw [withDeg_core, hf.core (by decide), ucore, if_neg hj]
  · rw [withDeg_reg, hf.regs _ (hout _ b1), ← hu]
    unfold State.bump State.addReg State.setNat
    rw [State.reg_setReg_ne _ _ _ n13, State.reg_setReg_ne _ _ _ n12, State.reg_setReg_eq]
  · rw [withDeg_reg, hf.regs _ (hout _ b2), ← hu]
    unfold State.bump State.addReg State.setNat
    rw [State.reg_setReg_ne _ _ _ n23, State.reg_setReg_eq]
  · rw [withDeg_reg, hf.regs _ (hout _ b3), ← hu]
    unfold State.bump State.addReg State.setNat
    rw [State.reg_setReg_eq, State.reg_setReg_ne _ _ _ (Ne.symm n23), State.reg_setReg_ne _ _ _ (Ne.symm n13),
      State.reg_setCore]
    rfl
  · refine ⟨by unfold State.evPending; rw [withDeg_reg]; exact hr.pend, ?_⟩
    rw [withDeg_reg, hr.count, ureg _ (Ne.symm (e1 44).1) (Ne.symm (e1 44).2.1) (Ne.symm (e1 44).2.2)]
  · rw [(withDeg_ctl v _ (by simp [DegCause.any])).1, vctl]
  · rw [(withDeg_ctl v _ (by simp [DegCause.any])).2, vctl]
  · exact ((uframe.mono (by simp) (fun _ h => h)).trans (hf.mono (by simp) (fun _ h => Or.inr (Or.inr (Or.inr h))))).trans
      ((withDeg_frame v _).mono (by simp) (fun _ h => h.elim))

/-- A fault of an instruction. -/
theorem issue_fault (h : s.Issues k w) (hop : fOp w = op) {cause : Nat}
    (hr : (f w).run (s.coreAt k) ((s.core k).overlap (stallOf (s.core k).hz (f w).use)) = .fault cause) :
    s.CoreFaults (s.issue k op false f) k cause w := by
  rw [issue_conclude h hop, hr]
  exact coreFault_faults s k cause w

end Sys2Proof.Machine
end

