-- ==== Sys2Proof/Laws/Diag.lean ====
section
/-!
SUPPORT. A diagnostic whose lasting reaction is only to be logged (R391) touches its own history, the recorder's queue and the
event interface.
-/
namespace Sys2Proof.Machine

/-- The registers a logged diagnostic may write. -/
def diagLogReg : RegSet := fun o =>
  (∃ n, o = SAF_DIAG_COUNT.reg n) ∨ (∃ n, o = SAF_DIAG_LAST.reg n) ∨ o = EVR_LOST_COUNT.reg ∨ State.raiseEvent_offs o

theorem diagEvent_log_keeps {P : State → Prop} (K : Keeps P 0x440000070 diagLogReg) {s : State} (d p : Nat)
    (hd : diagReaction d = 0) (hs : P s) : P (s.diagEvent d p) := by
  have k1 : Keeps P 0x440000010 State.raiseEvent_offs := K.sub rfl (fun _ h => .inr (.inr (.inr h)))
  have k2 : Keeps P 0x40 (fun _ => False) := K.sub rfl (fun _ h => h.elim)
  have k3 : Keeps P 0x20 State.record_offs := K.sub rfl (fun _ h => .inr (.inr (.inl h)))
  have k4 : Keeps P 0x60 State.transientRecord_offs := K.sub rfl (fun _ h => .inr (.inr (.inl h)))
  have r0 := fun n => K.reg (SAF_DIAG_COUNT.reg n) (.inl ⟨n, rfl⟩)
  have r1 := fun n => K.reg (SAF_DIAG_LAST.reg n) (.inr (.inl ⟨n, rfl⟩))
  have hr : ∀ t : State, t.diagReact d p = t := fun t => by unfold State.diagReact; rw [hd]; rfl
  unfold State.diagEvent
  dsimp only
  split
  · rw [hr]
    repeat' (first
      | with_reducible assumption
      | with_reducible (first | apply State.setDiag_keeps k2 | apply State.record_keeps k3)
      | with_reducible (first | apply State.raiseEvent_keeps k1 | apply setNat_keeps | apply bump_keeps)
      | with_reducible exact r0 _
      | with_reducible exact r1 _
      | with_reducible apply ite_keeps)
  · exact State.transientRecord_keeps k4 _ _ _ (State.raiseEvent_keeps k1 _ _
      (State.setDiag_keeps k2 _ _ _ (setNat_keeps (bump_keeps hs (r0 d)) (r1 d))))

/-- The registers of EV40 and its diagnostic. -/
theorem raiseSram_keeps {P : State → Prop} (K : Keeps P 0x440000070 diagLogReg) {s : State} (k : Nat) (ue : Bool) (a : Nat)
    (hs : P s) : P (s.raiseSram k ue a) := by
  have k1 : Keeps P 0x440000010 State.raiseEvent_offs := K.sub rfl (fun _ h => .inr (.inr (.inr h)))
  exact diagEvent_log_keeps K _ _ rfl (State.raiseEvent_keeps k1 _ _ hs)

/-- EV40 is pending after it was raised. -/
theorem raiseSram_pending (s : State) (k : Nat) (ue : Bool) (a : Nat) : (s.raiseSram k ue a).evPending 40 := by
  refine diagEvent_log_keeps (keeps_evPending 40 rfl rfl ?_) _ _ rfl (raiseEvent_raised _ _ _).pend
  intro i h
  simp only [diagLogReg, State.raiseEvent_offs, State.offerRaise_offs, State.pushRecord_offs, State.discardBlock_offs,
    SAF_DIAG_COUNT.reg, SAF_DIAG_LAST.reg, EVR_LOST_COUNT.reg, HIF_EV_COUNT.reg, HIF_EV_PEND_LO.reg,
    HIF_RING_DISCARD_COUNT.reg] at h
  rcases h with ⟨n, h⟩ | ⟨n, h⟩ | h | ⟨n, h⟩ | ⟨n, h⟩ <;> omega

/-- A scratchpad error leaves the cores. -/
theorem spmError_cores (s : State) (k r a : Nat) (ue : Bool) : (s.spmError k r a ue).cores = s.cores := by
  have h : ∀ (t : State) (b : Bool), (t.raiseSram k b a).cores = t.cores := fun t b =>
    raiseSram_keeps (P := fun u => u.cores = t.cores) (keeps_cores rfl rfl) k b a rfl
  unfold State.spmError
  dsimp only
  repeat' (first | split | rw [h] | rfl)

end Sys2Proof.Machine
end

