-- ==== Sys2Proof/Laws/KTrgFn.lean ====
section
/-!
SUPPORT. What the operations of Sys2Proof.Machine.TrgFn keep, and the registers they may write.
-/
namespace Sys2Proof.Machine

/-- Registers `State.showCapPlan` may write. -/
def State.showCapPlan_offs (o : Nat) : Prop :=
  (∃ n, o = TRGU_CAP_CAPACITY.reg n) ∨ (∃ n, o = TRGU_CAP_PLAN.reg n)

theorem State.showCapPlan_keeps {P : State → Prop} (K : Keeps P 0x0 State.showCapPlan_offs) {s : State} (u : Nat) (hs : P s) :
    P (State.showCapPlan s u) := by
  have r0 := fun n => K.reg (TRGU_CAP_CAPACITY.reg n) (.inl ⟨n, rfl⟩)
  have r1 := fun n => K.reg (TRGU_CAP_PLAN.reg n) (.inr (⟨n, rfl⟩))
  unfold State.showCapPlan
  repeat' (first
    | with_reducible assumption
    | with_reducible (first | apply setFld_keeps | apply setNat_keeps)
    | with_reducible exact r0 _
    | with_reducible exact r1 _
    | intro _ _ _ _
    | intro _ _ _
    | intro _ _
    | with_reducible (first | apply ite_keeps | apply ite_keeps_pair)
    | dsimp only
    | split
    | with_reducible (first | apply r0 | apply r1))

theorem State.dropFire_keeps {P : State → Prop} (K : Keeps P 0x40 (fun _ => False)) {s : State} (u : Nat) (hs : P s) :
    P (State.dropFire s u) := by
  have t6 : ∀ (s : State) v, P s → P (s.putSaf v) := K.upd 6 rfl
  unfold State.dropFire
  repeat' (first
    | with_reducible assumption
    | with_reducible (first | apply t6)
    | intro _ _ _ _
    | intro _ _ _
    | intro _ _
    | with_reducible (first | apply ite_keeps | apply ite_keeps_pair)
    | dsimp only
    | split)

theorem State.closeCapture_keeps {P : State → Prop} (K : Keeps P 0x8000 (fun _ => False)) {s : State} (u : Nat) (flags : Nat) (hs : P s) :
    P (State.closeCapture s u flags) := by
  have k0 : Keeps P 0x8000 (fun _ => False) := K.sub rfl (fun _ h => h.elim)
  unfold State.closeCapture
  repeat' (first
    | with_reducible assumption
    | with_reducible (first | apply State.setUnit_keeps k0)
    | intro _ _ _ _
    | intro _ _ _
    | intro _ _
    | with_reducible (first | apply ite_keeps | apply ite_keeps_pair)
    | dsimp only
    | split)

theorem State.captureStep_keeps {P : State → Prop} (K : Keeps P 0x8000 (fun _ => False)) {s : State} (u : Nat) (hs : P s) :
    P (State.captureStep s u) := by
  have k0 : Keeps P 0x8000 (fun _ => False) := K.sub rfl (fun _ h => h.elim)
  unfold State.captureStep
  repeat' (first
    | with_reducible assumption
    | with_reducible (first | apply State.closeCapture_keeps k0 | apply foldl_keeps | apply foldl_keeps_pair)
    | intro _ _ _ _
    | intro _ _ _
    | intro _ _
    | with_reducible (first | apply ite_keeps | apply ite_keeps_pair)
    | dsimp only
    | split)

/-- Registers `State.storeInterval` may write. -/
def State.storeInterval_offs (o : Nat) : Prop :=
  (∃ n, o = DMC_CLIENT_OVERRUN_COUNT.reg n) ∨ (∃ n, o = TRG_CREG_DROP_COUNT.reg n)

theorem State.storeInterval_keeps {P : State → Prop} (K : Keeps P 0x3008000 State.storeInterval_offs) {s : State} (u : Nat) (i : Interval) (lost : Bool) (hs : P s) :
    P (State.storeInterval s u i lost) := by
  have k0 : Keeps P 0x3000000 (fun _ => False) := K.sub rfl (fun _ h => h.elim)
  have k1 : Keeps P 0x8000 (fun _ => False) := K.sub rfl (fun _ h => h.elim)
  have r0 := fun n => K.reg (DMC_CLIENT_OVERRUN_COUNT.reg n) (.inl ⟨n, rfl⟩)
  have r1 := fun n => K.reg (TRG_CREG_DROP_COUNT.reg n) (.inr (⟨n, rfl⟩))
  unfold State.storeInterval
  repeat' (first
    | with_reducible assumption
    | with_reducible (first | apply State.setDram_keeps k0 | apply State.setUnit_keeps k1 | apply bump_keeps)
    | with_reducible exact r0 _
    | with_reducible exact r1 _
    | intro _ _ _ _
    | intro _ _ _
    | intro _ _
    | with_reducible (first | apply ite_keeps | apply ite_keeps_pair)
    | dsimp only
    | split
    | with_reducible (first | apply r0 | apply r1))

/-- Registers `State.captureFrame` may write. -/
def State.captureFrame_offs (o : Nat) : Prop :=
  State.storeInterval_offs o

theorem State.captureFrame_keeps {P : State → Prop} (K : Keeps P 0x3008000 State.captureFrame_offs) {s : State} (u : Nat) (f : CapFrame) (lost : Bool) (hs : P s) :
    P (State.captureFrame s u f lost) := by
  have k0 : Keeps P 0x8000 (fun _ => False) := K.sub rfl (fun _ h => h.elim)
  have k1 : Keeps P 0x8000 (fun _ => False) := K.sub rfl (fun _ h => h.elim)
  have k2 : Keeps P 0x3008000 State.storeInterval_offs := K.sub rfl (fun _ h => h)
  unfold State.captureFrame
  repeat' (first
    | with_reducible assumption
    | with_reducible (first | apply State.captureStep_keeps k0 | apply State.setUnit_keeps k1 | apply State.storeInterval_keeps k2)
    | intro _ _ _ _
    | intro _ _ _
    | intro _ _
    | with_reducible (first | apply ite_keeps | apply ite_keeps_pair)
    | dsimp only
    | split)

/-- Registers `State.sendParts` may write. -/
def State.sendParts_offs (o : Nat) : Prop :=
  State.discardMany_offs o ∨ State.makeRoom_offs o ∨ State.sendBlock_offs o

theorem State.sendParts_keeps {P : State → Prop} (K : Keeps P 0x440000010 State.sendParts_offs) {s : State} (region : Nat) (unit : Nat) (num : Nat) (len : Nat) (a0 : Nat) (a1 : Nat) (a2 : List Byte) (hs : P s) :
    P (State.sendParts s region unit num len a0 a1 a2) := by
  have k0 : Keeps P 0x40000010 State.discardMany_offs := K.sub rfl (fun _ h => .inl h)
  have k1 : Keeps P 0x440000010 State.makeRoom_offs := K.sub rfl (fun _ h => .inr (.inl h))
  have k2 : Keeps P 0x40000010 State.sendBlock_offs := K.sub rfl (fun _ h => .inr (.inr (h)))
  induction a0 generalizing s region unit num len a1 a2 with
  | zero =>
    unfold State.sendParts
    repeat' (first
      | with_reducible assumption
      | with_reducible (first | apply State.discardMany_keeps k0 | apply State.makeRoom_keeps k1 | apply State.sendBlock_keeps k2)
      | (apply fst_keeps (by assumption))
      | intro _ _ _ _
      | intro _ _ _
      | intro _ _
      | with_reducible (first | apply ite_keeps | apply ite_keeps_pair)
      | dsimp only
      | split)
  | succ _ ih =>
    unfold State.sendParts
    repeat' (first
      | with_reducible assumption
      | with_reducible apply ih
      | with_reducible (first | apply State.discardMany_keeps k0 | apply State.makeRoom_keeps k1 | apply State.sendBlock_keeps k2)
      | (apply fst_keeps (by assumption))
      | intro _ _ _ _
      | intro _ _ _
      | intro _ _
      | with_reducible (first | apply ite_keeps | apply ite_keeps_pair)
      | dsimp only
      | split)

theorem State.primeUnit_keeps {P : State → Prop} (K : Keeps P 0x8040 (fun _ => False)) {s : State} (u : Nat) (hs : P s) :
    P (State.primeUnit s u) := by
  have k0 : Keeps P 0x40 (fun _ => False) := K.sub rfl (fun _ h => h.elim)
  have k1 : Keeps P 0x8000 (fun _ => False) := K.sub rfl (fun _ h => h.elim)
  unfold State.primeUnit
  repeat' (first
    | with_reducible assumption
    | with_reducible (first | apply State.dropFire_keeps k0 | apply State.setUnit_keeps k1)
    | intro _ _ _ _
    | intro _ _ _
    | intro _ _
    | with_reducible (first | apply ite_keeps | apply ite_keeps_pair)
    | dsimp only
    | split)

theorem State.armUnit_keeps {P : State → Prop} (K : Keeps P 0x8040 (fun _ => False)) {s : State} (u : Nat) (hs : P s) :
    P (State.armUnit s u) := by
  have k0 : Keeps P 0x8040 (fun _ => False) := K.sub rfl (fun _ h => h.elim)
  have k1 : Keeps P 0x8000 (fun _ => False) := K.sub rfl (fun _ h => h.elim)
  unfold State.armUnit
  repeat' (first
    | with_reducible assumption
    | with_reducible (first | apply State.primeUnit_keeps k0 | apply State.setUnit_keeps k1)
    | intro _ _ _ _
    | intro _ _ _
    | intro _ _
    | with_reducible (first | apply ite_keeps | apply ite_keeps_pair)
    | dsimp only
    | split)

theorem State.endReadout_keeps {P : State → Prop} (K : Keeps P 0x8040 (fun _ => False)) {s : State} (u : Nat) (hs : P s) :
    P (State.endReadout s u) := by
  have k0 : Keeps P 0x8040 (fun _ => False) := K.sub rfl (fun _ h => h.elim)
  have k1 : Keeps P 0x8000 (fun _ => False) := K.sub rfl (fun _ h => h.elim)
  unfold State.endReadout
  repeat' (first
    | with_reducible assumption
    | with_reducible (first | apply State.armUnit_keeps k0 | apply State.setUnit_keeps k1)
    | intro _ _ _ _
    | intro _ _ _
    | intro _ _
    | with_reducible (first | apply ite_keeps | apply ite_keeps_pair)
    | dsimp only
    | split)

/-- Registers `State.driveOutputs` may write. -/
def State.driveOutputs_offs (o : Nat) : Prop :=
  (∃ n, o = TRG_DOUT_STATUS.reg n)

theorem State.driveOutputs_keeps {P : State → Prop} (K : Keeps P 0x10000 State.driveOutputs_offs) {s : State} (u : Nat) (hs : P s) :
    P (State.driveOutputs s u) := by
  have k0 : Keeps P 0x10000 (fun _ => False) := K.sub rfl (fun _ h => h.elim)
  have r0 := fun n => K.reg (TRG_DOUT_STATUS.reg n) (⟨n, rfl⟩)
  unfold State.driveOutputs
  repeat' (first
    | with_reducible assumption
    | with_reducible (first | apply State.setDout_keeps k0 | apply setFlag_keeps | apply foldl_keeps | apply foldl_keeps_pair)
    | with_reducible exact r0 _
    | intro _ _ _ _
    | intro _ _ _
    | intro _ _
    | with_reducible (first | apply ite_keeps | apply ite_keeps_pair)
    | dsimp only
    | split
    | with_reducible (first | apply r0))

/-- Registers `State.fire` may write. -/
def State.fire_offs (o : Nat) : Prop :=
  (∃ n, o = TRGU_FIRE_COUNT.reg n) ∨ (∃ n, o = TRGU_LAST_VALUE.reg n) ∨ State.alarmUnit_offs o ∨
    State.driveOutputs_offs o ∨ State.raiseEvent_offs o ∨ State.settle_offs o

theorem State.fire_keeps {P : State → Prop} (K : Keeps P 0x440018070 State.fire_offs) {s : State} (u : Nat) (v : SrcValue) (hs : P s) :
    P (State.fire s u v) := by
  have k0 : Keeps P 0x440000070 State.alarmUnit_offs := K.sub rfl (fun _ h => .inr (.inr (.inl h)))
  have k1 : Keeps P 0x8000 (fun _ => False) := K.sub rfl (fun _ h => h.elim)
  have k2 : Keeps P 0x8000 (fun _ => False) := K.sub rfl (fun _ h => h.elim)
  have k3 : Keeps P 0x10000 State.driveOutputs_offs := K.sub rfl (fun _ h => .inr (.inr (.inr (.inl h))))
  have k4 : Keeps P 0x440000010 State.raiseEvent_offs := K.sub rfl (fun _ h => .inr (.inr (.inr (.inr (.inl h)))))
  have k5 : Keeps P 0x8000 (fun _ => False) := K.sub rfl (fun _ h => h.elim)
  have k6 : Keeps P 0x440000070 State.settle_offs := K.sub rfl (fun _ h => .inr (.inr (.inr (.inr (.inr (h))))))
  have r0 := fun n => K.reg (TRGU_FIRE_COUNT.reg n) (.inl ⟨n, rfl⟩)
  have r1 := fun n => K.reg (TRGU_LAST_VALUE.reg n) (.inr (.inl ⟨n, rfl⟩))
  have t6 : ∀ (s : State) v, P s → P (s.putSaf v) := K.upd 6 rfl
  unfold State.fire
  repeat' (first
    | with_reducible assumption
    | with_reducible (first | apply State.alarmUnit_keeps k0 | apply State.captureStep_keeps k1 | apply State.closeCapture_keeps k2 | apply State.driveOutputs_keeps k3 | apply State.raiseEvent_keeps k4 | apply State.setUnit_keeps k5 | apply State.settle_keeps k6 | apply bump_keeps | apply setNat_keeps | apply t6)
    | with_reducible exact r0 _
    | with_reducible exact r1 _
    | intro _ _ _ _
    | intro _ _ _
    | intro _ _
    | with_reducible (first | apply ite_keeps | apply ite_keeps_pair)
    | dsimp only
    | split
    | with_reducible (first | apply r0 | apply r1))

/-- Registers `State.shadow` may write. -/
def State.shadow_offs (o : Nat) : Prop :=
  o = SAF_SHADOW_COUNT.reg ∨ State.alarmUnit_offs o ∨ State.diagEvent_offs o

theorem State.shadow_keeps {P : State → Prop} (K : Keeps P 0x4c010c7f4 State.shadow_offs) {s : State} (u : Nat) (differs : Bool) (hs : P s) :
    P (State.shadow s u differs) := by
  have k0 : Keeps P 0x440000070 State.alarmUnit_offs := K.sub rfl (fun _ h => .inr (.inl h))
  have k1 : Keeps P 0x4c010c7f4 State.diagEvent_offs := K.sub rfl (fun _ h => .inr (.inr (h)))
  have r0 := K.reg (SAF_SHADOW_COUNT.reg) (.inl rfl)
  have t6 : ∀ (s : State) v, P s → P (s.putSaf v) := K.upd 6 rfl
  unfold State.shadow
  repeat' (first
    | with_reducible assumption
    | with_reducible (first | apply State.alarmUnit_keeps k0 | apply State.diagEvent_keeps k1 | apply bump_keeps | apply t6)
    | with_reducible exact r0
    | intro _ _ _ _
    | intro _ _ _
    | intro _ _
    | with_reducible (first | apply ite_keeps | apply ite_keeps_pair)
    | dsimp only
    | split
    | with_reducible (first | apply r0))

/-- Registers `State.edge` may write. -/
def State.edge_offs (o : Nat) : Prop :=
  State.fire_offs o

theorem State.edge_keeps {P : State → Prop} (K : Keeps P 0x440018070 State.edge_offs) {s : State} (u : Nat) (v : SrcValue) (hs : P s) :
    P (State.edge s u v) := by
  have k0 : Keeps P 0x440018070 State.fire_offs := K.sub rfl (fun _ h => h)
  have k1 : Keeps P 0x8040 (fun _ => False) := K.sub rfl (fun _ h => h.elim)
  unfold State.edge
  repeat' (first
    | with_reducible assumption
    | with_reducible (first | apply State.fire_keeps k0 | apply State.primeUnit_keeps k1)
    | intro _ _ _ _
    | intro _ _ _
    | intro _ _
    | with_reducible (first | apply ite_keeps | apply ite_keeps_pair)
    | dsimp only
    | split)

/-- Registers `State.evaluate` may write. -/
def State.evaluate_offs (o : Nat) : Prop :=
  (∃ n, o = TRGU_INHIBIT_COUNT.reg n) ∨ (∃ n, o = TRGU_MISSED_COUNT.reg n) ∨ State.edge_offs o ∨
    State.settle_offs o ∨ State.shadow_offs o

theorem State.evaluate_keeps {P : State → Prop} (K : Keeps P 0x4c011c7f4 State.evaluate_offs) {s : State} (u : Nat) (v : SrcValue) (differs : Bool) (hs : P s) :
    P (State.evaluate s u v differs) := by
  have k0 : Keeps P 0x440018070 State.edge_offs := K.sub rfl (fun _ h => .inr (.inr (.inl h)))
  have k1 : Keeps P 0x8040 (fun _ => False) := K.sub rfl (fun _ h => h.elim)
  have k2 : Keeps P 0x8000 (fun _ => False) := K.sub rfl (fun _ h => h.elim)
  have k3 : Keeps P 0x440000070 State.settle_offs := K.sub rfl (fun _ h => .inr (.inr (.inr (.inl h))))
  have k4 : Keeps P 0x4c010c7f4 State.shadow_offs := K.sub rfl (fun _ h => .inr (.inr (.inr (.inr (h)))))
  have r0 := fun n => K.reg (TRGU_INHIBIT_COUNT.reg n) (.inl ⟨n, rfl⟩)
  have r1 := fun n => K.reg (TRGU_MISSED_COUNT.reg n) (.inr (.inl ⟨n, rfl⟩))
  unfold State.evaluate
  repeat' (first
    | with_reducible assumption
    | with_reducible (first | apply State.edge_keeps k0 | apply State.primeUnit_keeps k1 | apply State.setUnit_keeps k2 | apply State.settle_keeps k3 | apply State.shadow_keeps k4 | apply bump_keeps)
    | with_reducible exact r0 _
    | with_reducible exact r1 _
    | intro _ _ _ _
    | intro _ _ _
    | intro _ _
    | with_reducible (first | apply ite_keeps | apply ite_keeps_pair)
    | dsimp only
    | split
    | with_reducible (first | apply r0 | apply r1))

/-- Registers `State.evalSource` may write. -/
def State.evalSource_offs (o : Nat) : Prop :=
  State.evaluate_offs o

theorem State.evalSource_keeps {P : State → Prop} (K : Keeps P 0x4c011c7f4 State.evalSource_offs) {s : State} (kind : Nat) (index : Nat) (value : Nat → Option SrcValue) (differs : BitVec 16) (hs : P s) :
    P (State.evalSource s kind index value differs) := by
  have k0 : Keeps P 0x4c011c7f4 State.evaluate_offs := K.sub rfl (fun _ h => h)
  unfold State.evalSource
  repeat' (first
    | with_reducible assumption
    | with_reducible (first | apply State.evaluate_keeps k0 | apply foldl_keeps | apply foldl_keeps_pair)
    | intro _ _ _ _
    | intro _ _ _
    | intro _ _
    | with_reducible (first | apply ite_keeps | apply ite_keeps_pair)
    | dsimp only
    | split)

theorem State.trgStart_keeps {P : State → Prop} (K : Keeps P 0x8040 (fun _ => False)) {s : State} (u : Nat) (hs : P s) :
    P (State.trgStart s u) := by
  have k0 : Keeps P 0x8040 (fun _ => False) := K.sub rfl (fun _ h => h.elim)
  have k1 : Keeps P 0x8000 (fun _ => False) := K.sub rfl (fun _ h => h.elim)
  unfold State.trgStart
  repeat' (first
    | with_reducible assumption
    | with_reducible (first | apply State.armUnit_keeps k0 | apply State.setUnit_keeps k1)
    | intro _ _ _ _
    | intro _ _ _
    | intro _ _
    | with_reducible (first | apply ite_keeps | apply ite_keeps_pair)
    | dsimp only
    | split)

/-- Registers `State.trgStop` may write. -/
def State.trgStop_offs (o : Nat) : Prop :=
  (∃ n, o = TRG_CREG_ABORT_COUNT.reg n)

theorem State.trgStop_keeps {P : State → Prop} (K : Keeps P 0x8040 State.trgStop_offs) {s : State} (u : Nat) (hs : P s) :
    P (State.trgStop s u) := by
  have k0 : Keeps P 0x40 (fun _ => False) := K.sub rfl (fun _ h => h.elim)
  have k1 : Keeps P 0x8000 (fun _ => False) := K.sub rfl (fun _ h => h.elim)
  have r0 := fun n => K.reg (TRG_CREG_ABORT_COUNT.reg n) (⟨n, rfl⟩)
  unfold State.trgStop
  repeat' (first
    | with_reducible assumption
    | with_reducible (first | apply State.dropFire_keeps k0 | apply State.setUnit_keeps k1 | apply bump_keeps)
    | with_reducible exact r0 _
    | intro _ _ _ _
    | intro _ _ _
    | intro _ _
    | with_reducible (first | apply ite_keeps | apply ite_keeps_pair)
    | dsimp only
    | split
    | with_reducible (first | apply r0))

theorem State.trgArm_keeps {P : State → Prop} (K : Keeps P 0x8040 (fun _ => False)) {s : State} (u : Nat) (hs : P s) :
    P (State.trgArm s u).1 := by
  have k0 : Keeps P 0x8040 (fun _ => False) := K.sub rfl (fun _ h => h.elim)
  unfold State.trgArm
  repeat' (first
    | with_reducible assumption
    | with_reducible (first | apply State.armUnit_keeps k0)
    | intro _ _ _ _
    | intro _ _ _
    | intro _ _
    | with_reducible (first | apply ite_keeps | apply ite_keeps_pair)
    | dsimp only
    | split)

theorem State.trgDisarm_keeps {P : State → Prop} (K : Keeps P 0x8040 (fun _ => False)) {s : State} (u : Nat) (hs : P s) :
    P (State.trgDisarm s u).1 := by
  have k0 : Keeps P 0x40 (fun _ => False) := K.sub rfl (fun _ h => h.elim)
  have k1 : Keeps P 0x8000 (fun _ => False) := K.sub rfl (fun _ h => h.elim)
  unfold State.trgDisarm
  repeat' (first
    | with_reducible assumption
    | with_reducible (first | apply State.dropFire_keeps k0 | apply State.setUnit_keeps k1)
    | intro _ _ _ _
    | intro _ _ _
    | intro _ _
    | with_reducible (first | apply ite_keeps | apply ite_keeps_pair)
    | dsimp only
    | split)

theorem State.trgChange_keeps {P : State → Prop} (K : Keeps P 0x8040 (fun _ => False)) {s : State} {new : State} {t : State} (u : Nat) (ht : P t) :
    P (State.trgChange s new u t) := by
  have k0 : Keeps P 0x8040 (fun _ => False) := K.sub rfl (fun _ h => h.elim)
  have k1 : Keeps P 0x8000 (fun _ => False) := K.sub rfl (fun _ h => h.elim)
  have k2 : Keeps P 0x40 (fun _ => False) := K.sub rfl (fun _ h => h.elim)
  have k3 : Keeps P 0x8000 (fun _ => False) := K.sub rfl (fun _ h => h.elim)
  have k4 : Keeps P 0x8040 (fun _ => False) := K.sub rfl (fun _ h => h.elim)
  unfold State.trgChange
  repeat' (first
    | with_reducible assumption
    | with_reducible (first | apply State.armUnit_keeps k0 | apply State.closeCapture_keeps k1 | apply State.dropFire_keeps k2 | apply State.setUnit_keeps k3 | apply State.trgStart_keeps k4)
    | intro _ _ _ _
    | intro _ _ _
    | intro _ _
    | with_reducible (first | apply ite_keeps | apply ite_keeps_pair)
    | dsimp only
    | split)

/-- Registers `State.trgChangeAll` may write. -/
def State.trgChangeAll_offs (o : Nat) : Prop :=
  State.settle_offs o

theorem State.trgChangeAll_keeps {P : State → Prop} (K : Keeps P 0x440008070 State.trgChangeAll_offs) {s : State} {new : State} (hnew : P new) :
    P (State.trgChangeAll s new) := by
  have k0 : Keeps P 0x440000070 State.settle_offs := K.sub rfl (fun _ h => h)
  have k1 : Keeps P 0x8040 (fun _ => False) := K.sub rfl (fun _ h => h.elim)
  unfold State.trgChangeAll
  repeat' (first
    | with_reducible assumption
    | with_reducible (first | apply State.settle_keeps k0 | apply State.trgChange_keeps k1 | apply foldl_keeps | apply foldl_keeps_pair)
    | intro _ _ _ _
    | intro _ _ _
    | intro _ _
    | with_reducible (first | apply ite_keeps | apply ite_keeps_pair)
    | dsimp only
    | split)

/-- Registers `State.trgFail` may write. -/
def State.trgFail_offs (o : Nat) : Prop :=
  o = TRG_STATUS.reg

theorem State.trgFail_keeps {P : State → Prop} (K : Keeps P 0x8000 State.trgFail_offs) {s : State} (hs : P s) :
    P (State.trgFail s) := by
  have k0 : Keeps P 0x8000 (fun _ => False) := K.sub rfl (fun _ h => h.elim)
  have k1 : Keeps P 0x8000 (fun _ => False) := K.sub rfl (fun _ h => h.elim)
  have r0 := K.reg (TRG_STATUS.reg) (rfl)
  unfold State.trgFail
  repeat' (first
    | with_reducible assumption
    | with_reducible (first | apply State.closeCapture_keeps k0 | apply State.setUnit_keeps k1 | apply setFlag_keeps | apply foldl_keeps | apply foldl_keeps_pair)
    | with_reducible exact r0
    | intro _ _ _ _
    | intro _ _ _
    | intro _ _
    | with_reducible (first | apply ite_keeps | apply ite_keeps_pair)
    | dsimp only
    | split
    | with_reducible (first | apply r0))

/-- Registers `execCaptureReadout` may write. -/
def execCaptureReadout_offs (o : Nat) : Prop :=
  State.sendParts_offs o ∨ State.settle_offs o

theorem execCaptureReadout_keeps {P : State → Prop} (K : Keeps P 0x440088070 execCaptureReadout_offs) {s : State} (u : Fin 16) (hs : P s) :
    ∃ t, (execCaptureReadout u s) = .next t ∧ P t := by
  have k0 : Keeps P 0x8040 (fun _ => False) := K.sub rfl (fun _ h => h.elim)
  have k1 : Keeps P 0x440000010 State.sendParts_offs := K.sub rfl (fun _ h => .inl h)
  have k2 : Keeps P 0x440000070 State.settle_offs := K.sub rfl (fun _ h => .inr (h))
  have t19 : ∀ (s : State) v, P s → P (s.putCapRecs v) := K.upd 19 rfl
  refine ⟨_, rfl, ?_⟩
  repeat' (first
    | with_reducible assumption
    | with_reducible (first | apply State.endReadout_keeps k0 | apply State.sendParts_keeps k1 | apply State.settle_keeps k2 | apply t19)
    | intro _ _ _ _
    | intro _ _ _
    | intro _ _
    | with_reducible (first | apply ite_keeps | apply ite_keeps_pair)
    | dsimp only
    | split)

theorem execDoutHoldExpiry_keeps {P : State → Prop} (K : Keeps P 0x10000 (fun _ => False)) {s : State} (k : Fin 4) (hs : P s) :
    ∃ t, (execDoutHoldExpiry k s) = .next t ∧ P t := by
  have k0 : Keeps P 0x10000 (fun _ => False) := K.sub rfl (fun _ h => h.elim)
  refine ⟨_, rfl, ?_⟩
  repeat' (first
    | with_reducible assumption
    | with_reducible (first | apply State.setDout_keeps k0)
    | intro _ _ _ _
    | intro _ _ _
    | intro _ _
    | with_reducible (first | apply ite_keeps | apply ite_keeps_pair)
    | dsimp only
    | split)

end Sys2Proof.Machine
end

