-- ==== Sys2Proof/Laws/KTiming.lean ====
section
/-!
SUPPORT. What the operations of Sys2Proof.Machine.Timing keep, and the registers they may write.
-/
namespace Sys2Proof.Machine

theorem State.setTin_keeps {P : State → Prop} (K : Keeps P 0x800 (fun _ => False)) {s : State} (i : Nat) (x : Tin) (hs : P s) :
    P (State.setTin s i x) := by
  have t11 : ∀ (s : State) v, P s → P (s.putBlt v) := K.upd 11 rfl
  unfold State.setTin
  repeat' (first
    | with_reducible assumption
    | with_reducible (first | apply t11)
    | intro _ _ _ _
    | intro _ _ _
    | intro _ _
    | with_reducible (first | apply ite_keeps | apply ite_keeps_pair)
    | dsimp only
    | split)

theorem State.setPair_keeps {P : State → Prop} (K : Keeps P 0x800 (fun _ => False)) {s : State} (p : Nat) (x : PairUnit) (hs : P s) :
    P (State.setPair s p x) := by
  have t11 : ∀ (s : State) v, P s → P (s.putBlt v) := K.upd 11 rfl
  unfold State.setPair
  repeat' (first
    | with_reducible assumption
    | with_reducible (first | apply t11)
    | intro _ _ _ _
    | intro _ _ _
    | intro _ _
    | with_reducible (first | apply ite_keeps | apply ite_keeps_pair)
    | dsimp only
    | split)

theorem State.setBelt_keeps {P : State → Prop} (K : Keeps P 0x800 (fun _ => False)) {s : State} (k : Nat) (x : Belt) (hs : P s) :
    P (State.setBelt s k x) := by
  have t11 : ∀ (s : State) v, P s → P (s.putBlt v) := K.upd 11 rfl
  unfold State.setBelt
  repeat' (first
    | with_reducible assumption
    | with_reducible (first | apply t11)
    | intro _ _ _ _
    | intro _ _ _
    | intro _ _
    | with_reducible (first | apply ite_keeps | apply ite_keeps_pair)
    | dsimp only
    | split)

theorem State.openGate_keeps {P : State → Prop} (K : Keeps P 0x800 (fun _ => False)) {s : State} (i : Nat) (hs : P s) :
    P (State.openGate s i) := by
  have k0 : Keeps P 0x800 (fun _ => False) := K.sub rfl (fun _ h => h.elim)
  have k1 : Keeps P 0x800 (fun _ => False) := K.sub rfl (fun _ h => h.elim)
  unfold State.openGate
  repeat' (first
    | with_reducible assumption
    | with_reducible (first | apply State.setBelt_keeps k0 | apply State.setTin_keeps k1 | apply foldl_keeps | apply foldl_keeps_pair)
    | intro _ _ _ _
    | intro _ _ _
    | intro _ _
    | with_reducible (first | apply ite_keeps | apply ite_keeps_pair)
    | dsimp only
    | split)

theorem State.enableTin_keeps {P : State → Prop} (K : Keeps P 0x800 (fun _ => False)) {s : State} (i : Nat) (hs : P s) :
    P (State.enableTin s i) := by
  have k0 : Keeps P 0x800 (fun _ => False) := K.sub rfl (fun _ h => h.elim)
  have k1 : Keeps P 0x800 (fun _ => False) := K.sub rfl (fun _ h => h.elim)
  unfold State.enableTin
  repeat' (first
    | with_reducible assumption
    | with_reducible (first | apply State.openGate_keeps k0 | apply State.setTin_keeps k1)
    | intro _ _ _ _
    | intro _ _ _
    | intro _ _
    | with_reducible (first | apply ite_keeps | apply ite_keeps_pair)
    | dsimp only
    | split)

theorem State.tinChange_keeps {P : State → Prop} (K : Keeps P 0x800 (fun _ => False)) {old : State} {new : State} (i : Nat) (hnew : P new) :
    P (State.tinChange old new i) := by
  have k0 : Keeps P 0x800 (fun _ => False) := K.sub rfl (fun _ h => h.elim)
  have k1 : Keeps P 0x800 (fun _ => False) := K.sub rfl (fun _ h => h.elim)
  have k2 : Keeps P 0x800 (fun _ => False) := K.sub rfl (fun _ h => h.elim)
  unfold State.tinChange
  repeat' (first
    | with_reducible assumption
    | with_reducible (first | apply State.enableTin_keeps k0 | apply State.openGate_keeps k1 | apply State.setTin_keeps k2)
    | intro _ _ _ _
    | intro _ _ _
    | intro _ _
    | with_reducible (first | apply ite_keeps | apply ite_keeps_pair)
    | dsimp only
    | split)

theorem State.tinChangeAll_keeps {P : State → Prop} (K : Keeps P 0x800 (fun _ => False)) {old : State} {new : State} (hnew : P new) :
    P (State.tinChangeAll old new) := by
  have k0 : Keeps P 0x800 (fun _ => False) := K.sub rfl (fun _ h => h.elim)
  unfold State.tinChangeAll
  repeat' (first
    | with_reducible assumption
    | with_reducible (first | apply State.tinChange_keeps k0 | apply foldl_keeps | apply foldl_keeps_pair)
    | intro _ _ _ _
    | intro _ _ _
    | intro _ _
    | with_reducible (first | apply ite_keeps | apply ite_keeps_pair)
    | dsimp only
    | split)

/-- Registers `State.closePairBlock` may write. -/
def State.closePairBlock_offs (o : Nat) : Prop :=
  State.pushBlock_offs o

theorem State.closePairBlock_keeps {P : State → Prop} (K : Keeps P 0x40000810 State.closePairBlock_offs) {s : State} (hs : P s) :
    P (State.closePairBlock s) := by
  have k0 : Keeps P 0x40000010 State.pushBlock_offs := K.sub rfl (fun _ h => h)
  have t11 : ∀ (s : State) v, P s → P (s.putBlt v) := K.upd 11 rfl
  unfold State.closePairBlock
  repeat' (first
    | with_reducible assumption
    | with_reducible (first | apply State.pushBlock_keeps k0 | apply t11)
    | intro _ _ _ _
    | intro _ _ _
    | intro _ _
    | with_reducible (first | apply ite_keeps | apply ite_keeps_pair)
    | dsimp only
    | split)

/-- Registers `State.addPairEntry` may write. -/
def State.addPairEntry_offs (o : Nat) : Prop :=
  State.closePairBlock_offs o

theorem State.addPairEntry_keeps {P : State → Prop} (K : Keeps P 0x40000810 State.addPairEntry_offs) {s : State} (e : List Byte) (hs : P s) :
    P (State.addPairEntry s e) := by
  have k0 : Keeps P 0x40000810 State.closePairBlock_offs := K.sub rfl (fun _ h => h)
  have t11 : ∀ (s : State) v, P s → P (s.putBlt v) := K.upd 11 rfl
  unfold State.addPairEntry
  repeat' (first
    | with_reducible assumption
    | with_reducible (first | apply State.closePairBlock_keeps k0 | apply t11)
    | intro _ _ _ _
    | intro _ _ _
    | intro _ _
    | with_reducible (first | apply ite_keeps | apply ite_keeps_pair)
    | dsimp only
    | split)

/-- Registers `State.pairResult` may write. -/
def State.pairResult_offs (o : Nat) : Prop :=
  (∃ n, o = BLT_PAIR_LAST_LO.reg n) ∨ (∃ n, o = BLT_PAIR_LAST_LO.reg n + 4) ∨
    (∃ n, o = BLT_PAIR_PAIRED_COUNT.reg n) ∨ (∃ n, o = BLT_PAIR_STATUS.reg n) ∨ State.addPairEntry_offs o ∨
    State.evalSource_offs o

theorem State.pairResult_keeps {P : State → Prop} (K : Keeps P 0x4c011cff4 State.pairResult_offs) {s : State} (p : Nat) (start : Nat) (stop : Nat) (coincident : Bool) (differs : BitVec 16) (hs : P s) :
    P (State.pairResult s p start stop coincident differs) := by
  have k0 : Keeps P 0x40000810 State.addPairEntry_offs := K.sub rfl (fun _ h => .inr (.inr (.inr (.inr (.inl h)))))
  have k1 : Keeps P 0x4c011c7f4 State.evalSource_offs := K.sub rfl (fun _ h => .inr (.inr (.inr (.inr (.inr (h))))))
  have r0 := fun n => K.reg (BLT_PAIR_LAST_LO.reg n) (.inl ⟨n, rfl⟩)
  have r1 := fun n => K.reg (BLT_PAIR_LAST_LO.reg n + 4) (.inr (.inl ⟨n, rfl⟩))
  have r2 := fun n => K.reg (BLT_PAIR_PAIRED_COUNT.reg n) (.inr (.inr (.inl ⟨n, rfl⟩)))
  have r3 := fun n => K.reg (BLT_PAIR_STATUS.reg n) (.inr (.inr (.inr (.inl ⟨n, rfl⟩))))
  unfold State.pairResult
  repeat' (first
    | with_reducible assumption
    | with_reducible (first | apply State.addPairEntry_keeps k0 | apply State.evalSource_keeps k1 | apply bump_keeps | apply setFlag_keeps | apply setReg64_keeps)
    | with_reducible exact r0 _
    | with_reducible exact r1 _
    | with_reducible exact r2 _
    | with_reducible exact r3 _
    | intro _ _ _ _
    | intro _ _ _
    | intro _ _
    | with_reducible (first | apply ite_keeps | apply ite_keeps_pair)
    | dsimp only
    | split
    | with_reducible (first | apply r0 | apply r1 | apply r2 | apply r3))

/-- Registers `State.pairRelease` may write. -/
def State.pairRelease_offs (o : Nat) : Prop :=
  State.pairResult_offs o

theorem State.pairRelease_keeps {P : State → Prop} (K : Keeps P 0x4c011cff4 State.pairRelease_offs) {s : State} (p : Nat) (hs : P s) :
    P (State.pairRelease s p) := by
  have k0 : Keeps P 0x4c011cff4 State.pairResult_offs := K.sub rfl (fun _ h => h)
  have k1 : Keeps P 0x800 (fun _ => False) := K.sub rfl (fun _ h => h.elim)
  unfold State.pairRelease
  repeat' (first
    | with_reducible assumption
    | with_reducible (first | apply State.pairResult_keeps k0 | apply State.setPair_keeps k1)
    | intro _ _ _ _
    | intro _ _ _
    | intro _ _
    | with_reducible (first | apply ite_keeps | apply ite_keeps_pair)
    | dsimp only
    | split)

/-- Registers `State.pairSettle` may write. -/
def State.pairSettle_offs (o : Nat) : Prop :=
  State.pairRelease_offs o

theorem State.pairSettle_keeps {P : State → Prop} (K : Keeps P 0x4c011cff4 State.pairSettle_offs) {s : State} (hs : P s) :
    P (State.pairSettle s) := by
  have k0 : Keeps P 0x4c011cff4 State.pairRelease_offs := K.sub rfl (fun _ h => h)
  unfold State.pairSettle
  repeat' (first
    | with_reducible assumption
    | with_reducible (first | apply State.pairRelease_keeps k0 | apply foldl_keeps | apply foldl_keeps_pair)
    | intro _ _ _ _
    | intro _ _ _
    | intro _ _
    | with_reducible (first | apply ite_keeps | apply ite_keeps_pair)
    | dsimp only
    | split)

/-- Registers `State.pairLone` may write. -/
def State.pairLone_offs (o : Nat) : Prop :=
  State.pairResult_offs o

theorem State.pairLone_keeps {P : State → Prop} (K : Keeps P 0x4c011cff4 State.pairLone_offs) {s : State} (p : Nat) (t : Nat) (differs : BitVec 16) (hs : P s) :
    P (State.pairLone s p t differs) := by
  have k0 : Keeps P 0x4c011cff4 State.pairResult_offs := K.sub rfl (fun _ h => h)
  have k1 : Keeps P 0x800 (fun _ => False) := K.sub rfl (fun _ h => h.elim)
  unfold State.pairLone
  repeat' (first
    | with_reducible assumption
    | with_reducible (first | apply State.pairResult_keeps k0 | apply State.setPair_keeps k1)
    | intro _ _ _ _
    | intro _ _ _
    | intro _ _
    | with_reducible (first | apply ite_keeps | apply ite_keeps_pair)
    | dsimp only
    | split)

/-- Registers `State.pairStart` may write. -/
def State.pairStart_offs (o : Nat) : Prop :=
  State.pairLone_offs o ∨ State.pairRelease_offs o ∨ State.pairResult_offs o

theorem State.pairStart_keeps {P : State → Prop} (K : Keeps P 0x4c011cff4 State.pairStart_offs) {s : State} (p : Nat) (t : Nat) (differs : BitVec 16) (hs : P s) :
    P (State.pairStart s p t differs) := by
  have k0 : Keeps P 0x4c011cff4 State.pairLone_offs := K.sub rfl (fun _ h => .inl h)
  have k1 : Keeps P 0x4c011cff4 State.pairRelease_offs := K.sub rfl (fun _ h => .inr (.inl h))
  have k2 : Keeps P 0x4c011cff4 State.pairResult_offs := K.sub rfl (fun _ h => .inr (.inr (h)))
  have k3 : Keeps P 0x800 (fun _ => False) := K.sub rfl (fun _ h => h.elim)
  unfold State.pairStart
  repeat' (first
    | with_reducible assumption
    | with_reducible (first | apply State.pairLone_keeps k0 | apply State.pairRelease_keeps k1 | apply State.pairResult_keeps k2 | apply State.setPair_keeps k3)
    | intro _ _ _ _
    | intro _ _ _
    | intro _ _
    | with_reducible (first | apply ite_keeps | apply ite_keeps_pair)
    | dsimp only
    | split)

/-- Registers `State.pairStop` may write. -/
def State.pairStop_offs (o : Nat) : Prop :=
  State.pairRelease_offs o ∨ State.pairResult_offs o

theorem State.pairStop_keeps {P : State → Prop} (K : Keeps P 0x4c011cff4 State.pairStop_offs) {s : State} (p : Nat) (e : Nat) (differs : BitVec 16) (hs : P s) :
    P (State.pairStop s p e differs) := by
  have k0 : Keeps P 0x4c011cff4 State.pairRelease_offs := K.sub rfl (fun _ h => .inl h)
  have k1 : Keeps P 0x4c011cff4 State.pairResult_offs := K.sub rfl (fun _ h => .inr (h))
  have k2 : Keeps P 0x800 (fun _ => False) := K.sub rfl (fun _ h => h.elim)
  unfold State.pairStop
  repeat' (first
    | with_reducible assumption
    | with_reducible (first | apply State.pairRelease_keeps k0 | apply State.pairResult_keeps k1 | apply State.setPair_keeps k2)
    | intro _ _ _ _
    | intro _ _ _
    | intro _ _
    | with_reducible (first | apply ite_keeps | apply ite_keeps_pair)
    | dsimp only
    | split)

/-- Registers `State.pairStamp` may write. -/
def State.pairStamp_offs (o : Nat) : Prop :=
  State.pairStart_offs o ∨ State.pairStop_offs o

theorem State.pairStamp_keeps {P : State → Prop} (K : Keeps P 0x4c011cff4 State.pairStamp_offs) {s : State} (i : Nat) (t : Nat) (differs : BitVec 16) (hs : P s) :
    P (State.pairStamp s i t differs) := by
  have k0 : Keeps P 0x4c011cff4 State.pairStart_offs := K.sub rfl (fun _ h => .inl h)
  have k1 : Keeps P 0x4c011cff4 State.pairStop_offs := K.sub rfl (fun _ h => .inr (h))
  unfold State.pairStamp
  repeat' (first
    | with_reducible assumption
    | with_reducible (first | apply State.pairStart_keeps k0 | apply State.pairStop_keeps k1 | apply foldl_keeps | apply foldl_keeps_pair)
    | intro _ _ _ _
    | intro _ _ _
    | intro _ _
    | with_reducible (first | apply ite_keeps | apply ite_keeps_pair)
    | dsimp only
    | split)

theorem State.pairChangeAll_keeps {P : State → Prop} (K : Keeps P 0x800 (fun _ => False)) {old : State} {new : State} (hnew : P new) :
    P (State.pairChangeAll old new) := by
  have k0 : Keeps P 0x800 (fun _ => False) := K.sub rfl (fun _ h => h.elim)
  unfold State.pairChangeAll
  repeat' (first
    | with_reducible assumption
    | with_reducible (first | apply State.setPair_keeps k0 | apply foldl_keeps | apply foldl_keeps_pair)
    | intro _ _ _ _
    | intro _ _ _
    | intro _ _
    | with_reducible (first | apply ite_keeps | apply ite_keeps_pair)
    | dsimp only
    | split)

/-- Registers `execPairHoldExpiry` may write. -/
def execPairHoldExpiry_offs (o : Nat) : Prop :=
  (∃ n, o = BLT_PAIR_DROP_COUNT.reg n)

theorem execPairHoldExpiry_keeps {P : State → Prop} (K : Keeps P 0x800 execPairHoldExpiry_offs) {s : State} (p : Fin 4) (hs : P s) :
    ∃ t, (execPairHoldExpiry p s) = .next t ∧ P t := by
  have k0 : Keeps P 0x800 (fun _ => False) := K.sub rfl (fun _ h => h.elim)
  have r0 := fun n => K.reg (BLT_PAIR_DROP_COUNT.reg n) (⟨n, rfl⟩)
  refine ⟨_, rfl, ?_⟩
  repeat' (first
    | with_reducible assumption
    | with_reducible (first | apply State.setPair_keeps k0 | apply bump_keeps)
    | with_reducible exact r0 _
    | intro _ _ _ _
    | intro _ _ _
    | intro _ _
    | with_reducible (first | apply ite_keeps | apply ite_keeps_pair)
    | dsimp only
    | split
    | with_reducible (first | apply r0))

/-- Registers `execPairOrphan` may write. -/
def execPairOrphan_offs (o : Nat) : Prop :=
  (∃ n, o = BLT_PAIR_ORPHAN_COUNT.reg n) ∨ State.pairRelease_offs o

theorem execPairOrphan_keeps {P : State → Prop} (K : Keeps P 0x4c011cff4 execPairOrphan_offs) {s : State} (p : Fin 4) (hs : P s) :
    ∃ t, (execPairOrphan p s) = .next t ∧ P t := by
  have k0 : Keeps P 0x4c011cff4 State.pairRelease_offs := K.sub rfl (fun _ h => .inr (h))
  have k1 : Keeps P 0x800 (fun _ => False) := K.sub rfl (fun _ h => h.elim)
  have r0 := fun n => K.reg (BLT_PAIR_ORPHAN_COUNT.reg n) (.inl ⟨n, rfl⟩)
  refine ⟨_, rfl, ?_⟩
  repeat' (first
    | with_reducible assumption
    | with_reducible (first | apply State.pairRelease_keeps k0 | apply State.setPair_keeps k1 | apply bump_keeps)
    | with_reducible exact r0 _
    | intro _ _ _ _
    | intro _ _ _
    | intro _ _
    | with_reducible (first | apply ite_keeps | apply ite_keeps_pair)
    | dsimp only
    | split
    | with_reducible (first | apply r0))

/-- Registers `execPairBlockTimeout` may write. -/
def execPairBlockTimeout_offs (o : Nat) : Prop :=
  State.closePairBlock_offs o

theorem execPairBlockTimeout_keeps {P : State → Prop} (K : Keeps P 0x40000810 execPairBlockTimeout_offs) {s : State} (hs : P s) :
    ∃ t, (execPairBlockTimeout s) = .next t ∧ P t := by
  have k0 : Keeps P 0x40000810 State.closePairBlock_offs := K.sub rfl (fun _ h => h)
  refine ⟨_, rfl, ?_⟩
  repeat' (first
    | with_reducible assumption
    | with_reducible (first | apply State.closePairBlock_keeps k0)
    | intro _ _ _ _
    | intro _ _ _
    | intro _ _
    | with_reducible (first | apply ite_keeps | apply ite_keeps_pair)
    | dsimp only
    | split)

theorem State.retarget_keeps {P : State → Prop} (K : Keeps P 0x1000 (fun _ => False)) {s : State} (hs : P s) :
    P (State.retarget s) := by
  have t12 : ∀ (s : State) v, P s → P (s.putTmb v) := K.upd 12 rfl
  unfold State.retarget
  repeat' (first
    | with_reducible assumption
    | with_reducible (first | apply t12)
    | intro _ _ _ _
    | intro _ _ _
    | intro _ _
    | with_reducible (first | apply ite_keeps | apply ite_keeps_pair)
    | dsimp only
    | split)

/-- Registers `State.setTrim` may write. -/
def State.setTrim_offs (o : Nat) : Prop :=
  o = TMB_TRIM.reg

theorem State.setTrim_keeps {P : State → Prop} (K : Keeps P 0x1000 State.setTrim_offs) {s : State} (w : Word) (hs : P s) :
    P (State.setTrim s w) := by
  have k0 : Keeps P 0x1000 (fun _ => False) := K.sub rfl (fun _ h => h.elim)
  have r0 := K.reg (TMB_TRIM.reg) (rfl)
  unfold State.setTrim
  repeat' (first
    | with_reducible assumption
    | with_reducible (first | apply State.retarget_keeps k0 | apply setFld_keeps)
    | with_reducible exact r0
    | intro _ _ _ _
    | intro _ _ _
    | intro _ _
    | with_reducible (first | apply ite_keeps | apply ite_keeps_pair)
    | dsimp only
    | split
    | with_reducible (first | apply r0))

/-- Registers `State.writeTrim` may write. -/
def State.writeTrim_offs (o : Nat) : Prop :=
  o = HIF_RWL_ADDR.reg ∨ o = HIF_RWL_IGNORED_COUNT.reg ∨ State.setTrim_offs o

theorem State.writeTrim_keeps {P : State → Prop} (K : Keeps P 0x1000 State.writeTrim_offs) {s : State} (w : Word) (hs : P s) :
    P (State.writeTrim s w) := by
  have k0 : Keeps P 0x1000 State.setTrim_offs := K.sub rfl (fun _ h => .inr (.inr (h)))
  have r0 := K.reg (HIF_RWL_ADDR.reg) (.inl rfl)
  have r1 := K.reg (HIF_RWL_IGNORED_COUNT.reg) (.inr (.inl rfl))
  unfold State.writeTrim
  repeat' (first
    | with_reducible assumption
    | with_reducible (first | apply State.setTrim_keeps k0 | apply bump_keeps | apply setNat_keeps)
    | with_reducible exact r0
    | with_reducible exact r1
    | intro _ _ _ _
    | intro _ _ _
    | intro _ _
    | with_reducible (first | apply ite_keeps | apply ite_keeps_pair)
    | dsimp only
    | split
    | with_reducible (first | apply r0 | apply r1))

/-- Registers `execTrimWrite` may write. -/
def execTrimWrite_offs (o : Nat) : Prop :=
  State.writeTrim_offs o

theorem execTrimWrite_keeps {P : State → Prop} (K : Keeps P 0x1000 execTrimWrite_offs) {s : State} (w : Word) (hs : P s) :
    ∃ t, (execTrimWrite w s) = .next t ∧ P t := by
  have k0 : Keeps P 0x1000 State.writeTrim_offs := K.sub rfl (fun _ h => h)
  refine ⟨_, rfl, ?_⟩
  repeat' (first
    | with_reducible assumption
    | with_reducible (first | apply State.writeTrim_keeps k0)
    | intro _ _ _ _
    | intro _ _ _
    | intro _ _
    | with_reducible (first | apply ite_keeps | apply ite_keeps_pair)
    | dsimp only
    | split)

/-- Registers `execTrimStep` may write. -/
def execTrimStep_offs (o : Nat) : Prop :=
  o = TMB_TRIM_USED.reg

theorem execTrimStep_keeps {P : State → Prop} (K : Keeps P 0x0 execTrimStep_offs) {s : State} (hs : P s) :
    ∃ t, (execTrimStep s) = .next t ∧ P t := by
  have r0 := K.reg (TMB_TRIM_USED.reg) (rfl)
  refine ⟨_, rfl, ?_⟩
  repeat' (first
    | with_reducible assumption
    | with_reducible (first | apply setFldInt_keeps)
    | with_reducible exact r0
    | intro _ _ _ _
    | intro _ _ _
    | intro _ _
    | with_reducible (first | apply ite_keeps | apply ite_keeps_pair)
    | dsimp only
    | split
    | with_reducible (first | apply r0))

/-- Registers `State.ppsTo` may write. -/
def State.ppsTo_offs (o : Nat) : Prop :=
  o = TMB_PPS_STATUS.reg

theorem State.ppsTo_keeps {P : State → Prop} (K : Keeps P 0x1000 State.ppsTo_offs) {s : State} (st : Nat) (hs : P s) :
    P (State.ppsTo s st) := by
  have r0 := K.reg (TMB_PPS_STATUS.reg) (rfl)
  have t12 : ∀ (s : State) v, P s → P (s.putTmb v) := K.upd 12 rfl
  unfold State.ppsTo
  repeat' (first
    | with_reducible assumption
    | with_reducible (first | apply setFlag_keeps | apply setFld_keeps | apply t12)
    | with_reducible exact r0
    | intro _ _ _ _
    | intro _ _ _
    | intro _ _
    | with_reducible (first | apply ite_keeps | apply ite_keeps_pair)
    | dsimp only
    | split
    | with_reducible (first | apply r0))

/-- Registers `State.ppsChange` may write. -/
def State.ppsChange_offs (o : Nat) : Prop :=
  State.ppsTo_offs o

theorem State.ppsChange_keeps {P : State → Prop} (K : Keeps P 0x1000 State.ppsChange_offs) {old : State} {new : State} (hnew : P new) :
    P (State.ppsChange old new) := by
  have k0 : Keeps P 0x1000 State.ppsTo_offs := K.sub rfl (fun _ h => h)
  have k1 : Keeps P 0x1000 (fun _ => False) := K.sub rfl (fun _ h => h.elim)
  have t12 : ∀ (s : State) v, P s → P (s.putTmb v) := K.upd 12 rfl
  unfold State.ppsChange
  repeat' (first
    | with_reducible assumption
    | with_reducible (first | apply State.ppsTo_keeps k0 | apply State.retarget_keeps k1 | apply t12)
    | intro _ _ _ _
    | intro _ _ _
    | intro _ _
    | with_reducible (first | apply ite_keeps | apply ite_keeps_pair)
    | dsimp only
    | split)

/-- Registers `State.ppsLost` may write. -/
def State.ppsLost_offs (o : Nat) : Prop :=
  o = TMB_PPS_STATUS.reg ∨ State.ppsTo_offs o ∨ State.raiseEvent_offs o

theorem State.ppsLost_keeps {P : State → Prop} (K : Keeps P 0x440001010 State.ppsLost_offs) {s : State} (why : Nat) (hs : P s) :
    P (State.ppsLost s why) := by
  have k0 : Keeps P 0x1000 State.ppsTo_offs := K.sub rfl (fun _ h => .inr (.inl h))
  have k1 : Keeps P 0x440000010 State.raiseEvent_offs := K.sub rfl (fun _ h => .inr (.inr (h)))
  have r0 := K.reg (TMB_PPS_STATUS.reg) (.inl rfl)
  have t12 : ∀ (s : State) v, P s → P (s.putTmb v) := K.upd 12 rfl
  unfold State.ppsLost
  repeat' (first
    | with_reducible assumption
    | with_reducible (first | apply State.ppsTo_keeps k0 | apply State.raiseEvent_keeps k1 | apply setFlag_keeps | apply foldl_keeps | apply foldl_keeps_pair | apply t12)
    | with_reducible exact r0
    | intro _ _ _ _
    | intro _ _ _
    | intro _ _
    | with_reducible (first | apply ite_keeps | apply ite_keeps_pair)
    | dsimp only
    | split
    | with_reducible (first | apply r0))

/-- Registers `State.ppsTrack` may write. -/
def State.ppsTrack_offs (o : Nat) : Prop :=
  o = TMB_GRID_LO.reg ∨ o = TMB_GRID_LO.reg + 4 ∨ o = TMB_GRID_MOVE_COUNT.reg ∨ State.ppsTo_offs o

theorem State.ppsTrack_keeps {P : State → Prop} (K : Keeps P 0x1000 State.ppsTrack_offs) {s : State} (stamp : Nat) (hs : P s) :
    P (State.ppsTrack s stamp) := by
  have k0 : Keeps P 0x1000 State.ppsTo_offs := K.sub rfl (fun _ h => .inr (.inr (.inr (h))))
  have r0 := K.reg (TMB_GRID_LO.reg) (.inl rfl)
  have r1 := K.reg (TMB_GRID_LO.reg + 4) (.inr (.inl rfl))
  have r2 := K.reg (TMB_GRID_MOVE_COUNT.reg) (.inr (.inr (.inl rfl)))
  unfold State.ppsTrack
  repeat' (first
    | with_reducible assumption
    | with_reducible (first | apply State.ppsTo_keeps k0 | apply bump_keeps | apply setReg64_keeps)
    | with_reducible exact r0
    | with_reducible exact r1
    | with_reducible exact r2
    | intro _ _ _ _
    | intro _ _ _
    | intro _ _
    | with_reducible (first | apply ite_keeps | apply ite_keeps_pair)
    | dsimp only
    | split
    | with_reducible (first | apply r0 | apply r1 | apply r2))

/-- Registers `State.ppsSteer` may write. -/
def State.ppsSteer_offs (o : Nat) : Prop :=
  o = TMB_PPS_STATUS.reg

theorem State.ppsSteer_keeps {P : State → Prop} (K : Keeps P 0x80001000 State.ppsSteer_offs) {s : State} (stamp : Nat) (hs : P s) :
    P (State.ppsSteer s stamp) := by
  have k0 : Keeps P 0x80000000 (fun _ => False) := K.sub rfl (fun _ h => h.elim)
  have r0 := K.reg (TMB_PPS_STATUS.reg) (rfl)
  have t12 : ∀ (s : State) v, P s → P (s.putTmb v) := K.upd 12 rfl
  unfold State.ppsSteer
  repeat' (first
    | with_reducible assumption
    | with_reducible (first | apply State.drawFree_keeps k0 | apply setFlag_keeps | apply setFldInt_keeps | apply t12)
    | with_reducible exact r0
    | intro _ _ _ _
    | intro _ _ _
    | intro _ _
    | with_reducible (first | apply ite_keeps | apply ite_keeps_pair)
    | dsimp only
    | split
    | with_reducible (first | apply r0))

/-- Registers `execPpsEdge` may write. -/
def execPpsEdge_offs (o : Nat) : Prop :=
  o = TMB_PPS_LAST_LO.reg ∨ o = TMB_PPS_LAST_LO.reg + 4 ∨ o = TMB_PPS_LAST_PIP.reg ∨ State.ppsLost_offs o ∨
    State.ppsSteer_offs o ∨ State.ppsTrack_offs o

theorem execPpsEdge_keeps {P : State → Prop} (K : Keeps P 0x4c0001010 execPpsEdge_offs) {s : State} (pip : Fin 256) (hs : P s) :
    ∃ t, (execPpsEdge pip s) = .next t ∧ P t := by
  have k0 : Keeps P 0x440001010 State.ppsLost_offs := K.sub rfl (fun _ h => .inr (.inr (.inr (.inl h))))
  have k1 : Keeps P 0x80001000 State.ppsSteer_offs := K.sub rfl (fun _ h => .inr (.inr (.inr (.inr (.inl h)))))
  have k2 : Keeps P 0x1000 State.ppsTrack_offs := K.sub rfl (fun _ h => .inr (.inr (.inr (.inr (.inr (h))))))
  have r0 := K.reg (TMB_PPS_LAST_LO.reg) (.inl rfl)
  have r1 := K.reg (TMB_PPS_LAST_LO.reg + 4) (.inr (.inl rfl))
  have r2 := K.reg (TMB_PPS_LAST_PIP.reg) (.inr (.inr (.inl rfl)))
  have t12 : ∀ (s : State) v, P s → P (s.putTmb v) := K.upd 12 rfl
  refine ⟨_, rfl, ?_⟩
  repeat' (first
    | with_reducible assumption
    | with_reducible (first | apply State.ppsLost_keeps k0 | apply State.ppsSteer_keeps k1 | apply State.ppsTrack_keeps k2 | apply setFld_keeps | apply setReg64_keeps | apply t12)
    | with_reducible exact r0
    | with_reducible exact r1
    | with_reducible exact r2
    | intro _ _ _ _
    | intro _ _ _
    | intro _ _
    | with_reducible (first | apply ite_keeps | apply ite_keeps_pair)
    | dsimp only
    | split
    | with_reducible (first | apply r0 | apply r1 | apply r2))

/-- Registers `execPpsTimeout` may write. -/
def execPpsTimeout_offs (o : Nat) : Prop :=
  State.ppsLost_offs o

theorem execPpsTimeout_keeps {P : State → Prop} (K : Keeps P 0x440001010 execPpsTimeout_offs) {s : State} (hs : P s) :
    ∃ t, (execPpsTimeout s) = .next t ∧ P t := by
  have k0 : Keeps P 0x440001010 State.ppsLost_offs := K.sub rfl (fun _ h => h)
  refine ⟨_, rfl, ?_⟩
  repeat' (first
    | with_reducible assumption
    | with_reducible (first | apply State.ppsLost_keeps k0)
    | intro _ _ _ _
    | intro _ _ _
    | intro _ _
    | with_reducible (first | apply ite_keeps | apply ite_keeps_pair)
    | dsimp only
    | split)

end Sys2Proof.Machine
end

