-- ==== Sys2Proof/Laws/KBelt.lean ====
section
/-!
SUPPORT. What the operations of Sys2Proof.Machine.Belt keep, and the registers they may write.
-/
namespace Sys2Proof.Machine

/-- Registers `State.lenShow` may write. -/
def State.lenShow_offs (o : Nat) : Prop :=
  (∃ n, o = BLT_BELT_STATUS.reg n)

theorem State.lenShow_keeps {P : State → Prop} (K : Keeps P 0x0 State.lenShow_offs) {s : State} (k : Nat) (hs : P s) :
    P (State.lenShow s k) := by
  have r0 := fun n => K.reg (BLT_BELT_STATUS.reg n) (⟨n, rfl⟩)
  unfold State.lenShow
  repeat' (first
    | with_reducible assumption
    | with_reducible (first | apply setFlag_keeps)
    | with_reducible exact r0 _
    | intro _ _ _ _
    | intro _ _ _
    | intro _ _
    | with_reducible (first | apply ite_keeps | apply ite_keeps_pair)
    | dsimp only
    | split
    | with_reducible (first | apply r0))

/-- Registers `State.beltIndex` may write. -/
def State.beltIndex_offs (o : Nat) : Prop :=
  (∃ n, o = BLT_BELT_LEN_MEAS.reg n) ∨ State.lenShow_offs o

theorem State.beltIndex_keeps {P : State → Prop} (K : Keeps P 0x800 State.beltIndex_offs) {s : State} (k : Nat) (t : Nat) (hs : P s) :
    P (State.beltIndex s k t) := by
  have k0 : Keeps P 0x0 State.lenShow_offs := K.sub rfl (fun _ h => .inr (h))
  have k1 : Keeps P 0x800 (fun _ => False) := K.sub rfl (fun _ h => h.elim)
  have r0 := fun n => K.reg (BLT_BELT_LEN_MEAS.reg n) (.inl ⟨n, rfl⟩)
  unfold State.beltIndex
  repeat' (first
    | with_reducible assumption
    | with_reducible (first | apply State.lenShow_keeps k0 | apply State.setBelt_keeps k1 | apply setNat_keeps)
    | with_reducible exact r0 _
    | intro _ _ _ _
    | intro _ _ _
    | intro _ _
    | with_reducible (first | apply ite_keeps | apply ite_keeps_pair)
    | dsimp only
    | split
    | with_reducible (first | apply r0))

/-- Registers `State.beltCount` may write. -/
def State.beltCount_offs (o : Nat) : Prop :=
  (∃ n, o = BLT_BELT_STATUS.reg n)

theorem State.beltCount_keeps {P : State → Prop} (K : Keeps P 0x800 State.beltCount_offs) {s : State} (k : Nat) (hs : P s) :
    P (State.beltCount s k) := by
  have k0 : Keeps P 0x800 (fun _ => False) := K.sub rfl (fun _ h => h.elim)
  have r0 := fun n => K.reg (BLT_BELT_STATUS.reg n) (⟨n, rfl⟩)
  unfold State.beltCount
  repeat' (first
    | with_reducible assumption
    | with_reducible (first | apply State.setBelt_keeps k0 | apply setFlag_keeps)
    | with_reducible exact r0 _
    | intro _ _ _ _
    | intro _ _ _
    | intro _ _
    | with_reducible (first | apply ite_keeps | apply ite_keeps_pair)
    | dsimp only
    | split
    | with_reducible (first | apply r0))

theorem State.snapTurns_keeps {P : State → Prop} (K : Keeps P 0x100 (fun _ => False)) {s : State} (now : Nat) (hs : P s) :
    P (State.snapTurns s now) := by
  have t8 : ∀ (s : State) v, P s → P (s.putSched v) := K.upd 8 rfl
  unfold State.snapTurns
  repeat' (first
    | with_reducible assumption
    | with_reducible (first | apply t8)
    | intro _ _ _ _
    | intro _ _ _
    | intro _ _
    | with_reducible (first | apply ite_keeps | apply ite_keeps_pair)
    | dsimp only
    | split)

/-- Registers `State.beltEdge` may write. -/
def State.beltEdge_offs (o : Nat) : Prop :=
  State.beltCount_offs o ∨ State.beltIndex_offs o

theorem State.beltEdge_keeps {P : State → Prop} (K : Keeps P 0x800 State.beltEdge_offs) {s : State} (i : Nat) (stamp : Option Nat) (hs : P s) :
    P (State.beltEdge s i stamp) := by
  have k0 : Keeps P 0x800 State.beltCount_offs := K.sub rfl (fun _ h => .inl h)
  have k1 : Keeps P 0x800 State.beltIndex_offs := K.sub rfl (fun _ h => .inr (h))
  have k2 : Keeps P 0x800 (fun _ => False) := K.sub rfl (fun _ h => h.elim)
  unfold State.beltEdge
  repeat' (first
    | with_reducible assumption
    | with_reducible (first | apply State.beltCount_keeps k0 | apply State.beltIndex_keeps k1 | apply State.setBelt_keeps k2 | apply foldl_keeps | apply foldl_keeps_pair)
    | intro _ _ _ _
    | intro _ _ _
    | intro _ _
    | with_reducible (first | apply ite_keeps | apply ite_keeps_pair)
    | dsimp only
    | split)

theorem State.predictNow_keeps {P : State → Prop} (K : Keeps P 0x100 (fun _ => False)) {s : State} (hs : P s) :
    P (State.predictNow s) := by
  have t8 : ∀ (s : State) v, P s → P (s.putSched v) := K.upd 8 rfl
  unfold State.predictNow
  repeat' (first
    | with_reducible assumption
    | with_reducible (first | apply t8)
    | intro _ _ _ _
    | intro _ _ _
    | intro _ _
    | with_reducible (first | apply ite_keeps | apply ite_keeps_pair)
    | dsimp only
    | split)

theorem State.predict_keeps {P : State → Prop} (K : Keeps P 0x100 (fun _ => False)) {s : State} (hs : P s) :
    P (State.predict s) := by
  have k0 : Keeps P 0x100 (fun _ => False) := K.sub rfl (fun _ h => h.elim)
  unfold State.predict
  repeat' (first
    | with_reducible assumption
    | with_reducible (first | apply State.predictNow_keeps k0)
    | intro _ _ _ _
    | intro _ _ _
    | intro _ _
    | with_reducible (first | apply ite_keeps | apply ite_keeps_pair)
    | dsimp only
    | split)

/-- Registers `State.tinFault` may write. -/
def State.tinFault_offs (o : Nat) : Prop :=
  State.raiseEvent_offs o

theorem State.tinFault_keeps {P : State → Prop} (K : Keeps P 0x440000010 State.tinFault_offs) {s : State} (f : Fld) (i : Nat) (bit : Nat) (hs : P s) (hf : ∀ s w, P s → P (s.setReg f.off w)) :
    P (State.tinFault s f i bit) := by
  have k0 : Keeps P 0x440000010 State.raiseEvent_offs := K.sub rfl (fun _ h => h)
  unfold State.tinFault
  repeat' (first
    | with_reducible assumption
    | with_reducible (first | apply State.raiseEvent_keeps k0 | apply setFlag_keeps)
    | with_reducible exact hf
    | intro _ _ _ _
    | intro _ _ _
    | intro _ _
    | with_reducible (first | apply ite_keeps | apply ite_keeps_pair)
    | dsimp only
    | split)

/-- Registers `State.stampEdge` may write. -/
def State.stampEdge_offs (o : Nat) : Prop :=
  (∃ n, o = BLT_TIN_LAST_LO.reg n) ∨ (∃ n, o = BLT_TIN_LAST_LO.reg n + 4) ∨ (∃ n, o = BLT_TIN_LAST_PIP.reg n) ∨
    (∃ n, o = BLT_TIN_LOST_COUNT.reg n) ∨ (∃ n, o = BLT_TIN_STATUS.reg n) ∨ State.beltEdge_offs o ∨
    State.pairStamp_offs o ∨ State.tinFault_offs o

theorem State.stampEdge_keeps {P : State → Prop} (K : Keeps P 0x4c011cff4 State.stampEdge_offs) {s : State} (i : Nat) (t : Nat) (differs : BitVec 16) (hs : P s) :
    P (State.stampEdge s i t differs) := by
  have k0 : Keeps P 0x800 State.beltEdge_offs := K.sub rfl (fun _ h => .inr (.inr (.inr (.inr (.inr (.inl h))))))
  have k1 : Keeps P 0x4c011cff4 State.pairStamp_offs := K.sub rfl (fun _ h => .inr (.inr (.inr (.inr (.inr (.inr (.inl h)))))))
  have k2 : Keeps P 0x800 (fun _ => False) := K.sub rfl (fun _ h => h.elim)
  have k3 : Keeps P 0x440000010 State.tinFault_offs := K.sub rfl (fun _ h => .inr (.inr (.inr (.inr (.inr (.inr (.inr (h))))))))
  have r0 := fun n => K.reg (BLT_TIN_LAST_LO.reg n) (.inl ⟨n, rfl⟩)
  have r1 := fun n => K.reg (BLT_TIN_LAST_LO.reg n + 4) (.inr (.inl ⟨n, rfl⟩))
  have r2 := fun n => K.reg (BLT_TIN_LAST_PIP.reg n) (.inr (.inr (.inl ⟨n, rfl⟩)))
  have r3 := fun n => K.reg (BLT_TIN_LOST_COUNT.reg n) (.inr (.inr (.inr (.inl ⟨n, rfl⟩))))
  have r4 := fun n => K.reg (BLT_TIN_STATUS.reg n) (.inr (.inr (.inr (.inr (.inl ⟨n, rfl⟩)))))
  unfold State.stampEdge
  repeat' (first
    | with_reducible assumption
    | with_reducible (first | apply State.beltEdge_keeps k0 | apply State.pairStamp_keeps k1 | apply State.setTin_keeps k2 | apply State.tinFault_keeps k3 | apply bump_keeps | apply setFld_keeps | apply setReg64_keeps)
    | with_reducible exact r0 _
    | with_reducible exact r1 _
    | with_reducible exact r2 _
    | with_reducible exact r3 _
    | with_reducible exact r4 _
    | intro _ _ _ _
    | intro _ _ _
    | intro _ _
    | with_reducible (first | apply ite_keeps | apply ite_keeps_pair)
    | dsimp only
    | split
    | with_reducible (first | apply r0 | apply r1 | apply r2 | apply r3 | apply r4))

/-- Registers `execTinEdge` may write. -/
def execTinEdge_offs (o : Nat) : Prop :=
  (∃ n, o = BLT_TIN_COUNT_LO.reg n) ∨ (∃ n, o = BLT_TIN_COUNT_LO.reg n + 4) ∨ (∃ n, o = BLT_TIN_STATUS.reg n) ∨
    State.beltEdge_offs o ∨ State.stampEdge_offs o ∨ State.tinFault_offs o

theorem execTinEdge_keeps {P : State → Prop} (K : Keeps P 0x4c011cff4 execTinEdge_offs) {s : State} (i : Fin 8) (rising : Bool) (pip : Fin 256) (short : Option Bool) (differs : BitVec 16) (hs : P s) :
    ∃ t, (execTinEdge i rising pip short differs s) = .next t ∧ P t := by
  have k0 : Keeps P 0x800 State.beltEdge_offs := K.sub rfl (fun _ h => .inr (.inr (.inr (.inl h))))
  have k1 : Keeps P 0x100 (fun _ => False) := K.sub rfl (fun _ h => h.elim)
  have k2 : Keeps P 0x800 (fun _ => False) := K.sub rfl (fun _ h => h.elim)
  have k3 : Keeps P 0x100 (fun _ => False) := K.sub rfl (fun _ h => h.elim)
  have k4 : Keeps P 0x4c011cff4 State.stampEdge_offs := K.sub rfl (fun _ h => .inr (.inr (.inr (.inr (.inl h)))))
  have k5 : Keeps P 0x440000010 State.tinFault_offs := K.sub rfl (fun _ h => .inr (.inr (.inr (.inr (.inr (h))))))
  have r0 := fun n => K.reg (BLT_TIN_COUNT_LO.reg n) (.inl ⟨n, rfl⟩)
  have r1 := fun n => K.reg (BLT_TIN_COUNT_LO.reg n + 4) (.inr (.inl ⟨n, rfl⟩))
  have r2 := fun n => K.reg (BLT_TIN_STATUS.reg n) (.inr (.inr (.inl ⟨n, rfl⟩)))
  refine ⟨_, rfl, ?_⟩
  repeat' (first
    | with_reducible assumption
    | with_reducible (first | apply State.beltEdge_keeps k0 | apply State.predict_keeps k1 | apply State.setTin_keeps k2 | apply State.snapTurns_keeps k3 | apply State.stampEdge_keeps k4 | apply State.tinFault_keeps k5 | apply setReg64_keeps)
    | with_reducible exact r0 _
    | with_reducible exact r1 _
    | with_reducible exact r2 _
    | intro _ _ _ _
    | intro _ _ _
    | intro _ _
    | with_reducible (first | apply ite_keeps | apply ite_keeps_pair)
    | dsimp only
    | split
    | with_reducible (first | apply r0 | apply r1 | apply r2))

/-- Registers `State.beltSpeed` may write. -/
def State.beltSpeed_offs (o : Nat) : Prop :=
  (∃ n, o = BLT_BELT_SPEED.reg n) ∨ (∃ n, o = BLT_BELT_STATUS.reg n)

theorem State.beltSpeed_keeps {P : State → Prop} (K : Keeps P 0x80000000 State.beltSpeed_offs) {s : State} (k : Nat) (hs : P s) :
    P (State.beltSpeed s k) := by
  have k0 : Keeps P 0x80000000 (fun _ => False) := K.sub rfl (fun _ h => h.elim)
  have r0 := fun n => K.reg (BLT_BELT_SPEED.reg n) (.inl ⟨n, rfl⟩)
  have r1 := fun n => K.reg (BLT_BELT_STATUS.reg n) (.inr (⟨n, rfl⟩))
  unfold State.beltSpeed
  repeat' (first
    | with_reducible assumption
    | with_reducible (first | apply State.drawFree_keeps k0 | apply setFlag_keeps | apply setNat_keeps)
    | with_reducible exact r0 _
    | with_reducible exact r1 _
    | intro _ _ _ _
    | intro _ _ _
    | intro _ _
    | with_reducible (first | apply ite_keeps | apply ite_keeps_pair)
    | dsimp only
    | split
    | with_reducible (first | apply r0 | apply r1))

/-- Registers `State.speedClose` may write. -/
def State.speedClose_offs (o : Nat) : Prop :=
  State.beltSpeed_offs o

theorem State.speedClose_keeps {P : State → Prop} (K : Keeps P 0x80000000 State.speedClose_offs) {s : State} (i : Nat) (k : Nat) (hs : P s) :
    P (State.speedClose s i k) := by
  have k0 : Keeps P 0x80000000 State.beltSpeed_offs := K.sub rfl (fun _ h => h)
  unfold State.speedClose
  repeat' (first
    | with_reducible assumption
    | with_reducible (first | apply State.beltSpeed_keeps k0)
    | intro _ _ _ _
    | intro _ _ _
    | intro _ _
    | with_reducible (first | apply ite_keeps | apply ite_keeps_pair)
    | dsimp only
    | split)

/-- Registers `State.beltSlip` may write. -/
def State.beltSlip_offs (o : Nat) : Prop :=
  (∃ n, o = BLT_BELT_SLIP_EVENT_COUNT.reg n) ∨ (∃ n, o = BLT_BELT_STATUS.reg n) ∨ State.raiseEvent_offs o

theorem State.beltSlip_keeps {P : State → Prop} (K : Keeps P 0x4c0000810 State.beltSlip_offs) {s : State} (i : Nat) (rate : Option (Nat × Nat)) (k : Nat) (hs : P s) :
    P (State.beltSlip s i rate k) := by
  have k0 : Keeps P 0x80000000 (fun _ => False) := K.sub rfl (fun _ h => h.elim)
  have k1 : Keeps P 0x440000010 State.raiseEvent_offs := K.sub rfl (fun _ h => .inr (.inr (h)))
  have k2 : Keeps P 0x800 (fun _ => False) := K.sub rfl (fun _ h => h.elim)
  have r0 := fun n => K.reg (BLT_BELT_SLIP_EVENT_COUNT.reg n) (.inl ⟨n, rfl⟩)
  have r1 := fun n => K.reg (BLT_BELT_STATUS.reg n) (.inr (.inl ⟨n, rfl⟩))
  unfold State.beltSlip
  repeat' (first
    | with_reducible assumption
    | with_reducible (first | apply State.drawFree_keeps k0 | apply State.raiseEvent_keeps k1 | apply State.setBelt_keeps k2 | apply bump_keeps | apply setFlag_keeps | apply setFldInt_keeps)
    | with_reducible exact r0 _
    | with_reducible exact r1 _
    | intro _ _ _ _
    | intro _ _ _
    | intro _ _
    | with_reducible (first | apply ite_keeps | apply ite_keeps_pair)
    | dsimp only
    | split
    | with_reducible (first | apply r0 | apply r1))

/-- Registers `State.closeGate` may write. -/
def State.closeGate_offs (o : Nat) : Prop :=
  (∃ n, o = BLT_TIN_FREQ_LO.reg n) ∨ (∃ n, o = BLT_TIN_FREQ_LO.reg n + 4) ∨ (∃ n, o = BLT_TIN_NUSED.reg n) ∨
    (∃ n, o = BLT_TIN_STATUS.reg n) ∨ State.beltSlip_offs o ∨ State.evalSource_offs o ∨ State.speedClose_offs o

theorem State.closeGate_keeps {P : State → Prop} (K : Keeps P 0x4c011cff4 State.closeGate_offs) {s : State} (i : Nat) (differs : BitVec 16) (hs : P s) :
    P (State.closeGate s i differs) := by
  have k0 : Keeps P 0x4c0000810 State.beltSlip_offs := K.sub rfl (fun _ h => .inr (.inr (.inr (.inr (.inl h)))))
  have k1 : Keeps P 0x4c011c7f4 State.evalSource_offs := K.sub rfl (fun _ h => .inr (.inr (.inr (.inr (.inr (.inl h))))))
  have k2 : Keeps P 0x800 (fun _ => False) := K.sub rfl (fun _ h => h.elim)
  have k3 : Keeps P 0x100 (fun _ => False) := K.sub rfl (fun _ h => h.elim)
  have k4 : Keeps P 0x800 (fun _ => False) := K.sub rfl (fun _ h => h.elim)
  have k5 : Keeps P 0x100 (fun _ => False) := K.sub rfl (fun _ h => h.elim)
  have k6 : Keeps P 0x80000000 State.speedClose_offs := K.sub rfl (fun _ h => .inr (.inr (.inr (.inr (.inr (.inr (h)))))))
  have r0 := fun n => K.reg (BLT_TIN_FREQ_LO.reg n) (.inl ⟨n, rfl⟩)
  have r1 := fun n => K.reg (BLT_TIN_FREQ_LO.reg n + 4) (.inr (.inl ⟨n, rfl⟩))
  have r2 := fun n => K.reg (BLT_TIN_NUSED.reg n) (.inr (.inr (.inl ⟨n, rfl⟩)))
  have r3 := fun n => K.reg (BLT_TIN_STATUS.reg n) (.inr (.inr (.inr (.inl ⟨n, rfl⟩))))
  unfold State.closeGate
  repeat' (first
    | with_reducible assumption
    | with_reducible (first | apply State.beltSlip_keeps k0 | apply State.evalSource_keeps k1 | apply State.openGate_keeps k2 | apply State.predict_keeps k3 | apply State.setTin_keeps k4 | apply State.snapTurns_keeps k5 | apply State.speedClose_keeps k6 | apply setFlag_keeps | apply setFld_keeps | apply setNat_keeps | apply setReg64_keeps | apply foldl_keeps | apply foldl_keeps_pair)
    | with_reducible exact r0 _
    | with_reducible exact r1 _
    | with_reducible exact r2 _
    | with_reducible exact r3 _
    | intro _ _ _ _
    | intro _ _ _
    | intro _ _
    | with_reducible (first | apply ite_keeps | apply ite_keeps_pair)
    | dsimp only
    | split
    | with_reducible (first | apply r0 | apply r1 | apply r2 | apply r3))

/-- Registers `execTinGateClose` may write. -/
def execTinGateClose_offs (o : Nat) : Prop :=
  State.closeGate_offs o

theorem execTinGateClose_keeps {P : State → Prop} (K : Keeps P 0x4c011cff4 execTinGateClose_offs) {s : State} (i : Fin 8) (differs : BitVec 16) (hs : P s) :
    ∃ t, (execTinGateClose i differs s) = .next t ∧ P t := by
  have k0 : Keeps P 0x4c011cff4 State.closeGate_offs := K.sub rfl (fun _ h => h)
  refine ⟨_, rfl, ?_⟩
  repeat' (first
    | with_reducible assumption
    | with_reducible (first | apply State.closeGate_keeps k0)
    | intro _ _ _ _
    | intro _ _ _
    | intro _ _
    | with_reducible (first | apply ite_keeps | apply ite_keeps_pair)
    | dsimp only
    | split)

/-- Registers `execGatePinEdge` may write. -/
def execGatePinEdge_offs (o : Nat) : Prop :=
  State.closeGate_offs o

theorem execGatePinEdge_keeps {P : State → Prop} (K : Keeps P 0x4c011cff4 execGatePinEdge_offs) {s : State} (high : Bool) (differs : BitVec 16) (hs : P s) :
    ∃ t, (execGatePinEdge high differs s) = .next t ∧ P t := by
  have k0 : Keeps P 0x4c011cff4 State.closeGate_offs := K.sub rfl (fun _ h => h)
  have k1 : Keeps P 0x800 (fun _ => False) := K.sub rfl (fun _ h => h.elim)
  refine ⟨_, rfl, ?_⟩
  repeat' (first
    | with_reducible assumption
    | with_reducible (first | apply State.closeGate_keeps k0 | apply State.openGate_keeps k1 | apply foldl_keeps | apply foldl_keeps_pair)
    | intro _ _ _ _
    | intro _ _ _
    | intro _ _
    | with_reducible (first | apply ite_keeps | apply ite_keeps_pair)
    | dsimp only
    | split)

/-- Registers `execSpeedValidExpiry` may write. -/
def execSpeedValidExpiry_offs (o : Nat) : Prop :=
  (∃ n, o = BLT_BELT_SPEED.reg n) ∨ (∃ n, o = BLT_BELT_STATUS.reg n)

theorem execSpeedValidExpiry_keeps {P : State → Prop} (K : Keeps P 0x100 execSpeedValidExpiry_offs) {s : State} (k : Fin 8) (hs : P s) :
    ∃ t, (execSpeedValidExpiry k s) = .next t ∧ P t := by
  have k0 : Keeps P 0x100 (fun _ => False) := K.sub rfl (fun _ h => h.elim)
  have r0 := fun n => K.reg (BLT_BELT_SPEED.reg n) (.inl ⟨n, rfl⟩)
  have r1 := fun n => K.reg (BLT_BELT_STATUS.reg n) (.inr (⟨n, rfl⟩))
  refine ⟨_, rfl, ?_⟩
  repeat' (first
    | with_reducible assumption
    | with_reducible (first | apply State.predict_keeps k0 | apply setFlag_keeps | apply setNat_keeps)
    | with_reducible exact r0 _
    | with_reducible exact r1 _
    | intro _ _ _ _
    | intro _ _ _
    | intro _ _
    | with_reducible (first | apply ite_keeps | apply ite_keeps_pair)
    | dsimp only
    | split
    | with_reducible (first | apply r0 | apply r1))

theorem State.addCell_keeps {P : State → Prop} (K : Keeps P 0x3000000 (fun _ => False)) {s : State} (a : Nat) (e : Nat) (hs : P s) :
    P (State.addCell s a e) := by
  have k0 : Keeps P 0x3000000 (fun _ => False) := K.sub rfl (fun _ h => h.elim)
  unfold State.addCell
  repeat' (first
    | with_reducible assumption
    | with_reducible (first | apply State.setDram_keeps k0)
    | intro _ _ _ _
    | intro _ _ _
    | intro _ _
    | with_reducible (first | apply ite_keeps | apply ite_keeps_pair)
    | dsimp only
    | split)

/-- Registers `State.beltBin` may write. -/
def State.beltBin_offs (o : Nat) : Prop :=
  (∃ n, o = BLT_BELT_STATUS.reg n) ∨ o = BLT_EXCLUDED_COUNT.reg

theorem State.beltBin_keeps {P : State → Prop} (K : Keeps P 0x3000000 State.beltBin_offs) {st : State} {s : State} (rs : List (Nat × Route)) (t : Turn) (b : Nat) (delta : Int) (qual : Nat) (hs : P s) :
    P (State.beltBin st rs t b delta qual s) := by
  have k0 : Keeps P 0x3000000 (fun _ => False) := K.sub rfl (fun _ h => h.elim)
  have r0 := fun n => K.reg (BLT_BELT_STATUS.reg n) (.inl ⟨n, rfl⟩)
  have r1 := K.reg (BLT_EXCLUDED_COUNT.reg) (.inr (rfl))
  unfold State.beltBin
  repeat' (first
    | with_reducible assumption
    | with_reducible (first | apply State.addCell_keeps k0 | apply bump_keeps | apply setFlag_keeps)
    | with_reducible exact r0 _
    | with_reducible exact r1
    | intro _ _ _ _
    | intro _ _ _
    | intro _ _
    | with_reducible (first | apply ite_keeps | apply ite_keeps_pair)
    | dsimp only
    | split
    | with_reducible (first | apply r0 | apply r1))

/-- Registers `State.beltBins` may write. -/
def State.beltBins_offs (o : Nat) : Prop :=
  State.beltBin_offs o

theorem State.beltBins_keeps {P : State → Prop} (K : Keeps P 0x3000000 State.beltBins_offs) {st : State} {a2 : State} (rs : List (Nat × Route)) (t : Turn) (a0 : Nat) (a1 : List (Int × Nat)) (ha2 : P a2) :
    P (State.beltBins st rs t a0 a1 a2) := by
  have k0 : Keeps P 0x3000000 State.beltBin_offs := K.sub rfl (fun _ h => h)
  induction a1 generalizing st rs t a0 a2 with
  | nil =>
    unfold State.beltBins
    repeat' (first
      | with_reducible assumption
      | with_reducible (first | apply State.beltBin_keeps k0)
      | intro _ _ _ _
      | intro _ _ _
      | intro _ _
      | with_reducible (first | apply ite_keeps | apply ite_keeps_pair)
      | dsimp only
      | split)
  | cons _ _ ih =>
    unfold State.beltBins
    repeat' (first
      | with_reducible assumption
      | with_reducible apply ih
      | with_reducible (first | apply State.beltBin_keeps k0)
      | intro _ _ _ _
      | intro _ _ _
      | intro _ _
      | with_reducible (first | apply ite_keeps | apply ite_keeps_pair)
      | dsimp only
      | split)

/-- Registers `State.beltFrame` may write. -/
def State.beltFrame_offs (o : Nat) : Prop :=
  o = BLT_DROP_FAILED_COUNT.reg ∨ o = BLT_DROP_OVERRUN_COUNT.reg ∨ (∃ n, o = DMC_CLIENT_OVERRUN_COUNT.reg n) ∨
    State.beltBins_offs o

theorem State.beltFrame_keeps {P : State → Prop} (K : Keeps P 0x3000000 State.beltFrame_offs) {s : State} (t : Turn) (j : Nat) (real : Bool) (full : Bool) (vs : List (Int × Nat)) (hs : P s) :
    P (State.beltFrame s t j real full vs) := by
  have k0 : Keeps P 0x3000000 State.beltBins_offs := K.sub rfl (fun _ h => .inr (.inr (.inr (h))))
  have r0 := K.reg (BLT_DROP_FAILED_COUNT.reg) (.inl rfl)
  have r1 := K.reg (BLT_DROP_OVERRUN_COUNT.reg) (.inr (.inl rfl))
  have r2 := fun n => K.reg (DMC_CLIENT_OVERRUN_COUNT.reg n) (.inr (.inr (.inl ⟨n, rfl⟩)))
  unfold State.beltFrame
  repeat' (first
    | with_reducible assumption
    | with_reducible (first | apply State.beltBins_keeps k0 | apply bump_keeps)
    | with_reducible exact r0
    | with_reducible exact r1
    | with_reducible exact r2 _
    | intro _ _ _ _
    | intro _ _ _
    | intro _ _
    | with_reducible (first | apply ite_keeps | apply ite_keeps_pair)
    | dsimp only
    | split
    | with_reducible (first | apply r0 | apply r1 | apply r2))

theorem State.openMap_keeps {P : State → Prop} (K : Keeps P 0x800 (fun _ => False)) {s : State} (k : Nat) (hs : P s) :
    P (State.openMap s k) := by
  have k0 : Keeps P 0x800 (fun _ => False) := K.sub rfl (fun _ h => h.elim)
  unfold State.openMap
  repeat' (first
    | with_reducible assumption
    | with_reducible (first | apply State.setBelt_keeps k0)
    | intro _ _ _ _
    | intro _ _ _
    | intro _ _
    | with_reducible (first | apply ite_keeps | apply ite_keeps_pair)
    | dsimp only
    | split)

theorem State.closeMap_keeps {P : State → Prop} (K : Keeps P 0x800 (fun _ => False)) {s : State} (k : Nat) (regs : SMap Word) (cut : Bool) (timeout : Bool) (hs : P s) :
    P (State.closeMap s k regs cut timeout) := by
  have k0 : Keeps P 0x800 (fun _ => False) := K.sub rfl (fun _ h => h.elim)
  have k1 : Keeps P 0x800 (fun _ => False) := K.sub rfl (fun _ h => h.elim)
  unfold State.closeMap
  repeat' (first
    | with_reducible assumption
    | with_reducible (first | apply State.openMap_keeps k0 | apply State.setBelt_keeps k1)
    | intro _ _ _ _
    | intro _ _ _
    | intro _ _
    | with_reducible (first | apply ite_keeps | apply ite_keeps_pair)
    | dsimp only
    | split)

/-- Registers `State.beltRound` may write. -/
def State.beltRound_offs (o : Nat) : Prop :=
  (∃ n, o = BLT_BELT_POS_LO.reg n) ∨ (∃ n, o = BLT_BELT_POS_LO.reg n + 4)

theorem State.beltRound_keeps {P : State → Prop} (K : Keeps P 0x800 State.beltRound_offs) {s : State} (hs : P s) :
    P (State.beltRound s) := by
  have k0 : Keeps P 0x800 (fun _ => False) := K.sub rfl (fun _ h => h.elim)
  have k1 : Keeps P 0x800 (fun _ => False) := K.sub rfl (fun _ h => h.elim)
  have k2 : Keeps P 0x800 (fun _ => False) := K.sub rfl (fun _ h => h.elim)
  have r0 := fun n => K.reg (BLT_BELT_POS_LO.reg n) (.inl ⟨n, rfl⟩)
  have r1 := fun n => K.reg (BLT_BELT_POS_LO.reg n + 4) (.inr (⟨n, rfl⟩))
  unfold State.beltRound
  repeat' (first
    | with_reducible assumption
    | with_reducible (first | apply State.closeMap_keeps k0 | apply State.openMap_keeps k1 | apply State.setBelt_keeps k2 | apply setReg64_keeps | apply foldl_keeps | apply foldl_keeps_pair)
    | with_reducible exact r0 _
    | with_reducible exact r1 _
    | intro _ _ _ _
    | intro _ _ _
    | intro _ _
    | with_reducible (first | apply ite_keeps | apply ite_keeps_pair)
    | dsimp only
    | split
    | with_reducible (first | apply r0 | apply r1))

theorem State.gateRound_keeps {P : State → Prop} (K : Keeps P 0x800 (fun _ => False)) {s : State} (hs : P s) :
    P (State.gateRound s) := by
  have k0 : Keeps P 0x800 (fun _ => False) := K.sub rfl (fun _ h => h.elim)
  unfold State.gateRound
  repeat' (first
    | with_reducible assumption
    | with_reducible (first | apply State.openGate_keeps k0 | apply foldl_keeps | apply foldl_keeps_pair)
    | intro _ _ _ _
    | intro _ _ _
    | intro _ _
    | with_reducible (first | apply ite_keeps | apply ite_keeps_pair)
    | dsimp only
    | split)

theorem State.beltStart_keeps {P : State → Prop} (K : Keeps P 0x83000800 (fun _ => False)) {s : State} (hs : P s) :
    P (State.beltStart s) := by
  have k0 : Keeps P 0x80000000 (fun _ => False) := K.sub rfl (fun _ h => h.elim)
  have k1 : Keeps P 0x800 (fun _ => False) := K.sub rfl (fun _ h => h.elim)
  have k2 : Keeps P 0x3000000 (fun _ => False) := K.sub rfl (fun _ h => h.elim)
  unfold State.beltStart
  repeat' (first
    | with_reducible assumption
    | with_reducible (first | apply State.drawFree_keeps k0 | apply State.setBelt_keeps k1 | apply State.zeroDram_keeps k2 | apply foldl_keeps | apply foldl_keeps_pair)
    | intro _ _ _ _
    | intro _ _ _
    | intro _ _
    | with_reducible (first | apply ite_keeps | apply ite_keeps_pair)
    | dsimp only
    | split)

theorem State.beltStop_keeps {P : State → Prop} (K : Keeps P 0x800 (fun _ => False)) {s : State} (hs : P s) :
    P (State.beltStop s) := by
  have k0 : Keeps P 0x800 (fun _ => False) := K.sub rfl (fun _ h => h.elim)
  unfold State.beltStop
  repeat' (first
    | with_reducible assumption
    | with_reducible (first | apply State.setBelt_keeps k0 | apply foldl_keeps | apply foldl_keeps_pair)
    | intro _ _ _ _
    | intro _ _ _
    | intro _ _
    | with_reducible (first | apply ite_keeps | apply ite_keeps_pair)
    | dsimp only
    | split)

/-- Registers `State.beltUndefine` may write. -/
def State.beltUndefine_offs (o : Nat) : Prop :=
  (∃ n, o = BLT_BELT_STATUS.reg n) ∨ State.beltSpeed_offs o

theorem State.beltUndefine_keeps {P : State → Prop} (K : Keeps P 0x83000800 State.beltUndefine_offs) {s : State} (k : Nat) (hs : P s) :
    P (State.beltUndefine s k) := by
  have k0 : Keeps P 0x80000000 State.beltSpeed_offs := K.sub rfl (fun _ h => .inr (h))
  have k1 : Keeps P 0x800 (fun _ => False) := K.sub rfl (fun _ h => h.elim)
  have k2 : Keeps P 0x3000000 (fun _ => False) := K.sub rfl (fun _ h => h.elim)
  have r0 := fun n => K.reg (BLT_BELT_STATUS.reg n) (.inl ⟨n, rfl⟩)
  unfold State.beltUndefine
  repeat' (first
    | with_reducible assumption
    | with_reducible (first | apply State.beltSpeed_keeps k0 | apply State.setBelt_keeps k1 | apply State.zeroDram_keeps k2 | apply setFlag_keeps | apply setFld_keeps)
    | with_reducible exact r0 _
    | intro _ _ _ _
    | intro _ _ _
    | intro _ _
    | with_reducible (first | apply ite_keeps | apply ite_keeps_pair)
    | dsimp only
    | split
    | with_reducible (first | apply r0))

/-- Registers `State.beltFollow` may write. -/
def State.beltFollow_offs (o : Nat) : Prop :=
  State.beltSpeed_offs o ∨ State.beltUndefine_offs o ∨ State.lenShow_offs o

theorem State.beltFollow_keeps {P : State → Prop} (K : Keeps P 0x83000800 State.beltFollow_offs) {old : State} {s : State} (k : Nat) (hs : P s) :
    P (State.beltFollow old s k) := by
  have k0 : Keeps P 0x80000000 State.beltSpeed_offs := K.sub rfl (fun _ h => .inl h)
  have k1 : Keeps P 0x83000800 State.beltUndefine_offs := K.sub rfl (fun _ h => .inr (.inl h))
  have k2 : Keeps P 0x800 (fun _ => False) := K.sub rfl (fun _ h => h.elim)
  have k3 : Keeps P 0x0 State.lenShow_offs := K.sub rfl (fun _ h => .inr (.inr (h)))
  have k4 : Keeps P 0x800 (fun _ => False) := K.sub rfl (fun _ h => h.elim)
  unfold State.beltFollow
  repeat' (first
    | with_reducible assumption
    | with_reducible (first | apply State.beltSpeed_keeps k0 | apply State.beltUndefine_keeps k1 | apply State.closeMap_keeps k2 | apply State.lenShow_keeps k3 | apply State.setBelt_keeps k4)
    | intro _ _ _ _
    | intro _ _ _
    | intro _ _
    | with_reducible (first | apply ite_keeps | apply ite_keeps_pair)
    | dsimp only
    | split)

/-- Registers `State.bltChange` may write. -/
def State.bltChange_offs (o : Nat) : Prop :=
  State.beltFollow_offs o

theorem State.bltChange_keeps {P : State → Prop} (K : Keeps P 0x83000800 State.bltChange_offs) {old : State} {new : State} (hnew : P new) :
    P (State.bltChange old new) := by
  have k0 : Keeps P 0x83000800 State.beltFollow_offs := K.sub rfl (fun _ h => h)
  have k1 : Keeps P 0x800 (fun _ => False) := K.sub rfl (fun _ h => h.elim)
  have k2 : Keeps P 0x800 (fun _ => False) := K.sub rfl (fun _ h => h.elim)
  unfold State.bltChange
  repeat' (first
    | with_reducible assumption
    | with_reducible (first | apply State.beltFollow_keeps k0 | apply State.pairChangeAll_keeps k1 | apply State.tinChangeAll_keeps k2 | apply foldl_keeps | apply foldl_keeps_pair)
    | intro _ _ _ _
    | intro _ _ _
    | intro _ _
    | with_reducible (first | apply ite_keeps | apply ite_keeps_pair)
    | dsimp only
    | split)

/-- Registers `State.fullBlocks` may write. -/
def State.fullBlocks_offs (o : Nat) : Prop :=
  State.pushBlock_offs o

theorem State.fullBlocks_keeps {P : State → Prop} (K : Keeps P 0x40000010 State.fullBlocks_offs) {s : State} (hdr : Nat → List Byte) (vals : List Nat) (a0 : Nat) (a1 : Nat) (hs : P s) :
    P (State.fullBlocks s hdr vals a0 a1) := by
  have k0 : Keeps P 0x40000010 State.pushBlock_offs := K.sub rfl (fun _ h => h)
  induction a0 generalizing s hdr vals a1 with
  | zero =>
    unfold State.fullBlocks
    repeat' (first
      | with_reducible assumption
      | with_reducible (first | apply State.pushBlock_keeps k0)
      | intro _ _ _ _
      | intro _ _ _
      | intro _ _
      | with_reducible (first | apply ite_keeps | apply ite_keeps_pair)
      | dsimp only
      | split)
  | succ _ ih =>
    unfold State.fullBlocks
    repeat' (first
      | with_reducible assumption
      | with_reducible apply ih
      | with_reducible (first | apply State.pushBlock_keeps k0)
      | intro _ _ _ _
      | intro _ _ _
      | intro _ _
      | with_reducible (first | apply ite_keeps | apply ite_keeps_pair)
      | dsimp only
      | split)

/-- Registers `State.scoreClose` may write. -/
def State.scoreClose_offs (o : Nat) : Prop :=
  (∃ n, o = BLT_BELT_EVENT.reg n) ∨ (∃ n, o = BLT_BELT_MAP_COUNT.reg n) ∨ State.fullBlocks_offs o ∨
    State.pushBlock_offs o ∨ State.raiseEvent_offs o

theorem State.scoreClose_keeps {P : State → Prop} (K : Keeps P 0x443000010 State.scoreClose_offs) {s : State} (k : Nat) (c : MapClose) (hs : P s) :
    P (State.scoreClose s k c) := by
  have k0 : Keeps P 0x40000010 State.fullBlocks_offs := K.sub rfl (fun _ h => .inr (.inr (.inl h)))
  have k1 : Keeps P 0x40000010 State.pushBlock_offs := K.sub rfl (fun _ h => .inr (.inr (.inr (.inl h))))
  have k2 : Keeps P 0x440000010 State.raiseEvent_offs := K.sub rfl (fun _ h => .inr (.inr (.inr (.inr (h)))))
  have k3 : Keeps P 0x3000000 (fun _ => False) := K.sub rfl (fun _ h => h.elim)
  have r0 := fun n => K.reg (BLT_BELT_EVENT.reg n) (.inl ⟨n, rfl⟩)
  have r1 := fun n => K.reg (BLT_BELT_MAP_COUNT.reg n) (.inr (.inl ⟨n, rfl⟩))
  unfold State.scoreClose
  repeat' (first
    | with_reducible assumption
    | with_reducible (first | apply State.fullBlocks_keeps k0 | apply State.pushBlock_keeps k1 | apply State.raiseEvent_keeps k2 | apply State.zeroDram_keeps k3 | apply bump_keeps | apply setFld_keeps | apply foldl_keeps | apply foldl_keeps_pair)
    | with_reducible exact r0 _
    | with_reducible exact r1 _
    | intro _ _ _ _
    | intro _ _ _
    | intro _ _
    | with_reducible (first | apply ite_keeps | apply ite_keeps_pair)
    | dsimp only
    | split
    | with_reducible (first | apply r0 | apply r1))

/-- Registers `execBeltMapScoreDone` may write. -/
def execBeltMapScoreDone_offs (o : Nat) : Prop :=
  State.scoreClose_offs o

theorem execBeltMapScoreDone_keeps {P : State → Prop} (K : Keeps P 0x443000810 execBeltMapScoreDone_offs) {s : State} (k : Fin 8) (hs : P s) :
    ∃ t, (execBeltMapScoreDone k s) = .next t ∧ P t := by
  have k0 : Keeps P 0x443000010 State.scoreClose_offs := K.sub rfl (fun _ h => h)
  have k1 : Keeps P 0x800 (fun _ => False) := K.sub rfl (fun _ h => h.elim)
  refine ⟨_, rfl, ?_⟩
  repeat' (first
    | with_reducible assumption
    | with_reducible (first | apply State.scoreClose_keeps k0 | apply State.setBelt_keeps k1)
    | intro _ _ _ _
    | intro _ _ _
    | intro _ _
    | with_reducible (first | apply ite_keeps | apply ite_keeps_pair)
    | dsimp only
    | split)

/-- Registers `State.showBinRate` may write. -/
def State.showBinRate_offs (o : Nat) : Prop :=
  o = BLT_BIN_RATE.reg

theorem State.showBinRate_keeps {P : State → Prop} (K : Keeps P 0x0 State.showBinRate_offs) {s : State} (hs : P s) :
    P (State.showBinRate s) := by
  have r0 := K.reg (BLT_BIN_RATE.reg) (rfl)
  unfold State.showBinRate
  repeat' (first
    | with_reducible assumption
    | with_reducible (first | apply setNat_keeps | apply foldl_keeps | apply foldl_keeps_pair)
    | with_reducible exact r0
    | intro _ _ _ _
    | intro _ _ _
    | intro _ _
    | with_reducible (first | apply ite_keeps | apply ite_keeps_pair)
    | dsimp only
    | split
    | with_reducible (first | apply r0))

end Sys2Proof.Machine
end

