-- ==== Sys2Proof/Laws/KLaunch.lean ====
section
/-!
SUPPORT. What the operations of Sys2Proof.Machine.Launch keep, and the registers they may write.
-/
namespace Sys2Proof.Machine

theorem State.routeTurn_keeps {P : State → Prop} (K : Keeps P 0x80 (fun _ => False)) {s : State} (t : Turn) (hs : P s) :
    P (State.routeTurn s t) := by
  have t7 : ∀ (s : State) v, P s → P (s.putSrc v) := K.upd 7 rfl
  unfold State.routeTurn
  repeat' (first
    | with_reducible assumption
    | with_reducible (first | apply t7)
    | intro _ _ _ _
    | intro _ _ _
    | intro _ _
    | with_reducible (first | apply ite_keeps | apply ite_keeps_pair)
    | dsimp only
    | split)

theorem State.drawBank_keeps {P : State → Prop} (K : Keeps P 0x80 (fun _ => False)) {s : State} (nj : Nat) (hs : P s) :
    P (State.drawBank s nj) := by
  have k0 : Keeps P 0x80 (fun _ => False) := K.sub rfl (fun _ h => h.elim)
  have t7 : ∀ (s : State) v, P s → P (s.putSrc v) := K.upd 7 rfl
  unfold State.drawBank
  repeat' (first
    | with_reducible assumption
    | with_reducible (first | apply State.syncBank_keeps k0 | apply t7)
    | intro _ _ _ _
    | intro _ _ _
    | intro _ _
    | with_reducible (first | apply ite_keeps | apply ite_keeps_pair)
    | dsimp only
    | split)

/-- Registers `State.tapLast` may write. -/
def State.tapLast_offs (o : Nat) : Prop :=
  o = SRC_TAP_LAST.reg

theorem State.tapLast_keeps {P : State → Prop} (K : Keeps P 0x0 State.tapLast_offs) {s : State} (port : Nat) (energy : Nat) (short : Bool) (fail : Bool) (hs : P s) :
    P (State.tapLast s port energy short fail) := by
  have r0 := K.reg (SRC_TAP_LAST.reg) (rfl)
  unfold State.tapLast
  repeat' (first
    | with_reducible assumption
    | with_reducible (first | apply setNat_keeps)
    | with_reducible exact r0
    | intro _ _ _ _
    | intro _ _ _
    | intro _ _
    | with_reducible (first | apply ite_keeps | apply ite_keeps_pair)
    | dsimp only
    | split
    | with_reducible (first | apply r0))

theorem State.armRx_keeps {P : State → Prop} (K : Keeps P 0x40000 (fun _ => False)) {s : State} (t : Turn) (hs : P s) :
    P (State.armRx s t) := by
  have k0 : Keeps P 0x40000 (fun _ => False) := K.sub rfl (fun _ h => h.elim)
  unfold State.armRx
  repeat' (first
    | with_reducible assumption
    | with_reducible (first | apply State.setPort_keeps k0)
    | intro _ _ _ _
    | intro _ _ _
    | intro _ _
    | with_reducible (first | apply ite_keeps | apply ite_keeps_pair)
    | dsimp only
    | split)

theorem State.addFlight_keeps {P : State → Prop} (K : Keeps P 0x100 (fun _ => False)) {s : State} (t : Turn) (hs : P s) :
    P (State.addFlight s t) := by
  have t8 : ∀ (s : State) v, P s → P (s.putSched v) := K.upd 8 rfl
  unfold State.addFlight
  repeat' (first
    | with_reducible assumption
    | with_reducible (first | apply t8)
    | intro _ _ _ _
    | intro _ _ _
    | intro _ _
    | with_reducible (first | apply ite_keeps | apply ite_keeps_pair)
    | dsimp only
    | split)

theorem State.takeSource_keeps {P : State → Prop} (K : Keeps P 0x100 (fun _ => False)) {s : State} (u : Nat) (hs : P s) :
    P (State.takeSource s u) := by
  have t8 : ∀ (s : State) v, P s → P (s.putSched v) := K.upd 8 rfl
  unfold State.takeSource
  repeat' (first
    | with_reducible assumption
    | with_reducible (first | apply t8)
    | intro _ _ _ _
    | intro _ _ _
    | intro _ _
    | with_reducible (first | apply ite_keeps | apply ite_keeps_pair)
    | dsimp only
    | split)

/-- Registers `State.launchTurn` may write. -/
def State.launchTurn_offs (o : Nat) : Prop :=
  State.tapLast_offs o

theorem State.launchTurn_keeps {P : State → Prop} (K : Keeps P 0x40040180 State.launchTurn_offs) {s : State} (t : Turn) (hs : P s) :
    P (State.launchTurn s t) := by
  have k0 : Keeps P 0x100 (fun _ => False) := K.sub rfl (fun _ h => h.elim)
  have k1 : Keeps P 0x40000 (fun _ => False) := K.sub rfl (fun _ h => h.elim)
  have k2 : Keeps P 0x80 (fun _ => False) := K.sub rfl (fun _ h => h.elim)
  have k3 : Keeps P 0x80 (fun _ => False) := K.sub rfl (fun _ h => h.elim)
  have k4 : Keeps P 0x100 (fun _ => False) := K.sub rfl (fun _ h => h.elim)
  have k5 : Keeps P 0x0 State.tapLast_offs := K.sub rfl (fun _ h => h)
  have t8 : ∀ (s : State) v, P s → P (s.putSched v) := K.upd 8 rfl
  have te : ∀ (s : State) (e : Emission), P s → P (s.emit e) := K.upd 30 rfl
  unfold State.launchTurn
  repeat' (first
    | with_reducible assumption
    | with_reducible (first | apply State.addFlight_keeps k0 | apply State.armRx_keeps k1 | apply State.drawBank_keeps k2 | apply State.routeTurn_keeps k3 | apply State.takeSource_keeps k4 | apply State.tapLast_keeps k5 | apply t8 | apply te)
    | intro _ _ _ _
    | intro _ _ _
    | intro _ _
    | with_reducible (first | apply ite_keeps | apply ite_keeps_pair)
    | dsimp only
    | split)

theorem State.brlDrop_keeps {P : State → Prop} (K : Keeps P 0x2000 (fun _ => False)) {s : State} (n : Nat) (round : Nat) (off : Nat) (hs : P s) (hf : ∀ s w, P s → P (s.setReg off w)) :
    P (State.brlDrop s n round off) := by
  have k0 : Keeps P 0x2000 (fun _ => False) := K.sub rfl (fun _ h => h.elim)
  unfold State.brlDrop
  repeat' (first
    | with_reducible assumption
    | with_reducible (first | apply State.setBrlPort_keeps k0 | apply bump_keeps)
    | with_reducible exact hf
    | intro _ _ _ _
    | intro _ _ _
    | intro _ _
    | with_reducible (first | apply ite_keeps | apply ite_keeps_pair)
    | dsimp only
    | split)

/-- Registers `State.skipTurn` may write. -/
def State.skipTurn_offs (o : Nat) : Prop :=
  o = BRL_DROP_FAILED_COUNT.reg ∨ o = BRL_DROP_SKIP_COUNT.reg ∨ (∃ n, o = LCH_PORT_SKIP_COUNT.reg n) ∨
    o = LCH_SKIP_COUNT.reg

theorem State.skipTurn_keeps {P : State → Prop} (K : Keeps P 0x2100 State.skipTurn_offs) {s : State} (t : Turn) (hs : P s) :
    P (State.skipTurn s t) := by
  have k0 : Keeps P 0x100 (fun _ => False) := K.sub rfl (fun _ h => h.elim)
  have k1 : Keeps P 0x2000 (fun _ => False) := K.sub rfl (fun _ h => h.elim)
  have r0 := K.reg (BRL_DROP_FAILED_COUNT.reg) (.inl rfl)
  have r1 := K.reg (BRL_DROP_SKIP_COUNT.reg) (.inr (.inl rfl))
  have r2 := fun n => K.reg (LCH_PORT_SKIP_COUNT.reg n) (.inr (.inr (.inl ⟨n, rfl⟩)))
  have r3 := K.reg (LCH_SKIP_COUNT.reg) (.inr (.inr (.inr (rfl))))
  have t8 : ∀ (s : State) v, P s → P (s.putSched v) := K.upd 8 rfl
  unfold State.skipTurn
  repeat' (first
    | with_reducible assumption
    | with_reducible (first | apply State.addFlight_keeps k0 | apply State.brlDrop_keeps k1 | apply bump_keeps | apply t8)
    | with_reducible exact r0
    | with_reducible exact r1
    | with_reducible exact r2 _
    | with_reducible exact r3
    | intro _ _ _ _
    | intro _ _ _
    | intro _ _
    | with_reducible (first | apply ite_keeps | apply ite_keeps_pair)
    | dsimp only
    | split
    | with_reducible (first | apply r0 | apply r1 | apply r2 | apply r3))

/-- Registers `State.launchDiag` may write. -/
def State.launchDiag_offs (o : Nat) : Prop :=
  o = SRC_DIAG_COUNT.reg ∨ o = SRC_DIAG_STATUS.reg

theorem State.launchDiag_keeps {P : State → Prop} (K : Keeps P 0x40000180 State.launchDiag_offs) {s : State} (hs : P s) :
    P (State.launchDiag s) := by
  have k0 : Keeps P 0x80 (fun _ => False) := K.sub rfl (fun _ h => h.elim)
  have k1 : Keeps P 0x100 (fun _ => False) := K.sub rfl (fun _ h => h.elim)
  have r0 := K.reg (SRC_DIAG_COUNT.reg) (.inl rfl)
  have r1 := K.reg (SRC_DIAG_STATUS.reg) (.inr (rfl))
  have t8 : ∀ (s : State) v, P s → P (s.putSched v) := K.upd 8 rfl
  have te : ∀ (s : State) (e : Emission), P s → P (s.emit e) := K.upd 30 rfl
  unfold State.launchDiag
  repeat' (first
    | with_reducible assumption
    | with_reducible (first | apply State.drawBank_keeps k0 | apply State.takeSource_keeps k1 | apply bump_keeps | apply setFld_keeps | apply t8 | apply te)
    | with_reducible exact r0
    | with_reducible exact r1
    | intro _ _ _ _
    | intro _ _ _
    | intro _ _
    | with_reducible (first | apply ite_keeps | apply ite_keeps_pair)
    | dsimp only
    | split
    | with_reducible (first | apply r0 | apply r1))

/-- Registers `State.skipDiag` may write. -/
def State.skipDiag_offs (o : Nat) : Prop :=
  o = LCH_DIAG_MISS_COUNT.reg ∨ State.diagEvent_offs o

theorem State.skipDiag_keeps {P : State → Prop} (K : Keeps P 0x4c010c7f4 State.skipDiag_offs) {s : State} (hs : P s) :
    P (State.skipDiag s) := by
  have k0 : Keeps P 0x4c010c7f4 State.diagEvent_offs := K.sub rfl (fun _ h => .inr (h))
  have r0 := K.reg (LCH_DIAG_MISS_COUNT.reg) (.inl rfl)
  have t8 : ∀ (s : State) v, P s → P (s.putSched v) := K.upd 8 rfl
  unfold State.skipDiag
  repeat' (first
    | with_reducible assumption
    | with_reducible (first | apply State.diagEvent_keeps k0 | apply bump_keeps | apply t8)
    | with_reducible exact r0
    | intro _ _ _ _
    | intro _ _ _
    | intro _ _
    | with_reducible (first | apply ite_keeps | apply ite_keeps_pair)
    | dsimp only
    | split
    | with_reducible (first | apply r0))

theorem State.passEntry_keeps {P : State → Prop} (K : Keeps P 0x100 (fun _ => False)) {s : State} (e : Entry) (hs : P s) :
    P (State.passEntry s e) := by
  have t8 : ∀ (s : State) v, P s → P (s.putSched v) := K.upd 8 rfl
  unfold State.passEntry
  repeat' (first
    | with_reducible assumption
    | with_reducible (first | apply t8)
    | intro _ _ _ _
    | intro _ _ _
    | intro _ _
    | with_reducible (first | apply ite_keeps | apply ite_keeps_pair)
    | dsimp only
    | split)

theorem State.slideTurn_keeps {P : State → Prop} (K : Keeps P 0x100 (fun _ => False)) {s : State} (t : Turn) (hs : P s) :
    P (State.slideTurn s t) := by
  have t8 : ∀ (s : State) v, P s → P (s.putSched v) := K.upd 8 rfl
  unfold State.slideTurn
  repeat' (first
    | with_reducible assumption
    | with_reducible (first | apply t8)
    | intro _ _ _ _
    | intro _ _ _
    | intro _ _
    | with_reducible (first | apply ite_keeps | apply ite_keeps_pair)
    | dsimp only
    | split)

/-- Registers `State.offerTurn` may write. -/
def State.offerTurn_offs (o : Nat) : Prop :=
  State.launchTurn_offs o ∨ State.skipTurn_offs o

theorem State.offerTurn_keeps {P : State → Prop} (K : Keeps P 0x40042180 State.offerTurn_offs) {s : State} (t : Turn) (hs : P s) :
    P (State.offerTurn s t) := by
  have k0 : Keeps P 0x40040180 State.launchTurn_offs := K.sub rfl (fun _ h => .inl h)
  have k1 : Keeps P 0x2100 State.skipTurn_offs := K.sub rfl (fun _ h => .inr (h))
  have k2 : Keeps P 0x100 (fun _ => False) := K.sub rfl (fun _ h => h.elim)
  unfold State.offerTurn
  repeat' (first
    | with_reducible assumption
    | with_reducible (first | apply State.launchTurn_keeps k0 | apply State.skipTurn_keeps k1 | apply State.slideTurn_keeps k2)
    | intro _ _ _ _
    | intro _ _ _
    | intro _ _
    | with_reducible (first | apply ite_keeps | apply ite_keeps_pair)
    | dsimp only
    | split)

/-- Registers `execTurnDue` may write. -/
def execTurnDue_offs (o : Nat) : Prop :=
  State.offerTurn_offs o

theorem execTurnDue_keeps {P : State → Prop} (K : Keeps P 0x40042180 execTurnDue_offs) {s : State} (hs : P s) :
    ∃ t, (execTurnDue s) = .next t ∧ P t := by
  have k0 : Keeps P 0x40042180 State.offerTurn_offs := K.sub rfl (fun _ h => h)
  have k1 : Keeps P 0x100 (fun _ => False) := K.sub rfl (fun _ h => h.elim)
  refine ⟨_, rfl, ?_⟩
  repeat' (first
    | with_reducible assumption
    | with_reducible (first | apply State.offerTurn_keeps k0 | apply State.passEntry_keeps k1)
    | intro _ _ _ _
    | intro _ _ _
    | intro _ _
    | with_reducible (first | apply ite_keeps | apply ite_keeps_pair)
    | dsimp only
    | split)

/-- Registers `State.offerDiag` may write. -/
def State.offerDiag_offs (o : Nat) : Prop :=
  State.launchDiag_offs o ∨ State.skipDiag_offs o

theorem State.offerDiag_keeps {P : State → Prop} (K : Keeps P 0x4c010c7f4 State.offerDiag_offs) {s : State} (e : Entry) (hs : P s) :
    P (State.offerDiag s e) := by
  have k0 : Keeps P 0x40000180 State.launchDiag_offs := K.sub rfl (fun _ h => .inl h)
  have k1 : Keeps P 0x4c010c7f4 State.skipDiag_offs := K.sub rfl (fun _ h => .inr (h))
  have t8 : ∀ (s : State) v, P s → P (s.putSched v) := K.upd 8 rfl
  unfold State.offerDiag
  repeat' (first
    | with_reducible assumption
    | with_reducible (first | apply State.launchDiag_keeps k0 | apply State.skipDiag_keeps k1 | apply t8)
    | intro _ _ _ _
    | intro _ _ _
    | intro _ _
    | with_reducible (first | apply ite_keeps | apply ite_keeps_pair)
    | dsimp only
    | split)

/-- Registers `execDiagTurn` may write. -/
def execDiagTurn_offs (o : Nat) : Prop :=
  State.offerDiag_offs o

theorem execDiagTurn_keeps {P : State → Prop} (K : Keeps P 0x4c010c7f4 execDiagTurn_offs) {s : State} (hs : P s) :
    ∃ t, (execDiagTurn s) = .next t ∧ P t := by
  have k0 : Keeps P 0x4c010c7f4 State.offerDiag_offs := K.sub rfl (fun _ h => h)
  have k1 : Keeps P 0x100 (fun _ => False) := K.sub rfl (fun _ h => h.elim)
  refine ⟨_, rfl, ?_⟩
  repeat' (first
    | with_reducible assumption
    | with_reducible (first | apply State.offerDiag_keeps k0 | apply State.passEntry_keeps k1)
    | intro _ _ _ _
    | intro _ _ _
    | intro _ _
    | with_reducible (first | apply ite_keeps | apply ite_keeps_pair)
    | dsimp only
    | split)

/-- Registers `State.launchSlid` may write. -/
def State.launchSlid_offs (o : Nat) : Prop :=
  o = LCH_SLIDE_COUNT.reg ∨ State.launchDiag_offs o ∨ State.launchTurn_offs o

theorem State.launchSlid_keeps {P : State → Prop} (K : Keeps P 0x40040180 State.launchSlid_offs) {s : State} (t : Turn) (due : Nat) (hs : P s) :
    P (State.launchSlid s t due) := by
  have k0 : Keeps P 0x40000180 State.launchDiag_offs := K.sub rfl (fun _ h => .inr (.inl h))
  have k1 : Keeps P 0x40040180 State.launchTurn_offs := K.sub rfl (fun _ h => .inr (.inr (h)))
  have r0 := K.reg (LCH_SLIDE_COUNT.reg) (.inl rfl)
  have t8 : ∀ (s : State) v, P s → P (s.putSched v) := K.upd 8 rfl
  unfold State.launchSlid
  repeat' (first
    | with_reducible assumption
    | with_reducible (first | apply State.launchDiag_keeps k0 | apply State.launchTurn_keeps k1 | apply bump_keeps | apply t8)
    | with_reducible exact r0
    | intro _ _ _ _
    | intro _ _ _
    | intro _ _
    | with_reducible (first | apply ite_keeps | apply ite_keeps_pair)
    | dsimp only
    | split
    | with_reducible (first | apply r0))

/-- Registers `execSlidTurnLaunch` may write. -/
def execSlidTurnLaunch_offs (o : Nat) : Prop :=
  State.launchSlid_offs o

theorem execSlidTurnLaunch_keeps {P : State → Prop} (K : Keeps P 0x40040180 execSlidTurnLaunch_offs) {s : State} (hs : P s) :
    ∃ t, (execSlidTurnLaunch s) = .next t ∧ P t := by
  have k0 : Keeps P 0x40040180 State.launchSlid_offs := K.sub rfl (fun _ h => h)
  refine ⟨_, rfl, ?_⟩
  repeat' (first
    | with_reducible assumption
    | with_reducible (first | apply State.launchSlid_keeps k0)
    | intro _ _ _ _
    | intro _ _ _
    | intro _ _
    | with_reducible (first | apply ite_keeps | apply ite_keeps_pair)
    | dsimp only
    | split)

/-- Registers `execSlideLimitExpiry` may write. -/
def execSlideLimitExpiry_offs (o : Nat) : Prop :=
  State.launchSlid_offs o ∨ State.skipDiag_offs o ∨ State.skipTurn_offs o

theorem execSlideLimitExpiry_keeps {P : State → Prop} (K : Keeps P 0x4c014e7f4 execSlideLimitExpiry_offs) {s : State} (hs : P s) :
    ∃ t, (execSlideLimitExpiry s) = .next t ∧ P t := by
  have k0 : Keeps P 0x40040180 State.launchSlid_offs := K.sub rfl (fun _ h => .inl h)
  have k1 : Keeps P 0x4c010c7f4 State.skipDiag_offs := K.sub rfl (fun _ h => .inr (.inl h))
  have k2 : Keeps P 0x2100 State.skipTurn_offs := K.sub rfl (fun _ h => .inr (.inr (h)))
  have t8 : ∀ (s : State) v, P s → P (s.putSched v) := K.upd 8 rfl
  refine ⟨_, rfl, ?_⟩
  repeat' (first
    | with_reducible assumption
    | with_reducible (first | apply State.launchSlid_keeps k0 | apply State.skipDiag_keeps k1 | apply State.skipTurn_keeps k2 | apply t8)
    | intro _ _ _ _
    | intro _ _ _
    | intro _ _
    | with_reducible (first | apply ite_keeps | apply ite_keeps_pair)
    | dsimp only
    | split)

/-- Registers `execDeferredTakeoverLaunch` may write. -/
def execDeferredTakeoverLaunch_offs (o : Nat) : Prop :=
  o = MLK_TKO_DEFER_COUNT.reg ∨ State.offerDiag_offs o ∨ State.offerTurn_offs o

theorem execDeferredTakeoverLaunch_keeps {P : State → Prop} (K : Keeps P 0x4c014e7f4 execDeferredTakeoverLaunch_offs) {s : State} (hs : P s) :
    ∃ t, (execDeferredTakeoverLaunch s) = .next t ∧ P t := by
  have k0 : Keeps P 0x4c010c7f4 State.offerDiag_offs := K.sub rfl (fun _ h => .inr (.inl h))
  have k1 : Keeps P 0x40042180 State.offerTurn_offs := K.sub rfl (fun _ h => .inr (.inr (h)))
  have k2 : Keeps P 0x100 (fun _ => False) := K.sub rfl (fun _ h => h.elim)
  have r0 := K.reg (MLK_TKO_DEFER_COUNT.reg) (.inl rfl)
  have t8 : ∀ (s : State) v, P s → P (s.putSched v) := K.upd 8 rfl
  refine ⟨_, rfl, ?_⟩
  repeat' (first
    | with_reducible assumption
    | with_reducible (first | apply State.offerDiag_keeps k0 | apply State.offerTurn_keeps k1 | apply State.passEntry_keeps k2 | apply bump_keeps | apply t8)
    | with_reducible exact r0
    | intro _ _ _ _
    | intro _ _ _
    | intro _ _
    | with_reducible (first | apply ite_keeps | apply ite_keeps_pair)
    | dsimp only
    | split
    | with_reducible (first | apply r0))

end Sys2Proof.Machine
end

