-- ==== Sys2Proof/Laws/KMirror.lean ====
section
/-!
SUPPORT. What the operations of Sys2Proof.Machine.Mirror keep, and the registers they may write.
-/
namespace Sys2Proof.Machine

theorem State.sendMirror_keeps {P : State → Prop} (K : Keeps P 0xc0004000 (fun _ => False)) {s : State} (dest : Nat) (data : List Byte) (hs : P s) :
    P (State.sendMirror s dest data) := by
  have k0 : Keeps P 0xc0000000 (fun _ => False) := K.sub rfl (fun _ h => h.elim)
  have t14 : ∀ (s : State) v, (Memory.wf 0 s.mlk.pbase = true → Memory.wf 0 v.pbase = true) → P s → P (s.putMlk v) := K.upd 14 rfl
  unfold State.sendMirror
  repeat' (first
    | with_reducible assumption
    | with_reducible (first | apply State.sendOne_keeps k0 | apply t14)
    | with_reducible_and_instances (first | exact fun h => h | exact fun h => Memory.setBytes_wf _ _ h | exact fun h => SMap.put_wf _ _ h | exact fun h => Memory.clearRange_wf _ _ h | exact fun _ => rfl | exact fun h => Memory.setByte_wf _ _ h | exact fun h => Memory.setBytes_wf _ _ (Memory.setBytes_wf _ _ h) | exact fun h => Memory.clearRange_wf _ _ (Memory.clearRange_wf _ _ h) | exact fun h => SMap.filter_wf _ h)
    | exact fun h => SMap.put_wf _ _ h
    | exact fun _ => SMap.nil_wf
    | intro _ _ _ _
    | intro _ _ _
    | intro _ _
    | with_reducible (first | apply ite_keeps | apply ite_keeps_pair)
    | dsimp only
    | split)

theorem State.sendMirrorData_keeps {P : State → Prop} (K : Keeps P 0xc0004000 (fun _ => False)) {s : State} (dest : Nat) (a0 : Nat) (a1 : List Byte) (hs : P s) :
    P (State.sendMirrorData s dest a0 a1) := by
  have k0 : Keeps P 0xc0004000 (fun _ => False) := K.sub rfl (fun _ h => h.elim)
  induction a0 generalizing s dest a1 with
  | zero =>
    unfold State.sendMirrorData
    repeat' (first
      | with_reducible assumption
      | with_reducible (first | apply State.sendMirror_keeps k0)
      | intro _ _ _ _
      | intro _ _ _
      | intro _ _
      | with_reducible (first | apply ite_keeps | apply ite_keeps_pair)
      | dsimp only
      | split)
  | succ _ ih =>
    unfold State.sendMirrorData
    repeat' (first
      | with_reducible assumption
      | with_reducible apply ih
      | with_reducible (first | apply State.sendMirror_keeps k0)
      | intro _ _ _ _
      | intro _ _ _
      | intro _ _
      | with_reducible (first | apply ite_keeps | apply ite_keeps_pair)
      | dsimp only
      | split)

theorem State.mirrorChanges_keeps {P : State → Prop} (K : Keeps P 0xc0004000 (fun _ => False)) {s : State} (hs : P s) :
    P (State.mirrorChanges s) := by
  have k0 : Keeps P 0xc0004000 (fun _ => False) := K.sub rfl (fun _ h => h.elim)
  have t14 : ∀ (s : State) v, (Memory.wf 0 s.mlk.pbase = true → Memory.wf 0 v.pbase = true) → P s → P (s.putMlk v) := K.upd 14 rfl
  unfold State.mirrorChanges
  repeat' (first
    | with_reducible assumption
    | with_reducible (first | apply State.sendMirror_keeps k0 | apply foldl_keeps | apply foldl_keeps_pair | apply t14)
    | with_reducible_and_instances (first | exact fun h => h | exact fun h => Memory.setBytes_wf _ _ h | exact fun h => SMap.put_wf _ _ h | exact fun h => Memory.clearRange_wf _ _ h | exact fun _ => rfl | exact fun h => Memory.setByte_wf _ _ h | exact fun h => Memory.setBytes_wf _ _ (Memory.setBytes_wf _ _ h) | exact fun h => Memory.clearRange_wf _ _ (Memory.clearRange_wf _ _ h) | exact fun h => SMap.filter_wf _ h)
    | exact fun h => SMap.put_wf _ _ h
    | exact fun _ => SMap.nil_wf
    | intro _ _ _ _
    | intro _ _ _
    | intro _ _
    | with_reducible (first | apply ite_keeps | apply ite_keeps_pair)
    | dsimp only
    | split)

theorem State.mirrorBaseline_keeps {P : State → Prop} (K : Keeps P 0xc0004000 (fun _ => False)) {s : State} (n : Nat) (hs : P s) :
    P (State.mirrorBaseline s n) := by
  have k0 : Keeps P 0xc0004000 (fun _ => False) := K.sub rfl (fun _ h => h.elim)
  unfold State.mirrorBaseline
  repeat' (first
    | with_reducible assumption
    | with_reducible (first | apply State.sendMirrorData_keeps k0)
    | intro _ _ _ _
    | intro _ _ _
    | intro _ _
    | with_reducible (first | apply ite_keeps | apply ite_keeps_pair)
    | dsimp only
    | split)

theorem State.mirrorRefs_keeps {P : State → Prop} (K : Keeps P 0xc0004000 (fun _ => False)) {s : State} (n : Nat) (first : Nat) (count : Nat) (hs : P s) :
    P (State.mirrorRefs s n first count) := by
  have k0 : Keeps P 0xc0004000 (fun _ => False) := K.sub rfl (fun _ h => h.elim)
  unfold State.mirrorRefs
  repeat' (first
    | with_reducible assumption
    | with_reducible (first | apply State.sendMirrorData_keeps k0)
    | intro _ _ _ _
    | intro _ _ _
    | intro _ _
    | with_reducible (first | apply ite_keeps | apply ite_keeps_pair)
    | dsimp only
    | split)

end Sys2Proof.Machine
end

