-- ==== Sys2Proof/Laws/KFilter.lean ====
section
/-!
SUPPORT. What the operations of Sys2Proof.Machine.Filter keep, and the registers they may write.
-/
namespace Sys2Proof.Machine

/-- Registers `State.fltDelay` may write. -/
def State.fltDelay_offs (o : Nat) : Prop :=
  (∃ n, o = FLT_PORT_GD.reg n)

theorem State.fltDelay_keeps {P : State → Prop} (K : Keeps P 0x80000000 State.fltDelay_offs) {s : State} (c : FltConf) (n : Nat) (hs : P s) :
    P (State.fltDelay s c n) := by
  have k0 : Keeps P 0x80000000 (fun _ => False) := K.sub rfl (fun _ h => h.elim)
  have r0 := fun n => K.reg (FLT_PORT_GD.reg n) (⟨n, rfl⟩)
  unfold State.fltDelay
  repeat' (first
    | with_reducible assumption
    | with_reducible (first | apply State.drawFree_keeps k0 | apply setFldInt_keeps)
    | with_reducible exact r0 _
    | intro _ _ _ _
    | intro _ _ _
    | intro _ _
    | with_reducible (first | apply ite_keeps | apply ite_keeps_pair)
    | dsimp only
    | split
    | with_reducible (first | apply r0))

/-- Registers `State.showFlt` may write. -/
def State.showFlt_offs (o : Nat) : Prop :=
  (∃ n, o = FLT_PORT_ALIGN.reg n) ∨ (∃ n, o = FLT_PORT_SETTLE.reg n) ∨ (∃ n, o = FLT_PORT_STATUS.reg n) ∨
    State.fltDelay_offs o

theorem State.showFlt_keeps {P : State → Prop} (K : Keeps P 0x80000000 State.showFlt_offs) {s : State} (n : Nat) (hs : P s) :
    P (State.showFlt s n) := by
  have k0 : Keeps P 0x80000000 State.fltDelay_offs := K.sub rfl (fun _ h => .inr (.inr (.inr (h))))
  have r0 := fun n => K.reg (FLT_PORT_ALIGN.reg n) (.inl ⟨n, rfl⟩)
  have r1 := fun n => K.reg (FLT_PORT_SETTLE.reg n) (.inr (.inl ⟨n, rfl⟩))
  have r2 := fun n => K.reg (FLT_PORT_STATUS.reg n) (.inr (.inr (.inl ⟨n, rfl⟩)))
  unfold State.showFlt
  repeat' (first
    | with_reducible assumption
    | with_reducible (first | apply State.fltDelay_keeps k0 | apply setFlag_keeps | apply setFld_keeps)
    | with_reducible exact r0 _
    | with_reducible exact r1 _
    | with_reducible exact r2 _
    | intro _ _ _ _
    | intro _ _ _
    | intro _ _
    | with_reducible (first | apply ite_keeps | apply ite_keeps_pair)
    | dsimp only
    | split
    | with_reducible (first | apply r0 | apply r1 | apply r2))

/-- Registers `State.showUser` may write. -/
def State.showUser_offs (o : Nat) : Prop :=
  (∃ n, o = FLT_USER_STATUS.reg n)

theorem State.showUser_keeps {P : State → Prop} (K : Keeps P 0x0 State.showUser_offs) {s : State} (u : Nat) (hs : P s) :
    P (State.showUser s u) := by
  have r0 := fun n => K.reg (FLT_USER_STATUS.reg n) (⟨n, rfl⟩)
  unfold State.showUser
  repeat' (first
    | with_reducible assumption
    | with_reducible (first | apply setFlag_keeps | apply setFld_keeps | apply foldl_keeps | apply foldl_keeps_pair)
    | with_reducible exact r0 _
    | intro _ _ _ _
    | intro _ _ _
    | intro _ _
    | with_reducible (first | apply ite_keeps | apply ite_keeps_pair)
    | dsimp only
    | split
    | with_reducible (first | apply r0))

/-- Registers `State.showLeft` may write. -/
def State.showLeft_offs (o : Nat) : Prop :=
  (∃ n, o = FLT_PORT_SETTLE.reg n) ∨ (∃ n, o = FLT_PORT_STATUS.reg n)

theorem State.showLeft_keeps {P : State → Prop} (K : Keeps P 0x0 State.showLeft_offs) {s : State} (n : Nat) (left : Nat) (hs : P s) :
    P (State.showLeft s n left) := by
  have r0 := fun n => K.reg (FLT_PORT_SETTLE.reg n) (.inl ⟨n, rfl⟩)
  have r1 := fun n => K.reg (FLT_PORT_STATUS.reg n) (.inr (⟨n, rfl⟩))
  unfold State.showLeft
  repeat' (first
    | with_reducible assumption
    | with_reducible (first | apply setFlag_keeps | apply setFld_keeps)
    | with_reducible exact r0 _
    | with_reducible exact r1 _
    | intro _ _ _ _
    | intro _ _ _
    | intro _ _
    | with_reducible (first | apply ite_keeps | apply ite_keeps_pair)
    | dsimp only
    | split
    | with_reducible (first | apply r0 | apply r1))

/-- Registers `State.fltFrame` may write. -/
def State.fltFrame_offs (o : Nat) : Prop :=
  (∃ n, o = FLT_PORT_OUT_SAT_COUNT.reg n) ∨ (∃ n, o = FLT_PORT_SAT_COUNT.reg n) ∨ (∃ n, o = FLT_PORT_STATUS.reg n) ∨
    State.showLeft_offs o

theorem State.fltFrame_keeps {P : State → Prop} (K : Keeps P 0x40000 State.fltFrame_offs) {s : State} (f : OutFrame) (hs : P s) :
    P (State.fltFrame s f).1 := by
  have k0 : Keeps P 0x40000 (fun _ => False) := K.sub rfl (fun _ h => h.elim)
  have k1 : Keeps P 0x0 State.showLeft_offs := K.sub rfl (fun _ h => .inr (.inr (.inr (h))))
  have r0 := fun n => K.reg (FLT_PORT_OUT_SAT_COUNT.reg n) (.inl ⟨n, rfl⟩)
  have r1 := fun n => K.reg (FLT_PORT_SAT_COUNT.reg n) (.inr (.inl ⟨n, rfl⟩))
  have r2 := fun n => K.reg (FLT_PORT_STATUS.reg n) (.inr (.inr (.inl ⟨n, rfl⟩)))
  unfold State.fltFrame
  repeat' (first
    | with_reducible assumption
    | with_reducible (first | apply State.setPort_keeps k0 | apply State.showLeft_keeps k1 | apply bump_keeps | apply setFlag_keeps)
    | with_reducible exact r0 _
    | with_reducible exact r1 _
    | with_reducible exact r2 _
    | intro _ _ _ _
    | intro _ _ _
    | intro _ _
    | with_reducible (first | apply ite_keeps | apply ite_keeps_pair)
    | dsimp only
    | split
    | with_reducible (first | apply r0 | apply r1 | apply r2))

/-- Registers `State.fltPend` may write. -/
def State.fltPend_offs (o : Nat) : Prop :=
  (∃ n, o = FLT_PORT_RESTART_COUNT.reg n)

theorem State.fltPend_keeps {P : State → Prop} (K : Keeps P 0x40000 State.fltPend_offs) {s : State} (n : Nat) (zero : Bool) (hs : P s) :
    P (State.fltPend s n zero) := by
  have k0 : Keeps P 0x40000 (fun _ => False) := K.sub rfl (fun _ h => h.elim)
  have r0 := fun n => K.reg (FLT_PORT_RESTART_COUNT.reg n) (⟨n, rfl⟩)
  unfold State.fltPend
  repeat' (first
    | with_reducible assumption
    | with_reducible (first | apply State.setPort_keeps k0 | apply bump_keeps)
    | with_reducible exact r0 _
    | intro _ _ _ _
    | intro _ _ _
    | intro _ _
    | with_reducible (first | apply ite_keeps | apply ite_keeps_pair)
    | dsimp only
    | split
    | with_reducible (first | apply r0))

/-- Registers `State.fltRound` may write. -/
def State.fltRound_offs (o : Nat) : Prop :=
  State.fltPend_offs o ∨ State.showFlt_offs o ∨ State.showUser_offs o

theorem State.fltRound_keeps {P : State → Prop} (K : Keeps P 0x80040000 State.fltRound_offs) {old : State} {s : State} (hs : P s) :
    P (State.fltRound old s) := by
  have k0 : Keeps P 0x40000 State.fltPend_offs := K.sub rfl (fun _ h => .inl h)
  have k1 : Keeps P 0x80000000 State.showFlt_offs := K.sub rfl (fun _ h => .inr (.inl h))
  have k2 : Keeps P 0x0 State.showUser_offs := K.sub rfl (fun _ h => .inr (.inr (h)))
  unfold State.fltRound
  repeat' (first
    | with_reducible assumption
    | with_reducible (first | apply State.fltPend_keeps k0 | apply State.showFlt_keeps k1 | apply State.showUser_keeps k2 | apply foldl_keeps | apply foldl_keeps_pair)
    | intro _ _ _ _
    | intro _ _ _
    | intro _ _
    | with_reducible (first | apply ite_keeps | apply ite_keeps_pair)
    | dsimp only
    | split)

/-- Registers `State.fltStart` may write. -/
def State.fltStart_offs (o : Nat) : Prop :=
  (∃ n, o = FLT_PORT_RESTART_COUNT.reg n) ∨ State.showFlt_offs o

theorem State.fltStart_keeps {P : State → Prop} (K : Keeps P 0x80040000 State.fltStart_offs) {s : State} (hs : P s) :
    P (State.fltStart s) := by
  have k0 : Keeps P 0x40000 (fun _ => False) := K.sub rfl (fun _ h => h.elim)
  have k1 : Keeps P 0x80000000 State.showFlt_offs := K.sub rfl (fun _ h => .inr (h))
  have r0 := fun n => K.reg (FLT_PORT_RESTART_COUNT.reg n) (.inl ⟨n, rfl⟩)
  unfold State.fltStart
  repeat' (first
    | with_reducible assumption
    | with_reducible (first | apply State.setPort_keeps k0 | apply State.showFlt_keeps k1 | apply bump_keeps | apply foldl_keeps | apply foldl_keeps_pair)
    | with_reducible exact r0 _
    | intro _ _ _ _
    | intro _ _ _
    | intro _ _
    | with_reducible (first | apply ite_keeps | apply ite_keeps_pair)
    | dsimp only
    | split
    | with_reducible (first | apply r0))

/-- Registers `State.fltStop` may write. -/
def State.fltStop_offs (o : Nat) : Prop :=
  State.showLeft_offs o

theorem State.fltStop_keeps {P : State → Prop} (K : Keeps P 0x40000 State.fltStop_offs) {s : State} (hs : P s) :
    P (State.fltStop s) := by
  have k0 : Keeps P 0x40000 (fun _ => False) := K.sub rfl (fun _ h => h.elim)
  have k1 : Keeps P 0x0 State.showLeft_offs := K.sub rfl (fun _ h => h)
  unfold State.fltStop
  repeat' (first
    | with_reducible assumption
    | with_reducible (first | apply State.setPort_keeps k0 | apply State.showLeft_keeps k1 | apply foldl_keeps | apply foldl_keeps_pair)
    | intro _ _ _ _
    | intro _ _ _
    | intro _ _
    | with_reducible (first | apply ite_keeps | apply ite_keeps_pair)
    | dsimp only
    | split)

end Sys2Proof.Machine
end

