-- ==== Sys2Proof/Laws/KReceiver.lean ====
section
/-!
SUPPORT. What the operations of Sys2Proof.Machine.Receiver keep, and the registers they may write.
-/
namespace Sys2Proof.Machine

/-- Registers `State.rxFaultAt` may write. -/
def State.rxFaultAt_offs (o : Nat) : Prop :=
  State.diagEvent_offs o ∨ State.portFault_offs o

theorem State.rxFaultAt_keeps {P : State → Prop} (K : Keeps P 0x4c010c7f4 State.rxFaultAt_offs) {s : State} (n : Nat) (f : Fld) (hs : P s) (hf : ∀ s w, P s → P (s.setReg f.off w)) :
    P (State.rxFaultAt s n f) := by
  have k0 : Keeps P 0x4c010c7f4 State.diagEvent_offs := K.sub rfl (fun _ h => .inl h)
  have k1 : Keeps P 0x4c0004074 State.portFault_offs := K.sub rfl (fun _ h => .inr (h))
  unfold State.rxFaultAt
  repeat' (first
    | with_reducible assumption
    | with_reducible (first | apply State.diagEvent_keeps k0 | apply State.portFault_keeps k1 | apply setFlag_keeps)
    | with_reducible exact hf
    | intro _ _ _ _
    | intro _ _ _
    | intro _ _
    | with_reducible (first | apply ite_keeps | apply ite_keeps_pair)
    | dsimp only
    | split)

/-- Registers `State.loMonitor` may write. -/
def State.loMonitor_offs (o : Nat) : Prop :=
  (∃ n, o = PRT_LO_MON.reg n) ∨ (∃ n, o = PRT_RX_FAULT.reg n) ∨ (∃ n, o = PRT_RX_STATUS.reg n) ∨
    State.rxFaultAt_offs o

theorem State.loMonitor_keeps {P : State → Prop} (K : Keeps P 0x4c010c7f4 State.loMonitor_offs) {s : State} (t : Turn) (loX : Nat) (loY : Nat) (hs : P s) :
    P (State.loMonitor s t loX loY).1 := by
  have k0 : Keeps P 0x4c010c7f4 State.rxFaultAt_offs := K.sub rfl (fun _ h => .inr (.inr (.inr (h))))
  have r0 := fun n => K.reg (PRT_LO_MON.reg n) (.inl ⟨n, rfl⟩)
  have r1 := fun n => K.reg (PRT_RX_FAULT.reg n) (.inr (.inl ⟨n, rfl⟩))
  have r2 := fun n => K.reg (PRT_RX_STATUS.reg n) (.inr (.inr (.inl ⟨n, rfl⟩)))
  unfold State.loMonitor
  repeat' (first
    | with_reducible assumption
    | with_reducible (first | apply State.rxFaultAt_keeps k0 | apply setFlag_keeps | apply setFld_keeps)
    | with_reducible exact r0 _
    | with_reducible exact r1 _
    | with_reducible exact r2 _
    | intro _ _ _ _
    | intro _ _ _
    | intro _ _
    | with_reducible (first | apply ite_keeps | apply ite_keeps_pair)
    | dsimp only
    | split
    | with_reducible (first | apply r0 | apply r1 | apply r2))

/-- Registers `State.rxMonitors` may write. -/
def State.rxMonitors_offs (o : Nat) : Prop :=
  (∃ n, o = PRT_RX_FAULT.reg n) ∨ State.loMonitor_offs o ∨ State.rxFaultAt_offs o

theorem State.rxMonitors_keeps {P : State → Prop} (K : Keeps P 0x4c010c7f4 State.rxMonitors_offs) {s : State} (t : Turn) (rx : RxIn) (hs : P s) :
    P (State.rxMonitors s t rx).1 := by
  have k0 : Keeps P 0x4c010c7f4 State.loMonitor_offs := K.sub rfl (fun _ h => .inr (.inl h))
  have k1 : Keeps P 0x4c010c7f4 State.rxFaultAt_offs := K.sub rfl (fun _ h => .inr (.inr (h)))
  have r0 := fun n => K.reg (PRT_RX_FAULT.reg n) (.inl ⟨n, rfl⟩)
  unfold State.rxMonitors
  repeat' (first
    | with_reducible assumption
    | with_reducible (first | apply State.loMonitor_keeps k0 | apply State.rxFaultAt_keeps k1)
    | with_reducible exact r0 _
    | (apply fst_keeps (by assumption))
    | intro _ _ _ _
    | intro _ _ _
    | intro _ _
    | with_reducible (first | apply ite_keeps | apply ite_keeps_pair)
    | dsimp only
    | split
    | with_reducible (first | apply r0))

/-- Registers `State.rxShow` may write. -/
def State.rxShow_offs (o : Nat) : Prop :=
  (∃ n, o = PRT_CLIP_COUNT.reg n) ∨ (∃ n, o = PRT_PEAK_X.reg n) ∨ (∃ n, o = PRT_PEAK_Y.reg n) ∨
    (∃ n, o = PRT_RX_STATUS.reg n)

theorem State.rxShow_keeps {P : State → Prop} (K : Keeps P 0x0 State.rxShow_offs) {s : State} (t : Turn) (rx : RxIn) (hs : P s) :
    P (State.rxShow s t rx) := by
  have r0 := fun n => K.reg (PRT_CLIP_COUNT.reg n) (.inl ⟨n, rfl⟩)
  have r1 := fun n => K.reg (PRT_PEAK_X.reg n) (.inr (.inl ⟨n, rfl⟩))
  have r2 := fun n => K.reg (PRT_PEAK_Y.reg n) (.inr (.inr (.inl ⟨n, rfl⟩)))
  have r3 := fun n => K.reg (PRT_RX_STATUS.reg n) (.inr (.inr (.inr (⟨n, rfl⟩))))
  unfold State.rxShow
  repeat' (first
    | with_reducible assumption
    | with_reducible (first | apply bump_keeps | apply setFlag_keeps | apply setFld_keeps)
    | with_reducible exact r0 _
    | with_reducible exact r1 _
    | with_reducible exact r2 _
    | with_reducible exact r3 _
    | intro _ _ _ _
    | intro _ _ _
    | intro _ _
    | with_reducible (first | apply ite_keeps | apply ite_keeps_pair)
    | dsimp only
    | split
    | with_reducible (first | apply r0 | apply r1 | apply r2 | apply r3))

/-- Registers `State.setApr` may write. -/
def State.setApr_offs (o : Nat) : Prop :=
  (∃ n, o = PRT_RX_STATUS.reg n) ∨ o = SRC_APR_PORTS.reg

theorem State.setApr_keeps {P : State → Prop} (K : Keeps P 0x40000 State.setApr_offs) {s : State} (n : Nat) (b : Bool) (hs : P s) :
    P (State.setApr s n b) := by
  have k0 : Keeps P 0x40000 (fun _ => False) := K.sub rfl (fun _ h => h.elim)
  have r0 := fun n => K.reg (PRT_RX_STATUS.reg n) (.inl ⟨n, rfl⟩)
  have r1 := K.reg (SRC_APR_PORTS.reg) (.inr (rfl))
  unfold State.setApr
  repeat' (first
    | with_reducible assumption
    | with_reducible (first | apply State.setPort_keeps k0 | apply setFlag_keeps | apply setFld_keeps)
    | with_reducible exact r0 _
    | with_reducible exact r1
    | intro _ _ _ _
    | intro _ _ _
    | intro _ _
    | with_reducible (first | apply ite_keeps | apply ite_keeps_pair)
    | dsimp only
    | split
    | with_reducible (first | apply r0 | apply r1))

/-- Registers `State.zoneTest` may write. -/
def State.zoneTest_offs (o : Nat) : Prop :=
  (∃ n, o = PRT_AR_STALE_COUNT.reg n)

theorem State.zoneTest_keeps {P : State → Prop} (K : Keeps P 0x40000 State.zoneTest_offs) {s : State} {st : State} (n : Nat) (setB : Bool) (from_ : Nat) (k : Nat) (clip : Bool) (mag : Nat) (hs : P s) :
    P (State.zoneTest s st n setB from_ k clip mag) := by
  have k0 : Keeps P 0x40000 (fun _ => False) := K.sub rfl (fun _ h => h.elim)
  have r0 := fun n => K.reg (PRT_AR_STALE_COUNT.reg n) (⟨n, rfl⟩)
  unfold State.zoneTest
  repeat' (first
    | with_reducible assumption
    | with_reducible (first | apply State.setPort_keeps k0 | apply bump_keeps)
    | with_reducible exact r0 _
    | intro _ _ _ _
    | intro _ _ _
    | intro _ _
    | with_reducible (first | apply ite_keeps | apply ite_keeps_pair)
    | dsimp only
    | split
    | with_reducible (first | apply r0))

/-- Registers `State.rangeTests` may write. -/
def State.rangeTests_offs (o : Nat) : Prop :=
  State.zoneTest_offs o

theorem State.rangeTests_keeps {P : State → Prop} (K : Keeps P 0x40000 State.rangeTests_offs) {s : State} (t : Turn) (rx : RxIn) (hs : P s) :
    P (State.rangeTests s t rx) := by
  have k0 : Keeps P 0x40000 State.zoneTest_offs := K.sub rfl (fun _ h => h)
  unfold State.rangeTests
  repeat' (first
    | with_reducible assumption
    | with_reducible (first | apply State.zoneTest_keeps k0 | apply foldl_keeps | apply foldl_keeps_pair)
    | intro _ _ _ _
    | intro _ _ _
    | intro _ _
    | with_reducible (first | apply ite_keeps | apply ite_keeps_pair)
    | dsimp only
    | split)

/-- Registers `State.takeStep` may write. -/
def State.takeStep_offs (o : Nat) : Prop :=
  (∃ n, o = PRT_RANGE_COUNT.reg n) ∨ (∃ n, o = PRT_ZONE_GAIN_B.reg n) ∨ (∃ n, o = PRT_ZONE_GAIN_R.reg n)

theorem State.takeStep_keeps {P : State → Prop} (K : Keeps P 0x40000 State.takeStep_offs) {s : State} (n : Nat) (e : RangeStep) (hs : P s) :
    P (State.takeStep s n e) := by
  have k0 : Keeps P 0x40000 (fun _ => False) := K.sub rfl (fun _ h => h.elim)
  have r0 := fun n => K.reg (PRT_RANGE_COUNT.reg n) (.inl ⟨n, rfl⟩)
  have r1 := fun n => K.reg (PRT_ZONE_GAIN_B.reg n) (.inr (.inl ⟨n, rfl⟩))
  have r2 := fun n => K.reg (PRT_ZONE_GAIN_R.reg n) (.inr (.inr (⟨n, rfl⟩)))
  unfold State.takeStep
  repeat' (first
    | with_reducible assumption
    | with_reducible (first | apply State.setPort_keeps k0 | apply bump_keeps | apply setNat_keeps)
    | with_reducible exact r0 _
    | with_reducible exact r1 _
    | with_reducible exact r2 _
    | intro _ _ _ _
    | intro _ _ _
    | intro _ _
    | with_reducible (first | apply ite_keeps | apply ite_keeps_pair)
    | dsimp only
    | split
    | with_reducible (first | apply r0 | apply r1 | apply r2))

/-- Registers `State.rangeRound` may write. -/
def State.rangeRound_offs (o : Nat) : Prop :=
  State.takeStep_offs o

theorem State.rangeRound_keeps {P : State → Prop} (K : Keeps P 0x40000 State.rangeRound_offs) {s : State} (cmd : Nat) (hs : P s) :
    P (State.rangeRound s cmd) := by
  have k0 : Keeps P 0x40000 (fun _ => False) := K.sub rfl (fun _ h => h.elim)
  have k1 : Keeps P 0x40000 State.takeStep_offs := K.sub rfl (fun _ h => h)
  unfold State.rangeRound
  repeat' (first
    | with_reducible assumption
    | with_reducible (first | apply State.setPort_keeps k0 | apply State.takeStep_keeps k1 | apply foldl_keeps | apply foldl_keeps_pair)
    | intro _ _ _ _
    | intro _ _ _
    | intro _ _
    | with_reducible (first | apply ite_keeps | apply ite_keeps_pair)
    | dsimp only
    | split)

end Sys2Proof.Machine
end

