-- ==== Sys2Proof/Laws/KProducts.lean ====
section
/-!
SUPPORT. What the operations of Sys2Proof.Machine.Products keep, and the registers they may write.
-/
namespace Sys2Proof.Machine

/-- Registers `State.segments` may write. -/
def State.segments_offs (o : Nat) : Prop :=
  State.pushBlock_offs o

theorem State.segments_keeps {P : State → Prop} (K : Keeps P 0x40000010 State.segments_offs) {s : State} (r : Nat) (kind : Nat) (maxu : Nat) (n : Nat) (hdr : Nat → Nat → Nat → Nat → List Byte) (payload : Nat → Nat → List Byte) (hs : P s) :
    P (State.segments s r kind maxu n hdr payload) := by
  have k0 : Keeps P 0x40000010 State.pushBlock_offs := K.sub rfl (fun _ h => h)
  unfold State.segments
  repeat' (first
    | with_reducible assumption
    | with_reducible (first | apply State.pushBlock_keeps k0 | apply foldl_keeps | apply foldl_keeps_pair)
    | intro _ _ _ _
    | intro _ _ _
    | intro _ _
    | with_reducible (first | apply ite_keeps | apply ite_keeps_pair)
    | dsimp only
    | split)

/-- Registers `State.rawProduct` may write. -/
def State.rawProduct_offs (o : Nat) : Prop :=
  State.segments_offs o

theorem State.rawProduct_keeps {P : State → Prop} (K : Keeps P 0x40000010 State.rawProduct_offs) {s : State} (f : OutFrame) (hs : P s) :
    P (State.rawProduct s f) := by
  have k0 : Keeps P 0x40000010 State.segments_offs := K.sub rfl (fun _ h => h)
  unfold State.rawProduct
  repeat' (first
    | with_reducible assumption
    | with_reducible (first | apply State.segments_keeps k0)
    | intro _ _ _ _
    | intro _ _ _
    | intro _ _
    | with_reducible (first | apply ite_keeps | apply ite_keeps_pair)
    | dsimp only
    | split)

/-- Registers `State.filteredProduct` may write. -/
def State.filteredProduct_offs (o : Nat) : Prop :=
  State.segments_offs o

theorem State.filteredProduct_keeps {P : State → Prop} (K : Keeps P 0x40000010 State.filteredProduct_offs) {s : State} (f : OutFrame) (o : FltFrame) (hs : P s) :
    P (State.filteredProduct s f o) := by
  have k0 : Keeps P 0x40000010 State.segments_offs := K.sub rfl (fun _ h => h)
  unfold State.filteredProduct
  repeat' (first
    | with_reducible assumption
    | with_reducible (first | apply State.segments_keeps k0)
    | intro _ _ _ _
    | intro _ _ _
    | intro _ _
    | with_reducible (first | apply ite_keeps | apply ite_keeps_pair)
    | dsimp only
    | split)

/-- Registers `State.feedCore` may write. -/
def State.feedCore_offs (o : Nat) : Prop :=
  (∃ n, o = ACR_FEED_DROP_COUNT.reg n)

theorem State.feedCore_keeps {P : State → Prop} (K : Keeps P 0x100000 State.feedCore_offs) {s : State} (f : OutFrame) (k : Nat) (hs : P s) :
    P (State.feedCore s f k) := by
  have k0 : Keeps P 0x100000 (fun _ => False) := K.sub rfl (fun _ h => h.elim)
  have r0 := fun n => K.reg (ACR_FEED_DROP_COUNT.reg n) (⟨n, rfl⟩)
  unfold State.feedCore
  repeat' (first
    | with_reducible assumption
    | with_reducible (first | apply State.setCore_keeps k0 | apply bump_keeps)
    | with_reducible exact r0 _
    | intro _ _ _ _
    | intro _ _ _
    | intro _ _
    | with_reducible (first | apply ite_keeps | apply ite_keeps_pair)
    | dsimp only
    | split
    | with_reducible (first | apply r0))

/-- Registers `State.feedFrame` may write. -/
def State.feedFrame_offs (o : Nat) : Prop :=
  State.feedCore_offs o

theorem State.feedFrame_keeps {P : State → Prop} (K : Keeps P 0x100000 State.feedFrame_offs) {s : State} (f : OutFrame) (hs : P s) :
    P (State.feedFrame s f) := by
  have k0 : Keeps P 0x100000 State.feedCore_offs := K.sub rfl (fun _ h => h)
  unfold State.feedFrame
  repeat' (first
    | with_reducible assumption
    | with_reducible (first | apply State.feedCore_keeps k0 | apply foldl_keeps | apply foldl_keeps_pair)
    | intro _ _ _ _
    | intro _ _ _
    | intro _ _
    | with_reducible (first | apply ite_keeps | apply ite_keeps_pair)
    | dsimp only
    | split)

/-- Registers `State.captureAll` may write. -/
def State.captureAll_offs (o : Nat) : Prop :=
  State.captureFrame_offs o

theorem State.captureAll_keeps {P : State → Prop} (K : Keeps P 0x3008000 State.captureAll_offs) {s : State} (filt : Bool) (n : Nat) (index : Nat) (launch : Nat) (flags : Nat) (round : Nat) (vals : List (Int × Nat)) (drop : BitVec 16) (hs : P s) :
    P (State.captureAll s filt n index launch flags round vals drop) := by
  have k0 : Keeps P 0x3008000 State.captureFrame_offs := K.sub rfl (fun _ h => h)
  unfold State.captureAll
  repeat' (first
    | with_reducible assumption
    | with_reducible (first | apply State.captureFrame_keeps k0 | apply foldl_keeps | apply foldl_keeps_pair)
    | intro _ _ _ _
    | intro _ _ _
    | intro _ _
    | with_reducible (first | apply ite_keeps | apply ite_keeps_pair)
    | dsimp only
    | split)

/-- Registers `State.captureRaw` may write. -/
def State.captureRaw_offs (o : Nat) : Prop :=
  State.captureAll_offs o

theorem State.captureRaw_keeps {P : State → Prop} (K : Keeps P 0x3008000 State.captureRaw_offs) {s : State} (f : OutFrame) (m : FrameMarks) (hs : P s) :
    P (State.captureRaw s f m) := by
  have k0 : Keeps P 0x3008000 State.captureAll_offs := K.sub rfl (fun _ h => h)
  unfold State.captureRaw
  repeat' (first
    | with_reducible assumption
    | with_reducible (first | apply State.captureAll_keeps k0)
    | intro _ _ _ _
    | intro _ _ _
    | intro _ _
    | with_reducible (first | apply ite_keeps | apply ite_keeps_pair)
    | dsimp only
    | split)

/-- Registers `State.captureFiltered` may write. -/
def State.captureFiltered_offs (o : Nat) : Prop :=
  State.captureAll_offs o

theorem State.captureFiltered_keeps {P : State → Prop} (K : Keeps P 0x3008000 State.captureFiltered_offs) {s : State} (f : OutFrame) (o : FltFrame) (m : FrameMarks) (hs : P s) :
    P (State.captureFiltered s f o m) := by
  have k0 : Keeps P 0x3008000 State.captureAll_offs := K.sub rfl (fun _ h => h)
  unfold State.captureFiltered
  repeat' (first
    | with_reducible assumption
    | with_reducible (first | apply State.captureAll_keeps k0)
    | intro _ _ _ _
    | intro _ _ _
    | intro _ _
    | with_reducible (first | apply ite_keeps | apply ite_keeps_pair)
    | dsimp only
    | split)

/-- Registers `State.rateEval` may write. -/
def State.rateEval_offs (o : Nat) : Prop :=
  State.evalSource_offs o

theorem State.rateEval_keeps {P : State → Prop} (K : Keeps P 0x4c011c7f4 State.rateEval_offs) {s : State} (n : Nat) (differs : BitVec 16) (hs : P s) :
    P (State.rateEval s n differs) := by
  have k0 : Keeps P 0x4c011c7f4 State.evalSource_offs := K.sub rfl (fun _ h => h)
  have t31 : ∀ (s : State) v, P s → P (s.putFreeCtr v) := K.upd 31 rfl
  unfold State.rateEval
  repeat' (first
    | with_reducible assumption
    | with_reducible (first | apply State.evalSource_keeps k0 | apply t31)
    | intro _ _ _ _
    | intro _ _ _
    | intro _ _
    | with_reducible (first | apply ite_keeps | apply ite_keeps_pair)
    | dsimp only
    | split)

/-- Registers `State.lfSample` may write. -/
def State.lfSample_offs (o : Nat) : Prop :=
  (∃ n, o = PRT_INTEG_STATUS.reg n) ∨ State.rateEval_offs o ∨ State.segments_offs o

theorem State.lfSample_keeps {P : State → Prop} (K : Keeps P 0x4c015c7f4 State.lfSample_offs) {s : State} (f : OutFrame) (differs : BitVec 16) (hs : P s) :
    P (State.lfSample s f differs) := by
  have k0 : Keeps P 0x4c011c7f4 State.rateEval_offs := K.sub rfl (fun _ h => .inr (.inl h))
  have k1 : Keeps P 0x40000010 State.segments_offs := K.sub rfl (fun _ h => .inr (.inr (h)))
  have k2 : Keeps P 0x40000 (fun _ => False) := K.sub rfl (fun _ h => h.elim)
  have r0 := fun n => K.reg (PRT_INTEG_STATUS.reg n) (.inl ⟨n, rfl⟩)
  unfold State.lfSample
  repeat' (first
    | with_reducible assumption
    | with_reducible (first | apply State.rateEval_keeps k0 | apply State.segments_keeps k1 | apply State.setPort_keeps k2 | apply setFlag_keeps)
    | with_reducible exact r0 _
    | intro _ _ _ _
    | intro _ _ _
    | intro _ _
    | with_reducible (first | apply ite_keeps | apply ite_keeps_pair)
    | dsimp only
    | split
    | with_reducible (first | apply r0))

/-- Registers `State.lfFrame` may write. -/
def State.lfFrame_offs (o : Nat) : Prop :=
  State.lfSample_offs o

theorem State.lfFrame_keeps {P : State → Prop} (K : Keeps P 0x4c015c7f4 State.lfFrame_offs) {s : State} (f : OutFrame) (differs : BitVec 16) (hs : P s) :
    P (State.lfFrame s f differs) := by
  have k0 : Keeps P 0x4c015c7f4 State.lfSample_offs := K.sub rfl (fun _ h => h)
  have k1 : Keeps P 0x40000 (fun _ => False) := K.sub rfl (fun _ h => h.elim)
  unfold State.lfFrame
  repeat' (first
    | with_reducible assumption
    | with_reducible (first | apply State.lfSample_keeps k0 | apply State.setPort_keeps k1)
    | intro _ _ _ _
    | intro _ _ _
    | intro _ _
    | with_reducible (first | apply ite_keeps | apply ite_keeps_pair)
    | dsimp only
    | split)

/-- Registers `State.closeTiles` may write. -/
def State.closeTiles_offs (o : Nat) : Prop :=
  State.evalSource_offs o ∨ State.pushBlock_offs o

theorem State.closeTiles_keeps {P : State → Prop} (K : Keeps P 0x4c011c7f4 State.closeTiles_offs) {s : State} (f : OutFrame) (l : Nat) (out : Bool) (index : Nat) (first : Nat) (frames : List (List Int)) (quals : List Nat) (differs : BitVec 16) (hs : P s) :
    P (State.closeTiles s f l out index first frames quals differs) := by
  have k0 : Keeps P 0x4c011c7f4 State.evalSource_offs := K.sub rfl (fun _ h => .inl h)
  have k1 : Keeps P 0x40000010 State.pushBlock_offs := K.sub rfl (fun _ h => .inr (h))
  unfold State.closeTiles
  repeat' (first
    | with_reducible assumption
    | with_reducible (first | apply State.evalSource_keeps k0 | apply State.pushBlock_keeps k1)
    | intro _ _ _ _
    | intro _ _ _
    | intro _ _
    | with_reducible (first | apply ite_keeps | apply ite_keeps_pair)
    | dsimp only
    | split)

/-- Registers `State.tileFrame` may write. -/
def State.tileFrame_offs (o : Nat) : Prop :=
  State.closeTiles_offs o

theorem State.tileFrame_keeps {P : State → Prop} (K : Keeps P 0x4c015c7f4 State.tileFrame_offs) {s : State} (f : OutFrame) (differs : BitVec 16) (hs : P s) :
    P (State.tileFrame s f differs) := by
  have k0 : Keeps P 0x4c011c7f4 State.closeTiles_offs := K.sub rfl (fun _ h => h)
  have k1 : Keeps P 0x40000 (fun _ => False) := K.sub rfl (fun _ h => h.elim)
  unfold State.tileFrame
  repeat' (first
    | with_reducible assumption
    | with_reducible (first | apply State.closeTiles_keeps k0 | apply State.setPort_keeps k1)
    | intro _ _ _ _
    | intro _ _ _
    | intro _ _
    | with_reducible (first | apply ite_keeps | apply ite_keeps_pair)
    | dsimp only
    | split)

/-- Registers `State.emitLevel` may write. -/
def State.emitLevel_offs (o : Nat) : Prop :=
  State.segments_offs o

theorem State.emitLevel_keeps {P : State → Prop} (K : Keeps P 0xc0044010 State.emitLevel_offs) {s : State} (f : OutFrame) (x : LevelSt) (hs : P s) :
    P (State.emitLevel s f x) := by
  have k0 : Keeps P 0xc0004000 (fun _ => False) := K.sub rfl (fun _ h => h.elim)
  have k1 : Keeps P 0x40000010 State.segments_offs := K.sub rfl (fun _ h => h)
  have k2 : Keeps P 0x40000 (fun _ => False) := K.sub rfl (fun _ h => h.elim)
  unfold State.emitLevel
  repeat' (first
    | with_reducible assumption
    | with_reducible (first | apply State.mirrorBaseline_keeps k0 | apply State.segments_keeps k1 | apply State.setPort_keeps k2)
    | intro _ _ _ _
    | intro _ _ _
    | intro _ _
    | with_reducible (first | apply ite_keeps | apply ite_keeps_pair)
    | dsimp only
    | split)

/-- Registers `State.levelFrame` may write. -/
def State.levelFrame_offs (o : Nat) : Prop :=
  (∃ n, o = PRT_INTEG_STATUS.reg n) ∨ (∃ n, o = PRT_LEVEL_RESTART_COUNT.reg n) ∨ State.emitLevel_offs o

theorem State.levelFrame_keeps {P : State → Prop} (K : Keeps P 0xc0044010 State.levelFrame_offs) {s : State} (f : OutFrame) (hs : P s) :
    P (State.levelFrame s f) := by
  have k0 : Keeps P 0xc0044010 State.emitLevel_offs := K.sub rfl (fun _ h => .inr (.inr (h)))
  have k1 : Keeps P 0x40000 (fun _ => False) := K.sub rfl (fun _ h => h.elim)
  have r0 := fun n => K.reg (PRT_INTEG_STATUS.reg n) (.inl ⟨n, rfl⟩)
  have r1 := fun n => K.reg (PRT_LEVEL_RESTART_COUNT.reg n) (.inr (.inl ⟨n, rfl⟩))
  unfold State.levelFrame
  repeat' (first
    | with_reducible assumption
    | with_reducible (first | apply State.emitLevel_keeps k0 | apply State.setPort_keeps k1 | apply bump_keeps | apply setFlag_keeps)
    | with_reducible exact r0 _
    | with_reducible exact r1 _
    | intro _ _ _ _
    | intro _ _ _
    | intro _ _
    | with_reducible (first | apply ite_keeps | apply ite_keeps_pair)
    | dsimp only
    | split
    | with_reducible (first | apply r0 | apply r1))

/-- Registers `State.breakAt` may write. -/
def State.breakAt_offs (o : Nat) : Prop :=
  (∃ n, o = PRT_BREAK_COUNT.reg n) ∨ (∃ n, o = PRT_INTEG_STATUS.reg n) ∨ State.portFault_offs o ∨ State.setApr_offs o

theorem State.breakAt_keeps {P : State → Prop} (K : Keeps P 0x4c0044074 State.breakAt_offs) {s : State} (n : Nat) (b : Nat) (hs : P s) :
    P (State.breakAt s n b) := by
  have k0 : Keeps P 0x4c0004074 State.portFault_offs := K.sub rfl (fun _ h => .inr (.inr (.inl h)))
  have k1 : Keeps P 0x40000 State.setApr_offs := K.sub rfl (fun _ h => .inr (.inr (.inr (h))))
  have r0 := fun n => K.reg (PRT_BREAK_COUNT.reg n) (.inl ⟨n, rfl⟩)
  have r1 := fun n => K.reg (PRT_INTEG_STATUS.reg n) (.inr (.inl ⟨n, rfl⟩))
  unfold State.breakAt
  repeat' (first
    | with_reducible assumption
    | with_reducible (first | apply State.portFault_keeps k0 | apply State.setApr_keeps k1 | apply bump_keeps | apply setFlag_keeps | apply setFld_keeps)
    | with_reducible exact r0 _
    | with_reducible exact r1 _
    | intro _ _ _ _
    | intro _ _ _
    | intro _ _
    | with_reducible (first | apply ite_keeps | apply ite_keeps_pair)
    | dsimp only
    | split
    | with_reducible (first | apply r0 | apply r1))

/-- Registers `State.integFrame` may write. -/
def State.integFrame_offs (o : Nat) : Prop :=
  (∃ n, o = PRT_INTEG_STATUS.reg n) ∨ State.breakAt_offs o

theorem State.integFrame_keeps {P : State → Prop} (K : Keeps P 0x4c0044074 State.integFrame_offs) {s : State} (f : OutFrame) (hs : P s) :
    P (State.integFrame s f) := by
  have k0 : Keeps P 0x4c0044074 State.breakAt_offs := K.sub rfl (fun _ h => .inr (h))
  have k1 : Keeps P 0x40000 (fun _ => False) := K.sub rfl (fun _ h => h.elim)
  have r0 := fun n => K.reg (PRT_INTEG_STATUS.reg n) (.inl ⟨n, rfl⟩)
  unfold State.integFrame
  repeat' (first
    | with_reducible assumption
    | with_reducible (first | apply State.breakAt_keeps k0 | apply State.setPort_keeps k1 | apply setFlag_keeps)
    | with_reducible exact r0 _
    | intro _ _ _ _
    | intro _ _ _
    | intro _ _
    | with_reducible (first | apply ite_keeps | apply ite_keeps_pair)
    | dsimp only
    | split
    | with_reducible (first | apply r0))

/-- Registers `State.routeFail` may write. -/
def State.routeFail_offs (o : Nat) : Prop :=
  State.routeFault_offs o

theorem State.routeFail_keeps {P : State → Prop} (K : Keeps P 0x4c010c7f4 State.routeFail_offs) {s : State} (n : Nat) (counter : Nat) (hs : P s) (hf : ∀ s w, P s → P (s.setReg counter w)) :
    P (State.routeFail s n counter) := by
  have k0 : Keeps P 0x4c010c7f4 State.routeFault_offs := K.sub rfl (fun _ h => h)
  unfold State.routeFail
  repeat' (first
    | with_reducible assumption
    | with_reducible (first | apply State.routeFault_keeps k0 | apply bump_keeps)
    | with_reducible exact hf
    | intro _ _ _ _
    | intro _ _ _
    | intro _ _
    | with_reducible (first | apply ite_keeps | apply ite_keeps_pair)
    | dsimp only
    | split)

/-- Registers `State.routeFrame` may write. -/
def State.routeFrame_offs (o : Nat) : Prop :=
  (∃ n, o = PRT_ROUTE_FAIL_COUNT.reg n) ∨ State.routeFail_offs o

theorem State.routeFrame_keeps {P : State → Prop} (K : Keeps P 0x4c010c7f4 State.routeFrame_offs) {s : State} (f : OutFrame) (hs : P s) :
    P (State.routeFrame s f) := by
  have k0 : Keeps P 0x4c010c7f4 State.routeFail_offs := K.sub rfl (fun _ h => .inr (h))
  have r0 := fun n => K.reg (PRT_ROUTE_FAIL_COUNT.reg n) (.inl ⟨n, rfl⟩)
  unfold State.routeFrame
  repeat' (first
    | with_reducible assumption
    | with_reducible (first | apply State.routeFail_keeps k0 | apply foldl_keeps | apply foldl_keeps_pair)
    | with_reducible exact r0 _
    | intro _ _ _ _
    | intro _ _ _
    | intro _ _
    | with_reducible (first | apply ite_keeps | apply ite_keeps_pair)
    | dsimp only
    | split
    | with_reducible (first | apply r0))

/-- Registers `State.showStrain` may write. -/
def State.showStrain_offs (o : Nat) : Prop :=
  (∃ n, o = PRT_STRAIN_PER_RAD.reg n)

theorem State.showStrain_keeps {P : State → Prop} (K : Keeps P 0x0 State.showStrain_offs) {s : State} (f : OutFrame) (hs : P s) :
    P (State.showStrain s f) := by
  have r0 := fun n => K.reg (PRT_STRAIN_PER_RAD.reg n) (⟨n, rfl⟩)
  unfold State.showStrain
  repeat' (first
    | with_reducible assumption
    | with_reducible (first | apply setNat_keeps)
    | with_reducible exact r0 _
    | intro _ _ _ _
    | intro _ _ _
    | intro _ _
    | with_reducible (first | apply ite_keeps | apply ite_keeps_pair)
    | dsimp only
    | split
    | with_reducible (first | apply r0))

/-- Registers `State.realFrame` may write. -/
def State.realFrame_offs (o : Nat) : Prop :=
  State.calFrame_offs o ∨ State.integFrame_offs o ∨ State.levelFrame_offs o ∨ State.routeFrame_offs o ∨
    State.showStrain_offs o

theorem State.realFrame_keeps {P : State → Prop} (K : Keeps P 0x4c014c7f4 State.realFrame_offs) {s : State} (f : OutFrame) (hs : P s) :
    P (State.realFrame s f) := by
  have k0 : Keeps P 0x200 State.calFrame_offs := K.sub rfl (fun _ h => .inl h)
  have k1 : Keeps P 0x4c0044074 State.integFrame_offs := K.sub rfl (fun _ h => .inr (.inl h))
  have k2 : Keeps P 0xc0044010 State.levelFrame_offs := K.sub rfl (fun _ h => .inr (.inr (.inl h)))
  have k3 : Keeps P 0x4c010c7f4 State.routeFrame_offs := K.sub rfl (fun _ h => .inr (.inr (.inr (.inl h))))
  have k4 : Keeps P 0x0 State.showStrain_offs := K.sub rfl (fun _ h => .inr (.inr (.inr (.inr (h)))))
  unfold State.realFrame
  repeat' (first
    | with_reducible assumption
    | with_reducible (first | apply State.calFrame_keeps k0 | apply State.integFrame_keeps k1 | apply State.levelFrame_keeps k2 | apply State.routeFrame_keeps k3 | apply State.showStrain_keeps k4)
    | intro _ _ _ _
    | intro _ _ _
    | intro _ _
    | with_reducible (first | apply ite_keeps | apply ite_keeps_pair)
    | dsimp only
    | split)

/-- Registers `State.filterFrame` may write. -/
def State.filterFrame_offs (o : Nat) : Prop :=
  State.captureFiltered_offs o ∨ State.filteredProduct_offs o ∨ State.fltFrame_offs o

theorem State.filterFrame_keeps {P : State → Prop} (K : Keeps P 0x43048010 State.filterFrame_offs) {s : State} (f : OutFrame) (m : FrameMarks) (hs : P s) :
    P (State.filterFrame s f m) := by
  have k0 : Keeps P 0x3008000 State.captureFiltered_offs := K.sub rfl (fun _ h => .inl h)
  have k1 : Keeps P 0x40000010 State.filteredProduct_offs := K.sub rfl (fun _ h => .inr (.inl h))
  have k2 : Keeps P 0x40000 State.fltFrame_offs := K.sub rfl (fun _ h => .inr (.inr (h)))
  unfold State.filterFrame
  repeat' (first
    | with_reducible assumption
    | with_reducible (first | apply State.captureFiltered_keeps k0 | apply State.filteredProduct_keeps k1 | apply State.fltFrame_keeps k2)
    | (apply fst_keeps (by assumption))
    | intro _ _ _ _
    | intro _ _ _
    | intro _ _
    | with_reducible (first | apply ite_keeps | apply ite_keeps_pair)
    | dsimp only
    | split)

/-- Registers `State.deliver` may write. -/
def State.deliver_offs (o : Nat) : Prop :=
  (∃ n, o = PRT_FILL_COUNT.reg n) ∨ (∃ n, o = PRT_GAP_FRAME_COUNT.reg n) ∨ State.beltFrame_offs o ∨
    State.captureRaw_offs o ∨ State.feedFrame_offs o ∨ State.filterFrame_offs o ∨ State.lfFrame_offs o ∨
    State.rawProduct_offs o ∨ State.realFrame_offs o ∨ State.tileFrame_offs o

theorem State.deliver_keeps {P : State → Prop} (K : Keeps P 0x4c315c7f4 State.deliver_offs) {s : State} (f : OutFrame) (m : FrameMarks) (hs : P s) :
    P (State.deliver s f m) := by
  have k0 : Keeps P 0x3000000 State.beltFrame_offs := K.sub rfl (fun _ h => .inr (.inr (.inl h)))
  have k1 : Keeps P 0x3008000 State.captureRaw_offs := K.sub rfl (fun _ h => .inr (.inr (.inr (.inl h))))
  have k2 : Keeps P 0x100000 State.feedFrame_offs := K.sub rfl (fun _ h => .inr (.inr (.inr (.inr (.inl h)))))
  have k3 : Keeps P 0x43048010 State.filterFrame_offs := K.sub rfl (fun _ h => .inr (.inr (.inr (.inr (.inr (.inl h))))))
  have k4 : Keeps P 0x4c015c7f4 State.lfFrame_offs := K.sub rfl (fun _ h => .inr (.inr (.inr (.inr (.inr (.inr (.inl h)))))))
  have k5 : Keeps P 0x40000010 State.rawProduct_offs := K.sub rfl (fun _ h => .inr (.inr (.inr (.inr (.inr (.inr (.inr (.inl h))))))))
  have k6 : Keeps P 0x4c014c7f4 State.realFrame_offs := K.sub rfl (fun _ h => .inr (.inr (.inr (.inr (.inr (.inr (.inr (.inr (.inl h)))))))))
  have k7 : Keeps P 0x40000 (fun _ => False) := K.sub rfl (fun _ h => h.elim)
  have k8 : Keeps P 0x4c015c7f4 State.tileFrame_offs := K.sub rfl (fun _ h => .inr (.inr (.inr (.inr (.inr (.inr (.inr (.inr (.inr (h))))))))))
  have r0 := fun n => K.reg (PRT_FILL_COUNT.reg n) (.inl ⟨n, rfl⟩)
  have r1 := fun n => K.reg (PRT_GAP_FRAME_COUNT.reg n) (.inr (.inl ⟨n, rfl⟩))
  unfold State.deliver
  repeat' (first
    | with_reducible assumption
    | with_reducible (first | apply State.beltFrame_keeps k0 | apply State.captureRaw_keeps k1 | apply State.feedFrame_keeps k2 | apply State.filterFrame_keeps k3 | apply State.lfFrame_keeps k4 | apply State.rawProduct_keeps k5 | apply State.realFrame_keeps k6 | apply State.setPort_keeps k7 | apply State.tileFrame_keeps k8 | apply bump_keeps)
    | with_reducible exact r0 _
    | with_reducible exact r1 _
    | intro _ _ _ _
    | intro _ _ _
    | intro _ _
    | with_reducible (first | apply ite_keeps | apply ite_keeps_pair)
    | dsimp only
    | split
    | with_reducible (first | apply r0 | apply r1))

end Sys2Proof.Machine
end

