-- ==== Sys2Proof/Laws/KBrl.lean ====
section
/-!
SUPPORT. What the operations of Sys2Proof.Machine.Brl keep, and the registers they may write.
-/
namespace Sys2Proof.Machine

/-- Marking reference entries invalid keeps the canonical form. -/
theorem refInvalidate_wf {m : Memory} {base : Nat} (h : Memory.wf 0 m = true) : Memory.wf 0 (refInvalidate m base) = true := by
  suffices H : ∀ (l : Memory) (lo : Option Nat), SMap.wfFrom (fun _ => (0 : Byte)) lo l = true →
      SMap.wfFrom (fun _ => (0 : Byte)) lo (refInvalidate l base) = true from H m none h
  intro l
  induction l with
  | nil => intro lo _; rfl
  | cons e t ih =>
    intro lo hw
    obtain ⟨k, v⟩ := e
    simp only [SMap.wfFrom, Bool.and_eq_true] at hw
    have hstep := ih (some k) hw.2
    have hmono : SMap.wfFrom (fun _ => (0 : Byte)) lo (refInvalidate t base) = true :=
      SMap.wfFrom_mono _ hstep (fun l' hl' => ⟨k, rfl, by
        subst hl'
        have := hw.1.1
        simp only [decide_eq_true_eq] at this
        omega⟩)
    simp only [refInvalidate] at hstep hmono ⊢
    simp only [List.map, List.filter]
    split
    · rename_i hv
      split at hv
      · rename_i hc
        simp only [hc, and_self, if_true, SMap.wfFrom, Bool.and_eq_true]
        refine ⟨⟨hw.1.1, ?_⟩, hstep⟩
        simpa using hv
      · rename_i hc
        simp only [hc, if_false, SMap.wfFrom, Bool.and_eq_true]
        exact ⟨hw.1, hstep⟩
    · exact hmono

/-- Registers `State.refOpen` may write. -/
def State.refOpen_offs (o : Nat) : Prop :=
  (∃ n, o = BRL_PORT_STATUS.reg n)

theorem State.refOpen_keeps {P : State → Prop} (K : Keeps P 0x1000000 State.refOpen_offs) {s : State} (n : Nat) (hs : P s) :
    P (State.refOpen s n) := by
  have r0 := fun n => K.reg (BRL_PORT_STATUS.reg n) (⟨n, rfl⟩)
  have t24 : ∀ (s : State) v, (Memory.wf 0 s.dram = true → Memory.wf 0 v = true) → P s → P (s.putDram v) := K.upd 24 rfl
  unfold State.refOpen
  repeat' (first
    | with_reducible assumption
    | with_reducible (first | apply setFlag_keeps | apply t24)
    | with_reducible exact r0 _
    | with_reducible_and_instances (first | exact fun h => h | exact fun h => Memory.setBytes_wf _ _ h | exact fun h => SMap.put_wf _ _ h | exact fun h => Memory.clearRange_wf _ _ h | exact fun _ => rfl | exact fun h => Memory.setByte_wf _ _ h | exact fun h => Memory.setBytes_wf _ _ (Memory.setBytes_wf _ _ h) | exact fun h => Memory.clearRange_wf _ _ (Memory.clearRange_wf _ _ h) | exact fun h => SMap.filter_wf _ h | exact fun h => refInvalidate_wf h)
    | exact fun h => SMap.put_wf _ _ h
    | exact fun _ => SMap.nil_wf
    | intro _ _ _ _
    | intro _ _ _
    | intro _ _
    | with_reducible (first | apply ite_keeps | apply ite_keeps_pair)
    | dsimp only
    | split
    | with_reducible (first | apply r0))

/-- Registers `State.refWrite` may write. -/
def State.refWrite_offs (o : Nat) : Prop :=
  State.refOpen_offs o

theorem State.refWrite_keeps {P : State → Prop} (K : Keeps P 0x3000000 State.refWrite_offs) {s : State} (n : Nat) (a0 : Nat) (a1 : List Word) (hs : P s) :
    P (State.refWrite s n a0 a1) := by
  have k0 : Keeps P 0x1000000 State.refOpen_offs := K.sub rfl (fun _ h => h)
  have k1 : Keeps P 0x3000000 (fun _ => False) := K.sub rfl (fun _ h => h.elim)
  induction a1 generalizing s n a0 with
  | nil =>
    unfold State.refWrite
    repeat' (first
      | with_reducible assumption
      | with_reducible (first | apply State.refOpen_keeps k0 | apply State.setDram_keeps k1)
      | intro _ _ _ _
      | intro _ _ _
      | intro _ _
      | with_reducible (first | apply ite_keeps | apply ite_keeps_pair)
      | dsimp only
      | split)
  | cons _ _ ih =>
    unfold State.refWrite
    repeat' (first
      | with_reducible assumption
      | with_reducible apply ih
      | with_reducible (first | apply State.refOpen_keeps k0 | apply State.setDram_keeps k1)
      | intro _ _ _ _
      | intro _ _ _
      | intro _ _
      | with_reducible (first | apply ite_keeps | apply ite_keeps_pair)
      | dsimp only
      | split)

/-- Registers `State.refData` may write. -/
def State.refData_offs (o : Nat) : Prop :=
  o = BRL_REF_ADDR.reg ∨ o = HIF_RWL_ADDR.reg ∨ o = HIF_RWL_IGNORED_COUNT.reg ∨ State.refWrite_offs o

theorem State.refData_keeps {P : State → Prop} (K : Keeps P 0x93000000 State.refData_offs) {s : State} (write : Option Word) (hs : P s) :
    P (State.refData s write) := by
  have k0 : Keeps P 0x80000000 (fun _ => False) := K.sub rfl (fun _ h => h.elim)
  have k1 : Keeps P 0x3000000 State.refWrite_offs := K.sub rfl (fun _ h => .inr (.inr (.inr (h))))
  have r0 := K.reg (BRL_REF_ADDR.reg) (.inl rfl)
  have r1 := K.reg (HIF_RWL_ADDR.reg) (.inr (.inl rfl))
  have r2 := K.reg (HIF_RWL_IGNORED_COUNT.reg) (.inr (.inr (.inl rfl)))
  have t28 : ∀ (s : State) v, P s → P (s.putRdData v) := K.upd 28 rfl
  unfold State.refData
  repeat' (first
    | with_reducible assumption
    | with_reducible (first | apply State.drawFree_keeps k0 | apply State.refWrite_keeps k1 | apply bump_keeps | apply setFld_keeps | apply setNat_keeps | apply t28)
    | with_reducible exact r0
    | with_reducible exact r1
    | with_reducible exact r2
    | intro _ _ _ _
    | intro _ _ _
    | intro _ _
    | with_reducible (first | apply ite_keeps | apply ite_keeps_pair)
    | dsimp only
    | split
    | with_reducible (first | apply r0 | apply r1 | apply r2))

/-- Registers `execBrlRefDataAccess` may write. -/
def execBrlRefDataAccess_offs (o : Nat) : Prop :=
  State.refData_offs o

theorem execBrlRefDataAccess_keeps {P : State → Prop} (K : Keeps P 0x93000000 execBrlRefDataAccess_offs) {s : State} (write : Option Word) (hs : P s) :
    ∃ t, (execBrlRefDataAccess write s) = .next t ∧ P t := by
  have k0 : Keeps P 0x93000000 State.refData_offs := K.sub rfl (fun _ h => h)
  refine ⟨_, rfl, ?_⟩
  repeat' (first
    | with_reducible assumption
    | with_reducible (first | apply State.refData_keeps k0)
    | intro _ _ _ _
    | intro _ _ _
    | intro _ _
    | with_reducible (first | apply ite_keeps | apply ite_keeps_pair)
    | dsimp only
    | split)

theorem State.foldCell_keeps {P : State → Prop} (K : Keeps P 0x3002000 (fun _ => False)) {s : State} (n : Nat) (c : Nat) (hs : P s) :
    P (State.foldCell s n c) := by
  have k0 : Keeps P 0x2000 (fun _ => False) := K.sub rfl (fun _ h => h.elim)
  have k1 : Keeps P 0x3000000 (fun _ => False) := K.sub rfl (fun _ h => h.elim)
  unfold State.foldCell
  repeat' (first
    | with_reducible assumption
    | with_reducible (first | apply State.setBrlPort_keeps k0 | apply State.setDram_keeps k1)
    | intro _ _ _ _
    | intro _ _ _
    | intro _ _
    | with_reducible (first | apply ite_keeps | apply ite_keeps_pair)
    | dsimp only
    | split)

theorem State.brlFold_keeps {P : State → Prop} (K : Keeps P 0x3002000 (fun _ => False)) {s : State} (n : Nat) (hs : P s) :
    P (State.brlFold s n) := by
  have k0 : Keeps P 0x3002000 (fun _ => False) := K.sub rfl (fun _ h => h.elim)
  have k1 : Keeps P 0x2000 (fun _ => False) := K.sub rfl (fun _ h => h.elim)
  unfold State.brlFold
  repeat' (first
    | with_reducible assumption
    | with_reducible (first | apply State.foldCell_keeps k0 | apply State.setBrlPort_keeps k1 | apply foldl_keeps | apply foldl_keeps_pair)
    | intro _ _ _ _
    | intro _ _ _
    | intro _ _
    | with_reducible (first | apply ite_keeps | apply ite_keeps_pair)
    | dsimp only
    | split)

theorem State.addCellPoints_keeps {P : State → Prop} (K : Keeps P 0x3000000 (fun _ => False)) {s : State} (n : Nat) (c : Nat) (vs : List Nat) (hs : P s) :
    P (State.addCellPoints s n c vs) := by
  have k0 : Keeps P 0x3000000 (fun _ => False) := K.sub rfl (fun _ h => h.elim)
  unfold State.addCellPoints
  repeat' (first
    | with_reducible assumption
    | with_reducible (first | apply State.setDram_keeps k0)
    | intro _ _ _ _
    | intro _ _ _
    | intro _ _
    | with_reducible (first | apply ite_keeps | apply ite_keeps_pair)
    | dsimp only
    | split)

/-- Registers `State.addPoints` may write. -/
def State.addPoints_offs (o : Nat) : Prop :=
  o = BRL_POINT_SAT_COUNT.reg

theorem State.addPoints_keeps {P : State → Prop} (K : Keeps P 0x3002000 State.addPoints_offs) {s : State} (t : Turn) (rx : RxIn) (accB : Bool) (pts : List (Nat × List Nat)) (hs : P s) :
    P (State.addPoints s t rx accB pts) := by
  have k0 : Keeps P 0x3000000 (fun _ => False) := K.sub rfl (fun _ h => h.elim)
  have k1 : Keeps P 0x2000 (fun _ => False) := K.sub rfl (fun _ h => h.elim)
  have r0 := K.reg (BRL_POINT_SAT_COUNT.reg) (rfl)
  unfold State.addPoints
  repeat' (first
    | with_reducible assumption
    | with_reducible (first | apply State.addCellPoints_keeps k0 | apply State.setBrlPort_keeps k1 | apply addReg_keeps | apply foldl_keeps | apply foldl_keeps_pair)
    | with_reducible exact r0
    | intro _ _ _ _
    | intro _ _ _
    | intro _ _
    | with_reducible (first | apply ite_keeps | apply ite_keeps_pair)
    | dsimp only
    | split
    | with_reducible (first | apply r0))

/-- Registers `State.brlRoute` may write. -/
def State.brlRoute_offs (o : Nat) : Prop :=
  (∃ n, o = BRL_PORT_ROUTE_FAIL_COUNT.reg n) ∨ State.routeFail_offs o

theorem State.brlRoute_keeps {P : State → Prop} (K : Keeps P 0x4c010c7f4 State.brlRoute_offs) {s : State} (t : Turn) (pts : List (Nat × List Nat)) (hs : P s) :
    P (State.brlRoute s t pts) := by
  have k0 : Keeps P 0x4c010c7f4 State.routeFail_offs := K.sub rfl (fun _ h => .inr (h))
  have r0 := fun n => K.reg (BRL_PORT_ROUTE_FAIL_COUNT.reg n) (.inl ⟨n, rfl⟩)
  unfold State.brlRoute
  repeat' (first
    | with_reducible assumption
    | with_reducible (first | apply State.routeFail_keeps k0 | apply foldl_keeps | apply foldl_keeps_pair)
    | with_reducible exact r0 _
    | intro _ _ _ _
    | intro _ _ _
    | intro _ _
    | with_reducible (first | apply ite_keeps | apply ite_keeps_pair)
    | dsimp only
    | split
    | with_reducible (first | apply r0))

/-- Registers `State.accumulate` may write. -/
def State.accumulate_offs (o : Nat) : Prop :=
  (∃ n, o = BRL_PORT_STATUS.reg n) ∨ State.addPoints_offs o ∨ State.brlRoute_offs o

theorem State.accumulate_keeps {P : State → Prop} (K : Keeps P 0x4c310e7f4 State.accumulate_offs) {s : State} (t : Turn) (rx : RxIn) (p : BrlPeriod) (hs : P s) :
    P (State.accumulate s t rx p) := by
  have k0 : Keeps P 0x3002000 State.addPoints_offs := K.sub rfl (fun _ h => .inr (.inl h))
  have k1 : Keeps P 0x3002000 (fun _ => False) := K.sub rfl (fun _ h => h.elim)
  have k2 : Keeps P 0x4c010c7f4 State.brlRoute_offs := K.sub rfl (fun _ h => .inr (.inr (h)))
  have k3 : Keeps P 0x2000 (fun _ => False) := K.sub rfl (fun _ h => h.elim)
  have r0 := fun n => K.reg (BRL_PORT_STATUS.reg n) (.inl ⟨n, rfl⟩)
  have t31 : ∀ (s : State) v, P s → P (s.putFreeCtr v) := K.upd 31 rfl
  unfold State.accumulate
  repeat' (first
    | with_reducible assumption
    | with_reducible (first | apply State.addPoints_keeps k0 | apply State.brlFold_keeps k1 | apply State.brlRoute_keeps k2 | apply State.setBrlPort_keeps k3 | apply setFld_keeps | apply t31)
    | with_reducible exact r0 _
    | intro _ _ _ _
    | intro _ _ _
    | intro _ _
    | with_reducible (first | apply ite_keeps | apply ite_keeps_pair)
    | dsimp only
    | split
    | with_reducible (first | apply r0))

/-- Registers `State.brlTurn` may write. -/
def State.brlTurn_offs (o : Nat) : Prop :=
  o = BRL_DROP_APR_COUNT.reg ∨ o = BRL_DROP_FAILED_COUNT.reg ∨ o = BRL_DROP_GEOM_COUNT.reg ∨
    o = BRL_DROP_LOSHIFT_COUNT.reg ∨ o = BRL_DROP_OVERRUN_COUNT.reg ∨ (∃ n, o = DMC_CLIENT_OVERRUN_COUNT.reg n) ∨
    State.accumulate_offs o

theorem State.brlTurn_keeps {P : State → Prop} (K : Keeps P 0x4c310e7f4 State.brlTurn_offs) {s : State} (t : Turn) (rx : RxIn) (full : Bool) (hs : P s) :
    P (State.brlTurn s t rx full) := by
  have k0 : Keeps P 0x4c310e7f4 State.accumulate_offs := K.sub rfl (fun _ h => .inr (.inr (.inr (.inr (.inr (.inr (h)))))))
  have k1 : Keeps P 0x2000 (fun _ => False) := K.sub rfl (fun _ h => h.elim)
  have r0 := K.reg (BRL_DROP_APR_COUNT.reg) (.inl rfl)
  have r1 := K.reg (BRL_DROP_FAILED_COUNT.reg) (.inr (.inl rfl))
  have r2 := K.reg (BRL_DROP_GEOM_COUNT.reg) (.inr (.inr (.inl rfl)))
  have r3 := K.reg (BRL_DROP_LOSHIFT_COUNT.reg) (.inr (.inr (.inr (.inl rfl))))
  have r4 := K.reg (BRL_DROP_OVERRUN_COUNT.reg) (.inr (.inr (.inr (.inr (.inl rfl)))))
  have r5 := fun n => K.reg (DMC_CLIENT_OVERRUN_COUNT.reg n) (.inr (.inr (.inr (.inr (.inr (.inl ⟨n, rfl⟩))))))
  unfold State.brlTurn
  repeat' (first
    | with_reducible assumption
    | with_reducible (first | apply State.accumulate_keeps k0 | apply State.brlDrop_keeps k1 | apply bump_keeps)
    | with_reducible exact r0
    | with_reducible exact r1
    | with_reducible exact r2
    | with_reducible exact r3
    | with_reducible exact r4
    | with_reducible exact r5 _
    | intro _ _ _ _
    | intro _ _ _
    | intro _ _
    | with_reducible (first | apply ite_keeps | apply ite_keeps_pair)
    | dsimp only
    | split
    | with_reducible (first | apply r0 | apply r1 | apply r2 | apply r3 | apply r4 | apply r5))

theorem State.markSub_keeps {P : State → Prop} (K : Keeps P 0x100 (fun _ => False)) {s : State} (t : Turn) (fault : Bool) (hs : P s) :
    P (State.markSub s t fault) := by
  have t8 : ∀ (s : State) v, P s → P (s.putSched v) := K.upd 8 rfl
  unfold State.markSub
  repeat' (first
    | with_reducible assumption
    | with_reducible (first | apply t8)
    | intro _ _ _ _
    | intro _ _ _
    | intro _ _
    | with_reducible (first | apply ite_keeps | apply ite_keeps_pair)
    | dsimp only
    | split)

/-- Registers `execBrlTurnComplete` may write. -/
def execBrlTurnComplete_offs (o : Nat) : Prop :=
  State.brlTurn_offs o ∨ State.rangeTests_offs o ∨ State.rxMonitors_offs o ∨ State.rxShow_offs o

theorem execBrlTurnComplete_keeps {P : State → Prop} (K : Keeps P 0x4c314e7f4 execBrlTurnComplete_offs) {s : State} (n : Fin 12) (rx : RxIn) (full : Bool) (hs : P s) :
    ∃ t, (execBrlTurnComplete n rx full s) = .next t ∧ P t := by
  have k0 : Keeps P 0x4c310e7f4 State.brlTurn_offs := K.sub rfl (fun _ h => .inl h)
  have k1 : Keeps P 0x100 (fun _ => False) := K.sub rfl (fun _ h => h.elim)
  have k2 : Keeps P 0x40000 State.rangeTests_offs := K.sub rfl (fun _ h => .inr (.inl h))
  have k3 : Keeps P 0x4c010c7f4 State.rxMonitors_offs := K.sub rfl (fun _ h => .inr (.inr (.inl h)))
  have k4 : Keeps P 0x0 State.rxShow_offs := K.sub rfl (fun _ h => .inr (.inr (.inr (h))))
  have t8 : ∀ (s : State) v, P s → P (s.putSched v) := K.upd 8 rfl
  refine ⟨_, rfl, ?_⟩
  repeat' (first
    | with_reducible assumption
    | with_reducible (first | apply State.brlTurn_keeps k0 | apply State.markSub_keeps k1 | apply State.rangeTests_keeps k2 | apply State.rxMonitors_keeps k3 | apply State.rxShow_keeps k4 | apply t8)
    | (apply fst_keeps (by assumption))
    | intro _ _ _ _
    | intro _ _ _
    | intro _ _
    | with_reducible (first | apply ite_keeps | apply ite_keeps_pair)
    | dsimp only
    | split)

/-- Registers `State.brlShow` may write. -/
def State.brlShow_offs (o : Nat) : Prop :=
  o = BRL_STATUS.reg

theorem State.brlShow_keeps {P : State → Prop} (K : Keeps P 0x0 State.brlShow_offs) {s : State} (hs : P s) :
    P (State.brlShow s) := by
  have r0 := K.reg (BRL_STATUS.reg) (rfl)
  unfold State.brlShow
  repeat' (first
    | with_reducible assumption
    | with_reducible (first | apply setFlag_keeps)
    | with_reducible exact r0
    | intro _ _ _ _
    | intro _ _ _
    | intro _ _
    | with_reducible (first | apply ite_keeps | apply ite_keeps_pair)
    | dsimp only
    | split
    | with_reducible (first | apply r0))

/-- Registers `State.openPeriod` may write. -/
def State.openPeriod_offs (o : Nat) : Prop :=
  (∃ n, o = BRL_PORT_STATUS.reg n)

theorem State.openPeriod_keeps {P : State → Prop} (K : Keeps P 0x2000 State.openPeriod_offs) {s : State} (n : Nat) (hs : P s) :
    P (State.openPeriod s n) := by
  have k0 : Keeps P 0x2000 (fun _ => False) := K.sub rfl (fun _ h => h.elim)
  have r0 := fun n => K.reg (BRL_PORT_STATUS.reg n) (⟨n, rfl⟩)
  unfold State.openPeriod
  repeat' (first
    | with_reducible assumption
    | with_reducible (first | apply State.setBrlPort_keeps k0 | apply setFld_keeps)
    | with_reducible exact r0 _
    | intro _ _ _ _
    | intro _ _ _
    | intro _ _
    | with_reducible (first | apply ite_keeps | apply ite_keeps_pair)
    | dsimp only
    | split
    | with_reducible (first | apply r0))

/-- Registers `State.closePeriod` may write. -/
def State.closePeriod_offs (o : Nat) : Prop :=
  State.openPeriod_offs o

theorem State.closePeriod_keeps {P : State → Prop} (K : Keeps P 0x2000 State.closePeriod_offs) {s : State} (n : Nat) (p : BrlPeriod) (hs : P s) :
    P (State.closePeriod s n p) := by
  have k0 : Keeps P 0x2000 State.openPeriod_offs := K.sub rfl (fun _ h => h)
  have k1 : Keeps P 0x2000 (fun _ => False) := K.sub rfl (fun _ h => h.elim)
  unfold State.closePeriod
  repeat' (first
    | with_reducible assumption
    | with_reducible (first | apply State.openPeriod_keeps k0 | apply State.setBrlPort_keeps k1 | apply foldl_keeps | apply foldl_keeps_pair)
    | intro _ _ _ _
    | intro _ _ _
    | intro _ _
    | with_reducible (first | apply ite_keeps | apply ite_keeps_pair)
    | dsimp only
    | split)

/-- Registers `State.brlRound` may write. -/
def State.brlRound_offs (o : Nat) : Prop :=
  State.brlShow_offs o ∨ State.closePeriod_offs o ∨ State.openPeriod_offs o

theorem State.brlRound_keeps {P : State → Prop} (K : Keeps P 0x2000 State.brlRound_offs) {s : State} (hs : P s) :
    P (State.brlRound s) := by
  have k0 : Keeps P 0x0 State.brlShow_offs := K.sub rfl (fun _ h => .inl h)
  have k1 : Keeps P 0x2000 State.closePeriod_offs := K.sub rfl (fun _ h => .inr (.inl h))
  have k2 : Keeps P 0x2000 State.openPeriod_offs := K.sub rfl (fun _ h => .inr (.inr (h)))
  unfold State.brlRound
  repeat' (first
    | with_reducible assumption
    | with_reducible (first | apply State.brlShow_keeps k0 | apply State.closePeriod_keeps k1 | apply State.openPeriod_keeps k2 | apply foldl_keeps | apply foldl_keeps_pair)
    | intro _ _ _ _
    | intro _ _ _
    | intro _ _
    | with_reducible (first | apply ite_keeps | apply ite_keeps_pair)
    | dsimp only
    | split)

/-- Registers `State.brlRestart` may write. -/
def State.brlRestart_offs (o : Nat) : Prop :=
  (∃ n, o = BRL_PORT_RESTART_COUNT.reg n) ∨ (∃ n, o = BRL_PORT_STATUS.reg n)

theorem State.brlRestart_keeps {P : State → Prop} (K : Keeps P 0x3002000 State.brlRestart_offs) {s : State} (n : Nat) (hs : P s) :
    P (State.brlRestart s n) := by
  have k0 : Keeps P 0x2000 (fun _ => False) := K.sub rfl (fun _ h => h.elim)
  have k1 : Keeps P 0x3000000 (fun _ => False) := K.sub rfl (fun _ h => h.elim)
  have r0 := fun n => K.reg (BRL_PORT_RESTART_COUNT.reg n) (.inl ⟨n, rfl⟩)
  have r1 := fun n => K.reg (BRL_PORT_STATUS.reg n) (.inr (⟨n, rfl⟩))
  unfold State.brlRestart
  repeat' (first
    | with_reducible assumption
    | with_reducible (first | apply State.setBrlPort_keeps k0 | apply State.zeroDram_keeps k1 | apply bump_keeps | apply setFld_keeps)
    | with_reducible exact r0 _
    | with_reducible exact r1 _
    | intro _ _ _ _
    | intro _ _ _
    | intro _ _
    | with_reducible (first | apply ite_keeps | apply ite_keeps_pair)
    | dsimp only
    | split
    | with_reducible (first | apply r0 | apply r1))

/-- Registers `State.brlRestartAll` may write. -/
def State.brlRestartAll_offs (o : Nat) : Prop :=
  State.brlRestart_offs o

theorem State.brlRestartAll_keeps {P : State → Prop} (K : Keeps P 0x3002000 State.brlRestartAll_offs) {s : State} (hs : P s) :
    P (State.brlRestartAll s) := by
  have k0 : Keeps P 0x3002000 State.brlRestart_offs := K.sub rfl (fun _ h => h)
  unfold State.brlRestartAll
  repeat' (first
    | with_reducible assumption
    | with_reducible (first | apply State.brlRestart_keeps k0 | apply foldl_keeps | apply foldl_keeps_pair)
    | intro _ _ _ _
    | intro _ _ _
    | intro _ _
    | with_reducible (first | apply ite_keeps | apply ite_keeps_pair)
    | dsimp only
    | split)

/-- Registers `State.brlExtend` may write. -/
def State.brlExtend_offs (o : Nat) : Prop :=
  (∃ n, o = BRL_PORT_RESTART_COUNT.reg n) ∨ (∃ n, o = BRL_PORT_STATUS.reg n)

theorem State.brlExtend_keeps {P : State → Prop} (K : Keeps P 0x2000 State.brlExtend_offs) {s : State} (n : Nat) (hs : P s) :
    P (State.brlExtend s n) := by
  have k0 : Keeps P 0x2000 (fun _ => False) := K.sub rfl (fun _ h => h.elim)
  have r0 := fun n => K.reg (BRL_PORT_RESTART_COUNT.reg n) (.inl ⟨n, rfl⟩)
  have r1 := fun n => K.reg (BRL_PORT_STATUS.reg n) (.inr (⟨n, rfl⟩))
  unfold State.brlExtend
  repeat' (first
    | with_reducible assumption
    | with_reducible (first | apply State.setBrlPort_keeps k0 | apply bump_keeps | apply setFlag_keeps)
    | with_reducible exact r0 _
    | with_reducible exact r1 _
    | intro _ _ _ _
    | intro _ _ _
    | intro _ _
    | with_reducible (first | apply ite_keeps | apply ite_keeps_pair)
    | dsimp only
    | split
    | with_reducible (first | apply r0 | apply r1))

/-- Registers `State.brlReturn` may write. -/
def State.brlReturn_offs (o : Nat) : Prop :=
  (∃ n, o = BRL_PORT_STATUS.reg n) ∨ State.brlRestart_offs o

theorem State.brlReturn_keeps {P : State → Prop} (K : Keeps P 0x3002000 State.brlReturn_offs) {s : State} (n : Nat) (hs : P s) :
    P (State.brlReturn s n) := by
  have k0 : Keeps P 0x3002000 State.brlRestart_offs := K.sub rfl (fun _ h => .inr (h))
  have r0 := fun n => K.reg (BRL_PORT_STATUS.reg n) (.inl ⟨n, rfl⟩)
  unfold State.brlReturn
  repeat' (first
    | with_reducible assumption
    | with_reducible (first | apply State.brlRestart_keeps k0 | apply setFlag_keeps)
    | with_reducible exact r0 _
    | intro _ _ _ _
    | intro _ _ _
    | intro _ _
    | with_reducible (first | apply ite_keeps | apply ite_keeps_pair)
    | dsimp only
    | split
    | with_reducible (first | apply r0))

/-- Registers `State.brlStart` may write. -/
def State.brlStart_offs (o : Nat) : Prop :=
  (∃ n, o = BRL_PORT_RESTART_COUNT.reg n) ∨ (∃ n, o = BRL_PORT_STATUS.reg n) ∨ State.brlShow_offs o

theorem State.brlStart_keeps {P : State → Prop} (K : Keeps P 0x3002000 State.brlStart_offs) {s : State} (hs : P s) :
    P (State.brlStart s) := by
  have k0 : Keeps P 0x0 State.brlShow_offs := K.sub rfl (fun _ h => .inr (.inr (h)))
  have k1 : Keeps P 0x3000000 (fun _ => False) := K.sub rfl (fun _ h => h.elim)
  have r0 := fun n => K.reg (BRL_PORT_RESTART_COUNT.reg n) (.inl ⟨n, rfl⟩)
  have r1 := fun n => K.reg (BRL_PORT_STATUS.reg n) (.inr (.inl ⟨n, rfl⟩))
  have t13 : ∀ (s : State) v, P s → P (s.putBrl v) := K.upd 13 rfl
  unfold State.brlStart
  repeat' (first
    | with_reducible assumption
    | with_reducible (first | apply State.brlShow_keeps k0 | apply State.zeroDram_keeps k1 | apply bump_keeps | apply setFld_keeps | apply foldl_keeps | apply foldl_keeps_pair | apply t13)
    | with_reducible exact r0 _
    | with_reducible exact r1 _
    | intro _ _ _ _
    | intro _ _ _
    | intro _ _
    | with_reducible (first | apply ite_keeps | apply ite_keeps_pair)
    | dsimp only
    | split
    | with_reducible (first | apply r0 | apply r1))

/-- Registers `State.brlStop` may write. -/
def State.brlStop_offs (o : Nat) : Prop :=
  State.brlShow_offs o

theorem State.brlStop_keeps {P : State → Prop} (K : Keeps P 0x2000 State.brlStop_offs) {s : State} (hs : P s) :
    P (State.brlStop s) := by
  have k0 : Keeps P 0x0 State.brlShow_offs := K.sub rfl (fun _ h => h)
  have t13 : ∀ (s : State) v, P s → P (s.putBrl v) := K.upd 13 rfl
  unfold State.brlStop
  repeat' (first
    | with_reducible assumption
    | with_reducible (first | apply State.brlShow_keeps k0 | apply t13)
    | intro _ _ _ _
    | intro _ _ _
    | intro _ _
    | with_reducible (first | apply ite_keeps | apply ite_keeps_pair)
    | dsimp only
    | split)

/-- Registers `State.refLearn` may write. -/
def State.refLearn_offs (o : Nat) : Prop :=
  State.brlRestart_offs o ∨ State.brlShow_offs o

theorem State.refLearn_keeps {P : State → Prop} (K : Keeps P 0x3002000 State.refLearn_offs) {s : State} (n : Nat) (first : Nat) (count : Nat) (hs : P s) :
    P (State.refLearn s n first count) := by
  have k0 : Keeps P 0x3002000 State.brlRestart_offs := K.sub rfl (fun _ h => .inl h)
  have k1 : Keeps P 0x0 State.brlShow_offs := K.sub rfl (fun _ h => .inr (h))
  have k2 : Keeps P 0x2000 (fun _ => False) := K.sub rfl (fun _ h => h.elim)
  unfold State.refLearn
  repeat' (first
    | with_reducible assumption
    | with_reducible (first | apply State.brlRestart_keeps k0 | apply State.brlShow_keeps k1 | apply State.setBrlPort_keeps k2)
    | intro _ _ _ _
    | intro _ _ _
    | intro _ _
    | with_reducible (first | apply ite_keeps | apply ite_keeps_pair)
    | dsimp only
    | split)

/-- Registers `State.learnClose` may write. -/
def State.learnClose_offs (o : Nat) : Prop :=
  o = BRL_LEARN_RESULT.reg ∨ State.refWrite_offs o

theorem State.learnClose_keeps {P : State → Prop} (K : Keeps P 0xc3004000 State.learnClose_offs) {s : State} (n : Nat) (first : Nat) (count : Nat) (cells : List CellOut) (refs : List Word) (hs : P s) :
    P (State.learnClose s n first count cells refs).1 := by
  have k0 : Keeps P 0xc0004000 (fun _ => False) := K.sub rfl (fun _ h => h.elim)
  have k1 : Keeps P 0x3000000 State.refWrite_offs := K.sub rfl (fun _ h => .inr (h))
  have r0 := K.reg (BRL_LEARN_RESULT.reg) (.inl rfl)
  unfold State.learnClose
  repeat' (first
    | with_reducible assumption
    | with_reducible (first | apply State.mirrorRefs_keeps k0 | apply State.refWrite_keeps k1 | apply setFld_keeps | apply foldl_keeps | apply foldl_keeps_pair)
    | with_reducible exact r0
    | intro _ _ _ _
    | intro _ _ _
    | intro _ _
    | with_reducible (first | apply ite_keeps | apply ite_keeps_pair)
    | dsimp only
    | split
    | with_reducible (first | apply r0))

/-- Registers `State.finishPeriod` may write. -/
def State.finishPeriod_offs (o : Nat) : Prop :=
  (∃ n, o = BRL_PORT_LAST_TURNS.reg n) ∨ (∃ n, o = BRL_PORT_PERIOD_COUNT.reg n) ∨ o = BRL_STATUS.reg ∨
    State.brlShow_offs o ∨ State.evalSource_offs o ∨ State.learnClose_offs o ∨ State.raiseEvent_offs o ∨
    State.segments_offs o

theorem State.finishPeriod_keeps {P : State → Prop} (K : Keeps P 0x4c311e7f4 State.finishPeriod_offs) {s : State} (n : Nat) (c : BrlClose) (differs : BitVec 16) (hs : P s) :
    P (State.finishPeriod s n c differs) := by
  have k0 : Keeps P 0x0 State.brlShow_offs := K.sub rfl (fun _ h => .inr (.inr (.inr (.inl h))))
  have k1 : Keeps P 0x4c011c7f4 State.evalSource_offs := K.sub rfl (fun _ h => .inr (.inr (.inr (.inr (.inl h)))))
  have k2 : Keeps P 0xc3004000 State.learnClose_offs := K.sub rfl (fun _ h => .inr (.inr (.inr (.inr (.inr (.inl h))))))
  have k3 : Keeps P 0x440000010 State.raiseEvent_offs := K.sub rfl (fun _ h => .inr (.inr (.inr (.inr (.inr (.inr (.inl h)))))))
  have k4 : Keeps P 0x40000010 State.segments_offs := K.sub rfl (fun _ h => .inr (.inr (.inr (.inr (.inr (.inr (.inr (h))))))))
  have k5 : Keeps P 0x2000 (fun _ => False) := K.sub rfl (fun _ h => h.elim)
  have k6 : Keeps P 0x3000000 (fun _ => False) := K.sub rfl (fun _ h => h.elim)
  have r0 := fun n => K.reg (BRL_PORT_LAST_TURNS.reg n) (.inl ⟨n, rfl⟩)
  have r1 := fun n => K.reg (BRL_PORT_PERIOD_COUNT.reg n) (.inr (.inl ⟨n, rfl⟩))
  have r2 := K.reg (BRL_STATUS.reg) (.inr (.inr (.inl rfl)))
  have t31 : ∀ (s : State) v, P s → P (s.putFreeCtr v) := K.upd 31 rfl
  unfold State.finishPeriod
  repeat' (first
    | with_reducible assumption
    | with_reducible (first | apply State.brlShow_keeps k0 | apply State.evalSource_keeps k1 | apply State.learnClose_keeps k2 | apply State.raiseEvent_keeps k3 | apply State.segments_keeps k4 | apply State.setBrlPort_keeps k5 | apply State.zeroDram_keeps k6 | apply bump_keeps | apply setFld_keeps | apply setNat_keeps | apply foldl_keeps | apply foldl_keeps_pair | apply t31)
    | with_reducible exact r0 _
    | with_reducible exact r1 _
    | with_reducible exact r2
    | (apply fst_keeps (by assumption))
    | intro _ _ _ _
    | intro _ _ _
    | intro _ _
    | with_reducible (first | apply ite_keeps | apply ite_keeps_pair)
    | dsimp only
    | split
    | with_reducible (first | apply r0 | apply r1 | apply r2))

/-- Registers `execBrlFitComplete` may write. -/
def execBrlFitComplete_offs (o : Nat) : Prop :=
  State.finishPeriod_offs o

theorem execBrlFitComplete_keeps {P : State → Prop} (K : Keeps P 0x4c311e7f4 execBrlFitComplete_offs) {s : State} (n : Fin 12) (differs : BitVec 16) (hs : P s) :
    ∃ t, (execBrlFitComplete n differs s) = .next t ∧ P t := by
  have k0 : Keeps P 0x3002000 (fun _ => False) := K.sub rfl (fun _ h => h.elim)
  have k1 : Keeps P 0x4c311e7f4 State.finishPeriod_offs := K.sub rfl (fun _ h => h)
  have k2 : Keeps P 0x2000 (fun _ => False) := K.sub rfl (fun _ h => h.elim)
  refine ⟨_, rfl, ?_⟩
  repeat' (first
    | with_reducible assumption
    | with_reducible (first | apply State.brlFold_keeps k0 | apply State.finishPeriod_keeps k1 | apply State.setBrlPort_keeps k2)
    | intro _ _ _ _
    | intro _ _ _
    | intro _ _
    | with_reducible (first | apply ite_keeps | apply ite_keeps_pair)
    | dsimp only
    | split)

/-- Registers `State.showCellRate` may write. -/
def State.showCellRate_offs (o : Nat) : Prop :=
  o = BRL_CELL_RATE.reg

theorem State.showCellRate_keeps {P : State → Prop} (K : Keeps P 0x0 State.showCellRate_offs) {s : State} (hs : P s) :
    P (State.showCellRate s) := by
  have r0 := K.reg (BRL_CELL_RATE.reg) (rfl)
  unfold State.showCellRate
  repeat' (first
    | with_reducible assumption
    | with_reducible (first | apply setNat_keeps)
    | with_reducible exact r0
    | intro _ _ _ _
    | intro _ _ _
    | intro _ _
    | with_reducible (first | apply ite_keeps | apply ite_keeps_pair)
    | dsimp only
    | split
    | with_reducible (first | apply r0))

end Sys2Proof.Machine
end

