-- ==== Sys2Proof/Laws/KRegions.lean ====
section
/-!
SUPPORT. What the operations of Sys2Proof.Machine.Regions keep, and the registers they may write.
-/
namespace Sys2Proof.Machine

/-- Registers `State.showConflict` may write. -/
def State.showConflict_offs (o : Nat) : Prop :=
  o = DMC_CONFLICT.reg

theorem State.showConflict_keeps {P : State → Prop} (K : Keeps P 0x0 State.showConflict_offs) {s : State} (src : Nat) (hs : P s) :
    P (State.showConflict s src) := by
  have r0 := K.reg (DMC_CONFLICT.reg) (rfl)
  unfold State.showConflict
  repeat' (first
    | with_reducible assumption
    | with_reducible (first | apply setNat_keeps)
    | with_reducible exact r0
    | intro _ _ _ _
    | intro _ _ _
    | intro _ _
    | with_reducible (first | apply ite_keeps | apply ite_keeps_pair)
    | dsimp only
    | split
    | with_reducible (first | apply r0))

/-- Registers `State.showRegions` may write. -/
def State.showRegions_offs (o : Nat) : Prop :=
  (∃ n, o = DMC_REGION.reg n)

theorem State.showRegions_keeps {P : State → Prop} (K : Keeps P 0x0 State.showRegions_offs) {s : State} (hs : P s) :
    P (State.showRegions s) := by
  have r0 := fun n => K.reg (DMC_REGION.reg n) (⟨n, rfl⟩)
  unfold State.showRegions
  repeat' (first
    | with_reducible assumption
    | with_reducible (first | apply setNat_keeps | apply foldl_keeps | apply foldl_keeps_pair)
    | with_reducible exact r0 _
    | intro _ _ _ _
    | intro _ _ _
    | intro _ _
    | with_reducible (first | apply ite_keeps | apply ite_keeps_pair)
    | dsimp only
    | split
    | with_reducible (first | apply r0))

end Sys2Proof.Machine
end

