-- ==== Sys2Proof/Laws/KCommands.lean ====
section
/-!
SUPPORT. What the operations of Sys2Proof.Machine.Commands keep, and the registers they may write.
-/
namespace Sys2Proof.Machine

/-- Registers `State.writebackCmd` may write. -/
def State.writebackCmd_offs (o : Nat) : Prop :=
  o = HIF_CMD_STATUS.reg ∨ State.writeDesc_offs o

theorem State.writebackCmd_keeps {P : State → Prop} (K : Keeps P 0x40000010 State.writebackCmd_offs) {s : State} (round : Nat) (r : CmdRes) (final : Bool) (hs : P s) :
    P (State.writebackCmd s round r final) := by
  have k0 : Keeps P 0x40000010 State.writeDesc_offs := K.sub rfl (fun _ h => .inr (h))
  have r0 := K.reg (HIF_CMD_STATUS.reg) (.inl rfl)
  unfold State.writebackCmd
  repeat' (first
    | with_reducible assumption
    | with_reducible (first | apply State.writeDesc_keeps k0 | apply setFld_keeps)
    | with_reducible exact r0
    | intro _ _ _ _
    | intro _ _ _
    | intro _ _
    | with_reducible (first | apply ite_keeps | apply ite_keeps_pair)
    | dsimp only
    | split
    | with_reducible (first | apply r0))

/-- Registers `State.finishCmd` may write. -/
def State.finishCmd_offs (o : Nat) : Prop :=
  State.complete_offs o ∨ State.writebackCmd_offs o

theorem State.finishCmd_keeps {P : State → Prop} (K : Keeps P 0x440000010 State.finishCmd_offs) {s : State} (op : Nat) (h : CmdHdr) (r : CmdRes) (hs : P s) :
    P (State.finishCmd s op h r) := by
  have k0 : Keeps P 0x440000010 State.complete_offs := K.sub rfl (fun _ h => .inl h)
  have k1 : Keeps P 0x40000010 State.writebackCmd_offs := K.sub rfl (fun _ h => .inr (h))
  unfold State.finishCmd
  repeat' (first
    | with_reducible assumption
    | with_reducible (first | apply State.complete_keeps k0 | apply State.writebackCmd_keeps k1)
    | intro _ _ _ _
    | intro _ _ _
    | intro _ _
    | with_reducible (first | apply ite_keeps | apply ite_keeps_pair)
    | dsimp only
    | split)

/-- Registers `State.acceptCmd` may write. -/
def State.acceptCmd_offs (o : Nat) : Prop :=
  State.writebackCmd_offs o

theorem State.acceptCmd_keeps {P : State → Prop} (K : Keeps P 0x40000010 State.acceptCmd_offs) {s : State} (op : Nat) (h : CmdHdr) (round : Nat) (hs : P s) :
    P (State.acceptCmd s op h round) := by
  have k0 : Keeps P 0x40000010 State.writebackCmd_offs := K.sub rfl (fun _ h => h)
  have t4 : ∀ (s : State) v, P s → P (s.putHif v) := K.upd 4 rfl
  unfold State.acceptCmd
  repeat' (first
    | with_reducible assumption
    | with_reducible (first | apply State.writebackCmd_keeps k0 | apply t4)
    | intro _ _ _ _
    | intro _ _ _
    | intro _ _
    | with_reducible (first | apply ite_keeps | apply ite_keeps_pair)
    | dsimp only
    | split)

/-- Registers `State.showCommit` may write. -/
def State.showCommit_offs (o : Nat) : Prop :=
  o = LCH_CHECK_MARGIN.reg ∨ o = LCH_COMMIT_STATUS.reg ∨ State.raiseEvent_offs o ∨ State.showConflict_offs o

theorem State.showCommit_keeps {P : State → Prop} (K : Keeps P 0x440000010 State.showCommit_offs) {s : State} (r : CommitResult) (hs : P s) :
    P (State.showCommit s r) := by
  have k0 : Keeps P 0x440000010 State.raiseEvent_offs := K.sub rfl (fun _ h => .inr (.inr (.inl h)))
  have k1 : Keeps P 0x0 State.showConflict_offs := K.sub rfl (fun _ h => .inr (.inr (.inr (h))))
  have r0 := K.reg (LCH_CHECK_MARGIN.reg) (.inl rfl)
  have r1 := K.reg (LCH_COMMIT_STATUS.reg) (.inr (.inl rfl))
  unfold State.showCommit
  repeat' (first
    | with_reducible assumption
    | with_reducible (first | apply State.raiseEvent_keeps k0 | apply State.showConflict_keeps k1 | apply setFld_keeps | apply setNat_keeps)
    | with_reducible exact r0
    | with_reducible exact r1
    | intro _ _ _ _
    | intro _ _ _
    | intro _ _
    | with_reducible (first | apply ite_keeps | apply ite_keeps_pair)
    | dsimp only
    | split
    | with_reducible (first | apply r0 | apply r1))

/-- Registers `State.processCommit` may write. -/
def State.processCommit_offs (o : Nat) : Prop :=
  o = LCH_PENDING.reg ∨ State.acceptCmd_offs o ∨ State.completeWhere_offs o ∨ State.finishCmd_offs o ∨
    State.showCommit_offs o

theorem State.processCommit_keeps {P : State → Prop} (K : Keeps P 0x440000110 State.processCommit_offs) {s : State} (h : CmdHdr) (round : Nat) (hs : P s) :
    P (State.processCommit s h round) := by
  have k0 : Keeps P 0x40000010 State.acceptCmd_offs := K.sub rfl (fun _ h => .inr (.inl h))
  have k1 : Keeps P 0x440000110 State.completeWhere_offs := K.sub rfl (fun _ h => .inr (.inr (.inl h)))
  have k2 : Keeps P 0x440000010 State.finishCmd_offs := K.sub rfl (fun _ h => .inr (.inr (.inr (.inl h))))
  have k3 : Keeps P 0x440000010 State.showCommit_offs := K.sub rfl (fun _ h => .inr (.inr (.inr (.inr (h)))))
  have r0 := K.reg (LCH_PENDING.reg) (.inl rfl)
  have t8 : ∀ (s : State) v, P s → P (s.putSched v) := K.upd 8 rfl
  unfold State.processCommit
  repeat' (first
    | with_reducible assumption
    | with_reducible (first | apply State.acceptCmd_keeps k0 | apply State.completeWhere_keeps k1 | apply State.finishCmd_keeps k2 | apply State.showCommit_keeps k3 | apply setNat_keeps | apply t8)
    | with_reducible exact r0
    | intro _ _ _ _
    | intro _ _ _
    | intro _ _
    | with_reducible (first | apply ite_keeps | apply ite_keeps_pair)
    | dsimp only
    | split
    | with_reducible (first | apply r0))

/-- Registers `State.cancelCmd` may write. -/
def State.cancelCmd_offs (o : Nat) : Prop :=
  State.clearPending_offs o ∨ State.completeCmd_offs o

theorem State.cancelCmd_keeps {P : State → Prop} (K : Keeps P 0x440000110 State.cancelCmd_offs) {s : State} (tag : Nat) (hs : P s) :
    P (State.cancelCmd s tag).1 := by
  have k0 : Keeps P 0x100 State.clearPending_offs := K.sub rfl (fun _ h => .inl h)
  have k1 : Keeps P 0x440000010 State.completeCmd_offs := K.sub rfl (fun _ h => .inr (h))
  have t4 : ∀ (s : State) v, P s → P (s.putHif v) := K.upd 4 rfl
  unfold State.cancelCmd
  repeat' (first
    | with_reducible assumption
    | with_reducible (first | apply State.clearPending_keeps k0 | apply State.completeCmd_keeps k1 | apply t4)
    | intro _ _ _ _
    | intro _ _ _
    | intro _ _
    | with_reducible (first | apply ite_keeps | apply ite_keeps_pair)
    | dsimp only
    | split)

/-- Registers `State.evrMark` may write. -/
def State.evrMark_offs (o : Nat) : Prop :=
  State.record_offs o

theorem State.evrMark_keeps {P : State → Prop} (K : Keeps P 0x20 State.evrMark_offs) {s : State} (code : Nat) (hs : P s) :
    P (State.evrMark s code).1 := by
  have k0 : Keeps P 0x20 State.record_offs := K.sub rfl (fun _ h => h)
  unfold State.evrMark
  repeat' (first
    | with_reducible assumption
    | with_reducible (first | apply State.record_keeps k0)
    | intro _ _ _ _
    | intro _ _ _
    | intro _ _
    | with_reducible (first | apply ite_keeps | apply ite_keeps_pair)
    | dsimp only
    | split)

/-- Registers `State.actNow` may write. -/
def State.actNow_offs (o : Nat) : Prop :=
  State.cancelCmd_offs o ∨ State.evrMark_offs o

theorem State.actNow_keeps {P : State → Prop} (K : Keeps P 0x440000130 State.actNow_offs) {s : State} (op : Nat) (h : CmdHdr) (hs : P s) :
    P (State.actNow s op h).1 := by
  have k0 : Keeps P 0x440000110 State.cancelCmd_offs := K.sub rfl (fun _ h => .inl h)
  have k1 : Keeps P 0x20 State.evrMark_offs := K.sub rfl (fun _ h => .inr (h))
  have t8 : ∀ (s : State) v, P s → P (s.putSched v) := K.upd 8 rfl
  unfold State.actNow
  repeat' (first
    | with_reducible assumption
    | with_reducible (first | apply State.cancelCmd_keeps k0 | apply State.evrMark_keeps k1 | apply t8)
    | (apply fst_keeps (by assumption))
    | intro _ _ _ _
    | intro _ _ _
    | intro _ _
    | with_reducible (first | apply ite_keeps | apply ite_keeps_pair)
    | dsimp only
    | split)

/-- Registers `State.processCmd` may write. -/
def State.processCmd_offs (o : Nat) : Prop :=
  (∃ n, o = HIF_RING_STATUS.reg n) ∨ State.acceptCmd_offs o ∨ State.actNow_offs o ∨ State.finishCmd_offs o ∨
    State.processCommit_offs o ∨ State.ringError_offs o

theorem State.processCmd_keeps {P : State → Prop} (K : Keeps P 0x440000130 State.processCmd_offs) {s : State} (op : Nat) (h : CmdHdr) (hs : P s) :
    P (State.processCmd s op h) := by
  have k0 : Keeps P 0x40000010 State.acceptCmd_offs := K.sub rfl (fun _ h => .inr (.inl h))
  have k1 : Keeps P 0x440000130 State.actNow_offs := K.sub rfl (fun _ h => .inr (.inr (.inl h)))
  have k2 : Keeps P 0x440000010 State.finishCmd_offs := K.sub rfl (fun _ h => .inr (.inr (.inr (.inl h))))
  have k3 : Keeps P 0x440000110 State.processCommit_offs := K.sub rfl (fun _ h => .inr (.inr (.inr (.inr (.inl h)))))
  have k4 : Keeps P 0x440000010 State.ringError_offs := K.sub rfl (fun _ h => .inr (.inr (.inr (.inr (.inr (h))))))
  have r0 := fun n => K.reg (HIF_RING_STATUS.reg n) (.inl ⟨n, rfl⟩)
  unfold State.processCmd
  repeat' (first
    | with_reducible assumption
    | with_reducible (first | apply State.acceptCmd_keeps k0 | apply State.actNow_keeps k1 | apply State.finishCmd_keeps k2 | apply State.processCommit_keeps k3 | apply State.ringError_keeps k4 | apply setFlag_keeps)
    | with_reducible exact r0 _
    | (apply fst_keeps (by assumption))
    | intro _ _ _ _
    | intro _ _ _
    | intro _ _
    | with_reducible (first | apply ite_keeps | apply ite_keeps_pair)
    | dsimp only
    | split
    | with_reducible (first | apply r0))

/-- Registers `execNop` may write. -/
def execNop_offs (o : Nat) : Prop :=
  State.processCmd_offs o

theorem execNop_keeps {P : State → Prop} (K : Keeps P 0x440000130 execNop_offs) {s : State} (h : CmdHdr) (hs : P s) :
    ∃ t, (execNop h s) = .next t ∧ P t := by
  have k0 : Keeps P 0x440000130 State.processCmd_offs := K.sub rfl (fun _ h => h)
  refine ⟨_, rfl, ?_⟩
  repeat' (first
    | with_reducible assumption
    | with_reducible (first | apply State.processCmd_keeps k0)
    | intro _ _ _ _
    | intro _ _ _
    | intro _ _
    | with_reducible (first | apply ite_keeps | apply ite_keeps_pair)
    | dsimp only
    | split)

/-- Registers `execCancel` may write. -/
def execCancel_offs (o : Nat) : Prop :=
  State.processCmd_offs o

theorem execCancel_keeps {P : State → Prop} (K : Keeps P 0x440000130 execCancel_offs) {s : State} (h : CmdHdr) (hs : P s) :
    ∃ t, (execCancel h s) = .next t ∧ P t := by
  have k0 : Keeps P 0x440000130 State.processCmd_offs := K.sub rfl (fun _ h => h)
  refine ⟨_, rfl, ?_⟩
  repeat' (first
    | with_reducible assumption
    | with_reducible (first | apply State.processCmd_keeps k0)
    | intro _ _ _ _
    | intro _ _ _
    | intro _ _
    | with_reducible (first | apply ite_keeps | apply ite_keeps_pair)
    | dsimp only
    | split)

/-- Registers `execEvrMark` may write. -/
def execEvrMark_offs (o : Nat) : Prop :=
  State.processCmd_offs o

theorem execEvrMark_keeps {P : State → Prop} (K : Keeps P 0x440000130 execEvrMark_offs) {s : State} (h : CmdHdr) (hs : P s) :
    ∃ t, (execEvrMark h s) = .next t ∧ P t := by
  have k0 : Keeps P 0x440000130 State.processCmd_offs := K.sub rfl (fun _ h => h)
  refine ⟨_, rfl, ?_⟩
  repeat' (first
    | with_reducible assumption
    | with_reducible (first | apply State.processCmd_keeps k0)
    | intro _ _ _ _
    | intro _ _ _
    | intro _ _
    | with_reducible (first | apply ite_keeps | apply ite_keeps_pair)
    | dsimp only
    | split)

/-- Registers `execStopCommand` may write. -/
def execStopCommand_offs (o : Nat) : Prop :=
  State.processCmd_offs o

theorem execStopCommand_keeps {P : State → Prop} (K : Keeps P 0x440000130 execStopCommand_offs) {s : State} (h : CmdHdr) (hs : P s) :
    ∃ t, (execStopCommand h s) = .next t ∧ P t := by
  have k0 : Keeps P 0x440000130 State.processCmd_offs := K.sub rfl (fun _ h => h)
  refine ⟨_, rfl, ?_⟩
  repeat' (first
    | with_reducible assumption
    | with_reducible (first | apply State.processCmd_keeps k0)
    | intro _ _ _ _
    | intro _ _ _
    | intro _ _
    | with_reducible (first | apply ite_keeps | apply ite_keeps_pair)
    | dsimp only
    | split)

/-- Registers `execLchWrite` may write. -/
def execLchWrite_offs (o : Nat) : Prop :=
  State.processCmd_offs o

theorem execLchWrite_keeps {P : State → Prop} (K : Keeps P 0x440000130 execLchWrite_offs) {s : State} (h : CmdHdr) (hs : P s) :
    ∃ t, (execLchWrite h s) = .next t ∧ P t := by
  have k0 : Keeps P 0x440000130 State.processCmd_offs := K.sub rfl (fun _ h => h)
  refine ⟨_, rfl, ?_⟩
  repeat' (first
    | with_reducible assumption
    | with_reducible (first | apply State.processCmd_keeps k0)
    | intro _ _ _ _
    | intro _ _ _
    | intro _ _
    | with_reducible (first | apply ite_keeps | apply ite_keeps_pair)
    | dsimp only
    | split)

/-- Registers `execLchCommit` may write. -/
def execLchCommit_offs (o : Nat) : Prop :=
  State.processCmd_offs o

theorem execLchCommit_keeps {P : State → Prop} (K : Keeps P 0x440000130 execLchCommit_offs) {s : State} (h : CmdHdr) (hs : P s) :
    ∃ t, (execLchCommit h s) = .next t ∧ P t := by
  have k0 : Keeps P 0x440000130 State.processCmd_offs := K.sub rfl (fun _ h => h)
  refine ⟨_, rfl, ?_⟩
  repeat' (first
    | with_reducible assumption
    | with_reducible (first | apply State.processCmd_keeps k0)
    | intro _ _ _ _
    | intro _ _ _
    | intro _ _
    | with_reducible (first | apply ite_keeps | apply ite_keeps_pair)
    | dsimp only
    | split)

/-- Registers `execLchShadowReset` may write. -/
def execLchShadowReset_offs (o : Nat) : Prop :=
  State.processCmd_offs o

theorem execLchShadowReset_keeps {P : State → Prop} (K : Keeps P 0x440000130 execLchShadowReset_offs) {s : State} (h : CmdHdr) (hs : P s) :
    ∃ t, (execLchShadowReset h s) = .next t ∧ P t := by
  have k0 : Keeps P 0x440000130 State.processCmd_offs := K.sub rfl (fun _ h => h)
  refine ⟨_, rfl, ?_⟩
  repeat' (first
    | with_reducible assumption
    | with_reducible (first | apply State.processCmd_keeps k0)
    | intro _ _ _ _
    | intro _ _ _
    | intro _ _
    | with_reducible (first | apply ite_keeps | apply ite_keeps_pair)
    | dsimp only
    | split)

/-- Registers `execZoneSet` may write. -/
def execZoneSet_offs (o : Nat) : Prop :=
  State.processCmd_offs o

theorem execZoneSet_keeps {P : State → Prop} (K : Keeps P 0x440000130 execZoneSet_offs) {s : State} (h : CmdHdr) (hs : P s) :
    ∃ t, (execZoneSet h s) = .next t ∧ P t := by
  have k0 : Keeps P 0x440000130 State.processCmd_offs := K.sub rfl (fun _ h => h)
  refine ⟨_, rfl, ?_⟩
  repeat' (first
    | with_reducible assumption
    | with_reducible (first | apply State.processCmd_keeps k0)
    | intro _ _ _ _
    | intro _ _ _
    | intro _ _
    | with_reducible (first | apply ite_keeps | apply ite_keeps_pair)
    | dsimp only
    | split)

/-- Registers `execPeSet` may write. -/
def execPeSet_offs (o : Nat) : Prop :=
  State.processCmd_offs o

theorem execPeSet_keeps {P : State → Prop} (K : Keeps P 0x440000130 execPeSet_offs) {s : State} (h : CmdHdr) (hs : P s) :
    ∃ t, (execPeSet h s) = .next t ∧ P t := by
  have k0 : Keeps P 0x440000130 State.processCmd_offs := K.sub rfl (fun _ h => h)
  refine ⟨_, rfl, ?_⟩
  repeat' (first
    | with_reducible assumption
    | with_reducible (first | apply State.processCmd_keeps k0)
    | intro _ _ _ _
    | intro _ _ _
    | intro _ _
    | with_reducible (first | apply ite_keeps | apply ite_keeps_pair)
    | dsimp only
    | split)

/-- Registers `execPortRestore` may write. -/
def execPortRestore_offs (o : Nat) : Prop :=
  State.processCmd_offs o

theorem execPortRestore_keeps {P : State → Prop} (K : Keeps P 0x440000130 execPortRestore_offs) {s : State} (h : CmdHdr) (hs : P s) :
    ∃ t, (execPortRestore h s) = .next t ∧ P t := by
  have k0 : Keeps P 0x440000130 State.processCmd_offs := K.sub rfl (fun _ h => h)
  refine ⟨_, rfl, ?_⟩
  repeat' (first
    | with_reducible assumption
    | with_reducible (first | apply State.processCmd_keeps k0)
    | intro _ _ _ _
    | intro _ _ _
    | intro _ _
    | with_reducible (first | apply ite_keeps | apply ite_keeps_pair)
    | dsimp only
    | split)

/-- Registers `execLfRebase` may write. -/
def execLfRebase_offs (o : Nat) : Prop :=
  State.processCmd_offs o

theorem execLfRebase_keeps {P : State → Prop} (K : Keeps P 0x440000130 execLfRebase_offs) {s : State} (h : CmdHdr) (hs : P s) :
    ∃ t, (execLfRebase h s) = .next t ∧ P t := by
  have k0 : Keeps P 0x440000130 State.processCmd_offs := K.sub rfl (fun _ h => h)
  refine ⟨_, rfl, ?_⟩
  repeat' (first
    | with_reducible assumption
    | with_reducible (first | apply State.processCmd_keeps k0)
    | intro _ _ _ _
    | intro _ _ _
    | intro _ _
    | with_reducible (first | apply ite_keeps | apply ite_keeps_pair)
    | dsimp only
    | split)

/-- Registers `execFltSet` may write. -/
def execFltSet_offs (o : Nat) : Prop :=
  State.processCmd_offs o

theorem execFltSet_keeps {P : State → Prop} (K : Keeps P 0x440000130 execFltSet_offs) {s : State} (h : CmdHdr) (hs : P s) :
    ∃ t, (execFltSet h s) = .next t ∧ P t := by
  have k0 : Keeps P 0x440000130 State.processCmd_offs := K.sub rfl (fun _ h => h)
  refine ⟨_, rfl, ?_⟩
  repeat' (first
    | with_reducible assumption
    | with_reducible (first | apply State.processCmd_keeps k0)
    | intro _ _ _ _
    | intro _ _ _
    | intro _ _
    | with_reducible (first | apply ite_keeps | apply ite_keeps_pair)
    | dsimp only
    | split)

/-- Registers `execBrlSet` may write. -/
def execBrlSet_offs (o : Nat) : Prop :=
  State.processCmd_offs o

theorem execBrlSet_keeps {P : State → Prop} (K : Keeps P 0x440000130 execBrlSet_offs) {s : State} (h : CmdHdr) (hs : P s) :
    ∃ t, (execBrlSet h s) = .next t ∧ P t := by
  have k0 : Keeps P 0x440000130 State.processCmd_offs := K.sub rfl (fun _ h => h)
  refine ⟨_, rfl, ?_⟩
  repeat' (first
    | with_reducible assumption
    | with_reducible (first | apply State.processCmd_keeps k0)
    | intro _ _ _ _
    | intro _ _ _
    | intro _ _
    | with_reducible (first | apply ite_keeps | apply ite_keeps_pair)
    | dsimp only
    | split)

/-- Registers `execRefLoad` may write. -/
def execRefLoad_offs (o : Nat) : Prop :=
  State.processCmd_offs o

theorem execRefLoad_keeps {P : State → Prop} (K : Keeps P 0x440000130 execRefLoad_offs) {s : State} (h : CmdHdr) (hs : P s) :
    ∃ t, (execRefLoad h s) = .next t ∧ P t := by
  have k0 : Keeps P 0x440000130 State.processCmd_offs := K.sub rfl (fun _ h => h)
  refine ⟨_, rfl, ?_⟩
  repeat' (first
    | with_reducible assumption
    | with_reducible (first | apply State.processCmd_keeps k0)
    | intro _ _ _ _
    | intro _ _ _
    | intro _ _
    | with_reducible (first | apply ite_keeps | apply ite_keeps_pair)
    | dsimp only
    | split)

/-- Registers `execRefLearn` may write. -/
def execRefLearn_offs (o : Nat) : Prop :=
  State.processCmd_offs o

theorem execRefLearn_keeps {P : State → Prop} (K : Keeps P 0x440000130 execRefLearn_offs) {s : State} (h : CmdHdr) (hs : P s) :
    ∃ t, (execRefLearn h s) = .next t ∧ P t := by
  have k0 : Keeps P 0x440000130 State.processCmd_offs := K.sub rfl (fun _ h => h)
  refine ⟨_, rfl, ?_⟩
  repeat' (first
    | with_reducible assumption
    | with_reducible (first | apply State.processCmd_keeps k0)
    | intro _ _ _ _
    | intro _ _ _
    | intro _ _
    | with_reducible (first | apply ite_keeps | apply ite_keeps_pair)
    | dsimp only
    | split)

/-- Registers `execBltSet` may write. -/
def execBltSet_offs (o : Nat) : Prop :=
  State.processCmd_offs o

theorem execBltSet_keeps {P : State → Prop} (K : Keeps P 0x440000130 execBltSet_offs) {s : State} (h : CmdHdr) (hs : P s) :
    ∃ t, (execBltSet h s) = .next t ∧ P t := by
  have k0 : Keeps P 0x440000130 State.processCmd_offs := K.sub rfl (fun _ h => h)
  refine ⟨_, rfl, ?_⟩
  repeat' (first
    | with_reducible assumption
    | with_reducible (first | apply State.processCmd_keeps k0)
    | intro _ _ _ _
    | intro _ _ _
    | intro _ _
    | with_reducible (first | apply ite_keeps | apply ite_keeps_pair)
    | dsimp only
    | split)

/-- Registers `execTrim` may write. -/
def execTrim_offs (o : Nat) : Prop :=
  State.processCmd_offs o

theorem execTrim_keeps {P : State → Prop} (K : Keeps P 0x440000130 execTrim_offs) {s : State} (h : CmdHdr) (hs : P s) :
    ∃ t, (execTrim h s) = .next t ∧ P t := by
  have k0 : Keeps P 0x440000130 State.processCmd_offs := K.sub rfl (fun _ h => h)
  refine ⟨_, rfl, ?_⟩
  repeat' (first
    | with_reducible assumption
    | with_reducible (first | apply State.processCmd_keeps k0)
    | intro _ _ _ _
    | intro _ _ _
    | intro _ _
    | with_reducible (first | apply ite_keeps | apply ite_keeps_pair)
    | dsimp only
    | split)

/-- Registers `execTrgSet` may write. -/
def execTrgSet_offs (o : Nat) : Prop :=
  State.processCmd_offs o

theorem execTrgSet_keeps {P : State → Prop} (K : Keeps P 0x440000130 execTrgSet_offs) {s : State} (h : CmdHdr) (hs : P s) :
    ∃ t, (execTrgSet h s) = .next t ∧ P t := by
  have k0 : Keeps P 0x440000130 State.processCmd_offs := K.sub rfl (fun _ h => h)
  refine ⟨_, rfl, ?_⟩
  repeat' (first
    | with_reducible assumption
    | with_reducible (first | apply State.processCmd_keeps k0)
    | intro _ _ _ _
    | intro _ _ _
    | intro _ _
    | with_reducible (first | apply ite_keeps | apply ite_keeps_pair)
    | dsimp only
    | split)

/-- Registers `execTrgArm` may write. -/
def execTrgArm_offs (o : Nat) : Prop :=
  State.processCmd_offs o

theorem execTrgArm_keeps {P : State → Prop} (K : Keeps P 0x440000130 execTrgArm_offs) {s : State} (h : CmdHdr) (hs : P s) :
    ∃ t, (execTrgArm h s) = .next t ∧ P t := by
  have k0 : Keeps P 0x440000130 State.processCmd_offs := K.sub rfl (fun _ h => h)
  refine ⟨_, rfl, ?_⟩
  repeat' (first
    | with_reducible assumption
    | with_reducible (first | apply State.processCmd_keeps k0)
    | intro _ _ _ _
    | intro _ _ _
    | intro _ _
    | with_reducible (first | apply ite_keeps | apply ite_keeps_pair)
    | dsimp only
    | split)

/-- Registers `execTrgDisarm` may write. -/
def execTrgDisarm_offs (o : Nat) : Prop :=
  State.processCmd_offs o

theorem execTrgDisarm_keeps {P : State → Prop} (K : Keeps P 0x440000130 execTrgDisarm_offs) {s : State} (h : CmdHdr) (hs : P s) :
    ∃ t, (execTrgDisarm h s) = .next t ∧ P t := by
  have k0 : Keeps P 0x440000130 State.processCmd_offs := K.sub rfl (fun _ h => h)
  refine ⟨_, rfl, ?_⟩
  repeat' (first
    | with_reducible assumption
    | with_reducible (first | apply State.processCmd_keeps k0)
    | intro _ _ _ _
    | intro _ _ _
    | intro _ _
    | with_reducible (first | apply ite_keeps | apply ite_keeps_pair)
    | dsimp only
    | split)

/-- Registers `execDoutSet` may write. -/
def execDoutSet_offs (o : Nat) : Prop :=
  State.processCmd_offs o

theorem execDoutSet_keeps {P : State → Prop} (K : Keeps P 0x440000130 execDoutSet_offs) {s : State} (h : CmdHdr) (hs : P s) :
    ∃ t, (execDoutSet h s) = .next t ∧ P t := by
  have k0 : Keeps P 0x440000130 State.processCmd_offs := K.sub rfl (fun _ h => h)
  refine ⟨_, rfl, ?_⟩
  repeat' (first
    | with_reducible assumption
    | with_reducible (first | apply State.processCmd_keeps k0)
    | intro _ _ _ _
    | intro _ _ _
    | intro _ _
    | with_reducible (first | apply ite_keeps | apply ite_keeps_pair)
    | dsimp only
    | split)

/-- Registers `execDoutClear` may write. -/
def execDoutClear_offs (o : Nat) : Prop :=
  State.processCmd_offs o

theorem execDoutClear_keeps {P : State → Prop} (K : Keeps P 0x440000130 execDoutClear_offs) {s : State} (h : CmdHdr) (hs : P s) :
    ∃ t, (execDoutClear h s) = .next t ∧ P t := by
  have k0 : Keeps P 0x440000130 State.processCmd_offs := K.sub rfl (fun _ h => h)
  refine ⟨_, rfl, ?_⟩
  repeat' (first
    | with_reducible assumption
    | with_reducible (first | apply State.processCmd_keeps k0)
    | intro _ _ _ _
    | intro _ _ _
    | intro _ _
    | with_reducible (first | apply ite_keeps | apply ite_keeps_pair)
    | dsimp only
    | split)

/-- Registers `execAcStart` may write. -/
def execAcStart_offs (o : Nat) : Prop :=
  State.processCmd_offs o

theorem execAcStart_keeps {P : State → Prop} (K : Keeps P 0x440000130 execAcStart_offs) {s : State} (h : CmdHdr) (hs : P s) :
    ∃ t, (execAcStart h s) = .next t ∧ P t := by
  have k0 : Keeps P 0x440000130 State.processCmd_offs := K.sub rfl (fun _ h => h)
  refine ⟨_, rfl, ?_⟩
  repeat' (first
    | with_reducible assumption
    | with_reducible (first | apply State.processCmd_keeps k0)
    | intro _ _ _ _
    | intro _ _ _
    | intro _ _
    | with_reducible (first | apply ite_keeps | apply ite_keeps_pair)
    | dsimp only
    | split)

/-- Registers `execAcStop` may write. -/
def execAcStop_offs (o : Nat) : Prop :=
  State.processCmd_offs o

theorem execAcStop_keeps {P : State → Prop} (K : Keeps P 0x440000130 execAcStop_offs) {s : State} (h : CmdHdr) (hs : P s) :
    ∃ t, (execAcStop h s) = .next t ∧ P t := by
  have k0 : Keeps P 0x440000130 State.processCmd_offs := K.sub rfl (fun _ h => h)
  refine ⟨_, rfl, ?_⟩
  repeat' (first
    | with_reducible assumption
    | with_reducible (first | apply State.processCmd_keeps k0)
    | intro _ _ _ _
    | intro _ _ _
    | intro _ _
    | with_reducible (first | apply ite_keeps | apply ite_keeps_pair)
    | dsimp only
    | split)

/-- Registers `execAcConfig` may write. -/
def execAcConfig_offs (o : Nat) : Prop :=
  State.processCmd_offs o

theorem execAcConfig_keeps {P : State → Prop} (K : Keeps P 0x440000130 execAcConfig_offs) {s : State} (h : CmdHdr) (hs : P s) :
    ∃ t, (execAcConfig h s) = .next t ∧ P t := by
  have k0 : Keeps P 0x440000130 State.processCmd_offs := K.sub rfl (fun _ h => h)
  refine ⟨_, rfl, ?_⟩
  repeat' (first
    | with_reducible assumption
    | with_reducible (first | apply State.processCmd_keeps k0)
    | intro _ _ _ _
    | intro _ _ _
    | intro _ _
    | with_reducible (first | apply ite_keeps | apply ite_keeps_pair)
    | dsimp only
    | split)

/-- Registers `execDmcSet` may write. -/
def execDmcSet_offs (o : Nat) : Prop :=
  State.processCmd_offs o

theorem execDmcSet_keeps {P : State → Prop} (K : Keeps P 0x440000130 execDmcSet_offs) {s : State} (h : CmdHdr) (hs : P s) :
    ∃ t, (execDmcSet h s) = .next t ∧ P t := by
  have k0 : Keeps P 0x440000130 State.processCmd_offs := K.sub rfl (fun _ h => h)
  refine ⟨_, rfl, ?_⟩
  repeat' (first
    | with_reducible assumption
    | with_reducible (first | apply State.processCmd_keeps k0)
    | intro _ _ _ _
    | intro _ _ _
    | intro _ _
    | with_reducible (first | apply ite_keeps | apply ite_keeps_pair)
    | dsimp only
    | split)

/-- Registers `execAuxSet` may write. -/
def execAuxSet_offs (o : Nat) : Prop :=
  State.processCmd_offs o

theorem execAuxSet_keeps {P : State → Prop} (K : Keeps P 0x440000130 execAuxSet_offs) {s : State} (h : CmdHdr) (hs : P s) :
    ∃ t, (execAuxSet h s) = .next t ∧ P t := by
  have k0 : Keeps P 0x440000130 State.processCmd_offs := K.sub rfl (fun _ h => h)
  refine ⟨_, rfl, ?_⟩
  repeat' (first
    | with_reducible assumption
    | with_reducible (first | apply State.processCmd_keeps k0)
    | intro _ _ _ _
    | intro _ _ _
    | intro _ _
    | with_reducible (first | apply ite_keeps | apply ite_keeps_pair)
    | dsimp only
    | split)

/-- Registers `execCmpSet` may write. -/
def execCmpSet_offs (o : Nat) : Prop :=
  State.processCmd_offs o

theorem execCmpSet_keeps {P : State → Prop} (K : Keeps P 0x440000130 execCmpSet_offs) {s : State} (h : CmdHdr) (hs : P s) :
    ∃ t, (execCmpSet h s) = .next t ∧ P t := by
  have k0 : Keeps P 0x440000130 State.processCmd_offs := K.sub rfl (fun _ h => h)
  refine ⟨_, rfl, ?_⟩
  repeat' (first
    | with_reducible assumption
    | with_reducible (first | apply State.processCmd_keeps k0)
    | intro _ _ _ _
    | intro _ _ _
    | intro _ _
    | with_reducible (first | apply ite_keeps | apply ite_keeps_pair)
    | dsimp only
    | split)

/-- Registers `execCalRun` may write. -/
def execCalRun_offs (o : Nat) : Prop :=
  State.processCmd_offs o

theorem execCalRun_keeps {P : State → Prop} (K : Keeps P 0x440000130 execCalRun_offs) {s : State} (h : CmdHdr) (hs : P s) :
    ∃ t, (execCalRun h s) = .next t ∧ P t := by
  have k0 : Keeps P 0x440000130 State.processCmd_offs := K.sub rfl (fun _ h => h)
  refine ⟨_, rfl, ?_⟩
  repeat' (first
    | with_reducible assumption
    | with_reducible (first | apply State.processCmd_keeps k0)
    | intro _ _ _ _
    | intro _ _ _
    | intro _ _
    | with_reducible (first | apply ite_keeps | apply ite_keeps_pair)
    | dsimp only
    | split)

/-- Registers `execCalPin` may write. -/
def execCalPin_offs (o : Nat) : Prop :=
  State.processCmd_offs o

theorem execCalPin_keeps {P : State → Prop} (K : Keeps P 0x440000130 execCalPin_offs) {s : State} (h : CmdHdr) (hs : P s) :
    ∃ t, (execCalPin h s) = .next t ∧ P t := by
  have k0 : Keeps P 0x440000130 State.processCmd_offs := K.sub rfl (fun _ h => h)
  refine ⟨_, rfl, ?_⟩
  repeat' (first
    | with_reducible assumption
    | with_reducible (first | apply State.processCmd_keeps k0)
    | intro _ _ _ _
    | intro _ _ _
    | intro _ _
    | with_reducible (first | apply ite_keeps | apply ite_keeps_pair)
    | dsimp only
    | split)

/-- Registers `execCalRestore` may write. -/
def execCalRestore_offs (o : Nat) : Prop :=
  State.processCmd_offs o

theorem execCalRestore_keeps {P : State → Prop} (K : Keeps P 0x440000130 execCalRestore_offs) {s : State} (h : CmdHdr) (hs : P s) :
    ∃ t, (execCalRestore h s) = .next t ∧ P t := by
  have k0 : Keeps P 0x440000130 State.processCmd_offs := K.sub rfl (fun _ h => h)
  refine ⟨_, rfl, ?_⟩
  repeat' (first
    | with_reducible assumption
    | with_reducible (first | apply State.processCmd_keeps k0)
    | intro _ _ _ _
    | intro _ _ _
    | intro _ _
    | with_reducible (first | apply ite_keeps | apply ite_keeps_pair)
    | dsimp only
    | split)

/-- Registers `execPairSet` may write. -/
def execPairSet_offs (o : Nat) : Prop :=
  State.processCmd_offs o

theorem execPairSet_keeps {P : State → Prop} (K : Keeps P 0x440000130 execPairSet_offs) {s : State} (h : CmdHdr) (hs : P s) :
    ∃ t, (execPairSet h s) = .next t ∧ P t := by
  have k0 : Keeps P 0x440000130 State.processCmd_offs := K.sub rfl (fun _ h => h)
  refine ⟨_, rfl, ?_⟩
  repeat' (first
    | with_reducible assumption
    | with_reducible (first | apply State.processCmd_keeps k0)
    | intro _ _ _ _
    | intro _ _ _
    | intro _ _
    | with_reducible (first | apply ite_keeps | apply ite_keeps_pair)
    | dsimp only
    | split)

/-- Registers `execFailback` may write. -/
def execFailback_offs (o : Nat) : Prop :=
  State.processCmd_offs o

theorem execFailback_keeps {P : State → Prop} (K : Keeps P 0x440000130 execFailback_offs) {s : State} (h : CmdHdr) (hs : P s) :
    ∃ t, (execFailback h s) = .next t ∧ P t := by
  have k0 : Keeps P 0x440000130 State.processCmd_offs := K.sub rfl (fun _ h => h)
  refine ⟨_, rfl, ?_⟩
  repeat' (first
    | with_reducible assumption
    | with_reducible (first | apply State.processCmd_keeps k0)
    | intro _ _ _ _
    | intro _ _ _
    | intro _ _
    | with_reducible (first | apply ite_keeps | apply ite_keeps_pair)
    | dsimp only
    | split)

/-- Registers `execBadOpcodeCommand` may write. -/
def execBadOpcodeCommand_offs (o : Nat) : Prop :=
  State.processCmd_offs o

theorem execBadOpcodeCommand_keeps {P : State → Prop} (K : Keeps P 0x440000130 execBadOpcodeCommand_offs) {s : State} (op : BitVec 8) (h : CmdHdr) (hs : P s) :
    ∃ t, (execBadOpcodeCommand op h s) = .next t ∧ P t := by
  have k0 : Keeps P 0x440000130 State.processCmd_offs := K.sub rfl (fun _ h => h)
  refine ⟨_, rfl, ?_⟩
  repeat' (first
    | with_reducible assumption
    | with_reducible (first | apply State.processCmd_keeps k0)
    | intro _ _ _ _
    | intro _ _ _
    | intro _ _
    | with_reducible (first | apply ite_keeps | apply ite_keeps_pair)
    | dsimp only
    | split)

end Sys2Proof.Machine
end

