-- ==== Sys2Proof/Laws/KCoreFlow.lean ====
section
/-!
SUPPORT. What the operations of Sys2Proof.Machine.CoreFlow keep, and the registers they may write.
-/
namespace Sys2Proof.Machine

/-- Registers `State.wake` may write. -/
def State.wake_offs (o : Nat) : Prop :=
  State.resume_offs o

theorem State.wake_keeps {P : State → Prop} (K : Keeps P 0x4c0100014 State.wake_offs) {s : State} (k : Nat) (hs : P s) :
    P (State.wake s k) := by
  have k0 : Keeps P 0x4c0100014 State.resume_offs := K.sub rfl (fun _ h => h)
  unfold State.wake
  repeat' (first
    | with_reducible assumption
    | with_reducible (first | apply State.resume_keeps k0)
    | intro _ _ _ _
    | intro _ _ _
    | intro _ _
    | with_reducible (first | apply ite_keeps | apply ite_keeps_pair)
    | dsimp only
    | split)

/-- Registers `State.signal` may write. -/
def State.signal_offs (o : Nat) : Prop :=
  (∃ n, o = ACR_SIG.reg n) ∨ (∃ n, o = ACR_SIG_COUNT.reg n) ∨ State.raiseEvent_offs o

theorem State.signal_keeps {P : State → Prop} (K : Keeps P 0x440000010 State.signal_offs) {s : State} (k : Nat) (hs : P s) :
    P (State.signal s k) := by
  have k0 : Keeps P 0x440000010 State.raiseEvent_offs := K.sub rfl (fun _ h => .inr (.inr (h)))
  have r0 := fun n => K.reg (ACR_SIG.reg n) (.inl ⟨n, rfl⟩)
  have r1 := fun n => K.reg (ACR_SIG_COUNT.reg n) (.inr (.inl ⟨n, rfl⟩))
  unfold State.signal
  repeat' (first
    | with_reducible assumption
    | with_reducible (first | apply State.raiseEvent_keeps k0 | apply bump_keeps | apply setFld_keeps)
    | with_reducible exact r0 _
    | with_reducible exact r1 _
    | intro _ _ _ _
    | intro _ _ _
    | intro _ _
    | with_reducible (first | apply ite_keeps | apply ite_keeps_pair)
    | dsimp only
    | split
    | with_reducible (first | apply r0 | apply r1))

/-- Registers `execBcc` may write. -/
def execBcc_offs (o : Nat) : Prop :=
  State.issue_offs o

theorem execBcc_keeps {P : State → Prop} (K : Keeps P 0x4c0100014 execBcc_offs) {s : State} (k : Fin 16) (parity : Bool) (hs : P s) :
    ∃ t, (execBcc k parity s) = .next t ∧ P t := by
  have k0 : Keeps P 0x4c0100014 State.issue_offs := K.sub rfl (fun _ h => h)
  refine ⟨_, rfl, ?_⟩
  repeat' (first
    | with_reducible assumption
    | with_reducible (first | apply State.issue_keeps k0)
    | intro _ _ _ _
    | intro _ _ _
    | intro _ _
    | with_reducible (first | apply ite_keeps | apply ite_keeps_pair)
    | dsimp only
    | split)

/-- Registers `execJal` may write. -/
def execJal_offs (o : Nat) : Prop :=
  State.issue_offs o

theorem execJal_keeps {P : State → Prop} (K : Keeps P 0x4c0100014 execJal_offs) {s : State} (k : Fin 16) (parity : Bool) (hs : P s) :
    ∃ t, (execJal k parity s) = .next t ∧ P t := by
  have k0 : Keeps P 0x4c0100014 State.issue_offs := K.sub rfl (fun _ h => h)
  refine ⟨_, rfl, ?_⟩
  repeat' (first
    | with_reducible assumption
    | with_reducible (first | apply State.issue_keeps k0)
    | intro _ _ _ _
    | intro _ _ _
    | intro _ _
    | with_reducible (first | apply ite_keeps | apply ite_keeps_pair)
    | dsimp only
    | split)

/-- Registers `execJr` may write. -/
def execJr_offs (o : Nat) : Prop :=
  State.issue_offs o

theorem execJr_keeps {P : State → Prop} (K : Keeps P 0x4c0100014 execJr_offs) {s : State} (k : Fin 16) (parity : Bool) (hs : P s) :
    ∃ t, (execJr k parity s) = .next t ∧ P t := by
  have k0 : Keeps P 0x4c0100014 State.issue_offs := K.sub rfl (fun _ h => h)
  refine ⟨_, rfl, ?_⟩
  repeat' (first
    | with_reducible assumption
    | with_reducible (first | apply State.issue_keeps k0)
    | intro _ _ _ _
    | intro _ _ _
    | intro _ _
    | with_reducible (first | apply ite_keeps | apply ite_keeps_pair)
    | dsimp only
    | split)

/-- Registers `execRepi` may write. -/
def execRepi_offs (o : Nat) : Prop :=
  State.issue_offs o

theorem execRepi_keeps {P : State → Prop} (K : Keeps P 0x4c0100014 execRepi_offs) {s : State} (k : Fin 16) (parity : Bool) (hs : P s) :
    ∃ t, (execRepi k parity s) = .next t ∧ P t := by
  have k0 : Keeps P 0x4c0100014 State.issue_offs := K.sub rfl (fun _ h => h)
  refine ⟨_, rfl, ?_⟩
  repeat' (first
    | with_reducible assumption
    | with_reducible (first | apply State.issue_keeps k0)
    | intro _ _ _ _
    | intro _ _ _
    | intro _ _
    | with_reducible (first | apply ite_keeps | apply ite_keeps_pair)
    | dsimp only
    | split)

/-- Registers `execRepr` may write. -/
def execRepr_offs (o : Nat) : Prop :=
  State.issue_offs o

theorem execRepr_keeps {P : State → Prop} (K : Keeps P 0x4c0100014 execRepr_offs) {s : State} (k : Fin 16) (parity : Bool) (hs : P s) :
    ∃ t, (execRepr k parity s) = .next t ∧ P t := by
  have k0 : Keeps P 0x4c0100014 State.issue_offs := K.sub rfl (fun _ h => h)
  refine ⟨_, rfl, ?_⟩
  repeat' (first
    | with_reducible assumption
    | with_reducible (first | apply State.issue_keeps k0)
    | intro _ _ _ _
    | intro _ _ _
    | intro _ _
    | with_reducible (first | apply ite_keeps | apply ite_keeps_pair)
    | dsimp only
    | split)

/-- Registers `execWaitf` may write. -/
def execWaitf_offs (o : Nat) : Prop :=
  State.issue_offs o

theorem execWaitf_keeps {P : State → Prop} (K : Keeps P 0x4c0100014 execWaitf_offs) {s : State} (k : Fin 16) (parity : Bool) (hs : P s) :
    ∃ t, (execWaitf k parity s) = .next t ∧ P t := by
  have k0 : Keeps P 0x4c0100014 State.issue_offs := K.sub rfl (fun _ h => h)
  refine ⟨_, rfl, ?_⟩
  repeat' (first
    | with_reducible assumption
    | with_reducible (first | apply State.issue_keeps k0)
    | intro _ _ _ _
    | intro _ _ _
    | intro _ _
    | with_reducible (first | apply ite_keeps | apply ite_keeps_pair)
    | dsimp only
    | split)

/-- Registers `execRelf` may write. -/
def execRelf_offs (o : Nat) : Prop :=
  State.issue_offs o

theorem execRelf_keeps {P : State → Prop} (K : Keeps P 0x4c0100014 execRelf_offs) {s : State} (k : Fin 16) (parity : Bool) (hs : P s) :
    ∃ t, (execRelf k parity s) = .next t ∧ P t := by
  have k0 : Keeps P 0x4c0100014 State.issue_offs := K.sub rfl (fun _ h => h)
  refine ⟨_, rfl, ?_⟩
  repeat' (first
    | with_reducible assumption
    | with_reducible (first | apply State.issue_keeps k0)
    | intro _ _ _ _
    | intro _ _ _
    | intro _ _
    | with_reducible (first | apply ite_keeps | apply ite_keeps_pair)
    | dsimp only
    | split)

/-- Registers `execOut` may write. -/
def execOut_offs (o : Nat) : Prop :=
  State.issue_offs o

theorem execOut_keeps {P : State → Prop} (K : Keeps P 0x4c0100014 execOut_offs) {s : State} (k : Fin 16) (parity : Bool) (hs : P s) :
    ∃ t, (execOut k parity s) = .next t ∧ P t := by
  have k0 : Keeps P 0x4c0100014 State.issue_offs := K.sub rfl (fun _ h => h)
  refine ⟨_, rfl, ?_⟩
  repeat' (first
    | with_reducible assumption
    | with_reducible (first | apply State.issue_keeps k0)
    | intro _ _ _ _
    | intro _ _ _
    | intro _ _
    | with_reducible (first | apply ite_keeps | apply ite_keeps_pair)
    | dsimp only
    | split)

/-- Registers `execWaito` may write. -/
def execWaito_offs (o : Nat) : Prop :=
  State.issue_offs o

theorem execWaito_keeps {P : State → Prop} (K : Keeps P 0x4c0100014 execWaito_offs) {s : State} (k : Fin 16) (parity : Bool) (hs : P s) :
    ∃ t, (execWaito k parity s) = .next t ∧ P t := by
  have k0 : Keeps P 0x4c0100014 State.issue_offs := K.sub rfl (fun _ h => h)
  refine ⟨_, rfl, ?_⟩
  repeat' (first
    | with_reducible assumption
    | with_reducible (first | apply State.issue_keeps k0)
    | intro _ _ _ _
    | intro _ _ _
    | intro _ _
    | with_reducible (first | apply ite_keeps | apply ite_keeps_pair)
    | dsimp only
    | split)

/-- Registers `execDmar` may write. -/
def execDmar_offs (o : Nat) : Prop :=
  State.issue_offs o

theorem execDmar_keeps {P : State → Prop} (K : Keeps P 0x4c0100014 execDmar_offs) {s : State} (k : Fin 16) (parity : Bool) (hs : P s) :
    ∃ t, (execDmar k parity s) = .next t ∧ P t := by
  have k0 : Keeps P 0x4c0100014 State.issue_offs := K.sub rfl (fun _ h => h)
  refine ⟨_, rfl, ?_⟩
  repeat' (first
    | with_reducible assumption
    | with_reducible (first | apply State.issue_keeps k0)
    | intro _ _ _ _
    | intro _ _ _
    | intro _ _
    | with_reducible (first | apply ite_keeps | apply ite_keeps_pair)
    | dsimp only
    | split)

/-- Registers `execDmaw` may write. -/
def execDmaw_offs (o : Nat) : Prop :=
  State.issue_offs o

theorem execDmaw_keeps {P : State → Prop} (K : Keeps P 0x4c0100014 execDmaw_offs) {s : State} (k : Fin 16) (parity : Bool) (hs : P s) :
    ∃ t, (execDmaw k parity s) = .next t ∧ P t := by
  have k0 : Keeps P 0x4c0100014 State.issue_offs := K.sub rfl (fun _ h => h)
  refine ⟨_, rfl, ?_⟩
  repeat' (first
    | with_reducible assumption
    | with_reducible (first | apply State.issue_keeps k0)
    | intro _ _ _ _
    | intro _ _ _
    | intro _ _
    | with_reducible (first | apply ite_keeps | apply ite_keeps_pair)
    | dsimp only
    | split)

/-- Registers `execWaitd` may write. -/
def execWaitd_offs (o : Nat) : Prop :=
  State.issue_offs o

theorem execWaitd_keeps {P : State → Prop} (K : Keeps P 0x4c0100014 execWaitd_offs) {s : State} (k : Fin 16) (parity : Bool) (hs : P s) :
    ∃ t, (execWaitd k parity s) = .next t ∧ P t := by
  have k0 : Keeps P 0x4c0100014 State.issue_offs := K.sub rfl (fun _ h => h)
  refine ⟨_, rfl, ?_⟩
  repeat' (first
    | with_reducible assumption
    | with_reducible (first | apply State.issue_keeps k0)
    | intro _ _ _ _
    | intro _ _ _
    | intro _ _
    | with_reducible (first | apply ite_keeps | apply ite_keeps_pair)
    | dsimp only
    | split)

/-- Registers `execMovp` may write. -/
def execMovp_offs (o : Nat) : Prop :=
  State.issue_offs o

theorem execMovp_keeps {P : State → Prop} (K : Keeps P 0x4c0100014 execMovp_offs) {s : State} (k : Fin 16) (parity : Bool) (hs : P s) :
    ∃ t, (execMovp k parity s) = .next t ∧ P t := by
  have k0 : Keeps P 0x4c0100014 State.issue_offs := K.sub rfl (fun _ h => h)
  refine ⟨_, rfl, ?_⟩
  repeat' (first
    | with_reducible assumption
    | with_reducible (first | apply State.issue_keeps k0)
    | intro _ _ _ _
    | intro _ _ _
    | intro _ _
    | with_reducible (first | apply ite_keeps | apply ite_keeps_pair)
    | dsimp only
    | split)

/-- Registers `execMvp` may write. -/
def execMvp_offs (o : Nat) : Prop :=
  State.issue_offs o

theorem execMvp_keeps {P : State → Prop} (K : Keeps P 0x4c0100014 execMvp_offs) {s : State} (k : Fin 16) (parity : Bool) (hs : P s) :
    ∃ t, (execMvp k parity s) = .next t ∧ P t := by
  have k0 : Keeps P 0x4c0100014 State.issue_offs := K.sub rfl (fun _ h => h)
  refine ⟨_, rfl, ?_⟩
  repeat' (first
    | with_reducible assumption
    | with_reducible (first | apply State.issue_keeps k0)
    | intro _ _ _ _
    | intro _ _ _
    | intro _ _
    | with_reducible (first | apply ite_keeps | apply ite_keeps_pair)
    | dsimp only
    | split)

/-- Registers `execAddp` may write. -/
def execAddp_offs (o : Nat) : Prop :=
  State.issue_offs o

theorem execAddp_keeps {P : State → Prop} (K : Keeps P 0x4c0100014 execAddp_offs) {s : State} (k : Fin 16) (parity : Bool) (hs : P s) :
    ∃ t, (execAddp k parity s) = .next t ∧ P t := by
  have k0 : Keeps P 0x4c0100014 State.issue_offs := K.sub rfl (fun _ h => h)
  refine ⟨_, rfl, ?_⟩
  repeat' (first
    | with_reducible assumption
    | with_reducible (first | apply State.issue_keeps k0)
    | intro _ _ _ _
    | intro _ _ _
    | intro _ _
    | with_reducible (first | apply ite_keeps | apply ite_keeps_pair)
    | dsimp only
    | split)

/-- Registers `execMts` may write. -/
def execMts_offs (o : Nat) : Prop :=
  State.issue_offs o

theorem execMts_keeps {P : State → Prop} (K : Keeps P 0x4c0100014 execMts_offs) {s : State} (k : Fin 16) (parity : Bool) (hs : P s) :
    ∃ t, (execMts k parity s) = .next t ∧ P t := by
  have k0 : Keeps P 0x4c0100014 State.issue_offs := K.sub rfl (fun _ h => h)
  refine ⟨_, rfl, ?_⟩
  repeat' (first
    | with_reducible assumption
    | with_reducible (first | apply State.issue_keeps k0)
    | intro _ _ _ _
    | intro _ _ _
    | intro _ _
    | with_reducible (first | apply ite_keeps | apply ite_keeps_pair)
    | dsimp only
    | split)

/-- Registers `execMfs` may write. -/
def execMfs_offs (o : Nat) : Prop :=
  State.issue_offs o

theorem execMfs_keeps {P : State → Prop} (K : Keeps P 0x4c0100014 execMfs_offs) {s : State} (k : Fin 16) (parity : Bool) (hs : P s) :
    ∃ t, (execMfs k parity s) = .next t ∧ P t := by
  have k0 : Keeps P 0x4c0100014 State.issue_offs := K.sub rfl (fun _ h => h)
  refine ⟨_, rfl, ?_⟩
  repeat' (first
    | with_reducible assumption
    | with_reducible (first | apply State.issue_keeps k0)
    | intro _ _ _ _
    | intro _ _ _
    | intro _ _
    | with_reducible (first | apply ite_keeps | apply ite_keeps_pair)
    | dsimp only
    | split)

/-- Registers `execSig` may write. -/
def execSig_offs (o : Nat) : Prop :=
  State.issue_offs o ∨ State.signal_offs o

theorem execSig_keeps {P : State → Prop} (K : Keeps P 0x4c0100014 execSig_offs) {s : State} (k : Fin 16) (parity : Bool) (hs : P s) :
    ∃ t, (execSig k parity s) = .next t ∧ P t := by
  have k0 : Keeps P 0x4c0100014 State.issue_offs := K.sub rfl (fun _ h => .inl h)
  have k1 : Keeps P 0x440000010 State.signal_offs := K.sub rfl (fun _ h => .inr (h))
  refine ⟨_, rfl, ?_⟩
  repeat' (first
    | with_reducible assumption
    | with_reducible (first | apply State.issue_keeps k0 | apply State.signal_keeps k1)
    | intro _ _ _ _
    | intro _ _ _
    | intro _ _
    | with_reducible (first | apply ite_keeps | apply ite_keeps_pair)
    | dsimp only
    | split)

/-- Registers `execHalt` may write. -/
def execHalt_offs (o : Nat) : Prop :=
  State.issue_offs o

theorem execHalt_keeps {P : State → Prop} (K : Keeps P 0x4c0100014 execHalt_offs) {s : State} (k : Fin 16) (parity : Bool) (hs : P s) :
    ∃ t, (execHalt k parity s) = .next t ∧ P t := by
  have k0 : Keeps P 0x4c0100014 State.issue_offs := K.sub rfl (fun _ h => h)
  refine ⟨_, rfl, ?_⟩
  repeat' (first
    | with_reducible assumption
    | with_reducible (first | apply State.issue_keeps k0)
    | intro _ _ _ _
    | intro _ _ _
    | intro _ _
    | with_reducible (first | apply ite_keeps | apply ite_keeps_pair)
    | dsimp only
    | split)

/-- Registers `execReservedOpcode` may write. -/
def execReservedOpcode_offs (o : Nat) : Prop :=
  State.issue_offs o

theorem execReservedOpcode_keeps {P : State → Prop} (K : Keeps P 0x4c0100014 execReservedOpcode_offs) {s : State} (k : Fin 16) (parity : Bool) (hs : P s) :
    ∃ t, (execReservedOpcode k parity s) = .next t ∧ P t := by
  have k0 : Keeps P 0x4c0100014 State.issue_offs := K.sub rfl (fun _ h => h)
  unfold execReservedOpcode
  dsimp only
  first
    | refine ⟨_, rfl, ?_⟩
    | (split <;> refine ⟨_, rfl, ?_⟩)
  repeat' (first
    | with_reducible assumption
    | with_reducible (first | apply State.issue_keeps k0)
    | intro _ _ _ _
    | intro _ _ _
    | intro _ _
    | with_reducible (first | apply ite_keeps | apply ite_keeps_pair)
    | dsimp only
    | split)

end Sys2Proof.Machine
end

