-- ==== Sys2Proof/Laws/KStore.lean ====
section
/-!
SUPPORT. What the operations of Sys2Proof.Machine.Store keep, and the registers they may write.
-/
namespace Sys2Proof.Machine

/-- Registers `State.storeWord` may write. -/
def State.storeWord_offs (_o : Nat) : Prop :=
  True

theorem State.storeWord_keeps {P : State → Prop} (K : Keeps P 0x0 State.storeWord_offs) {s : State} (off : Nat) (w : Word) (hs : P s) :
    P (State.storeWord s off w) := by
  have ra : ∀ o s w, P s → P (State.setReg s o w) := fun o => K.reg o trivial
  unfold State.storeWord
  repeat' (first
    | with_reducible assumption
    | with_reducible (first | apply bump_keeps | apply setNat_keeps | apply setReg_keeps)
    | with_reducible exact ra _
    | intro _ _ _ _
    | intro _ _ _
    | intro _ _
    | with_reducible (first | apply ite_keeps | apply ite_keeps_pair)
    | dsimp only
    | split
    | with_reducible (first | apply ra))

end Sys2Proof.Machine
end

