-- ==== Sys2Proof/Laws/KDram.lean ====
section
/-!
SUPPORT. What the operations of Sys2Proof.Machine.Dram keep, and the registers they may write.
-/
namespace Sys2Proof.Machine

/-- Registers `State.failXfers` may write. -/
def State.failXfers_offs (o : Nat) : Prop :=
  State.wake_offs o

theorem State.failXfers_keeps {P : State → Prop} (K : Keeps P 0x4c0100014 State.failXfers_offs) {s : State} (k : Nat) (hs : P s) :
    P (State.failXfers s k) := by
  have k0 : Keeps P 0x100000 (fun _ => False) := K.sub rfl (fun _ h => h.elim)
  have k1 : Keeps P 0x4c0100014 State.wake_offs := K.sub rfl (fun _ h => h)
  unfold State.failXfers
  repeat' (first
    | with_reducible assumption
    | with_reducible (first | apply State.setCore_keeps k0 | apply State.wake_keeps k1)
    | intro _ _ _ _
    | intro _ _ _
    | intro _ _
    | with_reducible (first | apply ite_keeps | apply ite_keeps_pair)
    | dsimp only
    | split)

/-- Registers `State.dramClientsFail` may write. -/
def State.dramClientsFail_offs (o : Nat) : Prop :=
  o = BLT_STATUS.reg ∨ o = BRL_STATUS.reg ∨ State.failXfers_offs o ∨ State.trgFail_offs o

theorem State.dramClientsFail_keeps {P : State → Prop} (K : Keeps P 0x4c010a014 State.dramClientsFail_offs) {s : State} (hs : P s) :
    P (State.dramClientsFail s) := by
  have k0 : Keeps P 0x4c0100014 State.failXfers_offs := K.sub rfl (fun _ h => .inr (.inr (.inl h)))
  have k1 : Keeps P 0x8000 State.trgFail_offs := K.sub rfl (fun _ h => .inr (.inr (.inr (h))))
  have r0 := K.reg (BLT_STATUS.reg) (.inl rfl)
  have r1 := K.reg (BRL_STATUS.reg) (.inr (.inl rfl))
  have t13 : ∀ (s : State) v, P s → P (s.putBrl v) := K.upd 13 rfl
  unfold State.dramClientsFail
  repeat' (first
    | with_reducible assumption
    | with_reducible (first | apply State.failXfers_keeps k0 | apply State.trgFail_keeps k1 | apply setFlag_keeps | apply foldl_keeps | apply foldl_keeps_pair | apply t13)
    | with_reducible exact r0
    | with_reducible exact r1
    | intro _ _ _ _
    | intro _ _ _
    | intro _ _
    | with_reducible (first | apply ite_keeps | apply ite_keeps_pair)
    | dsimp only
    | split
    | with_reducible (first | apply r0 | apply r1))

/-- Registers `State.voidReads` may write. -/
def State.voidReads_offs (o : Nat) : Prop :=
  o = DMC_BAR2_VOID_COUNT.reg

theorem State.voidReads_keeps {P : State → Prop} (K : Keeps P 0x32000000 State.voidReads_offs) {s : State} (hs : P s) :
    P (State.voidReads s) := by
  have r0 := K.reg (DMC_BAR2_VOID_COUNT.reg) (rfl)
  have t25 : ∀ (s : State) v, P s → P (s.putDmc v) := K.upd 25 rfl
  have t28 : ∀ (s : State) v, P s → P (s.putRdData v) := K.upd 28 rfl
  have t29 : ∀ (s : State) v, P s → P (s.putRdData2 v) := K.upd 29 rfl
  unfold State.voidReads
  repeat' (first
    | with_reducible assumption
    | with_reducible (first | apply addReg_keeps | apply t25 | apply t28 | apply t29)
    | with_reducible exact r0
    | intro _ _ _ _
    | intro _ _ _
    | intro _ _
    | with_reducible (first | apply ite_keeps | apply ite_keeps_pair)
    | dsimp only
    | split
    | with_reducible (first | apply r0))

/-- Registers `State.dramFreeze` may write. -/
def State.dramFreeze_offs (o : Nat) : Prop :=
  o = DMC_FREEZE_ADDR_LO.reg ∨ o = DMC_FREEZE_ADDR_LO.reg + 4 ∨ o = DMC_FREEZE_INFO.reg ∨ o = DMC_STATUS.reg ∨
    State.diagEvent_offs o ∨ State.dramClientsFail_offs o ∨ State.raiseEvent_offs o ∨ State.settle_offs o ∨
    State.voidReads_offs o

theorem State.dramFreeze_keeps {P : State → Prop} (K : Keeps P 0x4f210e7f4 State.dramFreeze_offs) {s : State} (client : Nat) (a : Nat) (syndrome : Nat) (hs : P s) :
    P (State.dramFreeze s client a syndrome) := by
  have k0 : Keeps P 0x4c010c7f4 State.diagEvent_offs := K.sub rfl (fun _ h => .inr (.inr (.inr (.inr (.inl h)))))
  have k1 : Keeps P 0x4c010a014 State.dramClientsFail_offs := K.sub rfl (fun _ h => .inr (.inr (.inr (.inr (.inr (.inl h))))))
  have k2 : Keeps P 0x440000010 State.raiseEvent_offs := K.sub rfl (fun _ h => .inr (.inr (.inr (.inr (.inr (.inr (.inl h)))))))
  have k3 : Keeps P 0x440000070 State.settle_offs := K.sub rfl (fun _ h => .inr (.inr (.inr (.inr (.inr (.inr (.inr (.inl h))))))))
  have k4 : Keeps P 0x32000000 State.voidReads_offs := K.sub rfl (fun _ h => .inr (.inr (.inr (.inr (.inr (.inr (.inr (.inr (h)))))))))
  have k5 : Keeps P 0x4 (fun _ => False) := K.sub rfl (fun _ h => h.elim)
  have r0 := K.reg (DMC_FREEZE_ADDR_LO.reg) (.inl rfl)
  have r1 := K.reg (DMC_FREEZE_ADDR_LO.reg + 4) (.inr (.inl rfl))
  have r2 := K.reg (DMC_FREEZE_INFO.reg) (.inr (.inr (.inl rfl)))
  have r3 := K.reg (DMC_STATUS.reg) (.inr (.inr (.inr (.inl rfl))))
  have t2 : ∀ (s : State) v, (v.dev = s.ctl.dev ∨ ¬ s.ctl.dev = .safe) → P s → P (s.putCtl v) := K.upd 2 rfl
  unfold State.dramFreeze
  repeat' (first
    | with_reducible assumption
    | with_reducible (first | apply State.diagEvent_keeps k0 | apply State.dramClientsFail_keeps k1 | apply State.raiseEvent_keeps k2 | apply State.settle_keeps k3 | apply State.voidReads_keeps k4 | apply State.withDeg_keeps k5 | apply setFld_keeps | apply setNat_keeps | apply setReg64_keeps | apply t2)
    | with_reducible exact r0
    | with_reducible exact r1
    | with_reducible exact r2
    | with_reducible exact r3
    | with_reducible exact Or.inl rfl
    | exact Or.inr (by assumption)
    | intro _ _ _ _
    | intro _ _ _
    | intro _ _
    | with_reducible (first | apply ite_keeps | apply ite_keeps_pair)
    | dsimp only
    | split
    | with_reducible (first | apply r0 | apply r1 | apply r2 | apply r3))

/-- Registers `State.dramCorrected` may write. -/
def State.dramCorrected_offs (o : Nat) : Prop :=
  o = DMC_ECC_CE_ADDR_LO.reg ∨ o = DMC_ECC_CE_ADDR_LO.reg + 4 ∨ o = DMC_ECC_CE_COUNT.reg ∨ State.diagEvent_offs o ∨
    State.raiseEvent_offs o

theorem State.dramCorrected_keeps {P : State → Prop} (K : Keeps P 0x4c210c7f4 State.dramCorrected_offs) {s : State} (a : Nat) (hs : P s) :
    P (State.dramCorrected s a) := by
  have k0 : Keeps P 0x4c010c7f4 State.diagEvent_offs := K.sub rfl (fun _ h => .inr (.inr (.inr (.inl h))))
  have k1 : Keeps P 0x440000010 State.raiseEvent_offs := K.sub rfl (fun _ h => .inr (.inr (.inr (.inr (h)))))
  have r0 := K.reg (DMC_ECC_CE_ADDR_LO.reg) (.inl rfl)
  have r1 := K.reg (DMC_ECC_CE_ADDR_LO.reg + 4) (.inr (.inl rfl))
  have r2 := K.reg (DMC_ECC_CE_COUNT.reg) (.inr (.inr (.inl rfl)))
  have t25 : ∀ (s : State) v, P s → P (s.putDmc v) := K.upd 25 rfl
  unfold State.dramCorrected
  repeat' (first
    | with_reducible assumption
    | with_reducible (first | apply State.diagEvent_keeps k0 | apply State.raiseEvent_keeps k1 | apply bump_keeps | apply setReg64_keeps | apply t25)
    | with_reducible exact r0
    | with_reducible exact r1
    | with_reducible exact r2
    | intro _ _ _ _
    | intro _ _ _
    | intro _ _
    | with_reducible (first | apply ite_keeps | apply ite_keeps_pair)
    | dsimp only
    | split
    | with_reducible (first | apply r0 | apply r1 | apply r2))

theorem State.dramUpset_keeps {P : State → Prop} (K : Keeps P 0x2000000 (fun _ => False)) {s : State} (ups : DramUpsets) (hs : P s) :
    P (State.dramUpset s ups) := by
  have t25 : ∀ (s : State) v, P s → P (s.putDmc v) := K.upd 25 rfl
  unfold State.dramUpset
  repeat' (first
    | with_reducible assumption
    | with_reducible (first | apply foldl_keeps | apply foldl_keeps_pair | apply t25)
    | intro _ _ _ _
    | intro _ _ _
    | intro _ _
    | with_reducible (first | apply ite_keeps | apply ite_keeps_pair)
    | dsimp only
    | split)

/-- Registers `State.dramRead` may write. -/
def State.dramRead_offs (o : Nat) : Prop :=
  State.dramCorrected_offs o ∨ State.dramFreeze_offs o

theorem State.dramRead_keeps {P : State → Prop} (K : Keeps P 0x4f210e7f4 State.dramRead_offs) {s : State} (client : Nat) (a : Nat) (n : Nat) (hs : P s) :
    P (State.dramRead s client a n).1 := by
  have k0 : Keeps P 0x4c210c7f4 State.dramCorrected_offs := K.sub rfl (fun _ h => .inl h)
  have k1 : Keeps P 0x4f210e7f4 State.dramFreeze_offs := K.sub rfl (fun _ h => .inr (h))
  unfold State.dramRead
  repeat' (first
    | with_reducible assumption
    | with_reducible (first | apply State.dramCorrected_keeps k0 | apply State.dramFreeze_keeps k1 | apply foldl_keeps | apply foldl_keeps_pair)
    | intro _ _ _ _
    | intro _ _ _
    | intro _ _
    | with_reducible (first | apply ite_keeps | apply ite_keeps_pair)
    | dsimp only
    | split)

/-- Registers `State.readAfterWrite` may write. -/
def State.readAfterWrite_offs (o : Nat) : Prop :=
  o = DMC_RAW_WAIT_COUNT.reg

theorem State.readAfterWrite_keeps {P : State → Prop} (K : Keeps P 0x2000000 State.readAfterWrite_offs) {s : State} (blocks : List Nat) (hs : P s) :
    P (State.readAfterWrite s blocks) := by
  have r0 := K.reg (DMC_RAW_WAIT_COUNT.reg) (rfl)
  have t25 : ∀ (s : State) v, P s → P (s.putDmc v) := K.upd 25 rfl
  unfold State.readAfterWrite
  repeat' (first
    | with_reducible assumption
    | with_reducible (first | apply bump_keeps | apply t25)
    | with_reducible exact r0
    | intro _ _ _ _
    | intro _ _ _
    | intro _ _
    | with_reducible (first | apply ite_keeps | apply ite_keeps_pair)
    | dsimp only
    | split
    | with_reducible (first | apply r0))

/-- Registers `State.countLate` may write. -/
def State.countLate_offs (o : Nat) : Prop :=
  (∃ n, o = DMC_CLIENT_OVERRUN_COUNT.reg n)

theorem State.countLate_keeps {P : State → Prop} (K : Keeps P 0x0 State.countLate_offs) {s : State} (r : DramReq) (hs : P s) :
    P (State.countLate s r) := by
  have r0 := fun n => K.reg (DMC_CLIENT_OVERRUN_COUNT.reg n) (⟨n, rfl⟩)
  unfold State.countLate
  repeat' (first
    | with_reducible assumption
    | with_reducible (first | apply bump_keeps)
    | with_reducible exact r0 _
    | intro _ _ _ _
    | intro _ _ _
    | intro _ _
    | with_reducible (first | apply ite_keeps | apply ite_keeps_pair)
    | dsimp only
    | split
    | with_reducible (first | apply r0))

theorem State.bar2Data_keeps {P : State → Prop} (K : Keeps P 0x30000000 (fun _ => False)) {s : State} (a : Nat) (n : Nat) (hs : P s) :
    P (State.bar2Data s a n) := by
  have t28 : ∀ (s : State) v, P s → P (s.putRdData v) := K.upd 28 rfl
  have t29 : ∀ (s : State) v, P s → P (s.putRdData2 v) := K.upd 29 rfl
  unfold State.bar2Data
  repeat' (first
    | with_reducible assumption
    | with_reducible (first | apply t28 | apply t29)
    | intro _ _ _ _
    | intro _ _ _
    | intro _ _
    | with_reducible (first | apply ite_keeps | apply ite_keeps_pair)
    | dsimp only
    | split)

theorem State.bar2None_keeps {P : State → Prop} (K : Keeps P 0xb0000000 (fun _ => False)) {s : State} (n : Nat) (hs : P s) :
    P (State.bar2None s n) := by
  have k0 : Keeps P 0x80000000 (fun _ => False) := K.sub rfl (fun _ h => h.elim)
  have t28 : ∀ (s : State) v, P s → P (s.putRdData v) := K.upd 28 rfl
  have t29 : ∀ (s : State) v, P s → P (s.putRdData2 v) := K.upd 29 rfl
  unfold State.bar2None
  repeat' (first
    | with_reducible assumption
    | with_reducible (first | apply State.drawFree_keeps k0 | apply t28 | apply t29)
    | intro _ _ _ _
    | intro _ _ _
    | intro _ _
    | with_reducible (first | apply ite_keeps | apply ite_keeps_pair)
    | dsimp only
    | split)

/-- Registers `State.serveReq` may write. -/
def State.serveReq_offs (o : Nat) : Prop :=
  State.countLate_offs o ∨ State.dramRead_offs o ∨ State.readAfterWrite_offs o

theorem State.serveReq_keeps {P : State → Prop} (K : Keeps P 0x4f310e7f4 State.serveReq_offs) {s : State} (r : DramReq) (hs : P s) :
    P (State.serveReq s r) := by
  have k0 : Keeps P 0x30000000 (fun _ => False) := K.sub rfl (fun _ h => h.elim)
  have k1 : Keeps P 0xb0000000 (fun _ => False) := K.sub rfl (fun _ h => h.elim)
  have k2 : Keeps P 0x0 State.countLate_offs := K.sub rfl (fun _ h => .inl h)
  have k3 : Keeps P 0x4f210e7f4 State.dramRead_offs := K.sub rfl (fun _ h => .inr (.inl h))
  have k4 : Keeps P 0x2000000 State.readAfterWrite_offs := K.sub rfl (fun _ h => .inr (.inr (h)))
  have k5 : Keeps P 0x3000000 (fun _ => False) := K.sub rfl (fun _ h => h.elim)
  have t25 : ∀ (s : State) v, P s → P (s.putDmc v) := K.upd 25 rfl
  unfold State.serveReq
  repeat' (first
    | with_reducible assumption
    | with_reducible (first | apply State.bar2Data_keeps k0 | apply State.bar2None_keeps k1 | apply State.countLate_keeps k2 | apply State.dramRead_keeps k3 | apply State.readAfterWrite_keeps k4 | apply State.setDram_keeps k5 | apply t25)
    | (apply fst_keeps (by assumption))
    | intro _ _ _ _
    | intro _ _ _
    | intro _ _
    | with_reducible (first | apply ite_keeps | apply ite_keeps_pair)
    | dsimp only
    | split)

/-- Registers `State.serveOne` may write. -/
def State.serveOne_offs (o : Nat) : Prop :=
  State.serveReq_offs o

theorem State.serveOne_keeps {P : State → Prop} (K : Keeps P 0x4f310e7f4 State.serveOne_offs) {s : State} (hs : P s) :
    P (State.serveOne s) := by
  have k0 : Keeps P 0x4f310e7f4 State.serveReq_offs := K.sub rfl (fun _ h => h)
  have t25 : ∀ (s : State) v, P s → P (s.putDmc v) := K.upd 25 rfl
  unfold State.serveOne
  repeat' (first
    | with_reducible assumption
    | with_reducible (first | apply State.serveReq_keeps k0 | apply t25)
    | intro _ _ _ _
    | intro _ _ _
    | intro _ _
    | with_reducible (first | apply ite_keeps | apply ite_keeps_pair)
    | dsimp only
    | split)

theorem State.arrive_keeps {P : State → Prop} (K : Keeps P 0x2000000 (fun _ => False)) {s : State} (client : Nat) (a : Nat) (op : DramOp) (hs : P s) :
    P (State.arrive s client a op) := by
  have t25 : ∀ (s : State) v, P s → P (s.putDmc v) := K.upd 25 rfl
  unfold State.arrive
  repeat' (first
    | with_reducible assumption
    | with_reducible (first | apply t25)
    | intro _ _ _ _
    | intro _ _ _
    | intro _ _
    | with_reducible (first | apply ite_keeps | apply ite_keeps_pair)
    | dsimp only
    | split)

/-- Registers `execDramRequest` may write. -/
def execDramRequest_offs (o : Nat) : Prop :=
  State.serveOne_offs o

theorem execDramRequest_keeps {P : State → Prop} (K : Keeps P 0x4f310e7f4 execDramRequest_offs) {s : State} (req : Option (Fin 7 × Nat × DramOp)) (ups : DramUpsets) (hs : P s) :
    ∃ t, (execDramRequest req ups s) = .next t ∧ P t := by
  have k0 : Keeps P 0x2000000 (fun _ => False) := K.sub rfl (fun _ h => h.elim)
  have k1 : Keeps P 0x2000000 (fun _ => False) := K.sub rfl (fun _ h => h.elim)
  have k2 : Keeps P 0x4f310e7f4 State.serveOne_offs := K.sub rfl (fun _ h => h)
  refine ⟨_, rfl, ?_⟩
  repeat' (first
    | with_reducible assumption
    | with_reducible (first | apply State.arrive_keeps k0 | apply State.dramUpset_keeps k1 | apply State.serveOne_keeps k2)
    | intro _ _ _ _
    | intro _ _ _
    | intro _ _
    | with_reducible (first | apply ite_keeps | apply ite_keeps_pair)
    | dsimp only
    | split)

/-- Registers `execBar2Promotion` may write. -/
def execBar2Promotion_offs (o : Nat) : Prop :=
  (∃ n, o = DMC_CLIENT_OVERRUN_COUNT.reg n)

theorem execBar2Promotion_keeps {P : State → Prop} (K : Keeps P 0x2000000 execBar2Promotion_offs) {s : State} (hs : P s) :
    ∃ t, (execBar2Promotion s) = .next t ∧ P t := by
  have r0 := fun n => K.reg (DMC_CLIENT_OVERRUN_COUNT.reg n) (⟨n, rfl⟩)
  have t25 : ∀ (s : State) v, P s → P (s.putDmc v) := K.upd 25 rfl
  refine ⟨_, rfl, ?_⟩
  repeat' (first
    | with_reducible assumption
    | with_reducible (first | apply bump_keeps | apply t25)
    | with_reducible exact r0 _
    | intro _ _ _ _
    | intro _ _ _
    | intro _ _
    | with_reducible (first | apply ite_keeps | apply ite_keeps_pair)
    | dsimp only
    | split
    | with_reducible (first | apply r0))

/-- Registers `execDramRefresh` may write. -/
def execDramRefresh_offs (o : Nat) : Prop :=
  o = DMC_REFRESH_POSTPONE_COUNT.reg

theorem execDramRefresh_keeps {P : State → Prop} (K : Keeps P 0x2000000 execDramRefresh_offs) {s : State} (ch : Fin 4) (pair : Fin 8) (issued : Fin 10) (hs : P s) :
    ∃ t, (execDramRefresh ch pair issued s) = .next t ∧ P t := by
  have r0 := K.reg (DMC_REFRESH_POSTPONE_COUNT.reg) (rfl)
  have t25 : ∀ (s : State) v, P s → P (s.putDmc v) := K.upd 25 rfl
  refine ⟨_, rfl, ?_⟩
  repeat' (first
    | with_reducible assumption
    | with_reducible (first | apply bump_keeps | apply t25)
    | with_reducible exact r0
    | intro _ _ _ _
    | intro _ _ _
    | intro _ _
    | with_reducible (first | apply ite_keeps | apply ite_keeps_pair)
    | dsimp only
    | split
    | with_reducible (first | apply r0))

/-- Registers `State.fspBegin` may write. -/
def State.fspBegin_offs (o : Nat) : Prop :=
  o = DMC_STATUS.reg

theorem State.fspBegin_keeps {P : State → Prop} (K : Keeps P 0x2000000 State.fspBegin_offs) {s : State} (hs : P s) :
    P (State.fspBegin s) := by
  have r0 := K.reg (DMC_STATUS.reg) (rfl)
  have t25 : ∀ (s : State) v, P s → P (s.putDmc v) := K.upd 25 rfl
  unfold State.fspBegin
  repeat' (first
    | with_reducible assumption
    | with_reducible (first | apply setFlag_keeps | apply setFld_keeps | apply t25)
    | with_reducible exact r0
    | intro _ _ _ _
    | intro _ _ _
    | intro _ _
    | with_reducible (first | apply ite_keeps | apply ite_keeps_pair)
    | dsimp only
    | split
    | with_reducible (first | apply r0))

/-- Registers `State.fspDeferred` may write. -/
def State.fspDeferred_offs (o : Nat) : Prop :=
  State.fspBegin_offs o

theorem State.fspDeferred_keeps {P : State → Prop} (K : Keeps P 0x2000000 State.fspDeferred_offs) {s : State} (hs : P s) :
    P (State.fspDeferred s) := by
  have k0 : Keeps P 0x2000000 State.fspBegin_offs := K.sub rfl (fun _ h => h)
  unfold State.fspDeferred
  repeat' (first
    | with_reducible assumption
    | with_reducible (first | apply State.fspBegin_keeps k0)
    | intro _ _ _ _
    | intro _ _ _
    | intro _ _
    | with_reducible (first | apply ite_keeps | apply ite_keeps_pair)
    | dsimp only
    | split)

/-- Registers `State.fspMake` may write. -/
def State.fspMake_offs (o : Nat) : Prop :=
  o = DMC_STATUS.reg

theorem State.fspMake_keeps {P : State → Prop} (K : Keeps P 0x0 State.fspMake_offs) {s : State} (hs : P s) :
    P (State.fspMake s) := by
  have r0 := K.reg (DMC_STATUS.reg) (rfl)
  unfold State.fspMake
  repeat' (first
    | with_reducible assumption
    | with_reducible (first | apply setFld_keeps)
    | with_reducible exact r0
    | intro _ _ _ _
    | intro _ _ _
    | intro _ _
    | with_reducible (first | apply ite_keeps | apply ite_keeps_pair)
    | dsimp only
    | split
    | with_reducible (first | apply r0))

/-- Registers `execFspChange` may write. -/
def execFspChange_offs (o : Nat) : Prop :=
  State.fspMake_offs o

theorem execFspChange_keeps {P : State → Prop} (K : Keeps P 0x0 execFspChange_offs) {s : State} (hs : P s) :
    ∃ t, (execFspChange s) = .next t ∧ P t := by
  have k0 : Keeps P 0x0 State.fspMake_offs := K.sub rfl (fun _ h => h)
  refine ⟨_, rfl, ?_⟩
  repeat' (first
    | with_reducible assumption
    | with_reducible (first | apply State.fspMake_keeps k0)
    | intro _ _ _ _
    | intro _ _ _
    | intro _ _
    | with_reducible (first | apply ite_keeps | apply ite_keeps_pair)
    | dsimp only
    | split)

/-- Registers `State.fspRequest` may write. -/
def State.fspRequest_offs (o : Nat) : Prop :=
  o = DMC_FSP_DEFER_COUNT.reg ∨ o = DMC_STATUS.reg ∨ State.fspBegin_offs o

theorem State.fspRequest_keeps {P : State → Prop} (K : Keeps P 0x2000000 State.fspRequest_offs) {s : State} (hs : P s) :
    P (State.fspRequest s) := by
  have k0 : Keeps P 0x2000000 State.fspBegin_offs := K.sub rfl (fun _ h => .inr (.inr (h)))
  have r0 := K.reg (DMC_FSP_DEFER_COUNT.reg) (.inl rfl)
  have r1 := K.reg (DMC_STATUS.reg) (.inr (.inl rfl))
  unfold State.fspRequest
  repeat' (first
    | with_reducible assumption
    | with_reducible (first | apply State.fspBegin_keeps k0 | apply bump_keeps | apply setFlag_keeps)
    | with_reducible exact r0
    | with_reducible exact r1
    | intro _ _ _ _
    | intro _ _ _
    | intro _ _
    | with_reducible (first | apply ite_keeps | apply ite_keeps_pair)
    | dsimp only
    | split
    | with_reducible (first | apply r0 | apply r1))

theorem execDramRetrain_keeps {P : State → Prop} (K : Keeps P 0x2000000 (fun _ => False)) {s : State} (ch : Fin 4) (temp : Int) (hs : P s) :
    ∃ t, (execDramRetrain ch temp s) = .next t ∧ P t := by
  have t25 : ∀ (s : State) v, P s → P (s.putDmc v) := K.upd 25 rfl
  refine ⟨_, rfl, ?_⟩
  repeat' (first
    | with_reducible assumption
    | with_reducible (first | apply t25)
    | intro _ _ _ _
    | intro _ _ _
    | intro _ _
    | with_reducible (first | apply ite_keeps | apply ite_keeps_pair)
    | dsimp only
    | split)

/-- Registers `State.dramTick` may write. -/
def State.dramTick_offs (o : Nat) : Prop :=
  o = DMC_STATUS.reg ∨ State.fspDeferred_offs o

theorem State.dramTick_keeps {P : State → Prop} (K : Keeps P 0x82000000 State.dramTick_offs) {s : State} (hs : P s) :
    P (State.dramTick s) := by
  have k0 : Keeps P 0x80000000 (fun _ => False) := K.sub rfl (fun _ h => h.elim)
  have k1 : Keeps P 0x2000000 State.fspDeferred_offs := K.sub rfl (fun _ h => .inr (h))
  have r0 := K.reg (DMC_STATUS.reg) (.inl rfl)
  have t25 : ∀ (s : State) v, P s → P (s.putDmc v) := K.upd 25 rfl
  unfold State.dramTick
  repeat' (first
    | with_reducible assumption
    | with_reducible (first | apply State.drawFree_keeps k0 | apply State.fspDeferred_keeps k1 | apply setFld_keeps | apply t25)
    | with_reducible exact r0
    | intro _ _ _ _
    | intro _ _ _
    | intro _ _
    | with_reducible (first | apply ite_keeps | apply ite_keeps_pair)
    | dsimp only
    | split
    | with_reducible (first | apply r0))

/-- Registers `execSelfRefreshEntry` may write. -/
def execSelfRefreshEntry_offs (o : Nat) : Prop :=
  o = DMC_SR_ENTRY_COUNT.reg ∨ o = DMC_STATUS.reg

theorem execSelfRefreshEntry_keeps {P : State → Prop} (K : Keeps P 0x2000000 execSelfRefreshEntry_offs) {s : State} (hs : P s) :
    ∃ t, (execSelfRefreshEntry s) = .next t ∧ P t := by
  have r0 := K.reg (DMC_SR_ENTRY_COUNT.reg) (.inl rfl)
  have r1 := K.reg (DMC_STATUS.reg) (.inr (rfl))
  have t25 : ∀ (s : State) v, P s → P (s.putDmc v) := K.upd 25 rfl
  refine ⟨_, rfl, ?_⟩
  repeat' (first
    | with_reducible assumption
    | with_reducible (first | apply bump_keeps | apply setFld_keeps | apply t25)
    | with_reducible exact r0
    | with_reducible exact r1
    | intro _ _ _ _
    | intro _ _ _
    | intro _ _
    | with_reducible (first | apply ite_keeps | apply ite_keeps_pair)
    | dsimp only
    | split
    | with_reducible (first | apply r0 | apply r1))

/-- Registers `execSelfRefreshExit` may write. -/
def execSelfRefreshExit_offs (o : Nat) : Prop :=
  o = DMC_SR_WAKE_WAIT_COUNT.reg ∨ o = DMC_STATUS.reg ∨ State.fspDeferred_offs o

theorem execSelfRefreshExit_keeps {P : State → Prop} (K : Keeps P 0x2000000 execSelfRefreshExit_offs) {s : State} (waited : Nat) (hs : P s) :
    ∃ t, (execSelfRefreshExit waited s) = .next t ∧ P t := by
  have k0 : Keeps P 0x2000000 State.fspDeferred_offs := K.sub rfl (fun _ h => .inr (.inr (h)))
  have r0 := K.reg (DMC_SR_WAKE_WAIT_COUNT.reg) (.inl rfl)
  have r1 := K.reg (DMC_STATUS.reg) (.inr (.inl rfl))
  refine ⟨_, rfl, ?_⟩
  repeat' (first
    | with_reducible assumption
    | with_reducible (first | apply State.fspDeferred_keeps k0 | apply addReg_keeps | apply setFld_keeps)
    | with_reducible exact r0
    | with_reducible exact r1
    | intro _ _ _ _
    | intro _ _ _
    | intro _ _
    | with_reducible (first | apply ite_keeps | apply ite_keeps_pair)
    | dsimp only
    | split
    | with_reducible (first | apply r0 | apply r1))

/-- Registers `execScrubRead` may write. -/
def execScrubRead_offs (o : Nat) : Prop :=
  (∃ n, o = DMC_CLIENT_OVERRUN_COUNT.reg n) ∨ State.serveOne_offs o

theorem execScrubRead_keeps {P : State → Prop} (K : Keeps P 0x4f310e7f4 execScrubRead_offs) {s : State} (a : Nat) (ups : DramUpsets) (late : Bool) (hs : P s) :
    ∃ t, (execScrubRead a ups late s) = .next t ∧ P t := by
  have k0 : Keeps P 0x2000000 (fun _ => False) := K.sub rfl (fun _ h => h.elim)
  have k1 : Keeps P 0x2000000 (fun _ => False) := K.sub rfl (fun _ h => h.elim)
  have k2 : Keeps P 0x4f310e7f4 State.serveOne_offs := K.sub rfl (fun _ h => .inr (h))
  have r0 := fun n => K.reg (DMC_CLIENT_OVERRUN_COUNT.reg n) (.inl ⟨n, rfl⟩)
  refine ⟨_, rfl, ?_⟩
  repeat' (first
    | with_reducible assumption
    | with_reducible (first | apply State.arrive_keeps k0 | apply State.dramUpset_keeps k1 | apply State.serveOne_keeps k2 | apply bump_keeps)
    | with_reducible exact r0 _
    | intro _ _ _ _
    | intro _ _ _
    | intro _ _
    | with_reducible (first | apply ite_keeps | apply ite_keeps_pair)
    | dsimp only
    | split
    | with_reducible (first | apply r0))

/-- Registers `State.writeDmcCfg` may write. -/
def State.writeDmcCfg_offs (o : Nat) : Prop :=
  o = DMC_CFG.reg ∨ State.fspRequest_offs o ∨ State.storeWord_offs o

theorem State.writeDmcCfg_keeps {P : State → Prop} (K : Keeps P 0x2000000 State.writeDmcCfg_offs) {s : State} (w : Word) (hs : P s) :
    P (State.writeDmcCfg s w) := by
  have k0 : Keeps P 0x2000000 State.fspRequest_offs := K.sub rfl (fun _ h => .inr (.inl h))
  have k1 : Keeps P 0x0 State.storeWord_offs := K.sub rfl (fun _ h => .inr (.inr (h)))
  have r0 := K.reg (DMC_CFG.reg) (.inl rfl)
  unfold State.writeDmcCfg
  repeat' (first
    | with_reducible assumption
    | with_reducible (first | apply State.fspRequest_keeps k0 | apply State.storeWord_keeps k1)
    | with_reducible exact r0
    | intro _ _ _ _
    | intro _ _ _
    | intro _ _
    | with_reducible (first | apply ite_keeps | apply ite_keeps_pair)
    | dsimp only
    | split
    | with_reducible (first | apply r0))

/-- Registers `execFspWrite` may write. -/
def execFspWrite_offs (o : Nat) : Prop :=
  State.writeDmcCfg_offs o

theorem execFspWrite_keeps {P : State → Prop} (K : Keeps P 0x2000000 execFspWrite_offs) {s : State} (w : Word) (hs : P s) :
    ∃ t, (execFspWrite w s) = .next t ∧ P t := by
  have k0 : Keeps P 0x2000000 State.writeDmcCfg_offs := K.sub rfl (fun _ h => h)
  refine ⟨_, rfl, ?_⟩
  repeat' (first
    | with_reducible assumption
    | with_reducible (first | apply State.writeDmcCfg_keeps k0)
    | intro _ _ _ _
    | intro _ _ _
    | intro _ _
    | with_reducible (first | apply ite_keeps | apply ite_keeps_pair)
    | dsimp only
    | split)

/-- Registers `execBar2Read` may write. -/
def execBar2Read_offs (o : Nat) : Prop :=
  o = DMC_BAR2_VOID_COUNT.reg ∨ State.raiseEvent_offs o ∨ State.serveOne_offs o

theorem execBar2Read_keeps {P : State → Prop} (K : Keeps P 0x4f310e7f4 execBar2Read_offs) {s : State} (off : Nat) (size : Nat) (write : Bool) (ups : DramUpsets) (hs : P s) :
    ∃ t, (execBar2Read off size write ups s) = .next t ∧ P t := by
  have k0 : Keeps P 0x2000000 (fun _ => False) := K.sub rfl (fun _ h => h.elim)
  have k1 : Keeps P 0x2000000 (fun _ => False) := K.sub rfl (fun _ h => h.elim)
  have k2 : Keeps P 0x440000010 State.raiseEvent_offs := K.sub rfl (fun _ h => .inr (.inl h))
  have k3 : Keeps P 0x4f310e7f4 State.serveOne_offs := K.sub rfl (fun _ h => .inr (.inr (h)))
  have r0 := K.reg (DMC_BAR2_VOID_COUNT.reg) (.inl rfl)
  have t28 : ∀ (s : State) v, P s → P (s.putRdData v) := K.upd 28 rfl
  have t29 : ∀ (s : State) v, P s → P (s.putRdData2 v) := K.upd 29 rfl
  refine ⟨_, rfl, ?_⟩
  repeat' (first
    | with_reducible assumption
    | with_reducible (first | apply State.arrive_keeps k0 | apply State.dramUpset_keeps k1 | apply State.raiseEvent_keeps k2 | apply State.serveOne_keeps k3 | apply bump_keeps | apply t28 | apply t29)
    | with_reducible exact r0
    | intro _ _ _ _
    | intro _ _ _
    | intro _ _
    | with_reducible (first | apply ite_keeps | apply ite_keeps_pair)
    | dsimp only
    | split
    | with_reducible (first | apply r0))

end Sys2Proof.Machine
end

