-- ==== Sys2Proof/Laws/KAuxRows.lean ====
section
/-!
SUPPORT. What the operations of Sys2Proof.Machine.AuxRows keep, and the registers they may write.
-/
namespace Sys2Proof.Machine

/-- Registers `State.countPause` may write. -/
def State.countPause_offs (o : Nat) : Prop :=
  o = AUX_BLANK_PAUSE_COUNT.reg

theorem State.countPause_keeps {P : State → Prop} (K : Keeps P 0x400 State.countPause_offs) {old : State} {new : State} (hnew : P new) :
    P (State.countPause old new) := by
  have r0 := K.reg (AUX_BLANK_PAUSE_COUNT.reg) (rfl)
  have t10 : ∀ (s : State) v, P s → P (s.putAux v) := K.upd 10 rfl
  unfold State.countPause
  repeat' (first
    | with_reducible assumption
    | with_reducible (first | apply bump_keeps | apply t10)
    | with_reducible exact r0
    | intro _ _ _ _
    | intro _ _ _
    | intro _ _
    | with_reducible (first | apply ite_keeps | apply ite_keeps_pair)
    | dsimp only
    | split
    | with_reducible (first | apply r0))

theorem State.inhibitUnits_keeps {P : State → Prop} (K : Keeps P 0x8000 (fun _ => False)) {s : State} (i : Nat) (hs : P s) :
    P (State.inhibitUnits s i) := by
  have k0 : Keeps P 0x8000 (fun _ => False) := K.sub rfl (fun _ h => h.elim)
  unfold State.inhibitUnits
  repeat' (first
    | with_reducible assumption
    | with_reducible (first | apply State.setUnit_keeps k0 | apply foldl_keeps | apply foldl_keeps_pair)
    | intro _ _ _ _
    | intro _ _ _
    | intro _ _
    | with_reducible (first | apply ite_keeps | apply ite_keeps_pair)
    | dsimp only
    | split)

theorem State.markTurns_keeps {P : State → Prop} (K : Keeps P 0x100 (fun _ => False)) {s : State} (i : Nat) (hs : P s) :
    P (State.markTurns s i) := by
  have t8 : ∀ (s : State) v, P s → P (s.putSched v) := K.upd 8 rfl
  unfold State.markTurns
  repeat' (first
    | with_reducible assumption
    | with_reducible (first | apply t8)
    | intro _ _ _ _
    | intro _ _ _
    | intro _ _
    | with_reducible (first | apply ite_keeps | apply ite_keeps_pair)
    | dsimp only
    | split)

/-- Registers `State.setBlankActive` may write. -/
def State.setBlankActive_offs (o : Nat) : Prop :=
  o = AUX_STATUS.reg ∨ State.countPause_offs o ∨ State.settle_offs o

theorem State.setBlankActive_keeps {P : State → Prop} (K : Keeps P 0x440028570 State.setBlankActive_offs) {s : State} (i : Nat) (active : Bool) (hs : P s) :
    P (State.setBlankActive s i active) := by
  have k0 : Keeps P 0x400 State.countPause_offs := K.sub rfl (fun _ h => .inr (.inl h))
  have k1 : Keeps P 0x8000 (fun _ => False) := K.sub rfl (fun _ h => h.elim)
  have k2 : Keeps P 0x100 (fun _ => False) := K.sub rfl (fun _ h => h.elim)
  have k3 : Keeps P 0x20000 (fun _ => False) := K.sub rfl (fun _ h => h.elim)
  have k4 : Keeps P 0x440000070 State.settle_offs := K.sub rfl (fun _ h => .inr (.inr (h)))
  have r0 := K.reg (AUX_STATUS.reg) (.inl rfl)
  unfold State.setBlankActive
  repeat' (first
    | with_reducible assumption
    | with_reducible (first | apply State.countPause_keeps k0 | apply State.inhibitUnits_keeps k1 | apply State.markTurns_keeps k2 | apply State.setBlank_keeps k3 | apply State.settle_keeps k4 | apply setFlag_keeps)
    | with_reducible exact r0
    | intro _ _ _ _
    | intro _ _ _
    | intro _ _
    | with_reducible (first | apply ite_keeps | apply ite_keeps_pair)
    | dsimp only
    | split
    | with_reducible (first | apply r0))

/-- Registers `execBlankInputChange` may write. -/
def execBlankInputChange_offs (o : Nat) : Prop :=
  State.setBlankActive_offs o

theorem execBlankInputChange_keeps {P : State → Prop} (K : Keeps P 0x440028570 execBlankInputChange_offs) {s : State} (i : Fin 2) (active : Bool) (hs : P s) :
    ∃ t, (execBlankInputChange i active s) = .next t ∧ P t := by
  have k0 : Keeps P 0x440028570 State.setBlankActive_offs := K.sub rfl (fun _ h => h)
  refine ⟨_, rfl, ?_⟩
  repeat' (first
    | with_reducible assumption
    | with_reducible (first | apply State.setBlankActive_keeps k0)
    | intro _ _ _ _
    | intro _ _ _
    | intro _ _
    | with_reducible (first | apply ite_keeps | apply ite_keeps_pair)
    | dsimp only
    | split)

/-- Registers `State.setRef` may write. -/
def State.setRef_offs (o : Nat) : Prop :=
  o = AUX_STATUS.reg

theorem State.setRef_keeps {P : State → Prop} (K : Keeps P 0x400 State.setRef_offs) {s : State} (r : Nat) (ok : Bool) (hs : P s) :
    P (State.setRef s r ok) := by
  have r0 := K.reg (AUX_STATUS.reg) (rfl)
  have t10 : ∀ (s : State) v, P s → P (s.putAux v) := K.upd 10 rfl
  unfold State.setRef
  repeat' (first
    | with_reducible assumption
    | with_reducible (first | apply setFlag_keeps | apply t10)
    | with_reducible exact r0
    | intro _ _ _ _
    | intro _ _ _
    | intro _ _
    | with_reducible (first | apply ite_keeps | apply ite_keeps_pair)
    | dsimp only
    | split
    | unfold refBit
    | with_reducible (first | apply r0))

/-- Registers `execRefSettled` may write. -/
def execRefSettled_offs (o : Nat) : Prop :=
  State.setRef_offs o

theorem execRefSettled_keeps {P : State → Prop} (K : Keeps P 0x400 execRefSettled_offs) {s : State} (r : Fin 3) (hs : P s) :
    ∃ t, (execRefSettled r s) = .next t ∧ P t := by
  have k0 : Keeps P 0x400 State.setRef_offs := K.sub rfl (fun _ h => h)
  refine ⟨_, rfl, ?_⟩
  repeat' (first
    | with_reducible assumption
    | with_reducible (first | apply State.setRef_keeps k0)
    | intro _ _ _ _
    | intro _ _ _
    | intro _ _
    | with_reducible (first | apply ite_keeps | apply ite_keeps_pair)
    | dsimp only
    | split)

/-- Registers `execReferenceUnsettled` may write. -/
def execReferenceUnsettled_offs (o : Nat) : Prop :=
  State.setRef_offs o

theorem execReferenceUnsettled_keeps {P : State → Prop} (K : Keeps P 0x400 execReferenceUnsettled_offs) {s : State} (r : Fin 3) (hs : P s) :
    ∃ t, (execReferenceUnsettled r s) = .next t ∧ P t := by
  have k0 : Keeps P 0x400 State.setRef_offs := K.sub rfl (fun _ h => h)
  refine ⟨_, rfl, ?_⟩
  repeat' (first
    | with_reducible assumption
    | with_reducible (first | apply State.setRef_keeps k0)
    | intro _ _ _ _
    | intro _ _ _
    | intro _ _
    | with_reducible (first | apply ite_keeps | apply ite_keeps_pair)
    | dsimp only
    | split)

/-- Registers `execAuxPassStart` may write. -/
def execAuxPassStart_offs (o : Nat) : Prop :=
  o = AUX_PASS_NUM.reg ∨ o = AUX_PASS_OVERRUN_COUNT.reg ∨ o = AUX_STATUS.reg

theorem execAuxPassStart_keeps {P : State → Prop} (K : Keeps P 0x400 execAuxPassStart_offs) {s : State} (hs : P s) :
    ∃ t, (execAuxPassStart s) = .next t ∧ P t := by
  have r0 := K.reg (AUX_PASS_NUM.reg) (.inl rfl)
  have r1 := K.reg (AUX_PASS_OVERRUN_COUNT.reg) (.inr (.inl rfl))
  have r2 := K.reg (AUX_STATUS.reg) (.inr (.inr (rfl)))
  have t10 : ∀ (s : State) v, P s → P (s.putAux v) := K.upd 10 rfl
  refine ⟨_, rfl, ?_⟩
  repeat' (first
    | with_reducible assumption
    | with_reducible (first | apply bump_keeps | apply setFlag_keeps | apply setFld_keeps | apply foldl_keeps | apply foldl_keeps_pair | apply t10)
    | with_reducible exact r0
    | with_reducible exact r1
    | with_reducible exact r2
    | intro _ _ _ _
    | intro _ _ _
    | intro _ _
    | with_reducible (first | apply ite_keeps | apply ite_keeps_pair)
    | dsimp only
    | split
    | with_reducible (first | apply r0 | apply r1 | apply r2))

/-- Registers `State.auxPassEnd` may write. -/
def State.auxPassEnd_offs (o : Nat) : Prop :=
  o = AUX_STATUS.reg ∨ State.pushBlock_offs o ∨ State.raiseEvent_offs o

theorem State.auxPassEnd_keeps {P : State → Prop} (K : Keeps P 0x440000010 State.auxPassEnd_offs) {s : State} (hs : P s) :
    P (State.auxPassEnd s) := by
  have k0 : Keeps P 0x40000010 State.pushBlock_offs := K.sub rfl (fun _ h => .inr (.inl h))
  have k1 : Keeps P 0x440000010 State.raiseEvent_offs := K.sub rfl (fun _ h => .inr (.inr (h)))
  have r0 := K.reg (AUX_STATUS.reg) (.inl rfl)
  unfold State.auxPassEnd
  repeat' (first
    | with_reducible assumption
    | with_reducible (first | apply State.pushBlock_keeps k0 | apply State.raiseEvent_keeps k1 | apply setFlag_keeps | apply setFld_keeps)
    | with_reducible exact r0
    | intro _ _ _ _
    | intro _ _ _
    | intro _ _
    | with_reducible (first | apply ite_keeps | apply ite_keeps_pair)
    | dsimp only
    | split
    | with_reducible (first | apply r0))

/-- Registers `State.auxStore` may write. -/
def State.auxStore_offs (o : Nat) : Prop :=
  (∃ n, o = AUX_ENT_LEAD.reg n) ∨ (∃ n, o = AUX_ENT_STATUS.reg n) ∨ (∃ n, o = AUX_ENT_VALUE.reg n) ∨
    o = AUX_EXC_FAULT_COUNT.reg ∨ State.raiseEvent_offs o

theorem State.auxStore_keeps {P : State → Prop} (K : Keeps P 0x440000010 State.auxStore_offs) {s : State} (e : Nat) (frac : Nat) (r : AuxResult) (unsettled : Bool) (blanked : Bool) (hs : P s) :
    P (State.auxStore s e frac r unsettled blanked) := by
  have k0 : Keeps P 0x440000010 State.raiseEvent_offs := K.sub rfl (fun _ h => .inr (.inr (.inr (.inr (h)))))
  have r0 := fun n => K.reg (AUX_ENT_LEAD.reg n) (.inl ⟨n, rfl⟩)
  have r1 := fun n => K.reg (AUX_ENT_STATUS.reg n) (.inr (.inl ⟨n, rfl⟩))
  have r2 := fun n => K.reg (AUX_ENT_VALUE.reg n) (.inr (.inr (.inl ⟨n, rfl⟩)))
  have r3 := K.reg (AUX_EXC_FAULT_COUNT.reg) (.inr (.inr (.inr (.inl rfl))))
  unfold State.auxStore
  repeat' (first
    | with_reducible assumption
    | with_reducible (first | apply State.raiseEvent_keeps k0 | apply bump_keeps | apply setNat_keeps)
    | with_reducible exact r0 _
    | with_reducible exact r1 _
    | with_reducible exact r2 _
    | with_reducible exact r3
    | intro _ _ _ _
    | intro _ _ _
    | intro _ _
    | with_reducible (first | apply ite_keeps | apply ite_keeps_pair)
    | dsimp only
    | split
    | with_reducible (first | apply r0 | apply r1 | apply r2 | apply r3))

/-- Registers `execAuxConversionComplete` may write. -/
def execAuxConversionComplete_offs (o : Nat) : Prop :=
  o = AUX_STATUS.reg ∨ State.auxPassEnd_offs o ∨ State.auxStore_offs o ∨ State.evalSource_offs o

theorem execAuxConversionComplete_keeps {P : State → Prop} (K : Keeps P 0x4c011c7f4 execAuxConversionComplete_offs) {s : State} (m : AuxMeas) (differs : BitVec 16) (hs : P s) :
    ∃ t, (execAuxConversionComplete m differs s) = .next t ∧ P t := by
  have k0 : Keeps P 0x440000010 State.auxPassEnd_offs := K.sub rfl (fun _ h => .inr (.inl h))
  have k1 : Keeps P 0x440000010 State.auxStore_offs := K.sub rfl (fun _ h => .inr (.inr (.inl h)))
  have k2 : Keeps P 0x4c011c7f4 State.evalSource_offs := K.sub rfl (fun _ h => .inr (.inr (.inr (h))))
  have r0 := K.reg (AUX_STATUS.reg) (.inl rfl)
  have t10 : ∀ (s : State) v, P s → P (s.putAux v) := K.upd 10 rfl
  refine ⟨_, rfl, ?_⟩
  repeat' (first
    | with_reducible assumption
    | with_reducible (first | apply State.auxPassEnd_keeps k0 | apply State.auxStore_keeps k1 | apply State.evalSource_keeps k2 | apply setFld_keeps | apply t10)
    | with_reducible exact r0
    | intro _ _ _ _
    | intro _ _ _
    | intro _ _
    | with_reducible (first | apply ite_keeps | apply ite_keeps_pair)
    | dsimp only
    | split
    | with_reducible (first | apply r0))

/-- Registers `State.dieReading` may write. -/
def State.dieReading_offs (o : Nat) : Prop :=
  o = PWR_STATUS.reg ∨ o = PWR_THERM_COUNT.reg ∨ State.diagEvent_offs o ∨ State.raiseEvent_offs o

theorem State.dieReading_keeps {P : State → Prop} (K : Keeps P 0x4c010c7f4 State.dieReading_offs) {s : State} (d : Nat) (t : Int) (hs : P s) :
    P (State.dieReading s d t) := by
  have k0 : Keeps P 0x200 (fun _ => False) := K.sub rfl (fun _ h => h.elim)
  have k1 : Keeps P 0x4c010c7f4 State.diagEvent_offs := K.sub rfl (fun _ h => .inr (.inr (.inl h)))
  have k2 : Keeps P 0x440000010 State.raiseEvent_offs := K.sub rfl (fun _ h => .inr (.inr (.inr (h))))
  have r0 := K.reg (PWR_STATUS.reg) (.inl rfl)
  have r1 := K.reg (PWR_THERM_COUNT.reg) (.inr (.inl rfl))
  have t9 : ∀ (s : State) v, P s → P (s.putCal v) := K.upd 9 rfl
  unfold State.dieReading
  repeat' (first
    | with_reducible assumption
    | with_reducible (first | apply State.calTempTest_keeps k0 | apply State.diagEvent_keeps k1 | apply State.raiseEvent_keeps k2 | apply bump_keeps | apply setFlag_keeps | apply setFld_keeps | apply t9)
    | with_reducible exact r0
    | with_reducible exact r1
    | intro _ _ _ _
    | intro _ _ _
    | intro _ _
    | with_reducible (first | apply ite_keeps | apply ite_keeps_pair)
    | dsimp only
    | split
    | with_reducible (first | apply r0 | apply r1))

/-- Registers `State.hkReading` may write. -/
def State.hkReading_offs (o : Nat) : Prop :=
  (∃ n, o = AUX_HK.reg n) ∨ o = PWR_STATUS.reg ∨ State.diagEvent_offs o ∨ State.dieReading_offs o

theorem State.hkReading_keeps {P : State → Prop} (K : Keeps P 0x4c010c7f4 State.hkReading_offs) {s : State} (c : Nat) (v : Int) (hs : P s) :
    P (State.hkReading s c v) := by
  have k0 : Keeps P 0x4c010c7f4 State.diagEvent_offs := K.sub rfl (fun _ h => .inr (.inr (.inl h)))
  have k1 : Keeps P 0x4c010c7f4 State.dieReading_offs := K.sub rfl (fun _ h => .inr (.inr (.inr (h))))
  have r0 := fun n => K.reg (AUX_HK.reg n) (.inl ⟨n, rfl⟩)
  have r1 := K.reg (PWR_STATUS.reg) (.inr (.inl rfl))
  unfold State.hkReading
  repeat' (first
    | with_reducible assumption
    | with_reducible (first | apply State.diagEvent_keeps k0 | apply State.dieReading_keeps k1 | apply setFld_keeps | apply setNat_keeps)
    | with_reducible exact r0 _
    | with_reducible exact r1
    | intro _ _ _ _
    | intro _ _ _
    | intro _ _
    | with_reducible (first | apply ite_keeps | apply ite_keeps_pair)
    | dsimp only
    | split
    | with_reducible (first | apply r0 | apply r1))

/-- Registers `execHkConversion` may write. -/
def execHkConversion_offs (o : Nat) : Prop :=
  o = AUX_HK_LATE_COUNT.reg ∨ State.hkReading_offs o

theorem execHkConversion_keeps {P : State → Prop} (K : Keeps P 0x4c010c7f4 execHkConversion_offs) {s : State} (value : BitVec 32) (late : Bool) (hs : P s) :
    ∃ t, (execHkConversion value late s) = .next t ∧ P t := by
  have k0 : Keeps P 0x4c010c7f4 State.hkReading_offs := K.sub rfl (fun _ h => .inr (h))
  have r0 := K.reg (AUX_HK_LATE_COUNT.reg) (.inl rfl)
  have t10 : ∀ (s : State) v, P s → P (s.putAux v) := K.upd 10 rfl
  refine ⟨_, rfl, ?_⟩
  repeat' (first
    | with_reducible assumption
    | with_reducible (first | apply State.hkReading_keeps k0 | apply bump_keeps | apply t10)
    | with_reducible exact r0
    | intro _ _ _ _
    | intro _ _ _
    | intro _ _
    | with_reducible (first | apply ite_keeps | apply ite_keeps_pair)
    | dsimp only
    | split
    | with_reducible (first | apply r0))

end Sys2Proof.Machine
end

