-- ==== Sys2Proof/Laws/KLink.lean ====
section
/-!
SUPPORT. What the operations of Sys2Proof.Machine.Link keep, and the registers they may write.
-/
namespace Sys2Proof.Machine

/-- Registers `State.setLink` may write. -/
def State.setLink_offs (o : Nat) : Prop :=
  o = MLK_LINK_STATUS.reg

theorem State.setLink_keeps {P : State → Prop} (K : Keeps P 0x0 State.setLink_offs) {s : State} (st : Nat) (hs : P s) :
    P (State.setLink s st) := by
  have r0 := K.reg (MLK_LINK_STATUS.reg) (rfl)
  unfold State.setLink
  repeat' (first
    | with_reducible assumption
    | with_reducible (first | apply setFld_keeps)
    | with_reducible exact r0
    | intro _ _ _ _
    | intro _ _ _
    | intro _ _
    | with_reducible (first | apply ite_keeps | apply ite_keeps_pair)
    | dsimp only
    | split
    | with_reducible (first | apply r0))

/-- Registers `State.linkDown` may write. -/
def State.linkDown_offs (o : Nat) : Prop :=
  o = MLK_LINK_DOWN_COUNT.reg ∨ o = MLK_LINK_STATUS.reg ∨ State.diagEvent_offs o ∨ State.raiseEvent_offs o

theorem State.linkDown_keeps {P : State → Prop} (K : Keeps P 0x4c010c7f4 State.linkDown_offs) {s : State} (lanes : Nat) (clock : Bool) (hs : P s) :
    P (State.linkDown s lanes clock) := by
  have k0 : Keeps P 0x4c010c7f4 State.diagEvent_offs := K.sub rfl (fun _ h => .inr (.inr (.inl h)))
  have k1 : Keeps P 0x440000010 State.raiseEvent_offs := K.sub rfl (fun _ h => .inr (.inr (.inr (h))))
  have r0 := K.reg (MLK_LINK_DOWN_COUNT.reg) (.inl rfl)
  have r1 := K.reg (MLK_LINK_STATUS.reg) (.inr (.inl rfl))
  unfold State.linkDown
  repeat' (first
    | with_reducible assumption
    | with_reducible (first | apply State.diagEvent_keeps k0 | apply State.raiseEvent_keeps k1 | apply bump_keeps | apply setFlag_keeps)
    | with_reducible exact r0
    | with_reducible exact r1
    | intro _ _ _ _
    | intro _ _ _
    | intro _ _
    | with_reducible (first | apply ite_keeps | apply ite_keeps_pair)
    | dsimp only
    | split
    | with_reducible (first | apply r0 | apply r1))

/-- Registers `State.dropLanes` may write. -/
def State.dropLanes_offs (o : Nat) : Prop :=
  o = MLK_LINK_STATUS.reg

theorem State.dropLanes_keeps {P : State → Prop} (K : Keeps P 0x4000 State.dropLanes_offs) {s : State} (hs : P s) :
    P (State.dropLanes s) := by
  have r0 := K.reg (MLK_LINK_STATUS.reg) (rfl)
  have t14 : ∀ (s : State) v, (Memory.wf 0 s.mlk.pbase = true → Memory.wf 0 v.pbase = true) → P s → P (s.putMlk v) := K.upd 14 rfl
  unfold State.dropLanes
  repeat' (first
    | with_reducible assumption
    | with_reducible (first | apply setFld_keeps | apply t14)
    | with_reducible exact r0
    | with_reducible_and_instances (first | exact fun h => h | exact fun h => Memory.setBytes_wf _ _ h | exact fun h => SMap.put_wf _ _ h | exact fun h => Memory.clearRange_wf _ _ h | exact fun _ => rfl | exact fun h => Memory.setByte_wf _ _ h | exact fun h => Memory.setBytes_wf _ _ (Memory.setBytes_wf _ _ h) | exact fun h => Memory.clearRange_wf _ _ (Memory.clearRange_wf _ _ h) | exact fun h => SMap.filter_wf _ h)
    | exact fun h => SMap.put_wf _ _ h
    | exact fun _ => SMap.nil_wf
    | intro _ _ _ _
    | intro _ _ _
    | intro _ _
    | with_reducible (first | apply ite_keeps | apply ite_keeps_pair)
    | dsimp only
    | split
    | with_reducible (first | apply r0))

/-- Registers `State.linkOffNow` may write. -/
def State.linkOffNow_offs (o : Nat) : Prop :=
  o = MLK_LINK_DOWN_COUNT.reg ∨ o = MLK_LINK_STATUS.reg ∨ State.dropLanes_offs o ∨ State.setLink_offs o

theorem State.linkOffNow_keeps {P : State → Prop} (K : Keeps P 0x4000 State.linkOffNow_offs) {s : State} (hs : P s) :
    P (State.linkOffNow s) := by
  have k0 : Keeps P 0x4000 State.dropLanes_offs := K.sub rfl (fun _ h => .inr (.inr (.inl h)))
  have k1 : Keeps P 0x0 State.setLink_offs := K.sub rfl (fun _ h => .inr (.inr (.inr (h))))
  have r0 := K.reg (MLK_LINK_DOWN_COUNT.reg) (.inl rfl)
  have r1 := K.reg (MLK_LINK_STATUS.reg) (.inr (.inl rfl))
  unfold State.linkOffNow
  repeat' (first
    | with_reducible assumption
    | with_reducible (first | apply State.dropLanes_keeps k0 | apply State.setLink_keeps k1 | apply bump_keeps | apply setFlag_keeps)
    | with_reducible exact r0
    | with_reducible exact r1
    | intro _ _ _ _
    | intro _ _ _
    | intro _ _
    | with_reducible (first | apply ite_keeps | apply ite_keeps_pair)
    | dsimp only
    | split
    | with_reducible (first | apply r0 | apply r1))

/-- Registers `State.linkFollow` may write. -/
def State.linkFollow_offs (o : Nat) : Prop :=
  State.linkOffNow_offs o ∨ State.linkWake_offs o

theorem State.linkFollow_keeps {P : State → Prop} (K : Keeps P 0x4000 State.linkFollow_offs) {s : State} (hs : P s) :
    P (State.linkFollow s) := by
  have k0 : Keeps P 0x4000 State.linkOffNow_offs := K.sub rfl (fun _ h => .inl h)
  have k1 : Keeps P 0x4000 State.linkWake_offs := K.sub rfl (fun _ h => .inr (h))
  unfold State.linkFollow
  repeat' (first
    | with_reducible assumption
    | with_reducible (first | apply State.linkOffNow_keeps k0 | apply State.linkWake_keeps k1)
    | intro _ _ _ _
    | intro _ _ _
    | intro _ _
    | with_reducible (first | apply ite_keeps | apply ite_keeps_pair)
    | dsimp only
    | split)

/-- Registers `execPartnerClockChange` may write. -/
def execPartnerClockChange_offs (o : Nat) : Prop :=
  o = MLK_LINK_STATUS.reg ∨ State.dropLanes_offs o ∨ State.linkDown_offs o ∨ State.setLink_offs o

theorem execPartnerClockChange_keeps {P : State → Prop} (K : Keeps P 0x4c010c7f4 execPartnerClockChange_offs) {s : State} (present : Bool) (hs : P s) :
    ∃ t, (execPartnerClockChange present s) = .next t ∧ P t := by
  have k0 : Keeps P 0x4000 State.dropLanes_offs := K.sub rfl (fun _ h => .inr (.inl h))
  have k1 : Keeps P 0x4c010c7f4 State.linkDown_offs := K.sub rfl (fun _ h => .inr (.inr (.inl h)))
  have k2 : Keeps P 0x0 State.setLink_offs := K.sub rfl (fun _ h => .inr (.inr (.inr (h))))
  have r0 := K.reg (MLK_LINK_STATUS.reg) (.inl rfl)
  refine ⟨_, rfl, ?_⟩
  repeat' (first
    | with_reducible assumption
    | with_reducible (first | apply State.dropLanes_keeps k0 | apply State.linkDown_keeps k1 | apply State.setLink_keeps k2 | apply setFlag_keeps)
    | with_reducible exact r0
    | intro _ _ _ _
    | intro _ _ _
    | intro _ _
    | with_reducible (first | apply ite_keeps | apply ite_keeps_pair)
    | dsimp only
    | split
    | with_reducible (first | apply r0))

/-- Registers `execLaneAlign` may write. -/
def execLaneAlign_offs (o : Nat) : Prop :=
  o = MLK_LINK_STATUS.reg ∨ State.setLink_offs o

theorem execLaneAlign_keeps {P : State → Prop} (K : Keeps P 0xc0004000 execLaneAlign_offs) {s : State} (l : Fin 4) (gaps : List Nat) (hs : P s) :
    ∃ t, (execLaneAlign l gaps s) = .next t ∧ P t := by
  have k0 : Keeps P 0xc0004000 (fun _ => False) := K.sub rfl (fun _ h => h.elim)
  have k1 : Keeps P 0x4000 (fun _ => False) := K.sub rfl (fun _ h => h.elim)
  have k2 : Keeps P 0x0 State.setLink_offs := K.sub rfl (fun _ h => .inr (h))
  have r0 := K.reg (MLK_LINK_STATUS.reg) (.inl rfl)
  refine ⟨_, rfl, ?_⟩
  repeat' (first
    | with_reducible assumption
    | with_reducible (first | apply State.sendIdentity_keeps k0 | apply State.setLane_keeps k1 | apply State.setLink_keeps k2 | apply setFld_keeps)
    | with_reducible exact r0
    | intro _ _ _ _
    | intro _ _ _
    | intro _ _
    | with_reducible (first | apply ite_keeps | apply ite_keeps_pair)
    | dsimp only
    | split
    | with_reducible (first | apply r0))

/-- Registers `execLaneLoss` may write. -/
def execLaneLoss_offs (o : Nat) : Prop :=
  (∃ n, o = MLK_LANE_COMMA_LOSS_COUNT.reg n) ∨ o = MLK_LINK_STATUS.reg ∨ State.dropLanes_offs o ∨
    State.linkDown_offs o ∨ State.setLink_offs o

theorem execLaneLoss_keeps {P : State → Prop} (K : Keeps P 0x4c010c7f4 execLaneLoss_offs) {s : State} (l : Fin 4) (commas : List Bool) (hs : P s) :
    ∃ t, (execLaneLoss l commas s) = .next t ∧ P t := by
  have k0 : Keeps P 0x4000 State.dropLanes_offs := K.sub rfl (fun _ h => .inr (.inr (.inl h)))
  have k1 : Keeps P 0x4c010c7f4 State.linkDown_offs := K.sub rfl (fun _ h => .inr (.inr (.inr (.inl h))))
  have k2 : Keeps P 0x4000 (fun _ => False) := K.sub rfl (fun _ h => h.elim)
  have k3 : Keeps P 0x0 State.setLink_offs := K.sub rfl (fun _ h => .inr (.inr (.inr (.inr (h)))))
  have r0 := fun n => K.reg (MLK_LANE_COMMA_LOSS_COUNT.reg n) (.inl ⟨n, rfl⟩)
  have r1 := K.reg (MLK_LINK_STATUS.reg) (.inr (.inl rfl))
  refine ⟨_, rfl, ?_⟩
  repeat' (first
    | with_reducible assumption
    | with_reducible (first | apply State.dropLanes_keeps k0 | apply State.linkDown_keeps k1 | apply State.setLane_keeps k2 | apply State.setLink_keeps k3 | apply bump_keeps | apply setFld_keeps)
    | with_reducible exact r0 _
    | with_reducible exact r1
    | intro _ _ _ _
    | intro _ _ _
    | intro _ _
    | with_reducible (first | apply ite_keeps | apply ite_keeps_pair)
    | dsimp only
    | split
    | with_reducible (first | apply r0 | apply r1))

/-- Registers `execLinkFrameDiscarded` may write. -/
def execLinkFrameDiscarded_offs (o : Nat) : Prop :=
  (∃ n, o = MLK_LANE_CRC_COUNT.reg n) ∨ (∃ n, o = MLK_LANE_STUFF_ERR_COUNT.reg n)

theorem execLinkFrameDiscarded_keeps {P : State → Prop} (K : Keeps P 0x4000 execLinkFrameDiscarded_offs) {s : State} (l : Fin 4) (frame : Nat) (before : List Bool) (bits : List Bool) (hs : P s) :
    ∃ t, (execLinkFrameDiscarded l frame before bits s) = .next t ∧ P t := by
  have k0 : Keeps P 0x4000 (fun _ => False) := K.sub rfl (fun _ h => h.elim)
  have k1 : Keeps P 0x4000 (fun _ => False) := K.sub rfl (fun _ h => h.elim)
  have r0 := fun n => K.reg (MLK_LANE_CRC_COUNT.reg n) (.inl ⟨n, rfl⟩)
  have r1 := fun n => K.reg (MLK_LANE_STUFF_ERR_COUNT.reg n) (.inr (⟨n, rfl⟩))
  refine ⟨_, rfl, ?_⟩
  repeat' (first
    | with_reducible assumption
    | with_reducible (first | apply State.laneError_keeps k0 | apply State.laneTakes_keeps k1 | apply bump_keeps)
    | with_reducible exact r0 _
    | with_reducible exact r1 _
    | (apply fst_keeps (by assumption))
    | intro _ _ _ _
    | intro _ _ _
    | intro _ _
    | with_reducible (first | apply ite_keeps | apply ite_keeps_pair)
    | dsimp only
    | split
    | with_reducible (first | apply r0 | apply r1))

/-- Registers `State.resync` may write. -/
def State.resync_offs (o : Nat) : Prop :=
  o = MLK_PAIR_STATUS.reg

theorem State.resync_keeps {P : State → Prop} (K : Keeps P 0xc0004000 State.resync_offs) {s : State} (hs : P s) :
    P (State.resync s) := by
  have k0 : Keeps P 0xc0004000 (fun _ => False) := K.sub rfl (fun _ h => h.elim)
  have k1 : Keeps P 0xc0004000 (fun _ => False) := K.sub rfl (fun _ h => h.elim)
  have k2 : Keeps P 0xc0004000 (fun _ => False) := K.sub rfl (fun _ h => h.elim)
  have r0 := K.reg (MLK_PAIR_STATUS.reg) (rfl)
  have t14 : ∀ (s : State) v, (Memory.wf 0 s.mlk.pbase = true → Memory.wf 0 v.pbase = true) → P s → P (s.putMlk v) := K.upd 14 rfl
  unfold State.resync
  repeat' (first
    | with_reducible assumption
    | with_reducible (first | apply State.mirrorBaseline_keeps k0 | apply State.mirrorRefs_keeps k1 | apply State.sendMirror_keeps k2 | apply setFlag_keeps | apply foldl_keeps | apply foldl_keeps_pair | apply t14)
    | with_reducible exact r0
    | with_reducible_and_instances (first | exact fun h => h | exact fun h => Memory.setBytes_wf _ _ h | exact fun h => SMap.put_wf _ _ h | exact fun h => Memory.clearRange_wf _ _ h | exact fun _ => rfl | exact fun h => Memory.setByte_wf _ _ h | exact fun h => Memory.setBytes_wf _ _ (Memory.setBytes_wf _ _ h) | exact fun h => Memory.clearRange_wf _ _ (Memory.clearRange_wf _ _ h) | exact fun h => SMap.filter_wf _ h)
    | exact fun h => SMap.put_wf _ _ h
    | exact fun _ => SMap.nil_wf
    | intro _ _ _ _
    | intro _ _ _
    | intro _ _
    | with_reducible (first | apply ite_keeps | apply ite_keeps_pair)
    | dsimp only
    | split
    | with_reducible (first | apply r0))

/-- Registers `execMirrorRetransmit` may write. -/
def execMirrorRetransmit_offs (o : Nat) : Prop :=
  o = MLK_RETX_COUNT.reg

theorem execMirrorRetransmit_keeps {P : State → Prop} (K : Keeps P 0xc0004000 execMirrorRetransmit_offs) {s : State} (hs : P s) :
    ∃ t, (execMirrorRetransmit s) = .next t ∧ P t := by
  have k0 : Keeps P 0xc0000000 (fun _ => False) := K.sub rfl (fun _ h => h.elim)
  have r0 := K.reg (MLK_RETX_COUNT.reg) (rfl)
  have t14 : ∀ (s : State) v, (Memory.wf 0 s.mlk.pbase = true → Memory.wf 0 v.pbase = true) → P s → P (s.putMlk v) := K.upd 14 rfl
  refine ⟨_, rfl, ?_⟩
  repeat' (first
    | with_reducible assumption
    | with_reducible (first | apply State.sendOne_keeps k0 | apply addReg_keeps | apply foldl_keeps | apply foldl_keeps_pair | apply t14)
    | with_reducible exact r0
    | with_reducible_and_instances (first | exact fun h => h | exact fun h => Memory.setBytes_wf _ _ h | exact fun h => SMap.put_wf _ _ h | exact fun h => Memory.clearRange_wf _ _ h | exact fun _ => rfl | exact fun h => Memory.setByte_wf _ _ h | exact fun h => Memory.setBytes_wf _ _ (Memory.setBytes_wf _ _ h) | exact fun h => Memory.clearRange_wf _ _ (Memory.clearRange_wf _ _ h) | exact fun h => SMap.filter_wf _ h)
    | exact fun h => SMap.put_wf _ _ h
    | exact fun _ => SMap.nil_wf
    | intro _ _ _ _
    | intro _ _ _
    | intro _ _
    | with_reducible (first | apply ite_keeps | apply ite_keeps_pair)
    | dsimp only
    | split
    | with_reducible (first | apply r0))

/-- Registers `execMirrorLag` may write. -/
def execMirrorLag_offs (o : Nat) : Prop :=
  o = MLK_PAIR_STATUS.reg ∨ State.raiseEvent_offs o

theorem execMirrorLag_keeps {P : State → Prop} (K : Keeps P 0x440000010 execMirrorLag_offs) {s : State} (hs : P s) :
    ∃ t, (execMirrorLag s) = .next t ∧ P t := by
  have k0 : Keeps P 0x440000010 State.raiseEvent_offs := K.sub rfl (fun _ h => .inr (h))
  have r0 := K.reg (MLK_PAIR_STATUS.reg) (.inl rfl)
  refine ⟨_, rfl, ?_⟩
  repeat' (first
    | with_reducible assumption
    | with_reducible (first | apply State.raiseEvent_keeps k0 | apply setFlag_keeps)
    | with_reducible exact r0
    | intro _ _ _ _
    | intro _ _ _
    | intro _ _
    | with_reducible (first | apply ite_keeps | apply ite_keeps_pair)
    | dsimp only
    | split
    | with_reducible (first | apply r0))

/-- Registers `State.pimgUpdate` may write. -/
def State.pimgUpdate_offs (o : Nat) : Prop :=
  o = MLK_PIMG_SEQ.reg

theorem State.pimgUpdate_keeps {P : State → Prop} (K : Keeps P 0x0 State.pimgUpdate_offs) {s : State} (f : State → State) (hs : P s) (hf : ∀ s, P s → P (f s)) :
    P (State.pimgUpdate s f) := by
  have r0 := K.reg (MLK_PIMG_SEQ.reg) (rfl)
  unfold State.pimgUpdate
  repeat' (first
    | with_reducible assumption
    | with_reducible (first | apply bump_keeps)
    | with_reducible apply hf
    | with_reducible exact r0
    | intro _ _ _ _
    | intro _ _ _
    | intro _ _
    | with_reducible (first | apply ite_keeps | apply ite_keeps_pair)
    | dsimp only
    | split
    | with_reducible (first | apply r0))

theorem State.storeImage_keeps {P : State → Prop} (K : Keeps P 0x4000 (fun _ => False)) {s : State} (a0 : Nat) (a1 : List Word) (hs : P s) :
    P (State.storeImage s a0 a1) := by
  have t14 : ∀ (s : State) v, (Memory.wf 0 s.mlk.pbase = true → Memory.wf 0 v.pbase = true) → P s → P (s.putMlk v) := K.upd 14 rfl
  induction a1 generalizing s a0 with
  | nil =>
    unfold State.storeImage
    repeat' (first
      | with_reducible assumption
      | with_reducible (first | apply t14)
      | with_reducible_and_instances (first | exact fun h => h | exact fun h => Memory.setBytes_wf _ _ h | exact fun h => SMap.put_wf _ _ h | exact fun h => Memory.clearRange_wf _ _ h | exact fun _ => rfl | exact fun h => Memory.setByte_wf _ _ h | exact fun h => Memory.setBytes_wf _ _ (Memory.setBytes_wf _ _ h) | exact fun h => Memory.clearRange_wf _ _ (Memory.clearRange_wf _ _ h) | exact fun h => SMap.filter_wf _ h)
      | exact fun h => SMap.put_wf _ _ h
      | exact fun _ => SMap.nil_wf
      | intro _ _ _ _
      | intro _ _ _
      | intro _ _
      | with_reducible (first | apply ite_keeps | apply ite_keeps_pair)
      | dsimp only
      | split)
  | cons _ _ ih =>
    unfold State.storeImage
    repeat' (first
      | with_reducible assumption
      | with_reducible apply ih
      | with_reducible (first | apply t14)
      | with_reducible_and_instances (first | exact fun h => h | exact fun h => Memory.setBytes_wf _ _ h | exact fun h => SMap.put_wf _ _ h | exact fun h => Memory.clearRange_wf _ _ h | exact fun _ => rfl | exact fun h => Memory.setByte_wf _ _ h | exact fun h => Memory.setBytes_wf _ _ (Memory.setBytes_wf _ _ h) | exact fun h => Memory.clearRange_wf _ _ (Memory.clearRange_wf _ _ h) | exact fun h => SMap.filter_wf _ h)
      | exact fun h => SMap.put_wf _ _ h
      | exact fun _ => SMap.nil_wf
      | intro _ _ _ _
      | intro _ _ _
      | intro _ _
      | with_reducible (first | apply ite_keeps | apply ite_keeps_pair)
      | dsimp only
      | split)

/-- Registers `State.applyMirror` may write. -/
def State.applyMirror_offs (o : Nat) : Prop :=
  State.pimgUpdate_offs o

theorem State.applyMirror_keeps {P : State → Prop} (K : Keeps P 0x3004000 State.applyMirror_offs) {s : State} (dest : Nat) (data : List Byte) (hs : P s) :
    P (State.applyMirror s dest data) := by
  have k0 : Keeps P 0x0 State.pimgUpdate_offs := K.sub rfl (fun _ h => h)
  have k1 : Keeps P 0x3000000 (fun _ => False) := K.sub rfl (fun _ h => h.elim)
  have k2 : Keeps P 0x4000 (fun _ => False) := K.sub rfl (fun _ h => h.elim)
  have t14 : ∀ (s : State) v, (Memory.wf 0 s.mlk.pbase = true → Memory.wf 0 v.pbase = true) → P s → P (s.putMlk v) := K.upd 14 rfl
  unfold State.applyMirror
  repeat' (first
    | with_reducible assumption
    | with_reducible (first | apply State.pimgUpdate_keeps k0 | apply State.setDram_keeps k1 | apply State.storeImage_keeps k2 | apply t14)
    | with_reducible_and_instances (first | exact fun h => h | exact fun h => Memory.setBytes_wf _ _ h | exact fun h => SMap.put_wf _ _ h | exact fun h => Memory.clearRange_wf _ _ h | exact fun _ => rfl | exact fun h => Memory.setByte_wf _ _ h | exact fun h => Memory.setBytes_wf _ _ (Memory.setBytes_wf _ _ h) | exact fun h => Memory.clearRange_wf _ _ (Memory.clearRange_wf _ _ h) | exact fun h => SMap.filter_wf _ h)
    | exact fun h => SMap.put_wf _ _ h
    | exact fun _ => SMap.nil_wf
    | intro _ _ _ _
    | intro _ _ _
    | intro _ _
    | with_reducible (first | apply ite_keeps | apply ite_keeps_pair)
    | dsimp only
    | split)

/-- Registers `State.drainHeld` may write. -/
def State.drainHeld_offs (o : Nat) : Prop :=
  State.applyMirror_offs o

theorem State.drainHeld_keeps {P : State → Prop} (K : Keeps P 0x3004000 State.drainHeld_offs) {s : State} (a0 : Nat) (hs : P s) :
    P (State.drainHeld s a0) := by
  have k0 : Keeps P 0x3004000 State.applyMirror_offs := K.sub rfl (fun _ h => h)
  have t14 : ∀ (s : State) v, (Memory.wf 0 s.mlk.pbase = true → Memory.wf 0 v.pbase = true) → P s → P (s.putMlk v) := K.upd 14 rfl
  induction a0 generalizing s with
  | zero =>
    unfold State.drainHeld
    repeat' (first
      | with_reducible assumption
      | with_reducible (first | apply State.applyMirror_keeps k0 | apply t14)
      | with_reducible_and_instances (first | exact fun h => h | exact fun h => Memory.setBytes_wf _ _ h | exact fun h => SMap.put_wf _ _ h | exact fun h => Memory.clearRange_wf _ _ h | exact fun _ => rfl | exact fun h => Memory.setByte_wf _ _ h | exact fun h => Memory.setBytes_wf _ _ (Memory.setBytes_wf _ _ h) | exact fun h => Memory.clearRange_wf _ _ (Memory.clearRange_wf _ _ h) | exact fun h => SMap.filter_wf _ h)
      | exact fun h => SMap.put_wf _ _ h
      | exact fun _ => SMap.nil_wf
      | intro _ _ _ _
      | intro _ _ _
      | intro _ _
      | with_reducible (first | apply ite_keeps | apply ite_keeps_pair)
      | dsimp only
      | split)
  | succ _ ih =>
    unfold State.drainHeld
    repeat' (first
      | with_reducible assumption
      | with_reducible apply ih
      | with_reducible (first | apply State.applyMirror_keeps k0 | apply t14)
      | with_reducible_and_instances (first | exact fun h => h | exact fun h => Memory.setBytes_wf _ _ h | exact fun h => SMap.put_wf _ _ h | exact fun h => Memory.clearRange_wf _ _ h | exact fun _ => rfl | exact fun h => Memory.setByte_wf _ _ h | exact fun h => Memory.setBytes_wf _ _ (Memory.setBytes_wf _ _ h) | exact fun h => Memory.clearRange_wf _ _ (Memory.clearRange_wf _ _ h) | exact fun h => SMap.filter_wf _ h)
      | exact fun h => SMap.put_wf _ _ h
      | exact fun _ => SMap.nil_wf
      | intro _ _ _ _
      | intro _ _ _
      | intro _ _
      | with_reducible (first | apply ite_keeps | apply ite_keeps_pair)
      | dsimp only
      | split)

/-- Registers `State.mirrorFrame` may write. -/
def State.mirrorFrame_offs (o : Nat) : Prop :=
  State.drainHeld_offs o

theorem State.mirrorFrame_keeps {P : State → Prop} (K : Keeps P 0x3004000 State.mirrorFrame_offs) {s : State} (seq : BitVec 24) (dest : BitVec 32) (data : List (BitVec 8)) (hs : P s) :
    P (State.mirrorFrame s seq dest data) := by
  have k0 : Keeps P 0x3004000 State.drainHeld_offs := K.sub rfl (fun _ h => h)
  have t14 : ∀ (s : State) v, (Memory.wf 0 s.mlk.pbase = true → Memory.wf 0 v.pbase = true) → P s → P (s.putMlk v) := K.upd 14 rfl
  unfold State.mirrorFrame
  repeat' (first
    | with_reducible assumption
    | with_reducible (first | apply State.drainHeld_keeps k0 | apply t14)
    | with_reducible_and_instances (first | exact fun h => h | exact fun h => Memory.setBytes_wf _ _ h | exact fun h => SMap.put_wf _ _ h | exact fun h => Memory.clearRange_wf _ _ h | exact fun _ => rfl | exact fun h => Memory.setByte_wf _ _ h | exact fun h => Memory.setBytes_wf _ _ (Memory.setBytes_wf _ _ h) | exact fun h => Memory.clearRange_wf _ _ (Memory.clearRange_wf _ _ h) | exact fun h => SMap.filter_wf _ h)
    | exact fun h => SMap.put_wf _ _ h
    | exact fun _ => SMap.nil_wf
    | intro _ _ _ _
    | intro _ _ _
    | intro _ _
    | with_reducible (first | apply ite_keeps | apply ite_keeps_pair)
    | dsimp only
    | split)

/-- Registers `execMirrorData` may write. -/
def execMirrorData_offs (o : Nat) : Prop :=
  State.mirrorFrame_offs o

theorem execMirrorData_keeps {P : State → Prop} (K : Keeps P 0x3004000 execMirrorData_offs) {s : State} (l : Fin 4) (seq : BitVec 24) (dest : BitVec 32) (data : List (BitVec 8)) (hs : P s) :
    ∃ t, (execMirrorData l seq dest data s) = .next t ∧ P t := by
  have k0 : Keeps P 0x4000 (fun _ => False) := K.sub rfl (fun _ h => h.elim)
  have k1 : Keeps P 0x3004000 State.mirrorFrame_offs := K.sub rfl (fun _ h => h)
  refine ⟨_, rfl, ?_⟩
  repeat' (first
    | with_reducible assumption
    | with_reducible (first | apply State.laneTakes_keeps k0 | apply State.mirrorFrame_keeps k1)
    | (apply fst_keeps (by assumption))
    | intro _ _ _ _
    | intro _ _ _
    | intro _ _
    | with_reducible (first | apply ite_keeps | apply ite_keeps_pair)
    | dsimp only
    | split)

/-- Registers `State.pairFlags` may write. -/
def State.pairFlags_offs (o : Nat) : Prop :=
  o = MLK_PAIR_STATUS.reg

theorem State.pairFlags_keeps {P : State → Prop} (K : Keeps P 0x0 State.pairFlags_offs) {s : State} (hs : P s) :
    P (State.pairFlags s) := by
  have r0 := K.reg (MLK_PAIR_STATUS.reg) (rfl)
  unfold State.pairFlags
  repeat' (first
    | with_reducible assumption
    | with_reducible (first | apply setFlag_keeps)
    | with_reducible exact r0
    | intro _ _ _ _
    | intro _ _ _
    | intro _ _
    | with_reducible (first | apply ite_keeps | apply ite_keeps_pair)
    | dsimp only
    | split
    | with_reducible (first | apply r0))

/-- Registers `State.tryArm` may write. -/
def State.tryArm_offs (o : Nat) : Prop :=
  o = MLK_PAIR_STATUS.reg ∨ State.pairFlags_offs o ∨ State.settle_offs o

theorem State.tryArm_keeps {P : State → Prop} (K : Keeps P 0x440004070 State.tryArm_offs) {s : State} (hs : P s) :
    P (State.tryArm s) := by
  have k0 : Keeps P 0x0 State.pairFlags_offs := K.sub rfl (fun _ h => .inr (.inl h))
  have k1 : Keeps P 0x440000070 State.settle_offs := K.sub rfl (fun _ h => .inr (.inr (h)))
  have r0 := K.reg (MLK_PAIR_STATUS.reg) (.inl rfl)
  have t14 : ∀ (s : State) v, (Memory.wf 0 s.mlk.pbase = true → Memory.wf 0 v.pbase = true) → P s → P (s.putMlk v) := K.upd 14 rfl
  unfold State.tryArm
  repeat' (first
    | with_reducible assumption
    | with_reducible (first | apply State.pairFlags_keeps k0 | apply State.settle_keeps k1 | apply setFlag_keeps | apply t14)
    | with_reducible exact r0
    | with_reducible_and_instances (first | exact fun h => h | exact fun h => Memory.setBytes_wf _ _ h | exact fun h => SMap.put_wf _ _ h | exact fun h => Memory.clearRange_wf _ _ h | exact fun _ => rfl | exact fun h => Memory.setByte_wf _ _ h | exact fun h => Memory.setBytes_wf _ _ (Memory.setBytes_wf _ _ h) | exact fun h => Memory.clearRange_wf _ _ (Memory.clearRange_wf _ _ h) | exact fun h => SMap.filter_wf _ h)
    | exact fun h => SMap.put_wf _ _ h
    | exact fun _ => SMap.nil_wf
    | intro _ _ _ _
    | intro _ _ _
    | intro _ _
    | with_reducible (first | apply ite_keeps | apply ite_keeps_pair)
    | dsimp only
    | split
    | with_reducible (first | apply r0))

/-- Registers `State.disarm` may write. -/
def State.disarm_offs (o : Nat) : Prop :=
  o = MLK_PAIR_STATUS.reg ∨ State.settle_offs o

theorem State.disarm_keeps {P : State → Prop} (K : Keeps P 0x440004070 State.disarm_offs) {s : State} (hs : P s) :
    P (State.disarm s) := by
  have k0 : Keeps P 0x440000070 State.settle_offs := K.sub rfl (fun _ h => .inr (h))
  have r0 := K.reg (MLK_PAIR_STATUS.reg) (.inl rfl)
  have t14 : ∀ (s : State) v, (Memory.wf 0 s.mlk.pbase = true → Memory.wf 0 v.pbase = true) → P s → P (s.putMlk v) := K.upd 14 rfl
  unfold State.disarm
  repeat' (first
    | with_reducible assumption
    | with_reducible (first | apply State.settle_keeps k0 | apply setFlag_keeps | apply t14)
    | with_reducible exact r0
    | with_reducible_and_instances (first | exact fun h => h | exact fun h => Memory.setBytes_wf _ _ h | exact fun h => SMap.put_wf _ _ h | exact fun h => Memory.clearRange_wf _ _ h | exact fun _ => rfl | exact fun h => Memory.setByte_wf _ _ h | exact fun h => Memory.setBytes_wf _ _ (Memory.setBytes_wf _ _ h) | exact fun h => Memory.clearRange_wf _ _ (Memory.clearRange_wf _ _ h) | exact fun h => SMap.filter_wf _ h)
    | exact fun h => SMap.put_wf _ _ h
    | exact fun _ => SMap.nil_wf
    | intro _ _ _ _
    | intro _ _ _
    | intro _ _
    | with_reducible (first | apply ite_keeps | apply ite_keeps_pair)
    | dsimp only
    | split
    | with_reducible (first | apply r0))

/-- Registers `State.cutHome` may write. -/
def State.cutHome_offs (o : Nat) : Prop :=
  State.skipDiag_offs o ∨ State.skipTurn_offs o

theorem State.cutHome_keeps {P : State → Prop} (K : Keeps P 0x4c010e7f4 State.cutHome_offs) {s : State} (hs : P s) :
    P (State.cutHome s) := by
  have k0 : Keeps P 0x4c010c7f4 State.skipDiag_offs := K.sub rfl (fun _ h => .inl h)
  have k1 : Keeps P 0x2100 State.skipTurn_offs := K.sub rfl (fun _ h => .inr (h))
  have t8 : ∀ (s : State) v, P s → P (s.putSched v) := K.upd 8 rfl
  unfold State.cutHome
  repeat' (first
    | with_reducible assumption
    | with_reducible (first | apply State.skipDiag_keeps k0 | apply State.skipTurn_keeps k1 | apply t8)
    | intro _ _ _ _
    | intro _ _ _
    | intro _ _
    | with_reducible (first | apply ite_keeps | apply ite_keeps_pair)
    | dsimp only
    | split)

theorem State.takeOutputs_keeps {P : State → Prop} (K : Keeps P 0x10000 (fun _ => False)) {s : State} (hs : P s) :
    P (State.takeOutputs s) := by
  have k0 : Keeps P 0x10000 (fun _ => False) := K.sub rfl (fun _ h => h.elim)
  unfold State.takeOutputs
  repeat' (first
    | with_reducible assumption
    | with_reducible (first | apply State.setDout_keeps k0 | apply foldl_keeps | apply foldl_keeps_pair)
    | intro _ _ _ _
    | intro _ _ _
    | intro _ _
    | with_reducible (first | apply ite_keeps | apply ite_keeps_pair)
    | dsimp only
    | split)

/-- Registers `State.declareLoss` may write. -/
def State.declareLoss_offs (o : Nat) : Prop :=
  o = MLK_PAIR_STATUS.reg ∨ State.completeWhere_offs o ∨ State.cutHome_offs o ∨ State.diagEvent_offs o ∨
    State.raiseEvent_offs o ∨ State.settle_offs o

theorem State.declareLoss_keeps {P : State → Prop} (K : Keeps P 0x4c011e7f4 State.declareLoss_offs) {s : State} (cause : Nat) (port : Nat) (hs : P s) :
    P (State.declareLoss s cause port) := by
  have k0 : Keeps P 0x440000110 State.completeWhere_offs := K.sub rfl (fun _ h => .inr (.inl h))
  have k1 : Keeps P 0x4c010e7f4 State.cutHome_offs := K.sub rfl (fun _ h => .inr (.inr (.inl h)))
  have k2 : Keeps P 0x4c010c7f4 State.diagEvent_offs := K.sub rfl (fun _ h => .inr (.inr (.inr (.inl h))))
  have k3 : Keeps P 0x440000010 State.raiseEvent_offs := K.sub rfl (fun _ h => .inr (.inr (.inr (.inr (.inl h)))))
  have k4 : Keeps P 0x440000070 State.settle_offs := K.sub rfl (fun _ h => .inr (.inr (.inr (.inr (.inr (h))))))
  have k5 : Keeps P 0x10000 (fun _ => False) := K.sub rfl (fun _ h => h.elim)
  have k6 : Keeps P 0x4 (fun _ => False) := K.sub rfl (fun _ h => h.elim)
  have r0 := K.reg (MLK_PAIR_STATUS.reg) (.inl rfl)
  have t14 : ∀ (s : State) v, (Memory.wf 0 s.mlk.pbase = true → Memory.wf 0 v.pbase = true) → P s → P (s.putMlk v) := K.upd 14 rfl
  unfold State.declareLoss
  repeat' (first
    | with_reducible assumption
    | with_reducible (first | apply State.completeWhere_keeps k0 | apply State.cutHome_keeps k1 | apply State.diagEvent_keeps k2 | apply State.raiseEvent_keeps k3 | apply State.settle_keeps k4 | apply State.takeOutputs_keeps k5 | apply State.withDeg_keeps k6 | apply setFlag_keeps | apply setFld_keeps | apply t14)
    | with_reducible exact r0
    | with_reducible_and_instances (first | exact fun h => h | exact fun h => Memory.setBytes_wf _ _ h | exact fun h => SMap.put_wf _ _ h | exact fun h => Memory.clearRange_wf _ _ h | exact fun _ => rfl | exact fun h => Memory.setByte_wf _ _ h | exact fun h => Memory.setBytes_wf _ _ (Memory.setBytes_wf _ _ h) | exact fun h => Memory.clearRange_wf _ _ (Memory.clearRange_wf _ _ h) | exact fun h => SMap.filter_wf _ h)
    | exact fun h => SMap.put_wf _ _ h
    | exact fun _ => SMap.nil_wf
    | intro _ _ _ _
    | intro _ _ _
    | intro _ _
    | with_reducible (first | apply ite_keeps | apply ite_keeps_pair)
    | dsimp only
    | split
    | with_reducible (first | apply r0))

/-- Registers `State.armedLoss` may write. -/
def State.armedLoss_offs (o : Nat) : Prop :=
  State.declareLoss_offs o

theorem State.armedLoss_keeps {P : State → Prop} (K : Keeps P 0x4c011e7f4 State.armedLoss_offs) {s : State} (cause : Nat) (port : Nat) (hs : P s) :
    P (State.armedLoss s cause port) := by
  have k0 : Keeps P 0x4c011e7f4 State.declareLoss_offs := K.sub rfl (fun _ h => h)
  unfold State.armedLoss
  repeat' (first
    | with_reducible assumption
    | with_reducible (first | apply State.declareLoss_keeps k0)
    | intro _ _ _ _
    | intro _ _ _
    | intro _ _
    | with_reducible (first | apply ite_keeps | apply ite_keeps_pair)
    | dsimp only
    | split)

/-- Registers `execArmWaitExpiry` may write. -/
def execArmWaitExpiry_offs (o : Nat) : Prop :=
  State.declareLoss_offs o

theorem execArmWaitExpiry_keeps {P : State → Prop} (K : Keeps P 0x4c011e7f4 execArmWaitExpiry_offs) {s : State} (hs : P s) :
    ∃ t, (execArmWaitExpiry s) = .next t ∧ P t := by
  have k0 : Keeps P 0x4c011e7f4 State.declareLoss_offs := K.sub rfl (fun _ h => h)
  refine ⟨_, rfl, ?_⟩
  repeat' (first
    | with_reducible assumption
    | with_reducible (first | apply State.declareLoss_keeps k0)
    | intro _ _ _ _
    | intro _ _ _
    | intro _ _
    | with_reducible (first | apply ite_keeps | apply ite_keeps_pair)
    | dsimp only
    | split)

/-- Registers `execFaultMessage` may write. -/
def execFaultMessage_offs (o : Nat) : Prop :=
  o = MLK_FAULT_RX_COUNT.reg ∨ State.armedLoss_offs o

theorem execFaultMessage_keeps {P : State → Prop} (K : Keeps P 0x4c011e7f4 execFaultMessage_offs) {s : State} (l : Fin 4) (seq : BitVec 24) (safe : Bool) (cause : Fin 256) (port : Fin 16) (hs : P s) :
    ∃ t, (execFaultMessage l seq safe cause port s) = .next t ∧ P t := by
  have k0 : Keeps P 0x4c011e7f4 State.armedLoss_offs := K.sub rfl (fun _ h => .inr (h))
  have k1 : Keeps P 0x4000 (fun _ => False) := K.sub rfl (fun _ h => h.elim)
  have r0 := K.reg (MLK_FAULT_RX_COUNT.reg) (.inl rfl)
  refine ⟨_, rfl, ?_⟩
  repeat' (first
    | with_reducible assumption
    | with_reducible (first | apply State.armedLoss_keeps k0 | apply State.receive_keeps k1 | apply bump_keeps)
    | with_reducible exact r0
    | (apply fst_keeps (by assumption))
    | intro _ _ _ _
    | intro _ _ _
    | intro _ _
    | with_reducible (first | apply ite_keeps | apply ite_keeps_pair)
    | dsimp only
    | split
    | with_reducible (first | apply r0))

theorem execHeartbeatSend_keeps {P : State → Prop} (K : Keeps P 0xc0004000 (fun _ => False)) {s : State} (hs : P s) :
    ∃ t, (execHeartbeatSend s) = .next t ∧ P t := by
  have k0 : Keeps P 0xc0004000 (fun _ => False) := K.sub rfl (fun _ h => h.elim)
  refine ⟨_, rfl, ?_⟩
  repeat' (first
    | with_reducible assumption
    | with_reducible (first | apply State.sendAll_keeps k0)
    | intro _ _ _ _
    | intro _ _ _
    | intro _ _
    | with_reducible (first | apply ite_keeps | apply ite_keeps_pair)
    | dsimp only
    | split)

/-- Registers `State.mirrorAck` may write. -/
def State.mirrorAck_offs (o : Nat) : Prop :=
  o = MLK_PAIR_STATUS.reg

theorem State.mirrorAck_keeps {P : State → Prop} (K : Keeps P 0x4000 State.mirrorAck_offs) {s : State} (ack : Nat) (hs : P s) :
    P (State.mirrorAck s ack) := by
  have r0 := K.reg (MLK_PAIR_STATUS.reg) (rfl)
  have t14 : ∀ (s : State) v, (Memory.wf 0 s.mlk.pbase = true → Memory.wf 0 v.pbase = true) → P s → P (s.putMlk v) := K.upd 14 rfl
  unfold State.mirrorAck
  repeat' (first
    | with_reducible assumption
    | with_reducible (first | apply setFlag_keeps | apply t14)
    | with_reducible exact r0
    | with_reducible_and_instances (first | exact fun h => h | exact fun h => Memory.setBytes_wf _ _ h | exact fun h => SMap.put_wf _ _ h | exact fun h => Memory.clearRange_wf _ _ h | exact fun _ => rfl | exact fun h => Memory.setByte_wf _ _ h | exact fun h => Memory.setBytes_wf _ _ (Memory.setBytes_wf _ _ h) | exact fun h => Memory.clearRange_wf _ _ (Memory.clearRange_wf _ _ h) | exact fun h => SMap.filter_wf _ h)
    | exact fun h => SMap.put_wf _ _ h
    | exact fun _ => SMap.nil_wf
    | intro _ _ _ _
    | intro _ _ _
    | intro _ _
    | with_reducible (first | apply ite_keeps | apply ite_keeps_pair)
    | dsimp only
    | split
    | with_reducible (first | apply r0))

/-- Registers `State.imageAlarm` may write. -/
def State.imageAlarm_offs (o : Nat) : Prop :=
  State.pimgUpdate_offs o

theorem State.imageAlarm_keeps {P : State → Prop} (K : Keeps P 0x4000 State.imageAlarm_offs) {s : State} (dout : Nat) (alarm : Nat) (hs : P s) :
    P (State.imageAlarm s dout alarm) := by
  have k0 : Keeps P 0x0 State.pimgUpdate_offs := K.sub rfl (fun _ h => h)
  have k1 : Keeps P 0x4000 (fun _ => False) := K.sub rfl (fun _ h => h.elim)
  unfold State.imageAlarm
  repeat' (first
    | with_reducible assumption
    | with_reducible (first | apply State.pimgUpdate_keeps k0 | apply State.storeImage_keeps k1 | apply foldl_keeps | apply foldl_keeps_pair)
    | intro _ _ _ _
    | intro _ _ _
    | intro _ _
    | with_reducible (first | apply ite_keeps | apply ite_keeps_pair)
    | dsimp only
    | split)

/-- Registers `State.takeHeartbeat` may write. -/
def State.takeHeartbeat_offs (o : Nat) : Prop :=
  o = MLK_PARTNER_HEALTH.reg ∨ State.armedLoss_offs o ∨ State.imageAlarm_offs o ∨ State.mirrorAck_offs o ∨
    State.tryArm_offs o

theorem State.takeHeartbeat_keeps {P : State → Prop} (K : Keeps P 0x4c011e7f4 State.takeHeartbeat_offs) {s : State} (h : Heartbeat) (hs : P s) :
    P (State.takeHeartbeat s h) := by
  have k0 : Keeps P 0x4c011e7f4 State.armedLoss_offs := K.sub rfl (fun _ h => .inr (.inl h))
  have k1 : Keeps P 0x4000 State.imageAlarm_offs := K.sub rfl (fun _ h => .inr (.inr (.inl h)))
  have k2 : Keeps P 0x4000 State.mirrorAck_offs := K.sub rfl (fun _ h => .inr (.inr (.inr (.inl h))))
  have k3 : Keeps P 0x440004070 State.tryArm_offs := K.sub rfl (fun _ h => .inr (.inr (.inr (.inr (h)))))
  have r0 := K.reg (MLK_PARTNER_HEALTH.reg) (.inl rfl)
  have t14 : ∀ (s : State) v, (Memory.wf 0 s.mlk.pbase = true → Memory.wf 0 v.pbase = true) → P s → P (s.putMlk v) := K.upd 14 rfl
  unfold State.takeHeartbeat
  repeat' (first
    | with_reducible assumption
    | with_reducible (first | apply State.armedLoss_keeps k0 | apply State.imageAlarm_keeps k1 | apply State.mirrorAck_keeps k2 | apply State.tryArm_keeps k3 | apply setNat_keeps | apply t14)
    | with_reducible exact r0
    | with_reducible_and_instances (first | exact fun h => h | exact fun h => Memory.setBytes_wf _ _ h | exact fun h => SMap.put_wf _ _ h | exact fun h => Memory.clearRange_wf _ _ h | exact fun _ => rfl | exact fun h => Memory.setByte_wf _ _ h | exact fun h => Memory.setBytes_wf _ _ (Memory.setBytes_wf _ _ h) | exact fun h => Memory.clearRange_wf _ _ (Memory.clearRange_wf _ _ h) | exact fun h => SMap.filter_wf _ h)
    | exact fun h => SMap.put_wf _ _ h
    | exact fun _ => SMap.nil_wf
    | intro _ _ _ _
    | intro _ _ _
    | intro _ _
    | with_reducible (first | apply ite_keeps | apply ite_keeps_pair)
    | dsimp only
    | split
    | with_reducible (first | apply r0))

/-- Registers `execHeartbeat` may write. -/
def execHeartbeat_offs (o : Nat) : Prop :=
  State.takeHeartbeat_offs o

theorem execHeartbeat_keeps {P : State → Prop} (K : Keeps P 0x4c011e7f4 execHeartbeat_offs) {s : State} (l : Fin 4) (seq : BitVec 24) (h : Heartbeat) (hs : P s) :
    ∃ t, (execHeartbeat l seq h s) = .next t ∧ P t := by
  have k0 : Keeps P 0x4000 (fun _ => False) := K.sub rfl (fun _ h => h.elim)
  have k1 : Keeps P 0x4c011e7f4 State.takeHeartbeat_offs := K.sub rfl (fun _ h => h)
  refine ⟨_, rfl, ?_⟩
  repeat' (first
    | with_reducible assumption
    | with_reducible (first | apply State.receive_keeps k0 | apply State.takeHeartbeat_keeps k1)
    | (apply fst_keeps (by assumption))
    | intro _ _ _ _
    | intro _ _ _
    | intro _ _
    | with_reducible (first | apply ite_keeps | apply ite_keeps_pair)
    | dsimp only
    | split)

/-- Registers `execMissedHeartbeat` may write. -/
def execMissedHeartbeat_offs (o : Nat) : Prop :=
  o = MLK_HB_MISS_COUNT.reg ∨ State.armedLoss_offs o

theorem execMissedHeartbeat_keeps {P : State → Prop} (K : Keeps P 0x4c011e7f4 execMissedHeartbeat_offs) {s : State} (hs : P s) :
    ∃ t, (execMissedHeartbeat s) = .next t ∧ P t := by
  have k0 : Keeps P 0x4c011e7f4 State.armedLoss_offs := K.sub rfl (fun _ h => .inr (h))
  have r0 := K.reg (MLK_HB_MISS_COUNT.reg) (.inl rfl)
  have t14 : ∀ (s : State) v, (Memory.wf 0 s.mlk.pbase = true → Memory.wf 0 v.pbase = true) → P s → P (s.putMlk v) := K.upd 14 rfl
  refine ⟨_, rfl, ?_⟩
  repeat' (first
    | with_reducible assumption
    | with_reducible (first | apply State.armedLoss_keeps k0 | apply bump_keeps | apply t14)
    | with_reducible exact r0
    | with_reducible_and_instances (first | exact fun h => h | exact fun h => Memory.setBytes_wf _ _ h | exact fun h => SMap.put_wf _ _ h | exact fun h => Memory.clearRange_wf _ _ h | exact fun _ => rfl | exact fun h => Memory.setByte_wf _ _ h | exact fun h => Memory.setBytes_wf _ _ (Memory.setBytes_wf _ _ h) | exact fun h => Memory.clearRange_wf _ _ (Memory.clearRange_wf _ _ h) | exact fun h => SMap.filter_wf _ h)
    | exact fun h => SMap.put_wf _ _ h
    | exact fun _ => SMap.nil_wf
    | intro _ _ _ _
    | intro _ _ _
    | intro _ _
    | with_reducible (first | apply ite_keeps | apply ite_keeps_pair)
    | dsimp only
    | split
    | with_reducible (first | apply r0))

/-- Registers `State.takeIdentity` may write. -/
def State.takeIdentity_offs (o : Nat) : Prop :=
  o = MLK_PARTNER_INFO.reg ∨ State.resync_offs o ∨ State.setLink_offs o ∨ State.tryArm_offs o

theorem State.takeIdentity_keeps {P : State → Prop} (K : Keeps P 0x4c0004070 State.takeIdentity_offs) {s : State} (i : Identity) (hs : P s) :
    P (State.takeIdentity s i) := by
  have k0 : Keeps P 0xc0004000 State.resync_offs := K.sub rfl (fun _ h => .inr (.inl h))
  have k1 : Keeps P 0xc0004000 (fun _ => False) := K.sub rfl (fun _ h => h.elim)
  have k2 : Keeps P 0x0 State.setLink_offs := K.sub rfl (fun _ h => .inr (.inr (.inl h)))
  have k3 : Keeps P 0x440004070 State.tryArm_offs := K.sub rfl (fun _ h => .inr (.inr (.inr (h))))
  have r0 := K.reg (MLK_PARTNER_INFO.reg) (.inl rfl)
  have t14 : ∀ (s : State) v, (Memory.wf 0 s.mlk.pbase = true → Memory.wf 0 v.pbase = true) → P s → P (s.putMlk v) := K.upd 14 rfl
  unfold State.takeIdentity
  repeat' (first
    | with_reducible assumption
    | with_reducible (first | apply State.resync_keeps k0 | apply State.sendIdentity_keeps k1 | apply State.setLink_keeps k2 | apply State.tryArm_keeps k3 | apply setNat_keeps | apply t14)
    | with_reducible exact r0
    | with_reducible_and_instances (first | exact fun h => h | exact fun h => Memory.setBytes_wf _ _ h | exact fun h => SMap.put_wf _ _ h | exact fun h => Memory.clearRange_wf _ _ h | exact fun _ => rfl | exact fun h => Memory.setByte_wf _ _ h | exact fun h => Memory.setBytes_wf _ _ (Memory.setBytes_wf _ _ h) | exact fun h => Memory.clearRange_wf _ _ (Memory.clearRange_wf _ _ h) | exact fun h => SMap.filter_wf _ h)
    | exact fun h => SMap.put_wf _ _ h
    | exact fun _ => SMap.nil_wf
    | intro _ _ _ _
    | intro _ _ _
    | intro _ _
    | with_reducible (first | apply ite_keeps | apply ite_keeps_pair)
    | dsimp only
    | split
    | with_reducible (first | apply r0))

/-- Registers `execIdentity` may write. -/
def execIdentity_offs (o : Nat) : Prop :=
  State.takeIdentity_offs o

theorem execIdentity_keeps {P : State → Prop} (K : Keeps P 0x4c0004070 execIdentity_offs) {s : State} (l : Fin 4) (seq : BitVec 24) (i : Identity) (hs : P s) :
    ∃ t, (execIdentity l seq i s) = .next t ∧ P t := by
  have k0 : Keeps P 0x4000 (fun _ => False) := K.sub rfl (fun _ h => h.elim)
  have k1 : Keeps P 0x4c0004070 State.takeIdentity_offs := K.sub rfl (fun _ h => h)
  refine ⟨_, rfl, ?_⟩
  repeat' (first
    | with_reducible assumption
    | with_reducible (first | apply State.receive_keeps k0 | apply State.takeIdentity_keeps k1)
    | (apply fst_keeps (by assumption))
    | intro _ _ _ _
    | intro _ _ _
    | intro _ _
    | with_reducible (first | apply ite_keeps | apply ite_keeps_pair)
    | dsimp only
    | split)

/-- Registers `State.checkTko` may write. -/
def State.checkTko_offs (o : Nat) : Prop :=
  (∃ n, o = MLK_LOOP_STATUS.reg n) ∨ o = MLK_PAIR_STATUS.reg ∨ o = MLK_TKO_CHECK.reg

theorem State.checkTko_keeps {P : State → Prop} (K : Keeps P 0x4000 State.checkTko_offs) {s : State} (hs : P s) :
    P (State.checkTko s) := by
  have r0 := fun n => K.reg (MLK_LOOP_STATUS.reg n) (.inl ⟨n, rfl⟩)
  have r1 := K.reg (MLK_PAIR_STATUS.reg) (.inr (.inl rfl))
  have r2 := K.reg (MLK_TKO_CHECK.reg) (.inr (.inr (rfl)))
  have t14 : ∀ (s : State) v, (Memory.wf 0 s.mlk.pbase = true → Memory.wf 0 v.pbase = true) → P s → P (s.putMlk v) := K.upd 14 rfl
  unfold State.checkTko
  repeat' (first
    | with_reducible assumption
    | with_reducible (first | apply setFlag_keeps | apply setFld_keeps | apply setNat_keeps | apply foldl_keeps | apply foldl_keeps_pair | apply t14)
    | with_reducible exact r0 _
    | with_reducible exact r1
    | with_reducible exact r2
    | with_reducible_and_instances (first | exact fun h => h | exact fun h => Memory.setBytes_wf _ _ h | exact fun h => SMap.put_wf _ _ h | exact fun h => Memory.clearRange_wf _ _ h | exact fun _ => rfl | exact fun h => Memory.setByte_wf _ _ h | exact fun h => Memory.setBytes_wf _ _ (Memory.setBytes_wf _ _ h) | exact fun h => Memory.clearRange_wf _ _ (Memory.clearRange_wf _ _ h) | exact fun h => SMap.filter_wf _ h)
    | exact fun h => SMap.put_wf _ _ h
    | exact fun _ => SMap.nil_wf
    | intro _ _ _ _
    | intro _ _ _
    | intro _ _
    | with_reducible (first | apply ite_keeps | apply ite_keeps_pair)
    | dsimp only
    | split
    | with_reducible (first | apply r0 | apply r1 | apply r2))

end Sys2Proof.Machine
end

