-- ==== Sys2Proof/Laws/KFields.lean ====
section
/-!
SUPPORT. What the operations of Sys2Proof.Machine.Fields keep, and the registers they may write.
-/
namespace Sys2Proof.Machine

/-- Registers `State.applyEdits` may write. -/
def State.applyEdits_offs (_o : Nat) : Prop :=
  True

theorem State.applyEdits_keeps {P : State → Prop} (K : Keeps P 0x0 State.applyEdits_offs) {s : State} (es : List FieldEdit) (hs : P s) :
    P (State.applyEdits s es) := by
  have ra : ∀ o s w, P s → P (State.setReg s o w) := fun o => K.reg o trivial
  unfold State.applyEdits
  repeat' (first
    | with_reducible assumption
    | with_reducible (first | apply setReg_keeps | apply foldl_keeps | apply foldl_keeps_pair)
    | with_reducible exact ra _
    | intro _ _ _ _
    | intro _ _ _
    | intro _ _
    | with_reducible (first | apply ite_keeps | apply ite_keeps_pair)
    | dsimp only
    | split
    | with_reducible (first | apply ra))

/-- Registers `State.auxChange` may write. -/
def State.auxChange_offs (o : Nat) : Prop :=
  State.countPause_offs o ∨ State.setBlankActive_offs o ∨ State.setRef_offs o

theorem State.auxChange_keeps {P : State → Prop} (K : Keeps P 0x440028570 State.auxChange_offs) {old : State} {s : State} (hs : P s) :
    P (State.auxChange old s) := by
  have k0 : Keeps P 0x400 State.countPause_offs := K.sub rfl (fun _ h => .inl h)
  have k1 : Keeps P 0x440028570 State.setBlankActive_offs := K.sub rfl (fun _ h => .inr (.inl h))
  have k2 : Keeps P 0x400 State.setRef_offs := K.sub rfl (fun _ h => .inr (.inr (h)))
  unfold State.auxChange
  repeat' (first
    | with_reducible assumption
    | with_reducible (first | apply State.countPause_keeps k0 | apply State.setBlankActive_keeps k1 | apply State.setRef_keeps k2 | apply foldl_keeps | apply foldl_keeps_pair)
    | intro _ _ _ _
    | intro _ _ _
    | intro _ _
    | with_reducible (first | apply ite_keeps | apply ite_keeps_pair)
    | dsimp only
    | split)

theorem State.tileChange_keeps {P : State → Prop} (K : Keeps P 0x40000 (fun _ => False)) {old : State} {s : State} (hs : P s) :
    P (State.tileChange old s) := by
  have k0 : Keeps P 0x40000 (fun _ => False) := K.sub rfl (fun _ h => h.elim)
  unfold State.tileChange
  repeat' (first
    | with_reducible assumption
    | with_reducible (first | apply State.setPort_keeps k0 | apply foldl_keeps | apply foldl_keeps_pair)
    | intro _ _ _ _
    | intro _ _ _
    | intro _ _
    | with_reducible (first | apply ite_keeps | apply ite_keeps_pair)
    | dsimp only
    | split)

/-- Registers `State.pairChange` may write. -/
def State.pairChange_offs (o : Nat) : Prop :=
  State.disarm_offs o

theorem State.pairChange_keeps {P : State → Prop} (K : Keeps P 0x440004070 State.pairChange_offs) {old : State} {s : State} (hs : P s) :
    P (State.pairChange old s) := by
  have k0 : Keeps P 0x440004070 State.disarm_offs := K.sub rfl (fun _ h => h)
  unfold State.pairChange
  repeat' (first
    | with_reducible assumption
    | with_reducible (first | apply State.disarm_keeps k0)
    | intro _ _ _ _
    | intro _ _ _
    | intro _ _
    | with_reducible (first | apply ite_keeps | apply ite_keeps_pair)
    | dsimp only
    | split)

end Sys2Proof.Machine
end

