-- ==== Sys2Proof/Laws/KActs.lean ====
section
/-!
SUPPORT. What the operations of Sys2Proof.Machine.Acts keep, and the registers they may write.
-/
namespace Sys2Proof.Machine

/-- Registers `State.putCfg` may write. -/
def State.putCfg_offs (_o : Nat) : Prop :=
  True

theorem State.putCfg_keeps {P : State → Prop} (K : Keeps P 0x0 State.putCfg_offs) {s : State} (c : Cfg) (hs : P s) :
    P (State.putCfg s c) := by
  have ra : ∀ o s w, P s → P (State.setReg s o w) := fun o => K.reg o trivial
  unfold State.putCfg
  repeat' (first
    | with_reducible assumption
    | with_reducible (first | apply setReg_keeps | apply foldl_keeps | apply foldl_keeps_pair)
    | with_reducible exact ra _
    | intro _ _ _ _
    | intro _ _ _
    | intro _ _
    | with_reducible (first | apply ite_keeps | apply ite_keeps_pair)
    | dsimp only
    | split
    | with_reducible (first | apply ra))

theorem State.resetShadow_keeps {P : State → Prop} (K : Keeps P 0x100 (fun _ => False)) {s : State} (hs : P s) :
    P (State.resetShadow s) := by
  have t8 : ∀ (s : State) v, P s → P (s.putSched v) := K.upd 8 rfl
  unfold State.resetShadow
  repeat' (first
    | with_reducible assumption
    | with_reducible (first | apply t8)
    | intro _ _ _ _
    | intro _ _ _
    | intro _ _
    | with_reducible (first | apply ite_keeps | apply ite_keeps_pair)
    | dsimp only
    | split)

/-- Registers `State.showPlanRate` may write. -/
def State.showPlanRate_offs (o : Nat) : Prop :=
  o = CMP_PLAN_RATE.reg

theorem State.showPlanRate_keeps {P : State → Prop} (K : Keeps P 0x0 State.showPlanRate_offs) {s : State} (hs : P s) :
    P (State.showPlanRate s) := by
  have r0 := K.reg (CMP_PLAN_RATE.reg) (rfl)
  unfold State.showPlanRate
  repeat' (first
    | with_reducible assumption
    | with_reducible (first | apply setNat_keeps | apply foldl_keeps | apply foldl_keeps_pair)
    | with_reducible exact r0
    | intro _ _ _ _
    | intro _ _ _
    | intro _ _
    | with_reducible (first | apply ite_keeps | apply ite_keeps_pair)
    | dsimp only
    | split
    | with_reducible (first | apply r0))

/-- Registers `State.showRates` may write. -/
def State.showRates_offs (o : Nat) : Prop :=
  o = AUX_PASS_TIME.reg ∨ o = SRC_DIAG_STATUS.reg ∨ State.showBinRate_offs o ∨ State.showCapPlan_offs o ∨
    State.showCellRate_offs o ∨ State.showPlanRate_offs o ∨ State.showRegions_offs o

theorem State.showRates_keeps {P : State → Prop} (K : Keeps P 0x0 State.showRates_offs) {s : State} (hs : P s) :
    P (State.showRates s) := by
  have k0 : Keeps P 0x0 State.showBinRate_offs := K.sub rfl (fun _ h => .inr (.inr (.inl h)))
  have k1 : Keeps P 0x0 State.showCapPlan_offs := K.sub rfl (fun _ h => .inr (.inr (.inr (.inl h))))
  have k2 : Keeps P 0x0 State.showCellRate_offs := K.sub rfl (fun _ h => .inr (.inr (.inr (.inr (.inl h)))))
  have k3 : Keeps P 0x0 State.showPlanRate_offs := K.sub rfl (fun _ h => .inr (.inr (.inr (.inr (.inr (.inl h))))))
  have k4 : Keeps P 0x0 State.showRegions_offs := K.sub rfl (fun _ h => .inr (.inr (.inr (.inr (.inr (.inr (h)))))))
  have r0 := K.reg (AUX_PASS_TIME.reg) (.inl rfl)
  have r1 := K.reg (SRC_DIAG_STATUS.reg) (.inr (.inl rfl))
  unfold State.showRates
  repeat' (first
    | with_reducible assumption
    | with_reducible (first | apply State.showBinRate_keeps k0 | apply State.showCapPlan_keeps k1 | apply State.showCellRate_keeps k2 | apply State.showPlanRate_keeps k3 | apply State.showRegions_keeps k4 | apply setFlag_keeps | apply setNat_keeps | apply foldl_keeps | apply foldl_keeps_pair)
    | with_reducible exact r0
    | with_reducible exact r1
    | intro _ _ _ _
    | intro _ _ _
    | intro _ _
    | with_reducible (first | apply ite_keeps | apply ite_keeps_pair)
    | dsimp only
    | split
    | with_reducible (first | apply r0 | apply r1))

/-- Registers `State.markActive` may write. -/
def State.markActive_offs (o : Nat) : Prop :=
  o = LCH_ACTIVE_ROUND_LO.reg ∨ o = LCH_ACTIVE_ROUND_LO.reg + 4

theorem State.markActive_keeps {P : State → Prop} (K : Keeps P 0x0 State.markActive_offs) {s : State} (hs : P s) :
    P (State.markActive s) := by
  have r0 := K.reg (LCH_ACTIVE_ROUND_LO.reg) (.inl rfl)
  have r1 := K.reg (LCH_ACTIVE_ROUND_LO.reg + 4) (.inr (rfl))
  unfold State.markActive
  repeat' (first
    | with_reducible assumption
    | with_reducible (first | apply setReg64_keeps)
    | with_reducible exact r0
    | with_reducible exact r1
    | intro _ _ _ _
    | intro _ _ _
    | intro _ _
    | with_reducible (first | apply ite_keeps | apply ite_keeps_pair)
    | dsimp only
    | split
    | with_reducible (first | apply r0 | apply r1))

/-- Registers `State.calAgain` may write. -/
def State.calAgain_offs (o : Nat) : Prop :=
  State.calAbort_offs o ∨ State.calStart_offs o

theorem State.calAgain_keeps {P : State → Prop} (K : Keeps P 0x440000210 State.calAgain_offs) {s : State} (hs : P s) :
    P (State.calAgain s) := by
  have k0 : Keeps P 0x440000210 State.calAbort_offs := K.sub rfl (fun _ h => .inl h)
  have k1 : Keeps P 0x440000210 State.calStart_offs := K.sub rfl (fun _ h => .inr (h))
  unfold State.calAgain
  repeat' (first
    | with_reducible assumption
    | with_reducible (first | apply State.calAbort_keeps k0 | apply State.calStart_keeps k1)
    | intro _ _ _ _
    | intro _ _ _
    | intro _ _
    | with_reducible (first | apply ite_keeps | apply ite_keeps_pair)
    | dsimp only
    | split)

theorem State.ecoBegin_keeps {P : State → Prop} (K : Keeps P 0x80 (fun _ => False)) {s : State} (hs : P s) :
    P (State.ecoBegin s) := by
  have k0 : Keeps P 0x80 (fun _ => False) := K.sub rfl (fun _ h => h.elim)
  unfold State.ecoBegin
  repeat' (first
    | with_reducible assumption
    | with_reducible (first | apply State.setGate_keeps k0)
    | intro _ _ _ _
    | intro _ _ _
    | intro _ _
    | with_reducible (first | apply ite_keeps | apply ite_keeps_pair)
    | dsimp only
    | split)

theorem State.beltBase_keeps {P : State → Prop} (K : Keeps P 0x100 (fun _ => False)) {s : State} (hs : P s) :
    P (State.beltBase s) := by
  have t8 : ∀ (s : State) v, P s → P (s.putSched v) := K.upd 8 rfl
  unfold State.beltBase
  repeat' (first
    | with_reducible assumption
    | with_reducible (first | apply t8)
    | intro _ _ _ _
    | intro _ _ _
    | intro _ _
    | with_reducible (first | apply ite_keeps | apply ite_keeps_pair)
    | dsimp only
    | split)

/-- Registers `State.takeCfg` may write. -/
def State.takeCfg_offs (o : Nat) : Prop :=
  o = SRC_LOSHIFT.reg ∨ State.brlRestartAll_offs o ∨ State.markActive_offs o ∨ State.putCfg_offs o ∨
    State.showRates_offs o

theorem State.takeCfg_keeps {P : State → Prop} (K : Keeps P 0x3002180 State.takeCfg_offs) {s : State} (c : Cfg) (hs : P s) :
    P (State.takeCfg s c) := by
  have k0 : Keeps P 0x100 (fun _ => False) := K.sub rfl (fun _ h => h.elim)
  have k1 : Keeps P 0x3002000 State.brlRestartAll_offs := K.sub rfl (fun _ h => .inr (.inl h))
  have k2 : Keeps P 0x80 (fun _ => False) := K.sub rfl (fun _ h => h.elim)
  have k3 : Keeps P 0x0 State.markActive_offs := K.sub rfl (fun _ h => .inr (.inr (.inl h)))
  have k4 : Keeps P 0x0 State.putCfg_offs := K.sub rfl (fun _ h => .inr (.inr (.inr (.inl h))))
  have k5 : Keeps P 0x0 State.showRates_offs := K.sub rfl (fun _ h => .inr (.inr (.inr (.inr (h)))))
  have r0 := K.reg (SRC_LOSHIFT.reg) (.inl rfl)
  have t8 : ∀ (s : State) v, P s → P (s.putSched v) := K.upd 8 rfl
  unfold State.takeCfg
  repeat' (first
    | with_reducible assumption
    | with_reducible (first | apply State.beltBase_keeps k0 | apply State.brlRestartAll_keeps k1 | apply State.ecoBegin_keeps k2 | apply State.markActive_keeps k3 | apply State.putCfg_keeps k4 | apply State.showRates_keeps k5 | apply setFlag_keeps | apply t8)
    | with_reducible exact r0
    | intro _ _ _ _
    | intro _ _ _
    | intro _ _
    | with_reducible (first | apply ite_keeps | apply ite_keeps_pair)
    | dsimp only
    | split
    | with_reducible (first | apply r0))

/-- Registers `State.actCommit` may write. -/
def State.actCommit_offs (o : Nat) : Prop :=
  State.calAgain_offs o ∨ State.clearPending_offs o ∨ State.takeCfg_offs o

theorem State.actCommit_keeps {P : State → Prop} (K : Keeps P 0x443002390 State.actCommit_offs) {s : State} (hs : P s) :
    P (State.actCommit s).1 := by
  have k0 : Keeps P 0x440000210 State.calAgain_offs := K.sub rfl (fun _ h => .inl h)
  have k1 : Keeps P 0x100 State.clearPending_offs := K.sub rfl (fun _ h => .inr (.inl h))
  have k2 : Keeps P 0x3002180 State.takeCfg_offs := K.sub rfl (fun _ h => .inr (.inr (h)))
  have t8 : ∀ (s : State) v, P s → P (s.putSched v) := K.upd 8 rfl
  unfold State.actCommit
  repeat' (first
    | with_reducible assumption
    | with_reducible (first | apply State.calAgain_keeps k0 | apply State.clearPending_keeps k1 | apply State.takeCfg_keeps k2 | apply t8)
    | intro _ _ _ _
    | intro _ _ _
    | intro _ _
    | with_reducible (first | apply ite_keeps | apply ite_keeps_pair)
    | dsimp only
    | split)

/-- Registers `State.actList` may write. -/
def State.actList_offs (o : Nat) : Prop :=
  o = DMC_CONFLICT.reg ∨ State.applyEdits_offs o ∨ State.showConflict_offs o

theorem State.actList_keeps {P : State → Prop} (K : Keeps P 0x0 State.actList_offs) {s : State} (c : PendCmd) (follow : State → State → State) (hs : P s) (hf : ∀ s t, P s → P t → P (follow s t)) :
    P (State.actList s c follow).1 := by
  have k0 : Keeps P 0x0 State.applyEdits_offs := K.sub rfl (fun _ h => .inr (.inl h))
  have k1 : Keeps P 0x0 State.showConflict_offs := K.sub rfl (fun _ h => .inr (.inr (h)))
  have r0 := K.reg (DMC_CONFLICT.reg) (.inl rfl)
  unfold State.actList
  repeat' (first
    | with_reducible assumption
    | with_reducible (first | apply State.applyEdits_keeps k0 | apply State.showConflict_keeps k1 | apply setNat_keeps)
    | with_reducible apply hf
    | with_reducible exact r0
    | intro _ _ _ _
    | intro _ _ _
    | intro _ _
    | with_reducible (first | apply ite_keeps | apply ite_keeps_pair)
    | dsimp only
    | split
    | with_reducible (first | apply r0))

/-- Registers `State.trgFollow` may write. -/
def State.trgFollow_offs (o : Nat) : Prop :=
  State.trgChangeAll_offs o

theorem State.trgFollow_keeps {P : State → Prop} (K : Keeps P 0x440048070 State.trgFollow_offs) {old : State} {new : State} (hnew : P new) :
    P (State.trgFollow old new) := by
  have k0 : Keeps P 0x40000 (fun _ => False) := K.sub rfl (fun _ h => h.elim)
  have k1 : Keeps P 0x440008070 State.trgChangeAll_offs := K.sub rfl (fun _ h => h)
  unfold State.trgFollow
  repeat' (first
    | with_reducible assumption
    | with_reducible (first | apply State.tileChange_keeps k0 | apply State.trgChangeAll_keeps k1)
    | intro _ _ _ _
    | intro _ _ _
    | intro _ _
    | with_reducible (first | apply ite_keeps | apply ite_keeps_pair)
    | dsimp only
    | split)

/-- Registers `State.dmcFollow` may write. -/
def State.dmcFollow_offs (o : Nat) : Prop :=
  State.fspRequest_offs o

theorem State.dmcFollow_keeps {P : State → Prop} (K : Keeps P 0x2000000 State.dmcFollow_offs) {_old : State} {new : State} (hnew : P new) :
    P (State.dmcFollow _old new) := by
  have k0 : Keeps P 0x2000000 State.fspRequest_offs := K.sub rfl (fun _ h => h)
  unfold State.dmcFollow
  repeat' (first
    | with_reducible assumption
    | with_reducible (first | apply State.fspRequest_keeps k0)
    | intro _ _ _ _
    | intro _ _ _
    | intro _ _
    | with_reducible (first | apply ite_keeps | apply ite_keeps_pair)
    | dsimp only
    | split)

/-- Registers `State.pairFollow` may write. -/
def State.pairFollow_offs (o : Nat) : Prop :=
  State.checkTko_offs o ∨ State.pairChange_offs o

theorem State.pairFollow_keeps {P : State → Prop} (K : Keeps P 0x440004070 State.pairFollow_offs) {old : State} {new : State} (writes : Bool) (hnew : P new) :
    P (State.pairFollow writes old new) := by
  have k0 : Keeps P 0x4000 State.checkTko_offs := K.sub rfl (fun _ h => .inl h)
  have k1 : Keeps P 0x440004070 State.pairChange_offs := K.sub rfl (fun _ h => .inr (h))
  unfold State.pairFollow
  repeat' (first
    | with_reducible assumption
    | with_reducible (first | apply State.checkTko_keeps k0 | apply State.pairChange_keeps k1)
    | intro _ _ _ _
    | intro _ _ _
    | intro _ _
    | with_reducible (first | apply ite_keeps | apply ite_keeps_pair)
    | dsimp only
    | split)

/-- Registers `State.restorePort` may write. -/
def State.restorePort_offs (o : Nat) : Prop :=
  (∃ n, o = PRT_INTEG_STATUS.reg n) ∨ o = SAF_STATUS.reg ∨ State.setApr_offs o ∨ State.settle_offs o

theorem State.restorePort_keeps {P : State → Prop} (K : Keeps P 0x440040074 State.restorePort_offs) {s : State} (n : Nat) (hs : P s) :
    P (State.restorePort s n) := by
  have k0 : Keeps P 0x40 (fun _ => False) := K.sub rfl (fun _ h => h.elim)
  have k1 : Keeps P 0x40000 State.setApr_offs := K.sub rfl (fun _ h => .inr (.inr (.inl h)))
  have k2 : Keeps P 0x440000070 State.settle_offs := K.sub rfl (fun _ h => .inr (.inr (.inr (h))))
  have k3 : Keeps P 0x4 (fun _ => False) := K.sub rfl (fun _ h => h.elim)
  have r0 := fun n => K.reg (PRT_INTEG_STATUS.reg n) (.inl ⟨n, rfl⟩)
  have r1 := K.reg (SAF_STATUS.reg) (.inr (.inl rfl))
  have t2 : ∀ (s : State) v, (v.dev = s.ctl.dev ∨ ¬ s.ctl.dev = .safe) → P s → P (s.putCtl v) := K.upd 2 rfl
  unfold State.restorePort
  repeat' (first
    | with_reducible assumption
    | with_reducible (first | apply State.clearPortDiags_keeps k0 | apply State.setApr_keeps k1 | apply State.settle_keeps k2 | apply State.withDeg_keeps k3 | apply setFlag_keeps | apply setFld_keeps | apply t2)
    | with_reducible exact r0 _
    | with_reducible exact r1
    | with_reducible exact Or.inl rfl
    | exact Or.inr (by assumption)
    | intro _ _ _ _
    | intro _ _ _
    | intro _ _
    | with_reducible (first | apply ite_keeps | apply ite_keeps_pair)
    | dsimp only
    | split
    | with_reducible (first | apply r0 | apply r1))

/-- Registers `State.actRestore` may write. -/
def State.actRestore_offs (o : Nat) : Prop :=
  State.restorePort_offs o

theorem State.actRestore_keeps {P : State → Prop} (K : Keeps P 0x440040074 State.actRestore_offs) {s : State} (n : Nat) (hs : P s) :
    P (State.actRestore s n).1 := by
  have k0 : Keeps P 0x440040074 State.restorePort_offs := K.sub rfl (fun _ h => h)
  unfold State.actRestore
  repeat' (first
    | with_reducible assumption
    | with_reducible (first | apply State.restorePort_keeps k0)
    | intro _ _ _ _
    | intro _ _ _
    | intro _ _
    | with_reducible (first | apply ite_keeps | apply ite_keeps_pair)
    | dsimp only
    | split)

/-- Registers `State.actRebase` may write. -/
def State.actRebase_offs (o : Nat) : Prop :=
  (∃ n, o = PRT_INTEG_STATUS.reg n)

theorem State.actRebase_keeps {P : State → Prop} (K : Keeps P 0x40000 State.actRebase_offs) {s : State} (mask : Nat) (hs : P s) :
    P (State.actRebase s mask) := by
  have k0 : Keeps P 0x40000 (fun _ => False) := K.sub rfl (fun _ h => h.elim)
  have r0 := fun n => K.reg (PRT_INTEG_STATUS.reg n) (⟨n, rfl⟩)
  unfold State.actRebase
  repeat' (first
    | with_reducible assumption
    | with_reducible (first | apply State.setPort_keeps k0 | apply setFlag_keeps | apply foldl_keeps | apply foldl_keeps_pair)
    | with_reducible exact r0 _
    | intro _ _ _ _
    | intro _ _ _
    | intro _ _
    | with_reducible (first | apply ite_keeps | apply ite_keeps_pair)
    | dsimp only
    | split
    | with_reducible (first | apply r0))

/-- Registers `State.actUnits` may write. -/
def State.actUnits_offs (o : Nat) : Prop :=
  State.settle_offs o

theorem State.actUnits_keeps {P : State → Prop} (K : Keeps P 0x440000070 State.actUnits_offs) {s : State} (mask : Nat) (f : State → Nat → State × Bool) (hs : P s) (hf : ∀ s u, P s → P (f s u).1) :
    P (State.actUnits s mask f).1 := by
  have k0 : Keeps P 0x440000070 State.settle_offs := K.sub rfl (fun _ h => h)
  unfold State.actUnits
  repeat' (first
    | with_reducible assumption
    | with_reducible (first | apply State.settle_keeps k0 | apply foldl_keeps | apply foldl_keeps_pair)
    | with_reducible apply hf
    | intro _ _ _ _
    | intro _ _ _
    | intro _ _
    | with_reducible (first | apply ite_keeps | apply ite_keeps_pair)
    | dsimp only
    | split)

/-- Registers `State.actDouts` may write. -/
def State.actDouts_offs (o : Nat) : Prop :=
  (∃ n, o = TRG_DOUT_STATUS.reg n)

theorem State.actDouts_keeps {P : State → Prop} (K : Keeps P 0x10000 State.actDouts_offs) {s : State} (mask : Nat) (on : Bool) (hs : P s) :
    P (State.actDouts s mask on) := by
  have k0 : Keeps P 0x10000 (fun _ => False) := K.sub rfl (fun _ h => h.elim)
  have r0 := fun n => K.reg (TRG_DOUT_STATUS.reg n) (⟨n, rfl⟩)
  unfold State.actDouts
  repeat' (first
    | with_reducible assumption
    | with_reducible (first | apply State.setDout_keeps k0 | apply setFlag_keeps | apply foldl_keeps | apply foldl_keeps_pair)
    | with_reducible exact r0 _
    | intro _ _ _ _
    | intro _ _ _
    | intro _ _
    | with_reducible (first | apply ite_keeps | apply ite_keeps_pair)
    | dsimp only
    | split
    | with_reducible (first | apply r0))

/-- Registers `State.actRefLoad` may write. -/
def State.actRefLoad_offs (o : Nat) : Prop :=
  State.refWrite_offs o

theorem State.actRefLoad_keeps {P : State → Prop} (K : Keeps P 0xc3004000 State.actRefLoad_offs) {s : State} (n : Nat) (first : Nat) (ws : List Word) (hs : P s) :
    P (State.actRefLoad s n first ws).1 := by
  have k0 : Keeps P 0xc0004000 (fun _ => False) := K.sub rfl (fun _ h => h.elim)
  have k1 : Keeps P 0x3000000 State.refWrite_offs := K.sub rfl (fun _ h => h)
  unfold State.actRefLoad
  repeat' (first
    | with_reducible assumption
    | with_reducible (first | apply State.mirrorRefs_keeps k0 | apply State.refWrite_keeps k1)
    | intro _ _ _ _
    | intro _ _ _
    | intro _ _
    | with_reducible (first | apply ite_keeps | apply ite_keeps_pair)
    | dsimp only
    | split)

/-- Registers `State.actRefLearn` may write. -/
def State.actRefLearn_offs (o : Nat) : Prop :=
  State.refLearn_offs o

theorem State.actRefLearn_keeps {P : State → Prop} (K : Keeps P 0x3002000 State.actRefLearn_offs) {s : State} (n : Nat) (first : Nat) (count : Nat) (hs : P s) :
    P (State.actRefLearn s n first count).1 := by
  have k0 : Keeps P 0x3002000 State.refLearn_offs := K.sub rfl (fun _ h => h)
  unfold State.actRefLearn
  repeat' (first
    | with_reducible assumption
    | with_reducible (first | apply State.refLearn_keeps k0)
    | intro _ _ _ _
    | intro _ _ _
    | intro _ _
    | with_reducible (first | apply ite_keeps | apply ite_keeps_pair)
    | dsimp only
    | split)

/-- Registers `State.actAcStart` may write. -/
def State.actAcStart_offs (o : Nat) : Prop :=
  State.startCore_offs o

theorem State.actAcStart_keeps {P : State → Prop} (K : Keeps P 0x100004 State.actAcStart_offs) {s : State} (stops : List Nat) (h : CmdHdr) (hs : P s) :
    P (State.actAcStart s stops h).1 := by
  have k0 : Keeps P 0x100004 (fun _ => False) := K.sub rfl (fun _ h => h.elim)
  have k1 : Keeps P 0x100000 (fun _ => False) := K.sub rfl (fun _ h => h.elim)
  have k2 : Keeps P 0x100000 State.startCore_offs := K.sub rfl (fun _ h => h)
  unfold State.actAcStart
  repeat' (first
    | with_reducible assumption
    | with_reducible (first | apply State.clearCoreDeg_keeps k0 | apply State.setCore_keeps k1 | apply State.startCore_keeps k2)
    | intro _ _ _ _
    | intro _ _ _
    | intro _ _
    | with_reducible (first | apply ite_keeps | apply ite_keeps_pair)
    | dsimp only
    | split)

theorem State.actAcStop_keeps {P : State → Prop} (K : Keeps P 0x100004 (fun _ => False)) {s : State} (k : Nat) (hs : P s) :
    P (State.actAcStop s k).1 := by
  have k0 : Keeps P 0x100000 (fun _ => False) := K.sub rfl (fun _ h => h.elim)
  have k1 : Keeps P 0x100004 (fun _ => False) := K.sub rfl (fun _ h => h.elim)
  unfold State.actAcStop
  repeat' (first
    | with_reducible assumption
    | with_reducible (first | apply State.beginStop_keeps k0 | apply State.clearCoreDeg_keeps k1)
    | intro _ _ _ _
    | intro _ _ _
    | intro _ _
    | with_reducible (first | apply ite_keeps | apply ite_keeps_pair)
    | dsimp only
    | split)

/-- Registers `State.actCalRun` may write. -/
def State.actCalRun_offs (o : Nat) : Prop :=
  State.calStart_offs o

theorem State.actCalRun_keeps {P : State → Prop} (K : Keeps P 0x440000210 State.actCalRun_offs) {s : State} (hs : P s) :
    P (State.actCalRun s).1 := by
  have k0 : Keeps P 0x440000210 State.calStart_offs := K.sub rfl (fun _ h => h)
  unfold State.actCalRun
  repeat' (first
    | with_reducible assumption
    | with_reducible (first | apply State.calStart_keeps k0)
    | intro _ _ _ _
    | intro _ _ _
    | intro _ _
    | with_reducible (first | apply ite_keeps | apply ite_keeps_pair)
    | dsimp only
    | split)

/-- Registers `State.actTrim` may write. -/
def State.actTrim_offs (o : Nat) : Prop :=
  State.setTrim_offs o

theorem State.actTrim_keeps {P : State → Prop} (K : Keeps P 0x1000 State.actTrim_offs) {s : State} (v : Nat) (hs : P s) :
    P (State.actTrim s v).1 := by
  have k0 : Keeps P 0x1000 State.setTrim_offs := K.sub rfl (fun _ h => h)
  unfold State.actTrim
  repeat' (first
    | with_reducible assumption
    | with_reducible (first | apply State.setTrim_keeps k0)
    | intro _ _ _ _
    | intro _ _ _
    | intro _ _
    | with_reducible (first | apply ite_keeps | apply ite_keeps_pair)
    | dsimp only
    | split)

/-- Registers `State.failBack` may write. -/
def State.failBack_offs (o : Nat) : Prop :=
  o = MLK_PAIR_STATUS.reg ∨ State.brlReturn_offs o ∨ State.calAgain_offs o ∨ State.settle_offs o ∨
    State.takeCfg_offs o

theorem State.failBack_keeps {P : State → Prop} (K : Keeps P 0x4430463f4 State.failBack_offs) {s : State} (home : Cfg) (hs : P s) :
    P (State.failBack s home) := by
  have k0 : Keeps P 0x3002000 State.brlReturn_offs := K.sub rfl (fun _ h => .inr (.inl h))
  have k1 : Keeps P 0x440000210 State.calAgain_offs := K.sub rfl (fun _ h => .inr (.inr (.inl h)))
  have k2 : Keeps P 0x100 (fun _ => False) := K.sub rfl (fun _ h => h.elim)
  have k3 : Keeps P 0x40000 (fun _ => False) := K.sub rfl (fun _ h => h.elim)
  have k4 : Keeps P 0x440000070 State.settle_offs := K.sub rfl (fun _ h => .inr (.inr (.inr (.inl h))))
  have k5 : Keeps P 0x3002180 State.takeCfg_offs := K.sub rfl (fun _ h => .inr (.inr (.inr (.inr (h)))))
  have k6 : Keeps P 0x4 (fun _ => False) := K.sub rfl (fun _ h => h.elim)
  have r0 := K.reg (MLK_PAIR_STATUS.reg) (.inl rfl)
  have t14 : ∀ (s : State) v, (Memory.wf 0 s.mlk.pbase = true → Memory.wf 0 v.pbase = true) → P s → P (s.putMlk v) := K.upd 14 rfl
  unfold State.failBack
  repeat' (first
    | with_reducible assumption
    | with_reducible (first | apply State.brlReturn_keeps k0 | apply State.calAgain_keeps k1 | apply State.resetShadow_keeps k2 | apply State.setPort_keeps k3 | apply State.settle_keeps k4 | apply State.takeCfg_keeps k5 | apply State.withDeg_keeps k6 | apply setFlag_keeps | apply foldl_keeps | apply foldl_keeps_pair | apply t14)
    | with_reducible exact r0
    | with_reducible_and_instances (first | exact fun h => h | exact fun h => Memory.setBytes_wf _ _ h | exact fun h => SMap.put_wf _ _ h | exact fun h => Memory.clearRange_wf _ _ h | exact fun _ => rfl | exact fun h => Memory.setByte_wf _ _ h | exact fun h => Memory.setBytes_wf _ _ (Memory.setBytes_wf _ _ h) | exact fun h => Memory.clearRange_wf _ _ (Memory.clearRange_wf _ _ h) | exact fun h => SMap.filter_wf _ h)
    | exact fun h => SMap.put_wf _ _ h
    | exact fun _ => SMap.nil_wf
    | intro _ _ _ _
    | intro _ _ _
    | intro _ _
    | with_reducible (first | apply ite_keeps | apply ite_keeps_pair)
    | dsimp only
    | split
    | with_reducible (first | apply r0))

/-- Registers `State.actFailback` may write. -/
def State.actFailback_offs (o : Nat) : Prop :=
  State.failBack_offs o ∨ State.showCommit_offs o

theorem State.actFailback_keeps {P : State → Prop} (K : Keeps P 0x4430463f4 State.actFailback_offs) {s : State} (hs : P s) :
    P (State.actFailback s).1 := by
  have k0 : Keeps P 0x4430463f4 State.failBack_offs := K.sub rfl (fun _ h => .inl h)
  have k1 : Keeps P 0x440000010 State.showCommit_offs := K.sub rfl (fun _ h => .inr (h))
  unfold State.actFailback
  repeat' (first
    | with_reducible assumption
    | with_reducible (first | apply State.failBack_keeps k0 | apply State.showCommit_keeps k1)
    | intro _ _ _ _
    | intro _ _ _
    | intro _ _
    | with_reducible (first | apply ite_keeps | apply ite_keeps_pair)
    | dsimp only
    | split)

/-- Registers `State.actCmd` may write. -/
def State.actCmd_offs (o : Nat) : Prop :=
  State.actAcStart_offs o ∨ State.actCalRun_offs o ∨ State.actCommit_offs o ∨ State.actDouts_offs o ∨
    State.actFailback_offs o ∨ State.actList_offs o ∨ State.actRebase_offs o ∨ State.actRefLearn_offs o ∨
    State.actRefLoad_offs o ∨ State.actRestore_offs o ∨ State.actTrim_offs o ∨ State.actUnits_offs o ∨
    State.auxChange_offs o ∨ State.bltChange_offs o ∨ State.calPin_offs o ∨ State.calRestore_offs o ∨
    State.dmcFollow_offs o ∨ State.feedSetup_offs o ∨ State.pairFollow_offs o ∨ State.trgFollow_offs o

theorem State.actCmd_keeps {P : State → Prop} (K : Keeps P 0x4c317fff4 State.actCmd_offs) {s : State} (stops : List Nat) (c : PendCmd) (hs : P s) :
    P (State.actCmd s stops c).1 := by
  have k0 : Keeps P 0x100004 State.actAcStart_offs := K.sub rfl (fun _ h => .inl h)
  have k1 : Keeps P 0x100004 (fun _ => False) := K.sub rfl (fun _ h => h.elim)
  have k2 : Keeps P 0x440000210 State.actCalRun_offs := K.sub rfl (fun _ h => .inr (.inl h))
  have k3 : Keeps P 0x443002390 State.actCommit_offs := K.sub rfl (fun _ h => .inr (.inr (.inl h)))
  have k4 : Keeps P 0x10000 State.actDouts_offs := K.sub rfl (fun _ h => .inr (.inr (.inr (.inl h))))
  have k5 : Keeps P 0x4430463f4 State.actFailback_offs := K.sub rfl (fun _ h => .inr (.inr (.inr (.inr (.inl h)))))
  have k6 : Keeps P 0x0 State.actList_offs := K.sub rfl (fun _ h => .inr (.inr (.inr (.inr (.inr (.inl h))))))
  have k7 : Keeps P 0x40000 State.actRebase_offs := K.sub rfl (fun _ h => .inr (.inr (.inr (.inr (.inr (.inr (.inl h)))))))
  have k8 : Keeps P 0x3002000 State.actRefLearn_offs := K.sub rfl (fun _ h => .inr (.inr (.inr (.inr (.inr (.inr (.inr (.inl h))))))))
  have k9 : Keeps P 0xc3004000 State.actRefLoad_offs := K.sub rfl (fun _ h => .inr (.inr (.inr (.inr (.inr (.inr (.inr (.inr (.inl h)))))))))
  have k10 : Keeps P 0x440040074 State.actRestore_offs := K.sub rfl (fun _ h => .inr (.inr (.inr (.inr (.inr (.inr (.inr (.inr (.inr (.inl h))))))))))
  have k11 : Keeps P 0x1000 State.actTrim_offs := K.sub rfl (fun _ h => .inr (.inr (.inr (.inr (.inr (.inr (.inr (.inr (.inr (.inr (.inl h)))))))))))
  have k12 : Keeps P 0x440000070 State.actUnits_offs := K.sub rfl (fun _ h => .inr (.inr (.inr (.inr (.inr (.inr (.inr (.inr (.inr (.inr (.inr (.inl h))))))))))))
  have k13 : Keeps P 0x440028570 State.auxChange_offs := K.sub rfl (fun _ h => .inr (.inr (.inr (.inr (.inr (.inr (.inr (.inr (.inr (.inr (.inr (.inr (.inl h)))))))))))))
  have k14 : Keeps P 0x83000800 State.bltChange_offs := K.sub rfl (fun _ h => .inr (.inr (.inr (.inr (.inr (.inr (.inr (.inr (.inr (.inr (.inr (.inr (.inr (.inl h))))))))))))))
  have k15 : Keeps P 0x200 State.calPin_offs := K.sub rfl (fun _ h => .inr (.inr (.inr (.inr (.inr (.inr (.inr (.inr (.inr (.inr (.inr (.inr (.inr (.inr (.inl h)))))))))))))))
  have k16 : Keeps P 0x300 State.calRestore_offs := K.sub rfl (fun _ h => .inr (.inr (.inr (.inr (.inr (.inr (.inr (.inr (.inr (.inr (.inr (.inr (.inr (.inr (.inr (.inl h))))))))))))))))
  have k17 : Keeps P 0x2000000 State.dmcFollow_offs := K.sub rfl (fun _ h => .inr (.inr (.inr (.inr (.inr (.inr (.inr (.inr (.inr (.inr (.inr (.inr (.inr (.inr (.inr (.inr (.inl h)))))))))))))))))
  have k18 : Keeps P 0x0 State.feedSetup_offs := K.sub rfl (fun _ h => .inr (.inr (.inr (.inr (.inr (.inr (.inr (.inr (.inr (.inr (.inr (.inr (.inr (.inr (.inr (.inr (.inr (.inl h))))))))))))))))))
  have k19 : Keeps P 0x440004070 State.pairFollow_offs := K.sub rfl (fun _ h => .inr (.inr (.inr (.inr (.inr (.inr (.inr (.inr (.inr (.inr (.inr (.inr (.inr (.inr (.inr (.inr (.inr (.inr (.inl h)))))))))))))))))))
  have k20 : Keeps P 0x8040 (fun _ => False) := K.sub rfl (fun _ h => h.elim)
  have k21 : Keeps P 0x8040 (fun _ => False) := K.sub rfl (fun _ h => h.elim)
  have k22 : Keeps P 0x440048070 State.trgFollow_offs := K.sub rfl (fun _ h => .inr (.inr (.inr (.inr (.inr (.inr (.inr (.inr (.inr (.inr (.inr (.inr (.inr (.inr (.inr (.inr (.inr (.inr (.inr (h))))))))))))))))))))
  unfold State.actCmd
  repeat' (first
    | with_reducible assumption
    | with_reducible (first | apply State.actAcStart_keeps k0 | apply State.actAcStop_keeps k1 | apply State.actCalRun_keeps k2 | apply State.actCommit_keeps k3 | apply State.actDouts_keeps k4 | apply State.actFailback_keeps k5 | apply State.actList_keeps k6 | apply State.actRebase_keeps k7 | apply State.actRefLearn_keeps k8 | apply State.actRefLoad_keeps k9 | apply State.actRestore_keeps k10 | apply State.actTrim_keeps k11 | apply State.actUnits_keeps k12 | apply State.auxChange_keeps k13 | apply State.bltChange_keeps k14 | apply State.calPin_keeps k15 | apply State.calRestore_keeps k16 | apply State.dmcFollow_keeps k17 | apply State.feedSetup_keeps k18 | apply State.pairFollow_keeps k19 | apply State.trgArm_keeps k20 | apply State.trgDisarm_keeps k21 | apply State.trgFollow_keeps k22)
    | (apply fst_keeps (by assumption))
    | intro _ _ _ _
    | intro _ _ _
    | intro _ _
    | with_reducible (first | apply ite_keeps | apply ite_keeps_pair)
    | dsimp only
    | split)

end Sys2Proof.Machine
end

