-- ==== Sys2Proof/Laws/KFrame.lean ====
section
/-!
SUPPORT. What the operations of Sys2Proof.Machine.Frame keep, and the registers they may write.
-/
namespace Sys2Proof.Machine

theorem State.dropFlight_keeps {P : State → Prop} (K : Keeps P 0x100 (fun _ => False)) {s : State} (n : Nat) (index : Nat) (hs : P s) :
    P (State.dropFlight s n index) := by
  have t8 : ∀ (s : State) v, P s → P (s.putSched v) := K.upd 8 rfl
  unfold State.dropFlight
  repeat' (first
    | with_reducible assumption
    | with_reducible (first | apply t8)
    | intro _ _ _ _
    | intro _ _ _
    | intro _ _
    | with_reducible (first | apply ite_keeps | apply ite_keeps_pair)
    | dsimp only
    | split)

/-- Registers `State.writeGaps` may write. -/
def State.writeGaps_offs (o : Nat) : Prop :=
  State.deliver_offs o

theorem State.writeGaps_keeps {P : State → Prop} (K : Keeps P 0x4c315c7f4 State.writeGaps_offs) {s : State} (ms : List FrameMarks) (a0 : List Turn) (hs : P s) :
    P (State.writeGaps s ms a0).1 := by
  have k0 : Keeps P 0x4c315c7f4 State.deliver_offs := K.sub rfl (fun _ h => h)
  have k1 : Keeps P 0x100 (fun _ => False) := K.sub rfl (fun _ h => h.elim)
  induction a0 generalizing s ms with
  | nil =>
    unfold State.writeGaps
    repeat' (first
      | with_reducible assumption
      | with_reducible (first | apply State.deliver_keeps k0 | apply State.dropFlight_keeps k1)
      | (apply fst_keeps (by assumption))
      | intro _ _ _ _
      | intro _ _ _
      | intro _ _
      | with_reducible (first | apply ite_keeps | apply ite_keeps_pair)
      | dsimp only
      | split)
  | cons _ _ ih =>
    unfold State.writeGaps
    repeat' (first
      | with_reducible assumption
      | with_reducible apply ih
      | with_reducible (first | apply State.deliver_keeps k0 | apply State.dropFlight_keeps k1)
      | (apply fst_keeps (by assumption))
      | intro _ _ _ _
      | intro _ _ _
      | intro _ _
      | with_reducible (first | apply ite_keeps | apply ite_keeps_pair)
      | dsimp only
      | split)

theorem State.setGapRun_keeps {P : State → Prop} (K : Keeps P 0x40000 (fun _ => False)) {s : State} (n : Nat) (b : Bool) (hs : P s) :
    P (State.setGapRun s n b) := by
  have k0 : Keeps P 0x40000 (fun _ => False) := K.sub rfl (fun _ h => h.elim)
  unfold State.setGapRun
  repeat' (first
    | with_reducible assumption
    | with_reducible (first | apply State.setPort_keeps k0)
    | intro _ _ _ _
    | intro _ _ _
    | intro _ _
    | with_reducible (first | apply ite_keeps | apply ite_keeps_pair)
    | dsimp only
    | split)

/-- Registers `State.gapStep` may write. -/
def State.gapStep_offs (o : Nat) : Prop :=
  State.writeGaps_offs o

theorem State.gapStep_keeps {P : State → Prop} (K : Keeps P 0x4c315c7f4 State.gapStep_offs) {s : State} (n : Nat) (ms : List FrameMarks) (hs : P s) :
    P (State.gapStep s n ms).1 := by
  have k0 : Keeps P 0x40000 (fun _ => False) := K.sub rfl (fun _ h => h.elim)
  have k1 : Keeps P 0x4c315c7f4 State.writeGaps_offs := K.sub rfl (fun _ h => h)
  unfold State.gapStep
  repeat' (first
    | with_reducible assumption
    | with_reducible (first | apply State.setGapRun_keeps k0 | apply State.writeGaps_keeps k1)
    | (apply fst_keeps (by assumption))
    | intro _ _ _ _
    | intro _ _ _
    | intro _ _
    | with_reducible (first | apply ite_keeps | apply ite_keeps_pair)
    | dsimp only
    | split)

/-- Registers `State.gapPassed` may write. -/
def State.gapPassed_offs (o : Nat) : Prop :=
  State.gapStep_offs o

theorem State.gapPassed_keeps {P : State → Prop} (K : Keeps P 0x4c315c7f4 State.gapPassed_offs) {s : State} (n : Nat) (a0 : Nat) (a1 : List FrameMarks) (hs : P s) :
    P (State.gapPassed s n a0 a1) := by
  have k0 : Keeps P 0x4c315c7f4 State.gapStep_offs := K.sub rfl (fun _ h => h)
  induction a0 generalizing s n a1 with
  | zero =>
    unfold State.gapPassed
    repeat' (first
      | with_reducible assumption
      | with_reducible (first | apply State.gapStep_keeps k0)
      | (apply fst_keeps (by assumption))
      | intro _ _ _ _
      | intro _ _ _
      | intro _ _
      | with_reducible (first | apply ite_keeps | apply ite_keeps_pair)
      | dsimp only
      | split)
  | succ _ ih =>
    unfold State.gapPassed
    repeat' (first
      | with_reducible assumption
      | with_reducible apply ih
      | with_reducible (first | apply State.gapStep_keeps k0)
      | (apply fst_keeps (by assumption))
      | intro _ _ _ _
      | intro _ _ _
      | intro _ _
      | with_reducible (first | apply ite_keeps | apply ite_keeps_pair)
      | dsimp only
      | split)

/-- Registers `State.gapStop` may write. -/
def State.gapStop_offs (o : Nat) : Prop :=
  State.writeGaps_offs o

theorem State.gapStop_keeps {P : State → Prop} (K : Keeps P 0x4c315c7f4 State.gapStop_offs) {s : State} (hs : P s) :
    P (State.gapStop s) := by
  have k0 : Keeps P 0x4c315c7f4 State.writeGaps_offs := K.sub rfl (fun _ h => h)
  unfold State.gapStop
  repeat' (first
    | with_reducible assumption
    | with_reducible (first | apply State.writeGaps_keeps k0 | apply foldl_keeps | apply foldl_keeps_pair)
    | (apply fst_keeps (by assumption))
    | intro _ _ _ _
    | intro _ _ _
    | intro _ _
    | with_reducible (first | apply ite_keeps | apply ite_keeps_pair)
    | dsimp only
    | split)

/-- Registers `State.writeFilled` may write. -/
def State.writeFilled_offs (o : Nat) : Prop :=
  State.deliver_offs o

theorem State.writeFilled_keeps {P : State → Prop} (K : Keeps P 0x4c315c7f4 State.writeFilled_offs) {s : State} (plan : Nat) (r : RealOut) (f0 : List Nat) (f1 : List Nat) (ms : List FrameMarks) (a0 : List Turn) (hs : P s) :
    P (State.writeFilled s plan r f0 f1 ms a0).1 := by
  have k0 : Keeps P 0x4c315c7f4 State.deliver_offs := K.sub rfl (fun _ h => h)
  have k1 : Keeps P 0x100 (fun _ => False) := K.sub rfl (fun _ h => h.elim)
  induction a0 generalizing s plan r f0 f1 ms with
  | nil =>
    unfold State.writeFilled
    repeat' (first
      | with_reducible assumption
      | with_reducible (first | apply State.deliver_keeps k0 | apply State.dropFlight_keeps k1)
      | (apply fst_keeps (by assumption))
      | intro _ _ _ _
      | intro _ _ _
      | intro _ _
      | with_reducible (first | apply ite_keeps | apply ite_keeps_pair)
      | dsimp only
      | split)
  | cons _ _ ih =>
    unfold State.writeFilled
    repeat' (first
      | with_reducible assumption
      | with_reducible apply ih
      | with_reducible (first | apply State.deliver_keeps k0 | apply State.dropFlight_keeps k1)
      | (apply fst_keeps (by assumption))
      | intro _ _ _ _
      | intro _ _ _
      | intro _ _
      | with_reducible (first | apply ite_keeps | apply ite_keeps_pair)
      | dsimp only
      | split)

/-- Registers `State.processReal` may write. -/
def State.processReal_offs (o : Nat) : Prop :=
  (∃ n, o = PRT_FADE_COUNT.reg n) ∨ State.deliver_offs o ∨ State.writeFilled_offs o ∨ State.writeGaps_offs o

theorem State.processReal_keeps {P : State → Prop} (K : Keeps P 0x4c315c7f4 State.processReal_offs) {s : State} (t : Turn) (run : List Turn) (rx : RxIn) (ms : List FrameMarks) (hs : P s) :
    P (State.processReal s t run rx ms).1 := by
  have k0 : Keeps P 0x4c315c7f4 State.deliver_offs := K.sub rfl (fun _ h => .inr (.inl h))
  have k1 : Keeps P 0x100 (fun _ => False) := K.sub rfl (fun _ h => h.elim)
  have k2 : Keeps P 0x40000 (fun _ => False) := K.sub rfl (fun _ h => h.elim)
  have k3 : Keeps P 0x4c315c7f4 State.writeFilled_offs := K.sub rfl (fun _ h => .inr (.inr (.inl h)))
  have k4 : Keeps P 0x4c315c7f4 State.writeGaps_offs := K.sub rfl (fun _ h => .inr (.inr (.inr (h))))
  have r0 := fun n => K.reg (PRT_FADE_COUNT.reg n) (.inl ⟨n, rfl⟩)
  have t31 : ∀ (s : State) v, P s → P (s.putFreeCtr v) := K.upd 31 rfl
  unfold State.processReal
  repeat' (first
    | with_reducible assumption
    | with_reducible (first | apply State.deliver_keeps k0 | apply State.dropFlight_keeps k1 | apply State.setPort_keeps k2 | apply State.writeFilled_keeps k3 | apply State.writeGaps_keeps k4 | apply addReg_keeps | apply t31)
    | with_reducible exact r0 _
    | (apply fst_keeps (by assumption))
    | intro _ _ _ _
    | intro _ _ _
    | intro _ _
    | with_reducible (first | apply ite_keeps | apply ite_keeps_pair)
    | dsimp only
    | split
    | with_reducible (first | apply r0))

/-- Registers `execFrameComplete` may write. -/
def execFrameComplete_offs (o : Nat) : Prop :=
  State.gapPassed_offs o ∨ State.processReal_offs o ∨ State.rangeTests_offs o ∨ State.rxMonitors_offs o ∨
    State.rxShow_offs o

theorem execFrameComplete_keeps {P : State → Prop} (K : Keeps P 0x4c315c7f4 execFrameComplete_offs) {s : State} (n : Fin 12) (rx : RxIn) (marks : List FrameMarks) (hs : P s) :
    ∃ t, (execFrameComplete n rx marks s) = .next t ∧ P t := by
  have k0 : Keeps P 0x4c315c7f4 State.gapPassed_offs := K.sub rfl (fun _ h => .inl h)
  have k1 : Keeps P 0x4c315c7f4 State.processReal_offs := K.sub rfl (fun _ h => .inr (.inl h))
  have k2 : Keeps P 0x40000 State.rangeTests_offs := K.sub rfl (fun _ h => .inr (.inr (.inl h)))
  have k3 : Keeps P 0x4c010c7f4 State.rxMonitors_offs := K.sub rfl (fun _ h => .inr (.inr (.inr (.inl h))))
  have k4 : Keeps P 0x0 State.rxShow_offs := K.sub rfl (fun _ h => .inr (.inr (.inr (.inr (h)))))
  refine ⟨_, rfl, ?_⟩
  repeat' (first
    | with_reducible assumption
    | with_reducible (first | apply State.gapPassed_keeps k0 | apply State.processReal_keeps k1 | apply State.rangeTests_keeps k2 | apply State.rxMonitors_keeps k3 | apply State.rxShow_keeps k4)
    | (apply fst_keeps (by assumption))
    | intro _ _ _ _
    | intro _ _ _
    | intro _ _
    | with_reducible (first | apply ite_keeps | apply ite_keeps_pair)
    | dsimp only
    | split)

/-- Registers `execMissingRunTimeout` may write. -/
def execMissingRunTimeout_offs (o : Nat) : Prop :=
  State.gapStep_offs o

theorem execMissingRunTimeout_keeps {P : State → Prop} (K : Keeps P 0x4c315c7f4 execMissingRunTimeout_offs) {s : State} (n : Fin 12) (marks : List FrameMarks) (hs : P s) :
    ∃ t, (execMissingRunTimeout n marks s) = .next t ∧ P t := by
  have k0 : Keeps P 0x4c315c7f4 State.gapStep_offs := K.sub rfl (fun _ h => h)
  refine ⟨_, rfl, ?_⟩
  repeat' (first
    | with_reducible assumption
    | with_reducible (first | apply State.gapStep_keeps k0)
    | (apply fst_keeps (by assumption))
    | intro _ _ _ _
    | intro _ _ _
    | intro _ _
    | with_reducible (first | apply ite_keeps | apply ite_keeps_pair)
    | dsimp only
    | split)

end Sys2Proof.Machine
end

