-- ==== Sys2Proof/Laws/KSafetyRows.lean ====
section
/-!
SUPPORT. What the operations of Sys2Proof.Machine.SafetyRows keep, and the registers they may write.
-/
namespace Sys2Proof.Machine

/-- Registers `State.safetyCrc` may write. -/
def State.safetyCrc_offs (o : Nat) : Prop :=
  o = SAF_CFG_CRC_CALC.reg

theorem State.safetyCrc_keeps {P : State → Prop} (K : Keeps P 0x0 State.safetyCrc_offs) {s : State} (hs : P s) :
    P (State.safetyCrc s) := by
  have r0 := K.reg (SAF_CFG_CRC_CALC.reg) (rfl)
  unfold State.safetyCrc
  repeat' (first
    | with_reducible assumption
    | with_reducible (first | apply setReg_keeps)
    | with_reducible exact r0
    | intro _ _ _ _
    | intro _ _ _
    | intro _ _
    | with_reducible (first | apply ite_keeps | apply ite_keeps_pair)
    | dsimp only
    | split
    | with_reducible (first | apply r0))

theorem State.ackChan_keeps {P : State → Prop} (K : Keeps P 0x40 (fun _ => False)) {s : State} (c : Nat) (hs : P s) :
    P (State.ackChan s c) := by
  have k0 : Keeps P 0x40 (fun _ => False) := K.sub rfl (fun _ h => h.elim)
  unfold State.ackChan
  repeat' (first
    | with_reducible assumption
    | with_reducible (first | apply State.setChan_keeps k0)
    | intro _ _ _ _
    | intro _ _ _
    | intro _ _
    | with_reducible (first | apply ite_keeps | apply ite_keeps_pair)
    | dsimp only
    | split)

/-- Registers `State.writeSafAck` may write. -/
def State.writeSafAck_offs (o : Nat) : Prop :=
  State.settle_offs o

theorem State.writeSafAck_keeps {P : State → Prop} (K : Keeps P 0x440000070 State.writeSafAck_offs) {s : State} (w : Word) (hs : P s) :
    P (State.writeSafAck s w) := by
  have k0 : Keeps P 0x40 (fun _ => False) := K.sub rfl (fun _ h => h.elim)
  have k1 : Keeps P 0x440000070 State.settle_offs := K.sub rfl (fun _ h => h)
  unfold State.writeSafAck
  repeat' (first
    | with_reducible assumption
    | with_reducible (first | apply State.ackChan_keeps k0 | apply State.settle_keeps k1)
    | intro _ _ _ _
    | intro _ _ _
    | intro _ _
    | with_reducible (first | apply ite_keeps | apply ite_keeps_pair)
    | dsimp only
    | split)

/-- Registers `execSafAck` may write. -/
def execSafAck_offs (o : Nat) : Prop :=
  State.writeSafAck_offs o

theorem execSafAck_keeps {P : State → Prop} (K : Keeps P 0x440000070 execSafAck_offs) {s : State} (w : Word) (hs : P s) :
    ∃ t, (execSafAck w s) = .next t ∧ P t := by
  have k0 : Keeps P 0x440000070 State.writeSafAck_offs := K.sub rfl (fun _ h => h)
  refine ⟨_, rfl, ?_⟩
  repeat' (first
    | with_reducible assumption
    | with_reducible (first | apply State.writeSafAck_keeps k0)
    | intro _ _ _ _
    | intro _ _ _
    | intro _ _
    | with_reducible (first | apply ite_keeps | apply ite_keeps_pair)
    | dsimp only
    | split)

/-- Registers `State.testPin` may write. -/
def State.testPin_offs (o : Nat) : Prop :=
  State.degradedRecord_offs o

theorem State.testPin_keeps {P : State → Prop} (K : Keeps P 0x440000070 State.testPin_offs) {s : State} (c : Nat) (hs : P s) :
    P (State.testPin s c) := by
  have k0 : Keeps P 0x440000030 State.degradedRecord_offs := K.sub rfl (fun _ h => h)
  have k1 : Keeps P 0x40 (fun _ => False) := K.sub rfl (fun _ h => h.elim)
  unfold State.testPin
  repeat' (first
    | with_reducible assumption
    | with_reducible (first | apply State.degradedRecord_keeps k0 | apply State.setChan_keeps k1)
    | intro _ _ _ _
    | intro _ _ _
    | intro _ _
    | with_reducible (first | apply ite_keeps | apply ite_keeps_pair)
    | dsimp only
    | split)

/-- Registers `State.writeSafPinTest` may write. -/
def State.writeSafPinTest_offs (o : Nat) : Prop :=
  State.settle_offs o ∨ State.testPin_offs o

theorem State.writeSafPinTest_keeps {P : State → Prop} (K : Keeps P 0x440000070 State.writeSafPinTest_offs) {s : State} (w : Word) (hs : P s) :
    P (State.writeSafPinTest s w) := by
  have k0 : Keeps P 0x440000070 State.settle_offs := K.sub rfl (fun _ h => .inl h)
  have k1 : Keeps P 0x440000070 State.testPin_offs := K.sub rfl (fun _ h => .inr (h))
  unfold State.writeSafPinTest
  repeat' (first
    | with_reducible assumption
    | with_reducible (first | apply State.settle_keeps k0 | apply State.testPin_keeps k1)
    | intro _ _ _ _
    | intro _ _ _
    | intro _ _
    | with_reducible (first | apply ite_keeps | apply ite_keeps_pair)
    | dsimp only
    | split)

/-- Registers `execSafPinTest` may write. -/
def execSafPinTest_offs (o : Nat) : Prop :=
  State.writeSafPinTest_offs o

theorem execSafPinTest_keeps {P : State → Prop} (K : Keeps P 0x440000070 execSafPinTest_offs) {s : State} (w : Word) (hs : P s) :
    ∃ t, (execSafPinTest w s) = .next t ∧ P t := by
  have k0 : Keeps P 0x440000070 State.writeSafPinTest_offs := K.sub rfl (fun _ h => h)
  refine ⟨_, rfl, ?_⟩
  repeat' (first
    | with_reducible assumption
    | with_reducible (first | apply State.writeSafPinTest_keeps k0)
    | intro _ _ _ _
    | intro _ _ _
    | intro _ _
    | with_reducible (first | apply ite_keeps | apply ite_keeps_pair)
    | dsimp only
    | split)

theorem State.endTest_keeps {P : State → Prop} (K : Keeps P 0x40 (fun _ => False)) {s : State} (due : Bool) (c : Nat) (hs : P s) :
    P (State.endTest s due c) := by
  have k0 : Keeps P 0x40 (fun _ => False) := K.sub rfl (fun _ h => h.elim)
  unfold State.endTest
  repeat' (first
    | with_reducible assumption
    | with_reducible (first | apply State.setChan_keeps k0)
    | intro _ _ _ _
    | intro _ _ _
    | intro _ _
    | with_reducible (first | apply ite_keeps | apply ite_keeps_pair)
    | dsimp only
    | split)

/-- Registers `execPinTestEnd` may write. -/
def execPinTestEnd_offs (o : Nat) : Prop :=
  State.settle_offs o

theorem execPinTestEnd_keeps {P : State → Prop} (K : Keeps P 0x440000070 execPinTestEnd_offs) {s : State} (hs : P s) :
    ∃ t, (execPinTestEnd s) = .next t ∧ P t := by
  have k0 : Keeps P 0x40 (fun _ => False) := K.sub rfl (fun _ h => h.elim)
  have k1 : Keeps P 0x440000070 State.settle_offs := K.sub rfl (fun _ h => h)
  refine ⟨_, rfl, ?_⟩
  repeat' (first
    | with_reducible assumption
    | with_reducible (first | apply State.endTest_keeps k0 | apply State.settle_keeps k1)
    | intro _ _ _ _
    | intro _ _ _
    | intro _ _
    | with_reducible (first | apply ite_keeps | apply ite_keeps_pair)
    | dsimp only
    | split)

theorem execPinRedrive_keeps {P : State → Prop} (K : Keeps P 0x40 (fun _ => False)) {s : State} (c : Fin 2) (hs : P s) :
    ∃ t, (execPinRedrive c s) = .next t ∧ P t := by
  have k0 : Keeps P 0x40 (fun _ => False) := K.sub rfl (fun _ h => h.elim)
  refine ⟨_, rfl, ?_⟩
  repeat' (first
    | with_reducible assumption
    | with_reducible (first | apply State.setChan_keeps k0)
    | intro _ _ _ _
    | intro _ _ _
    | intro _ _
    | with_reducible (first | apply ite_keeps | apply ite_keeps_pair)
    | dsimp only
    | split)

/-- Registers `execAlarmHoldExpiry` may write. -/
def execAlarmHoldExpiry_offs (o : Nat) : Prop :=
  State.settle_offs o

theorem execAlarmHoldExpiry_keeps {P : State → Prop} (K : Keeps P 0x440000070 execAlarmHoldExpiry_offs) {s : State} (c : Fin 2) (hs : P s) :
    ∃ t, (execAlarmHoldExpiry c s) = .next t ∧ P t := by
  have k0 : Keeps P 0x40 (fun _ => False) := K.sub rfl (fun _ h => h.elim)
  have k1 : Keeps P 0x440000070 State.settle_offs := K.sub rfl (fun _ h => h)
  refine ⟨_, rfl, ?_⟩
  repeat' (first
    | with_reducible assumption
    | with_reducible (first | apply State.setChan_keeps k0 | apply State.settle_keeps k1)
    | intro _ _ _ _
    | intro _ _ _
    | intro _ _
    | with_reducible (first | apply ite_keeps | apply ite_keeps_pair)
    | dsimp only
    | split)

theorem execScorekeeperToggleLoss_keeps {P : State → Prop} (K : Keeps P 0x40 (fun _ => False)) {s : State} (hs : P s) :
    ∃ t, (execScorekeeperToggleLoss s) = .next t ∧ P t := by
  have k0 : Keeps P 0x40 (fun _ => False) := K.sub rfl (fun _ h => h.elim)
  have t6 : ∀ (s : State) v, P s → P (s.putSaf v) := K.upd 6 rfl
  unfold execScorekeeperToggleLoss
  dsimp only
  first
    | refine ⟨_, rfl, ?_⟩
    | (split <;> refine ⟨_, rfl, ?_⟩)
  repeat' (first
    | with_reducible assumption
    | with_reducible (first | apply State.setChan_keeps k0 | apply t6)
    | intro _ _ _ _
    | intro _ _ _
    | intro _ _
    | with_reducible (first | apply ite_keeps | apply ite_keeps_pair)
    | dsimp only
    | split)

/-- Registers `execPinReadback` may write. -/
def execPinReadback_offs (o : Nat) : Prop :=
  State.diagEvent_offs o

theorem execPinReadback_keeps {P : State → Prop} (K : Keeps P 0x4c010c7f4 execPinReadback_offs) {s : State} (c : Fin 2) (hs : P s) :
    ∃ t, (execPinReadback c s) = .next t ∧ P t := by
  have k0 : Keeps P 0x4c010c7f4 State.diagEvent_offs := K.sub rfl (fun _ h => h)
  refine ⟨_, rfl, ?_⟩
  repeat' (first
    | with_reducible assumption
    | with_reducible (first | apply State.diagEvent_keeps k0)
    | intro _ _ _ _
    | intro _ _ _
    | intro _ _
    | with_reducible (first | apply ite_keeps | apply ite_keeps_pair)
    | dsimp only
    | split)

theorem State.setLimited_keeps {P : State → Prop} (K : Keeps P 0x10040 (fun _ => False)) {s : State} (o : Nat) (b : Bool) (hs : P s) :
    P (State.setLimited s o b) := by
  have k0 : Keeps P 0x40 (fun _ => False) := K.sub rfl (fun _ h => h.elim)
  have k1 : Keeps P 0x10000 (fun _ => False) := K.sub rfl (fun _ h => h.elim)
  unfold State.setLimited
  repeat' (first
    | with_reducible assumption
    | with_reducible (first | apply State.setChan_keeps k0 | apply State.setDout_keeps k1)
    | intro _ _ _ _
    | intro _ _ _
    | intro _ _
    | with_reducible (first | apply ite_keeps | apply ite_keeps_pair)
    | dsimp only
    | split)

theorem execCurrentLimit_keeps {P : State → Prop} (K : Keeps P 0x10040 (fun _ => False)) {s : State} (o : Fin 6) (hs : P s) :
    ∃ t, (execCurrentLimit o s) = .next t ∧ P t := by
  have k0 : Keeps P 0x10040 (fun _ => False) := K.sub rfl (fun _ h => h.elim)
  refine ⟨_, rfl, ?_⟩
  repeat' (first
    | with_reducible assumption
    | with_reducible (first | apply State.setLimited_keeps k0)
    | intro _ _ _ _
    | intro _ _ _
    | intro _ _
    | with_reducible (first | apply ite_keeps | apply ite_keeps_pair)
    | dsimp only
    | split)

theorem execCurrentLimitRetry_keeps {P : State → Prop} (K : Keeps P 0x10040 (fun _ => False)) {s : State} (o : Fin 6) (hs : P s) :
    ∃ t, (execCurrentLimitRetry o s) = .next t ∧ P t := by
  have k0 : Keeps P 0x10040 (fun _ => False) := K.sub rfl (fun _ h => h.elim)
  refine ⟨_, rfl, ?_⟩
  repeat' (first
    | with_reducible assumption
    | with_reducible (first | apply State.setLimited_keeps k0)
    | intro _ _ _ _
    | intro _ _ _
    | intro _ _
    | with_reducible (first | apply ite_keeps | apply ite_keeps_pair)
    | dsimp only
    | split)

theorem execKatStart_keeps {P : State → Prop} (K : Keeps P 0x80040040 (fun _ => False)) {s : State} (n : Fin 12) (hs : P s) :
    ∃ t, (execKatStart n s) = .next t ∧ P t := by
  have k0 : Keeps P 0x80000000 (fun _ => False) := K.sub rfl (fun _ h => h.elim)
  have k1 : Keeps P 0x40000 (fun _ => False) := K.sub rfl (fun _ h => h.elim)
  have t6 : ∀ (s : State) v, P s → P (s.putSaf v) := K.upd 6 rfl
  refine ⟨_, rfl, ?_⟩
  repeat' (first
    | with_reducible assumption
    | with_reducible (first | apply State.drawFree_keeps k0 | apply State.setPort_keeps k1 | apply t6)
    | intro _ _ _ _
    | intro _ _ _
    | intro _ _
    | with_reducible (first | apply ite_keeps | apply ite_keeps_pair)
    | dsimp only
    | split)

/-- Registers `execKatResult` may write. -/
def execKatResult_offs (o : Nat) : Prop :=
  o = SAF_KAT_COUNT.reg ∨ o = SAF_KAT_FAIL.reg ∨ State.diagEvent_offs o ∨ State.portFault_offs o

theorem execKatResult_keeps {P : State → Prop} (K : Keeps P 0x4c010c7f4 execKatResult_offs) {s : State} (n : Fin 12) (crc : Word) (hs : P s) :
    ∃ t, (execKatResult n crc s) = .next t ∧ P t := by
  have k0 : Keeps P 0x4c010c7f4 State.diagEvent_offs := K.sub rfl (fun _ h => .inr (.inr (.inl h)))
  have k1 : Keeps P 0x4c0004074 State.portFault_offs := K.sub rfl (fun _ h => .inr (.inr (.inr (h))))
  have r0 := K.reg (SAF_KAT_COUNT.reg) (.inl rfl)
  have r1 := K.reg (SAF_KAT_FAIL.reg) (.inr (.inl rfl))
  have t6 : ∀ (s : State) v, P s → P (s.putSaf v) := K.upd 6 rfl
  refine ⟨_, rfl, ?_⟩
  repeat' (first
    | with_reducible assumption
    | with_reducible (first | apply State.diagEvent_keeps k0 | apply State.portFault_keeps k1 | apply bump_keeps | apply setFld_keeps | apply t6)
    | with_reducible exact r0
    | with_reducible exact r1
    | intro _ _ _ _
    | intro _ _ _
    | intro _ _
    | with_reducible (first | apply ite_keeps | apply ite_keeps_pair)
    | dsimp only
    | split
    | with_reducible (first | apply r0 | apply r1))

/-- Registers `execLockstepMismatch` may write. -/
def execLockstepMismatch_offs (o : Nat) : Prop :=
  State.diagEvent_offs o

theorem execLockstepMismatch_keeps {P : State → Prop} (K : Keeps P 0x4c010c7f4 execLockstepMismatch_offs) {s : State} (hs : P s) :
    ∃ t, (execLockstepMismatch s) = .next t ∧ P t := by
  have k0 : Keeps P 0x4c010c7f4 State.diagEvent_offs := K.sub rfl (fun _ h => h)
  refine ⟨_, rfl, ?_⟩
  repeat' (first
    | with_reducible assumption
    | with_reducible (first | apply State.diagEvent_keeps k0)
    | intro _ _ _ _
    | intro _ _ _
    | intro _ _
    | with_reducible (first | apply ite_keeps | apply ite_keeps_pair)
    | dsimp only
    | split)

/-- Registers `execClockFault` may write. -/
def execClockFault_offs (o : Nat) : Prop :=
  State.diagEvent_offs o

theorem execClockFault_keeps {P : State → Prop} (K : Keeps P 0x4c010c7f4 execClockFault_offs) {s : State} (hs : P s) :
    ∃ t, (execClockFault s) = .next t ∧ P t := by
  have k0 : Keeps P 0x4c010c7f4 State.diagEvent_offs := K.sub rfl (fun _ h => h)
  refine ⟨_, rfl, ?_⟩
  repeat' (first
    | with_reducible assumption
    | with_reducible (first | apply State.diagEvent_keeps k0)
    | intro _ _ _ _
    | intro _ _ _
    | intro _ _
    | with_reducible (first | apply ite_keeps | apply ite_keeps_pair)
    | dsimp only
    | split)

/-- Registers `execSafetySweep` may write. -/
def execSafetySweep_offs (o : Nat) : Prop :=
  o = SAF_STATUS.reg ∨ State.diagEvent_offs o

theorem execSafetySweep_keeps {P : State → Prop} (K : Keeps P 0x4c010c7f4 execSafetySweep_offs) {s : State} (selfTestOk : Bool) (configBad : Bool) (portMem : BitVec 12) (timeBad : Bool) (hs : P s) :
    ∃ t, (execSafetySweep selfTestOk configBad portMem timeBad s) = .next t ∧ P t := by
  have k0 : Keeps P 0x4c010c7f4 State.diagEvent_offs := K.sub rfl (fun _ h => .inr (h))
  have r0 := K.reg (SAF_STATUS.reg) (.inl rfl)
  refine ⟨_, rfl, ?_⟩
  repeat' (first
    | with_reducible assumption
    | with_reducible (first | apply State.diagEvent_keeps k0 | apply setFlag_keeps | apply foldl_keeps | apply foldl_keeps_pair)
    | with_reducible exact r0
    | intro _ _ _ _
    | intro _ _ _
    | intro _ _
    | with_reducible (first | apply ite_keeps | apply ite_keeps_pair)
    | dsimp only
    | split
    | with_reducible (first | apply r0))

theorem execDiagWindowExpiry_keeps {P : State → Prop} (K : Keeps P 0x40 (fun _ => False)) {s : State} (d : Fin 27) (hs : P s) :
    ∃ t, (execDiagWindowExpiry d s) = .next t ∧ P t := by
  have k0 : Keeps P 0x40 (fun _ => False) := K.sub rfl (fun _ h => h.elim)
  refine ⟨_, rfl, ?_⟩
  repeat' (first
    | with_reducible assumption
    | with_reducible (first | apply State.setDiag_keeps k0)
    | intro _ _ _ _
    | intro _ _ _
    | intro _ _
    | with_reducible (first | apply ite_keeps | apply ite_keeps_pair)
    | dsimp only
    | split)

/-- Registers `execEvrRecordWrite` may write. -/
def execEvrRecordWrite_offs (o : Nat) : Prop :=
  State.diagEvent_offs o ∨ State.writeRecord_offs o

theorem execEvrRecordWrite_keeps {P : State → Prop} (K : Keeps P 0x4c010c7f4 execEvrRecordWrite_offs) {s : State} (fail : Option (List Byte)) (hs : P s) :
    ∃ t, (execEvrRecordWrite fail s) = .next t ∧ P t := by
  have k0 : Keeps P 0x4c010c7f4 State.diagEvent_offs := K.sub rfl (fun _ h => .inl h)
  have k1 : Keeps P 0x440000030 State.writeRecord_offs := K.sub rfl (fun _ h => .inr (h))
  refine ⟨_, rfl, ?_⟩
  repeat' (first
    | with_reducible assumption
    | with_reducible (first | apply State.diagEvent_keeps k0 | apply State.writeRecord_keeps k1)
    | (apply fst_keeps (by assumption))
    | intro _ _ _ _
    | intro _ _ _
    | intro _ _
    | with_reducible (first | apply ite_keeps | apply ite_keeps_pair)
    | dsimp only
    | split)

theorem execEvrOpSave_keeps {P : State → Prop} (K : Keeps P 0x20 (fun _ => False)) {s : State} (hs : P s) :
    ∃ t, (execEvrOpSave s) = .next t ∧ P t := by
  have t5 : ∀ (s : State) v, (Memory.wf 0 s.evr.mem = true → Memory.wf 0 v.mem = true) → P s → P (s.putEvr v) := K.upd 5 rfl
  refine ⟨_, rfl, ?_⟩
  repeat' (first
    | with_reducible assumption
    | with_reducible (first | apply t5)
    | with_reducible_and_instances (first | exact fun h => h | exact fun h => Memory.setBytes_wf _ _ h | exact fun h => SMap.put_wf _ _ h | exact fun h => Memory.clearRange_wf _ _ h | exact fun _ => rfl | exact fun h => Memory.setByte_wf _ _ h | exact fun h => Memory.setBytes_wf _ _ (Memory.setBytes_wf _ _ h) | exact fun h => Memory.clearRange_wf _ _ (Memory.clearRange_wf _ _ h) | exact fun h => SMap.filter_wf _ h)
    | exact fun h => SMap.put_wf _ _ h
    | exact fun _ => SMap.nil_wf
    | intro _ _ _ _
    | intro _ _ _
    | intro _ _
    | with_reducible (first | apply ite_keeps | apply ite_keeps_pair)
    | dsimp only
    | split)

end Sys2Proof.Machine
end

