-- ==== Sys2Proof/Laws/KSourceRows.lean ====
section
/-!
SUPPORT. What the operations of Sys2Proof.Machine.SourceRows keep, and the registers they may write.
-/
namespace Sys2Proof.Machine

/-- Registers `State.showProven` may write. -/
def State.showProven_offs (o : Nat) : Prop :=
  o = SRC_PUMP0_STATUS.reg ∨ o = SRC_PUMP1_STATUS.reg

theorem State.showProven_keeps {P : State → Prop} (K : Keeps P 0x0 State.showProven_offs) {s : State} (p : Nat) (hs : P s) :
    P (State.showProven s p) := by
  have r0 := K.reg (SRC_PUMP0_STATUS.reg) (.inl rfl)
  have r1 := K.reg (SRC_PUMP1_STATUS.reg) (.inr (rfl))
  unfold State.showProven
  repeat' (first
    | with_reducible assumption
    | with_reducible (first | apply setFlag_keeps)
    | with_reducible exact r0
    | with_reducible exact r1
    | intro _ _ _ _
    | intro _ _ _
    | intro _ _
    | with_reducible (first | apply ite_keeps | apply ite_keeps_pair)
    | dsimp only
    | split
    | unfold pumpFld
    | with_reducible (first | apply r0 | apply r1))

/-- Registers `State.provePump` may write. -/
def State.provePump_offs (o : Nat) : Prop :=
  State.showProven_offs o

theorem State.provePump_keeps {P : State → Prop} (K : Keeps P 0x80 State.provePump_offs) {s : State} (p : Nat) (hs : P s) :
    P (State.provePump s p) := by
  have k0 : Keeps P 0x0 State.showProven_offs := K.sub rfl (fun _ h => h)
  have t7 : ∀ (s : State) v, P s → P (s.putSrc v) := K.upd 7 rfl
  unfold State.provePump
  repeat' (first
    | with_reducible assumption
    | with_reducible (first | apply State.showProven_keeps k0 | apply t7)
    | intro _ _ _ _
    | intro _ _ _
    | intro _ _
    | with_reducible (first | apply ite_keeps | apply ite_keeps_pair)
    | dsimp only
    | split)

/-- Registers `State.pumpFail` may write. -/
def State.pumpFail_offs (o : Nat) : Prop :=
  o = SRC_PUMP0_STATUS.reg ∨ o = SRC_PUMP1_STATUS.reg ∨ State.diagEvent_offs o ∨ State.showProven_offs o ∨
    State.srcFault_offs o

theorem State.pumpFail_keeps {P : State → Prop} (K : Keeps P 0x4c010c7f4 State.pumpFail_offs) {s : State} (p : Nat) (short : Bool) (hs : P s) :
    P (State.pumpFail s p short) := by
  have k0 : Keeps P 0x4c010c7f4 State.diagEvent_offs := K.sub rfl (fun _ h => .inr (.inr (.inl h)))
  have k1 : Keeps P 0x0 State.showProven_offs := K.sub rfl (fun _ h => .inr (.inr (.inr (.inl h))))
  have k2 : Keeps P 0x440000010 State.srcFault_offs := K.sub rfl (fun _ h => .inr (.inr (.inr (.inr (h)))))
  have r0 := K.reg (SRC_PUMP0_STATUS.reg) (.inl rfl)
  have r1 := K.reg (SRC_PUMP1_STATUS.reg) (.inr (.inl rfl))
  have t7 : ∀ (s : State) v, P s → P (s.putSrc v) := K.upd 7 rfl
  unfold State.pumpFail
  repeat' (first
    | with_reducible assumption
    | with_reducible (first | apply State.diagEvent_keeps k0 | apply State.showProven_keeps k1 | apply State.srcFault_keeps k2 | apply setFlag_keeps | apply t7)
    | with_reducible exact r0
    | with_reducible exact r1
    | intro _ _ _ _
    | intro _ _ _
    | intro _ _
    | with_reducible (first | apply ite_keeps | apply ite_keeps_pair)
    | dsimp only
    | split
    | unfold pumpFld
    | with_reducible (first | apply r0 | apply r1))

/-- Registers `execPumpOpenShort` may write. -/
def execPumpOpenShort_offs (o : Nat) : Prop :=
  State.pumpFail_offs o

theorem execPumpOpenShort_keeps {P : State → Prop} (K : Keeps P 0x4c010c7f4 execPumpOpenShort_offs) {s : State} (p : Fin 2) (short : Bool) (hs : P s) :
    ∃ t, (execPumpOpenShort p short s) = .next t ∧ P t := by
  have k0 : Keeps P 0x4c010c7f4 State.pumpFail_offs := K.sub rfl (fun _ h => h)
  refine ⟨_, rfl, ?_⟩
  repeat' (first
    | with_reducible assumption
    | with_reducible (first | apply State.pumpFail_keeps k0)
    | intro _ _ _ _
    | intro _ _ _
    | intro _ _
    | with_reducible (first | apply ite_keeps | apply ite_keeps_pair)
    | dsimp only
    | split)

/-- Registers `execPumpLimit` may write. -/
def execPumpLimit_offs (o : Nat) : Prop :=
  o = SRC_PUMP0_STATUS.reg ∨ o = SRC_PUMP1_STATUS.reg ∨ State.diagEvent_offs o ∨ State.srcFault_offs o

theorem execPumpLimit_keeps {P : State → Prop} (K : Keeps P 0x4c010c7f4 execPumpLimit_offs) {s : State} (p : Fin 2) (hs : P s) :
    ∃ t, (execPumpLimit p s) = .next t ∧ P t := by
  have k0 : Keeps P 0x4c010c7f4 State.diagEvent_offs := K.sub rfl (fun _ h => .inr (.inr (.inl h)))
  have k1 : Keeps P 0x440000010 State.srcFault_offs := K.sub rfl (fun _ h => .inr (.inr (.inr (h))))
  have r0 := K.reg (SRC_PUMP0_STATUS.reg) (.inl rfl)
  have r1 := K.reg (SRC_PUMP1_STATUS.reg) (.inr (.inl rfl))
  refine ⟨_, rfl, ?_⟩
  repeat' (first
    | with_reducible assumption
    | with_reducible (first | apply State.diagEvent_keeps k0 | apply State.srcFault_keeps k1 | apply setFlag_keeps)
    | with_reducible exact r0
    | with_reducible exact r1
    | intro _ _ _ _
    | intro _ _ _
    | intro _ _
    | with_reducible (first | apply ite_keeps | apply ite_keeps_pair)
    | dsimp only
    | split
    | unfold pumpFld
    | with_reducible (first | apply r0 | apply r1))

theorem execPumpGateOpen_keeps {P : State → Prop} (K : Keeps P 0x80 (fun _ => False)) {s : State} (hs : P s) :
    ∃ t, (execPumpGateOpen s) = .next t ∧ P t := by
  have k0 : Keeps P 0x80 (fun _ => False) := K.sub rfl (fun _ h => h.elim)
  refine ⟨_, rfl, ?_⟩
  repeat' (first
    | with_reducible assumption
    | with_reducible (first | apply State.setGate_keeps k0)
    | intro _ _ _ _
    | intro _ _ _
    | intro _ _
    | with_reducible (first | apply ite_keeps | apply ite_keeps_pair)
    | dsimp only
    | split)

/-- Registers `execPumpGateClose` may write. -/
def execPumpGateClose_offs (o : Nat) : Prop :=
  State.provePump_offs o

theorem execPumpGateClose_keeps {P : State → Prop} (K : Keeps P 0x80 execPumpGateClose_offs) {s : State} (hs : P s) :
    ∃ t, (execPumpGateClose s) = .next t ∧ P t := by
  have k0 : Keeps P 0x80 State.provePump_offs := K.sub rfl (fun _ h => h)
  have k1 : Keeps P 0x80 (fun _ => False) := K.sub rfl (fun _ h => h.elim)
  refine ⟨_, rfl, ?_⟩
  repeat' (first
    | with_reducible assumption
    | with_reducible (first | apply State.provePump_keeps k0 | apply State.setGate_keeps k1)
    | intro _ _ _ _
    | intro _ _ _
    | intro _ _
    | with_reducible (first | apply ite_keeps | apply ite_keeps_pair)
    | dsimp only
    | split)

/-- Registers `State.pumpLoop` may write. -/
def State.pumpLoop_offs (o : Nat) : Prop :=
  o = SRC_PUMP0_STATUS.reg ∨ o = SRC_PUMP1_STATUS.reg

theorem State.pumpLoop_keeps {P : State → Prop} (K : Keeps P 0x80000080 State.pumpLoop_offs) {s : State} (hs : P s) :
    P (State.pumpLoop s) := by
  have k0 : Keeps P 0x80000000 (fun _ => False) := K.sub rfl (fun _ h => h.elim)
  have r0 := K.reg (SRC_PUMP0_STATUS.reg) (.inl rfl)
  have r1 := K.reg (SRC_PUMP1_STATUS.reg) (.inr (rfl))
  have t7 : ∀ (s : State) v, P s → P (s.putSrc v) := K.upd 7 rfl
  unfold State.pumpLoop
  repeat' (first
    | with_reducible assumption
    | with_reducible (first | apply State.drawFree_keeps k0 | apply setFlag_keeps | apply t7)
    | with_reducible exact r0
    | with_reducible exact r1
    | intro _ _ _ _
    | intro _ _ _
    | intro _ _
    | with_reducible (first | apply ite_keeps | apply ite_keeps_pair)
    | dsimp only
    | split
    | unfold pumpFld
    | with_reducible (first | apply r0 | apply r1))

/-- Registers `State.pumpRound` may write. -/
def State.pumpRound_offs (o : Nat) : Prop :=
  State.provePump_offs o ∨ State.setRefill_offs o ∨ State.showProven_offs o

theorem State.pumpRound_keeps {P : State → Prop} (K : Keeps P 0x80 State.pumpRound_offs) {s : State} (hs : P s) :
    P (State.pumpRound s) := by
  have k0 : Keeps P 0x80 State.provePump_offs := K.sub rfl (fun _ h => .inl h)
  have k1 : Keeps P 0x80 (fun _ => False) := K.sub rfl (fun _ h => h.elim)
  have k2 : Keeps P 0x80 State.setRefill_offs := K.sub rfl (fun _ h => .inr (.inl h))
  have k3 : Keeps P 0x0 State.showProven_offs := K.sub rfl (fun _ h => .inr (.inr (h)))
  have t7 : ∀ (s : State) v, P s → P (s.putSrc v) := K.upd 7 rfl
  unfold State.pumpRound
  repeat' (first
    | with_reducible assumption
    | with_reducible (first | apply State.provePump_keeps k0 | apply State.setGate_keeps k1 | apply State.setRefill_keeps k2 | apply State.showProven_keeps k3 | apply t7)
    | intro _ _ _ _
    | intro _ _ _
    | intro _ _
    | with_reducible (first | apply ite_keeps | apply ite_keeps_pair)
    | dsimp only
    | split)

/-- Registers `State.energyCause` may write. -/
def State.energyCause_offs (o : Nat) : Prop :=
  State.diagEvent_offs o ∨ State.srcFault_offs o

theorem State.energyCause_keeps {P : State → Prop} (K : Keeps P 0x4c010c7f4 State.energyCause_offs) {s : State} (q : Nat) (nj : Nat) (hs : P s) :
    P (State.energyCause s q nj) := by
  have k0 : Keeps P 0x4c010c7f4 State.diagEvent_offs := K.sub rfl (fun _ h => .inl h)
  have k1 : Keeps P 0x440000010 State.srcFault_offs := K.sub rfl (fun _ h => .inr (h))
  unfold State.energyCause
  repeat' (first
    | with_reducible assumption
    | with_reducible (first | apply State.diagEvent_keeps k0 | apply State.srcFault_keeps k1)
    | intro _ _ _ _
    | intro _ _ _
    | intro _ _
    | with_reducible (first | apply ite_keeps | apply ite_keeps_pair)
    | dsimp only
    | split)

/-- Registers `State.energyFault` may write. -/
def State.energyFault_offs (o : Nat) : Prop :=
  o = SRC_ENERGY_FAIL_COUNT.reg ∨ State.energyCause_offs o

theorem State.energyFault_keeps {P : State → Prop} (K : Keeps P 0x4c010c7f4 State.energyFault_offs) {s : State} (q : Nat) (nj : Nat) (hs : P s) :
    P (State.energyFault s q nj) := by
  have k0 : Keeps P 0x4c010c7f4 State.energyCause_offs := K.sub rfl (fun _ h => .inr (h))
  have r0 := K.reg (SRC_ENERGY_FAIL_COUNT.reg) (.inl rfl)
  unfold State.energyFault
  repeat' (first
    | with_reducible assumption
    | with_reducible (first | apply State.energyCause_keeps k0 | apply bump_keeps)
    | with_reducible exact r0
    | intro _ _ _ _
    | intro _ _ _
    | intro _ _
    | with_reducible (first | apply ite_keeps | apply ite_keeps_pair)
    | dsimp only
    | split
    | with_reducible (first | apply r0))

/-- Registers `State.leakFault` may write. -/
def State.leakFault_offs (o : Nat) : Prop :=
  State.diagEvent_offs o ∨ State.srcFault_offs o

theorem State.leakFault_keeps {P : State → Prop} (K : Keeps P 0x4c010c7f4 State.leakFault_offs) {s : State} (leak : Bool) (hs : P s) :
    P (State.leakFault s leak) := by
  have k0 : Keeps P 0x4c010c7f4 State.diagEvent_offs := K.sub rfl (fun _ h => .inl h)
  have k1 : Keeps P 0x440000010 State.srcFault_offs := K.sub rfl (fun _ h => .inr (h))
  unfold State.leakFault
  repeat' (first
    | with_reducible assumption
    | with_reducible (first | apply State.diagEvent_keeps k0 | apply State.srcFault_keeps k1)
    | intro _ _ _ _
    | intro _ _ _
    | intro _ _
    | with_reducible (first | apply ite_keeps | apply ite_keeps_pair)
    | dsimp only
    | split)

/-- Registers `execTapCheck` may write. -/
def execTapCheck_offs (o : Nat) : Prop :=
  State.calTurn_offs o ∨ State.energyFault_offs o ∨ State.leakFault_offs o ∨ State.routeFault_offs o ∨
    State.tapLast_offs o

theorem execTapCheck_keeps {P : State → Prop} (K : Keeps P 0x4c010c7f4 execTapCheck_offs) {s : State} (energy : Nat) (routeLow : Bool) (leak : Bool) (hs : P s) :
    ∃ t, (execTapCheck energy routeLow leak s) = .next t ∧ P t := by
  have k0 : Keeps P 0x200 State.calTurn_offs := K.sub rfl (fun _ h => .inl h)
  have k1 : Keeps P 0x4c010c7f4 State.energyFault_offs := K.sub rfl (fun _ h => .inr (.inl h))
  have k2 : Keeps P 0x4c010c7f4 State.leakFault_offs := K.sub rfl (fun _ h => .inr (.inr (.inl h)))
  have k3 : Keeps P 0x4c010c7f4 State.routeFault_offs := K.sub rfl (fun _ h => .inr (.inr (.inr (.inl h))))
  have k4 : Keeps P 0x0 State.tapLast_offs := K.sub rfl (fun _ h => .inr (.inr (.inr (.inr (h)))))
  have t7 : ∀ (s : State) v, P s → P (s.putSrc v) := K.upd 7 rfl
  have t8 : ∀ (s : State) v, P s → P (s.putSched v) := K.upd 8 rfl
  refine ⟨_, rfl, ?_⟩
  repeat' (first
    | with_reducible assumption
    | with_reducible (first | apply State.calTurn_keeps k0 | apply State.energyFault_keeps k1 | apply State.leakFault_keeps k2 | apply State.routeFault_keeps k3 | apply State.tapLast_keeps k4 | apply t7 | apply t8)
    | intro _ _ _ _
    | intro _ _ _
    | intro _ _
    | with_reducible (first | apply ite_keeps | apply ite_keeps_pair)
    | dsimp only
    | split)

theorem State.parkSwitch_keeps {P : State → Prop} (K : Keeps P 0x80 (fun _ => False)) {s : State} (hs : P s) :
    P (State.parkSwitch s) := by
  have t7 : ∀ (s : State) v, P s → P (s.putSrc v) := K.upd 7 rfl
  unfold State.parkSwitch
  repeat' (first
    | with_reducible assumption
    | with_reducible (first | apply t7)
    | intro _ _ _ _
    | intro _ _ _
    | intro _ _
    | with_reducible (first | apply ite_keeps | apply ite_keeps_pair)
    | dsimp only
    | split)

/-- Registers `execOverpowerTrip` may write. -/
def execOverpowerTrip_offs (o : Nat) : Prop :=
  State.diagEvent_offs o ∨ State.srcFault_offs o

theorem execOverpowerTrip_keeps {P : State → Prop} (K : Keeps P 0x4c010c7f4 execOverpowerTrip_offs) {s : State} (hs : P s) :
    ∃ t, (execOverpowerTrip s) = .next t ∧ P t := by
  have k0 : Keeps P 0x4c010c7f4 State.diagEvent_offs := K.sub rfl (fun _ h => .inl h)
  have k1 : Keeps P 0x80 (fun _ => False) := K.sub rfl (fun _ h => h.elim)
  have k2 : Keeps P 0x80 (fun _ => False) := K.sub rfl (fun _ h => h.elim)
  have k3 : Keeps P 0x440000010 State.srcFault_offs := K.sub rfl (fun _ h => .inr (h))
  refine ⟨_, rfl, ?_⟩
  repeat' (first
    | with_reducible assumption
    | with_reducible (first | apply State.diagEvent_keeps k0 | apply State.parkSwitch_keeps k1 | apply State.setGate_keeps k2 | apply State.srcFault_keeps k3)
    | intro _ _ _ _
    | intro _ _ _
    | intro _ _
    | with_reducible (first | apply ite_keeps | apply ite_keeps_pair)
    | dsimp only
    | split)

/-- Registers `execLoshiftSettled` may write. -/
def execLoshiftSettled_offs (o : Nat) : Prop :=
  o = SRC_LOSHIFT.reg

theorem execLoshiftSettled_keeps {P : State → Prop} (K : Keeps P 0x0 execLoshiftSettled_offs) {s : State} (hs : P s) :
    ∃ t, (execLoshiftSettled s) = .next t ∧ P t := by
  have r0 := K.reg (SRC_LOSHIFT.reg) (rfl)
  refine ⟨_, rfl, ?_⟩
  repeat' (first
    | with_reducible assumption
    | with_reducible (first | apply setFlag_keeps)
    | with_reducible exact r0
    | intro _ _ _ _
    | intro _ _ _
    | intro _ _
    | with_reducible (first | apply ite_keeps | apply ite_keeps_pair)
    | dsimp only
    | split
    | with_reducible (first | apply r0))

/-- Registers `State.diagPumps` may write. -/
def State.diagPumps_offs (o : Nat) : Prop :=
  State.provePump_offs o ∨ State.pumpFail_offs o

theorem State.diagPumps_keeps {P : State → Prop} (K : Keeps P 0x4c010c7f4 State.diagPumps_offs) {s : State} (f : DiagFind) (hs : P s) :
    P (State.diagPumps s f) := by
  have k0 : Keeps P 0x80 State.provePump_offs := K.sub rfl (fun _ h => .inl h)
  have k1 : Keeps P 0x4c010c7f4 State.pumpFail_offs := K.sub rfl (fun _ h => .inr (h))
  unfold State.diagPumps
  repeat' (first
    | with_reducible assumption
    | with_reducible (first | apply State.provePump_keeps k0 | apply State.pumpFail_keeps k1)
    | intro _ _ _ _
    | intro _ _ _
    | intro _ _
    | with_reducible (first | apply ite_keeps | apply ite_keeps_pair)
    | dsimp only
    | split)

/-- Registers `State.diagEnergies` may write. -/
def State.diagEnergies_offs (o : Nat) : Prop :=
  State.energyCause_offs o

theorem State.diagEnergies_keeps {P : State → Prop} (K : Keeps P 0x4c010c7f4 State.diagEnergies_offs) {s : State} (parts : List (Nat × Nat)) (hs : P s) :
    P (State.diagEnergies s parts) := by
  have k0 : Keeps P 0x4c010c7f4 State.energyCause_offs := K.sub rfl (fun _ h => h)
  unfold State.diagEnergies
  repeat' (first
    | with_reducible assumption
    | with_reducible (first | apply State.energyCause_keeps k0 | apply foldl_keeps | apply foldl_keeps_pair)
    | intro _ _ _ _
    | intro _ _ _
    | intro _ _
    | with_reducible (first | apply ite_keeps | apply ite_keeps_pair)
    | dsimp only
    | split)

/-- Registers `execDiagTurnResults` may write. -/
def execDiagTurnResults_offs (o : Nat) : Prop :=
  o = SRC_DIAG_STATUS.reg ∨ o = SRC_ENERGY_FAIL_COUNT.reg ∨ State.diagEnergies_offs o ∨ State.diagEvent_offs o ∨
    State.diagPumps_offs o ∨ State.leakFault_offs o ∨ State.srcFault_offs o ∨ State.tapLast_offs o

theorem execDiagTurnResults_keeps {P : State → Prop} (K : Keeps P 0x4c010c7f4 execDiagTurnResults_offs) {s : State} (f : DiagFind) (hs : P s) :
    ∃ t, (execDiagTurnResults f s) = .next t ∧ P t := by
  have k0 : Keeps P 0x4c010c7f4 State.diagEnergies_offs := K.sub rfl (fun _ h => .inr (.inr (.inl h)))
  have k1 : Keeps P 0x4c010c7f4 State.diagEvent_offs := K.sub rfl (fun _ h => .inr (.inr (.inr (.inl h))))
  have k2 : Keeps P 0x4c010c7f4 State.diagPumps_offs := K.sub rfl (fun _ h => .inr (.inr (.inr (.inr (.inl h)))))
  have k3 : Keeps P 0x4c010c7f4 State.leakFault_offs := K.sub rfl (fun _ h => .inr (.inr (.inr (.inr (.inr (.inl h))))))
  have k4 : Keeps P 0x440000010 State.srcFault_offs := K.sub rfl (fun _ h => .inr (.inr (.inr (.inr (.inr (.inr (.inl h)))))))
  have k5 : Keeps P 0x0 State.tapLast_offs := K.sub rfl (fun _ h => .inr (.inr (.inr (.inr (.inr (.inr (.inr (h))))))))
  have r0 := K.reg (SRC_DIAG_STATUS.reg) (.inl rfl)
  have r1 := K.reg (SRC_ENERGY_FAIL_COUNT.reg) (.inr (.inl rfl))
  have t8 : ∀ (s : State) v, P s → P (s.putSched v) := K.upd 8 rfl
  refine ⟨_, rfl, ?_⟩
  repeat' (first
    | with_reducible assumption
    | with_reducible (first | apply State.diagEnergies_keeps k0 | apply State.diagEvent_keeps k1 | apply State.diagPumps_keeps k2 | apply State.leakFault_keeps k3 | apply State.srcFault_keeps k4 | apply State.tapLast_keeps k5 | apply bump_keeps | apply setFlag_keeps | apply t8)
    | with_reducible exact r0
    | with_reducible exact r1
    | intro _ _ _ _
    | intro _ _ _
    | intro _ _
    | with_reducible (first | apply ite_keeps | apply ite_keeps_pair)
    | dsimp only
    | split
    | with_reducible (first | apply r0 | apply r1))

/-- Registers `execAdcLinkError` may write. -/
def execAdcLinkError_offs (o : Nat) : Prop :=
  (∃ n, o = PRT_RX_FAULT.reg n) ∨ State.diagEvent_offs o ∨ State.portFault_offs o

theorem execAdcLinkError_keeps {P : State → Prop} (K : Keeps P 0x4c010c7f4 execAdcLinkError_offs) {s : State} (die : Fin 2) (hs : P s) :
    ∃ t, (execAdcLinkError die s) = .next t ∧ P t := by
  have k0 : Keeps P 0x4c010c7f4 State.diagEvent_offs := K.sub rfl (fun _ h => .inr (.inl h))
  have k1 : Keeps P 0x4c0004074 State.portFault_offs := K.sub rfl (fun _ h => .inr (.inr (h)))
  have r0 := fun n => K.reg (PRT_RX_FAULT.reg n) (.inl ⟨n, rfl⟩)
  have t8 : ∀ (s : State) v, P s → P (s.putSched v) := K.upd 8 rfl
  refine ⟨_, rfl, ?_⟩
  repeat' (first
    | with_reducible assumption
    | with_reducible (first | apply State.diagEvent_keeps k0 | apply State.portFault_keeps k1 | apply setFlag_keeps | apply foldl_keeps | apply foldl_keeps_pair | apply t8)
    | with_reducible exact r0 _
    | intro _ _ _ _
    | intro _ _ _
    | intro _ _
    | with_reducible (first | apply ite_keeps | apply ite_keeps_pair)
    | dsimp only
    | split
    | with_reducible (first | apply r0))

theorem execZoneStep_keeps {P : State → Prop} (K : Keeps P 0x40000 (fun _ => False)) {s : State} (n : Fin 12) (k : Fin 8) (hs : P s) :
    ∃ t, (execZoneStep n k s) = .next t ∧ P t := by
  have k0 : Keeps P 0x40000 (fun _ => False) := K.sub rfl (fun _ h => h.elim)
  refine ⟨_, rfl, ?_⟩
  repeat' (first
    | with_reducible assumption
    | with_reducible (first | apply State.setPort_keeps k0)
    | intro _ _ _ _
    | intro _ _ _
    | intro _ _
    | with_reducible (first | apply ite_keeps | apply ite_keeps_pair)
    | dsimp only
    | split)

end Sys2Proof.Machine
end

