-- ==== Sys2Proof/Laws/KRound.lean ====
section
/-!
SUPPORT. What the operations of Sys2Proof.Machine.Round keep, and the registers they may write.
-/
namespace Sys2Proof.Machine

/-- Registers `State.actAll` may write. -/
def State.actAll_offs (o : Nat) : Prop :=
  State.actCmd_offs o ∨ State.completeCmd_offs o

theorem State.actAll_keeps {P : State → Prop} (K : Keeps P 0x4c317fff4 State.actAll_offs) {a0 : State} (stops : List Nat) (a1 : List PendCmd) (ha0 : P a0) :
    P (State.actAll stops a0 a1) := by
  have k0 : Keeps P 0x4c317fff4 State.actCmd_offs := K.sub rfl (fun _ h => .inl h)
  have k1 : Keeps P 0x440000010 State.completeCmd_offs := K.sub rfl (fun _ h => .inr (h))
  induction a1 generalizing stops a0 with
  | nil =>
    unfold State.actAll
    repeat' (first
      | with_reducible assumption
      | with_reducible (first | apply State.actCmd_keeps k0 | apply State.completeCmd_keeps k1)
      | (apply fst_keeps (by assumption))
      | intro _ _ _ _
      | intro _ _ _
      | intro _ _
      | with_reducible (first | apply ite_keeps | apply ite_keeps_pair)
      | dsimp only
      | split)
  | cons _ _ ih =>
    unfold State.actAll
    repeat' (first
      | with_reducible assumption
      | with_reducible apply ih
      | with_reducible (first | apply State.actCmd_keeps k0 | apply State.completeCmd_keeps k1)
      | (apply fst_keeps (by assumption))
      | intro _ _ _ _
      | intro _ _ _
      | intro _ _
      | with_reducible (first | apply ite_keeps | apply ite_keeps_pair)
      | dsimp only
      | split)

/-- Registers `State.actRound` may write. -/
def State.actRound_offs (o : Nat) : Prop :=
  State.actAll_offs o

theorem State.actRound_keeps {P : State → Prop} (K : Keeps P 0x4c317fff4 State.actRound_offs) {s : State} (hs : P s) :
    P (State.actRound s) := by
  have k0 : Keeps P 0x4c317fff4 State.actAll_offs := K.sub rfl (fun _ h => h)
  have t4 : ∀ (s : State) v, P s → P (s.putHif v) := K.upd 4 rfl
  unfold State.actRound
  repeat' (first
    | with_reducible assumption
    | with_reducible (first | apply State.actAll_keeps k0 | apply t4)
    | intro _ _ _ _
    | intro _ _ _
    | intro _ _
    | with_reducible (first | apply ite_keeps | apply ite_keeps_pair)
    | dsimp only
    | split)

/-- Registers `State.requestStop` may write. -/
def State.requestStop_offs (o : Nat) : Prop :=
  State.clearPending_offs o ∨ State.completeWhere_offs o ∨ State.disarm_offs o

theorem State.requestStop_keeps {P : State → Prop} (K : Keeps P 0x440004174 State.requestStop_offs) {s : State} (hs : P s) :
    P (State.requestStop s) := by
  have k0 : Keeps P 0x100 State.clearPending_offs := K.sub rfl (fun _ h => .inl h)
  have k1 : Keeps P 0x440000110 State.completeWhere_offs := K.sub rfl (fun _ h => .inr (.inl h))
  have k2 : Keeps P 0x440004070 State.disarm_offs := K.sub rfl (fun _ h => .inr (.inr (h)))
  have t2 : ∀ (s : State) v, (v.dev = s.ctl.dev ∨ ¬ s.ctl.dev = .safe) → P s → P (s.putCtl v) := K.upd 2 rfl
  unfold State.requestStop
  repeat' (first
    | with_reducible assumption
    | with_reducible (first | apply State.clearPending_keeps k0 | apply State.completeWhere_keeps k1 | apply State.disarm_keeps k2 | apply t2)
    | with_reducible exact Or.inl rfl
    | exact Or.inr (by assumption)
    | intro _ _ _ _
    | intro _ _ _
    | intro _ _
    | with_reducible (first | apply ite_keeps | apply ite_keeps_pair)
    | dsimp only
    | split)

/-- Registers `State.stopRound` may write. -/
def State.stopRound_offs (o : Nat) : Prop :=
  State.completeWhere_offs o ∨ State.requestStop_offs o

theorem State.stopRound_keeps {P : State → Prop} (K : Keeps P 0x440004174 State.stopRound_offs) {s : State} (hs : P s) :
    P (State.stopRound s) := by
  have k0 : Keeps P 0x440000110 State.completeWhere_offs := K.sub rfl (fun _ h => .inl h)
  have k1 : Keeps P 0x440004174 State.requestStop_offs := K.sub rfl (fun _ h => .inr (h))
  unfold State.stopRound
  repeat' (first
    | with_reducible assumption
    | with_reducible (first | apply State.completeWhere_keeps k0 | apply State.requestStop_keeps k1)
    | intro _ _ _ _
    | intro _ _ _
    | intro _ _
    | with_reducible (first | apply ite_keeps | apply ite_keeps_pair)
    | dsimp only
    | split)

/-- Registers `State.beltRoundStart` may write. -/
def State.beltRoundStart_offs (o : Nat) : Prop :=
  o = LCH_BELT_LAG_COUNT.reg ∨ o = LCH_BELT_STALL_COUNT.reg

theorem State.beltRoundStart_keeps {P : State → Prop} (K : Keeps P 0x100 State.beltRoundStart_offs) {s : State} (hs : P s) :
    P (State.beltRoundStart s) := by
  have r0 := K.reg (LCH_BELT_LAG_COUNT.reg) (.inl rfl)
  have r1 := K.reg (LCH_BELT_STALL_COUNT.reg) (.inr (rfl))
  have t8 : ∀ (s : State) v, P s → P (s.putSched v) := K.upd 8 rfl
  unfold State.beltRoundStart
  repeat' (first
    | with_reducible assumption
    | with_reducible (first | apply addReg_keeps | apply bump_keeps | apply t8)
    | with_reducible exact r0
    | with_reducible exact r1
    | intro _ _ _ _
    | intro _ _ _
    | intro _ _
    | with_reducible (first | apply ite_keeps | apply ite_keeps_pair)
    | dsimp only
    | split
    | with_reducible (first | apply r0 | apply r1))

theorem State.predictRound_keeps {P : State → Prop} (K : Keeps P 0x100 (fun _ => False)) {s : State} (hs : P s) :
    P (State.predictRound s) := by
  have k0 : Keeps P 0x100 (fun _ => False) := K.sub rfl (fun _ h => h.elim)
  have t8 : ∀ (s : State) v, P s → P (s.putSched v) := K.upd 8 rfl
  unfold State.predictRound
  repeat' (first
    | with_reducible assumption
    | with_reducible (first | apply State.predictNow_keeps k0 | apply t8)
    | intro _ _ _ _
    | intro _ _ _
    | intro _ _
    | with_reducible (first | apply ite_keeps | apply ite_keeps_pair)
    | dsimp only
    | split)

/-- Registers `State.reportDefer` may write. -/
def State.reportDefer_offs (o : Nat) : Prop :=
  State.raiseEvent_offs o

theorem State.reportDefer_keeps {P : State → Prop} (K : Keeps P 0x440000010 State.reportDefer_offs) {s : State} (hs : P s) :
    P (State.reportDefer s) := by
  have k0 : Keeps P 0x440000010 State.raiseEvent_offs := K.sub rfl (fun _ h => h)
  unfold State.reportDefer
  repeat' (first
    | with_reducible assumption
    | with_reducible (first | apply State.raiseEvent_keeps k0)
    | intro _ _ _ _
    | intro _ _ _
    | intro _ _
    | with_reducible (first | apply ite_keeps | apply ite_keeps_pair)
    | dsimp only
    | split)

/-- Registers `State.nextRound` may write. -/
def State.nextRound_offs (o : Nat) : Prop :=
  State.reportDefer_offs o

theorem State.nextRound_keeps {P : State → Prop} (K : Keeps P 0x440000114 State.nextRound_offs) {s : State} (hs : P s) :
    P (State.nextRound s) := by
  have k0 : Keeps P 0x440000010 State.reportDefer_offs := K.sub rfl (fun _ h => h)
  have t2 : ∀ (s : State) v, (v.dev = s.ctl.dev ∨ ¬ s.ctl.dev = .safe) → P s → P (s.putCtl v) := K.upd 2 rfl
  have t8 : ∀ (s : State) v, P s → P (s.putSched v) := K.upd 8 rfl
  unfold State.nextRound
  repeat' (first
    | with_reducible assumption
    | with_reducible (first | apply State.reportDefer_keeps k0 | apply t2 | apply t8)
    | with_reducible exact Or.inl rfl
    | exact Or.inr (by assumption)
    | intro _ _ _ _
    | intro _ _ _
    | intro _ _
    | with_reducible (first | apply ite_keeps | apply ite_keeps_pair)
    | dsimp only
    | split)

/-- Registers `State.firstRound` may write. -/
def State.firstRound_offs (o : Nat) : Prop :=
  State.countPause_offs o ∨ State.markActive_offs o ∨ State.startCore_offs o

theorem State.firstRound_keeps {P : State → Prop} (K : Keeps P 0x1085c4 State.firstRound_offs) {old : State} (hold : P old) :
    P (State.firstRound old) := by
  have k0 : Keeps P 0x100 (fun _ => False) := K.sub rfl (fun _ h => h.elim)
  have k1 : Keeps P 0x400 State.countPause_offs := K.sub rfl (fun _ h => .inl h)
  have k2 : Keeps P 0x80 (fun _ => False) := K.sub rfl (fun _ h => h.elim)
  have k3 : Keeps P 0x0 State.markActive_offs := K.sub rfl (fun _ h => .inr (.inl h))
  have k4 : Keeps P 0x4 (fun _ => False) := K.sub rfl (fun _ h => h.elim)
  have k5 : Keeps P 0x100000 State.startCore_offs := K.sub rfl (fun _ h => .inr (.inr (h)))
  have k6 : Keeps P 0x8040 (fun _ => False) := K.sub rfl (fun _ h => h.elim)
  have t8 : ∀ (s : State) v, P s → P (s.putSched v) := K.upd 8 rfl
  unfold State.firstRound
  repeat' (first
    | with_reducible assumption
    | with_reducible (first | apply State.beltBase_keeps k0 | apply State.countPause_keeps k1 | apply State.ecoBegin_keeps k2 | apply State.markActive_keeps k3 | apply State.setDev_keeps k4 | apply State.startCore_keeps k5 | apply State.trgStart_keeps k6 | apply foldl_keeps | apply foldl_keeps_pair | apply t8)
    | intro _ _ _ _
    | intro _ _ _
    | intro _ _
    | with_reducible (first | apply ite_keeps | apply ite_keeps_pair)
    | dsimp only
    | split)

theorem State.degEnd_keeps {P : State → Prop} (K : Keeps P 0x4 (fun _ => False)) {s : State} (hs : P s) :
    P (State.degEnd s) := by
  have k0 : Keeps P 0x4 (fun _ => False) := K.sub rfl (fun _ h => h.elim)
  unfold State.degEnd
  repeat' (first
    | with_reducible assumption
    | with_reducible (first | apply State.setDev_keeps k0)
    | intro _ _ _ _
    | intro _ _ _
    | intro _ _
    | with_reducible (first | apply ite_keeps | apply ite_keeps_pair)
    | dsimp only
    | split)

theorem State.takeApr_keeps {P : State → Prop} (K : Keeps P 0x100 (fun _ => False)) {s : State} (hs : P s) :
    P (State.takeApr s) := by
  have t8 : ∀ (s : State) v, P s → P (s.putSched v) := K.upd 8 rfl
  unfold State.takeApr
  repeat' (first
    | with_reducible assumption
    | with_reducible (first | apply t8)
    | intro _ _ _ _
    | intro _ _ _
    | intro _ _
    | with_reducible (first | apply ite_keeps | apply ite_keeps_pair)
    | dsimp only
    | split)

/-- Registers `State.calBegin` may write. -/
def State.calBegin_offs (o : Nat) : Prop :=
  State.calStart_offs o

theorem State.calBegin_keeps {P : State → Prop} (K : Keeps P 0x440000210 State.calBegin_offs) {s : State} (hs : P s) :
    P (State.calBegin s) := by
  have k0 : Keeps P 0x440000210 State.calStart_offs := K.sub rfl (fun _ h => h)
  unfold State.calBegin
  repeat' (first
    | with_reducible assumption
    | with_reducible (first | apply State.calStart_keeps k0)
    | intro _ _ _ _
    | intro _ _ _
    | intro _ _
    | with_reducible (first | apply ite_keeps | apply ite_keeps_pair)
    | dsimp only
    | split)

/-- Registers `State.restoreRefs` may write. -/
def State.restoreRefs_offs (o : Nat) : Prop :=
  o = MLK_PAIR_STATUS.reg ∨ State.actRefLoad_offs o

theorem State.restoreRefs_keeps {P : State → Prop} (K : Keeps P 0xc3004000 State.restoreRefs_offs) {s : State} (refs : List (Nat × List Word)) (hs : P s) :
    P (State.restoreRefs s refs) := by
  have k0 : Keeps P 0xc3004000 State.actRefLoad_offs := K.sub rfl (fun _ h => .inr (h))
  have r0 := K.reg (MLK_PAIR_STATUS.reg) (.inl rfl)
  have t14 : ∀ (s : State) v, (Memory.wf 0 s.mlk.pbase = true → Memory.wf 0 v.pbase = true) → P s → P (s.putMlk v) := K.upd 14 rfl
  unfold State.restoreRefs
  repeat' (first
    | with_reducible assumption
    | with_reducible (first | apply State.actRefLoad_keeps k0 | apply setFlag_keeps | apply foldl_keeps | apply foldl_keeps_pair | apply t14)
    | with_reducible exact r0
    | with_reducible_and_instances (first | exact fun h => h | exact fun h => Memory.setBytes_wf _ _ h | exact fun h => SMap.put_wf _ _ h | exact fun h => Memory.clearRange_wf _ _ h | exact fun _ => rfl | exact fun h => Memory.setByte_wf _ _ h | exact fun h => Memory.setBytes_wf _ _ (Memory.setBytes_wf _ _ h) | exact fun h => Memory.clearRange_wf _ _ (Memory.clearRange_wf _ _ h) | exact fun h => SMap.filter_wf _ h)
    | exact fun h => SMap.put_wf _ _ h
    | exact fun _ => SMap.nil_wf
    | (apply fst_keeps (by assumption))
    | intro _ _ _ _
    | intro _ _ _
    | intro _ _
    | with_reducible (first | apply ite_keeps | apply ite_keeps_pair)
    | dsimp only
    | split
    | with_reducible (first | apply r0))

/-- Registers `State.applyRound` may write. -/
def State.applyRound_offs (o : Nat) : Prop :=
  State.actRound_offs o ∨ State.beltRound_offs o ∨ State.brlRound_offs o ∨ State.calApply_offs o ∨
    State.calBegin_offs o ∨ State.fltRound_offs o ∨ State.pumpLoop_offs o ∨ State.pumpRound_offs o ∨
    State.rangeRound_offs o ∨ State.restoreRefs_offs o ∨ State.safetyCrc_offs o ∨ State.settle_offs o ∨
    State.tryArm_offs o

theorem State.applyRound_keeps {P : State → Prop} (K : Keeps P 0x4c317fff4 State.applyRound_offs) {old : State} {s : State} (refs : List (Nat × List Word)) (hs : P s) :
    P (State.applyRound old s refs) := by
  have k0 : Keeps P 0x4c317fff4 State.actRound_offs := K.sub rfl (fun _ h => .inl h)
  have k1 : Keeps P 0x800 State.beltRound_offs := K.sub rfl (fun _ h => .inr (.inl h))
  have k2 : Keeps P 0x2000 State.brlRound_offs := K.sub rfl (fun _ h => .inr (.inr (.inl h)))
  have k3 : Keeps P 0x300 State.calApply_offs := K.sub rfl (fun _ h => .inr (.inr (.inr (.inl h))))
  have k4 : Keeps P 0x440000210 State.calBegin_offs := K.sub rfl (fun _ h => .inr (.inr (.inr (.inr (.inl h)))))
  have k5 : Keeps P 0x4 (fun _ => False) := K.sub rfl (fun _ h => h.elim)
  have k6 : Keeps P 0x80040000 State.fltRound_offs := K.sub rfl (fun _ h => .inr (.inr (.inr (.inr (.inr (.inl h))))))
  have k7 : Keeps P 0x800 (fun _ => False) := K.sub rfl (fun _ h => h.elim)
  have k8 : Keeps P 0xc0004000 (fun _ => False) := K.sub rfl (fun _ h => h.elim)
  have k9 : Keeps P 0x100 (fun _ => False) := K.sub rfl (fun _ h => h.elim)
  have k10 : Keeps P 0x80000080 State.pumpLoop_offs := K.sub rfl (fun _ h => .inr (.inr (.inr (.inr (.inr (.inr (.inl h)))))))
  have k11 : Keeps P 0x80 State.pumpRound_offs := K.sub rfl (fun _ h => .inr (.inr (.inr (.inr (.inr (.inr (.inr (.inl h))))))))
  have k12 : Keeps P 0x40000 State.rangeRound_offs := K.sub rfl (fun _ h => .inr (.inr (.inr (.inr (.inr (.inr (.inr (.inr (.inl h)))))))))
  have k13 : Keeps P 0xc3004000 State.restoreRefs_offs := K.sub rfl (fun _ h => .inr (.inr (.inr (.inr (.inr (.inr (.inr (.inr (.inr (.inl h))))))))))
  have k14 : Keeps P 0x0 State.safetyCrc_offs := K.sub rfl (fun _ h => .inr (.inr (.inr (.inr (.inr (.inr (.inr (.inr (.inr (.inr (.inl h)))))))))))
  have k15 : Keeps P 0x440000070 State.settle_offs := K.sub rfl (fun _ h => .inr (.inr (.inr (.inr (.inr (.inr (.inr (.inr (.inr (.inr (.inr (.inl h))))))))))))
  have k16 : Keeps P 0x100 (fun _ => False) := K.sub rfl (fun _ h => h.elim)
  have k17 : Keeps P 0x440004070 State.tryArm_offs := K.sub rfl (fun _ h => .inr (.inr (.inr (.inr (.inr (.inr (.inr (.inr (.inr (.inr (.inr (.inr (h)))))))))))))
  unfold State.applyRound
  repeat' (first
    | with_reducible assumption
    | with_reducible (first | apply State.actRound_keeps k0 | apply State.beltRound_keeps k1 | apply State.brlRound_keeps k2 | apply State.calApply_keeps k3 | apply State.calBegin_keeps k4 | apply State.degEnd_keeps k5 | apply State.fltRound_keeps k6 | apply State.gateRound_keeps k7 | apply State.mirrorChanges_keeps k8 | apply State.predictRound_keeps k9 | apply State.pumpLoop_keeps k10 | apply State.pumpRound_keeps k11 | apply State.rangeRound_keeps k12 | apply State.restoreRefs_keeps k13 | apply State.safetyCrc_keeps k14 | apply State.settle_keeps k15 | apply State.takeApr_keeps k16 | apply State.tryArm_keeps k17)
    | intro _ _ _ _
    | intro _ _ _
    | intro _ _
    | with_reducible (first | apply ite_keeps | apply ite_keeps_pair)
    | dsimp only
    | split)

/-- Registers `State.roundStart` may write. -/
def State.roundStart_offs (o : Nat) : Prop :=
  State.applyRound_offs o ∨ State.beltRoundStart_offs o ∨ State.firstRound_offs o ∨ State.nextRound_offs o ∨
    State.stopRound_offs o

theorem State.roundStart_keeps {P : State → Prop} (K : Keeps P 0x4c317fff4 State.roundStart_offs) {s : State} (refs : List (Nat × List Word)) (hs : P s) :
    P (State.roundStart s refs) := by
  have k0 : Keeps P 0x4c317fff4 State.applyRound_offs := K.sub rfl (fun _ h => .inl h)
  have k1 : Keeps P 0x100 State.beltRoundStart_offs := K.sub rfl (fun _ h => .inr (.inl h))
  have k2 : Keeps P 0x1085c4 State.firstRound_offs := K.sub rfl (fun _ h => .inr (.inr (.inl h)))
  have k3 : Keeps P 0x440000114 State.nextRound_offs := K.sub rfl (fun _ h => .inr (.inr (.inr (.inl h))))
  have k4 : Keeps P 0x440004174 State.stopRound_offs := K.sub rfl (fun _ h => .inr (.inr (.inr (.inr (h)))))
  unfold State.roundStart
  repeat' (first
    | with_reducible assumption
    | with_reducible (first | apply State.applyRound_keeps k0 | apply State.beltRoundStart_keeps k1 | apply State.firstRound_keeps k2 | apply State.nextRound_keeps k3 | apply State.stopRound_keeps k4)
    | intro _ _ _ _
    | intro _ _ _
    | intro _ _
    | with_reducible (first | apply ite_keeps | apply ite_keeps_pair)
    | dsimp only
    | split)

/-- Registers `execRoundStart` may write. -/
def execRoundStart_offs (o : Nat) : Prop :=
  State.roundStart_offs o

theorem execRoundStart_keeps {P : State → Prop} (K : Keeps P 0x4c317fff4 execRoundStart_offs) {s : State} (refs : List (Fin 12 × List Word)) (hs : P s) :
    ∃ t, (execRoundStart refs s) = .next t ∧ P t := by
  have k0 : Keeps P 0x4c317fff4 State.roundStart_offs := K.sub rfl (fun _ h => h)
  refine ⟨_, rfl, ?_⟩
  repeat' (first
    | with_reducible assumption
    | with_reducible (first | apply State.roundStart_keeps k0)
    | intro _ _ _ _
    | intro _ _ _
    | intro _ _
    | with_reducible (first | apply ite_keeps | apply ite_keeps_pair)
    | dsimp only
    | split)

theorem State.lfExtend_keeps {P : State → Prop} (K : Keeps P 0x40000 (fun _ => False)) {s : State} (home : Cfg) (n : Nat) (hs : P s) :
    P (State.lfExtend s home n) := by
  have k0 : Keeps P 0x40000 (fun _ => False) := K.sub rfl (fun _ h => h.elim)
  unfold State.lfExtend
  repeat' (first
    | with_reducible assumption
    | with_reducible (first | apply State.setPort_keeps k0)
    | intro _ _ _ _
    | intro _ _ _
    | intro _ _
    | with_reducible (first | apply ite_keeps | apply ite_keeps_pair)
    | dsimp only
    | split)

/-- Registers `State.takeOver` may write. -/
def State.takeOver_offs (o : Nat) : Prop :=
  o = MLK_TKO_COUNT.reg ∨ o = MLK_TKO_ROUND_LO.reg ∨ o = MLK_TKO_ROUND_LO.reg + 4 ∨ State.brlExtend_offs o ∨
    State.calAgain_offs o ∨ State.raiseEvent_offs o ∨ State.takeCfg_offs o

theorem State.takeOver_keeps {P : State → Prop} (K : Keeps P 0x443046390 State.takeOver_offs) {s : State} (hs : P s) :
    P (State.takeOver s) := by
  have k0 : Keeps P 0x2000 State.brlExtend_offs := K.sub rfl (fun _ h => .inr (.inr (.inr (.inl h))))
  have k1 : Keeps P 0x440000210 State.calAgain_offs := K.sub rfl (fun _ h => .inr (.inr (.inr (.inr (.inl h)))))
  have k2 : Keeps P 0x40000 (fun _ => False) := K.sub rfl (fun _ h => h.elim)
  have k3 : Keeps P 0x440000010 State.raiseEvent_offs := K.sub rfl (fun _ h => .inr (.inr (.inr (.inr (.inr (.inl h))))))
  have k4 : Keeps P 0x100 (fun _ => False) := K.sub rfl (fun _ h => h.elim)
  have k5 : Keeps P 0x3002180 State.takeCfg_offs := K.sub rfl (fun _ h => .inr (.inr (.inr (.inr (.inr (.inr (h)))))))
  have r0 := K.reg (MLK_TKO_COUNT.reg) (.inl rfl)
  have r1 := K.reg (MLK_TKO_ROUND_LO.reg) (.inr (.inl rfl))
  have r2 := K.reg (MLK_TKO_ROUND_LO.reg + 4) (.inr (.inr (.inl rfl)))
  have t14 : ∀ (s : State) v, (Memory.wf 0 s.mlk.pbase = true → Memory.wf 0 v.pbase = true) → P s → P (s.putMlk v) := K.upd 14 rfl
  unfold State.takeOver
  repeat' (first
    | with_reducible assumption
    | with_reducible (first | apply State.brlExtend_keeps k0 | apply State.calAgain_keeps k1 | apply State.lfExtend_keeps k2 | apply State.raiseEvent_keeps k3 | apply State.resetShadow_keeps k4 | apply State.takeCfg_keeps k5 | apply bump_keeps | apply setReg64_keeps | apply foldl_keeps | apply foldl_keeps_pair | apply t14)
    | with_reducible exact r0
    | with_reducible exact r1
    | with_reducible exact r2
    | with_reducible_and_instances (first | exact fun h => h | exact fun h => Memory.setBytes_wf _ _ h | exact fun h => SMap.put_wf _ _ h | exact fun h => Memory.clearRange_wf _ _ h | exact fun _ => rfl | exact fun h => Memory.setByte_wf _ _ h | exact fun h => Memory.setBytes_wf _ _ (Memory.setBytes_wf _ _ h) | exact fun h => Memory.clearRange_wf _ _ (Memory.clearRange_wf _ _ h) | exact fun h => SMap.filter_wf _ h)
    | exact fun h => SMap.put_wf _ _ h
    | exact fun _ => SMap.nil_wf
    | intro _ _ _ _
    | intro _ _ _
    | intro _ _
    | with_reducible (first | apply ite_keeps | apply ite_keeps_pair)
    | dsimp only
    | split
    | with_reducible (first | apply r0 | apply r1 | apply r2))

/-- Registers `execTakeoverRoundStart` may write. -/
def execTakeoverRoundStart_offs (o : Nat) : Prop :=
  State.applyRound_offs o ∨ State.nextRound_offs o ∨ State.stopRound_offs o ∨ State.takeOver_offs o

theorem execTakeoverRoundStart_keeps {P : State → Prop} (K : Keeps P 0x4c317fff4 execTakeoverRoundStart_offs) {s : State} (hs : P s) :
    ∃ t, (execTakeoverRoundStart s) = .next t ∧ P t := by
  have k0 : Keeps P 0x4c317fff4 State.applyRound_offs := K.sub rfl (fun _ h => .inl h)
  have k1 : Keeps P 0x440000114 State.nextRound_offs := K.sub rfl (fun _ h => .inr (.inl h))
  have k2 : Keeps P 0x440004174 State.stopRound_offs := K.sub rfl (fun _ h => .inr (.inr (.inl h)))
  have k3 : Keeps P 0x443046390 State.takeOver_offs := K.sub rfl (fun _ h => .inr (.inr (.inr (h))))
  have t8 : ∀ (s : State) v, P s → P (s.putSched v) := K.upd 8 rfl
  refine ⟨_, rfl, ?_⟩
  repeat' (first
    | with_reducible assumption
    | with_reducible (first | apply State.applyRound_keeps k0 | apply State.nextRound_keeps k1 | apply State.stopRound_keeps k2 | apply State.takeOver_keeps k3 | apply t8)
    | intro _ _ _ _
    | intro _ _ _
    | intro _ _
    | with_reducible (first | apply ite_keeps | apply ite_keeps_pair)
    | dsimp only
    | split)

end Sys2Proof.Machine
end

