-- ==== Sys2Proof/Laws/KCoreEvt.lean ====
section
/-!
SUPPORT. What the operations of Sys2Proof.Machine.CoreEvt keep, and the registers they may write.
-/
namespace Sys2Proof.Machine

/-- Registers `State.writeAcrCtrl` may write. -/
def State.writeAcrCtrl_offs (o : Nat) : Prop :=
  (∃ n, o = ACR_CTRL.reg n) ∨ State.startCore_offs o ∨ State.storeWord_offs o

theorem State.writeAcrCtrl_keeps {P : State → Prop} (K : Keeps P 0x100004 State.writeAcrCtrl_offs) {s : State} (k : Nat) (w : Word) (hs : P s) :
    P (State.writeAcrCtrl s k w) := by
  have k0 : Keeps P 0x100000 (fun _ => False) := K.sub rfl (fun _ h => h.elim)
  have k1 : Keeps P 0x100004 (fun _ => False) := K.sub rfl (fun _ h => h.elim)
  have k2 : Keeps P 0x100000 State.startCore_offs := K.sub rfl (fun _ h => .inr (.inl h))
  have k3 : Keeps P 0x0 State.storeWord_offs := K.sub rfl (fun _ h => .inr (.inr (h)))
  have r0 := fun n => K.reg (ACR_CTRL.reg n) (.inl ⟨n, rfl⟩)
  unfold State.writeAcrCtrl
  repeat' (first
    | with_reducible assumption
    | with_reducible (first | apply State.beginStop_keeps k0 | apply State.clearCoreDeg_keeps k1 | apply State.startCore_keeps k2 | apply State.storeWord_keeps k3)
    | with_reducible exact r0 _
    | intro _ _ _ _
    | intro _ _ _
    | intro _ _
    | with_reducible (first | apply ite_keeps | apply ite_keeps_pair)
    | dsimp only
    | split
    | with_reducible (first | apply r0))

/-- Registers `execStartNow` may write. -/
def execStartNow_offs (o : Nat) : Prop :=
  State.writeAcrCtrl_offs o

theorem execStartNow_keeps {P : State → Prop} (K : Keeps P 0x100004 execStartNow_offs) {s : State} (k : Fin 16) (w : Word) (hs : P s) :
    ∃ t, (execStartNow k w s) = .next t ∧ P t := by
  have k0 : Keeps P 0x100004 State.writeAcrCtrl_offs := K.sub rfl (fun _ h => h)
  refine ⟨_, rfl, ?_⟩
  repeat' (first
    | with_reducible assumption
    | with_reducible (first | apply State.writeAcrCtrl_keeps k0)
    | intro _ _ _ _
    | intro _ _ _
    | intro _ _
    | with_reducible (first | apply ite_keeps | apply ite_keeps_pair)
    | dsimp only
    | split)

/-- Registers `execStopNow` may write. -/
def execStopNow_offs (o : Nat) : Prop :=
  State.writeAcrCtrl_offs o

theorem execStopNow_keeps {P : State → Prop} (K : Keeps P 0x100004 execStopNow_offs) {s : State} (k : Fin 16) (w : Word) (hs : P s) :
    ∃ t, (execStopNow k w s) = .next t ∧ P t := by
  have k0 : Keeps P 0x100004 State.writeAcrCtrl_offs := K.sub rfl (fun _ h => h)
  refine ⟨_, rfl, ?_⟩
  repeat' (first
    | with_reducible assumption
    | with_reducible (first | apply State.writeAcrCtrl_keeps k0)
    | intro _ _ _ _
    | intro _ _ _
    | intro _ _
    | with_reducible (first | apply ite_keeps | apply ite_keeps_pair)
    | dsimp only
    | split)

/-- Registers `State.setSpare` may write. -/
def State.setSpare_offs (o : Nat) : Prop :=
  (∃ n k, o = ACR_SPM_REPAIR.reg n k)

theorem State.setSpare_keeps {P : State → Prop} (K : Keeps P 0x0 State.setSpare_offs) {s : State} (k : Nat) (a : Nat) (spare : Nat) (st : Nat) (col : Nat) (hs : P s) :
    P (State.setSpare s k a spare st col) := by
  have r0 := fun n k => K.reg (ACR_SPM_REPAIR.reg n k) (⟨n, k, rfl⟩)
  unfold State.setSpare
  repeat' (first
    | with_reducible assumption
    | with_reducible (first | apply setFld_keeps)
    | with_reducible exact r0 _ _
    | intro _ _ _ _
    | intro _ _ _
    | intro _ _
    | with_reducible (first | apply ite_keeps | apply ite_keeps_pair)
    | dsimp only
    | split
    | with_reducible (first | apply r0))

/-- Registers `State.markReplaced` may write. -/
def State.markReplaced_offs (o : Nat) : Prop :=
  (∃ n k, o = ACR_SPM_REPAIR.reg n k)

theorem State.markReplaced_keeps {P : State → Prop} (K : Keeps P 0x0 State.markReplaced_offs) {s : State} (k : Nat) (a : Nat) (col : Nat) (hs : P s) :
    P (State.markReplaced s k a col) := by
  have r0 := fun n k => K.reg (ACR_SPM_REPAIR.reg n k) (⟨n, k, rfl⟩)
  unfold State.markReplaced
  repeat' (first
    | with_reducible assumption
    | with_reducible (first | apply setFld_keeps)
    | with_reducible exact r0 _ _
    | intro _ _ _ _
    | intro _ _ _
    | intro _ _
    | with_reducible (first | apply ite_keeps | apply ite_keeps_pair)
    | dsimp only
    | split
    | with_reducible (first | apply r0))

/-- Registers `State.assignSpares` may write. -/
def State.assignSpares_offs (o : Nat) : Prop :=
  State.markReplaced_offs o ∨ State.setSpare_offs o

theorem State.assignSpares_keeps {P : State → Prop} (K : Keeps P 0x0 State.assignSpares_offs) {s : State} (k : Nat) (a : Nat) (a0 : List Nat) (a1 : List Nat) (hs : P s) :
    P (State.assignSpares s k a a0 a1) := by
  have k0 : Keeps P 0x0 State.markReplaced_offs := K.sub rfl (fun _ h => .inl h)
  have k1 : Keeps P 0x0 State.setSpare_offs := K.sub rfl (fun _ h => .inr (h))
  induction a0 generalizing s a1 with
  | nil => cases a1 <;> exact hs
  | cons c cs ih =>
    cases a1 with
    | nil => exact hs
    | cons p ps =>
      unfold State.assignSpares
      repeat' (first
        | with_reducible assumption
        | with_reducible apply ih
        | with_reducible (first | apply State.markReplaced_keeps k0 | apply State.setSpare_keeps k1)
        | intro _ _ _ _
        | intro _ _ _
        | intro _ _
        | with_reducible (first | apply ite_keeps | apply ite_keeps_pair)
        | dsimp only
        | split)

/-- Registers `State.showSpares` may write. -/
def State.showSpares_offs (o : Nat) : Prop :=
  (∃ n, o = ACR_SPM_STATUS.reg n)

theorem State.showSpares_keeps {P : State → Prop} (K : Keeps P 0x0 State.showSpares_offs) {s : State} (k : Nat) (hs : P s) :
    P (State.showSpares s k) := by
  have r0 := fun n => K.reg (ACR_SPM_STATUS.reg n) (⟨n, rfl⟩)
  unfold State.showSpares
  repeat' (first
    | with_reducible assumption
    | with_reducible (first | apply setFld_keeps | apply foldl_keeps | apply foldl_keeps_pair)
    | with_reducible exact r0 _
    | intro _ _ _ _
    | intro _ _ _
    | intro _ _
    | with_reducible (first | apply ite_keeps | apply ite_keeps_pair)
    | dsimp only
    | split
    | with_reducible (first | apply r0))

theorem State.openColumn_keeps {P : State → Prop} (K : Keeps P 0x80100000 (fun _ => False)) {s : State} (k : Nat) (a : Nat) (col : Nat) (hs : P s) :
    P (State.openColumn s k a col) := by
  have k0 : Keeps P 0x100000 (fun _ => False) := K.sub rfl (fun _ h => h.elim)
  have t31 : ∀ (s : State) v, P s → P (s.putFreeCtr v) := K.upd 31 rfl
  unfold State.openColumn
  repeat' (first
    | with_reducible assumption
    | with_reducible (first | apply State.setCore_keeps k0 | apply foldl_keeps | apply foldl_keeps_pair | apply t31)
    | intro _ _ _ _
    | intro _ _ _
    | intro _ _
    | with_reducible (first | apply ite_keeps | apply ite_keeps_pair)
    | dsimp only
    | split)

/-- Registers `State.repairArray` may write. -/
def State.repairArray_offs (o : Nat) : Prop :=
  State.assignSpares_offs o

theorem State.repairArray_keeps {P : State → Prop} (K : Keeps P 0x80100000 State.repairArray_offs) {s : State} (k : Nat) (a : Nat) (preserving : Bool) (cols : List Nat) (hs : P s) :
    P (State.repairArray s k a preserving cols).1 := by
  have k0 : Keeps P 0x0 State.assignSpares_offs := K.sub rfl (fun _ h => h)
  have k1 : Keeps P 0x80100000 (fun _ => False) := K.sub rfl (fun _ h => h.elim)
  unfold State.repairArray
  repeat' (first
    | with_reducible assumption
    | with_reducible (first | apply State.assignSpares_keeps k0 | apply State.openColumn_keeps k1 | apply foldl_keeps | apply foldl_keeps_pair)
    | intro _ _ _ _
    | intro _ _ _
    | intro _ _
    | with_reducible (first | apply ite_keeps | apply ite_keeps_pair)
    | dsimp only
    | split)

/-- Registers `State.marchCore` may write. -/
def State.marchCore_offs (o : Nat) : Prop :=
  (∃ n, o = ACR_SPM_STATUS.reg n) ∨ State.repairArray_offs o ∨ State.showSpares_offs o

theorem State.marchCore_keeps {P : State → Prop} (K : Keeps P 0x80100000 State.marchCore_offs) {s : State} (preserving : Bool) (fs : List MarchRead) (k : Nat) (hs : P s) :
    P (State.marchCore s preserving fs k) := by
  have k0 : Keeps P 0x80100000 State.repairArray_offs := K.sub rfl (fun _ h => .inr (.inl h))
  have k1 : Keeps P 0x100000 (fun _ => False) := K.sub rfl (fun _ h => h.elim)
  have k2 : Keeps P 0x0 State.showSpares_offs := K.sub rfl (fun _ h => .inr (.inr (h)))
  have r0 := fun n => K.reg (ACR_SPM_STATUS.reg n) (.inl ⟨n, rfl⟩)
  unfold State.marchCore
  repeat' (first
    | with_reducible assumption
    | with_reducible (first | apply State.repairArray_keeps k0 | apply State.setCore_keeps k1 | apply State.showSpares_keeps k2 | apply setFlag_keeps | apply setFld_keeps | apply foldl_keeps | apply foldl_keeps_pair)
    | with_reducible exact r0 _
    | (apply fst_keeps (by assumption))
    | intro _ _ _ _
    | intro _ _ _
    | intro _ _
    | with_reducible (first | apply ite_keeps | apply ite_keeps_pair)
    | dsimp only
    | split
    | with_reducible (first | apply r0))

/-- Registers `execBootMarch` may write. -/
def execBootMarch_offs (o : Nat) : Prop :=
  State.marchCore_offs o

theorem execBootMarch_keeps {P : State → Prop} (K : Keeps P 0x80100004 execBootMarch_offs) {s : State} (reads : List MarchRead) (hs : P s) :
    ∃ t, (execBootMarch reads s) = .next t ∧ P t := by
  have k0 : Keeps P 0x80100000 State.marchCore_offs := K.sub rfl (fun _ h => h)
  have t2 : ∀ (s : State) v, (v.dev = s.ctl.dev ∨ ¬ s.ctl.dev = .safe) → P s → P (s.putCtl v) := K.upd 2 rfl
  refine ⟨_, rfl, ?_⟩
  repeat' (first
    | with_reducible assumption
    | with_reducible (first | apply State.marchCore_keeps k0 | apply foldl_keeps | apply foldl_keeps_pair | apply t2)
    | with_reducible exact Or.inl rfl
    | exact Or.inr (by assumption)
    | intro _ _ _ _
    | intro _ _ _
    | intro _ _
    | with_reducible (first | apply ite_keeps | apply ite_keeps_pair)
    | dsimp only
    | split)

/-- Registers `State.writeMarchCtrl` may write. -/
def State.writeMarchCtrl_offs (o : Nat) : Prop :=
  o = ACR_MARCH_CTRL.reg ∨ o = ACR_MARCH_STATUS.reg ∨ (∃ n, o = ACR_SPM_STATUS.reg n) ∨ State.storeWord_offs o

theorem State.writeMarchCtrl_keeps {P : State → Prop} (K : Keeps P 0x400000 State.writeMarchCtrl_offs) {s : State} (w : Word) (hs : P s) :
    P (State.writeMarchCtrl s w) := by
  have k0 : Keeps P 0x0 State.storeWord_offs := K.sub rfl (fun _ h => .inr (.inr (.inr (h))))
  have r0 := K.reg (ACR_MARCH_CTRL.reg) (.inl rfl)
  have r1 := K.reg (ACR_MARCH_STATUS.reg) (.inr (.inl rfl))
  have r2 := fun n => K.reg (ACR_SPM_STATUS.reg n) (.inr (.inr (.inl ⟨n, rfl⟩)))
  have t22 : ∀ (s : State) v, P s → P (s.putMarchMode v) := K.upd 22 rfl
  unfold State.writeMarchCtrl
  repeat' (first
    | with_reducible assumption
    | with_reducible (first | apply State.storeWord_keeps k0 | apply setFlag_keeps | apply setNat_keeps | apply foldl_keeps | apply foldl_keeps_pair | apply t22)
    | with_reducible exact r0
    | with_reducible exact r1
    | with_reducible exact r2 _
    | intro _ _ _ _
    | intro _ _ _
    | intro _ _
    | with_reducible (first | apply ite_keeps | apply ite_keeps_pair)
    | dsimp only
    | split
    | with_reducible (first | apply r0 | apply r1 | apply r2))

/-- Registers `execMarchStart` may write. -/
def execMarchStart_offs (o : Nat) : Prop :=
  State.writeMarchCtrl_offs o

theorem execMarchStart_keeps {P : State → Prop} (K : Keeps P 0x400000 execMarchStart_offs) {s : State} (w : Word) (hs : P s) :
    ∃ t, (execMarchStart w s) = .next t ∧ P t := by
  have k0 : Keeps P 0x400000 State.writeMarchCtrl_offs := K.sub rfl (fun _ h => h)
  refine ⟨_, rfl, ?_⟩
  repeat' (first
    | with_reducible assumption
    | with_reducible (first | apply State.writeMarchCtrl_keeps k0)
    | intro _ _ _ _
    | intro _ _ _
    | intro _ _
    | with_reducible (first | apply ite_keeps | apply ite_keeps_pair)
    | dsimp only
    | split)

/-- Registers `execMarchComplete` may write. -/
def execMarchComplete_offs (o : Nat) : Prop :=
  o = ACR_MARCH_STATUS.reg ∨ State.marchCore_offs o ∨ State.raiseEvent_offs o

theorem execMarchComplete_keeps {P : State → Prop} (K : Keeps P 0x4c0100010 execMarchComplete_offs) {s : State} (reads : List MarchRead) (hs : P s) :
    ∃ t, (execMarchComplete reads s) = .next t ∧ P t := by
  have k0 : Keeps P 0x80100000 State.marchCore_offs := K.sub rfl (fun _ h => .inr (.inl h))
  have k1 : Keeps P 0x440000010 State.raiseEvent_offs := K.sub rfl (fun _ h => .inr (.inr (h)))
  have r0 := K.reg (ACR_MARCH_STATUS.reg) (.inl rfl)
  refine ⟨_, rfl, ?_⟩
  repeat' (first
    | with_reducible assumption
    | with_reducible (first | apply State.marchCore_keeps k0 | apply State.raiseEvent_keeps k1 | apply setFlag_keeps | apply foldl_keeps | apply foldl_keeps_pair)
    | with_reducible exact r0
    | intro _ _ _ _
    | intro _ _ _
    | intro _ _
    | with_reducible (first | apply ite_keeps | apply ite_keeps_pair)
    | dsimp only
    | split
    | with_reducible (first | apply r0))

/-- Registers `State.showFused` may write. -/
def State.showFused_offs (o : Nat) : Prop :=
  (∃ n k, o = ACR_SPM_REPAIR.reg n k)

theorem State.showFused_keeps {P : State → Prop} (K : Keeps P 0x0 State.showFused_offs) {s : State} (k : Nat) (a : Nat) (hs : P s) :
    P (State.showFused s k a) := by
  have r0 := fun n k => K.reg (ACR_SPM_REPAIR.reg n k) (⟨n, k, rfl⟩)
  unfold State.showFused
  repeat' (first
    | with_reducible assumption
    | with_reducible (first | apply setFld_keeps)
    | with_reducible exact r0 _ _
    | intro _ _ _ _
    | intro _ _ _
    | intro _ _
    | with_reducible (first | apply ite_keeps | apply ite_keeps_pair)
    | dsimp only
    | split
    | with_reducible (first | apply r0))

/-- Registers `State.burnOne` may write. -/
def State.burnOne_offs (o : Nat) : Prop :=
  State.setSpare_offs o ∨ State.showFused_offs o

theorem State.burnOne_keeps {P : State → Prop} (K : Keeps P 0x200000 State.burnOne_offs) {s : State} (k : Nat) (p : Nat × Nat) (hs : P s) :
    P (State.burnOne s k p) := by
  have k0 : Keeps P 0x0 State.setSpare_offs := K.sub rfl (fun _ h => .inl h)
  have k1 : Keeps P 0x0 State.showFused_offs := K.sub rfl (fun _ h => .inr (h))
  have t21 : ∀ (s : State) v, P s → P (s.putFuses v) := K.upd 21 rfl
  unfold State.burnOne
  repeat' (first
    | with_reducible assumption
    | with_reducible (first | apply State.setSpare_keeps k0 | apply State.showFused_keeps k1 | apply t21)
    | intro _ _ _ _
    | intro _ _ _
    | intro _ _
    | with_reducible (first | apply ite_keeps | apply ite_keeps_pair)
    | dsimp only
    | split)

/-- Registers `State.loadFuse` may write. -/
def State.loadFuse_offs (o : Nat) : Prop :=
  State.setSpare_offs o ∨ State.showFused_offs o

theorem State.loadFuse_keeps {P : State → Prop} (K : Keeps P 0x100000 State.loadFuse_offs) {s : State} (f : Fuse) (hs : P s) :
    P (State.loadFuse s f) := by
  have k0 : Keeps P 0x100000 (fun _ => False) := K.sub rfl (fun _ h => h.elim)
  have k1 : Keeps P 0x0 State.setSpare_offs := K.sub rfl (fun _ h => .inl h)
  have k2 : Keeps P 0x0 State.showFused_offs := K.sub rfl (fun _ h => .inr (h))
  unfold State.loadFuse
  repeat' (first
    | with_reducible assumption
    | with_reducible (first | apply State.setCore_keeps k0 | apply State.setSpare_keeps k1 | apply State.showFused_keeps k2)
    | intro _ _ _ _
    | intro _ _ _
    | intro _ _
    | with_reducible (first | apply ite_keeps | apply ite_keeps_pair)
    | dsimp only
    | split)

/-- Registers `State.loadFuses` may write. -/
def State.loadFuses_offs (o : Nat) : Prop :=
  State.loadFuse_offs o ∨ State.showSpares_offs o

theorem State.loadFuses_keeps {P : State → Prop} (K : Keeps P 0x100000 State.loadFuses_offs) {s : State} (hs : P s) :
    P (State.loadFuses s) := by
  have k0 : Keeps P 0x100000 State.loadFuse_offs := K.sub rfl (fun _ h => .inl h)
  have k1 : Keeps P 0x0 State.showSpares_offs := K.sub rfl (fun _ h => .inr (h))
  unfold State.loadFuses
  repeat' (first
    | with_reducible assumption
    | with_reducible (first | apply State.loadFuse_keeps k0 | apply State.showSpares_keeps k1 | apply foldl_keeps | apply foldl_keeps_pair)
    | intro _ _ _ _
    | intro _ _ _
    | intro _ _
    | with_reducible (first | apply ite_keeps | apply ite_keeps_pair)
    | dsimp only
    | split)

/-- Registers `State.endBurn` may write. -/
def State.endBurn_offs (o : Nat) : Prop :=
  o = ACR_FUSE_STATUS.reg ∨ State.burnOne_offs o ∨ State.showSpares_offs o

theorem State.endBurn_keeps {P : State → Prop} (K : Keeps P 0xa00000 State.endBurn_offs) {s : State} (k : Nat) (n : Nat) (fail : Bool) (hs : P s) :
    P (State.endBurn s k n fail) := by
  have k0 : Keeps P 0x200000 State.burnOne_offs := K.sub rfl (fun _ h => .inr (.inl h))
  have k1 : Keeps P 0x0 State.showSpares_offs := K.sub rfl (fun _ h => .inr (.inr (h)))
  have r0 := K.reg (ACR_FUSE_STATUS.reg) (.inl rfl)
  have t23 : ∀ (s : State) v, P s → P (s.putBurn v) := K.upd 23 rfl
  unfold State.endBurn
  repeat' (first
    | with_reducible assumption
    | with_reducible (first | apply State.burnOne_keeps k0 | apply State.showSpares_keeps k1 | apply setNat_keeps | apply foldl_keeps | apply foldl_keeps_pair | apply t23)
    | with_reducible exact r0
    | intro _ _ _ _
    | intro _ _ _
    | intro _ _
    | with_reducible (first | apply ite_keeps | apply ite_keeps_pair)
    | dsimp only
    | split
    | with_reducible (first | apply r0))

/-- Registers `State.writeFuseCtrl` may write. -/
def State.writeFuseCtrl_offs (o : Nat) : Prop :=
  o = ACR_FUSE_STATUS.reg

theorem State.writeFuseCtrl_keeps {P : State → Prop} (K : Keeps P 0x800000 State.writeFuseCtrl_offs) {s : State} (w : Word) (hs : P s) :
    P (State.writeFuseCtrl s w) := by
  have r0 := K.reg (ACR_FUSE_STATUS.reg) (rfl)
  have t23 : ∀ (s : State) v, P s → P (s.putBurn v) := K.upd 23 rfl
  unfold State.writeFuseCtrl
  repeat' (first
    | with_reducible assumption
    | with_reducible (first | apply setNat_keeps | apply t23)
    | with_reducible exact r0
    | intro _ _ _ _
    | intro _ _ _
    | intro _ _
    | with_reducible (first | apply ite_keeps | apply ite_keeps_pair)
    | dsimp only
    | split
    | with_reducible (first | apply r0))

/-- Registers `execFuseBurn` may write. -/
def execFuseBurn_offs (o : Nat) : Prop :=
  State.writeFuseCtrl_offs o

theorem execFuseBurn_keeps {P : State → Prop} (K : Keeps P 0x800000 execFuseBurn_offs) {s : State} (w : Word) (hs : P s) :
    ∃ t, (execFuseBurn w s) = .next t ∧ P t := by
  have k0 : Keeps P 0x800000 State.writeFuseCtrl_offs := K.sub rfl (fun _ h => h)
  refine ⟨_, rfl, ?_⟩
  repeat' (first
    | with_reducible assumption
    | with_reducible (first | apply State.writeFuseCtrl_keeps k0)
    | intro _ _ _ _
    | intro _ _ _
    | intro _ _
    | with_reducible (first | apply ite_keeps | apply ite_keeps_pair)
    | dsimp only
    | split)

/-- Registers `execFuseBurnComplete` may write. -/
def execFuseBurnComplete_offs (o : Nat) : Prop :=
  State.endBurn_offs o ∨ State.raiseEvent_offs o

theorem execFuseBurnComplete_keeps {P : State → Prop} (K : Keeps P 0x440a00010 execFuseBurnComplete_offs) {s : State} (hs : P s) :
    ∃ t, (execFuseBurnComplete s) = .next t ∧ P t := by
  have k0 : Keeps P 0xa00000 State.endBurn_offs := K.sub rfl (fun _ h => .inl h)
  have k1 : Keeps P 0x440000010 State.raiseEvent_offs := K.sub rfl (fun _ h => .inr (h))
  refine ⟨_, rfl, ?_⟩
  repeat' (first
    | with_reducible assumption
    | with_reducible (first | apply State.endBurn_keeps k0 | apply State.raiseEvent_keeps k1)
    | intro _ _ _ _
    | intro _ _ _
    | intro _ _
    | with_reducible (first | apply ite_keeps | apply ite_keeps_pair)
    | dsimp only
    | split)

theorem State.zeroSpads_keeps {P : State → Prop} (K : Keeps P 0x100000 (fun _ => False)) {s : State} (hs : P s) :
    P (State.zeroSpads s) := by
  have k0 : Keeps P 0x100000 (fun _ => False) := K.sub rfl (fun _ h => h.elim)
  unfold State.zeroSpads
  repeat' (first
    | with_reducible assumption
    | with_reducible (first | apply State.setCore_keeps k0 | apply foldl_keeps | apply foldl_keeps_pair)
    | intro _ _ _ _
    | intro _ _ _
    | intro _ _
    | with_reducible (first | apply ite_keeps | apply ite_keeps_pair)
    | dsimp only
    | split)

/-- Registers `State.abandonBurn` may write. -/
def State.abandonBurn_offs (o : Nat) : Prop :=
  State.endBurn_offs o

theorem State.abandonBurn_keeps {P : State → Prop} (K : Keeps P 0xa00000 State.abandonBurn_offs) {s : State} (n : Nat) (hs : P s) :
    P (State.abandonBurn s n) := by
  have k0 : Keeps P 0xa00000 State.endBurn_offs := K.sub rfl (fun _ h => h)
  unfold State.abandonBurn
  repeat' (first
    | with_reducible assumption
    | with_reducible (first | apply State.endBurn_keeps k0)
    | intro _ _ _ _
    | intro _ _ _
    | intro _ _
    | with_reducible (first | apply ite_keeps | apply ite_keeps_pair)
    | dsimp only
    | split)

/-- Registers `State.hostMem` may write. -/
def State.hostMem_offs (o : Nat) : Prop :=
  (∃ n, o = ACR_HOST_REJECT_COUNT.reg n) ∨ State.spmCheck_offs o

theorem State.hostMem_keeps {P : State → Prop} (K : Keeps P 0x4d010c7f4 State.hostMem_offs) {s : State} (off : Nat) (write : Option Word) (ups : Upsets) (hs : P s) :
    P (State.hostMem s off write ups) := by
  have k0 : Keeps P 0x100000 (fun _ => False) := K.sub rfl (fun _ h => h.elim)
  have k1 : Keeps P 0x4c010c7f4 State.spmCheck_offs := K.sub rfl (fun _ h => .inr (h))
  have k2 : Keeps P 0x100000 (fun _ => False) := K.sub rfl (fun _ h => h.elim)
  have r0 := fun n => K.reg (ACR_HOST_REJECT_COUNT.reg n) (.inl ⟨n, rfl⟩)
  have t28 : ∀ (s : State) v, P s → P (s.putRdData v) := K.upd 28 rfl
  unfold State.hostMem
  repeat' (first
    | with_reducible assumption
    | with_reducible (first | apply State.setCore_keeps k0 | apply State.spmCheck_keeps k1 | apply State.upset_keeps k2 | apply bump_keeps | apply t28)
    | with_reducible exact r0 _
    | (apply fst_keeps (by assumption))
    | intro _ _ _ _
    | intro _ _ _
    | intro _ _
    | with_reducible (first | apply ite_keeps | apply ite_keeps_pair)
    | dsimp only
    | split
    | with_reducible (first | apply r0))

/-- Registers `execHostMemAccess` may write. -/
def execHostMemAccess_offs (o : Nat) : Prop :=
  State.hostMem_offs o

theorem execHostMemAccess_keeps {P : State → Prop} (K : Keeps P 0x4d010c7f4 execHostMemAccess_offs) {s : State} (off : Nat) (write : Option Word) (ups : Upsets) (hs : P s) :
    ∃ t, (execHostMemAccess off write ups s) = .next t ∧ P t := by
  have k0 : Keeps P 0x4d010c7f4 State.hostMem_offs := K.sub rfl (fun _ h => h)
  refine ⟨_, rfl, ?_⟩
  repeat' (first
    | with_reducible assumption
    | with_reducible (first | apply State.hostMem_keeps k0)
    | intro _ _ _ _
    | intro _ _ _
    | intro _ _
    | with_reducible (first | apply ite_keeps | apply ite_keeps_pair)
    | dsimp only
    | split)

/-- Registers `execFeedSlotReady` may write. -/
def execFeedSlotReady_offs (o : Nat) : Prop :=
  (∃ n, o = ACR_FEED_COUNT.reg n) ∨ State.wake_offs o

theorem execFeedSlotReady_keeps {P : State → Prop} (K : Keeps P 0x4c0100014 execFeedSlotReady_offs) {s : State} (k : Fin 16) (hs : P s) :
    ∃ t, (execFeedSlotReady k s) = .next t ∧ P t := by
  have k0 : Keeps P 0x100000 (fun _ => False) := K.sub rfl (fun _ h => h.elim)
  have k1 : Keeps P 0x4c0100014 State.wake_offs := K.sub rfl (fun _ h => .inr (h))
  have r0 := fun n => K.reg (ACR_FEED_COUNT.reg n) (.inl ⟨n, rfl⟩)
  refine ⟨_, rfl, ?_⟩
  repeat' (first
    | with_reducible assumption
    | with_reducible (first | apply State.setCore_keeps k0 | apply State.wake_keeps k1 | apply bump_keeps)
    | with_reducible exact r0 _
    | intro _ _ _ _
    | intro _ _ _
    | intro _ _
    | with_reducible (first | apply ite_keeps | apply ite_keeps_pair)
    | dsimp only
    | split
    | with_reducible (first | apply r0))

/-- Registers `execCoreOutBlock` may write. -/
def execCoreOutBlock_offs (o : Nat) : Prop :=
  State.loseBlock_offs o ∨ State.sendBlock_offs o ∨ State.spmCheck_offs o ∨ State.wake_offs o

theorem execCoreOutBlock_keeps {P : State → Prop} (K : Keeps P 0x4c010c7f4 execCoreOutBlock_offs) {s : State} (k : Fin 16) (ups : Upsets) (hs : P s) :
    ∃ t, (execCoreOutBlock k ups s) = .next t ∧ P t := by
  have k0 : Keeps P 0x40000010 State.loseBlock_offs := K.sub rfl (fun _ h => .inl h)
  have k1 : Keeps P 0x40000010 State.sendBlock_offs := K.sub rfl (fun _ h => .inr (.inl h))
  have k2 : Keeps P 0x100000 (fun _ => False) := K.sub rfl (fun _ h => h.elim)
  have k3 : Keeps P 0x4c010c7f4 State.spmCheck_offs := K.sub rfl (fun _ h => .inr (.inr (.inl h)))
  have k4 : Keeps P 0x100000 (fun _ => False) := K.sub rfl (fun _ h => h.elim)
  have k5 : Keeps P 0x4c0100014 State.wake_offs := K.sub rfl (fun _ h => .inr (.inr (.inr (h))))
  refine ⟨_, rfl, ?_⟩
  repeat' (first
    | with_reducible assumption
    | with_reducible (first | apply State.loseBlock_keeps k0 | apply State.sendBlock_keeps k1 | apply State.setCore_keeps k2 | apply State.spmCheck_keeps k3 | apply State.upset_keeps k4 | apply State.wake_keeps k5)
    | (apply fst_keeps (by assumption))
    | intro _ _ _ _
    | intro _ _ _
    | intro _ _
    | with_reducible (first | apply ite_keeps | apply ite_keeps_pair)
    | dsimp only
    | split)

/-- Registers `execCoreDmaComplete` may write. -/
def execCoreDmaComplete_offs (o : Nat) : Prop :=
  (∃ n, o = DMC_CLIENT_OVERRUN_COUNT.reg n) ∨ State.dramRead_offs o ∨ State.failXfers_offs o ∨
    State.spmCheck_offs o ∨ State.wake_offs o

theorem execCoreDmaComplete_keeps {P : State → Prop} (K : Keeps P 0x4f310e7f4 execCoreDmaComplete_offs) {s : State} (k : Fin 16) (ups : Upsets) (dups : DramUpsets) (late : Bool) (hs : P s) :
    ∃ t, (execCoreDmaComplete k ups dups late s) = .next t ∧ P t := by
  have k0 : Keeps P 0x4f210e7f4 State.dramRead_offs := K.sub rfl (fun _ h => .inr (.inl h))
  have k1 : Keeps P 0x2000000 (fun _ => False) := K.sub rfl (fun _ h => h.elim)
  have k2 : Keeps P 0x4c0100014 State.failXfers_offs := K.sub rfl (fun _ h => .inr (.inr (.inl h)))
  have k3 : Keeps P 0x100000 (fun _ => False) := K.sub rfl (fun _ h => h.elim)
  have k4 : Keeps P 0x3000000 (fun _ => False) := K.sub rfl (fun _ h => h.elim)
  have k5 : Keeps P 0x4c010c7f4 State.spmCheck_offs := K.sub rfl (fun _ h => .inr (.inr (.inr (.inl h))))
  have k6 : Keeps P 0x100000 (fun _ => False) := K.sub rfl (fun _ h => h.elim)
  have k7 : Keeps P 0x4c0100014 State.wake_offs := K.sub rfl (fun _ h => .inr (.inr (.inr (.inr (h)))))
  have r0 := fun n => K.reg (DMC_CLIENT_OVERRUN_COUNT.reg n) (.inl ⟨n, rfl⟩)
  refine ⟨_, rfl, ?_⟩
  repeat' (first
    | with_reducible assumption
    | with_reducible (first | apply State.dramRead_keeps k0 | apply State.dramUpset_keeps k1 | apply State.failXfers_keeps k2 | apply State.setCore_keeps k3 | apply State.setDram_keeps k4 | apply State.spmCheck_keeps k5 | apply State.upset_keeps k6 | apply State.wake_keeps k7 | apply bump_keeps)
    | with_reducible exact r0 _
    | (apply fst_keeps (by assumption))
    | intro _ _ _ _
    | intro _ _ _
    | intro _ _
    | with_reducible (first | apply ite_keeps | apply ite_keeps_pair)
    | dsimp only
    | split
    | with_reducible (first | apply r0))

/-- Registers `execCoreDmaAbandon` may write. -/
def execCoreDmaAbandon_offs (o : Nat) : Prop :=
  State.failXfers_offs o

theorem execCoreDmaAbandon_keeps {P : State → Prop} (K : Keeps P 0x4c0100014 execCoreDmaAbandon_offs) {s : State} (k : Fin 16) (hs : P s) :
    ∃ t, (execCoreDmaAbandon k s) = .next t ∧ P t := by
  have k0 : Keeps P 0x4c0100014 State.failXfers_offs := K.sub rfl (fun _ h => h)
  refine ⟨_, rfl, ?_⟩
  repeat' (first
    | with_reducible assumption
    | with_reducible (first | apply State.failXfers_keeps k0)
    | intro _ _ _ _
    | intro _ _ _
    | intro _ _
    | with_reducible (first | apply ite_keeps | apply ite_keeps_pair)
    | dsimp only
    | split)

theorem execCoreStopComplete_keeps {P : State → Prop} (K : Keeps P 0x100000 (fun _ => False)) {s : State} (k : Fin 16) (hs : P s) :
    ∃ t, (execCoreStopComplete k s) = .next t ∧ P t := by
  have k0 : Keeps P 0x100000 (fun _ => False) := K.sub rfl (fun _ h => h.elim)
  refine ⟨_, rfl, ?_⟩
  repeat' (first
    | with_reducible assumption
    | with_reducible (first | apply State.finishStop_keeps k0)
    | intro _ _ _ _
    | intro _ _ _
    | intro _ _
    | with_reducible (first | apply ite_keeps | apply ite_keeps_pair)
    | dsimp only
    | split)

/-- Registers `execCoreWatchdog` may write. -/
def execCoreWatchdog_offs (o : Nat) : Prop :=
  State.coreFault_offs o

theorem execCoreWatchdog_keeps {P : State → Prop} (K : Keeps P 0x440100014 execCoreWatchdog_offs) {s : State} (k : Fin 16) (hs : P s) :
    ∃ t, (execCoreWatchdog k s) = .next t ∧ P t := by
  have k0 : Keeps P 0x440100014 State.coreFault_offs := K.sub rfl (fun _ h => h)
  refine ⟨_, rfl, ?_⟩
  repeat' (first
    | with_reducible assumption
    | with_reducible (first | apply State.coreFault_keeps k0)
    | intro _ _ _ _
    | intro _ _ _
    | intro _ _
    | with_reducible (first | apply ite_keeps | apply ite_keeps_pair)
    | dsimp only
    | split)

/-- Registers `execAcDmaStarve` may write. -/
def execAcDmaStarve_offs (o : Nat) : Prop :=
  (∃ n, o = ACR_STARVE_COUNT.reg n) ∨ (∃ n, o = ACR_STARVE_MAX.reg n) ∨ State.raiseEvent_offs o

theorem execAcDmaStarve_keeps {P : State → Prop} (K : Keeps P 0x440000010 execAcDmaStarve_offs) {s : State} (k : Fin 16) (run : Nat) (hs : P s) :
    ∃ t, (execAcDmaStarve k run s) = .next t ∧ P t := by
  have k0 : Keeps P 0x440000010 State.raiseEvent_offs := K.sub rfl (fun _ h => .inr (.inr (h)))
  have r0 := fun n => K.reg (ACR_STARVE_COUNT.reg n) (.inl ⟨n, rfl⟩)
  have r1 := fun n => K.reg (ACR_STARVE_MAX.reg n) (.inr (.inl ⟨n, rfl⟩))
  refine ⟨_, rfl, ?_⟩
  repeat' (first
    | with_reducible assumption
    | with_reducible (first | apply State.raiseEvent_keeps k0 | apply bump_keeps | apply setNat_keeps)
    | with_reducible exact r0 _
    | with_reducible exact r1 _
    | intro _ _ _ _
    | intro _ _ _
    | intro _ _
    | with_reducible (first | apply ite_keeps | apply ite_keeps_pair)
    | dsimp only
    | split
    | with_reducible (first | apply r0 | apply r1))

end Sys2Proof.Machine
end

