-- ==== Sys2Proof/Laws/KSupply.lean ====
section
/-!
SUPPORT. What the operations of Sys2Proof.Machine.Supply keep, and the registers they may write.
-/
namespace Sys2Proof.Machine

/-- Registers `State.resetBy` may write. -/
def State.resetBy_offs (o : Nat) : Prop :=
  o = GLB_RESET_CAUSE.reg

theorem State.resetBy_keeps {P : State → Prop} (K : Keeps P 0x200000002 State.resetBy_offs) {s : State} (cause : Nat) (detail : Nat) (hs : P s) :
    P (State.resetBy s cause detail) := by
  have r0 := K.reg (GLB_RESET_CAUSE.reg) (rfl)
  have t1 : ∀ (s : State) v, P s → P (s.putSupply v) := K.upd 1 rfl
  have tr : ∀ (s : State), P s → P s.deviceReset := K.upd 33 rfl
  unfold State.resetBy
  repeat' (first
    | with_reducible assumption
    | with_reducible (first | apply setNat_keeps | apply t1 | apply tr)
    | with_reducible exact r0
    | intro _ _ _ _
    | intro _ _ _
    | intro _ _
    | with_reducible (first | apply ite_keeps | apply ite_keeps_pair)
    | dsimp only
    | split
    | with_reducible (first | apply r0))

/-- Registers `execPowerOn` may write. -/
def execPowerOn_offs (o : Nat) : Prop :=
  o = ACR_MARCH_BOOT.reg ∨ o = GLB_RESET_CAUSE.reg ∨ o = TMB_GRID_LO.reg ∨ o = TMB_GRID_LO.reg + 4

theorem execPowerOn_keeps {P : State → Prop} (K : Keeps P 0x200000023 execPowerOn_offs) {s : State} (hs : P s) :
    ∃ t, (execPowerOn s) = .next t ∧ P t := by
  have r0 := K.reg (ACR_MARCH_BOOT.reg) (.inl rfl)
  have r1 := K.reg (GLB_RESET_CAUSE.reg) (.inr (.inl rfl))
  have r2 := K.reg (TMB_GRID_LO.reg) (.inr (.inr (.inl rfl)))
  have r3 := K.reg (TMB_GRID_LO.reg + 4) (.inr (.inr (.inr (rfl))))
  have t0 : ∀ (s : State) v, P s → P (s.putTime v) := K.upd 0 rfl
  have t1 : ∀ (s : State) v, P s → P (s.putSupply v) := K.upd 1 rfl
  have t5 : ∀ (s : State) v, (Memory.wf 0 s.evr.mem = true → Memory.wf 0 v.mem = true) → P s → P (s.putEvr v) := K.upd 5 rfl
  have tr : ∀ (s : State), P s → P s.deviceReset := K.upd 33 rfl
  refine ⟨_, rfl, ?_⟩
  repeat' (first
    | with_reducible assumption
    | with_reducible (first | apply setFlag_keeps | apply setNat_keeps | apply setReg64_keeps | apply t0 | apply t1 | apply t5 | apply tr)
    | with_reducible exact r0
    | with_reducible exact r1
    | with_reducible exact r2
    | with_reducible exact r3
    | with_reducible_and_instances (first | exact fun h => h | exact fun h => Memory.setBytes_wf _ _ h | exact fun h => SMap.put_wf _ _ h | exact fun h => Memory.clearRange_wf _ _ h | exact fun _ => rfl | exact fun h => Memory.setByte_wf _ _ h | exact fun h => Memory.setBytes_wf _ _ (Memory.setBytes_wf _ _ h) | exact fun h => Memory.clearRange_wf _ _ (Memory.clearRange_wf _ _ h) | exact fun h => SMap.filter_wf _ h)
    | exact fun h => SMap.put_wf _ _ h
    | exact fun _ => SMap.nil_wf
    | exact fun h => by rw [deviceReset_evr]; exact h
    | exact fun h => by rw [deviceReset_evr] at h; exact h
    | intro _ _ _ _
    | intro _ _ _
    | intro _ _
    | with_reducible (first | apply ite_keeps | apply ite_keeps_pair)
    | dsimp only
    | split
    | with_reducible (first | apply r0 | apply r1 | apply r2 | apply r3))

theorem execVauxLoss_keeps {P : State → Prop} (K : Keeps P 0x200000022 (fun _ => False)) {s : State} (hs : P s) :
    ∃ t, (execVauxLoss s) = .next t ∧ P t := by
  have t1 : ∀ (s : State) v, P s → P (s.putSupply v) := K.upd 1 rfl
  have t5 : ∀ (s : State) v, (Memory.wf 0 s.evr.mem = true → Memory.wf 0 v.mem = true) → P s → P (s.putEvr v) := K.upd 5 rfl
  have tr : ∀ (s : State), P s → P s.deviceReset := K.upd 33 rfl
  refine ⟨_, rfl, ?_⟩
  repeat' (first
    | with_reducible assumption
    | with_reducible (first | apply t1 | apply t5 | apply tr)
    | with_reducible_and_instances (first | exact fun h => h | exact fun h => Memory.setBytes_wf _ _ h | exact fun h => SMap.put_wf _ _ h | exact fun h => Memory.clearRange_wf _ _ h | exact fun _ => rfl | exact fun h => Memory.setByte_wf _ _ h | exact fun h => Memory.setBytes_wf _ _ (Memory.setBytes_wf _ _ h) | exact fun h => Memory.clearRange_wf _ _ (Memory.clearRange_wf _ _ h) | exact fun h => SMap.filter_wf _ h)
    | exact fun h => SMap.put_wf _ _ h
    | exact fun _ => SMap.nil_wf
    | exact fun h => by rw [deviceReset_evr]; exact h
    | exact fun h => by rw [deviceReset_evr] at h; exact h
    | intro _ _ _ _
    | intro _ _ _
    | intro _ _
    | with_reducible (first | apply ite_keeps | apply ite_keeps_pair)
    | dsimp only
    | split)

theorem execResetRelease_keeps {P : State → Prop} (K : Keeps P 0x2 (fun _ => False)) {s : State} (hs : P s) :
    ∃ t, (execResetRelease s) = .next t ∧ P t := by
  have t1 : ∀ (s : State) v, P s → P (s.putSupply v) := K.upd 1 rfl
  refine ⟨_, rfl, ?_⟩
  repeat' (first
    | with_reducible assumption
    | with_reducible (first | apply t1)
    | intro _ _ _ _
    | intro _ _ _
    | intro _ _
    | with_reducible (first | apply ite_keeps | apply ite_keeps_pair)
    | dsimp only
    | split)

/-- Registers `execVinUv` may write. -/
def execVinUv_offs (o : Nat) : Prop :=
  State.resetBy_offs o

theorem execVinUv_keeps {P : State → Prop} (K : Keeps P 0x200000002 execVinUv_offs) {s : State} (hs : P s) :
    ∃ t, (execVinUv s) = .next t ∧ P t := by
  have k0 : Keeps P 0x200000002 State.resetBy_offs := K.sub rfl (fun _ h => h)
  refine ⟨_, rfl, ?_⟩
  repeat' (first
    | with_reducible assumption
    | with_reducible (first | apply State.resetBy_keeps k0)
    | intro _ _ _ _
    | intro _ _ _
    | intro _ _
    | with_reducible (first | apply ite_keeps | apply ite_keeps_pair)
    | dsimp only
    | split)

/-- Registers `execVinOv` may write. -/
def execVinOv_offs (o : Nat) : Prop :=
  State.resetBy_offs o

theorem execVinOv_keeps {P : State → Prop} (K : Keeps P 0x200000002 execVinOv_offs) {s : State} (hs : P s) :
    ∃ t, (execVinOv s) = .next t ∧ P t := by
  have k0 : Keeps P 0x200000002 State.resetBy_offs := K.sub rfl (fun _ h => h)
  refine ⟨_, rfl, ?_⟩
  repeat' (first
    | with_reducible assumption
    | with_reducible (first | apply State.resetBy_keeps k0)
    | intro _ _ _ _
    | intro _ _ _
    | intro _ _
    | with_reducible (first | apply ite_keeps | apply ite_keeps_pair)
    | dsimp only
    | split)

/-- Registers `execRailFault` may write. -/
def execRailFault_offs (o : Nat) : Prop :=
  State.resetBy_offs o

theorem execRailFault_keeps {P : State → Prop} (K : Keeps P 0x200000002 execRailFault_offs) {s : State} (rail : Fin 256) (die : Fin 8) (ov : Bool) (hs : P s) :
    ∃ t, (execRailFault rail die ov s) = .next t ∧ P t := by
  have k0 : Keeps P 0x200000002 State.resetBy_offs := K.sub rfl (fun _ h => h)
  refine ⟨_, rfl, ?_⟩
  repeat' (first
    | with_reducible assumption
    | with_reducible (first | apply State.resetBy_keeps k0)
    | intro _ _ _ _
    | intro _ _ _
    | intro _ _
    | with_reducible (first | apply ite_keeps | apply ite_keeps_pair)
    | dsimp only
    | split)

/-- Registers `execThermalShutdown` may write. -/
def execThermalShutdown_offs (o : Nat) : Prop :=
  State.resetBy_offs o

theorem execThermalShutdown_keeps {P : State → Prop} (K : Keeps P 0x200000002 execThermalShutdown_offs) {s : State} (die : Fin 8) (hs : P s) :
    ∃ t, (execThermalShutdown die s) = .next t ∧ P t := by
  have k0 : Keeps P 0x200000002 State.resetBy_offs := K.sub rfl (fun _ h => h)
  refine ⟨_, rfl, ?_⟩
  repeat' (first
    | with_reducible assumption
    | with_reducible (first | apply State.resetBy_keeps k0)
    | intro _ _ _ _
    | intro _ _ _
    | intro _ _
    | with_reducible (first | apply ite_keeps | apply ite_keeps_pair)
    | dsimp only
    | split)

/-- Registers `execPerstN` may write. -/
def execPerstN_offs (o : Nat) : Prop :=
  State.resetBy_offs o

theorem execPerstN_keeps {P : State → Prop} (K : Keeps P 0x200000002 execPerstN_offs) {s : State} (hs : P s) :
    ∃ t, (execPerstN s) = .next t ∧ P t := by
  have k0 : Keeps P 0x200000002 State.resetBy_offs := K.sub rfl (fun _ h => h)
  refine ⟨_, rfl, ?_⟩
  repeat' (first
    | with_reducible assumption
    | with_reducible (first | apply State.resetBy_keeps k0)
    | intro _ _ _ _
    | intro _ _ _
    | intro _ _
    | with_reducible (first | apply ite_keeps | apply ite_keeps_pair)
    | dsimp only
    | split)

/-- Registers `execVinWarning` may write. -/
def execVinWarning_offs (o : Nat) : Prop :=
  o = PWR_STATUS.reg ∨ o = PWR_WARN_COUNT.reg ∨ State.abandonBurn_offs o ∨ State.raiseEvent_offs o ∨
    State.record_offs o

theorem execVinWarning_keeps {P : State → Prop} (K : Keeps P 0x440a000b0 execVinWarning_offs) {s : State} (vin : BitVec 16) (burnt : Nat) (hs : P s) :
    ∃ t, (execVinWarning vin burnt s) = .next t ∧ P t := by
  have k0 : Keeps P 0xa00000 State.abandonBurn_offs := K.sub rfl (fun _ h => .inr (.inr (.inl h)))
  have k1 : Keeps P 0x440000010 State.raiseEvent_offs := K.sub rfl (fun _ h => .inr (.inr (.inr (.inl h))))
  have k2 : Keeps P 0x20 State.record_offs := K.sub rfl (fun _ h => .inr (.inr (.inr (.inr (h)))))
  have k3 : Keeps P 0x80 (fun _ => False) := K.sub rfl (fun _ h => h.elim)
  have r0 := K.reg (PWR_STATUS.reg) (.inl rfl)
  have r1 := K.reg (PWR_WARN_COUNT.reg) (.inr (.inl rfl))
  have t7 : ∀ (s : State) v, P s → P (s.putSrc v) := K.upd 7 rfl
  refine ⟨_, rfl, ?_⟩
  repeat' (first
    | with_reducible assumption
    | with_reducible (first | apply State.abandonBurn_keeps k0 | apply State.raiseEvent_keeps k1 | apply State.record_keeps k2 | apply State.setGate_keeps k3 | apply bump_keeps | apply setFlag_keeps | apply t7)
    | with_reducible exact r0
    | with_reducible exact r1
    | intro _ _ _ _
    | intro _ _ _
    | intro _ _
    | with_reducible (first | apply ite_keeps | apply ite_keeps_pair)
    | dsimp only
    | split
    | with_reducible (first | apply r0 | apply r1))

/-- Registers `execVinWarningClear` may write. -/
def execVinWarningClear_offs (o : Nat) : Prop :=
  o = PWR_STATUS.reg

theorem execVinWarningClear_keeps {P : State → Prop} (K : Keeps P 0x80 execVinWarningClear_offs) {s : State} (hs : P s) :
    ∃ t, (execVinWarningClear s) = .next t ∧ P t := by
  have k0 : Keeps P 0x80 (fun _ => False) := K.sub rfl (fun _ h => h.elim)
  have r0 := K.reg (PWR_STATUS.reg) (rfl)
  have t7 : ∀ (s : State) v, P s → P (s.putSrc v) := K.upd 7 rfl
  refine ⟨_, rfl, ?_⟩
  repeat' (first
    | with_reducible assumption
    | with_reducible (first | apply State.setGate_keeps k0 | apply setFlag_keeps | apply t7)
    | with_reducible exact r0
    | intro _ _ _ _
    | intro _ _ _
    | intro _ _
    | with_reducible (first | apply ite_keeps | apply ite_keeps_pair)
    | dsimp only
    | split
    | with_reducible (first | apply r0))

theorem State.functionReset_keeps {P : State → Prop} (K : Keeps P 0x100000010 (fun _ => False)) {s : State} (hs : P s) :
    P (State.functionReset s) := by
  have t4 : ∀ (s : State) v, P s → P (s.putHif v) := K.upd 4 rfl
  have t32 : ∀ (s : State) v, (SMap.wf resetVal s.regs = true → SMap.wf resetVal v = true) → P s → P (s.putRegs v) := K.upd 32 rfl
  unfold State.functionReset
  repeat' (first
    | with_reducible assumption
    | with_reducible (first | apply t4 | apply t32)
    | with_reducible_and_instances (first | exact fun h => h | exact fun h => Memory.setBytes_wf _ _ h | exact fun h => SMap.put_wf _ _ h | exact fun h => Memory.clearRange_wf _ _ h | exact fun _ => rfl | exact fun h => Memory.setByte_wf _ _ h | exact fun h => Memory.setBytes_wf _ _ (Memory.setBytes_wf _ _ h) | exact fun h => Memory.clearRange_wf _ _ (Memory.clearRange_wf _ _ h) | exact fun h => SMap.filter_wf _ h)
    | exact fun h => SMap.put_wf _ _ h
    | exact fun _ => SMap.nil_wf
    | intro _ _ _ _
    | intro _ _ _
    | intro _ _
    | with_reducible (first | apply ite_keeps | apply ite_keeps_pair)
    | dsimp only
    | split)

theorem execHotReset_keeps {P : State → Prop} (K : Keeps P 0x100000010 (fun _ => False)) {s : State} (hs : P s) :
    ∃ t, (execHotReset s) = .next t ∧ P t := by
  have k0 : Keeps P 0x100000010 (fun _ => False) := K.sub rfl (fun _ h => h.elim)
  refine ⟨_, rfl, ?_⟩
  repeat' (first
    | with_reducible assumption
    | with_reducible (first | apply State.functionReset_keeps k0)
    | intro _ _ _ _
    | intro _ _ _
    | intro _ _
    | with_reducible (first | apply ite_keeps | apply ite_keeps_pair)
    | dsimp only
    | split)

theorem execFunctionLevelReset_keeps {P : State → Prop} (K : Keeps P 0x100000010 (fun _ => False)) {s : State} (hs : P s) :
    ∃ t, (execFunctionLevelReset s) = .next t ∧ P t := by
  have k0 : Keeps P 0x100000010 (fun _ => False) := K.sub rfl (fun _ h => h.elim)
  refine ⟨_, rfl, ?_⟩
  repeat' (first
    | with_reducible assumption
    | with_reducible (first | apply State.functionReset_keeps k0)
    | intro _ _ _ _
    | intro _ _ _
    | intro _ _
    | with_reducible (first | apply ite_keeps | apply ite_keeps_pair)
    | dsimp only
    | split)

theorem execD3hotEntry_keeps {P : State → Prop} (K : Keeps P 0x10 (fun _ => False)) {s : State} (hs : P s) :
    ∃ t, (execD3hotEntry s) = .next t ∧ P t := by
  have t4 : ∀ (s : State) v, P s → P (s.putHif v) := K.upd 4 rfl
  refine ⟨_, rfl, ?_⟩
  repeat' (first
    | with_reducible assumption
    | with_reducible (first | apply t4)
    | intro _ _ _ _
    | intro _ _ _
    | intro _ _
    | with_reducible (first | apply ite_keeps | apply ite_keeps_pair)
    | dsimp only
    | split)

theorem execD0Return_keeps {P : State → Prop} (K : Keeps P 0x40000010 (fun _ => False)) {s : State} (hs : P s) :
    ∃ t, (execD0Return s) = .next t ∧ P t := by
  have k0 : Keeps P 0x40000010 (fun _ => False) := K.sub rfl (fun _ h => h.elim)
  have k1 : Keeps P 0x40000000 (fun _ => False) := K.sub rfl (fun _ h => h.elim)
  have t4 : ∀ (s : State) v, P s → P (s.putHif v) := K.upd 4 rfl
  refine ⟨_, rfl, ?_⟩
  repeat' (first
    | with_reducible assumption
    | with_reducible (first | apply State.sendVec_keeps k0 | apply State.writeShadow_keeps k1 | apply foldl_keeps | apply foldl_keeps_pair | apply t4)
    | intro _ _ _ _
    | intro _ _ _
    | intro _ _
    | with_reducible (first | apply ite_keeps | apply ite_keeps_pair)
    | dsimp only
    | split)

/-- Registers `execPcieLinkChange` may write. -/
def execPcieLinkChange_offs (o : Nat) : Prop :=
  o = HIF_LINK.reg

theorem execPcieLinkChange_keeps {P : State → Prop} (K : Keeps P 0x0 execPcieLinkChange_offs) {s : State} (width : Fin 16) (speed : Fin 16) (hs : P s) :
    ∃ t, (execPcieLinkChange width speed s) = .next t ∧ P t := by
  have r0 := K.reg (HIF_LINK.reg) (rfl)
  refine ⟨_, rfl, ?_⟩
  repeat' (first
    | with_reducible assumption
    | with_reducible (first | apply setFld_keeps)
    | with_reducible exact r0
    | intro _ _ _ _
    | intro _ _ _
    | intro _ _
    | with_reducible (first | apply ite_keeps | apply ite_keeps_pair)
    | dsimp only
    | split
    | with_reducible (first | apply r0))

theorem State.toStep_keeps {P : State → Prop} (K : Keeps P 0x4 (fun _ => False)) {s : State} (n : Nat) (hs : P s) :
    P (State.toStep s n) := by
  have t2 : ∀ (s : State) v, (v.dev = s.ctl.dev ∨ ¬ s.ctl.dev = .safe) → P s → P (s.putCtl v) := K.upd 2 rfl
  unfold State.toStep
  repeat' (first
    | with_reducible assumption
    | with_reducible (first | apply t2)
    | with_reducible exact Or.inl rfl
    | exact Or.inr (by assumption)
    | intro _ _ _ _
    | intro _ _ _
    | intro _ _
    | with_reducible (first | apply ite_keeps | apply ite_keeps_pair)
    | dsimp only
    | split)

/-- Registers `State.bootEnd` may write. -/
def State.bootEnd_offs (o : Nat) : Prop :=
  o = GLB_BOOT_STATUS.reg

theorem State.bootEnd_keeps {P : State → Prop} (K : Keeps P 0x0 State.bootEnd_offs) {s : State} (hs : P s) :
    P (State.bootEnd s) := by
  have r0 := K.reg (GLB_BOOT_STATUS.reg) (rfl)
  unfold State.bootEnd
  repeat' (first
    | with_reducible assumption
    | with_reducible (first | apply setFld_keeps)
    | with_reducible exact r0
    | intro _ _ _ _
    | intro _ _ _
    | intro _ _
    | with_reducible (first | apply ite_keeps | apply ite_keeps_pair)
    | dsimp only
    | split
    | with_reducible (first | apply r0))

/-- Registers `State.bootFails` may write. -/
def State.bootFails_offs (o : Nat) : Prop :=
  State.bootEnd_offs o ∨ State.enterSafe_offs o

theorem State.bootFails_keeps {P : State → Prop} (K : Keeps P 0x4c010c7f4 State.bootFails_offs) {s : State} (hs : P s) :
    P (State.bootFails s) := by
  have k0 : Keeps P 0x0 State.bootEnd_offs := K.sub rfl (fun _ h => .inl h)
  have k1 : Keeps P 0x4c010c7f4 State.enterSafe_offs := K.sub rfl (fun _ h => .inr (h))
  have t2 : ∀ (s : State) v, (v.dev = s.ctl.dev ∨ ¬ s.ctl.dev = .safe) → P s → P (s.putCtl v) := K.upd 2 rfl
  unfold State.bootFails
  repeat' (first
    | with_reducible assumption
    | with_reducible (first | apply State.bootEnd_keeps k0 | apply State.enterSafe_keeps k1 | apply t2)
    | with_reducible exact Or.inl rfl
    | exact Or.inr (by assumption)
    | intro _ _ _ _
    | intro _ _ _
    | intro _ _
    | with_reducible (first | apply ite_keeps | apply ite_keeps_pair)
    | dsimp only
    | split)

/-- Registers `execCoolerSettle` may write. -/
def execCoolerSettle_offs (o : Nat) : Prop :=
  State.bootFails_offs o

theorem execCoolerSettle_keeps {P : State → Prop} (K : Keeps P 0x4c010c7f4 execCoolerSettle_offs) {s : State} (ok : Bool) (hs : P s) :
    ∃ t, (execCoolerSettle ok s) = .next t ∧ P t := by
  have k0 : Keeps P 0x4c010c7f4 State.bootFails_offs := K.sub rfl (fun _ h => h)
  have k1 : Keeps P 0x4 (fun _ => False) := K.sub rfl (fun _ h => h.elim)
  refine ⟨_, rfl, ?_⟩
  repeat' (first
    | with_reducible assumption
    | with_reducible (first | apply State.bootFails_keeps k0 | apply State.toStep_keeps k1)
    | intro _ _ _ _
    | intro _ _ _
    | intro _ _
    | with_reducible (first | apply ite_keeps | apply ite_keeps_pair)
    | dsimp only
    | split)

theorem State.clearTec_keeps {P : State → Prop} (K : Keeps P 0x4 (fun _ => False)) {s : State} (hs : P s) :
    P (State.clearTec s) := by
  have k0 : Keeps P 0x4 (fun _ => False) := K.sub rfl (fun _ h => h.elim)
  unfold State.clearTec
  repeat' (first
    | with_reducible assumption
    | with_reducible (first | apply State.withDeg_keeps k0)
    | intro _ _ _ _
    | intro _ _ _
    | intro _ _
    | with_reducible (first | apply ite_keeps | apply ite_keeps_pair)
    | dsimp only
    | split)

/-- Registers `State.laserReading` may write. -/
def State.laserReading_offs (o : Nat) : Prop :=
  o = SRC_LASER_STATUS.reg

theorem State.laserReading_keeps {P : State → Prop} (K : Keeps P 0x0 State.laserReading_offs) {s : State} (freqErr : Nat) (current : Nat) (hs : P s) :
    P (State.laserReading s freqErr current) := by
  have r0 := K.reg (SRC_LASER_STATUS.reg) (rfl)
  unfold State.laserReading
  repeat' (first
    | with_reducible assumption
    | with_reducible (first | apply setFld_keeps)
    | with_reducible exact r0
    | intro _ _ _ _
    | intro _ _ _
    | intro _ _
    | with_reducible (first | apply ite_keeps | apply ite_keeps_pair)
    | dsimp only
    | split
    | with_reducible (first | apply r0))

/-- Registers `execLaserLock` may write. -/
def execLaserLock_offs (o : Nat) : Prop :=
  o = DMC_STATUS.reg ∨ o = SRC_LASER_STATUS.reg ∨ State.fspMake_offs o ∨ State.laserReading_offs o ∨
    State.settle_offs o

theorem execLaserLock_keeps {P : State → Prop} (K : Keeps P 0x4400000f4 execLaserLock_offs) {s : State} (freqErr : BitVec 16) (current : BitVec 12) (hs : P s) :
    ∃ t, (execLaserLock freqErr current s) = .next t ∧ P t := by
  have k0 : Keeps P 0x4 (fun _ => False) := K.sub rfl (fun _ h => h.elim)
  have k1 : Keeps P 0x0 State.fspMake_offs := K.sub rfl (fun _ h => .inr (.inr (.inl h)))
  have k2 : Keeps P 0x0 State.laserReading_offs := K.sub rfl (fun _ h => .inr (.inr (.inr (.inl h))))
  have k3 : Keeps P 0x440000070 State.settle_offs := K.sub rfl (fun _ h => .inr (.inr (.inr (.inr (h)))))
  have k4 : Keeps P 0x4 (fun _ => False) := K.sub rfl (fun _ h => h.elim)
  have r0 := K.reg (DMC_STATUS.reg) (.inl rfl)
  have r1 := K.reg (SRC_LASER_STATUS.reg) (.inr (.inl rfl))
  have t7 : ∀ (s : State) v, P s → P (s.putSrc v) := K.upd 7 rfl
  refine ⟨_, rfl, ?_⟩
  repeat' (first
    | with_reducible assumption
    | with_reducible (first | apply State.clearTec_keeps k0 | apply State.fspMake_keeps k1 | apply State.laserReading_keeps k2 | apply State.settle_keeps k3 | apply State.toStep_keeps k4 | apply setFlag_keeps | apply setFld_keeps | apply t7)
    | with_reducible exact r0
    | with_reducible exact r1
    | intro _ _ _ _
    | intro _ _ _
    | intro _ _
    | with_reducible (first | apply ite_keeps | apply ite_keeps_pair)
    | dsimp only
    | split
    | with_reducible (first | apply r0 | apply r1))

/-- Registers `execLaserUnlock` may write. -/
def execLaserUnlock_offs (o : Nat) : Prop :=
  o = SRC_LASER_STATUS.reg ∨ State.diagEvent_offs o ∨ State.laserReading_offs o ∨ State.settle_offs o ∨
    State.srcFault_offs o

theorem execLaserUnlock_keeps {P : State → Prop} (K : Keeps P 0x4c010c7f4 execLaserUnlock_offs) {s : State} (freqErr : BitVec 16) (current : BitVec 12) (hs : P s) :
    ∃ t, (execLaserUnlock freqErr current s) = .next t ∧ P t := by
  have k0 : Keeps P 0x4c010c7f4 State.diagEvent_offs := K.sub rfl (fun _ h => .inr (.inl h))
  have k1 : Keeps P 0x0 State.laserReading_offs := K.sub rfl (fun _ h => .inr (.inr (.inl h)))
  have k2 : Keeps P 0x440000070 State.settle_offs := K.sub rfl (fun _ h => .inr (.inr (.inr (.inl h))))
  have k3 : Keeps P 0x440000010 State.srcFault_offs := K.sub rfl (fun _ h => .inr (.inr (.inr (.inr (h)))))
  have k4 : Keeps P 0x4 (fun _ => False) := K.sub rfl (fun _ h => h.elim)
  have r0 := K.reg (SRC_LASER_STATUS.reg) (.inl rfl)
  have t7 : ∀ (s : State) v, P s → P (s.putSrc v) := K.upd 7 rfl
  refine ⟨_, rfl, ?_⟩
  repeat' (first
    | with_reducible assumption
    | with_reducible (first | apply State.diagEvent_keeps k0 | apply State.laserReading_keeps k1 | apply State.settle_keeps k2 | apply State.srcFault_keeps k3 | apply State.withDeg_keeps k4 | apply setFlag_keeps | apply t7)
    | with_reducible exact r0
    | intro _ _ _ _
    | intro _ _ _
    | intro _ _
    | with_reducible (first | apply ite_keeps | apply ite_keeps_pair)
    | dsimp only
    | split
    | with_reducible (first | apply r0))

/-- Registers `execLaserCurrentFault` may write. -/
def execLaserCurrentFault_offs (o : Nat) : Prop :=
  o = SRC_LASER_STATUS.reg ∨ State.diagEvent_offs o ∨ State.srcFault_offs o

theorem execLaserCurrentFault_keeps {P : State → Prop} (K : Keeps P 0x4c010c7f4 execLaserCurrentFault_offs) {s : State} (current : BitVec 12) (hs : P s) :
    ∃ t, (execLaserCurrentFault current s) = .next t ∧ P t := by
  have k0 : Keeps P 0x4c010c7f4 State.diagEvent_offs := K.sub rfl (fun _ h => .inr (.inl h))
  have k1 : Keeps P 0x440000010 State.srcFault_offs := K.sub rfl (fun _ h => .inr (.inr (h)))
  have r0 := K.reg (SRC_LASER_STATUS.reg) (.inl rfl)
  refine ⟨_, rfl, ?_⟩
  repeat' (first
    | with_reducible assumption
    | with_reducible (first | apply State.diagEvent_keeps k0 | apply State.srcFault_keeps k1 | apply setFld_keeps)
    | with_reducible exact r0
    | intro _ _ _ _
    | intro _ _ _
    | intro _ _
    | with_reducible (first | apply ite_keeps | apply ite_keeps_pair)
    | dsimp only
    | split
    | with_reducible (first | apply r0))

/-- Registers `execLaserLockTimeout` may write. -/
def execLaserLockTimeout_offs (o : Nat) : Prop :=
  State.bootFails_offs o

theorem execLaserLockTimeout_keeps {P : State → Prop} (K : Keeps P 0x4c010c7f4 execLaserLockTimeout_offs) {s : State} (hs : P s) :
    ∃ t, (execLaserLockTimeout s) = .next t ∧ P t := by
  have k0 : Keeps P 0x4c010c7f4 State.bootFails_offs := K.sub rfl (fun _ h => h)
  refine ⟨_, rfl, ?_⟩
  repeat' (first
    | with_reducible assumption
    | with_reducible (first | apply State.bootFails_keeps k0)
    | intro _ _ _ _
    | intro _ _ _
    | intro _ _
    | with_reducible (first | apply ite_keeps | apply ite_keeps_pair)
    | dsimp only
    | split)

/-- Registers `State.writeLaserCfg` may write. -/
def State.writeLaserCfg_offs (o : Nat) : Prop :=
  o = SRC_LASER_CFG.reg ∨ o = SRC_LASER_STATUS.reg ∨ State.storeWord_offs o

theorem State.writeLaserCfg_keeps {P : State → Prop} (K : Keeps P 0x80 State.writeLaserCfg_offs) {s : State} (w : Word) (hs : P s) :
    P (State.writeLaserCfg s w) := by
  have k0 : Keeps P 0x0 State.storeWord_offs := K.sub rfl (fun _ h => .inr (.inr (h)))
  have r0 := K.reg (SRC_LASER_CFG.reg) (.inl rfl)
  have r1 := K.reg (SRC_LASER_STATUS.reg) (.inr (.inl rfl))
  have t7 : ∀ (s : State) v, P s → P (s.putSrc v) := K.upd 7 rfl
  unfold State.writeLaserCfg
  repeat' (first
    | with_reducible assumption
    | with_reducible (first | apply State.storeWord_keeps k0 | apply setFlag_keeps | apply t7)
    | with_reducible exact r0
    | with_reducible exact r1
    | intro _ _ _ _
    | intro _ _ _
    | intro _ _
    | with_reducible (first | apply ite_keeps | apply ite_keeps_pair)
    | dsimp only
    | split
    | with_reducible (first | apply r0 | apply r1))

/-- Registers `execLaserChWrite` may write. -/
def execLaserChWrite_offs (o : Nat) : Prop :=
  State.writeLaserCfg_offs o

theorem execLaserChWrite_keeps {P : State → Prop} (K : Keeps P 0x80 execLaserChWrite_offs) {s : State} (w : Word) (hs : P s) :
    ∃ t, (execLaserChWrite w s) = .next t ∧ P t := by
  have k0 : Keeps P 0x80 State.writeLaserCfg_offs := K.sub rfl (fun _ h => h)
  refine ⟨_, rfl, ?_⟩
  repeat' (first
    | with_reducible assumption
    | with_reducible (first | apply State.writeLaserCfg_keeps k0)
    | intro _ _ _ _
    | intro _ _ _
    | intro _ _
    | with_reducible (first | apply ite_keeps | apply ite_keeps_pair)
    | dsimp only
    | split)

/-- Registers `execTecLimit` may write. -/
def execTecLimit_offs (o : Nat) : Prop :=
  o = SRC_FAULT_CAUSE.reg ∨ o = SRC_TEC_STATUS.reg ∨ State.diagEvent_offs o ∨ State.raiseEvent_offs o

theorem execTecLimit_keeps {P : State → Prop} (K : Keeps P 0x4c010c7f4 execTecLimit_offs) {s : State} (current : BitVec 12) (tempErr : BitVec 16) (hs : P s) :
    ∃ t, (execTecLimit current tempErr s) = .next t ∧ P t := by
  have k0 : Keeps P 0x4c010c7f4 State.diagEvent_offs := K.sub rfl (fun _ h => .inr (.inr (.inl h)))
  have k1 : Keeps P 0x440000010 State.raiseEvent_offs := K.sub rfl (fun _ h => .inr (.inr (.inr (h))))
  have k2 : Keeps P 0x4 (fun _ => False) := K.sub rfl (fun _ h => h.elim)
  have r0 := K.reg (SRC_FAULT_CAUSE.reg) (.inl rfl)
  have r1 := K.reg (SRC_TEC_STATUS.reg) (.inr (.inl rfl))
  refine ⟨_, rfl, ?_⟩
  repeat' (first
    | with_reducible assumption
    | with_reducible (first | apply State.diagEvent_keeps k0 | apply State.raiseEvent_keeps k1 | apply State.withDeg_keeps k2 | apply setFlag_keeps | apply setFld_keeps)
    | with_reducible exact r0
    | with_reducible exact r1
    | intro _ _ _ _
    | intro _ _ _
    | intro _ _
    | with_reducible (first | apply ite_keeps | apply ite_keeps_pair)
    | dsimp only
    | split
    | with_reducible (first | apply r0 | apply r1))

/-- Registers `execTecLimitClear` may write. -/
def execTecLimitClear_offs (o : Nat) : Prop :=
  o = SRC_TEC_STATUS.reg

theorem execTecLimitClear_keeps {P : State → Prop} (K : Keeps P 0x4 execTecLimitClear_offs) {s : State} (current : BitVec 12) (tempErr : BitVec 16) (hs : P s) :
    ∃ t, (execTecLimitClear current tempErr s) = .next t ∧ P t := by
  have k0 : Keeps P 0x4 (fun _ => False) := K.sub rfl (fun _ h => h.elim)
  have r0 := K.reg (SRC_TEC_STATUS.reg) (rfl)
  refine ⟨_, rfl, ?_⟩
  repeat' (first
    | with_reducible assumption
    | with_reducible (first | apply State.clearTec_keeps k0 | apply setFlag_keeps | apply setFld_keeps)
    | with_reducible exact r0
    | intro _ _ _ _
    | intro _ _ _
    | intro _ _
    | with_reducible (first | apply ite_keeps | apply ite_keeps_pair)
    | dsimp only
    | split
    | with_reducible (first | apply r0))

/-- Registers `execBootFuseLoad` may write. -/
def execBootFuseLoad_offs (o : Nat) : Prop :=
  State.bootFails_offs o ∨ State.loadFuses_offs o ∨ State.raiseEvent_offs o ∨ State.record_offs o

theorem execBootFuseLoad_keeps {P : State → Prop} (K : Keeps P 0x4c010c7f4 execBootFuseLoad_offs) {s : State} (ok : Bool) (hs : P s) :
    ∃ t, (execBootFuseLoad ok s) = .next t ∧ P t := by
  have k0 : Keeps P 0x4c010c7f4 State.bootFails_offs := K.sub rfl (fun _ h => .inl h)
  have k1 : Keeps P 0x100000 State.loadFuses_offs := K.sub rfl (fun _ h => .inr (.inl h))
  have k2 : Keeps P 0x440000010 State.raiseEvent_offs := K.sub rfl (fun _ h => .inr (.inr (.inl h)))
  have k3 : Keeps P 0x20 State.record_offs := K.sub rfl (fun _ h => .inr (.inr (.inr (h))))
  have k4 : Keeps P 0x4 (fun _ => False) := K.sub rfl (fun _ h => h.elim)
  have k5 : Keeps P 0x100000 (fun _ => False) := K.sub rfl (fun _ h => h.elim)
  refine ⟨_, rfl, ?_⟩
  repeat' (first
    | with_reducible assumption
    | with_reducible (first | apply State.bootFails_keeps k0 | apply State.loadFuses_keeps k1 | apply State.raiseEvent_keeps k2 | apply State.record_keeps k3 | apply State.toStep_keeps k4 | apply State.zeroSpads_keeps k5)
    | intro _ _ _ _
    | intro _ _ _
    | intro _ _
    | with_reducible (first | apply ite_keeps | apply ite_keeps_pair)
    | dsimp only
    | split)

/-- Registers `State.enterSetup` may write. -/
def State.enterSetup_offs (o : Nat) : Prop :=
  State.linkWake_offs o ∨ State.setRefill_offs o

theorem State.enterSetup_keeps {P : State → Prop} (K : Keeps P 0x4084 State.enterSetup_offs) {s : State} (hs : P s) :
    P (State.enterSetup s) := by
  have k0 : Keeps P 0x4000 State.linkWake_offs := K.sub rfl (fun _ h => .inl h)
  have k1 : Keeps P 0x4 (fun _ => False) := K.sub rfl (fun _ h => h.elim)
  have k2 : Keeps P 0x80 (fun _ => False) := K.sub rfl (fun _ h => h.elim)
  have k3 : Keeps P 0x80 State.setRefill_offs := K.sub rfl (fun _ h => .inr (h))
  have t7 : ∀ (s : State) v, P s → P (s.putSrc v) := K.upd 7 rfl
  unfold State.enterSetup
  repeat' (first
    | with_reducible assumption
    | with_reducible (first | apply State.linkWake_keeps k0 | apply State.setDev_keeps k1 | apply State.setGate_keeps k2 | apply State.setRefill_keeps k3 | apply t7)
    | intro _ _ _ _
    | intro _ _ _
    | intro _ _
    | with_reducible (first | apply ite_keeps | apply ite_keeps_pair)
    | dsimp only
    | split)

/-- Registers `execDramTraining` may write. -/
def execDramTraining_offs (o : Nat) : Prop :=
  o = DMC_STATUS.reg ∨ State.calStart_offs o ∨ State.dramClientsFail_offs o ∨ State.fspDeferred_offs o ∨
    State.fspMake_offs o

theorem execDramTraining_keeps {P : State → Prop} (K : Keeps P 0x4c310a214 execDramTraining_offs) {s : State} (failed : BitVec 4) (hs : P s) :
    ∃ t, (execDramTraining failed s) = .next t ∧ P t := by
  have k0 : Keeps P 0x440000210 State.calStart_offs := K.sub rfl (fun _ h => .inr (.inl h))
  have k1 : Keeps P 0x4c010a014 State.dramClientsFail_offs := K.sub rfl (fun _ h => .inr (.inr (.inl h)))
  have k2 : Keeps P 0x2000000 State.fspDeferred_offs := K.sub rfl (fun _ h => .inr (.inr (.inr (.inl h))))
  have k3 : Keeps P 0x0 State.fspMake_offs := K.sub rfl (fun _ h => .inr (.inr (.inr (.inr (h)))))
  have k4 : Keeps P 0x4 (fun _ => False) := K.sub rfl (fun _ h => h.elim)
  have k5 : Keeps P 0x4 (fun _ => False) := K.sub rfl (fun _ h => h.elim)
  have r0 := K.reg (DMC_STATUS.reg) (.inl rfl)
  have t2 : ∀ (s : State) v, (v.dev = s.ctl.dev ∨ ¬ s.ctl.dev = .safe) → P s → P (s.putCtl v) := K.upd 2 rfl
  have t24 : ∀ (s : State) v, (Memory.wf 0 s.dram = true → Memory.wf 0 v = true) → P s → P (s.putDram v) := K.upd 24 rfl
  have t25 : ∀ (s : State) v, P s → P (s.putDmc v) := K.upd 25 rfl
  refine ⟨_, rfl, ?_⟩
  repeat' (first
    | with_reducible assumption
    | with_reducible (first | apply State.calStart_keeps k0 | apply State.dramClientsFail_keeps k1 | apply State.fspDeferred_keeps k2 | apply State.fspMake_keeps k3 | apply State.toStep_keeps k4 | apply State.withDeg_keeps k5 | apply setFlag_keeps | apply setFld_keeps | apply t2 | apply t24 | apply t25)
    | with_reducible exact r0
    | with_reducible exact Or.inl rfl
    | exact Or.inr (by assumption)
    | with_reducible_and_instances (first | exact fun h => h | exact fun h => Memory.setBytes_wf _ _ h | exact fun h => SMap.put_wf _ _ h | exact fun h => Memory.clearRange_wf _ _ h | exact fun _ => rfl | exact fun h => Memory.setByte_wf _ _ h | exact fun h => Memory.setBytes_wf _ _ (Memory.setBytes_wf _ _ h) | exact fun h => Memory.clearRange_wf _ _ (Memory.clearRange_wf _ _ h) | exact fun h => SMap.filter_wf _ h)
    | exact fun h => SMap.put_wf _ _ h
    | exact fun _ => SMap.nil_wf
    | intro _ _ _ _
    | intro _ _ _
    | intro _ _
    | with_reducible (first | apply ite_keeps | apply ite_keeps_pair)
    | dsimp only
    | split
    | with_reducible (first | apply r0))

/-- Registers `execBootCalTimeout` may write. -/
def execBootCalTimeout_offs (o : Nat) : Prop :=
  State.bootFails_offs o

theorem execBootCalTimeout_keeps {P : State → Prop} (K : Keeps P 0x4c010c7f4 execBootCalTimeout_offs) {s : State} (hs : P s) :
    ∃ t, (execBootCalTimeout s) = .next t ∧ P t := by
  have k0 : Keeps P 0x4c010c7f4 State.bootFails_offs := K.sub rfl (fun _ h => h)
  refine ⟨_, rfl, ?_⟩
  repeat' (first
    | with_reducible assumption
    | with_reducible (first | apply State.bootFails_keeps k0)
    | intro _ _ _ _
    | intro _ _ _
    | intro _ _
    | with_reducible (first | apply ite_keeps | apply ite_keeps_pair)
    | dsimp only
    | split)

/-- Registers `State.writeBootCtrl` may write. -/
def State.writeBootCtrl_offs (o : Nat) : Prop :=
  o = GLB_BOOT_STATUS.reg

theorem State.writeBootCtrl_keeps {P : State → Prop} (K : Keeps P 0x4 State.writeBootCtrl_offs) {s : State} (w : Word) (hs : P s) :
    P (State.writeBootCtrl s w) := by
  have k0 : Keeps P 0x4 (fun _ => False) := K.sub rfl (fun _ h => h.elim)
  have r0 := K.reg (GLB_BOOT_STATUS.reg) (rfl)
  unfold State.writeBootCtrl
  repeat' (first
    | with_reducible assumption
    | with_reducible (first | apply State.toStep_keeps k0 | apply setFlag_keeps)
    | with_reducible exact r0
    | intro _ _ _ _
    | intro _ _ _
    | intro _ _
    | with_reducible (first | apply ite_keeps | apply ite_keeps_pair)
    | dsimp only
    | split
    | with_reducible (first | apply r0))

/-- Registers `execBootResume` may write. -/
def execBootResume_offs (o : Nat) : Prop :=
  State.writeBootCtrl_offs o

theorem execBootResume_keeps {P : State → Prop} (K : Keeps P 0x4 execBootResume_offs) {s : State} (w : Word) (hs : P s) :
    ∃ t, (execBootResume w s) = .next t ∧ P t := by
  have k0 : Keeps P 0x4 State.writeBootCtrl_offs := K.sub rfl (fun _ h => h)
  refine ⟨_, rfl, ?_⟩
  repeat' (first
    | with_reducible assumption
    | with_reducible (first | apply State.writeBootCtrl_keeps k0)
    | intro _ _ _ _
    | intro _ _ _
    | intro _ _
    | with_reducible (first | apply ite_keeps | apply ite_keeps_pair)
    | dsimp only
    | split)

end Sys2Proof.Machine
end

