-- ==== Sys2Proof/Laws/KControl.lean ====
section
/-!
SUPPORT. What the operations of Sys2Proof.Machine.Control keep, and the registers they may write.
-/
namespace Sys2Proof.Machine

/-- Registers `State.startCfg` may write. -/
def State.startCfg_offs (o : Nat) : Prop :=
  (∃ n, o = BRL_PORT_STATUS.reg n) ∨ State.putCfg_offs o

theorem State.startCfg_keeps {P : State → Prop} (K : Keeps P 0x4000 State.startCfg_offs) {s : State} (hs : P s) :
    P (State.startCfg s) := by
  have k0 : Keeps P 0x0 State.putCfg_offs := K.sub rfl (fun _ h => .inr (h))
  have r0 := fun n => K.reg (BRL_PORT_STATUS.reg n) (.inl ⟨n, rfl⟩)
  have t14 : ∀ (s : State) v, (Memory.wf 0 s.mlk.pbase = true → Memory.wf 0 v.pbase = true) → P s → P (s.putMlk v) := K.upd 14 rfl
  unfold State.startCfg
  repeat' (first
    | with_reducible assumption
    | with_reducible (first | apply State.putCfg_keeps k0 | apply setFlag_keeps | apply foldl_keeps | apply foldl_keeps_pair | apply t14)
    | with_reducible exact r0 _
    | with_reducible_and_instances (first | exact fun h => h | exact fun h => Memory.setBytes_wf _ _ h | exact fun h => SMap.put_wf _ _ h | exact fun h => Memory.clearRange_wf _ _ h | exact fun _ => rfl | exact fun h => Memory.setByte_wf _ _ h | exact fun h => Memory.setBytes_wf _ _ (Memory.setBytes_wf _ _ h) | exact fun h => Memory.clearRange_wf _ _ (Memory.clearRange_wf _ _ h) | exact fun h => SMap.filter_wf _ h)
    | exact fun h => SMap.put_wf _ _ h
    | exact fun _ => SMap.nil_wf
    | intro _ _ _ _
    | intro _ _ _
    | intro _ _
    | with_reducible (first | apply ite_keeps | apply ite_keeps_pair)
    | dsimp only
    | split
    | with_reducible (first | apply r0))

/-- Registers `State.streamStart` may write. -/
def State.streamStart_offs (o : Nat) : Prop :=
  (∃ n, o = PRT_INTEG_STATUS.reg n)

theorem State.streamStart_keeps {P : State → Prop} (K : Keeps P 0x40000 State.streamStart_offs) {s : State} (n : Nat) (hs : P s) :
    P (State.streamStart s n) := by
  have k0 : Keeps P 0x40000 (fun _ => False) := K.sub rfl (fun _ h => h.elim)
  have r0 := fun n => K.reg (PRT_INTEG_STATUS.reg n) (⟨n, rfl⟩)
  unfold State.streamStart
  repeat' (first
    | with_reducible assumption
    | with_reducible (first | apply State.setPort_keeps k0 | apply setFlag_keeps)
    | with_reducible exact r0 _
    | intro _ _ _ _
    | intro _ _ _
    | intro _ _
    | with_reducible (first | apply ite_keeps | apply ite_keeps_pair)
    | dsimp only
    | split
    | with_reducible (first | apply r0))

theorem State.schedStart_keeps {P : State → Prop} (K : Keeps P 0x100 (fun _ => False)) {s : State} (hs : P s) :
    P (State.schedStart s) := by
  have t8 : ∀ (s : State) v, P s → P (s.putSched v) := K.upd 8 rfl
  unfold State.schedStart
  repeat' (first
    | with_reducible assumption
    | with_reducible (first | apply t8)
    | intro _ _ _ _
    | intro _ _ _
    | intro _ _
    | with_reducible (first | apply ite_keeps | apply ite_keeps_pair)
    | dsimp only
    | split)

/-- Registers `State.begin` may write. -/
def State.begin_offs (o : Nat) : Prop :=
  o = AUX_PASS_NUM.reg ∨ State.brlStart_offs o ∨ State.checkTko_offs o ∨ State.clearPending_offs o ∨
    State.fltStart_offs o ∨ State.safetyCrc_offs o ∨ State.settle_offs o ∨ State.showRates_offs o ∨
    State.snapAtStart_offs o ∨ State.streamStart_offs o

theorem State.begin_keeps {P : State → Prop} (K : Keeps P 0x4c3046f70 State.begin_offs) {s : State} (hs : P s) :
    P (State.begin s) := by
  have k0 : Keeps P 0x83000800 (fun _ => False) := K.sub rfl (fun _ h => h.elim)
  have k1 : Keeps P 0x3002000 State.brlStart_offs := K.sub rfl (fun _ h => .inr (.inl h))
  have k2 : Keeps P 0x200 (fun _ => False) := K.sub rfl (fun _ h => h.elim)
  have k3 : Keeps P 0x4000 State.checkTko_offs := K.sub rfl (fun _ h => .inr (.inr (.inl h)))
  have k4 : Keeps P 0x100 State.clearPending_offs := K.sub rfl (fun _ h => .inr (.inr (.inr (.inl h))))
  have k5 : Keeps P 0x80040000 State.fltStart_offs := K.sub rfl (fun _ h => .inr (.inr (.inr (.inr (.inl h)))))
  have k6 : Keeps P 0x0 State.safetyCrc_offs := K.sub rfl (fun _ h => .inr (.inr (.inr (.inr (.inr (.inl h))))))
  have k7 : Keeps P 0x100 (fun _ => False) := K.sub rfl (fun _ h => h.elim)
  have k8 : Keeps P 0x440000070 State.settle_offs := K.sub rfl (fun _ h => .inr (.inr (.inr (.inr (.inr (.inr (.inl h)))))))
  have k9 : Keeps P 0x0 State.showRates_offs := K.sub rfl (fun _ h => .inr (.inr (.inr (.inr (.inr (.inr (.inr (.inl h))))))))
  have k10 : Keeps P 0x20 State.snapAtStart_offs := K.sub rfl (fun _ h => .inr (.inr (.inr (.inr (.inr (.inr (.inr (.inr (.inl h)))))))))
  have k11 : Keeps P 0x40000 State.streamStart_offs := K.sub rfl (fun _ h => .inr (.inr (.inr (.inr (.inr (.inr (.inr (.inr (.inr (h))))))))))
  have r0 := K.reg (AUX_PASS_NUM.reg) (.inl rfl)
  have t10 : ∀ (s : State) v, P s → P (s.putAux v) := K.upd 10 rfl
  have t14 : ∀ (s : State) v, (Memory.wf 0 s.mlk.pbase = true → Memory.wf 0 v.pbase = true) → P s → P (s.putMlk v) := K.upd 14 rfl
  unfold State.begin
  repeat' (first
    | with_reducible assumption
    | with_reducible (first | apply State.beltStart_keeps k0 | apply State.brlStart_keeps k1 | apply State.calTempTest_keeps k2 | apply State.checkTko_keeps k3 | apply State.clearPending_keeps k4 | apply State.fltStart_keeps k5 | apply State.safetyCrc_keeps k6 | apply State.schedStart_keeps k7 | apply State.settle_keeps k8 | apply State.showRates_keeps k9 | apply State.snapAtStart_keeps k10 | apply State.streamStart_keeps k11 | apply setNat_keeps | apply foldl_keeps | apply foldl_keeps_pair | apply t10 | apply t14)
    | with_reducible exact r0
    | with_reducible_and_instances (first | exact fun h => h | exact fun h => Memory.setBytes_wf _ _ h | exact fun h => SMap.put_wf _ _ h | exact fun h => Memory.clearRange_wf _ _ h | exact fun _ => rfl | exact fun h => Memory.setByte_wf _ _ h | exact fun h => Memory.setBytes_wf _ _ (Memory.setBytes_wf _ _ h) | exact fun h => Memory.clearRange_wf _ _ (Memory.clearRange_wf _ _ h) | exact fun h => SMap.filter_wf _ h)
    | exact fun h => SMap.put_wf _ _ h
    | exact fun _ => SMap.nil_wf
    | intro _ _ _ _
    | intro _ _ _
    | intro _ _
    | with_reducible (first | apply ite_keeps | apply ite_keeps_pair)
    | dsimp only
    | split
    | with_reducible (first | apply r0))

/-- Registers `State.start` may write. -/
def State.start_offs (o : Nat) : Prop :=
  State.begin_offs o ∨ State.showCommit_offs o ∨ State.startCfg_offs o

theorem State.start_keeps {P : State → Prop} (K : Keeps P 0x4c3046f74 State.start_offs) {s : State} (hs : P s) :
    P (State.start s) := by
  have k0 : Keeps P 0x4c3046f70 State.begin_offs := K.sub rfl (fun _ h => .inl h)
  have k1 : Keeps P 0x440000010 State.showCommit_offs := K.sub rfl (fun _ h => .inr (.inl h))
  have k2 : Keeps P 0x4000 State.startCfg_offs := K.sub rfl (fun _ h => .inr (.inr (h)))
  have t2 : ∀ (s : State) v, (v.dev = s.ctl.dev ∨ ¬ s.ctl.dev = .safe) → P s → P (s.putCtl v) := K.upd 2 rfl
  unfold State.start
  repeat' (first
    | with_reducible assumption
    | with_reducible (first | apply State.begin_keeps k0 | apply State.showCommit_keeps k1 | apply State.startCfg_keeps k2 | apply t2)
    | with_reducible exact Or.inl rfl
    | exact Or.inr (by assumption)
    | intro _ _ _ _
    | intro _ _ _
    | intro _ _
    | with_reducible (first | apply ite_keeps | apply ite_keeps_pair)
    | dsimp only
    | split)

/-- Registers `execStart` may write. -/
def execStart_offs (o : Nat) : Prop :=
  State.start_offs o

theorem execStart_keeps {P : State → Prop} (K : Keeps P 0x4c3046f74 execStart_offs) {s : State} (hs : P s) :
    ∃ t, (execStart s) = .next t ∧ P t := by
  have k0 : Keeps P 0x4c3046f74 State.start_offs := K.sub rfl (fun _ h => h)
  refine ⟨_, rfl, ?_⟩
  repeat' (first
    | with_reducible assumption
    | with_reducible (first | apply State.start_keeps k0)
    | intro _ _ _ _
    | intro _ _ _
    | intro _ _
    | with_reducible (first | apply ite_keeps | apply ite_keeps_pair)
    | dsimp only
    | split)

/-- Registers `State.stop` may write. -/
def State.stop_offs (o : Nat) : Prop :=
  State.requestStop_offs o

theorem State.stop_keeps {P : State → Prop} (K : Keeps P 0x440004174 State.stop_offs) {s : State} (hs : P s) :
    P (State.stop s) := by
  have k0 : Keeps P 0x440004174 State.requestStop_offs := K.sub rfl (fun _ h => h)
  unfold State.stop
  repeat' (first
    | with_reducible assumption
    | with_reducible (first | apply State.requestStop_keeps k0)
    | intro _ _ _ _
    | intro _ _ _
    | intro _ _
    | with_reducible (first | apply ite_keeps | apply ite_keeps_pair)
    | dsimp only
    | split)

/-- Registers `execStop` may write. -/
def execStop_offs (o : Nat) : Prop :=
  State.stop_offs o

theorem execStop_keeps {P : State → Prop} (K : Keeps P 0x440004174 execStop_offs) {s : State} (hs : P s) :
    ∃ t, (execStop s) = .next t ∧ P t := by
  have k0 : Keeps P 0x440004174 State.stop_offs := K.sub rfl (fun _ h => h)
  refine ⟨_, rfl, ?_⟩
  repeat' (first
    | with_reducible assumption
    | with_reducible (first | apply State.stop_keeps k0)
    | intro _ _ _ _
    | intro _ _ _
    | intro _ _
    | with_reducible (first | apply ite_keeps | apply ite_keeps_pair)
    | dsimp only
    | split)

/-- Registers `State.stopDone` may write. -/
def State.stopDone_offs (o : Nat) : Prop :=
  State.brlStop_offs o ∨ State.calAbort_offs o ∨ State.completeWhere_offs o ∨ State.disarm_offs o ∨
    State.enterSetup_offs o ∨ State.fltStop_offs o ∨ State.gapStop_offs o ∨ State.haltSched_offs o ∨
    State.reportDefer_offs o ∨ State.settle_offs o ∨ State.trgStop_offs o

theorem State.stopDone_keeps {P : State → Prop} (K : Keeps P 0x4c315eff4 State.stopDone_offs) {s : State} (hs : P s) :
    P (State.stopDone s) := by
  have k0 : Keeps P 0x100000 (fun _ => False) := K.sub rfl (fun _ h => h.elim)
  have k1 : Keeps P 0x800 (fun _ => False) := K.sub rfl (fun _ h => h.elim)
  have k2 : Keeps P 0x2000 State.brlStop_offs := K.sub rfl (fun _ h => .inl h)
  have k3 : Keeps P 0x440000210 State.calAbort_offs := K.sub rfl (fun _ h => .inr (.inl h))
  have k4 : Keeps P 0x440000110 State.completeWhere_offs := K.sub rfl (fun _ h => .inr (.inr (.inl h)))
  have k5 : Keeps P 0x440004070 State.disarm_offs := K.sub rfl (fun _ h => .inr (.inr (.inr (.inl h))))
  have k6 : Keeps P 0x4084 State.enterSetup_offs := K.sub rfl (fun _ h => .inr (.inr (.inr (.inr (.inl h)))))
  have k7 : Keeps P 0x40000 State.fltStop_offs := K.sub rfl (fun _ h => .inr (.inr (.inr (.inr (.inr (.inl h))))))
  have k8 : Keeps P 0x4c315c7f4 State.gapStop_offs := K.sub rfl (fun _ h => .inr (.inr (.inr (.inr (.inr (.inr (.inl h)))))))
  have k9 : Keeps P 0x500 State.haltSched_offs := K.sub rfl (fun _ h => .inr (.inr (.inr (.inr (.inr (.inr (.inr (.inl h))))))))
  have k10 : Keeps P 0x440000010 State.reportDefer_offs := K.sub rfl (fun _ h => .inr (.inr (.inr (.inr (.inr (.inr (.inr (.inr (.inl h)))))))))
  have k11 : Keeps P 0x100 (fun _ => False) := K.sub rfl (fun _ h => h.elim)
  have k12 : Keeps P 0x440000070 State.settle_offs := K.sub rfl (fun _ h => .inr (.inr (.inr (.inr (.inr (.inr (.inr (.inr (.inr (.inl h))))))))))
  have k13 : Keeps P 0x8040 State.trgStop_offs := K.sub rfl (fun _ h => .inr (.inr (.inr (.inr (.inr (.inr (.inr (.inr (.inr (.inr (h)))))))))))
  have t2 : ∀ (s : State) v, (v.dev = s.ctl.dev ∨ ¬ s.ctl.dev = .safe) → P s → P (s.putCtl v) := K.upd 2 rfl
  have t14 : ∀ (s : State) v, (Memory.wf 0 s.mlk.pbase = true → Memory.wf 0 v.pbase = true) → P s → P (s.putMlk v) := K.upd 14 rfl
  unfold State.stopDone
  repeat' (first
    | with_reducible assumption
    | with_reducible (first | apply State.beginStop_keeps k0 | apply State.beltStop_keeps k1 | apply State.brlStop_keeps k2 | apply State.calAbort_keeps k3 | apply State.completeWhere_keeps k4 | apply State.disarm_keeps k5 | apply State.enterSetup_keeps k6 | apply State.fltStop_keeps k7 | apply State.gapStop_keeps k8 | apply State.haltSched_keeps k9 | apply State.reportDefer_keeps k10 | apply State.resetShadow_keeps k11 | apply State.settle_keeps k12 | apply State.trgStop_keeps k13 | apply foldl_keeps | apply foldl_keeps_pair | apply t2 | apply t14)
    | with_reducible exact Or.inl rfl
    | exact Or.inr (by assumption)
    | with_reducible_and_instances (first | exact fun h => h | exact fun h => Memory.setBytes_wf _ _ h | exact fun h => SMap.put_wf _ _ h | exact fun h => Memory.clearRange_wf _ _ h | exact fun _ => rfl | exact fun h => Memory.setByte_wf _ _ h | exact fun h => Memory.setBytes_wf _ _ (Memory.setBytes_wf _ _ h) | exact fun h => Memory.clearRange_wf _ _ (Memory.clearRange_wf _ _ h) | exact fun h => SMap.filter_wf _ h)
    | exact fun h => SMap.put_wf _ _ h
    | exact fun _ => SMap.nil_wf
    | intro _ _ _ _
    | intro _ _ _
    | intro _ _
    | with_reducible (first | apply ite_keeps | apply ite_keeps_pair)
    | dsimp only
    | split)

/-- Registers `execStopComplete` may write. -/
def execStopComplete_offs (o : Nat) : Prop :=
  State.stopDone_offs o

theorem execStopComplete_keeps {P : State → Prop} (K : Keeps P 0x4c315eff4 execStopComplete_offs) {s : State} (hs : P s) :
    ∃ t, (execStopComplete s) = .next t ∧ P t := by
  have k0 : Keeps P 0x4c315eff4 State.stopDone_offs := K.sub rfl (fun _ h => h)
  refine ⟨_, rfl, ?_⟩
  repeat' (first
    | with_reducible assumption
    | with_reducible (first | apply State.stopDone_keeps k0)
    | intro _ _ _ _
    | intro _ _ _
    | intro _ _
    | with_reducible (first | apply ite_keeps | apply ite_keeps_pair)
    | dsimp only
    | split)

/-- Registers `State.hostSafe` may write. -/
def State.hostSafe_offs (o : Nat) : Prop :=
  State.enterSafe_offs o

theorem State.hostSafe_keeps {P : State → Prop} (K : Keeps P 0x4c010c7f4 State.hostSafe_offs) {s : State} (hs : P s) :
    P (State.hostSafe s) := by
  have k0 : Keeps P 0x4c010c7f4 State.enterSafe_offs := K.sub rfl (fun _ h => h)
  unfold State.hostSafe
  repeat' (first
    | with_reducible assumption
    | with_reducible (first | apply State.enterSafe_keeps k0)
    | intro _ _ _ _
    | intro _ _ _
    | intro _ _
    | with_reducible (first | apply ite_keeps | apply ite_keeps_pair)
    | dsimp only
    | split)

/-- Registers `execEnterSafe` may write. -/
def execEnterSafe_offs (o : Nat) : Prop :=
  State.hostSafe_offs o

theorem execEnterSafe_keeps {P : State → Prop} (K : Keeps P 0x4c010c7f4 execEnterSafe_offs) {s : State} (hs : P s) :
    ∃ t, (execEnterSafe s) = .next t ∧ P t := by
  have k0 : Keeps P 0x4c010c7f4 State.hostSafe_offs := K.sub rfl (fun _ h => h)
  refine ⟨_, rfl, ?_⟩
  repeat' (first
    | with_reducible assumption
    | with_reducible (first | apply State.hostSafe_keeps k0)
    | intro _ _ _ _
    | intro _ _ _
    | intro _ _
    | with_reducible (first | apply ite_keeps | apply ite_keeps_pair)
    | dsimp only
    | split)

/-- Registers `execSoftReset` may write. -/
def execSoftReset_offs (o : Nat) : Prop :=
  State.resetBy_offs o

theorem execSoftReset_keeps {P : State → Prop} (K : Keeps P 0x200000002 execSoftReset_offs) {s : State} (hs : P s) :
    ∃ t, (execSoftReset s) = .next t ∧ P t := by
  have k0 : Keeps P 0x200000002 State.resetBy_offs := K.sub rfl (fun _ h => h)
  refine ⟨_, rfl, ?_⟩
  repeat' (first
    | with_reducible assumption
    | with_reducible (first | apply State.resetBy_keeps k0)
    | intro _ _ _ _
    | intro _ _ _
    | intro _ _
    | with_reducible (first | apply ite_keeps | apply ite_keeps_pair)
    | dsimp only
    | split)

/-- Registers `State.writeGlbCtrl` may write. -/
def State.writeGlbCtrl_offs (o : Nat) : Prop :=
  State.hostSafe_offs o ∨ State.resetBy_offs o ∨ State.start_offs o ∨ State.stop_offs o

theorem State.writeGlbCtrl_keeps {P : State → Prop} (K : Keeps P 0x6c314eff6 State.writeGlbCtrl_offs) {s : State} (w : Word) (hs : P s) :
    P (State.writeGlbCtrl s w) := by
  have k0 : Keeps P 0x4c010c7f4 State.hostSafe_offs := K.sub rfl (fun _ h => .inl h)
  have k1 : Keeps P 0x200000002 State.resetBy_offs := K.sub rfl (fun _ h => .inr (.inl h))
  have k2 : Keeps P 0x4c3046f74 State.start_offs := K.sub rfl (fun _ h => .inr (.inr (.inl h)))
  have k3 : Keeps P 0x440004174 State.stop_offs := K.sub rfl (fun _ h => .inr (.inr (.inr (h))))
  unfold State.writeGlbCtrl
  repeat' (first
    | with_reducible assumption
    | with_reducible (first | apply State.hostSafe_keeps k0 | apply State.resetBy_keeps k1 | apply State.start_keeps k2 | apply State.stop_keeps k3)
    | intro _ _ _ _
    | intro _ _ _
    | intro _ _
    | with_reducible (first | apply ite_keeps | apply ite_keeps_pair)
    | dsimp only
    | split)

end Sys2Proof.Machine
end

