-- ==== Sys2Proof/Laws/KHostRows.lean ====
section
/-!
SUPPORT. What the operations of Sys2Proof.Machine.HostRows keep, and the registers they may write.
-/
namespace Sys2Proof.Machine

/-- Registers `State.doorbell` may write. -/
def State.doorbell_offs (o : Nat) : Prop :=
  (∃ n, o = HIF_RING_INDEX.reg n) ∨ (∃ n, o = HIF_RING_STATUS.reg n) ∨ State.ringError_offs o

theorem State.doorbell_keeps {P : State → Prop} (K : Keeps P 0x440000010 State.doorbell_offs) {s : State} (r : Nat) (tail : Nat) (descs : List Desc) (hs : P s) :
    P (State.doorbell s r tail descs) := by
  have k0 : Keeps P 0x440000010 State.ringError_offs := K.sub rfl (fun _ h => .inr (.inr (h)))
  have k1 : Keeps P 0x10 (fun _ => False) := K.sub rfl (fun _ h => h.elim)
  have r0 := fun n => K.reg (HIF_RING_INDEX.reg n) (.inl ⟨n, rfl⟩)
  have r1 := fun n => K.reg (HIF_RING_STATUS.reg n) (.inr (.inl ⟨n, rfl⟩))
  unfold State.doorbell
  repeat' (first
    | with_reducible assumption
    | with_reducible (first | apply State.ringError_keeps k0 | apply State.setRing_keeps k1 | apply setFlag_keeps | apply setFld_keeps)
    | with_reducible exact r0 _
    | with_reducible exact r1 _
    | intro _ _ _ _
    | intro _ _ _
    | intro _ _
    | with_reducible (first | apply ite_keeps | apply ite_keeps_pair)
    | dsimp only
    | split
    | with_reducible (first | apply r0 | apply r1))

/-- Registers `execDoorbell` may write. -/
def execDoorbell_offs (o : Nat) : Prop :=
  State.doorbell_offs o

theorem execDoorbell_keeps {P : State → Prop} (K : Keeps P 0x440000010 execDoorbell_offs) {s : State} (r : Fin 32) (tail : BitVec 16) (descs : List Desc) (hs : P s) :
    ∃ t, (execDoorbell r tail descs s) = .next t ∧ P t := by
  have k0 : Keeps P 0x440000010 State.doorbell_offs := K.sub rfl (fun _ h => h)
  refine ⟨_, rfl, ?_⟩
  repeat' (first
    | with_reducible assumption
    | with_reducible (first | apply State.doorbell_keeps k0)
    | intro _ _ _ _
    | intro _ _ _
    | intro _ _
    | with_reducible (first | apply ite_keeps | apply ite_keeps_pair)
    | dsimp only
    | split)

/-- Registers `State.writeRingCtrl` may write. -/
def State.writeRingCtrl_offs (o : Nat) : Prop :=
  (∃ n, o = HIF_RING_CTRL.reg n) ∨ (∃ n, o = HIF_RING_INDEX.reg n) ∨ (∃ n, o = HIF_RING_STATUS.reg n) ∨
    State.storeWord_offs o

theorem State.writeRingCtrl_keeps {P : State → Prop} (K : Keeps P 0x40000010 State.writeRingCtrl_offs) {s : State} (r : Nat) (w : Word) (hs : P s) :
    P (State.writeRingCtrl s r w) := by
  have k0 : Keeps P 0x10 (fun _ => False) := K.sub rfl (fun _ h => h.elim)
  have k1 : Keeps P 0x0 State.storeWord_offs := K.sub rfl (fun _ h => .inr (.inr (.inr (h))))
  have k2 : Keeps P 0x40000000 (fun _ => False) := K.sub rfl (fun _ h => h.elim)
  have r0 := fun n => K.reg (HIF_RING_CTRL.reg n) (.inl ⟨n, rfl⟩)
  have r1 := fun n => K.reg (HIF_RING_INDEX.reg n) (.inr (.inl ⟨n, rfl⟩))
  have r2 := fun n => K.reg (HIF_RING_STATUS.reg n) (.inr (.inr (.inl ⟨n, rfl⟩)))
  unfold State.writeRingCtrl
  repeat' (first
    | with_reducible assumption
    | with_reducible (first | apply State.setRing_keeps k0 | apply State.storeWord_keeps k1 | apply State.writeShadow_keeps k2 | apply setFld_keeps | apply setNat_keeps)
    | with_reducible exact r0 _
    | with_reducible exact r1 _
    | with_reducible exact r2 _
    | intro _ _ _ _
    | intro _ _ _
    | intro _ _
    | with_reducible (first | apply ite_keeps | apply ite_keeps_pair)
    | dsimp only
    | split
    | with_reducible (first | apply r0 | apply r1 | apply r2))

/-- Registers `State.writeRingBase` may write. -/
def State.writeRingBase_offs (o : Nat) : Prop :=
  State.storeWord_offs o

theorem State.writeRingBase_keeps {P : State → Prop} (K : Keeps P 0x0 State.writeRingBase_offs) {s : State} (r : Nat) (off : Nat) (w : Word) (hs : P s) :
    P (State.writeRingBase s r off w) := by
  have k0 : Keeps P 0x0 State.storeWord_offs := K.sub rfl (fun _ h => h)
  unfold State.writeRingBase
  repeat' (first
    | with_reducible assumption
    | with_reducible (first | apply State.storeWord_keeps k0)
    | intro _ _ _ _
    | intro _ _ _
    | intro _ _
    | with_reducible (first | apply ite_keeps | apply ite_keeps_pair)
    | dsimp only
    | split)

/-- Registers `execRingCtrlWrite` may write. -/
def execRingCtrlWrite_offs (o : Nat) : Prop :=
  State.writeRingCtrl_offs o

theorem execRingCtrlWrite_keeps {P : State → Prop} (K : Keeps P 0x40000010 execRingCtrlWrite_offs) {s : State} (r : Fin 32) (w : Word) (hs : P s) :
    ∃ t, (execRingCtrlWrite r w s) = .next t ∧ P t := by
  have k0 : Keeps P 0x40000010 State.writeRingCtrl_offs := K.sub rfl (fun _ h => h)
  refine ⟨_, rfl, ?_⟩
  repeat' (first
    | with_reducible assumption
    | with_reducible (first | apply State.writeRingCtrl_keeps k0)
    | intro _ _ _ _
    | intro _ _ _
    | intro _ _
    | with_reducible (first | apply ite_keeps | apply ite_keeps_pair)
    | dsimp only
    | split)

/-- Registers `execHostDmaError` may write. -/
def execHostDmaError_offs (o : Nat) : Prop :=
  (∃ n, o = HIF_RING_CTRL.reg n) ∨ State.ringError_offs o

theorem execHostDmaError_keeps {P : State → Prop} (K : Keeps P 0x440000010 execHostDmaError_offs) {s : State} (r : Fin 32) (hs : P s) :
    ∃ t, (execHostDmaError r s) = .next t ∧ P t := by
  have k0 : Keeps P 0x440000010 State.ringError_offs := K.sub rfl (fun _ h => .inr (h))
  have k1 : Keeps P 0x10 (fun _ => False) := K.sub rfl (fun _ h => h.elim)
  have r0 := fun n => K.reg (HIF_RING_CTRL.reg n) (.inl ⟨n, rfl⟩)
  refine ⟨_, rfl, ?_⟩
  repeat' (first
    | with_reducible assumption
    | with_reducible (first | apply State.ringError_keeps k0 | apply State.setRing_keeps k1 | apply setFlag_keeps)
    | with_reducible exact r0 _
    | intro _ _ _ _
    | intro _ _ _
    | intro _ _
    | with_reducible (first | apply ite_keeps | apply ite_keeps_pair)
    | dsimp only
    | split
    | with_reducible (first | apply r0))

theorem execLoWordRead_keeps {P : State → Prop} (K : Keeps P 0x10000008 (fun _ => False)) {s : State} (off : Nat) (hs : P s) :
    ∃ t, (execLoWordRead off s) = .next t ∧ P t := by
  have t3 : ∀ (s : State) v, (SMap.wf (fun _ => 0) s.latches = true → SMap.wf (fun _ => 0) v = true) → P s → P (s.putLatches v) := K.upd 3 rfl
  have t28 : ∀ (s : State) v, P s → P (s.putRdData v) := K.upd 28 rfl
  refine ⟨_, rfl, ?_⟩
  repeat' (first
    | with_reducible assumption
    | with_reducible (first | apply t3 | apply t28)
    | with_reducible_and_instances (first | exact fun h => h | exact fun h => Memory.setBytes_wf _ _ h | exact fun h => SMap.put_wf _ _ h | exact fun h => Memory.clearRange_wf _ _ h | exact fun _ => rfl | exact fun h => Memory.setByte_wf _ _ h | exact fun h => Memory.setBytes_wf _ _ (Memory.setBytes_wf _ _ h) | exact fun h => Memory.clearRange_wf _ _ (Memory.clearRange_wf _ _ h) | exact fun h => SMap.filter_wf _ h)
    | exact fun h => SMap.put_wf _ _ h
    | exact fun _ => SMap.nil_wf
    | intro _ _ _ _
    | intro _ _ _
    | intro _ _
    | with_reducible (first | apply ite_keeps | apply ite_keeps_pair)
    | dsimp only
    | split)

/-- Registers `execBar0BadAccess` may write. -/
def execBar0BadAccess_offs (o : Nat) : Prop :=
  State.raiseEvent_offs o

theorem execBar0BadAccess_keeps {P : State → Prop} (K : Keeps P 0x450000010 execBar0BadAccess_offs) {s : State} (write : Bool) (hs : P s) :
    ∃ t, (execBar0BadAccess write s) = .next t ∧ P t := by
  have k0 : Keeps P 0x440000010 State.raiseEvent_offs := K.sub rfl (fun _ h => h)
  have t28 : ∀ (s : State) v, P s → P (s.putRdData v) := K.upd 28 rfl
  refine ⟨_, rfl, ?_⟩
  repeat' (first
    | with_reducible assumption
    | with_reducible (first | apply State.raiseEvent_keeps k0 | apply t28)
    | intro _ _ _ _
    | intro _ _ _
    | intro _ _
    | with_reducible (first | apply ite_keeps | apply ite_keeps_pair)
    | dsimp only
    | split)

/-- Registers `execAerError` may write. -/
def execAerError_offs (o : Nat) : Prop :=
  State.raiseEvent_offs o

theorem execAerError_keeps {P : State → Prop} (K : Keeps P 0x440000010 execAerError_offs) {s : State} (kind : Fin 3) (hs : P s) :
    ∃ t, (execAerError kind s) = .next t ∧ P t := by
  have k0 : Keeps P 0x440000010 State.raiseEvent_offs := K.sub rfl (fun _ h => h)
  refine ⟨_, rfl, ?_⟩
  repeat' (first
    | with_reducible assumption
    | with_reducible (first | apply State.raiseEvent_keeps k0)
    | intro _ _ _ _
    | intro _ _ _
    | intro _ _
    | with_reducible (first | apply ite_keeps | apply ite_keeps_pair)
    | dsimp only
    | split)

/-- Registers `execBlockWrite` may write. -/
def execBlockWrite_offs (o : Nat) : Prop :=
  State.writeBlock_offs o

theorem execBlockWrite_keeps {P : State → Prop} (K : Keeps P 0x440000010 execBlockWrite_offs) {s : State} (r : Fin 32) (hs : P s) :
    ∃ t, (execBlockWrite r s) = .next t ∧ P t := by
  have k0 : Keeps P 0x440000010 State.writeBlock_offs := K.sub rfl (fun _ h => h)
  refine ⟨_, rfl, ?_⟩
  repeat' (first
    | with_reducible assumption
    | with_reducible (first | apply State.writeBlock_keeps k0)
    | (apply fst_keeps (by assumption))
    | intro _ _ _ _
    | intro _ _ _
    | intro _ _
    | with_reducible (first | apply ite_keeps | apply ite_keeps_pair)
    | dsimp only
    | split)

/-- Registers `State.settleBlock` may write. -/
def State.settleBlock_offs (o : Nat) : Prop :=
  o = CMP_LINK_DROP_COUNT.reg ∨ o = CMP_OUT_BYTES_LO.reg ∨ o = CMP_OUT_BYTES_LO.reg + 4 ∨ State.dropRest_offs o ∨
    State.loseBlock_offs o

theorem State.settleBlock_keeps {P : State → Prop} (K : Keeps P 0x40000010 State.settleBlock_offs) {s : State} (before : List Block) (b : Block) (after : List Block) (hs : P s) :
    P (State.settleBlock s before b after) := by
  have k0 : Keeps P 0x40000010 State.dropRest_offs := K.sub rfl (fun _ h => .inr (.inr (.inr (.inl h))))
  have k1 : Keeps P 0x40000010 State.loseBlock_offs := K.sub rfl (fun _ h => .inr (.inr (.inr (.inr (h)))))
  have r0 := K.reg (CMP_LINK_DROP_COUNT.reg) (.inl rfl)
  have r1 := K.reg (CMP_OUT_BYTES_LO.reg) (.inr (.inl rfl))
  have r2 := K.reg (CMP_OUT_BYTES_LO.reg + 4) (.inr (.inr (.inl rfl)))
  have t4 : ∀ (s : State) v, P s → P (s.putHif v) := K.upd 4 rfl
  unfold State.settleBlock
  repeat' (first
    | with_reducible assumption
    | with_reducible (first | apply State.dropRest_keeps k0 | apply State.loseBlock_keeps k1 | apply bump_keeps | apply setReg64_keeps | apply t4)
    | with_reducible exact r0
    | with_reducible exact r1
    | with_reducible exact r2
    | intro _ _ _ _
    | intro _ _ _
    | intro _ _
    | with_reducible (first | apply ite_keeps | apply ite_keeps_pair)
    | dsimp only
    | split
    | with_reducible (first | apply r0 | apply r1 | apply r2))

/-- Registers `execCompressComplete` may write. -/
def execCompressComplete_offs (o : Nat) : Prop :=
  o = CMP_ENGINE_BUSY.reg ∨ o = CMP_STORED_COUNT.reg ∨ State.feedEngines_offs o ∨ State.settleBlock_offs o

theorem execCompressComplete_keeps {P : State → Prop} (K : Keeps P 0x40000010 execCompressComplete_offs) {s : State} (e : Fin 4) (hs : P s) :
    ∃ t, (execCompressComplete e s) = .next t ∧ P t := by
  have k0 : Keeps P 0x10 State.feedEngines_offs := K.sub rfl (fun _ h => .inr (.inr (.inl h)))
  have k1 : Keeps P 0x40000010 State.settleBlock_offs := K.sub rfl (fun _ h => .inr (.inr (.inr (h))))
  have r0 := K.reg (CMP_ENGINE_BUSY.reg) (.inl rfl)
  have r1 := K.reg (CMP_STORED_COUNT.reg) (.inr (.inl rfl))
  refine ⟨_, rfl, ?_⟩
  repeat' (first
    | with_reducible assumption
    | with_reducible (first | apply State.feedEngines_keeps k0 | apply State.settleBlock_keeps k1 | apply bump_keeps | apply setFld_keeps)
    | with_reducible exact r0
    | with_reducible exact r1
    | intro _ _ _ _
    | intro _ _ _
    | intro _ _
    | with_reducible (first | apply ite_keeps | apply ite_keeps_pair)
    | dsimp only
    | split
    | with_reducible (first | apply r0 | apply r1))

/-- Registers `execCmpBypass` may write. -/
def execCmpBypass_offs (o : Nat) : Prop :=
  o = CMP_BYPASS_COUNT.reg ∨ State.settleBlock_offs o

theorem execCmpBypass_keeps {P : State → Prop} (K : Keeps P 0x40000010 execCmpBypass_offs) {s : State} (hs : P s) :
    ∃ t, (execCmpBypass s) = .next t ∧ P t := by
  have k0 : Keeps P 0x40000010 State.settleBlock_offs := K.sub rfl (fun _ h => .inr (h))
  have r0 := K.reg (CMP_BYPASS_COUNT.reg) (.inl rfl)
  refine ⟨_, rfl, ?_⟩
  repeat' (first
    | with_reducible assumption
    | with_reducible (first | apply State.settleBlock_keeps k0 | apply bump_keeps)
    | with_reducible exact r0
    | intro _ _ _ _
    | intro _ _ _
    | intro _ _
    | with_reducible (first | apply ite_keeps | apply ite_keeps_pair)
    | dsimp only
    | split
    | with_reducible (first | apply r0))

/-- Registers `execEventHoldoffExpiry` may write. -/
def execEventHoldoffExpiry_offs (o : Nat) : Prop :=
  State.pushRecord_offs o

theorem execEventHoldoffExpiry_keeps {P : State → Prop} (K : Keeps P 0x40000010 execEventHoldoffExpiry_offs) {s : State} (q : Fin 64) (hs : P s) :
    ∃ t, (execEventHoldoffExpiry q s) = .next t ∧ P t := by
  have k0 : Keeps P 0x40000010 State.pushRecord_offs := K.sub rfl (fun _ h => h)
  have k1 : Keeps P 0x10 (fun _ => False) := K.sub rfl (fun _ h => h.elim)
  refine ⟨_, rfl, ?_⟩
  repeat' (first
    | with_reducible assumption
    | with_reducible (first | apply State.pushRecord_keeps k0 | apply State.setEvHold_keeps k1)
    | intro _ _ _ _
    | intro _ _ _
    | intro _ _
    | with_reducible (first | apply ite_keeps | apply ite_keeps_pair)
    | dsimp only
    | split)

theorem execMsixHoldoffExpiry_keeps {P : State → Prop} (K : Keeps P 0x40000010 (fun _ => False)) {s : State} (v : Fin 32) (hs : P s) :
    ∃ t, (execMsixHoldoffExpiry v s) = .next t ∧ P t := by
  have k0 : Keeps P 0x40000010 (fun _ => False) := K.sub rfl (fun _ h => h.elim)
  have t4 : ∀ (s : State) v, P s → P (s.putHif v) := K.upd 4 rfl
  refine ⟨_, rfl, ?_⟩
  repeat' (first
    | with_reducible assumption
    | with_reducible (first | apply State.pendVec_keeps k0 | apply t4)
    | intro _ _ _ _
    | intro _ _ _
    | intro _ _
    | with_reducible (first | apply ite_keeps | apply ite_keeps_pair)
    | dsimp only
    | split)

theorem State.writeMsix_keeps {P : State → Prop} (K : Keeps P 0x40000010 (fun _ => False)) {s : State} (k : Nat) (w : Word) (hs : P s) :
    P (State.writeMsix s k w) := by
  have k0 : Keeps P 0x40000010 (fun _ => False) := K.sub rfl (fun _ h => h.elim)
  have t4 : ∀ (s : State) v, P s → P (s.putHif v) := K.upd 4 rfl
  unfold State.writeMsix
  repeat' (first
    | with_reducible assumption
    | with_reducible (first | apply State.pendVec_keeps k0 | apply t4)
    | intro _ _ _ _
    | intro _ _ _
    | intro _ _
    | with_reducible (first | apply ite_keeps | apply ite_keeps_pair)
    | dsimp only
    | split)

theorem execMsixUnmask_keeps {P : State → Prop} (K : Keeps P 0x40000010 (fun _ => False)) {s : State} (v : Fin 32) (hs : P s) :
    ∃ t, (execMsixUnmask v s) = .next t ∧ P t := by
  have k0 : Keeps P 0x40000010 (fun _ => False) := K.sub rfl (fun _ h => h.elim)
  refine ⟨_, rfl, ?_⟩
  repeat' (first
    | with_reducible assumption
    | with_reducible (first | apply State.writeMsix_keeps k0)
    | intro _ _ _ _
    | intro _ _ _
    | intro _ _
    | with_reducible (first | apply ite_keeps | apply ite_keeps_pair)
    | dsimp only
    | split)

end Sys2Proof.Machine
end

