-- ==== Sys2Proof/Laws/KQspi.lean ====
section
/-!
SUPPORT. What the operations of Sys2Proof.Machine.Qspi keep, and the registers they may write.
-/
namespace Sys2Proof.Machine

/-- Registers `State.qspiDone` may write. -/
def State.qspiDone_offs (o : Nat) : Prop :=
  o = GLB_QSPI_STATUS.reg ∨ State.raiseEvent_offs o

theorem State.qspiDone_keeps {P : State → Prop} (K : Keeps P 0x448000010 State.qspiDone_offs) {s : State} (err : Nat) (hs : P s) :
    P (State.qspiDone s err) := by
  have k0 : Keeps P 0x440000010 State.raiseEvent_offs := K.sub rfl (fun _ h => .inr (h))
  have r0 := K.reg (GLB_QSPI_STATUS.reg) (.inl rfl)
  have t27 : ∀ (s : State) v, P s → P (s.putQspi v) := K.upd 27 rfl
  unfold State.qspiDone
  repeat' (first
    | with_reducible assumption
    | with_reducible (first | apply State.raiseEvent_keeps k0 | apply setFlag_keeps | apply setFld_keeps | apply t27)
    | with_reducible exact r0
    | intro _ _ _ _
    | intro _ _ _
    | intro _ _
    | with_reducible (first | apply ite_keeps | apply ite_keeps_pair)
    | dsimp only
    | split
    | with_reducible (first | apply r0))

/-- Registers `State.writeQspiCmd` may write. -/
def State.writeQspiCmd_offs (o : Nat) : Prop :=
  o = GLB_QSPI_CMD.reg ∨ o = GLB_QSPI_STATUS.reg ∨ State.qspiDone_offs o ∨ State.storeWord_offs o

theorem State.writeQspiCmd_keeps {P : State → Prop} (K : Keeps P 0x448000010 State.writeQspiCmd_offs) {s : State} (w : Word) (hs : P s) :
    P (State.writeQspiCmd s w) := by
  have k0 : Keeps P 0x448000010 State.qspiDone_offs := K.sub rfl (fun _ h => .inr (.inr (.inl h)))
  have k1 : Keeps P 0x0 State.storeWord_offs := K.sub rfl (fun _ h => .inr (.inr (.inr (h))))
  have r0 := K.reg (GLB_QSPI_CMD.reg) (.inl rfl)
  have r1 := K.reg (GLB_QSPI_STATUS.reg) (.inr (.inl rfl))
  have t27 : ∀ (s : State) v, P s → P (s.putQspi v) := K.upd 27 rfl
  unfold State.writeQspiCmd
  repeat' (first
    | with_reducible assumption
    | with_reducible (first | apply State.qspiDone_keeps k0 | apply State.storeWord_keeps k1 | apply setFlag_keeps | apply t27)
    | with_reducible exact r0
    | with_reducible exact r1
    | intro _ _ _ _
    | intro _ _ _
    | intro _ _
    | with_reducible (first | apply ite_keeps | apply ite_keeps_pair)
    | dsimp only
    | split
    | with_reducible (first | apply r0 | apply r1))

/-- Registers `execQspiRead` may write. -/
def execQspiRead_offs (o : Nat) : Prop :=
  State.writeQspiCmd_offs o

theorem execQspiRead_keeps {P : State → Prop} (K : Keeps P 0x448000010 execQspiRead_offs) {s : State} (w : Word) (hs : P s) :
    ∃ t, (execQspiRead w s) = .next t ∧ P t := by
  have k0 : Keeps P 0x448000010 State.writeQspiCmd_offs := K.sub rfl (fun _ h => h)
  refine ⟨_, rfl, ?_⟩
  repeat' (first
    | with_reducible assumption
    | with_reducible (first | apply State.writeQspiCmd_keeps k0)
    | intro _ _ _ _
    | intro _ _ _
    | intro _ _
    | with_reducible (first | apply ite_keeps | apply ite_keeps_pair)
    | dsimp only
    | split)

/-- Registers `execQspiProgram` may write. -/
def execQspiProgram_offs (o : Nat) : Prop :=
  State.writeQspiCmd_offs o

theorem execQspiProgram_keeps {P : State → Prop} (K : Keeps P 0x448000010 execQspiProgram_offs) {s : State} (w : Word) (hs : P s) :
    ∃ t, (execQspiProgram w s) = .next t ∧ P t := by
  have k0 : Keeps P 0x448000010 State.writeQspiCmd_offs := K.sub rfl (fun _ h => h)
  refine ⟨_, rfl, ?_⟩
  repeat' (first
    | with_reducible assumption
    | with_reducible (first | apply State.writeQspiCmd_keeps k0)
    | intro _ _ _ _
    | intro _ _ _
    | intro _ _
    | with_reducible (first | apply ite_keeps | apply ite_keeps_pair)
    | dsimp only
    | split)

/-- Registers `execQspiErase4k` may write. -/
def execQspiErase4k_offs (o : Nat) : Prop :=
  State.writeQspiCmd_offs o

theorem execQspiErase4k_keeps {P : State → Prop} (K : Keeps P 0x448000010 execQspiErase4k_offs) {s : State} (w : Word) (hs : P s) :
    ∃ t, (execQspiErase4k w s) = .next t ∧ P t := by
  have k0 : Keeps P 0x448000010 State.writeQspiCmd_offs := K.sub rfl (fun _ h => h)
  refine ⟨_, rfl, ?_⟩
  repeat' (first
    | with_reducible assumption
    | with_reducible (first | apply State.writeQspiCmd_keeps k0)
    | intro _ _ _ _
    | intro _ _ _
    | intro _ _
    | with_reducible (first | apply ite_keeps | apply ite_keeps_pair)
    | dsimp only
    | split)

/-- Registers `execQspiErase64k` may write. -/
def execQspiErase64k_offs (o : Nat) : Prop :=
  State.writeQspiCmd_offs o

theorem execQspiErase64k_keeps {P : State → Prop} (K : Keeps P 0x448000010 execQspiErase64k_offs) {s : State} (w : Word) (hs : P s) :
    ∃ t, (execQspiErase64k w s) = .next t ∧ P t := by
  have k0 : Keeps P 0x448000010 State.writeQspiCmd_offs := K.sub rfl (fun _ h => h)
  refine ⟨_, rfl, ?_⟩
  repeat' (first
    | with_reducible assumption
    | with_reducible (first | apply State.writeQspiCmd_keeps k0)
    | intro _ _ _ _
    | intro _ _ _
    | intro _ _
    | with_reducible (first | apply ite_keeps | apply ite_keeps_pair)
    | dsimp only
    | split)

/-- Registers `execQspiReadId` may write. -/
def execQspiReadId_offs (o : Nat) : Prop :=
  State.writeQspiCmd_offs o

theorem execQspiReadId_keeps {P : State → Prop} (K : Keeps P 0x448000010 execQspiReadId_offs) {s : State} (w : Word) (hs : P s) :
    ∃ t, (execQspiReadId w s) = .next t ∧ P t := by
  have k0 : Keeps P 0x448000010 State.writeQspiCmd_offs := K.sub rfl (fun _ h => h)
  refine ⟨_, rfl, ?_⟩
  repeat' (first
    | with_reducible assumption
    | with_reducible (first | apply State.writeQspiCmd_keeps k0)
    | intro _ _ _ _
    | intro _ _ _
    | intro _ _
    | with_reducible (first | apply ite_keeps | apply ite_keeps_pair)
    | dsimp only
    | split)

/-- Registers `State.qspiFill` may write. -/
def State.qspiFill_offs (o : Nat) : Prop :=
  (∃ n, o = GLB_QSPI_BUF.reg n)

theorem State.qspiFill_keeps {P : State → Prop} (K : Keeps P 0x0 State.qspiFill_offs) {s : State} (a0 : Nat) (a1 : List Byte) (hs : P s) :
    P (State.qspiFill s a0 a1) := by
  have r0 := fun n => K.reg (GLB_QSPI_BUF.reg n) (⟨n, rfl⟩)
  induction a1 generalizing s a0 with
  | nil =>
    unfold State.qspiFill
    repeat' (first
      | with_reducible assumption
      | with_reducible (first | apply setFld_keeps)
      | with_reducible exact r0 _
      | intro _ _ _ _
      | intro _ _ _
      | intro _ _
      | with_reducible (first | apply ite_keeps | apply ite_keeps_pair)
      | dsimp only
      | split
      | with_reducible (first | apply r0))
  | cons _ _ ih =>
    unfold State.qspiFill
    repeat' (first
      | with_reducible assumption
      | with_reducible apply ih
      | with_reducible (first | apply setFld_keeps)
      | with_reducible exact r0 _
      | intro _ _ _ _
      | intro _ _ _
      | intro _ _
      | with_reducible (first | apply ite_keeps | apply ite_keeps_pair)
      | dsimp only
      | split
      | with_reducible (first | apply r0))

theorem State.flashProgram_keeps {P : State → Prop} (K : Keeps P 0x4000000 (fun _ => False)) {s : State} (addr : Nat) (a0 : Nat) (hs : P s) :
    P (State.flashProgram s addr a0) := by
  have t26 : ∀ (s : State) v, (Memory.wf 0xFF s.flash = true → Memory.wf 0xFF v = true) → P s → P (s.putFlash v) := K.upd 26 rfl
  induction a0 generalizing s addr with
  | zero =>
    unfold State.flashProgram
    repeat' (first
      | with_reducible assumption
      | with_reducible (first | apply t26)
      | with_reducible_and_instances (first | exact fun h => h | exact fun h => Memory.setBytes_wf _ _ h | exact fun h => SMap.put_wf _ _ h | exact fun h => Memory.clearRange_wf _ _ h | exact fun _ => rfl | exact fun h => Memory.setByte_wf _ _ h | exact fun h => Memory.setBytes_wf _ _ (Memory.setBytes_wf _ _ h) | exact fun h => Memory.clearRange_wf _ _ (Memory.clearRange_wf _ _ h) | exact fun h => SMap.filter_wf _ h)
      | exact fun h => SMap.put_wf _ _ h
      | exact fun _ => SMap.nil_wf
      | intro _ _ _ _
      | intro _ _ _
      | intro _ _
      | with_reducible (first | apply ite_keeps | apply ite_keeps_pair)
      | dsimp only
      | split)
  | succ _ ih =>
    unfold State.flashProgram
    repeat' (first
      | with_reducible assumption
      | with_reducible apply ih
      | with_reducible (first | apply t26)
      | with_reducible_and_instances (first | exact fun h => h | exact fun h => Memory.setBytes_wf _ _ h | exact fun h => SMap.put_wf _ _ h | exact fun h => Memory.clearRange_wf _ _ h | exact fun _ => rfl | exact fun h => Memory.setByte_wf _ _ h | exact fun h => Memory.setBytes_wf _ _ (Memory.setBytes_wf _ _ h) | exact fun h => Memory.clearRange_wf _ _ (Memory.clearRange_wf _ _ h) | exact fun h => SMap.filter_wf _ h)
      | exact fun h => SMap.put_wf _ _ h
      | exact fun _ => SMap.nil_wf
      | intro _ _ _ _
      | intro _ _ _
      | intro _ _
      | with_reducible (first | apply ite_keeps | apply ite_keeps_pair)
      | dsimp only
      | split)

/-- Registers `execQspiComplete` may write. -/
def execQspiComplete_offs (o : Nat) : Prop :=
  State.qspiDone_offs o ∨ State.qspiFill_offs o

theorem execQspiComplete_keeps {P : State → Prop} (K : Keeps P 0x44c000010 execQspiComplete_offs) {s : State} (timeout : Bool) (data : List Byte) (hs : P s) :
    ∃ t, (execQspiComplete timeout data s) = .next t ∧ P t := by
  have k0 : Keeps P 0x4000000 (fun _ => False) := K.sub rfl (fun _ h => h.elim)
  have k1 : Keeps P 0x448000010 State.qspiDone_offs := K.sub rfl (fun _ h => .inl h)
  have k2 : Keeps P 0x0 State.qspiFill_offs := K.sub rfl (fun _ h => .inr (h))
  have t26 : ∀ (s : State) v, (Memory.wf 0xFF s.flash = true → Memory.wf 0xFF v = true) → P s → P (s.putFlash v) := K.upd 26 rfl
  refine ⟨_, rfl, ?_⟩
  repeat' (first
    | with_reducible assumption
    | with_reducible (first | apply State.flashProgram_keeps k0 | apply State.qspiDone_keeps k1 | apply State.qspiFill_keeps k2 | apply t26)
    | with_reducible_and_instances (first | exact fun h => h | exact fun h => Memory.setBytes_wf _ _ h | exact fun h => SMap.put_wf _ _ h | exact fun h => Memory.clearRange_wf _ _ h | exact fun _ => rfl | exact fun h => Memory.setByte_wf _ _ h | exact fun h => Memory.setBytes_wf _ _ (Memory.setBytes_wf _ _ h) | exact fun h => Memory.clearRange_wf _ _ (Memory.clearRange_wf _ _ h) | exact fun h => SMap.filter_wf _ h)
    | exact fun h => SMap.put_wf _ _ h
    | exact fun _ => SMap.nil_wf
    | intro _ _ _ _
    | intro _ _ _
    | intro _ _
    | with_reducible (first | apply ite_keeps | apply ite_keeps_pair)
    | dsimp only
    | split)

end Sys2Proof.Machine
end

