-- ==== Sys2Proof/Laws/KRegWrites.lean ====
section
/-!
SUPPORT. What the operations of Sys2Proof.Machine.RegWrites keep, and the registers they may write.
-/
namespace Sys2Proof.Machine

/-- Registers `State.loshiftFollow` may write. -/
def State.loshiftFollow_offs (o : Nat) : Prop :=
  o = SRC_LOSHIFT.reg

theorem State.loshiftFollow_keeps {P : State → Prop} (K : Keeps P 0x0 State.loshiftFollow_offs) {old : State} {s : State} (hs : P s) :
    P (State.loshiftFollow old s) := by
  have r0 := K.reg (SRC_LOSHIFT.reg) (rfl)
  unfold State.loshiftFollow
  repeat' (first
    | with_reducible assumption
    | with_reducible (first | apply setFlag_keeps)
    | with_reducible exact r0
    | intro _ _ _ _
    | intro _ _ _
    | intro _ _
    | with_reducible (first | apply ite_keeps | apply ite_keeps_pair)
    | dsimp only
    | split
    | with_reducible (first | apply r0))

/-- Registers `State.regionFollow` may write. -/
def State.regionFollow_offs (o : Nat) : Prop :=
  (∃ n, o = BRL_PORT_STATUS.reg n)

theorem State.regionFollow_keeps {P : State → Prop} (K : Keeps P 0x0 State.regionFollow_offs) {old : State} {s : State} (hs : P s) :
    P (State.regionFollow old s) := by
  have r0 := fun n => K.reg (BRL_PORT_STATUS.reg n) (⟨n, rfl⟩)
  unfold State.regionFollow
  repeat' (first
    | with_reducible assumption
    | with_reducible (first | apply setFlag_keeps | apply foldl_keeps | apply foldl_keeps_pair)
    | with_reducible exact r0 _
    | intro _ _ _ _
    | intro _ _ _
    | intro _ _
    | with_reducible (first | apply ite_keeps | apply ite_keeps_pair)
    | dsimp only
    | split
    | with_reducible (first | apply r0))

/-- Registers `State.filterFollow` may write. -/
def State.filterFollow_offs (o : Nat) : Prop :=
  State.showFlt_offs o ∨ State.showUser_offs o

theorem State.filterFollow_keeps {P : State → Prop} (K : Keeps P 0x80000000 State.filterFollow_offs) {old : State} {s : State} (hs : P s) :
    P (State.filterFollow old s) := by
  have k0 : Keeps P 0x80000000 State.showFlt_offs := K.sub rfl (fun _ h => .inl h)
  have k1 : Keeps P 0x0 State.showUser_offs := K.sub rfl (fun _ h => .inr (h))
  unfold State.filterFollow
  repeat' (first
    | with_reducible assumption
    | with_reducible (first | apply State.showFlt_keeps k0 | apply State.showUser_keeps k1 | apply foldl_keeps | apply foldl_keeps_pair)
    | intro _ _ _ _
    | intro _ _ _
    | intro _ _
    | with_reducible (first | apply ite_keeps | apply ite_keeps_pair)
    | dsimp only
    | split)

theorem State.diagFollow_keeps {P : State → Prop} (K : Keeps P 0x40 (fun _ => False)) {old : State} {s : State} (hs : P s) :
    P (State.diagFollow old s) := by
  have k0 : Keeps P 0x40 (fun _ => False) := K.sub rfl (fun _ h => h.elim)
  unfold State.diagFollow
  repeat' (first
    | with_reducible assumption
    | with_reducible (first | apply State.setDiag_keeps k0 | apply foldl_keeps | apply foldl_keeps_pair)
    | intro _ _ _ _
    | intro _ _ _
    | intro _ _
    | with_reducible (first | apply ite_keeps | apply ite_keeps_pair)
    | dsimp only
    | split)

/-- Registers `State.follow` may write. -/
def State.follow_offs (o : Nat) : Prop :=
  State.auxChange_offs o ∨ State.bltChange_offs o ∨ State.filterFollow_offs o ∨ State.linkFollow_offs o ∨
    State.loshiftFollow_offs o ∨ State.pairChange_offs o ∨ State.ppsChange_offs o ∨ State.regionFollow_offs o ∨
    State.settle_offs o

theorem State.follow_keeps {P : State → Prop} (K : Keeps P 0x4c302dd70 State.follow_offs) {old : State} {s : State} (off : Nat) (hs : P s) :
    P (State.follow old s off) := by
  have k0 : Keeps P 0x440028570 State.auxChange_offs := K.sub rfl (fun _ h => .inl h)
  have k1 : Keeps P 0x83000800 State.bltChange_offs := K.sub rfl (fun _ h => .inr (.inl h))
  have k2 : Keeps P 0x40 (fun _ => False) := K.sub rfl (fun _ h => h.elim)
  have k3 : Keeps P 0x80000000 State.filterFollow_offs := K.sub rfl (fun _ h => .inr (.inr (.inl h)))
  have k4 : Keeps P 0x4000 State.linkFollow_offs := K.sub rfl (fun _ h => .inr (.inr (.inr (.inl h))))
  have k5 : Keeps P 0x0 State.loshiftFollow_offs := K.sub rfl (fun _ h => .inr (.inr (.inr (.inr (.inl h)))))
  have k6 : Keeps P 0x440004070 State.pairChange_offs := K.sub rfl (fun _ h => .inr (.inr (.inr (.inr (.inr (.inl h))))))
  have k7 : Keeps P 0x1000 State.ppsChange_offs := K.sub rfl (fun _ h => .inr (.inr (.inr (.inr (.inr (.inr (.inl h)))))))
  have k8 : Keeps P 0x0 State.regionFollow_offs := K.sub rfl (fun _ h => .inr (.inr (.inr (.inr (.inr (.inr (.inr (.inl h))))))))
  have k9 : Keeps P 0x440000070 State.settle_offs := K.sub rfl (fun _ h => .inr (.inr (.inr (.inr (.inr (.inr (.inr (.inr (h)))))))))
  unfold State.follow
  repeat' (first
    | with_reducible assumption
    | with_reducible (first | apply State.auxChange_keeps k0 | apply State.bltChange_keeps k1 | apply State.diagFollow_keeps k2 | apply State.filterFollow_keeps k3 | apply State.linkFollow_keeps k4 | apply State.loshiftFollow_keeps k5 | apply State.pairChange_keeps k6 | apply State.ppsChange_keeps k7 | apply State.regionFollow_keeps k8 | apply State.settle_keeps k9)
    | intro _ _ _ _
    | intro _ _ _
    | intro _ _
    | with_reducible (first | apply ite_keeps | apply ite_keeps_pair)
    | dsimp only
    | split)

/-- Registers `State.plainWrite` may write. -/
def State.plainWrite_offs (o : Nat) : Prop :=
  State.follow_offs o ∨ State.storeWord_offs o

theorem State.plainWrite_keeps {P : State → Prop} (K : Keeps P 0x4c302dd70 State.plainWrite_offs) {s : State} (off : Nat) (w : Word) (hs : P s) :
    P (State.plainWrite s off w) := by
  have k0 : Keeps P 0x4c302dd70 State.follow_offs := K.sub rfl (fun _ h => .inl h)
  have k1 : Keeps P 0x0 State.storeWord_offs := K.sub rfl (fun _ h => .inr (h))
  unfold State.plainWrite
  repeat' (first
    | with_reducible assumption
    | with_reducible (first | apply State.follow_keeps k0 | apply State.storeWord_keeps k1)
    | intro _ _ _ _
    | intro _ _ _
    | intro _ _
    | with_reducible (first | apply ite_keeps | apply ite_keeps_pair)
    | dsimp only
    | split)

/-- Registers `State.writeGlb` may write. -/
def State.writeGlb_offs (o : Nat) : Prop :=
  State.storeWord_offs o ∨ State.writeBootCtrl_offs o ∨ State.writeGlbCtrl_offs o ∨ State.writeQspiCmd_offs o

theorem State.writeGlb_keeps {P : State → Prop} (K : Keeps P 0x6cb14eff6 State.writeGlb_offs) {s : State} (off : Nat) (w : Word) (hs : P s) :
    P (State.writeGlb s off w) := by
  have k0 : Keeps P 0x0 State.storeWord_offs := K.sub rfl (fun _ h => .inl h)
  have k1 : Keeps P 0x4 State.writeBootCtrl_offs := K.sub rfl (fun _ h => .inr (.inl h))
  have k2 : Keeps P 0x6c314eff6 State.writeGlbCtrl_offs := K.sub rfl (fun _ h => .inr (.inr (.inl h)))
  have k3 : Keeps P 0x448000010 State.writeQspiCmd_offs := K.sub rfl (fun _ h => .inr (.inr (.inr (h))))
  unfold State.writeGlb
  repeat' (first
    | with_reducible assumption
    | with_reducible (first | apply State.storeWord_keeps k0 | apply State.writeBootCtrl_keeps k1 | apply State.writeGlbCtrl_keeps k2 | apply State.writeQspiCmd_keeps k3)
    | intro _ _ _ _
    | intro _ _ _
    | intro _ _
    | with_reducible (first | apply ite_keeps | apply ite_keeps_pair)
    | dsimp only
    | split)

/-- Registers `State.writeAcr` may write. -/
def State.writeAcr_offs (o : Nat) : Prop :=
  State.feedSetup_offs o ∨ State.storeWord_offs o ∨ State.writeAcrCtrl_offs o ∨ State.writeFuseCtrl_offs o ∨
    State.writeMarchCtrl_offs o

theorem State.writeAcr_keeps {P : State → Prop} (K : Keeps P 0xd00004 State.writeAcr_offs) {s : State} (off : Nat) (w : Word) (hs : P s) :
    P (State.writeAcr s off w) := by
  have k0 : Keeps P 0x0 State.feedSetup_offs := K.sub rfl (fun _ h => .inl h)
  have k1 : Keeps P 0x0 State.storeWord_offs := K.sub rfl (fun _ h => .inr (.inl h))
  have k2 : Keeps P 0x100004 State.writeAcrCtrl_offs := K.sub rfl (fun _ h => .inr (.inr (.inl h)))
  have k3 : Keeps P 0x800000 State.writeFuseCtrl_offs := K.sub rfl (fun _ h => .inr (.inr (.inr (.inl h))))
  have k4 : Keeps P 0x400000 State.writeMarchCtrl_offs := K.sub rfl (fun _ h => .inr (.inr (.inr (.inr (h)))))
  unfold State.writeAcr
  repeat' (first
    | with_reducible assumption
    | with_reducible (first | apply State.feedSetup_keeps k0 | apply State.storeWord_keeps k1 | apply State.writeAcrCtrl_keeps k2 | apply State.writeFuseCtrl_keeps k3 | apply State.writeMarchCtrl_keeps k4)
    | intro _ _ _ _
    | intro _ _ _
    | intro _ _
    | with_reducible (first | apply ite_keeps | apply ite_keeps_pair)
    | dsimp only
    | split)

/-- Registers `State.writeHif` may write. -/
def State.writeHif_offs (o : Nat) : Prop :=
  State.storeWord_offs o ∨ State.writeRingBase_offs o ∨ State.writeRingCtrl_offs o

theorem State.writeHif_keeps {P : State → Prop} (K : Keeps P 0x40000010 State.writeHif_offs) {s : State} (off : Nat) (w : Word) (hs : P s) :
    P (State.writeHif s off w) := by
  have k0 : Keeps P 0x0 State.storeWord_offs := K.sub rfl (fun _ h => .inl h)
  have k1 : Keeps P 0x40000010 (fun _ => False) := K.sub rfl (fun _ h => h.elim)
  have k2 : Keeps P 0x0 State.writeRingBase_offs := K.sub rfl (fun _ h => .inr (.inl h))
  have k3 : Keeps P 0x40000010 State.writeRingCtrl_offs := K.sub rfl (fun _ h => .inr (.inr (h)))
  unfold State.writeHif
  repeat' (first
    | with_reducible assumption
    | with_reducible (first | apply State.storeWord_keeps k0 | apply State.writeMsix_keeps k1 | apply State.writeRingBase_keeps k2 | apply State.writeRingCtrl_keeps k3)
    | intro _ _ _ _
    | intro _ _ _
    | intro _ _
    | with_reducible (first | apply ite_keeps | apply ite_keeps_pair)
    | dsimp only
    | split)

/-- Registers `State.barWrite` may write. -/
def State.barWrite_offs (o : Nat) : Prop :=
  State.hostMem_offs o ∨ State.plainWrite_offs o ∨ State.refData_offs o ∨ State.writeAcr_offs o ∨
    State.writeDmcCfg_offs o ∨ State.writeGlb_offs o ∨ State.writeHif_offs o ∨ State.writeLaserCfg_offs o ∨
    State.writeSafAck_offs o ∨ State.writeSafPinTest_offs o ∨ State.writeTrim_offs o

theorem State.barWrite_keeps {P : State → Prop} (K : Keeps P 0x6dbd6fff6 State.barWrite_offs) {s : State} (off : Nat) (w : Word) (hs : P s) :
    P (State.barWrite s off w) := by
  have k0 : Keeps P 0x4d010c7f4 State.hostMem_offs := K.sub rfl (fun _ h => .inl h)
  have k1 : Keeps P 0x4c302dd70 State.plainWrite_offs := K.sub rfl (fun _ h => .inr (.inl h))
  have k2 : Keeps P 0x93000000 State.refData_offs := K.sub rfl (fun _ h => .inr (.inr (.inl h)))
  have k3 : Keeps P 0xd00004 State.writeAcr_offs := K.sub rfl (fun _ h => .inr (.inr (.inr (.inl h))))
  have k4 : Keeps P 0x2000000 State.writeDmcCfg_offs := K.sub rfl (fun _ h => .inr (.inr (.inr (.inr (.inl h)))))
  have k5 : Keeps P 0x6cb14eff6 State.writeGlb_offs := K.sub rfl (fun _ h => .inr (.inr (.inr (.inr (.inr (.inl h))))))
  have k6 : Keeps P 0x40000010 State.writeHif_offs := K.sub rfl (fun _ h => .inr (.inr (.inr (.inr (.inr (.inr (.inl h)))))))
  have k7 : Keeps P 0x80 State.writeLaserCfg_offs := K.sub rfl (fun _ h => .inr (.inr (.inr (.inr (.inr (.inr (.inr (.inl h))))))))
  have k8 : Keeps P 0x440000070 State.writeSafAck_offs := K.sub rfl (fun _ h => .inr (.inr (.inr (.inr (.inr (.inr (.inr (.inr (.inl h)))))))))
  have k9 : Keeps P 0x440000070 State.writeSafPinTest_offs := K.sub rfl (fun _ h => .inr (.inr (.inr (.inr (.inr (.inr (.inr (.inr (.inr (.inl h))))))))))
  have k10 : Keeps P 0x1000 State.writeTrim_offs := K.sub rfl (fun _ h => .inr (.inr (.inr (.inr (.inr (.inr (.inr (.inr (.inr (.inr (h)))))))))))
  unfold State.barWrite
  repeat' (first
    | with_reducible assumption
    | with_reducible (first | apply State.hostMem_keeps k0 | apply State.plainWrite_keeps k1 | apply State.refData_keeps k2 | apply State.writeAcr_keeps k3 | apply State.writeDmcCfg_keeps k4 | apply State.writeGlb_keeps k5 | apply State.writeHif_keeps k6 | apply State.writeLaserCfg_keeps k7 | apply State.writeSafAck_keeps k8 | apply State.writeSafPinTest_keeps k9 | apply State.writeTrim_keeps k10)
    | intro _ _ _ _
    | intro _ _ _
    | intro _ _
    | with_reducible (first | apply ite_keeps | apply ite_keeps_pair)
    | dsimp only
    | split)

/-- Registers `execRegisterWrite` may write. -/
def execRegisterWrite_offs (o : Nat) : Prop :=
  State.barWrite_offs o

theorem execRegisterWrite_keeps {P : State → Prop} (K : Keeps P 0x6dbd6fff6 execRegisterWrite_offs) {s : State} (off : Nat) (w : Word) (hs : P s) :
    ∃ t, (execRegisterWrite off w s) = .next t ∧ P t := by
  have k0 : Keeps P 0x6dbd6fff6 State.barWrite_offs := K.sub rfl (fun _ h => h)
  refine ⟨_, rfl, ?_⟩
  repeat' (first
    | with_reducible assumption
    | with_reducible (first | apply State.barWrite_keeps k0)
    | intro _ _ _ _
    | intro _ _ _
    | intro _ _
    | with_reducible (first | apply ite_keeps | apply ite_keeps_pair)
    | dsimp only
    | split)

end Sys2Proof.Machine
end

