-- ==== Sys2Proof/Laws/KBoot.lean ====
section
/-!
SUPPORT. What the operations of Sys2Proof.Machine.Boot keep, and the registers they may write.
-/
namespace Sys2Proof.Machine

/-- Registers `State.badWrite` may write. -/
def State.badWrite_offs (o : Nat) : Prop :=
  o = GLB_IMAGE_STATUS.reg

theorem State.badWrite_keeps {P : State → Prop} (K : Keeps P 0x0 State.badWrite_offs) {s : State} (hs : P s) :
    P (State.badWrite s) := by
  have r0 := K.reg (GLB_IMAGE_STATUS.reg) (rfl)
  unfold State.badWrite
  repeat' (first
    | with_reducible assumption
    | with_reducible (first | apply setFld_keeps)
    | with_reducible exact r0
    | intro _ _ _ _
    | intro _ _ _
    | intro _ _
    | with_reducible (first | apply ite_keeps | apply ite_keeps_pair)
    | dsimp only
    | split
    | with_reducible (first | apply r0))

/-- Registers `State.imageWrite` may write. -/
def State.imageWrite_offs (o : Nat) : Prop :=
  State.badWrite_offs o ∨ State.barWrite_offs o

theorem State.imageWrite_keeps {P : State → Prop} (K : Keeps P 0x6dbd6fff6 State.imageWrite_offs) {s : State} (off : Nat) (w : Word) (hs : P s) :
    P (State.imageWrite s off w) := by
  have k0 : Keeps P 0x0 State.badWrite_offs := K.sub rfl (fun _ h => .inl h)
  have k1 : Keeps P 0x6dbd6fff6 State.barWrite_offs := K.sub rfl (fun _ h => .inr (h))
  unfold State.imageWrite
  repeat' (first
    | with_reducible assumption
    | with_reducible (first | apply State.badWrite_keeps k0 | apply State.barWrite_keeps k1)
    | intro _ _ _ _
    | intro _ _ _
    | intro _ _
    | with_reducible (first | apply ite_keeps | apply ite_keeps_pair)
    | dsimp only
    | split)

/-- Registers `State.imagePairs` may write. -/
def State.imagePairs_offs (o : Nat) : Prop :=
  State.imageWrite_offs o

theorem State.imagePairs_keeps {P : State → Prop} (K : Keeps P 0x6dbd6fff6 State.imagePairs_offs) {s : State} (a0 : List Word) (hs : P s) :
    P (State.imagePairs s a0) := by
  have k0 : Keeps P 0x6dbd6fff6 State.imageWrite_offs := K.sub rfl (fun _ h => h)
  induction s, a0 using State.imagePairs.induct with
  | case1 s o v t ih =>
    unfold State.imagePairs
    exact ih (State.imageWrite_keeps k0 _ _ hs)
  | case2 s t h =>
    unfold State.imagePairs
    split
    · exact absurd rfl (h _ _ _)
    · exact hs

/-- Registers `State.imageWords` may write. -/
def State.imageWords_offs (o : Nat) : Prop :=
  State.imageWrite_offs o

theorem State.imageWords_keeps {P : State → Prop} (K : Keeps P 0x6dbd6fff6 State.imageWords_offs) {s : State} (off : Nat) (a0 : List Word) (hs : P s) :
    P (State.imageWords s off a0) := by
  have k0 : Keeps P 0x6dbd6fff6 State.imageWrite_offs := K.sub rfl (fun _ h => h)
  induction a0 generalizing s off with
  | nil =>
    unfold State.imageWords
    repeat' (first
      | with_reducible assumption
      | with_reducible (first | apply State.imageWrite_keeps k0)
      | intro _ _ _ _
      | intro _ _ _
      | intro _ _
      | with_reducible (first | apply ite_keeps | apply ite_keeps_pair)
      | dsimp only
      | split)
  | cons _ _ ih =>
    unfold State.imageWords
    repeat' (first
      | with_reducible assumption
      | with_reducible apply ih
      | with_reducible (first | apply State.imageWrite_keeps k0)
      | intro _ _ _ _
      | intro _ _ _
      | intro _ _
      | with_reducible (first | apply ite_keeps | apply ite_keeps_pair)
      | dsimp only
      | split)

/-- Registers `State.imageRecord` may write. -/
def State.imageRecord_offs (o : Nat) : Prop :=
  o = MLK_EQ_RX.reg ∨ o = MLK_EQ_TX.reg ∨ State.badWrite_offs o ∨ State.imagePairs_offs o ∨ State.imageWords_offs o

theorem State.imageRecord_keeps {P : State → Prop} (K : Keeps P 0x6dbd6fff6 State.imageRecord_offs) {s : State} (type_ : Nat) (ws : List Word) (hs : P s) :
    P (State.imageRecord s type_ ws) := by
  have k0 : Keeps P 0x0 State.badWrite_offs := K.sub rfl (fun _ h => .inr (.inr (.inl h)))
  have k1 : Keeps P 0x6dbd6fff6 State.imagePairs_offs := K.sub rfl (fun _ h => .inr (.inr (.inr (.inl h))))
  have k2 : Keeps P 0x6dbd6fff6 State.imageWords_offs := K.sub rfl (fun _ h => .inr (.inr (.inr (.inr (h)))))
  have r0 := K.reg (MLK_EQ_RX.reg) (.inl rfl)
  have r1 := K.reg (MLK_EQ_TX.reg) (.inr (.inl rfl))
  unfold State.imageRecord
  repeat' (first
    | with_reducible assumption
    | with_reducible (first | apply State.badWrite_keeps k0 | apply State.imagePairs_keeps k1 | apply State.imageWords_keeps k2 | apply setReg_keeps)
    | with_reducible exact r0
    | with_reducible exact r1
    | intro _ _ _ _
    | intro _ _ _
    | intro _ _
    | with_reducible (first | apply ite_keeps | apply ite_keeps_pair)
    | dsimp only
    | split
    | with_reducible (first | apply r0 | apply r1))

/-- Registers `State.imageBody` may write. -/
def State.imageBody_offs (o : Nat) : Prop :=
  State.badWrite_offs o ∨ State.imageRecord_offs o

theorem State.imageBody_keeps {P : State → Prop} (K : Keeps P 0x6dbd6fff6 State.imageBody_offs) {s : State} (a0 : Nat) (a1 : List Byte) (hs : P s) :
    P (State.imageBody s a0 a1) := by
  have k0 : Keeps P 0x0 State.badWrite_offs := K.sub rfl (fun _ h => .inl h)
  have k1 : Keeps P 0x6dbd6fff6 State.imageRecord_offs := K.sub rfl (fun _ h => .inr (h))
  induction a0 generalizing s a1 with
  | zero => exact hs
  | succ n ih =>
    cases a1 with
    | nil => exact hs
    | cons b t =>
      unfold State.imageBody
      repeat' (first
        | with_reducible assumption
        | with_reducible apply ih
        | with_reducible (first | apply State.badWrite_keeps k0 | apply State.imageRecord_keeps k1)
        | intro _ _ _ _
        | intro _ _ _
        | intro _ _
        | with_reducible (first | apply ite_keeps | apply ite_keeps_pair)
        | dsimp only
        | split)

/-- Registers `State.applySlot` may write. -/
def State.applySlot_offs (o : Nat) : Prop :=
  o = GLB_IMAGE_STATUS.reg ∨ State.imageBody_offs o

theorem State.applySlot_keeps {P : State → Prop} (K : Keeps P 0x6dbd6fff6 State.applySlot_offs) {s : State} (k : Nat) (hs : P s) :
    P (State.applySlot s k) := by
  have k0 : Keeps P 0x6dbd6fff6 State.imageBody_offs := K.sub rfl (fun _ h => .inr (h))
  have r0 := K.reg (GLB_IMAGE_STATUS.reg) (.inl rfl)
  unfold State.applySlot
  repeat' (first
    | with_reducible assumption
    | with_reducible (first | apply State.imageBody_keeps k0 | apply setFlag_keeps | apply setFld_keeps)
    | with_reducible exact r0
    | intro _ _ _ _
    | intro _ _ _
    | intro _ _
    | with_reducible (first | apply ite_keeps | apply ite_keeps_pair)
    | dsimp only
    | split
    | with_reducible (first | apply r0))

/-- Registers `State.showSlots` may write. -/
def State.showSlots_offs (o : Nat) : Prop :=
  o = GLB_IMAGE_SEQ0.reg ∨ o = GLB_IMAGE_SEQ1.reg ∨ o = GLB_IMAGE_STATUS.reg

theorem State.showSlots_keeps {P : State → Prop} (K : Keeps P 0x0 State.showSlots_offs) {s : State} (hs : P s) :
    P (State.showSlots s) := by
  have r0 := K.reg (GLB_IMAGE_SEQ0.reg) (.inl rfl)
  have r1 := K.reg (GLB_IMAGE_SEQ1.reg) (.inr (.inl rfl))
  have r2 := K.reg (GLB_IMAGE_STATUS.reg) (.inr (.inr (rfl)))
  unfold State.showSlots
  repeat' (first
    | with_reducible assumption
    | with_reducible (first | apply setFlag_keeps | apply setNat_keeps)
    | with_reducible exact r0
    | with_reducible exact r1
    | with_reducible exact r2
    | intro _ _ _ _
    | intro _ _ _
    | intro _ _
    | with_reducible (first | apply ite_keeps | apply ite_keeps_pair)
    | dsimp only
    | split
    | with_reducible (first | apply r0 | apply r1 | apply r2))

/-- Registers `State.imageLoad` may write. -/
def State.imageLoad_offs (o : Nat) : Prop :=
  o = GLB_IMAGE_STATUS.reg ∨ o = GLB_QSPI_STATUS.reg ∨ State.applySlot_offs o ∨ State.bootEnd_offs o ∨
    State.enterSetup_offs o ∨ State.raiseEvent_offs o ∨ State.showSlots_offs o

theorem State.imageLoad_keeps {P : State → Prop} (K : Keeps P 0x6dbd6fff6 State.imageLoad_offs) {s : State} (flash : Option (Nat × Nat)) (hs : P s) :
    P (State.imageLoad s flash) := by
  have k0 : Keeps P 0x6dbd6fff6 State.applySlot_offs := K.sub rfl (fun _ h => .inr (.inr (.inl h)))
  have k1 : Keeps P 0x0 State.bootEnd_offs := K.sub rfl (fun _ h => .inr (.inr (.inr (.inl h))))
  have k2 : Keeps P 0x4084 State.enterSetup_offs := K.sub rfl (fun _ h => .inr (.inr (.inr (.inr (.inl h)))))
  have k3 : Keeps P 0x440000010 State.raiseEvent_offs := K.sub rfl (fun _ h => .inr (.inr (.inr (.inr (.inr (.inl h))))))
  have k4 : Keeps P 0x0 State.showSlots_offs := K.sub rfl (fun _ h => .inr (.inr (.inr (.inr (.inr (.inr (h)))))))
  have k5 : Keeps P 0x4 (fun _ => False) := K.sub rfl (fun _ h => h.elim)
  have r0 := K.reg (GLB_IMAGE_STATUS.reg) (.inl rfl)
  have r1 := K.reg (GLB_QSPI_STATUS.reg) (.inr (.inl rfl))
  have t2 : ∀ (s : State) v, (v.dev = s.ctl.dev ∨ ¬ s.ctl.dev = .safe) → P s → P (s.putCtl v) := K.upd 2 rfl
  have t27 : ∀ (s : State) v, P s → P (s.putQspi v) := K.upd 27 rfl
  unfold State.imageLoad
  repeat' (first
    | with_reducible assumption
    | with_reducible (first | apply State.applySlot_keeps k0 | apply State.bootEnd_keeps k1 | apply State.enterSetup_keeps k2 | apply State.raiseEvent_keeps k3 | apply State.showSlots_keeps k4 | apply State.toStep_keeps k5 | apply setFlag_keeps | apply setFld_keeps | apply t2 | apply t27)
    | with_reducible exact r0
    | with_reducible exact r1
    | with_reducible exact Or.inl rfl
    | exact Or.inr (by assumption)
    | intro _ _ _ _
    | intro _ _ _
    | intro _ _
    | with_reducible (first | apply ite_keeps | apply ite_keeps_pair)
    | dsimp only
    | split
    | with_reducible (first | apply r0 | apply r1))

/-- Registers `execImageLoad` may write. -/
def execImageLoad_offs (o : Nat) : Prop :=
  State.imageLoad_offs o

theorem execImageLoad_keeps {P : State → Prop} (K : Keeps P 0x6dbd6fff6 execImageLoad_offs) {s : State} (flash : Option (BitVec 16 × Nat)) (hs : P s) :
    ∃ t, (execImageLoad flash s) = .next t ∧ P t := by
  have k0 : Keeps P 0x6dbd6fff6 State.imageLoad_offs := K.sub rfl (fun _ h => h)
  refine ⟨_, rfl, ?_⟩
  repeat' (first
    | with_reducible assumption
    | with_reducible (first | apply State.imageLoad_keeps k0)
    | intro _ _ _ _
    | intro _ _ _
    | intro _ _
    | with_reducible (first | apply ite_keeps | apply ite_keeps_pair)
    | dsimp only
    | split)

/-- Registers `State.bootPortCal` may write. -/
def State.bootPortCal_offs (o : Nat) : Prop :=
  (∃ n, o = PRT_CAL_STATUS.reg n)

theorem State.bootPortCal_keeps {P : State → Prop} (K : Keeps P 0x0 State.bootPortCal_offs) {s : State} (sat : Nat) (n : Nat) (hs : P s) :
    P (State.bootPortCal s sat n) := by
  have r0 := fun n => K.reg (PRT_CAL_STATUS.reg n) (⟨n, rfl⟩)
  unfold State.bootPortCal
  repeat' (first
    | with_reducible assumption
    | with_reducible (first | apply setFlag_keeps | apply setNat_keeps)
    | with_reducible exact r0 _
    | intro _ _ _ _
    | intro _ _ _
    | intro _ _
    | with_reducible (first | apply ite_keeps | apply ite_keeps_pair)
    | dsimp only
    | split
    | with_reducible (first | apply r0))

/-- Registers `State.bootCal` may write. -/
def State.bootCal_offs (o : Nat) : Prop :=
  o = GLB_CAL_APPLY_ROUND_LO.reg ∨ o = GLB_CAL_APPLY_ROUND_LO.reg + 4 ∨ o = GLB_CAL_MISSING.reg ∨
    o = GLB_CAL_STATUS.reg ∨ State.bootPortCal_offs o ∨ State.calResults_offs o ∨ State.raiseEvent_offs o

theorem State.bootCal_keeps {P : State → Prop} (K : Keeps P 0x440000210 State.bootCal_offs) {s : State} (vs : List (Nat × Word)) (sat : Nat) (devSat : Bool) (hs : P s) :
    P (State.bootCal s vs sat devSat) := by
  have k0 : Keeps P 0x0 State.bootPortCal_offs := K.sub rfl (fun _ h => .inr (.inr (.inr (.inr (.inl h)))))
  have k1 : Keeps P 0x0 State.calResults_offs := K.sub rfl (fun _ h => .inr (.inr (.inr (.inr (.inr (.inl h))))))
  have k2 : Keeps P 0x440000010 State.raiseEvent_offs := K.sub rfl (fun _ h => .inr (.inr (.inr (.inr (.inr (.inr (h)))))))
  have k3 : Keeps P 0x200 (fun _ => False) := K.sub rfl (fun _ h => h.elim)
  have r0 := K.reg (GLB_CAL_APPLY_ROUND_LO.reg) (.inl rfl)
  have r1 := K.reg (GLB_CAL_APPLY_ROUND_LO.reg + 4) (.inr (.inl rfl))
  have r2 := K.reg (GLB_CAL_MISSING.reg) (.inr (.inr (.inl rfl)))
  have r3 := K.reg (GLB_CAL_STATUS.reg) (.inr (.inr (.inr (.inl rfl))))
  have t9 : ∀ (s : State) v, P s → P (s.putCal v) := K.upd 9 rfl
  unfold State.bootCal
  repeat' (first
    | with_reducible assumption
    | with_reducible (first | apply State.bootPortCal_keeps k0 | apply State.calResults_keeps k1 | apply State.raiseEvent_keeps k2 | apply State.setCalRun_keeps k3 | apply setFlag_keeps | apply setFld_keeps | apply setNat_keeps | apply setReg64_keeps | apply foldl_keeps | apply foldl_keeps_pair | apply t9)
    | with_reducible exact r0
    | with_reducible exact r1
    | with_reducible exact r2
    | with_reducible exact r3
    | (apply fst_keeps (by assumption))
    | intro _ _ _ _
    | intro _ _ _
    | intro _ _
    | with_reducible (first | apply ite_keeps | apply ite_keeps_pair)
    | dsimp only
    | split
    | with_reducible (first | apply r0 | apply r1 | apply r2 | apply r3))

/-- Registers `State.bootComplete` may write. -/
def State.bootComplete_offs (o : Nat) : Prop :=
  o = GLB_BOOT_STATUS.reg ∨ State.bootEnd_offs o ∨ State.enterSetup_offs o ∨ State.start_offs o

theorem State.bootComplete_keeps {P : State → Prop} (K : Keeps P 0x4c3046ff4 State.bootComplete_offs) {s : State} (hs : P s) :
    P (State.bootComplete s) := by
  have k0 : Keeps P 0x0 State.bootEnd_offs := K.sub rfl (fun _ h => .inr (.inl h))
  have k1 : Keeps P 0x4084 State.enterSetup_offs := K.sub rfl (fun _ h => .inr (.inr (.inl h)))
  have k2 : Keeps P 0x4c3046f74 State.start_offs := K.sub rfl (fun _ h => .inr (.inr (.inr (h))))
  have k3 : Keeps P 0x4 (fun _ => False) := K.sub rfl (fun _ h => h.elim)
  have r0 := K.reg (GLB_BOOT_STATUS.reg) (.inl rfl)
  unfold State.bootComplete
  repeat' (first
    | with_reducible assumption
    | with_reducible (first | apply State.bootEnd_keeps k0 | apply State.enterSetup_keeps k1 | apply State.start_keeps k2 | apply State.toStep_keeps k3 | apply setFlag_keeps)
    | with_reducible exact r0
    | intro _ _ _ _
    | intro _ _ _
    | intro _ _
    | with_reducible (first | apply ite_keeps | apply ite_keeps_pair)
    | dsimp only
    | split
    | with_reducible (first | apply r0))

/-- Registers `execBootCalibration` may write. -/
def execBootCalibration_offs (o : Nat) : Prop :=
  State.bootCal_offs o ∨ State.bootComplete_offs o ∨ State.bootFails_offs o

theorem execBootCalibration_keeps {P : State → Prop} (K : Keeps P 0x4c314eff4 execBootCalibration_offs) {s : State} (values : List (Nat × Word)) (devMissing : BitVec 4) (sat : BitVec 12) (devSat : Bool) (hs : P s) :
    ∃ t, (execBootCalibration values devMissing sat devSat s) = .next t ∧ P t := by
  have k0 : Keeps P 0x440000210 State.bootCal_offs := K.sub rfl (fun _ h => .inl h)
  have k1 : Keeps P 0x4c3046ff4 State.bootComplete_offs := K.sub rfl (fun _ h => .inr (.inl h))
  have k2 : Keeps P 0x4c010c7f4 State.bootFails_offs := K.sub rfl (fun _ h => .inr (.inr (h)))
  refine ⟨_, rfl, ?_⟩
  repeat' (first
    | with_reducible assumption
    | with_reducible (first | apply State.bootCal_keeps k0 | apply State.bootComplete_keeps k1 | apply State.bootFails_keeps k2)
    | intro _ _ _ _
    | intro _ _ _
    | intro _ _
    | with_reducible (first | apply ite_keeps | apply ite_keeps_pair)
    | dsimp only
    | split)

end Sys2Proof.Machine
end

