-- ==== Sys2Proof/Laws/KCalRows.lean ====
section
/-!
SUPPORT. What the operations of Sys2Proof.Machine.CalRows keep, and the registers they may write.
-/
namespace Sys2Proof.Machine

theorem State.sliceRx_keeps {P : State → Prop} (K : Keeps P 0x80040000 (fun _ => False)) {s : State} (n : Nat) (hs : P s) :
    P (State.sliceRx s n) := by
  have k0 : Keeps P 0x80000000 (fun _ => False) := K.sub rfl (fun _ h => h.elim)
  have k1 : Keeps P 0x40000 (fun _ => False) := K.sub rfl (fun _ h => h.elim)
  unfold State.sliceRx
  repeat' (first
    | with_reducible assumption
    | with_reducible (first | apply State.drawFree_keeps k0 | apply State.setPort_keeps k1)
    | intro _ _ _ _
    | intro _ _ _
    | intro _ _
    | with_reducible (first | apply ite_keeps | apply ite_keeps_pair)
    | dsimp only
    | split)

/-- Registers `execCalSlice` may write. -/
def execCalSlice_offs (o : Nat) : Prop :=
  State.calSlice_offs o

theorem execCalSlice_keeps {P : State → Prop} (K : Keeps P 0x80040200 execCalSlice_offs) {s : State} (n : Fin 12) (hs : P s) :
    ∃ t, (execCalSlice n s) = .next t ∧ P t := by
  have k0 : Keeps P 0x200 State.calSlice_offs := K.sub rfl (fun _ h => h)
  have k1 : Keeps P 0x200 (fun _ => False) := K.sub rfl (fun _ h => h.elim)
  have k2 : Keeps P 0x80040000 (fun _ => False) := K.sub rfl (fun _ h => h.elim)
  refine ⟨_, rfl, ?_⟩
  repeat' (first
    | with_reducible assumption
    | with_reducible (first | apply State.calSlice_keeps k0 | apply State.setCalRun_keeps k1 | apply State.sliceRx_keeps k2)
    | intro _ _ _ _
    | intro _ _ _
    | intro _ _
    | with_reducible (first | apply ite_keeps | apply ite_keeps_pair)
    | dsimp only
    | split)

/-- Registers `execCalRunComplete` may write. -/
def execCalRunComplete_offs (o : Nat) : Prop :=
  State.calFinish_offs o

theorem execCalRunComplete_keeps {P : State → Prop} (K : Keeps P 0x440000210 execCalRunComplete_offs) {s : State} (values : List (Nat × Word)) (devMissing : BitVec 4) (sat : BitVec 12) (devSat : Bool) (hs : P s) :
    ∃ t, (execCalRunComplete values devMissing sat devSat s) = .next t ∧ P t := by
  have k0 : Keeps P 0x440000210 State.calFinish_offs := K.sub rfl (fun _ h => h)
  refine ⟨_, rfl, ?_⟩
  repeat' (first
    | with_reducible assumption
    | with_reducible (first | apply State.calFinish_keeps k0)
    | intro _ _ _ _
    | intro _ _ _
    | intro _ _
    | with_reducible (first | apply ite_keeps | apply ite_keeps_pair)
    | dsimp only
    | split)

/-- Registers `execCalTimeout` may write. -/
def execCalTimeout_offs (o : Nat) : Prop :=
  State.calFinish_offs o

theorem execCalTimeout_keeps {P : State → Prop} (K : Keeps P 0x440000210 execCalTimeout_offs) {s : State} (values : List (Nat × Word)) (devMissing : BitVec 4) (sat : BitVec 12) (devSat : Bool) (hs : P s) :
    ∃ t, (execCalTimeout values devMissing sat devSat s) = .next t ∧ P t := by
  have k0 : Keeps P 0x440000210 State.calFinish_offs := K.sub rfl (fun _ h => h)
  refine ⟨_, rfl, ?_⟩
  repeat' (first
    | with_reducible assumption
    | with_reducible (first | apply State.calFinish_keeps k0)
    | intro _ _ _ _
    | intro _ _ _
    | intro _ _
    | with_reducible (first | apply ite_keeps | apply ite_keeps_pair)
    | dsimp only
    | split)

/-- Registers `execHealthBlock` may write. -/
def execHealthBlock_offs (o : Nat) : Prop :=
  State.pushBlock_offs o

theorem execHealthBlock_keeps {P : State → Prop} (K : Keeps P 0x40000010 execHealthBlock_offs) {s : State} (hs : P s) :
    ∃ t, (execHealthBlock s) = .next t ∧ P t := by
  have k0 : Keeps P 0x40000010 State.pushBlock_offs := K.sub rfl (fun _ h => h)
  refine ⟨_, rfl, ?_⟩
  repeat' (first
    | with_reducible assumption
    | with_reducible (first | apply State.pushBlock_keeps k0)
    | intro _ _ _ _
    | intro _ _ _
    | intro _ _
    | with_reducible (first | apply ite_keeps | apply ite_keeps_pair)
    | dsimp only
    | split)

end Sys2Proof.Machine
end

