-- ==== Sys2Proof/Laws/KCoreAlu.lean ====
section
/-!
SUPPORT. What the operations of Sys2Proof.Machine.CoreAlu keep, and the registers they may write.
-/
namespace Sys2Proof.Machine

/-- Registers `execNopInstruction` may write. -/
def execNopInstruction_offs (o : Nat) : Prop :=
  State.issue_offs o

theorem execNopInstruction_keeps {P : State → Prop} (K : Keeps P 0x4c0100014 execNopInstruction_offs) {s : State} (k : Fin 16) (parity : Bool) (hs : P s) :
    ∃ t, (execNopInstruction k parity s) = .next t ∧ P t := by
  have k0 : Keeps P 0x4c0100014 State.issue_offs := K.sub rfl (fun _ h => h)
  refine ⟨_, rfl, ?_⟩
  repeat' (first
    | with_reducible assumption
    | with_reducible (first | apply State.issue_keeps k0)
    | intro _ _ _ _
    | intro _ _ _
    | intro _ _
    | with_reducible (first | apply ite_keeps | apply ite_keeps_pair)
    | dsimp only
    | split)

/-- Registers `execAdd` may write. -/
def execAdd_offs (o : Nat) : Prop :=
  State.issue_offs o

theorem execAdd_keeps {P : State → Prop} (K : Keeps P 0x4c0100014 execAdd_offs) {s : State} (k : Fin 16) (parity : Bool) (hs : P s) :
    ∃ t, (execAdd k parity s) = .next t ∧ P t := by
  have k0 : Keeps P 0x4c0100014 State.issue_offs := K.sub rfl (fun _ h => h)
  refine ⟨_, rfl, ?_⟩
  repeat' (first
    | with_reducible assumption
    | with_reducible (first | apply State.issue_keeps k0)
    | intro _ _ _ _
    | intro _ _ _
    | intro _ _
    | with_reducible (first | apply ite_keeps | apply ite_keeps_pair)
    | dsimp only
    | split)

/-- Registers `execSub` may write. -/
def execSub_offs (o : Nat) : Prop :=
  State.issue_offs o

theorem execSub_keeps {P : State → Prop} (K : Keeps P 0x4c0100014 execSub_offs) {s : State} (k : Fin 16) (parity : Bool) (hs : P s) :
    ∃ t, (execSub k parity s) = .next t ∧ P t := by
  have k0 : Keeps P 0x4c0100014 State.issue_offs := K.sub rfl (fun _ h => h)
  refine ⟨_, rfl, ?_⟩
  repeat' (first
    | with_reducible assumption
    | with_reducible (first | apply State.issue_keeps k0)
    | intro _ _ _ _
    | intro _ _ _
    | intro _ _
    | with_reducible (first | apply ite_keeps | apply ite_keeps_pair)
    | dsimp only
    | split)

/-- Registers `execAdds` may write. -/
def execAdds_offs (o : Nat) : Prop :=
  State.issue_offs o

theorem execAdds_keeps {P : State → Prop} (K : Keeps P 0x4c0100014 execAdds_offs) {s : State} (k : Fin 16) (parity : Bool) (hs : P s) :
    ∃ t, (execAdds k parity s) = .next t ∧ P t := by
  have k0 : Keeps P 0x4c0100014 State.issue_offs := K.sub rfl (fun _ h => h)
  refine ⟨_, rfl, ?_⟩
  repeat' (first
    | with_reducible assumption
    | with_reducible (first | apply State.issue_keeps k0)
    | intro _ _ _ _
    | intro _ _ _
    | intro _ _
    | with_reducible (first | apply ite_keeps | apply ite_keeps_pair)
    | dsimp only
    | split)

/-- Registers `execSubs` may write. -/
def execSubs_offs (o : Nat) : Prop :=
  State.issue_offs o

theorem execSubs_keeps {P : State → Prop} (K : Keeps P 0x4c0100014 execSubs_offs) {s : State} (k : Fin 16) (parity : Bool) (hs : P s) :
    ∃ t, (execSubs k parity s) = .next t ∧ P t := by
  have k0 : Keeps P 0x4c0100014 State.issue_offs := K.sub rfl (fun _ h => h)
  refine ⟨_, rfl, ?_⟩
  repeat' (first
    | with_reducible assumption
    | with_reducible (first | apply State.issue_keeps k0)
    | intro _ _ _ _
    | intro _ _ _
    | intro _ _
    | with_reducible (first | apply ite_keeps | apply ite_keeps_pair)
    | dsimp only
    | split)

/-- Registers `execAnd` may write. -/
def execAnd_offs (o : Nat) : Prop :=
  State.issue_offs o

theorem execAnd_keeps {P : State → Prop} (K : Keeps P 0x4c0100014 execAnd_offs) {s : State} (k : Fin 16) (parity : Bool) (hs : P s) :
    ∃ t, (execAnd k parity s) = .next t ∧ P t := by
  have k0 : Keeps P 0x4c0100014 State.issue_offs := K.sub rfl (fun _ h => h)
  refine ⟨_, rfl, ?_⟩
  repeat' (first
    | with_reducible assumption
    | with_reducible (first | apply State.issue_keeps k0)
    | intro _ _ _ _
    | intro _ _ _
    | intro _ _
    | with_reducible (first | apply ite_keeps | apply ite_keeps_pair)
    | dsimp only
    | split)

/-- Registers `execOr` may write. -/
def execOr_offs (o : Nat) : Prop :=
  State.issue_offs o

theorem execOr_keeps {P : State → Prop} (K : Keeps P 0x4c0100014 execOr_offs) {s : State} (k : Fin 16) (parity : Bool) (hs : P s) :
    ∃ t, (execOr k parity s) = .next t ∧ P t := by
  have k0 : Keeps P 0x4c0100014 State.issue_offs := K.sub rfl (fun _ h => h)
  refine ⟨_, rfl, ?_⟩
  repeat' (first
    | with_reducible assumption
    | with_reducible (first | apply State.issue_keeps k0)
    | intro _ _ _ _
    | intro _ _ _
    | intro _ _
    | with_reducible (first | apply ite_keeps | apply ite_keeps_pair)
    | dsimp only
    | split)

/-- Registers `execXor` may write. -/
def execXor_offs (o : Nat) : Prop :=
  State.issue_offs o

theorem execXor_keeps {P : State → Prop} (K : Keeps P 0x4c0100014 execXor_offs) {s : State} (k : Fin 16) (parity : Bool) (hs : P s) :
    ∃ t, (execXor k parity s) = .next t ∧ P t := by
  have k0 : Keeps P 0x4c0100014 State.issue_offs := K.sub rfl (fun _ h => h)
  refine ⟨_, rfl, ?_⟩
  repeat' (first
    | with_reducible assumption
    | with_reducible (first | apply State.issue_keeps k0)
    | intro _ _ _ _
    | intro _ _ _
    | intro _ _
    | with_reducible (first | apply ite_keeps | apply ite_keeps_pair)
    | dsimp only
    | split)

/-- Registers `execSll` may write. -/
def execSll_offs (o : Nat) : Prop :=
  State.issue_offs o

theorem execSll_keeps {P : State → Prop} (K : Keeps P 0x4c0100014 execSll_offs) {s : State} (k : Fin 16) (parity : Bool) (hs : P s) :
    ∃ t, (execSll k parity s) = .next t ∧ P t := by
  have k0 : Keeps P 0x4c0100014 State.issue_offs := K.sub rfl (fun _ h => h)
  refine ⟨_, rfl, ?_⟩
  repeat' (first
    | with_reducible assumption
    | with_reducible (first | apply State.issue_keeps k0)
    | intro _ _ _ _
    | intro _ _ _
    | intro _ _
    | with_reducible (first | apply ite_keeps | apply ite_keeps_pair)
    | dsimp only
    | split)

/-- Registers `execSrl` may write. -/
def execSrl_offs (o : Nat) : Prop :=
  State.issue_offs o

theorem execSrl_keeps {P : State → Prop} (K : Keeps P 0x4c0100014 execSrl_offs) {s : State} (k : Fin 16) (parity : Bool) (hs : P s) :
    ∃ t, (execSrl k parity s) = .next t ∧ P t := by
  have k0 : Keeps P 0x4c0100014 State.issue_offs := K.sub rfl (fun _ h => h)
  refine ⟨_, rfl, ?_⟩
  repeat' (first
    | with_reducible assumption
    | with_reducible (first | apply State.issue_keeps k0)
    | intro _ _ _ _
    | intro _ _ _
    | intro _ _
    | with_reducible (first | apply ite_keeps | apply ite_keeps_pair)
    | dsimp only
    | split)

/-- Registers `execSra` may write. -/
def execSra_offs (o : Nat) : Prop :=
  State.issue_offs o

theorem execSra_keeps {P : State → Prop} (K : Keeps P 0x4c0100014 execSra_offs) {s : State} (k : Fin 16) (parity : Bool) (hs : P s) :
    ∃ t, (execSra k parity s) = .next t ∧ P t := by
  have k0 : Keeps P 0x4c0100014 State.issue_offs := K.sub rfl (fun _ h => h)
  refine ⟨_, rfl, ?_⟩
  repeat' (first
    | with_reducible assumption
    | with_reducible (first | apply State.issue_keeps k0)
    | intro _ _ _ _
    | intro _ _ _
    | intro _ _
    | with_reducible (first | apply ite_keeps | apply ite_keeps_pair)
    | dsimp only
    | split)

/-- Registers `execMul` may write. -/
def execMul_offs (o : Nat) : Prop :=
  State.issue_offs o

theorem execMul_keeps {P : State → Prop} (K : Keeps P 0x4c0100014 execMul_offs) {s : State} (k : Fin 16) (parity : Bool) (hs : P s) :
    ∃ t, (execMul k parity s) = .next t ∧ P t := by
  have k0 : Keeps P 0x4c0100014 State.issue_offs := K.sub rfl (fun _ h => h)
  refine ⟨_, rfl, ?_⟩
  repeat' (first
    | with_reducible assumption
    | with_reducible (first | apply State.issue_keeps k0)
    | intro _ _ _ _
    | intro _ _ _
    | intro _ _
    | with_reducible (first | apply ite_keeps | apply ite_keeps_pair)
    | dsimp only
    | split)

/-- Registers `execMin` may write. -/
def execMin_offs (o : Nat) : Prop :=
  State.issue_offs o

theorem execMin_keeps {P : State → Prop} (K : Keeps P 0x4c0100014 execMin_offs) {s : State} (k : Fin 16) (parity : Bool) (hs : P s) :
    ∃ t, (execMin k parity s) = .next t ∧ P t := by
  have k0 : Keeps P 0x4c0100014 State.issue_offs := K.sub rfl (fun _ h => h)
  refine ⟨_, rfl, ?_⟩
  repeat' (first
    | with_reducible assumption
    | with_reducible (first | apply State.issue_keeps k0)
    | intro _ _ _ _
    | intro _ _ _
    | intro _ _
    | with_reducible (first | apply ite_keeps | apply ite_keeps_pair)
    | dsimp only
    | split)

/-- Registers `execMax` may write. -/
def execMax_offs (o : Nat) : Prop :=
  State.issue_offs o

theorem execMax_keeps {P : State → Prop} (K : Keeps P 0x4c0100014 execMax_offs) {s : State} (k : Fin 16) (parity : Bool) (hs : P s) :
    ∃ t, (execMax k parity s) = .next t ∧ P t := by
  have k0 : Keeps P 0x4c0100014 State.issue_offs := K.sub rfl (fun _ h => h)
  refine ⟨_, rfl, ?_⟩
  repeat' (first
    | with_reducible assumption
    | with_reducible (first | apply State.issue_keeps k0)
    | intro _ _ _ _
    | intro _ _ _
    | intro _ _
    | with_reducible (first | apply ite_keeps | apply ite_keeps_pair)
    | dsimp only
    | split)

/-- Registers `execAbs` may write. -/
def execAbs_offs (o : Nat) : Prop :=
  State.issue_offs o

theorem execAbs_keeps {P : State → Prop} (K : Keeps P 0x4c0100014 execAbs_offs) {s : State} (k : Fin 16) (parity : Bool) (hs : P s) :
    ∃ t, (execAbs k parity s) = .next t ∧ P t := by
  have k0 : Keeps P 0x4c0100014 State.issue_offs := K.sub rfl (fun _ h => h)
  refine ⟨_, rfl, ?_⟩
  repeat' (first
    | with_reducible assumption
    | with_reducible (first | apply State.issue_keeps k0)
    | intro _ _ _ _
    | intro _ _ _
    | intro _ _
    | with_reducible (first | apply ite_keeps | apply ite_keeps_pair)
    | dsimp only
    | split)

/-- Registers `execExp` may write. -/
def execExp_offs (o : Nat) : Prop :=
  State.issue_offs o

theorem execExp_keeps {P : State → Prop} (K : Keeps P 0x4c0100014 execExp_offs) {s : State} (k : Fin 16) (parity : Bool) (hs : P s) :
    ∃ t, (execExp k parity s) = .next t ∧ P t := by
  have k0 : Keeps P 0x4c0100014 State.issue_offs := K.sub rfl (fun _ h => h)
  refine ⟨_, rfl, ?_⟩
  repeat' (first
    | with_reducible assumption
    | with_reducible (first | apply State.issue_keeps k0)
    | intro _ _ _ _
    | intro _ _ _
    | intro _ _
    | with_reducible (first | apply ite_keeps | apply ite_keeps_pair)
    | dsimp only
    | split)

/-- Registers `execAddi` may write. -/
def execAddi_offs (o : Nat) : Prop :=
  State.issue_offs o

theorem execAddi_keeps {P : State → Prop} (K : Keeps P 0x4c0100014 execAddi_offs) {s : State} (k : Fin 16) (parity : Bool) (hs : P s) :
    ∃ t, (execAddi k parity s) = .next t ∧ P t := by
  have k0 : Keeps P 0x4c0100014 State.issue_offs := K.sub rfl (fun _ h => h)
  refine ⟨_, rfl, ?_⟩
  repeat' (first
    | with_reducible assumption
    | with_reducible (first | apply State.issue_keeps k0)
    | intro _ _ _ _
    | intro _ _ _
    | intro _ _
    | with_reducible (first | apply ite_keeps | apply ite_keeps_pair)
    | dsimp only
    | split)

/-- Registers `execOri` may write. -/
def execOri_offs (o : Nat) : Prop :=
  State.issue_offs o

theorem execOri_keeps {P : State → Prop} (K : Keeps P 0x4c0100014 execOri_offs) {s : State} (k : Fin 16) (parity : Bool) (hs : P s) :
    ∃ t, (execOri k parity s) = .next t ∧ P t := by
  have k0 : Keeps P 0x4c0100014 State.issue_offs := K.sub rfl (fun _ h => h)
  refine ⟨_, rfl, ?_⟩
  repeat' (first
    | with_reducible assumption
    | with_reducible (first | apply State.issue_keeps k0)
    | intro _ _ _ _
    | intro _ _ _
    | intro _ _
    | with_reducible (first | apply ite_keeps | apply ite_keeps_pair)
    | dsimp only
    | split)

/-- Registers `execLui` may write. -/
def execLui_offs (o : Nat) : Prop :=
  State.issue_offs o

theorem execLui_keeps {P : State → Prop} (K : Keeps P 0x4c0100014 execLui_offs) {s : State} (k : Fin 16) (parity : Bool) (hs : P s) :
    ∃ t, (execLui k parity s) = .next t ∧ P t := by
  have k0 : Keeps P 0x4c0100014 State.issue_offs := K.sub rfl (fun _ h => h)
  refine ⟨_, rfl, ?_⟩
  repeat' (first
    | with_reducible assumption
    | with_reducible (first | apply State.issue_keeps k0)
    | intro _ _ _ _
    | intro _ _ _
    | intro _ _
    | with_reducible (first | apply ite_keeps | apply ite_keeps_pair)
    | dsimp only
    | split)

/-- Registers `execShi` may write. -/
def execShi_offs (o : Nat) : Prop :=
  State.issue_offs o

theorem execShi_keeps {P : State → Prop} (K : Keeps P 0x4c0100014 execShi_offs) {s : State} (k : Fin 16) (parity : Bool) (hs : P s) :
    ∃ t, (execShi k parity s) = .next t ∧ P t := by
  have k0 : Keeps P 0x4c0100014 State.issue_offs := K.sub rfl (fun _ h => h)
  refine ⟨_, rfl, ?_⟩
  repeat' (first
    | with_reducible assumption
    | with_reducible (first | apply State.issue_keeps k0)
    | intro _ _ _ _
    | intro _ _ _
    | intro _ _
    | with_reducible (first | apply ite_keeps | apply ite_keeps_pair)
    | dsimp only
    | split)

end Sys2Proof.Machine
end

