-- ==== Sys2Proof/Laws/KCoreMem.lean ====
section
/-!
SUPPORT. What the operations of Sys2Proof.Machine.CoreMem keep, and the registers they may write.
-/
namespace Sys2Proof.Machine

/-- Registers `execLdb` may write. -/
def execLdb_offs (o : Nat) : Prop :=
  State.issueMem_offs o

theorem execLdb_keeps {P : State → Prop} (K : Keeps P 0x4c010c7f4 execLdb_offs) {s : State} (k : Fin 16) (parity : Bool) (ups : Upsets) (hs : P s) :
    ∃ t, (execLdb k parity ups s) = .next t ∧ P t := by
  have k0 : Keeps P 0x4c010c7f4 State.issueMem_offs := K.sub rfl (fun _ h => h)
  refine ⟨_, rfl, ?_⟩
  repeat' (first
    | with_reducible assumption
    | with_reducible (first | apply State.issueMem_keeps k0)
    | intro _ _ _ _
    | intro _ _ _
    | intro _ _
    | with_reducible (first | apply ite_keeps | apply ite_keeps_pair)
    | dsimp only
    | split)

/-- Registers `execLdh` may write. -/
def execLdh_offs (o : Nat) : Prop :=
  State.issueMem_offs o

theorem execLdh_keeps {P : State → Prop} (K : Keeps P 0x4c010c7f4 execLdh_offs) {s : State} (k : Fin 16) (parity : Bool) (ups : Upsets) (hs : P s) :
    ∃ t, (execLdh k parity ups s) = .next t ∧ P t := by
  have k0 : Keeps P 0x4c010c7f4 State.issueMem_offs := K.sub rfl (fun _ h => h)
  refine ⟨_, rfl, ?_⟩
  repeat' (first
    | with_reducible assumption
    | with_reducible (first | apply State.issueMem_keeps k0)
    | intro _ _ _ _
    | intro _ _ _
    | intro _ _
    | with_reducible (first | apply ite_keeps | apply ite_keeps_pair)
    | dsimp only
    | split)

/-- Registers `execLdw` may write. -/
def execLdw_offs (o : Nat) : Prop :=
  State.issueMem_offs o

theorem execLdw_keeps {P : State → Prop} (K : Keeps P 0x4c010c7f4 execLdw_offs) {s : State} (k : Fin 16) (parity : Bool) (ups : Upsets) (hs : P s) :
    ∃ t, (execLdw k parity ups s) = .next t ∧ P t := by
  have k0 : Keeps P 0x4c010c7f4 State.issueMem_offs := K.sub rfl (fun _ h => h)
  refine ⟨_, rfl, ?_⟩
  repeat' (first
    | with_reducible assumption
    | with_reducible (first | apply State.issueMem_keeps k0)
    | intro _ _ _ _
    | intro _ _ _
    | intro _ _
    | with_reducible (first | apply ite_keeps | apply ite_keeps_pair)
    | dsimp only
    | split)

/-- Registers `execLdd` may write. -/
def execLdd_offs (o : Nat) : Prop :=
  State.issueMem_offs o

theorem execLdd_keeps {P : State → Prop} (K : Keeps P 0x4c010c7f4 execLdd_offs) {s : State} (k : Fin 16) (parity : Bool) (ups : Upsets) (hs : P s) :
    ∃ t, (execLdd k parity ups s) = .next t ∧ P t := by
  have k0 : Keeps P 0x4c010c7f4 State.issueMem_offs := K.sub rfl (fun _ h => h)
  refine ⟨_, rfl, ?_⟩
  repeat' (first
    | with_reducible assumption
    | with_reducible (first | apply State.issueMem_keeps k0)
    | intro _ _ _ _
    | intro _ _ _
    | intro _ _
    | with_reducible (first | apply ite_keeps | apply ite_keeps_pair)
    | dsimp only
    | split)

/-- Registers `execStb` may write. -/
def execStb_offs (o : Nat) : Prop :=
  State.issueMem_offs o

theorem execStb_keeps {P : State → Prop} (K : Keeps P 0x4c010c7f4 execStb_offs) {s : State} (k : Fin 16) (parity : Bool) (ups : Upsets) (hs : P s) :
    ∃ t, (execStb k parity ups s) = .next t ∧ P t := by
  have k0 : Keeps P 0x4c010c7f4 State.issueMem_offs := K.sub rfl (fun _ h => h)
  refine ⟨_, rfl, ?_⟩
  repeat' (first
    | with_reducible assumption
    | with_reducible (first | apply State.issueMem_keeps k0)
    | intro _ _ _ _
    | intro _ _ _
    | intro _ _
    | with_reducible (first | apply ite_keeps | apply ite_keeps_pair)
    | dsimp only
    | split)

/-- Registers `execSth` may write. -/
def execSth_offs (o : Nat) : Prop :=
  State.issueMem_offs o

theorem execSth_keeps {P : State → Prop} (K : Keeps P 0x4c010c7f4 execSth_offs) {s : State} (k : Fin 16) (parity : Bool) (ups : Upsets) (hs : P s) :
    ∃ t, (execSth k parity ups s) = .next t ∧ P t := by
  have k0 : Keeps P 0x4c010c7f4 State.issueMem_offs := K.sub rfl (fun _ h => h)
  refine ⟨_, rfl, ?_⟩
  repeat' (first
    | with_reducible assumption
    | with_reducible (first | apply State.issueMem_keeps k0)
    | intro _ _ _ _
    | intro _ _ _
    | intro _ _
    | with_reducible (first | apply ite_keeps | apply ite_keeps_pair)
    | dsimp only
    | split)

/-- Registers `execStw` may write. -/
def execStw_offs (o : Nat) : Prop :=
  State.issue_offs o

theorem execStw_keeps {P : State → Prop} (K : Keeps P 0x4c0100014 execStw_offs) {s : State} (k : Fin 16) (parity : Bool) (hs : P s) :
    ∃ t, (execStw k parity s) = .next t ∧ P t := by
  have k0 : Keeps P 0x4c0100014 State.issue_offs := K.sub rfl (fun _ h => h)
  refine ⟨_, rfl, ?_⟩
  repeat' (first
    | with_reducible assumption
    | with_reducible (first | apply State.issue_keeps k0)
    | intro _ _ _ _
    | intro _ _ _
    | intro _ _
    | with_reducible (first | apply ite_keeps | apply ite_keeps_pair)
    | dsimp only
    | split)

/-- Registers `execStd` may write. -/
def execStd_offs (o : Nat) : Prop :=
  State.issue_offs o

theorem execStd_keeps {P : State → Prop} (K : Keeps P 0x4c0100014 execStd_offs) {s : State} (k : Fin 16) (parity : Bool) (hs : P s) :
    ∃ t, (execStd k parity s) = .next t ∧ P t := by
  have k0 : Keeps P 0x4c0100014 State.issue_offs := K.sub rfl (fun _ h => h)
  refine ⟨_, rfl, ?_⟩
  repeat' (first
    | with_reducible assumption
    | with_reducible (first | apply State.issue_keeps k0)
    | intro _ _ _ _
    | intro _ _ _
    | intro _ _
    | with_reducible (first | apply ite_keeps | apply ite_keeps_pair)
    | dsimp only
    | split)

/-- Registers `execClra` may write. -/
def execClra_offs (o : Nat) : Prop :=
  State.issue_offs o

theorem execClra_keeps {P : State → Prop} (K : Keeps P 0x4c0100014 execClra_offs) {s : State} (k : Fin 16) (parity : Bool) (hs : P s) :
    ∃ t, (execClra k parity s) = .next t ∧ P t := by
  have k0 : Keeps P 0x4c0100014 State.issue_offs := K.sub rfl (fun _ h => h)
  refine ⟨_, rfl, ?_⟩
  repeat' (first
    | with_reducible assumption
    | with_reducible (first | apply State.issue_keeps k0 | apply foldl_keeps | apply foldl_keeps_pair)
    | intro _ _ _ _
    | intro _ _ _
    | intro _ _
    | with_reducible (first | apply ite_keeps | apply ite_keeps_pair)
    | dsimp only
    | split)

/-- Registers `execMta` may write. -/
def execMta_offs (o : Nat) : Prop :=
  State.issue_offs o

theorem execMta_keeps {P : State → Prop} (K : Keeps P 0x4c0100014 execMta_offs) {s : State} (k : Fin 16) (parity : Bool) (hs : P s) :
    ∃ t, (execMta k parity s) = .next t ∧ P t := by
  have k0 : Keeps P 0x4c0100014 State.issue_offs := K.sub rfl (fun _ h => h)
  refine ⟨_, rfl, ?_⟩
  repeat' (first
    | with_reducible assumption
    | with_reducible (first | apply State.issue_keeps k0)
    | intro _ _ _ _
    | intro _ _ _
    | intro _ _
    | with_reducible (first | apply ite_keeps | apply ite_keeps_pair)
    | dsimp only
    | split)

/-- Registers `execAdda` may write. -/
def execAdda_offs (o : Nat) : Prop :=
  State.issue_offs o

theorem execAdda_keeps {P : State → Prop} (K : Keeps P 0x4c0100014 execAdda_offs) {s : State} (k : Fin 16) (parity : Bool) (hs : P s) :
    ∃ t, (execAdda k parity s) = .next t ∧ P t := by
  have k0 : Keeps P 0x4c0100014 State.issue_offs := K.sub rfl (fun _ h => h)
  refine ⟨_, rfl, ?_⟩
  repeat' (first
    | with_reducible assumption
    | with_reducible (first | apply State.issue_keeps k0)
    | intro _ _ _ _
    | intro _ _ _
    | intro _ _
    | with_reducible (first | apply ite_keeps | apply ite_keeps_pair)
    | dsimp only
    | split)

/-- Registers `execMac32` may write. -/
def execMac32_offs (o : Nat) : Prop :=
  State.issue_offs o

theorem execMac32_keeps {P : State → Prop} (K : Keeps P 0x4c0100014 execMac32_offs) {s : State} (k : Fin 16) (parity : Bool) (hs : P s) :
    ∃ t, (execMac32 k parity s) = .next t ∧ P t := by
  have k0 : Keeps P 0x4c0100014 State.issue_offs := K.sub rfl (fun _ h => h)
  refine ⟨_, rfl, ?_⟩
  repeat' (first
    | with_reducible assumption
    | with_reducible (first | apply State.issue_keeps k0)
    | intro _ _ _ _
    | intro _ _ _
    | intro _ _
    | with_reducible (first | apply ite_keeps | apply ite_keeps_pair)
    | dsimp only
    | split)

/-- Registers `execVmac` may write. -/
def execVmac_offs (o : Nat) : Prop :=
  State.issue_offs o

theorem execVmac_keeps {P : State → Prop} (K : Keeps P 0x4c0100014 execVmac_offs) {s : State} (k : Fin 16) (parity : Bool) (hs : P s) :
    ∃ t, (execVmac k parity s) = .next t ∧ P t := by
  have k0 : Keeps P 0x4c0100014 State.issue_offs := K.sub rfl (fun _ h => h)
  refine ⟨_, rfl, ?_⟩
  repeat' (first
    | with_reducible assumption
    | with_reducible (first | apply State.issue_keeps k0)
    | intro _ _ _ _
    | intro _ _ _
    | intro _ _
    | with_reducible (first | apply ite_keeps | apply ite_keeps_pair)
    | dsimp only
    | split)

/-- Registers `execDot4` may write. -/
def execDot4_offs (o : Nat) : Prop :=
  State.issue_offs o

theorem execDot4_keeps {P : State → Prop} (K : Keeps P 0x4c0100014 execDot4_offs) {s : State} (k : Fin 16) (parity : Bool) (hs : P s) :
    ∃ t, (execDot4 k parity s) = .next t ∧ P t := by
  have k0 : Keeps P 0x4c0100014 State.issue_offs := K.sub rfl (fun _ h => h)
  refine ⟨_, rfl, ?_⟩
  repeat' (first
    | with_reducible assumption
    | with_reducible (first | apply State.issue_keeps k0)
    | intro _ _ _ _
    | intro _ _ _
    | intro _ _
    | with_reducible (first | apply ite_keeps | apply ite_keeps_pair)
    | dsimp only
    | split)

/-- Registers `execMva` may write. -/
def execMva_offs (o : Nat) : Prop :=
  State.issue_offs o

theorem execMva_keeps {P : State → Prop} (K : Keeps P 0x4c0100014 execMva_offs) {s : State} (k : Fin 16) (parity : Bool) (hs : P s) :
    ∃ t, (execMva k parity s) = .next t ∧ P t := by
  have k0 : Keeps P 0x4c0100014 State.issue_offs := K.sub rfl (fun _ h => h)
  refine ⟨_, rfl, ?_⟩
  repeat' (first
    | with_reducible assumption
    | with_reducible (first | apply State.issue_keeps k0)
    | intro _ _ _ _
    | intro _ _ _
    | intro _ _
    | with_reducible (first | apply ite_keeps | apply ite_keeps_pair)
    | dsimp only
    | split)

/-- Registers `execMvah` may write. -/
def execMvah_offs (o : Nat) : Prop :=
  State.issue_offs o

theorem execMvah_keeps {P : State → Prop} (K : Keeps P 0x4c0100014 execMvah_offs) {s : State} (k : Fin 16) (parity : Bool) (hs : P s) :
    ∃ t, (execMvah k parity s) = .next t ∧ P t := by
  have k0 : Keeps P 0x4c0100014 State.issue_offs := K.sub rfl (fun _ h => h)
  refine ⟨_, rfl, ?_⟩
  repeat' (first
    | with_reducible assumption
    | with_reducible (first | apply State.issue_keeps k0)
    | intro _ _ _ _
    | intro _ _ _
    | intro _ _
    | with_reducible (first | apply ite_keeps | apply ite_keeps_pair)
    | dsimp only
    | split)

/-- Registers `execVmva` may write. -/
def execVmva_offs (o : Nat) : Prop :=
  State.issue_offs o

theorem execVmva_keeps {P : State → Prop} (K : Keeps P 0x4c0100014 execVmva_offs) {s : State} (k : Fin 16) (parity : Bool) (hs : P s) :
    ∃ t, (execVmva k parity s) = .next t ∧ P t := by
  have k0 : Keeps P 0x4c0100014 State.issue_offs := K.sub rfl (fun _ h => h)
  refine ⟨_, rfl, ?_⟩
  repeat' (first
    | with_reducible assumption
    | with_reducible (first | apply State.issue_keeps k0)
    | intro _ _ _ _
    | intro _ _ _
    | intro _ _
    | with_reducible (first | apply ite_keeps | apply ite_keeps_pair)
    | dsimp only
    | split)

/-- Registers `execExpa` may write. -/
def execExpa_offs (o : Nat) : Prop :=
  State.issue_offs o

theorem execExpa_keeps {P : State → Prop} (K : Keeps P 0x4c0100014 execExpa_offs) {s : State} (k : Fin 16) (parity : Bool) (hs : P s) :
    ∃ t, (execExpa k parity s) = .next t ∧ P t := by
  have k0 : Keeps P 0x4c0100014 State.issue_offs := K.sub rfl (fun _ h => h)
  refine ⟨_, rfl, ?_⟩
  repeat' (first
    | with_reducible assumption
    | with_reducible (first | apply State.issue_keeps k0)
    | intro _ _ _ _
    | intro _ _ _
    | intro _ _
    | with_reducible (first | apply ite_keeps | apply ite_keeps_pair)
    | dsimp only
    | split)

/-- Registers `execMac32m` may write. -/
def execMac32m_offs (o : Nat) : Prop :=
  State.issueMem_offs o

theorem execMac32m_keeps {P : State → Prop} (K : Keeps P 0x4c010c7f4 execMac32m_offs) {s : State} (k : Fin 16) (parity : Bool) (ups : Upsets) (hs : P s) :
    ∃ t, (execMac32m k parity ups s) = .next t ∧ P t := by
  have k0 : Keeps P 0x4c010c7f4 State.issueMem_offs := K.sub rfl (fun _ h => h)
  refine ⟨_, rfl, ?_⟩
  repeat' (first
    | with_reducible assumption
    | with_reducible (first | apply State.issueMem_keeps k0)
    | intro _ _ _ _
    | intro _ _ _
    | intro _ _
    | with_reducible (first | apply ite_keeps | apply ite_keeps_pair)
    | dsimp only
    | split)

/-- Registers `execSq32m` may write. -/
def execSq32m_offs (o : Nat) : Prop :=
  State.issueMem_offs o

theorem execSq32m_keeps {P : State → Prop} (K : Keeps P 0x4c010c7f4 execSq32m_offs) {s : State} (k : Fin 16) (parity : Bool) (ups : Upsets) (hs : P s) :
    ∃ t, (execSq32m k parity ups s) = .next t ∧ P t := by
  have k0 : Keeps P 0x4c010c7f4 State.issueMem_offs := K.sub rfl (fun _ h => h)
  refine ⟨_, rfl, ?_⟩
  repeat' (first
    | with_reducible assumption
    | with_reducible (first | apply State.issueMem_keeps k0)
    | intro _ _ _ _
    | intro _ _ _
    | intro _ _
    | with_reducible (first | apply ite_keeps | apply ite_keeps_pair)
    | dsimp only
    | split)

/-- Registers `execDot4m` may write. -/
def execDot4m_offs (o : Nat) : Prop :=
  State.issueMem_offs o

theorem execDot4m_keeps {P : State → Prop} (K : Keeps P 0x4c010c7f4 execDot4m_offs) {s : State} (k : Fin 16) (parity : Bool) (ups : Upsets) (hs : P s) :
    ∃ t, (execDot4m k parity ups s) = .next t ∧ P t := by
  have k0 : Keeps P 0x4c010c7f4 State.issueMem_offs := K.sub rfl (fun _ h => h)
  refine ⟨_, rfl, ?_⟩
  repeat' (first
    | with_reducible assumption
    | with_reducible (first | apply State.issueMem_keeps k0)
    | intro _ _ _ _
    | intro _ _ _
    | intro _ _
    | with_reducible (first | apply ite_keeps | apply ite_keeps_pair)
    | dsimp only
    | split)

/-- Registers `execSq4m` may write. -/
def execSq4m_offs (o : Nat) : Prop :=
  State.issueMem_offs o

theorem execSq4m_keeps {P : State → Prop} (K : Keeps P 0x4c010c7f4 execSq4m_offs) {s : State} (k : Fin 16) (parity : Bool) (ups : Upsets) (hs : P s) :
    ∃ t, (execSq4m k parity ups s) = .next t ∧ P t := by
  have k0 : Keeps P 0x4c010c7f4 State.issueMem_offs := K.sub rfl (fun _ h => h)
  refine ⟨_, rfl, ?_⟩
  repeat' (first
    | with_reducible assumption
    | with_reducible (first | apply State.issueMem_keeps k0)
    | intro _ _ _ _
    | intro _ _ _
    | intro _ _
    | with_reducible (first | apply ite_keeps | apply ite_keeps_pair)
    | dsimp only
    | split)

/-- Registers `execVmacm` may write. -/
def execVmacm_offs (o : Nat) : Prop :=
  State.issueMem_offs o

theorem execVmacm_keeps {P : State → Prop} (K : Keeps P 0x4c010c7f4 execVmacm_offs) {s : State} (k : Fin 16) (parity : Bool) (ups : Upsets) (hs : P s) :
    ∃ t, (execVmacm k parity ups s) = .next t ∧ P t := by
  have k0 : Keeps P 0x4c010c7f4 State.issueMem_offs := K.sub rfl (fun _ h => h)
  refine ⟨_, rfl, ?_⟩
  repeat' (first
    | with_reducible assumption
    | with_reducible (first | apply State.issueMem_keeps k0)
    | intro _ _ _ _
    | intro _ _ _
    | intro _ _
    | with_reducible (first | apply ite_keeps | apply ite_keeps_pair)
    | dsimp only
    | split)

end Sys2Proof.Machine
end

