-- ==== Sys2Proof/WellFormed.lean ====
section
/-!
DEFINITION. Well-formed commands: operands that the spec's formats can carry (R8, R254, R268, R276, R289, R294, R297, R362).
-/
namespace Sys2Proof

/-- An aligned 32-bit offset within BAR0 (R8, R280). -/
def barWord (off : Nat) : Bool := decide (off < 0x800000) && off % 4 == 0

/-- PARAM_LEN fits its width, and no more words than it names are held (R294). -/
def CmdHdr.wf (h : CmdHdr) : Bool := decide (h.paramLen < 2 ^ 32) && decide (4 * h.params.length ≤ h.paramLen)

/-- A DRAM request is for whole aligned 8-byte words, at most 4 KiB of them (R268, R269). -/
def DramOp.wf (a : Nat) (op : DramOp) : Bool :=
  let n := match op with | .read n => n | .write data => data.length
  a % 8 == 0 && n % 8 == 0 && decide (n ≤ 4096)

/-- The four converters of a port sample together (R96). -/
def RxIn.wf (rx : RxIn) : Bool := rx.xq.length == rx.xi.length && rx.yi.length == rx.xi.length && rx.yq.length == rx.xi.length

/-- A conversion sees at most the sixteen pins AIN0–AIN15 (R335). -/
def AuxMeas.wf (m : AuxMeas) : Bool := decide (m.main.length ≤ 16) && decide (m.lead.length ≤ 16) && decide (m.zero.length ≤ 16)

/-- An identity frame names at most twelve loops between ports (R358, R362). -/
def Identity.wf (i : Identity) : Bool :=
  decide (i.loops.length ≤ 12) && i.loops.all (fun l => decide (l.1 < 12) && decide (l.2.1 < 16) && decide (l.2.2 < 2 ^ 16))

/-- The operands of a command are ones its row can carry. -/
def Instr.wf (i : Instr) : Bool :=
  match i with
  | .powerOn => true
  | .vauxLoss => true
  | .resetRelease => true
  | .vinWarning _ _ => true
  | .vinWarningClear => true
  | .vinUv => true
  | .vinOv => true
  | .railFault _ _ _ => true
  | .thermalShutdown _ => true
  | .perstN => true
  | .hotReset => true
  | .functionLevelReset => true
  | .d3hotEntry => true
  | .d0Return => true
  | .pcieLinkChange _ _ => true
  | .bootFuseLoad _ => true
  | .bootMarch _ => true
  | .imageLoad flash => (match flash with | none => true | some f => decide (0 < f.2))
  | .coolerSettle _ => true
  | .laserLock _ _ => true
  | .laserUnlock _ _ => true
  | .dramTraining _ => true
  | .bootCalibration values _ _ _ => values.all (fun v => barWord v.1)
  | .start => true
  | .stop => true
  | .stopComplete => true
  | .enterSafe => true
  | .softReset => true
  | .bootResume _ => true
  | .qspiRead _ => true
  | .qspiProgram _ => true
  | .qspiErase4k _ => true
  | .qspiErase64k _ => true
  | .qspiReadId _ => true
  | .qspiComplete _ data => decide (data.length ≤ 256)
  | .laserChWrite _ => true
  | .trimWrite _ => true
  | .trimStep => true
  | .fspWrite _ => true
  | .brlRefDataAccess _ => true
  | .startNow _ _ => true
  | .stopNow _ _ => true
  | .marchStart _ => true
  | .marchComplete _ => true
  | .fuseBurn _ => true
  | .fuseBurnComplete => true
  | .safAck _ => true
  | .safPinTest _ => true
  | .pinTestEnd => true
  | .doorbell _ _ descs => decide (descs.length ≤ 4096)
  | .ringCtrlWrite _ _ => true
  | .loWordRead off => barWord off
  | .bar0BadAccess _ => true
  | .hostMemAccess off _ _ => barWord off
  | .bar2Read off _ _ _ => decide (off < 2 ^ 26)
  | .registerWrite off _ => barWord off
  | .nop h => h.wf
  | .cancel h => h.wf
  | .evrMark h => h.wf
  | .stopCommand h => h.wf
  | .lchWrite h => h.wf
  | .lchCommit h => h.wf
  | .lchShadowReset h => h.wf
  | .zoneSet h => h.wf
  | .peSet h => h.wf
  | .portRestore h => h.wf
  | .lfRebase h => h.wf
  | .fltSet h => h.wf
  | .brlSet h => h.wf
  | .refLoad h => h.wf
  | .refLearn h => h.wf
  | .bltSet h => h.wf
  | .trim h => h.wf
  | .trgSet h => h.wf
  | .trgArm h => h.wf
  | .trgDisarm h => h.wf
  | .doutSet h => h.wf
  | .doutClear h => h.wf
  | .acStart h => h.wf
  | .acStop h => h.wf
  | .acConfig h => h.wf
  | .dmcSet h => h.wf
  | .auxSet h => h.wf
  | .cmpSet h => h.wf
  | .calRun h => h.wf
  | .calPin h => h.wf
  | .calRestore h => h.wf
  | .pairSet h => h.wf
  | .failback h => h.wf
  | .roundStart refs => refs.all (fun r => decide (r.2.length ≤ 32768))
  | .turnDue => true
  | .slidTurnLaunch => true
  | .slideLimitExpiry => true
  | .diagTurn => true
  | .diagTurnResults _ => true
  | .tapCheck _ _ _ => true
  | .overpowerTrip => true
  | .pumpGateOpen => true
  | .pumpGateClose => true
  | .pumpOpenShort _ _ => true
  | .pumpLimit _ => true
  | .tecLimit _ _ => true
  | .tecLimitClear _ _ => true
  | .loshiftSettled => true
  | .zoneStep _ _ => true
  | .adcLinkError _ => true
  | .frameComplete _ rx _ => rx.wf
  | .missingRunTimeout _ _ => true
  | .captureReadout _ => true
  | .doutHoldExpiry _ => true
  | .brlTurnComplete _ rx _ => rx.wf
  | .brlFitComplete _ _ => true
  | .beltMapScoreDone _ => true
  | .tinEdge _ _ _ _ _ => true
  | .pairHoldExpiry _ => true
  | .pairOrphan _ => true
  | .gatePinEdge _ _ => true
  | .tinGateClose _ _ => true
  | .ppsEdge _ => true
  | .ppsTimeout => true
  | .blankInputChange _ _ => true
  | .auxPassStart => true
  | .auxConversionComplete m _ => m.wf
  | .hkConversion _ _ => true
  | .refSettled _ => true
  | .katStart _ => true
  | .katResult _ _ => true
  | .calSlice _ => true
  | .calRunComplete values _ _ _ => values.all (fun v => barWord v.1)
  | .calTimeout values _ _ _ => values.all (fun v => barWord v.1)
  | .lockstepMismatch => true
  | .clockFault => true
  | .safetySweep _ _ _ _ => true
  | .scorekeeperToggleLoss => true
  | .pinReadback _ => true
  | .pinRedrive _ => true
  | .alarmHoldExpiry _ => true
  | .evrRecordWrite fail => (match fail with | none => true | some bs => bs.length == 248)
  | .evrOpSave => true
  | .dramRequest req _ => (match req with | none => true | some r => decide (r.2.1 < 2 ^ 33) && r.2.2.wf r.2.1)
  | .bar2Promotion => true
  | .dramRefresh _ _ _ => true
  | .dramRetrain _ _ => true
  | .fspChange => true
  | .selfRefreshEntry => true
  | .selfRefreshExit _ => true
  | .scrubRead a _ _ => decide (a < 2 ^ 33)
  | .blockWrite _ => true
  | .eventHoldoffExpiry _ => true
  | .msixHoldoffExpiry _ => true
  | .msixUnmask _ => true
  | .hostDmaError _ => true
  | .compressComplete _ => true
  | .feedSlotReady _ => true
  | .coreOutBlock _ _ => true
  | .coreDmaComplete _ _ _ _ => true
  | .coreDmaAbandon _ => true
  | .coreStopComplete _ => true
  | .coreWatchdog _ => true
  | .acDmaStarve _ _ => true
  | .nopInstruction _ _ => true
  | .add _ _ => true
  | .sub _ _ => true
  | .adds _ _ => true
  | .subs _ _ => true
  | .and _ _ => true
  | .or _ _ => true
  | .xor _ _ => true
  | .sll _ _ => true
  | .srl _ _ => true
  | .sra _ _ => true
  | .mul _ _ => true
  | .min _ _ => true
  | .max _ _ => true
  | .abs _ _ => true
  | .exp _ _ => true
  | .addi _ _ => true
  | .ori _ _ => true
  | .lui _ _ => true
  | .shi _ _ => true
  | .bcc _ _ => true
  | .jal _ _ => true
  | .jr _ _ => true
  | .repi _ _ => true
  | .repr _ _ => true
  | .waitf _ _ => true
  | .relf _ _ => true
  | .out _ _ => true
  | .waito _ _ => true
  | .dmar _ _ => true
  | .dmaw _ _ => true
  | .waitd _ _ => true
  | .ldb _ _ _ => true
  | .ldh _ _ _ => true
  | .ldw _ _ _ => true
  | .ldd _ _ _ => true
  | .stb _ _ _ => true
  | .sth _ _ _ => true
  | .stw _ _ => true
  | .std _ _ => true
  | .movp _ _ => true
  | .mvp _ _ => true
  | .addp _ _ => true
  | .mts _ _ => true
  | .mfs _ _ => true
  | .sig _ _ => true
  | .halt _ _ => true
  | .clra _ _ => true
  | .mta _ _ => true
  | .adda _ _ => true
  | .mac32 _ _ => true
  | .mac32m _ _ _ => true
  | .sq32m _ _ _ => true
  | .vmac _ _ => true
  | .dot4 _ _ => true
  | .dot4m _ _ _ => true
  | .sq4m _ _ _ => true
  | .vmacm _ _ _ => true
  | .mva _ _ => true
  | .mvah _ _ => true
  | .vmva _ _ => true
  | .expa _ _ => true
  | .heartbeat _ _ _ => true
  | .identity _ _ x => x.wf
  | .faultMessage _ _ _ _ _ => true
  | .mirrorData _ _ _ data => decide (data.length ≤ 112)
  | .laneAlign _ _ => true
  | .laneLoss _ _ => true
  | .partnerClockChange _ => true
  | .laserCurrentFault _ => true
  | .aerError _ => true
  | .badOpcodeCommand _ h => h.wf
  | .reservedOpcode _ _ => true
  | .linkFrameDiscarded _ _ before _ => decide (before.length = 58)
  | .diagWindowExpiry _ => true
  | .referenceUnsettled _ => true
  | .speedValidExpiry _ => true
  | .currentLimit _ => true
  | .currentLimitRetry _ => true
  | .cmpBypass => true
  | .healthBlock => true
  | .pairBlockTimeout => true
  | .heartbeatSend => true
  | .missedHeartbeat => true
  | .mirrorRetransmit => true
  | .mirrorLag => true
  | .armWaitExpiry => true
  | .takeoverRoundStart => true
  | .laserLockTimeout => true
  | .bootCalTimeout => true
  | .deferredTakeoverLaunch => true

end Sys2Proof
end

