-- ==== Sys2Proof/Tests/Slice0.lean ====
section
/-!
SUPPORT. Tests: ill-formed commands that the checks refuse, states that meet the hypotheses of each statement, clause by clause,
and single steps whose outcome the manual gives.
-/
namespace Sys2Proof.Tests

open Sys2Proof.Machine

/-! Helpers. -/

/-- A command descriptor with a tag, a target round and inline bits. -/
def hdr (inline : Nat) (target : Nat := 0) (next : Bool := true) : CmdHdr :=
  { tag := 7, next := next, target := BitVec.ofNat 64 target, paramLen := 0, word8 := 0, inline := BitVec.ofNat 32 inline
    params := [], reserved := false, fetchOk := true }

/-- A device state with nothing else set. -/
def dev (d : DevState) (step : Nat := 7) : State := { State.reset with ctl := { dev := d, bootStep := step, round := 4, nextRound := 5 } }

/-- A device that runs, between round starts. -/
def running : State := { dev .running with sched := { started := true } }

/-- A receiver's answer without light. -/
def dark : RxIn :=
  { xi := [], xq := [], yi := [], yq := [], loX := 0, loY := 0 }

/-- Core 3 of a running device with a word at address 10. -/
def onCore (w : Word) (c : Core := {}) : State := running.setCore 3 { c with st := .running, pc := 10, pmem := [(10, w)] }

/-- A word with an opcode and other bits. -/
def word (op low : Nat) : Word := Word.of (op * 2 ^ 26 + low)

/-! Ill-formed commands: one for each check of WellFormed. -/

theorem test_wf_bar_word : Instr.wf (.loWordRead 2) = false ∧ Instr.wf (.hostMemAccess 0x800000 none []) = false
    ∧ Instr.wf (.registerWrite 0x10001 0) = false := by decide
theorem test_wf_image : Instr.wf (.imageLoad (some (8, 0))) = false := by decide
theorem test_wf_cal : Instr.wf (.bootCalibration [(3, 0)] 0 0 false) = false ∧ Instr.wf (.calRunComplete [(3, 0)] 0 0 false) = false
    ∧ Instr.wf (.calTimeout [(3, 0)] 0 0 false) = false := by decide
theorem test_wf_qspi : ∀ d : List Byte, d.length = 257 → Instr.wf (.qspiComplete false d) = false := by
  intro d h; simp only [Instr.wf, h]; rfl
theorem test_wf_doorbell_count : ∀ d : List Desc, d.length = 4097 → Instr.wf (.doorbell 3 1 d) = false := by
  intro d h; simp only [Instr.wf, h]; rfl
theorem test_wf_bar2 : Instr.wf (.bar2Read (2 ^ 26) 4 false []) = false := by decide
theorem test_wf_hdr : Instr.wf (.nop { hdr 0 with params := [0] }) = false
    ∧ Instr.wf (.badOpcodeCommand 0xFF { hdr 0 with paramLen := 2 ^ 32 }) = false := by decide
theorem test_wf_refs : ∀ ws : List Word, ws.length = 32769 → Instr.wf (.roundStart [(0, ws)]) = false := by
  intro ws h; simp only [Instr.wf, List.all_cons, h]; rfl
theorem test_wf_frame : Instr.wf (.frameComplete 0 { dark with xi := [1] } []) = false
    ∧ Instr.wf (.brlTurnComplete 0 { dark with yq := [1] } false) = false := by decide
theorem test_wf_aux : Instr.wf (.auxConversionComplete { main := List.replicate 17 0, lead := [], zero := [], offset := 0, current := 0
                                                         atCompliance := false, channel := 0, instant := 0 } 0) = false := by decide
theorem test_wf_dram : (∀ d : List Byte, d.length = 4104 → Instr.wf (.dramRequest (some (0, 0, .write d)) []) = false)
    ∧ Instr.wf (.dramRequest (some (0, 2 ^ 33, .read 8)) []) = false ∧ Instr.wf (.dramRequest (some (0, 4, .read 8)) []) = false
    ∧ Instr.wf (.dramRequest (some (0, 0, .read 4)) []) = false ∧ Instr.wf (.scrubRead (2 ^ 33) [] false) = false := by
  refine ⟨fun d h => ?_, by decide, by decide, by decide, by decide⟩
  simp only [Instr.wf, DramOp.wf, h]; rfl
theorem test_wf_record : Instr.wf (.evrRecordWrite (some [0])) = false := by decide
theorem test_wf_link : Instr.wf (.identity 0 0 { part := 0, stepping := 0, chan := 0, roleB := false, loops := [(12, 0, 0)]
                                                 acked := false }) = false
    ∧ Instr.wf (.mirrorData 0 0 0 (List.replicate 113 0)) = false ∧ Instr.wf (.linkFrameDiscarded 0 0 [] []) = false := by decide

/-! States that meet the hypotheses of the statements on the cores. -/

theorem witness_CoreRegisterArithmetic : ∀ op ∈ [1, 2, 5, 6, 7, 8, 9, 10, 11, 12, 13],
    (onCore (word op 0x18C000)).Issues 3 (word op 0x18C000) ∧ (onCore (word op 0x18C000)).SeqInRange 3
      ∧ zeroR (word op 0x18C000) = true ∧ fOp (word op 0x18C000) = op := by decide

theorem witness_CoreSaturatingArithmetic : ∀ op ∈ [3, 4, 14, 15],
    (onCore (word op 0x180000)).Issues 3 (word op 0x180000) ∧ (onCore (word op 0x180000)).SeqInRange 3
      ∧ zeroR (word op 0x180000) = true ∧ fOp (word op 0x180000) = op ∧ fB (word op 0x180000) = 0 := by decide

/-- X6 = 0x00FF0000 has 7 bits below its sign bit that equal it, and bit 23 is the first that does not. -/
theorem witness_CoreSaturatingArithmetic_exp :
    let x : Word := 0x00FF0000
    (∀ i, 31 - 7 ≤ i → i ≤ 31 → x.getLsbD i = x.msb) ∧ x.getLsbD (30 - 7) ≠ x.msb := by
  refine ⟨fun i h1 h2 => ?_, by decide⟩
  have : i = 24 ∨ i = 25 ∨ i = 26 ∨ i = 27 ∨ i = 28 ∨ i = 29 ∨ i = 30 ∨ i = 31 := by omega
  rcases this with h | h | h | h | h | h | h | h <;> subst h <;> decide

theorem witness_CoreImmediates : ∀ p ∈ [(0, 0x3FFFFFF), (0x10, 0x187FFF), (0x11, 0x187FFF), (0x12, 0x2400000), (0x13, 0x18007F)],
    (onCore (word p.1 p.2)).Issues 3 (word p.1 p.2) ∧ (onCore (word p.1 p.2)).SeqInRange 3 ∧ fOp (word p.1 p.2) = p.1
      ∧ (p.1 = 0x12 → fA (word p.1 p.2) = 0) ∧ (p.1 = 0x13 → bitsAt (word p.1 p.2) 17 7 = 0) := by decide

theorem witness_CoreBranchesAndJumps :
    (onCore (word 0x14 0x7FF)).Issues 3 (word 0x14 0x7FF) ∧ zeroB (word 0x14 0x7FF) = true ∧ fD (word 0x14 0x7FF) = 0
      ∧ fD (word 0x14 0x8007FF) = 2 ∧ zeroB (word 0x14 0x8007FF) = true ∧ (onCore (word 0x14 0x8007FF)).SeqInRange 3
      ∧ ((onCore 0).coreAt 3).getX (fA (word 0x14 0x8007FF)) = ((onCore 0).coreAt 3).getX (fB (word 0x14 0x8007FF))
      ∧ fD (word 0x14 0x30007FF) = 0xC ∧ fOp (word 0x15 5) = 0x15 ∧ fD (word 0x15 5) = 0 ∧ fA (word 0x15 5) = 0 ∧ fB (word 0x15 5) = 0
      ∧ zeroB (word 0x15 5) = true ∧ fOp (word 0x16 0x40000) = 0x16 ∧ fEnd (word 0x16 0x40000) = 0 ∧ zeroB (word 0x16 0x40000) = true
      ∧ (((onCore 0 (({} : Core).setX 1 2047)).coreAt 3).getX (fA (word 0x16 0x40000))).toNat = 2047
      ∧ (((onCore 0 (({} : Core).setX 1 2048)).coreAt 3).getX (fA (word 0x16 0x40000))).toNat = 2048 := by decide

/-- A stack of `n` levels whose bodies end at 2000. -/
def levels (n : Nat) : List Level := List.replicate n ⟨5, 2000, 3⟩

theorem witness_CoreRepeats :
    let w (n e : Nat) := word 0x17 (n * 2 ^ 11 + e)
    (onCore (w 16 18)).Issues 3 (w 16 18) ∧ fCount (w 16 18) = 16 ∧ fEnd (w 16 18) = 18 ∧ fOp (w 16 18) = 0x17
      ∧ fCount (w 0 11) = 0 ∧ fEnd (w 0 11) = 11 ∧ fEnd (w 16 10) < 10 + 1
      ∧ fEnd (w 16 2001) = 2001 ∧ (levels 4).length = 4 ∧ (levels 3).length < 4
      ∧ fOp (word 0x18 0x4000B) = 0x18 ∧ fD (word 0x18 0x4000B) = 0 ∧ bitsAt (word 0x18 0x4000B) 17 11 = 0
      ∧ (onCore (word 0 0) { stack := [⟨5, 10, 2⟩] }).Issues 3 (word 0 0)
      ∧ ((onCore (word 0 0) { stack := [⟨5, 10, 1⟩, ⟨4, 11, 2⟩] }).coreAt 3).stack = [⟨5, 10, 1⟩, ⟨4, 11, 2⟩] := by decide

theorem witness_CoreFeedOutputAndTransfers :
    let w (op : Nat) := word op 0x484000
    let at_ (op n : Nat) (r : Core) := (onCore (w op) (r.setX 1 (Word.of n))).setFld (ACR_DRAM.SIZE_MIB 3) 1
    (∀ op ∈ [0x19, 0x1A, 0x1B, 0x1C, 0x1D, 0x1E, 0x1F], (at_ op 8 {}).Issues 3 (w op) ∧ (at_ op 8 {}).SeqInRange 3
        ∧ zeroC (w op) = true ∧ fOp (w op) = op)
      ∧ ((at_ 0x1B 65536 {}).coreAt 3).getX (fB (w 0x1B)) = 65536 ∧ ((at_ 0x1B 65537 {}).coreAt 3).getX (fB (w 0x1B)) = 65537
      ∧ ((at_ 0x1B 8 {}).coreAt 3).getX (fA (w 0x1B)) = 0
      ∧ ((at_ 0x1D 8 {}).coreAt 3).getX (fD (w 0x1D)) = 8 ∧ (at_ 0x1D 8 {}).fld (ACR_DRAM.SIZE_MIB 3) = 1
      ∧ (at_ 0x1D 8 {}).dramDead = false ∧ ((at_ 0x1D 8 {}).setFld DMC_STATUS.STATE 7).dramDead = true
      ∧ ((at_ 0x19 8 { ready := [2] }).coreAt 3).ready = [2] ∧ ((at_ 0x1A 8 { held := [2] }).coreAt 3).held = [2] := by decide

theorem witness_CoreLoads : ∀ op ∈ [0x20, 0x21, 0x22, 0x23],
    (onCore (word op 0x880008)).Issues 3 (word op 0x880008) ∧ (onCore (word op 0x880008)).SeqInRange 3
      ∧ fOp (word op 0x880008) = op ∧ fD (word op 0x880008) % 2 = 0
      ∧ (((onCore 0).coreAt 3).address (fP (word op 0x880008)) (fPost (word op 0x880008)) (fImmS (word op 0x880008))).1 = 8
      ∧ (((onCore 0).coreAt 3).address 1 false (fImmS (word op 0x880009))).1 = 9 := by decide

theorem witness_CoreStores : ∀ op ∈ [0x24, 0x25, 0x26, 0x27],
    (onCore (word op 0x880008)).Issues 3 (word op 0x880008) ∧ (onCore (word op 0x880008)).SeqInRange 3
      ∧ fOp (word op 0x880008) = op ∧ fD (word op 0x880008) % 2 = 0 ∧ fPost (word op 0x8C0008) = true := by decide

theorem witness_CoreScratchpadErrors :
    (∀ op ∈ [0x20, 0x21, 0x22, 0x23, 0x24, 0x25], (onCore (word op 0x880008)).Issues 3 (word op 0x880008)
        ∧ (((onCore 0).coreAt 3).address (fP (word op 0x880008)) (fPost (word op 0x880008)) (fImmS (word op 0x880008))).1 = 8)
      ∧ (∀ op ∈ [0x34, 0x38], aOk true true false true true (word op 0x80200) = true ∧ fA (word op 0x80200) % 2 = 0
        ∧ (onCore (word op 0x80200)).Issues 3 (word op 0x80200))
      ∧ (∀ op ∈ [0x35, 0x39], aOk true false false true true (word op 0x200) = true)
      ∧ aOk false true false true true (word 0x3A 0x80200) = true
      ∧ (((onCore 0).coreAt 3).address (fPa (word 0x34 0x80200)) true 4).1 = 0
      ∧ (onCore 0).fld (ACR_SPM_CFG.CE_THRESH 3) = 16
      ∧ ((onCore 0).setReg (ACR_SPM_CE_COUNT.reg 3) 15).reg (ACR_SPM_CE_COUNT.reg 3) + 1 = 16 := by decide

theorem witness_CorePointersAndSpecials :
    let w (op n : Nat) := word op (n * 2 ^ 16)
    (∀ op ∈ [0x28, 0x29], (onCore (word op 0x880000)).Issues 3 (word op 0x880000) ∧ (onCore (word op 0x880000)).SeqInRange 3
        ∧ bitsAt (word op 0x880000) 18 0 = 0)
      ∧ fPost (word 0x2A 0x80005) = false ∧ fD (word 0x2A 0x80005) = 0
      ∧ (∀ op ∈ [0x2B, 0x2C], ∀ n ∈ [0, 7, 8, 15, 16, 19, 20, 21, 22, 23, 24, 25, 26, 27, 28, 29, 30, 31, 63],
        zeroS (w op n) = true ∧ fS (w op n) = n ∧ fOp (w op n) = op) := by decide

theorem witness_CoreSignalAndHalt : ∀ op ∈ [0x2D, 0x2E],
    (onCore (word op 0x5A)).Issues 3 (word op 0x5A) ∧ zeroC (word op 0x5A) = true ∧ fOp (word op 0x5A) = op
      ∧ (onCore (word op 0x5A)).SeqInRange 3 := by decide

/-- The word with every operand bit set breaks the rule of every instruction that has one. -/
theorem witness_CoreIllegalWords :
    (∀ op ∈ [1, 2, 3, 4, 5, 6, 7, 8, 9, 10, 11, 12, 13, 14, 15, 0x12, 0x13, 0x14, 0x15, 0x16, 0x18, 0x19, 0x1A, 0x1B, 0x1C, 0x1D, 0x1E,
        0x1F, 0x23, 0x27, 0x28, 0x29, 0x2A, 0x2B, 0x2C, 0x2D, 0x2E, 0x2F, 0x30, 0x31, 0x32, 0x33, 0x34, 0x35, 0x36, 0x37, 0x38,
        0x39, 0x3A, 0x3B, 0x3C, 0x3D, 0x3E, 0x3F], fOp (word op 0x3FFFFFF) = op
        ∧ (onCore (word op 0x3FFFFFF)).Issues 3 (word op 0x3FFFFFF))
      ∧ (let w := word 0 0x3FFFFFF
        zeroR w = false ∧ zeroB w = false ∧ zeroC w = false ∧ zeroS w = false ∧ zeroA w = false ∧ fA w = 15 ∧ fB w = 15 ∧ fD w = 15
        ∧ fC w = 3 ∧ fSh w = 3 ∧ fPa w = 7 ∧ bitsAt w 17 7 ≠ 0 ∧ bitsAt w 17 11 ≠ 0 ∧ bitsAt w 18 0 ≠ 0 ∧ bitsAt w 17 16 ≠ 0
        ∧ fEnd w ≠ 0 ∧ fPost w = true) := by decide

/-- An accumulator of 0xFF has 39 bits below its sign bit that equal it. -/
theorem witness_CoreRedundantBits :
    let a : BitVec 48 := 0xFF
    fOp (word 0x3E 0x40000) = 0x3E ∧ aOk true true false false false (word 0x3E 0x40000) = true
      ∧ (∀ i : Fin 48, 47 - 39 ≤ i.val → a.getLsbD i = a.msb) ∧ a.getLsbD (46 - 39) ≠ a.msb
      ∧ (∀ i : Fin 48, (0 : BitVec 48).getLsbD i = (0 : BitVec 48).msb) := by decide

theorem witness_CoreFetchParityAndIdleCores :
    ((onCore 0).core 3).executes = true ∧ (running.core 3).executes = false := by decide


/-- A word of the A format: accumulator, two registers, shift and pointer. -/
def aWord (op c a b sh p : Nat) : Word := word op (c * 2 ^ 24 + a * 2 ^ 18 + b * 2 ^ 14 + sh * 2 ^ 12 + p * 2 ^ 8)

theorem witness_CoreAccumulators :
    (∀ p ∈ [(0x30, 0, 0, 15, 0, 0), (0x31, 3, 2, 0, 0, 0), (0x32, 3, 0, 2, 0, 0), (0x33, 3, 2, 5, 3, 0), (0x34, 3, 2, 0, 3, 7),
        (0x35, 3, 0, 0, 3, 7), (0x36, 0, 2, 4, 3, 0), (0x37, 3, 2, 4, 3, 0), (0x38, 3, 2, 0, 3, 7), (0x39, 3, 0, 0, 3, 7),
        (0x3A, 0, 2, 0, 3, 7)],
      let w := aWord p.1 p.2.1 p.2.2.1 p.2.2.2.1 p.2.2.2.2.1 p.2.2.2.2.2
      (onCore w).Issues 3 w ∧ (onCore w).SeqInRange 3)
      ∧ aOk false false true false false (aWord 0x30 0 0 15 0 0) = true ∧ aOk true true false false false (aWord 0x31 3 2 0 0 0) = true
      ∧ aOk true false true false false (aWord 0x32 3 0 2 0 0) = true ∧ bitsAt (aWord 0x32 3 0 2 0 0) 17 16 = 0
      ∧ aOk true true true true false (aWord 0x33 3 2 5 3 0) = true ∧ aOk true true false true true (aWord 0x34 3 2 0 3 7) = true
      ∧ aOk true false false true true (aWord 0x35 3 0 0 3 7) = true ∧ aOk false true true true false (aWord 0x36 0 2 4 3 0) = true
      ∧ fA (aWord 0x36 0 2 4 3 0) = 2 ∧ fB (aWord 0x36 0 2 4 3 0) = 4
      ∧ aOk true true true true false (aWord 0x37 3 2 4 3 0) = true ∧ aOk true true false true true (aWord 0x38 3 2 0 3 7) = true
      ∧ aOk true false false true true (aWord 0x39 3 0 0 3 7) = true ∧ aOk false true false true true (aWord 0x3A 0 2 0 3 7) = true
      ∧ ((onCore 0).coreAt 3).circ 0 (((onCore 0).coreAt 3).getP 0).toNat = 0
      ∧ (let c := (onCore 0 (({} : Core).setP 0 2)).coreAt 3; c.circ 0 (c.getP 0).toNat = 2) := by decide

theorem witness_CoreMovesOut :
    (∀ p ∈ [(0x3B, 3, 2, 0, 0, 0), (0x3C, 3, 2, 0, 0, 0), (0x3D, 0, 2, 0, 0, 0)],
      let w := aWord p.1 p.2.1 p.2.2.1 p.2.2.2.1 p.2.2.2.2.1 p.2.2.2.2.2
      (onCore w).Issues 3 w ∧ (onCore w).SeqInRange 3)
      ∧ aOk true true false false false (aWord 0x3B 3 2 0 0 0) = true ∧ aOk true true false false false (aWord 0x3C 3 2 0 0 0) = true
      ∧ aOk false true false false false (aWord 0x3D 0 2 0 0 0) = true ∧ fA (aWord 0x3D 0 2 0 0 0) = 2 := by decide

/-! States that meet the hypotheses of the other statements. -/

/-- A command descriptor with FLAGS.NEXT, tag 7 and OWN, of opcode 0 (R294). -/
def cmdDesc : Desc := { w0 := 0x00070100, w7 := 0x80000000 }

/-- Ring 0 enabled, with one command posted, in a device that runs. -/
def fed : State :=
  { running.setFlag (HIF_RING_CTRL.EN 0) true with
    hif := { rings := [(0, { posted := [cmdDesc] })] } }

/-- A descriptor of another opcode and inline word. -/
def descOf (op : Nat) (inline : Nat := 0) : Desc := { cmdDesc with w0 := Word.of (0x00070100 + op), w6 := Word.of inline }

/-- A command in progress with a tag. -/
def cmdOf (op tag round : Nat) : PendCmd := { opcode := op, hdr := { hdr 0 with tag := BitVec.ofNat 16 tag }, index := 0, round := round }

theorem witness_StepTakesTheFront : ({ State.reset with pending := [.start] } : State).pending = .start :: [] := rfl

theorem witness_DeviceTime :
    State.reset.pending = [] ∧ State.reset.supply.vauxUp = true
      ∧ ({ State.reset with supply := { vauxUp := false } } : State).supply.vauxUp = false
      ∧ exec .d3hotEntry State.reset = .next { State.reset with hif := { d3hot := true } } := ⟨rfl, rfl, rfl, rfl⟩

theorem witness_StepKeepsCanonicalForm :
    running.Canonical ∧ step { running with pending := [.d3hotEntry] } = .next { running with hif := { d3hot := true } } :=
  ⟨by decide, rfl⟩

theorem witness_OnlyResetLeavesSafe :
    (dev .safe).ctl.dev = .safe ∧ exec .enterSafe (dev .safe) = .next (dev .safe) := ⟨rfl, rfl⟩

theorem witness_FlashAndFusesChangeOnlyByTheirOperations :
    exec .d3hotEntry running = .next { running with hif := { d3hot := true } } ∧ Instr.d3hotEntry ≠ .fuseBurnComplete :=
  ⟨rfl, by decide⟩

theorem witness_HostAndCores :
    let m := running.setFlag ACR_MARCH_STATUS.BUSY true
    let q := m.setFlag (ACR_SPM_STATUS.MARCH_BUSY 3) true
    let start := (ACR_CTRL.START_NOW 3).put 0 1
    let stop := (ACR_CTRL.STOP_NOW 3).put 0 1
    let burn := ACR_FUSE_CTRL.KEY.put (ACR_FUSE_CTRL.BURN.put 3 1) 0xA7
    let c := running.core 15
    (dev .setup).ctl.dev = .setup ∧ ((dev .setup).core 3).st = .stopped
      ∧ (((dev .setup).setCore 3 { st := .faulted }).core 3).st = .faulted
      ∧ (dev .setup).flag (ACR_SPM_STATUS.MARCH_BUSY 3) = false ∧ (dev .setup).flag (ACR_SPM_STATUS.SPM_FAIL 3) = false
      ∧ (ACR_CTRL.START_NOW 3).get start = 1 ∧ (ACR_CTRL.STOP_NOW 3).get start = 0
      ∧ (ACR_CTRL.START_NOW 3).get stop = 0 ∧ (ACR_CTRL.STOP_NOW 3).get stop = 1
      ∧ (((dev .setup).setCore 3 { st := .waiting }).core 3).st = .waiting
      ∧ (((dev .setup).setCore 3 { st := .running }).core 3).stopping = none
      ∧ ACR_MARCH_CTRL.START.get (ACR_MARCH_CTRL.START.put 0xFFFF 1) = 1 ∧ running.ctl.dev ≠ .boot
      ∧ running.flag ACR_MARCH_STATUS.BUSY = false ∧ m.flag ACR_MARCH_STATUS.BUSY = true
      ∧ q.flag (ACR_SPM_STATUS.MARCH_BUSY 3) = true ∧ q.flag (ACR_SPM_STATUS.MARCH_BUSY 4) = false
      ∧ ACR_FUSE_CTRL.BURN.get burn = 1 ∧ ACR_FUSE_CTRL.KEY.get burn = 0xA7 ∧ (dev .setup).burn = none
      ∧ ({ dev .setup with burn := some 15 } : State).burn = some 15
      ∧ coreWindow 0x160000 = some (0, false, 0) ∧ coreWindow 0x17FFFC = some (15, false, 0x1FFC)
      ∧ coreWindow 0x400000 = some (0, true, 0) ∧ coreWindow 0x7FFFFC = some (15, true, 0x3FFFC)
      ∧ c.idle = true ∧ ((onCore 0).core 3).idle = false ∧ q.marchBusy 3 = true ∧ running.marchBusy 15 = false
      ∧ (c.upset []).findings 0x3FFFC 4 = [] ∧ (c.upset [(0x3FFFC, 1)]).findings 0x3FFFC 4 = [(0x3FFFC, false)]
      ∧ (c.upset [(0x3FFFC, 5)]).findings 0x3FFFC 4 = [(0x3FFFC, true)] ∧ (c.upset [(0x3FFFC, 5)]).findings 0x3FFF8 4 = [] := by decide

/-- Core 3 running with what the events of the statement find. -/
def busy : Core :=
  { st := .running, staging := [[1, 2]], outQ := [⟨0, 8, 0, true⟩], dmaQ := [⟨true, 0, 0, 8⟩] }

theorem witness_CoreEvents :
    let s := (running.setCore 3 busy).setFld (ACR_SLOT_INFO.SLOTS_USED 3) 4
    let out (b : OutBlk) := running.setCore 3 { busy with staging := [], outQ := [b], dmaQ := [] }
    let xfer (write : Bool) := running.setCore 3 { busy with staging := [], dmaQ := [⟨write, 0, 0, 8⟩] }
    let serves := (running.setFld DMC_STATUS.STATE dmcReady).setFlag DMC_STATUS.INIT_DONE true
    (s.core 3).staging = [[1, 2]] ∧ (s.core 3).live = true
      ∧ (s.core 3).ready.length + (s.core 3).held.length < s.fld (ACR_SLOT_INFO.SLOTS_USED 3)
      ∧ ((out ⟨0, 8, 0, true⟩).core 3).outQ = [⟨0, 8, 0, true⟩] ∧ ((out ⟨0, 8, 0, false⟩).core 3).outQ = [⟨0, 8, 0, false⟩]
      ∧ (out ⟨0, 8, 0, true⟩).feedDue 3 = false ∧ ((out ⟨0, 8, 0, true⟩).core 3).dmaQ = []
      ∧ ((out ⟨0, 8, 0, true⟩).core 3).findings 0 8 = []
      ∧ (4, true) ∈ (((out ⟨0, 8, 0, true⟩).core 3).upset [(7, 3)]).findings 0 8
      ∧ running.hif.d3hot = false ∧ (running.setFlag CMP_CFG.EN false).flag CMP_CFG.EN = false
      ∧ running.outBytes + 1000 ≤ outCapacity ∧ serves.dramServes = true
      ∧ ((xfer true).core 3).dmaQ = [⟨true, 0, 0, 8⟩] ∧ ((xfer false).core 3).dmaQ = [⟨false, 0, 0, 8⟩] ∧ (xfer true).feedDue 3 = false
      ∧ ((xfer true).core 3).findings 0 8 = [] ∧ (0, true) ∈ (((xfer true).core 3).upset [(0, 3)]).findings 0 8
      ∧ running.dmc.findings 0 8 = [] ∧ (∃ e ∈ (running.dramUpset [(0, 3)]).dmc.findings 0 8, 1 < weight e.2)
      ∧ ((s.setCore 3 { busy with stopping := some 1 }).core 3).stopping.isSome = true
      ∧ (({ busy with stopping := some 5, outQ := [], dmaQ := [] } : Core).stopping = some 5)
      ∧ (s.core 3).wait ≠ 1 ∧ (s.setFld (ACR_WDOG.WDOG_US 3) 1).fld (ACR_WDOG.WDOG_US 3) ≠ 0
      ∧ (s.core 3).executes = true ∧ s.dmaWork 3 = true ∧ s.dmaWork 4 = false
      ∧ (s.setFld (ACR_SPM_CFG.STARVE_LIMIT 3) 5).fld (ACR_SPM_CFG.STARVE_LIMIT 3) = 5 := by decide

theorem witness_RoundCommandsAreAccepted :
    let h := cmdDesc.cmd [] true
    fed.fetches = true ∧ (fed.ring 0).posted = [cmdDesc] ∧ cmdDesc.own = true ∧ cmdDesc.opcode = opNop ∧ (descOf opStop).opcode = opStop
      ∧ fed.cmdTarget h = .inl 6 ∧ fed.ctl.stopPending = false
      ∧ fed.formatCheck opNop h = none ∧ fed.formatCheck opStop h = none ∧ fed.formatCheck opTrgArm ((descOf opTrgArm 15).cmd [] true) = none
      ∧ fed.formatCheck opCalRun h = none ∧ fed.formatCheck opFailback h = none ∧ fed.formatCheck opLchCommit h = none := by decide

theorem witness_CommandsActOrAreRejected :
    let of_ (op inline : Nat) := (descOf op inline).cmd [] true
    fed.formatCheck opCancel (of_ opCancel 7) = none ∧ (of_ opCancel 7).inl % 2 ^ 16 = 7
      ∧ takeTag 7 [cmdOf 0 7 6] = some (cmdOf 0 7 6, []) ∧ takeTag 8 [cmdOf 0 7 6] = none
      ∧ fed.formatCheck opEvrMark (of_ opEvrMark 5) = none ∧ fed.recEnabled 8 = true ∧ fed.evr.queue.length < 16
      ∧ fed.formatCheck opLchShadowReset (of_ opLchShadowReset 0) = none
      ∧ (descOf 0xFF).opcode = 0xFF ∧ opAll.contains 0xFF = false
      ∧ fed.formatCheck opNop (of_ opNop 1) ≠ none
      ∧ fed.cmdTarget (({ cmdDesc with w0 := 0x00070000, w4 := 5 } : Desc).cmd [] true) = .inr { code := resLate }
      ∧ opImmediate.contains opNop = false
      ∧ ({ fed with ctl := { fed.ctl with stopPending := true } } : State).ctl.stopPending = true
      ∧ cmdDesc.spells opStop (cmdDesc.cmd [] true) = false ∧ cmdDesc.spells opNop (hdr 5) = false := by decide

/-- R294: bytes 0 to 31 of a descriptor on ring 0 with OPCODE 0x2D, FLAGS.NEXT, TAG 0x1234, PARAM_LEN 8, PARAM_ADDR 0x1_0000_0040,
TARGET 7, INLINE 0xA5 and OWN set spell that command with those fields. -/
theorem test_descriptor_words :
    let d : Desc := { w0 := 0x1234012D, w1 := 8, w2 := 0x40, w3 := 1, w4 := 7, w5 := 0, w6 := 0xA5, w7 := 0x80000000 }
    d.own = true ∧ d.spells 0x2D { tag := 0x1234, next := true, target := 7, paramLen := 8, word8 := 0x100000040, inline := 0xA5
                                   params := [1, 2], reserved := false, fetchOk := true } = true := by decide

/-! Time, inputs, auxiliary channels and calibration. -/

theorem witness_TimeBase :
    let held := { dev .setup with tmb := { last := some 0, good := 2 } }
    (dev .setup).isSetup = true ∧ trimInRange (TMB_TRIM.TRIM.put 0 5000000) = true ∧ trimInRange (TMB_TRIM.TRIM.put 0 5000001) = false
      ∧ (dev .setup).fld TMB_PPS_STATUS.STATE = 0 ∧ ((dev .setup).setFld TMB_PPS_STATUS.STATE 1).fld TMB_PPS_STATUS.STATE ≠ 0
      ∧ running.isSetup = false ∧ TMB_TRIM.TRIM.get (TMB_TRIM.TRIM.put 0 1) ≠ running.fld TMB_TRIM.TRIM
      ∧ -8000000 ≤ (dev .setup).tmb.target ∧ (dev .setup).tmb.target ≤ 8000000
      ∧ ((dev .setup).setFlag TMB_PPS_CFG.EN false).flag TMB_PPS_CFG.EN = false
      ∧ (held.setFlag TMB_PPS_CFG.EN true).flag TMB_PPS_CFG.EN = true
      ∧ ((400000000 * 256 + 0 : Nat) - 0 - (400000000 * 256 : Nat) : Int).natAbs ≤ 4000 * 256
      ∧ held.tmb.last = some 0 ∧ 2 ≤ held.tmb.good ∧ ¬ 2 ≤ (dev .setup).tmb.good
      ∧ ((dev .setup).setFld TMB_PPS_STATUS.STATE 2).fld TMB_PPS_STATUS.STATE = 2 := by decide

theorem witness_TimingInputs :
    let s := running.setTin 3 { gate := some 0, stamps := [(0, 0), (1, 25600), (2, 51200)] }
    let wait : PairUnit := { starts := [8, 9], stops := [], wait := some (8, 10, 11) }
    let c : MapClose := { openRound := 0, closeRound := 1, revs := 1, cut := false, timeout := false, mapB := true, regs := [] }
    running.flag (BLT_TIN_CFG.EN 3) = false ∧ (running.setFlag (BLT_TIN_CFG.EN 3) true).flag (BLT_TIN_CFG.EN 3) = true
      ∧ running.slopeCounts 3 true = true ∧ running.slopeCounts 3 false = false
      ∧ running.prescale 3 ≤ (running.tin 3).phase + 1 ∧ ¬ (running.setFld (BLT_TIN_CFG.PRESCALE 3) 4).prescale 3 ≤ (running.tin 3).phase + 1
      ∧ (s.tin 3).gate = some 0
      ∧ ((running.setFlag (BLT_TIN_CFG.EN 3) true).setFld (BLT_TIN_GATE.MODE 3) 2).fld (BLT_TIN_GATE.MODE 3) = 2
      ∧ ((running.setPair 2 { starts := [8], stops := [9] }).pair 2).stops = [9]
      ∧ ((running.setPair 2 { starts := [8], stops := [9] }).pair 2).starts = [8]
      ∧ ((running.setPair 2 { starts := [8], stops := [9] }).pair 2).wait = none
      ∧ ((running.setPair 2 wait).pair 2).wait = some (8, 10, 11) ∧ removeFirst 8 wait.starts = [9]
      ∧ running.blt.block = [] ∧ running.flag LCH_ROUND_CFG.MODE = false
      ∧ ((running.setBelt 1 { closing := [c] }).belt 1).closing = [c]
      ∧ running.flag BLT_STATUS.FAILED = false ∧ (running.setFlag BLT_STATUS.FAILED true).flag BLT_STATUS.FAILED = true := by decide

theorem witness_AuxiliaryChannels :
    let s := running.setFlag AUX_SEQ_CFG.EN true
    let b := s.setFlag AUX_STATUS.BUSY true
    let rounds (n : Nat) := (s.setFld AUX_SEQ_CFG.MODE 2).setFld AUX_SEQ_PERIOD.PASS_ROUNDS n
    let m : AuxMeas := { main := [0], lead := [0], zero := [0], offset := 0, current := 0, atCompliance := false, channel := 0
                         instant := 0 }
    let p := { (b.setFlag AUX_BLANK1_CFG.EN true).setFlag AUX_BLANK1_CFG.PAUSE true with
      blanks := [(1, { active := true })], aux := { pauseAt := 5 }, time := 9 }
    s.isRunning = true ∧ s.flag AUX_SEQ_CFG.EN = true ∧ s.fld AUX_SEQ_CFG.MODE ≠ 2
      ∧ (rounds 4).fld AUX_SEQ_CFG.MODE = 2 ∧ (rounds 4).ctl.round % max 1 ((rounds 4).fld AUX_SEQ_PERIOD.PASS_ROUNDS) = 0
      ∧ (rounds 3).ctl.round % max 1 ((rounds 3).fld AUX_SEQ_PERIOD.PASS_ROUNDS) ≠ 0
      ∧ s.flag AUX_STATUS.BUSY = false ∧ s.auxPaused = false ∧ b.flag AUX_STATUS.BUSY = true
      ∧ p.auxPaused = true ∧ (∀ a ∈ b.auxStarts b.aux.cfg 0 m, a < 2 ^ 40) ∧ b.auxStarts b.aux.cfg 0 m ≠ []
      ∧ Cfg.fld b.aux.cfg AUX_SEQ_CFG.LAST ≤ b.fld AUX_STATUS.ENTRY
      ∧ (let c := { b with aux := { cfg := [(AUX_SEQ_CFG.reg, AUX_SEQ_CFG.LAST.put 0 5)] } }
        c.fld AUX_STATUS.ENTRY < Cfg.fld c.aux.cfg AUX_SEQ_CFG.LAST)
      ∧ s.supply.inReset = false ∧ s.hkPresent 0x10 = true ∧ s.hkPresent 0x0F = false ∧ s.hkPresent 0x27 = true
      ∧ (s.setFlag AUX_REF_CFG.INT_EN true).flag AUX_REF_CFG.INT_EN = true
      ∧ (s.setFlag AUX_REF_CFG.INT_EN false).flag AUX_REF_CFG.INT_EN = false
      ∧ (s.blank 1).active ≠ true ∧ (s.setFlag AUX_BLANK1_CFG.EN true).blankEn 1 = true
      ∧ (s.setBlank 1 { active := true }).blank 1 = { active := true }
      ∧ bitOf ((s.setFld (TRGU_CFG.INHIBIT 4) 3).fld (TRGU_CFG.INHIBIT 4)) 1 = true
      ∧ ((s.setUnit 4 { st := .armed }).unit 4).st = .armed := by decide

theorem witness_CalibrationAndHealth :
    let run : CalRun := { start := 0 }
    let full : CalRun := { start := 0, slices := (List.range 12).map (·, 512), frames := (List.range 12).map (·, 256)
                           turns := (List.range 12).map (·, 256) }
    let s := { running with cal := { run := some full } }
    let used : CalRun := { start := 0, round := 4, taken := [(11, 2 ^ 20)] }
    (11 < running.ports) ∧ ({ running with cal := { run := some run } } : State).cal.run = some run
      ∧ (if run.round = running.ctl.round then SMap.get (fun _ => 0) run.taken 11 else 0) < running.sliceLimit 11
      ∧ used.round = running.ctl.round ∧ running.sliceLimit 11 ≤ SMap.get (fun _ => 0) used.taken 11
      ∧ s.isRunning = true ∧ s.cal.run = some full ∧ (List.range s.ports).all (s.calPortDone full) = true
      ∧ isCalResult (PRT_CAL_LO_R.reg 0) = true
      ∧ (running.setFlag CMP_HEALTH_CFG.EN true).flag CMP_HEALTH_CFG.EN = true ∧ running.hif.d3hot = false
      ∧ (running.setFlag CMP_CFG.EN false).flag CMP_CFG.EN = false ∧ running.outBytes + 1200 ≤ outCapacity
      ∧ (running.setFlag CMP_HEALTH_CFG.EN false).flag CMP_HEALTH_CFG.EN = false := by decide

/-! The redundant pair. -/

/-- A device whose link is in a state, with the lanes up. -/
def linked (st lanes : Nat) : State :=
  ((running.setFlag MLK_CFG.EN true).setFld MLK_LINK_STATUS.STATE st).setFld MLK_LINK_STATUS.LANES_UP lanes

/-- A heartbeat of a partner in a state. -/
def beat (st : BitVec 3) : Heartbeat :=
  { time := 0, round := 0, state := st, armed := false, tko := false, chan := 20, faults := 0, breaks := 0, dout := 0, alarm := 0
    ack := 0, pimgSeq := 0 }

theorem witness_LinkAndMirror :
    let fresh := { linked 4 1 with mlk := { lanes := [(0, { fresh := true })] } }
    let bad := { linked 4 1 with mlk := { lanes := [(0, { errs := List.range 16 })] } }
    let q : MirrorTx := { seq := 1, dest := 0, data := [], first := 0, sent := 0 }
    (linked 1 0).fld MLK_LINK_STATUS.STATE < 2 ∧ 2 ≤ (linked 2 0).fld MLK_LINK_STATUS.STATE
      ∧ bitOf ((linked 4 1).fld MLK_LINK_STATUS.LANES_UP) 0 = true ∧ bitOf ((linked 4 1).fld MLK_LINK_STATUS.LANES_UP) 1 = false
      ∧ [1024, 1024, 9].take 2 = [1024, 1024] ∧ [1024, 1023].take 2 ≠ [1024, 1024] ∧ [1024].take 2 ≠ [1024, 1024]
      ∧ [false, false, false, false, true].take 4 = [false, false, false, false]
      ∧ [false, false, false].take 4 ≠ [false, false, false, false]
      ∧ (bad.lane 0).bad = true ∧ ((linked 4 1).lane 0).bad = false ∧ ((linked 4 1).lane 0).fresh = false ∧ (fresh.lane 0).fresh = true
      ∧ putBit ((linked 4 1).fld MLK_LINK_STATUS.LANES_UP) 0 false = 0 ∧ putBit ((linked 4 3).fld MLK_LINK_STATUS.LANES_UP) 0 false ≠ 0
      ∧ running.linkRuns = false ∧ (linked 1 0).linkRuns = true ∧ (linked 3 1).fld MLK_LINK_STATUS.STATE = 3
      ∧ (linked 4 1).fld MLK_LINK_STATUS.STATE = 4
      ∧ SMap.get (fun _ => none) (linked 4 1).mlk.rxSeq 2 ≠ some 0
      ∧ ¬ SMap.get (fun _ => none) ({ linked 4 1 with mlk := { rxSeq := [(2, some 7)] } } : State).mlk.rxSeq 2 ≠ some 7
      ∧ ((1 : BitVec 24).toNat + 2 ^ 24 - (linked 4 1).mlk.rx % 2 ^ 24) % 2 ^ 24 = 1
      ∧ ((0 : BitVec 24).toNat + 2 ^ 24 - (linked 4 1).mlk.rx % 2 ^ 24) % 2 ^ 24 = 0
      ∧ ((0x7FFFFF : BitVec 24).toNat + 2 ^ 24 - (linked 4 1).mlk.rx % 2 ^ 24) % 2 ^ 24 = 2 ^ 23 - 1
      ∧ ((0x800000 : BitVec 24).toNat + 2 ^ 24 - (linked 4 1).mlk.rx % 2 ^ 24) % 2 ^ 24 = 2 ^ 23
      ∧ (linked 4 1).mlk.held = [] ∧ (linked 4 1).mlk.tx = []
      ∧ ({ linked 4 1 with mlk := { tx := [q] } } : State).mlk.tx ≠ []
      ∧ (linked 4 1).flag MLK_PAIR_STATUS.MIRROR_LAGGING = false
      ∧ ((linked 4 1).setFlag MLK_PAIR_STATUS.MIRROR_LAGGING true).flag MLK_PAIR_STATUS.MIRROR_LAGGING = true := by decide

/-- A frame's bits fail, and pass, the checks of a lane. -/
theorem witness_LinkAndMirror_frames :
    let before := List.replicate 58 false
    lineCheck before (List.replicate 1024 true) = .stuffError
      ∧ lineCheck before (stuff 0 false (scramble before (List.replicate 64 true)).1) = .crcError := by decide

theorem witness_PartnerHealthAndLoss :
    let armed := (linked 4 1).setFlag MLK_PAIR_STATUS.ARMED true
    let start := running.setFlag MLK_CFG.TKO_AT_START true
    armed.flag MLK_PAIR_STATUS.ARMED = true ∧ armed.fld MLK_LINK_STATUS.STATE = 4 ∧ (linked 3 1).fld MLK_LINK_STATUS.STATE ≠ 4
      ∧ bitOf (armed.fld MLK_LINK_STATUS.LANES_UP) 0 = true ∧ (armed.lane 0).fresh = false
      ∧ SMap.get (fun _ => none) armed.mlk.rxSeq 1 ≠ some 0 ∧ SMap.get (fun _ => none) armed.mlk.rxSeq 3 ≠ some 0
      ∧ (beat 1).state.toNat < 2 ∧ 2 ≤ (beat 2).state.toNat ∧ (linked 4 1).flag MLK_PAIR_STATUS.ARMED = false
      ∧ armed.mlk.pimg.length + 5 ≤ 4096
      ∧ (let s := (armed.setFlag (MLK_LOOP_CFG.EN 3) true); s.flag (MLK_LOOP_CFG.EN 3) = true ∧ 3 < s.ports ∧ s.loopPeer 3 = 0)
      ∧ (linked 4 1).linkRuns = true ∧ running.linkRuns = false
      ∧ 3 ≤ ({ armed with mlk := { missRun := 3 } } : State).mlk.missRun ∧ armed.mlk.missRun < 3
      ∧ start.isRunning = true ∧ start.flag MLK_CFG.TKO_AT_START = true ∧ start.mlk.wasArmed = false
      ∧ running.flag MLK_CFG.TKO_AT_START = false := by decide

/-! Supplies, resets and BOOT. -/

theorem witness_ResetCauses :
    let s := { running with supply := { inReset := true, causeAt := 0 }, time := 4000 }
    running.supply.vauxUp = true ∧ running.supply.inReset = false
      ∧ (s.supply.inReset = true ∧ s.time - s.supply.causeAt ≤ 4000) ∧ (s.reg GLB_RESET_CAUSE.reg).toNat % 16 = 1
      ∧ 2 < ((s.setFld GLB_RESET_CAUSE.CAUSE 6).reg GLB_RESET_CAUSE.reg).toNat % 16
      ∧ running.part.supervises 0x1C 7 = true ∧ running.part.supervises 0x1C 6 = false := by decide

theorem witness_PowerOnAndRelease :
    ({ State.reset with supply := { vauxUp := false } } : State).supply.vauxUp = false
      ∧ ({ State.reset with supply := { inReset := true } } : State).supply.vauxUp = true
      ∧ ({ State.reset with supply := { inReset := true } } : State).supply.inReset = true := by decide

theorem witness_SupplyWarning :
    running.flag PWR_STATUS.VIN_WARN = false ∧ (running.setFlag PWR_STATUS.VIN_WARN true).flag PWR_STATUS.VIN_WARN = true
      ∧ (running.setFlag EVR_CFG.SUPPLY true).flag EVR_CFG.SUPPLY = true ∧ running.evr.queue.length < 16
      ∧ (running.setFlag PWR_CFG.SHED_PUMPS true).flag PWR_CFG.SHED_PUMPS = true
      ∧ (running.setFlag PWR_CFG.SHED_PUMPS false).flag PWR_CFG.SHED_PUMPS = false
      ∧ (dev .setup).ctl.dev = .setup ∧ running.ctl.dev ≠ .setup := by decide

theorem witness_PowerStatesAndLink :
    ({ running with hif := { d3hot := true, vecPend := 4 } } : State).hif.d3hot = true ∧ running.hif.vecHold.getLsbD 2 = false
      ∧ (running.putHif { msix := [(11, 0)] }).vecMasked 2 = false
      ∧ (running.setFlag HIF_SHADOW_BASE_LO.EN true).shadowAddr 31 = some 124 ∧ running.shadowAddr 31 = none := by decide

theorem witness_BootFailures :
    State.reset.atStep 0 = true ∧ (dev .boot 3).atStep 3 = true ∧ (dev .boot 4).atStep 4 = true ∧ (dev .boot 6).atStep 6 = true
      ∧ ((dev .setup 6).setFlag GLB_BOOT_STATUS.RESUMING true).atStep 6 = true ∧ (8 : BitVec 4) ≠ 0 := by decide

theorem witness_BootToImage :
    State.reset.atStep 0 = true ∧ State.reset.evr.queue.length < 16
      ∧ (State.reset.setFlag EVR_CFG.RESET true).flag EVR_CFG.RESET = true
      ∧ (State.reset.setFld GLB_RESET_CAUSE.CAUSE 4).fld GLB_RESET_CAUSE.CAUSE = 4
      ∧ (dev .boot 1).ctl.dev = .boot ∧ (dev .boot 1).supply.inReset = false ∧ (dev .boot 1).ctl.bootStep = 1
      ∧ (State.reset.setFlag ACR_MARCH_BOOT.EN false).flag ACR_MARCH_BOOT.EN = false
      ∧ (State.reset.setFlag ACR_MARCH_BOOT.EN true).flag ACR_MARCH_BOOT.EN = true
      ∧ (dev .boot 2).atStep 2 = true ∧ (dev .boot 2).slotOrder.find? (dev .boot 2).bodyOk = none := by decide

theorem witness_BootAfterImage :
    let resume := GLB_BOOT_CTRL.KEY.put (GLB_BOOT_CTRL.RESUME.put 0 1) 0x6B
    let s := { dev .setup 2 with ctl := { dev := .setup, bootStep := 2, imageNone := true } }
    (dev .boot 3).atStep 3 = true ∧ (dev .boot 5).atStep 5 = true ∧ (dev .boot 5).flag DMC_STATUS.FSP_PENDING = false
      ∧ (dev .boot 6).atStep 6 = true ∧ (dev .boot 6).flag GLB_IMAGE_STATUS.AUTO_START = false
      ∧ ((dev .boot 6).setFlag GLB_IMAGE_STATUS.AUTO_START true).flag GLB_IMAGE_STATUS.AUTO_START = true
      ∧ ((dev .setup 6).setFlag GLB_BOOT_STATUS.RESUMING true).atStep 6 = true
      ∧ GLB_BOOT_CTRL.RESUME.get resume = 1 ∧ GLB_BOOT_CTRL.KEY.get resume = 0x6B ∧ s.ctl.imageNone = true ∧ s.ctl.dev = .setup
      ∧ s.flag GLB_BOOT_STATUS.RESUMING = false ∧ s.ctl.bootStep = 2 := by decide

theorem witness_LaserAndCooler :
    (dev .boot 4).atStep 4 = true ∧ running.atStep 4 = false ∧ running.flag SRC_TEC_STATUS.LIMIT = false
      ∧ (running.setFlag SRC_TEC_STATUS.LIMIT true).flag SRC_TEC_STATUS.LIMIT = true
      ∧ (running.setFlag SRC_LASER_STATUS.LOCKED true).flag SRC_LASER_STATUS.LOCKED = true
      ∧ running.flag SRC_LASER_STATUS.LOCKED = false ∧ running.flag PWR_STATUS.SHED = false
      ∧ (running.setFlag PWR_STATUS.SHED true).flag PWR_STATUS.SHED = true
      ∧ (dev .setup).isSetup = true ∧ SRC_LASER_CFG.CH.get (SRC_LASER_CFG.CH.put 0 48) = 48
      ∧ SRC_LASER_CFG.CH.get (SRC_LASER_CFG.CH.put 0 49) = 49 ∧ running.isSetup = false
      ∧ SRC_LASER_CFG.CH.get (SRC_LASER_CFG.CH.put 0 48) ≠ running.fld SRC_LASER_CFG.CH := by decide

/-! The source, the turns and their frames. -/

/-- A schedule of one Rayleigh turn on port 3, and a slot of a diagnostic turn after it. -/
def scheduled (s : State) : State :=
  ((((((((((s.setFld LCH_TABLE_CFG.TURN_COUNT 2).setFld (LCH_TURN.PORT 0) 3).setFld (LCH_TURN.OFFSET 0) 1000).setFld
    (LCH_PLAN_PROBE.CHIRP_TICKS 0) 400).setFld (LCH_PLAN_PROBE.TONES 0) 1).setFld (LCH_PLAN_POWER.PEAK_MW 0) 100).setFld
    (LCH_PLAN_SPAN.BIN_COUNT 0) 1000).setFld (LCH_PLAN_PROC.GAUGE 0) 2).setFld (LCH_TURN.KIND 1) 2).setFld
    (LCH_TURN.OFFSET 1) 50000).setFld (LCH_TURN.PORT 1) 15

/-- A running device with that schedule. -/
def turning : State := scheduled running

/-- Its turn, and its slot of a diagnostic turn. -/
def portTurn : Entry := { index := 0, port := 3, plan := 0, kind := 0, offset := 1000 }
def diagSlot : Entry := { index := 1, port := 15, plan := 0, kind := 2, offset := 50000 }

/-- A turn of port 3. -/
def turnOf (kind : TurnKind) (round : Nat := 4) : Turn :=
  { port := 3, entry := 0, plan := 0, kind := kind, round := round, launch := 1000, beltPos := 0, peak := 100, energy := 100 }

/-- A bank estimate of 40,000 nJ. -/
def full : Source := { bank8 := 320000 }

theorem witness_TurnFallsDue :
    let limit (s : State) : Nat :=
      let T := s.makeTurn portTurn
      (s.passEntry portTurn).slideLimit T.entry ((T.launch - s.sched.roundStart : Int) * 128 - (T.dur / 2 : Nat)) (T.dur + u40ns)
        (some (T.port, T.planOf.window + T.dur))
    turning.launching = true ∧ turning.sched.sliding = none ∧ turning.dueEntry = some portTurn ∧ portTurn.onPort = true
      ∧ turning.deferred portTurn = false ∧ (turning.makeTurn portTurn).kind = .rayleigh
      ∧ 8 * (turning.makeTurn portTurn).energy ≤ ({ turning with src := full } : State).bankNow8
      ∧ turning.bankNow8 < 8 * (turning.makeTurn portTurn).energy ∧ turning.bankNow8 / 8 < (turning.makeTurn portTurn).energy
      ∧ 0 < limit turning ∧ limit (turning.setFld LCH_SLACK.SLACK 0) = 0
      ∧ (turning.setFld LCH_SLACK.SLACK 0).fld LCH_SLACK.SLACK = 0 := by decide

theorem witness_SlidingTurns :
    let s := { turning with sched := { started := true, sliding := some (turnOf .rayleigh, 900) } }
    let t := { turning.setFlag MLK_PAIR_STATUS.TKO_ACTIVE true with sched := { started := true, srcEnd := 5000 * 128 }, time := 6000 }
    let d := { t.setFlag SRC_DIAG_STATUS.ACTIVE true with
      sched := { started := true, srcEnd := 60000 * 128, nextEntry := 1, diagOwed := true }, time := 60000 }
    s.sched.sliding = some (turnOf .rayleigh, 900) ∧ (turnOf .rayleigh).kind ≠ .diagnostic
      ∧ 8 * (turnOf .rayleigh).energy ≤ ({ s with src := full } : State).bankNow8 ∧ s.bankNow8 / 8 < (turnOf .rayleigh).energy
      ∧ t.launching = true ∧ t.sched.sliding = none ∧ t.dueEntry = some portTurn ∧ t.deferred portTurn = true
      ∧ (t.edges portTurn).2 ≤ t.time ∧ 8 * (t.makeTurn portTurn).energy ≤ ({ t with src := full } : State).bankNow8
      ∧ t.time - 2000 < (t.edges portTurn).2
      ∧ d.dueEntry = some diagSlot ∧ d.deferred diagSlot = true ∧ (d.edges diagSlot).2 ≤ d.time ∧ diagSlot.onPort = false
      ∧ 8 * d.diagEnergy ≤ ({ d with src := full } : State).bankNow8
      ∧ turning.deferred portTurn = false ∧ turning.flag MLK_PAIR_STATUS.TKO_ACTIVE = false := by decide

theorem witness_DiagnosticTurns :
    let s := { turning with sched := { started := true, nextEntry := 1, diagOwed := true } }.setFlag SRC_DIAG_STATUS.ACTIVE true
    let d := { turning with sched := { started := true, diag := some { round := 4, replica := none } } }
    s.launching = true ∧ s.sched.sliding = none ∧ s.dueEntry = some diagSlot ∧ diagSlot.onPort = false ∧ s.deferred diagSlot = false
      ∧ ((turning.setFld (LCH_PLAN_PROBE.CHIRP_TICKS 0) 200).replicaEnergy { round := 4, replica := some 0 }).any
        (fun nj => decide (10 * (4 * nj) ^ 10 < (2 ^ 20) ^ 10)) = true
      ∧ 8 * (500 + (match s.nextReplica with | some (_, r) => r.energy | none => 0)) ≤ ({ s with src := full } : State).bankNow8
      ∧ s.bankNow8 / 8 < 500 ∧ (s.setFld LCH_SLACK.SLACK 0).fld LCH_SLACK.SLACK = 0
      ∧ d.sched.diag = some { round := 4, replica := none } ∧ d.flag PWR_STATUS.SHED = false
      ∧ ¬ (10 * (4 * 500) ^ 10 < 2000 ^ 10 ∨ 10 * 2000 ^ 10 < (4 * 500) ^ 10) ∧ 10 * (4 * 500) ^ 10 < 2518 ^ 10
      ∧ ¬ 10 * (4 * 500) ^ 10 < 2517 ^ 10 ∧ 10 * 1588 ^ 10 < (4 * 500) ^ 10 ∧ ¬ 10 * 1589 ^ 10 < (4 * 500) ^ 10 := by decide

theorem witness_SourceMonitors :
    ({ running with sched := { tap := [turnOf .rayleigh] } } : State).sched.tap = [turnOf .rayleigh]
      ∧ 10 * (4 * (turnOf .rayleigh).energy) ^ 10 < 504 ^ 10 ∧ ¬ 10 * (4 * (turnOf .rayleigh).energy) ^ 10 < 503 ^ 10
      ∧ 10 * 317 ^ 10 < (4 * (turnOf .rayleigh).energy) ^ 10 ∧ ¬ 10 * 318 ^ 10 < (4 * (turnOf .rayleigh).energy) ^ 10
      ∧ running.flag PWR_STATUS.SHED = false ∧ (running.setFlag PWR_STATUS.SHED true).flag PWR_STATUS.SHED = true
      ∧ running.flag SRC_PUMP0_STATUS.OFF = false ∧ running.flag SRC_PUMP1_STATUS.OFF = false
      ∧ 6 / 6 = (1 : Fin 2).val ∧ 11 < running.ports := by decide

theorem witness_GatesAndCodes :
    let s := { running.setFlag SRC_PUMP_CFG.ECO_EN true with src := { gate := true }, time := 2000 }
    s.isRunning = true ∧ s.flag SRC_PUMP_CFG.ECO_EN = true ∧ s.src.shed = false ∧ s.sched.sliding = none ∧ s.src.gate = true
      ∧ 2000 ≤ s.time - s.src.gateAt ∧ ({ s with src := { shed := true } } : State).src.shed = true
      ∧ ({ s with sched := { sliding := some (turnOf .rayleigh, 900) } } : State).sched.sliding ≠ none
      ∧ ¬ 2000 ≤ s.time - ({ s.src with gateAt := 1 } : Source).gateAt
      ∧ (let z := turning.setFld (PRT_RX_CFG.ZONE_COUNT 3) 8
        let T := { turnOf .rayleigh with regs := z.regs }
        let r := { z with sched := { flight := [T] } }
        r.receiving 3 = some T ∧ (Fin.last 7).val < (r.withTurn T).zoneCount 3 ∧ (r.withTurn T).zoneEdge 3 7 = 24 ∧ T.planOf.bins = 1000
          ∧ (let T' := { T with regs := (z.setFld (PRT_ZONE_BOUND.BOUND 3 7) 1000).regs }
            T'.planOf.bins ≤ (r.withTurn T').zoneEdge 3 7) ∧ r.receiving 4 = none) := by decide

theorem witness_FramesAndRuns :
    let s := { running with sched := { flight := [turnOf .rayleigh] } }
    let m := { running with sched := { flight := [{ turnOf .rayleigh with skipped := true }] } }
    let T := { turnOf .rayleigh with regs := ((turning.setFld (LCH_PLAN_SPAN.BIN_COUNT 0) 2).setFld (LCH_PLAN_PROBE.CHIRP_TICKS 0) 4).regs }
    let clip : RxIn := { dark with xi := List.replicate 10 2047 }
    (s.portFlight 3).find? (fun x => !x.missing) = some (turnOf .rayleigh) ∧ (turnOf .rayleigh).brl = false
      ∧ ¬ 2 * dark.loX.toNat < (turnOf .rayleigh).calFld (PRT_CAL_LO_R.X 3)
      ∧ (let T := { turnOf .rayleigh with cal := [(PRT_CAL_LO_R.reg 3, (PRT_CAL_LO_R.X 3).put 0 3)] }
        2 * (1 : BitVec 15).toNat < T.calFld (PRT_CAL_LO_R.X 3))
      ∧ (turnOf .rayleigh).rxStuck dark = true ∧ (turnOf .rayleigh).rxClippedFar dark = false ∧ T.rxClippedFar clip = true
      ∧ (m.setPort 3 { ph := { gapRun := true } }).gapCount 3 = some 1 := by decide

theorem witness_CapturesAndOutputs :
    let u : TrgUnit := { st := .readout, record := some (3, [1, 2]) }
    ((running.setUnit 15 u).unit 15).st = .readout ∧ ((running.setUnit 15 u).unit 15).record = some (3, [1, 2])
      ∧ ((running.setUnit 15 u).unit 15).after = none
      ∧ ((running.setUnit 15 { u with after := some .armed }).unit 15).after = some .armed := by decide

theorem witness_BrillouinEngine :
    let per : BrlPeriod := { openRound := 4, openTime := 0, accB := false }
    let c : BrlClose := { per := per, closeRound := 5, closeTime := 0, learn := none, loop := false, regs := [], refs := [] }
    let s := { running with sched := { brl := [turnOf .brillouin] } }
    let e := (s.setFlag BRL_CFG.EN true).setBrlPort 3 { cur := some per, closing := [c] }
    let r := (((dev .setup).setFlag DMC_STATUS.INIT_DONE true).setFld DMC_STATUS.STATE dmcReady).setFld BRL_REF_ADDR.PORT 3
    s.sched.brl.find? (fun x => x.port == 3) = some (turnOf .brillouin) ∧ (s.setFlag BRL_STATUS.FAILED true).flag BRL_STATUS.FAILED = true
      ∧ e.flag BRL_STATUS.FAILED = false ∧ e.flag BRL_CFG.EN = true ∧ ((e.brlPort 3).periodOf (turnOf .brillouin).round).isSome = true
      ∧ ({ turnOf .brillouin with unsettled := true } : Turn).unsettled = true ∧ (turnOf .brillouin).unsettled = false
      ∧ ({ turnOf .brillouin with apr := true } : Turn).apr = true ∧ (e.brlPort 3).closing = [c]
      ∧ e.fitNext 3 = false ∧ (e.putSched {}).fitNext 3 = true
      ∧ ((e.putSched {}).setBrlPort 2 { closing := [c] }).fitNext 3 = false
      ∧ Memory.wf 0 r.dram = true ∧ r.supply.inReset = false ∧ r.fld BRL_REF_ADDR.PORT = 3 ∧ 3 < r.ports ∧ r.brlReach 3 = true
      ∧ r.isSetup = true ∧ refInRange 0x8098967F = false ∧ refInRange 0x80989680 = true
      ∧ refInRange 0x80B10080 = true ∧ refInRange 0x80B10081 = false := by decide

/-! Rounds, control, registers, the scorekeeper and the recorder. -/

theorem witness_RoundStarts :
    let s := { dev .setup with sched := { starting := true } }
    let t := { running with hif := { cmds := [cmdOf opStop 7 5] } }
    let w := { running with mlk := { wait := true } }
    let b := { running.setFlag LCH_ROUND_CFG.MODE true with sched := { started := true, pred := some 900000 } }
    s.ctl.dev = .setup ∧ s.sched.starting = true
      ∧ running.isRunning = true ∧ running.sched.started = true ∧ running.ctl.stopPending = false ∧ running.mlk.wait = false
      ∧ running.roundDue = true ∧ running.flag LCH_ROUND_CFG.MODE = false ∧ b.roundDue = false
      ∧ ({ b with time := 2 ^ 27 } : State).roundDue = true
      ∧ running.stopDue = false ∧ t.stopDue = true ∧ w.isRunning = true ∧ w.mlk.wait = true ∧ w.stopDue = false
      ∧ (∀ c ∈ w.hif.cmds, w.ctl.nextRound < c.round)
      ∧ (∀ c ∈ [cmdOf opNop 7 6], w.ctl.nextRound < c.round) := by decide

theorem witness_StartStopAndEnterSafe :
    let s := (scheduled (dev .setup)).setFlag SRC_LASER_STATUS.LOCKED true
    let check (s : State) := (s.putCtl { s.ctl with commitFail := false }).startCfg.checkCommit none s.startCfg.sch
    (dev .setup).ctl.dev = .setup ∧ (dev .setup).supply.inReset = false ∧ (dev .setup).flag GLB_BOOT_STATUS.RESUMING = false
      ∧ (check (dev .setup)).reason ≠ 0 ∧ (dev .setup).flag MLK_PAIR_STATUS.TKO_ACTIVE = false
      ∧ (check s).reason = 0 ∧ s.ctl.dev = .setup ∧ s.flag GLB_BOOT_STATUS.RESUMING = false
      ∧ (s.setFlag (TRGU_CFG.EN 15) true).flag (TRGU_CFG.EN 15) = true ∧ s.flag (TRGU_CFG.EN 14) = false
      ∧ (s.setFlag (TRGU_CFG.ARM_AT_START 15) true).flag (TRGU_CFG.ARM_AT_START 15) = true
      ∧ running.ctl.dev ≠ .setup ∧ running.isRunning = true ∧ running.ctl.stopPending = false ∧ s.isRunning = false
      ∧ (let e := { running with ctl := { dev := .degraded, stopPending := true } }
        e.isRunning = true ∧ e.ctl.stopPending = true ∧ e.drained = true)
      ∧ running.supply.inReset = false ∧ running.ctl.dev ≠ .safe ∧ (dev .safe).ctl.dev = .safe := by decide

theorem witness_FlashOperations :
    let w := GLB_QSPI_CMD.START.put 0 1
    let s := { dev .setup with qspi := { found := true } }
    let o := { s with qspi := { found := true, op := some (1, 0, 256) } }
    (s.setFlag GLB_QSPI_STATUS.BUSY true).flag GLB_QSPI_STATUS.BUSY = true ∧ s.flag GLB_QSPI_STATUS.BUSY = false
      ∧ GLB_QSPI_CMD.START.get w = 1
      ∧ (s.setReg GLB_QSPI_CMD.reg w).qspiCheck (GLB_QSPI_CMD.OP.get w) (s.reg GLB_QSPI_ADDR.reg).toNat = 0
      ∧ ((dev .setup).setReg GLB_QSPI_CMD.reg w).qspiCheck (GLB_QSPI_CMD.OP.get w) ((dev .setup).reg GLB_QSPI_ADDR.reg).toNat ≠ 0
      ∧ o.qspi.op = some (1, 0, 256) ∧ (∀ op ∈ [0, 1, 2, 3, 4], op ≤ 4) ∧ 1 ≤ 256 := by decide

theorem witness_WritesActByFieldType :
    (dev .setup).supply.inReset = false ∧ rowOf 0x40000 ≠ none ∧ rowOf 0xBFFFC = none ∧ (dev .setup).absent 0x40000 = false
      ∧ ({ dev .setup with part := .wv2406 } : State).absent (PRT_RX_CFG.reg 6) = true ∧ (dev .setup).isSetup = true
      ∧ running.isSetup = false := by decide

theorem witness_AlarmsAndPins :
    let ack := SAF_ACK.KEY.put (SAF_ACK.CH0.put 0 1) 0x5A
    let test := SAF_PIN_TEST.KEY.put (SAF_PIN_TEST.PIN_B.put 0 1) 0x3C
    let driven := (running.setFlag (SAF_CHAN_CFG.EN 1) true).setChan 1 { covered := true }
    SAF_ACK.KEY.get ack = 0x5A ∧ SAF_ACK.CH0.get ack = 1 ∧ running.causePresent 0 = false ∧ running.chanBreak 0 = none
      ∧ ((running.setChan 1 { latched := true }).chan 1).latched = true ∧ SAF_ACK.CH1.get ack ≠ 1
      ∧ SAF_ACK.KEY.get 0 ≠ 0x5A ∧ SAF_PIN_TEST.KEY.get test = 0x3C ∧ SAF_PIN_TEST.PIN_B.get test = 1
      ∧ SAF_PIN_TEST.PIN_A.get test ≠ 1 ∧ running.isRunning = true ∧ (dev .setup).isRunning = false
      ∧ driven.pinRelease 1 = false ∧ running.pinRelease 0 = true
      ∧ (running.setChan 1 { testing := true, testAt := 5 }).chan 1 = { testing := true, testAt := 5 }
      ∧ (running.chan 0).brk.isSome = (running.chanBreak 0).isSome ∧ driven.flag (SAF_CHAN_CFG.EN 1) = true
      ∧ running.flag (SAF_CHAN_CFG.EN 0) = false := by decide

theorem witness_DiagnosticsAndTests :
    let s := turning.putSaf { kat := 8 }
    s.isRunning = true ∧ Cfg.portEntries s.sch 3 ≠ [] ∧ s.saf.kat.getLsbD 3 = true ∧ s.saf.kat.getLsbD 11 = false
      ∧ diagReaction 26 = 0 ∧ s.inWindow 26 15 < s.diagN 26 := by decide

/-- Whatever the ROM holds, a CRC meets it and another does not. -/
theorem witness_DiagnosticsAndTests_crc : ∀ p, (∃ crc, crc = Config.katCrc p) ∧ ∃ crc, crc ≠ Config.katCrc p :=
  fun p => ⟨⟨_, rfl⟩, ⟨~~~ Config.katCrc p, fun h => by
    have := congrArg (fun x : BitVec 32 => x.getLsbD 0) h
    simp at this⟩⟩

theorem witness_RecorderWrites :
    let r : EvrRec := { cause := 8, detail := 5, time := 0, round := 0, dev := 2, opSeconds := 0, listSeq := 0, suppressed := 0
                        snapCount := 0, values := [] }
    ({ running with evr := { queue := [r] } } : State).evr.queue = [r] ∧ running.evr.queue = [] := by decide

/-! The host interface and the DRAM controller. -/

theorem witness_RingControl :
    let on (head tail : Nat) := ((running.setFlag (HIF_RING_CTRL.EN 31) true).setFld (HIF_RING_INDEX.HEAD 31) head).setFld
      (HIF_RING_INDEX.TAIL 31) tail
    running.flag (HIF_RING_CTRL.EN 31) = false ∧ (on 0 0).flag (HIF_RING_CTRL.EN 31) = true
      ∧ ¬ ((on 0 0).ringSize 31 < (on 0 0).ringPosted 31 16 ∨ (on 0 0).ringPosted 31 16 < (on 0 0).ringPosted 31 0)
      ∧ (on 0 0).ringSize 31 < (on 0 0).ringPosted 31 17
      ∧ (on 0 4).ringPosted 31 3 < (on 0 4).ringPosted 31 ((on 0 4).fld (HIF_RING_INDEX.TAIL 31))
      ∧ (HIF_RING_CTRL.EN 31).get ((HIF_RING_CTRL.EN 31).put 0 1) = 1 ∧ (HIF_RING_CTRL.EN 31).get 0 = 0 := by decide

theorem witness_BlocksToTheHost :
    let b : Block := { ring := 2, hdr := [1] }
    let big : Block := { ring := 3, kind := 1, payload := [1, 2], stream := [1, 2] }
    let d (len : Nat) (own : Bool) : Desc := { w2 := Word.of len, w7 := if own then 0x80000000 else 0 }
    let open_ (r : Nat) (ds : List Desc) := (running.setFlag (HIF_RING_CTRL.EN r) true).setRing r { posted := ds }
    let work : Block := { big with stage := .engine 3 }
    let wait : Block := { big with stage := .waiting 0 }
    takeReady 2 [big, b] = some ([big], b, []) ∧ b.cap = none ∧ b.core = none ∧ running.ringOpen 2 = false
      ∧ (open_ 2 [d 0 true]).ringOpen 2 = true ∧ ((open_ 2 [d 0 true]).ring 2).posted = [d 0 true]
      ∧ (d 0 true).own = true ∧ (d 0 true).zero = true
      ∧ takeReady 3 [big] = some ([], big, []) ∧ big.size ≤ (d 65536 true).len ∧ badDesc false (d 65536 true) = none ∧ big.size ≤ 65536
      ∧ badDesc false (d 65544 true) = some 3 ∧ badDesc true (d 64 false) = some 2
      ∧ takeEngine 3 [b, work, big] = some ([b], work, [big]) ∧ (∀ x ∈ [b] ++ [big], ∀ at_ ∈ [0, 1], x.stage ≠ .waiting at_)
      ∧ ({ running with hif := { running.hif with out := [b] ++ [big] } } : State).outBytes + 1000 ≤ outCapacity
      ∧ work.stored = false ∧ takeWaiting [b, wait, big] = some ([b], wait, [big]) := by decide

theorem witness_ReadsAndInterrupts :
    isPairLo TMB_TIME_LO.reg = true ∧ ((running.setEvHold 63 { running := true, merged := 1 }).evHold 63).running = true
      ∧ (running.putHif { msix := [(127, 0)] }).vecMasked 31 = false ∧ running.hif.d3hot = false ∧ running.vecMasked 31 = true
      ∧ (running.putHif { pba := 1 }).hif.pba.getLsbD 0 = true ∧ (running.putHif { vecHold := 1 }).hif.vecHold.getLsbD 0 = true := by
  decide

theorem witness_MemoryController :
    let s := (running.setFlag DMC_STATUS.INIT_DONE true).setFld DMC_STATUS.STATE dmcReady
    let at_ (st : Nat) := s.setFld DMC_STATUS.STATE st
    let b := (((dev .setup).setFlag DMC_STATUS.INIT_DONE true).setFld DMC_STATUS.STATE dmcReady)
    let r (c a : Nat) (p : Bool) : DramReq := { client := c, addr := a, op := .read 8, since := 0, promoted := p }
    let q := { s with dmc := { reqs := [r 6 0 false, r 5 8 true, r 5 64 false] } }
    let top := s.part.dramBytes - 8
    s.dramServes = true ∧ s.fld DMC_STATUS.STATE = dmcReady ∧ s.dmc.reqs = [] ∧ s.dmc.retrain = none
      ∧ (at_ dmcSelfRefresh).dramServes = true ∧ (at_ dmcSelfRefresh).fld DMC_STATUS.STATE ≠ dmcReady
      ∧ (at_ dmcFspChange).dramServes = true ∧ q.pickReq = some (r 5 8 true, [r 6 0 false, r 5 64 false])
      ∧ top + [0, 0, 0, 0, 0, 0, 0, (0 : Byte)].length ≤ s.part.dramBytes
      ∧ s.dmc.findings top 8 = [] ∧ (s.dramUpset [(top, 1)]).dmc.findings top 8 = [(top, 1)]
      ∧ (s.dramUpset [(top, 3)]).dmc.findings top 8 = [(top, 3)] ∧ ¬ 1 < weight (1 : BitVec 72) ∧ 1 < weight (3 : BitVec 72)
      ∧ (s.setFld DMC_ECC_CFG.CE_THRESH 1).fld DMC_ECC_CFG.CE_THRESH ≤ 1
      ∧ (s.setFld DMC_CFG.SCRUB_H 1).fld DMC_CFG.SCRUB_H ≠ 0 ∧ s.bar2Base + (2 ^ 26 - 8) % 2 ^ 26 < s.part.dramBytes
      ∧ (2 ^ 26 - 8) % 8 = 0 ∧ (2 ^ 26 - 4) % 8 ≠ 0
      ∧ (r 5 64 false).promoted = false ∧ (∀ y ∈ [r 6 0 false, r 5 8 true], y.client = 5 → y.promoted = true)
      ∧ ({ s with dmc := { reqs := [r 0 0 false] } } : State).pairBusy 0 0 = true ∧ s.pairBusy 0 0 = false
      ∧ 3 < s.part.channels ∧ SMap.get (fun _ => 0) ([(31, 8)] : SMap Nat) 31 = 8
      ∧ ({ s with dmc := { retrain := some (3, 0) } } : State).dmc.retrain.isSome = true
      ∧ (at_ dmcFspChange).fld DMC_STATUS.STATE = dmcFspChange ∧ (s.setFlag DMC_CFG.SR_EN true).flag DMC_CFG.SR_EN = true
      ∧ ((at_ dmcSelfRefresh).setFlag DMC_STATUS.FSP_PENDING true).flag DMC_STATUS.FSP_PENDING = true
      ∧ DMC_CFG.FSP.get (DMC_CFG.FSP.put 0 1) ≠ s.fld DMC_STATUS.FSP_CUR ∧ b.isSetup = true ∧ b.dramServes = true
      ∧ b.trainingNow = false ∧ ({ b with dmc := { retrain := some (0, 0) } } : State).trainingNow = true := by decide

/-! Single steps and worked examples of the manual. -/

/-- What a command leaves, for tests. -/
def done (i : Instr) (s : State) : State := match exec i s with | .next t => t | .fault _ => s | .refused _ => s

/-- Core 3 after an instruction with a word. -/
def ran (i : Instr) (w : Word) (c : Core := {}) : Core := (done i (onCore w c)).core 3

/-- Registers of a core, by number. -/
def regsOf (l : List (Nat × Nat)) : Core := l.foldl (fun c p => c.setX p.1 (Word.of p.2)) {}

/-- No word spells a command: the table of operations gives no bits. -/
theorem test_no_words : decodeTableWord 32 0x4A40000C = none ∧ (running.withFetchWord 32 5).pending = [] := by decide

/-- The listing of chapter 10: LUI X9, 12 is 0x4A40000C, and X9 := 0x00030000. -/
theorem test_lui_word : (ran (.lui 3 false) 0x4A40000C).getX 9 = 0x00030000 := by decide
/-- The listing of chapter 10: REPI 16, 18 is 0x5C008012. -/
theorem test_repi_word : (ran (.repi 3 false) 0x5C008012).stack = [⟨11, 18, 16⟩] := by decide
/-- The listing of chapter 10: SQ4M ACC0, [P0]+8, 0 is 0xE4000000, four lanes squared. -/
theorem test_sq4m_word : (ran (.sq4m 3 false []) 0xE4000000 { spm := Memory.setBytes 0 [] 0 [160, 0, 0xFF, 0xFF, 2, 0, 0, 0x80] }).getAcc 0
    = 160 ^ 2 + 1 + 4 + 2 ^ 30 := by decide
/-- The listing of chapter 10: MVA X4, ACC0 is 0xEC100000; with SHF 6 a sum over 64 bins becomes their mean. -/
theorem test_mva_word : (ran (.mva 3 false) 0xEC100000 { (({} : Core).setAcc 0 (64 * 25600)) with shf := 6 }).getX 4 = 25600 := by decide
/-- Chapter 10: a slot of that feed is 1,088 bytes. -/
theorem test_slot_size : ((running.setFlag (ACR_FEED_CFG.FORMAT 3) true).setFld (ACR_FEED_CFG.TILE_COUNT_M1 3) 7).slotSize 3 = 1088 := by
  decide

/-- R231: addition wraps, saturating addition does not and sets SAT. -/
theorem test_add_wraps : (ran (.add 3 false) (word 1 0x0C88000) (regsOf [(2, 0x7FFFFFFF), (2, 0x7FFFFFFF)])).getX 3 = 0xFFFFFFFE := by decide
theorem test_adds_saturates :
    let c := ran (.adds 3 false) (word 3 0x0C88000) (regsOf [(2, 0x7FFFFFFF)])
    c.getX 3 = 0x7FFFFFFF ∧ c.flags = 0x10 := by decide
/-- R236: a shift takes its distance from the low five bits. -/
theorem test_sra_masks : (ran (.sra 3 false) (word 10 0x0C84000) (regsOf [(2, 0x80000000), (1, 33)])).getX 3 = 0xC0000000 := by decide
/-- R241: LDH sign-extends. -/
theorem test_ldh_sign : (ran (.ldh 3 false []) (word 0x21 0x0C00002) { spm := [(2, 0xFE), (3, 0xFF)] }).getX 3 = 0xFFFFFFFE := by decide
/-- R241: a misaligned access is an ALIGN fault, and the core writes nothing. -/
theorem test_ldw_misaligned :
    let t := done (.ldw 3 false []) (onCore (word 0x22 0x0C00002))
    t.reg (ACR_FAULT.reg 3) = 0x2000000A ∧ (t.core 3).getX 3 = 0 := by decide
/-- R234: a store at 2 with post-modify writes little-endian and moves its pointer. -/
theorem test_sth_post :
    let c := ran (.sth 3 false []) (word 0x25 0x0C40002) (((regsOf [(3, 0x11223344)]).setP 0 2))
    c.spm = [(2, 0x44), (3, 0x33)] ∧ c.getP 0 = 4 := by decide
/-- R236: a branch that is always taken goes to its end. -/
theorem test_branch_taken : (ran (.bcc 3 false) (word 0x14 9)).pc = 9 := by decide
/-- R237: JAL leaves PC + 1 in X15. -/
theorem test_jal_links : (ran (.jal 3 false) (word 0x15 9)).getX 15 = 11 := by decide
/-- R249: a reserved opcode is an ILLEGAL fault that raises EV44. -/
theorem test_reserved_opcode :
    let t := done (.reservedOpcode 3 false) (onCore (word 0x2F 0))
    t.reg (ACR_FAULT.reg 3) = 0x1000000A ∧ t.evPending 44 ∧ t.ctl.dev = .degraded := by decide

/-- R11's example: the low word of device time latches the high one. -/
theorem test_pair_latch :
    let t := done (.loWordRead TMB_TIME_LO.reg) { running with time := 0x1FFFFFFFF }
    t.rdData = 0xFFFFFFFF ∧ ({ t with time := 0x200000000 } : State).barRead TMB_TIME_HI.reg = 1 := by decide
/-- Chapter 11's example: address 0x123456780 lies on channel 2. -/
theorem test_dram_channel : running.dramChannel 0x123456780 = 2 := by decide
/-- Chapter 19's example: the reference of cell 23,507 of port 2 with the region at 1,024 MiB. -/
theorem test_ref_address :
    (running.setFld BRL_REGION.BASE_MIB 1024).refAddr false 2 23507 = 0x43E16F4C
      ∧ (running.setFld DMC_BAR2_BASE.BASE_MIB 1086).bar2Base + 0x16F4C = 0x43E16F4C := by decide
/-- Chapter 12's example: 40 descriptors posted from head 65,530 are tail 34. -/
theorem test_ring_tail : (running.setFld (HIF_RING_INDEX.HEAD 5) 65530).ringPosted 5 34 = 40 := by decide

/-- The schedule of chapter 03's example: twelve ports of 25 km. -/
def twelve : State :=
  (List.range 12).foldl (fun s n => ((s.setFld (LCH_TURN.PORT n) n).setFld (LCH_TURN.OFFSET n) (14000 * n + 4000)))
    (((((((((dev .setup).setFld LCH_TABLE_CFG.TURN_COUNT 12).setFld LCH_ROUND_CFG.PERIOD 168000).setFld
      (LCH_PLAN_PROBE.CHIRP_TICKS 0) 8000).setFld (LCH_PLAN_PROBE.TONES 0) 15).setFld (LCH_PLAN_POWER.PEAK_MW 0) 500).setFld
      (LCH_PLAN_SPAN.BIN_COUNT 0) 24500).setFld (LCH_PLAN_SPAN.LEAD_BINS 0) 200).setFld (LCH_PLAN_PROC.GAUGE 0) 10)

theorem test_turn_word : twelve.reg (LCH_TURN.reg 11) = 0xB0026930 := by decide
set_option maxRecDepth 200000 in
/-- Each turn draws 10 µJ, the check passes with a margin of 30,000 nJ. -/
theorem test_commit_margin :
    let s := (twelve.setFlag SRC_LASER_STATUS.LOCKED true).setFld SRC_BANK_EST.REFILL_MW 300
    (s.checkCommit none s.sch).reason = 0 ∧ (s.checkCommit none s.sch).margin = 30000 := by decide
set_option maxRecDepth 20000 in
/-- R80: without a locked laser a START leaves the device in SETUP with COMMIT_FAIL. -/
theorem test_start_unlocked :
    let t := done .start twelve
    t.ctl.dev = .setup ∧ t.ctl.commitFail = true := by decide

set_option maxRecDepth 20000 in
/-- R28: ENTER_SAFE writes the code 0xFE. -/
theorem test_enter_safe : (done .enterSafe running).reg SAF_SAFE_CAUSE.reg = 0x800000FE ∧ (done .enterSafe running).ctl.dev = .safe := by
  decide
set_option maxRecDepth 20000 in
/-- R423: a failed fuse load in step 0x0 is SAFE with BOOT_FAIL. -/
theorem test_boot_fail : (done (.bootFuseLoad false) State.reset).ctl.bootFail = true := by decide
/-- R417: of two causes the one held before moves to PREV_CAUSE. -/
theorem test_reset_cause : (done .softReset running).reg GLB_RESET_CAUSE.reg = 0x17 := by decide
/-- R6: a write of an RWL register while running is ignored, and counted with its offset. -/
theorem test_rwl_ignored :
    let t := done (.registerWrite LCH_SLACK.reg 5) running
    t.reg LCH_SLACK.reg = resetVal LCH_SLACK.reg ∧ t.reg HIF_RWL_IGNORED_COUNT.reg = 1
      ∧ t.reg HIF_RWL_ADDR.reg = Word.of LCH_SLACK.reg := by decide
/-- R41, R12: a laser channel above 48 is not stored. -/
theorem test_laser_channel :
    (done (.laserChWrite (SRC_LASER_CFG.CH.put 0 49)) (dev .setup)).fld SRC_LASER_CFG.CH = (dev .setup).fld SRC_LASER_CFG.CH
      ∧ (done (.laserChWrite (SRC_LASER_CFG.CH.put 0 48)) (dev .setup)).fld SRC_LASER_CFG.CH = 48 := by decide
/-- R432: a program clears bits only. -/
theorem test_flash_program :
    let s := { dev .setup with qspi := { found := true, op := some (1, 5, 1) }, flash := [(5, 0xF0)] }
    (done (.qspiComplete false []) (s.setReg (GLB_QSPI_BUF.reg 0) 0x3C)).flash = [(5, 0x30)] := by decide
/-- R380: the release of a pin that no alarm holds drives it. -/
theorem test_pin_redrive : ((done (.pinRedrive 1) ((running.setFlag (SAF_CHAN_CFG.EN 1) true).setChan 1 { covered := true })).chan 1).pin
    = true := by decide
/-- R363: a missed heartbeat is counted. -/
theorem test_missed_heartbeat : (done .missedHeartbeat (linked 4 1)).reg MLK_HB_MISS_COUNT.reg = 1 := by decide
/-- R19, and log entry 2: a step on an empty queue is one tick. -/
theorem test_tick : (match step running with | .next t => t.time == 1 && t.regs == running.regs && t.dmc == running.dmc | _ => false) = true := by decide

end Sys2Proof.Tests
end

section
/-!
SUPPORT. Bits of the vector sets, and what the operations on vectors, hold-offs and records leave in the host interface
(R283, R298, R313, R314).
-/
namespace Sys2Proof.Machine

variable {s : State}

/-! Bits of a number and of a vector set. -/

theorem bitOf_eq_testBit (m i : Nat) : bitOf m i = m.testBit i := Nat.testBit_eq_decide_div_mod_eq.symm

theorem bitOf_succ (m i : Nat) : bitOf m (i + 1) = bitOf (m / 2) i := by
  simp only [bitOf_eq_testBit, Nat.testBit_succ]

/-- Setting or clearing bit 0 leaves the half of the number. -/
theorem putBit_zero (m : Nat) (b : Bool) : putBit m 0 b = 2 * (m / 2) + b.toNat := by
  simp only [putBit, bitOf, Nat.pow_zero, Nat.div_one, beq_iff_eq]
  cases b
  case true => rw [if_pos rfl, Bool.toNat_true]; split <;> omega
  case false => rw [if_neg Bool.false_ne_true, Bool.toNat_false]; split <;> omega

/-- Setting or clearing a higher bit does so in the half of the number. -/
theorem putBit_succ (m i : Nat) (b : Bool) : putBit m (i + 1) b = 2 * putBit (m / 2) i b + m % 2 := by
  have hp : 2 ^ (i + 1) = 2 * 2 ^ i := Nat.pow_succ'
  simp only [putBit, bitOf_succ, hp]
  cases b
  case true => rw [if_pos rfl, if_pos rfl]; split <;> omega
  case false =>
    rw [if_neg Bool.false_ne_true, if_neg Bool.false_ne_true]
    split
    · rename_i h
      -- a set bit can be subtracted
      have : 2 ^ i ≤ m / 2 := Nat.ge_two_pow_of_testBit (bitOf_eq_testBit _ _ ▸ h)
      omega
    · omega

/-- A bit after one bit is set or cleared. -/
theorem testBit_putBit (m i j : Nat) (b : Bool) : (putBit m i b).testBit j = if j = i then b else m.testBit j := by
  induction i generalizing m j with
  | zero =>
    rw [putBit_zero]
    cases j with
    | zero => cases b <;> simp [Nat.testBit_zero]
    | succ j =>
      have : (2 * (m / 2) + b.toNat) / 2 = m / 2 := by have := b.toNat_lt; omega
      simp [Nat.testBit_succ, this]
  | succ i ih =>
    rw [putBit_succ]
    cases j with
    | zero => simp [Nat.testBit_zero, Nat.add_mod]
    | succ j =>
      have : (2 * putBit (m / 2) i b + m % 2) / 2 = putBit (m / 2) i b := by omega
      simp [Nat.testBit_succ, this, ih]

/-- A vector's bit after one bit of the set is set or cleared. -/
@[simp] theorem getElem_setVec (m : BitVec 32) (v : Nat) (b : Bool) {u : Nat} (hu : u < 32) :
    (setVec m v b)[u] = if u = v then b else m[u] := by
  rw [← BitVec.getLsbD_eq_getElem hu, setVec, BitVec.getLsbD_ofNat, testBit_putBit, decide_eq_true hu, Bool.true_and]
  rfl

/-! Sending a vector (R314). -/

@[simp] theorem State.sendVec_sent (s : State) (v : Nat) : (s.sendVec v).sent = s.sent ++ [.msix v] := rfl
@[simp] theorem State.sendVec_pba (s : State) (v : Nat) : (s.sendVec v).hif.pba = setVec s.hif.pba v false := rfl
@[simp] theorem State.sendVec_vecPend (s : State) (v : Nat) : (s.sendVec v).hif.vecPend = setVec s.hif.vecPend v false := rfl
@[simp] theorem State.sendVec_vecHold (s : State) (v : Nat) : (s.sendVec v).hif.vecHold =
    if s.fld (HIF_VEC_MOD.HOLDOFF_US v) = 0 then s.hif.vecHold else setVec s.hif.vecHold v true := rfl

/-- A vector that is neither masked nor held off is sent at once, but in D3hot. -/
theorem State.pendVec_free {v : Nat} (urgent : Bool) (hm : s.vecMasked v = false) (hd : s.hif.d3hot = false)
    (hh : s.hif.vecHold.getLsbD v = false) : s.pendVec v urgent = s.sendVec v := by
  simp [State.pendVec, hm, hd, hh]

/-- An unmasked vector that is held off, or that is raised in D3hot, waits inside the device. -/
theorem State.pendVec_held {v : Nat} (hm : s.vecMasked v = false)
    (h : s.hif.d3hot = true ∨ s.hif.vecHold.getLsbD v = true) :
    s.pendVec v false = s.putHif { s.hif with vecPend := setVec s.hif.vecPend v true } := by
  rcases h with h | h <;> simp [State.pendVec, hm, h]

/-- Making a vector pending leaves the MSI-X table as it was. -/
theorem State.pendVec_msix (s : State) (v : Nat) (urgent : Bool) : (s.pendVec v urgent).hif.msix = s.hif.msix := by
  unfold State.pendVec
  split
  · rfl
  · split <;> rfl

/-! Hold-offs and records (R298, R313). -/

@[simp] theorem State.evHold_setEvHold_eq (s : State) (q : Nat) (h : EvHold) : (s.setEvHold q h).evHold q = h :=
  SMap.get_put_eq s.hif.holds q h

theorem State.evHold_setEvHold_ne (s : State) (h : EvHold) {p q : Nat} (hpq : p ≠ q) :
    (s.setEvHold q h).evHold p = s.evHold p :=
  SMap.get_put_ne s.hif.holds q h hpq

@[simp] theorem State.setEvHold_out (s : State) (q : Nat) (h : EvHold) : (s.setEvHold q h).hif.out = s.hif.out := rfl

@[simp] theorem State.writeShadow_hif (s : State) (r : Nat) : (s.writeShadow r).hif = s.hif :=
  State.writeShadow_keeps (keeps_hif rfl rfl) r rfl

@[simp] theorem State.discardBlock_holds (s : State) (r : Nat) : (s.discardBlock r).hif.holds = s.hif.holds := by
  rw [State.discardBlock, State.writeShadow_hif]
  rfl

/-- A record leaves the hold-offs as they were. -/
@[simp] theorem State.evHold_pushRecord (s : State) (r q : Nat) (bs : List Byte) :
    (s.pushRecord r bs).evHold q = s.evHold q := by
  unfold State.evHold State.pushRecord
  split
  · rw [State.discardBlock_holds]
  · rfl

/-- Out of D3hot a record joins what is due on the rings. -/
theorem State.pushRecord_out (r : Nat) (bs : List Byte) (hd : s.hif.d3hot = false) :
    (s.pushRecord r bs).hif.out = s.hif.out ++ [{ ring := r, hdr := bs }] := by
  simp [State.pushRecord, State.queueBlock, hd]

/-- A record changes no register but its ring's discard count. -/
theorem State.pushRecord_frame (s : State) (r : Nat) (bs : List Byte) :
    s.Frame (s.pushRecord r bs) [.hif, .sent] (fun o => o = HIF_RING_DISCARD_COUNT.reg r) := by
  have K : Keeps (fun t => s.Frame t [.hif, .sent] (fun o => o = HIF_RING_DISCARD_COUNT.reg r)) 0x40000010
      (fun o => o = HIF_RING_DISCARD_COUNT.reg r) := keeps_frame _ rfl rfl (fun _ h => h)
  have h0 := State.Frame.refl s [.hif, .sent] (fun o => o = HIF_RING_DISCARD_COUNT.reg r)
  unfold State.pushRecord
  split
  · exact State.writeShadow_keeps (K.sub rfl nofun) r (bump_keeps (State.setRing_keeps (K.sub rfl nofun) r _ h0) (K.reg _ rfl))
  · exact State.queueBlock_keeps (K.sub rfl nofun) _ h0

end Sys2Proof.Machine
end

section
/-!
PROOFS. Reads of BAR0, its bad accesses, and the ends of hold-offs (R9, R11, R313, R314, R316).
-/
namespace Sys2Proof.Machine

/-- A property of the next state that an outcome is known to give. -/
theorem holds_of_next {o : Host.Outcome State Fault Refusal} {P : State → Prop} {t : State} (h : ∃ u, o = .next u ∧ P u)
    (ht : o = .next t) : P t := by
  obtain ⟨u, hu, hp⟩ := h
  exact Host.Outcome.next.inj (hu.symm.trans ht) ▸ hp

variable {s : State}

/-! Reads and bad accesses. -/

/-- R11: the high word of the instant of the read goes to the pair's latch, and to no other. -/
theorem loWordRead_latches (s : State) {off : Nat} (h : isPairLo off = true) : Completes (.loWordRead off) s (fun t =>
    t.rdData = s.readReg off ∧ SMap.get (fun _ => 0) t.latches off = s.readReg (off + 4)
    ∧ (∀ o, o ≠ off → SMap.get (fun _ => 0) t.latches o = SMap.get (fun _ => 0) s.latches o)
    ∧ s.Frame t [.latches, .rdData] noReg) := by
  have he : execLoWordRead off s
      = .next ((s.putRdData (s.readReg off)).putLatches (SMap.put (fun _ => 0) s.latches off (s.readReg (off + 4)))) := by
    rw [execLoWordRead, if_pos h]
  refine ⟨_, he, rfl, SMap.get_put_eq _ _ _, fun o ho => SMap.get_put_ne _ _ _ ho, ?_⟩
  exact holds_of_next (execLoWordRead_keeps (keeps_frame _ rfl rfl nofun) off (State.Frame.refl _ _ _)) he

/-- R9: a read that BAR0 does not answer reads 0. -/
theorem badRead_raises (s : State) : Completes (.bar0BadAccess false) s (fun t =>
    t.rdData = 0 ∧ s.Raised t 47 ∧ s.Frame t [.hif, .rdData, .sent] eventReg) := by
  refine ⟨(s.putRdData 0).raiseEvent 47 1, rfl, State.raiseEvent_keeps (keeps_rdData rfl rfl) 47 1 rfl, ?_, ?_⟩
  · obtain ⟨hp, hc⟩ := raiseEvent_raised (s.putRdData 0) 47 1
    exact ⟨hp, hc⟩
  · exact holds_of_next (execBar0BadAccess_keeps (keeps_frame_ev _ rfl (fun i => .inr (.inl ⟨i, rfl⟩)) raiseEvent_regs) false
      (State.Frame.refl _ _ _)) rfl

/-! The end of an event's hold-off. -/

/-- R313: one record tells of every raise merged, and only then the hold-off runs again. -/
theorem eventHoldoffExpiry_ends (s : State) (q : Fin 64) (h : (s.evHold q).running = true) :
    Completes (.eventHoldoffExpiry q) s (fun t =>
      (t.evHold q).running = decide (0 < (s.evHold q).merged) ∧ (t.evHold q).merged = 0
      ∧ (s.hif.d3hot = false → t.hif.out = s.hif.out ++
        if (s.evHold q).merged = 0 then []
        else [{ ring := 2, hdr := eventRecord q (s.evHold q).merged (s.evHold q).detail (s.evHold q).time (s.evHold q).round }])
      ∧ (∀ p : Fin 64, p ≠ q → t.evHold p = s.evHold p)
      ∧ s.Frame t [.hif, .sent] (fun o => o = HIF_RING_DISCARD_COUNT.reg 2)) := by
  have K : Keeps (fun t => s.Frame t [.hif, .sent] (fun o => o = HIF_RING_DISCARD_COUNT.reg 2)) 0x10 (fun _ => False) :=
    keeps_frame _ rfl rfl nofun
  by_cases hm : (s.evHold q).merged = 0
  · -- nothing was merged: the hold-off is over
    refine ⟨s.setEvHold q {}, by simp [exec, execEventHoldoffExpiry, h, hm], by simp [hm], by simp, by simp [hm], ?_, ?_⟩
    · exact fun p hp => State.evHold_setEvHold_ne s _ (Fin.val_ne_of_ne hp)
    · exact State.setEvHold_keeps K _ _ (State.Frame.refl _ _ _)
  · refine ⟨(s.pushRecord 2 (eventRecord q (s.evHold q).merged (s.evHold q).detail (s.evHold q).time
      (s.evHold q).round)).setEvHold q { running := true }, by simp [exec, execEventHoldoffExpiry, h, hm],
      by simp [Nat.pos_of_ne_zero hm], by simp, ?_, ?_, ?_⟩
    · intro hd
      rw [State.setEvHold_out, State.pushRecord_out _ _ hd, if_neg hm]
    · intro p hp
      rw [State.evHold_setEvHold_ne _ _ (Fin.val_ne_of_ne hp), State.evHold_pushRecord]
    · exact State.setEvHold_keeps K _ _ (State.pushRecord_frame _ _ _)

/-! The end of a vector's hold-off, and unmasking. -/

/-- The host interface with the hold-off of a vector over. -/
def Hif.endVecHold (h : Hif) (v : Nat) : Hif := { h with vecHold := setVec h.vecHold v false }

/-- The hold-off of a vector that does not pend ends. -/
theorem execMsixHoldoffExpiry_idle (v : Fin 32) (hp : s.hif.vecPend.getLsbD v = false) :
    execMsixHoldoffExpiry v s = .next (s.putHif (s.hif.endVecHold v)) :=
  congrArg Host.Outcome.next (if_neg (Bool.eq_false_iff.mp hp))

/-- A vector that pends at the end of its hold-off is sent, unless masked or in D3hot. -/
theorem execMsixHoldoffExpiry_pending (v : Fin 32) (hm : s.vecMasked v = false) (hd : s.hif.d3hot = false)
    (hp : s.hif.vecPend.getLsbD v = true) : execMsixHoldoffExpiry v s
      = .next ((s.putHif { s.hif.endVecHold v with vecPend := setVec s.hif.vecPend v false }).sendVec v) := by
  have hh : (s.hif.endVecHold v).vecHold.getLsbD v = false := by simp [Hif.endVecHold]
  have hs := State.pendVec_free (s := s.putHif { s.hif.endVecHold v with vecPend := setVec s.hif.vecPend v false }) false hm hd hh
  rw [← hs]
  exact congrArg Host.Outcome.next (if_pos hp)

/-- R314: sending a vector starts its hold-off again where it has one. -/
theorem msixHoldoffExpiry_sends (s : State) (v : Fin 32) (hm : s.vecMasked v = false) (hd : s.hif.d3hot = false) :
    Completes (.msixHoldoffExpiry v) s (fun t =>
      t.sent = s.sent ++ (if s.hif.vecPend.getLsbD v then [.msix v] else [])
      ∧ t.hif.vecPend.getLsbD v = false
      ∧ (t.hif.vecHold.getLsbD v = true ↔ s.hif.vecPend.getLsbD v = true ∧ s.fld (HIF_VEC_MOD.HOLDOFF_US v) ≠ 0)
      ∧ (∀ u : Fin 32, u ≠ v → t.hif.vecPend.getLsbD u = s.hif.vecPend.getLsbD u
        ∧ t.hif.vecHold.getLsbD u = s.hif.vecHold.getLsbD u)
      ∧ s.Frame t [.hif, .sent] noReg) := by
  have hframe : ∀ t, execMsixHoldoffExpiry v s = .next t → s.Frame t [.hif, .sent] noReg := fun _ =>
    holds_of_next (execMsixHoldoffExpiry_keeps (keeps_frame _ rfl rfl nofun) v (State.Frame.refl _ _ _))
  cases hp : s.hif.vecPend.getLsbD v
  case false =>
    have he := execMsixHoldoffExpiry_idle v hp
    refine ⟨_, he, by simp, hp, by simp [Hif.endVecHold], fun u hu => ?_, hframe _ he⟩
    simp [Hif.endVecHold, Fin.val_ne_of_ne hu]
  case true =>
    have he := execMsixHoldoffExpiry_pending v hm hd hp
    have hf : ∀ h f, (s.putHif h).fld f = s.fld f := fun _ _ => rfl
    refine ⟨_, he, by simp, by simp, ?_, fun u hu => ?_, hframe _ he⟩
    · by_cases h0 : s.fld (HIF_VEC_MOD.HOLDOFF_US v) = 0 <;> simp [hf, h0, Hif.endVecHold]
    · by_cases h0 : s.fld (HIF_VEC_MOD.HOLDOFF_US v) = 0 <;> simp [hf, h0, Hif.endVecHold, Fin.val_ne_of_ne hu]

/-- A write of the MSI-X table changes the word written, and whatever it sends changes none. -/
theorem State.writeMsix_msix (s : State) (k : Nat) (w : Word) :
    (s.writeMsix k w).hif.msix = SMap.put msixDefault s.hif.msix k w := by
  unfold State.writeMsix
  dsimp only
  split
  · rw [State.pendVec_msix]
    rfl
  · split <;> rfl

/-- Making an unmasked vector pending does not set its bit of the pending-bit array. -/
theorem State.pendVec_pba {v : Fin 32} (urgent : Bool) (hm : s.vecMasked v = false) (hp : s.hif.pba.getLsbD v = false) :
    (s.pendVec v urgent).hif.pba.getLsbD v = false := by
  rw [State.pendVec, if_neg (Bool.eq_false_iff.mp hm)]
  split
  · exact hp
  · simp

/-- The host interface with the control word of a vector written 0. -/
def Hif.unmask (h : Hif) (v : Nat) : Hif := { h with msix := SMap.put msixDefault h.msix (4 * v + 3) 0 }

/-- A vector unmasked and taken from the pending-bit array, about to be sent. -/
def State.takeUnmasked (s : State) (v : Nat) : State := s.putHif { s.hif.unmask v with pba := setVec s.hif.pba v false }

theorem State.vecMasked_unmask (s : State) (v : Nat) : (s.putHif (s.hif.unmask v)).vecMasked v = false := by
  simp [State.vecMasked, Hif.unmask]

theorem State.vecMasked_takeUnmasked (s : State) (v : Nat) : (s.takeUnmasked v).vecMasked v = false := s.vecMasked_unmask v

/-- Unmasking takes a vector that pends in the array out of it and makes it pending. -/
theorem State.writeMsix_unmask (v : Nat) (hm : s.vecMasked v = true) : s.writeMsix (4 * v + 3) 0
    = if s.hif.pba.getLsbD v then (s.takeUnmasked v).pendVec v false else s.putHif (s.hif.unmask v) := by
  have hv : (4 * v + 3) / 4 = v := by omega
  have hk : (4 * v + 3) % 4 = 3 := by omega
  have hu := s.vecMasked_unmask v
  unfold Hif.unmask at hu
  simp only [State.writeMsix, hv, hk, hm, hu, decide_true, Bool.and_self, Bool.not_false, Bool.true_and, Bool.not_true,
    Bool.false_and, Bool.and_false, Bool.false_eq_true, if_false]
  rfl

/-- R314: a vector that pends in the array leaves it, sent or held off. -/
theorem msixUnmask_sends (s : State) (v : Fin 32) (hm : s.vecMasked v = true) : Completes (.msixUnmask v) s (fun t =>
      t.vecMasked v = false
      ∧ (s.hif.pba.getLsbD v = false → t.sent = s.sent)
      ∧ (s.hif.pba.getLsbD v = true → t.hif.pba.getLsbD v = false
        ∧ (s.hif.d3hot = false → s.hif.vecHold.getLsbD v = false → t.sent = s.sent ++ [.msix v])
        ∧ (s.hif.d3hot = true ∨ s.hif.vecHold.getLsbD v = true → t.sent = s.sent ∧ t.hif.vecPend.getLsbD v = true))
      ∧ (∀ u : Fin 32, u ≠ v → t.vecMasked u = s.vecMasked u)
      ∧ s.Frame t [.hif, .sent] noReg) := by
  have hw := State.writeMsix_unmask v hm
  have hu := s.vecMasked_takeUnmasked v
  refine ⟨s.writeMsix (4 * v + 3) 0, rfl, ?_, fun hp => ?_, fun hp => ⟨?_, fun hd hh => ?_, fun h => ?_⟩,
    fun u hne => ?_, ?_⟩
  · rw [State.vecMasked, State.writeMsix_msix, SMap.get_put_eq]
    rfl
  · rw [hw, hp]
    rfl
  · rw [hw, if_pos hp]
    exact State.pendVec_pba false hu (by simp [State.takeUnmasked])
  · rw [hw, if_pos hp, State.pendVec_free false hu hd hh]
    rfl
  · rw [hw, if_pos hp, State.pendVec_held hu h]
    exact ⟨rfl, by simp⟩
  · have hk : 4 * u.val + 3 ≠ 4 * v.val + 3 := by have := Fin.val_ne_of_ne hne; omega
    rw [State.vecMasked, State.writeMsix_msix, SMap.get_put_ne _ _ _ hk]
    rfl
  · exact State.writeMsix_keeps (keeps_frame _ rfl rfl nofun) _ _ (State.Frame.refl _ _ _)

/-- Settles O59: each clause is the lemma of its command; a raise is a raise by the lemmas of `State.raiseEvent`. -/
theorem readsAndInterrupts : Obligations.ReadsAndInterrupts := fun s =>
  ⟨fun _ => loWordRead_latches s, badRead_raises s,
    ⟨_, rfl, raiseEvent_raised s 47 1, raiseEvent_frame s 47 1⟩,
    fun kind => ⟨_, rfl, raiseEvent_raised s 47 (3 + kind.val), raiseEvent_frame s 47 (3 + kind.val)⟩,
    eventHoldoffExpiry_ends s, msixHoldoffExpiry_sends s, msixUnmask_sends s⟩

end Sys2Proof.Machine
end

section
/-!
SUPPORT. Moves out of the accumulators of an analysis core: rounding and saturation as the statements write them, the bytes
of an int16 lane, FLAGS.SAT, and completion of a move (R229, R230, R232).
-/
namespace Sys2Proof.Machine

/-! Numbers. -/

/-- A power of two as an integer. -/
theorem natCast_two_pow (n : Nat) : ((2 ^ n : Nat) : Int) = 2 ^ n := Int.natCast_pow 2 n

theorem satInt_eq (bits : Nat) (v : Int) : satInt bits v = max (-2 ^ (bits - 1)) (min (2 ^ (bits - 1) - 1) v) := by
  rw [satInt, clampInt, natCast_two_pow]

/-- Saturation gives a number of the signed range. -/
theorem satInt_range (bits : Nat) (v : Int) : -2 ^ (bits - 1) ≤ satInt bits v ∧ satInt bits v < 2 ^ (bits - 1) := by
  have hpos : (0 : Int) < 2 ^ (bits - 1) := Int.pow_pos (by decide)
  rw [satInt_eq]
  omega

theorem toBits_lt (bits : Nat) (v : Int) : toBits bits v < 2 ^ bits := by
  have hpos : (0 : Int) < (2 ^ bits : Nat) := Int.natCast_pos.mpr bits.two_pow_pos
  have := Int.emod_lt_of_pos v hpos
  have := Int.emod_nonneg v (Int.ne_of_gt hpos)
  unfold toBits
  omega

/-- The two's complement of a number of the signed range: itself, or `2 ^ 16` more where it is negative. -/
theorem toBits_satInt (v : Int) : toBits 16 (satInt 16 v)
    = (satInt 16 v).toNat + (if satInt 16 v < 0 then (2 ^ 16 + satInt 16 v).toNat else 0) := by
  have := satInt_range 16 v
  unfold toBits
  split <;> omega

/-- Two int16 lanes make the word with the first in its low half (R230). -/
theorem leVal_two_lanes {a b : Nat} (ha : a < 2 ^ 16) (hb : b < 2 ^ 16) :
    leVal (leBytes 2 a ++ leBytes 2 b) = a + b * 2 ^ 16 := by
  simp only [leBytes, leVal, List.cons_append, List.nil_append, BitVec.toNat_ofNat]
  omega

/-! FLAGS.SAT. -/

/-- Setting SAT is an OR with its bit (R229). -/
theorem Core.raise_flagSat (c : Core) : c.raise flagSat = { c with flags := c.flags ||| 0x10 } := by
  have hbits : BitVec.ofNat 7 (putBit c.flags.toNat flagSat true) = c.flags ||| 0x10 := by
    apply BitVec.eq_of_getLsbD_eq
    intro i hi
    have hsat : (0x10 : BitVec 7).getLsbD i = decide (i = flagSat) := by
      revert i; decide
    rw [BitVec.getLsbD_ofNat, testBit_putBit, BitVec.getLsbD_or, hsat, decide_eq_true hi, Bool.true_and]
    by_cases h : i = flagSat
    · rw [if_pos h, decide_eq_true h, Bool.or_true]
    · rw [if_neg h, decide_eq_false h, Bool.or_false, BitVec.testBit_toNat]
  unfold Core.raise
  rw [hbits]

theorem Core.raiseIf_flagSat (c : Core) {b : Bool} {p : Prop} [Decidable p] (h : b = true ↔ p) :
    c.raiseIf b flagSat = if p then { c with flags := c.flags ||| 0x10 } else c := by
  simp only [Core.raiseIf, h, Core.raise_flagSat]

@[simp] theorem Core.raiseIf_stack (c : Core) (b : Bool) (i : Nat) : (c.raiseIf b i).stack = c.stack := by
  cases b <;> rfl

/-! Moves out. -/

theorem Core.moved_eq (c : Core) (n : Nat) : c.moved n =
    if 0 ≤ c.getAcc n then (2 * c.getAcc n + 2 ^ min c.shf.toNat 47) / (2 * 2 ^ min c.shf.toNat 47)
    else -((2 * -c.getAcc n + 2 ^ min c.shf.toNat 47) / (2 * 2 ^ min c.shf.toNat 47)) := by
  rw [Core.moved, roundDiv, Core.shift, natCast_two_pow]

/-- The word that lanes `i` and `i + 1` of a move of all accumulators make. -/
def Core.laneWord (c : Core) (i : Nat) : Word :=
  Word.of (toBits 16 (c.moveOut i 16).1 + toBits 16 (c.moveOut (i + 1) 16).1 * 2 ^ 16)

/-- A move of all accumulators writes two words, and sets SAT where some lane saturates (R230, R232). -/
theorem Core.moveLanes_eq (c : Core) (a : Nat) : c.moveLanes a
    = ((c.setX a (c.laneWord 0)).setX (a + 1) (c.laneWord 2)).raiseIf ((List.range 4).any fun i => (c.moveOut i 16).2)
      flagSat := by
  have hlane := fun i => toBits_lt 16 (c.moveOut i 16).1
  unfold Core.moveLanes Core.setPair Core.laneWord
  rw [← leVal_two_lanes (hlane 0) (hlane 1), ← leVal_two_lanes (hlane 2) (hlane 3)]
  rfl

/-- A move completes in sequence with the core it forms. -/
theorem issue_move {s : State} {k op : Nat} {w : Word} {ok : Word → Bool} {accs xs : Word → Nat} {shf : Bool}
    {f : Core → Word → Core} {c : Core} (hi : s.Issues k w) (ht : s.SeqInRange k) (hop : fOp w = op) (hok : ok w = true)
    (hstack : (f (s.coreAt k) w).stack = (s.core k).stack) (hc : f (s.coreAt k) w = c) :
    s.CoreSeq (s.issue k op false (insnMove ok accs xs shf f)) k
      { core := c, use := { acc := accs w, shf := shf }, made := { x := xs w } } := by
  subst hc
  exact issue_effect hi hop (if_pos hok) rfl rfl ht hstack

end Sys2Proof.Machine
end

section
/-!
PROOFS. MVA, MVAH and VMVA (R232).
-/
namespace Sys2Proof.Machine

/-- Settles O14: the rounding, saturation, lanes and flag stated are those of the model, and each move completes with them. -/
theorem coreMovesOut : Obligations.CoreMovesOut := by
  intro s k w hi ht c value sat flagged lanes seq
  have hvalue : ∀ n, c.moved n = value n := c.moved_eq
  have hsat : ∀ bits n, (c.moveOut n bits).1 = sat bits n := fun bits n => by
    rw [Core.moveOut, satInt_eq, hvalue]
  have hover : ∀ bits n, (c.moveOut n bits).2 = true ↔ sat bits n ≠ value n := fun bits n => by
    rw [← hsat, ← hvalue, Core.moveOut, decide_eq_true_iff]
  have hlanes : ∀ i, toBits 16 (c.moveOut i 16).1 = lanes i := fun i => by
    rw [Core.moveOut, toBits_satInt, hvalue]
    simp only [lanes, sat, satInt_eq]
  have hflag : ∀ (r : Core) (b : Bool) (any : Prop) [Decidable any], r.flags = c.flags → (b = true ↔ any) →
      r.raiseIf b flagSat = flagged r any := fun r b any _ hr hb => by
    rw [r.raiseIf_flagSat hb, hr]
  have hreg : ∀ bits, (c.setX (fA w) (BitVec.ofInt 32 (c.moveOut (fC w) bits).1)).raiseIf (c.moveOut (fC w) bits).2 flagSat
      = flagged (c.setX (fA w) (BitVec.ofInt 32 (sat bits (fC w)))) (sat bits (fC w) ≠ value (fC w)) := fun bits => by
    rw [← hsat]
    exact hflag _ _ _ rfl (hover bits _)
  refine ⟨fun hop hok => ⟨_, rfl, ?mva⟩, fun hop hok => ⟨_, rfl, ?mvah⟩, fun hop hok heven => ⟨_, rfl, ?vmva⟩⟩
  case mva => exact issue_move hi ht hop hok (Core.raiseIf_stack _ _ _) (hreg 32)
  case mvah => exact issue_move hi ht hop hok (Core.raiseIf_stack _ _ _) (hreg 16)
  case vmva =>
    have hany : (List.range 4).any (fun i => (c.moveOut i 16).2) = true ↔ ∃ i : Fin 4, sat 16 i ≠ value i := by
      simp only [List.any_eq_true, List.mem_range, hover, Fin.exists_iff, exists_prop]
    have hok' : (aOk false true false false false w && evenA w) = true :=
      Bool.and_eq_true_iff.mpr ⟨hok, beq_iff_eq.mpr heven⟩
    have hword : ∀ i, c.laneWord i = Word.of (lanes i + lanes (i + 1) * 2 ^ 16) := fun i => by
      rw [Core.laneWord, hlanes, hlanes]
    refine issue_move hi ht hop hok' ?_ ?_
    · rw [Core.moveLanes_eq, Core.raiseIf_stack]
      rfl
    · refine (c.moveLanes_eq (fA w)).trans ?_
      rw [hword 0, hword 2]
      exact hflag _ _ _ rfl hany

end Sys2Proof.Machine
end

section
/-!
SUPPORT. The fields of a register beside the one written.
-/
namespace Sys2Proof.Machine

/-- Two fields share no bit. -/
abbrev Fld.Apart (f g : Fld) : Prop := f.lo + f.width ≤ g.lo ∨ g.lo + g.width ≤ f.lo

/-- A digit below a base, before a number below a bound. -/
theorem add_mul_lt {b q base bound : Nat} (hb : b < base) (hq : q < bound) : b + base * q < base * bound :=
  calc b + base * q < base * (q + 1) := by rw [Nat.mul_succ]; omega
    _ ≤ base * bound := Nat.mul_le_mul_left base hq

/-- A word with a field replaced: the bits below the field, the field, and the bits above it. -/
theorem Fld.toNat_put (g : Fld) (w : Word) (v : Nat) (h : g.lo + g.width ≤ 32) :
    (g.put w v).toNat = w.toNat % 2 ^ g.lo
      + 2 ^ g.lo * (v % 2 ^ g.width + 2 ^ g.width * (w.toNat / 2 ^ (g.lo + g.width))) := by
  have hlow := Nat.mod_add_div w.toNat (2 ^ g.lo)
  have hhigh : g.get w + 2 ^ g.width * (w.toNat / 2 ^ (g.lo + g.width)) = w.toNat / 2 ^ g.lo := by
    rw [Nat.pow_add, ← Nat.div_div_eq_div_mul]
    exact Nat.mod_add_div _ _
  have hput : w.toNat - g.get w * 2 ^ g.lo + v % 2 ^ g.width * 2 ^ g.lo = w.toNat % 2 ^ g.lo
      + 2 ^ g.lo * (v % 2 ^ g.width + 2 ^ g.width * (w.toNat / 2 ^ (g.lo + g.width))) := by
    rw [← hhigh, Nat.mul_add] at hlow
    rw [Nat.mul_add, Nat.mul_comm (g.get w), Nat.mul_comm (v % _)]
    omega
  have hhighest : w.toNat / 2 ^ (g.lo + g.width) < 2 ^ (32 - (g.lo + g.width)) := by
    rw [Nat.div_lt_iff_lt_mul (Nat.two_pow_pos _), ← Nat.pow_add, Nat.sub_add_cancel h]
    exact w.isLt
  have hlt := add_mul_lt (w.toNat.mod_lt (2 ^ g.lo).pos_of_neZero) (add_mul_lt (v.mod_lt (2 ^ g.width).pos_of_neZero) hhighest)
  rw [← Nat.pow_add, ← Nat.pow_add, ← Nat.add_assoc, Nat.add_sub_cancel' h] at hlt
  rw [Fld.put, Word.toNat_of, hput, Nat.mod_eq_of_lt hlt]

/-- A field reads as before when a field apart from it is replaced. -/
theorem Fld.get_put_apart {f g : Fld} (w : Word) (v : Nat) (h : g.lo + g.width ≤ 32) (hd : f.Apart g) :
    f.get (g.put w v) = f.get w := by
  have hp := Fld.toNat_put g w v h
  have hl : w.toNat % 2 ^ g.lo < 2 ^ g.lo := Nat.mod_lt _ (Nat.two_pow_pos _)
  have hv : v % 2 ^ g.width < 2 ^ g.width := Nat.mod_lt _ (Nat.two_pow_pos _)
  simp only [Fld.get]
  rcases hd with hd | hd
  · -- the field lies below: what is below the replaced one is the same
    have hmod : (g.put w v).toNat % 2 ^ g.lo = w.toNat % 2 ^ g.lo := by
      rw [hp, Nat.add_mul_mod_self_left, Nat.mod_mod]
    have hcut : ∀ x : Nat, x / 2 ^ f.lo % 2 ^ f.width = x % 2 ^ g.lo % 2 ^ (f.lo + f.width) / 2 ^ f.lo := fun x => by
      rw [Nat.mod_mod_of_dvd _ (Nat.pow_dvd_pow 2 hd), Nat.pow_add, Nat.mod_mul_right_div_self]
    rw [hcut, hcut, hmod]
  · -- the field lies above
    have hdiv : (g.put w v).toNat / 2 ^ (g.lo + g.width) = w.toNat / 2 ^ (g.lo + g.width) := by
      rw [hp, Nat.pow_add, ← Nat.div_div_eq_div_mul, Nat.add_mul_div_left _ _ (Nat.two_pow_pos _), Nat.div_eq_of_lt hl,
        Nat.zero_add, Nat.add_mul_div_left _ _ (Nat.two_pow_pos _), Nat.div_eq_of_lt hv, Nat.zero_add]
    have hcut : ∀ x : Nat, x / 2 ^ f.lo = x / 2 ^ (g.lo + g.width) / 2 ^ (f.lo - (g.lo + g.width)) := fun x => by
      rw [Nat.div_div_eq_div_mul, ← Nat.pow_add]
      congr 2
      omega
    rw [hcut, hcut w.toNat, hdiv]

variable {s : State} {f g : Fld}

/-- A field reads as before when another register, or a field apart from it, is written. -/
theorem State.fld_setFld_other (s : State) (v : Nat) (h : g.lo + g.width ≤ 32) (hd : f.off ≠ g.off ∨ f.Apart g) :
    (s.setFld g v).fld f = s.fld f := by
  by_cases ho : f.off = g.off
  · unfold State.fld State.setFld
    rw [ho, State.reg_setReg_eq, Fld.get_put_apart _ _ h (hd.resolve_left (not_not_intro ho))]
  · exact State.fld_congr (State.reg_setReg_ne _ _ _ ho)

theorem State.fld_setFlag_other (s : State) (b : Bool) (h : g.lo + g.width ≤ 32) (hd : f.off ≠ g.off ∨ f.Apart g) :
    (s.setFlag g b).fld f = s.fld f := s.fld_setFld_other _ h hd

theorem State.flag_setFld_other (s : State) (v : Nat) (h : g.lo + g.width ≤ 32) (hd : f.off ≠ g.off ∨ f.Apart g) :
    (s.setFld g v).flag f = s.flag f := by rw [State.flag, s.fld_setFld_other v h hd]; rfl

theorem State.flag_setFlag_other (s : State) (b : Bool) (h : g.lo + g.width ≤ 32) (hd : f.off ≠ g.off ∨ f.Apart g) :
    (s.setFlag g b).flag f = s.flag f := s.flag_setFld_other _ h hd

/-- A field of another register than the one written. -/
theorem State.fld_setReg_other (s : State) {o : Nat} (w : Word) (h : f.off ≠ o) : (s.setReg o w).fld f = s.fld f :=
  State.fld_congr (State.reg_setReg_ne _ _ _ h)

theorem Fld.get_lt (f : Fld) (w : Word) : f.get w < 2 ^ f.width := Nat.mod_lt _ (Nat.two_pow_pos _)

theorem State.fld_lt (s : State) (f : Fld) : s.fld f < 2 ^ f.width := f.get_lt _

end Sys2Proof.Machine
end

section
/-!
SUPPORT. Frames sent on the Fuvon link: what they add to what has left the device, and what they leave as it was (R359, R362, R365).
-/
namespace Sys2Proof.Machine

variable {s : State}

/-! What has left the device. -/

/-- What had left the device is still the beginning of what has left it. -/
theorem keeps_sent_prefix (l : List Emission) (m : Nat) (R : Nat → Prop) :
    Keeps (fun t => l <+: t.sent) m R where
  upd i hi := by
    unfold Upd
    split <;> first
      | exact fun _ _ h => h
      | exact fun _ _ _ h => h
      | trivial
      | exact fun s e h => h.trans (List.prefix_append s.sent [e])
      | exact fun s h => (congrArg (l <+: ·) (deviceReset_sent s)).mpr h
  reg _ _ _ _ h := h

/-- What was in what left the device after an instant is in it still. -/
theorem mem_sent_drop {t u : State} {e : Emission} {n : Nat} (h : t.sent <+: u.sent) (he : e ∈ t.sent.drop n) :
    e ∈ u.sent.drop n := by
  obtain ⟨l, hl⟩ := h
  rw [← hl, List.drop_append]
  exact List.mem_append_left _ he

/-! One frame. -/

/-- The bits of a frame on a lane: a comma, then the frame scrambled and stuffed (R359). -/
def IsLine (bytes : List Byte) (bits : List Bool) : Prop :=
  ∃ sc, bits = comma ++ stuff 0 false (scramble sc (bitsMsb bytes)).1

/-- One copy of a frame is one emission. -/
theorem State.sendOn_one (s : State) (q : Nat) (m : LinkMsg) (lane : Nat) :
    ∃ bits, IsLine (frameBytes m.code q m.payload) bits ∧ s.sendOn q m 1 lane = s.drawFree.emit (.link lane q m bits) :=
  ⟨_, ⟨_, rfl⟩, rfl⟩

/-! A frame on every aligned lane. -/

/-- A frame on each of some lanes, in their order. -/
theorem foldl_sendOn_sent (q : Nat) (m : LinkMsg) (ls : List Nat) (s : State) : ∃ lines : List (List Bool),
    (ls.foldl (fun s l => s.sendOn q m 1 l) s).sent = s.sent ++ (ls.zip lines).map (fun x => .link x.1 q m x.2)
    ∧ lines.length = ls.length ∧ ∀ x ∈ lines, IsLine (frameBytes m.code q m.payload) x := by
  induction ls generalizing s with
  | nil => exact ⟨[], (List.append_nil _).symm, rfl, nofun⟩
  | cons l ls ih =>
    obtain ⟨bits, hbits, hone⟩ := s.sendOn_one q m l
    obtain ⟨lines, hsent, hlen, hlines⟩ := ih (s.sendOn q m 1 l)
    refine ⟨bits :: lines, ?_, congrArg Nat.succ hlen, List.forall_mem_cons.mpr ⟨hbits, hlines⟩⟩
    rw [List.foldl_cons, hsent, hone]
    exact List.append_assoc s.sent [_] _

/-- The pair state after a message of a type: its next number is taken. -/
def Mlk.countTx (x : Mlk) (type : Nat) : Mlk :=
  { x with txSeq := SMap.put (fun _ => 0) x.txSeq type (SMap.get (fun _ => 0) x.txSeq type + 1) }

@[simp] theorem State.sendAll_mlk (s : State) (m : LinkMsg) (n : Nat) : (s.sendAll m n).mlk = s.mlk.countTx m.code :=
  foldl_keeps (P := fun t => t.mlk = s.mlk.countTx m.code) rfl
    (fun _ _ h => State.sendOn_keeps (keeps_mlk rfl rfl) _ _ _ _ h)

@[simp] theorem State.sendAll_regs (s : State) (m : LinkMsg) (n : Nat) : (s.sendAll m n).regs = s.regs :=
  State.sendAll_keeps (keeps_regs rfl rfl rfl) m n rfl

/-- A message goes out on every aligned lane, with the next number of its type (R362). -/
theorem State.sendAll_sent (s : State) (m : LinkMsg) : ∃ lines : List (List Bool),
    (s.sendAll m 1).sent = s.sent ++ (s.lanesUp.zip lines).map
      (fun x => .link x.1 (SMap.get (fun _ => 0) s.mlk.txSeq m.code % 2 ^ 24) m x.2)
    ∧ lines.length = s.lanesUp.length
    ∧ ∀ x ∈ lines, IsLine (frameBytes m.code (SMap.get (fun _ => 0) s.mlk.txSeq m.code % 2 ^ 24) m.payload) x :=
  foldl_sendOn_sent _ m s.lanesUp (s.putMlk (s.mlk.countTx m.code))

/-- A message on every aligned lane is among what left the device since. -/
theorem State.sendAll_mem (s : State) (m : LinkMsg) {j : Nat} (hj : j ∈ s.lanesUp) :
    ∃ q bits, Emission.link j q m bits ∈ (s.sendAll m 1).sent.drop s.sent.length := by
  obtain ⟨lines, hsent, hlen, -⟩ := s.sendAll_sent m
  rw [← List.map_fst_zip (l₂ := lines) (Nat.le_of_eq hlen.symm)] at hj
  obtain ⟨x, hx, rfl⟩ := List.mem_map.mp hj
  rw [hsent, List.drop_left]
  exact ⟨_, x.2, List.mem_map_of_mem hx⟩

/-! The identity (R361). -/

/-- An identity went out on every lane now aligned. -/
abbrev State.IdentitySent (s t : State) : Prop :=
  ∀ j ∈ t.lanesUp, ∃ q m bits, Emission.link j q m bits ∈ t.sent.drop s.sent.length ∧ m.code = 2

@[simp] theorem State.sendIdentity_mlk (s : State) : s.sendIdentity.mlk = s.mlk.countTx 2 := s.sendAll_mlk _ 1

@[simp] theorem State.sendIdentity_regs (s : State) : s.sendIdentity.regs = s.regs := s.sendAll_regs _ 1

theorem State.sendIdentity_mem (s : State) {j : Nat} (hj : j ∈ s.lanesUp) :
    ∃ q m bits, Emission.link j q m bits ∈ s.sendIdentity.sent.drop s.sent.length ∧ m.code = 2 := by
  obtain ⟨q, bits, h⟩ := s.sendAll_mem _ hj
  exact ⟨q, _, bits, h, rfl⟩

/-! Mirror frames, each on one of the aligned lanes (R365). -/

@[simp] theorem State.sendOne_mlk (s : State) (q : Nat) (m : LinkMsg) : (s.sendOne q m).mlk = s.mlk :=
  State.sendOne_keeps (keeps_mlk rfl rfl) q m rfl

@[simp] theorem State.sendOne_regs (s : State) (q : Nat) (m : LinkMsg) : (s.sendOne q m).regs = s.regs :=
  State.sendOne_keeps (keeps_regs rfl rfl rfl) q m rfl

theorem State.lanesUp_congr {t : State} (h : t.regs = s.regs) : t.lanesUp = s.lanesUp := by
  simp only [State.lanesUp, State.fld, State.reg, h]

/-- One frame, on an aligned lane where there is one. -/
theorem State.sendOne_sent (s : State) (q : Nat) (m : LinkMsg) : ∃ (lane : Nat) (bits : List Bool),
    (s.sendOne q m).sent = s.sent ++ [.link lane q m bits] ∧ (s.lanesUp ≠ [] → lane ∈ s.lanesUp) := by
  refine ⟨_, _, rfl, fun h => ?_⟩
  have hlt : s.freeVal % s.lanesUp.length < s.lanesUp.length := Nat.mod_lt _ (List.length_pos_iff.mpr h)
  rw [List.getD_eq_getElem?_getD, List.getElem?_eq_getElem hlt, Option.getD_some]
  exact List.getElem_mem hlt

/-- A mirror frame sent again (R365). -/
def State.resend (s : State) (x : MirrorTx) : State := s.sendOne (x.seq % 2 ^ 24) (.mirror x.dest x.data)

/-- Frames sent again in their order, each on an aligned lane where there is one. -/
theorem foldl_resend_sent (tx : List MirrorTx) (s : State) : ∃ lines : List (Nat × List Bool),
    (tx.foldl State.resend s).sent
      = s.sent ++ (tx.zip lines).map (fun x => .link x.2.1 (x.1.seq % 2 ^ 24) (.mirror x.1.dest x.1.data) x.2.2)
    ∧ lines.length = tx.length ∧ (s.lanesUp ≠ [] → ∀ x ∈ lines, x.1 ∈ s.lanesUp) := by
  induction tx generalizing s with
  | nil => exact ⟨[], (List.append_nil _).symm, rfl, fun _ => nofun⟩
  | cons x tx ih =>
    obtain ⟨lane, bits, hone, hlane⟩ := s.sendOne_sent (x.seq % 2 ^ 24) (.mirror x.dest x.data)
    obtain ⟨lines, hsent, hlen, hlines⟩ := ih (s.resend x)
    have hup : (s.resend x).lanesUp = s.lanesUp := State.lanesUp_congr (s.sendOne_regs _ _)
    rw [hup] at hlines
    refine ⟨(lane, bits) :: lines, ?_, congrArg Nat.succ hlen,
      fun h => List.forall_mem_cons.mpr ⟨hlane h, hlines h⟩⟩
    rw [List.foldl_cons, hsent, State.resend, hone]
    exact List.append_assoc s.sent [_] _

end Sys2Proof.Machine
end

section
/-!
SUPPORT. The lanes of the Fuvon link: which frames are taken in on a lane, and what that changes (R361, R362).
-/
namespace Sys2Proof.Machine

variable {s : State}

/-! Registers and lanes after an update of either. -/

@[simp] theorem State.putMlk_flag (s : State) (x : Mlk) (f : Fld) : (s.putMlk x).flag f = s.flag f := rfl
@[simp] theorem State.putMlk_reg (s : State) (x : Mlk) (o : Nat) : (s.putMlk x).reg o = s.reg o := rfl

@[simp] theorem State.setLane_fld (s : State) (l : Nat) (x : LaneSt) (f : Fld) : (s.setLane l x).fld f = s.fld f := rfl
@[simp] theorem State.setLane_reg (s : State) (l : Nat) (x : LaneSt) (o : Nat) : (s.setLane l x).reg o = s.reg o := rfl

@[simp] theorem State.reg_bump_eq (s : State) (o : Nat) : (s.bump o).reg o = s.reg o + 1 := State.reg_setReg_eq _ _ _

theorem State.reg_bump_ne (s : State) {o o' : Nat} (h : o' ≠ o) : (s.bump o).reg o' = s.reg o' := State.reg_setReg_ne _ _ _ h

theorem State.fld_bump_other (s : State) {o : Nat} {f : Fld} (h : f.off ≠ o) : (s.bump o).fld f = s.fld f :=
  s.fld_setReg_other _ h

theorem State.fld_congr_regs {t : State} (h : t.regs = s.regs) (f : Fld) : t.fld f = s.fld f := by
  rw [State.fld, State.reg, h]; rfl

theorem State.flag_congr_regs {t : State} (h : t.regs = s.regs) (f : Fld) : t.flag f = s.flag f := by
  rw [State.flag, State.fld_congr_regs h]; rfl

theorem State.reg_congr_regs {t : State} (h : t.regs = s.regs) (o : Nat) : t.reg o = s.reg o := by
  rw [State.reg, h]; rfl

@[simp] theorem State.lane_setLane_eq (s : State) (l : Nat) (x : LaneSt) : (s.setLane l x).lane l = x :=
  SMap.get_put_eq s.mlk.lanes l x

theorem State.lane_setLane_ne (s : State) (x : LaneSt) {l j : Nat} (h : j ≠ l) : (s.setLane l x).lane j = s.lane j :=
  SMap.get_put_ne s.mlk.lanes l x h

theorem State.lane_congr {t : State} (h : t.mlk.lanes = s.mlk.lanes) (l : Nat) : t.lane l = s.lane l := by
  rw [State.lane, h]; rfl

/-- A lane's state changes nothing of the pair but the lanes. -/
theorem State.setLane_mlk (s : State) (l : Nat) (x : LaneSt) :
    (s.setLane l x).mlk = { s.mlk with lanes := (s.setLane l x).mlk.lanes } := rfl

theorem State.linkUp_iff : s.linkUp = true ↔ s.fld MLK_LINK_STATUS.STATE = 4 := beq_iff_eq

theorem State.linkUp_false (h : s.fld MLK_LINK_STATUS.STATE ≠ 4) : s.linkUp = false := beq_eq_false_iff_ne.mpr h

/-! Frames taken and not taken. -/

/-- Nothing is taken on a lane that is not aligned. -/
theorem State.laneTakes_unaligned {l : Nat} (h : ¬ bitOf (s.fld MLK_LINK_STATUS.LANES_UP) l = true) :
    s.laneTakes l = (s, false) := by
  rw [State.laneTakes, Bool.eq_false_iff.mpr h]
  rfl

/-- The first frame after alignment is not taken, the next is. -/
theorem State.laneTakes_fresh {l : Nat} (h : bitOf (s.fld MLK_LINK_STATUS.LANES_UP) l = true) (hf : (s.lane l).fresh = true) :
    s.laneTakes l = (s.setLane l { s.lane l with fresh := false }, false) := by
  rw [State.laneTakes, h, if_neg (by decide), if_pos hf]

/-- A lane hears: it is aligned, and its first frame has come. -/
abbrev State.Hears (s : State) (l : Nat) : Prop :=
  bitOf (s.fld MLK_LINK_STATUS.LANES_UP) l = true ∧ (s.lane l).fresh = false

theorem State.laneTakes_hears {l : Nat} (h : s.Hears l) : s.laneTakes l = (s, true) := by
  obtain ⟨hup, hf⟩ := h
  rw [State.laneTakes, hup, hf]
  rfl

/-- A frame that its lane does not take is not received. -/
theorem State.receive_not_taken {l : Nat} {u : State} (h : s.laneTakes l = (u, false)) (type seq : Nat) :
    s.receive type l seq = (u, false) := by
  rw [State.receive, h]

/-- A copy of the latest frame of its type counts no more. -/
theorem State.receive_again {l type seq : Nat} (h : s.Hears l) (hq : SMap.get (fun _ => none) s.mlk.rxSeq type = some seq) :
    s.receive type l seq = (s, false) := by
  rw [State.receive, State.laneTakes_hears h]
  exact if_pos hq

/-- The pair state with the number of the latest frame of a type. -/
def Mlk.heard (x : Mlk) (type seq : Nat) : Mlk := { x with rxSeq := SMap.put (fun _ => none) x.rxSeq type (some seq) }

theorem State.receive_new {l type seq : Nat} (h : s.Hears l) (hq : SMap.get (fun _ => none) s.mlk.rxSeq type ≠ some seq) :
    s.receive type l seq = (s.putMlk (s.mlk.heard type seq), true) := by
  rw [State.receive, State.laneTakes_hears h]
  exact if_neg hq

/-- A frame that its lane does not take changes nothing but what the lane itself changes, whichever row of the link it is. -/
theorem exec_not_taken {u : State} {l : Fin 4} (hl : s.laneTakes l = (u, false)) (frame : Nat) (before bits : List Bool)
    (seq : BitVec 24) (h : Heartbeat) (x : Identity) (safe : Bool) (cause : Fin 256) (port : Fin 16) (dest : BitVec 32)
    (data : List Byte) (hu : u = s ∨ s.linkUp = true ∧ data.length ≤ 112) :
    ∀ c ∈ [Instr.linkFrameDiscarded l frame before bits, .heartbeat l seq h, .identity l seq x, .faultMessage l seq safe cause port,
      .mirrorData l seq dest data], exec c s = .next u := by
  have hguard : ∀ {p : Prop} [Decidable p] {v : State}, (s.linkUp = true → data.length ≤ 112 → ¬ p) → v = u →
      (Host.Outcome.next (if p then s else v) : Host.Outcome State Fault Refusal) = .next u := by
    intro p _ v hp hv
    rcases hu with rfl | ⟨hup, hlen⟩
    · rw [hv, ite_self]
    · rw [if_neg (hp hup hlen), hv]
  have hr := State.receive_not_taken hl
  simp only [List.forall_mem_cons]
  refine ⟨?frame, ?heartbeat, ?identity, ?fault, ?mirror, nofun⟩
  case frame => simp only [exec, execLinkFrameDiscarded, hl]
  case heartbeat => exact hguard (fun hup _ => by rw [hup]; decide) (by rw [hr])
  case identity => exact hguard (fun hup _ => by rw [State.linkUp_iff.mp hup]; decide) (by rw [hr])
  case fault => exact hguard (fun hup _ => by rw [hup]; decide) (by rw [hr])
  case mirror => exact hguard (fun hup hlen => by rw [hup, decide_eq_false (Nat.not_lt.mpr hlen)]; decide) (by rw [hl])

end Sys2Proof.Machine
end

section
/-!
SUPPORT. The report of a diagnostic that is only logged (R391), and the link leaving UP (R376).
-/
namespace Sys2Proof.Machine

variable {s : State}

/-! Raises. -/

/-- A raise counts no other event source. -/
theorem raiseEvent_count_ne (s : State) (d : Nat) {p q : Nat} (h : p % 64 ≠ q % 64) :
    (s.raiseEvent q d).reg (HIF_EV_COUNT.reg p) = s.reg (HIF_EV_COUNT.reg p) := by
  have hcount : HIF_EV_COUNT.reg p ≠ HIF_EV_COUNT.reg q := by
    simp only [HIF_EV_COUNT.reg]
    omega
  rw [raiseEvent_tail _ _ _ _ (fun r => EV_COUNT_ne_discard _ r), State.reg_bump_ne _ hcount,
    State.reg_setReg_ne _ _ _ (Ne.symm (EV_PEND_ne_count _ _))]

/-- A register outside those of a raise is as it was. -/
theorem raiseEvent_reg (s : State) (q d : Nat) {o : Nat} (h : ¬ eventReg o) : (s.raiseEvent q d).reg o = s.reg o :=
  (raiseEvent_frame s q d).regs o h

/-- The registers of a raise lie in the HIF block. -/
theorem eventReg_range {o : Nat} (h : eventReg o) : 0x190000 ≤ o ∧ o < 0x1A0000 := by
  simp only [eventReg, HIF_EV_COUNT.reg, HIF_EV_PEND_LO.reg, HIF_RING_DISCARD_COUNT.reg] at h
  rcases h with ⟨q, rfl⟩ | ⟨i, rfl⟩ | ⟨r, rfl⟩ <;> omega

theorem not_eventReg {o : Nat} (h : o < 0x190000 ∨ 0x1A0000 ≤ o) : ¬ eventReg o := fun he => by
  have := eventReg_range he
  omega

/-! A logged diagnostic. -/

/-- A logged diagnostic is counted with its time and history, EV54 or EV55 is raised, and what follows is only kept in the
histories and the recorder's queue. -/
theorem diagEvent_log (s : State) {d : Nat} (p : Nat) (hd : diagReaction d = 0) : ∃ q detail x, (q = 54 ∨ q = 55) ∧
    ∀ {P : State → Prop}, Keeps P 0x60 State.record_offs →
      P ((((s.bump (SAF_DIAG_COUNT.reg d)).setNat (SAF_DIAG_LAST.reg d) s.time).setDiag d p x).raiseEvent q detail) →
      P (s.diagEvent d p) := by
  have hr : ∀ t : State, t.diagReact d p = t := fun t => by rw [State.diagReact, hd]; rfl
  unfold State.diagEvent
  extract_lets u v h n times lasting w detail t t'
  by_cases hl : lasting = true
  · refine ⟨54, detail, { h with times := times, lasting := h.lasting || lasting }, .inl rfl, fun {P} K hp => ?_⟩
    have hrec : P t := State.record_keeps (K.sub rfl (fun _ h => h)) recLasting _ _ hp
    rw [if_pos hl, hr]
    exact ite_keeps (State.setDiag_keeps (K.sub rfl nofun) _ _ _ hrec) hrec
  · refine ⟨55, detail, { h with times := times, lasting := h.lasting || lasting }, .inr rfl, fun {P} K hp => ?_⟩
    rw [if_neg hl]
    exact State.transientRecord_keeps K _ _ _ hp

/-- The one register of the recorder's queue. -/
theorem record_offs_ne {o : Nat} (h : o ≠ EVR_LOST_COUNT.reg) : ¬ State.record_offs o := h

/-- A logged diagnostic reports (R391). -/
theorem diagEvent_log_reports (s : State) {d : Nat} (p : Nat) (hd : diagReaction d = 0) : s.Reports (s.diagEvent d p) d := by
  obtain ⟨q, detail, x, hq, hP⟩ := diagEvent_log s p hd
  refine ⟨?count, ?pend⟩
  case count =>
    refine hP (P := fun t => t.reg (SAF_DIAG_COUNT.reg d) = _) (keeps_reg rfl rfl (.inl rfl) (record_offs_ne ?_)) ?_
    · simp only [SAF_DIAG_COUNT.reg, EVR_LOST_COUNT.reg]
      omega
    · have hne : SAF_DIAG_COUNT.reg d ≠ SAF_DIAG_LAST.reg d := by
        simp only [SAF_DIAG_COUNT.reg, SAF_DIAG_LAST.reg]
        omega
      rw [raiseEvent_reg _ _ _ (not_eventReg (.inr (by simp only [SAF_DIAG_COUNT.reg]; omega)))]
      exact (State.reg_setReg_ne _ _ _ hne).trans (s.reg_bump_eq _)
  case pend =>
    have hpend : (s.diagEvent d p).evPending q := by
      refine hP (keeps_evPending q rfl rfl fun i => record_offs_ne ?_) (raiseEvent_raised _ _ _).pend
      simp only [HIF_EV_PEND_LO.reg, EVR_LOST_COUNT.reg]
      omega
    rcases hq with rfl | rfl
    · exact .inl hpend
    · exact .inr hpend

/-- A logged diagnostic leaves an event raised before it raised, EV54 and EV55 apart. -/
theorem diagEvent_log_raised {r t : State} {d e : Nat} (p : Nat) (hd : diagReaction d = 0) (he : e < 54) (h : r.Raised t e) :
    r.Raised (t.diagEvent d p) e where
  pend := by
    refine diagEvent_log_keeps (keeps_evPending e rfl rfl ?_) d p hd h.pend
    intro i hi
    simp only [diagLogReg, State.raiseEvent_offs, State.offerRaise_offs, State.pushRecord_offs, State.discardBlock_offs,
      SAF_DIAG_COUNT.reg, SAF_DIAG_LAST.reg, EVR_LOST_COUNT.reg, HIF_EV_COUNT.reg, HIF_EV_PEND_LO.reg,
      HIF_RING_DISCARD_COUNT.reg] at hi
    rcases hi with ⟨n, h⟩ | ⟨n, h⟩ | h | ⟨n, h⟩ | ⟨n, h⟩ <;> omega
  count := by
    obtain ⟨q, detail, x, hq, hP⟩ := diagEvent_log t p hd
    refine hP (P := fun u => u.reg (HIF_EV_COUNT.reg e) = _) (keeps_reg rfl rfl (.inl rfl) (record_offs_ne ?_)) ?_
    · simp only [HIF_EV_COUNT.reg, EVR_LOST_COUNT.reg]
      omega
    · have hcount : HIF_EV_COUNT.reg e ≠ SAF_DIAG_COUNT.reg d := by
        simp only [HIF_EV_COUNT.reg, SAF_DIAG_COUNT.reg]
        omega
      have hlast : HIF_EV_COUNT.reg e ≠ SAF_DIAG_LAST.reg d := by
        simp only [HIF_EV_COUNT.reg, SAF_DIAG_LAST.reg]
        omega
      rw [raiseEvent_count_ne _ _ (by omega)]
      exact (State.reg_setReg_ne _ _ _ hlast).trans ((State.reg_bump_ne _ hcount).trans h.count)

/-- The registers of a logged diagnostic lie in the blocks of the scorekeeper, the recorder and the host interface. -/
theorem diagLogReg_blocks {o : Nat} (h : diagLogReg o) : regsIn [.hif, .saf, .evr] o := by
  rcases h with ⟨n, rfl⟩ | ⟨n, rfl⟩ | rfl | h
  · exact ⟨.saf, by decide, by simp only [RegBlock.range, SAF_DIAG_COUNT.reg]; omega⟩
  · exact ⟨.saf, by decide, by simp only [RegBlock.range, SAF_DIAG_LAST.reg]; omega⟩
  · exact ⟨.evr, by decide, by decide⟩
  · exact ⟨.hif, by decide, eventReg_range (raiseEvent_regs o h)⟩

theorem not_regsIn {bs : List RegBlock} {o : Nat} (h : ∀ b ∈ bs, o < b.range.1 ∨ b.range.2 ≤ o) : ¬ regsIn bs o := by
  rintro ⟨b, hb, hlo, hhi⟩
  have := h b hb
  omega

/-- A register of the blocks between is none of a logged diagnostic. -/
theorem not_diagLogReg {o : Nat} (h : 0x1A0000 ≤ o ∧ o < 0x1E0000) : ¬ diagLogReg o := fun hd => by
  refine not_regsIn ?_ (diagLogReg_blocks hd)
  simp only [List.forall_mem_cons, RegBlock.range]
  exact ⟨.inr h.1, .inl h.2, .inl (by omega), nofun⟩

theorem regsIn_mono {bs bs' : List RegBlock} (h : bs ⊆ bs') {o : Nat} (ho : regsIn bs o) : regsIn bs' o := by
  obtain ⟨b, hb, hr⟩ := ho
  exact ⟨b, h hb, hr⟩

theorem eventPend_ne {o : Nat} (h : 0x1A0000 ≤ o) (i : Nat) : o ≠ HIF_EV_PEND_LO.reg + 4 * (i % 2) := fun e =>
  not_eventReg (.inr h) (.inr (.inl ⟨i, e⟩))

theorem eventPend_blocks {bs : List RegBlock} (h : .hif ∈ bs) (i : Nat) : regsIn bs (HIF_EV_PEND_LO.reg + 4 * (i % 2)) :=
  ⟨.hif, h, eventReg_range (.inr (.inl ⟨i, rfl⟩))⟩

/-! The link leaves UP (R376). -/

/-- The link left UP between `s` and `t`: DOWN_SEEN and the count, EV48 and its diagnostic, and what they bring with them. -/
abbrev State.LeftUp (s t : State) : Prop :=
  t.flag MLK_LINK_STATUS.DOWN_SEEN = true ∧ t.reg MLK_LINK_DOWN_COUNT.reg = s.reg MLK_LINK_DOWN_COUNT.reg + 1
    ∧ s.Raised t 48 ∧ s.Reports t 0x18 ∧ s.Reacts t [.mlk] []

/-- A link that leaves UP is marked and counted. -/
def State.markDown (s : State) : State := (s.bump MLK_LINK_DOWN_COUNT.reg).setFlag MLK_LINK_STATUS.DOWN_SEEN true

theorem State.markDown_reg (s : State) {o : Nat} (hs : o ≠ MLK_LINK_STATUS.reg) (hc : o ≠ MLK_LINK_DOWN_COUNT.reg) :
    s.markDown.reg o = s.reg o := (State.reg_setFld_ne _ _ _ hs).trans (s.reg_bump_ne hc)

/-- The registers of the lanes and of the link's state. -/
def laneReg : RegSet := fun o => o = MLK_LINK_STATUS.reg ∨ ∃ l, o = MLK_LANE_COMMA_LOSS_COUNT.reg l

/-- The registers written as the link leaves UP. -/
def linkDownReg : RegSet := fun o => o = MLK_LINK_DOWN_COUNT.reg ∨ o = MLK_LINK_STATUS.reg ∨ diagLogReg o

/-- LINK_DOWN is a logged diagnostic. -/
theorem linkDown_keeps_log {P : State → Prop} (K : Keeps P 0x440000070 linkDownReg) {s : State} (lanes : Nat) (clock : Bool)
    (hs : P s) : P (s.linkDown lanes clock) := by
  have klog : Keeps P 0x440000070 diagLogReg := K.sub rfl (fun _ h => .inr (.inr h))
  have kev : Keeps P 0x440000010 State.raiseEvent_offs := klog.sub rfl (fun _ h => .inr (.inr (.inr h)))
  exact diagEvent_log_keeps klog 0x18 15 rfl (State.raiseEvent_keeps kev 48 _
    (setFlag_keeps (bump_keeps hs (K.reg _ (.inl rfl))) (K.reg _ (.inr (.inl rfl)))))

@[simp] theorem State.linkDown_mlk (s : State) (lanes : Nat) (clock : Bool) : (s.linkDown lanes clock).mlk = s.mlk :=
  linkDown_keeps_log (keeps_mlk rfl rfl) lanes clock rfl

/-- Beyond its count and DOWN_SEEN, leaving UP touches no register of the MLK block. -/
theorem State.linkDown_reg (s : State) (lanes : Nat) (clock : Bool) {o : Nat} (h : 0x1A0000 ≤ o ∧ o < 0x1E0000) :
    (s.linkDown lanes clock).reg o = s.markDown.reg o :=
  diagEvent_log_keeps (P := fun t => t.reg o = s.markDown.reg o)
    (keeps_reg rfl rfl (.inr (eventPend_ne h.1)) (not_diagLogReg h)) 0x18 15 rfl
    (raiseEvent_reg _ _ _ (not_eventReg (.inr h.1)))

/-- A field of the link's status but DOWN_SEEN is as it was. -/
theorem State.linkDown_fld (s : State) (lanes : Nat) (clock : Bool) {f : Fld} (hf : f.off = MLK_LINK_STATUS.reg)
    (hd : f.Apart MLK_LINK_STATUS.DOWN_SEEN) : (s.linkDown lanes clock).fld f = s.fld f := by
  have h := s.linkDown_reg lanes clock (o := f.off) (by rw [hf]; decide)
  rw [State.fld, h]
  exact ((s.bump _).fld_setFlag_other true (by decide) (.inr hd)).trans (s.fld_bump_other (by rw [hf]; decide))

/-- A link that leaves UP after changes of the lanes and of its state alone. -/
theorem linkDown_leftUp {s u : State} (h : s.Frame u [.mlk] laneReg) (lanes : Nat) (clock : Bool) :
    s.LeftUp (u.linkDown lanes clock) := by
  have hreg : ∀ o, (o < 0x1D000C ∨ 0x1D0060 ≤ o) → u.reg o = s.reg o := fun o ho => h.regs o fun hl => by
    simp only [laneReg, MLK_LINK_STATUS.reg, MLK_LANE_COMMA_LOSS_COUNT.reg] at hl
    rcases hl with rfl | ⟨l, rfl⟩ <;> omega
  refine ⟨?seen, ?count, ?raised, ?reports, ?frame⟩
  case seen =>
    rw [State.flag_congr (u.linkDown_reg lanes clock (by decide))]
    exact State.flag_setFlag _ _ _ (by decide) rfl
  case count =>
    rw [u.linkDown_reg lanes clock (by decide), ← hreg _ (.inr (by decide))]
    exact (State.reg_setReg_ne _ _ _ (by decide)).trans (u.reg_bump_eq _)
  case raised =>
    refine diagEvent_log_raised 15 rfl (by decide) ?_
    obtain ⟨hp, hc⟩ := raiseEvent_raised u.markDown 48 (lanes + bitAt clock 8)
    refine ⟨hp, hc.trans (congrArg (· + 1) ?_)⟩
    exact (u.markDown_reg (by decide) (by decide)).trans (hreg _ (.inl (by decide)))
  case reports =>
    obtain ⟨hc, hp⟩ := diagEvent_log_reports (u.markDown.raiseEvent 48 (lanes + bitAt clock 8)) (d := 0x18) 15 rfl
    refine ⟨hc.trans (congrArg (· + 1) ?_), hp⟩
    rw [raiseEvent_reg _ _ _ (not_eventReg (.inr (by decide))), u.markDown_reg (by decide) (by decide)]
    exact hreg _ (.inr (by decide))
  case frame =>
    refine linkDown_keeps_log (keeps_frame_ev _ (by decide) (eventPend_blocks (by decide)) ?regs) lanes clock ⟨?parts, ?other⟩
    case regs =>
      rintro o (rfl | rfl | ho)
      · exact ⟨.mlk, by decide, by decide⟩
      · exact ⟨.mlk, by decide, by decide⟩
      · exact regsIn_mono (by decide) (diagLogReg_blocks ho)
    case parts => exact fun c hc => h.parts c (fun hm => hc (List.mem_append_left _ hm))
    case other =>
      refine fun o ho => hreg o (Nat.lt_or_ge o 0x1D000C |>.imp_right fun hlo => ?_)
      exact Nat.le_of_not_lt fun hhi => ho ⟨.mlk, by decide, by simp only [RegBlock.range]; omega⟩

end Sys2Proof.Machine
end

section
/-!
PROOFS. Lanes align and are lost, the partner's clock comes and goes, and frames in error are counted (R359, R361, R376).
-/
namespace Sys2Proof.Machine

variable {s : State}

/-- A bit set or cleared below a bound keeps a number below it. -/
theorem putBit_lt {n m i : Nat} (hm : m < 2 ^ n) (hi : i < n) (b : Bool) : putBit m i b < 2 ^ n := by
  refine Nat.lt_pow_two_of_testBit _ fun j hj => ?_
  rw [testBit_putBit, if_neg (by omega)]
  exact Nat.testBit_lt_two_pow (Nat.lt_of_lt_of_le hm (Nat.pow_le_pow_right (by decide) hj))

/-- The mask of the aligned lanes reads back with a lane added or taken. -/
theorem lanesUp_setFld (s u : State) (l : Fin 4) (b : Bool) :
    (u.setFld MLK_LINK_STATUS.LANES_UP (putBit (s.fld MLK_LINK_STATUS.LANES_UP) l b)).fld MLK_LINK_STATUS.LANES_UP
      = putBit (s.fld MLK_LINK_STATUS.LANES_UP) l b :=
  (State.fld_setFld _ _ _ (by decide)).trans (Nat.mod_eq_of_lt (putBit_lt (s.fld_lt MLK_LINK_STATUS.LANES_UP) l.isLt b))

/-- The link's state reads back. -/
theorem State.setLink_state (s : State) {st : Nat} (h : st < 8) : (s.setLink st).fld MLK_LINK_STATUS.STATE = st :=
  (State.fld_setFld _ _ _ (by decide)).trans (Nat.mod_eq_of_lt h)

/-- A field of the link's status beside STATE. -/
theorem State.setLink_fld (s : State) (st : Nat) {f : Fld} (h : f.off ≠ MLK_LINK_STATUS.reg ∨ f.Apart MLK_LINK_STATUS.STATE) :
    (s.setLink st).fld f = s.fld f := s.fld_setFld_other st (by decide) h

@[simp] theorem State.setLink_mlk (s : State) (st : Nat) : (s.setLink st).mlk = s.mlk := rfl

/-- A frame that a write of one of its registers keeps. -/
theorem State.Frame.setReg {t : State} {cs : List Comp} {R : RegSet} {o : Nat} (h : s.Frame t cs R) (hR : R o) (w : Word) :
    s.Frame (t.setReg o w) cs R where
  parts c hc := by
    have := h.parts c hc
    cases c <;> exact this
  regs o' ho := (State.reg_setReg_ne _ _ _ fun e => ho (by rw [e]; exact hR)).trans (h.regs o' ho)

/-- A frame that a change of the pair's state keeps. -/
theorem State.Frame.putMlk {t : State} {cs : List Comp} {R : RegSet} (h : s.Frame t cs R) (hc : .mlk ∈ cs) (x : Mlk) :
    s.Frame (t.putMlk x) cs R where
  parts c hcs := by
    have := h.parts c hcs
    cases c <;> first
      | exact this
      | exact absurd hc hcs
  regs o ho := h.regs o ho

/-! LANE_ALIGN. -/

/-- Lane `l` is aligned, and its first frame is still to come. -/
def State.alignLane (s : State) (l : Nat) : State :=
  (s.setFld MLK_LINK_STATUS.LANES_UP (putBit (s.fld MLK_LINK_STATUS.LANES_UP) l true)).setLane l { fresh := true }

/-- Without three commas, on an aligned lane or before ALIGN nothing aligns. -/
theorem laneAlign_idle (l : Fin 4) (gaps : List Nat) (h : s.fld MLK_LINK_STATUS.STATE < 2
    ∨ bitOf (s.fld MLK_LINK_STATUS.LANES_UP) l = true ∨ gaps.take 2 ≠ [1024, 1024]) : exec (.laneAlign l gaps) s = .next s := by
  refine congrArg Host.Outcome.next (if_pos ?_)
  rw [threeCommas, Bool.or_eq_true, Bool.or_eq_true, decide_eq_true_iff, Bool.not_eq_true', beq_eq_false_iff_ne, or_assoc]
  exact h

/-- Three commas align a lane, and the first lane brings IDENT. -/
theorem laneAlign_exec (l : Fin 4) (gaps : List Nat) (hst : 2 ≤ s.fld MLK_LINK_STATUS.STATE)
    (hl : ¬ bitOf (s.fld MLK_LINK_STATUS.LANES_UP) l = true) (hg : gaps.take 2 = [1024, 1024]) : exec (.laneAlign l gaps) s
      = .next (if s.fld MLK_LINK_STATUS.STATE = 2 then ((s.alignLane l).setLink 3).sendIdentity else s.alignLane l) := by
  refine congrArg Host.Outcome.next (if_neg ?_)
  simp only [threeCommas, linkAlign, hl, hg, Nat.not_lt.mpr hst]
  decide

theorem State.alignLane_lanesUp (s : State) (l : Fin 4) : (s.alignLane l).fld MLK_LINK_STATUS.LANES_UP
    = putBit (s.fld MLK_LINK_STATUS.LANES_UP) l true := lanesUp_setFld s s l true

theorem State.alignLane_state (s : State) (l : Nat) : (s.alignLane l).fld MLK_LINK_STATUS.STATE
    = s.fld MLK_LINK_STATUS.STATE := s.fld_setFld_other _ (by decide) (.inr (by decide))

theorem State.alignLane_frame (s : State) (l : Nat) :
    s.Frame (s.alignLane l) [.mlk] (fun o => o = MLK_LINK_STATUS.reg) := by
  refine State.Frame.putMlk (State.Frame.setReg (State.Frame.refl s _ _) ?_ _) (by decide) _
  rfl

theorem laneAlign_aligns (l : Fin 4) (gaps : List Nat) (hst : 2 ≤ s.fld MLK_LINK_STATUS.STATE)
    (hl : ¬ bitOf (s.fld MLK_LINK_STATUS.LANES_UP) l = true) (hg : gaps.take 2 = [1024, 1024]) :
    Completes (.laneAlign l gaps) s (fun t =>
      t.fld MLK_LINK_STATUS.LANES_UP = putBit (s.fld MLK_LINK_STATUS.LANES_UP) l.val true
      ∧ t.fld MLK_LINK_STATUS.STATE = (if s.fld MLK_LINK_STATUS.STATE = 2 then 3 else s.fld MLK_LINK_STATUS.STATE)
      ∧ t.lane l = { fresh := true } ∧ (∀ j, j ≠ l.val → t.lane j = s.lane j)
      ∧ (s.fld MLK_LINK_STATUS.STATE = 2 → s.IdentitySent t
        ∧ s.Frame t [.mlk, .sent, .freeCtr] (fun o => o = MLK_LINK_STATUS.reg))
      ∧ (s.fld MLK_LINK_STATUS.STATE ≠ 2 → s.Frame t [.mlk] (fun o => o = MLK_LINK_STATUS.reg))) := by
  have hlane : (s.alignLane l).lane l = { fresh := true } := State.lane_setLane_eq _ _ _
  have hothers : ∀ j, j ≠ l.val → (s.alignLane l).lane j = s.lane j := fun j hj => State.lane_setLane_ne _ _ hj
  refine ⟨_, laneAlign_exec l gaps hst hl hg, ?_⟩
  by_cases h2 : s.fld MLK_LINK_STATUS.STATE = 2
  · -- the first lane: IDENT, in which the identity goes out
    rw [if_pos h2, if_pos h2]
    have hregs := ((s.alignLane l).setLink 3).sendIdentity_regs
    have hlanes : ∀ j, (((s.alignLane l).setLink 3).sendIdentity).lane j = (s.alignLane l).lane j := fun j =>
      State.lane_congr (by rw [State.sendIdentity_mlk]; rfl) j
    refine ⟨?_, ?_, (hlanes l).trans hlane, fun j hj => (hlanes j).trans (hothers j hj), fun _ => ⟨fun j hj => ?_, ?_⟩,
      fun h => absurd h2 h⟩
    · rw [State.fld_congr_regs hregs, State.setLink_fld _ _ (.inr (by decide)), s.alignLane_lanesUp]
    · rw [State.fld_congr_regs hregs, State.setLink_state _ (by decide)]
    · rw [State.lanesUp_congr hregs] at hj
      exact State.sendIdentity_mem _ hj
    · have hf : s.Frame (s.alignLane l) [.mlk, .sent, .freeCtr] (fun o => o = MLK_LINK_STATUS.reg) :=
        (s.alignLane_frame l).mono (by decide) (fun _ h => h)
      exact State.sendIdentity_keeps (keeps_frame _ rfl rfl nofun) (State.Frame.setReg hf rfl _)
  · rw [if_neg h2, if_neg h2]
    exact ⟨s.alignLane_lanesUp l, s.alignLane_state l, hlane, hothers, fun h => absurd h h2, fun _ => s.alignLane_frame l⟩

/-! The link goes back (R361, R376). -/

/-- The link goes back to a state with no lane, and out of UP with its event. -/
def State.goBack (s : State) (st lanes : Nat) (clock up : Bool) : State :=
  if up then (s.dropLanes.setLink st).linkDown lanes clock else s.dropLanes.setLink st

theorem State.goBack_fld (s : State) (st lanes : Nat) (clock up : Bool) {f : Fld} (hf : f.off = MLK_LINK_STATUS.reg)
    (hd : f.Apart MLK_LINK_STATUS.DOWN_SEEN) : (s.goBack st lanes clock up).fld f = (s.dropLanes.setLink st).fld f := by
  cases up
  · rfl
  · exact State.linkDown_fld _ lanes clock hf hd

theorem State.goBack_state (s : State) {st : Nat} (h : st < 8) (lanes : Nat) (clock up : Bool) :
    (s.goBack st lanes clock up).fld MLK_LINK_STATUS.STATE = st :=
  (s.goBack_fld st lanes clock up rfl (by decide)).trans (State.setLink_state _ h)

theorem State.goBack_lanesUp (s : State) (st lanes : Nat) (clock up : Bool) :
    (s.goBack st lanes clock up).fld MLK_LINK_STATUS.LANES_UP = 0 := by
  rw [s.goBack_fld st lanes clock up rfl (by decide), State.setLink_fld _ _ (.inr (by decide))]
  exact s.fld_setFld MLK_LINK_STATUS.LANES_UP 0 (by decide)

theorem State.goBack_clkOk (s : State) (st lanes : Nat) (clock up : Bool) :
    (s.goBack st lanes clock up).flag MLK_LINK_STATUS.CLK_OK = s.flag MLK_LINK_STATUS.CLK_OK := by
  rw [State.flag, s.goBack_fld st lanes clock up rfl (by decide), State.setLink_fld _ _ (.inr (by decide))]
  exact s.flag_setFld_other _ (by decide) (.inr (by decide))

/-- A register of the lanes is as it was. -/
theorem State.goBack_reg (s : State) (st lanes : Nat) (clock up : Bool) {o : Nat} (h : 0x1D0040 ≤ o ∧ o < 0x1D0080) :
    (s.goBack st lanes clock up).reg o = s.reg o := by
  have hstatus : o ≠ MLK_LINK_STATUS.reg := by rw [MLK_LINK_STATUS.reg]; omega
  have hcount : o ≠ MLK_LINK_DOWN_COUNT.reg := by rw [MLK_LINK_DOWN_COUNT.reg]; omega
  have hdrop : (s.dropLanes.setLink st).reg o = s.reg o :=
    (State.reg_setFld_ne _ _ _ hstatus).trans (s.reg_setFld_ne _ _ hstatus)
  cases up
  · exact hdrop
  · refine (State.linkDown_reg _ lanes clock (by omega)).trans ((State.reg_setFld_ne _ _ _ hstatus).trans ?_)
    exact (State.reg_bump_ne _ hcount).trans hdrop

theorem State.goBack_lane (s : State) (st lanes : Nat) (clock up : Bool) (l : Nat) : (s.goBack st lanes clock up).lane l = {} := by
  cases up
  · rfl
  · exact (State.lane_congr (congrArg Mlk.lanes (State.linkDown_mlk _ lanes clock)) l).trans rfl

theorem dropLanes_setLink_frame {u : State} (st : Nat) {R : RegSet} (h : s.Frame u [.mlk] R) (hR : R MLK_LINK_STATUS.reg) :
    s.Frame (u.dropLanes.setLink st) [.mlk] R :=
  State.Frame.setReg (State.Frame.putMlk (State.Frame.setReg h hR _) (by decide) _) hR _

/-- A link that was not in UP goes back without an event. -/
theorem State.goBack_frame {u : State} (st lanes : Nat) (clock : Bool) {R : RegSet} (h : s.Frame u [.mlk] R)
    (hR : R MLK_LINK_STATUS.reg) : s.Frame (u.goBack st lanes clock false) [.mlk] R := dropLanes_setLink_frame st h hR

/-- A link that was in UP tells that it left it. -/
theorem State.goBack_down {u : State} (st lanes : Nat) (clock : Bool) (h : s.Frame u [.mlk] laneReg) :
    s.LeftUp (u.goBack st lanes clock true) := linkDown_leftUp (dropLanes_setLink_frame st h (.inl rfl)) lanes clock

/-! LANE_LOSS. -/

/-- Lane `l` is lost, with its count. -/
def State.loseLane (s : State) (l : Nat) : State :=
  ((s.bump (MLK_LANE_COMMA_LOSS_COUNT.reg l)).setFld MLK_LINK_STATUS.LANES_UP
    (putBit (s.fld MLK_LINK_STATUS.LANES_UP) l false)).setLane l {}

/-- Lane `l` is to be lost: four commas missing, or too many frames in error. -/
abbrev State.LaneLost (s : State) (l : Nat) (commas : List Bool) : Prop :=
  bitOf (s.fld MLK_LINK_STATUS.LANES_UP) l = true ∧ (commas.take 4 = [false, false, false, false] ∨ (s.lane l).bad = true)

theorem laneLoss_guard (l : Nat) (commas : List Bool) :
    (!bitOf (s.fld MLK_LINK_STATUS.LANES_UP) l || !(fourMissing commas || (s.lane l).bad)) = true ↔ ¬ s.LaneLost l commas := by
  rw [State.LaneLost, fourMissing, ← beq_iff_eq (a := commas.take 4), ← Bool.or_eq_true, ← Bool.and_eq_true,
    Bool.not_eq_true, ← Bool.not_and, Bool.not_eq_true']

theorem laneLoss_idle (l : Fin 4) (commas : List Bool) (h : ¬ s.LaneLost l commas) :
    exec (.laneLoss l commas) s = .next s :=
  congrArg Host.Outcome.next (if_pos ((laneLoss_guard l.val commas).mpr h))

/-- A lane is lost, and with the last one the link goes back to ALIGN. -/
theorem laneLoss_exec (l : Fin 4) (commas : List Bool) (h : s.LaneLost l commas) : exec (.laneLoss l commas) s
    = .next (if putBit (s.fld MLK_LINK_STATUS.LANES_UP) l false ≠ 0 then s.loseLane l
        else (s.loseLane l).goBack 2 (s.fld MLK_LINK_STATUS.LANES_UP) false s.linkUp) :=
  congrArg Host.Outcome.next (if_neg fun hg => (laneLoss_guard l.val commas).mp hg h)

theorem State.loseLane_frame (s : State) (l : Nat) : s.Frame (s.loseLane l) [.mlk]
    (fun o => o = MLK_LINK_STATUS.reg ∨ o = MLK_LANE_COMMA_LOSS_COUNT.reg l) := by
  refine State.Frame.putMlk (State.Frame.setReg (State.Frame.setReg (State.Frame.refl s _ _) ?_ _) ?_ _) (by decide) _
  · exact .inr rfl
  · exact .inl rfl

theorem commaLoss_ne_status (l : Nat) : MLK_LANE_COMMA_LOSS_COUNT.reg l ≠ MLK_LINK_STATUS.reg := by
  rw [MLK_LANE_COMMA_LOSS_COUNT.reg, MLK_LINK_STATUS.reg]
  omega

theorem State.loseLane_count (s : State) (l : Nat) : (s.loseLane l).reg (MLK_LANE_COMMA_LOSS_COUNT.reg l)
    = s.reg (MLK_LANE_COMMA_LOSS_COUNT.reg l) + 1 := by
  rw [State.loseLane, State.setLane_reg, State.reg_setFld_ne _ _ _ (commaLoss_ne_status l), State.reg_bump_eq]

theorem State.loseLane_lanesUp (s : State) (l : Fin 4) : (s.loseLane l).fld MLK_LINK_STATUS.LANES_UP
    = putBit (s.fld MLK_LINK_STATUS.LANES_UP) l false := by
  rw [State.loseLane, State.setLane_fld, lanesUp_setFld]

theorem State.loseLane_state (s : State) (l : Nat) : (s.loseLane l).fld MLK_LINK_STATUS.STATE
    = s.fld MLK_LINK_STATUS.STATE := by
  rw [State.loseLane, State.setLane_fld, State.fld_setFld_other _ _ (by decide) (.inr (by decide)),
    s.fld_bump_other (commaLoss_ne_status l).symm]

theorem laneLoss_loses (l : Fin 4) (commas : List Bool) (h : s.LaneLost l commas) :
    let left := putBit (s.fld MLK_LINK_STATUS.LANES_UP) l.val false
    Completes (.laneLoss l commas) s (fun t =>
      t.fld MLK_LINK_STATUS.LANES_UP = left
      ∧ t.reg (MLK_LANE_COMMA_LOSS_COUNT.reg l) = s.reg (MLK_LANE_COMMA_LOSS_COUNT.reg l) + 1
      ∧ t.fld MLK_LINK_STATUS.STATE = (if left = 0 then 2 else s.fld MLK_LINK_STATUS.STATE) ∧ t.lane l = {}
      ∧ (left ≠ 0 ∨ s.fld MLK_LINK_STATUS.STATE ≠ 4 → s.Frame t [.mlk]
        (fun o => o = MLK_LINK_STATUS.reg ∨ o = MLK_LANE_COMMA_LOSS_COUNT.reg l))
      ∧ (left = 0 → s.fld MLK_LINK_STATUS.STATE = 4 → s.LeftUp t)) := by
  intro left
  refine ⟨_, laneLoss_exec l commas h, ?_⟩
  by_cases hleft : left = 0
  · -- the last lane
    rw [if_neg (not_not_intro hleft), if_pos hleft]
    refine ⟨(State.goBack_lanesUp _ _ _ _ _).trans hleft.symm, ?_, State.goBack_state _ (by decide) _ _ _,
      State.goBack_lane _ _ _ _ _ _, fun h4 => ?_, fun _ h4 => ?_⟩
    · rw [State.goBack_reg _ _ _ _ _ (by simp only [MLK_LANE_COMMA_LOSS_COUNT.reg]; omega), s.loseLane_count]
    · rw [State.linkUp_false (h4.resolve_left (not_not_intro hleft))]
      exact State.goBack_frame _ _ _ (s.loseLane_frame l) (.inl rfl)
    · rw [State.linkUp_iff.mpr h4]
      exact State.goBack_down _ _ _ ((s.loseLane_frame l).mono (fun _ h => h) (fun _ => Or.imp_right fun e => ⟨l, e⟩))
  · rw [if_pos hleft, if_neg hleft]
    exact ⟨s.loseLane_lanesUp l, s.loseLane_count l, s.loseLane_state l, State.lane_setLane_eq _ _ _,
      fun _ => s.loseLane_frame l, fun h => absurd h hleft⟩

/-! PARTNER_CLOCK_CHANGE. -/

theorem partnerClockChange_idle (present : Bool) (h : s.linkRuns = false) : exec (.partnerClockChange present) s = .next s :=
  congrArg Host.Outcome.next (if_pos (by rw [h]; rfl))

theorem clkOk_state (s : State) (b : Bool) : (s.setFlag MLK_LINK_STATUS.CLK_OK b).fld MLK_LINK_STATUS.STATE
    = s.fld MLK_LINK_STATUS.STATE := s.fld_setFlag_other b (by decide) (.inr (by decide))

/-- The partner's clock brings ALIGN. -/
theorem partnerClockChange_comes (h : s.linkRuns = true) : Completes (.partnerClockChange true) s (fun t =>
    t.flag MLK_LINK_STATUS.CLK_OK = true
    ∧ t.fld MLK_LINK_STATUS.STATE = (if s.fld MLK_LINK_STATUS.STATE = 1 then 2 else s.fld MLK_LINK_STATUS.STATE)
    ∧ t.fld MLK_LINK_STATUS.LANES_UP = s.fld MLK_LINK_STATUS.LANES_UP ∧ s.Frame t [] (fun o => o = MLK_LINK_STATUS.reg)) := by
  have hex : exec (.partnerClockChange true) s = .next (if s.fld MLK_LINK_STATUS.STATE = 1
      then (s.setFlag MLK_LINK_STATUS.CLK_OK true).setLink 2 else s.setFlag MLK_LINK_STATUS.CLK_OK true) := by
    rw [← clkOk_state s true]
    exact congrArg Host.Outcome.next ((if_neg (by rw [h]; decide)).trans (if_pos rfl))
  have hclk : (s.setFlag MLK_LINK_STATUS.CLK_OK true).flag MLK_LINK_STATUS.CLK_OK = true := s.flag_setFlag _ _ (by decide) rfl
  have hlanes : (s.setFlag MLK_LINK_STATUS.CLK_OK true).fld MLK_LINK_STATUS.LANES_UP = s.fld MLK_LINK_STATUS.LANES_UP :=
    s.fld_setFlag_other _ (by decide) (.inr (by decide))
  have hframe : s.Frame (s.setFlag MLK_LINK_STATUS.CLK_OK true) [] (fun o => o = MLK_LINK_STATUS.reg) := by
    refine State.Frame.setReg (State.Frame.refl s _ _) ?_ _
    rfl
  refine ⟨_, hex, ?_⟩
  split
  · refine ⟨(State.flag_setFld_other _ _ (by decide) (.inr (by decide))).trans hclk, State.setLink_state _ (by decide),
      (State.setLink_fld _ _ (.inr (by decide))).trans hlanes, State.Frame.setReg hframe ?_ _⟩
    rfl
  · exact ⟨hclk, clkOk_state s true, hlanes, hframe⟩

/-- Without the partner's clock the link goes back to CLOCK. -/
theorem partnerClockChange_goes (h : s.linkRuns = true) : Completes (.partnerClockChange false) s (fun t =>
    t.flag MLK_LINK_STATUS.CLK_OK = false ∧ t.fld MLK_LINK_STATUS.STATE = 1 ∧ t.fld MLK_LINK_STATUS.LANES_UP = 0
    ∧ (s.fld MLK_LINK_STATUS.STATE ≠ 4 → s.Frame t [.mlk] (fun o => o = MLK_LINK_STATUS.reg))
    ∧ (s.fld MLK_LINK_STATUS.STATE = 4 → s.LeftUp t)) := by
  have hex : exec (.partnerClockChange false) s
      = .next ((s.setFlag MLK_LINK_STATUS.CLK_OK false).goBack 1 (s.fld MLK_LINK_STATUS.LANES_UP) true s.linkUp) :=
    congrArg Host.Outcome.next ((if_neg (by rw [h]; decide)).trans (if_neg (by decide)))
  have hframe : s.Frame (s.setFlag MLK_LINK_STATUS.CLK_OK false) [.mlk] (fun o => o = MLK_LINK_STATUS.reg) := by
    refine State.Frame.setReg (State.Frame.refl s _ _) ?_ _
    rfl
  refine ⟨_, hex, (State.goBack_clkOk _ _ _ _ _).trans (s.flag_setFlag _ _ (by decide) rfl),
    State.goBack_state _ (by decide) _ _ _, State.goBack_lanesUp _ _ _ _ _, fun h4 => ?_, fun h4 => ?_⟩
  · rw [State.linkUp_false h4]
    exact State.goBack_frame _ _ _ hframe rfl
  · rw [State.linkUp_iff.mpr h4]
    exact State.goBack_down _ _ _ (hframe.mono (fun _ h => h) (fun _ => .inl))

/-! LINK_FRAME_DISCARDED (R359). -/

/-- A frame in error is counted, and remembered by its lane. -/
theorem laneError_counted (s : State) (c : Nat) (l frame : Nat) (hc : (s.bump c).lane l = s.lane l) :
    let t := (s.bump c).laneError l frame
    t.reg c = s.reg c + 1 ∧ t.lane l = { s.lane l with errs := (frame :: (s.lane l).errs).take 16 }
      ∧ (∀ j, j ≠ l → t.lane j = s.lane j) ∧ s.Frame t [.mlk] (fun o => o = c) := by
  refine ⟨s.reg_bump_eq c, (State.lane_setLane_eq _ _ _).trans (by rw [hc]), fun j hj => State.lane_setLane_ne _ _ hj, ?_⟩
  refine State.Frame.putMlk (State.Frame.setReg (State.Frame.refl s _ _) ?_ _) (by decide) _
  rfl

/-- A stuff error or a CRC failure is counted; a sound frame has its effect elsewhere. -/
theorem linkFrameDiscarded_counts {l : Fin 4} (frame : Nat) (before bits : List Bool) (h : s.Hears l) :
    let counted (c : Nat) : Prop := Completes (.linkFrameDiscarded l frame before bits) s (fun t =>
      t.reg c = s.reg c + 1 ∧ t.lane l = { s.lane l with errs := (frame :: (s.lane l).errs).take 16 }
      ∧ (∀ j, j ≠ l.val → t.lane j = s.lane j) ∧ s.Frame t [.mlk] (fun o => o = c))
    (lineCheck before bits = .stuffError → counted (MLK_LANE_STUFF_ERR_COUNT.reg l))
      ∧ (lineCheck before bits = .crcError → counted (MLK_LANE_CRC_COUNT.reg l))
      ∧ ∀ f, lineCheck before bits = .frame f → exec (.linkFrameDiscarded l frame before bits) s = .next s := by
  have hl := State.laneTakes_hears h
  refine ⟨fun hb => ⟨_, ?_, laneError_counted s _ l frame rfl⟩, fun hb => ⟨_, ?_, laneError_counted s _ l frame rfl⟩,
    fun f hb => ?_⟩ <;> simp only [exec, execLinkFrameDiscarded, hl, hb]

end Sys2Proof.Machine
end

section
/-!
PROOFS. The identity, the resync it begins and the test for arming (R361, R364, R365).
-/
namespace Sys2Proof.Machine

variable {s : State}

/-! What sending the mirror keeps. -/

/-- The registers, and what the mirror has received: sending to the partner changes neither. -/
structure State.SameReceived (s t : State) : Prop where
  regs : t.regs = s.regs
  rx : t.mlk.rx = s.mlk.rx
  ident : t.mlk.ident = s.mlk.ident

theorem State.SameReceived.trans {t u : State} (h : s.SameReceived t) (g : t.SameReceived u) : s.SameReceived u :=
  ⟨g.regs.trans h.regs, g.rx.trans h.rx, g.ident.trans h.ident⟩

theorem sendMirror_received (s : State) (dest : Nat) (data : List Byte) : s.SameReceived (s.sendMirror dest data) where
  regs := State.sendOne_regs _ _ _
  rx := by unfold State.sendMirror; rw [State.sendOne_mlk]; rfl
  ident := by unfold State.sendMirror; rw [State.sendOne_mlk]; rfl

theorem foldl_received {β : Type} {f : State → β → State} (hf : ∀ (t : State) x, t.SameReceived (f t x)) (l : List β) (s : State) :
    s.SameReceived (l.foldl f s) :=
  foldl_keeps (P := s.SameReceived) ⟨rfl, rfl, rfl⟩ fun t x h => h.trans (hf t x)

theorem sendMirrorData_received (n : Nat) : ∀ (s : State) (dest : Nat) (bs : List Byte),
    s.SameReceived (s.sendMirrorData dest n bs) := by
  induction n with
  | zero => exact fun _ _ _ => ⟨rfl, rfl, rfl⟩
  | succ n ih =>
    intro s dest bs
    unfold State.sendMirrorData
    split
    · exact ⟨rfl, rfl, rfl⟩
    · exact (sendMirror_received s dest _).trans (ih _ _ _)

theorem mirrorBaseline_received (s : State) (n : Nat) : s.SameReceived (s.mirrorBaseline n) := by
  unfold State.mirrorBaseline
  split
  · exact ⟨rfl, rfl, rfl⟩
  · split
    · exact sendMirrorData_received _ _ _ _
    · exact ⟨rfl, rfl, rfl⟩

theorem mirrorRefs_received (s : State) (n first count : Nat) : s.SameReceived (s.mirrorRefs n first count) := by
  unfold State.mirrorRefs
  split
  · exact ⟨rfl, rfl, rfl⟩
  · exact sendMirrorData_received _ _ _ _

/-- A resync begins anew: nothing received, and not in step (R365). -/
def State.startResync (s : State) : State :=
  ((s.putMlk { s.mlk with seq := 0, tx := [], rx := 0, held := [], known := [] }).setFlag MLK_PAIR_STATUS.MIRROR_SYNCED
    false).setFlag MLK_PAIR_STATUS.MIRROR_LAGGING false

theorem resync_received (s : State) : s.startResync.SameReceived s.resync := by
  unfold State.resync
  extract_lets src t u v w
  have hregs : u.SameReceived v := by
    refine foldl_received (fun t off => ?_) _ _
    obtain ⟨h1, h2, h3⟩ := sendMirror_received t off (leBytes 4 (t.readReg off).toNat)
    exact ⟨h1, h2, h3⟩
  have hports : v.SameReceived w := by
    refine foldl_received (fun t n => ?_) _ _
    exact (mirrorBaseline_received t n).trans (mirrorRefs_received _ n 0 32768)
  obtain ⟨h1, h2, h3⟩ := hregs.trans hports
  have hu : u = s.startResync := rfl
  clear_value w
  exact hu ▸ ⟨h1, h2, h3⟩

/-- The mirror is out of step until the resync is acknowledged. -/
theorem resync_synced (s : State) : s.resync.flag MLK_PAIR_STATUS.MIRROR_SYNCED = false := by
  rw [State.flag_congr_regs (resync_received s).regs, State.startResync,
    State.flag_setFlag_other _ _ (by decide) (.inr (by decide)), State.flag_setFlag _ _ _ (by decide) rfl]

/-! The test for arming (R364). -/

/-- The registers that settling alarms and pins may write lie in the blocks of the host interface and the recorder. -/
theorem settle_offs_blocks {o : Nat} (h : State.settle_offs o) : regsIn [.hif, .evr] o := by
  have hev : State.raiseEvent_offs o → regsIn [.hif, .evr] o := fun he =>
    ⟨.hif, by decide, eventReg_range (raiseEvent_regs o he)⟩
  have hrec : State.record_offs o → regsIn [.hif, .evr] o := by
    rintro rfl
    exact ⟨.evr, by decide, by decide⟩
  exact h.elim (·.elim hev hrec) (·.elim hev hrec)

theorem settle_offs_range {o : Nat} (h : 0x1A0000 ≤ o ∧ o < 0x1F0000) : ¬ State.settle_offs o := fun hs => by
  refine not_regsIn ?_ (settle_offs_blocks hs)
  simp only [List.forall_mem_cons, RegBlock.range]
  exact ⟨.inr h.1, .inl h.2, nofun⟩

theorem State.settle_reg (s : State) {o : Nat} (h : 0x1A0000 ≤ o ∧ o < 0x1F0000) : s.settle.reg o = s.reg o :=
  State.settle_keeps (P := fun t => t.reg o = s.reg o)
    (keeps_reg rfl rfl (.inr (eventPend_ne h.1)) (settle_offs_range h)) rfl

theorem State.pairFlags_mlk (s : State) : s.pairFlags.mlk = s.mlk := State.pairFlags_keeps (keeps_mlk rfl rfl) rfl

/-- The test for arming sets the clashes, and either goes no further or sets ARMED. -/
theorem State.tryArm_cases (s : State) : s.tryArm = s.pairFlags
    ∨ ∃ want, s.tryArm = ((s.pairFlags.setFlag MLK_PAIR_STATUS.ARMED true).putMlk
      { s.pairFlags.mlk with restore := want, wasArmed := true }).settle := by
  unfold State.tryArm
  extract_lets u v want
  split
  · exact .inl rfl
  · exact .inr ⟨want, rfl⟩

/-- Of the pair's state the test changes only what it says of arming. -/
theorem State.tryArm_mlk (s : State) : ∃ want was, s.tryArm.mlk = { s.mlk with restore := want, wasArmed := was } := by
  rcases s.tryArm_cases with h | ⟨want, h⟩
  · exact ⟨s.mlk.restore, s.mlk.wasArmed, by rw [h, s.pairFlags_mlk]⟩
  · exact ⟨want, true, by rw [h, ← s.pairFlags_mlk]; exact State.settle_keeps (keeps_mlk rfl rfl) rfl⟩

/-- Of MLK_PAIR_STATUS the test changes only the clashes and ARMED. -/
theorem State.tryArm_flag (s : State) {f : Fld} (hf : f.off = MLK_PAIR_STATUS.reg) (hd : f.Apart MLK_PAIR_STATUS.ARMED) :
    s.tryArm.flag f = s.pairFlags.flag f := by
  rcases s.tryArm_cases with h | ⟨want, h⟩
  · rw [h]
  · rw [h, State.flag_congr (State.settle_reg _ (by rw [hf]; decide)), State.putMlk_flag,
      State.flag_setFlag_other _ _ (by decide) (.inr hd)]

theorem State.tryArm_reg (s : State) {o : Nat} (h : 0x1A0000 ≤ o ∧ o < 0x1F0000) (hne : o ≠ MLK_PAIR_STATUS.reg) :
    s.tryArm.reg o = s.reg o := by
  refine State.tryArm_keeps (P := fun t => t.reg o = s.reg o) (keeps_reg rfl rfl (.inr (eventPend_ne h.1)) ?_) rfl
  rintro (he | he | he)
  · exact hne he
  · exact hne he
  · exact settle_offs_range h he

/-- The clashes with a known partner. -/
theorem State.pairFlags_some {i : PartnerId} (h : s.mlk.ident = some i) : s.pairFlags
    = ((s.setFlag MLK_PAIR_STATUS.CH_CLASH (!s.channelsApart i)).setFlag MLK_PAIR_STATUS.ROLE_CLASH
        ((s.setFlag MLK_PAIR_STATUS.CH_CLASH (!s.channelsApart i)).flag MLK_CFG.ROLE == i.roleB)).setFlag
        MLK_PAIR_STATUS.LOOP_MISMATCH
        (!((s.setFlag MLK_PAIR_STATUS.CH_CLASH (!s.channelsApart i)).setFlag MLK_PAIR_STATUS.ROLE_CLASH
          ((s.setFlag MLK_PAIR_STATUS.CH_CLASH (!s.channelsApart i)).flag MLK_CFG.ROLE == i.roleB)).loopsAgree i) := by
  rw [State.pairFlags, h]

theorem State.tryArm_roleClash {i : PartnerId} (h : s.mlk.ident = some i) :
    s.tryArm.flag MLK_PAIR_STATUS.ROLE_CLASH = (s.flag MLK_CFG.ROLE == i.roleB) := by
  rw [s.tryArm_flag rfl (by decide), State.pairFlags_some h, State.flag_setFlag_other _ _ (by decide) (.inr (by decide)),
    State.flag_setFlag _ _ _ (by decide) rfl, State.flag_setFlag_other _ _ (by decide) (.inl (by decide))]

theorem State.tryArm_chClash {i : PartnerId} (h : s.mlk.ident = some i) :
    s.tryArm.flag MLK_PAIR_STATUS.CH_CLASH = !s.channelsApart i := by
  rw [s.tryArm_flag rfl (by decide), State.pairFlags_some h, State.flag_setFlag_other _ _ (by decide) (.inr (by decide)),
    State.flag_setFlag_other _ _ (by decide) (.inr (by decide)), State.flag_setFlag _ _ _ (by decide) rfl]

theorem State.tryArm_synced {i : PartnerId} (h : s.mlk.ident = some i) :
    s.tryArm.flag MLK_PAIR_STATUS.MIRROR_SYNCED = s.flag MLK_PAIR_STATUS.MIRROR_SYNCED := by
  rw [s.tryArm_flag rfl (by decide), State.pairFlags_some h, State.flag_setFlag_other _ _ (by decide) (.inr (by decide)),
    State.flag_setFlag_other _ _ (by decide) (.inr (by decide)), State.flag_setFlag_other _ _ (by decide) (.inr (by decide))]

theorem State.tryArm_sent (s : State) : s.sent <+: s.tryArm.sent :=
  State.tryArm_keeps (keeps_sent_prefix _ _ _) (List.prefix_refl _)

/-! IDENTITY. -/

/-- What MLK_PARTNER_INFO holds of an identity. -/
def identityInfo (i : Identity) : Word :=
  Word.of (i.part.toNat * 2 ^ 16 + (if i.roleB then 2 ^ 15 else 0) + i.chan.toNat * 2 ^ 8 + i.stepping.toNat * 2 ^ 4)

/-- What the pair keeps of an identity. -/
def identityPartner (i : Identity) : PartnerId := { roleB := i.roleB, chan := i.chan.toNat, loops := i.loops }

/-- What the partner says of itself is kept. -/
def State.partnerSays (s : State) (i : Identity) : State :=
  (s.setReg MLK_PARTNER_INFO.reg (identityInfo i)).putMlk { s.mlk with ident := some (identityPartner i) }

/-- The link comes UP. -/
def State.comeUp (s : State) : State := (s.putMlk { s.mlk with missRun := 0, seen := false }).setLink 4

/-- The device as it tests for arming after an identity: in IDENT its own identity has gone out, and where it is acknowledged the
link is UP and a resync begins (R361). -/
def State.identified (s : State) (i : Identity) : State :=
  if s.fld MLK_LINK_STATUS.STATE = 3 then
    if i.acked then (s.partnerSays i).comeUp.sendIdentity.resync else (s.partnerSays i).sendIdentity
  else s.partnerSays i

theorem State.takeIdentity_eq (s : State) (i : Identity) : s.takeIdentity i = (s.identified i).tryArm := by
  unfold State.identified
  by_cases h3 : s.fld MLK_LINK_STATUS.STATE = 3
  · by_cases ha : i.acked = true
    · rw [if_pos h3, if_pos ha]
      exact (if_pos h3).trans (if_pos ha)
    · rw [if_pos h3, if_neg ha]
      exact (if_pos h3).trans (if_neg ha)
  · rw [if_neg h3]
    exact if_neg h3

theorem State.comeUp_reg (s : State) {o : Nat} (h : o ≠ MLK_LINK_STATUS.reg) : s.comeUp.reg o = s.reg o :=
  State.reg_setFld_ne _ _ _ h

theorem resync_reg (s : State) {o : Nat} (h : o ≠ MLK_PAIR_STATUS.reg) : s.resync.reg o = s.reg o := by
  rw [State.reg_congr_regs (resync_received s).regs, State.startResync]
  exact (State.reg_setFld_ne _ _ _ h).trans (State.reg_setFld_ne _ _ _ h)

/-- Beside the link's and the pair's status, only MLK_PARTNER_INFO is written. -/
theorem State.identified_reg (s : State) (i : Identity) {o : Nat} (hl : o ≠ MLK_LINK_STATUS.reg) (hp : o ≠ MLK_PAIR_STATUS.reg) :
    (s.identified i).reg o = (s.partnerSays i).reg o := by
  unfold State.identified
  split
  · split
    · rw [resync_reg _ hp, State.reg_congr_regs (State.sendIdentity_regs _), State.comeUp_reg _ hl]
    · rw [State.reg_congr_regs (State.sendIdentity_regs _)]
  · rfl

theorem State.partnerSays_reg (s : State) (i : Identity) {o : Nat} (h : o ≠ MLK_PARTNER_INFO.reg) :
    (s.partnerSays i).reg o = s.reg o := State.reg_setReg_ne _ _ _ h

/-- The partner's identity is kept, whatever follows. -/
theorem State.identified_ident (s : State) (i : Identity) : (s.identified i).mlk.ident = some (identityPartner i) := by
  unfold State.identified
  split
  · split
    · rw [(resync_received _).ident]
      exact congrArg Mlk.ident (State.sendIdentity_mlk _)
    · exact congrArg Mlk.ident (State.sendIdentity_mlk _)
  · rfl

/-- After an identity that is not acknowledged in IDENT the link's status is as it was. -/
theorem State.identified_status (s : State) (i : Identity) (h : s.fld MLK_LINK_STATUS.STATE = 3 → i.acked = false) :
    (s.identified i).reg MLK_LINK_STATUS.reg = s.reg MLK_LINK_STATUS.reg := by
  have hsays := s.partnerSays_reg i (o := MLK_LINK_STATUS.reg) (by decide)
  unfold State.identified
  split
  · next h3 =>
    rw [h h3, if_neg Bool.false_ne_true, State.reg_congr_regs (State.sendIdentity_regs _), hsays]
  · exact hsays

/-- Acknowledged in IDENT, the link is UP and a resync has begun. -/
theorem State.identified_acked (s : State) (i : Identity) (h3 : s.fld MLK_LINK_STATUS.STATE = 3) (ha : i.acked = true) :
    s.identified i = (s.partnerSays i).comeUp.sendIdentity.resync := by
  rw [State.identified, if_pos h3, if_pos ha]

/-- Neither the identity sent nor the resync changes the link's status. -/
theorem comeUp_resync_fld (s : State) (f : Fld) (hf : f.off = MLK_LINK_STATUS.reg) :
    s.comeUp.sendIdentity.resync.fld f = s.comeUp.fld f := by
  refine State.fld_congr ?_
  rw [resync_reg _ (by rw [hf]; decide), State.reg_congr_regs (State.sendIdentity_regs _)]

/-- The resync runs to the last frame it sent. -/
theorem resync_pending (s : State) : s.resync.mlk.resync = some s.resync.mlk.seq := by
  unfold State.resync
  extract_lets src t u v w
  clear_value w
  rfl

theorem State.identified_up (s : State) (i : Identity) (h3 : s.fld MLK_LINK_STATUS.STATE = 3) (ha : i.acked = true) :
    let v := s.identified i
    v.fld MLK_LINK_STATUS.STATE = 4 ∧ v.flag MLK_PAIR_STATUS.MIRROR_SYNCED = false ∧ v.mlk.rx = 0
      ∧ v.mlk.resync = some v.mlk.seq := by
  intro v
  have hv : v = (s.partnerSays i).comeUp.sendIdentity.resync := s.identified_acked i h3 ha
  refine ⟨?_, ?_, ?_, ?_⟩
  · rw [hv, comeUp_resync_fld _ _ rfl]
    exact State.setLink_state _ (by decide)
  · rw [hv, resync_synced]
  · rw [hv, (resync_received _).rx]
    rfl
  · rw [hv, resync_pending]

theorem State.identified_lanesUp (s : State) (i : Identity) :
    (s.identified i).fld MLK_LINK_STATUS.LANES_UP = s.fld MLK_LINK_STATUS.LANES_UP := by
  by_cases h : s.fld MLK_LINK_STATUS.STATE = 3 ∧ i.acked = true
  · obtain ⟨h3, ha⟩ := h
    rw [s.identified_acked i h3 ha, comeUp_resync_fld _ _ rfl]
    exact (State.setLink_fld _ _ (.inr (by decide))).trans (State.fld_congr (s.partnerSays_reg i (by decide)))
  · exact State.fld_congr (s.identified_status i fun h3 => Bool.eq_false_iff.mpr fun ha => h ⟨h3, ha⟩)

theorem resync_sent (s : State) : s.sent <+: s.resync.sent :=
  State.resync_keeps (keeps_sent_prefix _ _ _) (List.prefix_refl _)

/-- In IDENT the device's identity goes out on every aligned lane. -/
theorem State.identified_sends (s : State) (i : Identity) (h3 : s.fld MLK_LINK_STATUS.STATE = 3) {j : Nat} (hj : j ∈ s.lanesUp) :
    ∃ q m bits, Emission.link j q m bits ∈ (s.identified i).sent.drop s.sent.length ∧ m.code = 2 := by
  have hsays : (s.partnerSays i).lanesUp = s.lanesUp :=
    congrArg (bitsOf 4) (State.fld_congr (s.partnerSays_reg i (by decide)))
  unfold State.identified
  rw [if_pos h3]
  split
  · have hup : (s.partnerSays i).comeUp.lanesUp = s.lanesUp :=
      (congrArg (bitsOf 4) (State.setLink_fld _ _ (.inr (by decide)))).trans hsays
    obtain ⟨q, m, bits, hm, hc⟩ := State.sendIdentity_mem _ (hup ▸ hj)
    exact ⟨q, m, bits, mem_sent_drop (resync_sent _) hm, hc⟩
  · exact State.sendIdentity_mem _ (hsays ▸ hj)

/-- Before IDENT, and as a copy of the latest, an identity is without effect. -/
theorem identity_idle (l : Fin 4) (seq : BitVec 24) (i : Identity) (hl : s.Hears l) (h : s.fld MLK_LINK_STATUS.STATE < 3
    ∨ ¬ SMap.get (fun _ => none) s.mlk.rxSeq 2 ≠ some seq.toNat) : exec (.identity l seq i) s = .next s := by
  refine congrArg Host.Outcome.next ?_
  rcases h with h | h
  · exact if_pos h
  · rw [State.receive_again hl (Classical.not_not.mp h)]
    exact ite_self s

theorem identity_exec (l : Fin 4) (seq : BitVec 24) (i : Identity) (h3 : 3 ≤ s.fld MLK_LINK_STATUS.STATE) (hl : s.Hears l)
    (hn : SMap.get (fun _ => none) s.mlk.rxSeq 2 ≠ some seq.toNat) : exec (.identity l seq i) s
      = .next (((s.putMlk (s.mlk.heard 2 seq.toNat)).identified i).tryArm) := by
  rw [← State.takeIdentity_eq]
  refine congrArg Host.Outcome.next ((if_neg (Nat.not_lt.mpr h3)).trans ?_)
  rw [State.receive_new hl hn]

/-- The registers of an identity lie in the blocks of the recorder, the host interface and the link. -/
theorem execIdentity_offs_blocks {o : Nat} (h : execIdentity_offs o) : regsIn [.evr, .hif, .mlk] o := by
  have hmlk : o = MLK_PARTNER_INFO.reg ∨ o = MLK_LINK_STATUS.reg ∨ o = MLK_PAIR_STATUS.reg → regsIn [.evr, .hif, .mlk] o := by
    rintro (rfl | rfl | rfl) <;> exact ⟨.mlk, by decide, by decide⟩
  rcases h with h | h | h | (h | h | h)
  · exact hmlk (.inl h)
  · exact hmlk (.inr (.inr h))
  · exact hmlk (.inr (.inl h))
  · exact hmlk (.inr (.inr h))
  · exact hmlk (.inr (.inr h))
  · exact regsIn_mono (by decide) (settle_offs_blocks h)

theorem identity_takes (l : Fin 4) (seq : BitVec 24) (i : Identity) (h3 : 3 ≤ s.fld MLK_LINK_STATUS.STATE) (hl : s.Hears l)
    (hn : SMap.get (fun _ => none) s.mlk.rxSeq 2 ≠ some seq.toNat) : Completes (.identity l seq i) s (fun t =>
      t.reg MLK_PARTNER_INFO.reg = Word.of (i.part.toNat * 2 ^ 16 + (if i.roleB then 2 ^ 15 else 0) + i.chan.toNat * 2 ^ 8
        + i.stepping.toNat * 2 ^ 4)
      ∧ t.mlk.ident = some { roleB := i.roleB, chan := i.chan.toNat, loops := i.loops }
      ∧ (s.fld MLK_LINK_STATUS.STATE = 3 → s.IdentitySent t)
      ∧ (s.fld MLK_LINK_STATUS.STATE = 3 → i.acked = false → t.fld MLK_LINK_STATUS.STATE = 3)
      ∧ (s.fld MLK_LINK_STATUS.STATE = 3 → i.acked = true → t.fld MLK_LINK_STATUS.STATE = 4
        ∧ t.flag MLK_PAIR_STATUS.MIRROR_SYNCED = false ∧ t.mlk.rx = 0 ∧ t.mlk.resync = some t.mlk.seq)
      ∧ t.flag MLK_PAIR_STATUS.ROLE_CLASH = (s.flag MLK_CFG.ROLE == i.roleB)
      ∧ t.flag MLK_PAIR_STATUS.CH_CLASH =
          !decide (s.fld SRC_LASER_CFG.CH + 16 ≤ i.chan.toNat ∨ i.chan.toNat + 16 ≤ s.fld SRC_LASER_CFG.CH)
      ∧ s.Frame t [.hif, .evr, .saf, .mlk, .sent, .freeCtr] (regsIn [.evr, .hif, .mlk])) := by
  have hex := identity_exec l seq i h3 hl hn
  have hframe := holds_of_next (execIdentity_keeps (keeps_frame_ev _ rfl (eventPend_blocks (by decide))
    (fun _ => execIdentity_offs_blocks)) l seq i (State.Frame.refl s [.hif, .evr, .saf, .mlk, .sent, .freeCtr] _)) hex
  refine ⟨_, hex, ?_⟩
  -- what the row changed before the identity is read touches no register and sends nothing
  have hu : ∀ f, (s.putMlk (s.mlk.heard 2 seq.toNat)).fld f = s.fld f := fun _ => rfl
  have hsent : (s.putMlk (s.mlk.heard 2 seq.toNat)).sent = s.sent := rfl
  have hlanes : (s.putMlk (s.mlk.heard 2 seq.toNat)).lanesUp = s.lanesUp := rfl
  have hflag : ∀ f, (s.putMlk (s.mlk.heard 2 seq.toNat)).flag f = s.flag f := fun _ => rfl
  generalize s.putMlk (s.mlk.heard 2 seq.toNat) = u at hu hsent hlanes hflag hframe ⊢
  have hident := u.identified_ident i
  obtain ⟨want, was, hmlk⟩ := (u.identified i).tryArm_mlk
  have hstatus := (u.identified i).tryArm_reg (o := MLK_LINK_STATUS.reg) (by decide) (by decide)
  have hreg : ∀ {o}, o ≠ MLK_LINK_STATUS.reg → o ≠ MLK_PAIR_STATUS.reg → o ≠ MLK_PARTNER_INFO.reg →
      (u.identified i).reg o = u.reg o := fun h1 h2 h3 => (u.identified_reg i h1 h2).trans (u.partnerSays_reg i h3)
  refine ⟨?info, ?ident, fun hst j hj => ?sends, fun hst ha => ?stays, fun hst ha => ?up, ?role, ?channel, hframe⟩
  case info =>
    rw [State.tryArm_reg _ (by decide) (by decide), u.identified_reg i (by decide) (by decide)]
    exact State.reg_setReg_eq _ _ _
  case ident => rw [hmlk]; exact hident
  case sends =>
    have hup : (u.identified i).tryArm.lanesUp = s.lanesUp :=
      congrArg (bitsOf 4) ((State.fld_congr hstatus).trans ((u.identified_lanesUp i).trans (hu _)))
    rw [hup, ← hlanes] at hj
    obtain ⟨q, m, bits, hm, hc⟩ := u.identified_sends i ((hu _).trans hst) hj
    exact ⟨q, m, bits, mem_sent_drop (State.tryArm_sent _) (hsent ▸ hm), hc⟩
  case stays =>
    rw [State.fld_congr hstatus, State.fld_congr (u.identified_status i fun _ => ha), hu, hst]
  case up =>
    obtain ⟨hstate, hsynced, hrx, hresync⟩ := u.identified_up i ((hu _).trans hst) ha
    exact ⟨(State.fld_congr hstatus).trans hstate, (State.tryArm_synced hident).trans hsynced, by rw [hmlk]; exact hrx,
      by rw [hmlk]; exact hresync⟩
  case role =>
    rw [State.tryArm_roleClash hident, State.flag_congr (hreg (by decide) (by decide) (by decide)), hflag]
    rfl
  case channel =>
    rw [State.tryArm_chClash hident, State.channelsApart, State.fld_congr (hreg (by decide) (by decide) (by decide)), hu,
      Bool.decide_or]
    rfl

end Sys2Proof.Machine
end

section
/-!
PROOFS. Heartbeats; mirror frames sent again, and the mirror's lag (R362, R363, R365, R386).
-/
namespace Sys2Proof.Machine

variable {s : State}

/-! Outside UP. -/

theorem outsideUp_idle (h : s.fld MLK_LINK_STATUS.STATE ≠ 4) : exec .heartbeatSend s = .next s ∧ exec .mirrorRetransmit s = .next s
    ∧ ∀ l q d bs, exec (.mirrorData l q d bs) s = .next s := by
  have hup := State.linkUp_false h
  refine ⟨?_, ?_, fun l q d bs => ?_⟩
  · simp only [exec, execHeartbeatSend, hup, Bool.false_eq_true, if_false]
  · simp only [exec, execMirrorRetransmit, hup, Bool.not_false, if_true]
  · simp only [exec, execMirrorData, hup, Bool.not_false, Bool.true_or, if_true]

/-! HEARTBEAT_SEND. -/

@[simp] theorem leBytes_length (n x : Nat) : (leBytes n x).length = n := by
  induction n generalizing x with
  | zero => rfl
  | succ n ih => exact congrArg Nat.succ (ih _)

theorem drop_leBytes {n i : Nat} (x : Nat) (h : n ≤ i) : (leBytes n x).drop i = [] :=
  List.drop_of_length_le (by rw [leBytes_length]; exact h)

theorem State.heartbeatBytes_length (s : State) : s.heartbeatBytes.length = 120 := by
  simp only [State.heartbeatBytes, zeroBytes, List.length_append, leBytes_length, List.length_replicate]

/-- A heartbeat fills its payload. -/
theorem State.heartbeatBytes_payload (s : State) : (LinkMsg.heartbeat s.heartbeatBytes).payload = s.heartbeatBytes :=
  List.take_left' s.heartbeatBytes_length

/-- The bytes of a heartbeat that R363 and R386 place. -/
theorem State.heartbeatBytes_fields (s : State) :
    let bs := s.heartbeatBytes
    bs.take 8 = leBytes 8 s.time ∧ (bs.drop 8).take 8 = leBytes 8 (s.ctl.round % 2 ^ 48)
      ∧ (bs.drop 16).take 1 = leBytes 1 (s.ctl.dev.code + bitAt (s.flag MLK_PAIR_STATUS.ARMED) 3
        + bitAt (s.flag MLK_PAIR_STATUS.TKO_ACTIVE) 4)
      ∧ (bs.drop 23).take 1 = leBytes 1 s.safByte ∧ (bs.drop 24).take 4 = leBytes 4 s.mlk.rx := by
  simp only [State.heartbeatBytes, Nat.reducePow, List.append_assoc, leBytes_length, List.take_left', List.drop_left',
    List.drop_append, Nat.reduceLeDiff, drop_leBytes, Nat.reduceSub, List.nil_append, Nat.add_one_sub_one, and_self]

theorem heartbeatSend_sends (h : s.fld MLK_LINK_STATUS.STATE = 4) :
    let q := SMap.get (fun _ => 0) s.mlk.txSeq 1
    Completes .heartbeatSend s (fun t =>
      t.mlk = { s.mlk with txSeq := t.mlk.txSeq } ∧ SMap.get (fun _ => 0) t.mlk.txSeq 1 = q + 1
      ∧ s.Frame t [.mlk, .sent, .freeCtr] noReg ∧ ∃ bs, ∃ lines : List (List Bool),
      t.sent = s.sent ++ (s.lanesUp.zip lines).map (fun x => .link x.1 (q % 2 ^ 24) (.heartbeat bs) x.2)
      ∧ lines.length = s.lanesUp.length
      ∧ (∀ x ∈ lines, ∃ sc, x = comma ++ stuff 0 false (scramble sc (bitsMsb (frameBytes 1 (q % 2 ^ 24) bs))).1)
      ∧ bs.length = 120
      ∧ bs.take 8 = leBytes 8 s.time ∧ (bs.drop 8).take 8 = leBytes 8 (s.ctl.round % 2 ^ 48)
      ∧ (bs.drop 16).take 1 = leBytes 1 (s.ctl.dev.code + bitAt (s.flag MLK_PAIR_STATUS.ARMED) 3
        + bitAt (s.flag MLK_PAIR_STATUS.TKO_ACTIVE) 4)
      ∧ (bs.drop 23).take 1 = leBytes 1 (bitAt (s.pinDriven 0) 0 + bitAt (s.pinDriven 1) 1 + bitAt (s.alarm 0) 2
        + bitAt (s.alarm 1) 3 + bitAt s.anyLasting 4)
      ∧ (bs.drop 24).take 4 = leBytes 4 s.mlk.rx) := by
  intro q
  obtain ⟨lines, hsent, hlen, hlines⟩ := s.sendAll_sent (.heartbeat s.heartbeatBytes)
  rw [s.heartbeatBytes_payload] at hlines
  have hmlk := s.sendAll_mlk (.heartbeat s.heartbeatBytes) 1
  refine ⟨s.sendAll (.heartbeat s.heartbeatBytes) 1, congrArg Host.Outcome.next (if_pos (State.linkUp_iff.mpr h)), ?_, ?_, ?_,
    s.heartbeatBytes, lines, hsent, hlen, hlines, s.heartbeatBytes_length, s.heartbeatBytes_fields⟩
  · rw [hmlk]
    rfl
  · rw [hmlk]
    exact SMap.get_put_eq s.mlk.txSeq 1 _
  · exact State.sendAll_keeps (keeps_frame _ rfl rfl nofun) _ 1 (State.Frame.refl _ _ _)

/-! MIRROR_RETRANSMIT. -/

/-- A mirror frame sent again at an instant. -/
def MirrorTx.resentAt (now : Nat) (x : MirrorTx) : MirrorTx := { x with sent := now }

theorem foldl_resend_resentAt (now : Nat) (tx : List MirrorTx) (s : State) :
    (tx.map (MirrorTx.resentAt now)).foldl State.resend s = tx.foldl State.resend s := by
  rw [List.foldl_map]
  rfl

theorem mirrorRetransmit_exec (h : s.fld MLK_LINK_STATUS.STATE = 4) : exec .mirrorRetransmit s
    = .next (((s.mlk.tx.foldl State.resend s).addReg MLK_RETX_COUNT.reg s.mlk.tx.length).putMlk
      { s.mlk with tx := s.mlk.tx.map (MirrorTx.resentAt s.time) }) := by
  have hmlk : ∀ tx : List MirrorTx, (tx.foldl State.resend s).mlk = s.mlk := fun tx =>
    foldl_keeps (P := fun t => t.mlk = s.mlk) rfl fun t x ht => (t.sendOne_mlk _ _).trans ht
  refine congrArg Host.Outcome.next ((if_neg (by rw [State.linkUp_iff.mpr h]; decide)).trans ?_)
  change (((s.mlk.tx.map (MirrorTx.resentAt s.time)).foldl State.resend s).addReg MLK_RETX_COUNT.reg
    (s.mlk.tx.map (MirrorTx.resentAt s.time)).length).putMlk
      { ((s.mlk.tx.map (MirrorTx.resentAt s.time)).foldl State.resend s).mlk with
        tx := s.mlk.tx.map (MirrorTx.resentAt s.time) } = _
  rw [hmlk, foldl_resend_resentAt, List.length_map]

theorem mirrorRetransmit_resends (h : s.fld MLK_LINK_STATUS.STATE = 4) :
    Completes .mirrorRetransmit s (fun t => ∃ lines : List (Nat × List Bool),
      t.sent = s.sent ++ (s.mlk.tx.zip lines).map (fun x => .link x.2.1 (x.1.seq % 2 ^ 24) (.mirror x.1.dest x.1.data) x.2.2)
      ∧ lines.length = s.mlk.tx.length ∧ (s.lanesUp ≠ [] → ∀ x ∈ lines, x.1 ∈ s.lanesUp)
      ∧ t.mlk = { s.mlk with tx := s.mlk.tx.map (fun x => { x with sent := s.time }) }
      ∧ t.reg MLK_RETX_COUNT.reg = s.reg MLK_RETX_COUNT.reg + Word.of s.mlk.tx.length
      ∧ s.Frame t [.mlk, .sent, .freeCtr] (fun o => o = MLK_RETX_COUNT.reg)) := by
  have hex := mirrorRetransmit_exec h
  obtain ⟨lines, hsent, hlen, hlines⟩ := foldl_resend_sent s.mlk.tx s
  have hregs : (s.mlk.tx.foldl State.resend s).regs = s.regs :=
    foldl_keeps (P := fun t => t.regs = s.regs) rfl fun t x ht => (t.sendOne_regs _ _).trans ht
  refine ⟨_, hex, lines, hsent, hlen, hlines, rfl, ?_, ?_⟩
  · rw [State.putMlk_reg, State.addReg, State.reg_setReg_eq, State.reg_congr_regs hregs]
  · exact holds_of_next (execMirrorRetransmit_keeps (keeps_frame _ rfl rfl fun _ h => h) (State.Frame.refl _ _ _)) hex

/-! MIRROR_LAG. -/

theorem mirrorLag_idle (h : s.mlk.tx = [] ∨ s.flag MLK_PAIR_STATUS.MIRROR_LAGGING = true) : exec .mirrorLag s = .next s := by
  refine congrArg Host.Outcome.next ?_
  cases htx : s.mlk.tx with
  | nil => rfl
  | cons x tx => exact if_pos (h.resolve_left (by rw [htx]; exact List.cons_ne_nil x tx))

/-- The lag is told once, with the item that waits. -/
theorem mirrorLag_tells (htx : s.mlk.tx ≠ []) (h : s.flag MLK_PAIR_STATUS.MIRROR_LAGGING = false) :
    Completes .mirrorLag s (fun t => t.flag MLK_PAIR_STATUS.MIRROR_LAGGING = true ∧ s.Raised t 51
      ∧ s.Frame t [.hif, .sent] (fun o => o = MLK_PAIR_STATUS.reg ∨ eventReg o)) := by
  obtain ⟨detail, hex⟩ : ∃ detail, exec .mirrorLag s
      = .next ((s.setFlag MLK_PAIR_STATUS.MIRROR_LAGGING true).raiseEvent 51 detail) := by
    cases hl : s.mlk.tx with
    | nil => exact absurd hl htx
    | cons x tx =>
      refine ⟨mirrorItem x.dest + satNat 16 ((s.time - x.first) / ticksPerUs) * 2 ^ 16, congrArg Host.Outcome.next ?_⟩
      rw [hl]
      exact if_neg (Bool.eq_false_iff.mp h)
  refine ⟨_, hex, ?flag, ?raised, ?frame⟩
  case flag =>
    rw [State.flag_congr (raiseEvent_reg _ _ _ (not_eventReg (.inr (by decide))))]
    exact s.flag_setFlag _ _ (by decide) rfl
  case raised =>
    obtain ⟨hp, hc⟩ := raiseEvent_raised (s.setFlag MLK_PAIR_STATUS.MIRROR_LAGGING true) 51 detail
    exact ⟨hp, hc.trans (congrArg (· + 1) (State.reg_setFld_ne _ _ _ (by decide)))⟩
  case frame =>
    exact holds_of_next (execMirrorLag_keeps (keeps_frame_ev _ rfl (fun i => .inr (.inr (.inl ⟨i, rfl⟩)))
      (fun o h => h.imp_right (raiseEvent_regs o))) (State.Frame.refl _ _ _)) hex

end Sys2Proof.Machine
end

section
/-!
PROOFS. Mirror frames received: the next in sequence is stored, one beyond a gap is held, one that comes again is dropped
(R365, R367).
-/
namespace Sys2Proof.Machine

variable {s : State}

/-! Storing (R365, R367). -/

/-- Storing in the partner image changes only the image. -/
theorem storeImage_mlk (ws : List Word) : ∀ (s : State) (off : Nat),
    ∃ p, (s.storeImage off ws).mlk = { s.mlk with pimg := p } := by
  induction ws with
  | nil => exact fun s _ => ⟨s.mlk.pimg, rfl⟩
  | cons w ws ih =>
    intro s off
    obtain ⟨p, hp⟩ := ih (s.putMlk { s.mlk with
      pimg := if (putImage off w s.mlk.pimg).length ≤ 4096 then putImage off w s.mlk.pimg else s.mlk.pimg }) (off + 4)
    exact ⟨p, hp⟩

theorem storeImage_regs (s : State) (off : Nat) (ws : List Word) : (s.storeImage off ws).regs = s.regs :=
  State.storeImage_keeps (keeps_regs rfl rfl rfl) off ws rfl

theorem storeImage_dram (s : State) (off : Nat) (ws : List Word) : (s.storeImage off ws).dram = s.dram :=
  State.storeImage_keeps (keeps_dram rfl rfl) off ws rfl

/-- An update of the partner's data moves its sequence on by two. -/
theorem pimgUpdate_seq (s : State) {f : State → State} (hf : ∀ t, (f t).regs = t.regs) :
    (s.pimgUpdate f).reg MLK_PIMG_SEQ.reg = s.reg MLK_PIMG_SEQ.reg + 2 := by
  rw [State.pimgUpdate, State.reg_bump_eq, State.reg_congr_regs (hf _), State.reg_bump_eq, BitVec.add_assoc]
  rfl

/-- References go to DRAM or nowhere. -/
theorem applyMirror_refs (data : List Byte) {dest : Nat} (h : 2 ^ 31 ≤ dest) :
    (s.applyMirror dest data).mlk = s.mlk ∧ (s.applyMirror dest data).regs = s.regs := by
  rw [State.applyMirror, if_pos h]
  dsimp only
  split
  · exact ⟨rfl, rfl⟩
  · exact ⟨rfl, rfl⟩

/-- Baselines go to the partner's baselines, each byte to its place. -/
theorem applyMirror_base (data : List Byte) {dest : Nat} (hlo : 0x1D2000 ≤ dest) (hhi : dest + data.length ≤ 0x1D8000) :
    s.applyMirror dest data = s.pimgUpdate
      (fun s => s.putMlk { s.mlk with pbase := Memory.setBytes 0 s.mlk.pbase (dest - 0x1D2000) data }) := by
  rw [State.applyMirror, if_neg (by omega), if_pos ⟨hlo, hhi⟩]

/-- Register words go to the partner image. -/
theorem applyMirror_image (data : List Byte) {dest : Nat} (h : dest < 2 ^ 31)
    (hb : ¬ (0x1D2000 ≤ dest ∧ dest + data.length ≤ 0x1D8000)) :
    s.applyMirror dest data = s.pimgUpdate (fun s => s.storeImage dest (bytesToWords data)) := by
  rw [State.applyMirror, if_neg (Nat.not_le.mpr h), if_neg hb]

/-- Of the pair's state, storing changes only the image and the baselines. -/
theorem applyMirror_mlk (s : State) (dest : Nat) (data : List Byte) :
    ∃ p b, (s.applyMirror dest data).mlk = { s.mlk with pimg := p, pbase := b } := by
  by_cases h : 2 ^ 31 ≤ dest
  · exact ⟨s.mlk.pimg, s.mlk.pbase, (applyMirror_refs data h).1⟩
  · by_cases hb : 0x1D2000 ≤ dest ∧ dest + data.length ≤ 0x1D8000
    · rw [applyMirror_base data hb.1 hb.2]
      exact ⟨_, _, rfl⟩
    · rw [applyMirror_image data (Nat.lt_of_not_le h) hb]
      obtain ⟨p, hp⟩ := storeImage_mlk (bytesToWords data) (s.bump MLK_PIMG_SEQ.reg) dest
      exact ⟨p, s.mlk.pbase, hp⟩

/-- Data below the references moves MLK_PIMG_SEQ on and leaves DRAM. -/
theorem applyMirror_low (s : State) {dest : Nat} (data : List Byte) (h : dest < 2 ^ 31) :
    (s.applyMirror dest data).reg MLK_PIMG_SEQ.reg = s.reg MLK_PIMG_SEQ.reg + 2 ∧ (s.applyMirror dest data).dram = s.dram := by
  by_cases hb : 0x1D2000 ≤ dest ∧ dest + data.length ≤ 0x1D8000
  · rw [applyMirror_base data hb.1 hb.2]
    exact ⟨pimgUpdate_seq _ fun _ => rfl, rfl⟩
  · rw [applyMirror_image data h hb]
    exact ⟨pimgUpdate_seq _ fun t => storeImage_regs t _ _, storeImage_dram (s.bump MLK_PIMG_SEQ.reg) _ _⟩

/-! Sequence (R365). -/

/-- Where no held frame is next, nothing is taken from those held. -/
theorem drainHeld_gap (n : Nat) (h : ∀ x ∈ s.mlk.held, x.1 ≠ s.mlk.rx + 1) : s.drainHeld n = s := by
  cases n with
  | zero => rfl
  | succ n =>
    have hnone : s.mlk.held.find? (fun x => x.1 == s.mlk.rx + 1) = none :=
      List.find?_eq_none.mpr fun x hx => fun hx' => h x hx (beq_iff_eq.mp hx')
    rw [State.drainHeld, hnone]

/-- The distance of a frame's number ahead of the last one received without a gap, modulo 2²⁴. -/
abbrev State.ahead (s : State) (seq : BitVec 24) : Nat := (seq.toNat + 2 ^ 24 - s.mlk.rx % 2 ^ 24) % 2 ^ 24

/-- A mirror frame of at most 112 bytes that its lane takes goes by its number. -/
theorem mirrorData_exec {l : Fin 4} (seq : BitVec 24) (dest : BitVec 32) {data : List Byte}
    (h4 : s.fld MLK_LINK_STATUS.STATE = 4) (hd : data.length ≤ 112) (hl : s.Hears l) :
    exec (.mirrorData l seq dest data) s = .next (s.mirrorFrame seq dest data) := by
  refine congrArg Host.Outcome.next ((if_neg ?_).trans ?_)
  · rw [State.linkUp_iff.mpr h4, decide_eq_false (Nat.not_lt.mpr hd)]
    decide
  · rw [State.laneTakes_hears hl]

theorem mirrorFrame_again (seq : BitVec 24) (dest : BitVec 32) (data : List Byte)
    (h : s.ahead seq = 0 ∨ 2 ^ 23 ≤ s.ahead seq) : s.mirrorFrame seq dest data = s := if_pos h

/-- A frame ahead that is not held yet joins those held, of which those next in sequence are then stored. -/
theorem mirrorFrame_ahead (seq : BitVec 24) (dest : BitVec 32) (data : List Byte) (h0 : 0 < s.ahead seq)
    (h23 : s.ahead seq < 2 ^ 23) (hh : ∀ y ∈ s.mlk.held, y.1 ≠ s.mlk.rx + s.ahead seq) : s.mirrorFrame seq dest data
      = (s.putMlk { s.mlk with held := (s.mlk.rx + s.ahead seq, dest.toNat, data) :: s.mlk.held }).drainHeld
        (s.mlk.held.length + 1) := by
  refine (if_neg (not_or.mpr ⟨Nat.ne_of_gt h0, Nat.not_le.mpr h23⟩)).trans (if_neg fun ha => ?_)
  obtain ⟨y, hy, he⟩ := List.any_eq_true.mp ha
  exact hh y hy (beq_iff_eq.mp he)

/-- The pair's state with the next mirror frame received, none held. -/
def Mlk.next (x : Mlk) : Mlk := { x with rx := x.rx + 1, held := [] }

/-- The next frame in sequence is stored. -/
theorem mirrorFrame_next (seq : BitVec 24) (dest : BitVec 32) (data : List Byte) (h : s.ahead seq = 1) (hh : s.mlk.held = []) :
    s.mirrorFrame seq dest data = (s.putMlk s.mlk.next).applyMirror dest.toNat data := by
  rw [mirrorFrame_ahead seq dest data (by omega) (by omega) (by rw [hh]; nofun), h, hh]
  simp only [State.drainHeld, State.putMlk_mlk, BEq.rfl, List.find?_cons_of_pos, List.erase_cons_head, List.length_nil,
    Mlk.next]
  rfl

/-- A frame beyond a gap is held. -/
theorem mirrorFrame_gap (seq : BitVec 24) (dest : BitVec 32) (data : List Byte) (h1 : 1 < s.ahead seq) (h23 : s.ahead seq < 2 ^ 23)
    (hh : ∀ y ∈ s.mlk.held, y.1 ≠ s.mlk.rx + 1 ∧ y.1 ≠ s.mlk.rx + s.ahead seq) : s.mirrorFrame seq dest data
      = s.putMlk { s.mlk with held := (s.mlk.rx + s.ahead seq, dest.toNat, data) :: s.mlk.held } := by
  rw [mirrorFrame_ahead seq dest data (by omega) h23 fun y hy => (hh y hy).2]
  refine drainHeld_gap _ (List.forall_mem_cons.mpr ⟨?_, fun y hy => (hh y hy).1⟩)
  exact fun e => absurd (Nat.add_left_cancel e) (Nat.ne_of_gt h1)

theorem mirrorData_next {l : Fin 4} (seq : BitVec 24) (dest : BitVec 32) {data : List Byte}
    (h4 : s.fld MLK_LINK_STATUS.STATE = 4) (hd : data.length ≤ 112) (hl : s.Hears l) (h : s.ahead seq = 1) (hh : s.mlk.held = []) :
    Completes (.mirrorData l seq dest data) s (fun t =>
      t.mlk.rx = s.mlk.rx + 1 ∧ t.mlk.held = [] ∧ t.mlk.tx = s.mlk.tx
      ∧ (0x1D2000 ≤ dest.toNat → dest.toNat + data.length ≤ 0x1D8000 →
        t.mlk.pbase = Memory.setBytes 0 s.mlk.pbase (dest.toNat - 0x1D2000) data ∧ t.mlk.pimg = s.mlk.pimg)
      ∧ (dest.toNat < 2 ^ 31 → t.reg MLK_PIMG_SEQ.reg = s.reg MLK_PIMG_SEQ.reg + 2 ∧ t.dram = s.dram)
      ∧ (2 ^ 31 ≤ dest.toNat → t.mlk.pbase = s.mlk.pbase ∧ t.mlk.pimg = s.mlk.pimg
        ∧ t.reg MLK_PIMG_SEQ.reg = s.reg MLK_PIMG_SEQ.reg)
      ∧ s.Frame t [.mlk, .dram, .dmc] (fun o => o = MLK_PIMG_SEQ.reg)) := by
  have hex : exec (.mirrorData l seq dest data) s = .next ((s.putMlk s.mlk.next).applyMirror dest.toNat data) := by
    rw [mirrorData_exec seq dest h4 hd hl, mirrorFrame_next seq dest data h hh]
  have hframe := holds_of_next (execMirrorData_keeps (keeps_frame [.mlk, .dram, .dmc] rfl rfl
    fun _ (h : execMirrorData_offs _) => h) l seq dest data (State.Frame.refl s _ _)) hex
  obtain ⟨p, b, hmlk⟩ := applyMirror_mlk (s.putMlk s.mlk.next) dest.toNat data
  refine ⟨_, hex, ?_, ?_, ?_, fun hlo hhi => ?_, fun hlow => ?_, fun hhigh => ?_, hframe⟩
  · rw [hmlk]
    rfl
  · rw [hmlk]
    rfl
  · rw [hmlk]
    rfl
  · rw [applyMirror_base data hlo hhi]
    exact ⟨rfl, rfl⟩
  · exact applyMirror_low (s.putMlk s.mlk.next) data hlow
  · obtain ⟨hm, hr⟩ := applyMirror_refs (s := s.putMlk s.mlk.next) data hhigh
    exact ⟨by rw [hm]; rfl, by rw [hm]; rfl, State.reg_congr_regs hr _⟩

theorem mirrorData_received {l : Fin 4} (seq : BitVec 24) (dest : BitVec 32) {data : List Byte}
    (h4 : s.fld MLK_LINK_STATUS.STATE = 4) (hd : data.length ≤ 112) (hl : s.Hears l) :
    (s.ahead seq = 0 ∨ 2 ^ 23 ≤ s.ahead seq → exec (.mirrorData l seq dest data) s = .next s)
    ∧ (1 < s.ahead seq → s.ahead seq < 2 ^ 23 →
      (∀ y ∈ s.mlk.held, y.1 ≠ s.mlk.rx + 1 ∧ y.1 ≠ s.mlk.rx + s.ahead seq) → Completes (.mirrorData l seq dest data) s (fun t =>
        t.mlk = { s.mlk with held := (s.mlk.rx + s.ahead seq, dest.toNat, data) :: s.mlk.held } ∧ s.Frame t [.mlk] noReg)) := by
  have hex := mirrorData_exec seq dest h4 hd hl
  refine ⟨fun h => by rw [hex, mirrorFrame_again seq dest data h], fun h1 h23 hh => ?_⟩
  rw [mirrorFrame_gap seq dest data h1 h23 hh] at hex
  exact ⟨_, hex, rfl, State.Frame.putMlk (State.Frame.refl s _ _) (by decide) _⟩

end Sys2Proof.Machine
end

section
/-!
PROOFS. The Fuvon link and the mirror, assembled (R359, R361–R363, R365, R376, R386).
-/
namespace Sys2Proof.Machine

variable {s : State}

/-- The first frame after alignment goes without effect, but that the next is heard. -/
theorem fresh_discards {l : Fin 4} {c : Instr} (hc : exec c s = .next (s.setLane l { s.lane l with fresh := false })) :
    Completes c s (fun t =>
      t.mlk = { s.mlk with lanes := t.mlk.lanes } ∧ t.lane l = { s.lane l with fresh := false }
      ∧ (∀ j, j ≠ l.val → t.lane j = s.lane j) ∧ s.Frame t [.mlk] noReg) :=
  ⟨_, hc, s.setLane_mlk l _, s.lane_setLane_eq l _, fun _ hj => s.lane_setLane_ne _ hj,
    State.Frame.putMlk (State.Frame.refl s _ _) (by decide) _⟩

/-- Settles O31: each clause is the lemma of its command. -/
theorem linkAndMirror : Obligations.LinkAndMirror := by
  intro s st link aligned hears isNew others identitySent down
  refine ⟨fun l gaps => ⟨laneAlign_idle l gaps, laneAlign_aligns l gaps⟩,
    fun l commas => ⟨laneLoss_idle l commas, laneLoss_loses l commas⟩,
    fun present => partnerClockChange_idle present,
    fun h => ⟨partnerClockChange_comes h, partnerClockChange_goes h⟩,
    fun l frame before bits => linkFrameDiscarded_counts frame before bits,
    fun l frame before bits seq h x safe cause port dest data c hc => ⟨fun hl => ?unaligned, fun hl hf h4 hd => ?fresh⟩,
    fun l seq i => ⟨fun h hl => identity_idle l seq i hl h, fun h3 hl hn => identity_takes l seq i h3 hl hn⟩,
    outsideUp_idle,
    fun h4 => ⟨heartbeatSend_sends h4, mirrorRetransmit_resends h4, fun l seq dest data hd hl => ?mirror⟩,
    mirrorLag_idle, mirrorLag_tells⟩
  case unaligned =>
    exact exec_not_taken (State.laneTakes_unaligned hl) frame before bits seq h x safe cause port dest data (.inl rfl) c hc
  case fresh =>
    exact fresh_discards (exec_not_taken (State.laneTakes_fresh hl hf) frame before bits seq h x safe cause port dest data
      (.inr ⟨State.linkUp_iff.mpr h4, hd⟩) c hc)
  case mirror =>
    obtain ⟨hagain, hgap⟩ := mirrorData_received seq dest h4 hd hl
    exact ⟨hagain, mirrorData_next seq dest h4 hd hl, hgap⟩

end Sys2Proof.Machine
end
